-- ==== Sys2Proof/Word.lean ====
section
/-! DEFINITION. Word.lean: the words of the cluster (00_scope R10: bytes are little-endian, bit 0 is the least significant). -/

namespace Sys2Proof

/-- One byte. -/
abbrev Byte := BitVec 8
/-- One 32-bit register word, counter or FP32 pattern. -/
abbrev Word32 := BitVec 32
/-- One 64-bit scalar register, address or timestamp. -/
abbrev Word64 := BitVec 64
/-- An IEEE 754 binary32 bit pattern (04 R76). -/
abbrev Fp32 := BitVec 32

end Sys2Proof
end

