-- ==== Sys2Proof/Syntax.lean ====
section
/-! DEFINITION. Syntax.lean: the commands the cluster takes, one constructor of `Instr` for each row of spec/opcode_table.json,
and the types of their operands. A row names a step of the cluster (95_what_each_step_holds); its operands say where the step
happens (core, context, channel, queue, slot) and what the outside supplies with it (a message, a response, a value, a reading). -/

namespace Sys2Proof

/-- The two contexts of a core (R140). -/
inductive CtxKind where
  | cmd
  | hdl
  deriving DecidableEq, Repr

/-- A context of a core: cores 0 to 3 compute, core 4 control (R18, R140). -/
structure Who where
  core : Fin 5
  ctx : CtxKind
  deriving DecidableEq, Repr

/-- Who makes a register access from outside (R293): the host, always supervisor (R276), or a control core of another cluster at
the privilege and with the JOB of its item (R276). -/
inductive Party where
  | host
  | remote (cluster : Fin 256) (sup : Bool) (job : BitVec 16)
  deriving DecidableEq, Repr

/-- Width of a scalar or register access in bytes. -/
inductive Width where
  | b1
  | b2
  | b4
  | b8
  deriving DecidableEq, Repr

/-- A Parrek message or combining contribution as it arrives at the message port: its destination (R165), its entries of 64
bytes each (R166), and whether it arrived with a Congestion Experienced mark (R229). -/
structure Frame where
  dest : Word32
  entries : List (List Byte)
  marked : Bool
  deriving DecidableEq, Repr

/-- Status of a credit return (R170, R181). -/
inductive RetStatus where
  | ok
  | reset
  | refused (fault : BitVec 16)
  deriving DecidableEq, Repr

/-- A credit return as it arrives at the sender (R170, R230); `gen` is absent for a message refused at step 1 of R171. -/
structure CreditRet where
  dest : Word32
  count : BitVec 16
  gen : Option Byte
  status : RetStatus
  tag : BitVec 16
  job : BitVec 16
  core : BitVec 3
  echo : Bool
  deriving DecidableEq, Repr

/-- The five atomics (R202). -/
inductive AtomOp where
  | add
  | min
  | max
  | xchg
  | cas
  deriving DecidableEq, Repr

/-- An atomic on one word (R202): `signed` for MIN and MAX. -/
structure AtomReq where
  op : AtomOp
  w64 : Bool
  signed : Bool
  operand : Word64
  compare : Word64
  deriving DecidableEq, Repr

/-- What another cluster asks of this Loam (R47, R206): each touches one sector. -/
inductive RemoteOp where
  | read (len : Nat)
  | write (bytes : List Byte)
  | poison
  | atomic (req : AtomReq)
  deriving DecidableEq, Repr

/-- A request of another cluster at the memory port: the Loam offset it names and what it asks. -/
structure RemoteReq where
  cluster : Fin 256
  addr : Nat
  op : RemoteOp
  deriving DecidableEq, Repr

/-- A byte count or a completion pulse from another cluster (R197). -/
inductive AddKind where
  | bytes (n : Word32)
  | pulse
  deriving DecidableEq, Repr

/-- The answer to a memory transaction (R207, R224). -/
inductive MemResp where
  /-- The 64 bytes of a sector read. -/
  | data (bytes : List Byte)
  /-- Poison status in place of data. -/
  | poisoned
  /-- A write, poison write or counter addition was performed. -/
  | ack
  /-- A partial write to a marked sector, not performed (R207). -/
  | poisonRefused
  /-- The old word of an atomic, or the value of a register load. -/
  | word (old : Word64)
  deriving DecidableEq, Repr

/-- What DMA_TO expires for (R257). -/
inductive DmaTarget where
  | channel (ch : Fin 32)
  | txn (id : Nat)
  deriving DecidableEq, Repr

/-- What the failed flit of a link carried (R264). -/
inductive FlitLoad where
  | txn (id : Nat)
  | send (dest : Word32) (tag : BitVec 16) (core : BitVec 3) (job : BitVec 16) (entries : BitVec 16)
  | none
  deriving DecidableEq, Repr

/-- The causes of a wake (R237). -/
inductive Trigger where
  | traffic
  | batch (q : Fin 16)
  | watchdog (w : Who)
  | epoch
  | stayUp
  | core (c : Fin 4)
  deriving DecidableEq, Repr

/-- The commands of the cluster: one constructor for each row of spec/opcode_table.json. -/
inductive Instr where
  -- sequencer steps (07)
  | seqEnd (w : Who)
  | itemEnd (w : Who)
  | seqNop (w : Who)
  | seqFence (w : Who)
  | seqEnq (x : CtxKind)
  -- scalar steps of the control core (07 R155)
  | sclAdd (x : CtxKind)
  | sclSub (x : CtxKind)
  | sclAnd (x : CtxKind)
  | sclOr (x : CtxKind)
  | sclXor (x : CtxKind)
  | sclShl (x : CtxKind)
  | sclShr (x : CtxKind)
  | sclSar (x : CtxKind)
  | sclMul (x : CtxKind)
  | sclSlt (x : CtxKind)
  | sclSltu (x : CtxKind)
  | sclBeq (x : CtxKind)
  | sclBne (x : CtxKind)
  | sclBlt (x : CtxKind)
  | sclBge (x : CtxKind)
  | sclJmp (x : CtxKind)
  | sclLd8 (x : CtxKind)
  | sclLd16 (x : CtxKind)
  | sclLd32 (x : CtxKind)
  | sclLd64 (x : CtxKind)
  | sclSt8 (x : CtxKind)
  | sclSt16 (x : CtxKind)
  | sclSt32 (x : CtxKind)
  | sclSt64 (x : CtxKind)
  | sclRdreg (x : CtxKind)
  | sclWrreg (x : CtxKind)
  -- matrix array (04, 05)
  | arrMma (w : Who)
  | arrEmul (w : Who)
  | arrBqpush (w : Who)
  | arrBqrelease (w : Who)
  | passStart (c : Fin 4)
  | passEnd (c : Fin 4) (mismatch : List Nat)
  | retryRestart (c : Fin 4)
  | arrayRampDown (c : Fin 4)
  | bqDeadlineShip (q : Fin 16)
  -- vector engine (06)
  | epilogueTile (w : Who)
  | vecChain (w : Who)
  | vecMaskld (w : Who)
  | vecMaskst (w : Who)
  | vecStatclr (w : Who)
  | vecSide (w : Who)
  | vecRowclose (w : Who)
  -- DMA (10)
  | dmaIssue (w : Who)
  | dmaIssuem (w : Who)
  | descriptorStart (ch : Fin 32)
  | dmaBeat
  | sectorPerformed (ch : Fin 32)
  | descriptorComplete (ch : Fin 32)
  | dmaChCtrlWrite (p : Party) (ch : Fin 32) (value : Word32)
  -- messages (08)
  | msgSend (w : Who)
  | msgMsend (w : Who)
  | msgRclose (w : Who)
  | sendAccept
  | messageArrival (m : Frame)
  | handlerDispatch (c : Fin 5)
  | combineDelivery (slot : Fin 512)
  | statusEntry (i : Nat)
  | creditReturn (r : CreditRet)
  -- synchronisation and memory (09)
  | synArrive (w : Who)
  | arriveTakesEffect (w : Who)
  | synWait (w : Who)
  | waitComplete (w : Who)
  | synRead (w : Who)
  | synSet (w : Who)
  | atmAdd (w : Who)
  | atmMin (w : Who)
  | atmMax (w : Who)
  | atmXchg (w : Who)
  | atmCas (w : Who)
  | portBufferDrain (sector : Nat)
  | memoryResponse (id : Nat) (r : MemResp)
  | remoteRefusal (id : Nat) (fault : BitVec 16)
  | remoteAccess (r : RemoteReq)
  | remoteCounterAdd (sc : BitVec 13) (k : AddKind)
  | synArriveWrite (p : Party) (sc : BitVec 13) (value : Word32)
  | synSetWrite (p : Party) (sc : BitVec 13) (value : Word32)
  | synPbufFlush (p : Party)
  -- items (07)
  | itemIssue (w : Who)
  | abortSettle (w : Who)
  | cluEnq (p : Party) (c : Fin 5) (value : Word64)
  | preempt (p : Party) (c : Fin 5)
  | preemptPoint (c : Fin 4)
  | preemptSaveDone (c : Fin 4)
  | preemptRestore (c : Fin 4)
  | preemptRestoreDone (c : Fin 4)
  | killCmd (p : Party) (c : Fin 5)
  | killHdl (p : Party) (c : Fin 5)
  | flush (p : Party) (c : Fin 5)
  -- structure image (02)
  | strOpen (p : Party)
  | strValidate (p : Party)
  | validationDone
  | strCommit (p : Party)
  | strAbort (p : Party)
  | strConfirm (p : Party)
  | strStageData (p : Party) (data : Word32)
  | strDeltaData (p : Party) (data : Word32)
  | epochBoundary
  -- journal (11)
  | marlRecordComplete
  | telemetryTimer
  | compactionComplete
  | mrlSealGo (p : Party)
  | mrlSealRetire (p : Party) (serial : Word32)
  | mrlReadAddr (p : Party) (value : Word32)
  -- power (11)
  | idleEntry
  | napEntry
  | coreSleepEntry (c : Fin 4)
  | coreSleepSaveDone (c : Fin 4)
  | wakeTrigger (t : Trigger)
  | fastClockStable (mhz : BitVec 11)
  | pwrClock
  | coreWake (c : Fin 4)
  | pwrCtrlStayup (p : Party) (on : Bool)
  | pwrCtrlOff (p : Party)
  | throttleAssert (temp : BitVec 8)
  | throttleDeassert
  | powerFailWarning
  | pfSafe
  | powerFailClear
  | powerLoss (torn : Nat)
  | startup
  | coreRelease
  -- watchdogs and monitors (12)
  | waitTo (w : Who)
  | sendTo (w : Who)
  | commandTo (c : Fin 5)
  | handlerTo (c : Fin 5)
  | dmaTo (t : DmaTarget)
  | clockMonitorInterval (cycles : Nat)
  | droneClockFault
  | fclkChange (mhz : BitVec 11)
  | droopStart (mv : Nat)
  | droopEnd
  | overVoltage (mv : Nat)
  | tempSample (temp : BitVec 8)
  | scrub (sector : Nat)
  | flitCrcFail (replays : Fin 9) (load : FlitLoad)
  -- messages: control registers (08, 10)
  | msgRingAdvance (p : Party) (c : Fin 5) (ring : Fin 32)
  | msgRingAll (p : Party) (c : Fin 5)
  | msgCreditData (p : Party) (avail : BitVec 16)
  | pacingIncrease
  | pacingAllowance
  -- observation (13)
  | dbgPingGo (p : Party)
  | probeArrival (src : Word32) (dest : Word32)
  | probeReply (t2 t3 : Word64) (fault : BitVec 16)
  | probeTimeout
  | dbgSnapTake (p : Party)
  | dbgSnapRelease (p : Party)
  | snapForwarded (origin : Fin 256)
  | snapshotCaptureDone
  | watchDump (w : Who)
  -- registers (12, 14)
  | registerWrite (p : Party) (off : BitVec 20) (width : Width) (value : Word64)
  | registerRead (p : Party) (off : BitVec 20) (width : Width)
  | traceDrain (n : Nat)
  | imageDecodedAgain (ok : Bool)
  deriving DecidableEq, Repr

end Sys2Proof
end

