-- ==== Sys2Proof/Decode.lean ====
section
/-! DEFINITION. Decode.lean: commands that a word spells by the table's bits. No row of spec/opcode_table.json gives bits (its rows
are steps and events, log 1), so no word spells a command. The instruction words of the cluster are decoded by `decodeOp` in
Machine/Operands.lean. -/

namespace Sys2Proof

/-- The command that a word of `nbits` bits spells: none. -/
def decodeTableWord (_nbits _w : Nat) : Option Instr := none

end Sys2Proof
end

