-- ==== Sys2Proof/Config.lean ====
section
/-! DEFINITION. Config.lean: what the spec fixes for the whole family, and the free values of the model. A free value is a constant
with no body: nothing in Lean can evaluate it, so a statement holds whatever it is (R11; log 5). -/

namespace Sys2Proof.Config

/-- A byte the spec leaves undefined (R11): applied to the counter `State.free`, which a step that needs one advances. -/
opaque freeByte : Nat → Byte
/-- A 32-bit value the spec leaves undefined (R11). -/
opaque freeWord : Nat → Word32
/-- A 64-bit value the spec leaves undefined (R11). -/
opaque freeWord64 : Nat → Word64
/-- The CODE of a trace event of a class, for the model's name of its sub-event (R278 gives no values). -/
opaque traceCode : Nat → Nat → Byte
/-- The bytes of a snapshot entry from offset 0x0A, from its kind and contents (R286 gives the contents and no offsets). -/
opaque snapBody : Nat → List Nat → List Byte

/-- Save-region offsets of R59 and their general forms of R4, in bytes, for array edge `e`: VBs, masks, statistics, sequencer. -/
def saveVb (e : Nat) : Nat := e * e * 6
def saveMasks (e : Nat) : Nat := e * e * 10
def saveStats (e : Nat) : Nat := e * e * 10 + 4096
def saveSeq (e : Nat) : Nat := e * e * 10 + 8192
/-- Length of a save region in bytes (R4, R59). -/
def saveLen (e : Nat) : Nat := e * e * 10 + 16384

/-- Base of the Loam windows and of the register blocks (R14). -/
def loamBase : Nat := 0xC00000000000
def regBase : Nat := 0xE00000000000
/-- End of stack memory, 1.5 TiB (R14). -/
def stackEnd : Nat := 0x018000000000

end Sys2Proof.Config
end

