-- ==== Sys2Proof/Machine/Fp.lean ====
section
/-! DEFINITION. Machine/Fp.lean: exact binary arithmetic and its one rounding, `fl32` (R76), the operand cases of R117 and R118,
and the conversions to BF16 and FP16 (R80). A finite value is a sign, a natural significand and a power of two; every operation
forms the exact result and rounds it once. -/

namespace Sys2Proof.Machine

/-- A value with its specials. The sign of zero is kept. -/
inductive Ext where
  | nan
  | inf (neg : Bool)
  | fin (neg : Bool) (m : Nat) (e : Int)
  deriving DecidableEq, Repr

/-- The canonical quiet NaN (R117). -/
def qNaN : Fp32 := 0x7FC00000#32

/-- `m` shifted right by `s` with ties to even. -/
def rneShift (m s : Nat) : Nat :=
  if s = 0 then m else
    let d := m >>> s
    let r := m - (d <<< s)
    let h := 1 <<< (s - 1)
    if h < r then d + 1 else if r = h then d + d % 2 else d

/-- Rounds the integer n * 2^k to the nearest integer, ties to even (`rne` of R73). -/
def rneInt (n k : Int) : Int :=
  if 0 ≤ k then n * 2 ^ k.toNat
  else
    let r := rneShift n.natAbs (-k).toNat
    if n < 0 then -(r : Int) else (r : Int)

/-- Magnitude bits of m * 2^e rounded to nearest even in a binary format with `mb` fraction bits and least quantum 2^emin. The
result is the encoding read as a number, so a carry out of the significand moves to the next exponent. -/
def roundMag (mb : Nat) (emin : Int) (m : Nat) (e : Int) : Nat :=
  if m = 0 then 0 else
    let lead : Int := (Nat.log2 m : Int) + e
    let q : Int := max (lead - mb) emin
    let sig := if q ≤ e then m <<< (e - q).toNat else rneShift m (q - e).toNat
    (q - emin).toNat * 2 ^ mb + sig

/-- `fl32`: binary32, roundTiesToEven, subnormals kept, overflow to infinity (R76). -/
def fl32 (neg : Bool) (m : Nat) (e : Int) : Fp32 :=
  let b := min (roundMag 23 (-149) m e) 0x7F800000
  BitVec.ofNat 32 (b + (if neg then 0x80000000 else 0))

/-- `fl32` of a signed significand; an exact zero takes the sign `z`. -/
def fl32Int (z : Bool) (m : Int) (e : Int) : Fp32 :=
  if m = 0 then fl32 z 0 0 else fl32 (decide (m < 0)) m.natAbs e

/-- The value of a binary pattern with `eb` exponent and `mb` fraction bits whose top exponent means infinity or NaN. -/
def extOf (eb mb v : Nat) : Ext :=
  let neg := v.testBit (eb + mb)
  let e := (v >>> mb) % 2 ^ eb
  let f := v % 2 ^ mb
  let bias : Int := 2 ^ (eb - 1) - 1
  if e = 2 ^ eb - 1 then (if f = 0 then .inf neg else .nan)
  else if e = 0 then .fin neg f (1 - bias - mb)
  else .fin neg (2 ^ mb + f) (e - bias - mb)

/-- The value of an FP32 pattern. -/
def ext32 (x : Fp32) : Ext := extOf 8 23 x.toNat

/-- The FP32 pattern of a value: exact where it is representable, else rounded once. -/
def fromExt : Ext → Fp32
  | .nan => qNaN
  | .inf neg => if neg then 0xFF800000#32 else 0x7F800000#32
  | .fin neg m e => fl32 neg m e

/-- True for a NaN pattern. -/
def isNaN (x : Fp32) : Bool := ext32 x == .nan

/-- Signed significand of a finite value. -/
def sgn (neg : Bool) (m : Nat) : Int := if neg then -(m : Int) else (m : Int)

/-- Exact sum of two finite values as a signed significand and exponent. -/
def exactSum (m1 : Int) (e1 : Int) (m2 : Int) (e2 : Int) : Int × Int :=
  let e := min e1 e2
  (m1 * 2 ^ (e1 - e).toNat + m2 * 2 ^ (e2 - e).toNat, e)

/-- Sum of two values with the zero and infinity cases of R117, rounded once. -/
def addExt : Ext → Ext → Fp32
  | .nan, _ => qNaN
  | _, .nan => qNaN
  | .inf a, .inf b => if a = b then fromExt (.inf a) else qNaN
  | .inf a, .fin .. => fromExt (.inf a)
  | .fin .., .inf b => fromExt (.inf b)
  | .fin s1 m1 e1, .fin s2 m2 e2 =>
    let r := exactSum (sgn s1 m1) e1 (sgn s2 m2) e2
    fl32Int (s1 && s2 && m1 == 0 && m2 == 0) r.1 r.2

/-- Exact product of two values. -/
def mulExt : Ext → Ext → Ext
  | .nan, _ => .nan
  | _, .nan => .nan
  | .inf a, .inf b => .inf (a != b)
  | .inf a, .fin s m _ => if m = 0 then .nan else .inf (a != s)
  | .fin s m _, .inf b => if m = 0 then .nan else .inf (s != b)
  | .fin s1 m1 e1, .fin s2 m2 e2 => .fin (s1 != s2) (m1 * m2) (e1 + e2)

/-- The value with its sign changed. -/
def negExt : Ext → Ext
  | .nan => .nan
  | .inf a => .inf (!a)
  | .fin s m e => .fin (!s) m e

/-- x + y (R117). -/
def fAdd (x y : Fp32) : Fp32 := addExt (ext32 x) (ext32 y)
/-- x - y (R116). -/
def fSub (x y : Fp32) : Fp32 := addExt (ext32 x) (negExt (ext32 y))
/-- x * y (R117). -/
def fMul (x y : Fp32) : Fp32 := fromExt (mulExt (ext32 x) (ext32 y))
/-- x * y + z, one rounding (R116). -/
def fFma (x y z : Fp32) : Fp32 := addExt (mulExt (ext32 x) (ext32 y)) (ext32 z)

/-- Order of two values that are not NaN: -1, 0 or 1; the two zeros are equal. -/
def cmpExt : Ext → Ext → Int
  | .inf a, .inf b => if a = b then 0 else if a then -1 else 1
  | .inf a, _ => if a then -1 else 1
  | _, .inf b => if b then 1 else -1
  | .fin s1 m1 e1, .fin s2 m2 e2 => (exactSum (sgn s1 m1) e1 (-(sgn s2 m2)) e2).1.sign
  | _, _ => 0

/-- MAX (R117): NaN in, NaN out; +0 above -0. -/
def fMax (x y : Fp32) : Fp32 :=
  if isNaN x || isNaN y then qNaN
  else if cmpExt (ext32 x) (ext32 y) = 0 then (if x.msb then y else x)
  else if cmpExt (ext32 x) (ext32 y) = 1 then x else y

/-- MIN (R117): NaN in, NaN out; -0 below +0. -/
def fMin (x y : Fp32) : Fp32 :=
  if isNaN x || isNaN y then qNaN
  else if cmpExt (ext32 x) (ext32 y) = 0 then (if x.msb then x else y)
  else if cmpExt (ext32 x) (ext32 y) = -1 then x else y

/-- Integer square root, `n` bits of result from the top. -/
def isqrt : Nat → Nat → Nat → Nat
  | 0, _, r => r
  | n + 1, v, r =>
    let c := r + 2 ^ n
    isqrt n v (if c * c ≤ v then c else r)

/-- 1 / x, exact and rounded once (R118). -/
def fRcp (x : Fp32) : Fp32 :=
  match ext32 x with
  | .nan => qNaN
  | .inf s => fl32 s 0 0
  | .fin s m e =>
    if m = 0 then fromExt (.inf s) else
      let k := Nat.log2 m + 64
      let q := 2 ^ k / m
      fl32 s (2 * q + (if q * m = 2 ^ k then 0 else 1)) (-(k : Int) - 1 - e)

/-- 1 / sqrt x, exact and rounded once (R118). -/
def fRsqrt (x : Fp32) : Fp32 :=
  match ext32 x with
  | .nan => qNaN
  | .inf s => if s then qNaN else fl32 false 0 0
  | .fin s m e =>
    if m = 0 then fromExt (.inf s) else if s then qNaN else
      let odd := e % 2 = 1
      let m' := if odd then 2 * m else m
      let e' := if odd then e - 1 else e
      let k := Nat.log2 m' + 64
      let v := 2 ^ (2 * k) / m'
      let r := isqrt (k + 1) v 0
      fl32 false (2 * r + (if r * r * m' = 2 ^ (2 * k) then 0 else 1)) (-(k : Int) - 1 - e' / 2)

/-- Fraction bits of the fixed-point evaluation of 2^x (log 11). -/
def expBits : Nat := 192

/-- ln 2 with `expBits` fraction bits: the sum of 1 / (k 2^k). -/
def ln2Fix : Nat := (List.range 200).foldl (fun a k => a + 2 ^ expBits / ((k + 1) * 2 ^ (k + 1))) 0

/-- exp y for y in fixed point, from its power series, `n` terms from term `k` on. -/
def expSeries : Nat → Nat → Nat → Nat → Nat → Nat
  | 0, _, _, _, acc => acc
  | n + 1, k, y, t, acc =>
    let t' := (t * y) / 2 ^ expBits / k
    expSeries n (k + 1) y t' (acc + t')

/-- 2^x rounded once (R118; evaluation with 192 fraction bits, log 11). -/
def fExp2 (x : Fp32) : Fp32 :=
  match ext32 x with
  | .nan => qNaN
  | .inf s => if s then 0#32 else 0x7F800000#32
  | .fin s m e =>
    let lead : Int := (Nat.log2 m : Int) + e
    if m = 0 then 0x3F800000#32
    else if 9 ≤ lead then (if s then 0#32 else 0x7F800000#32)
    else
      let t : Int := sgn s m * 2 ^ (e + expBits).toNat
      let n : Int := t / 2 ^ expBits
      let f : Nat := (t % 2 ^ expBits).toNat
      if f = 0 then fl32 false 1 n
      else
        let one := 2 ^ expBits
        let y := f * ln2Fix / 2 ^ expBits
        fl32 false (2 * expSeries 70 1 y one one + 1) (n - expBits - 1)

/-- Bits of the fraction of log2, by repeated squaring of y in [1, 2) held with 256 fraction bits. -/
def log2Frac : Nat → Nat → Nat → Nat
  | 0, _, acc => acc
  | n + 1, y, acc =>
    let y2 := y * y / 2 ^ 256
    if 2 ^ 257 ≤ y2 then log2Frac n (y2 / 2) (2 * acc + 1) else log2Frac n y2 (2 * acc)

/-- log2 x rounded once (R118; 112 fraction bits, log 11). -/
def fLog2 (x : Fp32) : Fp32 :=
  match ext32 x with
  | .nan => qNaN
  | .inf s => if s then qNaN else 0x7F800000#32
  | .fin s m e =>
    if m = 0 then 0xFF800000#32 else if s then qNaN else
      let l := Nat.log2 m
      let k : Int := (l : Int) + e
      if m = 2 ^ l then fl32Int false k 0
      else
        let fr := log2Frac 112 (m * 2 ^ (256 - l)) 0
        fl32Int false (2 * (k * 2 ^ 112 + fr) + 1) (-113)

/-- BF16 of an FP32 value (R80): roundTiesToEven, any NaN becomes 0x7FC0. -/
def toBf16 (x : Fp32) : Nat :=
  if isNaN x then 0x7FC0 else
    let b := x.toNat
    (b + 0x7FFF + (b >>> 16) % 2) >>> 16

/-- FP16 of an FP32 value (R80): roundTiesToEven, overflow to infinity, any NaN becomes 0x7E00. -/
def toFp16 (x : Fp32) : Nat :=
  match ext32 x with
  | .nan => 0x7E00
  | .inf s => 0x7C00 + (if s then 0x8000 else 0)
  | .fin s m e => min (roundMag 10 (-24) m e) 0x7C00 + (if s then 0x8000 else 0)

/-- FP32 of a BF16 pattern (R79); a NaN, its payload included, becomes 0x7FC0_0000 (DESIGN CHOICE, log 88). -/
def ofBf16 (v : Nat) : Fp32 := fromExt (ext32 (BitVec.ofNat 32 (v * 65536)))

/-- FP32 of an FP16 pattern (R79); a NaN, its payload included, becomes 0x7FC0_0000 (DESIGN CHOICE, log 88). -/
def ofFp16 (v : Nat) : Fp32 := fromExt (extOf 5 10 v)

end Sys2Proof.Machine
end

