-- ==== Sys2Proof/Machine/Formats.lean ====
section
/-! DEFINITION. Machine/Formats.lean: the storage formats of R70 to R72, their decoding into array integers (R73, R74), the
encoding of block-format data (R79) and its reading as FP32 (R80), and rows of elements as byte strings (R71). -/

namespace Sys2Proof.Machine

/-- The formats of R70. `mxf` carries exponent bits, fraction bits and whether its top codes hold NaN only (E4M3), infinities and
NaN (E5M2), or numbers. -/
inductive MxTop where
  | nanOnly
  | ieee
  | numbers
  deriving DecidableEq, Repr

inductive Fmt where
  | sb (k : Nat)
  | int (k : Nat)
  | mxf (eb mb : Nat) (top : MxTop)
  | mxint8
  | fp32
  | bf16
  | fp16
  deriving DecidableEq, Repr

/-- A format, its block size, and whether its rows hold the codes of whole blocks (Loam and stack memory, R71: a row holds
⌈K/b⌉ blocks of b elements) or of its elements only (VBs, R53). -/
structure FmtD where
  fmt : Fmt
  blk : Nat
  pad : Bool := true
  deriving DecidableEq, Repr

/-- The same format in the row layout of a VB (R53). -/
def FmtD.inVb (d : FmtD) : FmtD := { d with pad := false }

/-- The format code of bits 5:0 of a format descriptor (R70). -/
def fmtOfCode (c : Nat) : Option Fmt :=
  if 0x01 ≤ c ∧ c ≤ 0x0F then some (.sb (c + 1))
  else if 0x10 ≤ c ∧ c ≤ 0x1F then some (.int (c - 0x0F))
  else if c = 0x20 then some (.mxf 4 3 .nanOnly)
  else if c = 0x21 then some (.mxf 5 2 .ieee)
  else if c = 0x22 then some (.mxf 2 3 .numbers)
  else if c = 0x23 then some (.mxf 3 2 .numbers)
  else if c = 0x24 then some (.mxf 2 1 .numbers)
  else if c = 0x25 then some .mxint8
  else if c = 0x28 then some .fp32
  else if c = 0x29 then some .bf16
  else if c = 0x2A then some .fp16
  else none

/-- True for SBk, the formats that allow BLK16 (R70). -/
def Fmt.isSb : Fmt → Bool
  | .sb _ => true
  | _ => false

/-- True for INTk. -/
def Fmt.isInt : Fmt → Bool
  | .int _ => true
  | _ => false

/-- True for formats with an exponent or scale byte per block. -/
def Fmt.hasExp : Fmt → Bool
  | .sb _ | .mxf .. | .mxint8 => true
  | _ => false

/-- A format descriptor byte (R70): none where it is reserved, has bit 7 set, or sets BLK16 where it is not allowed. -/
def fmtD (d : Nat) : Option FmtD :=
  if d ≥ 128 then none else
    match fmtOfCode (d % 64) with
    | none => none
    | some f => if d ≥ 64 then (if f.isSb then some ⟨f, 16, true⟩ else none) else some ⟨f, 32, true⟩

/-- Element bits (R70). -/
def Fmt.bits : Fmt → Nat
  | .sb k => k
  | .int k => k
  | .mxf eb mb _ => 1 + eb + mb
  | .mxint8 => 8
  | .fp32 => 32
  | .bf16 => 16
  | .fp16 => 16

/-- Bytes of the element codes of a row of `n` elements: whole blocks in the layout of R71, rounded up to a whole byte in that of
R53; formats without blocks have no padding codes. -/
def FmtD.codeBytes (d : FmtD) (n : Nat) : Nat :=
  if d.pad && d.fmt.hasExp then cdiv (cdiv n d.blk * d.blk * d.fmt.bits) 8 else cdiv (n * d.fmt.bits) 8

/-- Bytes of a row of `n` elements: codes, then one exponent byte per block (R71). -/
def FmtD.rowBytes (d : FmtD) (n : Nat) : Nat := d.codeBytes n + (if d.fmt.hasExp then cdiv n d.blk else 0)

/-- One decoded element: an integer, a NaN code or an infinity code (R72, R74). -/
inductive Elem where
  | num (n : Int)
  | nan
  | inf (neg : Bool)
  deriving DecidableEq, Repr

/-- The integer n of an element code, or its special kind (R72). -/
def Fmt.elem (f : Fmt) (code : Nat) : Elem :=
  match f with
  | .sb k => .num (signed k code)
  | .int k => if k = 1 then .num code else .num (signed k code)
  | .mxint8 => .num (signed 8 code)
  | .mxf eb mb top =>
    let neg := code.testBit (eb + mb)
    let e := (code >>> mb) % 2 ^ eb
    let m := code % 2 ^ mb
    let mag : Nat := if e = 0 then m else (2 ^ mb + m) * 2 ^ (e - 1)
    match top with
    | .nanOnly => if e = 2 ^ eb - 1 ∧ m = 2 ^ mb - 1 then .nan else .num (sgn neg mag)
    | .ieee => if e = 2 ^ eb - 1 then (if m = 0 then .inf neg else .nan) else .num (sgn neg mag)
    | .numbers => .num (sgn neg mag)
  | _ => .num 0

/-- True for the negative zero of an MX floating format (R72). -/
def Fmt.negZero (f : Fmt) (code : Nat) : Bool :=
  match f with
  | .mxf eb mb _ => code == 2 ^ (eb + mb)
  | _ => false

/-- The quantum exponent q_src of a block with exponent or scale byte `x` (R72). -/
def Fmt.qSrc (f : Fmt) (x : Nat) : Int :=
  match f with
  | .sb k => (x : Int) - 127 - ((k : Int) - 1)
  | .mxf 4 3 _ => (x : Int) - 127 - 9
  | .mxf 5 2 _ => (x : Int) - 127 - 16
  | .mxf 2 3 _ => (x : Int) - 127 - 3
  | .mxf 3 2 _ => (x : Int) - 127 - 4
  | .mxf 2 1 _ => (x : Int) - 127 - 1
  | .mxint8 => (x : Int) - 127 - 6
  | _ => 0

/-- FP32 value of an element code of a block with exponent byte `x` (R80). -/
def Fmt.toFp32 (f : Fmt) (code x : Nat) : Fp32 :=
  match f with
  | .fp32 => BitVec.ofNat 32 code
  | .bf16 => ofBf16 code
  | .fp16 => ofFp16 code
  | _ =>
    if f.hasExp && x == 0xFF then qNaN else
      match f.elem code with
      | .nan => qNaN
      | .inf s => fromExt (.inf s)
      | .num n => fl32Int (f.negZero code) n (f.qSrc x)

/-- The element codes of a row, read as one little-endian bit string (R71). -/
def FmtD.codes (d : FmtD) (row : List Byte) (n : Nat) : List Nat :=
  let v := leNat (row.take (d.codeBytes n))
  (List.range n).map fun i => (v >>> (i * d.fmt.bits)) % 2 ^ d.fmt.bits

/-- The exponent byte of the block that holds element `i` of a row of `n` elements; 0 where the format has none. -/
def FmtD.expAt (d : FmtD) (row : List Byte) (n i : Nat) : Nat :=
  if d.fmt.hasExp then (row.getD (d.codeBytes n + i / d.blk) 0).toNat else 0

/-- A row read as FP32 values (R80). -/
def FmtD.readFp (d : FmtD) (row : List Byte) (n : Nat) : List Fp32 :=
  (d.codes row n).mapIdx fun i c => d.fmt.toFp32 c (d.expAt row n i)

/-- A row of an INT format read as integers. -/
def FmtD.readInt (d : FmtD) (row : List Byte) (n : Nat) : List Int :=
  (d.codes row n).map fun c => match d.fmt.elem c with
    | .num v => v
    | _ => 0

/-- Smallest signed width that holds an integer. -/
def intWidth (n : Int) : Nat :=
  let a : Nat := if n < 0 then (-n - 1).toNat else n.toNat
  (if a = 0 then 0 else Nat.log2 a + 1) + 1

/-- The width sw of R73: 0 when no element is a number other than zero. -/
def blockWidth (es : List Elem) : Nat :=
  es.foldl (fun w e => match e with
    | .num n => if n = 0 then w else max w (intWidth n)
    | _ => w) 0

/-- Clamp of an integer. -/
def clampI (v lo hi : Int) : Int := max lo (min hi v)

/-- A decoded block: its elements as array integers, its quantum, and how many elements the clamp changed (R73). -/
structure DecBlk where
  es : List Elem
  q : Int
  sat : Nat
  deriving DecidableEq, Repr

/-- R73: decoding of one stored block at width `w`; INT1 at width 1 is taken as it stands. -/
def decBlock (w : Nat) (int1 : Bool) (es : List Elem) (qsrc : Int) : DecBlk :=
  if int1 then ⟨es, qsrc, 0⟩ else
    let sw := blockWidth es
    let sh : Nat := if sw ≤ w then 0 else sw - w
    let r := es.map fun e => match e with
      | .num n =>
        let m := rneInt n (-(sh : Int))
        (Elem.num (clampI m (-(2 ^ (w - 1))) (2 ^ (w - 1) - 1)), decide (2 ^ (w - 1) - 1 < m))
      | o => (o, false)
    ⟨r.map (·.1), qsrc + sh, (r.filter (·.2)).length⟩

/-- Cuts a list into blocks of `b`. -/
def chunks {α : Type} (b : Nat) : Nat → List α → List (List α)
  | 0, _ => []
  | fuel + 1, l => if l.isEmpty then [] else l.take b :: chunks b fuel (l.drop b)

/-- The blocks of a row of length `n`, decoded at width `w`; an INT row has no blocks of its own and is cut at `pb` (R75). -/
def FmtD.decRow (d : FmtD) (w pb : Nat) (row : List Byte) (n : Nat) : List DecBlk :=
  let b := if d.fmt.hasExp then d.blk else pb
  let es := (d.codes row n).map d.fmt.elem
  (chunks b n es).mapIdx fun i es =>
    let x := d.expAt row n (i * b)
    if d.fmt.hasExp && x == 0xFF then ⟨es.map fun _ => .nan, 0, 0⟩
    else decBlock w (d.fmt == .int 1) es (d.fmt.qSrc x)

/-- emax of R79. -/
def Fmt.emax : Fmt → Int
  | .sb _ => -1
  | .mxf 4 3 _ => 8
  | .mxf 5 2 _ => 15
  | .mxf 2 3 _ => 2
  | .mxf 3 2 _ => 4
  | .mxf 2 1 _ => 2
  | _ => 0

/-- Least quantum of an MX floating element. -/
def mxEmin (eb mb : Nat) : Int := 2 - 2 ^ (eb - 1) - mb

/-- floor_log2 of a magnitude, with an infinity counted as f_max; none for zero (R79). -/
def floorLog2 : Ext → Option Int
  | .fin _ m e => if m = 0 then none else some (Nat.log2 m + e)
  | .inf _ => some 127
  | .nan => none

/-- to_element of R79 for u = v / 2^(e - 127). An MX floating code of a negative value that rounds to zero keeps S = 1 (DESIGN CHOICE,
log 88). -/
def Fmt.toElement (f : Fmt) (v : Fp32) (x : Nat) : Nat :=
  let sh : Int := 127 - (x : Int)
  match f with
  | .sb k =>
    let top : Int := 2 ^ (k - 1) - 1
    let m : Int := match ext32 v with
      | .fin s m e => clampI (rneInt (sgn s m) (e + sh + (k - 1 : Nat))) (-top) top
      | .inf s => if s then -top else top
      | .nan => 0
    (m % 2 ^ k).toNat
  | .mxint8 =>
    let m : Int := match ext32 v with
      | .fin s m e => clampI (rneInt (sgn s m) (e + sh + 6)) (-127) 127
      | .inf s => if s then -127 else 127
      | .nan => 0
    (m % 256).toNat
  | .mxf eb mb top =>
    let hi : Nat := match top with
      | .nanOnly => 2 ^ (eb + mb) - 2
      | .ieee => (2 ^ eb - 1) * 2 ^ mb - 1
      | .numbers => 2 ^ (eb + mb) - 1
    match ext32 v with
    | .fin s m e => min (roundMag mb (mxEmin eb mb) m (e + sh)) hi + (if s then 2 ^ (eb + mb) else 0)
    | .inf s => (if top = .ieee then hi + 1 else hi) + (if s then 2 ^ (eb + mb) else 0)
    | .nan => 0
  | _ => 0

/-- The larger of an exponent and that of a value, where there are any (R79). -/
def topLog2 (a : Option Int) (v : Fp32) : Option Int :=
  match a, floorLog2 (ext32 v) with
  | some x, some y => some (max x y)
  | none, y => y
  | x, none => x

/-- R79: one block of FP32 values as element codes and exponent byte. -/
def Fmt.encBlock (f : Fmt) (vs : List Fp32) : List Nat × Nat :=
  if vs.any isNaN then (vs.map fun _ => 0, 0xFF) else
    let e : Nat := match vs.foldl topLog2 none with
      | none => 0
      | some l => (clampI (l + 127 - f.emax) 0 254).toNat
    (vs.map fun v => f.toElement v e, e)

/-- Packs element codes of `k` bits into one little-endian bit string (R71). -/
def packCodes (k : Nat) (cs : List Nat) : Nat := cs.foldr (fun c a => c + a * 2 ^ k) 0

/-- A row of FP32 values written in a format (R71, R79, R80); for an INT format the codes are those of `encIntRow`. -/
def FmtD.encRow (d : FmtD) (vs : List Fp32) : List Byte :=
  let n := vs.length
  if d.fmt.hasExp then
    let bs := (chunks d.blk n vs).map d.fmt.encBlock
    leBytes (d.codeBytes n) (packCodes d.fmt.bits (bs.flatMap (·.1))) ++ bs.map fun b => BitVec.ofNat 8 b.2
  else
    let cs := vs.map fun v => match d.fmt with
      | .bf16 => toBf16 v
      | .fp16 => toFp16 v
      | _ => v.toNat
    leBytes (d.codeBytes n) (packCodes d.fmt.bits cs)

/-- A row of integers written in a format of `k` bits an element. -/
def encIntRow (k : Nat) (vs : List Int) : List Byte :=
  leBytes (cdiv (vs.length * k) 8) (packCodes k (vs.map fun v => (v % 2 ^ k).toNat))

/-- Integer of an FP32 value by rne and clamp; counted where it is NaN, an infinity or out of range (R113, R117). -/
def fpToInt (lo hi : Int) (x : Fp32) : Int × Bool :=
  match ext32 x with
  | .nan => (0, true)
  | .inf s => (if s then lo else hi, true)
  | .fin s m e =>
    let v := rneInt (sgn s m) e
    if v < lo then (lo, true) else if hi < v then (hi, true) else (v, false)

/-- FP32 of an integer (R116). -/
def intToFp (v : Int) : Fp32 := fl32Int false v 0

end Sys2Proof.Machine
end

