-- ==== Sys2Proof/Machine/Tab.lean ====
section
/-! DEFINITION. Machine/Tab.lean: sparse tables and sparse memories as plain data. A table is a list of (key, value) pairs with
rising keys; a key that is not listed holds the table's default. A memory is a table of bytes in which no listed byte is zero, so
equal memories are equal lists. -/

namespace Sys2Proof.Machine

/-- A sparse table keyed by a number. -/
abbrev Tab (α : Type) := List (Nat × α)

/-- The value of key `k`, `d` where it is not listed. -/
def tabGet {α : Type} (d : α) : Tab α → Nat → α
  | [], _ => d
  | (k', v) :: t, k => if k' = k then v else tabGet d t k

/-- Sets key `k` to `v`, keeping the keys rising. -/
def tabSet {α : Type} : Tab α → Nat → α → Tab α
  | [], k, v => [(k, v)]
  | (k', v') :: t, k, v =>
    if k < k' then (k, v) :: (k', v') :: t
    else if k' = k then (k, v) :: t
    else (k', v') :: tabSet t k v

/-- Removes key `k`. -/
def tabErase {α : Type} : Tab α → Nat → Tab α
  | [], _ => []
  | (k', v') :: t, k => if k' = k then t else (k', v') :: tabErase t k

/-- Replaces the value of key `k` by a function of it. -/
def tabMod {α : Type} (d : α) (t : Tab α) (k : Nat) (f : α → α) : Tab α :=
  tabSet t k (f (tabGet d t k))

/-- Keys of the list are rising. -/
def keysRise {α : Type} : Tab α → Bool
  | [] => true
  | (k, _) :: t =>
    match t with
    | [] => true
    | (k', _) :: _ => k < k' && keysRise t

/-- A memory: addresses rising, no listed byte zero (an unlisted address reads 0, R66 and log 4). -/
abbrev Mem := List (Nat × Byte)

/-- The canonical form of a memory. -/
def Mem.wf (m : Mem) : Bool := keysRise m && m.all (fun c => c.2 != 0)

/-- The byte at an address. -/
def Mem.get (m : Mem) (a : Nat) : Byte := tabGet 0 m a

/-- Inserts a byte: writing 0 removes the entry. -/
def Mem.set (m : Mem) (a : Nat) (v : Byte) : Mem :=
  if v = 0 then tabErase m a else tabSet m a v

/-- Writes consecutive bytes from `a`. -/
def Mem.write (m : Mem) (a : Nat) : List Byte → Mem
  | [] => m
  | b :: bs => Mem.write (m.set a b) (a + 1) bs

/-- The `n` bytes from `a`. -/
def Mem.read (m : Mem) (a n : Nat) : List Byte := (List.range n).map fun i => m.get (a + i)

/-- Inserts a number into a rising list without repeats. -/
def setInsert : List Nat → Nat → List Nat
  | [], k => [k]
  | k' :: t, k => if k < k' then k :: k' :: t else if k' = k then k' :: t else k' :: setInsert t k

/-- Removes a number from a list. -/
def setErase (l : List Nat) (k : Nat) : List Nat := l.filter (· != k)

end Sys2Proof.Machine
end

