-- ==== Sys2Proof/Machine/State.lean ====
section
/-! DEFINITION. Machine/State.lean: every piece of state the spec gives the cluster, as plain data, and the state at the release of
the always-on reset (R254 step 1, R298). Each sub-structure's defaults are its reset values; INVENTORY.md lists them with their
rules. Fields marked "model" are the model's own and named in the assumption log. -/

namespace Sys2Proof.Machine

/-- Why the model stops with a fault. The cluster's own fault codes (R300) are data and stop nothing, so no meaning raises this:
safe. -/
inductive Fault where
  /-- Raised by no command: kept so that the type is closed and named. Safe. -/
  | neverRaised
  deriving DecidableEq, Repr

/-- Why the model refuses a command. -/
inductive Refusal where
  /-- Raised by an arm of exec that has no meaning yet. Safe. -/
  | notModelled (mnemonic : String)
  deriving DecidableEq, Repr

/-! ### Identity and structure image -/

/-- CLU_ID.STEPPING (R6). -/
inductive Stepping where
  | a1
  | b0
  deriving DecidableEq, Repr

/-- The member's parameters and position (R2, R5, R18); stepping and position are DESIGN CHOICE values of log 9. -/
structure Ident where
  edgeLog2 : Nat := 8
  cores : Nat := 4
  loamMib : Nat := 24
  stepping : Stepping := .b0
  cluster : Fin 32 := 0
  die : Fin 8 := 0
  deriving DecidableEq, Repr

/-- Loam region kinds (R23, R46). -/
inductive RegionKind where
  | priv
  | shared
  | ring
  | save
  | overflow
  | trace
  | journal
  | exportWin
  deriving DecidableEq, Repr

/-- A Loam region of the image (R23). `owner` 0xFF is none. -/
structure Region where
  kind : RegionKind
  owner : Nat
  perm : Nat
  param : Nat
  base : Nat
  size : Nat
  deriving DecidableEq, Repr

/-- Limits of a compute core (KVB section, R23): KAO_KIB and VB0_KIB to VB3_KIB. -/
structure Kvb where
  kao : Nat := 0
  vb : List Nat := [0, 0, 0, 0]
  deriving DecidableEq, Repr

/-- A handler-table entry (R24). -/
structure HEntry where
  sector : Nat
  core : Nat
  ring : Nat
  sup : Bool
  combine : Bool
  valid : Bool
  slot : Nat
  expect : Nat
  deriving DecidableEq, Repr

/-- A run of tags with one handler entry (R24). -/
structure HRun where
  first : Nat
  count : Nat
  entry : HEntry
  deriving DecidableEq, Repr

/-- A range of sync counters (R25). -/
structure SyncRange where
  first : Nat
  count : Nat
  scope : Nat
  owner : Nat
  deriving DecidableEq, Repr

/-- A credit entry (R26). -/
structure CreditEnt where
  dest : Nat
  allot : Nat
  deriving DecidableEq, Repr

/-- A watch entry (R282). -/
structure WatchEnt where
  tensor : Nat := 0
  step : Nat := 0
  layer : Nat := 0
  valid : Bool := false
  dumpAddr : Nat := 0
  dumpLen : Nat := 0
  deriving DecidableEq, Repr

/-- A decoded Lengeper image (R21 to R27, R277). -/
structure Image where
  id : Nat := 0
  coreEn : Nat := 0
  bypass : List Nat := [0, 0, 0, 0]
  regions : List Region := []
  kvb : List Kvb := [{}, {}, {}, {}]
  handlers : List HRun := []
  syncs : List SyncRange := []
  credits : List CreditEnt := []
  dmaPrio : List Nat := []
  traceMask : Nat := 0
  watches : List WatchEnt := []
  waitTo : Nat := 0
  sendTo : Nat := 0
  commandTo : Nat := 0
  handlerTo : Nat := 0
  dmaTo : Nat := 0
  epochLen : Nat := 0
  deriving DecidableEq, Repr

/-- STR_STATUS.STAGE_STATE. -/
inductive StageState where
  | empty
  | opened
  | validating
  | valid
  | invalid
  | journaling
  | pending
  | committing
  deriving DecidableEq, Repr

/-- An image as the journal holds it (R249, R251): IMAGE_ID, bytes, SERIAL and TIME of its IMAGE record, SERIAL and TIME of its COMMIT
record, the epoch of its swap, and its complete delta records (SERIAL, TIME, body), oldest first. -/
structure OnRecord where
  id : Nat := 0
  bytes : List Byte := []
  serial : Nat := 0
  time : Nat := 0
  commit : Nat := 0
  commitTime : Nat := 0
  epoch : Nat := 0
  deltas : List (Nat × Nat × List Byte) := []
  deriving DecidableEq, Repr

/-- The STR_ block (02, R28 to R40). -/
structure Str where
  liveSlot : Bool := false
  liveValid : Bool := false
  stage : StageState := .empty
  commitDone : Bool := false
  awaitConfirm : Bool := false
  stageBytes : List Byte := []
  staged : Image := {}
  valFault : Nat := 0
  valSection : Nat := 0
  valOffset : Nat := 0
  /-- the live image in decoded form, its deltas applied (R37) -/
  live : Image := {}
  /-- the live image as the journal holds it, or will once its COMMIT record is complete (R251) -/
  record : OnRecord := {}
  /-- from step 3 to step 7 of R32: the image that was live before, committed still (R34) -/
  prior : Option OnRecord := none
  epoch : Word32 := 0
  epochTicks : Nat := 0
  deltaBuf : List Byte := []
  deltaState : Nat := 0
  deltaSkipped : Nat := 0
  deltaFault : Nat := 0
  deltaSeq : Nat := 0
  deltaTotal : Nat := 0
  /-- the IMAGE_ID that STR_LIVE_ID shows: that of the last commit at step 7 of R32 -/
  shownId : Nat := 0
  /-- boundaries without quiescence since the commit became pending (R31) -/
  bounds : Nat := 0
  /-- drone ticks since boundary T of R32, while a swap is under way -/
  swap : Option Nat := none
  /-- SERIAL and TIME of the staged image's IMAGE record -/
  imageSerial : Nat := 0
  imageTime : Nat := 0
  /-- a commit waits for a compaction (R251) -/
  commitWaits : Bool := false
  /-- the staging slot holds an uncorrectable upset (R40, log 13) -/
  slotFlip : Bool := false
  deriving DecidableEq, Repr

/-! ### Stores -/

/-- A store with poison tags and upset words (R61, R62): bytes, the poisoned units (64-byte sectors of Loam and VBs, 256-byte row
segments of Kaolin), the 64-bit words with one flipped bit (false) or two (true), by word index, and the units whose tag has one of
its three bits flipped (log 13). `poison` is the majority reading of each tag. -/
structure Store where
  cells : Mem := []
  poison : List Nat := []
  flips : List (Nat × Bool) := []
  tagFlips : List Nat := []
  deriving DecidableEq, Repr

/-! ### Items -/

/-- An item header (R143). -/
structure Hdr where
  hdrFmt : Nat := 0
  flags : Nat := 0
  nOuts : Nat := 0
  layer : Nat := 0
  operator : Nat := 0
  step : Nat := 0
  tensor : Nat := 0
  codeLen : Nat := 0
  kaoBase : Nat := 0
  kaoLen : Nat := 0
  /-- BASE and LEN in KiB for VB0 to VB3 -/
  vb : List (Nat × Nat) := []
  job : Nat := 0
  doneSc : Nat := 0
  /-- all eight OUT entries: ADDR, LEN, reserved -/
  outs : List (Nat × Nat × Nat) := []
  /-- every reserved byte of the header is zero -/
  resZero : Bool := true
  deriving DecidableEq, Repr

/-- A command record (R271); counts beyond the named ones are the engine counts (BUSY, STALL, IDLE for SEQ, ARR, VEC, DMA, MSG) and
the reason counts. -/
structure Rec where
  job : Nat := 0
  layer : Nat := 0
  operator : Nat := 0
  core : Nat := 0
  hdl : Bool := false
  ended : Bool := false
  sup : Bool := false
  aborted : Bool := false
  watched : Bool := false
  step : Nat := 0
  tensor : Nat := 0
  addr : Nat := 0
  fault : Nat := 0
  preempts : Nat := 0
  start : Word64 := 0
  stop : Word64 := 0
  cycles : Nat := 0
  preemptCycles : Nat := 0
  arrSat : Nat := 0
  arrNan : Nat := 0
  vecSat : Nat := 0
  vecNan : Nat := 0
  retry : Nat := 0
  eng : Tab Nat := []
  reasons : Tab Nat := []
  deriving DecidableEq, Repr

/-- What an item waits for beyond its next instruction. -/
inductive Pend where
  | none
  /-- SYN.WAIT (R190) -/
  | wait (sc scope : Nat) (target : Word32)
  /-- SYN.ARRIVE (R193) -/
  | arrive (sc scope : Nat) (value : Word32)
  /-- a send that awaits acceptance (R169) -/
  | send
  /-- an answer of the memory port (R200, R204, R293) -/
  | memory (txn : Nat)
  deriving DecidableEq, Repr

/-- The message a handler runs on (R172): its ring, its entries, where its first entry lies, its header and credit return. -/
structure MsgRef where
  ring : Nat
  entries : Nat
  first : Nat
  header : List Byte
  marked : Bool
  deriving DecidableEq, Repr

/-- A watch entry that matched at the start latch (R282): index, dump address, dump length, FIRE count after this fire. -/
structure WatchHit where
  idx : Nat
  addr : Nat
  len : Nat
  fire : Nat
  deriving DecidableEq, Repr

/-- A dump in progress (R283): TIME, FAULT, the next output region, bytes written so far, and the number of its header's write. -/
structure Dump where
  time : Nat
  fault : Nat
  next : Nat := 0
  copied : Nat := 0
  header : Option Nat := none
  deriving DecidableEq, Repr

/-- An item under abort (R147): its fault; `snap` while the sieve snapshot that precedes a watchdog abort is not recorded (R258);
`poisoned` once step 4 has begun, with the sectors elsewhere whose poison writes are still to be issued (R206, R224); the drone tick
of the fault, what the item waited for then, and the watchdogs that expired for it since (R258). -/
structure Abort where
  fault : Nat
  snap : Bool := false
  poisoned : Bool := false
  left : List Nat := []
  tick : Nat := 0
  was : Pend := .none
  seen : List Nat := []
  deriving DecidableEq, Repr

/-- An item in a context (R140 to R147). -/
structure Item where
  /-- model: which item this is, for descriptors and transactions that outlive it -/
  no : Nat := 0
  addr : Nat := 0
  hdr : Hdr := {}
  sup : Bool := false
  /-- JOB that the header must carry (R142), when the enqueuing item ran at job privilege -/
  jobReq : Option Nat := none
  urgent : Bool := false
  /-- item offset of the next instruction (R155) -/
  off : Nat := 192
  /-- SEQ.END reached (R146) -/
  ending : Bool := false
  pend : Pend := .none
  /-- stall reason (R273) while the next instruction waits on a condition outside the item -/
  blocked : Option Nat := none
  /-- that instruction runs to completion before a pre-emption (R158) -/
  inProgress : Bool := false
  /-- a VEC.CHAIN in progress: its 256 × 256 blocks already run, and its descriptor, read at decode (R125, R138, R139) -/
  chain : Option (Nat × List Byte) := none
  /-- cycles of the first stationary load that have run while the item's next instruction, a matrix one, waits at an interlock (R88) -/
  loadRun : Nat := 0
  /-- cycles that bank conflicts of the item's vector instructions still have to take (R43, R139) -/
  bank : Nat := 0
  /-- a send that passed R168 waits for earlier instructions of the item; SEND_TO runs (R151, R257) -/
  sendWaits : Bool := false
  /-- Loam ranges written outside the declared output regions: undefined after an abort (R57) -/
  wrote : List (Nat × Nat) := []
  /-- S1 to S31 (R154) -/
  sregs : Tab Word64 := []
  msg : Option MsgRef := none
  /-- counted ticks of COMMAND_TO or HANDLER_TO, and of WAIT_TO or SEND_TO (R257) -/
  cmdTicks : Nat := 0
  waitTicks : Nat := 0
  /-- a watchdog expired and its snapshot is requested; the fault waits for the capture (R258) -/
  abort : Option Abort := none
  watch : List WatchHit := []
  /-- the dump of the first entry of `watch`, once it has begun -/
  dump : Option Dump := none
  record : Rec := {}
  deriving DecidableEq, Repr

/-- Phase of a context: CLU_CORE_STATUS.CMD and HDL. -/
inductive Phase where
  | idle
  | issuing
  | waitRange
  | running
  | preempting
  | saving
  | restoring
  | aborting
  deriving DecidableEq, Repr

/-- A context of a core (R140). -/
structure Ctx where
  phase : Phase := .idle
  item : Item := {}
  deriving DecidableEq, Repr

/-- A queued command (R141, R142): header address, privilege, JOB requirement. -/
structure QEntry where
  addr : Nat
  sup : Bool
  jobReq : Option Nat
  deriving DecidableEq, Repr

/-! ### Array -/

/-- Initial accumulator value (R81). -/
inductive Init where
  | zero
  | keep
  | load
  deriving DecidableEq, Repr

/-- ARR.MMA or ARR.EMUL as decoded (R152). -/
structure MmaOp where
  emul : Bool := false
  smode : Nat := 0
  int32 : Bool := false
  init : Nat := 0
  abatch : Bool := false
  m : Nat := 0
  n : Nat := 0
  k : Nat := 0
  kbase : Nat := 0
  aAddr : Nat := 0
  aPitch : Nat := 0
  aFmt : Nat := 0
  aWidth : Nat := 0
  aPro : Nat := 0
  bAddr : Nat := 0
  bPitch : Nat := 0
  bFmt : Nat := 0
  bWidth : Nat := 0
  bPro : Nat := 0
  epi : Nat := 0
  loadAddr : Nat := 0
  loadPitch : Nat := 0
  deriving DecidableEq, Repr

/-- Where a retry of R103 starts from. -/
inductive RetryPoint where
  | zero
  | load
  | copy
  | saved
  | nowhere
  deriving DecidableEq, Repr

/-- A matrix instruction that the array runs (R87 to R104): its effective width, its number of passes, the next pass and whether it is
running, the item offset of its instruction, the pass the retry point precedes, the passes completed at least once (their counts are not made again), a restart that is
due, the pass and columns of the mismatch being retried, the epilogue tiles that are complete and not yet run, how many have not run,
the batch rows it streams, the bytes of its chain descriptors, read at decode (R125), and the bubble cycles that the running pass still
has to take, by stall reason (R94, R273). -/
structure ArrJob where
  who : Who
  itemNo : Nat
  op : MmaOp
  width : Nat
  passes : Nat
  next : Nat := 0
  running : Bool := false
  off : Nat := 0
  base : Nat := 0
  top : Nat := 0
  restart : Bool := false
  retryAt : Option Nat := none
  bad : List Nat := []
  retryPoint : RetryPoint := .zero
  tiles : List Nat := []
  tilesLeft : Nat := 0
  rows : List Nat := []
  epi : List Byte := []
  aPro : List Byte := []
  bPro : List Byte := []
  bubbles : List (Nat × Nat) := []
  /-- passes whose stationary operand has been loaded once: its prologue's counts are not made again (R127, R275) -/
  loaded : Nat := 0
  /-- the model's own number of the instruction among those of its core -/
  no : Nat := 0
  /-- cycles of the load of its first sub-tile that have run before its first pass: behind a pass, on an idle array or at an interlock
  (R88) -/
  loadRun : Nat := 0
  deriving DecidableEq, Repr

/-- What the front or the back stationary registers of an array hold (R88): the instruction (by its number in the core) and pass whose
sub-tile was loaded, and the sub-tile's rows as the cells take them, decoded (R73), with their exponents at the edge. -/
structure StatReg where
  job : Nat
  pass : Nat
  rows : List (List DecBlk)
  deriving DecidableEq, Repr

/-! ### Messages -/

/-- A message held in a ring (R172): entries, whether it holds credits of its sender, and whether it arrived marked. -/
structure RingMsg where
  entries : Nat
  credited : Bool
  marked : Bool
  deriving DecidableEq, Repr

/-- A ring's pointers, generation and messages not yet dispatched (R172, R180). -/
structure Ring where
  wr : Nat := 0
  rd : Nat := 0
  occ : Nat := 0
  gen : Byte := 0
  msgs : List RingMsg := []
  deriving DecidableEq, Repr

/-- Credits toward a destination: available, entries outstanding (R33), and the generation of the last return (R169, R180). -/
structure Credit where
  avail : Nat := 0
  out : Nat := 0
  gen : Option Byte := none
  deriving DecidableEq, Repr

/-- A send that waits for acceptance (R168, R169). -/
structure Send where
  who : Who
  itemNo : Nat
  dests : List Nat
  tag : Nat
  len : Nat
  addr : Nat
  combine : Bool
  masked : Bool
  cmask : Nat
  round : Nat
  offset : Nat
  cidx : Nat
  deriving DecidableEq, Repr

/-- A parked contribution (R176): its cell, slot, round and index; header and payload lie in the cell. -/
structure Parked where
  cell : Nat
  slot : Nat
  round : Nat
  cidx : Nat
  entries : Nat
  marked : Bool
  deriving DecidableEq, Repr

/-- A combining slot (R175 to R178); `seen` are the indices counted in the current round; the *Next fields belong to the next
round. -/
structure Slot where
  round : Nat := 0
  next : Nat := 0
  count : Nat := 0
  seen : List Nat := []
  failCur : Bool := false
  failCode : Nat := 0
  failNum : Nat := 0
  failNext : Bool := false
  nextCode : Nat := 0
  nextNum : Nat := 0
  nextSeen : List Nat := []
  len : Nat := 0
  vals : Tab Fp32 := []
  /-- upset words of the slot's part of the combine store: two positions each, two flipped bits (true) or one (R61, log 13) -/
  flips : List (Nat × Bool) := []
  delivering : Bool := false
  /-- tag of the handler entry that contributions named -/
  tag : Nat := 0
  deriving DecidableEq, Repr

/-- A status entry that waits for room (R181). -/
structure StatusEnt where
  core : Nat
  dest : Nat
  fault : Nat
  tag : Nat
  credits : Nat
  gen : Nat
  kind : Nat
  job : Nat
  deriving DecidableEq, Repr

/-- A pacing entry (R230). -/
structure Pace where
  rate : Nat := 0x7D0
  allow : Nat := 0x1F400
  deriving DecidableEq, Repr

/-- The message unit and the combining queue (08, R228 to R231). -/
structure Msg where
  statusEn : Tab Bool := []
  statusTag : Tab Nat := []
  creditSel : Nat := 0
  peekSel : Nat := 0
  refFault : Nat := 0
  refTag : Nat := 0
  refSrc : Nat := 0
  credits : Tab Credit := []
  rings : Tab Ring := []
  sends : List Send := []
  /-- send buffers that hold a message accepted and not yet gone, of 64 (R169, log 78) -/
  bufs : Nat := 0
  status : List StatusEnt := []
  slots : Tab Slot := []
  parked : List Parked := []
  node : Nat := 0
  nodeValid : Bool := false
  paceEn : Bool := true
  maxRate : Nat := 0x7D0
  paceStep : Nat := 0x10
  paceSel : Nat := 0
  pace : Tab Pace := []
  /-- drone ticks since the last increase and the last growth of allowances (R230) -/
  rateTicks : Nat := 0
  allowTicks : Nat := 0
  deriving DecidableEq, Repr

/-! ### Synchronisation, memory port, DMA -/

/-- A port-buffer entry (R192, R204): one sector toward stack memory or another cluster's Loam, the bytes it holds, whether it
holds an atomic result, the items whose writes it holds, and the transaction that is writing it out. -/
structure PEntry where
  sector : Nat
  data : Tab Byte
  atomic : Bool
  writers : List Nat
  out : Option Nat
  deriving DecidableEq, Repr

/-- What an outstanding memory transaction is for (R224). -/
inductive TxnKind where
  /-- SCL load: destination register, byte offset in the sector, bytes, whether it reads through the cache, whether it fills a line
  (R201), and the bytes that the cluster has written over the sector since before it was issued (R185) -/
  | load (w : Who) (itemNo rd off len : Nat) (cache fill : Bool) (laid : Tab Byte)
  /-- volatile SCL store: the item waits (R200) -/
  | store (w : Who) (itemNo : Nat)
  /-- a port-buffer entry on its way out -/
  | drain
  /-- fetch of a sector for an atomic in the port buffer (R204) -/
  | fetch (w : Who) (itemNo off : Nat) (req : AtomReq) (ret : Option Nat)
  /-- an atomic at the point of coherence (R204) -/
  | atomic (w : Who) (itemNo : Nat) (ret : Option Nat) (w64 : Bool)
  /-- a load or store of another cluster's register block (R293) -/
  | reg (w : Who) (itemNo : Nat) (rd : Option Nat)
  /-- a DMA source sector: channel, descriptor number, offset in the sector and bytes wanted, whether it goes as latency-critical
  (R227), and the bytes that the cluster has written over the sector since before it was issued (R185) -/
  | dmaRead (ch desc off len : Nat) (critical : Bool) (laid : Tab Byte)
  /-- a DMA destination sector: channel, descriptor number, bytes counted -/
  | dmaWrite (ch desc n : Nat)
  /-- a byte count or completion pulse toward another cluster; with the issuing context and item, which outlive the descriptor (R197,
  R221) -/
  | count (ch desc : Nat) (w : Who) (itemNo : Nat)
  /-- poison writes of an output region (R206) -/
  | poison (w : Who) (itemNo : Nat)
  deriving DecidableEq, Repr

/-- An outstanding memory transaction: number, package address, purpose, ticks counted by DMA_TO, abandoned (R259). -/
structure Txn where
  id : Nat
  addr : Nat
  kind : TxnKind
  ticks : Nat := 0
  abandoned : Bool := false
  deriving DecidableEq, Repr

/-- A line of the control core's data cache (R201); `bad` is a line whose parity does not hold (R263, log 13). -/
structure Line where
  sector : Nat
  data : List Byte
  bad : Bool := false
  deriving DecidableEq, Repr

/-- The memory port: buffer, transactions, cache (R192, R201, R224). -/
structure Port where
  pbuf : List PEntry := []
  txns : List Txn := []
  nextId : Nat := 0
  cache : List Line := []
  flushing : Bool := false
  /-- counter additions toward other clusters that wait for one of the 4,096 places (R224): purpose, address, cluster, counter -/
  owed : List (TxnKind × Nat × Nat × Nat × AddKind) := []
  deriving DecidableEq, Repr

/-- A DMA descriptor (R213). -/
structure Desc where
  src : Nat := 0
  dst : Nat := 0
  xlen : Nat := 0
  ycnt : Nat := 0
  zcnt : Nat := 0
  srcY : Nat := 0
  srcZ : Nat := 0
  dstY : Nat := 0
  dstZ : Nat := 0
  ctrl : Nat := 0
  kelem : Nat := 0
  sig : Nat := 0
  deriving DecidableEq, Repr

/-- An accepted descriptor (R211 to R221). `step` is its transfer unit, `rd` the source pieces of the unit already read, `buf` the
bytes read (none where poisoned), `wr` the destination pieces of the unit already issued, `inFlight` the writes not yet performed,
`waiting` its outstanding read, `kept` the source sector that its channel's staging buffer holds: address and bytes (R218). -/
structure DescRun where
  no : Nat
  desc : Desc
  who : Who
  itemNo : Nat
  step : Nat := 0
  rd : Nat := 0
  wr : Nat := 0
  buf : List (Option Byte) := []
  waiting : Option Nat := none
  kept : Option (Nat × List (Option Byte)) := none
  inFlight : Nat := 0
  done : Nat := 0
  poisonSeen : Bool := false
  stopped : Bool := false
  ticks : Nat := 0
  deriving DecidableEq, Repr

/-- A destination sector of own Loam that is issued and not yet performed: descriptor, Loam address, bytes, or a poison mark. -/
structure DmaWrite where
  desc : Nat
  addr : Nat
  bytes : List Byte
  poison : Bool
  deriving DecidableEq, Repr

/-- A DMA channel (R211, R222). -/
structure Channel where
  en : Bool := true
  queue : List DescRun := []
  run : List DescRun := []
  writes : List DmaWrite := []
  fault : Nat := 0
  /-- DONE after a disable is a free value (R231) -/
  doneFree : Option Nat := none
  deriving DecidableEq, Repr

/-- The DMA engine (10). `last` is the channel served last at each priority, the watch path counting as channel 32 (R218); `armed` the channels whose head waits armed, in the order in
which they reached it (R220). -/
structure Dma where
  ch : Tab Channel := []
  ev : Tab Nat := []
  errValid : Bool := false
  errMore : Bool := false
  errCh : Nat := 0
  errFault : Nat := 0
  errAddr : Nat := 0
  last : Tab Nat := []
  armed : List Nat := []
  nextNo : Nat := 1
  deriving DecidableEq, Repr

/-- A batch queue (R96, R97, R100). -/
structure BatchQ where
  en : Bool := false
  capM1 : Nat := 0xFF
  deadline : Nat := 0x7D0
  notify : Nat := 0
  fill : List Nat := []
  openTick : Nat := 0
  /-- the drone tick in which the deadline shipped the last buffer: a push of that tick still joins it (R97) -/
  shipTick : Option Nat := none
  shipped : List (List Nat) := []
  seq : Word32 := 0
  deriving DecidableEq, Repr

/-- The sync unit (09). -/
structure Syn where
  sc : Tab Word32 := []
  /-- items (by number) whose pending wait an evaluation found met (R190) -/
  met : List Nat := []
  peekSel : Nat := 0
  deriving DecidableEq, Repr

/-! ### Power, journal, telemetry, observation -/

/-- PWR_STATUS.STATE; `off` is no power. -/
inductive PState where
  | active
  | idle
  | nap
  | sleep
  | waking
  | pfHold
  | off
  deriving DecidableEq, Repr

/-- Progress of the start-up sequence of R254. -/
inductive StartUp where
  | reset
  | replayed
  | confirmed
  | released
  deriving DecidableEq, Repr

/-- The PWR_ block and the clock, supply and wake machinery (11, R260, R261). -/
structure Pwr where
  state : PState := .nap
  /-- the state that a power-fail hold interrupted (R244) -/
  back : PState := .nap
  start : StartUp := .reset
  napAfter : Nat := 0x010
  sleepAfter : Nat := 0x0064
  csleep : Nat := 0
  stayUp : Bool := false
  throttle : Bool := false
  pfw : Bool := false
  /-- the warning has cleared before step 3 of R243 was complete (R244) -/
  pfCleared : Bool := false
  pfSafe : Bool := false
  offReq : Bool := false
  offReady : Bool := false
  fclk : Nat := 0
  /-- the frequency the die supplies while the clock is stopped at the agents (R233) -/
  wake : Option Nat := none
  /-- the frequency of a fast clock that has arrived and waits for the end of a hold (R241) -/
  clkArrived : Option Nat := none
  wakeWarned : Bool := false
  idleTicks : Nat := 0
  clkHold : Bool := false
  clkGood : Nat := 0
  monTicks : Nat := 0
  droop : Option Nat := none
  tempTicks : Nat := 0
  deriving DecidableEq, Repr

/-- Marl record types (R249). -/
inductive RecType where
  | base
  | image
  | commit
  | delta
  | telemetry
  | seal
  | epoch
  | retire
  | totals
  deriving DecidableEq, Repr

/-- A record admitted to the Marl queue (R247): type, SERIAL, TIME, body. -/
structure JRec where
  typ : RecType
  serial : Nat
  time : Nat
  body : List Byte
  deriving DecidableEq, Repr

/-- The MRL_ block and the Marl segment (11, R246 to R253). -/
structure Mrl where
  /-- the 2 MiB segment: half A from byte 0, half B from byte 0x10_0000 -/
  mram : Mem := []
  active : Bool := false
  used : Nat := 0
  queue : List JRec := []
  nextSerial : Nat := 1
  durable : Nat := 0
  halfGen : Nat := 0
  /-- bytes of the base contents being written to the other half, while compaction runs (R251) -/
  compact : Bool := false
  replay : Nat := 0
  torn : Bool := false
  dead : Bool := false
  sealData : List Byte := []
  sealSerial : Nat := 0
  sealFault : Nat := 0
  sealDone : Bool := false
  /-- seals on record and not retired, with their bodies and times -/
  seals : List (Nat × Nat × List Byte) := []
  readAddr : Nat := 0
  readData : List Byte := []
  telTicks : Nat := 0
  deriving DecidableEq, Repr

/-- A fault log entry (R266, TEL_LOG_DATA). -/
structure LogEnt where
  code : Nat
  core : Nat
  hdl : Bool
  borne : Bool
  detail : Nat
  time : Nat
  deriving DecidableEq, Repr

/-- The TEL_ block (12): log, monitors, lifetime histograms. `hist` are the totals as journaled, `inc` the
increments that no TELEMETRY record has taken yet. -/
structure Tel where
  log : List LogEnt := []
  lost : Nat := 0
  logSel : Nat := 0
  vdroop : Nat := 0x28A
  vover : Nat := 0x3B6
  temp : BitVec 8 := 0
  droneBad : Bool := false
  fclkMeas : Nat := 0
  histSel : Nat := 0
  hist : Tab Nat := []
  inc : Tab Nat := []
  deriving DecidableEq, Repr

/-- The 48-bit counters (R269), each kept at most 2^48 - 1; the *Sub fields hold the part below a counter's unit (R267). -/
structure Ctrs where
  loamCe : Nat := 0
  kaoCe : Nat := 0
  arrSat : Nat := 0
  arrNan : Nat := 0
  arrRetry : Nat := 0
  vecSat : Nat := 0
  vecNan : Nat := 0
  msgDiscard : Nat := 0
  msgStale : Nat := 0
  msgDrop : Nat := 0
  creditLost : Nat := 0
  echo : Nat := 0
  evLost : Nat := 0
  throttleTicks : Nat := 0
  faultCount : Nat := 0
  linkRetry : Nat := 0
  stateCe : Nat := 0
  arrBusy : Tab Nat := []
  vecBusy : Tab Nat := []
  dmaBeats : Nat := 0
  dmaSub : Nat := 0
  msgBytes : Nat := 0
  msgSub : Nat := 0
  activeTicks : Nat := 0
  activeSub : Nat := 0
  traceDrop : Nat := 0
  watchFire : Tab Nat := []
  deriving DecidableEq, Repr

/-- Sub-events of the trace classes, by name (R277; CODE values are not given, R278). -/
inductive SubEv where
  | start
  | stop
  | accept
  | perform
  | drop
  | wait
  | state
  | throttle
  | hold
  | powerFail
  | swap
  | delta
  | validated
  | matched
  | dumped
  | abandoned
  | align
  | boundary
  | single
  deriving DecidableEq, Repr

/-- A trace event (R278): time, class, sub-event, WHO, size in bytes, SEQ, payload values in the order of R277. -/
structure TraceEv where
  time : Nat
  cls : Nat
  sub : SubEv
  who : Nat
  size : Nat
  seq : Nat
  vals : List Nat
  deriving DecidableEq, Repr

/-- A snapshot entry (R286). -/
structure SnapEnt where
  time : Nat
  kind : Nat
  who : Nat
  vals : List Nat
  deriving DecidableEq, Repr

/-- The DBG_ block (13). -/
structure Dbg where
  staged : List TraceEv := []
  seq : Nat := 0
  /-- events dropped since the last DROP event, and the TIME of the first -/
  dropped : Nat := 0
  dropTime : Nat := 0
  pingDest : Nat := 0
  pingState : Nat := 0
  pingFault : Nat := 0
  pingTicks : Nat := 0
  /-- destination of the pending probe, and of the probes that timed out with no reply yet, oldest first (R281) -/
  pingTo : Nat := 0
  pingLate : List Nat := []
  t1 : Nat := 0
  t2 : Nat := 0
  t3 : Nat := 0
  t4 : Nat := 0
  spread : Nat := 0
  snapState : Nat := 0
  snap : List SnapEnt := []
  omitted : Nat := 0
  missed : Nat := 0
  snapCause : Nat := 0
  snapFault : Nat := 0
  snapOrigin : Nat := 0
  snapTick : Nat := 0
  deriving DecidableEq, Repr

/-- Traffic held at the ports (R32, R237, R241, R304) until they accept it. -/
inductive Traffic where
  | message (m : Frame)
  | credit (r : CreditRet)
  | access (r : RemoteReq)
  | add (sc : BitVec 13) (k : AddKind)
  | arrive (p : Party) (sc : BitVec 13) (value : Word32)
  | write (p : Party) (off : Nat) (width : Width) (value : Word64)
  | read (p : Party) (off : Nat) (width : Width)
  | probe (src dest : Word32) (arrived : Word64)
  | reply (t2 t3 : Word64) (fault : BitVec 16) (arrived : Word64)
  deriving DecidableEq, Repr

/-- The fields of the decoded live image that R265 decodes again: regions, limits, counter ranges, CORE_EN and bypass maps, watch entries
and TRACE_MASK, DMA priorities, watchdog timeouts, EPOCH_LEN. -/
inductive ImgField where
  | regions
  | limits
  | counters
  | cores
  | watch
  | dma
  | timeouts
  | epoch
  deriving DecidableEq, Repr

/-- Where internal state holds an uncorrectable error (R265, log 13). -/
inductive Damage where
  | item (w : Who)
  | handler (tag : Nat)
  | credit (dest : Nat)
  | counter (sc : Nat)
  | ring (core ring : Nat)
  | image (f : ImgField)
  /-- a damaged field of the live image whose error has been raised already -/
  | decoding (f : ImgField)
  /-- a damaged credit entry whose error a lookup has raised already -/
  | noted (dest : Nat)
  deriving DecidableEq, Repr

/-- What the cluster sends through its ports (model, log 10). -/
inductive Output where
  /-- the answer to a register access from outside: value and fault code, 0 when it succeeded (R256) -/
  | regAnswer (p : Party) (value : Word64) (fault : Nat)
  /-- the answer to a remote access -/
  | accessAnswer (cluster : Nat) (r : MemResp) (fault : Nat)
  | memRead (id addr : Nat) (critical : Bool)
  | memWrite (id addr : Nat) (data : Tab Byte)
  | memPoison (id addr len : Nat)
  | memAtomic (id addr : Nat) (req : AtomReq)
  | regRead (id addr : Nat) (width : Width)
  | regWrite (id addr : Nat) (width : Width) (value : Word64)
  | counterAdd (id cluster sc : Nat) (k : AddKind)
  | message (m : Frame) (cmask : Nat)
  | credit (toCluster : Nat) (r : CreditRet)
  | probe (dest : Nat)
  | probeAnswer (src : Nat) (t2 t3 : Word64)
  /-- a trace event: its header of R278, and the event whose payload follows -/
  | trace (header : List Byte) (e : TraceEv)
  | attention
  | clockRequest
  | clockStop
  | offReady
  | snapForward (spread : Nat)
  deriving DecidableEq, Repr

/-- A compute or control core (R140, R141). -/
structure Core where
  cmd : Ctx := {}
  hdl : Ctx := {}
  nq : List QEntry := []
  uq : List QEntry := []
  lastFault : Nat := 0
  lastLayer : Nat := 0
  lastOperator : Nat := 0
  /-- the pre-empted command in the save region (R158), with its remaining matrix instructions -/
  saved : Option (Item × List ArrJob) := none
  /-- saved commands that were aborted while another command had the context: they settle under R147 -/
  dying : List Item := []
  kaolin : Store := {}
  vb : Store := {}
  /-- mask register m, entry e at key 64 m + e (R119) -/
  masks : Tab Word64 := []
  /-- statistic register s, entry r at key 256 s + r (R124) -/
  stats : Tab Fp32 := []
  suspect : List Nat := []
  jobs : List ArrJob := []
  /-- the model's own count of the matrix instructions issued: the number of the next -/
  jobNo : Nat := 0
  /-- the front and the back stationary registers of the array (R88) -/
  front : Option StatReg := none
  back : Option StatReg := none
  /-- the residue sums S and T of the last pass, by chunk position (R102) -/
  sumS : List Nat := []
  sumT : List Nat := []
  /-- the column groups in activity, 0 to 4 (R101) -/
  ramp : Nat := 0
  lastRing : Nat := 31
  recs : List Rec := []
  asleep : Bool := false
  sleepSaving : Bool := false
  sleepSaved : Bool := false
  wakeTick : Option Nat := none
  idleTicks : Nat := 0
  deriving DecidableEq, Repr

/-- The latches that a path holds for one 64-bit register (R294): the latched upper half, and the staged lower half. -/
structure Latch where
  rd : Option Word32 := none
  wr : Word32 := 0
  deriving DecidableEq, Repr

/-- LOAM_ERR_ADDR and LOAM_ERR_INFO. -/
structure ErrInfo where
  addr : Nat := 0
  valid : Bool := false
  store : Nat := 0
  core : Nat := 0
  vb : Nat := 0
  port : Nat := 0
  more : Bool := false
  deriving DecidableEq, Repr

/-- The state of the cluster. -/
structure State where
  id : Ident := {}
  /-- drone ticks since the always-on reset (model, log 2) -/
  ticks : Nat := 0
  ts : Word64 := 0
  tsRun : Bool := false
  align : Word64 := 0
  str : Str := {}
  loam : Store := {}
  err : ErrInfo := {}
  ctr : Ctrs := {}
  cores : Tab Core := []
  msg : Msg := {}
  syn : Syn := {}
  port : Port := {}
  dma : Dma := {}
  bq : Tab BatchQ := []
  pwr : Pwr := {}
  mrl : Mrl := {}
  tel : Tel := {}
  dbg : Dbg := {}
  latches : Tab Latch := []
  held : List Traffic := []
  /-- accesses to the always-on blocks that are held: of other clusters until core release (R304), writes of the host to the STR_ and
  MRL_ blocks until the journal is replayed (R253, log 85) -/
  heldAon : List Traffic := []
  damage : List Damage := []
  /-- internal state with a correctable error: corrected and counted in the next drone tick (R263, log 13) -/
  soft : List Damage := []
  /-- engines (SEQ 0, VEC 2, DMA 3, MSG 4) that worked since the last drone tick, with the item each worked for (R272, log 12) -/
  moved : List (Nat × Nat) := []
  out : List Output := []
  free : Nat := 0
  itemNo : Nat := 0
  pending : List Instr := []
  deriving DecidableEq, Repr

/-- The machine at the release of the always-on reset (R254 step 1, R298), with an empty journal (R253 step 1). -/
def State.reset : State := {}

end Sys2Proof.Machine
end

