-- ==== Sys2Proof/Machine/Flags.lean ====
section
/-! DEFINITION. Machine/Flags.lean: counters at their limits (R269) and the status fields that registers show. -/

namespace Sys2Proof.Machine

/-- A 48-bit counter advanced by `k`: it sticks at 2^48 - 1 (R269). -/
def stick48 (n k : Nat) : Nat := min (n + k) (2 ^ 48 - 1)

/-- A lifetime bin advanced by `k`: it sticks at 2^64 - 1 (R268). -/
def stick64 (n k : Nat) : Nat := min (n + k) (2 ^ 64 - 1)

/-- An 8-bit count advanced by one: it sticks at 255 (R269). -/
def stick8 (n : Nat) : Nat := min (n + 1) 255

/-- A 16-bit count advanced by `k`: it sticks at 65,535. -/
def stick16 (n k : Nat) : Nat := min (n + k) 65535

/-- A 48-bit counter as its register shows it: COUNT in bits 47:0, OVF in bit 63 (R269). -/
def ctrReg (n : Nat) : Nat := n + (if 2 ^ 48 - 1 ≤ n then 2 ^ 63 else 0)

/-- Advances a count kept in units of `u`: whole units go to the counter, the rest is kept (R267). -/
def unitCount (u n sub k : Nat) : Nat × Nat := (stick48 n ((sub + k) / u), (sub + k) % u)

/-- A field of a register word: value `v` at bit `lo`. -/
def fld (v lo : Nat) : Nat := v <<< lo

/-- STR_STATUS.STAGE_STATE (02, Registers). -/
def StageState.code : StageState → Nat
  | .empty => 0
  | .opened => 1
  | .validating => 2
  | .valid => 3
  | .invalid => 4
  | .journaling => 5
  | .pending => 6
  | .committing => 7

/-- PWR_STATUS.STATE (11, Registers). -/
def PState.code : PState → Nat
  | .active => 0
  | .idle => 1
  | .nap => 2
  | .sleep => 3
  | .waking => 4
  | .pfHold => 5
  | .off => 0

/-- Record types of the journal (R249). -/
def RecType.code : RecType → Nat
  | .base => 1
  | .image => 2
  | .commit => 3
  | .delta => 4
  | .telemetry => 5
  | .seal => 6
  | .epoch => 7
  | .retire => 8
  | .totals => 9

/-- The record type of a TYPE byte (R249). -/
def recTypeOf (n : Nat) : Option RecType :=
  [RecType.base, .image, .commit, .delta, .telemetry, .seal, .epoch, .retire, .totals].find? fun t => t.code == n

/-- CLU_ID.STEPPING (R6). -/
def Stepping.code : Stepping → Nat
  | .a1 => 0xA1
  | .b0 => 0xB0

end Sys2Proof.Machine
end

