-- ==== Sys2Proof/Machine/Image.lean ====
section
/-! DEFINITION. Machine/Image.lean: the Lengeper image (R19 to R26), its validation (R28, R303) and decoding, and delta records
(R36). Checks are lists of (holds, image offset of the field). -/

namespace Sys2Proof.Machine

/-- A failed validation: fault code, directory index of the section (0x1F none), image byte offset of the field (R28). -/
structure VErr where
  fault : Nat
  sec : Nat
  off : Nat
  deriving DecidableEq, Repr

/-- A check and the offset that it reports. -/
abbrev Chk := Bool × Nat

/-- What the first check that does not hold reports. -/
def firstBad {α : Type} (l : List (Bool × α)) : Option α := (l.find? fun c => !c.1).map (·.2)

/-- A directory entry (R19). -/
structure DirEnt where
  typ : Nat
  res : Nat
  off : Nat
  len : Nat
  crc : Nat
  deriving DecidableEq, Repr

/-- Offset of directory entry `i`. -/
def dirAt (i : Nat) : Nat := 0x40 + 16 * i

/-- Directory entry `i` of an image. -/
def dirEnt (b : List Byte) (i : Nat) : DirEnt :=
  ⟨fieldB b (dirAt i) 2, fieldB b (dirAt i + 2) 2, fieldB b (dirAt i + 4) 4, fieldB b (dirAt i + 8) 4, fieldB b (dirAt i + 12) 4⟩

/-- Section types with entry size, least and greatest count, and whether the section must appear (R21). -/
def sectionRows : List (Nat × Nat × Nat × Nat × Bool) :=
  [(1, 132, 1, 1, true), (2, 16, 1, 224, true), (3, 8, 4, 4, true), (4, 12, 1, 43000, true), (5, 8, 1, 1024, true),
   (6, 8, 0, 16384, true), (7, 32, 1, 1, true), (8, 392, 1, 1, false), (9, 20, 1, 1, true), (10, 4, 1, 1, true)]

/-- The row of a section type. -/
def sectionRow (t : Nat) : Option (Nat × Nat × Nat × Nat × Bool) := sectionRows.find? fun r => r.1 == t

/-- Step 1 of R28, header fields in the order of the header table. -/
def chkHeader (b : List Byte) : List Chk :=
  let il := fieldB b 8 4
  let s := fieldB b 12 2
  [(fieldB b 0 4 == 0x50474E4C, 0), (fieldB b 4 2 == 1, 4), (fieldB b 6 2 == 64, 6),
   (il % 64 == 0 && decide (il ≤ 524288) && il == b.length, 8),
   (decide (9 ≤ s ∧ s ≤ 16 ∧ dirAt s ≤ il), 12),
   (fieldB b 14 2 == 0, 14), ((sliceB b 0x17 37).all (· == 0), 0x17), (decide (64 ≤ b.length), 0)]

/-- Two directory entries whose bytes overlap. -/
def dirOverlap (x y : DirEnt) : Bool :=
  decide (0 < x.len ∧ 0 < y.len ∧ x.off < y.off + y.len ∧ y.off < x.off + x.len)

/-- Step 3 of R28: the fields of each entry, overlaps, repeated sections, missing sections, lengths (R21, R303). -/
def chkDirectory (b : List Byte) (ents : List DirEnt) : Option (Nat × Nat) :=
  let il := fieldB b 8 4
  let n := ents.length
  let idx := List.range n
  let at_ := fun i => ents.getD i ⟨0, 0, 0, 0, 0⟩
  let perField := idx.findSome? fun i =>
    let e := at_ i
    (firstBad [((sectionRow e.typ).isSome, dirAt i), (e.res == 0, dirAt i + 2),
      (e.off % 64 == 0 && decide (dirAt n ≤ e.off ∧ e.off ≤ il), dirAt i + 4),
      (decide (e.off + e.len ≤ il), dirAt i + 8)]).map fun o => (i, o)
  let overlap := idx.findSome? fun i =>
    if (List.range i).any (fun j => dirOverlap (at_ i) (at_ j)) then some (i, dirAt i + 4) else none
  let twice := idx.findSome? fun i =>
    if (List.range i).any (fun j => (at_ i).typ == (at_ j).typ) then some (i, dirAt i) else none
  let missing := if sectionRows.all (fun r => !r.2.2.2.2 || ents.any (fun e => e.typ == r.1)) then none else some (0x1F, 0x0C)
  let length := idx.findSome? fun i =>
    let e := at_ i
    match sectionRow e.typ with
    | some (_, size, lo, hi, _) =>
      if e.len % size = 0 ∧ lo ≤ e.len / size ∧ e.len / size ≤ hi then none else some (i, dirAt i + 8)
    | none => none
  perField <|> overlap <|> twice <|> missing <|> length

/-- A section's directory index, offset and its entries. -/
structure Sect where
  idx : Nat
  off : Nat
  size : Nat
  ents : List (List Byte)
  deriving DecidableEq, Repr

/-- Cuts bytes into entries of `k`. -/
def cutB (k : Nat) : Nat → List Byte → List (List Byte)
  | 0, _ => []
  | n + 1, l => l.take k :: cutB k n (l.drop k)

/-- The section of a type, with its entries; empty where the image has none. -/
def sect (b : List Byte) (ents : List DirEnt) (t : Nat) : Sect :=
  match (List.range ents.length).find? fun i => (ents.getD i ⟨0, 0, 0, 0, 0⟩).typ == t, sectionRow t with
  | some i, some (_, size, _, _, _) =>
    let e := ents.getD i ⟨0, 0, 0, 0, 0⟩
    ⟨i, e.off, size, cutB size (e.len / size) (sliceB b e.off e.len)⟩
  | _, _ => ⟨0x1F, 0, 1, []⟩

/-- Checks over the entries of a section, given each entry's offset. -/
def Sect.chks (s : Sect) (f : List Byte → Nat → List Chk) : List Chk :=
  (s.ents.mapIdx fun i e => f e (s.off + i * s.size)).flatten

/-- Decodes an ENTRY of the handler table. -/
def hEntry (v : Nat) : HEntry :=
  ⟨bits v 18 0, bits v 21 19, bits v 26 22, bitAt v 27, bitAt v 28, bitAt v 29, bits v 40 32, bits v 50 41⟩

/-- The field ranges of an ENTRY (R24, step 5). -/
def hEntryRange (v : Nat) : Bool :=
  let h := hEntry v
  bits v 31 30 == 0 && bits v 63 51 == 0 && decide (h.core ≤ 4) &&
    (if h.combine then decide (1 ≤ h.expect) else h.slot == 0 && h.expect == 0)

/-- CORE and NODE of a DEST are within R165 and R228. -/
def destRange (d : Nat) : Bool := decide (bits d 7 5 ≤ 4) && decide (bits d 31 16 < 4096)

/-- The fields of a watch entry at offset `o` of a byte string (02, DMA TRACE_WATCH WATCHDOG and EPOCH). -/
def watchChk (e : List Byte) (o at_ : Nat) : List Chk :=
  [(decide (fieldB e (o + 10) 1 ≤ 1), at_ + 10), (fieldB e (o + 11) 1 == 0, at_ + 11),
   (decide (fieldB e (o + 12) 8 < 2 ^ 48), at_ + 12), (fieldB e (o + 20) 4 % 64 == 0, at_ + 20)]

/-- A watch entry at offset `o`. -/
def watchEnt (e : List Byte) (o : Nat) : WatchEnt :=
  { tensor := fieldB e o 4, step := fieldB e (o + 4) 4, layer := fieldB e (o + 8) 2, valid := fieldB e (o + 10) 1 == 1,
    dumpAddr := fieldB e (o + 12) 8, dumpLen := fieldB e (o + 20) 4 }

/-- Region kind of a KIND byte. -/
def regionKind (k : Nat) : Option RegionKind :=
  match k with
  | 1 => some .priv | 2 => some .shared | 3 => some .ring | 4 => some .save
  | 5 => some .overflow | 6 => some .trace | 7 => some .journal | 8 => some .exportWin
  | _ => none

/-- A LOAM entry. -/
def regionOf (e : List Byte) : Region :=
  ⟨(regionKind (fieldB e 0 1)).getD .priv, fieldB e 1 1, fieldB e 2 1, fieldB e 3 1, fieldB e 4 4, fieldB e 8 4⟩

/-- Step 5 of R28: member fields of the header. -/
def chkMember (id : Ident) (b : List Byte) : List Chk :=
  let e := fieldB b 0x14 1
  let c := fieldB b 0x15 1
  let l := fieldB b 0x16 1
  [(decide (5 ≤ e ∧ e ≤ 8 ∧ e ≤ id.edgeLog2), 0x14), (decide (1 ≤ c ∧ c ≤ 4 ∧ c ≤ id.cores), 0x15),
   (decide (1 ≤ l ∧ l ≤ 24 ∧ l ≤ id.loamMib), 0x16)]

/-- Step 5 of R28: the range checks of one section type. -/
def chkRange (id : Ident) (t : Nat) (s : Sect) : List Chk :=
  let edge := 2 ^ id.edgeLog2
  s.chks fun e o =>
    match t with
    | 1 => [(decide (fieldB e 0 1 < 2 ^ id.cores), o), (fieldB e 1 3 == 0, o + 1)] ++
        (List.range 4).map fun n => (decide (fieldB e (4 + 32 * n) 32 < 2 ^ edge), o + 4 + 32 * n)
    | 2 =>
      let k := fieldB e 0 1
      let w := fieldB e 1 1
      [((regionKind k).isSome, o), (decide (w ≤ 4 ∨ w = 0xFF), o + 1), (decide (fieldB e 2 1 < 16), o + 2),
       (decide (if k = 3 then fieldB e 3 1 ≤ 31 else fieldB e 3 1 = 0), o + 3),
       (decide (fieldB e 4 4 + fieldB e 8 4 ≤ id.loamMib * 16384), o + 4), (decide (1 ≤ fieldB e 8 4), o + 8),
       (fieldB e 12 4 == 0, o + 12)]
    | 3 => [(decide (fieldB e 0 2 ≤ edge * edge * 6 / 1024), o), (fieldB e 2 2 == 0, o + 2)] ++
        (List.range 4).map fun n => (decide (fieldB e (4 + n) 1 ≤ edge * edge / 1024), o + 4 + n)
    | 4 => [(hEntryRange (fieldB e 4 8), o + 4)]
    | 5 =>
      let sc := fieldB e 4 1
      let w := fieldB e 5 1
      [(decide (fieldB e 0 2 ≤ 8191), o), (decide (1 ≤ fieldB e 2 2 ∧ fieldB e 2 2 ≤ 8192), o + 2), (decide (sc ≤ 2), o + 4),
       (decide (if sc = 0 then w ≤ 4 else w = 0xFF), o + 5), (fieldB e 6 2 == 0, o + 6)]
    | 6 => [(destRange (fieldB e 0 4), o), (decide (1 ≤ fieldB e 4 2), o + 4), (fieldB e 6 2 == 0, o + 6)]
    | 7 => (List.range 32).map fun n => (decide (fieldB e n 1 < 4), o + n)
    | 8 => [(decide (fieldB e 0 4 < 2 ^ 15), o), (fieldB e 4 4 == 0, o + 4)] ++
        (List.range 16).flatMap fun n => watchChk e (8 + 24 * n) (o + 8 + 24 * n)
    | 9 => (List.range 5).map fun n => (decide (1000 ≤ fieldB e (4 * n) 4 ∧ fieldB e (4 * n) 4 ≤ 4000000000), o + 4 * n)
    | 10 => [(decide (10000 ≤ fieldB e 0 4 ∧ fieldB e 0 4 ≤ 100000000), o)]
    | _ => []

/-- Bits set in a bypass map. -/
def popCount (n v : Nat) : Nat := ((List.range n).filter v.testBit).length

/-- Core `c` is enabled by a CORE_EN byte; the control core always is. -/
def coreOn (en c : Nat) : Bool := c == 4 || (decide (c < 4) && en.testBit c)

/-- Two regions that share a sector. -/
def Region.meets (x y : Region) : Bool := decide (x.base < y.base + y.size ∧ y.base < x.base + x.size)

/-- A pair of regions that may overlap: an export window with a private or shared region (R23). -/
def Region.mayMeet (x y : Region) : Bool :=
  (x.kind == .exportWin && (y.kind == .priv || y.kind == .shared)) || (y.kind == .exportWin && (x.kind == .priv || x.kind == .shared))

/-- A check that reports a directory index and an image offset (step 6 of R28). -/
abbrev XChk := Bool × Nat × Nat

/-- The place of a rule between entries of two sections: that of the section with the higher directory index (R303). -/
def laterOf (x y : Nat × Nat) : Nat × Nat := if x.1 < y.1 then y else x

/-- OWNER of an entry against CORE_EN: the rule is between the two sections where OWNER names a compute core (R22, R303). -/
def chkOwner (en owner : Nat) (alone : Bool) (at_ enAt : Nat × Nat) : XChk :=
  if owner ≤ 3 then (coreOn en owner, laterOf at_ enAt) else (alone, at_)

/-- Step 6 of R28 for a region's own fields (R23); `i` is the directory index of LOAM, `enAt` the place of CORE_EN. -/
def chkRegion (en i : Nat) (enAt : Nat × Nat) (earlier : List Region) (r : Region) (o : Nat) : List XChk :=
  let same := earlier.any fun x => x.kind == r.kind
  let own : List Chk := match r.kind with
    | .priv => []
    | .shared => [(r.owner == 0xFF, o + 1)]
    | .ring => [(r.perm == 0, o + 2),
        (decide (64 ≤ r.size ∧ r.size ≤ 65536) && r.size == 2 ^ Nat.log2 r.size, o + 8), (r.base % r.size == 0, o + 4),
        (!earlier.any (fun x => x.kind == .ring && x.owner == r.owner && x.param == r.param), o + 1)]
    | .save => [(r.perm == 0, o + 2), (decide (10496 ≤ r.size), o + 8),
        (!earlier.any (fun x => x.kind == .save && x.owner == r.owner), o + 1)]
    | .overflow => [(r.owner == 0xFF, o + 1), (r.perm == 0, o + 2), (r.size % 16 == 0, o + 8), (!same, o)]
    | .trace => [(r.owner == 0xFF, o + 1), (r.perm == 0, o + 2), (!same, o)]
    | .journal => [(r.owner == 0xFF, o + 1), (r.perm == 0, o + 2), (decide (3072 ≤ r.size ∧ r.size ≤ 16384), o + 8), (!same, o)]
    | .exportWin => [(r.owner == 0xFF, o + 1), (decide (r.perm % 4 = 0), o + 2), (!same, o)]
  let owner : List XChk := match r.kind with
    | .priv | .save => [chkOwner en r.owner false (i, o + 1) enAt]
    | .ring => [chkOwner en r.owner (r.owner == 4) (i, o + 1) enAt]
    | _ => []
  owner ++ (own ++ [(!earlier.any (fun x => x.meets r && !x.mayMeet r), o + 4)]).map fun c => (c.1, i, c.2)

/-- Checks of each entry against the entries before it. -/
def chkEach {α β : Type} (f : List α → α → Nat → List β) (off size : Nat) (l : List α) : List β :=
  ((List.range l.length).zip l).flatMap fun p => f (l.take p.1) p.2 (off + p.1 * size)

/-- Two runs of numbers that meet. -/
def runsMeet (a1 n1 a2 n2 : Nat) : Bool := decide (a1 < a2 + n2 ∧ a2 < a1 + n1)

/-- Step 6 of R28 for the HANDLER section (R24). -/
def chkHandlers (en : Nat) (regs : List Region) (s : Sect) : List Chk :=
  let runs := s.ents.map fun e => (fieldB e 0 2, fieldB e 2 2 + 1, hEntry (fieldB e 4 8))
  chkEach (fun earlier r o =>
    let h := r.2.2
    [(decide (r.1 + r.2.1 ≤ 65536), o),
     (!h.valid || (coreOn en h.core && regs.any (fun x => x.kind == .ring && x.owner == h.core && x.param == h.ring)), o + 4),
     (!earlier.any (fun x => runsMeet x.1 x.2.1 r.1 r.2.1), o)]) s.off s.size runs

/-- Step 6 of R28 for the SYNC section (R25). -/
def chkSyncs (en : Nat) (enAt : Nat × Nat) (s : Sect) : List XChk :=
  let rs := s.ents.map fun e => (⟨fieldB e 0 2, fieldB e 2 2, fieldB e 4 1, fieldB e 5 1⟩ : SyncRange)
  chkEach (fun earlier r o =>
    [(decide (r.first + r.count ≤ 8192), s.idx, o), (decide (r.scope ≠ 0) || coreOn en r.owner, laterOf (s.idx, o + 5) enAt),
     (!earlier.any (fun x => runsMeet x.first x.count r.first r.count), s.idx, o)]) s.off s.size rs

/-- Step 6 of R28, section by section: R22, R23, R24, R25, R26, KVB entries of disabled cores. A rule within the one CORES entry reports
CORE_EN, the first of its fields that takes part (R303). -/
def chkCross (id : Ident) (sec : Nat → Sect) : List XChk :=
  let c := sec 1
  let ce := c.ents.headD []
  let en := fieldB ce 0 1
  let edge := 2 ^ id.edgeLog2
  let l := sec 2
  let regs := l.ents.map regionOf
  let k := sec 3
  let cr := sec 6
  let enAt := (c.idx, c.off)
  let in_ (s : Sect) (x : Chk) : XChk := (x.1, s.idx, x.2)
  (decide (en % 16 ≠ 0), enAt) ::
  (List.range 4).map (fun n => (decide (popCount edge (fieldB ce (4 + 32 * n) 32) ≤ if coreOn en n then edge / 4 else 0), enAt)) ++
  chkEach (chkRegion en l.idx enAt) l.off l.size regs ++
  [((List.range 4).all (fun n => !coreOn en n || regs.any fun r => r.kind == .save && r.owner == n), l.idx, l.off),
   (regs.any (·.kind == .journal), l.idx, l.off)] ++
  (chkHandlers en regs (sec 4)).map (in_ (sec 4)) ++
  chkSyncs en enAt (sec 5) ++
  (chkEach (fun earlier d o => [(!earlier.contains d, o)]) cr.off cr.size (cr.ents.map fun e => fieldB e 0 4)).map (in_ cr) ++
  k.ents.mapIdx fun n e => (coreOn en n || e.all (· == 0), laterOf (k.idx, k.off + 8 * n) enAt)

/-- Decodes a validated image (R21 to R27, R277); an absent TRACE_WATCH leaves trace off and no valid watch entry. -/
def decodeImage (b : List Byte) (sec : Nat → Sect) : Image :=
  let ce := (sec 1).ents.headD []
  let tw := (sec 8).ents.headD []
  let wd := (sec 9).ents.headD []
  { id := fieldB b 0x10 4
    coreEn := fieldB ce 0 1
    bypass := (List.range 4).map fun n => fieldB ce (4 + 32 * n) 32
    regions := (sec 2).ents.map regionOf
    kvb := (sec 3).ents.map fun e => { kao := fieldB e 0 2, vb := (List.range 4).map fun n => fieldB e (4 + n) 1 }
    handlers := (sec 4).ents.map fun e => ⟨fieldB e 0 2, fieldB e 2 2 + 1, hEntry (fieldB e 4 8)⟩
    syncs := (sec 5).ents.map fun e => ⟨fieldB e 0 2, fieldB e 2 2, fieldB e 4 1, fieldB e 5 1⟩
    credits := (sec 6).ents.map fun e => ⟨fieldB e 0 4, fieldB e 4 2⟩
    dmaPrio := ((sec 7).ents.headD []).map (·.toNat)
    traceMask := fieldB tw 0 4
    watches := (List.range 16).map fun n => watchEnt tw (8 + 24 * n)
    waitTo := fieldB wd 0 4
    sendTo := fieldB wd 4 4
    commandTo := fieldB wd 8 4
    handlerTo := fieldB wd 12 4
    dmaTo := fieldB wd 16 4
    epochLen := fieldB ((sec 10).ents.headD []) 0 4 }

/-- Validation (R28): the six steps in order; the first failure, or the decoded image. -/
def validateImage (id : Ident) (b : List Byte) : Except VErr Image :=
  match firstBad (chkHeader b) with
  | some o => .error ⟨0x0201, 0x1F, o⟩
  | none =>
    let n := fieldB b 12 2
    if crc32c (sliceB b 0 0x3C ++ sliceB b 0x40 (16 * n)) ≠ fieldB b 0x3C 4 then .error ⟨0x0202, 0x1F, 0x3C⟩
    else
      let ents := (List.range n).map (dirEnt b)
      match chkDirectory b ents with
      | some (i, o) => .error ⟨0x0203, i, o⟩
      | none =>
        match (List.range n).find? fun i =>
            let e := ents.getD i ⟨0, 0, 0, 0, 0⟩
            crc32c (sliceB b e.off e.len) != e.crc with
        | some i => .error ⟨0x0204, i, dirAt i + 12⟩
        | none =>
          match firstBad (chkMember id b) with
          | some o => .error ⟨0x0205, 0x1F, o⟩
          | none =>
            let sec := sect b ents
            match (List.range 11).findSome? fun t => (firstBad (chkRange id t (sec t))).map fun o => ((sec t).idx, o) with
            | some (i, o) => .error ⟨0x0205, i, o⟩
            | none =>
              match firstBad (chkCross id sec) with
              | some (i, o) => .error ⟨0x0206, i, o⟩
              | none => .ok (decodeImage b sec)

/-! ### Lookups in the live image -/

/-- The handler entry of a tag: the first run that covers it (R24; a delta's entries come first, R37). -/
def Image.handler (im : Image) (tag : Nat) : Option HEntry :=
  match im.handlers.find? fun r => decide (r.first ≤ tag ∧ tag < r.first + r.count) with
  | some r => if r.entry.valid then some r.entry else none
  | none => none

/-- The range that covers a counter (R25). -/
def Image.sync (im : Image) (sc : Nat) : Option SyncRange :=
  im.syncs.find? fun r => decide (r.first ≤ sc ∧ sc < r.first + r.count)

/-- The credit entry of a destination (R26). -/
def Image.credit (im : Image) (dest : Nat) : Option CreditEnt := im.credits.find? (·.dest == dest)

/-- The region that holds a sector, export windows apart (R23). -/
def Image.regionAt (im : Image) (sector : Nat) : Option Region :=
  im.regions.find? fun r => r.kind != .exportWin && decide (r.base ≤ sector ∧ sector < r.base + r.size)

/-- The export window. -/
def Image.window (im : Image) : Option Region := im.regions.find? (·.kind == .exportWin)

/-- The ring region of a core and ring number. -/
def Image.ring (im : Image) (core ring : Nat) : Option Region :=
  im.regions.find? fun r => r.kind == .ring && r.owner == core && r.param == ring

/-- A region of a kind, and the save region of a core. -/
def Image.regionOf (im : Image) (k : RegionKind) : Option Region := im.regions.find? (·.kind == k)
def Image.save (im : Image) (core : Nat) : Option Region := im.regions.find? fun r => r.kind == .save && r.owner == core

/-- Effective width of a core: the array edge less its bypassed columns (02, CORES). -/
def Image.width (im : Image) (edgeLog2 core : Nat) : Nat :=
  2 ^ edgeLog2 - popCount (2 ^ edgeLog2) (im.bypass.getD core 0)

/-- The logical compute cores: enabled ones in order (R160). -/
def Image.logical (im : Image) : List Nat := (List.range 4).filter (coreOn im.coreEn)

/-! ### Delta records -/

/-- Bytes of an entry of a delta record by its KIND. -/
def deltaSize (kind : Nat) : Nat := if kind = 1 ∨ kind = 2 then 12 else if kind = 3 then 28 else 0

/-- Length of a delta record from KIND and COUNT (R36); a record of an unknown KIND is its 16-byte header (DESIGN CHOICE, log 28). -/
def deltaLen (b : List Byte) : Nat := 16 + deltaSize (fieldB b 0 2) * fieldB b 2 2

/-- The entries of a delta record. -/
def deltaEnts (b : List Byte) : List (List Byte) := cutB (deltaSize (fieldB b 0 2)) (fieldB b 2 2) (b.drop 16)

/-- Ranges of a delta entry (R24, R26, 02 TRACE_WATCH). -/
def deltaEntRange (kind : Nat) (e : List Byte) : Bool :=
  match kind with
  | 1 => fieldB e 2 2 == 0 && hEntryRange (fieldB e 4 8)
  | 2 => destRange (fieldB e 0 4) && fieldB e 6 6 == 0
  | 3 => decide (fieldB e 0 1 ≤ 15) && fieldB e 1 3 == 0 && (watchChk e 4 0).all (·.1)
  | _ => false

/-- A delta's handler entry names a core and ring of the live image (R36). R36 names no exemption for an entry with VALID 0; the model
takes the one that R24 gives the entries of an image (DESIGN CHOICE, log 28). -/
def deltaCross (im : Image) (kind : Nat) (e : List Byte) : Bool :=
  let h := hEntry (fieldB e 4 8)
  kind != 1 || !h.valid || (coreOn im.coreEn h.core && (im.ring h.core h.ring).isSome)

/-- The checks of R36 in order, given STR_DELTA_SEQ and STR_LIVE_ID: the fault code, or 0. -/
def deltaCheck (im : Image) (seq base : Nat) (b : List Byte) : Nat :=
  let kind := fieldB b 0 2
  let zeroed := b.take 12 ++ List.replicate 4 0 ++ b.drop 16
  if crc32c zeroed ≠ fieldB b 12 4 then 0x0204
  else if fieldB b 4 4 ≠ base ∨ fieldB b 8 4 ≠ (seq + 1) % 2 ^ 32 then 0x0209
  else if deltaSize kind = 0 ∨ fieldB b 2 2 = 0 ∨ 4096 < b.length ∨ (deltaEnts b).any (fun e => !deltaEntRange kind e) then 0x0205
  else if (deltaEnts b).any (fun e => !deltaCross im kind e) then 0x0206
  else 0

/-- A credit list with the entry of a destination set, or removed by ALLOT 0. A delta may take the list past the 16,384 entries of an
image's CREDIT section: no check of R36 bounds it (DESIGN CHOICE, log 28). -/
def setCredit (l : List CreditEnt) (dest allot : Nat) : List CreditEnt :=
  let r := l.filter (·.dest != dest)
  if allot = 0 then r else r ++ [⟨dest, allot⟩]

/-- One delta entry applied to a decoded image. -/
def deltaEnt (kind : Nat) (im : Image) (e : List Byte) : Image :=
  match kind with
  | 1 => { im with handlers := ⟨fieldB e 0 2, 1, hEntry (fieldB e 4 8)⟩ :: im.handlers }
  | 2 => { im with credits := setCredit im.credits (fieldB e 0 4) (fieldB e 4 2) }
  | 3 => { im with watches := im.watches.set (fieldB e 0 1) (watchEnt e 4) }
  | _ => im

/-- All entries of a delta record applied to a decoded image (R37). -/
def deltaImage (im : Image) (b : List Byte) : Image := (deltaEnts b).foldl (deltaEnt (fieldB b 0 2)) im

end Sys2Proof.Machine
end

