-- ==== Sys2Proof/Machine/Operands.lean ====
section
/-! DEFINITION. Machine/Operands.lean: what the cluster reads out of Loam as a structure: instructions (R148 to R153, R155, R167,
R188, R202, R210), item headers (R143), DMA descriptors (R213) and chain descriptors (R114, R115). -/

namespace Sys2Proof.Machine

/-- VEC.CHAIN (R153). -/
structure ChainOp where
  srck : Nat
  rows : Nat
  cols : Nat
  src : Nat
  pitch : Nat
  sfmt : Nat
  desc : Nat
  deriving DecidableEq, Repr

/-- A decoded instruction. -/
inductive Op where
  | seqEnd
  | seqNop
  | fence (arr vec : Bool)
  | enq (core : Nat) (urgent : Bool) (addr : Nat)
  | scl (o sd sa sb : Nat) (imm : Word64) (vol : Bool)
  | mma (m : MmaOp)
  | bqpush (q row ret : Nat)
  | bqrelease (q : Nat)
  | chain (c : ChainOp)
  | maskld (m addr : Nat)
  | maskst (m addr : Nat)
  | statclr (st : Nat) (inf : Bool)
  | side (lse : Bool) (a b c d addr : Nat)
  | rowclose (lse : Bool) (c d t side fin : Nat) (a b : Fp32)
  | dma (ch : Nat) (desc : List Byte)
  | dmam (ch addr : Nat)
  | send (combine : Bool) (dest tag len addr round offset cidx : Nat)
  | msend (dest tag len addr cmask : Nat)
  | rclose (ring : Nat)
  | arrive (sc scope : Nat) (value : Word32)
  | wait (sc scope : Nat) (target : Word32)
  | synRead (sc scope addr : Nat)
  | synSet (sc scope : Nat) (value : Word32)
  | atm (o : AtomOp) (w64 sgn : Bool) (scope ret addr operand compare : Nat) (bad : Bool)
  deriving DecidableEq, Repr

/-- Bytes `lo` to `hi - 1` are zero. -/
def zeroB (b : List Byte) (lo hi : Nat) : Bool := (sliceB b lo (hi - lo)).all (· == 0)

/-- The scalar operations (R155). -/
def sclOps : List Nat :=
  [0x01, 0x02, 0x03, 0x04, 0x05, 0x06, 0x07, 0x08, 0x09, 0x0A, 0x0B, 0x10, 0x11, 0x12, 0x13, 0x14, 0x18, 0x19, 0x1A, 0x1B, 0x1C,
   0x1D, 0x1E, 0x1F, 0x20, 0x21]

/-- Words of an instruction by CLASS and OP; none for a reserved class or an undefined operation (R149, R167, R188, R202, R210). -/
def opWords (cls op : Nat) : Option Nat :=
  match cls with
  | 0 => if 1 ≤ op ∧ op ≤ 4 then some 1 else none
  | 1 => if sclOps.contains op then some 1 else none
  | 2 => if op = 1 ∨ op = 2 then some 4 else if op = 3 ∨ op = 4 then some 1 else none
  | 3 => if op = 1 ∨ op = 6 then some 2 else if 2 ≤ op ∧ op ≤ 5 then some 1 else none
  | 4 => if op = 1 then some 4 else if op = 2 then some 1 else none
  | 5 => if op = 1 ∨ op = 2 then some 2 else if op = 3 then some 1 else none
  | 6 => if 1 ≤ op ∧ op ≤ 4 then some 1 else none
  | 7 => if 1 ≤ op ∧ op ≤ 5 then some 2 else none
  | _ => none

/-- The Cores column of R149: whether a core has an operation. -/
def opCore (core cls op : Nat) : Bool :=
  match cls with
  | 0 => op != 4 || core == 4
  | 1 => core == 4
  | 2 => 3 ≤ op || core != 4
  | 3 => core != 4
  | _ => true

/-- An operand address of R152 has its zero bits zero. -/
def operandAddrOk (a : Nat) : Bool := if bitAt a 31 then bits a 30 18 == 0 else bits a 30 25 == 0

/-- ARR.MMA and ARR.EMUL (R152); none where a reserved bit is set. -/
def decodeMma (emul : Bool) (w : Nat) (b : List Byte) : Option Op :=
  let batch := bitAt w 21
  if bits w 31 22 ≠ 0 ∨ !zeroB b 10 12 ∨ !zeroB b 26 28 ∨ !zeroB b 42 44 ∨ !zeroB b 60 64 then none
  else if !(batch || operandAddrOk (fieldB b 16 4)) || !operandAddrOk (fieldB b 32 4) then none
  else some (.mma
    { emul := emul, smode := bits w 17 16, int32 := bitAt w 18, init := bits w 20 19, abatch := batch
      m := fieldB b 4 2, n := fieldB b 6 2, k := fieldB b 8 2, kbase := fieldB b 12 4
      aAddr := fieldB b 16 4, aPitch := fieldB b 20 4, aFmt := fieldB b 24 1, aWidth := fieldB b 25 1, aPro := fieldB b 28 4
      bAddr := fieldB b 32 4, bPitch := fieldB b 36 4, bFmt := fieldB b 40 1, bWidth := fieldB b 41 1, bPro := fieldB b 44 4
      epi := fieldB b 48 4, loadAddr := fieldB b 52 4, loadPitch := fieldB b 56 4 })

/-- The atomics (R202); `bad` gathers the bits that R203 checks first. -/
def decodeAtm (o : AtomOp) (w : Nat) (b : List Byte) : Op :=
  let w64 := bitAt w 16
  let sgn := bitAt w 17
  let cas := o == .cas
  let minMax := o == .min || o == .max
  let operand := fieldB b 16 8
  let compare := fieldB b 24 8
  let addr := fieldB b 8 8
  .atm o w64 sgn (bits w 19 18) (fieldB b 4 4) addr operand compare
    (bits w 19 18 == 3 || (sgn && !minMax) || bits w 31 20 != 0 || (!w64 && decide (2 ^ 32 ≤ operand)) ||
     (!cas && compare != 0) || (!w64 && decide (2 ^ 32 ≤ compare)) || decide (2 ^ 48 ≤ addr))

/-- The instruction at the front of a byte string, and its length in bytes; none for an illegal instruction of R150 other than a
branch target or a misaligned address. `core` is the executing core. -/
def decodeOp (core : Nat) (code : List Byte) : Option (Op × Nat) :=
  let w := fieldB code 0 4
  let cls := bits w 3 0
  let op := bits w 9 4
  match opWords cls op with
  | none => none
  | some n =>
    if bits w 11 10 + 1 ≠ n ∨ bits w 15 12 ≠ 0 ∨ code.length < 16 * n ∨ !opCore core cls op then none
    else
      let b := code.take (16 * n)
      let a4 := fieldB b 4 4
      let one (ok : Bool) (o : Op) : Option Op := if ok then some o else none
      let r : Option Op := match cls, op with
        | 0, 1 => one (bits w 31 16 == 0 && zeroB b 4 16) .seqEnd
        | 0, 2 => one (bits w 31 16 == 0 && zeroB b 4 16) .seqNop
        | 0, 3 => one (bits w 31 18 == 0 && bits w 17 16 != 0 && zeroB b 4 16) (.fence (bitAt w 16) (bitAt w 17))
        | 0, _ => one (bits w 31 20 == 0 && zeroB b 8 16) (.enq (bits w 18 16) (bitAt w 19) a4)
        | 1, o =>
          let mem := decide (0x18 ≤ o ∧ o ≤ 0x1F)
          one (zeroB b 4 8 && (mem || !bitAt w 31))
            (.scl o (bits w 20 16) (bits w 25 21) (bits w 30 26) (BitVec.ofNat 64 (fieldB b 8 8)) (bitAt w 31))
        | 2, 1 => decodeMma false w b
        | 2, 2 => decodeMma true w b
        | 2, 3 => one (bits w 31 20 == 0 && zeroB b 12 16) (.bqpush (bits w 19 16) a4 (fieldB b 8 4))
        | 2, _ => one (bits w 31 20 == 0 && zeroB b 4 16) (.bqrelease (bits w 19 16))
        | 3, 1 => one (bits w 31 18 == 0 && zeroB b 17 20 && zeroB b 24 32)
            (.chain ⟨bits w 17 16, fieldB b 4 2, fieldB b 6 2, fieldB b 8 4, fieldB b 12 4, fieldB b 16 1, fieldB b 20 4⟩)
        | 3, 2 => one (bits w 31 19 == 0 && zeroB b 8 16) (.maskld (bits w 18 16) a4)
        | 3, 3 => one (bits w 31 19 == 0 && zeroB b 8 16) (.maskst (bits w 18 16) a4)
        | 3, 4 => one (bits w 31 19 == 0 && zeroB b 4 16) (.statclr (bits w 17 16) (bitAt w 18))
        | 3, 5 => one (bits w 31 25 == 0 && zeroB b 8 16)
            (.side (bitAt w 16) (bits w 18 17) (bits w 20 19) (bits w 22 21) (bits w 24 23) a4)
        | 3, _ => one (bits w 31 21 == 0 && zeroB b 6 8 && zeroB b 24 32)
            (.rowclose (bitAt w 16) (bits w 18 17) (bits w 20 19) (fieldB b 4 2) (fieldB b 8 4) (fieldB b 12 4)
              (BitVec.ofNat 32 (fieldB b 16 4)) (BitVec.ofNat 32 (fieldB b 20 4)))
        | 4, 1 => one (bits w 31 21 == 0 && zeroB b 4 8) (.dma (bits w 20 16) (b.drop 8))
        | 4, _ => one (bits w 31 21 == 0 && zeroB b 8 16) (.dmam (bits w 20 16) a4)
        | 5, 1 => one (bits w 31 17 == 0 && zeroB b 20 32 && (bitAt w 16 || zeroB b 16 20))
            (.send (bitAt w 16) a4 (fieldB b 8 2) (fieldB b 10 2) (fieldB b 12 4) (fieldB b 16 1) (fieldB b 17 1) (fieldB b 18 2))
        | 5, 2 => one (bits w 31 16 == 0 && zeroB b 20 32)
            (.msend a4 (fieldB b 8 2) (fieldB b 10 2) (fieldB b 12 4) (fieldB b 16 4))
        | 5, _ => one (bits w 31 21 == 0 && zeroB b 4 16) (.rclose (bits w 20 16))
        | 6, o =>
          let sc := bits w 28 16
          let scope := bits w 30 29
          let v : Word32 := BitVec.ofNat 32 a4
          one (!bitAt w 31 && zeroB b 8 16)
            (if o = 1 then .arrive sc scope v else if o = 2 then .wait sc scope v else if o = 3 then .synRead sc scope a4
             else .synSet sc scope v)
        | _, o => some (decodeAtm
            (if o = 1 then .add else if o = 2 then .min else if o = 3 then .max else if o = 4 then .xchg else .cas) w b)
      r.map fun o => (o, 16 * n)

/-- The item header at the front of 192 bytes (R143). -/
def decodeHdr (b : List Byte) : Hdr :=
  { hdrFmt := fieldB b 0 1, flags := fieldB b 1 1, nOuts := fieldB b 2 1, layer := fieldB b 4 2, operator := fieldB b 6 2
    step := fieldB b 8 4, tensor := fieldB b 12 4, codeLen := fieldB b 16 4, kaoBase := fieldB b 20 2, kaoLen := fieldB b 22 2
    vb := (List.range 4).map fun n => (fieldB b (24 + 2 * n) 1, fieldB b (25 + 2 * n) 1)
    job := fieldB b 32 2, doneSc := fieldB b 34 2
    outs := (List.range 8).map fun n => (fieldB b (64 + 16 * n) 8, fieldB b (72 + 16 * n) 4, fieldB b (76 + 16 * n) 4)
    resZero := fieldB b 3 1 == 0 && zeroB b 36 64 }

/-- The output regions in use: address and length. -/
def Hdr.regions (h : Hdr) : List (Nat × Nat) := (h.outs.take h.nOuts).map fun o => (o.1, o.2.1)

/-- CODE_LEN is within its range (R143). -/
def Hdr.codeLenOk (h : Hdr) : Bool := h.codeLen % 16 == 0 && decide (16 ≤ h.codeLen ∧ h.codeLen ≤ 1048576)

/-- The header fields of R143 and R144 for a context and core (step 2 of R145, JOB apart). -/
def Hdr.ok (h : Hdr) (core : Nat) (handler : Bool) : Bool :=
  h.hdrFmt == 1 && h.flags == b2n handler && decide (h.nOuts ≤ 8) && h.resZero && h.codeLenOk &&
  decide (h.kaoBase ≤ 383 ∧ h.kaoLen ≤ 384) &&
  ((List.range 8).all fun i =>
    let o := h.outs.getD i (0, 0, 0)
    if i < h.nOuts then o.1 % 64 == 0 && decide (o.1 < 2 ^ 48) && o.2.1 % 64 == 0 && o.2.1 != 0 && o.2.2 == 0
    else o == (0, 0, 0)) &&
  (core != 4 || (h.kaoLen == 0 && h.vb.all fun v => v.2 == 0))

/-- A DMA descriptor (R213). -/
def decodeDesc (b : List Byte) : Desc :=
  { src := fieldB b 0 8, dst := fieldB b 8 8, xlen := fieldB b 16 4, ycnt := fieldB b 20 2, zcnt := fieldB b 22 2
    srcY := fieldB b 24 4, srcZ := fieldB b 28 4, dstY := fieldB b 32 4, dstZ := fieldB b 36 4, ctrl := fieldB b 40 4
    kelem := fieldB b 44 4, sig := fieldB b 48 8 }

/-- CTRL and SIG fields of a descriptor (R213). -/
def Desc.mode (d : Desc) : Nat := bits d.ctrl 1 0
def Desc.esize (d : Desc) : Nat := 2 ^ bits d.ctrl 3 2
def Desc.latcrit (d : Desc) : Bool := bitAt d.ctrl 4
def Desc.armed (d : Desc) : Bool := bitAt d.ctrl 5
def Desc.evIn (d : Desc) : Nat := bits d.ctrl 11 6
def Desc.sfmt (d : Desc) : Nat := bits d.ctrl 23 16
def Desc.dfmt (d : Desc) : Nat := bits d.ctrl 31 24
def Desc.bcSc (d : Desc) : Nat := bits d.sig 12 0
def Desc.bcEn (d : Desc) : Bool := bitAt d.sig 13
def Desc.bcClu (d : Desc) : Nat := bits d.sig 21 14
def Desc.plSc (d : Desc) : Nat := bits d.sig 34 22
def Desc.plEn (d : Desc) : Bool := bitAt d.sig 35
def Desc.plClu (d : Desc) : Nat := bits d.sig 43 36
def Desc.evOut (d : Desc) : Nat := bits d.sig 49 44
def Desc.evEn (d : Desc) : Bool := bitAt d.sig 50

/-- A stage word (R115). -/
structure Stage where
  op : Nat
  ifmt : Nat
  src2 : Nat
  mask : Nat
  tile : Bool
  sub : Nat
  stat : Nat
  vidx : Bool
  kstride : Nat
  immA : Word32
  immB : Word32
  addr : Nat
  res : Bool
  deriving DecidableEq, Repr

/-- A chain descriptor (R114). -/
structure Chain where
  count : Nat
  sfmt : Nat
  dest : Nat
  destAddr : Nat
  destPitch : Nat
  resZero : Bool
  stages : List Stage
  deriving DecidableEq, Repr

/-- The stage word at an offset. -/
def decodeStage (b : List Byte) (o : Nat) : Stage :=
  let w := fieldB b o 4
  { op := bits w 5 0, ifmt := bits w 7 6, src2 := bits w 10 8, mask := bits w 13 11, tile := bitAt w 14, sub := bits w 17 15
    stat := bits w 19 18, vidx := bitAt w 20, kstride := bits w 30 21, immA := BitVec.ofNat 32 (fieldB b (o + 4) 4)
    immB := BitVec.ofNat 32 (fieldB b (o + 8) 4), addr := fieldB b (o + 12) 4, res := bitAt w 31 }

/-- A chain descriptor from its bytes: 16 of header and 16 for each of up to eight stages. -/
def decodeChain (b : List Byte) : Chain :=
  { count := fieldB b 0 1, sfmt := fieldB b 1 1, dest := fieldB b 2 1, destAddr := fieldB b 4 4, destPitch := fieldB b 8 4
    resZero := fieldB b 3 1 == 0 && fieldB b 12 4 == 0
    stages := (List.range (fieldB b 0 1)).map fun i => decodeStage b (16 + 16 * i) }

/-! ### Chain checks (R116, R125) -/

/-- A format that results are stored in: a descriptor of R70 other than INT1, or 0x30 for INT32. -/
inductive SFmt where
  | blk (d : FmtD)
  | int32
  deriving DecidableEq, Repr

/-- SFMT and CVT targets (R114). -/
def sfmtOf (v : Nat) : Option SFmt :=
  if v = 0x30 then some .int32 else match fmtD v with
    | some d => if d.fmt == .int 1 then none else some (.blk d)
    | none => none

/-- True for the formats of the INT domain (R111). -/
def SFmt.isInt : SFmt → Bool
  | .int32 => true
  | .blk d => d.fmt.isInt

/-- True for the formats whose rows R71 lays out: block and INT formats. -/
def SFmt.packed : SFmt → Bool
  | .int32 => false
  | .blk d => d.fmt.hasExp || d.fmt.isInt

/-- Bytes of a row of `n` elements in a storage format; `vb` selects the row layout of a VB (R53, R71). -/
def SFmt.rowBytes (f : SFmt) (vb : Bool) (n : Nat) : Nat :=
  match f with
  | .int32 => 4 * n
  | .blk d => (if vb then d.inVb else d).rowBytes n

/-- SRC2 values an operation allows (R116). -/
def src2Ok (op s : Nat) : Bool :=
  if op = 0x06 then s = 1 || s = 2 || s = 5 || s = 6
  else if (1 ≤ op ∧ op ≤ 5) ∨ op = 7 then s = 1 || s = 2 || s = 5
  else if op = 0x0E then s = 3 || s = 4
  else s = 0

/-- SUB values an operation allows (R116). -/
def subOk (op s : Nat) : Bool :=
  if op = 1 then s ≤ 1 else if op = 6 then s ≤ 6 else if op = 0x0F then s % 4 ≤ 2 else s = 0

/-- The domain after a stage: INT is true (R111, R116). -/
def stageDom (int : Bool) (t : Stage) : Bool :=
  if t.op = 0x0D then (match sfmtOf (t.immA.toNat % 256) with
    | some f => f.isInt
    | none => int) else int

/-- One stage is well formed in its domain (R116, R125); `before` are the stages ahead of it. -/
def stageOk (before : List Stage) (int : Bool) (t : Stage) : Bool :=
  !t.res && decide (1 ≤ t.op ∧ t.op ≤ 0x0F) && src2Ok t.op t.src2 && subOk t.op t.sub && t.ifmt != 3 &&
  (t.ifmt == 0 || !(t.op == 6 || t.op == 0x0F || stageDom int t)) &&
  !(int && (decide (8 ≤ t.op ∧ t.op ≤ 0x0B) || t.op == 0x0E || t.op == 0x0F)) &&
  (t.op != 7 || t.tile || before.any fun p => p.op == 6 && !p.tile && p.mask == t.mask) &&
  (t.op != 0x0D || (sfmtOf (t.immA.toNat % 256)).isSome) &&
  (t.src2 != 2 || t.addr % 4 == 0)

/-- The stages are well formed, and the domain after the last one. -/
def stagesDom : List Stage → Bool → List Stage → Option Bool
  | _, int, [] => some int
  | before, int, t :: ts => if stageOk before int t then stagesDom (before ++ [t]) (stageDom int t) ts else none

/-- The checks of R125 that need the descriptor alone: `pro` names the operand's format descriptor in a prologue, `cols` is the row
length of the output, `int` the domain of the source, `mirror` whether a Kaolin mirror is allowed. -/
def Chain.ok (c : Chain) (pro : Option Nat) (cols : Nat) (int mirror : Bool) : Bool :=
  decide (1 ≤ c.count ∧ c.count ≤ 8) && c.resZero && decide (c.dest ≤ 3) &&
  (match sfmtOf c.sfmt with
   | none => false
   | some f =>
     (match c.dest with
      | 0 => c.destAddr % 8 == 0 && c.destPitch % 8 == 0 && decide (f.rowBytes false cols ≤ c.destPitch)
      | 1 => decide (c.destAddr < 2 ^ 18) && c.destPitch % 8 == 0 && decide (f.rowBytes true cols ≤ c.destPitch)
      | _ => c.destAddr == 0 && c.destPitch == 0) &&
     (stagesDom [] int c.stages == some f.isInt)) &&
  (match pro with
   | some d => c.dest == 3 && c.sfmt == d && c.stages.all fun t => t.op != 0x0F && !(t.op == 0x0E && t.src2 == 4)
   | none => c.dest != 3) &&
  (c.dest != 2 || c.stages.any fun t => t.op == 0x0F || t.op == 6) &&
  (mirror || c.stages.all fun t => !(t.op == 0x0E && t.src2 == 4)) &&
  c.stages.all fun t => !(t.op == 0x0E && t.src2 == 3) || (fmtD (t.immA.toNat % 256)).isSome

end Sys2Proof.Machine
end

