-- ==== Sys2Proof/Machine/Ops.lean ====
section
/-! DEFINITION. Machine/Ops.lean: named operations over the state: cores and contexts, free values, outputs, trace (R277 to R279),
the fault log (R266), error records (R61), addresses and permissions (R14, R46 to R48), reads and writes of the stores (R61 to R64),
records (R271), the start of an abort (R147), and when the fast clock runs (R241). -/

namespace Sys2Proof.Machine

/-! ### Cores and contexts -/

/-- Package cluster index (R18). -/
def pkgIndex (id : Ident) : Nat := id.die.val * 32 + id.cluster.val

/-- A core of the cluster. -/
def State.core (s : State) (c : Nat) : Core := tabGet {} s.cores c
/-- Replaces a core. -/
def State.setCore (s : State) (c : Nat) (x : Core) : State := { s with cores := tabSet s.cores c x }
/-- Changes a core. -/
def State.modCore (s : State) (c : Nat) (f : Core → Core) : State := s.setCore c (f (s.core c))

/-- A context of a core. -/
def Core.ctx (x : Core) : CtxKind → Ctx
  | .cmd => x.cmd
  | .hdl => x.hdl
/-- Replaces a context. -/
def Core.setCtx (x : Core) (k : CtxKind) (y : Ctx) : Core :=
  match k with
  | .cmd => { x with cmd := y }
  | .hdl => { x with hdl := y }

/-- The context of a step. -/
def State.ctx (s : State) (w : Who) : Ctx := (s.core w.core.val).ctx w.ctx
/-- Replaces a context. -/
def State.setCtx (s : State) (w : Who) (y : Ctx) : State := s.modCore w.core.val fun x => x.setCtx w.ctx y
/-- The item in a context. -/
def State.item (s : State) (w : Who) : Item := (s.ctx w).item
/-- Replaces the item in a context. -/
def State.setItem (s : State) (w : Who) (i : Item) : State := s.setCtx w { s.ctx w with item := i }
/-- Changes the item in a context. -/
def State.modItem (s : State) (w : Who) (f : Item → Item) : State := s.setItem w (f (s.item w))
/-- Changes the phase of a context. -/
def State.setPhase (s : State) (w : Who) (p : Phase) : State := s.setCtx w { s.ctx w with phase := p }

/-- All contexts, cores in order, command before handler. -/
def allWho : List Who := (List.finRange 5).flatMap fun c => [⟨c, .cmd⟩, ⟨c, .hdl⟩]

/-- Core number and context bit of trace events and records (R271, R278). -/
def whoByte (w : Who) : Nat := w.core.val + (if w.ctx = .hdl then 8 else 0)

/-- True in a handler context. -/
def isHdl (w : Who) : Bool := w.ctx == .hdl

/-! ### Free values and outputs -/

/-- The next `n` free bytes (R11, log 5). -/
def State.freeBytes (s : State) (n : Nat) : State × List Byte :=
  ({ s with free := s.free + n }, (List.range n).map fun i => Config.freeByte (s.free + i))

/-- The next free 32-bit value. -/
def State.freeWord (s : State) : State × Word32 := ({ s with free := s.free + 1 }, Config.freeWord s.free)

/-- The next free 64-bit value. -/
def State.freeWord64 (s : State) : State × Word64 := ({ s with free := s.free + 1 }, Config.freeWord64 s.free)

/-- Appends to what the cluster has sent (log 10). -/
def State.send (s : State) (o : Output) : State := { s with out := s.out ++ [o] }

/-! ### Clock and holds -/

/-- The fast clock is held or stopped at every agent for a reason other than the power state (R241, R243, R260, R261). -/
def State.clockHeld (s : State) : Bool := s.pwr.throttle || s.pwr.clkHold || s.pwr.droop.isSome || s.pwr.pfSafe


/-- The fast clock runs: the state is Active or Idle and no hold is on (R234, R241). -/
def State.clockOn (s : State) : Bool := (s.pwr.state == .active || s.pwr.state == .idle) && !s.clockHeld

/-- Steps 2 to 5 of a swap: the ports are held and no agent runs (R32, log 16). -/
def State.swapHeld (s : State) : Bool :=
  match s.str.swap with
  | none => false
  | some k => decide (1 ≤ k ∧ k < 8)

/-- Agents on the fast clock step: it runs, the cores are released (R254), and no swap is in steps 2 to 5 (R32). -/
def State.agentsOn (s : State) : Bool := s.pwr.start == .released && s.clockOn && !s.swapHeld

/-- Lookups of a field of the live image wait while the cluster decodes it again (R265). -/
def State.decodes (s : State) (f : ImgField) : Bool := s.damage.contains (.image f) || s.damage.contains (.decoding f)

/-- A lookup of one of these fields waits (R265). -/
def State.waitsOn (s : State) (l : List ImgField) : Bool := l.any s.decodes

/-- The fields of ImgField. -/
def imgFields : List ImgField := [.regions, .limits, .counters, .cores, .watch, .dma, .timeouts, .epoch]

/-- Agents step, and no lookup of the live image waits. -/
def State.fastOn (s : State) : Bool := s.agentsOn && !s.waitsOn imgFields

/-- Some traffic that arrives now is held at the ports (R32, R237, R241, R265, R304); `State.holds` says which. -/
def State.portsHeld (s : State) : Bool := !s.fastOn

/-- A step whose condition may not hold (log 1). -/
def State.orStay (s : State) (o : Option State) : State := o.getD s

/-! ### Counters and histograms -/

/-- Adds to a lifetime bin (R268). -/
def State.bin (s : State) (b k : Nat) : State :=
  { s with tel := { s.tel with inc := tabMod 0 s.tel.inc b fun n => stick64 n k } }

/-- Changes the counters. -/
def State.modCtr (s : State) (f : Ctrs → Ctrs) : State := { s with ctr := f s.ctr }

/-! ### Trace (R277 to R279) -/

/-- Bytes that staging or the internal buffer holds (R279). -/
def State.traceCap (s : State) : Nat :=
  match s.str.live.regionOf .trace with
  | some r => r.size * 64
  | none => 4096

/-- Bytes occupied in staging. -/
def State.traceUsed (s : State) : Nat := (s.dbg.staged.map (·.size)).sum

/-- Emits an event of an enabled class; drops it whole where too little room is left, counting it, and emits DROP before the first
event accepted after a drop (R279). -/
def State.emit (s : State) (cls : Nat) (sub : SubEv) (who size : Nat) (vals : List Nat) : State :=
  if !s.str.live.traceMask.testBit cls then s
  else
    let d := s.dbg
    let dropRoom := if d.dropped = 0 then 0 else 32
    if s.pwr.pfSafe ∨ s.traceCap < s.traceUsed + size + dropRoom + 32 then
      { s with
        dbg := { d with seq := (d.seq + 1) % 65536, dropped := d.dropped + 1
                        dropTime := if d.dropped = 0 then s.ts.toNat else d.dropTime }
        ctr := { s.ctr with traceDrop := stick48 s.ctr.traceDrop 1 } }
    else
      let pre : List TraceEv := if d.dropped = 0 then [] else [⟨s.ts.toNat, 31, .drop, 0xFF, 32, d.seq, [d.dropped, d.dropTime]⟩]
      let q := (d.seq + pre.length) % 65536
      { s with dbg := { d with staged := d.staged ++ pre ++ [⟨s.ts.toNat, cls, sub, who, size, q, vals⟩]
                               seq := (q + 1) % 65536, dropped := 0, dropTime := 0 } }

/-- Changes the power state, with its trace event (R277). -/
def State.setPower (s : State) (p : PState) : State :=
  { s with pwr := { s.pwr with state := p } }.emit 10 .state 0xFF 16 [p.code]

/-- Work ends Idle (R234). -/
def State.activate (s : State) : State := if s.pwr.state = .idle then s.setPower .active else s

/-- A step of an agent on the fast clock that looks up the fields `l` of the live image: nothing happens while the clock does not run,
while such a lookup waits (R265), or where the step's own condition does not hold (log 1). -/
def State.fast (s : State) (f : State → Option State) (l : List ImgField := []) : State :=
  if s.agentsOn && !s.waitsOn l then (match f s with
    | some t => t.activate
    | none => s) else s

/-! ### Fault log (R266) -/

/-- Enters a fault in the log and counts it; pulses the attention output. `core` is 7 when none. -/
def State.logFault (s : State) (code core : Nat) (hdl borne : Bool) (detail : Nat) : State :=
  let e : LogEnt := ⟨code, core, hdl, borne, detail % 2 ^ 32, s.ts.toNat % 2 ^ 48⟩
  let lost := if s.tel.log.length < 64 then 0 else 1
  let t : State :=
    { s with tel := { s.tel with log := (e :: s.tel.log).take 64, lost := stick16 s.tel.lost lost }
             ctr := { s.ctr with faultCount := stick48 s.ctr.faultCount 1 } }
  let t := if code = 0x0C0A then t.bin 0x26 1 else t
  (t.send .attention).emit 2 .single 0xFF 32 [code, core, b2n hdl, b2n borne, e.detail, e.time]

/-- A fault with no item to bear it and no core. -/
def State.logOnly (s : State) (code detail : Nat) : State := s.logFault code 7 false false detail

/-! ### Records -/

/-- Adds to the running record of an item. -/
def State.modRec (s : State) (w : Who) (f : Rec → Rec) : State := s.modItem w fun i => { i with record := f i.record }

/-! ### Abort, first part (R147 steps 1 and 2) -/

/-- Statistic and mask registers of a core become undefined (R139): every entry a free value. -/
def State.undefVec (s : State) (c : Nat) : State :=
  { s.modCore c (fun x => { x with
      masks := (List.range 512).map fun i => (i, Config.freeWord64 (s.free + i))
      stats := (List.range 1024).map fun i => (i, Config.freeWord (s.free + 512 + i)) }) with free := s.free + 1536 }

/-- Bytes of an accumulator tile of `m` rows and `n` columns (R50). -/
def tileBytes (m n : Nat) : Nat := cdiv n 64 * (1024 * cdiv m 4)

/-- Rows and columns of tile (p, q) of a grid (R92). -/
def tileRows (m p : Nat) : Nat := min 256 (m - 256 * p)

/-- Tiles of a grid in Kaolin order (R92). -/
def gridTiles (m n : Nat) : List (Nat × Nat) :=
  (List.range (cdiv m 256)).flatMap fun p => (List.range (cdiv n 256)).map fun q => (p, q)

/-- Kaolin bytes that a grid takes (R92). -/
def gridBytes (m n : Nat) : Nat := ((gridTiles m n).map fun t => tileBytes (tileRows m t.1) (tileRows n t.2)).sum

/-- Kaolin offset of tile (p, q) from the base of the grid (R92). -/
def tileOff (m n p q : Nat) : Nat :=
  (((gridTiles m n).take (p * cdiv n 256 + q)).map fun t => tileBytes (tileRows m t.1) (tileRows n t.2)).sum

/-- Kaolin address of accumulator (i, j) of a grid at base `b` (R50, R92). -/
def gridAddr (b m n i j : Nat) : Nat :=
  let p := i / 256
  let q := j / 256
  let g := 1024 * cdiv (tileRows m p) 4
  b + tileOff m n p q + (j % 256 / 64) * g + (i % 256) * 256 + (j % 64) * 4

/-- Poisons units `a` to `b - 1` of a store: tags set, data bits zero (R62). -/
def Store.poisonUnits (st : Store) (u : Nat) (units : List Nat) : Store :=
  { cells := st.cells.filter fun c => !units.contains (c.1 / u)
    poison := units.foldl setInsert st.poison
    flips := st.flips.filter fun f => !units.contains (f.1 * 8 / u)
    tagFlips := st.tagFlips.filter fun k => !units.contains k }

/-- Poisons the accumulator grid of a matrix instruction (R109). -/
def poisonGrid (k : Store) (op : MmaOp) : Store :=
  k.poisonUnits 256 ((List.range (gridBytes op.m op.n / 256)).map fun i => op.kbase / 256 + i)

/-- Copies of the watch path for an item stop (R283); the path is channel 32 of the model's table (log 35). -/
def Dma.stopWatch (d : Dma) (no : Nat) : Dma :=
  let c := tabGet {} d.ch 32
  if c.run.isEmpty then d
  else { d with ch := tabSet d.ch 32 { c with run := c.run.map fun r =>
    if r.itemNo = no then { r with stopped := true, waiting := none, buf := [] } else r } }

/-- The array is between the first start of a matrix instruction and the end of its last pass. -/
def ArrJob.begun (j : ArrJob) : Bool :=
  j.running || j.restart || j.retryAt.isSome || decide (0 < j.next ∧ j.next < j.passes)

/-- Stops the engines for an aborted item: its matrix instructions end, and the grid of the one that runs is poisoned (R109), its waiting send is
taken back (R147), and the core's mask and statistic registers become undefined (R139). -/
def State.stopEngines (s : State) (w : Who) : State :=
  let c := w.core.val
  let no := (s.item w).no
  let mine := (s.core c).jobs.filter fun j => j.who == w && j.itemNo == no
  let t := s.modCore c fun x => { x with
    kaolin := (mine.filter ArrJob.begun).foldl (fun k j => poisonGrid k j.op) x.kaolin
    jobs := x.jobs.filter fun j => !(j.who == w && j.itemNo == no) }
  let t := { t with msg := { t.msg with sends := t.msg.sends.filter fun x => !(x.who == w && x.itemNo == no) }
                    dma := t.dma.stopWatch no }
  if c < 4 then t.undefVec c else t

/-- Notes the fault of an item in CLU_CORE_STATUS (07, Registers). -/
def State.noteFault (s : State) (c code : Nat) (h : Hdr) : State :=
  s.modCore c fun x => { x with lastFault := code, lastLayer := h.layer, lastOperator := h.operator }

/-- What an item waited for when it took its first fault of the drone tick, else what it waits for (R258). -/
def Item.waitedAt (i : Item) : Pend :=
  match i.abort with
  | some a => a.was
  | none => i.pend

/-- The drone tick of the fault that an item bears, else `tick`. -/
def Item.boreAt (i : Item) (tick : Nat) : Nat :=
  match i.abort with
  | some a => a.tick
  | none => tick

/-- The watchdogs that have expired for an item in the tick of the fault that it bears (R258). -/
def Item.seenFaults (i : Item) : List Nat :=
  match i.abort with
  | some a => a.seen
  | none => []

/-- An item that bears a fault since drone tick `tick`, or since that of the fault it gives way for (R147, R258). -/
def Item.bears (i : Item) (code tick : Nat) : Item :=
  { i with abort := some { fault := code, tick := i.boreAt tick, was := i.waitedAt, seen := i.seenFaults }
           pend := .none, blocked := none, inProgress := false
           sendWaits := false, dump := none, record := { i.record with fault := code, aborted := true } }

/-- The item of a context aborts with a fault. -/
def State.markAbort (s : State) (w : Who) (code : Nat) : State :=
  (s.setCtx w { phase := .aborting, item := (s.item w).bears code s.ticks }).noteFault w.core.val code (s.item w).hdr

/-- Begins the abort of the running item of a context with a fault that is already logged. -/
def State.beginAbort (s : State) (w : Who) (code : Nat) : State := (s.stopEngines w).markAbort w code

/-- A started item is in the context and can bear a fault: none of its faults has begun an abort (R258). -/
def Ctx.canBear (x : Ctx) : Bool :=
  (x.phase == .running || x.phase == .preempting || x.phase == .saving) && x.item.abort.isNone

/-- The place of a fault in the order of R258. -/
def faultRank (code : Nat) : Nat :=
  if code = 0x0C03 ∨ code = 0x0C04 then 1 else if code = 0x0C05 ∨ code = 0x0C06 then 2 else if code = 0x0C07 then 3 else 0

/-- A fault arises in the drone tick of the one that the item of a context bears, and goes before it (R258). -/
def State.outranks (s : State) (w : Who) (code : Nat) : Bool :=
  match (s.item w).abort with
  | some a => a.tick == s.ticks && !a.poisoned && decide (faultRank code < faultRank a.fault)
  | none => false

/-- The newest log entry of a borne fault is no longer one that its item bears. -/
def unbearLog (core : Nat) (hdl : Bool) (code : Nat) : List LogEnt → List LogEnt
  | [] => []
  | e :: l =>
    if e.code = code ∧ e.core = core ∧ e.hdl = hdl ∧ e.borne = true then { e with borne := false } :: l else e :: unbearLog core hdl code l

/-- The fault that the item bears so far gives way to another of its tick: it stands in the log, not borne (R258). -/
def State.unbear (s : State) (w : Who) : State :=
  match (s.item w).abort with
  | some a =>
    if a.snap then s.logFault a.fault w.core.val (isHdl w) false (s.item w).addr
    else { s with tel := { s.tel with log := unbearLog w.core.val (isHdl w) a.fault s.tel.log } }
  | none => s

/-- A fault against the saved command of a core: its save state is discarded, SAVED clears, and it aborts (R147, R159). It settles in the
command context where that holds no other command, else beside it. -/
def State.raiseSaved (s : State) (c : Fin 5) (code detail : Nat) : State :=
  match (s.core c.val).saved with
  | none => s
  | some (i, _) =>
    let w : Who := ⟨c, .cmd⟩
    let t := (s.logFault code c.val false true detail).modCore c.val fun x => { x with saved := none }
    if (s.ctx w).phase = .idle ∨ (s.ctx w).phase = .restoring then (t.setCtx w { phase := .running, item := i }).markAbort w code
    else
      (t.modCore c.val fun x => { x with dying := x.dying ++ [i.bears code s.ticks] }).noteFault c.val code i.hdr

/-- An engine of a core did work for an item in this drone tick (R272): SEQ 0, VEC 2, DMA 3, MSG 4. -/
def State.work (s : State) (e no : Nat) : State :=
  if s.moved.contains (e, no) then s else { s with moved := s.moved ++ [(e, no)] }

/-- Correctable errors in internal state are corrected and counted (R263). -/
def State.mendSoft (s : State) : State :=
  if s.soft.isEmpty then s
  else ({ s with soft := [] }.modCtr fun c => { c with stateCe := stick48 c.stateCe s.soft.length }).bin 0x25 s.soft.length

/-- Errors in fields of the decoded live image are found and raised, and the cluster begins to decode the fields again (R265, log 13). -/
def State.findImage (s : State) : State :=
  imgFields.foldl (fun (t : State) f =>
    if t.damage.contains (.image f) then
      { t with damage := t.damage.map fun d => if d = Damage.image f then Damage.decoding f else d }.logOnly 0x0C0A 0
    else t) s

/-- Raises a fault against the item of a context: it is logged; the item bears it and its abort begins, unless it already aborts with a
fault that this one does not go before (R147, R258, R266). -/
def State.raise (s : State) (w : Who) (code detail : Nat) : State :=
  if (s.ctx w).canBear then (s.logFault code w.core.val (isHdl w) true detail).beginAbort w code
  else if (s.ctx w).phase = .restoring then s.raiseSaved w.core code detail
  else if s.outranks w code then ((s.unbear w).logFault code w.core.val (isHdl w) true detail).beginAbort w code
  else s.logFault code w.core.val (isHdl w) false detail

/-! ### Addresses (R14 to R16) -/

/-- Where a package physical address lies. -/
inductive Place where
  | own (a : Nat)
  | other (cluster a : Nat)
  | stack
  | regs (cluster off : Nat)
  | unmapped
  deriving DecidableEq, Repr

/-- The map of R14. The space has 48 bits; an address sum that sets higher bits lies outside it and names nothing (log 76). -/
def placeOf (id : Ident) (pa : Nat) : Place :=
  if pa < Config.stackEnd then .stack
  else if Config.loamBase ≤ pa ∧ pa < Config.loamBase + 2 ^ 36 then
    let cl := (pa - Config.loamBase) / 2 ^ 28
    let a := (pa - Config.loamBase) % 2 ^ 28
    if id.loamMib * 2 ^ 20 ≤ a then .unmapped else if cl = pkgIndex id then .own a else .other cl a
  else if Config.regBase ≤ pa ∧ pa < Config.regBase + 2 ^ 28 then .regs ((pa - Config.regBase) / 2 ^ 20) ((pa - Config.regBase) % 2 ^ 20)
  else .unmapped

/-- Package physical address of a Loam address of this cluster (R14). -/
def ownAddr (id : Ident) (a : Nat) : Nat := Config.loamBase + pkgIndex id * 2 ^ 28 + a

/-- The sectors that `n` bytes from `a` touch. -/
def sectorsOf (a n : Nat) : List Nat :=
  if n = 0 then [] else (List.range ((a + n - 1) / 64 - a / 64 + 1)).map fun i => a / 64 + i

/-! ### Permissions (R46 to R48) -/

/-- Classes of access (03, Regions and permissions). -/
inductive Access where
  | cmdRead (core : Nat)
  | cmdWrite (core : Nat)
  | dmaRead (core : Nat)
  | dmaWrite (core : Nat)
  | remRead
  | remWrite
  deriving DecidableEq, Repr

/-- What one sector says to an access: permitted, denied (LOAM_PERM) or out of window (LOAM_WINDOW). -/
inductive Verdict where
  | ok
  | perm
  | window
  deriving DecidableEq, Repr

/-- The PERM bit of an access. -/
def Access.bit : Access → Nat
  | .cmdRead _ => 0
  | .cmdWrite _ => 1
  | .dmaRead _ => 2
  | .dmaWrite _ => 3
  | .remRead => 2
  | .remWrite => 3

/-- OWNER of a private region admits the access (R46). -/
def Access.ownerOk (a : Access) (owner : Nat) : Bool :=
  match a with
  | .cmdRead c | .cmdWrite c => c == owner
  | .dmaRead c | .dmaWrite c => c == owner || c == 4
  | .remRead | .remWrite => true

/-- The table of R46 for one sector, remote access under R47. -/
def verdict (im : Image) (a : Access) (sector : Nat) : Verdict :=
  let plain (r : Region) : Verdict :=
    if r.perm.testBit a.bit && (r.kind != .priv || a.ownerOk r.owner) then .ok else .perm
  match im.regionAt sector with
  | none => .window
  | some r =>
    match a with
    | .remRead | .remWrite =>
      match im.window with
      | none => .window
      | some x =>
        if !(decide (x.base ≤ sector ∧ sector < x.base + x.size)) then .window
        else if r.kind != .priv && r.kind != .shared then .window
        else if x.perm.testBit a.bit then plain r else .perm
    | .cmdRead c =>
      (match r.kind with
       | .priv | .shared => plain r
       | .ring => if r.owner = c then .ok else .perm
       | _ => .window)
    | .cmdWrite _ =>
      (match r.kind with
       | .priv | .shared => plain r
       | .ring => .perm
       | _ => .window)
    | .dmaRead _ | .dmaWrite _ =>
      (match r.kind with
       | .priv | .shared => plain r
       | _ => .window)

/-- R48: the fault of an access to `n` bytes from Loam address `a`, 0 where it is permitted. -/
def accessFault (im : Image) (acc : Access) (a n : Nat) : Nat :=
  let vs := (sectorsOf a n).map (verdict im acc)
  if vs.contains .window then 0x0301 else if vs.contains .perm then 0x0302 else 0

/-! ### Stores (R61 to R64) -/

/-- The outcome of touching one unit of a store. -/
inductive Touch where
  | ok
  | ue
  | poisoned
  deriving DecidableEq, Repr

/-- What the access of one unit met: the unit, the outcome, and the errors corrected. -/
abbrev UnitNote := Nat × Touch × Nat

/-- The tag of a unit is read by majority: where one of its bits disagrees it is rewritten, a correctable error (R62). -/
def Store.readTag (st : Store) (k : Nat) : Store × Nat :=
  ({ st with tagFlips := setErase st.tagFlips k }, if st.tagFlips.contains k then 1 else 0)

/-- Reads one unit of `u` bytes: corrects single upsets, poisons on a double one (R61, R62). Also answers how many were corrected. -/
def Store.touch (st : Store) (u k : Nat) : Store × Touch × Nat :=
  let t := st.readTag k
  if st.poison.contains k then (t.1, .poisoned, t.2)
  else
    let here := st.flips.filter fun f => f.1 * 8 / u = k
    if here.any (·.2) then (t.1.poisonUnits u [k], .ue, t.2 + (here.filter fun f => !f.2).length)
    else ({ t.1 with flips := st.flips.filter fun f => !(f.1 * 8 / u == k) }, .ok, t.2 + here.length)

/-- Reads the units that `n` bytes from `a` touch, in ascending order: the store, and what each unit met. -/
def Store.touchRange (st : Store) (u a n : Nat) : Store × List UnitNote :=
  let units := if n = 0 then [] else (List.range ((a + n - 1) / u - a / u + 1)).map fun i => a / u + i
  units.foldl (fun acc k =>
    let r := acc.1.touch u k
    (r.1, acc.2 ++ [(k, r.2.1, r.2.2)])) (st, [])

/-- A word that a write covers whole is not read; one that it covers in part is (R61). -/
def partWord (a n : Nat) (f : Nat × Bool) : Bool :=
  decide (f.1 * 8 < a + n ∧ a < f.1 * 8 + 8) && !(decide (a ≤ f.1 * 8 ∧ f.1 * 8 + 8 ≤ a + n))

/-- Writes bytes into one unit (all of them lie in unit `a / u`): a write of the whole unit clears its tag; a partial write to a
poisoned unit is not performed (R64); a word written in part is read first, and corrected, or its unit poisoned (R61). -/
def Store.writeUnit (st : Store) (u a : Nat) (bs : List Byte) : Store × Touch × Nat :=
  let k := a / u
  let t := st.readTag k
  let clean := { t.1 with
    cells := st.cells.write a bs
    flips := st.flips.filter fun f => !(decide (f.1 * 8 < a + bs.length ∧ a < f.1 * 8 + 8)) }
  let part := st.flips.filter (partWord a bs.length)
  if bs.length = u then ({ clean with poison := setErase st.poison k }, .ok, 0)
  else if st.poison.contains k then (t.1, .poisoned, t.2)
  else if part.any (·.2) then (t.1.poisonUnits u [k], .ue, t.2 + (part.filter fun f => !f.2).length)
  else (clean, .ok, t.2 + part.length)

/-- Writes bytes from `a`, unit by unit; answers what each unit met. -/
def Store.writeRange (st : Store) (u : Nat) : Nat → Nat → List Byte → Store × List UnitNote
  | 0, _, _ => (st, [])
  | fuel + 1, a, bs =>
    if bs.isEmpty then (st, []) else
      let n := u - a % u
      let r := st.writeUnit u a (bs.take n)
      let q := Store.writeRange r.1 u fuel (a + (bs.take n).length) (bs.drop n)
      (q.1, (a / u, r.2.1, r.2.2) :: q.2)

/-- The outcome of an access of several units: an uncorrectable error in one raises its fault, and poison without one raises 0x030A
(R61, R63, log 84). -/
def worstTouch (l : List UnitNote) : Touch :=
  if l.any (fun x => x.2.1 == .ue) then .ue else if l.any (fun x => x.2.1 == .poisoned) then .poisoned else .ok

/-- The fault of an access that met `f` so far and meets `g`, by the same rule. -/
def worstFault (f g : Nat) : Nat := if f = 0 ∨ (f = 0x030A ∧ (g = 0x0308 ∨ g = 0x0309)) then g else f

/-- Notes an uncorrectable error in LOAM_ERR_ADDR and LOAM_ERR_INFO (03, Registers) and in its lifetime bin (R268). -/
def State.recordUe (s : State) (store core vb addr port : Nat) : State :=
  let s := s.bin 0x24 1
  if s.err.valid then { s with err := { s.err with more := true } }
  else { s with err := { addr := addr, valid := true, store := store, core := core, vb := vb, port := port, more := false } }

/-- A read or write of a store: done, or the fault it raises. -/
inductive Rd (α : Type) where
  | ok (v : α)
  | bad (fault : Nat)
  deriving DecidableEq, Repr

/-- Counts corrected Loam words of a sector range in LOAM_CE_COUNT and the bin of their bank (R61). -/
def State.countLoamCe (s : State) (sector k : Nat) : State :=
  if k = 0 then s else (s.modCtr fun c => { c with loamCe := stick48 c.loamCe k }).bin (sector % 32) k

/-- Notes what the access of a Loam sector met: errors corrected, and an uncorrectable one (R61). -/
def State.noteLoam (s : State) (port : Nat) (x : UnitNote) : State :=
  let t := s.countLoamCe x.1 x.2.2
  if x.2.1 = .ue then t.recordUe 0 0 0 (x.1 * 64) port else t

/-- Reads one Loam sector through a port (R61, R63). -/
def State.loamSector (s : State) (port sector : Nat) : State × Touch :=
  let r := s.loam.touch 64 sector
  ({ s with loam := r.1 }.noteLoam port (sector, r.2), r.2.1)

/-- Fault of a unit's kind for Loam. -/
def loamTouchFault : Touch → Nat
  | .ok => 0
  | .ue => 0x0308
  | .poisoned => 0x030A

/-- Reads `n` bytes of Loam from `a` through a port: the bytes, or 0x0308 or 0x030A where a sector fails (R61, R63). -/
def State.loamRead (s : State) (port a n : Nat) : State × Rd (List Byte) :=
  let r := (sectorsOf a n).foldl (fun (acc : State × Nat) k =>
    let q := acc.1.loamSector port k
    (q.1, worstFault acc.2 (loamTouchFault q.2))) (s, 0)
  (r.1, if r.2 = 0 then .ok (r.1.loam.cells.read a n) else .bad r.2)

/-- Writes bytes to Loam from `a` through a port, sector by sector: 0, or the fault where a sector was not written (R61, R64). -/
def State.loamWrite (s : State) (port a : Nat) (bs : List Byte) : State × Nat :=
  let r := s.loam.writeRange 64 (bs.length + 1) a bs
  (r.2.foldl (fun t x => t.noteLoam port x) { s with loam := r.1 }, loamTouchFault (worstTouch r.2))

/-- Sets the tags of sectors (R62, R64). -/
def State.poisonSectors (s : State) (l : List Nat) : State := { s with loam := s.loam.poisonUnits 64 l }

/-- Fault of a unit's kind for Kaolin and the VBs. -/
def kvbTouchFault : Touch → Nat
  | .ok => 0
  | .ue => 0x0309
  | .poisoned => 0x030A

/-- Counts corrected words of Kaolin and the VBs of a core (R61). -/
def State.countKaoCe (s : State) (c k : Nat) : State :=
  if k = 0 then s else (s.modCtr fun x => { x with kaoCe := stick48 x.kaoCe k }).bin (0x20 + c) k

/-- Notes what the access of a Kaolin row segment met (R61). PORT of LOAM_ERR_INFO is the core's own Loam port, though the access uses
none (DESIGN CHOICE, log 79). -/
def State.noteKao (s : State) (c : Nat) (x : UnitNote) : State :=
  let t := s.countKaoCe c x.2.2
  if x.2.1 = .ue then t.recordUe 1 c 0 (x.1 * 256) c else t

/-- Notes what the access of 64 bytes of a VB met (R61), PORT as for Kaolin (log 79). -/
def State.noteVb (s : State) (c : Nat) (x : UnitNote) : State :=
  let t := s.countKaoCe c x.2.2
  if x.2.1 = .ue then t.recordUe 2 c (x.1 * 64 / 65536) (x.1 * 64 % 65536) c else t

/-- The bytes read, or the fault where a unit has none. -/
def kvbRd (m : Mem) (a n : Nat) (l : List UnitNote) : Rd (List Byte) :=
  if worstTouch l = .ok then .ok (m.read a n) else .bad (kvbTouchFault (worstTouch l))

/-- Reads `n` bytes of Kaolin of core `c` from `a` (R61, R63). -/
def State.kaoRead (s : State) (c a n : Nat) : State × Rd (List Byte) :=
  let r := (s.core c).kaolin.touchRange 256 a n
  (r.2.foldl (fun t x => t.noteKao c x) (s.modCore c fun x => { x with kaolin := r.1 }), kvbRd r.1.cells a n r.2)

/-- Writes bytes of Kaolin (R64). -/
def State.kaoWrite (s : State) (c a : Nat) (bs : List Byte) : State × Nat :=
  let r := (s.core c).kaolin.writeRange 256 (bs.length + 1) a bs
  (r.2.foldl (fun t x => t.noteKao c x) (s.modCore c fun x => { x with kaolin := r.1 }), kvbTouchFault (worstTouch r.2))

/-- Reads `n` bytes of a VB or VB pair; VB b lies at 65,536 b of the address form of R114, so a pair is one range (R53). -/
def State.vbRead (s : State) (c a n : Nat) : State × Rd (List Byte) :=
  let r := (s.core c).vb.touchRange 64 a n
  (r.2.foldl (fun t x => t.noteVb c x) (s.modCore c fun x => { x with vb := r.1 }), kvbRd r.1.cells a n r.2)

/-- Writes bytes of a VB or VB pair (R64). -/
def State.vbWrite (s : State) (c a : Nat) (bs : List Byte) : State × Nat :=
  let r := (s.core c).vb.writeRange 64 (bs.length + 1) a bs
  (r.2.foldl (fun t x => t.noteVb c x) (s.modCore c fun x => { x with vb := r.1 }), kvbTouchFault (worstTouch r.2))

/-- Loam port of a core (R42). -/
def corePort (c : Nat) : Nat := c

/-! ### Declared ranges (R55, R144) -/

/-- A Kaolin range lies in the item's declared one (R55). -/
def Hdr.kaoHolds (h : Hdr) (a n : Nat) : Bool :=
  n == 0 || (h.kaoLen != 0 && decide (h.kaoBase * 1024 ≤ a ∧ a + n ≤ (h.kaoBase + h.kaoLen) * 1024))

/-- A VB address range lies in a declared range of its buffer or pair (R53, R55, R144). -/
def Hdr.vbHolds (h : Hdr) (a n : Nat) : Bool :=
  n == 0 || (List.range 4).any fun v =>
    let e := h.vb.getD v (0, 0)
    e.2 != 0 && decide (v * 65536 + e.1 * 1024 ≤ a ∧ a + n ≤ v * 65536 + (e.1 + e.2) * 1024)

/-- The KiB of Kaolin and of the VBs, as one number line, that a header declares: Kaolin from 0, VB n from 1024 (n + 1). -/
def Hdr.ranges (h : Hdr) : List (Nat × Nat) :=
  (h.kaoBase, h.kaoLen) :: (List.range 4).map fun v =>
    let e := h.vb.getD v (0, 0)
    (1024 + 64 * v + e.1, e.2)

/-- Two headers declare a common range (R56). -/
def Hdr.overlaps (a b : Hdr) : Bool :=
  a.ranges.any fun x => b.ranges.any fun y => decide (0 < x.2 ∧ 0 < y.2 ∧ x.1 < y.1 + y.2 ∧ y.1 < x.1 + x.2)

/-- An item that holds its declared ranges: started and not ended (R56). -/
def Ctx.holds (x : Ctx) : Bool :=
  match x.phase with
  | .running | .preempting | .saving | .restoring | .aborting => true
  | _ => false

/-- What items waited for may have come: those that wait for a reason of R273 try again. -/
def State.unblock (s : State) (reason : Nat) : State :=
  allWho.foldl (fun (t : State) w => if (t.item w).blocked = some reason then t.modItem w fun i => { i with blocked := none } else t) s

/-! ### Sync counters (R187) -/

/-- The value of a counter. -/
def State.sc (s : State) (n : Nat) : Word32 := tabGet 0 s.syn.sc n
/-- A wait is met (R190). -/
def waitMet (value target : Word32) : Bool := decide (0 ≤ (value - target).toInt)

/-- The items whose pending wait on a counter a value meets. -/
def State.waitsMet (s : State) (n : Nat) (v : Word32) : List Nat :=
  allWho.filterMap fun w => match (s.item w).pend with
    | .wait sc _ t => if sc = n ∧ waitMet v t then some (s.item w).no else none
    | _ => none

/-- Sets a counter; the sync unit then evaluates every pending wait on it (R190). -/
def State.setSc (s : State) (n : Nat) (v : Word32) : State :=
  { s with syn := { s.syn with sc := tabSet s.syn.sc n v, met := s.syn.met ++ s.waitsMet n v } }

/-- A counter's internal word has an uncorrectable error (R265). -/
def State.scBad (s : State) (n : Nat) : Bool := s.damage.contains (.counter n)

/-- An addition to a counter (R187): wraps modulo 2^32. A damaged counter does not change (R265). -/
def State.addSc (s : State) (n : Nat) (v : Word32) : State :=
  if s.scBad n then s.logFault 0x0C0A 7 false false n else s.setSc n (s.sc n + v)

/-- An arrive that takes effect (R187, R277); `who` is the context whose arrive it is, 0xFF for none. One that a damaged counter refuses
takes none (R265). -/
def State.arriveSc (s : State) (n : Nat) (v : Word32) (who : Nat) : State :=
  let t := s.addSc n v
  if s.scBad n then t
  else t.emit 8 .perform who 32 [n, (t.sc n).toNat, ((s.str.live.sync n).map (·.scope)).getD 0]

/-- Snapshot request (R285, R288): starts a capture, joins the one in progress, or is missed while the store is held. -/
def State.requestSnap (s : State) (cause fault origin : Nat) : State :=
  let d := s.dbg
  if d.snapState = 2 then { s with dbg := { d with missed := stick16 d.missed 1 } }
  else if d.snapState = 1 then s
  else { s with dbg := { d with snapState := 1, snapCause := cause, snapFault := fault, snapOrigin := origin, snapTick := s.ts.toNat } }

/-- A request made at this cluster: it is forwarded as far as DBG_SNAP_CFG.SPREAD says (R287). -/
def State.askSnap (s : State) (cause fault : Nat) : State :=
  let t := s.requestSnap cause fault (pkgIndex s.id)
  if s.dbg.spread = 0 then t else t.send (.snapForward s.dbg.spread)

end Sys2Proof.Machine
end

