-- ==== Sys2Proof/Machine/Port.lean ====
section
/-! DEFINITION. Machine/Port.lean: the memory port: outstanding transactions (R224), the port buffer (R192, R193, R204), the
control core's data cache (R201), atomics (R202 to R204), and requests of other clusters (R47, R206). -/

namespace Sys2Proof.Machine

/-- The port can issue another transaction (R224). -/
def State.txnRoom (s : State) : Bool := decide (s.port.txns.length < 4096)

/-- Issues a transaction; answers its number. -/
def State.newTxn (s : State) (addr : Nat) (k : TxnKind) : State × Nat :=
  let id := s.port.nextId
  ({ s with port := { s.port with txns := s.port.txns ++ [{ id := id, addr := addr, kind := k }], nextId := id + 1 } }, id)

/-- Issues an addition to a counter of another cluster. -/
def State.issueAdd (s : State) (k : TxnKind) (addr clu sc : Nat) (a : AddKind) : State :=
  let q := s.newTxn addr k
  q.1.send (.counterAdd q.2 clu sc a)

/-- An addition to a counter of another cluster: issued, or waiting at the port (R197, R224). -/
def State.oweAdd (s : State) (k : TxnKind) (addr clu sc : Nat) (a : AddKind) : State :=
  if s.txnRoom && s.port.owed.isEmpty then s.issueAdd k addr clu sc a
  else { s with port := { s.port with owed := s.port.owed ++ [(k, addr, clu, sc, a)] } }

/-- Additions that waited at the port are issued, oldest first, as far as there is room (R224). -/
def State.payOwed (s : State) : State :=
  s.port.owed.foldl (fun t x => t.oweAdd x.1 x.2.1 x.2.2.1 x.2.2.2.1 x.2.2.2.2) { s with port := { s.port with owed := [] } }

/-- Removes a transaction. -/
def State.dropTxn (s : State) (id : Nat) : State :=
  { s with port := { s.port with txns := s.port.txns.filter (·.id != id) } }

/-- The entry of a sector that is not on its way out. -/
def Port.entry (p : Port) (sector : Nat) : Option PEntry := p.pbuf.find? fun e => e.sector == sector && e.out.isNone

/-- A sector is being fetched for an atomic (R204). -/
def Port.fetching (p : Port) (sector : Nat) : Bool := p.txns.any fun t => match t.kind with
  | .fetch .. => !t.abandoned && t.addr / 64 == sector
  | _ => false

/-- The sectors being fetched for an atomic that no entry holds yet, each once. -/
def Port.fetched (p : Port) : List Nat :=
  p.txns.foldl (fun l t => match t.kind with
    | .fetch .. => if t.abandoned || p.pbuf.any fun e => e.sector == t.addr / 64 then l else setInsert l (t.addr / 64)
    | _ => l) []

/-- Places of the buffer in use: entries, and sectors being fetched for an atomic (R204). -/
def Port.used (p : Port) : Nat := p.pbuf.length + p.fetched.length

/-- Bytes laid over an entry's bytes. -/
def overlay (t : Tab Byte) (o : Nat) (bs : List Byte) : Tab Byte :=
  (bs.mapIdx fun i b => (o + i, b)).foldl (fun t p => tabSet t p.1 p.2) t

/-- Puts bytes of one sector into the port buffer for an item (R192); none when the buffer is full. -/
def State.pbufWrite (s : State) (itemNo pa : Nat) (bs : List Byte) : Option State :=
  let sec := pa / 64
  let upd (e : PEntry) : PEntry :=
    { e with data := overlay e.data (pa % 64) bs, writers := setInsert e.writers itemNo }
  match s.port.entry sec with
  | some _ => some { s with port := { s.port with
      pbuf := s.port.pbuf.map fun e => if e.sector = sec ∧ e.out.isNone then upd e else e } }
  | none =>
    if 64 ≤ s.port.used then none
    else some { s with port := { s.port with pbuf := s.port.pbuf ++ [upd ⟨sec, [], false, [], none⟩] } }

/-- The bytes of a sector as the cluster reads them: memory's, under what the port buffer holds, oldest entry first (R192, R201). -/
def Port.forward (p : Port) (sector : Nat) (data : List Byte) : List Byte :=
  (p.pbuf.filter fun e => e.sector == sector).foldl
    (fun d e => (List.range 64).map fun i => tabGet (d.getD i 0) e.data i) data

/-- Bytes of a sector with other bytes laid over them. -/
def laidOver (data : List Byte) (laid : Tab Byte) : List Byte := (List.range 64).map fun i => tabGet (data.getD i 0) laid i

/-- All bytes of a sector that the port buffer holds, the newest entry's last. -/
def Port.holding (p : Port) (sector : Nat) : Tab Byte :=
  (p.pbuf.filter fun e => e.sector == sector).foldl (fun t e => e.data.foldl (fun t b => tabSet t b.1 b.2) t) []

/-- The port buffer alone holds every byte of a sector. -/
def Port.covers (p : Port) (sector : Nat) : Bool := p.pbuf.any fun e => e.sector == sector && e.data.length == 64

/-- PORT_BUFFER_DRAIN (R192): an entry goes out as one sector write, but not while its sector is being fetched for an atomic (R204). -/
def portDrain (sector : Nat) (s : State) : Option State :=
  match s.port.entry sector with
  | none => none
  | some e =>
    if !s.txnRoom then none
    else if s.port.pbuf.any (fun x => x.sector == sector && x.out.isSome) || s.port.fetching sector then none
    else
      let r := s.newTxn (sector * 64) .drain
      let t := { r.1 with port := { r.1.port with
        pbuf := r.1.port.pbuf.map fun (x : PEntry) => if x.sector = sector ∧ x.out.isNone then { x with out := some r.2 } else x } }
      some (t.send (.memWrite r.2 (sector * 64) e.data))

/-- The entry that a transaction is writing out leaves the buffer; a FLUSH ends when the buffer is empty (R204). -/
def State.endDrain (s : State) (id : Nat) : State :=
  let b := s.port.pbuf.filter fun e => e.out != some id
  { s with port := { s.port with pbuf := b, flushing := s.port.flushing && !b.isEmpty } }

/-- The context that runs item `no`, if one does. -/
def State.whoOf (s : State) (no : Nat) : Option Who :=
  allWho.find? fun w => (s.ctx w).phase != .idle && (s.item w).no == no

/-- The core whose saved command item `no` is (R158). -/
def State.savedOf (s : State) (no : Nat) : Option (Fin 5) :=
  (List.finRange 5).find? fun c => match (s.core c.val).saved with
    | some (i, _) => i.no == no
    | none => false

/-- Raises a fault against item `no` where it runs or is saved, else does what `f` says (R64, R147). -/
def State.raiseElse (s : State) (no code detail : Nat) (f : State → State) : State :=
  match s.whoOf no, s.savedOf no with
  | some w, _ => s.raise w code detail
  | none, some c => s.raiseSaved c code detail
  | none, none => f s

/-- Raises a fault against item `no` where it runs or is saved, else logs it (R64, R266). -/
def State.raiseItem (s : State) (no code detail : Nat) : State := s.raiseElse no code detail fun s => s.logOnly code detail

/-- The same for work that context `by_` issued: the log names that context's core where the item no longer runs. -/
def State.raiseFor (s : State) (no : Nat) (by_ : Who) (code detail : Nat) : State :=
  s.raiseElse no code detail fun s => s.logFault code by_.core.val (isHdl by_) false detail

/-- A drain failed with a fault: every item whose write the entry held bears it (R64, R207). -/
def State.failDrain (s : State) (id code : Nat) : State :=
  match s.port.pbuf.find? fun e => e.out == some id with
  | none => s
  | some e => e.writers.foldl (fun t no => t.raiseItem no code (e.sector * 64)) (s.endDrain id)

/-! ### Release conditions (R193) -/

/-- What a package-scope release of an item waits for: its writes are performed and acknowledged, and no entry of the cluster holds
an atomic result. At core and cluster scope the writes are where they must be at once (log 6). -/
def State.released (s : State) (itemNo scope : Nat) : Bool :=
  scope != 2 ||
    (s.port.pbuf.all (fun e => !e.writers.contains itemNo && !e.atomic) &&
     s.port.txns.all fun t => match t.kind with
       | .store _ n => n != itemNo
       | .poison _ n => n != itemNo
       | _ => true)

/-! ### The control core's cache (R201) -/

/-- The cached line of a sector. -/
def Port.line (p : Port) (sector : Nat) : Option Line := p.cache.find? (·.sector == sector)

/-- Fills a line; of more than 256 the oldest leaves (log 25). -/
def State.fillLine (s : State) (sector : Nat) (data : List Byte) : State :=
  let rest := s.port.cache.filter (·.sector != sector)
  { s with port := { s.port with cache := ({ sector := sector, data := data } :: rest).take 256 } }

/-- A read of the cache: a line whose parity does not hold is invalidated and counted, and the sector is read again (R263). -/
def State.lookLine (s : State) (sector : Nat) : State × Option Line :=
  match s.port.line sector with
  | none => (s, none)
  | some l =>
    if !l.bad then (s, some l)
    else
      let t := { s with port := { s.port with cache := s.port.cache.filter (·.sector != sector) } }
      ((t.modCtr fun c => { c with stateCe := stick48 c.stateCe 1 }).bin 0x25 1, none)

/-- A load in flight of a sector, changed. -/
def Txn.modLoad (t : Txn) (sector : Nat) (f : Bool → Tab Byte → Bool × Tab Byte) : Txn :=
  match t.kind with
  | .load w no rd off len cache fill laid =>
    if t.addr / 64 = sector then
      let q := f fill laid
      { t with kind := .load w no rd off len cache q.1 q.2 }
    else t
  | _ => t

/-- A store updates a cached line, and the loads of its sector that are in flight (R185, R201). -/
def State.updateLine (s : State) (pa : Nat) (bs : List Byte) : State :=
  { s with port := { s.port with
      cache := s.port.cache.map fun l =>
        if l.sector = pa / 64 then
          { l with data := (List.range 64).map fun i =>
              if pa % 64 ≤ i ∧ i < pa % 64 + bs.length then bs.getD (i - pa % 64) 0 else l.data.getD i 0 }
        else l
      txns := s.port.txns.map fun t => t.modLoad (pa / 64) fun fill laid => (fill, overlay laid (pa % 64) bs) } }

/-- The line of a sector is invalidated: after an atomic at the point of coherence (R185, R204). -/
def State.dropLine (s : State) (sector : Nat) : State :=
  { s with port := { s.port with
      cache := s.port.cache.filter (·.sector != sector)
      txns := s.port.txns.map fun t => t.modLoad sector fun _ laid => (false, laid) } }

/-- Every line is invalidated, and no load in flight fills one (R194, R201). -/
def State.dropCache (s : State) : State :=
  { s with port := { s.port with
      cache := []
      txns := s.port.txns.map fun t => t.modLoad (t.addr / 64) fun _ laid => (false, laid) } }

/-! ### Atomics (R202) -/

/-- The word an atomic leaves, on `n` bits. -/
def atomOn (n : Nat) (r : AtomReq) (old : BitVec n) : BitVec n :=
  let x : BitVec n := BitVec.ofNat n r.operand.toNat
  match r.op with
  | .add => old + x
  | .min => if r.signed then (if x.slt old then x else old) else if x.ult old then x else old
  | .max => if r.signed then (if old.slt x then x else old) else if old.ult x then x else old
  | .xchg => x
  | .cas => if old = BitVec.ofNat n r.compare.toNat then x else old

/-- Bytes of the word an atomic works on. -/
def atomBytes (r : AtomReq) : Nat := if r.w64 then 8 else 4

/-- The word an atomic leaves, given the old bytes. -/
def atomNew (r : AtomReq) (old : Nat) : Nat :=
  if r.w64 then (atomOn 64 r (BitVec.ofNat 64 old)).toNat else (atomOn 32 r (BitVec.ofNat 32 old)).toNat

/-- An atomic at the own Loam bank (R204): the old word, or a fault. -/
def State.loamAtomic (s : State) (port a : Nat) (r : AtomReq) : State × Rd Nat :=
  let q := s.loamRead port a (atomBytes r)
  match q.2 with
  | .bad f => (q.1, .bad f)
  | .ok bs =>
    let old := leNat bs
    ((q.1.loamWrite port a (leBytes (atomBytes r) (atomNew r old))).1, .ok old)

/-- The returned word at RET, 8 bytes, zero-extended (R202); a refused write raises its fault. -/
def State.atomReturn (s : State) (w : Who) (ret : Option Nat) (old : Nat) : State :=
  match ret with
  | none => s
  | some a =>
    let r := s.loamWrite (corePort w.core.val) a (leBytes 8 old)
    if r.2 = 0 then r.1 else r.1.raise w r.2 a

/-- An atomic on an entry of the port buffer that holds its word (R204): the old word. -/
def State.pbufAtomic (s : State) (itemNo pa : Nat) (r : AtomReq) : State × Nat :=
  let sec := pa / 64
  let old := match s.port.entry sec with
    | some e => leNat ((List.range (atomBytes r)).map fun i => tabGet 0 e.data (pa % 64 + i))
    | none => 0
  ({ s with port := { s.port with pbuf := s.port.pbuf.map fun e =>
      if e.sector = sec ∧ e.out.isNone then
        { e with data := overlay e.data (pa % 64) (leBytes (atomBytes r) (atomNew r old)), atomic := true, writers := setInsert e.writers itemNo }
      else e } }, old)

/-- The same by a context: an atomic of the control core updates its cached line, as a store does (R185, R201). -/
def State.pbufAtomicBy (s : State) (w : Who) (pa : Nat) (r : AtomReq) : State × Nat :=
  let q := s.pbufAtomic (s.item w).no pa r
  (if w.core.val = 4 then q.1.updateLine pa (leBytes (atomBytes r) (atomNew r q.2)) else q.1, q.2)

/-- An entry of a sector is on its way out. -/
def Port.draining (p : Port) (sector : Nat) : Bool := p.pbuf.any fun e => e.sector == sector && e.out.isSome

/-- An entry of the buffer holds a whole sector: fetched for an atomic, or written whole (R204). -/
def Port.holdsSector (p : Port) (sector : Nat) : Bool :=
  match p.entry sector with
  | some e => e.data.length == 64
  | none => false

/-- A volatile store to a sector, or an atomic on it at the point of coherence, is on its way (R200, R204). -/
def Port.directly (p : Port) (sector : Nat) : Bool := p.txns.any fun t => match t.kind with
  | .store .. | .atomic .. => !t.abandoned && t.addr / 64 == sector
  | _ => false

/-- A fetched sector becomes the entry, under bytes the buffer already holds (R204). -/
def State.pbufFill (s : State) (sec : Nat) (data : List Byte) : State :=
  let full (e : PEntry) : PEntry := { e with data := (List.range 64).map fun i => (i, tabGet (data.getD i 0) e.data i) }
  match s.port.entry sec with
  | some _ => { s with port := { s.port with
      pbuf := s.port.pbuf.map fun e => if e.sector = sec ∧ e.out.isNone then full e else e } }
  | none => { s with port := { s.port with pbuf := s.port.pbuf ++ [full ⟨sec, [], false, [], none⟩] } }

/-! ### Requests of other clusters (R47, R64, R206) -/

/-- An uncorrectable error that a remote read finds is raised here; poison is answered with poison status (R61, R63). -/
def State.remoteRead (s : State) (cl a n : Nat) : State :=
  let r := s.loamRead 5 a n
  match r.2 with
  | .ok _ => r.1.send (.accessAnswer cl (.data (r.1.loam.cells.read (a / 64 * 64) 64)) 0)
  | .bad f =>
    let t := if f = 0x0308 then r.1.logOnly f a else r.1
    t.send (.accessAnswer cl .poisoned 0)

/-- Accepts a request of another cluster at the memory port: checked under R47 and R48, refused with the fault, else performed. -/
def acceptAccess (r : RemoteReq) (s : State) : State :=
  let cl := r.cluster.val
  let refuse (f : Nat) : State := s.send (.accessAnswer cl .ack f)
  let out := decide (s.id.loamMib * 2 ^ 20 ≤ r.addr)
  let fault (acc : Access) (n : Nat) : Nat := if out then 0x0301 else accessFault s.str.live acc r.addr n
  match r.op with
  | .read n =>
    let f := fault .remRead n
    if f ≠ 0 then refuse f else s.remoteRead cl r.addr n
  | .write bs =>
    let f := fault .remWrite bs.length
    if f ≠ 0 then refuse f
    else
      let q := s.loamWrite 5 r.addr bs
      if q.2 = 0 then q.1.send (.accessAnswer cl .ack 0)
      else (if q.2 = 0x0308 then q.1.logOnly q.2 r.addr else q.1).send (.accessAnswer cl .poisonRefused 0x030A)
  | .poison =>
    let f := fault .remWrite 64
    if f ≠ 0 then refuse f else (s.poisonSectors [r.addr / 64]).send (.accessAnswer cl .ack 0)
  | .atomic req =>
    let f1 := fault .remRead (atomBytes req)
    let f2 := fault .remWrite (atomBytes req)
    let f := if f1 = 0x0301 ∨ f2 = 0x0301 then 0x0301 else if f1 ≠ 0 then f1 else f2
    if f ≠ 0 then refuse f
    else
      let q := s.loamAtomic 5 r.addr req
      match q.2 with
      | .ok old => q.1.send (.accessAnswer cl (.word (BitVec.ofNat 64 old)) 0)
      | .bad e => (if e = 0x0308 then q.1.logOnly e r.addr else q.1).send (.accessAnswer cl .poisoned 0)

/-! ### Counter additions from outside (R197, R199) -/

/-- A byte count or pulse from another cluster: added to a counter of package scope, else refused with SYN_UNALLOC, which only the
issuing cluster raises (R197). A damaged counter refuses it with STATE_UE (R265). -/
def acceptAdd (sc : Nat) (k : AddKind) (s : State) : State :=
  match s.str.live.sync sc with
  | some r =>
    if r.scope = 2 then (s.addSc sc (match k with
      | .bytes n => n
      | .pulse => 1)).send (.accessAnswer 0 .ack (if s.scBad sc then 0x0C0A else 0))
    else s.send (.accessAnswer 0 .ack 0x0901)
  | none => s.send (.accessAnswer 0 .ack 0x0901)

end Sys2Proof.Machine
end

