-- ==== Sys2Proof/Machine/Msg.lean ====
section
/-! DEFINITION. Machine/Msg.lean: message headers and entries (R166), rings and generations (R172, R180), arrival checks (R171),
credits and status entries (R169, R170, R181), the combining queue (R175 to R178), the message view (R173), pacing (R230). -/

namespace Sys2Proof.Machine

/-! ### Headers and entries (R165, R166) -/

/-- Fields of a destination (R165). -/
def destRing (d : Nat) : Nat := bits d 4 0
def destCore (d : Nat) : Nat := bits d 7 5
def destClu (d : Nat) : Nat := bits d 12 8
def destNode (d : Nat) : Nat := bits d 31 16

/-- The header of a ring entry. -/
structure MHdr where
  src : Nat := 0
  tag : Nat := 0
  len : Nat := 0
  part : Nat := 0
  gen : Nat := 0
  priv : Bool := false
  anygen : Bool := false
  combine : Bool := false
  masked : Bool := false
  failed : Bool := false
  kind : Nat := 0
  round : Nat := 0
  offset : Nat := 0
  cidx : Nat := 0
  job : Nat := 0
  deriving DecidableEq, Repr

/-- FLAGS (R166). -/
def MHdr.flags (h : MHdr) : Nat :=
  b2n h.priv + 2 * b2n h.anygen + 4 * b2n h.combine + 8 * b2n h.masked + 16 * b2n h.failed + 32 * h.kind

/-- The 16 bytes of a header. -/
def MHdr.bytes (h : MHdr) : List Byte :=
  leBytes 4 h.src ++ leBytes 2 h.tag ++ leBytes 2 (h.len + 2048 * h.part) ++ leBytes 1 h.gen ++ leBytes 1 h.flags ++
  leBytes 1 h.round ++ leBytes 1 h.offset ++ leBytes 2 h.cidx ++ leBytes 2 h.job

/-- The header of an entry. -/
def decodeMHdr (b : List Byte) : MHdr :=
  let f := fieldB b 9 1
  let l := fieldB b 6 2
  { src := fieldB b 0 4, tag := fieldB b 4 2, len := bits l 10 0, part := bits l 15 11, gen := fieldB b 8 1
    priv := bitAt f 0, anygen := bitAt f 1, combine := bitAt f 2, masked := bitAt f 3, failed := bitAt f 4, kind := bits f 6 5
    round := fieldB b 10 1, offset := fieldB b 11 1, cidx := fieldB b 12 2, job := fieldB b 14 2 }

/-- Entries of a message of `len` payload bytes (R166). -/
def entriesOf (len : Nat) : Nat := cdiv len 48

/-- The entries of a message: a header with its own PART and 48 payload bytes each; the bytes past LEN are free (R166). -/
def State.mkEntries (s : State) (h : MHdr) (payload : List Byte) : State × List (List Byte) :=
  let e := entriesOf h.len
  let r := s.freeBytes (48 * e - payload.length)
  let all := payload ++ r.2
  (r.1, (List.range e).map fun p => { h with part := p }.bytes ++ sliceB all (48 * p) 48)

/-- The payload of a message from its entries. -/
def payloadOf (es : List (List Byte)) (len : Nat) : List Byte := (es.flatMap fun e => sliceB e 16 48).take len

/-- The package's own node: 0 until MSG_NODE is valid (R228). -/
def State.ownNode (s : State) : Nat := if s.msg.nodeValid then s.msg.node else 0

/-- The destination lies in this cluster (R165, R228). -/
def State.destHere (s : State) (d : Nat) : Bool := destNode d == s.ownNode && bits d 15 8 == pkgIndex s.id

/-- SRC of what this cluster writes itself (R178, R181), and of its sends. -/
def State.srcOf (s : State) (core : Nat) : Nat := s.ownNode * 65536 + pkgIndex s.id * 256 + core * 32

/-! ### Rings -/

/-- Key of a ring in the table. -/
def ringKey (c r : Nat) : Nat := 32 * c + r
/-- A ring's state. -/
def State.ring (s : State) (c r : Nat) : Ring := tabGet {} s.msg.rings (ringKey c r)
/-- Replaces a ring's state. -/
def State.setRing (s : State) (c r : Nat) (x : Ring) : State :=
  { s with msg := { s.msg with rings := tabSet s.msg.rings (ringKey c r) x } }

/-- Entries of a ring of the live image; 0 where it does not exist. -/
def State.ringSize (s : State) (c r : Nat) : Nat := ((s.str.live.ring c r).map (·.size)).getD 0

/-- Loam address of entry `i` of a ring. -/
def State.ringAddr (s : State) (c r i : Nat) : Nat :=
  match s.str.live.ring c r with
  | some x => 64 * (x.base + i % x.size)
  | none => 0

/-- Free entries of a ring. -/
def State.ringFree (s : State) (c r : Nat) : Nat := s.ringSize c r - (s.ring c r).occ

/-- Bytes that pass the message port, in or out, in TEL_MSG_BYTES (R267). -/
def State.countMsg (s : State) (n : Nat) : State :=
  { s with ctr := let u := unitCount 65536 s.ctr.msgBytes s.ctr.msgSub n
                  { s.ctr with msgBytes := u.1, msgSub := u.2 } }

/-- Writes entries into a ring and advances its write pointer (R172); `credited` says whether they hold credits of a sender. A core that
saves its state for core Sleep abandons the entry, and its idle time begins anew (R236). -/
def State.ringWrite (s : State) (c r : Nat) (es : List (List Byte)) (credited marked : Bool) : State :=
  let x := s.ring c r
  let t := (es.mapIdx fun i e => (s.ringAddr c r (x.wr + i), e)).foldl (fun (t : State) p => (t.loamWrite 6 p.1 p.2).1) s
  let t := t.modCore c fun y => { y with sleepSaving := false, idleTicks := 0 }
  t.setRing c r { x with wr := (x.wr + es.length) % s.ringSize c r, occ := x.occ + es.length
                         msgs := x.msgs ++ [⟨es.length, credited, marked⟩] }

/-- Sends a credit return to the cluster of a header's SRC (R170). -/
def State.returnCredits (s : State) (h : MHdr) (dest count : Nat) (gen : Option Byte) (st : RetStatus) (echo : Bool) : State :=
  s.send (.credit (h.src / 256) ⟨BitVec.ofNat 32 dest, BitVec.ofNat 16 count, gen, st, BitVec.ofNat 16 h.tag, BitVec.ofNat 16 h.job,
    BitVec.ofNat 3 (destCore h.src), echo⟩)

/-- The destination value that names a ring of this cluster. -/
def State.ringDest (s : State) (c r : Nat) : Nat := s.srcOf c + r

/-- Records a discard with its TAG and SRC (R171, R183), enters its fault in the log with a DETAIL (log 20), and counts it. -/
def State.noteDiscard (s : State) (code tag src core detail : Nat) : State :=
  let t := { s with msg := { s.msg with refFault := code, refTag := tag, refSrc := src }
                    ctr := { s.ctr with msgDiscard := stick48 s.ctr.msgDiscard 1 } }
  (t.logFault code core true false detail).emit 6 .drop (core + 8) 32 [src, tag, code]

/-- The same for a message whose header is known. -/
def State.noteRefused (s : State) (code : Nat) (h : MHdr) (core : Nat) : State := s.noteDiscard code h.tag h.src core h.tag

/-- The same for a message whose first sector cannot be read: TAG and SRC are free values (R172, log 29). -/
def State.noteUnread (s : State) (code core detail : Nat) : State :=
  let x := s.freeWord
  let y := x.1.freeWord
  y.1.noteDiscard code (x.2.toNat % 65536) y.2.toNat core detail

/-- Frees the entries at a ring's read pointer. -/
def State.freeEntries (s : State) (c r n : Nat) : State :=
  let x := s.ring c r
  s.setRing c r { x with rd := (x.rd + n) % max 1 (s.ringSize c r), occ := x.occ - n }

/-- The message of a ended handler is retired: the read pointer passes its entries and its credits return (R170, R172). -/
def State.retireMsg (s : State) (c : Nat) (m : MsgRef) : State :=
  let h := decodeMHdr m.header
  let t := s.freeEntries c m.ring m.entries
  if h.kind ≠ 0 then t
  else t.returnCredits h (s.ringDest c m.ring) m.entries (some (t.ring c m.ring).gen) .ok m.marked

/-- The entry offset of the running handler's message in a ring, 0 when none runs on it. -/
def State.runningEntries (s : State) (c r : Nat) : Nat :=
  match (s.core c).hdl.phase, (s.core c).hdl.item.msg with
  | .idle, _ => 0
  | _, some m => if m.ring = r then m.entries else 0
  | _, none => 0

/-- Returns the credits of one undispatched message discarded by an advance (R180); one with an unreadable header raises the fault of the
read, borne by no item (R61, R63), and loses them. -/
def State.resetMsg (s : State) (c r at_ : Nat) (m : RingMsg) : State :=
  let a := s.ringAddr c r at_
  let q := s.loamRead 6 a 64
  match q.2 with
  | .bad f =>
    let t := q.1.logFault f c true false a
    if m.credited then t.modCtr fun x => { x with creditLost := stick48 x.creditLost m.entries } else t
  | .ok b =>
    let h := decodeMHdr b
    if h.kind ≠ 0 then q.1
    else q.1.returnCredits h (s.ringDest c r) m.entries (some (s.ring c r).gen) .reset m.marked

/-- Advances the generation of a ring (R180). -/
def State.advanceRing (s : State) (c r : Nat) : State :=
  let x := s.ring c r
  let run := s.runningEntries c r
  let s1 := s.setRing c r { x with gen := x.gen + 1 }
  let t := (x.msgs.foldl (fun (a : State × Nat) m => (a.1.resetMsg c r a.2 m, a.2 + m.entries)) (s1, x.rd + run)).1
  let y := t.ring c r
  if run = 0 then t.setRing c r { y with rd := y.wr, occ := 0, msgs := [] }
  else t.setRing c r { y with wr := (y.rd + run) % max 1 (s.ringSize c r), occ := run, msgs := [] }

/-- A ring whose pointers or generation hold an uncorrectable error: its generation advances and its pointers are made equal (R265). -/
def State.mendRing (s : State) (c r : Nat) : State :=
  if s.damage.contains (.ring c r) then
    (({ s with damage := s.damage.filter (· != Damage.ring c r) }).logFault 0x0C0A c true false r).advanceRing c r
  else s

/-- Advances every ring of a core that the live image has (R180). -/
def State.advanceAll (s : State) (c : Nat) : State :=
  (List.range 32).foldl (fun t r => if (t.str.live.ring c r).isSome then t.advanceRing c r else t) s

/-! ### Reads of an item: Loam and the message view (R48, R173) -/

/-- A sector of the message view (R173). -/
def inView (sector : Nat) : Bool := decide (0x1C00000 / 64 ≤ sector ∧ sector < 0x1C00400 / 64)

/-- R48 for a command access of an item, the message view included: 0, or the fault. -/
def State.itemFault (s : State) (w : Who) (write : Bool) (a n : Nat) : Nat :=
  let c := w.core.val
  let view := isHdl w && c != 4
  let vs := (sectorsOf a n).map fun k =>
    if view && inView k then (if write then .perm else .ok)
    else verdict s.str.live (if write then .cmdWrite c else .cmdRead c) k
  if vs.contains .window then 0x0301 else if vs.contains .perm then 0x0302 else 0

/-- Byte `x` of the message view lies at this Loam address; none beyond LEN (R173). -/
def State.viewAddr (s : State) (c : Nat) (m : MsgRef) (x : Nat) : Option Nat :=
  if x < (decodeMHdr m.header).len then some (s.ringAddr c m.ring (m.first + x / 48) + 16 + x % 48) else none

/-- Bytes of the message view of a handler, from offset `x` (R173). -/
def State.viewRead (s : State) (c x n : Nat) (m : MsgRef) : State × Rd (List Byte) :=
  let addrs := (List.range n).map fun i => s.viewAddr c m (x + i)
  let secs := addrs.foldl (fun l a => match a with
    | some a => setInsert l (a / 64)
    | none => l) []
  let r := secs.foldl (fun (acc : State × Nat) k =>
    let q := acc.1.loamSector (corePort c) k
    (q.1, worstFault acc.2 (loamTouchFault q.2))) (s, 0)
  (r.1, if r.2 = 0 then .ok (addrs.map fun a => match a with
    | some a => r.1.loam.cells.get a
    | none => 0) else .bad r.2)

/-- Reads `n` bytes for an item from Loam address `a`, already permitted under R48: plain Loam, or the message view (R173). -/
def State.itemRead (s : State) (w : Who) (a n : Nat) : State × Rd (List Byte) :=
  if n ≠ 0 ∧ isHdl w ∧ w.core.val ≠ 4 ∧ inView (a / 64) then
    match (s.item w).msg with
    | some m => s.viewRead w.core.val (a - 0x1C00000) n m
    | none => (s, .ok (List.replicate n 0))
  else s.loamRead (corePort w.core.val) a n

/-! ### Credits (R169, R170, R33) -/

/-- A credit entry's state. -/
def State.credit (s : State) (dest : Nat) : Credit := tabGet {} s.msg.credits dest
/-- Replaces a credit entry's state. -/
def State.setCredit (s : State) (dest : Nat) (c : Credit) : State :=
  { s with msg := { s.msg with credits := tabSet s.msg.credits dest c } }
/-- Credits a send finds available; none where the entry is damaged (R265). -/
def State.creditAvail (s : State) (dest : Nat) : Nat :=
  if s.damage.contains (.credit dest) then 0 else (s.credit dest).avail

/-- Free entries of the ring that a core's status entries go to (R181). -/
def State.statusRoom (s : State) (c : Nat) : Nat :=
  match s.str.live.handler (tabGet 0 s.msg.statusTag c) with
  | some h => s.ringFree h.core h.ring
  | none => 0

/-- Queued status entries of a core. -/
def State.statusOf (s : State) (c : Nat) : Nat := (s.msg.status.filter fun e => e.core == c).length

/-- Status entries that wait for room (R181): of each core, those beyond the free entries of its ring. -/
def State.statusWaiting (s : State) : Nat := ((List.range 5).map fun c => s.statusOf c - s.statusRoom c).sum

/-- A status entry is queued, or dropped and counted (R181). -/
def State.queueStatus (s : State) (r : CreditRet) (fault kind : Nat) : State :=
  let c := r.core.toNat
  let im := s.str.live
  let tag := tabGet 0 s.msg.statusTag c
  let ok := coreOn im.coreEn c && tabGet false s.msg.statusEn c && decide (s.statusOf c < s.statusRoom c ∨ s.statusWaiting < 64) &&
    (match im.handler tag with
     | some h => h.core == c && !h.combine
     | none => false)
  if ok then
    { s with msg := { s.msg with status := s.msg.status ++
        [⟨c, r.dest.toNat, fault, r.tag.toNat, r.count.toNat, (r.gen.map (·.toNat)).getD 0, kind, r.job.toNat⟩] } }
  else s.modCtr fun x => { x with msgDrop := stick48 x.msgDrop 1 }

/-- A pacing entry. -/
def State.pace (s : State) (node : Nat) : Pace := tabGet {} s.msg.pace node
/-- Replaces a pacing entry. -/
def State.setPace (s : State) (node : Nat) (p : Pace) : State := { s with msg := { s.msg with pace := tabSet s.msg.pace node p } }

/-- An ECHO counts, and halves the rate toward the node while pacing is on (R230). -/
def State.echo (s : State) (node : Nat) : State :=
  let t := s.modCtr fun x => { x with echo := stick48 x.echo 1 }
  if t.msg.paceEn then t.setPace node { t.pace node with rate := max 1 ((t.pace node).rate / 2) } else t

/-- CREDIT_RETURN (R33, R170, R180, R181, R230). NET_UNREACH, which no other cluster has logged, enters the log here (R229, R266). -/
def acceptCredit (r : CreditRet) (s : State) : State :=
  let d := r.dest.toNat
  let t := match s.str.live.credit d with
    | none => s.setCredit d { s.credit d with out := (s.credit d).out - r.count.toNat }
    | some e =>
      let c := s.credit d
      s.setCredit d { avail := min e.allot (c.avail + r.count.toNat), out := c.out - r.count.toNat, gen := match r.gen with
        | some g => some g
        | none => c.gen }
  let t := if r.echo then t.echo (destNode d) else t
  match r.status with
  | .ok => t
  | .reset => t.queueStatus r 0 1
  | .refused f =>
    let t := if f.toNat = 0x0A04 then t.logFault 0x0A04 r.core.toNat false false r.tag.toNat else t
    t.queueStatus r f.toNat 2

/-- STATUS_ENTRY (R181): the waiting entry `i` is written where its ring has room, or dropped where the tag no longer suits. -/
def statusWrite (i : Nat) (s : State) : Option State :=
  match s.msg.status[i]? with
  | none => none
  | some e =>
    let rest := { s with msg := { s.msg with status := s.msg.status.eraseIdx i } }
    let tag := tabGet 0 s.msg.statusTag e.core
    match s.str.live.handler tag with
    | some h =>
      if h.core ≠ e.core ∨ h.combine then some (rest.modCtr fun x => { x with msgDrop := stick48 x.msgDrop 1 })
      else
      let rest := rest.mendRing h.core h.ring
      if rest.ringFree h.core h.ring = 0 then none
      else
        let hd : MHdr := { src := s.srcOf e.core, tag := tag, len := 16, anygen := true, priv := true, kind := 2, job := e.job }
        let pay := leBytes 4 e.dest ++ leBytes 2 e.fault ++ leBytes 2 e.tag ++ leBytes 2 e.credits ++ leBytes 1 e.gen ++
          leBytes 1 e.kind ++ leBytes 4 0
        let q := rest.mkEntries hd pay
        some (q.1.ringWrite h.core h.ring q.2 false false)
    | none => some (rest.modCtr fun x => { x with msgDrop := stick48 x.msgDrop 1 })

/-! ### The combining queue (R175 to R178) -/

/-- A slot's state. -/
def State.slot (s : State) (n : Nat) : Slot := tabGet {} s.msg.slots n
/-- Replaces a slot's state. -/
def State.setSlot (s : State) (n : Nat) (x : Slot) : State := { s with msg := { s.msg with slots := tabSet s.msg.slots n x } }

/-- Cells of the combine-overflow region (R176). -/
def State.cells (s : State) : Nat := ((s.str.live.regionOf .overflow).map (·.size / 8)).getD 0
/-- Loam address of a cell. -/
def State.cellAddr (s : State) (n : Nat) : Nat := ((s.str.live.regionOf .overflow).map (·.base * 64)).getD 0 + 512 * n
/-- The first free cell. -/
def State.freeCell (s : State) : Option Nat := (List.range s.cells).find? fun k => s.msg.parked.all fun p => p.cell != k

/-- Adds a contribution's values to a slot, position by position (R175). -/
def addValues (vals : Tab Fp32) (off : Nat) (cs : List Fp32) : Tab Fp32 :=
  (cs.mapIdx fun i c => (off + i, c)).foldl (fun t p => tabSet t p.1 (fAdd (tabGet 0 t p.1) p.2)) vals

/-- The FP32 words of a payload. -/
def fpWords (p : List Byte) : List Fp32 := (List.range (p.length / 4)).map fun i => BitVec.ofNat 32 (fieldB p (4 * i) 4)

/-- An in-turn contribution is added (R175). -/
def Slot.add (x : Slot) (h : MHdr) (p : List Byte) : Slot :=
  { x with vals := addValues x.vals h.offset (fpWords p), next := x.next + 1, count := x.count + 1, tag := h.tag
           len := max x.len (h.offset + p.length / 4), seen := setInsert x.seen h.cidx }

/-- A round is complete: its delivery waits (R178). -/
def Slot.close (x : Slot) (expect : Nat) : Slot := if expect ≤ x.count then { x with delivering := true } else x

/-- Marks a round failed with its first fault, and counts the discarded contribution for it (R177); `tag` is that of the slot's entry,
which the delivery will carry (R178). -/
def Slot.fail (x : Slot) (round code tag : Nat) : Slot :=
  if round = x.round ∧ !x.delivering then
    { x with failCur := true, failCode := if x.failCur then x.failCode else code, failNum := x.failNum + 1, count := x.count + 1, tag := tag }
  else if round = (x.round + 1) % 256 then
    { x with failNext := true, nextCode := if x.failNext then x.nextCode else code, nextNum := x.nextNum + 1 }
  else x

/-- Returns the credits of a contribution for its ring (R170). -/
def State.returnContribution (s : State) (h : MHdr) (e : HEntry) (n : Nat) (marked : Bool) (st : RetStatus) : State :=
  s.returnCredits h (s.ringDest e.core e.ring) n (some (s.ring e.core e.ring).gen) st marked

/-- Discards a contribution (R176, R177): its round fails, its credits return with the fault. -/
def State.discardContribution (s : State) (code : Nat) (h : MHdr) (e : HEntry) (n : Nat) (marked : Bool) : State :=
  let t := (s.noteRefused code h e.core).returnContribution h e n marked (.refused (BitVec.ofNat 16 code))
  t.setSlot e.slot (((t.slot e.slot).fail h.round code h.tag).close e.expect)

/-- Reads positions `lo` to `lo + k - 1` of a slot in the combine store: single errors are corrected, and count in no counter that the
spec names; answers whether a word is uncorrectable, which is recorded (R61, R263, log 13). -/
def State.slotRead (s : State) (n lo k : Nat) : State × Bool :=
  let x := s.slot n
  let here := x.flips.filter fun f => decide (f.1 * 2 < lo + k ∧ lo < f.1 * 2 + 2)
  if here.isEmpty then (s, false)
  else
    let t := s.setSlot n { x with flips := x.flips.filter fun f => !here.contains f }
    match here.find? (·.2) with
    | none => (t, false)
    | some f =>
      let a := 1024 * n + 8 * f.1
      (t.recordUe 3 0 0 a 6, true)

/-- A contribution of a slot's current round is taken: in a failed round it is only counted (R177); in turn it is added (R175), unless
the slot's values cannot be read: then it is discarded and its round fails (R63, log 13). -/
def State.addContribution (s : State) (h : MHdr) (p : List Byte) (e : HEntry) (n : Nat) (marked : Bool) : State :=
  let x := s.slot e.slot
  if x.failCur then
    (s.setSlot e.slot ({ x with count := x.count + 1, seen := setInsert x.seen h.cidx, tag := h.tag }.close e.expect)).returnContribution
      h e n marked .ok
  else
    let q := s.slotRead e.slot h.offset (p.length / 4)
    if q.2 then q.1.discardContribution 0x0308 h e n marked
    else (q.1.setSlot e.slot (((q.1.slot e.slot).add h p).close e.expect)).returnContribution h e n marked .ok

/-- Takes one parked contribution of a slot's current round: in turn it is added; in a failed round it is counted; a poisoned cell is
discarded (R63, R175 to R177). -/
def State.takeParked (s : State) (e : HEntry) (p : Parked) : State :=
  let s := { s with msg := { s.msg with parked := s.msg.parked.filter (· != p) } }
  let q := s.loamRead 6 (s.cellAddr p.cell) 320
  let x := q.1.slot e.slot
  match q.2 with
  | .bad f =>
    let t := (q.1.logFault f 7 false false (s.cellAddr p.cell)).modCtr fun c =>
      { c with creditLost := stick48 c.creditLost p.entries, msgDiscard := stick48 c.msgDiscard 1 }
    t.setSlot e.slot ((x.fail p.round f x.tag).close e.expect)
  | .ok b =>
    let h := decodeMHdr b
    q.1.addContribution h (sliceB b 64 h.len) e p.entries p.marked

/-- Takes parked contributions of a slot while one is in turn, or while the round has failed (R175). -/
def State.drainParked (e : HEntry) : Nat → State → State
  | 0, s => s
  | n + 1, s =>
    let x := s.slot e.slot
    if x.delivering then s
    else match s.msg.parked.find? fun p => p.slot == e.slot && p.round == x.round && (x.failCur || p.cidx == x.next) with
      | none => s
      | some p => State.drainParked e n (s.takeParked e p)

/-- Parks a contribution in a cell (R176). -/
def State.parkContribution (s : State) (cell : Nat) (h : MHdr) (p : List Byte) (e : HEntry) (n : Nat) (marked : Bool) : State :=
  let t := (s.loamWrite 6 (s.cellAddr cell) (padTo 64 h.bytes ++ padTo 256 p)).1
  let x := t.slot e.slot
  let t := if h.round = x.round then t.setSlot e.slot { x with seen := setInsert x.seen h.cidx, tag := h.tag }
    else t.setSlot e.slot { x with nextSeen := setInsert x.nextSeen h.cidx }
  { t with msg := { t.msg with parked := t.msg.parked ++ [⟨cell, e.slot, h.round, h.cidx, n, marked⟩] } }

/-- An accepted contribution of `n` entries: added, parked, counted or discarded (R175 to R177). -/
def State.contribute (s : State) (h : MHdr) (p : List Byte) (e : HEntry) (n : Nat) (marked : Bool) : State :=
  let x := s.slot e.slot
  let cur := h.round == x.round
  let nxt := h.round == (x.round + 1) % 256
  let dup := (cur && (x.seen.contains h.cidx || x.delivering)) || (nxt && x.nextSeen.contains h.cidx)
  if !(cur || nxt) || decide (e.expect ≤ h.cidx) || dup then
    State.drainParked e e.expect (s.discardContribution 0x0807 h e n marked)
  else if cur && x.failCur then s.addContribution h p e n marked
  else if cur && h.cidx == x.next then State.drainParked e e.expect (s.addContribution h p e n marked)
  else match s.freeCell with
    | some k => s.parkContribution k h p e n marked
    | none => State.drainParked e e.expect (s.discardContribution 0x0808 h e n marked)

/-- The delivery reads the slot's values: a round whose values cannot be read has failed (log 13). -/
def State.slotTaken (s : State) (n : Nat) : State :=
  let x := s.slot n
  if x.failCur || x.flips.isEmpty then s
  else
    let q := s.slotRead n 0 x.len
    if q.2 then (q.1.logOnly 0x0308 (1024 * n)).setSlot n { q.1.slot n with failCur := true, failCode := 0x0308 } else q.1

/-- COMBINE_DELIVERY (R178): the finished round is written into its ring; the slot starts the next round. -/
def combineDeliver (n : Nat) (s : State) : Option State :=
  let s := s.slotTaken n
  let x := s.slot n
  match s.str.live.handler x.tag with
  | none => none
  | some e =>
    if !x.delivering ∨ !e.combine ∨ e.slot ≠ n then none
    else
      let pay : List Byte := if x.failCur then leBytes 2 x.failCode ++ leBytes 2 0 ++ leBytes 4 x.failNum
        else (List.range x.len).flatMap fun i => leBytes 4 (tabGet 0 x.vals i).toNat
      let s := s.mendRing e.core e.ring
      if s.ringFree e.core e.ring < entriesOf pay.length then none
      else
        let h : MHdr := { src := s.srcOf e.core, tag := x.tag, len := pay.length, anygen := true, priv := true, failed := x.failCur
                          kind := 1, round := x.round }
        let q := s.mkEntries h pay
        let t := (q.1.ringWrite e.core e.ring q.2 false false).emit 7 .single 0xFF 16 [n, x.round, x.count, b2n x.failCur]
        let y : Slot := { round := (x.round + 1) % 256, failCur := x.failNext, failCode := x.nextCode, failNum := x.nextNum
                          count := x.nextNum, seen := x.nextSeen, tag := x.tag }
        some (State.drainParked e e.expect (t.setSlot n (y.close e.expect)))

/-! ### Arrival (R171) -/

/-- Step 3 of R171: LEN and PART under R166 and the rules of R168; every header equals the first but for PART (log 29). -/
def frameOk (m : Frame) (h : MHdr) : Bool :=
  decide (8 ≤ h.len ∧ h.len ≤ (if h.masked then 48 else 256)) && m.entries.length == entriesOf h.len &&
  (m.entries.mapIdx fun i e => decodeMHdr e == { h with part := i }).all id &&
  (!h.combine || (h.len % 4 == 0 && decide (h.offset + h.len / 4 ≤ 256 ∧ h.cidx ≤ 1022)))

/-- A message that fails a check: recorded, counted, its credits returned with the fault (R170, R171). -/
def State.refuseMsg (s : State) (code : Nat) (h : MHdr) (dest n : Nat) (gen : Option Byte) (marked : Bool) : State :=
  (s.noteRefused code h (destCore dest)).returnCredits h dest n gen (.refused (BitVec.ofNat 16 code)) marked

/-- MESSAGE_ARRIVAL at an open port: the checks of R171 in order, then the ring or the combining queue. -/
def acceptMessage (m : Frame) (s : State) : State :=
  let s := s.countMsg (64 * m.entries.length)
  let d := m.dest.toNat
  let c := destCore d
  let r := destRing d
  let h := decodeMHdr (m.entries.headD [])
  let n := m.entries.length
  if !s.destHere d ∨ !coreOn s.str.live.coreEn c ∨ (s.str.live.ring c r).isNone then s.refuseMsg 0x0802 h d n none m.marked
  else
    let s := s.mendRing c r
    let g := (s.ring c r).gen
    if !h.anygen ∧ h.gen ≠ g.toNat then
      ((s.modCtr fun x => { x with msgStale := stick48 x.msgStale 1 }).emit 6 .drop (c + 8) 32 [h.src, h.tag, 0]).returnCredits h d n
        (some g) .reset m.marked
    else if !frameOk m h then s.refuseMsg 0x0805 h d n (some g) m.marked
    else if !h.combine then
      if s.ringFree c r < n then s.refuseMsg 0x0804 h d n (some g) m.marked else s.ringWrite c r m.entries (h.kind == 0) m.marked
    else if s.damage.contains (.handler h.tag) then s.refuseMsg 0x0C0A h d n (some g) m.marked
    else match s.str.live.handler h.tag with
      | none => s.refuseMsg 0x0803 h d n (some g) m.marked
      | some e =>
        if !e.combine then s.refuseMsg 0x0803 h d n (some g) m.marked
        else if e.core ≠ c ∨ e.ring ≠ r then s.refuseMsg 0x0802 h d n (some g) m.marked
        else if e.sup ∧ !h.priv then s.refuseMsg 0x0806 h d n (some g) m.marked
        else s.contribute h (payloadOf m.entries h.len) e n m.marked

/-! ### Dispatch (R172, R173) -/

/-- The next ring of a core with an undispatched message, in rotating order after the ring served last. -/
def State.nextRing (s : State) (c : Nat) : Option Nat :=
  ((List.range 32).map fun i => ((s.core c).lastRing + 1 + i) % 32).find? fun r =>
    (s.str.live.ring c r).isSome && !(s.ring c r).msgs.isEmpty

/-- The checks of R172 on a message of a ring: 0, or the fault that discards it. A delivery and a status entry carry PRIV. -/
def State.dispatchFault (s : State) (c r : Nat) (h : MHdr) : Nat :=
  if s.damage.contains (.handler h.tag) then 0x0C0A
  else match s.str.live.handler h.tag with
    | none => 0x0803
    | some e =>
      if e.combine && h.kind != 1 then 0x0803
      else if e.core ≠ c ∨ e.ring ≠ r then 0x0802
      else if e.sup ∧ !h.priv then 0x0806
      else 0

/-- HANDLER_DISPATCH (R172): the handler context takes the next message; a discard frees its entries; else the handler item is in the
context, to be issued under R145. An address below 0 wraps to the top of the 25 bits of a Loam address, outside every region. -/
def dispatch (c : Nat) (s : State) : Option State :=
  let x := s.core c
  if x.hdl.phase ≠ .idle ∨ x.asleep ∨ !coreOn s.str.live.coreEn c then none
  else
  let s := (List.range 32).foldl (fun t r => t.mendRing c r) s
  match s.nextRing c with
    | none => none
    | some r =>
      let g := s.ring c r
      match g.msgs with
      | [] => none
      | m :: ms =>
        let s1 := (s.setRing c r { g with msgs := ms }).modCore c fun y => { y with lastRing := r }
        let q := s1.loamRead 6 (s.ringAddr c r g.rd) 64
        match q.2 with
        | .bad f =>
          let t := (q.1.noteUnread f c (s.ringAddr c r g.rd)).freeEntries c r m.entries
          some (if m.credited then t.modCtr fun k => { k with creditLost := stick48 k.creditLost m.entries } else t)
        | .ok b =>
          let h := decodeMHdr b
          let f := q.1.dispatchFault c r h
          if f ≠ 0 then
            let t := (q.1.noteRefused f h c).freeEntries c r m.entries
            some (if h.kind ≠ 0 then t
              else t.returnCredits h (s.ringDest c r) m.entries (some g.gen) (.refused (BitVec.ofNat 16 f)) m.marked)
          else
            let e := s.str.live.handler h.tag
            let it : Item :=
              { no := q.1.itemNo, addr := (64 * (e.map (·.sector)).getD 0 + 2 ^ 25 - 192) % 2 ^ 25, sup := (e.map (·.sup)).getD false
                msg := some ⟨r, m.entries, g.rd, b.take 16, m.marked⟩
                sregs := if c = 4 then [(1, BitVec.ofNat 64 (fieldB b 0 8)), (2, BitVec.ofNat 64 (fieldB b 8 8)),
                  (3, BitVec.ofNat 64 (ownAddr s.id (s.ringAddr c r g.rd)))] else [] }
            let t := { q.1 with itemNo := q.1.itemNo + 1 }.modCore c fun y => { y with hdl := { phase := .issuing, item := it } }
            some (t.emit 6 .start (c + 8) 32 [h.src, h.tag, r])

/-! ### Sending (R168, R169) -/

/-- The destinations of a send: one, or the clusters of CMASK (R179). -/
def maskDests (dest cmask : Nat) : List Nat :=
  ((List.range 32).filter cmask.testBit).map fun k => dest + 256 * k

/-- The send paces: it goes to another node while pacing is on (R230). -/
def State.paced (s : State) (dest : Nat) : Bool := s.msg.paceEn && destNode dest != s.ownNode

/-- Takes credits and allowance for a send at acceptance. -/
def State.takeCredits (s : State) (x : Send) (e : Nat) : State :=
  let t := x.dests.foldl (fun (t : State) d => t.setCredit d { t.credit d with avail := (t.credit d).avail - e, out := (t.credit d).out + e }) s
  let d := x.dests.headD 0
  if t.paced d then t.setPace (destNode d) { t.pace (destNode d) with allow := (t.pace (destNode d)).allow - 64 * e } else t

/-- The generation a send carries: that of the entry's last return, or ANYGEN (R180). For a mask-mode send it is that of the first
target, and ANYGEN unless every target's is known and equal (log 30). -/
def State.sendGen (s : State) (ds : List Nat) : Option Byte :=
  match ds.map fun d => (s.credit d).gen with
  | some g :: rest => if rest.all (· == some g) then some g else none
  | _ => none

/-- The first lookup of a damaged credit entry raises its error (R265). -/
def State.noteCredits (s : State) (x : Send) : Option State :=
  match x.dests.find? fun d => s.damage.contains (.credit d) && !s.damage.contains (Damage.noted d) with
  | none => none
  | some d => some ({ s with damage := s.damage ++ [Damage.noted d] }.logFault 0x0C0A x.who.core.val (isHdl x.who) false d)

/-- SEND_ACCEPT (R169): the send that began to wait first is accepted once one of the 64 send buffers is free, every named credit entry
has its credits and its allowance holds; the payload is copied and the message leaves. Its buffer is free again after the drone tick
(log 78). -/
def sendAccept (s : State) : Option State :=
  match s.msg.sends with
  | [] => none
  | x :: rest =>
    let e := entriesOf x.len
    let d0 := x.dests.headD 0
    if (s.item x.who).abort.isSome then none
    else if (s.noteCredits x).isSome then s.noteCredits x
    else if 64 ≤ s.msg.bufs then none
    else if x.dests.any (fun d => s.creditAvail d < e) then none
    else if s.paced d0 ∧ (s.pace (destNode d0)).allow < 64 * e then none
    else
      let q := { s with msg := { s.msg with sends := rest } }.itemRead x.who x.addr x.len
      match q.2 with
      | .bad f => some (q.1.raise x.who f x.addr)
      | .ok pay =>
        let it := s.item x.who
        let g := s.sendGen x.dests
        let h : MHdr := { src := s.srcOf x.who.core.val, tag := x.tag, len := x.len, gen := (g.map (·.toNat)).getD 0, priv := it.sup
                          anygen := g.isNone, combine := x.combine, masked := x.masked, round := x.round, offset := x.offset
                          cidx := x.cidx, job := it.hdr.job }
        let m := (q.1.takeCredits x e).mkEntries h pay
        let t := m.1.send (.message ⟨BitVec.ofNat 32 (if x.masked then d0 - 256 * destClu d0 else d0), m.2, false⟩ x.cmask)
        let t := ({ t with msg := { t.msg with bufs := t.msg.bufs + 1 } }.countMsg (64 * e)).work 4 it.no
        let t := t.modItem x.who fun i => { i with pend := .none, blocked := none, waitTicks := 0, off := i.off + 32 }
        some (t.emit 5 .accept (whoByte x.who) 32 [d0, x.tag, x.len])

/-! ### Pacing (R230) -/

/-- Changes every pacing entry; entries not listed are materialised only where the change moves them. -/
def State.paceAll (s : State) (f : Pace → Pace) : State :=
  let p := if f {} = {} then s.msg.pace.map fun e => (e.1, f e.2) else (List.range 4096).map fun n => (n, f (s.pace n))
  { s with msg := { s.msg with pace := p } }

/-- Every 50 µs every entry below MAX_RATE gains STEP, up to MAX_RATE; with EN 0 no rate changes. -/
def State.paceIncrease (s : State) : State :=
  let t := if s.msg.paceEn then s.paceAll fun p =>
    if p.rate < s.msg.maxRate then { p with rate := min s.msg.maxRate (p.rate + s.msg.paceStep) } else p else s
  { t with msg := { t.msg with rateTicks := 0 } }

/-- Every 100 drone ticks every allowance grows by RATE * 64 bytes, up to max(4,096, RATE * 64). -/
def State.paceAllow (s : State) : State :=
  let t := s.paceAll fun p => { p with allow := max p.allow (min (max 4096 (p.rate * 64)) (p.allow + p.rate * 64)) }
  { t with msg := { t.msg with allowTicks := 0 } }

end Sys2Proof.Machine
end

