-- ==== Sys2Proof/Machine/Chain.lean ====
section
/-! DEFINITION. Machine/Chain.lean: what a chain does to one segment (06, R110 to R124, R129): second operands, stage operations,
round formats, masks, statistics, and the conversion of the result to storage format. -/

namespace Sys2Proof.Machine

/-- An element of a chain, in its domain (R111). -/
inductive Val where
  | fp (x : Fp32)
  | int (v : Int)
  deriving DecidableEq, Repr

/-- Where a segment lies: the item's context, row and first column in the source, segment number in its unit (R120), whether it is
the first of its row in its unit (R124), reduction chunk (R122), row length of the source, Kaolin address of its first element
(R123), and the chain's storage format. -/
structure Seg where
  w : Who
  i : Nat
  j : Nat
  n : Nat
  first : Bool
  k : Nat
  cols : Nat
  kao : Nat
  sf : SFmt
  deriving DecidableEq, Repr

/-- INT32 range. -/
def i32lo : Int := -(2 ^ 31)
def i32hi : Int := 2 ^ 31 - 1

/-- Range of an INT storage format (R113, R116). -/
def SFmt.range : SFmt → Int × Int
  | .blk ⟨.int k, _, _⟩ => (-(2 ^ (k - 1)), 2 ^ (k - 1) - 1)
  | _ => (i32lo, i32hi)

/-- An integer clamped to a range, and whether the clamp changed it. -/
def clampC (r : Int × Int) (v : Int) : Int × Bool := (clampI v r.1 r.2, decide (clampI v r.1 r.2 ≠ v))

/-- The integer of a value within a range, and whether it counts (R113). -/
def Val.toInt (r : Int × Int) : Val → Int × Bool
  | .fp x => fpToInt r.1 r.2 x
  | .int v => clampC r v

/-- FP32 of a value (R116). -/
def Val.toFp : Val → Fp32
  | .fp x => x
  | .int v => intToFp v

/-- The 32 bits of a value. -/
def Val.bits32 : Val → Nat
  | .fp x => x.toNat
  | .int v => (v % 2 ^ 32).toNat

/-- A value that is NaN. -/
def Val.nan : Val → Bool
  | .fp x => isNaN x
  | .int _ => false

/-- 32 bits read in a domain (R111). -/
def valOf (int : Bool) (x : Word32) : Val := if int then .int x.toInt else .fp x

/-- A segment written in a format and read back (R80, R129); FP32 keeps every bit. -/
def roundSeg (d : FmtD) (xs : List Fp32) : List Fp32 := d.readFp (d.encRow xs) xs.length

/-- Number of true entries. -/
def countTrue (l : List Bool) : Nat := (l.filter id).length

/-- A CVT of a segment (R116): values in the target's domain, and the conversions that count. -/
def cvtSeg (f : SFmt) (vs : List Val) : List Val × Nat :=
  match f with
  | .blk d =>
    if d.fmt.isInt then
      let r := vs.map (Val.toInt f.range)
      (r.map fun p => .int p.1, countTrue (r.map (·.2)))
    else ((roundSeg d (vs.map Val.toFp)).map .fp, 0)
  | .int32 =>
    let r := vs.map (Val.toInt f.range)
    (r.map fun p => .int p.1, countTrue (r.map (·.2)))

/-- The default round format (R129). -/
def dfltSeg (f : SFmt) (int : Bool) (vs : List Val) : List Val × Nat :=
  if int then (if f.isInt then cvtSeg f vs else (vs, 0))
  else if f.isInt then
    let r := cvtSeg f vs
    (r.1.map fun v => .fp v.toFp, r.2)
  else cvtSeg f vs

/-- The round format of a stage (R129). -/
def roundStage (f : SFmt) (int : Bool) (t : Stage) (vs : List Val) : List Val × Nat :=
  if t.ifmt = 1 then (vs, 0)
  else if t.ifmt = 2 then (vs.map fun v => .fp (ofBf16 (toBf16 v.toFp)), 0)
  else dfltSeg f int vs

/-- The value of an operation that works element by element, before its round format; the flag is a clamp that counts (R112, R113,
R116 to R118). `y` is the second operand, `bit` the mask bit of a SEL. -/
def stageVal (t : Stage) (x y : Val) (bit : Bool) : Val × Bool :=
  match x with
  | .fp a =>
    let b := y.toFp
    (.fp (match t.op with
      | 0x01 => if t.sub % 2 = 1 then fSub a b else fAdd a b
      | 0x02 => fMul a b
      | 0x03 => fFma a b t.immB
      | 0x04 => fMax a b
      | 0x05 => fMin a b
      | 0x07 => if bit then b else a
      | 0x08 => fExp2 a
      | 0x09 => fLog2 a
      | 0x0A => fRcp a
      | 0x0B => fRsqrt a
      | 0x0C => fMin (fMax a t.immA) t.immB
      | 0x0E => fMul a b
      | _ => a), false)
  | .int a =>
    let b : Int := match y with
      | .int v => v
      | .fp _ => 0
    let v : Int := match t.op with
      | 0x01 => if t.sub % 2 = 1 then a - b else a + b
      | 0x02 => a * b
      | 0x03 => a * b + t.immB.toInt
      | 0x04 => max a b
      | 0x05 => min a b
      | 0x07 => if bit then b else a
      | 0x0C => min (max a t.immA.toInt) t.immB.toInt
      | _ => a
    let r := clampC (i32lo, i32hi) v
    (.int r.1, r.2)

/-- A comparison of two integers by SUB (R116); UNORD is false. -/
def cmpInt (sub : Nat) (a b : Int) : Bool :=
  match sub with
  | 0 => a == b
  | 1 => a != b
  | 2 => decide (a < b)
  | 3 => decide (a ≤ b)
  | 4 => decide (b < a)
  | 5 => decide (b ≤ a)
  | _ => false

/-- A comparison of two values of one domain (R117). -/
def cmpVal (sub : Nat) (x y : Val) : Bool :=
  match x, y with
  | .fp a, .fp b =>
    if isNaN a || isNaN b then sub == 1 || sub == 6
    else cmpInt sub (cmpExt (ext32 a) (ext32 b)) 0
  | .int a, .int b => cmpInt sub a b
  | _, _ => false

/-- The position comparison of R121 for the element at row i and column j. -/
def cmpPos (t : Stage) (i j : Nat) : Bool :=
  cmpInt t.sub (BitVec.ofNat 32 j + t.immB - BitVec.ofNat 32 i).toInt t.immA.toInt

/-! ### Masks and statistics (R119, R120, R124) -/

/-- Entry and lane of the mask bit of element `l` of a segment. -/
def maskPos (g : Seg) (t : Stage) (l : Nat) : Nat × Nat :=
  if t.tile then (g.i % 64, (g.j + l) % 64) else (g.n % 64, l)

/-- A mask bit of a core. -/
def Core.maskBit (x : Core) (m : Nat) (p : Nat × Nat) : Bool := (tabGet 0 x.masks (64 * m + p.1)).getLsbD p.2

/-- Sets a mask bit of a core. -/
def Core.setMaskBit (x : Core) (m : Nat) (p : Nat × Nat) (b : Bool) : Core :=
  { x with masks := tabMod 0 x.masks (64 * m + p.1) fun w =>
      if b then w ||| (1#64 <<< p.2) else w &&& ~~~(1#64 <<< p.2) }

/-- One level of the reduction tree: adjacent results combined. -/
def treeLevel (f : Fp32 → Fp32 → Fp32) : List Fp32 → List Fp32
  | a :: b :: l => f a b :: treeLevel f l
  | l => l

/-- The segment partial of 64 lanes (R124). -/
def segPartial (sub : Nat) (xs : List Fp32) : Fp32 :=
  let ys := if sub % 4 = 2 then xs.map fun x => fMul x x else xs
  let pad : Fp32 := if sub % 4 = 1 then 0xFF800000#32 else 0#32
  let f := if sub % 4 = 1 then fMax else fAdd
  let l := ys ++ List.replicate (64 - ys.length) pad
  (treeLevel f (treeLevel f (treeLevel f (treeLevel f (treeLevel f (treeLevel f l)))))).headD pad

/-- An RRED stage on a segment (R124). -/
def Core.rred (x : Core) (g : Seg) (t : Stage) (xs : List Fp32) : Core :=
  let key := 256 * t.stat + g.i % 256
  let p := segPartial t.sub xs
  let v := if t.sub.testBit 2 && g.first then p
    else if t.sub % 4 = 1 then fMax (tabGet 0 x.stats key) p else fAdd (tabGet 0 x.stats key) p
  { x with stats := tabSet x.stats key v }

/-! ### Stored rows -/

/-- Bytes of a row of `n` elements that hold the codes of elements `lo` to `hi - 1`, and those of their exponents: offset and
length of each (R53, R71). Padding codes are not among them. -/
def FmtD.spans (d : FmtD) (n lo hi : Nat) : (Nat × Nat) × (Nat × Nat) :=
  let k := d.fmt.bits
  let a := lo * k / 8
  let x := d.codeBytes n + lo / d.blk
  ((a, cdiv (hi * k) 8 - a), if d.fmt.hasExp then (x, d.codeBytes n + cdiv hi d.blk - x) else (x, 0))

/-- A row in which only the given spans hold bytes that were read. -/
def spread (len : Nat) (s : (Nat × Nat) × (Nat × Nat)) (codes exps : List Byte) : List Byte :=
  (List.range len).map fun i =>
    if s.1.1 ≤ i ∧ i < s.1.1 + s.1.2 then codes.getD (i - s.1.1) 0
    else if s.2.1 ≤ i ∧ i < s.2.1 + s.2.2 then exps.getD (i - s.2.1) 0 else 0

/-- Reads `n` bytes for an item: Loam, the message view, or a VB address (R53, R114). -/
def State.opRead (s : State) (w : Who) (vb : Bool) (a n : Nat) : State × Rd (List Byte) :=
  if n = 0 then (s, .ok []) else if vb then s.vbRead w.core.val a n else s.itemRead w a n

/-- Reads elements `lo` to `hi - 1` of the stored row of `n` elements at `a`; answers the row with those bytes in place. -/
def State.rowRead (s : State) (w : Who) (vb : Bool) (d : FmtD) (a n lo hi : Nat) : State × Rd (List Byte) :=
  let d := if vb then d.inVb else d
  let p := d.spans n lo hi
  let q := s.opRead w vb (a + p.1.1) p.1.2
  match q.2 with
  | .bad f => (q.1, .bad f)
  | .ok cs =>
    let r := q.1.opRead w vb (a + p.2.1) p.2.2
    match r.2 with
    | .bad f => (r.1, .bad f)
    | .ok es => (r.1, .ok (spread (d.rowBytes n) p cs es))

/-! ### Second operands (R122, R123) -/

/-- Address of the Loam vector element of row i, column j and reduction chunk k. -/
def vecAddr (t : Stage) (i j k : Nat) : Nat := t.addr + 4 * (if t.vidx then j else i) + 64 * t.kstride * k

/-- FP32 or INT32 words of a byte string, in a domain. -/
def wordVals (int : Bool) (b : List Byte) (n : Nat) : List Val :=
  (List.range n).map fun l => valOf int (BitVec.ofNat 32 (fieldB b (4 * l) 4))

/-- The Kaolin mirror of an address (R123). -/
def mirrorOf (a : Nat) : Nat := if a < 196608 then a + 196608 else a - 196608

/-- The second operand of a stage for the `n` elements of a segment; the number counts conversions of a statistic entry: one for each
element that takes a converted entry (DESIGN CHOICE, log 81: R122 says "each such conversion"). -/
def State.second (s : State) (g : Seg) (t : Stage) (int : Bool) (n : Nat) : State × Rd (List Val × Nat) :=
  let c := g.w.core.val
  let lift (q : State × Rd (List Byte)) (f : List Byte → List Val) : State × Rd (List Val × Nat) :=
    (q.1, match q.2 with
      | .ok b => .ok (f b, 0)
      | .bad e => .bad e)
  match t.src2 with
  | 1 => (s, .ok (List.replicate n (valOf int t.immA), 0))
  | 2 =>
    if t.vidx then lift (s.itemRead g.w (vecAddr t g.i g.j g.k) (4 * n)) fun b => wordVals int b n
    else lift (s.itemRead g.w (vecAddr t g.i g.j g.k) 4) fun b => List.replicate n ((wordVals int b 1).headD (.int 0))
  | 3 =>
    (match fmtD (t.immA.toNat % 256) with
     | some d =>
       let e := d.inVb
       lift (s.rowRead g.w true d (t.addr + g.i * t.immB.toNat) g.cols g.j (g.j + n)) fun b =>
         (((e.readFp b g.cols).drop g.j).take n).map .fp
     | none => (s, .ok ([], 0)))
  | 4 => lift (s.kaoRead c (mirrorOf g.kao) (4 * n)) fun b => wordVals false b n
  | 5 =>
    let x := tabGet 0 (s.core c).stats (256 * t.stat + g.i % 256)
    if int then
      let r := fpToInt i32lo i32hi x
      (s, .ok (List.replicate n (.int r.1), if r.2 then n else 0))
    else (s, .ok (List.replicate n (.fp x), 0))
  | _ => (s, .ok (List.replicate n (if int then .int 0 else .fp 0#32), 0))

/-! ### Stages and chains -/

/-- Adds to VEC_SAT_COUNT, VEC_NAN_COUNT and the item's shares of them (R113, R117, R271). -/
def State.countVec (s : State) (w : Who) (sat nan : Nat) : State :=
  if sat = 0 ∧ nan = 0 then s
  else (s.modCtr fun c => { c with vecSat := stick48 c.vecSat sat, vecNan := stick48 c.vecNan nan }).modRec w fun r =>
    { r with vecSat := stick48 r.vecSat sat, vecNan := stick48 r.vecNan nan }

/-- Stage results made NaN from inputs none of which was NaN, before the round format (R117, R118). -/
def nanMade (t : Stage) (xs ys out : List Val) : Nat :=
  countTrue ((List.range out.length).map fun l =>
    (out.getD l (.int 0)).nan && !(xs.getD l (.int 0)).nan && !(ys.getD l (.int 0)).nan &&
      !(t.op == 0x03 && isNaN t.immB) && !(t.op == 0x0C && (isNaN t.immA || isNaN t.immB)))

/-- Elements that a CVT makes NaN: those whose own conversion gives NaN, not those that a block's shared exponent makes NaN with them
(R117, log 81). -/
def cvtNan (f : SFmt) (vs : List Val) : Nat :=
  countTrue (vs.map fun v => !v.nan && (((cvtSeg f [v]).1).headD (.int 0)).nan)

/-- True for a segment in the INT domain (R111). -/
def isIntSeg : List Val → Bool
  | .int _ :: _ => true
  | _ => false

/-- One stage on one segment (R112, R113, R116). -/
def State.runStage (s : State) (g : Seg) (t : Stage) (vs : List Val) : State × Rd (List Val) :=
  let c := g.w.core.val
  let n := vs.length
  let int := isIntSeg vs
  let q := s.second g t int n
  match q.2 with
  | .bad f => (q.1, .bad f)
  | .ok (ys, k) =>
    let s := q.1
    match t.op with
    | 0x06 =>
      let bits := (List.range n).map fun l =>
        if t.src2 = 6 then cmpPos t g.i (g.j + l) else cmpVal t.sub (vs.getD l (.int 0)) (ys.getD l (.int 0))
      let s := s.modCore c fun x => (bits.mapIdx fun l b => (l, b)).foldl (fun x p => x.setMaskBit t.mask (maskPos g t p.1) p.2) x
      (s.countVec g.w k 0, .ok vs)
    | 0x0F => (s.modCore c fun x => x.rred g t (vs.map Val.toFp), .ok vs)
    | 0x0D =>
      (match sfmtOf (t.immA.toNat % 256) with
       | some f =>
         let a := cvtSeg f vs
         let b := roundStage g.sf f.isInt t a.1
         (s.countVec g.w (a.2 + b.2) (cvtNan f vs), .ok b.1)
       | none => (s, .ok vs))
    | _ =>
      let x := s.core c
      let r := (List.range n).map fun l => stageVal t (vs.getD l (.int 0)) (ys.getD l (.int 0)) (x.maskBit t.mask (maskPos g t l))
      let b := roundStage g.sf int t (r.map (·.1))
      (s.countVec g.w (k + countTrue (r.map (·.2)) + b.2) (nanMade t vs ys (r.map (·.1))), .ok b.1)

/-- The stages of a chain on one segment. -/
def State.runStages (s : State) (g : Seg) : List Stage → List Val → State × Rd (List Val)
  | [], vs => (s, .ok vs)
  | t :: ts, vs =>
    let q := s.runStage g t vs
    match q.2 with
    | .bad f => (q.1, .bad f)
    | .ok vs' => State.runStages q.1 g ts vs'

/-- The final conversion to SFMT (R129): the row bytes of a segment, codes and exponents, and what counts. -/
def finalBytes (f : SFmt) (vb : Bool) (vs : List Val) : (List Byte × List Byte) × Nat :=
  let r := cvtSeg f vs
  match f with
  | .int32 => ((r.1.flatMap fun v => leBytes 4 v.bits32, []), r.2)
  | .blk d =>
    let d := if vb then d.inVb else d
    if d.fmt.isInt then
      ((encIntRow d.fmt.bits (r.1.map fun v => match v with
        | .int n => n
        | .fp _ => 0), []), r.2)
    else
      let row := d.encRow (vs.map Val.toFp)
      ((row.take (d.codeBytes vs.length), row.drop (d.codeBytes vs.length)), 0)

/-- Where the bytes of a segment go in a row of `cols` elements: code offset, exponent offset. -/
def segOffsets (f : SFmt) (vb : Bool) (cols j : Nat) : Nat × Nat :=
  match f with
  | .int32 => (4 * j, 4 * cols)
  | .blk d =>
    let d := if vb then d.inVb else d
    (j * d.fmt.bits / 8, d.codeBytes cols + j / d.blk)

/-- Gathered bytes as runs of consecutive addresses. -/
def byteRuns : Tab Byte → List (Nat × List Byte)
  | [] => []
  | (k, b) :: l => match byteRuns l with
    | (a, bs) :: r => if a = k + 1 then (k, b :: bs) :: r else (k, [b]) :: (a, bs) :: r
    | [] => [(k, [b])]

/-- Writes gathered bytes unit by unit: a unit whose bytes are all there is written whole, so that its tag clears (R64, log 32), and of
another the bytes that stand together are, so that a word they cover whole is not read (R61); answers the fault with its address. -/
def State.scatter (s : State) (w : Who) (vb : Bool) (t : Tab Byte) : State × Nat × Nat :=
  let units := t.foldl (fun l p => setInsert l (p.1 / 64)) []
  units.foldl (fun (acc : State × Nat × Nat) k =>
    let here := t.filter fun p => p.1 / 64 == k
    let put (s : State) (a : Nat) (bs : List Byte) : State × Nat :=
      if vb then s.vbWrite w.core.val a bs else s.loamWrite (corePort w.core.val) a bs
    let r := (byteRuns here).foldl (fun (q : State × Nat) p =>
      let r := put q.1 p.1 p.2
      (r.1, worstFault q.2 r.2)) (acc.1, 0)
    (r.1, if worstFault acc.2.1 r.2 = acc.2.1 then acc.2 else (r.2, 64 * k))) (s, 0, 0)

/-- Sectors of gathered bytes. -/
def gatheredSectors (t : Tab Byte) : List Nat := t.foldl (fun l p => setInsert l (p.1 / 64)) []

/-- R48 for a list of sectors of a command access of an item: 0, or the fault. -/
def State.sectorsFault (s : State) (w : Who) (write : Bool) (l : List Nat) : Nat :=
  let fs := l.map fun k => s.itemFault w write (64 * k) 64
  if fs.contains 0x0301 then 0x0301 else if fs.contains 0x0302 then 0x0302 else 0

end Sys2Proof.Machine
end

