-- ==== Sys2Proof/Machine/Issue.lean ====
section
/-! DEFINITION. Machine/Issue.lean: how a row of the table issues the next instruction of an item: fetch and decode (R148 to R150,
log 3), and the ranges by which instructions wait for earlier ones (R52, R128, R151). -/

namespace Sys2Proof.Machine

/-- What the next instruction of an item is. -/
inductive Fetched where
  | op (o : Op) (len : Nat)
  | illegal
  | fault (code addr : Nat)
  deriving DecidableEq, Repr

/-- An item that can issue: started, not at its end, not aborting, not waiting, and not being pre-empted, but for an instruction in
progress, which completes first (R147, R151, R158). -/
def Ctx.canIssue (x : Ctx) : Bool :=
  (x.phase == .running || (x.phase == .preempting && x.item.inProgress)) && !x.item.ending && x.item.abort.isNone && x.item.pend == .none

/-- Reads and decodes the instruction at the item's offset (R148, R150). -/
def State.fetch (s : State) (w : Who) : State × Fetched :=
  let i := s.item w
  let c := w.core.val
  let left := 192 + i.hdr.codeLen - i.off
  if left < 16 then (s, .illegal)
  else
    let q := s.loamRead (corePort c) (i.addr + i.off) 16
    match q.2 with
    | .bad f => (q.1, .fault f (i.addr + i.off))
    | .ok b =>
      let n := min left (16 * (bits (fieldB b 0 4) 11 10 + 1))
      let r := q.1.loamRead (corePort c) (i.addr + i.off) n
      match r.2 with
      | .bad f => (r.1, .fault f (i.addr + i.off))
      | .ok code =>
        match decodeOp c code with
        | some (o, len) => (r.1, .op o len)
        | none => (r.1, .illegal)

/-- The fields of the live image that an instruction looks up (R265, log 13). -/
def Op.lookups : Op → List ImgField
  | .enq .. => [.cores]
  | .scl o _ _ _ _ _ => if 0x18 ≤ o then [.regions] else []
  | .mma _ => [.regions, .cores]
  | .bqrelease _ | .arrive .. | .wait .. | .synSet .. => [.counters]
  | .chain _ | .maskld .. | .maskst .. | .side .. | .send .. | .msend .. | .rclose _ | .atm .. => [.regions]
  | .dma .. | .dmam .. | .synRead .. => [.regions, .counters]
  | .seqEnd | .seqNop | .fence .. | .bqpush .. | .statclr .. | .rowclose .. => []

/-- Runs the next instruction of a context: `f` gives what it does when the row is for it, and none when it is not or when nothing
happens yet. An illegal instruction aborts the item with CMD_OPCODE, an unreadable one with its read fault; damaged sequencer
state aborts the item with STATE_UE, and an instruction that looks up a damaged field of the live image waits (R265). -/
def State.issue (s : State) (w : Who) (f : Op → Nat → State → Option State) : State :=
  s.fast fun s =>
    if !(s.ctx w).canIssue then none
    else if s.damage.contains (.item w) then
      some ({ s with damage := s.damage.filter (· != Damage.item w) }.raise w 0x0C0A (s.item w).off)
    else
      let q := s.fetch w
      match q.2 with
      | .illegal => some (q.1.raise w 0x0702 (s.item w).off)
      | .fault e a => some (q.1.raise w e a)
      | .op o len => if s.waitsOn o.lookups then none else f o len q.1

/-- The instruction is done: the item goes on behind it. -/
def State.advance (s : State) (w : Who) (len : Nat) : State :=
  (s.modItem w fun i => { i with off := i.off + len, blocked := none, inProgress := false, sendWaits := false, chain := none, loadRun := 0 }).work 0 (s.item w).no

/-- The same for an instruction of the vector engine that runs no chain: it counts as vector work (R267, log 12). -/
def State.advanceVec (s : State) (w : Who) (len : Nat) : State := (s.advance w len).work 5 (s.item w).no

/-- An instruction is issued and its item waits for what it does (R272). -/
def State.issues (s : State) (w : Who) : State := s.work 0 (s.item w).no

/-- The instruction waits on a condition outside the item, for a stall reason of R273; a pre-emption stops it (R158). -/
def State.block (s : State) (w : Who) (reason : Nat) : State := s.modItem w fun i => { i with blocked := some reason }

/-- The same for an instruction that runs to completion before a pre-emption: DMA issue, BQPUSH and batch operands (R158). -/
def State.blockThrough (s : State) (w : Who) (reason : Nat) : State :=
  s.modItem w fun i => { i with blocked := some reason, inProgress := true }

/-- A range of Loam that an item writes is to be noted: it is not noted yet, and lies outside the declared output regions. -/
def Item.wroteNew (i : Item) (id : Ident) (a n : Nat) : Bool :=
  let inside := i.hdr.regions.any fun r => match placeOf id r.1 with
    | .own l => decide (l ≤ a ∧ a + n ≤ l + r.2)
    | _ => false
  !(n = 0 || inside || i.wrote.contains (a, n))

/-- An item has written Loam: what lies outside its declared output regions is noted, since an abort leaves it undefined (R57). -/
def State.noteWrote (s : State) (w : Who) (a n : Nat) : State :=
  if (s.item w).wroteNew s.id a n then s.modItem w fun i => { i with wrote := i.wrote ++ [(a, n)] } else s

/-- The same for an item that is saved, or settles beside another (R57, R158, R159). -/
def State.noteAside (s : State) (c no a n : Nat) : State :=
  let note (i : Item) : Item := if i.no = no ∧ i.wroteNew s.id a n then { i with wrote := i.wrote ++ [(a, n)] } else i
  s.modCore c fun x => { x with saved := x.saved.map fun p => (note p.1, p.2), dying := x.dying.map note }

/-! ### Footprints -/

/-- Ranges an instruction reads and writes: Loam, VB addresses and Kaolin, each as address and length. -/
structure Foot where
  lr : List (Nat × Nat) := []
  lw : List (Nat × Nat) := []
  vr : List (Nat × Nat) := []
  vw : List (Nat × Nat) := []
  kr : List (Nat × Nat) := []
  kw : List (Nat × Nat) := []
  deriving DecidableEq, Repr

/-- Two lists of ranges meet. -/
def rangesMeet (a b : List (Nat × Nat)) : Bool :=
  a.any fun x => b.any fun y => decide (0 < x.2 ∧ 0 < y.2 ∧ x.1 < y.1 + y.2 ∧ y.1 < x.1 + x.2)

/-- The later instruction must wait for the earlier one. -/
def Foot.clash (old new : Foot) : Bool :=
  rangesMeet old.lw (new.lr ++ new.lw) || rangesMeet old.lr new.lw ||
  rangesMeet old.vw (new.vr ++ new.vw) || rangesMeet old.vr new.vw ||
  rangesMeet old.kw (new.kr ++ new.kw) || rangesMeet old.kr new.kw

/-- Both footprints together. -/
def Foot.join (a b : Foot) : Foot :=
  ⟨a.lr ++ b.lr, a.lw ++ b.lw, a.vr ++ b.vr, a.vw ++ b.vw, a.kr ++ b.kr, a.kw ++ b.kw⟩

/-- What a chain reads and writes beside its source: Loam vectors, gate tiles, destination rows (R151, R122, R123). `rows` and
`cols` are the source's, `kc` its reduction chunks, `kao` the source grid where the mirror is used. -/
def Chain.foot (c : Chain) (rows cols kc : Nat) (kao : Option (Nat × Nat)) : Foot :=
  let st : List Foot := c.stages.map fun t =>
    if t.src2 = 2 then { lr := [(t.addr, 4 * (if t.vidx then cols else rows) + 64 * t.kstride * (kc - 1))] }
    else if t.op = 0x0E ∧ t.src2 = 3 then { vr := [(t.addr, rows * t.immB.toNat)] }
    else if t.op = 0x0E ∧ t.src2 = 4 then { kr := match kao with
      | some g => [(mirrorOf g.1, g.2)]
      | none => [] }
    else {}
  let d : Foot := if c.dest = 0 then { lw := [(c.destAddr, rows * c.destPitch)] }
    else if c.dest = 1 then { vw := [(c.destAddr, rows * c.destPitch)] } else {}
  st.foldl Foot.join d

/-- An operand's rows: in a VB or in Loam (R152). -/
def operandFoot (addr rows pitch : Nat) : Foot :=
  if bitAt addr 31 then { vr := [(bits addr 17 0, rows * pitch)] } else { lr := [(addr, rows * pitch)] }

/-- What a matrix instruction reads and writes (R151, R152). -/
def ArrJob.foot (j : ArrJob) : Foot :=
  let o := j.op
  let kc := if o.emul then 1 else cdiv o.k 256
  let len := if o.emul then o.n else o.k
  let bRows := if o.emul then o.m else o.n
  let grid := (o.kbase, gridBytes o.m o.n)
  let a : Foot := if o.abatch then {} else operandFoot o.aAddr o.m o.aPitch
  let l : Foot := if o.init = 2 then { lr := [(o.loadAddr, o.m * o.loadPitch)] } else {}
  let chain (b : List Byte) (rows cols kc : Nat) : Foot := if b.isEmpty then {} else (decodeChain b).foot rows cols kc (some grid)
  [operandFoot o.bAddr bRows o.bPitch, l, { kr := [grid], kw := [grid] }, chain j.epi o.m o.n 1, chain j.aPro o.m len kc,
    chain j.bPro bRows len kc].foldl Foot.join a

/-- The unfinished matrix instructions of the item in a context. -/
def State.itemJobs (s : State) (w : Who) : List ArrJob :=
  (s.core w.core.val).jobs.filter fun j => j.who == w && j.itemNo == (s.item w).no

/-- An instruction with this footprint waits for an unfinished matrix instruction of its item (R52, R128, R151). -/
def State.mustWait (s : State) (w : Who) (f : Foot) : Bool := (s.itemJobs w).any fun j => j.foot.clash f

end Sys2Proof.Machine
end

