-- ==== Sys2Proof/Machine/Vector.lean ====
section
/-! DEFINITION. Machine/Vector.lean: chain runs over their sources (R110, R126, R137), checks of chain descriptors (R125, R301), and
the VEC instructions (R119, R124, R132, R133, R153). A chain run of VEC.CHAIN is one step a 256 × 256 block, an epilogue one step a
tile (log 8). -/

namespace Sys2Proof.Machine

/-! ### Chain descriptors at decode (R114, R125, R301) -/

/-- Reads the descriptor at a Loam address: its bytes, or the fault that ends the decode. -/
def State.chainBytes (s : State) (w : Who) (a : Nat) : State × Rd (List Byte) :=
  if a % 16 ≠ 0 then (s, .bad 0x0501)
  else
    let f := s.itemFault w false a 16
    if f ≠ 0 then (s, .bad f)
    else
      let q := s.itemRead w a 16
      match q.2 with
      | .bad f => (q.1, .bad f)
      | .ok h =>
        let n := fieldB h 0 1
        if n = 0 ∨ 8 < n then (q.1, .bad 0x0501)
        else
          let f := s.itemFault w false a (16 + 16 * n)
          if f ≠ 0 then (q.1, .bad f) else q.1.itemRead w a (16 + 16 * n)

/-- Faults of the Loam vectors that a chain reads, over every address used (R122): 0 where all are readable. -/
def State.vectorFault (s : State) (w : Who) (c : Chain) (rows cols kc : Nat) : Nat :=
  let fs := c.stages.map fun t =>
    if t.src2 ≠ 2 then 0
    else if t.vidx then
      s.sectorsFault w false ((List.range (max 1 kc)).flatMap fun k =>
        let lo := if kc = 0 then 0 else 256 * k
        let hi := if kc ≤ k + 1 then cols else min cols (256 * k + 256)
        sectorsOf (vecAddr t 0 lo k) (4 * (hi - lo)))
    else s.sectorsFault w false ((List.range (max 1 kc)).flatMap fun k => sectorsOf (vecAddr t 0 0 k) (4 * rows))
  if fs.contains 0x0301 then 0x0301 else if fs.contains 0x0302 then 0x0302 else 0

/-- The VB tiles, mirror addresses and VB destination of a chain lie in the declared ranges (R55, R123). -/
def Chain.declared (c : Chain) (h : Hdr) (rows cols : Nat) (kao : Option (Nat × Nat)) : Bool :=
  (c.stages.all fun t =>
    if t.op = 0x0E ∧ t.src2 = 3 then
      (match fmtD (t.immA.toNat % 256) with
       | some d => decide (t.addr < 2 ^ 18) && h.vbHolds t.addr ((rows - 1) * t.immB.toNat + d.inVb.rowBytes cols)
       | none => true)
    else if t.op = 0x0E ∧ t.src2 = 4 then
      (match kao with
       | some g => h.kaoHolds (mirrorOf g.1) g.2
       | none => true)
    else true) &&
  (c.dest != 1 || (match sfmtOf c.sfmt with
    | some f => h.vbHolds c.destAddr ((rows - 1) * c.destPitch + f.rowBytes true cols)
    | none => true))

/-- The grid lies wholly in one half of Kaolin (R123). -/
def oneHalf (a n : Nat) : Bool := decide (a + n ≤ 196608) || decide (196608 ≤ a)

/-- Every check of R125 on a descriptor: its bytes, or the fault. `kao` is the source grid of an FP32 Kaolin source. -/
def State.chainCheck (s : State) (w : Who) (a : Nat) (pro : Option Nat) (rows cols kc : Nat) (int : Bool) (kao : Option (Nat × Nat)) :
    State × Rd (List Byte) :=
  let q := s.chainBytes w a
  match q.2 with
  | .bad f => (q.1, .bad f)
  | .ok b =>
    let c := decodeChain b
    let mirror := match kao with
      | some g => oneHalf g.1 g.2
      | none => false
    if !c.ok pro cols int mirror then (q.1, .bad 0x0501)
    else
      let f := q.1.vectorFault w c rows cols kc
      if f ≠ 0 then (q.1, .bad f)
      else if !c.declared (s.item w).hdr rows cols kao then (q.1, .bad 0x0306)
      else (q.1, .ok b)

/-! ### Runs -/

/-- The segments of a unit in the order of R126: row, first column, length. -/
def segsOf (r0 r1 c0 c1 : Nat) : List (Nat × Nat × Nat) :=
  (List.range (r1 - r0)).flatMap fun i => (List.range (cdiv (c1 - c0) 64)).map fun g =>
    (r0 + i, c0 + 64 * g, min 64 (c1 - (c0 + 64 * g)))

/-- A run over a unit: state, gathered output bytes, and the first fault with its address. -/
abbrev Run := State × Tab Byte × Option Nat

/-- One segment of a run: read, stages, output bytes (R110). `src` reads row i, column j, n elements; `kao` is the Kaolin address of
an element. -/
def runSegment (w : Who) (c : Chain) (f : SFmt) (cols : Nat) (src : Nat → Nat → Nat → State → State × Rd (List Val)) (kao : Nat → Nat → Nat)
    (c0 : Nat) (r : Run) (n : Nat) (p : Nat × Nat × Nat) : Run :=
  match r.2.2 with
  | some _ => r
  | none =>
    let q := src p.1 p.2.1 p.2.2 r.1
    match q.2 with
    | .bad e => (q.1, r.2.1, some e)
    | .ok vs =>
      let g : Seg := { w := w, i := p.1, j := p.2.1, n := n, first := p.2.1 == c0, k := 0, cols := cols, kao := kao p.1 p.2.1, sf := f }
      let x := q.1.runStages g c.stages vs
      match x.2 with
      | .bad e => (x.1, r.2.1, some e)
      | .ok out =>
        if 2 ≤ c.dest then (x.1, r.2.1, none)
        else
          let vb := c.dest == 1
          let b := finalBytes f vb out
          let o := segOffsets f vb cols p.2.1
          let base := c.destAddr + p.1 * c.destPitch
          (x.1.countVec w b.2 0, overlay (overlay r.2.1 (base + o.1) b.1.1) (base + o.2) b.1.2, none)

/-- A unit of a run (R126): the segment count restarts (R120). -/
def runUnit (w : Who) (c : Chain) (f : SFmt) (cols : Nat) (src : Nat → Nat → Nat → State → State × Rd (List Val)) (kao : Nat → Nat → Nat)
    (r : Run) (r0 r1 c0 c1 : Nat) : Run :=
  ((segsOf r0 r1 c0 c1).mapIdx fun n p => (n, p)).foldl (fun r x => runSegment w c f cols src kao c0 r x.1 x.2) r

/-- The runs of consecutive addresses of gathered bytes. -/
def keyRuns (t : Tab Byte) : List (Nat × Nat) := (byteRuns t).map fun r => (r.1, r.2.length)

/-- Gathered bytes that an item writes to Loam (R57). -/
def State.noteGathered (s : State) (w : Who) (t : Tab Byte) : State := (keyRuns t).foldl (fun s r => s.noteWrote w r.1 r.2) s

/-- Ends a run: the destination is checked under R48 and written, or the fault is raised (R63, R64, R114). -/
def State.endRun (w : Who) (c : Chain) (r : Run) (a : Nat) : State × Bool :=
  match r.2.2 with
  | some e => (r.1.raise w e a, false)
  | none =>
    let e := if c.dest = 0 then r.1.sectorsFault w true (gatheredSectors r.2.1) else 0
    if e ≠ 0 then (r.1.raise w e c.destAddr, false)
    else
      let t := (if c.dest = 0 then r.1.noteGathered w r.2.1 else r.1).work 2 (r.1.item w).no
      let q := t.scatter w (c.dest == 1) r.2.1
      if q.2.1 = 0 then (q.1, true) else (q.1.raise w q.2.1 q.2.2, false)

/-- Reads accumulators of a grid (R50, R51). -/
def kaoSource (w : Who) (int : Bool) (b m n : Nat) (i j k : Nat) (s : State) : State × Rd (List Val) :=
  let q := s.kaoRead w.core.val (gridAddr b m n i j) (4 * k)
  (q.1, match q.2 with
    | .ok bs => .ok (wordVals int bs k)
    | .bad f => .bad f)

/-- Reads elements of a stored row in a source format (R111). -/
def rowSource (w : Who) (vb : Bool) (f : SFmt) (a pitch cols : Nat) (i j k : Nat) (s : State) : State × Rd (List Val) :=
  match f with
  | .int32 =>
    let q := s.opRead w vb (a + i * pitch + 4 * j) (4 * k)
    (q.1, match q.2 with
      | .ok bs => .ok (wordVals true bs k)
      | .bad f => .bad f)
  | .blk d =>
    let q := s.rowRead w vb d (a + i * pitch) cols j (j + k)
    let e := if vb then d.inVb else d
    (q.1, match q.2 with
      | .ok row => .ok (if d.fmt.isInt then ((e.readInt row cols).drop j).take k |>.map .int
          else ((e.readFp row cols).drop j).take k |>.map .fp)
      | .bad f => .bad f)

/-- A raw drain (R137): an epilogue of one CVT to its own accumulator type, written to Loam. -/
def Chain.rawDrain (c : Chain) (int : Bool) : Bool :=
  c.dest == 0 && (match c.stages with
    | [t] => t.op == 0x0D && t.ifmt == 0 && t.immA.toNat % 256 == c.sfmt && c.sfmt == (if int then 0x30 else 0x28)
    | _ => false)

/-- An epilogue on tile (p, q) of a matrix instruction (R126, R137). -/
def State.epilogue (s : State) (w : Who) (o : MmaOp) (c : Chain) (p q : Nat) : State × Bool :=
  let r1 := min o.m (256 * p + 256)
  let c1 := min o.n (256 * q + 256)
  let kao := gridAddr o.kbase o.m o.n
  match sfmtOf c.sfmt with
  | none => (s, true)
  | some f =>
    let c' : Chain := if c.rawDrain o.int32 then { c with stages := [] } else c
    State.endRun w c (runUnit w c' f o.n (kaoSource w o.int32 o.kbase o.m o.n) kao (s, [], none) (256 * p) r1 (256 * q) c1) (kao (256 * p) (256 * q))

/-! ### Bank conflicts (R43, R88, R135) -/

/-- Cycles of a group of sector accesses of one port: the most that fall in one bank (R43). -/
def groupCycles (l : List Nat) : Nat := (List.range 32).foldl (fun m b => max m (l.filter fun x => x % 32 == b).length) 0

/-- Cycles that a port takes for sectors, in groups of 8 (R88). -/
def loadCycles (l : List Nat) : Nat := ((chunks 8 (l.length + 1) l).map groupCycles).sum

/-- The sectors of Loam that columns `j` to `j + k - 1` of a row of `cols` elements take in a storage format. -/
def SFmt.sectors (f : SFmt) (a cols j k : Nat) : List Nat :=
  match f with
  | .int32 => sectorsOf (a + 4 * j) (4 * k)
  | .blk d =>
    let p := d.spans cols j (j + k)
    (sectorsOf (a + p.1.1) p.1.2 ++ sectorsOf (a + p.2.1) p.2.2).foldl setInsert []

/-- The cycles that bank conflicts add to a chain run over a unit: those of each segment's source and destination sectors beyond one
group of 8 a cycle (R43, R135). `src` gives a segment's source sectors, `sf` the format of the destination. -/
def Chain.bankCycles (c : Chain) (sf : SFmt) (cols : Nat) (src : Nat → Nat → Nat → List Nat) (u : Nat × Nat × Nat × Nat) : Nat :=
  ((segsOf u.1 u.2.1 u.2.2.1 u.2.2.2).map fun p =>
    let l := src p.1 p.2.1 p.2.2 ++ if c.dest = 0 then sf.sectors (c.destAddr + p.1 * c.destPitch) cols p.2.1 p.2.2 else []
    loadCycles l - cdiv l.length 8).sum

/-- An item's chain run has met bank conflicts: its vector engine stalls for them (R273). -/
def State.conflicts (s : State) (w : Who) (n : Nat) : State := s.modItem w fun i => { i with bank := i.bank + n }

/-! ### VEC.CHAIN (R153) -/

/-- The source format of VEC.CHAIN suits its kind (R153). -/
def ChainOp.fmt (c : ChainOp) : Option SFmt :=
  if c.srck = 2 then (if c.sfmt = 0x28 then some (.blk ⟨.fp32, 32, true⟩) else if c.sfmt = 0x30 then some .int32 else none)
  else if c.srck = 3 then none
  else if c.sfmt = 0x30 then some .int32
  else (fmtD c.sfmt).map .blk

/-- The fields of VEC.CHAIN (R153, R301). The row pitch has a rule of its own for a block or INT source in Loam only (R71). -/
def ChainOp.ok (c : ChainOp) (f : SFmt) : Bool :=
  decide (1 ≤ c.rows ∧ 1 ≤ c.cols) &&
  (match c.srck with
   | 2 => c.src % 1024 == 0 && c.pitch == 0
   | 1 => decide (c.src < 2 ^ 18)
   | _ => !f.packed || (c.pitch % 8 == 0 && decide (f.rowBytes false c.cols ≤ c.pitch)))

/-- The source grid of a Kaolin source. -/
def ChainOp.grid (c : ChainOp) : Option (Nat × Nat) := if c.srck = 2 then some (c.src, gridBytes c.rows c.cols) else none

/-- The fault of VEC.CHAIN's source (R48, R55): 0 where it may be read. -/
def State.sourceFault (s : State) (w : Who) (c : ChainOp) (f : SFmt) : Nat :=
  let h := (s.item w).hdr
  let row := f.rowBytes (c.srck == 1) c.cols
  match c.srck with
  | 0 => s.sectorsFault w false ((List.range c.rows).flatMap fun i => sectorsOf (c.src + i * c.pitch) row)
  | 1 => if h.vbHolds c.src ((c.rows - 1) * c.pitch + row) then 0 else 0x0306
  | _ => if h.kaoHolds c.src (gridBytes c.rows c.cols) then 0 else 0x0306

/-- What VEC.CHAIN reads and writes. -/
def ChainOp.foot (c : ChainOp) (ch : Chain) : Foot :=
  let f : Foot := match c.srck with
    | 0 => { lr := [(c.src, c.rows * c.pitch)] }
    | 1 => { vr := [(c.src, c.rows * c.pitch)] }
    | _ => { kr := [(c.src, gridBytes c.rows c.cols)] }
  f.join (ch.foot c.rows c.cols 1 c.grid)

/-- The units of a source: its 256 by 256 blocks in the order of R92. -/
def unitsOf (rows cols : Nat) : List (Nat × Nat × Nat × Nat) :=
  (gridTiles rows cols).map fun t => (256 * t.1, min rows (256 * t.1 + 256), 256 * t.2, min cols (256 * t.2 + 256))

/-- What the next vector instruction of an item reads and writes; none where its next instruction is no VEC instruction. -/
def State.vecFoot (s : State) (o : Op) : Option Foot :=
  match o with
  | .chain c => some (c.foot (decodeChain (s.loam.cells.read c.desc 144)))
  | .maskld _ a => some { lr := [(a, 512)] }
  | .maskst _ a => some { lw := [(a, 512)] }
  | .statclr _ _ => some {}
  | .side _ _ _ _ _ a => some { lw := [(a, 1024)] }
  | .rowclose lse _ _ t side fin _ _ => some { lr := [(side, 1024 * t)], lw := (fin, 1024) :: (if lse then [(side, 1024 * t)] else []) }
  | _ => none

/-- The footprint of the VEC instruction that is due in a context: it is the next to issue, and its item has no epilogue left before
it (log 8). -/
def State.vecDue (s : State) (w : Who) : Option Foot :=
  if (s.ctx w).canIssue && (s.itemJobs w).all (fun j => j.epi.isEmpty) then
    match (s.fetch w).2 with
    | .op o _ => s.vecFoot o
    | _ => none
  else none

/-- The handler context has work for the vector engine that could run now: an epilogue tile, or a VEC instruction or a block of one
(R138). -/
def State.hdlVec (s : State) (c : Fin 5) : Bool :=
  ((s.core c.val).jobs.any fun j => isHdl j.who && !j.tiles.isEmpty && j.retryAt.isNone && !j.restart) ||
  (match s.vecDue ⟨c, .hdl⟩ with
   | some f => !s.mustWait ⟨c, .hdl⟩ f
   | none => false)

/-- Vector work of the item in a context is at its turn: no epilogue of an earlier matrix instruction is left (log 8), and where the
handler context has work ready it goes first (R138). -/
def State.vecTurn (s : State) (w : Who) : Bool :=
  ((s.itemJobs w).all fun j => j.epi.isEmpty) && (isHdl w || !s.hdlVec w.core)

/-- The run of a VEC.CHAIN over one 256 × 256 block of its source (R126, R138, R153). -/
def ChainOp.run (c : ChainOp) (w : Who) (ch : Chain) (f sf : SFmt) (u : Nat × Nat × Nat × Nat) (s : State) : Run :=
  let src := if c.srck = 2 then kaoSource w f.isInt c.src c.rows c.cols
    else rowSource w (c.srck == 1) f c.src c.pitch c.cols
  runUnit w ch sf c.cols src (gridAddr c.src c.rows c.cols) (s, [], none) u.1 u.2.1 u.2.2.1 u.2.2.2

/-- The cycles that bank conflicts add to a block of VEC.CHAIN (R43). -/
def ChainOp.bankCycles (c : ChainOp) (ch : Chain) (f sf : SFmt) (u : Nat × Nat × Nat × Nat) : Nat :=
  ch.bankCycles sf c.cols (fun i j k => if c.srck = 0 then f.sectors (c.src + i * c.pitch) c.cols j k else []) u

/-- Block `k` of a VEC.CHAIN runs at its turn; with the last block the instruction is done (R126, R138, R139). -/
def runBlock (w : Who) (len : Nat) (c : ChainOp) (f : SFmt) (b : List Byte) (k : Nat) (s : State) : Option State :=
  let ch := decodeChain b
  if s.mustWait w (c.foot ch) || !s.vecTurn w then none
  else
    match sfmtOf ch.sfmt, (unitsOf c.rows c.cols)[k]? with
    | some sf, some u =>
      let x := State.endRun w ch (c.run w ch f sf u s) c.src
      some (if !x.2 then x.1
        else
          let t := x.1.conflicts w (c.bankCycles ch f sf u)
          if (unitsOf c.rows c.cols).length ≤ k + 1 then t.advance w len
          else t.modItem w fun i => { i with chain := some (k + 1, b) })
    | _, _ => none

/-- The checks of VEC.CHAIN at decode (R125, R153, R301): its fields, its chain, whose address fields come before any read through the
source address, and its source; the source format and the chain's bytes, or the fault with its address. -/
def State.chainDecode (s : State) (w : Who) (c : ChainOp) : State × (SFmt × List Byte ⊕ Nat × Nat) :=
  match c.fmt with
  | none => (s, .inr (0x0501, c.src))
  | some f =>
    if !c.ok f then (s, .inr (0x0501, c.src))
    else if c.desc % 16 ≠ 0 then (s, .inr (0x0501, c.desc))
    else
      let fpGrid := if c.srck = 2 ∧ c.sfmt = 0x28 then c.grid else none
      let q := s.chainCheck w c.desc none c.rows c.cols 1 f.isInt fpGrid
      match q.2 with
      | .bad e => (q.1, .inr (e, c.desc))
      | .ok b =>
        let e := q.1.sourceFault w c f
        (q.1, if e ≠ 0 then .inr (e, c.src) else .inl (f, b))

/-- VEC.CHAIN (R110, R126, R153): checked at its decode; then its blocks run one after another, each at its turn. -/
def runChainOp (w : Who) (len : Nat) (c : ChainOp) (s : State) : Option State :=
  match (s.item w).chain, c.fmt with
  | some (k, b), some f => runBlock w len c f b k s
  | _, _ =>
    let q := s.chainDecode w c
    match q.2 with
    | .inr e => some (q.1.raise w e.1 e.2)
    | .inl x => runBlock w len c x.1 x.2 0 q.1

/-! ### Masks, statistics, side vectors -/

/-- An address field and the sectors it names: aligned to 64, readable or writable (R301, R48). -/
def State.vecAddrFault (s : State) (w : Who) (write : Bool) (a n code : Nat) : Nat :=
  if a % 64 ≠ 0 then code else s.itemFault w write a n

/-- Loam bytes of 256 statistic entries. -/
def statBytes (xs : List Fp32) : List Byte := xs.flatMap fun x => leBytes 4 x.toNat

/-- The entries of a statistic register. -/
def Core.statRow (x : Core) (st : Nat) : List Fp32 := (List.range 256).map fun r => tabGet 0 x.stats (256 * st + r)

/-- Replaces the entries of a statistic register. -/
def Core.setStatRow (x : Core) (st : Nat) (v : List Fp32) : Core :=
  { x with stats := (v.mapIdx fun r y => (256 * st + r, y)).foldl (fun t p => tabSet t p.1 p.2) x.stats }

/-- VEC.MASKLD (R119). -/
def maskLoad (w : Who) (len m a : Nat) (s : State) : Option State :=
  let e := s.vecAddrFault w false a 512 0x0501
  if e ≠ 0 then some (s.raise w e a)
  else if s.mustWait w { lr := [(a, 512)] } || !s.vecTurn w then none
  else
    let q := s.itemRead w a 512
    match q.2 with
    | .bad e => some (q.1.raise w e a)
    | .ok b =>
      some ((q.1.modCore w.core.val fun x => { x with masks := (List.range 64).foldl (fun t e =>
        tabSet t (64 * m + e) (BitVec.ofNat 64 (fieldB b (8 * e) 8))) x.masks }).advanceVec w len)

/-- VEC.MASKST (R119). -/
def maskStore (w : Who) (len m a : Nat) (s : State) : Option State :=
  let e := s.vecAddrFault w true a 512 0x0501
  if e ≠ 0 then some (s.raise w e a)
  else if s.mustWait w { lw := [(a, 512)] } || !s.vecTurn w then none
  else
    let b := (List.range 64).flatMap fun e => leBytes 8 (tabGet 0 (s.core w.core.val).masks (64 * m + e)).toNat
    let q := s.loamWrite (corePort w.core.val) a b
    some (if q.2 = 0 then (q.1.noteWrote w a 512).advanceVec w len else q.1.raise w q.2 a)

/-- VEC.STATCLR (R124). -/
def statClear (w : Who) (len st : Nat) (inf : Bool) (s : State) : Option State :=
  if !s.vecTurn w then none
  else some ((s.modCore w.core.val fun x =>
    x.setStatRow st (List.replicate 256 (if inf then 0xFF800000#32 else 0#32))).advanceVec w len)

/-- The fold of R132: running maximum and sum with a tile's maximum and sum. -/
def lseFold (M L m l : Fp32) : Fp32 × Fp32 :=
  if m = 0xFF800000#32 then (M, L)
  else
    let mn := fMax M m
    (mn, fAdd (fMul L (fExp2 (fSub M mn))) (fMul l (fExp2 (fSub m mn))))

/-- VEC.SIDE (R132). Where c and d name one register, the maximum stays in it, since R132 assigns M last (DEDUCED, log 87). -/
def sideVector (w : Who) (len : Nat) (lse : Bool) (a b c d addr : Nat) (s : State) : Option State :=
  let e := s.vecAddrFault w true addr 1024 0x0501
  if e ≠ 0 then some (s.raise w e addr)
  else if s.mustWait w { lw := [(addr, 1024)] } || !s.vecTurn w then none
  else
    let x := s.core w.core.val
    let q := (s.noteWrote w addr 1024).loamWrite (corePort w.core.val) addr (statBytes (x.statRow a))
    if q.2 ≠ 0 then some (q.1.raise w q.2 addr)
    else if !lse then some (q.1.advanceVec w len)
    else
      let ms := x.statRow a
      let r := (List.range 256).map fun i =>
        lseFold ((x.statRow c).getD i 0) ((x.statRow d).getD i 0) (ms.getD i 0) ((x.statRow b).getD i 0)
      some ((q.1.modCore w.core.val fun y => (y.setStatRow d (r.map (·.2))).setStatRow c (r.map (·.1))).advanceVec w len)

/-- The entries of a side vector in Loam. -/
def sideWords (b : List Byte) : List Fp32 := (List.range 256).map fun i => BitVec.ofNat 32 (fieldB b (4 * i) 4)

/-- RMS of R133: sums side vectors from `t` on, entry by entry. -/
def rmsSum (w : Who) (a : Nat) : Nat → Nat → List Fp32 → State → State × Rd (List Fp32)
  | 0, _, acc, s => (s, .ok acc)
  | n + 1, t, acc, s =>
    let q := s.itemRead w (a + 1024 * t) 1024
    match q.2 with
    | .bad e => (q.1, .bad e)
    | .ok b => rmsSum w a n (t + 1) (List.zipWith fAdd acc (sideWords b)) q.1

/-- LSE of R133: replaces side vectors from `t` on by their corrections; 0, or the first fault. -/
def lseCorrect (w : Who) (a : Nat) (fin : List Fp32) : Nat → Nat → State → State × Nat
  | 0, _, s => (s, 0)
  | n + 1, t, s =>
    let q := s.itemRead w (a + 1024 * t) 1024
    match q.2 with
    | .bad e => (q.1, e)
    | .ok b =>
      let v := List.zipWith (fun x f => fExp2 (fSub x f)) (sideWords b) fin
      let r := q.1.loamWrite (corePort w.core.val) (a + 1024 * t) (statBytes v)
      if r.2 = 0 then lseCorrect w a fin n (t + 1) r.1 else (r.1, r.2)

/-- Faults of the ranges of VEC.ROWCLOSE: side vectors read (and for LSE written), the final vector written (R48, R301). -/
def State.rowcloseFault (s : State) (w : Who) (lse : Bool) (t side fin : Nat) : Nat :=
  if t = 0 ∨ 4096 < t ∨ side % 64 ≠ 0 ∨ fin % 64 ≠ 0 then 0x0502
  else
    let fs := [s.itemFault w false side (1024 * t), if lse then s.itemFault w true side (1024 * t) else 0, s.itemFault w true fin 1024]
    if fs.contains 0x0301 then 0x0301 else if fs.contains 0x0302 then 0x0302 else 0

/-- VEC.ROWCLOSE (R133). -/
def rowClose (w : Who) (len : Nat) (lse : Bool) (c d t side fin : Nat) (a b : Fp32) (s : State) : Option State :=
  let e := s.rowcloseFault w lse t side fin
  if e ≠ 0 then some (s.raise w e side)
  else if s.mustWait w { lr := [(side, 1024 * t)], lw := (fin, 1024) :: (if lse then [(side, 1024 * t)] else []) } || !s.vecTurn w then none
  else
    let put (s : State) (f : List Fp32) : State × Nat := (s.noteWrote w fin 1024).loamWrite (corePort w.core.val) fin (statBytes f)
    if lse then
      let s := s.noteWrote w side (1024 * t)
      let x := s.core w.core.val
      let f := List.zipWith (fun m l => fAdd m (fLog2 l)) (x.statRow c) (x.statRow d)
      let q := put s f
      if q.2 ≠ 0 then some (q.1.raise w q.2 fin)
      else
        let r := lseCorrect w side f t 0 q.1
        some (if r.2 = 0 then r.1.advanceVec w len else r.1.raise w r.2 side)
    else
      let q := rmsSum w side t 0 (List.replicate 256 0#32) s
      match q.2 with
      | .bad e => some (q.1.raise w e side)
      | .ok sum =>
        let r := put q.1 (sum.map fun x => fRsqrt (fAdd (fMul x a) b))
        some (if r.2 = 0 then r.1.advanceVec w len else r.1.raise w r.2 fin)

end Sys2Proof.Machine
end

