-- ==== Sys2Proof/Machine/Array.lean ====
section
/-! DEFINITION. Machine/Array.lean: the matrix array (04, 05): operand checks (R83), passes and folding (R90, R91), decoding of
operands and prologues (R73, R127), the stationary registers (R88), accumulation (R75 to R77, R84), residues and retry (R102 to R104),
and the request batcher (R96 to R98). What a pass adds is added when it ends (log 8). -/

namespace Sys2Proof.Machine

/-! ### Operand roles and checks (R68, R83, R152) -/

/-- The stationary operand is A: input-stationary mode, and ARR.EMUL (R91, R106). -/
def MmaOp.statA (o : MmaOp) : Bool := o.emul || o.smode == 2
/-- Stationary width s and streamed width a. -/
def MmaOp.sw (o : MmaOp) : Nat := if o.statA then o.aWidth else o.bWidth
def MmaOp.aw (o : MmaOp) : Nat := if o.statA then o.bWidth else o.aWidth
/-- Row length of both operands: K, or N for ARR.EMUL. -/
def MmaOp.len (o : MmaOp) : Nat := if o.emul then o.n else o.k
/-- Rows of operand B: N, or M for ARR.EMUL. -/
def MmaOp.bRows (o : MmaOp) : Nat := if o.emul then o.m else o.n
/-- Reduction chunks (R90). -/
def MmaOp.kc (o : MmaOp) : Nat := if o.emul then 1 else cdiv o.k 256

/-- A format descriptor the array takes for an operand (R70). -/
def arrFmt (stat : Bool) (width : Nat) (v : Nat) : Option FmtD :=
  match fmtD v with
  | some d =>
    (match d.fmt with
     | .fp32 | .bf16 | .fp16 => none
     | .int 1 => if stat && width == 1 then some d else none
     | _ => some d)
  | none => none

/-- Formats of A and B. -/
def MmaOp.aD (o : MmaOp) : Option FmtD := arrFmt o.statA o.aWidth o.aFmt
def MmaOp.bD (o : MmaOp) : Option FmtD := arrFmt (!o.statA) o.bWidth o.bFmt

/-- Product-block size (R75). -/
def blockSize (a b : FmtD) : Nat := if a.blk = 16 ∨ b.blk = 16 then 16 else 32

/-- Checks 1 to 4 of R83, all ARR_FORMAT. -/
def MmaOp.formatOk (o : MmaOp) : Bool :=
  match o.aD, o.bD with
  | some a, some b =>
    let s := o.sw
    let stat := if o.statA then a else b
    decide (1 ≤ s ∧ s ≤ 16 ∧ 2 ≤ o.aw ∧ o.aw ≤ 16) && (s != 1 || stat.fmt == .int 1) &&
    o.smode != 3 && o.init != 3 && (!o.emul || (o.smode == 0 && !o.abatch)) && o.kbase % 1024 == 0 &&
    (o.init == 2 || (o.loadAddr == 0 && o.loadPitch == 0)) &&
    (!o.int32 || (a.fmt.isInt && b.fmt.isInt && decide (a.fmt.bits ≤ o.aWidth ∧ b.fmt.bits ≤ o.bWidth)))
  | _, _ => false

/-- A batch queue. -/
def State.bqOf (s : State) (q : Nat) : BatchQ := tabGet {} s.bq q
/-- Replaces a batch queue. -/
def State.setBq (s : State) (q : Nat) (b : BatchQ) : State := { s with bq := tabSet s.bq q b }

/-- Check 5 of R83: the batch operand. -/
def State.batchOk (s : State) (o : MmaOp) : Bool :=
  !o.abatch || (decide (o.aAddr < 16) && o.aPitch == 0 && decide (o.smode ≤ 1) && o.m == (s.bqOf o.aAddr).capM1 + 1 && (s.bqOf o.aAddr).en)

/-- A row pitch (R71, R83). -/
def pitchOk (d : FmtD) (addr pitch len : Nat) : Bool :=
  pitch % 8 == 0 && decide ((if bitAt addr 31 then d.inVb else d).rowBytes len ≤ pitch)

/-- Check 6 of R83: pitches. -/
def MmaOp.pitchesOk (o : MmaOp) : Bool :=
  match o.aD, o.bD with
  | some a, some b =>
    (o.abatch || pitchOk a o.aAddr o.aPitch o.len) && pitchOk b o.bAddr o.bPitch o.len &&
    (o.init != 2 || (o.loadPitch % 8 == 0 && decide (4 * o.n ≤ o.loadPitch)))
  | _, _ => false

/-- Sectors of an operand's rows in Loam; none where it lies in a VB. -/
def rowSectors (d : FmtD) (addr pitch rows len : Nat) : List Nat :=
  if bitAt addr 31 then [] else (List.range rows).flatMap fun i => sectorsOf (addr + i * pitch) (d.rowBytes len)

/-- Check 8 of R83: 0, or the fault of R48; a LOAD_ADDR at or above LOAM_MIB MiB lies in no region, whoever names it. LOAM_WINDOW of one
operand goes before LOAM_PERM of another, where R48 orders them within one access (DESIGN CHOICE, log 81). -/
def State.operandFault (s : State) (w : Who) (o : MmaOp) : Nat :=
  match o.aD, o.bD with
  | some a, some b =>
    if o.init = 2 ∧ s.id.loamMib * 2 ^ 20 ≤ o.loadAddr then 0x0301
    else s.sectorsFault w false ((if o.abatch then [] else rowSectors a o.aAddr o.aPitch o.m o.len) ++
      rowSectors b o.bAddr o.bPitch o.bRows o.len ++
      (if o.init = 2 then (List.range o.m).flatMap fun i => sectorsOf (o.loadAddr + i * o.loadPitch) (4 * o.n) else []))
  | _, _ => 0

/-- A VB operand lies within the declared ranges (R55). -/
def vbOperandOk (h : Hdr) (d : FmtD) (addr pitch rows len : Nat) : Bool :=
  !bitAt addr 31 || h.vbHolds (bits addr 17 0) (if len = 0 then 0 else (rows - 1) * pitch + d.inVb.rowBytes len)

/-- Check 9 of R83. -/
def MmaOp.declaredOk (o : MmaOp) (h : Hdr) : Bool :=
  match o.aD, o.bD with
  | some a, some b =>
    h.kaoHolds o.kbase (gridBytes o.m o.n) && (o.abatch || vbOperandOk h a o.aAddr o.aPitch o.m o.len) &&
    vbOperandOk h b o.bAddr o.bPitch o.bRows o.len
  | _, _ => false

/-- R83 without the chains: 0, or the fault of the first check that fails. -/
def State.mmaFault (s : State) (w : Who) (o : MmaOp) : Nat :=
  if !o.formatOk then 0x0401
  else if !s.batchOk o then 0x0404
  else if !o.pitchesOk then 0x0401
  else if o.m = 0 ∨ o.n = 0 ∨ (o.emul ∧ o.k ≠ 0) then 0x0402
  else
    let f := s.operandFault w o
    if f ≠ 0 then f
    else if !o.declaredOk (s.item w).hdr then 0x0306 else 0

/-- The chain descriptors a matrix instruction names, checked after R83 in the order epilogue, A, B (R125, log 31). -/
def State.mmaChains (s : State) (w : Who) (o : MmaOp) : State × Rd (List Byte × List Byte × List Byte) :=
  let grid := (o.kbase, gridBytes o.m o.n)
  let get (s : State) (a : Nat) (pro : Option Nat) (rows cols kc : Nat) (int : Bool) (kao : Option (Nat × Nat)) :
      State × Rd (List Byte) :=
    if a = 0xFFFFFFFF then (s, .ok []) else s.chainCheck w a pro rows cols kc int kao
  let isInt (d : Option FmtD) : Bool := match d with
    | some d => d.fmt.isInt
    | none => false
  let e := get s o.epi none o.m o.n 1 o.int32 (if o.int32 then none else some grid)
  match e.2 with
  | .bad f => (e.1, .bad f)
  | .ok eb =>
    let a := get e.1 o.aPro (some o.aFmt) o.m o.len o.kc (isInt o.aD) none
    match a.2 with
    | .bad f => (a.1, .bad f)
    | .ok ab =>
      let b := get a.1 o.bPro (some o.bFmt) o.bRows o.len o.kc (isInt o.bD) none
      match b.2 with
      | .bad f => (b.1, .bad f)
      | .ok bb => (b.1, .ok (eb, ab, bb))

/-! ### Passes (R90, R91, R106) -/

/-- A pass: the rows and columns of C it adds to, its reduction chunk, whether it is the low pass of a pair (R69), the streamed
rows, and whether A and B elements are decoded for the first time in it (R73). -/
structure Pass where
  r0 : Nat
  r1 : Nat
  c0 : Nat
  c1 : Nat
  k : Nat
  low : Bool
  firstA : Bool
  firstB : Bool
  deriving DecidableEq, Repr

/-- Chunk `q` of `n` positions cut by `w`. -/
def chunkOf (n w q : Nat) : Nat × Nat := (q * w, min n (q * w + w))

/-- The passes of an instruction at effective width `w`, in order. -/
def MmaOp.passes (o : MmaOp) (w : Nat) : List Pass :=
  let halves := if 9 ≤ o.sw then [true, false] else [false]
  if o.emul then halves.map fun l => ⟨0, o.m, 0, o.n, 0, l, true, true⟩
  else
    let blocks : List (Nat × Nat × Nat × Nat) :=
      match o.smode with
      | 1 => (List.range (cdiv o.m 256)).flatMap fun p => (List.range (cdiv o.n w)).map fun q =>
          ((chunkOf o.m 256 p).1, (chunkOf o.m 256 p).2, (chunkOf o.n w q).1, (chunkOf o.n w q).2)
      | 2 => (List.range (cdiv o.m w)).map fun p => ((chunkOf o.m w p).1, (chunkOf o.m w p).2, 0, o.n)
      | _ => (List.range (cdiv o.n w)).map fun q => (0, o.m, (chunkOf o.n w q).1, (chunkOf o.n w q).2)
    blocks.flatMap fun b => (List.range o.kc).flatMap fun k => halves.map fun l =>
      ⟨b.1, b.2.1, b.2.2.1, b.2.2.2, k, l, b.2.2.1 == 0, b.1 == 0⟩

/-- A pass writes into tile (p, q). -/
def Pass.meets (x : Pass) (t : Nat × Nat) : Bool :=
  decide (x.r0 < 256 * t.1 + 256 ∧ 256 * t.1 < x.r1 ∧ x.c0 < 256 * t.2 + 256 ∧ 256 * t.2 < x.c1)

/-- The tiles that are complete when pass `n` ends: it is the last that writes them (R92). -/
def tilesDone (o : MmaOp) (w n : Nat) : List Nat :=
  let ps := o.passes w
  let ts := gridTiles o.m o.n
  (List.range ts.length).filter fun i =>
    let t := ts.getD i (0, 0)
    (match ps[n]? with
     | some x => x.meets t && !x.low && !((ps.drop (n + 1)).any fun y => y.meets t)
     | none => false)

/-! ### Decoding (R73, R127) -/

/-- One operand of a job: base address (bit 31 for a VB), pitch, format, width, row length, prologue, and batch row addresses. -/
structure Feed where
  addr : Nat
  pitch : Nat
  d : FmtD
  sfmt : Nat
  width : Nat
  len : Nat
  pro : List Byte
  batch : Option (List Nat)
  deriving DecidableEq, Repr

/-- Address of row `i`. -/
def Feed.row (f : Feed) (i : Nat) : Nat :=
  match f.batch with
  | some l => l.getD i 0
  | none => (if bitAt f.addr 31 then bits f.addr 17 0 else f.addr) + i * f.pitch

/-- The operand lies in a VB. -/
def Feed.vb (f : Feed) : Bool := f.batch.isNone && bitAt f.addr 31

/-- Elements of a decoded prologue segment: encoded in the operand's format and decoded as if stored so (R127). -/
def Feed.reencode (f : Feed) (pb : Nat) (sf : SFmt) (vs : List Val) : List DecBlk × Nat :=
  let b := finalBytes sf f.vb vs
  let d := if f.vb then f.d.inVb else f.d
  (d.decRow f.width pb (b.1.1 ++ b.1.2) vs.length, b.2)

/-- The blocks of row `i` at reduction positions `k0` to `k1 - 1`; `n` numbers the prologue's segments (R120). -/
def State.feedRow (s : State) (w : Who) (f : Feed) (pb k i k0 k1 n : Nat) : State × Rd (List DecBlk) :=
  let a := f.row i
  let d := if f.vb then f.d.inVb else f.d
  let e := match f.batch with
    | some _ => s.itemFault w false a (f.d.rowBytes f.len)
    | none => 0
  if e ≠ 0 then (s, .bad e)
  else
    let q := s.rowRead w f.vb f.d a f.len k0 k1
    match q.2 with
    | .bad e => (q.1, .bad e)
    | .ok row =>
      let b := if f.d.fmt.hasExp then f.d.blk else pb
      if f.pro.isEmpty then (q.1, .ok (((d.decRow f.width pb row f.len).drop (k0 / b)).take (cdiv (k1 - k0) b)))
      else
        let c := decodeChain f.pro
        match sfmtOf f.sfmt with
        | none => (q.1, .ok [])
        | some sf =>
          (List.range (cdiv (k1 - k0) 64)).foldl (fun (acc : State × Rd (List DecBlk)) g =>
            match acc.2 with
            | .bad e => (acc.1, .bad e)
            | .ok bs =>
              let j := k0 + 64 * g
              let len := min 64 (k1 - j)
              let vs : List Val := if f.d.fmt.isInt then (((d.readInt row f.len).drop j).take len).map .int
                else (((d.readFp row f.len).drop j).take len).map .fp
              let sg : Seg := { w := w, i := i, j := j, n := n + g, first := false, k := k, cols := f.len, kao := 0, sf := sf }
              let r := acc.1.runStages sg c.stages vs
              match r.2 with
              | .bad e => (r.1, .bad e)
              | .ok out =>
                let x := f.reencode pb sf out
                (r.1.countVec w x.2 0, .ok (bs ++ x.1))) (q.1.work 2 (q.1.item w).no, .ok [])

/-- The decoded rows `r0` to `r1 - 1` of an operand at reduction positions `k0` to `k1 - 1`. -/
def State.feed (s : State) (w : Who) (f : Feed) (pb k r0 r1 k0 k1 : Nat) : State × Rd (List (List DecBlk)) :=
  (List.range (r1 - r0)).foldl (fun (acc : State × Rd (List (List DecBlk))) i =>
    match acc.2 with
    | .bad e => (acc.1, .bad e)
    | .ok l =>
      let q := acc.1.feedRow w f pb k (r0 + i) k0 k1 (i * cdiv (k1 - k0) 64)
      (q.1, match q.2 with
        | .ok b => .ok (l ++ [b])
        | .bad e => .bad e)) (s, .ok [])

/-- Decode clamps of fed rows (R73). -/
def feedSat (l : List (List DecBlk)) : Nat := (l.flatMap fun r => r.map (·.sat)).sum

/-! ### Block sums and accumulation (R75 to R77, R84) -/

/-- What a product block contributes. -/
inductive Contrib where
  | nan
  | inf (neg : Bool)
  | fin (p : Int) (q : Int)
  deriving DecidableEq, Repr

/-- The sign of an element. -/
def Elem.neg : Elem → Bool
  | .num n => decide (n < 0)
  | .inf s => s
  | .nan => false

/-- An element that is a zero. -/
def Elem.isZero : Elem → Bool
  | .num n => n == 0
  | _ => false

/-- An element that is an infinity. -/
def Elem.isInf : Elem → Bool
  | .inf _ => true
  | _ => false

/-- The contribution of one product block (R75, R84). The zero that an infinity meets is a decoded integer 0, whatever its stored code
(DESIGN CHOICE, log 81). -/
def blockSum (a b : List Elem) (q : Int) : Contrib :=
  let ps := a.zip b
  if ps.any fun p => p.1 == .nan || p.2 == .nan then .nan
  else if ps.any fun p => (p.1.isInf && p.2.isZero) || (p.2.isInf && p.1.isZero) then .nan
  else
    let infs := (ps.filter fun p => p.1.isInf || p.2.isInf).map fun p => p.1.neg != p.2.neg
    if infs.contains true && infs.contains false then .nan
    else match infs with
      | x :: _ => .inf x
      | [] => .fin (ps.map fun p => match p.1, p.2 with
          | .num x, .num y => x * y
          | _, _ => 0).sum q

/-- An accumulator after one contribution, with whether a clamp or a new NaN counts (R76, R77, R84). -/
def accum (int : Bool) (acc : Word32) (x : Contrib) : Word32 × Bool :=
  if int then
    match x with
    | .fin p _ =>
      let r := clampC (i32lo, i32hi) (acc.toInt + p)
      (BitVec.ofInt 32 r.1, r.2)
    | _ => (acc, false)
  else if isNaN acc then (acc, false)
  else
    let e : Ext := match x with
      | .nan => .nan
      | .inf s => .inf s
      | .fin p q => .fin (decide (p < 0)) p.natAbs q
    let r := addExt (ext32 acc) e
    (r, isNaN r)

/-- Cuts the elements of a stored block list into product blocks of `pb`, each with its quantum (R75). -/
def productBlocks (pb : Nat) (l : List DecBlk) : List (List Elem × Int) :=
  l.flatMap fun d => (chunks pb (d.es.length + 1) d.es).map fun es => (es, d.q)

/-- The contributions of a row of A and a row of B over a chunk, in ascending order. -/
def contribs (pb : Nat) (a b : List DecBlk) : List Contrib :=
  List.zipWith (fun x y => blockSum x.1 y.1 (x.2 + y.2)) (productBlocks pb a) (productBlocks pb b)

/-- Element-wise contributions of two rows (R82): one element each. -/
def emulContribs (a b : List DecBlk) : List Contrib :=
  let fl := fun (l : List DecBlk) => l.flatMap fun d => d.es.map fun e => (e, d.q)
  List.zipWith (fun x y => blockSum [x.1] [y.1] (x.2 + y.2)) (fl a) (fl b)

/-- Folds contributions into an accumulator; counts what counts. -/
def accumAll (int : Bool) (acc : Word32) (l : List Contrib) : Word32 × Nat :=
  l.foldl (fun a x =>
    let r := accum int a.1 x
    (r.1, if r.2 then a.2 + 1 else a.2)) (acc, 0)

/-! ### Residues (R102) -/

/-- The integer that a cell or the feeder holds for an element; a special code enters as zero. -/
def Elem.int : Elem → Int
  | .num n => n
  | _ => 0

/-- What the cells hold of a stationary integer in a pass: its low or its high byte in a pass pair (R69). -/
def Pass.part (o : MmaOp) (x : Pass) (n : Int) : Int := if o.sw < 9 then n else if x.low then n % 256 else n / 256

/-- The sum S of a column over its product blocks, each a list of stationary and streamed integers (R102). -/
def footS (l : List (List (Int × Int))) : Nat := ((l.map fun (b : List (Int × Int)) => (b.map fun (p : Int × Int) => p.1 * p.2).sum).sum % 7).toNat

/-- The sum T of a column: of the products of the residues (R102). -/
def footT (l : List (List (Int × Int))) : Nat := ((l.map fun (b : List (Int × Int)) => (b.map fun (p : Int × Int) => p.1 % 7 * (p.2 % 7)).sum).sum % 7).toNat

/-- The product blocks that chunk position `c` forms in a pass over decoded rows of A and B: the stationary row it holds against every
streamed row (R90, R91), and in ARR.EMUL the elements that lie on it (R106). -/
def Pass.lane (o : MmaOp) (x : Pass) (pb width : Nat) (a b : List (List DecBlk)) (c : Nat) : List (List (Int × Int)) :=
  let part (e : Elem) : Int := x.part o e.int
  let es (l : List DecBlk) : List (List Elem) := (productBlocks pb l).map (·.1)
  let meet (st sm : List DecBlk) : List (List (Int × Int)) :=
    List.zipWith (fun u v => List.zipWith (fun p q => (part p, q.int)) u v) (es st) (es sm)
  if o.emul then
    (List.zip a b).flatMap fun r =>
      let u := r.1.flatMap (·.es)
      let v := r.2.flatMap (·.es)
      (List.range (cdiv u.length width)).map fun q => [(part (u.getD (q * width + c) (.num 0)), (v.getD (q * width + c) (.num 0)).int)]
  else
    let st := if o.statA then a else b
    let sm := if o.statA then b else a
    sm.flatMap fun r => meet (st.getD c []) r

/-- The physical columns of a core in service, in chunk position order (R90). -/
def State.serviceCols (s : State) (c : Nat) : List Nat :=
  (List.range (2 ^ s.id.edgeLog2)).filter fun k => !(s.str.live.bypass.getD c 0).testBit k

/-- The columns in service of a core among some. -/
def State.inService (s : State) (c : Nat) (cols : List Nat) : List Nat := (s.serviceCols c).filter fun k => cols.contains k

/-- The sums S and T of the columns in service, by chunk position; an error in the physical columns `err` has changed S by one. -/
def passSums (lane : Nat → List (List (Int × Int))) (cols err : List Nat) : List (Nat × Nat × Nat) :=
  cols.mapIdx fun c p => (p, (footS (lane c) + if err.contains p then 1 else 0) % 7, footT (lane c))

/-- The columns whose sums differ (R102). -/
def differing (l : List (Nat × Nat × Nat)) : List Nat := (l.filter fun x => x.2.1 != x.2.2).map (·.1)

/-! ### Writing the grid -/

/-- The column segments of a pass, each within one column group: first column, columns. -/
def colSegs (c0 c1 : Nat) : List (Nat × Nat) :=
  (List.range (cdiv c1 64 - c0 / 64)).filterMap fun g =>
    let lo := max c0 (64 * (c0 / 64 + g))
    let hi := min c1 (64 * (c0 / 64 + g) + 64)
    if lo < hi then some (lo, hi - lo) else none

/-- Bytes of a grid's tiles that hold no accumulator (R50): address and length, each within one row segment. -/
def padding (o : MmaOp) : List (Nat × Nat) :=
  (gridTiles o.m o.n).flatMap fun t =>
    let m := tileRows o.m t.1
    let n := tileRows o.n t.2
    let b := o.kbase + tileOff o.m o.n t.1 t.2
    let g := 1024 * cdiv m 4
    ((List.range (cdiv n 64)).flatMap fun q => (List.range (4 * cdiv m 4 - m)).map fun i => (b + q * g + (m + i) * 256, 256)) ++
      (if n % 64 = 0 then [] else (List.range m).map fun i => (b + n / 64 * g + i * 256 + n % 64 * 4, 256 - n % 64 * 4))

/-- The padding of a grid becomes free values (R50); poisoned row segments stay as they are. -/
def State.freePadding (s : State) (c : Nat) (o : MmaOp) : State :=
  (padding o).foldl (fun (s : State) p =>
    if (s.core c).kaolin.poison.contains (p.1 / 256) then s
    else
      let r := s.freeBytes p.2
      r.1.modCore c fun x => { x with kaolin := { x.kaolin with cells := x.kaolin.cells.write p.1 r.2 } }) s

/-- Writes the accumulators of row `i` from column `j` on. Those of a whole row segment of the tile write the segment whole, with free
values in its padding, which clears a tag; fewer are a partial write, which a poisoned segment refuses (R50, R64, log 33). -/
def State.accWrite (s : State) (c : Nat) (o : MmaOp) (i j : Nat) (bs : List Byte) : State × Nat :=
  let a := gridAddr o.kbase o.m o.n i j
  let whole := j % 64 == 0 && (decide (256 ≤ bs.length) || j + bs.length / 4 == o.n) && (s.core c).kaolin.poison.contains (a / 256)
  let r := if whole then s.freeBytes (256 - bs.length) else (s, [])
  r.1.kaoWrite c a (bs ++ r.2)

/-- Little-endian bytes of accumulators. -/
def accBytes (l : List Word32) : List Byte := l.flatMap fun x => leBytes 4 x.toNat

/-- The words of a byte string. -/
def accWords (b : List Byte) (n : Nat) : List Word32 := (List.range n).map fun l => BitVec.ofNat 32 (fieldB b (4 * l) 4)

/-- Base of the core's save region in Loam (R59). -/
def State.saveBase (s : State) (c : Nat) : Nat := ((s.str.live.save c).map (·.base * 64)).getD 0

/-- Copies accumulator bytes into the save region at the same Kaolin address (R103): 0, or the fault of the write (R64). -/
def State.copyOut (s : State) (c a : Nat) (bs : List Byte) : State × Nat := s.loamWrite (corePort c) (s.saveBase c + a) bs

/-- The starting accumulators of a segment (R81, R103): the state, the values, or a fault. -/
def State.accStart (s : State) (w : Who) (j : ArrJob) (k i c n : Nat) : State × Rd (List Word32) :=
  let o := j.op
  let core := w.core.val
  let kao (s : State) : State × Rd (List Byte) := s.kaoRead core (gridAddr o.kbase o.m o.n i c) (4 * n)
  let lift (q : State × Rd (List Byte)) : State × Rd (List Word32) := (q.1, match q.2 with
    | .ok b => .ok (accWords b n)
    | .bad e => .bad e)
  if k ≠ 0 then lift (kao s)
  else if o.init = 0 then (s, .ok (List.replicate n 0))
  else if o.init = 2 then lift (s.itemRead w (o.loadAddr + i * o.loadPitch + 4 * c) (4 * n))
  else
    let q := kao s
    match q.2 with
    | .ok b =>
      let x := if j.retryPoint = .copy then q.1.copyOut core (gridAddr o.kbase o.m o.n i c) b else (q.1, 0)
      lift (x.1, if x.2 = 0 then .ok b else .bad x.2)
    | .bad e => (q.1, .bad e)

/-- Counts accumulator clamps and NaNs, and decode clamps, for an item (R73, R77, R84, R271). -/
def State.countArr (s : State) (w : Who) (sat nan : Nat) : State :=
  if sat = 0 ∧ nan = 0 then s
  else (s.modCtr fun c => { c with arrSat := stick48 c.arrSat sat, arrNan := stick48 c.arrNan nan }).modRec w fun r =>
    { r with arrSat := stick48 r.arrSat sat, arrNan := stick48 r.arrNan nan }

/-- Sets a row segment: starting values, then its contributions; answers clamps and NaNs counted, or a fault. -/
def State.accSegment (s : State) (w : Who) (j : ArrJob) (k i : Nat) (p : Nat × Nat) (cs : Nat → List Contrib) :
    State × Rd Nat :=
  let o := j.op
  let q := s.accStart w j k i p.1 p.2
  match q.2 with
  | .bad e => (q.1, .bad e)
  | .ok old =>
    let r := old.mapIdx fun l a => accumAll o.int32 a (cs (p.1 + l))
    let x := q.1.accWrite w.core.val o i p.1 (accBytes (r.map (·.1)))
    (x.1, if x.2 = 0 then .ok (r.map (·.2)).sum else .bad x.2)

/-- The two operands of a job. -/
def ArrJob.feedA (j : ArrJob) (d : FmtD) : Feed :=
  ⟨j.op.aAddr, j.op.aPitch, d, j.op.aFmt, j.op.aWidth, j.op.len, j.aPro, if j.op.abatch then some j.rows else none⟩
def ArrJob.feedB (j : ArrJob) (d : FmtD) : Feed := ⟨j.op.bAddr, j.op.bPitch, d, j.op.bFmt, j.op.bWidth, j.op.len, j.bPro, none⟩

/-- The vector counts of an item are as they were: a prologue that runs again counts nothing (R127, R275). -/
def State.keepVec (s old : State) (w : Who) : State :=
  let r := (old.item w).record
  { s with ctr := { s.ctr with vecSat := old.ctr.vecSat, vecNan := old.ctr.vecNan } }.modRec w fun x => { x with vecSat := r.vecSat, vecNan := r.vecNan }

/-- Rows that a pass reads of an operand, A where `isA`: which rows, at which reduction positions (R90, R91, R106). -/
def ArrJob.span (j : ArrJob) (x : Pass) (isA : Bool) : (Nat × Nat) × (Nat × Nat) :=
  let o := j.op
  let r1 := if o.abatch then min x.r1 j.rows.length else x.r1
  (if isA || o.emul then (x.r0, r1) else (x.c0, x.c1), if o.emul then (0, o.n) else (256 * x.k, min o.k (256 * x.k + 256)))

/-- Feeds an operand of a pass: its decoded rows, or the fault that its reads meet. Its prologue's counts are made where `count` says
so and the pass is the first that decodes these elements (R73, R127, R275). -/
def State.feedPass (s : State) (j : ArrJob) (x : Pass) (isA count : Bool) : State × Rd (List (List DecBlk)) :=
  match j.op.aD, j.op.bD with
  | some ad, some bd =>
    let p := j.span x isA
    let q := s.feed j.who (if isA then j.feedA ad else j.feedB bd) (blockSize ad bd) x.k p.1.1 p.1.2 p.2.1 p.2.2
    (if count && (if isA then x.firstA else x.firstB) then q.1 else q.1.keepVec s j.who, q.2)
  | _, _ => (s, .ok [])

/-- What a pass (or a pass pair) adds, given the decoded rows of A and B: the state, or the fault its starting values or its writes
meet. -/
def State.addPass (s : State) (j : ArrJob) (x : Pass) (count : Bool) (a b : List (List DecBlk)) : State × Rd Unit :=
  let o := j.op
  let w := j.who
  match o.aD, o.bD with
  | some ad, some bd =>
    let pb := blockSize ad bd
    let p := j.span x true
    let dec := if count then (if x.firstA then feedSat a else 0) + (if x.firstB then feedSat b else 0) else 0
    let work := (List.range (p.1.2 - p.1.1)).flatMap fun i => (colSegs x.c0 x.c1).map fun p => (i, p)
    let r := work.foldl (fun (acc : State × Rd Nat) t =>
      match acc.2 with
      | .bad e => (acc.1, .bad e)
      | .ok n =>
        let cs := fun c => if o.emul then ((emulContribs (a.getD t.1 []) (b.getD t.1 [])).drop c).take 1
          else contribs pb (a.getD t.1 []) (b.getD (c - x.c0) [])
        let q := acc.1.accSegment w j x.k (x.r0 + t.1) t.2 cs
        (q.1, match q.2 with
          | .ok m => .ok (n + m)
          | .bad e => .bad e)) (s, .ok 0)
    match r.2 with
    | .bad e => (r.1, .bad e)
    | .ok n =>
      let acc := if count then n else 0
      (r.1.countArr w (dec + if o.int32 then acc else 0) (if o.int32 then 0 else acc), .ok ())
  | _, _ => (s, .ok ())

/-! ### The stationary registers (R88) -/

/-- The pass whose stationary load serves pass `n`: both passes of a pair hold halves of one sub-tile (R69, log 8). -/
def ArrJob.loadPass (j : ArrJob) (n : Nat) : Nat := if 9 ≤ j.op.sw then n / 2 * 2 else n

/-- Stationary registers hold the sub-tile of pass `n` of a job. -/
def StatReg.holds (r : StatReg) (j : ArrJob) (n : Nat) : Bool := r.job == j.no && r.pass == j.loadPass n

/-- The sub-tile of a pass is read, and decoded, through the core's Loam port or from a VB; its prologue counts where this is its first
load. -/
def State.statLoad (s : State) (j : ArrJob) (n : Nat) : State × Rd StatReg :=
  match (j.op.passes j.width)[j.loadPass n]? with
  | none => (s, .ok ⟨j.no, j.loadPass n, []⟩)
  | some x =>
    let q := s.feedPass j x j.op.statA (decide (j.loaded ≤ j.loadPass n))
    (q.1, match q.2 with
      | .ok rows => .ok ⟨j.no, j.loadPass n, rows⟩
      | .bad e => .bad e)

/-- The stationary rows of a running pass: those of the front registers. ARR.EMUL loads each chunk of its first operand during the
pass (R106). -/
def State.statRows (s : State) (j : ArrJob) (x : Pass) (count : Bool) : State × Rd (List (List DecBlk)) :=
  match (s.core j.who.core.val).front with
  | some r => if r.holds j j.next && !j.op.emul then (s, .ok r.rows) else s.feedPass j x j.op.statA count
  | none => s.feedPass j x j.op.statA count

/-- The decoded rows of A and B of a pass: the stationary ones from the front registers, the streamed ones fed (R87, R127). -/
def State.passRows (s : State) (j : ArrJob) (x : Pass) (count : Bool) : State × Rd (List (List DecBlk) × List (List DecBlk)) :=
  let st := s.statRows j x (count && !x.low)
  match st.2 with
  | .bad e => (st.1, .bad e)
  | .ok f =>
    let sm := st.1.feedPass j x (!j.op.statA) (count && !x.low)
    (sm.1, match sm.2 with
      | .bad e => .bad e
      | .ok g => .ok (if j.op.statA then (f, g) else (g, f)))

/-! ### Bubbles (R43, R87, R88, R93, R94, R106, R127) -/

/-- The sectors of row `i` of an operand that reduction positions `k0` to `k1 - 1` touch; none where it lies in a VB. -/
def Feed.sectors (f : Feed) (i k0 k1 : Nat) : List Nat :=
  if f.vb then [] else
    let p := f.d.spans f.len k0 k1
    (sectorsOf (f.row i + p.1.1) p.1.2 ++ sectorsOf (f.row i + p.2.1) p.2.2).foldl setInsert []

/-- Cycles of a prologue on `n` elements: 64 a cycle (R127). -/
def Feed.proCycles (f : Feed) (n : Nat) : Nat := if f.pro.isEmpty then 0 else cdiv n 64

/-- The operand that a pass streams, or its stationary one. -/
def ArrJob.feedOf (j : ArrJob) (isA : Bool) : Option Feed :=
  match j.op.aD, j.op.bD with
  | some ad, some bd => some (if isA then j.feedA ad else j.feedB bd)
  | _, _ => none

/-- t_load of the sub-tile of pass `n`, with no other port contending (R88, R127). -/
def ArrJob.tLoad (j : ArrJob) (n : Nat) : Nat :=
  match (j.op.passes j.width)[j.loadPass n]?, j.feedOf j.op.statA with
  | some x, some f =>
    let p := j.span x j.op.statA
    let l := ((List.range (p.1.2 - p.1.1)).flatMap fun i => f.sectors (p.1.1 + i) p.2.1 p.2.2).foldl setInsert []
    max (loadCycles l) (f.proCycles ((p.1.2 - p.1.1) * (p.2.2 - p.2.1)))
  | _, _ => 0

/-- Rows that pass `n` streams (R91, R106). -/
def ArrJob.streamLen (j : ArrJob) (n : Nat) : Nat :=
  match (j.op.passes j.width)[n]? with
  | some x =>
    let p := j.span x (!j.op.statA)
    (p.1.2 - p.1.1) * (if j.op.emul then cdiv j.op.n j.width else 1)
  | none => 0

/-- Whole row slots of `a` cycles that cover `n` cycles. -/
def slots (a n : Nat) : Nat := cdiv n a * a

/-- The bubbles of a pass of ARR.EMUL, by reason (R106): for each chunk of W elements, bank conflicts of either operand's sectors (0) and
a prologue of the streamed operand slower than the pass (1); and what the load of each first-operand chunk but the first takes beyond
the chunk before it for its prologue (2). -/
def ArrJob.emulBubbles (j : ArrJob) (held streamed : Feed) : List (Nat × Nat) :=
  let a := j.op.aw
  let cs := (List.range j.op.m).flatMap fun i => (List.range (cdiv j.op.n j.width)).map fun q => (i, chunkOf j.op.n j.width q)
  let port (f : Feed) (c : Nat × Nat × Nat) : Nat := loadCycles (f.sectors c.1 c.2.1 c.2.2)
  let pro (f : Feed) (c : Nat × Nat × Nat) : Nat := f.proCycles (c.2.2 - c.2.1)
  let late (n : Nat) : Nat := slots a (n - a)
  [(0, (cs.map fun c => late (port streamed c)).sum + ((cs.drop 1).map fun c => late (port held c)).sum),
   (1, (cs.map fun c => late (pro streamed c)).sum),
   (2, ((cs.drop 1).map fun c => late (pro held c) - late (port held c)).sum)]

/-- The bubble cycles of pass `n`, by reason: bank conflicts of its streamed rows (0), a streamed prologue slower than the pass (1), and
both corner-turn buffers full (5); those of ARR.EMUL chunk by chunk. -/
def ArrJob.passBubbles (j : ArrJob) (n : Nat) : List (Nat × Nat) :=
  match (j.op.passes j.width)[n]?, j.feedOf j.op.statA, j.feedOf (!j.op.statA) with
  | some x, some g, some f =>
    let a := j.op.aw
    let p := j.span x (!j.op.statA)
    let bank := ((List.range (p.1.2 - p.1.1)).map fun i => slots a (loadCycles (f.sectors (p.1.1 + i) p.2.1 p.2.2) - a)).sum
    let pro := (p.1.2 - p.1.1) * slots a (f.proCycles (p.2.2 - p.2.1) - a)
    let corner := if j.op.smode = 2 then (cdiv (j.streamLen n) 64 - 2) * slots a (x.r1 - x.r0 - 64 * a) else 0
    (if j.op.emul then j.emulBubbles g f else [(0, bank), (1, pro), (5, corner)]).filter fun b => b.2 != 0
  | _, _, _ => []

/-! ### Issue (R81 to R83, R98) -/

/-- Changes the first entry of a list that `p` picks. -/
def modFirst {α : Type} (p : α → Bool) (f : α → α) : List α → List α
  | [] => []
  | x :: l => if p x then f x :: l else x :: modFirst p f l

/-- Changes the first job of a core that `p` picks. -/
def State.modJob (s : State) (c : Nat) (p : ArrJob → Bool) (f : ArrJob → ArrJob) : State :=
  s.modCore c fun x => { x with jobs := modFirst p f x.jobs }

/-- Matrix instructions that are complete leave the array (R151). -/
def State.dropDone (s : State) (c : Nat) : State :=
  s.modCore c fun x => { x with jobs := x.jobs.filter fun j =>
    !(j.passes ≤ j.next && j.tilesLeft == 0 && !j.running && !j.restart && j.retryAt.isNone) }

/-- The retry point of an instruction (R103). -/
def State.retryPointOf (s : State) (w : Who) (init : Nat) : RetryPoint :=
  if init = 0 then .zero else if init = 2 then .load
  else if (s.core w.core.val).saved.isSome then .nowhere else .copy

/-- K = 0 (R84): the starting values are set at once; KEEP changes nothing. -/
def State.initGrid (s : State) (j : ArrJob) : State × Rd Nat :=
  if j.op.init = 1 then (s, .ok 0)
  else
    let rows := if j.op.abatch then min j.op.m j.rows.length else j.op.m
    ((List.range rows).flatMap fun i => (colSegs 0 j.op.n).map fun p => (i, p)).foldl
      (fun (acc : State × Rd Nat) t => match acc.2 with
        | .bad e => (acc.1, .bad e)
        | .ok _ => acc.1.accSegment j.who j 0 t.1 t.2 fun _ => []) (s, .ok 0)

/-- A job may run a pass: passes are left, no retry restart is due, no earlier instruction of its item clashes with it, and its
command is not being pre-empted unless a retry has to end (R52, R53, R103, R108, R128). -/
def State.passReady (s : State) (c : Nat) (j : ArrJob) : Bool :=
  let x := s.core c
  decide (j.next < j.passes) && !j.restart && (s.ctx j.who).item.abort.isNone &&
  (isHdl j.who || x.cmd.phase == .running || j.retryAt.isSome) &&
  (((x.jobs.takeWhile (· != j)).filter fun k => k.who == j.who && k.itemNo == j.itemNo).all fun k =>
    decide (k.passes ≤ k.next) && !k.restart && !k.foot.clash j.foot)

/-- The job that runs the next pass: the handler context's first (R89), also between the low and the high pass of a pair, which R91 calls
back to back (DESIGN CHOICE, log 81). -/
def State.nextJob (s : State) (c : Nat) : Option ArrJob :=
  let l := (s.core c).jobs.filter (s.passReady c)
  match l.find? fun j => isHdl j.who with
  | some j => some j
  | none => l.head?

/-- The job whose pass follows the next pass of job `j`, as things stand (R88, R89). -/
def State.jobAfter (s : State) (c : Nat) (j : ArrJob) : Option ArrJob :=
  (s.modJob c (· == j) fun j => { j with next := j.next + 1 }).nextJob c

/-- A pass of job `k` streams long enough to hide the stationary load of the next pass of job `j` behind it (R88). -/
def ArrJob.hides (k j : ArrJob) : Bool := decide (j.tLoad j.next ≤ k.streamLen k.next * k.op.aw)

/-- What a matrix instruction reads of its stationary operand. -/
def ArrJob.statFoot (j : ArrJob) : Foot :=
  let o := j.op
  let pro := if o.statA then j.aPro else j.bPro
  let rows := if o.statA then o.m else o.bRows
  (if o.statA then operandFoot o.aAddr rows o.aPitch else operandFoot o.bAddr rows o.bPitch).join
    (if pro.isEmpty then {} else (decodeChain pro).foot rows o.len o.kc none)

/-- How much of the first stationary load of a matrix instruction that has joined the jobs has run: all of it where the pass that runs
hides it, else what ran while the instruction waited to issue (R88). -/
def State.loadBehind (s : State) (j : ArrJob) : Nat :=
  let c := j.who.core.val
  match (s.core c).jobs.find? (·.running) with
  | some k => if (s.jobAfter c k).any (·.no == j.no) && k.hides j then j.tLoad j.next else (s.item j.who).loadRun
  | none => (s.item j.who).loadRun

/-- Issues a matrix instruction (R81 to R84, R98, R151): checked in the order of R83 and R125; it waits for earlier instructions of
its item and for its batch; then it is among the core's jobs. -/
def issueMma (w : Who) (len : Nat) (o : MmaOp) (s : State) : Option State :=
  let e := s.mmaFault w o
  if e ≠ 0 then some (s.raise w e o.kbase)
  else
    let q := s.mmaChains w o
    match q.2 with
    | .bad e => some (q.1.raise w e o.epi)
    | .ok (eb, ab, bb) =>
      let s := q.1
      let width := s.str.live.width s.id.edgeLog2 w.core.val
      let np := (o.passes width).length
      let tiles := (gridTiles o.m o.n).length
      let epi := !eb.isEmpty
      let j : ArrJob := { who := w, itemNo := (s.item w).no, op := o, width := width, passes := np, off := (s.item w).off, epi := eb, aPro := ab, bPro := bb
                          retryPoint := s.retryPointOf w o.init, tilesLeft := if epi then tiles else 0 }
      if s.mustWait w { j.foot with kr := [], kw := [] } then none
      else if np = 0 ∧ !(s.itemJobs w).isEmpty then none
      else
        match (if o.abatch then (s.bqOf o.aAddr).shipped.head? else some []) with
        | none => some (s.blockThrough w 6)
        | some rows =>
          let j := { j with rows := rows, no := (s.core w.core.val).jobNo }
          let join (j : ArrJob) (x : Core) : Core := { x with jobs := x.jobs ++ [j], jobNo := x.jobNo + 1 }
          if np = 0 then
            let g := s.initGrid j
            match g.2 with
            | .bad e => some (g.1.raise w e o.kbase)
            | .ok _ =>
              let j := { j with tiles := if epi then List.range tiles else [] }
              some ((((g.1.freePadding w.core.val o).modCore w.core.val (join j)).dropDone w.core.val).advance w len)
          else
            let t := s.modCore w.core.val (join j)
            let n := t.loadBehind j
            some ((s.modCore w.core.val (join { j with loadRun := n })).advance w len)

/-! ### Passes (R87, R89, R101 to R104, R108) -/

/-- A job one of whose sub-tiles has been loaded (R127, R275). -/
def ArrJob.loadedBy (j : ArrJob) (r : StatReg) : ArrJob := { j with loaded := max j.loaded (r.pass + if 9 ≤ j.op.sw then 2 else 1) }

/-- Stationary registers that hold the sub-tile of a job's next pass. -/
def ArrJob.heldIn (j : ArrJob) : Option StatReg → Bool
  | some r => r.holds j j.next
  | none => false

/-- The back registers are loaded with the sub-tile of pass `n` of a job; a read that fails is its item's fault. -/
def State.loadBack (s : State) (c : Nat) (j : ArrJob) (n : Nat) : State :=
  let q := s.statLoad j n
  match q.2 with
  | .bad e => q.1.raise j.who e j.op.kbase
  | .ok r => (q.1.modCore c fun x => { x with back := some r }).modJob c (·.no == j.no) (·.loadedBy r)

/-- The job whose sub-tile is to be loaded behind the pass of job `j` that begins: the registers do not hold it, and the pass streams long
enough to hide the load (R88). -/
def State.behind (s : State) (c : Nat) (j : ArrJob) : Option ArrJob :=
  match s.jobAfter c j with
  | none => none
  | some k => if k.op.emul || k.heldIn (s.core c).front || k.heldIn (s.core c).back || !j.hides k then none else some k

/-- The load for the pass behind the one that begins. -/
def State.preload (s : State) (c : Nat) (j : ArrJob) : State :=
  match s.behind c j with
  | none => s
  | some k => s.loadBack c k k.next

/-- The cycles that the load of a job's next sub-tile adds before its pass: of the first, what has not run before it (R88). -/
def ArrJob.lateLoad (j : ArrJob) : Nat := j.tLoad j.next - if j.next = 0 then j.loadRun else 0

/-- A pass of job `j`, which is `k` from now on, begins with these registers: loads of other instructions that were under way are
discarded (R89). -/
def State.beginPass (s : State) (c : Nat) (j k : ArrJob) (front back : Option StatReg) : State :=
  s.modCore c fun x => { x with
    jobs := (modFirst (· == j) (fun _ => k) x.jobs).map fun i => if i.no = k.no then i else { i with loadRun := 0 }
    front := front, back := back, ramp := 4 }

/-- The next pass, of job `j`, begins, its sub-tile in the front registers, read now where the registers do not hold it (R87, R88): the
state, and the job as it runs or the fault of the load. -/
def State.passBegun (s : State) (c : Nat) (j : ArrJob) : State × Rd ArrJob :=
  let x := s.core c
  let run (k : ArrJob) (late : List (Nat × Nat)) : ArrJob := { k with running := true, bubbles := late ++ j.passBubbles j.next }
  if j.op.emul then (s.beginPass c j (run j []) none none, .ok (run j []))
  else if j.heldIn x.front then (s.beginPass c j (run j []) x.front x.back, .ok (run j []))
  else if j.heldIn x.back then (s.beginPass c j (run j []) x.back none, .ok (run j []))
  else
    let q := s.statLoad j j.next
    match q.2 with
    | .bad e => (q.1, .bad e)
    | .ok r =>
      let k := run (j.loadedBy r) [(2, j.lateLoad)]
      (q.1.beginPass c j k (some r) none, .ok k)

/-- PASS_START (R87, R88, R89, R101): at a pass boundary the next pass begins; the columns are brought into activity; and the next sub-tile
is loaded behind it. What a load reads, the model reads where the pass begins that it serves or that hides it; the load's time runs from
where R88 places it (log 8). -/
def passStartStep (c : Nat) (s : State) : Option State :=
  if (s.core c).jobs.any (·.running) then none
  else match s.nextJob c with
    | none => none
    | some j =>
      let q := s.passBegun c j
      match q.2 with
      | .bad e => some (q.1.raise j.who e j.op.kbase)
      | .ok k => some (q.1.preload c k)

/-- Restores the accumulators to the retry point (R103): 0, or the fault that a read of the save region or a write of Kaolin meets (R63,
R64). Under ZERO and LOAD the passes set them anew; a copy or a saved state is read back from the save region. -/
def State.restoreGrid (s : State) (c : Nat) (j : ArrJob) : State × Nat :=
  let o := j.op
  let region : List (Nat × Nat × Nat × Nat) :=
    if j.retryPoint = .copy then ((o.passes j.width).take j.next).filterMap fun p =>
      if p.k = 0 ∧ !p.low then some (p.r0, p.r1, p.c0, p.c1) else none
    else if j.retryPoint = .saved then [(0, o.m, 0, o.n)] else []
  let rows (r1 : Nat) : Nat := if o.abatch then min r1 j.rows.length else r1
  (region.flatMap fun b => (List.range (rows b.2.1 - b.1)).flatMap fun i => (colSegs b.2.2.1 b.2.2.2).map fun p => (b.1 + i, p)).foldl
    (fun (acc : State × Nat) t =>
      let a := gridAddr o.kbase o.m o.n t.1 t.2.1
      let q := acc.1.loamRead (corePort c) (acc.1.saveBase c + a) (4 * t.2.2)
      match q.2 with
      | .bad e => (q.1, worstFault acc.2 e)
      | .ok bs =>
        let r := q.1.kaoWrite c a bs
        (r.1, worstFault acc.2 r.2)) (s, 0)

/-- Columns that mismatched again: suspect, counted in their bins (R104, R268). -/
def State.suspect (s : State) (c : Nat) (cols : List Nat) : State :=
  cols.foldl (fun (s : State) k => (s.bin (0x0100 + 256 * c + k) 1).modCore c fun x => { x with suspect := setInsert x.suspect k }) s

/-- Mismatches that did not recur (R103). -/
def State.countRetry (s : State) (w : Who) (n : Nat) : State :=
  if n = 0 then s
  else (s.modCtr fun c => { c with arrRetry := stick48 c.arrRetry n }).modRec w fun r => { r with retry := stick48 r.retry n }

/-- A pass ends with columns that mismatch (R103, R104): the retry, or, where it is a repeated mismatch, ARR_RESIDUE for each column. A
re-run that mismatches before it reaches the pass of the first mismatch counts no retry (DESIGN CHOICE, log 81). -/
def State.mismatch (s : State) (c : Nat) (j : ArrJob) (cols : List Nat) : State :=
  if j.retryPoint = .nowhere ∨ j.retryAt.isSome then
    let s := if j.retryAt = some j.next then s.countRetry j.who (j.bad.filter fun k => !cols.contains k).length else s
    cols.foldl (fun t k => t.raise j.who 0x0403 k) (s.suspect c cols)
  else
    let q := s.restoreGrid c j
    if q.2 ≠ 0 then q.1.raise j.who q.2 (s.saveBase c)
    else (q.1.modJob c (fun k => k.running) fun k => { k with running := false, restart := true, retryAt := some k.next, bad := cols }).modCore c
      fun x => { x with front := none, back := none }

/-- The residue sums of a pass over decoded rows of A and B, with an error in the physical columns `err` (R102). -/
def State.residues (s : State) (c : Nat) (j : ArrJob) (x : Pass) (err : List Nat) (a b : List (List DecBlk)) : List (Nat × Nat × Nat) :=
  let pb := match j.op.aD, j.op.bD with
    | some ad, some bd => blockSize ad bd
    | _, _ => 32
  passSums (x.lane j.op pb j.width a b) (s.serviceCols c) err

/-- The sums S and T are held by chunk position. -/
def State.holdSums (s : State) (c : Nat) (l : List (Nat × Nat × Nat)) : State :=
  s.modCore c fun x => { x with sumS := l.map (·.2.1), sumT := l.map (·.2.2) }

/-- A pass is complete: the instruction stands at its next pass, and tiles that the pass completes await their epilogue. -/
def State.passDone (s : State) (c : Nat) (j : ArrJob) : State :=
  let fresh := decide (j.top ≤ j.next)
  let done := if fresh ∧ !j.epi.isEmpty then tilesDone j.op j.width j.next else []
  let ends := j.retryAt == some j.next
  let t := if ends then s.countRetry j.who j.bad.length else s
  let t := if fresh ∧ j.next = (if 9 ≤ j.op.sw then 1 else 0) then t.freePadding c j.op else t
  (t.modJob c (fun k => k.running) fun k =>
    { k with running := false, next := k.next + 1, top := max k.top (k.next + 1), tiles := k.tiles ++ done, bubbles := []
             retryAt := if ends then none else k.retryAt, bad := if ends then [] else k.bad }).dropDone c

/-- PASS_END (R87 step 7, R102): the streamed rows have met the front registers; the sums S and T of each column in service are
compared, an error having changed S in the columns `err`; and the accumulators of the pass are in Kaolin. -/
def passEndStep (c : Nat) (err : List Nat) (s : State) : Option State :=
  match (s.core c).jobs.find? (·.running) with
  | none => none
  | some j =>
    match (j.op.passes j.width)[j.next]? with
    | none => none
    | some x =>
      let fresh := decide (j.top ≤ j.next)
      let q := s.passRows j x fresh
      match q.2 with
      | .bad e => some (q.1.raise j.who e j.op.kbase)
      | .ok ab =>
        let sums := q.1.residues c j x err ab.1 ab.2
        let t := q.1.holdSums c sums
        let cols := differing sums
        if !cols.isEmpty then some (t.mismatch c j cols)
        else
          let r := if x.low then (t, Rd.ok ()) else t.addPass j x fresh ab.1 ab.2
          match r.2 with
          | .bad e => some (r.1.raise j.who e j.op.kbase)
          | .ok _ => some (r.1.passDone c j)

/-- RETRY_RESTART (R103 step 2): the passes run again from the retry point. -/
def retryStep (c : Nat) (s : State) : Option State :=
  if (s.core c).jobs.any fun j => j.restart then
    some (s.modJob c (·.restart) fun j => { j with restart := false, next := j.base })
  else none

/-- ARRAY_RAMP_DOWN (R101): with no pass running and none ready, one column group leaves activity. -/
def rampStep (c : Nat) (s : State) : Option State :=
  if (s.core c).jobs.any (·.running) ∨ (s.nextJob c).isSome ∨ (s.core c).ramp = 0 then none
  else some (s.modCore c fun x => { x with ramp := x.ramp - 1 })

/-- The cycles that bank conflicts add to the epilogue of tile `p` (R43). -/
def ArrJob.epiBank (j : ArrJob) (p : Nat × Nat) : Nat :=
  let c := decodeChain j.epi
  match sfmtOf c.sfmt with
  | some sf => c.bankCycles sf j.op.n (fun _ _ _ => []) (256 * p.1, min j.op.m (256 * p.1 + 256), 256 * p.2, min j.op.n (256 * p.2 + 256))
  | none => 0

/-- EPILOGUE_TILE (R126, R138): the oldest completed tile of the context's item; vector work of the handler that is ready goes first. -/
def epilogueStep (w : Who) (s : State) : Option State :=
  if (s.item w).abort.isSome then none else
  let c := w.core.val
  let x := s.core c
  let ready (j : ArrJob) : Bool := !j.tiles.isEmpty && j.retryAt.isNone && !j.restart
  let mine := x.jobs.find? fun j => j.who == w && ready j
  match mine with
  | none => none
  | some j =>
    if !isHdl w && (s.hdlVec w.core || x.cmd.phase != .running) then none
    else
      match j.tiles with
      | [] => none
      | t :: ts =>
        let p := (gridTiles j.op.m j.op.n).getD t (0, 0)
        let q := s.epilogue w j.op (decodeChain j.epi) p.1 p.2
        some (if q.2 then (((q.1.conflicts w (j.epiBank p)).modJob c (fun k => k.who == w && ready k))
            fun k => { k with tiles := ts, tilesLeft := k.tilesLeft - 1 }).dropDone c else q.1)

/-! ### The request batcher (R96, R97, R98) -/

/-- A filling buffer ships (R97). The arrive goes to the counter of ARR_BQ_NOTIFY also where the image allocates no such counter (DESIGN
CHOICE, log 81). -/
def State.ship (s : State) (q : Nat) : State :=
  let b := s.bqOf q
  let t := s.setBq q { b with shipped := b.shipped ++ [b.fill], fill := [], seq := b.seq + 1 }
  let t := t.emit 9 .single 0xFF 16 [q, b.fill.length, (b.seq + 1).toNat]
  (t.arriveSc b.notify 1 0xFF).unblock 6

/-- The shipped buffer that a push still joins: its deadline came in this same drone tick, where the push goes first (R97). One that is
full, or that a matrix instruction streams already, it does not join. -/
def State.joinable (s : State) (q : Nat) : Option (List Nat) :=
  let b := s.bqOf q
  match b.shipped.getLast? with
  | none => none
  | some l =>
    let streamed := decide (b.shipped.length = 1) && (List.range 4).any fun c => (s.core c).jobs.any fun j => j.op.abatch && j.op.aAddr == q
    if b.shipTick = some s.ticks ∧ b.fill.isEmpty ∧ l.length < b.capM1 + 1 ∧ !streamed then some l else none

/-- ARR.BQPUSH (R96, R97, R153). -/
def batchPush (w : Who) (len q row ret : Nat) (s : State) : Option State :=
  let b := s.bqOf q
  let e := if ret = 0xFFFFFFFF then 0
    else if ret % 8 ≠ 0 then 0x0404
    else if !b.en then 0x0404
    else s.itemFault w true ret 8
  if e ≠ 0 then some (s.raise w e ret)
  else if !b.en then some (s.raise w 0x0404 q)
  else if !(s.itemJobs w).isEmpty then none
  else
    let join := s.joinable q
    if 2 ≤ b.shipped.length ∧ join.isNone then some (s.blockThrough w 6)
    else
      let place := match join with
        | some l => (l.length, b.seq)
        | none => (b.fill.length, b.seq + 1)
      let word := leBytes 4 place.1 ++ leBytes 4 place.2.toNat
      let r := if ret = 0xFFFFFFFF then (s, 0) else (s.noteWrote w ret 8).loamWrite (corePort w.core.val) ret word
      if r.2 ≠ 0 then some (r.1.raise w r.2 ret)
      else match join with
        | some l => some ((r.1.setBq q { b with shipped := b.shipped.dropLast ++ [l ++ [row]] }).advance w len)
        | none =>
          let t := r.1.setBq q { b with fill := b.fill ++ [row], openTick := if b.fill.isEmpty then s.ticks else b.openTick }
          some ((if b.capM1 + 1 ≤ b.fill.length + 1 then t.ship q else t).advance w len)

/-- ARR.BQRELEASE (R98): after the item's earlier matrix instructions. -/
def batchRelease (w : Who) (len q : Nat) (s : State) : Option State :=
  let b := s.bqOf q
  if b.shipped.isEmpty then some (s.raise w 0x0404 q)
  else if !(s.itemJobs w).isEmpty then none
  else some (((s.setBq q { b with shipped := b.shipped.drop 1 }).unblock 6).advance w len)

/-- BQ_DEADLINE_SHIP (R97): a batch that is open for its deadline ships. -/
def deadlineShip (q : Nat) (s : State) : Option State :=
  let b := s.bqOf q
  if b.fill.isEmpty ∨ s.ticks < b.openTick + b.deadline * 10 then none
  else
    let t := s.ship q
    some (t.setBq q { t.bqOf q with shipTick := some s.ticks })

end Sys2Proof.Machine
end

