-- ==== Sys2Proof/Machine/Dma.lean ====
section
/-! DEFINITION. Machine/Dma.lean: the DMA engine (10): descriptor checks (R214), how a transfer walks its rows (R213, R215, R216),
beats and priority (R218), completion (R219, R220), stops (R221) and disabling a channel (R222). A channel has one source read
outstanding, and a transpose works through its 64 × 64 blocks down each 64 columns (log 14). -/

namespace Sys2Proof.Machine

/-! ### Geometry -/

/-- Formats a descriptor converts from and to (R216). -/
def dmaSrcFmt (v : Nat) : Option FmtD :=
  match fmtD v with
  | some d => if d.fmt == .int 1 then none else some d
  | none => none
def dmaDstFmt (v : Nat) : Option FmtD :=
  match fmtD v with
  | some d => if d.fmt.isInt then none else some d
  | none => none

/-- Elements of a source row: C of R215, or KELEM. -/
def Desc.cols (d : Desc) : Nat := d.xlen / d.esize

/-- Bytes of a destination row. -/
def Desc.dstRow (d : Desc) : Nat :=
  match d.mode with
  | 0 => d.xlen
  | 1 => d.ycnt * d.esize
  | 2 => ((dmaDstFmt d.dfmt).map fun f => f.rowBytes d.kelem).getD 0
  | _ => ((dmaDstFmt d.dfmt).map fun f => f.rowBytes d.ycnt).getD 0

/-- Destination rows of a plane. -/
def Desc.dstRows (d : Desc) : Nat := if d.mode = 0 ∨ d.mode = 2 then d.ycnt else d.cols

/-- Strips of 64 source columns in a plane, each worked through block by block of 64 × 64 elements (R215). -/
def Desc.strips (d : Desc) : Nat := d.cols / 64

/-- The descriptor works by destination rows: a copy or a conversion. -/
def Desc.byRows (d : Desc) : Bool := d.mode == 0 || d.mode == 2

/-- Number of transfer units: destination rows, or strips of 64 columns, of all planes. -/
def Desc.units (d : Desc) : Nat := d.zcnt * (if d.byRows then d.dstRows else d.strips)

/-- Address of destination row `u`, counted through all planes. -/
def Desc.dstAt (d : Desc) (u : Nat) : Nat := d.dst + u / d.dstRows * d.dstZ + u % d.dstRows * d.dstY

/-- Cuts a byte range at sector boundaries: (address, length). -/
def cutSectors : Nat → Nat → Nat → List (Nat × Nat)
  | 0, _, _ => []
  | fuel + 1, a, n =>
    if n = 0 then [] else
      let k := min n (64 - a % 64)
      (a, k) :: cutSectors fuel (a + k) (n - k)

/-- The sector pieces of a byte range. -/
def piecesOf (a n : Nat) : List (Nat × Nat) := cutSectors (n / 64 + 2) a n

/-- Elements of a row whose codes lie in byte `o` of a row of `n` elements, or that its exponent byte scales; whole blocks where the
format has them (R63). -/
def FmtD.drawn (d : FmtD) (n o : Nat) : List Nat :=
  let k := d.fmt.bits
  let lo := if o < d.codeBytes n then 8 * o / k else (o - d.codeBytes n) * d.blk
  let hi := if o < d.codeBytes n then (8 * o + 7) / k else lo + d.blk - 1
  let lo' := if d.fmt.hasExp then lo / d.blk * d.blk else lo
  let hi' := if d.fmt.hasExp then hi / d.blk * d.blk + d.blk - 1 else hi
  (List.range (min (hi' + 1) n - lo')).map fun i => lo' + i

/-- The last source row that byte `o` of a transposed row draws on (R215, R216). -/
def Desc.lastRow (d : Desc) (o : Nat) : Nat :=
  if d.mode = 1 then o / d.esize
  else match dmaDstFmt d.dfmt with
    | some f => (f.drawn d.ycnt o).getLastD 0
    | none => 0

/-- The block of a strip after which bytes `o` to `o + n - 1` of a transposed row are complete; their last element code and their
last byte come last. -/
def Desc.doneBlock (d : Desc) (o n : Nat) : Nat :=
  let codes := match dmaDstFmt d.dfmt with
    | some f => if d.mode = 1 then o + n else f.codeBytes d.ycnt
    | none => o + n
  max (d.lastRow (o + n - 1)) (if o < codes ∧ codes < o + n then d.lastRow (codes - 1) else 0) / 64

/-- The destination sectors of a strip in the order in which they are written: block by block, the sectors of its 64 rows that the
block completes; row in the strip, offset in the row, length and block. -/
def Desc.stripPieces (d : Desc) : List (Nat × Nat × Nat × Nat) :=
  (List.range (d.ycnt / 64)).flatMap fun b => (List.range 64).flatMap fun r =>
    (piecesOf 0 d.dstRow).filterMap fun p => if d.doneBlock p.1 p.2 = b then some (r, p.1, p.2, b) else none

/-- The first element of a row of `n` elements that bytes `o` to `o + k - 1` hold or scale, and the last that they draw on (R63, R71). -/
def FmtD.firstOf (d : FmtD) (n o k : Nat) : Nat :=
  let c := d.codeBytes n
  min (n - 1) (if o < c then (if c < o + k then 0 else 8 * o / d.fmt.bits) else (o - c) * d.blk)
def FmtD.lastOf (d : FmtD) (n o k : Nat) : Nat :=
  let c := d.codeBytes n
  max ((d.drawn n (o + k - 1)).getLastD (n - 1)) (if o < c ∧ c < o + k then (d.drawn n (c - 1)).getLastD (n - 1) else 0)

/-- Merges two lists that a key orders. -/
def mergeBy (key : Nat × Nat → Nat) : Nat → List (Nat × Nat) → List (Nat × Nat) → List (Nat × Nat)
  | 0, a, b => a ++ b
  | _ + 1, [], b => b
  | _ + 1, a, [] => a
  | k + 1, x :: a, y :: b => if key x ≤ key y then x :: mergeBy key k a (y :: b) else y :: mergeBy key k (x :: a) b

/-- The pieces of a row of `n` elements that lies at `base`, as offset and length: those of codes alone, those of exponents alone, and
the one that holds the end of the codes and the first exponents. -/
def FmtD.rowParts (d : FmtD) (n base : Nat) : List (Nat × Nat) × List (Nat × Nat) × List (Nat × Nat) :=
  let c := d.codeBytes n
  let ps := (piecesOf base (d.rowBytes n)).map fun p => (p.1 - base, p.2)
  (ps.filter fun p => decide (p.1 + p.2 ≤ c), ps.filter fun p => decide (c ≤ p.1),
    ps.filter fun p => decide (p.1 < c ∧ c < p.1 + p.2))

/-- The pieces of a source row in the order of the elements that they begin with, and of a destination row in the order in which their
elements are complete (R216, R218). -/
def FmtD.srcOrder (d : FmtD) (n base : Nat) : List (Nat × Nat) :=
  let q := d.rowParts n base
  q.2.2 ++ mergeBy (fun p => d.firstOf n p.1 p.2) (q.1.length + q.2.1.length) q.1 q.2.1
def FmtD.dstOrder (d : FmtD) (n base : Nat) : List (Nat × Nat) :=
  let q := d.rowParts n base
  mergeBy (fun p => d.lastOf n p.1 p.2) (q.1.length + q.2.1.length) q.1 q.2.1 ++ q.2.2

/-- Address of the source row of unit `u` of a copy or a conversion. -/
def Desc.srcAt (d : Desc) (u : Nat) : Nat := d.src + u / d.dstRows * d.srcZ + u % d.dstRows * d.srcY

/-- The destination pieces of unit `u`, in the order in which they are written. -/
def Desc.dstPieces (d : Desc) (u : Nat) : List (Nat × Nat) :=
  if d.mode = 2 then
    match dmaDstFmt d.dfmt with
    | some f => (f.dstOrder d.kelem (d.dstAt u)).map fun p => (d.dstAt u + p.1, p.2)
    | none => []
  else if d.mode = 0 then piecesOf (d.dstAt u) d.dstRow
  else d.stripPieces.map fun p =>
    (d.dst + u / d.strips * d.dstZ + (u % d.strips * 64 + p.1) * d.dstY + p.2.1, p.2.2.1)

/-- The source pieces of unit `u`, in the order in which they are read: a row, or 64 columns of a plane. -/
def Desc.srcPieces (d : Desc) (u : Nat) : List (Nat × Nat) :=
  if d.mode = 2 then
    match dmaSrcFmt d.sfmt with
    | some f => (f.srcOrder d.kelem (d.srcAt u)).map fun p => (d.srcAt u + p.1, p.2)
    | none => []
  else if d.mode = 0 then piecesOf (d.srcAt u) d.xlen
  else (List.range d.ycnt).flatMap fun y =>
    piecesOf (d.src + u / d.strips * d.srcZ + y * d.srcY + u % d.strips * 64 * d.esize) (64 * d.esize)

/-- The source pieces that a destination piece of a converted row needs: those that begin no later than the last element it draws on. -/
def Desc.convNeed (d : Desc) (u : Nat) (p : Nat × Nat) : List (Nat × Nat) :=
  match dmaSrcFmt d.sfmt, dmaDstFmt d.dfmt with
  | some sf, some df =>
    let last := df.lastOf d.kelem (p.1 - d.dstAt u) p.2
    (d.srcPieces u).takeWhile fun q => decide (sf.firstOf d.kelem (q.1 - d.srcAt u) q.2 ≤ last)
  | _, _ => []

/-- The source pieces that the next destination piece needs: its own in a copy, those of its elements in a conversion, in a transpose
those of the strip down to its block (R215, R216). -/
def DescRun.need (r : DescRun) : List (Nat × Nat) :=
  let d := r.desc
  if d.mode = 0 then
    match (d.dstPieces r.step)[r.wr]? with
    | some (a, n) => piecesOf (d.srcAt r.step + (a - d.dstAt r.step)) n
    | none => []
  else if d.mode = 2 then
    match (d.dstPieces r.step)[r.wr]? with
    | some p => d.convNeed r.step p
    | none => []
  else match d.stripPieces[r.wr]? with
    | some p => (d.srcPieces r.step).take ((p.2.2.2 + 1) * 64 * d.esize)
    | none => []

/-- Address of the next destination piece, which a stop by DMA_TO records. -/
def DescRun.nextDst (r : DescRun) : Nat := (((r.desc.dstPieces r.step)[r.wr]?).map (·.1)).getD r.desc.dst

/-- The source sector that the descriptor read last in its row, or is reading (R218). -/
def DescRun.front (r : DescRun) : Option Nat :=
  if r.waiting.isSome then (r.need[r.rd]?).map fun p => p.1 / 64 else r.kept.map (·.1)

/-- Every source read of the descriptor has been issued, answered or not (R212). -/
def DescRun.readsDone (r : DescRun) : Bool :=
  let src := r.desc.srcPieces r.step
  r.stopped || decide (r.desc.units ≤ r.step) ||
    (decide (r.step + 1 = r.desc.units) &&
      (if r.desc.mode = 0 then r.front.isSome && r.front == src.getLast?.map fun p => p.1 / 64
       else decide (src.length ≤ r.rd + (if r.waiting.isSome then 1 else 0))))

/-! ### Checks (R214, R216) -/

/-- Lowest and highest source byte, and destination byte. -/
def Desc.srcSpan (d : Desc) : Nat × Nat := (d.src, d.src + (d.zcnt - 1) * d.srcZ + (d.ycnt - 1) * d.srcY + d.xlen - 1)
def Desc.dstSpan (d : Desc) : Nat × Nat := (d.dst, d.dst + (d.zcnt - 1) * d.dstZ + (d.dstRows - 1) * d.dstY + d.dstRow - 1)

/-- Step 1 of R214. -/
def Desc.fieldsOk (d : Desc) : Bool :=
  decide (d.src < 2 ^ 48 ∧ d.dst < 2 ^ 48) && bits d.ctrl 15 12 == 0 && bits d.sig 63 51 == 0 && bits d.ctrl 3 2 != 3 &&
  decide (1 ≤ d.xlen ∧ d.xlen ≤ 16777216 ∧ 1 ≤ d.ycnt ∧ 1 ≤ d.zcnt) && (d.kelem == 0 || d.mode == 2) &&
  (decide (2 ≤ d.mode) || (d.sfmt == 0 && d.dfmt == 0))

/-- Step 2 of R214. -/
def Desc.transposeOk (d : Desc) : Bool :=
  d.mode % 2 == 0 || (d.src % 64 == 0 && d.dst % 64 == 0 && d.srcY % 64 == 0 && d.srcZ % 64 == 0 && d.dstY % 64 == 0 &&
    d.dstZ % 64 == 0 && d.xlen % (64 * d.esize) == 0 && d.ycnt % 64 == 0)

/-- Step 3 of R214: the constraints of R216. -/
def Desc.convertOk (d : Desc) : Bool :=
  decide (d.mode < 2) ||
  (match dmaSrcFmt d.sfmt, dmaDstFmt d.dfmt with
   | some f, some _ =>
     (if d.mode = 2 then d.xlen == f.rowBytes d.kelem
      else !f.fmt.hasExp && !f.fmt.isInt && f.fmt.bits == 8 * d.esize) &&
     d.dstY % 8 == 0 && decide (d.dstRow ≤ d.dstY)
   | _, _ => false)

/-- A range from lowest to highest byte meets a cluster register block (R14, step 4). -/
def spanInRegs (x : Nat × Nat) : Bool := decide (x.1 < Config.regBase + 2 ^ 28 ∧ Config.regBase ≤ x.2)

/-- Step 5 of R214 for one side: 0, LOAM_WINDOW or LOAM_PERM. -/
def spanFault (s : State) (acc : Access) (x : Nat × Nat) : Nat :=
  if x.2 < Config.stackEnd then 0
  else match placeOf s.id x.1, placeOf s.id x.2 with
    | .own a, .own b => accessFault s.str.live acc a (b + 1 - a)
    | .other c _, .other e _ => if c = e then 0 else 0x0301
    | _, _ => 0x0301

/-- A counter of this cluster that a descriptor may name: allocated, not of core scope (step 6). -/
def State.dmaScOk (s : State) (en : Bool) (clu sc : Nat) : Bool :=
  !en || clu != pkgIndex s.id || (match s.str.live.sync sc with
    | some r => r.scope != 0
    | none => false)

/-- A DMA channel. -/
def State.chan (s : State) (ch : Nat) : Channel := tabGet {} s.dma.ch ch
/-- Replaces a DMA channel. -/
def State.setChan (s : State) (ch : Nat) (c : Channel) : State := { s with dma := { s.dma with ch := tabSet s.dma.ch ch c } }

/-- R214: the fault of a descriptor, 0 where it passes. -/
def descFault (s : State) (core ch : Nat) (d : Desc) : Nat :=
  if !d.fieldsOk ∨ !d.transposeOk ∨ !d.convertOk then 0x0A01
  else if spanInRegs d.srcSpan ∨ spanInRegs d.dstSpan then 0x0A01
  else
    let f := spanFault s (.dmaRead core) d.srcSpan
    let g := spanFault s (.dmaWrite core) d.dstSpan
    if f ≠ 0 then f else if g ≠ 0 then g
    else if !s.dmaScOk d.bcEn d.bcClu d.bcSc ∨ !s.dmaScOk d.plEn d.plClu d.plSc then 0x0901
    else if !(s.chan ch).en then 0x0A02
    else 0

/-! ### Queues (R211, R212, R220) -/

/-- Notes that the head of a channel waits armed, in the order in which heads are reached (R220). -/
def State.noteHead (s : State) (ch : Nat) : State :=
  match (s.chan ch).queue with
  | r :: _ => if r.desc.armed ∧ !s.dma.armed.contains ch then { s with dma := { s.dma with armed := s.dma.armed ++ [ch] } } else s
  | [] => s

/-- Accepts a descriptor into its channel's queue; none when the 8 places are held (R211). -/
def State.acceptDesc (s : State) (w : Who) (ch : Nat) (d : Desc) : Option State :=
  let c := s.chan ch
  if 8 ≤ c.queue.length then none
  else
    let r : DescRun := { no := s.dma.nextNo, desc := d, who := w, itemNo := (s.item w).no }
    let t := { s with dma := { s.dma with nextNo := s.dma.nextNo + 1 } }
    some (((t.setChan ch { c with queue := c.queue ++ [r] }).noteHead ch).emit 3 .accept (whoByte w) 32 [ch, d.src, d.dst])

/-- Pending count of an event line. -/
def State.ev (s : State) (n : Nat) : Nat := tabGet 0 s.dma.ev n

/-- A pulse on an event line (R220). -/
def State.pulse (s : State) (n : Nat) : State :=
  let t := if s.ev n = 255 then s.modCtr fun c => { c with evLost := stick48 c.evLost 1 }
    else { s with dma := { s.dma with ev := tabSet s.dma.ev n (s.ev n + 1) } }
  t.emit 4 .single 0xFF 16 [n]

/-- DESCRIPTOR_START (R212, R220). DMA_TO runs on from when the descriptor reached the head of its channel (R257). -/
def descStart (ch : Nat) (s : State) : Option State :=
  let c := s.chan ch
  match c.queue with
  | [] => none
  | r :: rest =>
    let line := r.desc.evIn
    let mayRun := c.en && (match c.run.getLast? with
      | some p => p.readsDone
      | none => true)
    let turn := !r.desc.armed || (decide (0 < s.ev line) &&
      (s.dma.armed.find? fun k => ((s.chan k).queue.head?.map fun q => q.desc.evIn) == some line) == some ch)
    if !mayRun ∨ !turn then none
    else
      let t := s.setChan ch { c with queue := rest, run := c.run ++ [r], doneFree := none }
      let t := if r.desc.armed then { t with dma := { t.dma with ev := tabSet t.dma.ev line (s.ev line - 1), armed := setErase t.dma.armed ch } }
        else t
      some (((t.noteHead ch).unblock 13).emit 3 .start (whoByte r.who) 32 [ch, r.desc.src, r.desc.dst])

/-! ### Stops (R221) -/

/-- The channel that holds descriptor `no` among its running ones. -/
def State.chanOf (s : State) (no : Nat) : Option Nat :=
  (List.range 32).find? fun ch => (s.chan ch).run.any fun r => r.no == no

/-- Changes a running descriptor. -/
def State.modDesc (s : State) (ch no : Nat) (f : DescRun → DescRun) : State :=
  let c := s.chan ch
  s.setChan ch { c with run := c.run.map fun r => if r.no = no then f r else r }

/-- Records the fault and the address of a stopped descriptor in DMA_ERR_INFO and DMA_ERR_ADDR (R221). -/
def Dma.noteErr (d : Dma) (ch fault addr : Nat) : Dma :=
  if d.errValid then { d with errMore := true }
  else { d with errValid := true, errMore := false, errCh := ch, errFault := fault, errAddr := addr }

/-- What the stop of a descriptor leaves outside it: its channel's FAULT, DMA_ERR_INFO, and the fault, which aborts the issuing item if
it still runs (R221). -/
def State.noteStop (s : State) (ch : Nat) (who : Who) (itemNo fault addr : Nat) : State :=
  let t := s.setChan ch { s.chan ch with fault := fault }
  ({ t with dma := t.dma.noteErr ch fault addr }.raiseFor itemNo who fault addr).emit 3 .stop (whoByte who) 32 [ch, fault, addr]

/-- Stops a descriptor with a fault and an address in its sector, of which the sector's address is recorded (R221): it issues no further write and gives no pulse; the issuing
item is aborted if it still runs, else the fault is logged. A copy of the watch path ends with WATCH_DUMP in the log (R283). -/
def State.stopDesc (s : State) (ch no fault where_ : Nat) : State :=
  let addr := where_ - where_ % 64
  if ch = 32 then
    (match (s.chan ch).run.find? (·.no == no) with
     | none => s.logOnly 0x0D01 addr
     | some r => if r.stopped then s else { s with dma := s.dma.stopWatch r.itemNo }.logOnly 0x0D01 addr)
  else match (s.chan ch).run.find? (·.no == no) with
  | none => s.logOnly fault addr
  | some r =>
    if r.stopped then s.logFault fault r.who.core.val (isHdl r.who) false addr
    else
      (s.modDesc ch no fun r => { r with stopped := true, waiting := none, buf := [], kept := none }).noteStop ch r.who r.itemNo fault addr

/-- A byte count or pulse fails: its descriptor stops, or, where it has left its channel, what a stop leaves is left all the same (R197,
R221, R264). -/
def State.countFails (s : State) (ch no : Nat) (who : Who) (itemNo fault addr : Nat) : State :=
  if (s.chan ch).run.any fun r => r.no == no then s.stopDesc ch no fault addr
  else s.noteStop ch who itemNo fault (addr - addr % 64)

/-- The first poison that a descriptor meets is logged and borne by no item (R63, R64); an uncorrectable error always is (R61). A sector
whose error poisons it counts as the first poison (DESIGN CHOICE, log 84). -/
def State.dmaPoison (s : State) (ch no fault addr : Nat) : State :=
  match (s.chan ch).run.find? (·.no == no) with
  | some r =>
    if r.poisonSeen ∧ fault ≠ 0x0308 then s
    else (s.modDesc ch no fun r => { r with poisonSeen := true }).logFault fault r.who.core.val (isHdl r.who) false addr
  | none => s

/-! ### Beats (R218) -/

/-- Source bytes that element `i` of a row of `n` elements draws on: its code and its block's exponent (R63). -/
def FmtD.srcOfElem (d : FmtD) (n i : Nat) : List Nat :=
  let k := d.fmt.bits
  ((List.range ((i * k + k - 1) / 8 - i * k / 8 + 1)).map fun j => i * k / 8 + j) ++
    (if d.fmt.hasExp then [d.codeBytes n + i / d.blk] else [])

/-- The destination row of a converted unit: bytes, and for each byte whether it draws on poison (R63, R216). -/
def convertRow (sf df : FmtD) (n : Nat) (buf : List (Option Byte)) : List (Byte × Bool) :=
  let row := buf.map fun b => b.getD 0
  let bad := (List.range n).map fun i => (sf.srcOfElem n i).any fun o => (buf.getD o (some 0)).isNone
  let out := df.encRow (sf.readFp row n)
  out.mapIdx fun o b => (b, (df.drawn n o).any fun i => bad.getD i false)

/-- Column `c` of the strip in the buffer, as far as its rows have been read. -/
def DescRun.column (r : DescRun) (c : Nat) : List (Option Byte) :=
  (List.range r.desc.ycnt).flatMap fun y => (List.range r.desc.esize).map fun b =>
    r.buf.getD ((y * 64 + c) * r.desc.esize + b) (some 0)

/-- A row of `n` elements converted, each byte with its poison. -/
def Desc.converted (d : Desc) (n : Nat) (buf : List (Option Byte)) : List (Byte × Bool) :=
  match dmaSrcFmt d.sfmt, dmaDstFmt d.dfmt with
  | some sf, some df => convertRow sf df n buf
  | _, _ => []

/-- Bytes of the destination piece that is next, at `o` of length `n` in its row, and whether it is poisoned. -/
def DescRun.pieceData (r : DescRun) (o n : Nat) : List Byte × Bool :=
  let d := r.desc
  let plain (l : List (Option Byte)) : List (Byte × Bool) := l.map fun b => (b.getD 0, b.isNone)
  let row : List (Byte × Bool) :=
    if d.mode = 0 then plain r.buf
    else if d.mode = 2 then (d.converted d.kelem r.buf).drop o
    else match d.stripPieces[r.wr]? with
      | some p => (if d.mode = 1 then plain (r.column p.1) else d.converted d.ycnt (r.column p.1)).drop p.2.1
      | none => []
  let p := row.take n
  (p.map (·.1), p.any (·.2))

/-- Bytes of a source sector in the buffer: of a converted row at their place in the row, else behind those read before. -/
def DescRun.place (r : DescRun) (a : Nat) (bs : List (Option Byte)) : List (Option Byte) :=
  if r.desc.mode = 2 then
    let o := a - r.desc.srcAt r.step
    let row := r.buf ++ List.replicate (o - r.buf.length) (some 0)
    row.take o ++ bs ++ row.drop (o + bs.length)
  else r.buf ++ bs

/-- Takes `n` bytes at `o` of a source sector into a running descriptor's buffer; the sector stays at hand (R218). -/
def DescRun.got (r : DescRun) (sector : Nat) (bs : List (Option Byte)) (o n : Nat) : DescRun :=
  { r with buf := r.place (64 * sector + o) ((bs.drop o).take n), rd := r.rd + 1, waiting := none, kept := some (sector, bs), ticks := 0 }

/-- What the next destination piece needs of the sector at hand is taken without reading it again (R218). -/
def DescRun.fromKept (r : DescRun) : DescRun :=
  match r.need[r.rd]?, r.kept with
  | some (a, n), some (k, bs) => if r.desc.mode = 0 ∧ a / 64 = k then r.got k bs (a % 64) n else r
  | _, _ => r

/-- The next beat of a running descriptor is a source read. -/
def DescRun.wantsRead (r : DescRun) : Bool := decide (r.rd < r.need.length)

/-- A running descriptor can take a beat now (R218, R224). -/
def State.descReady (s : State) (r : DescRun) : Bool :=
  !r.stopped && decide (r.step < r.desc.units) && r.waiting.isNone &&
    (match placeOf s.id (if r.wantsRead then r.desc.src else r.desc.dst) with
     | .own _ => true
     | _ => s.txnRoom)

/-- Another read may go as latency-critical: at most 1,024 are outstanding (R227). -/
def State.criticalRoom (s : State) : Bool :=
  decide ((s.port.txns.filter fun t => match t.kind with
    | .dmaRead _ _ _ _ true _ => true
    | _ => false).length < 1024)

/-- A source read beat of one piece: its sector is read, the bytes of it that the port buffer holds with it (R63, R185, R201, R218,
R227). -/
def State.readBeat (s : State) (ch : Nat) (r : DescRun) (a n : Nat) : State :=
  let take (bs : List (Option Byte)) (x : DescRun) : DescRun := x.got (a / 64) bs (a % 64) n
  match placeOf s.id a with
  | .own l =>
    let q := s.loamRead 5 (l / 64 * 64) 64
    (match q.2 with
     | .ok bs => q.1.modDesc ch r.no (take (bs.map some))
     | .bad f => (q.1.modDesc ch r.no (take (List.replicate 64 none))).dmaPoison ch r.no f a)
  | _ =>
    if s.port.covers (a / 64) then s.modDesc ch r.no (take ((s.port.forward (a / 64) []).map some))
    else
      let crit := r.desc.latcrit && s.criticalRoom
      let q := s.newTxn a (.dmaRead ch r.no (a % 64) n crit (s.port.holding (a / 64)))
      (q.1.modDesc ch r.no fun x => { x with waiting := some q.2, ticks := 0 }).send (.memRead q.2 (a / 64 * 64) crit)

/-- After a destination piece of `k` pieces is issued: the next piece, or the next unit. -/
def DescRun.wrote (r : DescRun) (k : Nat) : DescRun :=
  let r := { r with inFlight := r.inFlight + 1, ticks := 0 }
  if k ≤ r.wr + 1 then { r with step := r.step + 1, wr := 0, rd := 0, buf := [], kept := none }
  else if r.desc.mode = 0 then { r with wr := r.wr + 1, rd := 0, buf := [] }.fromKept else { r with wr := r.wr + 1 }

/-- An addition to a counter that a descriptor names: here at once, elsewhere as a request (R197, R219). A damaged counter refuses it
(R265). -/
def State.countTo (s : State) (ch : Nat) (r : DescRun) (addr clu sc : Nat) (k : AddKind) : State :=
  if clu = pkgIndex s.id then
    if s.scBad sc then s.countFails ch r.no r.who r.itemNo 0x0C0A addr
    else s.addSc sc (match k with
      | .bytes n => n
      | .pulse => 1)
  else s.oweAdd (.count ch r.no r.who r.itemNo) addr clu sc k

/-- A destination sector of a descriptor is performed with `n` bytes at `addr`: the byte count is added (R197). -/
def State.performed (s : State) (ch no n addr : Nat) : State :=
  match (s.chan ch).run.find? (·.no == no) with
  | none => s
  | some r =>
    let t := s.modDesc ch no fun x => { x with inFlight := x.inFlight - 1, done := x.done + n }
    if r.desc.bcEn then t.countTo ch r addr r.desc.bcClu r.desc.bcSc (.bytes (BitVec.ofNat 32 n)) else t

/-- A descriptor wrote Loam of this cluster for an item that has not ended: it runs, is saved, or settles beside another (R57). -/
def State.noteDma (s : State) (r : DescRun) (l n : Nat) : State :=
  let x := s.core r.who.core.val
  if (s.item r.who).no = r.itemNo then s.noteWrote r.who l n
  else if x.saved.any (fun p => p.1.no == r.itemNo) || x.dying.any (fun i => i.no == r.itemNo) then s.noteAside r.who.core.val r.itemNo l n
  else s

/-- Byte `x` of the destination lies also in a source row, or in two destination rows (R213). -/
def Desc.overlapped (d : Desc) (x : Nat) : Bool :=
  let inRow (a n : Nat) : Bool := decide (a ≤ x ∧ x < a + n)
  let rows := (List.range (d.zcnt * d.dstRows)).filter fun u => inRow (d.dstAt u) d.dstRow
  decide (2 ≤ rows.length) || (List.range d.zcnt).any fun z => (List.range d.ycnt).any fun y =>
    inRow (d.src + z * d.srcZ + y * d.srcY) d.xlen

/-- Rows of the descriptor may overlap: its spans meet, or a stride is shorter than what it strides over. -/
def Desc.mayOverlap (d : Desc) : Bool :=
  decide (d.srcSpan.1 ≤ d.dstSpan.2 ∧ d.dstSpan.1 ≤ d.srcSpan.2) || (decide (1 < d.dstRows) && decide (d.dstY < d.dstRow)) ||
  (decide (1 < d.zcnt) && decide (d.dstZ < (d.dstRows - 1) * d.dstY + d.dstRow))

/-- The bytes written from `a`, the overlapped ones free (R213). -/
def State.freeOverlap (s : State) (d : Desc) (a : Nat) (bs : List Byte) : State × List Byte :=
  if !d.mayOverlap then (s, bs)
  else
    let q := s.freeBytes bs.length
    (q.1, bs.mapIdx fun i b => if d.overlapped (a + i) then q.2.getD i 0 else b)

/-- A destination write beat of one piece. -/
def State.writeBeat (s : State) (ch : Nat) (r : DescRun) : State :=
  let ps := r.desc.dstPieces r.step
  match ps[r.wr]? with
  | none => s.modDesc ch r.no fun x => { x with step := x.step + 1, wr := 0, rd := 0, buf := [] }
  | some (a, n) =>
    let raw := r.pieceData (a - r.desc.dstAt r.step) n
    let o := s.freeOverlap r.desc a raw.1
    let p := (o.2, raw.2)
    let t := o.1.modDesc ch r.no fun x => x.wrote ps.length
    match placeOf s.id a with
    | .own l =>
      if ch = 32 then
        if p.2 then (t.poisonSectors [l / 64]).performed ch r.no n a
        else
          let q := t.loamWrite 5 l p.1
          (if q.2 = 0 then q.1 else q.1.dmaPoison ch r.no q.2 a).performed ch r.no n a
      else t.setChan ch { t.chan ch with writes := (t.chan ch).writes ++ [⟨r.no, l, p.1, p.2⟩] }
    | _ =>
      let q := t.newTxn a (.dmaWrite ch r.no n)
      if p.2 then q.1.send (.memPoison q.2 (a / 64 * 64) 64)
      else q.1.send (.memWrite q.2 (a / 64 * 64) (p.1.mapIdx fun i b => (a % 64 + i, b)))

/-- Priority of a channel; the watch path, channel 32 here, has priority 0 (R218, R283). -/
def State.chanPrio (s : State) (ch : Nat) : Nat := s.str.live.dmaPrio.getD ch 0

/-- A channel can take a beat. -/
def State.chanReady (s : State) (ch : Nat) : Bool := (s.chan ch).en && (s.chan ch).run.any s.descReady

/-- The channel that wins the next beat: of the ready ones of the highest priority, the next after the one of that priority served last
(R218). -/
def State.beatChannel (s : State) : Option Nat :=
  let ready := (List.range 33).filter s.chanReady
  let top := (ready.map s.chanPrio).foldl max 0
  let last := tabGet 32 s.dma.last top
  ((List.range 33).map fun i => (last + 1 + i) % 33).find? fun ch => s.chanReady ch && s.chanPrio ch == top

/-- DMA_BEAT (R218): one sector moves. -/
def dmaBeatStep (s : State) : Option State :=
  match s.beatChannel with
  | none => none
  | some ch =>
    match (s.chan ch).run.find? s.descReady with
    | none => none
    | some r =>
      let u := unitCount 4096 s.ctr.dmaBeats s.ctr.dmaSub 1
      let t := { s with dma := { s.dma with last := tabSet s.dma.last (s.chanPrio ch) ch }, ctr := { s.ctr with dmaBeats := u.1, dmaSub := u.2 } }
      let t := t.work 3 r.itemNo
      match r.need[r.rd]? with
      | some (a, n) => some (t.readBeat ch r a n)
      | none => some (t.writeBeat ch r)

/-! ### Completion (R197, R219) -/

/-- SECTOR_PERFORMED (R45, R63, R64, R197): the oldest issued write of a channel to the own Loam is performed and counted. -/
def sectorDone (ch : Nat) (s : State) : Option State :=
  let c := s.chan ch
  match c.writes with
  | [] => none
  | x :: rest =>
    let wh := ownAddr s.id x.addr
    let t := s.setChan ch { c with writes := rest }
    let t := match c.run.find? (·.no == x.desc) with
      | some r => t.noteDma r x.addr x.bytes.length
      | none => t
    if x.poison then some ((t.poisonSectors [x.addr / 64]).performed ch x.desc x.bytes.length wh)
    else
      let q := t.loamWrite 5 x.addr x.bytes
      let t := if q.2 = 0 then q.1 else q.1.dmaPoison ch x.desc q.2 wh
      some (t.performed ch x.desc x.bytes.length wh)

/-- DESCRIPTOR_COMPLETE (R219): every destination sector is performed; the pulse and the event follow. A stopped descriptor leaves
without either (R221). -/
def descDone (ch : Nat) (s : State) : Option State :=
  let c := s.chan ch
  match c.run.find? fun r => r.inFlight == 0 && (r.stopped || decide (r.desc.units ≤ r.step)) with
  | none => none
  | some r =>
    let t := s.setChan ch { c with run := c.run.filter (·.no != r.no) }
    if r.stopped then some t
    else
      let t := if r.desc.plEn then t.countTo ch r r.desc.dst r.desc.plClu r.desc.plSc .pulse else t
      let t := if r.desc.evEn then t.pulse r.desc.evOut else t
      some (t.emit 3 .perform (whoByte r.who) 32 [ch, r.done])

/-! ### Responses and refusals -/

/-- Data or poison for a source piece (R63, R221, R224). -/
def State.dmaData (s : State) (ch no id a off n : Nat) (laid : Tab Byte) (resp : MemResp) : State :=
  match (s.chan ch).run.find? fun r => r.no == no && r.waiting == some id with
  | none => s
  | some _ =>
    match resp with
    | .data bs =>
      let d := s.port.forward (a / 64) (laidOver bs laid)
      s.modDesc ch no fun x => { x.got (a / 64) (d.map some) off n with ticks := x.ticks }
    | _ => (s.modDesc ch no fun x => { x.got (a / 64) (List.replicate 64 none) off n with ticks := x.ticks }).dmaPoison ch no 0x030A a

/-- Acknowledgement of a destination piece outside the own Loam (R64, R207, R219). -/
def State.dmaAck (s : State) (ch no n a : Nat) (resp : MemResp) : State :=
  let t := match resp with
    | .poisonRefused => s.dmaPoison ch no 0x030A a
    | _ => s
  t.performed ch no n a

/-- A refused write is not performed: it is no longer in flight, and the descriptor stops (R221). -/
def State.dmaWriteRefused (s : State) (ch no fault addr : Nat) : State :=
  (s.modDesc ch no fun x => { x with inFlight := x.inFlight - 1 }).stopDesc ch no fault addr

/-- The write of a dump header fails: its dump ends with WATCH_DUMP (R283). -/
def State.headerFails (s : State) (id addr : Nat) : State :=
  let mark (d : Dump) : Dump := if d.header = some id then { d with fault := 0x0D01 } else d
  allWho.foldl (fun (t : State) w => t.modItem w fun i => { i with dump := i.dump.map mark }) (s.logOnly 0x0D01 addr)

/-! ### Disable (R222) -/

/-- Loam bytes of a range become free values; poison is left as it is. -/
def State.freeLoam (s : State) (a n : Nat) : State :=
  let r := s.freeBytes n
  { r.1 with loam := { r.1.loam with cells := r.1.loam.cells.write a r.2 } }

/-- A counter becomes a free value (R11). -/
def State.freeSc (s : State) (n : Nat) : State :=
  let r := s.freeWord
  r.1.setSc n r.2

/-- What a dropped descriptor could have written, each destination sector whole, and counted becomes undefined (R222). -/
def State.havocDesc (s : State) (r : DescRun) : State :=
  let d := r.desc
  let me := pkgIndex s.id
  let t := if d.bcEn ∧ d.bcClu = me then s.freeSc d.bcSc else s
  let t := if d.plEn ∧ d.plClu = me then t.freeSc d.plSc else t
  (List.range (d.zcnt * d.dstRows)).foldl (fun t u => (piecesOf (d.dstAt u) d.dstRow).foldl (fun (t : State) p =>
    match placeOf t.id p.1 with
    | .own a => t.freeLoam (a / 64 * 64) 64
    | _ => t) t) t

/-- Clearing EN (R222): the queue and the staging buffer are discarded. -/
def State.disableChan (s : State) (ch : Nat) : State :=
  let c := s.chan ch
  let t := (c.run ++ c.queue).foldl State.havocDesc s
  let t := { t.unblock 13 with free := t.free + 1, dma := { t.dma with armed := setErase t.dma.armed ch } }
  t.setChan ch { c with en := false, queue := [], run := [], writes := [], doneFree := some (t.free - 1) }

/-- DMA_CH_CTRL.EN. -/
def State.setChanEn (s : State) (ch : Nat) (en : Bool) : State :=
  if en then s.setChan ch { s.chan ch with en := true } else if (s.chan ch).en then s.disableChan ch else s

/-- A write of the channel is outstanding (DMA_CH_STATUS.QUIET is 0); one that DMA_TO abandoned counts as dropped (R222, R259). -/
def State.chanBusy (s : State) (ch : Nat) : Bool :=
  !(s.chan ch).writes.isEmpty || s.port.txns.any fun t => !t.abandoned && match t.kind with
    | .dmaWrite c _ _ => c == ch
    | _ => false

/-- Descriptors of an item that have not come to their end (R147 step 3). -/
def State.itemDma (s : State) (no : Nat) : Bool :=
  s.dma.ch.any fun c => (c.2.run ++ c.2.queue).any fun r => r.itemNo == no

end Sys2Proof.Machine
end

