-- ==== Sys2Proof/Machine/Sync.lean ====
section
/-! DEFINITION. Machine/Sync.lean: the SYN and ATM instructions (09, R187 to R205), answers and refusals of memory transactions
(R204, R206, R207, R221, R224), and counter writes from outside (R199). -/

namespace Sys2Proof.Machine

/-! ### SYN (R188 to R190, R193, R194) -/

/-- The checks of R189 on counter and scope: 0, or the fault. `fixed` is set for SYN.READ and SYN.SET, whose SCOPE must be 0. -/
def State.scFault (s : State) (core sc scope : Nat) (fixed : Bool) : Nat :=
  match s.str.live.sync sc with
  | none => 0x0901
  | some r =>
    if r.scope = 0 ∧ r.owner ≠ core then 0x0901
    else if scope = 3 ∨ (fixed ∧ scope ≠ 0) ∨ r.scope < scope then 0x0902 else 0

/-- SYN.ARRIVE at decode (R151, R189): it waits until the item's ARR and VEC work is complete, then it is pending. -/
def arriveIssue (w : Who) (sc scope : Nat) (v : Word32) (s : State) : Option State :=
  let e := s.scFault w.core.val sc scope false
  if e ≠ 0 then some (s.raise w e sc)
  else if !(s.itemJobs w).isEmpty then none
  else some ((s.modItem w fun i => { i with pend := .arrive sc scope v }).issues w)

/-- ARRIVE_TAKES_EFFECT (R187, R193): once its release conditions hold, the arrive adds to its counter. -/
def arriveEffect (w : Who) (s : State) : Option State :=
  if !(s.ctx w).canBear then none
  else match (s.item w).pend with
  | .arrive sc scope v =>
    if !s.released (s.item w).no scope then none
    else
      let t := s.modItem w fun i => { i with pend := .none, blocked := none, off := i.off + 16 }
      if s.scBad sc then some (t.raise w 0x0C0A sc) else some (t.arriveSc sc v (whoByte w))
  | _ => none

/-- The sync unit has found the pending wait of an item met: at its issue, or after an operation on its counter (R190). -/
def State.waitIsMet (s : State) (no sc : Nat) (target : Word32) : Bool := s.syn.met.contains no || waitMet (s.sc sc) target

/-- SYN.WAIT at decode: the item waits, and the wait is evaluated (R189, R190). -/
def waitIssue (w : Who) (sc scope : Nat) (target : Word32) (s : State) : Option State :=
  let e := s.scFault w.core.val sc scope false
  if e ≠ 0 then some (s.raise w e sc)
  else
    let no := (s.item w).no
    let met := s.syn.met.filter (· != no) ++ (if waitMet (s.sc sc) target then [no] else [])
    some (({ s with syn := { s.syn with met := met } }.modItem w fun i => { i with pend := .wait sc scope target, waitTicks := 0 }).issues w)

/-- WAIT_COMPLETE (R190, R194): a met wait completes; at cluster or package scope it invalidates the control core's cache. -/
def waitDone (w : Who) (s : State) : Option State :=
  if !(s.ctx w).canBear then none
  else match (s.item w).pend with
  | .wait sc scope target =>
    if s.scBad sc then some (s.raise w 0x0C0A sc)
    else if !s.waitIsMet (s.item w).no sc target then none
    else
      let t := { s with syn := { s.syn with met := s.syn.met.filter (· != (s.item w).no) } }.modItem w fun i => { i with pend := .none, blocked := none, waitTicks := 0, off := i.off + 16 }
      let t := if scope ≠ 0 ∧ w.core.val = 4 then t.dropCache else t
      some (t.emit 8 .wait (whoByte w) 32 [sc, (s.sc sc).toNat, scope])
  | _ => none

/-- SYN.READ (R188, R189, R301). -/
def syncRead (w : Who) (len sc scope a : Nat) (s : State) : Option State :=
  let e := if a % 4 ≠ 0 then 0x0702 else s.scFault w.core.val sc scope true
  let e := if e = 0 then s.itemFault w true a 4 else e
  if e ≠ 0 then some (s.raise w e a)
  else if s.scBad sc then some (s.raise w 0x0C0A sc)
  else
    let q := s.loamWrite (corePort w.core.val) a (leBytes 4 (s.sc sc).toNat)
    some (if q.2 = 0 then (q.1.noteWrote w a 4).advance w len else q.1.raise w q.2 a)

/-- Sets a counter; a damaged one is whole again (R187, R265). -/
def State.synSetSc (s : State) (n : Nat) (v : Word32) : State :=
  { s.setSc n v with damage := s.damage.filter (· != .counter n) }

/-- SYN.SET (R188, R189). -/
def syncSet (w : Who) (len sc scope : Nat) (v : Word32) (s : State) : Option State :=
  let e := s.scFault w.core.val sc scope true
  if e ≠ 0 then some (s.raise w e sc) else some ((s.synSetSc sc v).advance w len)

/-! ### ATM (R202 to R204) -/

/-- The instruction completes with its old word (R202). -/
def State.atomDone (s : State) (w : Who) (ret : Option Nat) (old : Nat) : State :=
  let t := s.modItem w fun i => { i with pend := .none, blocked := none, off := i.off + 32 }
  (match ret with
    | some a => t.noteWrote w a 8
    | none => t).atomReturn w ret old

/-- R203: 0, or the fault of the first check that fails. -/
def State.atomFault (s : State) (w : Who) (bad : Bool) (n ret addr : Nat) : Nat :=
  let inRegs := decide (Config.regBase ≤ addr ∧ addr < Config.regBase + 2 ^ 28)
  if bad ∨ addr % n ≠ 0 ∨ inRegs ∨ (ret ≠ 0xFFFFFFFF ∧ ret % 8 ≠ 0) then 0x0903
  else
    let e := match placeOf s.id addr with
      | .own a =>
        let r := s.itemFault w false a n
        let x := s.itemFault w true a n
        if r = 0x0301 ∨ x = 0x0301 then 0x0301 else if r ≠ 0 then r else x
      | .unmapped => 0x0301
      | _ => 0
    if e ≠ 0 then e else if ret = 0xFFFFFFFF then 0 else s.itemFault w true ret 8

/-- An atomic (R204): at the own bank; in the port buffer at core or cluster scope, which fetches the sector unless it holds it whole;
at the point of coherence at package scope. An access that goes to the point of coherence and a fetch of its sector wait for each other,
so that no fetched sector is older than what the cluster has written there. -/
def atomIssue (w : Who) (r : AtomReq) (bad : Bool) (scope ret addr : Nat) (s : State) : Option State :=
  let n := atomBytes r
  let e := s.atomFault w bad n ret addr
  let back : Option Nat := if ret = 0xFFFFFFFF then none else some ret
  let word : List (Nat × Nat) := match placeOf s.id addr with
    | .own a => [(a, n)]
    | _ => []
  if e ≠ 0 then some (s.raise w e addr)
  else if s.mustWait w { lw := word ++ (if ret = 0xFFFFFFFF then [] else [(ret, 8)]) } then none
  else match placeOf s.id addr with
    | .own a =>
      let q := s.loamAtomic (corePort w.core.val) a r
      (match q.2 with
       | .ok old => some (((q.1.noteWrote w a n).issues w).atomDone w back old)
       | .bad f => some (q.1.raise w f addr))
    | _ =>
      let no := (s.item w).no
      if scope = 2 then
        if s.port.pbuf.any (fun e => e.sector == addr / 64) || s.port.fetching (addr / 64) || !s.txnRoom then none
        else
          let q := s.newTxn addr (.atomic w no back r.w64)
          some (((q.1.send (.memAtomic q.2 addr r)).modItem w fun i => { i with pend := .memory q.2 }).issues w)
      else if s.port.holdsSector (addr / 64) then
        let q := s.pbufAtomicBy w addr r
        some ((q.1.issues w).atomDone w back q.2)
      else if s.port.draining (addr / 64) || s.port.directly (addr / 64) || ((s.port.entry (addr / 64)).isNone && decide (64 ≤ s.port.used)) || !s.txnRoom then none
      else
        let q := s.newTxn addr (.fetch w no (addr % 64) r back)
        some (((q.1.send (.memRead q.2 (addr / 64 * 64) false)).modItem w fun i => { i with pend := .memory q.2 }).issues w)

/-! ### Answers (R201, R204, R207, R219, R224, R259) -/

/-- The item that issued a transaction still waits for it. -/
def State.awaits (s : State) (w : Who) (no id : Nat) : Bool :=
  (s.item w).no == no && (s.item w).pend == .memory id && (s.ctx w).canBear

/-- Sets a scalar register; S0 stays zero (R154). -/
def Item.setReg (i : Item) (r : Nat) (v : Word64) : Item := if r = 0 then i else { i with sregs := tabSet i.sregs r v }

/-- An item that waited for the memory port goes on behind its instruction of `len` bytes. -/
def State.memDone (s : State) (w : Who) (len : Nat) : State :=
  s.modItem w fun i => { i with pend := .none, off := i.off + len }

/-- An answer to a transaction. A volatile store and a poison write that are performed leave no line of their sector, which another
context may have filled meanwhile (R185, R194, R208). -/
def State.answer (s : State) (t : Txn) (r : MemResp) : State :=
  match t.kind with
  | .load w no rd off len cache fill laid =>
    if !s.awaits w no t.id then s
    else match r with
      | .data bs =>
        let d := if cache then s.port.forward (t.addr / 64) (laidOver bs laid) else bs
        let s := if fill then s.fillLine (t.addr / 64) d else s
        (s.modItem w fun i => i.setReg rd (BitVec.ofNat 64 (leNat (sliceB d off len)))).memDone w 16
      | _ => s.raise w 0x030A t.addr
  | .store w no =>
    let u := s.dropLine (t.addr / 64)
    if !s.awaits w no t.id then u
    else match r with
      | .poisonRefused => u.raise w 0x030A t.addr
      | _ => u.memDone w 16
  | .drain =>
    (match r with
     | .poisonRefused => s.failDrain t.id 0x030A
     | _ => s.endDrain t.id)
  | .fetch w no off req ret =>
    (match r with
     | .data bs =>
       if !s.awaits w no t.id then s
       else
         let q := (s.pbufFill (t.addr / 64) bs).pbufAtomicBy w (t.addr / 64 * 64 + off) req
         q.1.atomDone w ret q.2
     | _ => if s.awaits w no t.id then s.raise w 0x030A t.addr else s)
  | .atomic w no ret w64 =>
    if !s.awaits w no t.id then s
    else match r with
      | .word old => (if w.core.val = 4 then s.dropLine (t.addr / 64) else s).atomDone w ret (if w64 then old.toNat else old.toNat % 2 ^ 32)
      | _ => s.raise w 0x030A t.addr
  | .reg w no rd =>
    if !s.awaits w no t.id then s
    else match r, rd with
      | .word v, some k => (s.modItem w fun i => i.setReg k v).memDone w 16
      | _, _ => s.memDone w 16
  | .dmaRead ch desc off len _ laid => s.dmaData ch desc t.id t.addr off len laid r
  | .dmaWrite ch desc n => s.dmaAck ch desc n t.addr r
  | .count _ _ _ _ => s
  | .poison _ _ => s.dropLine (t.addr / 64)

/-- The kind of answer suits the transaction: a sector read is answered by data or poison, a write by an acknowledgement or a
poison refusal, an atomic and a register load by a word. -/
def TxnKind.suits (k : TxnKind) (r : MemResp) : Bool :=
  match k, r with
  | .load .., .data _ | .load .., .poisoned => true
  | .fetch .., .data _ | .fetch .., .poisoned => true
  | .dmaRead .., .data _ | .dmaRead .., .poisoned => true
  | .store .., .ack | .store .., .poisonRefused => true
  | .drain, .ack | .drain, .poisonRefused => true
  | .dmaWrite .., .ack | .dmaWrite .., .poisonRefused => true
  | .atomic .., .word _ | .atomic .., .poisoned => true
  | .reg _ _ (some _), .word _ => true
  | .reg _ _ none, .ack => true
  | .count .., .ack => true
  | .poison .., .ack => true
  | _, _ => false

/-- MEMORY_RESPONSE: the answer of an abandoned transaction is discarded (R259). -/
def memAnswer (id : Nat) (r : MemResp) (s : State) : Option State :=
  match s.port.txns.find? (·.id == id) with
  | none => none
  | some t =>
    if !t.kind.suits r then none
    else some (if t.abandoned then (s.dropTxn id).endDrain id else (s.dropTxn id).answer t r)

/-- A transaction ends with a fault: a refusal, a failed link or a timeout (R48, R197, R199, R206, R221, R259, R264). -/
def State.txnFail (s : State) (t : Txn) (fault : Nat) : State :=
  match t.kind with
  | .store w no =>
    let u := s.dropLine (t.addr / 64)
    if s.awaits w no t.id then u.raise w fault t.addr else u.logFault fault w.core.val (isHdl w) false t.addr
  | .load w no .. | .fetch w no _ _ _ | .atomic w no _ _ | .reg w no _ =>
    if s.awaits w no t.id then s.raise w fault t.addr else s.logFault fault w.core.val (isHdl w) false t.addr
  | .drain => s.failDrain t.id fault
  | .dmaRead ch desc _ _ _ _ => s.stopDesc ch desc fault t.addr
  | .dmaWrite ch desc _ =>
    if ch = 32 ∧ desc = 0 then s.headerFails t.id t.addr else s.dmaWriteRefused ch desc fault t.addr
  | .count ch desc w no => s.countFails ch desc w no fault t.addr
  | .poison w no =>
    let s := s.logFault fault w.core.val (isHdl w) false t.addr
    if (s.item w).no = no then s.modRec w fun r => { r with fault := fault }
    else s.modCore w.core.val fun x => { x with dying := x.dying.map fun i =>
      if i.no = no then { i with record := { i.record with fault := fault } } else i }

/-- REMOTE_REFUSAL (R47, R48, R206, R266): the owning cluster refused; the issuing cluster raises the fault. -/
def remoteRefuse (id fault : Nat) (s : State) : Option State :=
  match s.port.txns.find? (·.id == id) with
  | none => none
  | some t => some (if t.abandoned then (s.dropTxn id).endDrain id else (s.dropTxn id).txnFail t fault)

/-! ### Counter writes from outside (R199) -/

/-- A SYN_ARRIVE write: 0, or SYN_UNALLOC where the counter is not allocated at package scope. -/
def State.synArriveFault (s : State) (sc : Nat) : Nat :=
  match s.str.live.sync sc with
  | some r => if r.scope = 2 then 0 else 0x0901
  | none => 0x0901

end Sys2Proof.Machine
end

