-- ==== Sys2Proof/Machine/Item.lean ====
section
/-! DEFINITION. Machine/Item.lean: items from queue to end (07): queues (R141), issue (R145, R54, R56), the command record (R271), end
(R146), abort (R147, R206), pre-emption (R157, R158, R59, R60), kill and flush (R159), and the SEQ instructions. -/

namespace Sys2Proof.Machine

/-! ### Queues (R141, R157) -/

/-- A request to pre-empt the running normal command of a compute core (R157); one that is still at steps 1 to 5 of R145 returns to
the front of its queue. -/
def State.requestPreempt (s : State) (c : Nat) : State :=
  let x := s.core c
  let i := x.cmd.item
  if 4 ≤ c ∨ x.saved.isSome ∨ i.urgent ∨ i.abort.isSome then s
  else match x.cmd.phase with
    | .running => s.modCore c fun x => { x with cmd := { x.cmd with phase := .preempting } }
    | .waitRange => s.modCore c fun x => { x with cmd := {}, nq := ⟨i.addr, i.sup, i.jobReq⟩ :: x.nq }
    | _ => s

/-- The queue has room: 16 normal commands, 4 urgent ones (R141). -/
def Core.roomFor (x : Core) (urgent : Bool) : Bool :=
  if urgent then decide (x.uq.length < 4) else decide (x.nq.length < 16)

/-- Puts a command in a queue that has room; an urgent one asks for a pre-emption. An entry to core Sleep under way is abandoned, and the
core's idle time begins anew (R236). -/
def State.enqueue (s : State) (c : Nat) (urgent : Bool) (e : QEntry) : State :=
  let s := s.modCore c fun x => { x with sleepSaving := false, idleTicks := 0 }
  if urgent then (s.modCore c fun x => { x with uq := x.uq ++ [e] }).requestPreempt c
  else s.modCore c fun x => { x with nq := x.nq ++ [e] }

/-! ### Issue (R145) -/

/-- Step 1 of R54: bounds of the Kaolin and VB ranges, and the pair rules of R144. -/
def Hdr.kvbBounds (h : Hdr) : Bool :=
  let e := fun v => h.vb.getD v (0, 0)
  (h.kaoLen == 0 || decide (h.kaoBase + h.kaoLen ≤ 384)) &&
  ((List.range 4).all fun v => (e v).2 == 0 || decide ((e v).1 + (e v).2 ≤ if v % 2 = 0 then 128 else 64)) &&
  ([0, 2].all fun v =>
    let a := e v
    let b := e (v + 1)
    !(decide (0 < a.2 ∧ 0 < b.2 ∧ a.1 < 64 + b.1 + b.2 ∧ 64 + b.1 < a.1 + a.2)))

/-- Step 3 of R54: the part of each VB range in each buffer is within that buffer's limit. -/
def Hdr.vbWithin (h : Hdr) (lim : List Nat) : Bool :=
  (List.range 4).all fun v =>
    let e := h.vb.getD v (0, 0)
    let l := e.1 + e.2
    e.2 == 0 ||
      (if v % 2 = 0 then decide (min l 64 - e.1 ≤ lim.getD v 0 ∧ l - max 64 e.1 ≤ lim.getD (v + 1) 0) else decide (e.2 ≤ lim.getD v 0))

/-- Step 4 of R54 for one output region. -/
def State.regionOk (s : State) (c a n : Nat) : Bool :=
  match placeOf s.id a, placeOf s.id (a + n - 1) with
  | .stack, .stack => true
  | .own x, .own _ => accessFault s.str.live (.cmdWrite c) x n == 0
  | .other k _, .other l _ => k == l
  | _, _ => false

/-- Steps 3 and 4 of R145: 0, or the fault. -/
def State.declFault (s : State) (c : Nat) (h : Hdr) : Nat :=
  let k := s.str.live.kvb.getD c {}
  let doneOk := h.doneSc == 0xFFFF || (match s.str.live.sync h.doneSc with
    | some r => r.scope != 0 || r.owner == c
    | none => false)
  if !doneOk then 0x0901
  else if !h.kvbBounds then 0x0305
  else if k.kao < h.kaoLen then 0x0303
  else if !h.vbWithin k.vb then 0x0304
  else if h.regions.any fun r => !s.regionOk c r.1 r.2 then 0x0307
  else 0

/-- Steps 1 to 4 of R145 for an item: its header, or the fault and the header where it was read. -/
def State.headerOf (s : State) (w : Who) (i : Item) : State × Hdr × Nat :=
  let c := w.core.val
  let f := accessFault s.str.live (.cmdRead c) i.addr 192
  if f ≠ 0 then (s, {}, f)
  else
    let q := s.loamRead (corePort c) i.addr 192
    match q.2 with
    | .bad f => (q.1, {}, f)
    | .ok b =>
      let h := decodeHdr b
      let f := if h.codeLenOk then accessFault s.str.live (.cmdRead c) (i.addr + 192) h.codeLen else 0
      let job := match i.jobReq with
        | some j => h.job == j
        | none => true
      (q.1, h, if f ≠ 0 then f else if !h.ok c (isHdl w) || !job then 0x0701 else s.declFault c h)

/-- The other context of the core. -/
def otherCtx (w : Who) : Who := ⟨w.core, if isHdl w then .cmd else .hdl⟩

/-- Step 5 of R145: the other context holds a range that the header declares (R56). -/
def State.rangeHeld (s : State) (w : Who) (h : Hdr) : Bool :=
  (s.ctx (otherCtx w)).holds && (s.item (otherCtx w)).hdr.overlaps h

/-- An item that fails issue is not started (R145): its fault is logged, and a handler's message is freed (R172). -/
def State.notStarted (s : State) (w : Who) (code : Nat) (h : Hdr) : State :=
  let i := s.item w
  let t := (s.logFault code w.core.val (isHdl w) true i.addr).noteFault w.core.val code h
  let t := match i.msg with
    | some m => t.retireMsg w.core.val m
    | none => t
  (t.setCtx w {}).modCore w.core.val fun x => { x with idleTicks := 0 }

/-- A watch entry matches a header (R282). -/
def WatchEnt.hits (e : WatchEnt) (h : Hdr) : Bool :=
  e.valid && e.tensor == h.tensor && (e.step == h.step || e.step == 0xFFFFFFFF) && (e.layer == h.layer || e.layer == 0xFFFF)

/-- The watch entries that a header matches fire, in index order (R282). -/
def State.fireWatch (s : State) (w : Who) (h : Hdr) : State × List WatchHit :=
  ((List.range 16).zip s.str.live.watches).foldl (fun (acc : State × List WatchHit) p =>
    if p.2.hits h then
      let t := acc.1.modCtr fun c => { c with watchFire := tabMod 0 c.watchFire p.1 fun n => stick48 n 1 }
      let n := tabGet 0 t.ctr.watchFire p.1
      (t.emit 12 .matched (whoByte w) 32 [p.1, n], acc.2 ++ [⟨p.1, p.2.dumpAddr, p.2.dumpLen, n⟩])
    else acc) (s, [])

/-- Step 6 of R145: the record is latched and the item runs. A control-core item starts with its cache invalid (R201). -/
def State.startItem (s : State) (w : Who) (h : Hdr) : State :=
  let i := s.item w
  let q := s.fireWatch w h
  let rc : Rec := { job := h.job, layer := h.layer, operator := h.operator, core := w.core.val, hdl := isHdl w, sup := i.sup,
                    watched := !q.2.isEmpty, step := h.step, tensor := h.tensor, addr := i.addr, start := s.ts }
  let t := q.1.setCtx w { phase := .running, item := { i with hdr := h, watch := q.2, record := rc, blocked := none } }
  let t := if w.core.val = 4 then t.dropCache else t
  t.emit 0 .start (whoByte w) 32 [h.job, h.layer, h.operator, h.step, 0]

/-- Steps 5 and 6 of R145 for an item whose header passed. -/
def State.startOrWait (s : State) (w : Who) (h : Hdr) : State :=
  if s.rangeHeld w h then
    s.setCtx w { phase := .waitRange, item := { s.item w with hdr := h, blocked := some 14 } }
  else s.startItem w h

/-- The item in a context goes through the steps of R145. -/
def State.issueItem (s : State) (w : Who) : State :=
  if s.damage.contains (.item w) then
    ({ s with damage := s.damage.filter (· != Damage.item w) }).notStarted w 0x0C0A {}
  else
    let q := s.headerOf w (s.item w)
    if q.2.2 ≠ 0 then q.1.notStarted w q.2.2 q.2.1 else q.1.startOrWait w q.2.1

/-- The command that the command context takes next (R141): none where its queues offer none. While a command is saved, urgent ones
only (R158). -/
def Core.nextCmd (x : Core) : Option (QEntry × Bool × Core) :=
  match x.uq, x.nq with
  | e :: l, _ => some (e, true, { x with uq := l })
  | [], e :: l => if x.saved.isSome then none else some (e, false, { x with nq := l })
  | [], [] => none

/-- ITEM_ISSUE (R145): a command from its queue, a dispatched handler, or an item whose wait for held ranges is over. -/
def itemStart (w : Who) (s : State) : Option State :=
  let c := w.core.val
  let x := s.core c
  if x.asleep ∨ !s.str.liveValid ∨ !coreOn s.str.live.coreEn c ∨ (s.item w).abort.isSome then none
  else match (s.ctx w).phase with
    | .waitRange => if s.rangeHeld w (s.item w).hdr then none else some (s.startItem w (s.item w).hdr)
    | .issuing => some (s.issueItem w)
    | .idle =>
      if isHdl w then none
      else match x.nextCmd with
        | none => none
        | some (e, urgent, y) =>
          let i : Item := { no := s.itemNo, addr := e.addr, sup := e.sup, jobReq := e.jobReq, urgent := urgent }
          let y := { y with sleepSaving := false, sleepSaved := false, cmd := { phase := .issuing, item := i } }
          some ((({ s with itemNo := s.itemNo + 1 }.setCore c y).unblock 13).issueItem w)
    | _ => none

/-! ### The command record (R271) -/

/-- A record as its 384 bytes: counts are 48-bit fields with OVF (R269). -/
def Rec.bytes (r : Rec) : List Byte :=
  let cnt (n : Nat) : List Byte := leBytes 8 (ctrReg n)
  leBytes 2 r.job ++ leBytes 2 r.layer ++ leBytes 2 r.operator ++ leBytes 1 (r.core + 8 * b2n r.hdl + 128 * b2n r.ended) ++
  leBytes 1 (b2n r.sup + 2 * b2n r.aborted + 4 * b2n r.watched) ++ leBytes 4 r.step ++ leBytes 4 r.tensor ++ leBytes 4 r.addr ++
  leBytes 2 r.fault ++ leBytes 2 r.preempts ++ leBytes 8 r.start.toNat ++ leBytes 8 r.stop.toNat ++ cnt r.cycles ++ cnt r.preemptCycles ++
  cnt r.arrSat ++ cnt r.arrNan ++ cnt r.vecSat ++ cnt r.vecNan ++ cnt r.retry ++
  (List.range 15).flatMap (fun k => cnt (tabGet 0 r.eng k)) ++ (List.range 16).flatMap (fun k => cnt (tabGet 0 r.reasons k)) ++
  List.replicate 40 0

/-- The item of a context leaves it: its record's end is latched and kept among the core's newest 32, its events go out, a handler's
message is retired (R146, R147, R172, R274, R277). -/
def State.finishItem (s : State) (w : Who) : State :=
  let i := s.item w
  let rc : Rec := { i.record with ended := true, stop := s.ts }
  let t := s.modCore w.core.val fun x => { x with recs := (rc :: x.recs).take 32, idleTicks := 0 }
  let t := match i.msg with
    | some m => t.retireMsg w.core.val m
    | none => t
  let t := t.setCtx w {}
  let t := t.emit 0 .stop (whoByte w) 32 [rc.job, rc.layer, rc.operator, rc.step, rc.fault]
  t.emit 1 .single (whoByte w) 400 (rc.bytes.map (·.toNat))

/-- DONE_SC receives its arrive (R146, R147, R196). -/
def State.doneArrive (s : State) (w : Who) : State :=
  let n := (s.item w).hdr.doneSc
  if n = 0xFFFF then s else s.arriveSc n 1 (whoByte w)

/-! ### End (R146) -/

/-- The release conditions of the item's DONE_SC at that counter's scope (R196). -/
def State.doneReleased (s : State) (i : Item) : Bool :=
  i.hdr.doneSc == 0xFFFF || (match s.str.live.sync i.hdr.doneSc with
    | some r => s.released i.no r.scope
    | none => true)

/-- The conditions of R146 hold for the item of a context. -/
def State.itemDone (s : State) (w : Who) : Bool :=
  let x := s.ctx w
  x.canBear && x.phase != .saving && x.item.ending && (s.itemJobs w).isEmpty && x.item.pend == .none

/-- ITEM_END (R146): after its dumps (R283), the item ends; damaged sequencer state aborts it (R265). -/
def itemFinish (w : Who) (s : State) : Option State :=
  let i := s.item w
  if s.itemDone w ∧ s.damage.contains (.item w) then
    some ({ s with damage := s.damage.filter (· != Damage.item w) }.raise w 0x0C0A i.off)
  else if !s.itemDone w ∨ !i.watch.isEmpty ∨ !s.doneReleased i then none
  else if i.hdr.doneSc ≠ 0xFFFF ∧ s.scBad i.hdr.doneSc then some (s.raise w 0x0C0A i.hdr.doneSc)
  else some ((s.doneArrive w).finishItem w)

/-! ### Abort, second part (R147 steps 3 to 6, R206) -/

/-- A transaction belongs to an item and is not abandoned. -/
def Txn.ofItem (t : Txn) (no : Nat) : Bool :=
  !t.abandoned && (match t.kind with
    | .load _ n _ _ _ _ _ _ | .store _ n | .fetch _ n _ _ _ | .atomic _ n _ _ | .reg _ n _ | .poison _ n | .count _ _ _ n => n == no
    | _ => false)

/-- Copies of the watch path that have stopped and have nothing in flight are gone. -/
def State.sweepWatch (s : State) (no : Nat) : State :=
  let c := s.chan 32
  if c.run.isEmpty then s
  else s.setChan 32 { c with run := c.run.filter fun r => !(r.itemNo == no && r.stopped && r.inFlight == 0) }

/-- Step 3 of R147 is over: no descriptor, transaction or buffered write of the item is outstanding. -/
def State.settled (s : State) (no : Nat) : Bool :=
  !s.itemDma no && s.port.txns.all (fun t => !t.ofItem no) && s.port.pbuf.all fun e => !e.writers.contains no

/-- A region lies in the own Loam. -/
def State.ownRegion (s : State) (r : Nat × Nat) : Bool :=
  match placeOf s.id r.1 with
  | .own _ => true
  | _ => false

/-- Step 4 of R147 for one region of the own Loam: its sectors are tagged (R206). -/
def State.poisonRegion (s : State) (r : Nat × Nat) : State :=
  match placeOf s.id r.1 with
  | .own l => s.poisonSectors (sectorsOf l r.2)
  | _ => s

/-- The sectors of an item's output regions that lie elsewhere: each takes a poison write (R206). -/
def State.farSectors (s : State) (h : Hdr) : List Nat := (h.regions.filter fun r => !s.ownRegion r).flatMap fun r => (sectorsOf r.1 r.2).map (64 * ·)

/-- Issues the poison write of one sector where the memory port has room, else keeps it for later (R206, R224). -/
def State.poisonFar (acc : State × List Nat) (w : Who) (no a : Nat) : State × List Nat :=
  if acc.1.txnRoom then
    let q := acc.1.newTxn a (.poison w no)
    (q.1.send (.memPoison q.2 a 64), acc.2)
  else (acc.1, acc.2 ++ [a])

/-- Issues the poison writes of sectors, as many as the port has room for; answers the rest. -/
def State.poisonAll (s : State) (w : Who) (no : Nat) (l : List Nat) : State × List Nat :=
  l.foldl (fun acc a => State.poisonFar acc w no a) (s, [])

/-- Bytes of own Loam that an aborted item wrote outside its declared output regions are undefined (R57): free bytes, but for sectors
that carry a poison tag. -/
def State.freeWrote (s : State) (h : Hdr) (r : Nat × Nat) : State :=
  let inside (a : Nat) : Bool := h.regions.any fun x => match placeOf s.id x.1 with
    | .own l => decide (l ≤ a ∧ a < l + x.2)
    | _ => false
  let q := s.freeBytes r.2
  let cells := ((List.range r.2).zip q.2).foldl (fun (m : Mem) p =>
    let a := r.1 + p.1
    if inside a || s.loam.poison.contains (a / 64) then m else m.set a p.2) s.loam.cells
  { q.1 with loam := { s.loam with cells := cells } }

/-- Step 4 of R147: the own sectors of the declared output regions are tagged, the writes beside them become undefined (R57), and the
poison writes elsewhere begin. -/
def State.poisonOutputs (s : State) (w : Who) : State × List Nat :=
  let i := s.item w
  let t := i.hdr.regions.foldl State.poisonRegion (i.wrote.foldl (fun t r => t.freeWrote i.hdr r) s)
  t.poisonAll w i.no (s.farSectors i.hdr)

/-- ABORT_SETTLE for the item of a context that aborts (R147): first the outputs are poisoned, once nothing of the item is outstanding,
as far as the memory port has room at a time (R224); then, when every poison write is answered and the dumps are made (R283), DONE_SC
receives its arrive, which is a release (R196), and the item is gone. -/
def settleItem (w : Who) (s : State) : Option State :=
  let i := s.item w
  if (s.ctx w).phase ≠ .aborting then none
  else match i.abort with
    | none => none
    | some a =>
      let s := s.sweepWatch i.no
      if !a.poisoned then
        if !s.settled i.no then none
        else
          let q := s.poisonOutputs w
          some (q.1.modItem w fun i => { i with abort := some { a with poisoned := true, left := q.2 } })
      else if !a.left.isEmpty then
        if !s.txnRoom then none
        else
          let q := s.poisonAll w i.no a.left
          some (q.1.modItem w fun i => { i with abort := some { a with left := q.2 } })
      else if !s.settled i.no ∨ !i.watch.isEmpty ∨ !s.doneReleased i then none
      else some ((s.doneArrive w).finishItem w)

/-- The settling of an aborted command that was saved while another command has the context: the same steps, beside that command
(R147, R159). -/
def settleDying (w : Who) (s : State) : Option State :=
  let x := s.core w.core.val
  match w.ctx, x.dying with
  | .cmd, i :: l =>
    let y := x.cmd
    (settleItem w ((s.modCore w.core.val fun x => { x with dying := l }).setCtx w { phase := .aborting, item := i })).map fun t =>
      t.modCore w.core.val fun z => { z with cmd := y, dying := if z.cmd.phase = .aborting then z.cmd.item :: z.dying else z.dying }
  | _, _ => none

/-- ABORT_SETTLE (R147). -/
def abortStep (w : Who) (s : State) : Option State :=
  if (s.ctx w).phase = .aborting then settleItem w s else settleDying w s

/-! ### Kill and flush (R159) -/

/-- Header address of the saved command of a core. -/
def Core.savedAddr (x : Core) : Nat :=
  match x.saved with
  | some (i, _) => i.addr
  | none => 0

/-- Kill of the item in a context (R159); KILL_CMD where no command is running kills the saved one. -/
def State.killItem (s : State) (w : Who) : State :=
  match (s.ctx w).phase with
  | .running | .preempting | .saving | .restoring | .aborting => s.raise w 0x0705 (s.item w).addr
  | .issuing | .waitRange => s.notStarted w 0x0705 (s.item w).hdr
  | .idle => if isHdl w then s else s.raiseSaved w.core 0x0705 (s.core w.core.val).savedAddr

/-- FLUSH (R159). -/
def State.flushQueues (s : State) (c : Nat) : State := (s.modCore c fun x => { x with nq := [], uq := [] }).unblock 13

/-! ### Save and restore (R59, R60) -/

/-- Bytes of VB `n` in the save region begin here; the region holds the VBs at their own size (R4, R59). -/
def State.saveVbAt (s : State) (c n : Nat) : Nat :=
  let e := 2 ^ s.id.edgeLog2
  s.saveBase c + Config.saveVb e + n * (e * e)

/-- Saves one unit of a store to Loam: as data, or as poisoned sectors (R60). An uncorrectable error met here is logged as 0x0309 and
borne by no item, so the command that is saved goes on (DESIGN CHOICE, log 84: R60 gives the outcome of a restore alone). -/
def saveUnit (c : Nat) (r : State × Rd (List Byte)) (dst n : Nat) : State :=
  match r.2 with
  | .ok b => (r.1.loamWrite (corePort c) dst b).1
  | .bad f => (if f = 0x0309 then r.1.logFault f c false false dst else r.1).poisonSectors (sectorsOf dst n)

/-- Units `u` of `n` bytes from `a`. -/
def unitStarts (u a n : Nat) : List Nat := (List.range (n / u)).map fun i => a + u * i

/-- The declared VB ranges as (buffer, offset, length) in bytes, a pair's range cut at its boundary (R53). -/
def Hdr.vbParts (h : Hdr) : List (Nat × Nat × Nat) :=
  (List.range 4).flatMap fun v =>
    let e := h.vb.getD v (0, 0)
    let l := e.1 + e.2
    (if e.1 < 64 then [(v, 1024 * e.1, 1024 * (min l 64 - e.1))] else []) ++
    (if 64 < l then [(v + 1, 1024 * (max 64 e.1 - 64), 1024 * (l - max 64 e.1))] else [])

/-- The state block: masks, statistics and sequencer state; the layout of the last is not given, so its bytes are free (R11). -/
def State.saveBlock (s : State) (c : Nat) : State :=
  let e := 2 ^ s.id.edgeLog2
  let x := s.core c
  let masks := (List.range 512).flatMap fun i => leBytes 8 (tabGet 0 x.masks i).toNat
  let stats := (List.range 1024).flatMap fun i => leBytes 4 (tabGet 0 x.stats i).toNat
  let q := s.freeBytes 8192
  let b := s.saveBase c
  let p := corePort c
  (((q.1.loamWrite p (b + Config.saveMasks e) masks).1.loamWrite p (b + Config.saveStats e) stats).1.loamWrite p (b + Config.saveSeq e) q.2).1

/-- A save of the ranges that a header declares, and of the state block (R59). -/
def State.saveCore (s : State) (c : Nat) (h : Hdr) : State :=
  let t := (unitStarts 256 (1024 * h.kaoBase) (1024 * h.kaoLen)).foldl
    (fun (t : State) a => saveUnit c (t.kaoRead c a 256) (t.saveBase c + a) 256) s
  let t := h.vbParts.foldl (fun (t : State) p => (unitStarts 64 p.2.1 p.2.2).foldl
    (fun (t : State) a => saveUnit c (t.vbRead c (65536 * p.1 + a) 64) (t.saveVbAt c p.1 + a) 64) t) t
  t.saveBlock c

/-- Sectors of a restore that are read: the state, and whether one had an uncorrectable error or was poisoned. -/
def State.restoreRead (s : State) (c a n : Nat) : State × Bool × Bool :=
  (sectorsOf a n).foldl (fun (acc : State × Bool × Bool) k =>
    let q := acc.1.loamSector (corePort c) k
    (q.1, acc.2.1 || q.2 == .ue, acc.2.2 || q.2 != .ok)) (s, false, false)

/-- Restores one Kaolin row segment: its data, or poison (R60); answers whether an uncorrectable error was met. -/
def State.restoreKao (acc : State × Bool) (c a : Nat) : State × Bool :=
  let src := acc.1.saveBase c + a
  let q := acc.1.restoreRead c src 256
  let t := if q.2.2 then q.1.modCore c fun x => { x with kaolin := x.kaolin.poisonUnits 256 [a / 256] }
    else (q.1.kaoWrite c a (q.1.loam.cells.read src 256)).1
  (t, acc.2 || q.2.1)

/-- Restores 64 bytes of VB `v`. -/
def State.restoreVb (acc : State × Bool) (c v a : Nat) : State × Bool :=
  let src := acc.1.saveVbAt c v + a
  let q := acc.1.restoreRead c src 64
  let x := 65536 * v + a
  let t := if q.2.2 then q.1.modCore c fun k => { k with vb := k.vb.poisonUnits 64 [x / 64] }
    else (q.1.vbWrite c x (q.1.loam.cells.read src 64)).1
  (t, acc.2 || q.2.1)

/-- The mask and statistic registers read back from the state block: undefined where a sector of them cannot be read, an error that
counts as one of the restore (R60; a poisoned sector there is log 77's case). -/
def State.restoreBlock (acc : State × Bool) (c : Nat) : State × Bool :=
  let e := 2 ^ acc.1.id.edgeLog2
  let b := acc.1.saveBase c
  let q := acc.1.restoreRead c (b + Config.saveMasks e) 16384
  let m := q.1.loam.cells
  let t := if q.2.2 then q.1.undefVec c else q.1.modCore c fun x => { x with
    masks := (List.range 512).map fun i => (i, BitVec.ofNat 64 (leNat (m.read (b + Config.saveMasks e + 8 * i) 8)))
    stats := (List.range 1024).map fun i => (i, BitVec.ofNat 32 (leNat (m.read (b + Config.saveStats e + 4 * i) 4))) }
  (t, acc.2 || q.2.2)

/-- A restore of the ranges that a header declares, and of the state block; answers whether it met an uncorrectable error (R60). -/
def State.restoreCore (s : State) (c : Nat) (h : Hdr) : State × Bool :=
  let t := (unitStarts 256 (1024 * h.kaoBase) (1024 * h.kaoLen)).foldl (fun acc a => State.restoreKao acc c a) (s, false)
  let t := h.vbParts.foldl (fun acc p => (unitStarts 64 p.2.1 p.2.2).foldl (fun acc a => State.restoreVb acc c p.1 a) acc) t
  State.restoreBlock t c

/-- What the item waits for lets a pre-emption take place (R158 step 2). -/
def Pend.stops : Pend → Bool
  | .none | .wait .. | .send => true
  | _ => false

/-- PREEMPT_POINT (R158): no pass and no retry of the command is in progress; a wait, a send and an enqueue stop at once. -/
def preemptPointStep (c : Fin 4) (s : State) : Option State :=
  let w : Who := ⟨⟨c.val, by omega⟩, .cmd⟩
  let i := s.item w
  if (s.ctx w).phase ≠ .preempting ∨ i.abort.isSome ∨ !i.pend.stops ∨ i.inProgress then none
  else if (s.itemJobs w).any fun j => j.running || j.restart || j.retryAt.isSome then none
  else
    let t := { s with msg := { s.msg with sends := s.msg.sends.filter fun x => !(x.who == w && x.itemNo == i.no) } }
    let i := { i with pend := .none, blocked := none, sendWaits := false, waitTicks := 0, loadRun := 0, record := { i.record with preempts := i.record.preempts + 1 } }
    some (t.setCtx w { phase := .saving, item := i })

/-- The stationary registers that a pre-emption leaves (R108): the back ones are discarded; the front ones are those of a pass of the
handler, or empty. -/
def frontLeft (jobs : List ArrJob) (r : Option StatReg) : Option StatReg := r.filter fun r => jobs.all fun j => j.no != r.job

/-- A matrix instruction of the handler whose retry point was a copy in the save region, which now holds the state of a command (R103). -/
def ArrJob.copyLost (j : ArrJob) : ArrJob := if isHdl j.who ∧ j.retryPoint = .copy then { j with retryPoint := .nowhere } else j

/-- PREEMPT_SAVE_DONE (R103, R108, R158 steps 3 and 4): the command's declared ranges and the state block are in the save region; its
ranges are released. -/
def preemptSaved (c : Fin 4) (s : State) : Option State :=
  let w : Who := ⟨⟨c.val, by omega⟩, .cmd⟩
  let i := s.item w
  if (s.ctx w).phase ≠ .saving then none
  else
    let jobs := s.itemJobs w
    let t := s.saveCore c.val i.hdr
    some (t.modCore c.val fun x => { x with
      saved := some (i, jobs), front := frontLeft jobs x.front, back := none, cmd := {}
      jobs := (x.jobs.filter fun j => !(j.who == w && j.itemNo == i.no)).map ArrJob.copyLost })

/-- PREEMPT_RESTORE (R158 step 5). -/
def preemptRestoreStart (c : Fin 4) (s : State) : Option State :=
  let w : Who := ⟨⟨c.val, by omega⟩, .cmd⟩
  let x := s.core c.val
  match x.saved with
  | none => none
  | some (i, _) =>
    if x.cmd.phase ≠ .idle then none
    else if !x.uq.isEmpty ∨ s.rangeHeld w i.hdr then none
    else some (s.setCtx w { phase := .restoring, item := i })

/-- A matrix instruction of a restored command: one that has run passes may be retried from the saved state only (R103). -/
def ArrJob.resumed (j : ArrJob) : ArrJob := if j.next = 0 then j else { j with base := j.next, retryPoint := .saved }

/-- PREEMPT_RESTORE_DONE (R158 step 6, R60, R103): the command goes on at the pass or instruction behind its point. -/
def preemptRestored (c : Fin 4) (s : State) : Option State :=
  let w : Who := ⟨⟨c.val, by omega⟩, .cmd⟩
  match (s.ctx w).phase, (s.core c.val).saved with
  | .restoring, some (i, jobs) =>
    let q := s.restoreCore c.val i.hdr
    let jobs := jobs.map ArrJob.resumed
    let t := q.1.modCore c.val fun x => { x with saved := none, cmd := { phase := .running, item := i }, jobs := jobs ++ x.jobs }
    some (if q.2 then t.raise w 0x0308 (s.saveBase c.val) else t)
  | _, _ => none

/-! ### SEQ instructions (R149, R151, R160) -/

/-- SEQ.END (R146). -/
def seqEndStep (w : Who) (s : State) : Option State := 
  some ((s.modItem w fun i => { i with ending := true, blocked := none }).work 0 (s.item w).no)

/-- SEQ.FENCE (R151): array instructions, then vector work, of the item. -/
def fenceStep (w : Who) (len : Nat) (arr vec : Bool) (s : State) : Option State :=
  if (arr && !(s.itemJobs w).isEmpty) || (vec && (s.itemJobs w).any fun j => !j.epi.isEmpty) then none
  else some (s.advance w len)

/-- SEQ.ENQ (R141, R142, R160, R301). -/
def enqStep (w : Who) (len core : Nat) (urgent : Bool) (a : Nat) (s : State) : Option State :=
  let l := s.str.live.logical
  if a % 64 ≠ 0 then some (s.raise w 0x0702 a)
  else match l[core]? with
    | none => some (s.raise w 0x0703 core)
    | some c =>
      if !(s.core c).roomFor urgent then some (s.block w 13)
      else
        let i := s.item w
        some ((s.enqueue c urgent ⟨a, i.sup, if i.sup then none else some i.hdr.job⟩).advance w len)

end Sys2Proof.Machine
end

