-- ==== Sys2Proof/Machine/Journal.lean ====
section
/-! DEFINITION. Machine/Journal.lean: records of the Marl journal (R246 to R249), their queue and admission (R247), the bodies the
cluster writes, replay (R253) and compaction (R251). -/

namespace Sys2Proof.Machine

/-! ### Layout (R248) -/

/-- LEN_SECT of a record with a body of `n` bytes. -/
def sectOf (n : Nat) : Nat := cdiv (n + 20) 64

/-- Bytes of a record. -/
def JRec.size (r : JRec) : Nat := 64 * sectOf r.body.length

/-- A record as its bytes. -/
def JRec.bytes (r : JRec) : List Byte :=
  let head := leBytes 1 r.typ.code ++ leBytes 1 0 ++ leBytes 2 (sectOf r.body.length) ++ leBytes 4 r.serial ++ leBytes 8 r.time
  let b := padTo (r.size - 4) (head ++ r.body)
  b ++ leBytes 4 (crc32c b)

/-- Byte offset of a half in the segment (R246): half B for true. -/
def halfBase (b : Bool) : Nat := if b then 0x100000 else 0

/-! ### The queue (R247) -/

/-- Bytes that the queue holds; an IMAGE record takes none. -/
def Mrl.queueBytes (m : Mrl) : Nat := ((m.queue.filter fun r => r.typ != .image).map JRec.size).sum

/-- Used bytes of the active half plus the queue, IMAGE records included. -/
def Mrl.load (m : Mrl) : Nat := m.used + (m.queue.map JRec.size).sum

/-- A COMMIT, EPOCH or TELEMETRY record is always admitted. -/
def RecType.always : RecType → Bool
  | .commit | .epoch | .telemetry => true
  | _ => false

/-- R247 admits a record of a type with `n` body bytes. -/
def Mrl.admits (m : Mrl) (t : RecType) (n : Nat) : Bool :=
  t.always || (decide (m.queueBytes + (if t = .image then 0 else 64 * sectOf n) ≤ 163840) && decide (m.load + 64 * sectOf n ≤ 983040))

/-- Admits a record: it takes the next SERIAL and the time (R247, R248). -/
def State.enter (s : State) (t : RecType) (body : List Byte) : State :=
  let m := s.mrl
  { s with mrl := { m with queue := m.queue ++ [⟨t, m.nextSerial, s.ts.toNat, body⟩], nextSerial := (m.nextSerial + 1) % 2 ^ 32 } }

/-! ### Bodies (R249) -/

/-- COMMIT. -/
def commitBody (id serial epoch : Nat) : List Byte := leBytes 4 id ++ leBytes 4 serial ++ leBytes 4 epoch
/-- EPOCH. -/
def epochBody (epoch id : Nat) : List Byte := leBytes 4 epoch ++ leBytes 4 id
/-- BASE. -/
def baseBody (gen sect crc next : Nat) : List Byte := leBytes 4 gen ++ leBytes 4 sect ++ leBytes 4 crc ++ leBytes 4 next
/-- TOTALS: bins whose count is not zero (R268). -/
def totalsBody (t : Tab Nat) : List Byte := (t.filter fun e => e.2 != 0).flatMap fun e => leBytes 2 e.1 ++ leBytes 2 0 ++ leBytes 8 e.2
/-- TELEMETRY: every bin whose count has changed, with at most 2^32 - 1 each (R268). -/
def telemetryBody (inc : Tab Nat) : List Byte :=
  (inc.filter fun e => e.2 != 0).flatMap fun e => leBytes 2 e.1 ++ leBytes 2 0 ++ leBytes 4 (min e.2 (2 ^ 32 - 1))

/-- Totals with the increments of a TELEMETRY body (R253 step 4, R268). -/
def addIncrements (h : Tab Nat) (body : List Byte) : Tab Nat :=
  (cutB 8 (body.length / 8) body).foldl (fun h e =>
    if fieldB e 4 4 = 0 then h else tabMod 0 h (fieldB e 0 2) fun n => stick64 n (fieldB e 4 4)) h

/-- Admits a TELEMETRY record: it takes the increments, the excess carries over (R268). -/
def State.admitTelemetry (s : State) : State :=
  let inc := s.tel.inc.filter fun e => e.2 != 0
  let t := s.enter .telemetry (telemetryBody inc)
  { t with tel := { t.tel with inc := inc.filterMap fun e => if 2 ^ 32 - 1 < e.2 then some (e.1, e.2 - (2 ^ 32 - 1)) else none } }

/-- The total of a bin, increments that no complete record holds included (R268). -/
def State.histTotal (s : State) (b : Nat) : Nat :=
  let queued := (s.mrl.queue.filter fun r => r.typ == .telemetry).foldl (fun h r => addIncrements h r.body) s.tel.hist
  stick64 (tabGet 0 queued b) (tabGet 0 s.tel.inc b)

/-- The live IMAGE_ID, 0 where there is no live image. -/
def State.liveId (s : State) : Nat := if s.str.liveValid then s.str.live.id else 0

/-- Admits an EPOCH record. -/
def State.admitEpoch (s : State) : State := s.enter .epoch (epochBody s.str.epoch.toNat s.liveId)

/-- 1,024 seals that are not retired exist, queued ones included (R250). -/
def Mrl.sealsFull (m : Mrl) : Bool := decide (1024 ≤ m.seals.length + (m.queue.filter fun r => r.typ == .seal).length)

/-- A submission of a seal or a retirement (R250): the record, or the fault. -/
def State.submit (s : State) (t : RecType) (body : List Byte) : State :=
  let m := s.mrl
  let f := if s.pwr.pfw || s.pwr.offReq then 0x0B04 else if m.sealsFull then 0x0B02 else if !m.admits t body.length then 0x0B03 else 0
  if f ≠ 0 then { s with mrl := { m with sealFault := f, sealDone := true } }.logOnly f 0
  else
    let u := s.enter t body
    { u with mrl := { u.mrl with sealFault := 0, sealDone := true, sealSerial := m.nextSerial } }

/-! ### Compaction (R251) -/

/-- The copy of an image's IMAGE record, with its own SERIAL and TIME (R248, R251). -/
def OnRecord.imageCopy (r : OnRecord) : List Byte := (JRec.mk .image r.serial r.time r.bytes).bytes

/-- The copies of a committed image's records: IMAGE, COMMIT, and its DELTA records in SEQ order (R251). -/
def OnRecord.copies (r : OnRecord) : List Byte :=
  r.imageCopy ++ (JRec.mk .commit r.commit r.commitTime (commitBody r.id r.serial r.epoch)).bytes ++
    r.deltas.flatMap fun d => (JRec.mk .delta d.1 d.2.1 d.2.2).bytes

/-- What a base holds of images: the live one's records. While its COMMIT record is queued and not complete, the records of the image
committed before it and its own IMAGE record, which that COMMIT will name (R34, R251, log 36). -/
def Str.imageRecords (x : Str) : List Byte :=
  if !x.liveValid then []
  else if x.stage = .committing then (match x.prior with
    | some p => p.copies
    | none => []) ++ x.record.imageCopy
  else x.record.copies

/-- The base contents; copies keep their SERIAL and TIME, the fresh TOTALS and EPOCH records carry `serial`, that of the BASE, and the
time of the compaction (log 36). -/
def State.baseContents (s : State) (serial : Nat) : List Byte :=
  let now := s.ts.toNat
  (JRec.mk .totals serial now (totalsBody s.tel.hist)).bytes ++ s.str.imageRecords ++
  (s.mrl.seals.flatMap fun e => (JRec.mk .seal e.1 e.2.1 e.2.2).bytes) ++
  (JRec.mk .epoch serial now (epochBody s.str.epoch.toNat s.liveId)).bytes

end Sys2Proof.Machine
end

