-- ==== Sys2Proof/Machine/RegRead.lean ====
section
/-! DEFINITION. Machine/RegRead.lean: the register map (R292, 14), privileges (R296), the value that each register shows, and reads
(R256, R294, R302). -/

namespace Sys2Proof.Machine

/-! ### The map -/

/-- Privilege codes (R296). -/
inductive RPriv where
  | S
  | A
  | R
  | F
  | V
  deriving DecidableEq, Repr

/-- A row of the map: first offset, distance and number of its registers, bytes of one, privilege, whether every field is RO, and the
bits that are not reserved (R13), for a register that is written. -/
structure RegRow where
  first : Nat
  stride : Nat
  count : Nat
  bytes : Nat
  priv : RPriv
  ro : Bool
  mask : Nat := 0
  deriving DecidableEq, Repr

/-- CLU_, STR_, LOAM_, KAO_. -/
def rowsA : List RegRow :=
  [⟨0x0000, 4, 1, 4, .A, true, 0⟩, ⟨0x0004, 4, 1, 4, .A, true, 0⟩, ⟨0x0020, 8, 5, 8, .S, false, 0x3FFFFFF⟩,
   ⟨0x0050, 4, 5, 4, .S, false, 0xF⟩, ⟨0x0070, 8, 5, 8, .S, true, 0⟩,
   ⟨0x1000, 4, 1, 4, .R, false, 7⟩, ⟨0x1004, 4, 1, 4, .R, true, 0⟩, ⟨0x1008, 4, 1, 4, .R, false, 0xFFFFFFFF⟩,
   ⟨0x100C, 4, 1, 4, .R, true, 0⟩, ⟨0x1010, 4, 1, 4, .R, true, 0⟩, ⟨0x1014, 4, 1, 4, .R, true, 0⟩, ⟨0x1018, 4, 1, 4, .R, true, 0⟩,
   ⟨0x101C, 4, 1, 4, .R, true, 0⟩, ⟨0x1020, 4, 1, 4, .R, false, 0xFFFFFFFF⟩, ⟨0x1024, 4, 1, 4, .R, true, 0⟩,
   ⟨0x1028, 4, 1, 4, .R, true, 0⟩, ⟨0x102C, 4, 1, 4, .R, true, 0⟩,
   ⟨0x2000, 4, 1, 4, .S, true, 0⟩, ⟨0x2004, 4, 1, 4, .S, false, 0x1FFF⟩, ⟨0x2008, 8, 1, 8, .S, true, 0⟩, ⟨0x2010, 8, 1, 8, .S, true, 0⟩]

/-- ARR_, VEC_. -/
def rowsB : List RegRow :=
  [⟨0x4000, 8, 1, 8, .S, true, 0⟩, ⟨0x4008, 8, 1, 8, .S, true, 0⟩, ⟨0x4010, 8, 1, 8, .S, true, 0⟩, ⟨0x4100, 4, 32, 4, .S, true, 0⟩,
   ⟨0x4200, 16, 16, 4, .S, false, 0xFFFFFF01⟩, ⟨0x4204, 16, 16, 4, .S, false, 0x1FFF⟩, ⟨0x4208, 16, 16, 4, .A, true, 0⟩,
   ⟨0x420C, 16, 16, 4, .A, true, 0⟩, ⟨0x5000, 8, 1, 8, .S, true, 0⟩, ⟨0x5008, 8, 1, 8, .S, true, 0⟩,
   ⟨0x30000, 4, 4096, 4, .S, true, 0⟩]

/-- MSG_, CMB_, SYN_. -/
def rowsC : List RegRow :=
  [⟨0x6000, 4, 5, 4, .S, false, 0xFFFF0001⟩, ⟨0x6020, 4, 1, 4, .S, false, 0x3FF⟩, ⟨0x6030, 4, 1, 4, .S, false, 0x3FFF⟩,
   ⟨0x6034, 4, 1, 4, .S, true, 0⟩, ⟨0x6038, 8, 1, 8, .S, false, 0xFFFFFFFFFFFFFFFF⟩, ⟨0x6040, 4, 1, 4, .S, false, 0x3FFFFFF⟩,
   ⟨0x6080, 64, 1, 64, .S, true, 0⟩, ⟨0x6100, 8, 1, 8, .S, true, 0⟩, ⟨0x6200, 8, 1, 8, .S, true, 0⟩, ⟨0x6208, 8, 1, 8, .S, true, 0⟩,
   ⟨0x6210, 8, 1, 8, .S, true, 0⟩, ⟨0x6218, 8, 1, 8, .S, true, 0⟩, ⟨0x6400, 8, 160, 8, .S, true, 0⟩,
   ⟨0x6900, 4, 1, 4, .S, false, 0x10FFF⟩, ⟨0x6904, 4, 1, 4, .S, false, 0x7FFFF01⟩, ⟨0x6908, 4, 1, 4, .S, false, 0xFFF⟩,
   ⟨0x6910, 8, 1, 8, .S, false, 0xFFFFF07FF⟩, ⟨0x6918, 8, 1, 8, .S, true, 0⟩, ⟨0x6A00, 4, 1, 4, .S, true, 0⟩,
   ⟨0x6C00, 1024, 1, 1024, .V, true, 0⟩, ⟨0x7000, 8, 512, 8, .S, true, 0⟩,
   ⟨0x8000, 8, 1, 8, .A, false, 0xFFFFFFFF00001FFF⟩, ⟨0x8008, 8, 1, 8, .S, false, 0xFFFFFFFF00001FFF⟩,
   ⟨0x8010, 4, 1, 4, .S, false, 0x1FFF⟩, ⟨0x8018, 8, 1, 8, .S, true, 0⟩, ⟨0x8020, 4, 1, 4, .S, false, 1⟩, ⟨0x8024, 4, 1, 4, .S, true, 0⟩]

/-- DMA_, PWR_, MRL_. -/
def rowsD : List RegRow :=
  [⟨0xA000, 4, 32, 4, .S, false, 1⟩, ⟨0xA100, 8, 32, 8, .S, true, 0⟩, ⟨0xA200, 4, 1, 4, .S, false, 0xFFFFF803⟩, ⟨0xA208, 8, 1, 8, .S, true, 0⟩,
   ⟨0xA300, 4, 16, 4, .S, true, 0⟩, ⟨0xA340, 8, 1, 8, .S, true, 0⟩,
   ⟨0xB000, 4, 1, 4, .S, false, 0xFFFFFFFF⟩, ⟨0xB004, 4, 1, 4, .S, false, 3⟩, ⟨0xB008, 4, 1, 4, .S, true, 0⟩, ⟨0xB010, 8, 1, 8, .S, true, 0⟩,
   ⟨0xC000, 4, 1, 4, .S, true, 0⟩, ⟨0xC004, 4, 1, 4, .S, true, 0⟩, ⟨0xC008, 4, 1, 4, .S, true, 0⟩, ⟨0xC00C, 4, 1, 4, .S, true, 0⟩,
   ⟨0xC010, 44, 1, 44, .S, false, 0xFFFFFFFF⟩, ⟨0xC03C, 4, 1, 4, .S, false, 1⟩, ⟨0xC040, 8, 1, 8, .S, true, 0⟩,
   ⟨0xC048, 4, 1, 4, .S, false, 0xFFFFFFFF⟩, ⟨0xC050, 4, 1, 4, .S, false, 0x1FFFFF⟩, ⟨0xC080, 64, 1, 64, .S, true, 0⟩]

/-- TEL_, DBG_. -/
def rowsE : List RegRow :=
  [⟨0xD000, 4, 1, 4, .S, true, 0⟩, ⟨0xD004, 4, 1, 4, .S, false, 0x3F⟩, ⟨0xD010, 16, 1, 16, .S, true, 0⟩, ⟨0xD020, 4, 1, 4, .S, false, 0xFFFFF⟩,
   ⟨0xD024, 4, 1, 4, .S, true, 0⟩, ⟨0xD030, 4, 1, 4, .S, false, 0xFFFF⟩, ⟨0xD038, 8, 1, 8, .S, true, 0⟩, ⟨0xD040, 8, 1, 8, .S, true, 0⟩,
   ⟨0xD048, 8, 1, 8, .S, true, 0⟩, ⟨0xD050, 8, 1, 8, .S, true, 0⟩, ⟨0xD100, 8, 4, 8, .S, true, 0⟩, ⟨0xD120, 8, 4, 8, .S, true, 0⟩,
   ⟨0xD140, 8, 1, 8, .S, true, 0⟩, ⟨0xD148, 8, 1, 8, .S, true, 0⟩, ⟨0xD150, 8, 1, 8, .S, true, 0⟩,
   ⟨0xE000, 4, 1, 4, .S, true, 0⟩, ⟨0xE008, 8, 1, 8, .S, true, 0⟩, ⟨0xE010, 8, 1, 8, .A, true, 0⟩,
   ⟨0xE018, 8, 1, 8, .S, false, 0xFFFFFFFFFFFFFFFF⟩, ⟨0xE020, 4, 1, 4, .S, false, 0xFFFFFFFF⟩, ⟨0xE024, 4, 1, 4, .S, false, 1⟩,
   ⟨0xE028, 4, 1, 4, .S, true, 0⟩, ⟨0xE040, 32, 1, 32, .S, true, 0⟩, ⟨0xE080, 8, 16, 8, .S, true, 0⟩, ⟨0xE100, 4, 1, 4, .S, false, 3⟩,
   ⟨0xE104, 4, 1, 4, .S, false, 3⟩, ⟨0xE108, 8, 1, 8, .S, true, 0⟩, ⟨0x10000, 384, 170, 384, .F, true, 0⟩, ⟨0x20000, 64, 1024, 64, .S, true, 0⟩]

/-- The register map of chapter 14. -/
def regRows : List RegRow := rowsA ++ rowsB ++ rowsC ++ rowsD ++ rowsE

/-- A register found at an offset: its row, its index and the byte within it. -/
structure RegAt where
  row : RegRow
  k : Nat
  o : Nat
  deriving DecidableEq, Repr

/-- The row covers an offset. -/
def RegRow.covers (r : RegRow) (off : Nat) : Bool :=
  decide (r.first ≤ off ∧ (off - r.first) / r.stride < r.count ∧ (off - r.first) % r.stride < r.bytes)

/-- The register at an offset, none where none lies there (step 1 of R256). -/
def regAt (off : Nat) : Option RegAt :=
  (regRows.find? fun r => r.covers off).map fun r => ⟨r, (off - r.first) / r.stride, (off - r.first) % r.stride⟩

/-- The always-on domain serves these offsets (R292). -/
def aonReg (off : Nat) : Bool := decide ((0x1000 ≤ off ∧ off < 0x2000) ∨ (0xB000 ≤ off ∧ off < 0xD000))

/-! ### Who reads or writes (R293, R294, R296) -/

/-- The party of an access: its path (0 host, 1 own control core, 2 + c cluster c), privilege, JOB, and whether it is the control
core's handler. -/
structure Acc where
  path : Nat
  sup : Bool
  job : Nat := 0
  viewer : Bool := false
  deriving DecidableEq, Repr

/-- The access of a party outside. -/
def accOf : Party → Acc
  | .host => { path := 0, sup := true }
  | .remote c p j => { path := 2 + c.val, sup := p, job := j.toNat }

/-- Step 2 of R256. -/
def RPriv.allows (p : RPriv) (a : Acc) (write : Bool) : Bool :=
  match p with
  | .S => a.sup
  | .A => true
  | .R | .F | .V => !write || a.sup

/-! ### Values -/

/-- CLU_ID (R5). -/
def idValue (i : Ident) : Nat :=
  i.stepping.code + fld i.edgeLog2 8 + fld i.cores 12 + fld i.loamMib 16 + fld i.cluster.val 24 + fld i.die.val 29

/-- The enabled cores of the live image, none where no image is live. -/
def State.liveCores (s : State) : List Nat := if s.str.liveValid then s.str.live.logical else []

/-- CLU_LCORES (R160). -/
def State.lcores (s : State) : Nat :=
  let l := s.liveCores
  l.length + ((List.range 4).map fun i => fld (l.getD i 7) (4 + 4 * i)).sum

/-- CMD and HDL of CLU_CORE_STATUS (07, Registers). -/
def Phase.cmdCode : Phase → Nat
  | .idle => 0
  | .issuing => 1
  | .running => 2
  | .preempting | .saving | .restoring => 3
  | .aborting => 4
  | .waitRange => 5
def Phase.hdlCode : Phase → Nat
  | .idle => 0
  | .aborting => 2
  | .waitRange => 3
  | _ => 1

/-- CLU_CORE_STATUS. -/
def State.coreStatus (s : State) (c : Nat) : Nat :=
  let x := s.core c
  x.nq.length + fld x.uq.length 5 + fld x.cmd.phase.cmdCode 8 + fld (b2n (x.saved.any fun p => p.1.abort.isNone)) 11 + fld x.hdl.phase.hdlCode 12 +
  fld x.lastFault 16 + fld x.lastLayer 32 + fld x.lastOperator 48

/-- STR_LIVE_CORES. -/
def State.liveBypass (s : State) : Nat :=
  ((List.range 4).map fun n =>
    fld (if s.liveCores.contains n then popCount (2 ^ s.id.edgeLog2) (s.str.live.bypass.getD n 0) else 0xFF) (8 * n)).sum

/-- Columns 32 w to 32 w + 31 of a core that are suspect (R104). -/
def State.suspectMap (s : State) (c w : Nat) : Nat :=
  ((List.range 32).map fun i => if (s.core c).suspect.contains (32 * w + i) then 2 ^ i else 0).sum

/-- Inserts a credit entry in order of DEST. -/
def insCredit (e : CreditEnt) : List CreditEnt → List CreditEnt
  | [] => [e]
  | x :: l => if e.dest < x.dest then e :: x :: l else x :: insCredit e l

/-- The credit entry that MSG_CREDIT_SEL names, in ascending order of DEST. -/
def State.creditAt (s : State) : Option CreditEnt := (s.str.live.credits.foldl (fun l e => insCredit e l) [])[s.msg.creditSel]?

/-- MSG_CREDIT_GEN. -/
def State.creditGenValue (s : State) : Nat :=
  match s.creditAt with
  | none => 0
  | some e =>
    let g := (s.credit e.dest).gen
    (g.map (·.toNat)).getD 0 + fld (b2n g.isSome) 8 + fld 1 9

/-- MSG_CREDIT_DATA. -/
def State.creditDataValue (s : State) : Nat :=
  match s.creditAt with
  | none => 0
  | some e => s.creditAvail e.dest + fld e.allot 16 + fld e.dest 32

/-- A delivery or status entry waits for room in a ring. -/
def State.ringWaiting (s : State) (c r : Nat) : Bool :=
  let names (tag : Nat) : Bool := match s.str.live.handler tag with
    | some h => h.core == c && h.ring == r
    | none => false
  s.msg.slots.any (fun e => e.2.delivering && names e.2.tag) || 
    (List.range 5).any fun k => names (tabGet 0 s.msg.statusTag k) && decide (s.statusRoom k < s.statusOf k)

/-- MSG_RING_STATUS; zero for a ring that the live image does not hold. -/
def State.ringStatus (s : State) (c r : Nat) : Nat :=
  let x := s.ring c r
  if (s.str.live.ring c r).isNone then 0
  else x.wr + fld x.rd 16 + fld x.occ 32 + fld x.gen.toNat 49 + fld (b2n (s.str.live.ring c r).isSome) 57 + fld (b2n (s.ringWaiting c r)) 58

/-- CMB_SLOT_STATUS.STATE. -/
def State.slotState (s : State) (n : Nat) : Nat :=
  let x := s.slot n
  if x.delivering then 2
  else if x.count ≠ 0 ∨ x.failCur ∨ x.failNext ∨ s.msg.parked.any (fun p => p.slot == n) then 1 else 0

/-- CMB_SLOT_STATUS. -/
def State.slotStatus (s : State) (n : Nat) : Nat :=
  let x := s.slot n
  s.slotState n + fld (b2n x.failCur) 2 + fld (b2n x.failNext) 3 + fld x.round 4 + fld (x.next % 1024) 12 + fld (min x.count 1023) 22 +
  fld (min (s.msg.parked.filter fun p => p.slot == n).length 1023) 32 + fld x.len 42

/-- Waits pending on a counter. -/
def State.waiters (s : State) (sc : Nat) : Nat :=
  (allWho.filter fun w => match (s.item w).pend with
    | .wait n _ _ => n == sc
    | _ => false).length

/-- SYN_PEEK_DATA. -/
def State.synPeek (s : State) : Nat :=
  let n := s.syn.peekSel
  (s.sc n).toNat + (match s.str.live.sync n with
    | some r => fld r.scope 32 + fld (if r.scope = 0 then r.owner else 7) 34 + fld 1 37
    | none => fld 7 34) + fld (s.waiters n) 38

/-- A package-scope release of the item in a context waits for the port buffer (R193, R196, R199): its SYN.ARRIVE, its SYN_ARRIVE
store, or the arrive on DONE_SC at its end. -/
def State.releasing (s : State) (w : Who) : Bool :=
  let i := s.item w
  let past := i.ending || (match i.abort with
    | some a => a.poisoned
    | none => false)
  let done := (s.ctx w).holds && past && (match s.str.live.sync i.hdr.doneSc with
    | some r => r.scope == 2
    | none => false) && !s.released i.no 2
  done || i.blocked == some 10 || (match i.pend with
    | .arrive _ scope _ => scope == 2
    | _ => false)

/-- An aborted item that settles beside another command waits for the release of its package-scope DONE_SC (R159, R196). -/
def State.dyingReleases (s : State) : Bool := (List.range 5).any fun c => (s.core c).dying.any fun i =>
  (match i.abort with
    | some a => a.poisoned
    | none => false) && (match s.str.live.sync i.hdr.doneSc with
    | some r => r.scope == 2
    | none => false) && !s.released i.no 2

/-- SYN_PBUF_STATUS. -/
def State.pbufStatus (s : State) : Nat :=
  let draining := s.port.flushing || allWho.any s.releasing || s.dyingReleases
  s.port.used + fld (s.port.pbuf.filter (·.atomic)).length 7 + fld (b2n draining) 14

/-- DMA_CH_STATUS. -/
def State.chanStatus (s : State) (ch : Nat) : Nat :=
  let c := s.chan ch
  let moving := c.run.any fun r => !r.stopped && decide (r.step < r.desc.units)
  let armed := match c.queue with
    | r :: _ => r.desc.armed && c.run.isEmpty
    | [] => false
  let st := if moving then 1 else if !c.run.isEmpty then 3 else if armed then 2 else 0
  let r := c.run.head?
  let done := match c.doneFree, r with
    | some k, _ => (Config.freeWord k).toNat
    | none, some r => r.done % 2 ^ 32
    | none, none => 0
  st + fld c.queue.length 2 + fld (b2n (!s.chanBusy ch)) 6 +
  (match r with
   | some r => fld r.who.core.val 7 + fld (b2n (isHdl r.who)) 10
   | none => 0) + fld c.fault 16 + fld done 32

/-- PWR_STATUS. -/
def State.pwrStatus (s : State) : Nat :=
  let p := s.pwr
  p.state.code + ((List.range 4).map fun n => fld (b2n (s.core n).asleep) (3 + n)).sum + fld (b2n p.throttle) 7 + fld (b2n p.pfw) 8 +
  fld (b2n p.pfSafe) 9 + fld (b2n p.offReady) 10 + fld p.fclk 16

/-- KiB, rounded up. -/
def kib (n : Nat) : Nat := cdiv n 1024

/-- MRL_STATUS. -/
def State.mrlStatus (s : State) : Nat :=
  let m := s.mrl
  b2n m.active + fld (b2n m.compact) 1 + fld (kib m.used) 5 + fld (kib m.queueBytes) 16 + fld m.replay 24

/-- TEL_LOG_DATA. -/
def State.logValue (s : State) : Nat :=
  match s.tel.log[s.tel.logSel]? with
  | none => 0
  | some e => e.code + fld e.core 16 + fld (b2n e.hdl) 19 + fld (b2n e.borne) 20 + fld e.detail 32 + fld e.time 64

/-- TEL_MON_STATUS. -/
def State.monStatus (s : State) : Nat :=
  s.tel.temp.toNat + fld (b2n s.pwr.clkHold) 8 + fld (b2n s.pwr.droop.isSome) 9 + fld (b2n s.tel.droneBad) 10 + fld s.tel.fclkMeas 16

/-- STR_STATUS. -/
def State.strStatus (s : State) : Nat :=
  let x := s.str
  b2n x.liveSlot + fld (b2n x.liveValid) 1 + fld x.stage.code 2 + fld (b2n x.commitDone) 5 + fld (b2n x.awaitConfirm) 6

/-- ARR_BQ_STATUS. -/
def BatchQ.status (b : BatchQ) : Nat :=
  b.fill.length + fld b.shipped.length 9 + fld ((b.shipped.head?.map List.length).getD 0) 16

/-- DBG_SNAP_STATUS. -/
def Dbg.snapStatus (d : Dbg) : Nat := d.snapState + fld d.snap.length 2 + fld d.omitted 13 + fld d.missed 48

/-- A counter kept in cycles and shown in units of 1,024 (R267). -/
def unitReg (n : Nat) : Nat := ctrReg (min (n / 1024) (2 ^ 48 - 1))

/-- CLU_ to VEC_: the value of register `k` of a row, by the row's first offset. -/
def State.valueA (s : State) (first k : Nat) : Nat :=
  match first with
  | 0x0000 => idValue s.id
  | 0x0004 => s.lcores
  | 0x0070 => s.coreStatus k
  | 0x1004 => s.strStatus
  | 0x100C => s.str.stageBytes.length
  | 0x1010 => s.str.valFault + fld s.str.valSection 16
  | 0x1014 => s.str.valOffset
  | 0x1018 => s.str.shownId
  | 0x101C => s.str.epoch.toNat
  | 0x1024 => s.str.deltaState + fld s.str.deltaSkipped 8 + fld s.str.deltaFault 16
  | 0x1028 => s.str.deltaSeq
  | 0x102C => s.liveBypass
  | 0x2000 => s.err.addr
  | 0x2004 => b2n s.err.valid + fld s.err.store 1 + fld s.err.core 4 + fld s.err.vb 7 + fld s.err.port 9 + fld (b2n s.err.more) 12
  | 0x2008 => ctrReg s.ctr.loamCe
  | 0x2010 => ctrReg s.ctr.kaoCe
  | 0x4000 => ctrReg s.ctr.arrSat
  | 0x4008 => ctrReg s.ctr.arrNan
  | 0x4010 => ctrReg s.ctr.arrRetry
  | 0x4100 => s.suspectMap (k / 8) (k % 8)
  | 0x4200 => b2n (s.bqOf k).en + fld (s.bqOf k).capM1 8 + fld (s.bqOf k).deadline 16
  | 0x4204 => (s.bqOf k).notify
  | 0x4208 => (s.bqOf k).status
  | 0x420C => (s.bqOf k).seq.toNat
  | 0x5000 => ctrReg s.ctr.vecSat
  | 0x5008 => ctrReg s.ctr.vecNan
  | _ => 0

/-- MSG_ to DMA_. -/
def State.valueB (s : State) (first k : Nat) : Nat :=
  match first with
  | 0x6000 => b2n (tabGet false s.msg.statusEn k) + fld (tabGet 0 s.msg.statusTag k) 16
  | 0x6030 => s.msg.creditSel
  | 0x6034 => s.creditGenValue
  | 0x6038 => s.creditDataValue
  | 0x6040 => s.msg.peekSel
  | 0x6100 => s.msg.refFault + fld s.msg.refTag 16 + fld s.msg.refSrc 32
  | 0x6200 => ctrReg s.ctr.msgDiscard
  | 0x6208 => ctrReg s.ctr.msgStale
  | 0x6210 => ctrReg s.ctr.msgDrop
  | 0x6218 => ctrReg s.ctr.creditLost
  | 0x6400 => s.ringStatus (k / 32) (k % 32)
  | 0x6900 => s.msg.node + fld (b2n s.msg.nodeValid) 16
  | 0x6904 => b2n s.msg.paceEn + fld s.msg.maxRate 8 + fld s.msg.paceStep 19
  | 0x6908 => s.msg.paceSel
  | 0x6910 => (s.pace s.msg.paceSel).rate + fld (s.pace s.msg.paceSel).allow 16
  | 0x6918 => ctrReg s.ctr.echo
  | 0x6A00 => s.cells + fld s.msg.parked.length 16
  | 0x7000 => s.slotStatus k
  | 0x8010 => s.syn.peekSel
  | 0x8018 => s.synPeek
  | 0x8024 => s.pbufStatus
  | 0xA000 => b2n (s.chan k).en
  | 0xA100 => s.chanStatus k
  | 0xA200 => b2n s.dma.errValid + fld (b2n s.dma.errMore) 1 + fld s.dma.errCh 11 + fld s.dma.errFault 16
  | 0xA208 => s.dma.errAddr
  | 0xA300 => s.ev (4 * k) + fld (s.ev (4 * k + 1)) 8 + fld (s.ev (4 * k + 2)) 16 + fld (s.ev (4 * k + 3)) 24
  | 0xA340 => ctrReg s.ctr.evLost
  | _ => 0

/-- PWR_ to DBG_. -/
def State.valueC (s : State) (first k : Nat) : Nat :=
  match first with
  | 0xB000 => s.pwr.napAfter + fld s.pwr.sleepAfter 12 + fld s.pwr.csleep 28
  | 0xB004 => b2n s.pwr.stayUp
  | 0xB008 => s.pwrStatus
  | 0xB010 => ctrReg s.ctr.throttleTicks
  | 0xC000 => s.mrlStatus
  | 0xC004 => s.mrl.durable
  | 0xC008 => b2n s.mrl.torn + fld (b2n s.mrl.dead) 1
  | 0xC00C => s.mrl.halfGen
  | 0xC040 => s.mrl.sealSerial + fld s.mrl.sealFault 32 + fld (b2n s.mrl.sealDone) 48
  | 0xC050 => s.mrl.readAddr
  | 0xC080 => leNat s.mrl.readData
  | 0xD000 => s.tel.log.length + fld s.tel.lost 16
  | 0xD004 => s.tel.logSel
  | 0xD010 => s.logValue
  | 0xD020 => s.tel.vdroop + fld s.tel.vover 10
  | 0xD024 => s.monStatus
  | 0xD030 => s.tel.histSel
  | 0xD038 => s.histTotal s.tel.histSel
  | 0xD040 => ctrReg s.ctr.faultCount
  | 0xD048 => ctrReg s.ctr.linkRetry
  | 0xD050 => ctrReg s.ctr.stateCe
  | 0xD100 => unitReg (tabGet 0 s.ctr.arrBusy k)
  | 0xD120 => unitReg (tabGet 0 s.ctr.vecBusy k)
  | 0xD140 => ctrReg s.ctr.dmaBeats
  | 0xD148 => ctrReg s.ctr.msgBytes
  | 0xD150 => ctrReg s.ctr.activeTicks
  | 0xE000 => kib s.traceUsed + fld (b2n (s.dbg.dropped != 0)) 16 + fld (b2n (s.str.liveValid && (s.str.live.regionOf .trace).isNone)) 17
  | 0xE008 => ctrReg s.ctr.traceDrop
  | 0xE010 => s.ts.toNat
  | 0xE018 => s.align.toNat
  | 0xE020 => s.dbg.pingDest
  | 0xE028 => s.dbg.pingState + fld s.dbg.pingFault 16
  | 0xE040 => s.dbg.t1 + fld s.dbg.t2 64 + fld s.dbg.t3 128 + fld s.dbg.t4 192
  | 0xE080 => ctrReg (tabGet 0 s.ctr.watchFire k)
  | 0xE100 => s.dbg.spread
  | 0xE108 => s.dbg.snapStatus
  | _ => 0

/-- The value of a register that has one; WO and W1S fields read zero (R295). -/
def State.regValue (s : State) (first k : Nat) : Nat :=
  if first < 0x6000 ∨ 0x30000 ≤ first then s.valueA first k else if first < 0xB000 then s.valueB first k else s.valueC first k

/-! ### Registers whose reads do more -/

/-- MSG_PEEK_DATA: the selected ring entry or cell; poison is a failed access (R183, R302). -/
def State.peekRead (s : State) : State × Rd (List Byte) :=
  let v := s.msg.peekSel
  let c := bits v 4 2
  let r := bits v 9 5
  let e := bits v 25 10
  if bits v 1 0 = 0 then
    (if s.ringSize c r = 0 then (s, .ok (List.replicate 64 0)) else s.loamRead 6 (s.ringAddr c r ((s.ring c r).rd + e)) 64)
  else if e < s.cells then s.loamRead 6 (s.cellAddr e) 64 else (s, .ok (List.replicate 64 0))

/-- The record of slot `r` of core `c` (R274): 0 the running command, 1 the running handler, then the ended ones. -/
def State.recordAt (s : State) (c r : Nat) : Option Rec :=
  let x := s.core c
  let cur (y : Ctx) : Option Rec := if y.holds then some y.item.record else none
  if r = 0 then cur x.cmd else if r = 1 then cur x.hdl else x.recs[r - 2]?

/-- DBG_REC, filtered by JOB (R276). -/
def State.recordRead (s : State) (a : Acc) (k : Nat) : List Byte :=
  match s.recordAt (k / 34) (k % 34) with
  | some r => if a.sup || r.job == a.job then r.bytes else List.replicate 384 0
  | none => List.replicate 384 0

/-- A snapshot entry as its 64 bytes (R286); its contents' offsets are not given (log 19). -/
def SnapEnt.bytes (e : SnapEnt) : List Byte :=
  leBytes 8 e.time ++ leBytes 1 e.kind ++ leBytes 1 e.who ++ sliceB (Config.snapBody e.kind e.vals) 0 54

/-- A chain run that writes statistic register `st` of core `c` is in progress: an epilogue with tiles run and tiles left. -/
def State.statBusy (s : State) (c st : Nat) : Bool :=
  (s.core c).jobs.any fun j => !j.epi.isEmpty && decide (j.tilesLeft < (gridTiles j.op.m j.op.n).length) &&
    (decodeChain j.epi).stages.any fun t => t.op == 0x0F && t.stat == st

/-- VEC_STAT_PEEK: undefined while a chain run that writes it is in progress. -/
def State.statPeek (s : State) (k : Nat) : State × Nat :=
  if s.statBusy (k / 1024) (k % 1024 / 256) then
    let q := s.freeWord
    (q.1, q.2.toNat)
  else (s, (tabGet 0 (s.core (k / 1024)).stats (k % 1024)).toNat)

/-- MSG_VIEW (R173): the control core's own handler sees its message. -/
def State.viewBytes (s : State) (a : Acc) (o n : Nat) : State × Rd (List Byte) :=
  match a.viewer, (s.core 4).hdl.item.msg with
  | true, some m => s.viewRead 4 o n m
  | _, _ => (s, .ok (List.replicate n 0))

/-- Reads `n` bytes at byte `o` of a register. -/
def State.regBytes (s : State) (a : Acc) (x : RegAt) (n : Nat) : State × Rd (List Byte) :=
  let cut (b : List Byte) : List Byte := sliceB b x.o n
  match x.row.first with
  | 0x6080 =>
    let q := s.peekRead
    (q.1, match q.2 with
      | .ok b => .ok (cut b)
      | .bad f => .bad f)
  | 0x6C00 => s.viewBytes a x.o n
  | 0x10000 => (s, .ok (cut (s.recordRead a x.k)))
  | 0x20000 => (s, .ok (cut ((s.dbg.snap[x.k]?.map SnapEnt.bytes).getD (List.replicate 64 0))))
  | 0x30000 =>
    let q := s.statPeek x.k
    (q.1, .ok (leBytes n q.2))
  | f => (s, .ok (cut (leBytes x.row.bytes (s.regValue f x.k))))

/-! ### Accesses (R256, R293, R294) -/

/-- Where the latches of a path for the 64-bit register at offset `off` stand in the table. -/
def latchKey (a : Acc) (off : Nat) : Nat := a.path * 131072 + off / 8
/-- A path's latches for a 64-bit register. -/
def State.latch (s : State) (a : Acc) (off : Nat) : Latch := tabGet {} s.latches (latchKey a off)
/-- Replaces a path's latches for a register. -/
def State.setLatch (s : State) (a : Acc) (off : Nat) (l : Latch) : State := { s with latches := tabSet s.latches (latchKey a off) l }

/-- Reads a word: bits 31:0 of a 64-bit register latch bits 63:32 for the path, and a read of bits 63:32 consumes the latch (R294). -/
def State.readWord (s : State) (a : Acc) (x : RegAt) (off : Nat) : State × Rd Nat :=
  if x.row.bytes = 8 ∧ x.o = 0 then
    let q := s.regBytes a x 8
    match q.2 with
    | .bad f => (q.1, .bad f)
    | .ok b => (q.1.setLatch a off { q.1.latch a off with rd := some (BitVec.ofNat 32 (fieldB b 4 4)) }, .ok (fieldB b 0 4))
  else match (if x.row.bytes = 8 then (s.latch a off).rd else none) with
    | some v => (s.setLatch a off { s.latch a off with rd := none }, .ok v.toNat)
    | none =>
      let q := s.regBytes a x 4
      (q.1, match q.2 with
        | .ok b => .ok (leNat b)
        | .bad f => .bad f)

/-- Steps 1 and 2 of R256 for a read. -/
def readFault (a : Acc) : Option RegAt → Nat
  | none => 0x0C01
  | some x => if x.row.priv.allows a false then 0 else 0x0C02

/-- One half of a 64-bit read that covers two words: an unmapped half reads zero (R294). -/
def State.readHalf (s : State) (a : Acc) (x : Option RegAt) : State × Rd Nat :=
  match x with
  | none => (s, .ok 0)
  | some r =>
    let q := s.regBytes a r 4
    (q.1, match q.2 with
      | .ok b => .ok (leNat b)
      | .bad f => .bad f)

/-- A 64-bit read (R294). -/
def State.read64 (s : State) (a : Acc) (off : Nat) : State × Rd Nat :=
  let lo := regAt off
  let hi := regAt (off + 4)
  match lo with
  | some x =>
    if x.row.bytes = 8 ∧ x.o = 0 then
      (if !x.row.priv.allows a false then (s, .bad 0x0C02)
       else
         let q := s.regBytes a x 8
         (q.1, match q.2 with
           | .ok b => .ok (leNat b)
           | .bad f => .bad f))
    else
      let fl := readFault a lo
      let fh := if hi.isNone then 0 else readFault a hi
      if fl ≠ 0 then (s, .bad fl) else if fh ≠ 0 then (s, .bad fh)
      else
        let p := s.readHalf a lo
        let q := p.1.readHalf a hi
        (q.1, match p.2, q.2 with
          | .ok l, .ok h => .ok (l + h * 2 ^ 32)
          | .bad f, _ => .bad f
          | _, .bad f => .bad f)
  | none =>
    let fh := readFault a hi
    if fh ≠ 0 then (s, .bad fh)
    else
      let q := s.readHalf a hi
      (q.1, match q.2 with
        | .ok h => .ok (h * 2 ^ 32)
        | .bad f => .bad f)

/-- A register read of any width (R256, R293): the value, or the fault. -/
def State.regRead (s : State) (a : Acc) (off : Nat) (w : Width) : State × Rd Nat :=
  match w with
  | .b1 | .b2 => (s, .bad 0x0C01)
  | .b4 =>
    if off % 4 ≠ 0 then (s, .bad 0x0C01)
    else
      let f := readFault a (regAt off)
      if f ≠ 0 then (s, .bad f)
      else match regAt off with
        | some x => s.readWord a x off
        | none => (s, .bad 0x0C01)
  | .b8 => if off % 8 ≠ 0 then (s, .bad 0x0C01) else s.read64 a off

end Sys2Proof.Machine
end

