-- ==== Sys2Proof/Machine/RegWrite.lean ====
section
/-! DEFINITION. Machine/RegWrite.lean: register writes (R256, R293 to R295, R302): the checks, the access shapes, and what a write of a
register on the fast clock does. The STR_, PWR_ and MRL_ blocks follow in Control.lean. -/

namespace Sys2Proof.Machine

/-! ### Range checks of the fast blocks (step 4 of R256) -/

/-- A lifetime bin exists (R268). -/
def binOk (b : Nat) : Bool :=
  decide (b ≤ 0x26 ∨ (0x100 ≤ b ∧ b ≤ 0x527) ∨ (0x530 ≤ b ∧ b ≤ 0x533) ∨ (0x540 ≤ b ∧ b ≤ 0x547))

/-- ARR_BQ_CFG and ARR_BQ_NOTIFY may be written (R100). -/
def BatchQ.quiet (b : BatchQ) : Bool := b.fill.isEmpty && b.shipped.isEmpty

/-- A counter is allocated at cluster or package scope. -/
def State.scShared (s : State) (n : Nat) : Bool :=
  match s.str.live.sync n with
  | some r => r.scope != 0
  | none => false

/-- CLU_ENQ: ADDR, URGENT, and a core that counts as enabled (07, Registers). -/
def State.enqOk (s : State) (c v : Nat) : Bool :=
  bits v 24 0 % 64 == 0 && !(bitAt v 25 && c == 4) && s.str.liveValid && !s.str.awaitConfirm && s.pwr.start == .released &&
    coreOn s.str.live.coreEn c

/-- MSG_RING_CTRL. -/
def State.ringCtrlOk (s : State) (v : Nat) : Bool :=
  decide (bits v 7 5 ≤ 4) && (!bitAt v 8 || (s.str.live.ring (bits v 7 5) (bits v 4 0)).isSome)

/-- A probe may start (R281). -/
def State.pingOk (s : State) : Bool := (s.str.live.credit s.dbg.pingDest).isSome && s.dbg.pingState != 1

/-- Every field that a write of `v` to register `k` of a fast row sets is in its range. -/
def State.fastRange (s : State) (first k v : Nat) : Bool :=
  match first with
  | 0x0020 => s.enqOk k v
  | 0x0050 => !(bitAt v 0 && k == 4)
  | 0x4200 => (s.bqOf k).quiet && bits v 31 16 != 0
  | 0x4204 => (s.bqOf k).quiet && s.scShared (bits v 12 0)
  | 0x6020 => s.ringCtrlOk v
  | 0x6038 => decide (bits v 15 0 ≤ (s.creditAt.map (·.allot)).getD 0)
  | 0x6040 => decide (bits v 1 0 ≤ 1)
  | 0x6900 => !s.msg.nodeValid
  | 0x6904 => bits v 18 8 != 0 && bits v 26 19 != 0
  | 0x6910 => decide (1 ≤ bits v 10 0 ∧ bits v 10 0 ≤ s.msg.maxRate)
  | 0x8008 => (s.str.live.sync (bits v 12 0)).isSome
  | 0xD020 => decide (400 ≤ bits v 9 0 ∧ bits v 9 0 ≤ 1000 ∧ bits v 9 0 < bits v 19 10)
  | 0xD030 => binOk (bits v 15 0)
  | 0xE024 => !bitAt v 0 || s.pingOk
  | 0xE100 => decide (bits v 1 0 ≤ 2)
  | _ => true

/-! ### What a write does (fast blocks) -/

/-- CLU_CORE_CTRL (R157, R159): each bit acts once, in bit order. -/
def State.coreCtrl (s : State) (c : Fin 5) (v : Nat) : State :=
  let s := if bitAt v 0 then s.requestPreempt c.val else s
  let s := if bitAt v 1 then s.killItem ⟨c, .cmd⟩ else s
  let s := if bitAt v 2 then s.killItem ⟨c, .hdl⟩ else s
  if bitAt v 3 then s.flushQueues c.val else s

/-- CLU_ENQ (R141, R142). -/
def State.enqWrite (s : State) (c v : Nat) : State × Nat :=
  let urgent := bitAt v 25
  if !(s.core c).roomFor urgent then (s, 0x0704) else (s.enqueue c urgent ⟨bits v 24 0, true, none⟩, 0)

/-- MSG_RING_CTRL (R180). -/
def State.ringCtrl (s : State) (v : Nat) : State :=
  let c := bits v 7 5
  let s := if bitAt v 8 then s.advanceRing c (bits v 4 0) else s
  if bitAt v 9 then s.advanceAll c else s

/-- MSG_CREDIT_DATA.AVAIL: also mends a damaged entry (R265). -/
def State.creditWrite (s : State) (v : Nat) : State :=
  match s.creditAt with
  | none => s
  | some e =>
    { s.setCredit e.dest { s.credit e.dest with avail := bits v 15 0 } with
        damage := s.damage.filter fun d => d != Damage.credit e.dest && d != Damage.noted e.dest }

/-- SYN_ARRIVE (R199); a damaged counter refuses the operation (R265, R302). -/
def State.synArriveDo (s : State) (v : Nat) : State × Nat :=
  let n := bits v 12 0
  let f := s.synArriveFault n
  if f ≠ 0 then (s, f) else if s.scBad n then (s, 0x0C0A) else (s.arriveSc n (BitVec.ofNat 32 (bits v 63 32)) 0xFF, 0)

/-- DBG_PING_CTRL.GO (R281): the probe leaves and takes a credit. -/
def State.pingGo (s : State) : State :=
  let d := s.dbg.pingDest
  let c := s.credit d
  let t := s.setCredit d { c with avail := c.avail - 1, out := c.out + 1 }
  ({ t with dbg := { t.dbg with pingState := 1, pingFault := 0, pingTicks := 0, pingTo := d, t1 := s.ts.toNat } }).send (.probe d)

/-- The credit of a probe returns (R281). -/
def State.probeCredit (s : State) (d : Nat) : State :=
  let c := s.credit d
  match s.str.live.credit d with
  | some e => s.setCredit d { c with avail := min e.allot (c.avail + 1), out := c.out - 1 }
  | none => s.setCredit d { c with out := c.out - 1 }

/-- A reply to a probe (R281): replies come in the order of the probes, so a probe that timed out is answered first (log 38). -/
def State.probeReply (s : State) (t2 t3 : Word64) (fault : BitVec 16) (t4 : Word64) : State :=
  match s.dbg.pingLate with
  | d :: l => { s with dbg := { s.dbg with pingLate := l } }.probeCredit d
  | [] =>
    if s.dbg.pingState ≠ 1 then s
    else
      let t := s.probeCredit s.dbg.pingTo
      if fault = 0 then { t with dbg := { t.dbg with pingState := 2, t2 := t2.toNat, t3 := t3.toNat, t4 := t4.toNat } }
      else { t with dbg := { t.dbg with pingState := 3, pingFault := fault.toNat } }

/-- DBG_SNAP_CTRL (R285, R288). -/
def State.snapCtrl (s : State) (v : Nat) : State :=
  let s := if bitAt v 0 then s.askSnap 0 0 else s
  if bitAt v 1 ∧ s.dbg.snapState = 2 then { s with dbg := { s.dbg with snapState := 0, snap := [], omitted := 0 } } else s

/-- Fast blocks CLU_ to MSG_. -/
def State.fastDoA (s : State) (first k v : Nat) : State × Nat :=
  match first with
  | 0x0020 => s.enqWrite k v
  | 0x0050 => (s.coreCtrl (Fin.ofNat 5 k) v, 0)
  | 0x2004 => (if bitAt v 0 then { s with err := { s.err with valid := false, more := false } } else s, 0)
  | 0x4200 => (s.setBq k { s.bqOf k with en := bitAt v 0, capM1 := bits v 15 8, deadline := bits v 31 16 }, 0)
  | 0x4204 => (s.setBq k { s.bqOf k with notify := bits v 12 0 }, 0)
  | 0x6000 => ({ s with msg := { s.msg with statusEn := tabSet s.msg.statusEn k (bitAt v 0), statusTag := tabSet s.msg.statusTag k (bits v 31 16) } }, 0)
  | 0x6020 => (s.ringCtrl v, 0)
  | 0x6030 => ({ s with msg := { s.msg with creditSel := v } }, 0)
  | 0x6038 => (s.creditWrite v, 0)
  | 0x6040 => ({ s with msg := { s.msg with peekSel := v } }, 0)
  | 0x6900 => ({ s with msg := { s.msg with node := bits v 11 0, nodeValid := bitAt v 16 } }, 0)
  | 0x6904 => ({ s with msg := { s.msg with paceEn := bitAt v 0, maxRate := bits v 18 8, paceStep := bits v 26 19 } }, 0)
  | 0x6908 => ({ s with msg := { s.msg with paceSel := v } }, 0)
  | 0x6910 => (s.setPace s.msg.paceSel { s.pace s.msg.paceSel with rate := bits v 10 0 }, 0)
  | _ => (s, 0)

/-- Fast blocks SYN_ to DBG_. -/
def State.fastDoB (s : State) (first k v : Nat) : State × Nat :=
  match first with
  | 0x8000 => s.synArriveDo v
  | 0x8008 => (s.synSetSc (bits v 12 0) (BitVec.ofNat 32 (bits v 63 32)), 0)
  | 0x8010 => ({ s with syn := { s.syn with peekSel := v } }, 0)
  | 0x8020 => (if bitAt v 0 then { s with port := { s.port with flushing := !s.port.pbuf.isEmpty } } else s, 0)
  | 0xA000 => (s.setChanEn k (bitAt v 0), 0)
  | 0xA200 => (if bitAt v 0 then { s with dma := { s.dma with errValid := false, errMore := false } } else s, 0)
  | 0xD004 => ({ s with tel := { s.tel with logSel := v } }, 0)
  | 0xD020 => ({ s with tel := { s.tel with vdroop := bits v 9 0, vover := bits v 19 10 } }, 0)
  | 0xD030 => ({ s with tel := { s.tel with histSel := v } }, 0)
  | 0xE018 => ({ s with align := BitVec.ofNat 64 v }.emit 13 .align 0xFF 32 [s.ts.toNat, v], 0)
  | 0xE020 => ({ s with dbg := { s.dbg with pingDest := v } }, 0)
  | 0xE024 => (if bitAt v 0 then s.pingGo else s, 0)
  | 0xE100 => ({ s with dbg := { s.dbg with spread := v } }, 0)
  | 0xE104 => (s.snapCtrl v, 0)
  | _ => (s, 0)

/-- A write of `v` to register `k` of a fast row: the state, and the fault of R302 or 0. -/
def State.fastDo (s : State) (first k v : Nat) : State × Nat :=
  if first < 0x8000 then s.fastDoA first k v else s.fastDoB first k v

/-! ### Access shapes (R256, R293, R294) -/

/-- What the blocks provide: the range check of a write, and its effect, both of row, index, byte offset and value. -/
structure Blocks where
  range : State → Nat → Nat → Nat → Nat → Bool
  act : State → Nat → Nat → Nat → Nat → State × Nat

/-- The blocks on the fast clock. -/
def fastBlocks : Blocks := { range := fun s f k _ v => s.fastRange f k v, act := fun s f k _ v => s.fastDo f k v }

/-- Steps 1 to 4 of R256 for a write of the whole register, or of a word of a wide one. -/
def writeFault (b : Blocks) (s : State) (a : Acc) (x : RegAt) (v : Nat) : Nat :=
  if !x.row.priv.allows a true then 0x0C02
  else if x.row.ro then 0x0C01
  else if v &&& (2 ^ 64 - 1 - x.row.mask) ≠ 0 ∨ !b.range s x.row.first x.k x.o v then 0x0C01
  else 0

/-- Two words lie in one register that is wider than 64 bits. -/
def sameReg (x y : Option RegAt) : Bool :=
  match x, y with
  | some a, some b => a.row.first == b.row.first && a.k == b.k
  | _, _ => false

/-- One half of a 64-bit write that covers two words: a half on an unmapped word or on an RO register is ignored when zero; that holds
of two registers, not of two words of one (`wide`, R294). -/
def halfFault (b : Blocks) (s : State) (a : Acc) (wide : Bool) (x : Option RegAt) (v : Nat) : Nat :=
  match x with
  | none => if v = 0 then 0 else 0x0C01
  | some r => if r.row.ro ∧ v = 0 ∧ !wide then 0 else writeFault b s a r v

/-- Performs one half. -/
def halfAct (b : Blocks) (s : State) (x : Option RegAt) (v : Nat) : State × Nat :=
  match x with
  | none => (s, 0)
  | some r => if r.row.ro then (s, 0) else b.act s r.row.first r.k r.o v

/-- A 32-bit write: the lower half of a 64-bit register is held in the path's latch, the upper half commits both (R294). -/
def write32 (b : Blocks) (s : State) (a : Acc) (off v : Nat) : State × Nat :=
  match regAt off with
  | none => (s, 0x0C01)
  | some x =>
    if x.row.bytes = 8 then
      if !x.row.priv.allows a true then (s, 0x0C02)
      else if x.row.ro then (s, 0x0C01)
      else if x.o = 0 then (s.setLatch a off { s.latch a off with wr := BitVec.ofNat 32 v }, 0)
      else
        let lo := (s.latch a off).wr.toNat
        let t := s.setLatch a off { s.latch a off with wr := 0 }
        let y := { x with o := 0 }
        let f := writeFault b t a y (lo + v * 2 ^ 32)
        if f ≠ 0 then (t, f) else b.act t x.row.first x.k 0 (lo + v * 2 ^ 32)
    else
      let f := writeFault b s a x v
      if f ≠ 0 then (s, f) else b.act s x.row.first x.k x.o v

/-- A 64-bit write (R294). -/
def write64 (b : Blocks) (s : State) (a : Acc) (off v : Nat) : State × Nat :=
  let lo := regAt off
  let hi := regAt (off + 4)
  match lo with
  | some x =>
    if x.row.bytes = 8 then
      let f := writeFault b s a x v
      if f ≠ 0 then (s, f) else b.act s x.row.first x.k 0 v
    else pair lo hi
  | none => if hi.isNone then (s, 0x0C01) else pair lo hi
where
  pair (lo hi : Option RegAt) : State × Nat :=
    let wide := sameReg lo hi
    let fl := halfFault b s a wide lo (v % 2 ^ 32)
    let fh := halfFault b s a wide hi (v / 2 ^ 32)
    if fl ≠ 0 then (s, fl) else if fh ≠ 0 then (s, fh)
    else
      let p := halfAct b s lo (v % 2 ^ 32)
      if p.2 ≠ 0 then p else halfAct b p.1 hi (v / 2 ^ 32)

/-- A register write of any width (R256, R293). -/
def regWriteWith (b : Blocks) (s : State) (a : Acc) (off : Nat) (w : Width) (v : Nat) : State × Nat :=
  match w with
  | .b1 | .b2 => (s, 0x0C01)
  | .b4 => if off % 4 ≠ 0 then (s, 0x0C01) else write32 b s a off (v % 2 ^ 32)
  | .b8 => if off % 8 ≠ 0 then (s, 0x0C01) else write64 b s a off v

/-! ### Accesses from outside (R256, R266, R293, R302) -/

/-- The fault of a failed access goes to the log for the host; another cluster logs its own (R266), but an error of this cluster's own
state is logged here (R265). -/
def State.noteAccess (s : State) (p : Party) (off f : Nat) : State :=
  if f = 0 then s else match p with
    | .host => s.logOnly f off
    | .remote _ _ _ => if f = 0x0C0A then s.logOnly f off else s

/-- A write from outside, answered. -/
def outsideWrite (b : Blocks) (p : Party) (off : Nat) (w : Width) (v : Nat) (s : State) : State :=
  let q := regWriteWith b s (accOf p) off w v
  (q.1.noteAccess p off q.2).send (.regAnswer p 0 q.2)

/-- A read from outside, answered; one that fails returns zero. -/
def outsideRead (p : Party) (off : Nat) (w : Width) (s : State) : State :=
  let q := s.regRead (accOf p) off w
  match q.2 with
  | .ok v => q.1.send (.regAnswer p (BitVec.ofNat 64 v) 0)
  | .bad f => (q.1.noteAccess p off f).send (.regAnswer p 0 f)

/-- A row of the table that writes one whole register from outside: the write of R256 on the register at `off`. -/
def regRow (b : Blocks) (p : Party) (off v : Nat) (s : State) : State :=
  match regAt off with
  | none => s
  | some x =>
    let f := writeFault b s (accOf p) x v
    let q := if f ≠ 0 then (s, f) else b.act s x.row.first x.k x.o v
    (q.1.noteAccess p off q.2).send (.regAnswer p 0 q.2)

/-! ### Held traffic (R32, R237, R241, R304) -/

/-- Traffic that a port accepts: messages, credit returns, remote accesses and additions, register accesses to the fast blocks, probes. -/
def accept (x : Traffic) (s : State) : State :=
  match x with
  | .message m => acceptMessage m s
  | .credit r => acceptCredit r s
  | .access r => acceptAccess r s
  | .add sc k => acceptAdd sc.toNat k s
  | .arrive p sc v => regRow fastBlocks p 0x8000 (sc.toNat + fld v.toNat 32) s
  | .write p off w v => outsideWrite fastBlocks p off w v.toNat s
  | .read p off w => outsideRead p off w s
  | .probe src _ t2 => s.send (.probeAnswer src.toNat t2 s.ts)
  | .reply t2 t3 f t4 => s.probeReply t2 t3 f t4

/-- Traffic of the host's always-on port; everything else arrives at the memory and message ports. -/
def Traffic.ofHost : Traffic → Bool
  | .arrive .host .. | .write .host .. | .read .host .. => true
  | _ => false

/-- The fields of the live image that an access to the register block of an offset looks up (R265, log 13). -/
def blockLookups (off : Nat) : List ImgField :=
  match off / 0x1000 with
  | 0 => [.cores]
  | 4 | 8 => [.counters]
  | 6 => [.regions, .cores]
  | _ => []

/-- The fields of the live image that the acceptance of traffic looks up (R265, log 13). -/
def Traffic.lookups : Traffic → List ImgField
  | .message _ => [.regions, .cores]
  | .access _ => [.regions]
  | .add .. | .arrive .. => [.counters]
  | .write _ off _ _ | .read _ off _ => blockLookups off
  | .credit _ | .probe .. | .reply .. => []

/-- Traffic that the ports hold now (R32, R237, R241, R304), or whose lookups wait (R265): the host's register accesses need only the
fast clock. -/
def State.holds (s : State) (x : Traffic) : Bool :=
  (if x.ofHost then !s.clockOn || s.swapHeld else !s.agentsOn) || s.waitsOn x.lookups

/-- Traffic at a port: accepted, or held (R32, R237, R241, R304). What is accepted ends Idle. -/
def State.arrive (s : State) (x : Traffic) : State :=
  if s.holds x then { s with held := s.held ++ [x] } else (accept x s).activate

/-- The ports accept what they held and no longer hold: the always-on port first (R297), each in order of arrival (log 15). -/
def State.releaseHeld (s : State) : State :=
  let free := s.held.filter fun x => !s.holds x
  let go := free.filter Traffic.ofHost ++ free.filter fun x => !x.ofHost
  if go.isEmpty then s
  else (go.foldl (fun t x => accept x t) { s with held := s.held.filter fun x => s.holds x }).activate

end Sys2Proof.Machine
end

