-- ==== Sys2Proof/Machine/Send.lean ====
section
/-! DEFINITION. Machine/Send.lean: the MSG and DMA instructions as their items issue them (R167, R168, R180, R210, R211, R214). -/

namespace Sys2Proof.Machine

/-! ### MSG (R167, R168) -/

/-- The destination of a send names a core and a node that a send may name (R165, R168, R228). -/
def State.destOk (s : State) (d : Nat) : Bool :=
  decide (destCore d ≤ 4 ∧ destNode d < 4096) && (s.msg.nodeValid || destNode d == 0)

/-- The last check of R168: every destination has an entry whose allotment holds `e` credits. -/
def State.creditFault (s : State) (dests : List Nat) (e : Nat) : Bool :=
  dests.any fun d => match s.str.live.credit d with
    | some c => decide (c.allot < e)
    | none => true

/-- The checks of R168 on a send, in order: 0, or the fault. -/
def State.sendFault (s : State) (x : Send) : Nat :=
  let d := x.dests.headD 0
  if x.len < 8 ∨ (if x.masked then 48 else 256) < x.len ∨ x.addr % 4 ≠ 0 then 0x0805
  else if x.combine ∧ (x.len % 4 ≠ 0 ∨ 256 < x.offset + x.len / 4 ∨ 1022 < x.cidx) then 0x0805
  else if x.dests.isEmpty ∨ !s.destOk d then 0x0802
  else
    let f := s.itemFault x.who false x.addr x.len
    if f ≠ 0 then f else if s.creditFault x.dests (entriesOf x.len) then 0x0801 else 0

/-- A send that passes R168 begins to wait for acceptance (R169); SEND_TO runs from its decode, also while it waits for earlier
instructions of its item (R151, R257). -/
def sendIssue (x : Send) (s : State) : Option State :=
  let e := s.sendFault x
  if e ≠ 0 then some (s.raise x.who e x.addr)
  else if s.mustWait x.who { lr := [(x.addr, x.len)] } then
    if (s.item x.who).sendWaits then none else some (s.modItem x.who fun i => { i with sendWaits := true, waitTicks := 0 })
  else
    let t := { s with msg := { s.msg with sends := s.msg.sends ++ [{ x with itemNo := (s.item x.who).no }] } }
    some ((t.modItem x.who fun i => { i with pend := .send, sendWaits := false, waitTicks := if i.sendWaits then i.waitTicks else 0 }).issues x.who)

/-- MSG.SEND. -/
def msgSendStep (w : Who) (combine : Bool) (dest tag len a round offset cidx : Nat) (s : State) : Option State :=
  sendIssue ⟨w, 0, [dest], tag, len, a, combine, false, 0, round, offset, cidx⟩ s

/-- MSG.MSEND (R179): a non-zero CLUSTER field or a zero CMASK leaves no destination. -/
def msgMsendStep (w : Who) (dest tag len a cmask : Nat) (s : State) : Option State :=
  let ds := if destClu dest = 0 then maskDests dest cmask else []
  sendIssue ⟨w, 0, ds, tag, len, a, false, true, cmask, 0, 0, 0⟩ s

/-- MSG.RCLOSE (R168, R180). -/
def msgRcloseStep (w : Who) (len ring : Nat) (s : State) : Option State :=
  let c := w.core.val
  if (s.str.live.ring c ring).isNone then some (s.raise w 0x0802 ring)
  else some ((s.advanceRing c ring).advance w len)

/-! ### DMA (R210, R211, R214) -/

/-- The own-Loam ranges that a descriptor reads and writes. -/
def Desc.foot (id : Ident) (d : Desc) : Foot :=
  let own (x : Nat × Nat) : List (Nat × Nat) := match placeOf id x.1 with
    | .own a => [(a, x.2 + 1 - x.1)]
    | _ => []
  { lr := own d.srcSpan, lw := own d.dstSpan }

/-- A descriptor at its issue: checked (R214), then accepted, or the instruction waits for a place (R211). -/
def descIssue (w : Who) (len ch : Nat) (d : Desc) (s : State) : Option State :=
  let e := descFault s w.core.val ch d
  if e ≠ 0 then some (s.raise w e ch)
  else if s.mustWait w (d.foot s.id) then none
  else match s.acceptDesc w ch d with
    | some t => some (t.advance w len)
    | none => some (s.blockThrough w 13)

/-- DMA.ISSUEM (R210, R301): the descriptor is read as one sector. -/
def descIssueM (w : Who) (len ch a : Nat) (s : State) : Option State :=
  let e := if a % 64 ≠ 0 then 0x0A01 else s.itemFault w false a 64
  if e ≠ 0 then some (s.raise w e a)
  else if s.mustWait w { lr := [(a, 64)] } then none
  else
    let q := s.itemRead w a 64
    match q.2 with
    | .bad f => some (q.1.raise w f a)
    | .ok b => descIssue w len ch (decodeDesc b) q.1

end Sys2Proof.Machine
end

