-- ==== Sys2Proof/Machine/Power.lean ====
section
/-! DEFINITION. Machine/Power.lean: power states, wakes and core Sleep (R234 to R240), holds (R241, R260, R261), and the monitors
(R233, R260 to R262). -/

namespace Sys2Proof.Machine

/-! ### Work (R235) -/

/-- An item that cannot proceed until a counter changes, a credit returns, a batch ships or a queue slot frees is blocked. -/
def State.itemBlocked (s : State) (w : Who) : Bool :=
  let i := s.item w
  match i.pend with
  | .none => i.blocked.isSome
  | .wait sc _ t => !(s.waitIsMet i.no sc t)
  | .send => true
  | .arrive .. | .memory _ => false

/-- A context has work. An item under pre-emption has none only while it must wait for a slot or a batch before it can be saved
(R158). -/
def State.ctxWork (s : State) (w : Who) : Bool :=
  match (s.ctx w).phase with
  | .idle => false
  | .running => !s.itemBlocked w || !(s.itemJobs w).isEmpty
  | .preempting => !(s.itemBlocked w && (s.item w).inProgress) || !(s.itemJobs w).isEmpty
  | _ => true

/-- A core has work of its own: an item, a queued command, an undispatched message, a save or a wake. -/
def State.coreWork (s : State) (c : Fin 5) : Bool :=
  let x := s.core c.val
  s.ctxWork ⟨c, .cmd⟩ || s.ctxWork ⟨c, .hdl⟩ || !x.jobs.isEmpty || (!x.asleep && (!x.nq.isEmpty || !x.uq.isEmpty)) ||
    x.sleepSaving || x.wakeTick.isSome || (x.saved.isSome && x.cmd.phase == .idle) || !x.dying.isEmpty

/-- A ring holds a message that is not yet dispatched. -/
def State.ringWork (s : State) (c : Nat) : Bool := (List.range 32).any fun r => !(s.ring c r).msgs.isEmpty

/-- The DMA engine moves data, waits for acknowledgements, or can start a descriptor. -/
def State.dmaWork (s : State) : Bool :=
  s.dma.ch.any fun e => !e.2.run.isEmpty || !e.2.writes.isEmpty || (descStart e.1 s).isSome

/-- The message unit has a send, status entry or delivery that it can make. -/
def State.msgWork (s : State) : Bool :=
  (sendAccept s).isSome || (List.range s.msg.status.length).any (fun i => (statusWrite i s).isSome) ||
    s.msg.slots.any fun e => (combineDeliver e.1 s).isSome

/-- At least one agent has work (R235). -/
def State.hasWork (s : State) : Bool :=
  (List.finRange 5).any (fun c => s.coreWork c || s.ringWork c.val) || s.dmaWork || !s.port.txns.isEmpty || !s.port.pbuf.isEmpty ||
    s.msgWork

/-! ### Idle, Nap, Sleep (R234, R235) -/

/-- A watchdog of the item in a context has reached its limit (R257, R258). -/
def State.watchdogDue (s : State) (w : Who) : Bool :=
  let i := s.item w
  let x := s.str.live
  let item := decide ((if isHdl w then x.handlerTo else x.commandTo) ≤ i.cmdTicks)
  s.str.liveValid && !s.waitsOn [.timeouts] && i.abort.isNone && match (s.ctx w).phase with
    | .issuing | .waitRange => item
    | .running | .preempting => item || (match i.pend with
      | .wait .. => decide (x.waitTo ≤ i.waitTicks)
      | .send => decide (x.sendTo ≤ i.waitTicks)
      | _ => i.sendWaits && decide (x.sendTo ≤ i.waitTicks))
    | _ => false

/-- A trigger of R237 falls now: traffic at a port, a batch deadline, a watchdog's expiry, or an epoch boundary of a pending commit. It
cancels an entry to Idle. -/
def State.wakeDue (s : State) : Bool :=
  !s.held.isEmpty || (List.range 16).any (fun q => (deadlineShip q s).isSome) ||
    allWho.any (fun w => (s.item w).abort.isSome || s.watchdogDue w) ||
    (s.str.stage == .pending && s.str.liveValid && decide (s.str.live.epochLen ≤ s.str.epochTicks))

/-- One of those, or STAYUP, which keeps the cluster out of Nap and Sleep alone (R235, R237). -/
def State.triggerDue (s : State) : Bool := s.pwr.stayUp || s.wakeDue

/-- IDLE_ENTRY. -/
def idleStep (s : State) : Option State :=
  if s.pwr.state = .active ∧ s.clockOn ∧ s.pwr.start ≠ .confirmed ∧ !s.hasWork ∧ !s.wakeDue then
    some ({ s with pwr := { s.pwr with idleTicks := 0 } }.setPower .idle)
  else none

/-- Every enabled compute core is in core Sleep. -/
def State.allAsleep (s : State) : Bool := s.str.live.logical.all fun c => (s.core c).asleep

/-- NAP_ENTRY: after NAP_AFTER of continuous Idle the fast clock stops at the die; with every enabled compute core in core Sleep the
cluster is in Sleep (R234). -/
def napStep (s : State) : Option State :=
  let p := s.pwr
  if p.state = .idle ∧ s.clockOn ∧ p.start ≠ .confirmed ∧ p.napAfter ≠ 0 ∧ p.napAfter * 10 ≤ p.idleTicks ∧ !s.triggerDue ∧ !s.hasWork ∧ s.str.swap.isNone then
    some (({ s with pwr := { p with fclk := 0 } }.setPower (if s.allAsleep then .sleep else .nap)).send .clockStop)
  else none

/-- A wake begins: the fast clock is requested from the die (R238 steps 1 and 2). -/
def State.startWake (s : State) : State :=
  if s.pwr.state = .nap ∨ s.pwr.state = .sleep then
    ({ s with pwr := { s.pwr with wake := some 0, wakeWarned := false } }.setPower .waking).send .clockRequest
  else s

/-- Step 4 of R238: a wake whose clock has arrived ends once no hold is on (R241). -/
def State.finishWake (s : State) : State :=
  match s.pwr.wake, s.pwr.clkArrived with
  | some t, some mhz =>
    if s.pwr.state ≠ .waking ∨ s.clockHeld then s
    else
      let u := s.bin (0x500 + min (t / 3) 15) 1
      { u with pwr := { u.pwr with wake := none, clkArrived := none, fclk := mhz, idleTicks := 0 } }.setPower .active
  | _, _ => s

/-- A hold of the fast clock has ended, or its clock has arrived: a wake that waited is complete, and held traffic is accepted (R238,
R241). -/
def State.endHold (s : State) : State := s.finishWake.releaseHeld

/-- FAST_CLOCK_STABLE (R238 step 3): the clock of a wake has arrived; it is enabled at every agent once no hold is on (R241). -/
def clockStable (mhz : Nat) (s : State) : Option State :=
  if mhz = 0 ∨ s.pwr.wake.isNone ∨ s.pwr.clkArrived.isSome then none
  else some { s with pwr := { s.pwr with clkArrived := some mhz } }.endHold

/-- PWR_CLOCK (R238). -/
def clockLate (s : State) : Option State :=
  match s.pwr.wake with
  | some t => if t < 1000 ∨ s.pwr.wakeWarned ∨ s.pwr.clkArrived.isSome then none else some ({ s with pwr := { s.pwr with wakeWarned := true } }.logOnly 0x0B06 0)
  | none => none

/-! ### Core Sleep (R236, R239) -/

/-- A header that declares all of Kaolin and the VBs, at their sizes in KiB (R4, R59). -/
def State.wholeCore (s : State) : Hdr :=
  let n := 4 ^ s.id.edgeLog2 / 1024
  { kaoLen := 6 * n, vb := [(0, n), (0, n), (0, n), (0, n)] }

/-- Core Sleep is entered whatever the clock of the cluster, Nap included (R236, log 12); only a hold stops the save. -/
def State.coreClock (s : State) (f : State → Option State) (l : List ImgField := []) : State :=
  if s.pwr.state = .nap ∧ s.pwr.start = .released ∧ !s.clockHeld ∧ !s.swapHeld ∧ !s.waitsOn l then s.orStay (f s) else s.fast f l

/-- The compute core that held traffic is for: the core of a message's destination, or the one that CLU_ENQ names (R237). -/
def Traffic.target : Traffic → Option Nat
  | .message m => some (destCore m.dest.toNat)
  | .write _ off _ _ => match regAt off with
    | some x => if x.row.first = 0x0020 then some x.k else none
    | none => none
  | _ => none

/-- Held traffic is for a core. -/
def State.heldFor (s : State) (c : Nat) : Bool := s.held.any fun x => x.target == some c

/-- A compute core has none of what keeps it out of core Sleep. -/
def State.coreQuiet (s : State) (c : Nat) : Bool :=
  let x := s.core c
  x.cmd.phase == .idle && x.hdl.phase == .idle && x.nq.isEmpty && x.uq.isEmpty && x.saved.isNone && x.dying.isEmpty && x.jobs.isEmpty && !s.ringWork c

/-- CORE_SLEEP_ENTRY: no trigger for the core may wait at a port (R237). -/
def coreSleepStart (c : Nat) (s : State) : Option State :=
  let x := s.core c
  let p := s.pwr
  if coreOn s.str.live.coreEn c ∧ p.csleep.testBit c ∧ p.sleepAfter ≠ 0 ∧ p.sleepAfter * 1000 ≤ x.idleTicks ∧ s.coreQuiet c ∧
      !x.asleep ∧ !x.sleepSaving ∧ !p.stayUp ∧ !s.heldFor c then
    some (s.modCore c fun x => { x with sleepSaving := true })
  else none

/-- CORE_SLEEP_SAVE_DONE: the state is in the save region and the power is off; a core with work, or with work held at a port, does not
get there. The statistic registers keep their values for VEC_STAT_PEEK until the wake writes them (R298). In Nap, the last core to
sleep brings the cluster to Sleep (R234). A save that was in progress at a swap ends like another: it goes to the save region of the
image that is live now, and the core is asleep with saved state even where that image disables it (R33 treats cores in core Sleep alone;
DESIGN CHOICE, log 86). -/
def coreSleepDone (c : Nat) (s : State) : Option State :=
  if !(s.core c).sleepSaving then none
  else if !s.coreQuiet c ∨ s.heldFor c ∨ s.pwr.stayUp then some (s.modCore c fun x => { x with sleepSaving := false })
  else
    let t := s.saveCore c s.wholeCore
    let u := t.modCore c fun x => { x with sleepSaving := false, asleep := true, sleepSaved := true, kaolin := {}, vb := {}, masks := [], ramp := 0, front := none, back := none, sumS := [], sumT := [] }
    some (if u.pwr.state = .nap ∧ u.allAsleep then u.setPower .sleep else u)

/-- A core in core Sleep is to wake. -/
def State.wakeCore (s : State) (c : Nat) : State :=
  if (s.core c).asleep ∧ (s.core c).wakeTick.isNone then s.modCore c fun x => { x with wakeTick := some 0 } else s

/-- CORE_WAKE (R239): 3,800 ticks after its trigger, the core's state is restored, or zeroed where a commit discarded it. An uncorrectable
error met here, where no command is restored, is logged and borne by no item (DESIGN CHOICE, log 77). -/
def coreWakeStep (c : Nat) (s : State) : Option State :=
  let x := s.core c
  match x.wakeTick with
  | some t =>
    if !x.asleep ∨ t < 3800 then none
    else
      let q := if x.sleepSaved then s.restoreCore c s.wholeCore
        else (s.modCore c (fun x => { x with kaolin := {}, vb := {}, masks := [], stats := [] }), false)
      let u := q.1.modCore c fun x => { x with asleep := false, sleepSaved := false, wakeTick := none, idleTicks := 0 }
      some (if q.2 then u.logFault 0x0308 c false false (s.saveBase c) else u)
  | none => none

/-- The cores in core Sleep that held traffic is for begin their wakes (R237, R239). -/
def State.wakeTargets (s : State) : State :=
  (List.range 4).foldl (fun (t : State) c => if s.heldFor c && coreOn t.str.live.coreEn c then t.wakeCore c else t) s

/-- WAKE_TRIGGER (R237): the trigger must hold. The wake of a core runs alongside that of the cluster (R239). -/
def wakeStep (t : Trigger) (s : State) : Option State :=
  let low := s.pwr.state == .nap || s.pwr.state == .sleep
  match t with
  | .traffic => if low ∧ !s.held.isEmpty then some s.startWake.wakeTargets else none
  | .batch q => if low ∧ (deadlineShip q.val s).isSome then some s.startWake else none
  | .watchdog w => if low ∧ (s.item w).abort.isSome then some (s.startWake.wakeCore w.core.val) else none
  | .epoch => if low ∧ s.str.swap.isSome then some s.startWake else none
  | .stayUp => if low ∧ s.pwr.stayUp then some s.startWake else none
  | .core c =>
    let x := s.core c.val
    if x.asleep ∧ x.wakeTick.isNone ∧ coreOn s.str.live.coreEn c.val ∧ (!x.nq.isEmpty ∨ !x.uq.isEmpty ∨ s.ringWork c.val ∨ s.heldFor c.val ∨ s.pwr.stayUp) then some (s.wakeCore c.val) else none

/-! ### Throttle (R241) -/

/-- Lifetime bin of a throttle assertion at a temperature (R268). -/
def throttleBin (temp : BitVec 8) : Nat := 0x510 + (min ((temp.toInt - 50) / 5) 15).toNat

/-- THROTTLE_ASSERT. -/
def throttleOn (temp : BitVec 8) (s : State) : Option State :=
  if s.pwr.throttle then none
  else some (({ s with pwr := { s.pwr with throttle := true } }.bin (throttleBin temp) 1).emit 10 .throttle 0xFF 16 [1])

/-- THROTTLE_DEASSERT. -/
def throttleOff (s : State) : Option State :=
  if !s.pwr.throttle then none
  else some ({ s with pwr := { s.pwr with throttle := false } }.emit 10 .throttle 0xFF 16 [0]).endHold

/-! ### Monitors (R233, R260 to R262) -/

/-- A clock-monitor event. -/
def State.clockEvent (s : State) (detail : Nat) : State := (s.bin 0x545 1).logOnly 0x0C08 detail

/-- CLOCK_MONITOR_INTERVAL (R260): `n` fast-clock cycles in 100 drone ticks. -/
def clockInterval (n : Nat) (s : State) : Option State :=
  let p := s.pwr
  if p.monTicks < 100 then none
  else
    let fastC := decide (p.fclk * 102 < n * 100 ∨ 1632 < n)
    let slowC := decide (n * 100 < p.fclk * 98)
    let s := { s with tel := { s.tel with fclkMeas := min n 2047 }, pwr := { p with monTicks := 0 } }
    let s := if fastC || slowC then s.clockEvent n else s
    if fastC then some ({ s with pwr := { s.pwr with clkHold := true, clkGood := 0 } }.emit 10 .hold 0xFF 16 [0, 1])
    else if slowC ∨ !p.clkHold then some { s with pwr := { s.pwr with clkGood := 0 } }
    else if p.clkGood = 0 then some { s with pwr := { s.pwr with clkGood := 1 } }
    else some (({ s with pwr := { s.pwr with clkHold := false, clkGood := 0 } }.emit 10 .hold 0xFF 16 [0, 0]).endHold)

/-- DRONE_CLOCK_FAULT (R260). -/
def droneFault (s : State) : State := { s with tel := { s.tel with droneBad := true } }.clockEvent 1

/-- FCLK_CHANGE (R233): a change while the clock runs is a clock-monitor event. A clock that has arrived for a wake and waits for the end
of a hold takes its new frequency without one (R241). -/
def fclkStep (mhz : Nat) (s : State) : State :=
  if s.pwr.fclk = 0 then { s with pwr := { s.pwr with clkArrived := s.pwr.clkArrived.map fun _ => mhz } }
  else
    let t := { s with pwr := { s.pwr with fclk := mhz } }
    if s.clockHeld then t else t.clockEvent mhz

/-- DROOP_START (R261). -/
def droopOn (mv : Nat) (s : State) : Option State :=
  if s.pwr.droop.isSome ∨ s.tel.vdroop ≤ mv then none
  else some ({ s with pwr := { s.pwr with droop := some 0 } }.emit 10 .hold 0xFF 16 [1, 1])

/-- Lifetime bin of a droop of `n` ticks (R268). -/
def droopBin (n : Nat) : Nat :=
  if n ≤ 1 then 0x520 else if n = 2 then 0x521 else if n ≤ 4 then 0x522 else if n ≤ 8 then 0x523 else if n ≤ 16 then 0x524
  else if n ≤ 64 then 0x525 else if n ≤ 1000 then 0x526 else 0x527

/-- DROOP_END (R261): the hold ends 8 drone ticks after the supply recovers. -/
def droopOff (s : State) : Option State :=
  match s.pwr.droop with
  | none => none
  | some t =>
    if t < 8 then none
    else
      let n := t - 8
      let u := s.bin (droopBin n) 1
      let u := if 1000 < n then u.logOnly 0x0C09 n else u
      some ({ u with pwr := { u.pwr with droop := none } }.emit 10 .hold 0xFF 16 [1, 0]).endHold

/-- OVER_VOLTAGE (R261). -/
def overVolt (mv : Nat) (s : State) : Option State := if mv ≤ s.tel.vover then none else some (s.logOnly 0x0C09 mv)

/-- TEMP_SAMPLE (R262). -/
def tempStep (t : BitVec 8) (s : State) : Option State :=
  if s.pwr.tempTicks < 1000 then none
  else some { s with tel := { s.tel with temp := t }, pwr := { s.pwr with tempTicks := 0 } }

end Sys2Proof.Machine
end

