-- ==== Sys2Proof/Machine/Replay.lean ====
section
/-! DEFINITION. Machine/Replay.lean: replay of the journal at start-up (R253, R39). -/

namespace Sys2Proof.Machine

/-- A record that replay accepts: its CRC matches and its TYPE is known. -/
structure JParsed where
  typ : RecType
  serial : Nat
  time : Nat
  body : List Byte
  sect : Nat
  deriving DecidableEq, Repr

/-- The record at byte `a` of the segment, ending by `lim`. -/
def recAt (m : Mem) (a lim : Nat) : Option JParsed :=
  let n := leNat (m.read (a + 2) 2)
  if n = 0 ∨ 8193 < n ∨ lim < a + 64 * n then none
  else
    let b := m.read a (64 * n)
    if crc32c (b.take (64 * n - 4)) ≠ leNat (b.drop (64 * n - 4)) then none
    else (recTypeOf (fieldB b 0 1)).map fun t => ⟨t, fieldB b 4 4, fieldB b 8 8, (b.drop 16).take (64 * n - 20), n⟩

/-- The records from `a` on whose SERIAL continues from `next`: the records, where they end, the next SERIAL, and whether the record
that ended the walk carried the expected SERIAL (R253 step 2). -/
def walk (m : Mem) (lim : Nat) : Nat → Nat → Nat → List JParsed × Nat × Nat × Bool
  | 0, a, next => ([], a, next, false)
  | fuel + 1, a, next =>
    match recAt m a lim with
    | some r =>
      if r.serial = next then
        let q := walk m lim fuel (a + 64 * r.sect) ((next + 1) % 2 ^ 32)
        (r :: q.1, q.2)
      else ([], a, next, false)
    | none => ([], a, next, decide (a + 64 ≤ lim) && leNat (m.read (a + 4) 4) == next)

/-- The records of base contents. -/
def walkBase (m : Mem) (lim : Nat) : Nat → Nat → List JParsed
  | 0, _ => []
  | fuel + 1, a =>
    match recAt m a lim with
    | some r => r :: walkBase m lim fuel (a + 64 * r.sect)
    | none => []

/-- A half whose BASE record holds (R253 step 1). -/
structure BaseRec where
  half : Bool
  gen : Nat
  sect : Nat
  next : Nat
  time : Nat
  deriving DecidableEq, Repr

/-- The base of a half. -/
def baseOf (m : Mem) (half : Bool) : Option BaseRec :=
  let a := halfBase half
  match recAt m a (a + 0x100000) with
  | some r =>
    let n := fieldB r.body 4 4
    if r.typ = .base ∧ 64 + 64 * n ≤ 0x100000 ∧ crc32c (m.read (a + 64) (64 * n)) = fieldB r.body 8 4 then
      some ⟨half, fieldB r.body 0 4, n, fieldB r.body 12 4, r.time⟩
    else none
  | none => none

/-- The base that replay takes: the later of two that hold. -/
def pickBase (m : Mem) : Option BaseRec :=
  match baseOf m false, baseOf m true with
  | some x, some y => some (if serialLater (BitVec.ofNat 32 y.gen) (BitVec.ofNat 32 x.gen) then y else x)
  | some x, none => some x
  | none, y => y

/-- The last COMMIT whose IMAGE record is complete, with that record and the records behind the commit (R253 step 3). -/
def lastCommit (all : List JParsed) : List JParsed → Option (JParsed × JParsed × List JParsed)
  | [] => none
  | r :: l =>
    match lastCommit all l with
    | some x => some x
    | none =>
      if r.typ = .commit then
        (all.find? fun i => i.typ == .image && i.serial == fieldB r.body 4 4).map fun i => (r, i, l)
      else none

/-- Deltas of the image in SEQ order after SEQ `seq`, 0 before the first: those that apply (SERIAL, TIME, record), and how many records
are ignored (R39). Records that carry one SEQ all passed R36, so each of them applies, in journal order (log 28). -/
def replayDeltas (id : Nat) : Nat → List JParsed → List (Nat × Nat × List Byte) × Nat
  | _, [] => ([], 0)
  | seq, r :: l =>
    if r.typ = .delta ∧ fieldB r.body 4 4 = id then
      let q := fieldB r.body 8 4
      if q = seq + 1 ∨ (q = seq ∧ seq ≠ 0) then
        let d := replayDeltas id q l
        ((r.serial, r.time, r.body.take (deltaLen r.body)) :: d.1, d.2)
      else ([], ((r :: l).filter fun x => x.typ == .delta && fieldB x.body 4 4 == id).length)
    else replayDeltas id seq l

/-- Lifetime totals after one record (R253 step 4). -/
def histAfter (h : Tab Nat) (r : JParsed) : Tab Nat :=
  match r.typ with
  | .totals => (cutB 12 (r.body.length / 12) r.body).foldl (fun h e => if fieldB e 4 8 = 0 then h else tabSet h (fieldB e 0 2) (fieldB e 4 8)) []
  | .telemetry => addIncrements h r.body
  | _ => h

/-- Seals not retired whose SERIAL is after `serial`. -/
def retireSeals (l : List (Nat × Nat × List Byte)) (serial : Nat) : List (Nat × Nat × List Byte) :=
  l.filter fun e => serialLater (BitVec.ofNat 32 e.1) (BitVec.ofNat 32 serial)

/-- The seal list after one record. -/
def sealsAfter (l : List (Nat × Nat × List Byte)) (r : JParsed) : List (Nat × Nat × List Byte) :=
  match r.typ with
  | .seal => l ++ [(r.serial, r.time, r.body.take 44)]
  | .retire => retireSeals l (fieldB r.body 0 4)
  | _ => l

/-- What replay finds (R253). -/
structure ReplayOut where
  mrl : Mrl
  hist : Tab Nat
  image : Option OnRecord
  skipped : Nat
  epoch : Nat
  time : Nat
  deriving DecidableEq, Repr

/-- An empty journal: the empty base is written at sector 0 of half A. -/
def replayEmpty (m : Mem) : ReplayOut :=
  let b := (JRec.mk .base 0 0 (baseBody 1 0 (crc32c []) 1)).bytes
  { mrl := { mram := m.write 0 b, used := 64, halfGen := 1, replay := 2 }, hist := [], image := none, skipped := 0, epoch := 10012, time := 100100000 }

/-- Replay of a journal with a base (R253 steps 2 to 5). -/
def replayFrom (m : Mem) (b : BaseRec) : ReplayOut :=
  let a := halfBase b.half
  let start := a + 64 + 64 * b.sect
  let w := walk m (a + 0x100000) 16384 start b.next
  let all := walkBase m start 16384 (a + 64) ++ w.1
  let c := lastCommit all all
  let commits := all.filter fun r => r.typ == .commit
  let dead := all.any fun r => r.typ == .image && !(commits.any fun x => fieldB x.body 4 4 == r.serial)
  let ds := match c with
    | some x => replayDeltas (fieldB x.1.body 0 4) 0 x.2.2
    | none => ([], 0)
  let img := c.map fun x => ({ id := fieldB x.1.body 0 4, bytes := x.2.1.body.take (fieldB x.2.1.body 8 4), serial := x.2.1.serial
                               time := x.2.1.time, commit := x.1.serial, commitTime := x.1.time, epoch := fieldB x.1.body 8 4
                               deltas := ds.1 } : OnRecord)
  let ep := match all.reverse.find? fun r => r.typ == .epoch with
    | some r => fieldB r.body 0 4
    | none => 0
  let late := all.foldl (fun t r => max t r.time) b.time
  { mrl := { mram := m, active := b.half, used := w.2.1 - a, nextSerial := w.2.2.1, durable := (w.2.2.1 + 2 ^ 32 - 1) % 2 ^ 32
             halfGen := b.gen, replay := 1, torn := w.2.2.2, dead := dead, seals := all.foldl sealsAfter [] }
    hist := all.foldl histAfter [], image := img
    skipped := min 255 ds.2, epoch := (ep + 10012) % 2 ^ 32, time := (late + 100100000) % 2 ^ 64 }

/-- Replay (R253). -/
def replayOf (m : Mem) : ReplayOut :=
  match pickBase m with
  | some b => replayFrom m b
  | none => replayEmpty m

end Sys2Proof.Machine
end

