-- ==== Sys2Proof/Machine/Structure.lean ====
section
/-! DEFINITION. Machine/Structure.lean: staging, validation and commit of the structure image (R27 to R35, R40), the swap and the state
derived from it (R32, R33, R100), delta records (R36 to R38), and what journal records do when they complete (R247, R251). -/

namespace Sys2Proof.Machine

/-! ### Cancelling a commit (R30, R34, R243) -/

/-- Takes the queued record of a SERIAL back: the records behind it keep the chain of R247 (log 36). -/
def Mrl.dropQueued (m : Mrl) (serial : Nat) : Mrl :=
  match m.queue.findIdx? fun r => r.serial == serial with
  | none => m
  | some i =>
    let dec (n : Nat) : Nat := (n + 2 ^ 32 - 1) % 2 ^ 32
    let later (n : Nat) : Bool := (m.queue.drop (i + 1)).any fun r => r.serial == n
    { m with queue := m.queue.take i ++ (m.queue.drop (i + 1)).map fun r => { r with serial := dec r.serial }
             nextSerial := dec m.nextSerial
             sealSerial := if later m.sealSerial then dec m.sealSerial else m.sealSerial }

/-- A commit in journaling or pending ends without a swap, in a given staging state; ports that a swap holds are released at the next
drone tick, as at the last tick of a swap (R32). A commit that waits for a compaction has no record to take back. -/
def State.cancelCommit (s : State) (st : StageState) : State :=
  { s with mrl := if s.str.commitWaits then s.mrl else s.mrl.dropQueued s.str.imageSerial
           str := { s.str with stage := st, bounds := 0, swap := if s.swapHeld then some 7 else none, commitWaits := false } }

/-- A commit is journaling or pending. -/
def State.committing (s : State) : Bool := s.str.stage == .journaling || s.str.stage == .pending

/-- After an admission: a commit that no longer fits the half is cancelled (R247). -/
def State.checkRoom (s : State) : State :=
  if s.committing ∧ 983040 < s.mrl.load ∧ !s.str.commitWaits then (s.cancelCommit .valid).logOnly 0x0B01 0 else s

/-! ### Staging (R28, R30, R40) -/

/-- A staging command refused in its state (R30). -/
def strRefused (s : State) : State × Nat := (s, 0x0207)

/-- OPEN. -/
def State.strOpen (s : State) : State × Nat :=
  match s.str.stage with
  | .empty | .valid | .invalid =>
    ({ s with str := { s.str with stage := .opened, stageBytes := [], valFault := 0, valSection := 0, valOffset := 0, commitDone := false
                                  slotFlip := false } }, 0)
  | _ => strRefused s

/-- VALIDATE. -/
def State.strValidate (s : State) : State × Nat :=
  if s.str.stage = .opened then ({ s with str := { s.str with stage := .validating } }, 0) else strRefused s

/-- The image record of a commit is admitted: it takes the next SERIAL and the time (R31, R248). -/
def State.enterImage (s : State) : State :=
  { s with str := { s.str with imageSerial := s.mrl.nextSerial, imageTime := s.ts.toNat } }.enter .image s.str.stageBytes

/-- A compaction may run: no power-fail sequence is under way (R243, log 37). -/
def State.mayCompact (s : State) : Bool := !s.pwr.pfw && !s.pwr.offReq

/-- COMMIT (R31, R251): the image record is admitted, or waits for a compaction. -/
def State.strCommit (s : State) : State × Nat :=
  if s.str.stage ≠ .valid then strRefused s
  else
    let t := { s with str := { s.str with stage := .journaling, bounds := 0 } }
    if s.mrl.admits .image s.str.stageBytes.length then (t.enterImage, 0)
    else ({ t with str := { t.str with commitWaits := true }, mrl := { t.mrl with compact := t.mrl.compact || t.mayCompact } }, 0)

/-- ABORT: also cancels a swap that has not reached step 3 of R32. -/
def State.strAbort (s : State) : State × Nat :=
  match s.str.stage with
  | .opened | .validating | .valid | .invalid => ({ s with str := { s.str with stage := .empty } }, 0)
  | .journaling | .pending => (s.cancelCommit .empty, 0)
  | _ => strRefused s

/-- CONFIRM (R30, R254): the fast clock is requested; the cores are released when Loam is clear. -/
def State.strConfirm (s : State) : State × Nat :=
  if s.str.stage = .empty ∧ s.str.awaitConfirm then
    ({ s with str := { s.str with awaitConfirm := false }, pwr := { s.pwr with start := .confirmed } }.startWake, 0)
  else strRefused s

/-- STR_CTRL. -/
def State.strCtrl (s : State) (cmd : Nat) : State × Nat :=
  match cmd with
  | 1 => s.strOpen
  | 2 => s.strValidate
  | 3 => s.strCommit
  | 4 => s.strAbort
  | _ => s.strConfirm

/-- STR_STAGE_DATA (R40). -/
def State.stageData (s : State) (v : Nat) : State × Nat :=
  if s.str.stage ≠ .opened then (s, 0x020A)
  else if 524288 < s.str.stageBytes.length + 4 then ({ s with str := { s.str with stage := .invalid } }, 0x020A)
  else ({ s with str := { s.str with stageBytes := s.str.stageBytes ++ leBytes 4 v } }, 0)

/-- VALIDATION_DONE (R28). -/
def validateStep (s : State) : Option State :=
  if s.str.stage ≠ .validating then none
  else match validateImage s.id s.str.stageBytes with
    | .ok im =>
      some ({ s with str := { s.str with stage := .valid, staged := im, valFault := 0, valSection := 0, valOffset := 0 } }.emit
        11 .validated 0xFF 16 [0])
    | .error e =>
      some (({ s with str := { s.str with stage := .invalid, valFault := e.fault, valSection := e.sec, valOffset := e.off } }.logOnly
        e.fault e.off).emit 11 .validated 0xFF 16 [e.fault])

/-! ### Quiescence and epochs (R27, R31) -/

/-- R31. -/
def State.quiescent (s : State) : Bool :=
  (List.range 5).all (fun c =>
    let x := s.core c
    x.cmd.phase == .idle && x.hdl.phase == .idle && x.nq.isEmpty && x.uq.isEmpty && x.saved.isNone && x.dying.isEmpty &&
      (List.range 32).all fun r => (s.ring c r).occ == 0) &&
  (s.msg.slots.all fun e => s.slotState e.1 == 0) && s.msg.parked.isEmpty &&
  (s.dma.ch.all fun e => e.2.run.isEmpty && e.2.queue.isEmpty && e.2.writes.isEmpty) && s.port.txns.isEmpty && s.msg.sends.isEmpty

/-- A pending commit at an epoch boundary: sampled unless a hold is on; it swaps, counts, or is cancelled at the 64th boundary. -/
def State.sampleCommit (s : State) : State :=
  if s.str.stage ≠ .pending ∨ s.str.swap.isSome ∨ s.clockHeld then s
  else
    let s := s.startWake
    if s.quiescent then { s with str := { s.str with swap := some 0, bounds := 0 } }
    else if 64 ≤ s.str.bounds + 1 then (s.cancelCommit .valid).logOnly 0x0208 0
    else { s with str := { s.str with bounds := s.str.bounds + 1 } }

/-- EPOCH_BOUNDARY (R27, R31). -/
def epochStep (s : State) : Option State :=
  let x := s.str
  if !x.liveValid ∨ !s.tsRun ∨ s.waitsOn [.epoch] ∨ x.epochTicks < x.live.epochLen then none
  else
    let t := { s with str := { x with epoch := x.epoch + 1, epochTicks := x.epochTicks - x.live.epochLen } }
    some ((t.emit 13 .boundary 0xFF 32 [s.ts.toNat, s.align.toNat]).sampleCommit)

/-! ### The swap (R32, R33, R100) -/

/-- Step 3 of R32: LIVE_SLOT inverts, every lookup uses the new image, the COMMIT record is admitted. -/
def State.swapSlots (s : State) : State :=
  let x := s.str
  let im := x.staged
  let t := { s with str := { x with
    liveSlot := !x.liveSlot, stage := .committing, live := im, staged := x.live
    record := { id := im.id, bytes := x.stageBytes, serial := x.imageSerial, time := x.imageTime, commit := s.mrl.nextSerial
                commitTime := s.ts.toNat, epoch := x.epoch.toNat }
    prior := if x.liveValid then some x.record else none, deltaSeq := 0, deltaTotal := 0, liveValid := true
    epochTicks := if x.liveValid then x.epochTicks else 0 } }
  (t.enter .commit (commitBody im.id x.imageSerial x.epoch.toNat)).emit 11 .swap 0xFF 16 [im.id]

/-- One ring at step 4 (R33): unchanged; of the old image, then it advances under R180 where the old image has it, and its equal
pointers are taken modulo a new size (log 59); or new, then it starts empty with the next generation. -/
def State.deriveRing (s : State) (old new : Image) (c r : Nat) : State :=
  let shape (im : Image) : Option (Nat × Nat) := (im.ring c r).map fun x => (x.base, x.size)
  if shape old = shape new then s
  else if (old.ring c r).isSome then
    let t := { { s with str := { s.str with live := old } }.advanceRing c r with str := s.str }
    match new.ring c r with
    | some x => t.setRing c r { t.ring c r with wr := (t.ring c r).wr % max 1 x.size, rd := (t.ring c r).rd % max 1 x.size }
    | none => t
  else s.setRing c r { gen := (s.ring c r).gen + 1 }

/-- Rings at step 4 (R33). -/
def State.deriveRings (s : State) (old new : Image) : State :=
  let rings := (List.range 5).flatMap fun c => (List.range 32).map fun r => (c, r)
  rings.foldl (fun (t : State) p => t.deriveRing old new p.1 p.2) s

/-- Counters at step 4 (R33). -/
def State.deriveCounters (s : State) (old new : Image) : State :=
  let key := fun (im : Image) n => (im.sync n).map fun r => (r.scope, r.owner)
  let keep (n : Nat) : Bool := (key new n).isSome && key old n == key new n
  { s with syn := { s.syn with sc := s.syn.sc.filter fun e => keep e.1 }
           damage := s.damage.filter fun d => match d with
             | .counter n => keep n
             | _ => true }

/-- The state of a new or changed credit entry (R33). -/
def Credit.renew (c : Credit) (allot : Nat) : Credit := { avail := allot - c.out, out := c.out, gen := none }

/-- Credits at step 4 (R33). -/
def State.deriveCredits (s : State) (old new : Image) : State :=
  let gone := s.msg.credits.foldl (fun (t : State) e =>
    if (new.credit e.1).isSome then t else t.setCredit e.1 { e.2 with avail := 0, gen := none }) s
  new.credits.foldl (fun (t : State) e =>
    if (old.credit e.dest).map (·.allot) = some e.allot then t else t.setCredit e.dest ((t.credit e.dest).renew e.allot)) gone

/-- Compute cores at step 4 (R33). Statistic registers keep what they hold until a wake writes them (R298). A core whose save of core
Sleep is in progress is in core Sleep only at its end, and is not treated here (DESIGN CHOICE, log 86). -/
def State.deriveCores (s : State) (old new : Image) : State :=
  (List.range 4).foldl (fun (t : State) c =>
    let fits : Bool := match old.save c, new.save c with
      | some a, some b => a.base == b.base && decide (a.size ≤ b.size)
      | _, _ => false
    let was := coreOn old.coreEn c
    let now := coreOn new.coreEn c
    if (t.core c).asleep && now && was && fits then t
    else if (t.core c).asleep then t.modCore c fun x => { x with sleepSaved := false, wakeTick := if now then x.wakeTick else none }
    else if now ∧ !was then t.modCore c fun x => { x with asleep := true, sleepSaved := false, kaolin := {}, vb := {}, masks := [], front := none, back := none, sumS := [], sumT := [] }
    else t) s

/-- Batch queues at step 4 (R100). -/
def State.deriveQueues (s : State) : State :=
  (List.range 16).foldl (fun (t : State) q =>
    if t.scShared (t.bqOf q).notify then t else t.setBq q { t.bqOf q with en := false, fill := [], shipped := [] }) s

/-- The tags whose entries of an image name a combining slot. -/
def Image.slotTags (im : Image) (n : Nat) : List Nat :=
  (im.handlers.filter fun r => r.entry.combine && r.entry.slot == n).flatMap fun r => (List.range r.count).map fun i => r.first + i

/-- Combining slots at step 4: one whose entry the commit changes starts anew, ROUND 0 (R175). -/
def State.deriveSlots (s : State) (old new : Image) : State :=
  { s with msg := { s.msg with slots := s.msg.slots.filter fun e =>
      (old.slotTags e.1 ++ new.slotTags e.1).all fun t => old.handler t == new.handler t } }

/-- What the trace unit left in the staging region of an image that had trace on no rule gives: the image that follows finds free values
there (R279, log 82). -/
def State.freeTrace (s : State) (old : Image) : State :=
  match old.regionOf .trace with
  | none => s
  | some r =>
    if old.traceMask = 0 then s
    else
      let q := s.freeBytes (64 * r.size)
      { q.1 with loam := { q.1.loam with cells := q.1.loam.cells.write (64 * r.base) q.2 } }

/-- Step 4 of R32: derived state; the damage of decoded entries is gone with the old image (R265). A commit that changes TRACE_MASK
while trace is on asks for a snapshot (R285, log 16). -/
def State.deriveAll (s : State) : State :=
  let old := s.str.staged
  let new := s.str.live
  let t := ((((((s.freeTrace old).deriveRings old new).deriveCounters old new).deriveCredits old new).deriveCores old new).deriveSlots old new).deriveQueues
  let t := { t with damage := t.damage.filter fun d => match d with
    | .handler _ | .credit _ | .noted _ | .image _ | .decoding _ => false
    | _ => true }
  if old.traceMask ≠ 0 ∧ new.traceMask ≠ 0 ∧ old.traceMask ≠ new.traceMask then t.askSnap 3 0 else t

/-- One drone tick of a swap (R32, log 16): one under way advances, and without a live image one begins in the tick after its image
record is complete (R35). -/
def State.swapTick (s : State) : State :=
  match s.str.swap with
  | none => if s.str.stage = .pending ∧ !s.str.liveValid then { s with str := { s.str with swap := some 0 } } else s
  | some k =>
    let t := { s with str := { s.str with swap := if k = 7 then none else some (k + 1) } }
    if k = 1 then t.swapSlots else if k = 2 then t.deriveAll else if k = 7 then t.releaseHeld else t

/-- Step 7 of R32: the commit is complete. Without released cores the image awaits CONFIRM (R254 step 4). -/
def State.commitDone (s : State) : State :=
  { s with str := { s.str with stage := .empty, commitDone := true, shownId := s.str.live.id, staged := {}, prior := none
                               awaitConfirm := s.pwr.start != .released && s.pwr.start != .confirmed } }

/-! ### Delta records (R36, R37) -/

/-- The state of a credit entry that a delta names, by its ALLOT before and after the whole record, which takes effect at once (R33,
R37, R265). -/
def State.deltaCredit (s : State) (old new : Image) (e : List Byte) : State :=
  let d := fieldB e 0 4
  let t := { s with damage := s.damage.filter fun x => x != Damage.credit d && x != Damage.noted d }
  match new.credit d with
  | none => t.setCredit d { t.credit d with avail := 0, gen := none }
  | some c => if (old.credit d).map (·.allot) = some c.allot then t else t.setCredit d ((t.credit d).renew c.allot)

/-- A journaled delta takes effect on the live image in one drone tick (R37): its checks were made when it was taken (R36). One that was
journaled for the image before a swap is lost (R38), and STR_DELTA_STATUS.STATE stays as it is then (log 28). -/
def State.applyDelta (s : State) (serial time : Nat) (b : List Byte) : State :=
  let x := s.str
  if !x.liveValid ∨ fieldB b 4 4 ≠ x.live.id ∨ !serialLater (BitVec.ofNat 32 serial) (BitVec.ofNat 32 x.record.commit) then s
  else
    let ents := deltaEnts b
    let t := { s with str := { x with live := deltaImage x.live b, deltaSeq := fieldB b 8 4, deltaState := 3
                                      record := { x.record with deltas := x.record.deltas ++ [(serial, time, b)] } } }
    let t := match fieldB b 0 2 with
      | 1 => { t with damage := ents.foldl (fun l e => l.filter (· != Damage.handler (fieldB e 0 2))) t.damage }
      | 2 => ents.foldl (fun (t : State) e => t.deltaCredit x.live (deltaImage x.live b) e) t
      | _ => t
    t.emit 11 .delta 0xFF 16 [fieldB b 8 4]

/-- A complete delta record: checked and admitted, or discarded with its fault (R36, R243, R247, R249). After a rejected record
STR_DELTA_STATUS.STATE reads idle (log 28). Where no image is live, STR_LIVE_ID reads 0: a record with BASE_ID 0 and SEQ 1 passes,
is journaled, and is never applied (DESIGN CHOICE, log 28). -/
def State.takeDelta (s : State) (b : List Byte) : State :=
  let x := s.str
  let f := if s.pwr.pfw ∨ s.pwr.offReq then 0x0B04
    else deltaCheck x.live x.deltaSeq x.shownId b
  let size := 64 * sectOf b.length
  let f := if f ≠ 0 then f else if 32768 < x.deltaTotal + size then 0x0B05 else if !s.mrl.admits .delta b.length then 0x0B03 else 0
  if f ≠ 0 then { s with str := { x with deltaBuf := [], deltaState := 0, deltaFault := f } }.logOnly f 0
  else ({ s with str := { x with deltaBuf := [], deltaState := 2, deltaTotal := x.deltaTotal + size } }.enter .delta b).checkRoom

/-- STR_DELTA_DATA (R36): the record is complete at the length that KIND and COUNT give. -/
def State.deltaData (s : State) (v : Nat) : State :=
  let b := s.str.deltaBuf ++ leBytes 4 v
  if b.length < 16 ∨ b.length < deltaLen b then { s with str := { s.str with deltaBuf := b, deltaState := 1 } }
  else s.takeDelta b

/-! ### Journal writes (R247, R251) -/

/-- The image record of a waiting commit is admitted after a compaction, or the commit is refused (R251). -/
def State.retryCommit (s : State) : State :=
  if !s.str.commitWaits then s
  else
    let t := { s with str := { s.str with commitWaits := false } }
    if t.mrl.admits .image t.str.stageBytes.length then t.enterImage
    else { t with str := { t.str with stage := .valid } }.logOnly 0x0B01 0

/-- What a complete record does. -/
def State.recordDone (s : State) (r : JRec) : State :=
  match r.typ with
  | .image =>
    if s.str.stage ≠ .journaling ∨ r.serial ≠ s.str.imageSerial then s
    else { s with str := { s.str with stage := .pending, bounds := 0 } }
  | .commit => if s.str.stage = .committing ∧ r.serial = s.str.record.commit then s.commitDone else s
  | .delta => s.applyDelta r.serial r.time r.body
  | .seal => { s with mrl := { s.mrl with seals := s.mrl.seals ++ [(r.serial, r.time, r.body)] } }
  | .telemetry => { s with tel := { s.tel with hist := addIncrements s.tel.hist r.body } }
  | .retire => { s with mrl := { s.mrl with seals := retireSeals s.mrl.seals (fieldB r.body 0 4) } }
  | .epoch => { s with tsRun := true }
  | _ => s

/-- The staging slot has an uncorrectable error when the image record is written (R40). -/
def State.slotFails (s : State) (r : JRec) : Bool := r.typ == .image && s.str.slotFlip && s.str.stage == .journaling

/-- A compaction starts (R251). -/
def State.startCompaction (s : State) : State :=
  if 786432 ≤ s.mrl.used ∧ !s.committing ∧ !s.mrl.compact ∧ s.mayCompact then
    { s with mrl := { s.mrl with compact := true } } else s

/-- MARL_RECORD_COMPLETE (R247): the record at the front of the queue is written. A COMMIT record is written from step 6 of R32 on. -/
def recordStep (s : State) : Option State :=
  if s.mrl.compact ∨ s.pwr.pfSafe ∨ s.pwr.start = .reset then none
  else match s.mrl.queue with
    | [] => none
    | r :: rest =>
      if r.typ = .commit ∧ s.str.swap.isSome then none
      else if s.slotFails r then some ((s.cancelCommit .invalid).logOnly 0x020B 0)
      else
        let m := s.mrl
        let t := { s with mrl := { m with mram := m.mram.write (halfBase m.active + m.used) r.bytes, used := m.used + r.size
                                          durable := r.serial, queue := rest } }
        some ((t.recordDone r).startCompaction)

/-- COMPACTION_COMPLETE (R251): the base is whole and its half is active. -/
def compactStep (s : State) : Option State :=
  let m := s.mrl
  if !m.compact ∨ s.pwr.pfSafe ∨ s.pwr.start = .reset then none
  else
    let next := match m.queue with
      | r :: _ => r.serial
      | [] => m.nextSerial
    let serial := (next + 2 ^ 32 - 1) % 2 ^ 32
    let body := s.baseContents serial
    let a := halfBase (!m.active)
    let gen := (m.halfGen + 1) % 2 ^ 32
    let base := (JRec.mk .base serial s.ts.toNat (baseBody gen (body.length / 64) (crc32c body) next)).bytes
    let t := { s with mrl := { m with mram := (m.mram.write (a + 64) body).write a base, active := !m.active, used := 64 + body.length
                                      halfGen := gen, compact := false } }
    some ((t.bin 0x533 1).retryCommit)

/-- TELEMETRY_TIMER (R249). -/
def telemetryStep (s : State) : Option State :=
  if s.mrl.telTicks < 100000000 ∨ s.pwr.pfSafe then none
  else some ({ s with mrl := { s.mrl with telTicks := 0 } }.admitTelemetry.admitEpoch.checkRoom)

/-- IMAGE_DECODED_AGAIN (R265): the fields whose errors have been found are whole again, and held traffic that looks them up is accepted;
or LIVE_VALID clears and every core is held. Until then lookups of them wait (`State.waitsOn`, log 13). -/
def decodedAgain (ok : Bool) (s : State) : Option State :=
  if !imgFields.any (fun f => s.damage.contains (.decoding f)) then none
  else
    let t := { s with damage := s.damage.filter fun d => match d with
      | .decoding _ => false
      | _ => true }
    some (if ok then t.releaseHeld
      else { t with str := { t.str with liveValid := false, live := {}, shownId := 0, awaitConfirm := false }, pwr := { t.pwr with start := .replayed } })

/-! ### Power-fail and Off (R243 to R245) -/

/-- Steps 1 and 2 of R243. Before the journal is replayed there is no record to add (R253, log 85). -/
def State.flushBegin (s : State) : State :=
  let t := if s.committing then s.cancelCommit .valid else s
  let u := { t with mrl := { t.mrl with compact := false } }
  if u.pwr.start = .reset then u else u.admitTelemetry

/-- POWER_FAIL_WARNING: also one that comes again after it had cleared too early to end the sequence (R244). -/
def powerFail (s : State) : Option State :=
  if s.pwr.pfw && !s.pwr.pfCleared then none
  else
    let t := { s with pwr := { s.pwr with pfw := true, pfCleared := false } }.bin 0x530 1
    some (t.flushBegin.emit 10 .powerFail 0xFF 16 [1])

/-- After CONFIRM the fast clock is requested (R254 step 5). -/
def State.wakeConfirmed (s : State) : State := if s.pwr.start = .confirmed then s.startWake else s

/-- The hold of a warning that has cleared ends (R244): PFW and PF_SAFE clear, work resumes, and a compaction that a waiting commit
needs may start (logs 37 and 54). The fast clock that a CONFIRM of the hold asked for is requested (R254 step 5). After an Off request
the hold stays (R245). -/
def State.pfRelease (s : State) : State :=
  let t := { s with pwr := { s.pwr with pfw := false, pfCleared := false } }
  if t.pwr.offReq then t
  else
    let u := { t with mrl := { t.mrl with compact := t.mrl.compact || t.str.commitWaits }, pwr := { t.pwr with pfSafe := false } }
    (u.setPower u.pwr.back).endHold.wakeConfirmed

/-- PF_SAFE (R243 step 4, R245): the queue is written; the fast clock is held; the trace in staging is discarded (R279). Where the
warning has cleared meanwhile, the hold is released at once (R244). -/
def pfSafeStep (s : State) : Option State :=
  let p := s.pwr
  if !(p.pfw || p.offReq) ∨ p.pfSafe ∨ !s.mrl.queue.isEmpty then none
  else
    let h := s.setPower .pfHold
    let t := { h with pwr := { h.pwr with pfSafe := true, back := p.state, offReady := p.offReq }, dbg := { h.dbg with staged := [] } }
    let t := if p.offReq then t.send .offReady else t
    some (if p.pfCleared then t.pfRelease else t)

/-- POWER_FAIL_CLEAR (R244): the hold ends once step 3 of R243 is complete. -/
def pfClear (s : State) : Option State :=
  let p := s.pwr
  if !p.pfw ∨ p.pfCleared then none
  else
    let t := s.bin 0x531 1
    some (if p.pfSafe then t.pfRelease else { t with pwr := { t.pwr with pfCleared := true } })

/-- PWR_CTRL.OFF (R245). Every Off request cancels a commit in journaling or pending (R32, R34). A cluster that a warning has already
brought through step 4 of R243 is ready at once; while a warning or an earlier request is on, the flush goes on as it is (log 37). -/
def State.offRequest (s : State) : State :=
  let u := if s.committing then s.cancelCommit .valid else s
  if u.pwr.offReq then u
  else
    let t := { u with pwr := { u.pwr with offReq := true } }.bin 0x532 1
    if t.pwr.pfSafe then { t with pwr := { t.pwr with offReady := true } }.send .offReady
    else if t.pwr.pfw then t else t.flushBegin

/-- POWER_LOSS (R252): only the segment is kept; of a record or base being written the first `torn` sectors have landed (log 17). -/
def powerLost (torn : Nat) (s : State) : State :=
  let m := s.mrl
  let part := if s.pwr.pfSafe then m.mram
    else if m.compact then m.mram.write (halfBase (!m.active) + 64) ((s.baseContents 0).take (64 * torn))
    else match m.queue with
      | r :: _ => m.mram.write (halfBase m.active + m.used) (r.bytes.take (min (64 * torn) (r.size - 64)))
      | [] => m.mram
  { id := s.id, mrl := { mram := part }, pwr := { state := .off }, out := s.out, free := s.free, pending := s.pending }

/-! ### Start-up (R253, R254) -/

/-- STARTUP (R254 steps 1 to 3): replay, decoding into slot A, validation. -/
def startup (s : State) : Option State :=
  if s.pwr.start ≠ .reset then none
  else
    let r := replayOf s.mrl.mram
    let p : Pwr := if s.pwr.state = .off then {} else s.pwr
    let fresh : State := { s with mrl := r.mrl, tel := { s.tel with hist := r.hist }, ts := BitVec.ofNat 64 r.time, pwr := { p with start := .replayed } }
    let x : Str := { epoch := BitVec.ofNat 32 r.epoch, deltaSkipped := r.skipped }
    let t : State := match r.image with
      | none => { fresh with str := x }
      | some b =>
        match validateImage s.id b.bytes with
        | .error e => { fresh with str := { x with valFault := e.fault, valSection := e.sec, valOffset := e.off } }.logOnly e.fault e.off
        | .ok im =>
          { fresh with str := { x with
              live := b.deltas.foldl (fun im d => deltaImage im d.2.2) im, liveValid := true, awaitConfirm := true, shownId := im.id
              record := b, deltaSeq := ((b.deltas.getLast?).map fun d => fieldB d.2.2 8 4).getD 0
              deltaTotal := (b.deltas.map fun d => 64 * sectOf d.2.2.length).sum } }
    some t.admitEpoch

/-- CORE_RELEASE (R254 steps 5 and 6, R66): the release state; what the ports held is accepted under it. -/
def releaseCores (s : State) : Option State :=
  if s.pwr.start ≠ .confirmed ∨ !s.clockOn then none
  else
    let credits := s.str.live.credits.foldl (fun (t : Tab Credit) e => tabSet t e.dest { avail := e.allot }) []
    some ({ s with
      loam := {}, cores := [], ctr := {}, syn := { s.syn with sc := [] }, damage := []
      msg := { s.msg with rings := [], credits := credits, slots := [], parked := [], sends := [], status := [] }
      pwr := { s.pwr with start := .released } }.activate.releaseHeld)

end Sys2Proof.Machine
end

