-- ==== Sys2Proof/Machine/Control.lean ====
section
/-! DEFINITION. Machine/Control.lean: writes of the STR_, PWR_ and MRL_ registers, which the always-on domain serves (R237, R292), and a
register access of any block from outside. -/

namespace Sys2Proof.Machine

/-- Every field that a write of `v` at byte `o` of an always-on register sets is in its range (step 4 of R256). -/
def aonRange (first o v : Nat) : Bool :=
  match first with
  | 0x1000 => decide (1 ≤ v ∧ v ≤ 5)
  | 0xC010 => o != 40 || decide (v < 65536)
  | 0xC050 => bits v 5 0 == 0
  | _ => true

/-- Every compute core in core Sleep that the image enables wakes. -/
def State.wakeCores (s : State) : State :=
  (List.range 4).foldl (fun (t : State) c => if coreOn t.str.live.coreEn c then t.wakeCore c else t) s

/-- PWR_CTRL (R235, R245): STAYUP takes the written value, and OFF makes the request once. -/
def State.pwrCtrl (s : State) (v : Nat) : State :=
  let t := { s with pwr := { s.pwr with stayUp := bitAt v 0 } }
  let t := if bitAt v 0 then t.startWake.wakeCores else t
  if bitAt v 1 then t.offRequest else t

/-- A word of MRL_SEAL_DATA. -/
def State.sealWord (s : State) (o v : Nat) : State :=
  let d := padTo 44 s.mrl.sealData
  { s with mrl := { s.mrl with sealData := d.take o ++ leBytes 4 v ++ d.drop (o + 4) } }

/-- MRL_READ_ADDR (R294): the sector is fetched whole. -/
def State.mrlRead (s : State) (v : Nat) : State :=
  { s with mrl := { s.mrl with readAddr := v, readData := s.mrl.mram.read (bits v 20 0) 64 } }

/-- A write of `v` at byte `o` of an always-on register. -/
def State.aonDo (s : State) (first o v : Nat) : State × Nat :=
  match first with
  | 0x1000 => s.strCtrl v
  | 0x1008 => s.stageData v
  | 0x1020 => (s.deltaData v, 0)
  | 0xB000 => ({ s with pwr := { s.pwr with napAfter := bits v 11 0, sleepAfter := bits v 27 12, csleep := bits v 31 28 } }, 0)
  | 0xB004 => (s.pwrCtrl v, 0)
  | 0xC010 => (s.sealWord o v, 0)
  | 0xC03C => (if bitAt v 0 then s.submit .seal (padTo 44 s.mrl.sealData) else s, 0)
  | 0xC048 => (s.submit .retire (leBytes 4 v), 0)
  | 0xC050 => (s.mrlRead v, 0)
  | _ => (s, 0)

/-- All blocks. -/
def allBlocks : Blocks :=
  { range := fun s f k o v => if aonReg f then aonRange f o v else s.fastRange f k v
    act := fun s f k o v => if aonReg f then s.aonDo f o v else s.fastDo f k v }

/-- An access to an always-on block that is held: another cluster's, which comes by the memory port, until core release (R304), and a write
of the host to an STR_ or MRL_ register until the journal is replayed, before which no record is admitted (R253, log 85). -/
def State.heldEarly (s : State) (p : Party) (off : Nat) (write : Bool) : Bool :=
  (p != .host && s.pwr.start != .released) || (write && s.pwr.start == .reset && (off / 0x1000 == 1 || off / 0x1000 == 0xC))

/-- A held access to an always-on block that is held still. -/
def State.stillEarly (s : State) (x : Traffic) : Bool :=
  match x with
  | .write p off _ _ => s.heldEarly p off true
  | .read p off _ => s.heldEarly p off false
  | _ => false

/-- The accesses to the always-on blocks that are held no longer, in order of arrival. -/
def State.acceptAon (s : State) : State :=
  (s.heldAon.filter fun x => !s.stillEarly x).foldl (fun (t : State) x => match x with
    | .write p off w v => outsideWrite allBlocks p off w v.toNat t
    | .read p off w => outsideRead p off w t
    | _ => t) { s with heldAon := s.heldAon.filter s.stillEarly }

/-- A register write from outside: the always-on blocks are served at once, the others as traffic of a port (R237, R241, R292). -/
def State.writeFrom (s : State) (p : Party) (off : Nat) (w : Width) (v : Word64) : State :=
  if aonReg off then
    if s.heldEarly p off true then { s with heldAon := s.heldAon ++ [.write p off w v] } else outsideWrite allBlocks p off w v.toNat s
  else s.arrive (.write p off w v)

/-- A register read from outside. -/
def State.readFrom (s : State) (p : Party) (off : Nat) (w : Width) : State :=
  if aonReg off then if s.heldEarly p off false then { s with heldAon := s.heldAon ++ [.read p off w] } else outsideRead p off w s
  else s.arrive (.read p off w)

/-- A row that writes one whole register of an always-on block. -/
def State.aonRow (s : State) (p : Party) (off v : Nat) : State :=
  if s.heldEarly p off true then { s with heldAon := s.heldAon ++ [.write p off .b4 (BitVec.ofNat 64 v)] } else regRow allBlocks p off v s

/-- A row that writes one 32-bit register of a block on the fast clock. -/
def State.fastRow (s : State) (p : Party) (off v : Nat) : State := s.arrive (.write p off .b4 (BitVec.ofNat 64 v))

/-- A row that writes one 64-bit register of a block on the fast clock. -/
def State.fastRow64 (s : State) (p : Party) (off : Nat) (v : Word64) : State := s.arrive (.write p off .b8 v)

end Sys2Proof.Machine
end

