-- ==== Sys2Proof/Machine/Watchdog.lean ====
section
/-! DEFINITION. Machine/Watchdog.lean: stall reasons (R272, R273), watchdogs (R257 to R259), failed links (R264), scrubbing (R65),
and the sieve snapshot (R285 to R288). -/

namespace Sys2Proof.Machine

/-! ### Stall reasons (R272, R273) -/

/-- The reason for which a send waits: pacing where only the allowance is short, else credit. -/
def State.sendReason (s : State) (w : Who) : Nat :=
  match s.msg.sends.find? fun x => x.who == w with
  | none => 11
  | some x =>
    let e := entriesOf x.len
    let d := x.dests.headD 0
    if x.dests.any (fun d => s.creditAvail d < e) then 11
    else if s.paced d ∧ (s.pace (destNode d)).allow < 64 * e then 12 else 11

/-- The reason for which the sequencer of a context stalls, none where it does not. -/
def State.seqReason (s : State) (w : Who) : Option Nat :=
  let i := s.item w
  match (s.ctx w).phase with
  | .idle => none
  | .waitRange => some 14
  | _ => match i.pend with
    | .wait sc _ t => if s.waitIsMet i.no sc t then none else some 9
    | .arrive _ scope _ => if s.released i.no scope then none else some 10
    | .send => some (s.sendReason w)
    | .memory _ => none
    | .none => i.blocked

/-! ### Item watchdogs (R257, R258) -/

/-- The abort of an expired watchdog begins: an item that still waits at steps 1 to 5 of R145 is not started instead (log 42). -/
def State.beginExpired (s : State) (w : Who) : State :=
  match (s.item w).abort with
  | some a =>
    if !a.snap then s
    else match (s.ctx w).phase with
      | .waitRange | .issuing => s.notStarted w a.fault (s.item w).hdr
      | _ => (s.logFault a.fault w.core.val (isHdl w) true (s.item w).addr).beginAbort w a.fault
  | none => s

/-- A watchdog of an item expires and is the fault that the item bears: a snapshot is requested, and the abort waits until it has
recorded the cluster; where the request is missed it begins at once (R258, R288). -/
def State.expire (s : State) (w : Who) (fault binNo : Nat) : State :=
  let was := (s.item w).waitedAt
  let t := (((s.unbear w).bin binNo 1).askSnap 1 fault).modItem w fun i => { i with
    abort := some { fault := fault, snap := true, tick := s.ticks, was := was, seen := fault :: (s.item w).seenFaults } }
  if t.dbg.snapState = 1 then t else t.beginExpired w

/-- A watchdog of an item that bears another fault expires: it is counted and stands in the log alone (R258). -/
def State.expireLate (s : State) (w : Who) (fault binNo : Nat) : State :=
  ((s.bin binNo 1).askSnap 1 fault).logFault fault w.core.val (isHdl w) false (s.item w).addr |>.modItem w fun i =>
    { i with abort := i.abort.map fun a => { a with seen := fault :: a.seen } }

/-- A watchdog of an item expires: the item bears its fault, or one that goes before it in the same drone tick, or one it took before; the
lookup of its limit waits where that field of the live image is decoded again (R258, R265). -/
def State.expireAny (s : State) (w : Who) (fault binNo : Nat) : Option State :=
  if s.waitsOn [.timeouts] then none
  else match (s.item w).abort with
    | none => some (s.expire w fault binNo)
    | some a =>
      if s.outranks w fault then some (s.expire w fault binNo)
      else if !a.seen.contains fault then some (s.expireLate w fault binNo) else none

/-- What the item waits for, or waited for when it took a fault in this drone tick. -/
def State.waitedFor (s : State) (w : Who) : Pend :=
  match (s.item w).abort with
  | some a => if a.tick = s.ticks then a.was else .none
  | none => (s.item w).pend

/-- A started item is in the context. -/
def Phase.started : Phase → Bool
  | .running | .preempting | .aborting => true
  | _ => false

/-- WAIT_TO: a wait that an evaluation has found met does not expire (R190). -/
def waitExpire (w : Who) (s : State) : Option State :=
  let i := s.item w
  match s.waitedFor w with
  | .wait sc _ t =>
    if !(s.ctx w).phase.started ∨ !s.str.liveValid ∨ i.waitTicks < s.str.live.waitTo ∨ s.waitIsMet i.no sc t then none
    else s.expireAny w 0x0C03 0x540
  | _ => none

/-- SEND_TO: of a send that waits for acceptance, or since its decode for earlier instructions (R151, R257). -/
def sendExpire (w : Who) (s : State) : Option State :=
  let i := s.item w
  if (s.waitedFor w ≠ .send ∧ !i.sendWaits) ∨ !(s.ctx w).phase.started ∨ !s.str.liveValid ∨ i.waitTicks < s.str.live.sendTo then none
  else s.expireAny w 0x0C04 0x541

/-- COMMAND_TO and HANDLER_TO. -/
def itemExpire (w : Who) (limit fault binNo : Nat) (s : State) : Option State :=
  if !s.str.liveValid ∨ (s.item w).cmdTicks < limit then none
  else match (s.ctx w).phase with
    | .running | .preempting | .aborting | .waitRange | .issuing => s.expireAny w fault binNo
    | _ => none

/-! ### DMA_TO (R257, R259) -/

/-- DMA_TO of a channel: a running descriptor that has won no beat, or the head of the queue, which then takes its turn stopped. -/
def chanExpire (ch : Nat) (s : State) : Option State :=
  let c := s.chan ch
  let lim := s.str.live.dmaTo
  match c.run.find? fun r => !r.stopped && decide (r.step < r.desc.units ∧ lim ≤ r.ticks) with
  | some r => some ((s.bin 0x544 1).stopDesc ch r.no 0x0C07 r.nextDst)
  | none =>
    match c.queue with
    | [] => none
    | r :: rest =>
      if r.desc.armed ∨ r.ticks < lim then none
      else
        let t := s.setChan ch { c with queue := rest, run := c.run ++ [r] }
        some (((t.bin 0x544 1).stopDesc ch r.no 0x0C07 r.desc.src).noteHead ch)

/-- What an abandoned write of a descriptor leaves undefined here: the counter of its byte count (R259). -/
def State.abandonCount (s : State) (t : Txn) : State :=
  match t.kind with
  | .dmaWrite ch no _ =>
    (match (s.chan ch).run.find? (·.no == no) with
     | some r => if r.desc.bcEn ∧ r.desc.bcClu = pkgIndex s.id then s.freeSc r.desc.bcSc else s
     | none => s)
  | _ => s

/-- DMA_TO of a transaction: it is abandoned, and what owns it stops. -/
def txnExpire (id : Nat) (s : State) : Option State :=
  match s.port.txns.find? (·.id == id) with
  | none => none
  | some t =>
    if t.abandoned ∨ t.ticks < s.str.live.dmaTo then none
    else
      let u := { s with port := { s.port with txns := s.port.txns.map fun (x : Txn) => if x.id = id then { x with abandoned := true } else x } }
      some (((u.bin 0x544 1).abandonCount t).txnFail t 0x0C07)

/-- DMA_TO. -/
def dmaExpire (t : DmaTarget) (s : State) : Option State :=
  if !s.str.liveValid ∨ s.waitsOn [.timeouts] then none
  else match t with
    | .channel ch => chanExpire ch.val s
    | .txn id => txnExpire id s

/-! ### Links (R264) and scrubbing (R65) -/

/-- What a failed link carried ends with FAB_LINK: a transaction as one that fails, a message as one refused with that fault. -/
def State.linkFailed (s : State) (x : FlitLoad) : State :=
  match x with
  | .txn id =>
    (match s.port.txns.find? (·.id == id) with
     | some t => if t.abandoned then (s.dropTxn id).endDrain id else (s.dropTxn id).txnFail t 0x0A03
     | none => s)
  | .send dest tag core job n => (s.logFault 0x0A03 core.toNat false false tag.toNat).queueStatus
      ⟨dest, n, none, .refused 0x0A03, tag, job, core, false⟩ 0x0A03 2
  | .none => s.logOnly 0x0A03 0

/-- FLIT_CRC_FAIL: a flit whose last `replays` replays have failed is replayed once more, and the replay is counted; after 8 failed
replays the link is failed. -/
def flitFail (replays : Nat) (x : FlitLoad) (s : State) : State :=
  if 8 ≤ replays then (s.bin 0x546 1).linkFailed x else (s.modCtr fun c => { c with linkRetry := stick48 c.linkRetry 1 }).bin 0x547 1

/-- SCRUB: one sector is read, and corrected or poisoned (R61, R65); the scrubber's read of a sector that is poisoned already raises nothing
(DESIGN CHOICE, log 84). -/
def scrubStep (sector : Nat) (s : State) : Option State :=
  let q := s.loamSector 7 sector
  some (if q.2 = .ue then q.1.logOnly 0x0308 (sector * 64) else q.1)

/-! ### The sieve snapshot (R285 to R288) -/

/-- SEQ entries: each context of each core. -/
def State.snapSeq (s : State) : List SnapEnt :=
  allWho.map fun w =>
    let i := s.item w
    let offs := (s.itemJobs w).map (·.off)
    let since := if (s.ctx w).holds then (s.ts - i.record.start).toNat else 0
    ⟨s.ts.toNat, 1, whoByte w, [s.coreStatus w.core.val, i.addr, i.hdr.job, i.hdr.layer, i.hdr.operator, i.hdr.step,
      offs.foldl min i.off, (s.seqReason w).getD 0xFF, since]⟩

/-- WAIT entries. -/
def State.snapWait (s : State) : List SnapEnt :=
  allWho.filterMap fun w => match (s.item w).pend with
    | .wait sc scope t => some ⟨s.ts.toNat, 2, whoByte w, [sc, t.toNat, (s.sc sc).toNat, scope, (s.item w).waitTicks]⟩
    | _ => none

/-- SEND entries. -/
def State.snapSend (s : State) : List SnapEnt :=
  s.msg.sends.map fun x =>
    let d := x.dests.headD 0
    ⟨s.ts.toNat, 3, whoByte x.who, [d, entriesOf x.len, s.creditAvail d, ((s.credit d).gen.map (·.toNat)).getD 0, (s.item x.who).waitTicks]⟩

/-- DMA entries: channels whose state is not idle. -/
def State.snapDma (s : State) : List SnapEnt :=
  (List.range 32).filterMap fun ch =>
    let st := s.chanStatus ch
    if bits st 1 0 = 0 then none
    else
      let r := ((s.chan ch).run.head?.map fun r => (whoByte r.who, r.desc)).getD (0xFF, {})
      some ⟨s.ts.toNat, 4, r.1, [st, r.2.src, r.2.dst, r.2.sig]⟩

/-- The 16-byte header of a ring's head entry, as the always-on port reads it (R61, R63). A head that is poisoned, or found
uncorrectable, raises its fault, borne by no item, and shows free values (log 80). -/
def State.snapHead (s : State) (c r : Nat) : State × Nat × Nat :=
  let a := s.ringAddr c r (s.ring c r).rd
  let q := s.loamRead 7 a 16
  match q.2 with
  | .ok b => (q.1, fieldB b 0 8, fieldB b 8 8)
  | .bad f =>
    let x := (q.1.logFault f c false false a).freeWord64
    let y := x.1.freeWord64
    (y.1, x.2.toNat, y.2.toNat)

/-- RING entries: each ring of the live image, its head entry's header read from Loam. -/
def State.snapRing (s : State) : State × List SnapEnt :=
  ((List.range 5).flatMap fun c => (List.range 32).map fun r => (c, r)).foldl (fun (acc : State × List SnapEnt) p =>
    match s.str.live.ring p.1 p.2 with
    | none => acc
    | some g =>
      let x := s.ring p.1 p.2
      let q := acc.1.snapHead p.1 p.2
      (q.1, acc.2 ++ [⟨s.ts.toNat, 5, p.1, [x.wr, x.rd, x.occ, x.gen.toNat, g.size, q.2.1, q.2.2]⟩])) (s, [])

/-- SLOT entries. -/
def State.snapSlot (s : State) : List SnapEnt :=
  (List.range 512).filterMap fun n => if s.slotState n = 0 then none else some ⟨s.ts.toNat, 6, 0xFF, [s.slotStatus n]⟩

/-- CREDIT entries. -/
def State.snapCredit (s : State) : List SnapEnt :=
  (s.str.live.credits.foldl (fun l e => insCredit e l) []).filterMap fun e =>
    let waiting := (s.msg.sends.filter fun x => x.dests.contains e.dest).length
    let g := (s.credit e.dest).gen
    if e.allot ≤ s.creditAvail e.dest ∧ waiting = 0 then none
    else some ⟨s.ts.toNat, 7, 0xFF, [e.dest, e.allot, s.creditAvail e.dest, (g.map (·.toNat)).getD 0, b2n g.isSome, waiting]⟩

/-- The entries of a snapshot in kind order, at most 1,024, and how many are omitted (R286). -/
def State.snapEntries (s : State) (rings : List SnapEnt) : List SnapEnt × Nat :=
  let body := s.snapSeq ++ s.snapWait ++ s.snapSend ++ s.snapDma ++ rings ++ s.snapSlot ++ s.snapCredit
  let n := min 1024 (body.length + 1)
  let om := body.length + 1 - n
  let d := s.dbg
  let head : SnapEnt := ⟨s.ts.toNat, 0, 0xFF, [d.snapCause, d.snapFault, d.snapOrigin, d.snapTick, s.str.shownId, s.str.epoch.toNat, n, om]⟩
  (head :: body.take (n - 1), om)

/-- SNAPSHOT_CAPTURE_DONE: the store is held, each entry goes to the trace, and the aborts that waited for the snapshot begin. -/
def snapDone (s : State) : Option State :=
  if s.dbg.snapState ≠ 1 ∨ !s.clockOn then none
  else
    let g := s.snapRing
    let q := s.snapEntries g.2
    let t := { g.1 with dbg := { g.1.dbg with snapState := 2, snap := q.1, omitted := q.2 } }
    let t := q.1.foldl (fun (t : State) e => t.emit 14 .single e.who 80 (e.time :: e.kind :: e.vals)) t
    some (allWho.foldl State.beginExpired t)

/-- SNAP_FORWARDED (R287): a request of another cluster; it is not forwarded again. -/
def snapForwarded (origin : Nat) (s : State) : State := s.requestSnap 2 0 origin

end Sys2Proof.Machine
end

