-- ==== Sys2Proof/Machine/Debug.lean ====
section
/-! DEFINITION. Machine/Debug.lean: probes (R281), watch dumps (R283), and the drain of the trace (R279). -/

namespace Sys2Proof.Machine

/-! ### Probes (R281) -/

/-- PROBE_TIMEOUT. -/
def probeExpire (s : State) : Option State :=
  let d := s.dbg
  if d.pingState ≠ 1 ∨ d.pingTicks < 1000000 then none
  else some { s with dbg := { d with pingState := 3, pingFault := 0, pingLate := d.pingLate ++ [d.pingTo] } }

/-! ### Watch dumps (R283) -/

/-- A dump may proceed: the conditions of R146 hold, or step 4 of R147 is over. -/
def State.dumpReady (s : State) (w : Who) : Bool :=
  let i := s.item w
  s.itemDone w || ((s.ctx w).phase == .aborting && (match i.abort with
    | some a => a.poisoned && s.port.txns.all fun t => !t.ofItem i.no
    | none => false))

/-- Bytes of the output stream that DUMP_LEN still allows. -/
def WatchHit.room (h : WatchHit) (d : Dump) : Nat := h.len - 64 - d.copied

/-- Bytes from `a`, at most `n`, that a DMA write of a core may take. -/
def State.dumpAllowed (s : State) (core a n : Nat) : Nat :=
  match placeOf s.id a with
  | .own l =>
    (match (sectorsOf l n).find? fun k => verdict s.str.live (.dmaWrite core) k != .ok with
     | some k => min n (64 * k - l)
     | none => if s.id.loamMib * 2 ^ 20 < l + n then s.id.loamMib * 2 ^ 20 - l else n)
  | _ => if spanFault s (.dmaWrite core) (a, a + n - 1) = 0 then n else 0

/-- Changes the dump of an item. -/
def State.setDump (s : State) (w : Who) (d : Option Dump) : State := s.modItem w fun i => { i with dump := d }

/-- The dump ends with WATCH_DUMP: it is logged, and nothing more of the stream is copied. -/
def State.dumpFails (s : State) (w : Who) (d : Dump) (n : Nat) : State :=
  s.setDump w (some { d with fault := 0x0D01, next := n })

/-- A copy that came to its end: its bytes count; one that was stopped or cut short ends the stream. -/
def State.copyEnds (s : State) (w : Who) (h : WatchHit) (d : Dump) (r : DescRun) : State :=
  let i := s.item w
  let regs := i.hdr.regions
  let want := min ((regs[d.next]?).getD (0, 0)).2 (h.room d)
  let t := s.setChan 32 { s.chan 32 with run := (s.chan 32).run.filter (·.no != r.no) }
  let e := { d with copied := d.copied + r.done, next := d.next + 1 }
  if r.stopped then t.dumpFails w e regs.length
  else if r.desc.xlen < want then (t.logOnly 0x0D01 (h.addr + 64 + e.copied)).dumpFails w e regs.length
  else t.setDump w (some e)

/-- The copy of the next output region starts on the watch path. -/
def State.copyStarts (s : State) (w : Who) (h : WatchHit) (d : Dump) (reg : Nat × Nat) : State :=
  let i := s.item w
  let dst := h.addr + 64 + d.copied
  let n := s.dumpAllowed w.core.val dst (min reg.2 (h.room d))
  if n = 0 then (s.logOnly 0x0D01 dst).dumpFails w d i.hdr.regions.length
  else
    let r : DescRun := { no := s.dma.nextNo, desc := { src := reg.1, dst := dst, xlen := n, ycnt := 1, zcnt := 1 }, who := w, itemNo := i.no }
    let t := { s with dma := { s.dma with nextNo := s.dma.nextNo + 1 } }
    t.setChan 32 { t.chan 32 with run := (t.chan 32).run ++ [r] }

/-- The 64 bytes of a dump header. -/
def dumpHeader (cl : Nat) (w : Who) (h : Hdr) (x : WatchHit) (d : Dump) : List Byte :=
  leBytes 4 h.tensor ++ leBytes 4 h.step ++ leBytes 2 h.layer ++ leBytes 2 h.operator ++ leBytes 2 h.job ++ leBytes 1 (whoByte w) ++
  leBytes 1 x.idx ++ leBytes 8 d.time ++ leBytes 4 x.fire ++ leBytes 2 d.fault ++ leBytes 2 cl ++
  leBytes 8 ((h.regions.map (·.2)).sum) ++ leBytes 8 d.copied ++ List.replicate 16 0

/-- The dump of the first matching entry is over. -/
def State.dumpEnds (s : State) (w : Who) (h : WatchHit) (d : Dump) : State :=
  (s.modItem w fun i => { i with watch := i.watch.drop 1, dump := none }).emit 12 (if d.fault = 0x0D01 then .abandoned else .dumped)
    (whoByte w) 32 [h.idx, d.copied]

/-- The dump header is written, last; elsewhere as soon as the memory port has room (R224). -/
def State.writeDumpHeader (s : State) (w : Who) (h : WatchHit) (d : Dump) : Option State :=
  let b := dumpHeader (pkgIndex s.id) w (s.item w).hdr h d
  if s.dumpAllowed w.core.val h.addr 64 < 64 then some ((s.logOnly 0x0D01 h.addr).dumpEnds w h { d with fault := 0x0D01 })
  else match placeOf s.id h.addr with
    | .own l =>
      let q := s.loamWrite 5 l b
      some (if q.2 = 0 then q.1.dumpEnds w h d else (q.1.logOnly 0x0D01 h.addr).dumpEnds w h { d with fault := 0x0D01 })
    | _ =>
      if !s.txnRoom then none
      else
        let q := s.newTxn h.addr (.dmaWrite 32 0 64)
        some ((q.1.send (.memWrite q.2 h.addr (b.mapIdx fun i x => (i, x)))).setDump w (some { d with header := some q.2 }))

/-- One step of a dump that has begun. -/
def State.dumpGoes (s : State) (w : Who) (h : WatchHit) (d : Dump) : Option State :=
  let i := s.item w
  match d.header with
  | some id => if s.port.txns.any (fun t => t.id == id && !t.abandoned) then none else some (s.dumpEnds w h d)
  | none =>
    match (s.chan 32).run.find? fun r => r.itemNo == i.no with
    | some r =>
      if r.inFlight = 0 ∧ (r.stopped ∨ r.desc.units ≤ r.step) then some (s.copyEnds w h d r)
      else if !r.stopped ∧ s.str.live.dmaTo ≤ r.ticks then some ((s.bin 0x544 1).stopDesc 32 r.no 0x0C07 r.nextDst)
      else none
    | none =>
      match i.hdr.regions[d.next]? with
      | some reg => if h.room d = 0 then s.writeDumpHeader w h d else some (s.copyStarts w h d reg)
      | none => s.writeDumpHeader w h d

/-- WATCH_DUMP: the dump of the first matching entry begins, goes on, or ends. An aborted item has a header only. -/
def dumpStep (w : Who) (s : State) : Option State :=
  let i := s.item w
  match i.watch with
  | [] => none
  | h :: _ =>
    if !s.dumpReady w then none
    else match i.dump with
      | none =>
        let f := (i.abort.map (·.fault)).getD 0
        some (s.setDump w (some { time := s.ts.toNat, fault := f, next := if i.abort.isSome then i.hdr.regions.length else 0 }))
      | some d => s.dumpGoes w h d

/-! ### Trace (R279) -/

/-- A name's number for the CODE of a trace header, which the spec does not give (log 82). -/
def SubEv.idx : SubEv → Nat
  | .start => 0 | .stop => 1 | .accept => 2 | .perform => 3 | .drop => 4 | .wait => 5 | .state => 6 | .throttle => 7 | .hold => 8
  | .powerFail => 9 | .swap => 10 | .delta => 11 | .validated => 12 | .matched => 13 | .dumped => 14 | .abandoned => 15
  | .align => 16 | .boundary => 17 | .single => 18

/-- The 16-byte header of an event (R278). -/
def TraceEv.header (e : TraceEv) (cluster : Nat) : List Byte :=
  leBytes 8 e.time ++ leBytes 1 (e.cls % 32) ++ [Config.traceCode e.cls e.sub.idx] ++ leBytes 1 e.who ++ leBytes 1 (e.size / 16) ++
  leBytes 2 cluster ++ leBytes 2 e.seq

/-- TRACE_DRAIN: the oldest `n` events leave through the trace port. -/
def traceOut (n : Nat) (s : State) : Option State :=
  if !s.clockOn ∨ s.dbg.staged.isEmpty then none
  else some ((s.dbg.staged.take n).foldl (fun (t : State) e => t.send (.trace (e.header (pkgIndex s.id)) e)) { s with dbg := { s.dbg with staged := s.dbg.staged.drop n } })

end Sys2Proof.Machine
end

