-- ==== Sys2Proof/Machine/Scalar.lean ====
section
/-! DEFINITION. Machine/Scalar.lean: the SCL instructions of the control core (R154, R155, R200, R201, R293). -/

namespace Sys2Proof.Machine

/-- A scalar instruction as decoded: registers, IMM, VOL. -/
structure SclArgs where
  sd : Nat
  sa : Nat
  sb : Nat
  imm : Word64
  vol : Bool
  deriving DecidableEq, Repr

/-- A scalar register; S0 reads as zero (R154). -/
def Item.reg (i : Item) (r : Nat) : Word64 := if r = 0 then 0 else tabGet 0 i.sregs r

/-- The control core's context. -/
def sclWho (x : CtxKind) : Who := ⟨4, x⟩

/-- A row for scalar operation `o`: the next instruction of the context runs when it is that operation. -/
def State.scl (s : State) (x : CtxKind) (o : Nat) (f : Who → SclArgs → State → Option State) : State :=
  s.issue (sclWho x) fun op _ s => match op with
    | .scl o' sd sa sb imm vol => if o' = o then f (sclWho x) ⟨sd, sa, sb, imm, vol⟩ s else none
    | _ => none

/-- ADD to SLTU: SD = SA op (SB + IMM). -/
def aluStep (f : Word64 → Word64 → Word64) (w : Who) (a : SclArgs) (s : State) : Option State :=
  some ((s.modItem w fun i => i.setReg a.sd (f (i.reg a.sa) (i.reg a.sb + a.imm))).advance w 16)

/-- A branch target lies in the instruction sequence (R150, R155). -/
def Hdr.targetOk (h : Hdr) (t : Nat) : Bool := decide (192 ≤ t ∧ t < 192 + h.codeLen) && t % 16 == 0

/-- BEQ to BGE and JMP: the target is checked at decode, taken or not (R301). -/
def branchStep (f : Word64 → Word64 → Bool) (w : Who) (a : SclArgs) (s : State) : Option State :=
  let i := s.item w
  let t := a.imm.toNat
  if !i.hdr.targetOk t then some (s.raise w 0x0702 i.off)
  else some ((s.modItem w fun i => { i with off := if f (i.reg a.sa) (i.reg a.sb) then t else i.off + 16, blocked := none }).work 0 i.no)

/-! ### Registers (R293, R199) -/

/-- The control core's own register access: privilege and JOB are its item's. -/
def State.ownAcc (s : State) (w : Who) : Acc :=
  { path := 1, sup := (s.item w).sup, job := (s.item w).hdr.job, viewer := isHdl w }

/-- The item goes on, unless what it did ended it. -/
def State.goOn (s : State) (w : Who) (no : Nat) : State :=
  if (s.item w).no = no ∧ (s.ctx w).phase ≠ .idle ∧ (s.item w).abort.isNone then s.advance w 16 else s

/-- A read of the own register block. -/
def ownRegRead (w : Who) (sd off : Nat) (k : Width) (s : State) : Option State :=
  let q := s.regRead (s.ownAcc w) off k
  match q.2 with
  | .bad f => some (q.1.raise w f off)
  | .ok v => some ((q.1.modItem w fun i => i.setReg sd (BitVec.ofNat 64 v)).advance w 16)

/-- A store to SYN_ARRIVE, which is a release at package scope (R199). -/
def arriveStore (off : Nat) : Bool := off == 0x8000 || off == 0x8004

/-- A write of the own register block. -/
def ownRegWrite (w : Who) (off : Nat) (k : Width) (v : Nat) (s : State) : Option State :=
  let no := (s.item w).no
  if arriveStore off ∧ !s.released no 2 then some (s.block w 10)
  else
    let q := regWriteWith allBlocks s (s.ownAcc w) off k v
    some (if q.2 ≠ 0 then q.1.raise w q.2 off else q.1.goOn w no)

/-- A transaction that the item waits for. -/
def State.await (s : State) (w : Who) (id : Nat) : State :=
  (s.modItem w fun i => { i with pend := .memory id, blocked := none }).issues w

/-! ### Loads and stores (R155, R200, R201) -/

/-- Bytes of an access. -/
def widthBytes : Width → Nat
  | .b1 => 1
  | .b2 => 2
  | .b4 => 4
  | .b8 => 8

/-- A load from memory outside the own Loam. -/
def outerLoad (w : Who) (a : SclArgs) (pa n : Nat) (s : State) : Option State :=
  let no := (s.item w).no
  let sec := pa / 64
  let give (s : State) (d : List Byte) : Option State :=
    some ((s.modItem w fun i => i.setReg a.sd (BitVec.ofNat 64 (leNat (sliceB d (pa % 64) n)))).advance w 16)
  let fetch (s : State) (cache : Bool) : Option State :=
    if !s.txnRoom then none
    else
      let q := s.newTxn pa (.load w no a.sd (pa % 64) n cache cache (if cache then s.port.holding sec else []))
      some ((q.1.send (.memRead q.2 (sec * 64) false)).await w q.2)
  if a.vol then (if s.port.pbuf.any fun e => e.sector == sec then none else fetch s false)
  else
    let q := s.lookLine sec
    match q.2 with
    | some l => give q.1 l.data
    | none => if q.1.port.covers sec then give q.1 (q.1.port.forward sec []) else fetch q.1 true

/-- LD8 to LD64. -/
def loadStep (k : Width) (w : Who) (a : SclArgs) (s : State) : Option State :=
  let n := widthBytes k
  let i := s.item w
  let pa := (i.reg a.sa + a.imm).toNat
  if pa % n ≠ 0 then some (s.raise w 0x0702 pa)
  else match placeOf s.id pa with
    | .unmapped => some (s.raise w 0x0301 pa)
    | .own l =>
      let f := s.itemFault w false l n
      if f ≠ 0 then some (s.raise w f pa)
      else
        let q := s.loamRead (corePort 4) l n
        (match q.2 with
         | .bad f => some (q.1.raise w f pa)
         | .ok b => some ((q.1.modItem w fun i => i.setReg a.sd (BitVec.ofNat 64 (leNat b))).advance w 16))
    | .regs cl off =>
      if cl = pkgIndex s.id then ownRegRead w a.sd off k s
      else if !s.txnRoom then none
      else
        let q := s.newTxn pa (.reg w i.no (some a.sd))
        some ((q.1.send (.regRead q.2 pa k)).await w q.2)
    | _ => outerLoad w a pa n s

/-- A store to memory outside the own Loam: into the port buffer, or performed at its point of coherence when volatile. -/
def outerStore (w : Who) (vol : Bool) (pa : Nat) (bs : List Byte) (s : State) : Option State :=
  let no := (s.item w).no
  if !vol then (s.pbufWrite no pa bs).map fun t => (t.updateLine pa bs).advance w 16
  else if s.port.pbuf.any (fun e => e.sector == pa / 64) || s.port.fetching (pa / 64) || !s.txnRoom then none
  else
    let q := s.newTxn pa (.store w no)
    some (((q.1.updateLine pa bs).send (.memWrite q.2 (pa / 64 * 64) (bs.mapIdx fun i b => (pa % 64 + i, b)))).await w q.2)

/-- ST8 to ST64. -/
def storeStep (k : Width) (w : Who) (a : SclArgs) (s : State) : Option State :=
  let n := widthBytes k
  let i := s.item w
  let pa := (i.reg a.sa + a.imm).toNat
  let v := (i.reg a.sb).toNat % 2 ^ (8 * n)
  if pa % n ≠ 0 then some (s.raise w 0x0702 pa)
  else match placeOf s.id pa with
    | .unmapped => some (s.raise w 0x0301 pa)
    | .own l =>
      let f := s.itemFault w true l n
      if f ≠ 0 then some (s.raise w f pa)
      else
        let q := s.loamWrite (corePort 4) l (leBytes n v)
        some (if q.2 ≠ 0 then q.1.raise w q.2 pa else (q.1.noteWrote w l n).advance w 16)
    | .regs cl off =>
      if cl = pkgIndex s.id then ownRegWrite w off k v s
      else if arriveStore off && !s.released i.no 2 then some (s.block w 10)
      else if !s.txnRoom then none
      else
        let q := s.newTxn pa (.reg w i.no none)
        some ((q.1.send (.regWrite q.2 pa k (BitVec.ofNat 64 v))).await w q.2)
    | _ => outerStore w a.vol pa (leBytes n v) s

/-- RDREG: a 64-bit scalar access, aligned to its size (R150). -/
def rdregStep (w : Who) (a : SclArgs) (s : State) : Option State :=
  let off := ((s.item w).reg a.sa + a.imm).toNat
  if off % 8 ≠ 0 then some (s.raise w 0x0702 off) else ownRegRead w a.sd off .b8 s

/-- WRREG: a 64-bit scalar access, aligned to its size (R150). -/
def wrregStep (w : Who) (a : SclArgs) (s : State) : Option State :=
  let i := s.item w
  let off := (i.reg a.sa + a.imm).toNat
  if off % 8 ≠ 0 then some (s.raise w 0x0702 off) else ownRegWrite w off .b8 (i.reg a.sb).toNat s

end Sys2Proof.Machine
end

