-- ==== Sys2Proof/Machine/Tick.lean ====
section
/-! DEFINITION. Machine/Tick.lean: one drone tick (log 2): timestamp and epochs (R27, R232, R253), watchdog intervals (R257, R258), power
and monitor intervals (R234 to R241, R260 to R262), pacing (R230), the swap (R32), and the counts that a tick adds to command records
and utilisation counters (R267, R271 to R273, log 12). -/

namespace Sys2Proof.Machine

/-! ### Command records (R271 to R273) -/

/-- What an engine does for an item in a sampled cycle (R272). -/
inductive EngState where
  | busy
  | stall (reason : Nat)
  | idle
  deriving DecidableEq, Repr

/-- An engine worked for the item of a context since the last tick: SEQ 0, VEC 2, DMA 3, MSG 4 (log 12). -/
def State.worked (s : State) (e : Nat) (w : Who) : Bool := s.moved.contains (e, (s.item w).no)

/-- The sequencer. -/
def State.seqState (s : State) (w : Who) : EngState :=
  if s.worked 0 w then .busy
  else match s.seqReason w with
    | some r => .stall r
    | none => .idle

/-- The reason for which work with a footprint waits for earlier matrix instructions of its item: Kaolin or a VB (3), or Loam (4). -/
def State.ilkReason (s : State) (w : Who) (f : Foot) : Option Nat :=
  if s.mustWait w { f with lr := [], lw := [] } then some 3 else if s.mustWait w f then some 4 else none

/-- The matrix instruction that is next to issue in a context, with the chains of its prologues. -/
def State.mmaNext (s : State) (w : Who) : Option ArrJob :=
  if !(s.ctx w).canIssue then none
  else match (s.fetch w).2 with
    | .op (.mma o) _ => match (s.mmaChains w o).2 with
      | .ok (eb, ab, bb) => some { who := w, itemNo := (s.item w).no, op := o, width := s.str.live.width s.id.edgeLog2 w.core.val, passes := 0
                                   epi := eb, aPro := ab, bPro := bb }
      | .bad _ => none
    | _ => none

/-- The reason for which such an instruction waits, if it does: at an interlock (R151), or for its batch (R94, R98). -/
def ArrJob.issueWaits (j : ArrJob) (s : State) : Option Nat :=
  match s.ilkReason j.who { j.foot with kr := [], kw := [] } with
  | some r => some r
  | none => if j.op.abatch && (s.bqOf j.op.aAddr).shipped.isEmpty then some 6 else none

/-- The reason for which the matrix instruction that is next to issue waits, if it does. -/
def State.mmaWaits (s : State) (w : Who) : Option Nat := (s.mmaNext w).bind fun j => j.issueWaits s

/-- A job waits for an earlier one of its item that it clashes with. -/
def State.jobWaits (s : State) (j : ArrJob) : Bool :=
  (((s.core j.who.core.val).jobs.takeWhile (· != j)).filter fun k => k.who == j.who && k.itemNo == j.itemNo).any fun k => k.foot.clash j.foot

/-- The array, where no pass of the item runs. -/
def State.arrWaits (s : State) (w : Who) : EngState :=
  let left := (s.itemJobs w).filter fun j => decide (j.next < j.passes) || j.retryAt.isSome || j.restart
  match left with
  | [] => match s.mmaWaits w with
    | some r => .stall r
    | none => .idle
  | j :: _ =>
    if s.jobWaits j then .stall 3
    else if left.any fun j => j.retryAt.isSome || j.restart then
      if (s.core w.core.val).jobs.any (·.running) then .stall 7 else .stall 8
    else if (s.core w.core.val).jobs.any (·.running) then .stall 7 else .stall 2

/-- Bubble cycles taken from a list, and what is left of the cycles. -/
def takeBubbles : Nat → List (Nat × Nat) → List (Nat × Nat) × Nat
  | n, [] => ([], n)
  | n, b :: l =>
    if n ≤ b.2 then ([(b.1, n)], 0)
    else
      let q := takeBubbles (n - b.2) l
      (b :: q.1, q.2)

/-- The bubble cycles that remain after `n` cycles. -/
def leftBubbles : Nat → List (Nat × Nat) → List (Nat × Nat)
  | _, [] => []
  | n, b :: l => if n < b.2 then (b.1, b.2 - n) :: l else leftBubbles (n - b.2) l

/-- The array in a tick of `cyc` cycles: a running pass takes its bubbles first (R94). A pass that runs again for a retry is stall under
RETRY where no lower reason holds (R273). -/
def State.arrParts (s : State) (w : Who) (cyc : Nat) : List (Nat × EngState) :=
  match (s.itemJobs w).find? (·.running) with
  | none => [(cyc, s.arrWaits w)]
  | some j =>
    let q := takeBubbles cyc j.bubbles
    q.1.map (fun b => (b.2, EngState.stall b.1)) ++ [(q.2, if j.retryAt.isSome then .stall 8 else .busy)]

/-- An epilogue of the item is due: its first tile is complete, and tiles are left to run (R272). -/
def ArrJob.epiDue (j : ArrJob) : Bool :=
  !j.epi.isEmpty && (!j.tiles.isEmpty || (decide (0 < j.tilesLeft) && decide (j.tilesLeft < (gridTiles j.op.m j.op.n).length)))

/-- The vector engine. -/
def State.vecState (s : State) (w : Who) : EngState :=
  if s.worked 2 w then .busy
  else
    let held := !isHdl w && s.hdlVec w.core
    if (s.itemJobs w).any (·.epiDue) then .stall (if (s.itemJobs w).any fun j => j.epiDue && j.tiles.isEmpty then 3 else if held then 7 else 3)
    else match s.vecDue w with
      | none => .idle
      | some f => match s.ilkReason w f with
        | some r => .stall r
        | none => if held then .stall 7 else .idle

/-- The DMA engine, for an item by its number: a descriptor that runs, to its last acknowledgement, or stands at its channel's head, and
moves no beat, stalls for its beats and responses. -/
def State.dmaState (s : State) (no : Nat) : EngState :=
  if s.moved.contains (3, no) then .busy
  else if s.dma.ch.any fun e => decide (e.1 < 32) && (e.2.run ++ e.2.queue.take 1).any fun r => r.itemNo == no && !r.stopped
  then .stall 15 else .idle

/-- The vector engine in a tick of `cyc` cycles: what bank conflicts of the item's chain runs still take comes first (R43). -/
def State.vecParts (s : State) (w : Who) (cyc : Nat) : List (Nat × EngState) :=
  let n := min (s.item w).bank cyc
  [(n, .stall 0), (cyc - n, s.vecState w)]

/-- The message unit. -/
def State.msgState (s : State) (w : Who) : EngState :=
  if s.worked 4 w then .busy else if (s.item w).pend = .send then .stall (s.sendReason w) else .idle

/-- Adds cycles of one engine to a record; engine 0 is SEQ, 4 MSG. -/
def Rec.engine (r : Rec) (e cyc : Nat) (x : EngState) : Rec :=
  let put (k : Nat) : Tab Nat := tabMod 0 r.eng (3 * e + k) fun n => stick48 n cyc
  match x with
  | .busy => { r with eng := put 0 }
  | .stall q => { r with eng := put 1, reasons := tabMod 0 r.reasons q fun n => stick48 n cyc }
  | .idle => { r with eng := put 2 }

/-- The parts of a tick, each with the state of an engine in it. -/
def Rec.parts (r : Rec) (e : Nat) (l : List (Nat × EngState)) : Rec := l.foldl (fun r p => r.engine e p.1 p.2) r

/-- A record with the cycles of a tick counted. -/
def State.sampleRec (s : State) (w : Who) (cyc : Nat) (r : Rec) : Rec :=
  let r := ({ r with cycles := stick48 r.cycles cyc }).engine 0 cyc (s.seqState w)
  let r := if w.core.val = 4 then r else (r.parts 1 (s.arrParts w cyc)).parts 2 (s.vecParts w cyc)
  (r.engine 3 cyc (s.dmaState (s.item w).no)).engine 4 cyc (s.msgState w)

/-- The record of an aborted item that settles beside another command: its sequencer and its engines are idle, but for descriptors that
have not stopped (R147, R159). -/
def State.sampleAside (s : State) (cyc : Nat) (i : Item) : Item :=
  let r := { i.record with cycles := stick48 i.record.cycles cyc }
  { i with record := ((((r.engine 0 cyc .idle).engine 1 cyc .idle).engine 2 cyc .idle).engine 3 cyc (s.dmaState i.no)).engine 4 cyc .idle }

/-- Cycles from the start of step 3 to the end of step 5 of R158. -/
def Rec.preempted (r : Rec) (cyc : Nat) : Rec := { r with preemptCycles := stick48 r.preemptCycles cyc }

/-- The item of a context in a tick of `cyc` cycles. -/
def State.sampleItem (s : State) (cyc : Nat) (w : Who) : State :=
  match (s.ctx w).phase with
  | .running | .preempting | .aborting =>
    s.modItem w fun i => { i with record := s.sampleRec w cyc i.record, bank := i.bank - cyc }
  | .saving => s.modRec w fun r => r.preempted cyc
  | _ => s

/-- The vector engine of a core worked since the last tick: on a chain or its prologue, or on another of its instructions (log 12). -/
def State.vecMoved (s : State) (c : Nat) : Bool :=
  (allWho.filter fun w => w.core.val == c).any fun w => s.worked 2 w || s.worked 5 w

/-- The first stationary load of a matrix instruction that no pass has served yet may run: nothing that an earlier instruction of its item
has still to write is read (R88). -/
def State.loadFree (s : State) (c : Nat) (j : ArrJob) : Bool :=
  j.next == 0 && !j.running && !j.op.emul &&
  (((s.core c).jobs.takeWhile (· != j)).filter fun k => k.who == j.who && k.itemNo == j.itemNo).all fun k => !k.foot.clash j.statFoot

/-- The same for the instruction that is next to issue, where it waits. -/
def State.seqLoads (s : State) (w : Who) : Bool :=
  match s.mmaNext w with
  | some j => (j.issueWaits s).isSome && !j.op.emul && !s.mustWait w j.statFoot
  | none => false

/-- The first instruction of a core that waits before its first pass and whose stationary load may run has loaded for `cyc` cycles. -/
def State.waitLoad (s : State) (cyc c : Nat) : State :=
  match (s.core c).jobs.find? (s.loadFree c) with
  | some j => s.modJob c (· == j) fun j => { j with loadRun := j.loadRun + cyc }
  | none => match (allWho.filter fun w => w.core.val == c).find? s.seqLoads with
    | some w => s.modItem w fun i => { i with loadRun := i.loadRun + cyc }
    | none => s

/-- The first stationary load of an instruction runs at once on an idle array and at an interlock (R88): of the instruction whose pass is
next, else of one that waits; during a pass, where no other load follows it. -/
def State.earlyLoad (s : State) (cyc c : Nat) : State :=
  match (s.core c).jobs.find? (·.running) with
  | some k => if (s.jobAfter c k).isNone then s.waitLoad cyc c else s
  | none => match s.nextJob c with
    | some j => if j.next = 0 then s.modJob c (· == j) fun j => { j with loadRun := j.loadRun + cyc } else s
    | none => s.waitLoad cyc c

/-- A core in a tick of `cyc` cycles: its saved command and those that settle beside another, the utilisation counters, the stationary load
outside passes, and the bubbles of its running pass. -/
def State.sampleCore (s : State) (cyc c : Nat) : State :=
  let x := s.core c
  let t := match x.saved with
    | some (i, js) => s.modCore c fun x => { x with saved := some ({ i with record := i.record.preempted cyc }, js) }
    | none => s
  let t := if x.jobs.any (·.running) then t.modCtr fun k => { k with arrBusy := tabMod 0 k.arrBusy c (· + cyc) } else t
  let t := if s.vecMoved c then t.modCtr fun k => { k with vecBusy := tabMod 0 k.vecBusy c (· + cyc) } else t
  (t.earlyLoad cyc c).modCore c fun x => { x with
    dying := x.dying.map (s.sampleAside cyc), jobs := x.jobs.map fun j => if j.running then { j with bubbles := leftBubbles cyc j.bubbles } else j }

/-- Fast-clock cycles of a drone tick. -/
def State.tickCycles (s : State) : Nat := s.pwr.fclk / 100

/-- The counts of a tick in which the fast clock runs. -/
def State.sample (s : State) : State :=
  if !s.agentsOn then s
  else (List.range 4).foldl (fun t c => t.sampleCore s.tickCycles c) (allWho.foldl (fun t w => t.sampleItem s.tickCycles w) s)

/-! ### Watchdog intervals (R257, R258) -/

/-- The intervals of one item: those of COMMAND_TO and HANDLER_TO run to its end latch (R257). -/
def Item.timed (i : Item) (p : Phase) : Item :=
  match p with
  | .issuing | .waitRange | .running | .preempting | .aborting =>
    { i with cmdTicks := i.cmdTicks + 1
             waitTicks := match i.pend with
               | .wait .. | .send => i.waitTicks + 1
               | _ => if i.sendWaits then i.waitTicks + 1 else i.waitTicks }
  | _ => i

/-- The intervals of a channel: its running descriptors, and a head that may start and does not wait armed. -/
def Channel.timed (c : Channel) : Channel :=
  let next := match c.run.getLast? with
    | some r => r.readsDone
    | none => true
  { c with
    run := c.run.map fun r => if r.stopped then r else { r with ticks := r.ticks + 1 }
    queue := match c.queue with
      | r :: l => (if next && !r.desc.armed then { r with ticks := r.ticks + 1 } else r) :: l
      | [] => [] }

/-- Every watchdog interval advances, unless a hold is on. -/
def State.timeAll (s : State) : State :=
  if s.clockHeld then s
  else
    let t := allWho.foldl (fun (t : State) w => t.setItem w ((t.item w).timed (t.ctx w).phase)) s
    { t with dma := { t.dma with ch := t.dma.ch.map fun e => (e.1, e.2.timed) }
             port := { t.port with txns := t.port.txns.map fun (x : Txn) => { x with ticks := x.ticks + 1 } } }

/-! ### Power, monitors, timers -/

/-- Intervals of the PWR_ machinery. -/
def Pwr.timed (p : Pwr) : Pwr :=
  { p with
    idleTicks := if p.state = .idle then p.idleTicks + 1 else 0
    wake := p.wake.map (· + 1), droop := p.droop.map (· + 1), monTicks := p.monTicks + 1, tempTicks := p.tempTicks + 1 }

/-- Idleness and wake of a core. -/
def State.timeCore (s : State) (c : Nat) : State :=
  let quiet := s.coreQuiet c
  s.modCore c fun x => { x with idleTicks := if quiet then x.idleTicks + 1 else 0, wakeTick := x.wakeTick.map (· + 1) }

/-- Throttle and Active ticks (R241, R267). -/
def State.timeCtrs (s : State) : State :=
  let t := if s.pwr.throttle then s.modCtr fun k => { k with throttleTicks := stick48 k.throttleTicks 1 } else s
  if s.pwr.state = .active then t.modCtr fun k =>
    let u := unitCount 1024 k.activeTicks k.activeSub 1
    { k with activeTicks := u.1, activeSub := u.2 } else t

/-- The count of time: it does not run until the first EPOCH record is complete (R253). -/
def State.timeStamp (s : State) : State :=
  if s.tsRun then
    { s with ts := s.ts + 1, str := { s.str with epochTicks := if s.str.liveValid then s.str.epochTicks + 1 else s.str.epochTicks } }
  else s

/-- Intervals of pacing, telemetry and the probe; the send buffers are free again (log 78). -/
def State.timeUnits (s : State) : State :=
  { s with
    msg := { s.msg with rateTicks := s.msg.rateTicks + 1, allowTicks := s.msg.allowTicks + 1, bufs := 0 }
    mrl := { s.mrl with telTicks := if s.pwr.start = .reset then 0 else s.mrl.telTicks + 1 }
    dbg := { s.dbg with pingTicks := if s.dbg.pingState = 1 then s.dbg.pingTicks + 1 else s.dbg.pingTicks }
    pwr := s.pwr.timed, ticks := s.ticks + 1, moved := [] }

/-- One drone tick. -/
def State.tick (s : State) : State :=
  if s.pwr.state = .off then s
  else
    let t := s.sample.timeAll.timeCtrs
    let t := (List.range 4).foldl State.timeCore t
    t.mendSoft.findImage.payOwed.timeStamp.timeUnits.swapTick

end Sys2Proof.Machine
end

