-- ==== Sys2Proof/WellFormed.lean ====
section
/-! DEFINITION. WellFormed.lean: which commands a sender can give. What is ill formed here never reaches the cluster: an entry or
sector of another size than 64 bytes, a request that leaves its sector, a column or sector that does not exist, a refusal with a code
that no cluster raises (log 1). Everything that can reach it and is wrong is checked by the cluster itself, by the rule that says
so. -/

namespace Sys2Proof

/-- A message has 1 to 32 entries of 64 bytes: PART has five bits (R166). -/
def frameWf (m : Frame) : Bool := decide (1 ≤ m.entries.length ∧ m.entries.length ≤ 32) && m.entries.all fun e => e.length == 64

/-- A sector read is answered by 64 bytes (R224). -/
def respWf : MemResp → Bool
  | .data b => b.length == 64
  | _ => true

/-- A request of another cluster names a Loam window offset and touches one sector (R14, R224). -/
def reqWf (r : RemoteReq) : Bool :=
  decide (r.addr < 2 ^ 28) &&
  (match r.op with
   | .read n => decide (1 ≤ n ∧ r.addr % 64 + n ≤ 64)
   | .write b => decide (1 ≤ b.length ∧ r.addr % 64 + b.length ≤ 64)
   | .poison => r.addr % 64 == 0
   | .atomic q => r.addr % (if q.w64 then 8 else 4) == 0)

/-- Array columns are distinct and number 0 to 255 (R2). -/
def columnsOk (l : List Nat) : Bool := l.all (fun c => decide (c < 256)) && decide l.Nodup

/-- The host's port is 32 bits wide (R293). -/
def accessWf (p : Party) (w : Width) : Bool :=
  match p with
  | .host => w == .b4
  | .remote _ _ _ => true

/-- The fault codes of R300. -/
def faultCodes : List Nat :=
  [0x0201, 0x0202, 0x0203, 0x0204, 0x0205, 0x0206, 0x0207, 0x0208, 0x0209, 0x020A, 0x020B] ++
  [0x0301, 0x0302, 0x0303, 0x0304, 0x0305, 0x0306, 0x0307, 0x0308, 0x0309, 0x030A] ++
  [0x0401, 0x0402, 0x0403, 0x0404, 0x0501, 0x0502, 0x0701, 0x0702, 0x0703, 0x0704, 0x0705] ++
  [0x0801, 0x0802, 0x0803, 0x0804, 0x0805, 0x0806, 0x0807, 0x0808, 0x0901, 0x0902, 0x0903] ++
  [0x0A01, 0x0A02, 0x0A03, 0x0A04, 0x0B01, 0x0B02, 0x0B03, 0x0B04, 0x0B05, 0x0B06] ++
  [0x0C01, 0x0C02, 0x0C03, 0x0C04, 0x0C05, 0x0C06, 0x0C07, 0x0C08, 0x0C09, 0x0C0A, 0x0D01]

/-- A command that can be given. -/
def Instr.wellFormed : Instr → Bool
  | .seqEnd .. => true
  | .itemEnd .. => true
  | .seqNop .. => true
  | .seqFence .. => true
  | .seqEnq .. => true
  | .sclAdd .. => true
  | .sclSub .. => true
  | .sclAnd .. => true
  | .sclOr .. => true
  | .sclXor .. => true
  | .sclShl .. => true
  | .sclShr .. => true
  | .sclSar .. => true
  | .sclMul .. => true
  | .sclSlt .. => true
  | .sclSltu .. => true
  | .sclBeq .. => true
  | .sclBne .. => true
  | .sclBlt .. => true
  | .sclBge .. => true
  | .sclJmp .. => true
  | .sclLd8 .. => true
  | .sclLd16 .. => true
  | .sclLd32 .. => true
  | .sclLd64 .. => true
  | .sclSt8 .. => true
  | .sclSt16 .. => true
  | .sclSt32 .. => true
  | .sclSt64 .. => true
  | .sclRdreg .. => true
  | .sclWrreg .. => true
  | .arrMma .. => true
  | .arrEmul .. => true
  | .arrBqpush .. => true
  | .arrBqrelease .. => true
  | .passStart .. => true
  | .passEnd _ mismatch => columnsOk mismatch
  | .retryRestart .. => true
  | .arrayRampDown .. => true
  | .bqDeadlineShip .. => true
  | .epilogueTile .. => true
  | .vecChain .. => true
  | .vecMaskld .. => true
  | .vecMaskst .. => true
  | .vecStatclr .. => true
  | .vecSide .. => true
  | .vecRowclose .. => true
  | .dmaIssue .. => true
  | .dmaIssuem .. => true
  | .descriptorStart .. => true
  | .dmaBeat => true
  | .sectorPerformed .. => true
  | .descriptorComplete .. => true
  | .dmaChCtrlWrite .. => true
  | .msgSend .. => true
  | .msgMsend .. => true
  | .msgRclose .. => true
  | .sendAccept => true
  | .messageArrival m => frameWf m
  | .handlerDispatch .. => true
  | .combineDelivery .. => true
  | .statusEntry .. => true
  | .creditReturn .. => true
  | .synArrive .. => true
  | .arriveTakesEffect .. => true
  | .synWait .. => true
  | .waitComplete .. => true
  | .synRead .. => true
  | .synSet .. => true
  | .atmAdd .. => true
  | .atmMin .. => true
  | .atmMax .. => true
  | .atmXchg .. => true
  | .atmCas .. => true
  | .portBufferDrain .. => true
  | .memoryResponse _ r => respWf r
  | .remoteRefusal _ fault => faultCodes.contains fault.toNat
  | .remoteAccess r => reqWf r
  | .remoteCounterAdd .. => true
  | .synArriveWrite .. => true
  | .synSetWrite .. => true
  | .synPbufFlush .. => true
  | .itemIssue .. => true
  | .abortSettle .. => true
  | .cluEnq .. => true
  | .preempt .. => true
  | .preemptPoint .. => true
  | .preemptSaveDone .. => true
  | .preemptRestore .. => true
  | .preemptRestoreDone .. => true
  | .killCmd .. => true
  | .killHdl .. => true
  | .flush .. => true
  | .strOpen .. => true
  | .strValidate .. => true
  | .validationDone => true
  | .strCommit .. => true
  | .strAbort .. => true
  | .strConfirm .. => true
  | .strStageData .. => true
  | .strDeltaData .. => true
  | .epochBoundary => true
  | .marlRecordComplete => true
  | .telemetryTimer => true
  | .compactionComplete => true
  | .mrlSealGo .. => true
  | .mrlSealRetire .. => true
  | .mrlReadAddr .. => true
  | .idleEntry => true
  | .napEntry => true
  | .coreSleepEntry .. => true
  | .coreSleepSaveDone .. => true
  | .wakeTrigger .. => true
  | .fastClockStable .. => true
  | .pwrClock => true
  | .coreWake .. => true
  | .pwrCtrlStayup .. => true
  | .pwrCtrlOff .. => true
  | .throttleAssert .. => true
  | .throttleDeassert => true
  | .powerFailWarning => true
  | .pfSafe => true
  | .powerFailClear => true
  | .powerLoss .. => true
  | .startup => true
  | .coreRelease => true
  | .waitTo .. => true
  | .sendTo .. => true
  | .commandTo .. => true
  | .handlerTo .. => true
  | .dmaTo .. => true
  | .clockMonitorInterval .. => true
  | .droneClockFault => true
  | .fclkChange .. => true
  | .droopStart .. => true
  | .droopEnd => true
  | .overVoltage .. => true
  | .tempSample .. => true
  | .scrub sector => decide (sector < 393216)
  | .flitCrcFail .. => true
  | .msgRingAdvance .. => true
  | .msgRingAll .. => true
  | .msgCreditData .. => true
  | .pacingIncrease => true
  | .pacingAllowance => true
  | .dbgPingGo .. => true
  | .probeArrival .. => true
  | .probeReply .. => true
  | .probeTimeout => true
  | .dbgSnapTake .. => true
  | .dbgSnapRelease .. => true
  | .snapForwarded .. => true
  | .snapshotCaptureDone => true
  | .watchDump .. => true
  | .registerWrite p _ width _ => accessWf p width
  | .registerRead p _ width => accessWf p width
  | .traceDrain n => decide (0 < n)
  | .imageDecodedAgain .. => true

end Sys2Proof
end

