-- ==== Sys2Proof/Machine/Rows.lean ====
section
/-! DEFINITION. Machine/Rows.lean: the form of a row's meaning: nothing happens without power (R234), and nothing at a command that no
sender can give (log 1). -/

namespace Sys2Proof.Machine

/-- A row: in Off nothing but the start-up happens (R234, R252). -/
def State.row (s : State) (f : State → State) : Host.Outcome State Fault Refusal :=
  .next (if s.pwr.state = .off then s else f s)

/-- A row whose operands may be ill formed: what no sender can give never reaches the cluster, and changes nothing (log 1). -/
def State.checked (s : State) (ok : Bool) (f : State → State) : Host.Outcome State Fault Refusal :=
  s.row fun s => if ok then f s else s

end Sys2Proof.Machine
end

