-- ==== Sys2Proof/Machine/Arrays.lean ====
section
/-! DEFINITION. Machine/Arrays.lean: meanings of the matrix and batch rows (04, 05), one definition for each row. -/

namespace Sys2Proof.Machine

/-- ARR.MMA (R81, R152). -/
def execArrMma (w : Who) (s : State) : Host.Outcome State Fault Refusal :=
  s.row fun s => s.issue w fun op len s => match op with
    | .mma o => if o.emul then none else issueMma w len o s
    | _ => none

/-- ARR.EMUL (R82, R106). -/
def execArrEmul (w : Who) (s : State) : Host.Outcome State Fault Refusal :=
  s.row fun s => s.issue w fun op len s => match op with
    | .mma o => if o.emul then issueMma w len o s else none
    | _ => none

/-- ARR.BQPUSH (R96). -/
def execArrBqpush (w : Who) (s : State) : Host.Outcome State Fault Refusal :=
  s.row fun s => s.issue w fun op len s => match op with
    | .bqpush q r a => batchPush w len q r a s
    | _ => none

/-- ARR.BQRELEASE (R98). -/
def execArrBqrelease (w : Who) (s : State) : Host.Outcome State Fault Refusal :=
  s.row fun s => s.issue w fun op len s => match op with
    | .bqrelease q => batchRelease w len q s
    | _ => none

/-- PASS_START (R87, R101). -/
def execPassStart (c : Fin 4) (s : State) : Host.Outcome State Fault Refusal :=
  s.row fun s => s.fast (passStartStep c.val) [.cores, .regions]

/-- PASS_END (R87, R102 to R104): the physical columns in which an error changed the sum S of the pass. -/
def execPassEnd (c : Fin 4) (mismatch : List Nat) (s : State) : Host.Outcome State Fault Refusal :=
  s.checked (columnsOk mismatch) fun s => s.fast (passEndStep c.val mismatch) [.cores, .regions]

/-- RETRY_RESTART (R103). -/
def execRetryRestart (c : Fin 4) (s : State) : Host.Outcome State Fault Refusal :=
  s.row fun s => s.fast (retryStep c.val) [.regions]

/-- ARRAY_RAMP_DOWN (R101). -/
def execArrayRampDown (c : Fin 4) (s : State) : Host.Outcome State Fault Refusal :=
  s.row fun s => s.fast (rampStep c.val)

/-- BQ_DEADLINE_SHIP (R97). -/
def execBqDeadlineShip (q : Fin 16) (s : State) : Host.Outcome State Fault Refusal :=
  s.row fun s => s.fast (deadlineShip q.val) [.counters]

end Sys2Proof.Machine
end

