-- ==== Sys2Proof/Machine/DmaRows.lean ====
section
/-! DEFINITION. Machine/DmaRows.lean: meanings of the DMA rows (10), one definition for each row. -/

namespace Sys2Proof.Machine

/-- DMA.ISSUE (R210, R211). -/
def execDmaIssue (w : Who) (s : State) : Host.Outcome State Fault Refusal :=
  s.row fun s => s.issue w fun op len s => match op with
    | .dma ch d => descIssue w len ch (decodeDesc d) s
    | _ => none

/-- DMA.ISSUEM (R210, R211). -/
def execDmaIssuem (w : Who) (s : State) : Host.Outcome State Fault Refusal :=
  s.row fun s => s.issue w fun op len s => match op with
    | .dmam ch a => descIssueM w len ch a s
    | _ => none

/-- DESCRIPTOR_START (R212, R220). -/
def execDescriptorStart (ch : Fin 32) (s : State) : Host.Outcome State Fault Refusal :=
  s.row fun s => s.fast (descStart ch.val)

/-- DMA_BEAT (R218). -/
def execDmaBeat (s : State) : Host.Outcome State Fault Refusal :=
  s.row fun s => s.fast (dmaBeatStep) [.dma, .regions]

/-- SECTOR_PERFORMED (R197). -/
def execSectorPerformed (ch : Fin 32) (s : State) : Host.Outcome State Fault Refusal :=
  s.row fun s => s.fast (sectorDone ch.val)

/-- DESCRIPTOR_COMPLETE (R219). -/
def execDescriptorComplete (ch : Fin 32) (s : State) : Host.Outcome State Fault Refusal :=
  s.row fun s => s.fast (descDone ch.val) [.counters]

/-- DMA_CH_CTRL_WRITE (R222). -/
def execDmaChCtrlWrite (p : Party) (ch : Fin 32) (value : Word32) (s : State) : Host.Outcome State Fault Refusal :=
  s.row fun s => s.fastRow p (0xA000 + 4 * ch.val) value.toNat

end Sys2Proof.Machine
end

