-- ==== Sys2Proof/Machine/Images.lean ====
section
/-! DEFINITION. Machine/Images.lean: meanings of the structure-image rows (02), one definition for each row. -/

namespace Sys2Proof.Machine

/-- STR_OPEN (R30): a write of STR_CTRL.CMD. -/
def execStrOpen (p : Party) (s : State) : Host.Outcome State Fault Refusal :=
  s.row fun s => s.aonRow p 0x1000 1

/-- STR_VALIDATE (R30): a write of STR_CTRL.CMD. -/
def execStrValidate (p : Party) (s : State) : Host.Outcome State Fault Refusal :=
  s.row fun s => s.aonRow p 0x1000 2

/-- STR_COMMIT (R31): a write of STR_CTRL.CMD. -/
def execStrCommit (p : Party) (s : State) : Host.Outcome State Fault Refusal :=
  s.row fun s => s.aonRow p 0x1000 3

/-- STR_ABORT (R30): a write of STR_CTRL.CMD. -/
def execStrAbort (p : Party) (s : State) : Host.Outcome State Fault Refusal :=
  s.row fun s => s.aonRow p 0x1000 4

/-- STR_CONFIRM (R30): a write of STR_CTRL.CMD. -/
def execStrConfirm (p : Party) (s : State) : Host.Outcome State Fault Refusal :=
  s.row fun s => s.aonRow p 0x1000 5

/-- VALIDATION_DONE (R28). -/
def execValidationDone (s : State) : Host.Outcome State Fault Refusal :=
  s.row fun s => s.orStay (validateStep s)

/-- STR_STAGE_DATA (R40). -/
def execStrStageData (p : Party) (data : Word32) (s : State) : Host.Outcome State Fault Refusal :=
  s.row fun s => s.aonRow p 0x1008 data.toNat

/-- STR_DELTA_DATA (R36). -/
def execStrDeltaData (p : Party) (data : Word32) (s : State) : Host.Outcome State Fault Refusal :=
  s.row fun s => s.aonRow p 0x1020 data.toNat

/-- EPOCH_BOUNDARY (R27, R31). -/
def execEpochBoundary (s : State) : Host.Outcome State Fault Refusal :=
  s.row fun s => s.orStay (epochStep s)

/-- IMAGE_DECODED_AGAIN (R265). -/
def execImageDecodedAgain (ok : Bool) (s : State) : Host.Outcome State Fault Refusal :=
  s.row fun s => s.orStay (decodedAgain ok s)

end Sys2Proof.Machine
end

