-- ==== Sys2Proof/Machine/Items.lean ====
section
/-! DEFINITION. Machine/Items.lean: meanings of the item rows (07), one definition for each row. -/

namespace Sys2Proof.Machine

/-- SEQ.END (R146): the sequencer is at the end of the item. -/
def execSeqEnd (w : Who) (s : State) : Host.Outcome State Fault Refusal :=
  s.row fun s => s.issue w fun op _ s => match op with
    | .seqEnd => seqEndStep w s
    | _ => none

/-- ITEM_END (R146). -/
def execItemEnd (w : Who) (s : State) : Host.Outcome State Fault Refusal :=
  s.row fun s => s.fast (itemFinish w) [.counters, .watch]

/-- SEQ.NOP (R149): the item goes on. -/
def execSeqNop (w : Who) (s : State) : Host.Outcome State Fault Refusal :=
  s.row fun s => s.issue w fun op len s => match op with
    | .seqNop => some (s.advance w len)
    | _ => none

/-- SEQ.FENCE (R151). -/
def execSeqFence (w : Who) (s : State) : Host.Outcome State Fault Refusal :=
  s.row fun s => s.issue w fun op len s => match op with
    | .fence a v => fenceStep w len a v s
    | _ => none

/-- SEQ.ENQ (R141, R160), of the control core. -/
def execSeqEnq (x : CtxKind) (s : State) : Host.Outcome State Fault Refusal :=
  s.row fun s => s.issue (sclWho x) fun op len s => match op with
    | .enq c u a => enqStep (sclWho x) len c u a s
    | _ => none

/-- ITEM_ISSUE (R145). -/
def execItemIssue (w : Who) (s : State) : Host.Outcome State Fault Refusal :=
  s.row fun s => s.fast (itemStart w) [.regions, .limits, .counters, .cores, .watch]

/-- ABORT_SETTLE (R147). -/
def execAbortSettle (w : Who) (s : State) : Host.Outcome State Fault Refusal :=
  s.row fun s => s.fast (abortStep w) [.counters, .regions]

/-- CLU_ENQ (R141): a write of the core's register. -/
def execCluEnq (p : Party) (c : Fin 5) (value : Word64) (s : State) : Host.Outcome State Fault Refusal :=
  s.row fun s => s.fastRow64 p (0x20 + 8 * c.val) value

/-- PREEMPT (R157): a write of CLU_CORE_CTRL.PREEMPT. -/
def execPreempt (p : Party) (c : Fin 5) (s : State) : Host.Outcome State Fault Refusal :=
  s.row fun s => s.fastRow p (0x50 + 4 * c.val) 1

/-- PREEMPT_POINT (R158 step 2). -/
def execPreemptPoint (c : Fin 4) (s : State) : Host.Outcome State Fault Refusal :=
  s.row fun s => s.fast (preemptPointStep c)

/-- PREEMPT_SAVE_DONE (R158 steps 3 and 4). -/
def execPreemptSaveDone (c : Fin 4) (s : State) : Host.Outcome State Fault Refusal :=
  s.row fun s => s.fast (preemptSaved c) [.regions]

/-- PREEMPT_RESTORE (R158 step 5). -/
def execPreemptRestore (c : Fin 4) (s : State) : Host.Outcome State Fault Refusal :=
  s.row fun s => s.fast (preemptRestoreStart c) [.regions]

/-- PREEMPT_RESTORE_DONE (R158 step 6). -/
def execPreemptRestoreDone (c : Fin 4) (s : State) : Host.Outcome State Fault Refusal :=
  s.row fun s => s.fast (preemptRestored c) [.regions]

/-- KILL_CMD (R159): a write of CLU_CORE_CTRL.KILL_CMD. -/
def execKillCmd (p : Party) (c : Fin 5) (s : State) : Host.Outcome State Fault Refusal :=
  s.row fun s => s.fastRow p (0x50 + 4 * c.val) 2

/-- KILL_HDL (R159): a write of CLU_CORE_CTRL.KILL_HDL. -/
def execKillHdl (p : Party) (c : Fin 5) (s : State) : Host.Outcome State Fault Refusal :=
  s.row fun s => s.fastRow p (0x50 + 4 * c.val) 4

/-- FLUSH (R159): a write of CLU_CORE_CTRL.FLUSH. -/
def execFlush (p : Party) (c : Fin 5) (s : State) : Host.Outcome State Fault Refusal :=
  s.row fun s => s.fastRow p (0x50 + 4 * c.val) 8

end Sys2Proof.Machine
end

