-- ==== Sys2Proof/Machine/Journals.lean ====
section
/-! DEFINITION. Machine/Journals.lean: meanings of the journal rows (11), one definition for each row. -/

namespace Sys2Proof.Machine

/-- MARL_RECORD_COMPLETE (R247). -/
def execMarlRecordComplete (s : State) : Host.Outcome State Fault Refusal :=
  s.row fun s => s.orStay (recordStep s)

/-- TELEMETRY_TIMER (R249). -/
def execTelemetryTimer (s : State) : Host.Outcome State Fault Refusal :=
  s.row fun s => s.orStay (telemetryStep s)

/-- COMPACTION_COMPLETE (R251). -/
def execCompactionComplete (s : State) : Host.Outcome State Fault Refusal :=
  s.row fun s => s.orStay (compactStep s)

/-- MRL_SEAL_GO (R250). -/
def execMrlSealGo (p : Party) (s : State) : Host.Outcome State Fault Refusal :=
  s.row fun s => s.aonRow p 0xC03C 1

/-- MRL_SEAL_RETIRE (R250). -/
def execMrlSealRetire (p : Party) (serial : Word32) (s : State) : Host.Outcome State Fault Refusal :=
  s.row fun s => s.aonRow p 0xC048 serial.toNat

/-- MRL_READ_ADDR (R294). -/
def execMrlReadAddr (p : Party) (value : Word32) (s : State) : Host.Outcome State Fault Refusal :=
  s.row fun s => s.aonRow p 0xC050 value.toNat

end Sys2Proof.Machine
end

