-- ==== Sys2Proof/Machine/Messages.lean ====
section
/-! DEFINITION. Machine/Messages.lean: meanings of the message and pacing rows (08, 10), one definition for each row. -/

namespace Sys2Proof.Machine

/-- MSG.SEND (R167, R168). -/
def execMsgSend (w : Who) (s : State) : Host.Outcome State Fault Refusal :=
  s.row fun s => s.issue w fun op _ s => match op with
    | .send c d t n a r o k => msgSendStep w c d t n a r o k s
    | _ => none

/-- MSG.MSEND (R167, R179). -/
def execMsgMsend (w : Who) (s : State) : Host.Outcome State Fault Refusal :=
  s.row fun s => s.issue w fun op _ s => match op with
    | .msend d t n a k => msgMsendStep w d t n a k s
    | _ => none

/-- MSG.RCLOSE (R180). -/
def execMsgRclose (w : Who) (s : State) : Host.Outcome State Fault Refusal :=
  s.row fun s => s.issue w fun op len s => match op with
    | .rclose r => msgRcloseStep w len r s
    | _ => none

/-- SEND_ACCEPT (R169). -/
def execSendAccept (s : State) : Host.Outcome State Fault Refusal :=
  s.row fun s => s.fast (Sys2Proof.Machine.sendAccept) [.regions, .cores]

/-- MESSAGE_ARRIVAL (R171). -/
def execMessageArrival (m : Frame) (s : State) : Host.Outcome State Fault Refusal :=
  s.checked (frameWf m) fun s => s.arrive (.message m)

/-- HANDLER_DISPATCH (R172). -/
def execHandlerDispatch (c : Fin 5) (s : State) : Host.Outcome State Fault Refusal :=
  s.row fun s => s.fast (dispatch c.val) [.regions, .cores]

/-- COMBINE_DELIVERY (R178). -/
def execCombineDelivery (slot : Fin 512) (s : State) : Host.Outcome State Fault Refusal :=
  s.row fun s => s.fast (combineDeliver slot.val) [.regions, .cores]

/-- STATUS_ENTRY (R181). -/
def execStatusEntry (i : Nat) (s : State) : Host.Outcome State Fault Refusal :=
  s.row fun s => s.fast (statusWrite i) [.regions, .cores]

/-- CREDIT_RETURN (R170). -/
def execCreditReturn (r : CreditRet) (s : State) : Host.Outcome State Fault Refusal :=
  s.row fun s => s.arrive (.credit r)

/-- MSG_RING_ADVANCE (R180): a write of MSG_RING_CTRL.ADVANCE. -/
def execMsgRingAdvance (p : Party) (c : Fin 5) (ring : Fin 32) (s : State) : Host.Outcome State Fault Refusal :=
  s.row fun s => s.fastRow p 0x6020 (ring.val + fld c.val 5 + fld 1 8)

/-- MSG_RING_ALL (R180): a write of MSG_RING_CTRL.ALL. -/
def execMsgRingAll (p : Party) (c : Fin 5) (s : State) : Host.Outcome State Fault Refusal :=
  s.row fun s => s.fastRow p 0x6020 (fld c.val 5 + fld 1 9)

/-- MSG_CREDIT_DATA (R183, R265): a write of AVAIL. -/
def execMsgCreditData (p : Party) (avail : BitVec 16) (s : State) : Host.Outcome State Fault Refusal :=
  s.row fun s => s.fastRow64 p 0x6038 (avail.setWidth 64)

/-- PACING_INCREASE (R230): every 50 µs, 5,000 drone ticks. -/
def execPacingIncrease (s : State) : Host.Outcome State Fault Refusal :=
  s.row fun s => if s.msg.rateTicks < 5000 then s else s.paceIncrease

/-- PACING_ALLOWANCE (R230): every 100 drone ticks. -/
def execPacingAllowance (s : State) : Host.Outcome State Fault Refusal :=
  s.row fun s => if s.msg.allowTicks < 100 then s else s.paceAllow

end Sys2Proof.Machine
end

