-- ==== Sys2Proof/Machine/Observe.lean ====
section
/-! DEFINITION. Machine/Observe.lean: meanings of the observation and register rows (13, 14), one definition for each row. -/

namespace Sys2Proof.Machine

/-- DBG_PING_GO (R281): a write of DBG_PING_CTRL.GO. -/
def execDbgPingGo (p : Party) (s : State) : Host.Outcome State Fault Refusal :=
  s.row fun s => s.fastRow p 0xE024 1

/-- PROBE_ARRIVAL (R281). -/
def execProbeArrival (src dest : Word32) (s : State) : Host.Outcome State Fault Refusal :=
  s.row fun s => s.arrive (.probe src dest s.ts)

/-- PROBE_REPLY (R281). -/
def execProbeReply (t2 t3 : Word64) (fault : BitVec 16) (s : State) : Host.Outcome State Fault Refusal :=
  s.row fun s => s.arrive (.reply t2 t3 fault s.ts)

/-- PROBE_TIMEOUT (R281). -/
def execProbeTimeout (s : State) : Host.Outcome State Fault Refusal :=
  s.row fun s => s.orStay (probeExpire s)

/-- DBG_SNAP_TAKE (R285): a write of DBG_SNAP_CTRL.TAKE. -/
def execDbgSnapTake (p : Party) (s : State) : Host.Outcome State Fault Refusal :=
  s.row fun s => s.fastRow p 0xE104 1

/-- DBG_SNAP_RELEASE (R288): a write of DBG_SNAP_CTRL.RELEASE. -/
def execDbgSnapRelease (p : Party) (s : State) : Host.Outcome State Fault Refusal :=
  s.row fun s => s.fastRow p 0xE104 2

/-- SNAP_FORWARDED (R287). -/
def execSnapForwarded (origin : Fin 256) (s : State) : Host.Outcome State Fault Refusal :=
  s.row fun s => Sys2Proof.Machine.snapForwarded origin.val s

/-- SNAPSHOT_CAPTURE_DONE (R285, R286, R288). -/
def execSnapshotCaptureDone (s : State) : Host.Outcome State Fault Refusal :=
  s.row fun s => s.orStay (snapDone s)

/-- WATCH_DUMP (R283). -/
def execWatchDump (w : Who) (s : State) : Host.Outcome State Fault Refusal :=
  s.row fun s => s.fast (dumpStep w) [.regions]

/-- REGISTER_WRITE (R256, R293). -/
def execRegisterWrite (p : Party) (off : BitVec 20) (width : Width) (value : Word64) (s : State) : Host.Outcome State Fault Refusal :=
  s.checked (accessWf p width) fun s => s.writeFrom p off.toNat width value

/-- REGISTER_READ (R256, R293, R294). -/
def execRegisterRead (p : Party) (off : BitVec 20) (width : Width) (s : State) : Host.Outcome State Fault Refusal :=
  s.checked (accessWf p width) fun s => s.readFrom p off.toNat width

/-- TRACE_DRAIN (R279). -/
def execTraceDrain (n : Nat) (s : State) : Host.Outcome State Fault Refusal :=
  s.checked (decide (0 < n)) fun s => s.orStay (traceOut n s)

end Sys2Proof.Machine
end

