-- ==== Sys2Proof/Machine/Scalars.lean ====
section
/-! DEFINITION. Machine/Scalars.lean: meanings of the scalar rows (07 R155), one definition for each row. -/

namespace Sys2Proof.Machine

/-- SCL.ADD (R155): SD = SA + (SB + IMM). -/
def execSclAdd (x : CtxKind) (s : State) : Host.Outcome State Fault Refusal :=
  s.row fun s => s.scl x 0x01 (aluStep fun a b => a + b)

/-- SCL.SUB (R155): SD = SA - (SB + IMM). -/
def execSclSub (x : CtxKind) (s : State) : Host.Outcome State Fault Refusal :=
  s.row fun s => s.scl x 0x02 (aluStep fun a b => a - b)

/-- SCL.AND (R155): SD = SA and (SB + IMM). -/
def execSclAnd (x : CtxKind) (s : State) : Host.Outcome State Fault Refusal :=
  s.row fun s => s.scl x 0x03 (aluStep fun a b => a &&& b)

/-- SCL.OR (R155): SD = SA or (SB + IMM). -/
def execSclOr (x : CtxKind) (s : State) : Host.Outcome State Fault Refusal :=
  s.row fun s => s.scl x 0x04 (aluStep fun a b => a ||| b)

/-- SCL.XOR (R155): SD = SA xor (SB + IMM). -/
def execSclXor (x : CtxKind) (s : State) : Host.Outcome State Fault Refusal :=
  s.row fun s => s.scl x 0x05 (aluStep fun a b => a ^^^ b)

/-- SCL.SHL (R155): SD = SA shifted left by (SB + IMM) mod 64. -/
def execSclShl (x : CtxKind) (s : State) : Host.Outcome State Fault Refusal :=
  s.row fun s => s.scl x 0x06 (aluStep fun a b => a <<< (b.toNat % 64))

/-- SCL.SHR (R155): SD = SA shifted right by (SB + IMM) mod 64. -/
def execSclShr (x : CtxKind) (s : State) : Host.Outcome State Fault Refusal :=
  s.row fun s => s.scl x 0x07 (aluStep fun a b => a >>> (b.toNat % 64))

/-- SCL.SAR (R155): SD = SA shifted right with its sign by (SB + IMM) mod 64. -/
def execSclSar (x : CtxKind) (s : State) : Host.Outcome State Fault Refusal :=
  s.row fun s => s.scl x 0x08 (aluStep fun a b => a.sshiftRight (b.toNat % 64))

/-- SCL.MUL (R155): SD = low 64 bits of SA times (SB + IMM). -/
def execSclMul (x : CtxKind) (s : State) : Host.Outcome State Fault Refusal :=
  s.row fun s => s.scl x 0x09 (aluStep fun a b => a * b)

/-- SCL.SLT (R155): SD = 1 if SA < SB + IMM, signed. -/
def execSclSlt (x : CtxKind) (s : State) : Host.Outcome State Fault Refusal :=
  s.row fun s => s.scl x 0x0A (aluStep fun a b => if a.slt b then 1 else 0)

/-- SCL.SLTU (R155): SD = 1 if SA < SB + IMM, unsigned. -/
def execSclSltu (x : CtxKind) (s : State) : Host.Outcome State Fault Refusal :=
  s.row fun s => s.scl x 0x0B (aluStep fun a b => if a.ult b then 1 else 0)

/-- SCL.BEQ (R155): the item goes on at offset IMM when SA and SB compare: equal. -/
def execSclBeq (x : CtxKind) (s : State) : Host.Outcome State Fault Refusal :=
  s.row fun s => s.scl x 0x10 (branchStep fun a b => a == b)

/-- SCL.BNE (R155): the item goes on at offset IMM when SA and SB compare: not equal. -/
def execSclBne (x : CtxKind) (s : State) : Host.Outcome State Fault Refusal :=
  s.row fun s => s.scl x 0x11 (branchStep fun a b => a != b)

/-- SCL.BLT (R155): the item goes on at offset IMM when SA and SB compare: less, signed. -/
def execSclBlt (x : CtxKind) (s : State) : Host.Outcome State Fault Refusal :=
  s.row fun s => s.scl x 0x12 (branchStep fun a b => a.slt b)

/-- SCL.BGE (R155): the item goes on at offset IMM when SA and SB compare: not less, signed. -/
def execSclBge (x : CtxKind) (s : State) : Host.Outcome State Fault Refusal :=
  s.row fun s => s.scl x 0x13 (branchStep fun a b => !a.slt b)

/-- SCL.JMP (R155): the item goes on at offset IMM when SA and SB compare: always. -/
def execSclJmp (x : CtxKind) (s : State) : Host.Outcome State Fault Refusal :=
  s.row fun s => s.scl x 0x14 (branchStep fun _ _ => true)

/-- SCL.LD8 (R155, R200, R201). -/
def execSclLd8 (x : CtxKind) (s : State) : Host.Outcome State Fault Refusal :=
  s.row fun s => s.scl x 0x18 (loadStep .b1)

/-- SCL.LD16 (R155, R200, R201). -/
def execSclLd16 (x : CtxKind) (s : State) : Host.Outcome State Fault Refusal :=
  s.row fun s => s.scl x 0x19 (loadStep .b2)

/-- SCL.LD32 (R155, R200, R201). -/
def execSclLd32 (x : CtxKind) (s : State) : Host.Outcome State Fault Refusal :=
  s.row fun s => s.scl x 0x1A (loadStep .b4)

/-- SCL.LD64 (R155, R200, R201). -/
def execSclLd64 (x : CtxKind) (s : State) : Host.Outcome State Fault Refusal :=
  s.row fun s => s.scl x 0x1B (loadStep .b8)

/-- SCL.ST8 (R155, R200, R201). -/
def execSclSt8 (x : CtxKind) (s : State) : Host.Outcome State Fault Refusal :=
  s.row fun s => s.scl x 0x1C (storeStep .b1)

/-- SCL.ST16 (R155, R200, R201). -/
def execSclSt16 (x : CtxKind) (s : State) : Host.Outcome State Fault Refusal :=
  s.row fun s => s.scl x 0x1D (storeStep .b2)

/-- SCL.ST32 (R155, R200, R201). -/
def execSclSt32 (x : CtxKind) (s : State) : Host.Outcome State Fault Refusal :=
  s.row fun s => s.scl x 0x1E (storeStep .b4)

/-- SCL.ST64 (R155, R200, R201). -/
def execSclSt64 (x : CtxKind) (s : State) : Host.Outcome State Fault Refusal :=
  s.row fun s => s.scl x 0x1F (storeStep .b8)

/-- SCL.RDREG (R155, R293). -/
def execSclRdreg (x : CtxKind) (s : State) : Host.Outcome State Fault Refusal :=
  s.row fun s => s.scl x 0x20 (rdregStep)

/-- SCL.WRREG (R155, R293). -/
def execSclWrreg (x : CtxKind) (s : State) : Host.Outcome State Fault Refusal :=
  s.row fun s => s.scl x 0x21 (wrregStep)

end Sys2Proof.Machine
end

