-- ==== Sys2Proof/Machine/Supply.lean ====
section
/-! DEFINITION. Machine/Supply.lean: meanings of the power rows (11), one definition for each row. -/

namespace Sys2Proof.Machine

/-- IDLE_ENTRY (R234, R235). -/
def execIdleEntry (s : State) : Host.Outcome State Fault Refusal :=
  s.row fun s => s.orStay (idleStep s)

/-- NAP_ENTRY (R234, R235). -/
def execNapEntry (s : State) : Host.Outcome State Fault Refusal :=
  s.row fun s => s.orStay (napStep s)

/-- CORE_SLEEP_ENTRY (R236). -/
def execCoreSleepEntry (c : Fin 4) (s : State) : Host.Outcome State Fault Refusal :=
  s.row fun s => s.coreClock (coreSleepStart c.val) [.cores]

/-- CORE_SLEEP_SAVE_DONE (R236). -/
def execCoreSleepSaveDone (c : Fin 4) (s : State) : Host.Outcome State Fault Refusal :=
  s.row fun s => s.coreClock (coreSleepDone c.val) [.regions]

/-- WAKE_TRIGGER (R237). -/
def execWakeTrigger (t : Trigger) (s : State) : Host.Outcome State Fault Refusal :=
  s.row fun s => s.orStay (wakeStep t s)

/-- FAST_CLOCK_STABLE (R238). -/
def execFastClockStable (mhz : BitVec 11) (s : State) : Host.Outcome State Fault Refusal :=
  s.row fun s => s.orStay (clockStable mhz.toNat s)

/-- PWR_CLOCK (R238). -/
def execPwrClock (s : State) : Host.Outcome State Fault Refusal :=
  s.row fun s => s.orStay (clockLate s)

/-- CORE_WAKE (R239). -/
def execCoreWake (c : Fin 4) (s : State) : Host.Outcome State Fault Refusal :=
  s.row fun s => s.fast (coreWakeStep c.val) [.regions]

/-- PWR_CTRL_STAYUP (R235, R237). -/
def execPwrCtrlStayup (p : Party) (on : Bool) (s : State) : Host.Outcome State Fault Refusal :=
  s.row fun s => s.aonRow p 0xB004 (b2n on)

/-- PWR_CTRL_OFF (R245): STAYUP is written back as it is. -/
def execPwrCtrlOff (p : Party) (s : State) : Host.Outcome State Fault Refusal :=
  s.row fun s => s.aonRow p 0xB004 (b2n s.pwr.stayUp + 2)

/-- THROTTLE_ASSERT (R241). -/
def execThrottleAssert (temp : BitVec 8) (s : State) : Host.Outcome State Fault Refusal :=
  s.row fun s => s.orStay (throttleOn temp s)

/-- THROTTLE_DEASSERT (R241). -/
def execThrottleDeassert (s : State) : Host.Outcome State Fault Refusal :=
  s.row fun s => s.orStay (throttleOff s)

/-- POWER_FAIL_WARNING (R243). -/
def execPowerFailWarning (s : State) : Host.Outcome State Fault Refusal :=
  s.row fun s => s.orStay (powerFail s)

/-- PF_SAFE (R243 step 4). -/
def execPfSafe (s : State) : Host.Outcome State Fault Refusal :=
  s.row fun s => s.orStay (pfSafeStep s)

/-- POWER_FAIL_CLEAR (R244). -/
def execPowerFailClear (s : State) : Host.Outcome State Fault Refusal :=
  s.row fun s => s.orStay (pfClear s)

/-- POWER_LOSS (R252). -/
def execPowerLoss (torn : Nat) (s : State) : Host.Outcome State Fault Refusal :=
  s.row fun s => powerLost torn s

/-- STARTUP (R254 steps 1 to 3). -/
def execStartup (s : State) : Host.Outcome State Fault Refusal :=
  .next (s.orStay ((Sys2Proof.Machine.startup s).map State.acceptAon))

/-- CORE_RELEASE (R254 steps 5 and 6). -/
def execCoreRelease (s : State) : Host.Outcome State Fault Refusal :=
  s.row fun s => s.orStay ((releaseCores s).map State.acceptAon)

end Sys2Proof.Machine
end

