-- ==== Sys2Proof/Machine/Syncs.lean ====
section
/-! DEFINITION. Machine/Syncs.lean: meanings of the synchronisation and memory rows (09), one definition for each row. -/

namespace Sys2Proof.Machine

/-- SYN.ARRIVE (R188, R193). -/
def execSynArrive (w : Who) (s : State) : Host.Outcome State Fault Refusal :=
  s.row fun s => s.issue w fun op _ s => match op with
    | .arrive c p v => arriveIssue w c p v s
    | _ => none

/-- ARRIVE_TAKES_EFFECT (R193). -/
def execArriveTakesEffect (w : Who) (s : State) : Host.Outcome State Fault Refusal :=
  s.row fun s => s.fast (arriveEffect w) [.counters]

/-- SYN.WAIT (R188, R190). -/
def execSynWait (w : Who) (s : State) : Host.Outcome State Fault Refusal :=
  s.row fun s => s.issue w fun op _ s => match op with
    | .wait c p t => waitIssue w c p t s
    | _ => none

/-- WAIT_COMPLETE (R190). -/
def execWaitComplete (w : Who) (s : State) : Host.Outcome State Fault Refusal :=
  s.row fun s => s.fast (waitDone w) [.counters]

/-- SYN.READ (R188). -/
def execSynRead (w : Who) (s : State) : Host.Outcome State Fault Refusal :=
  s.row fun s => s.issue w fun op len s => match op with
    | .synRead c p a => syncRead w len c p a s
    | _ => none

/-- SYN.SET (R188). -/
def execSynSet (w : Who) (s : State) : Host.Outcome State Fault Refusal :=
  s.row fun s => s.issue w fun op len s => match op with
    | .synSet c p v => syncSet w len c p v s
    | _ => none

/-- ATM.ADD (R202 to R204). -/
def execAtmAdd (w : Who) (s : State) : Host.Outcome State Fault Refusal :=
  s.row fun s => s.issue w fun op _ s => match op with
    | .atm .add w64 sg p ret a v k bad => atomIssue w ⟨.add, w64, sg, BitVec.ofNat 64 v, BitVec.ofNat 64 k⟩ bad p ret a s
    | _ => none

/-- ATM.MIN (R202 to R204). -/
def execAtmMin (w : Who) (s : State) : Host.Outcome State Fault Refusal :=
  s.row fun s => s.issue w fun op _ s => match op with
    | .atm .min w64 sg p ret a v k bad => atomIssue w ⟨.min, w64, sg, BitVec.ofNat 64 v, BitVec.ofNat 64 k⟩ bad p ret a s
    | _ => none

/-- ATM.MAX (R202 to R204). -/
def execAtmMax (w : Who) (s : State) : Host.Outcome State Fault Refusal :=
  s.row fun s => s.issue w fun op _ s => match op with
    | .atm .max w64 sg p ret a v k bad => atomIssue w ⟨.max, w64, sg, BitVec.ofNat 64 v, BitVec.ofNat 64 k⟩ bad p ret a s
    | _ => none

/-- ATM.XCHG (R202 to R204). -/
def execAtmXchg (w : Who) (s : State) : Host.Outcome State Fault Refusal :=
  s.row fun s => s.issue w fun op _ s => match op with
    | .atm .xchg w64 sg p ret a v k bad => atomIssue w ⟨.xchg, w64, sg, BitVec.ofNat 64 v, BitVec.ofNat 64 k⟩ bad p ret a s
    | _ => none

/-- ATM.CAS (R202 to R204). -/
def execAtmCas (w : Who) (s : State) : Host.Outcome State Fault Refusal :=
  s.row fun s => s.issue w fun op _ s => match op with
    | .atm .cas w64 sg p ret a v k bad => atomIssue w ⟨.cas, w64, sg, BitVec.ofNat 64 v, BitVec.ofNat 64 k⟩ bad p ret a s
    | _ => none

/-- PORT_BUFFER_DRAIN (R204). -/
def execPortBufferDrain (sector : Nat) (s : State) : Host.Outcome State Fault Refusal :=
  s.row fun s => s.fast (portDrain sector)

/-- MEMORY_RESPONSE (R224). -/
def execMemoryResponse (id : Nat) (r : MemResp) (s : State) : Host.Outcome State Fault Refusal :=
  s.checked (respWf r) fun s => s.fast (memAnswer id r) [.counters]

/-- REMOTE_REFUSAL (R48, R266, R300). -/
def execRemoteRefusal (id : Nat) (fault : BitVec 16) (s : State) : Host.Outcome State Fault Refusal :=
  s.checked (faultCodes.contains fault.toNat) fun s => s.fast (remoteRefuse id fault.toNat) [.counters]

/-- REMOTE_ACCESS (R47, R48). -/
def execRemoteAccess (r : RemoteReq) (s : State) : Host.Outcome State Fault Refusal :=
  s.checked (reqWf r) fun s => s.arrive (.access r)

/-- REMOTE_COUNTER_ADD (R197). -/
def execRemoteCounterAdd (sc : BitVec 13) (k : AddKind) (s : State) : Host.Outcome State Fault Refusal :=
  s.row fun s => s.arrive (.add sc k)

/-- SYN_ARRIVE_WRITE (R199). -/
def execSynArriveWrite (p : Party) (sc : BitVec 13) (value : Word32) (s : State) : Host.Outcome State Fault Refusal :=
  s.row fun s => s.arrive (.arrive p sc value)

/-- SYN_SET_WRITE (R209): a write of SYN_SET. -/
def execSynSetWrite (p : Party) (sc : BitVec 13) (value : Word32) (s : State) : Host.Outcome State Fault Refusal :=
  s.row fun s => s.fastRow64 p 0x8008 (BitVec.ofNat 64 (sc.toNat + fld value.toNat 32))

/-- SYN_PBUF_FLUSH (R204): a write of SYN_PBUF_CTRL.FLUSH. -/
def execSynPbufFlush (p : Party) (s : State) : Host.Outcome State Fault Refusal :=
  s.row fun s => s.fastRow p 0x8020 1

end Sys2Proof.Machine
end

