-- ==== Sys2Proof/Machine/Vectors.lean ====
section
/-! DEFINITION. Machine/Vectors.lean: meanings of the vector rows (06), one definition for each row. -/

namespace Sys2Proof.Machine

/-- EPILOGUE_TILE (R126). -/
def execEpilogueTile (w : Who) (s : State) : Host.Outcome State Fault Refusal :=
  s.row fun s => s.fast (epilogueStep w) [.regions]

/-- VEC.CHAIN (R110, R153). -/
def execVecChain (w : Who) (s : State) : Host.Outcome State Fault Refusal :=
  s.row fun s => s.issue w fun op len s => match op with
    | .chain c => runChainOp w len c s
    | _ => none

/-- VEC.MASKLD (R119). -/
def execVecMaskld (w : Who) (s : State) : Host.Outcome State Fault Refusal :=
  s.row fun s => s.issue w fun op len s => match op with
    | .maskld m a => maskLoad w len m a s
    | _ => none

/-- VEC.MASKST (R119). -/
def execVecMaskst (w : Who) (s : State) : Host.Outcome State Fault Refusal :=
  s.row fun s => s.issue w fun op len s => match op with
    | .maskst m a => maskStore w len m a s
    | _ => none

/-- VEC.STATCLR (R124). -/
def execVecStatclr (w : Who) (s : State) : Host.Outcome State Fault Refusal :=
  s.row fun s => s.issue w fun op len s => match op with
    | .statclr t i => statClear w len t i s
    | _ => none

/-- VEC.SIDE (R132). -/
def execVecSide (w : Who) (s : State) : Host.Outcome State Fault Refusal :=
  s.row fun s => s.issue w fun op len s => match op with
    | .side l a b c d p => sideVector w len l a b c d p s
    | _ => none

/-- VEC.ROWCLOSE (R133). -/
def execVecRowclose (w : Who) (s : State) : Host.Outcome State Fault Refusal :=
  s.row fun s => s.issue w fun op len s => match op with
    | .rowclose l c d t si f a b => rowClose w len l c d t si f a b s
    | _ => none

end Sys2Proof.Machine
end

