-- ==== Sys2Proof/Machine/Watch.lean ====
section
/-! DEFINITION. Machine/Watch.lean: meanings of the watchdog, monitor and link rows (12), one definition for each row. -/

namespace Sys2Proof.Machine

/-- WAIT_TO (R257, R258). -/
def execWaitTo (w : Who) (s : State) : Host.Outcome State Fault Refusal :=
  s.row fun s => s.orStay (waitExpire w s)

/-- SEND_TO (R257, R258). -/
def execSendTo (w : Who) (s : State) : Host.Outcome State Fault Refusal :=
  s.row fun s => s.orStay (sendExpire w s)

/-- COMMAND_TO (R257, R258). -/
def execCommandTo (c : Fin 5) (s : State) : Host.Outcome State Fault Refusal :=
  s.row fun s => s.orStay (itemExpire ⟨c, .cmd⟩ s.str.live.commandTo 0x0C05 0x542 s)

/-- HANDLER_TO (R257, R258). -/
def execHandlerTo (c : Fin 5) (s : State) : Host.Outcome State Fault Refusal :=
  s.row fun s => s.orStay (itemExpire ⟨c, .hdl⟩ s.str.live.handlerTo 0x0C06 0x543 s)

/-- DMA_TO (R257, R259). -/
def execDmaTo (t : DmaTarget) (s : State) : Host.Outcome State Fault Refusal :=
  s.row fun s => s.orStay (dmaExpire t s)

/-- CLOCK_MONITOR_INTERVAL (R260). -/
def execClockMonitorInterval (cycles : Nat) (s : State) : Host.Outcome State Fault Refusal :=
  s.row fun s => s.orStay (clockInterval cycles s)

/-- DRONE_CLOCK_FAULT (R260). -/
def execDroneClockFault (s : State) : Host.Outcome State Fault Refusal :=
  s.row fun s => droneFault s

/-- FCLK_CHANGE (R233). -/
def execFclkChange (mhz : BitVec 11) (s : State) : Host.Outcome State Fault Refusal :=
  s.row fun s => fclkStep mhz.toNat s

/-- DROOP_START (R261). -/
def execDroopStart (mv : Nat) (s : State) : Host.Outcome State Fault Refusal :=
  s.row fun s => s.orStay (droopOn mv s)

/-- DROOP_END (R261). -/
def execDroopEnd (s : State) : Host.Outcome State Fault Refusal :=
  s.row fun s => s.orStay (droopOff s)

/-- OVER_VOLTAGE (R261). -/
def execOverVoltage (mv : Nat) (s : State) : Host.Outcome State Fault Refusal :=
  s.row fun s => s.orStay (overVolt mv s)

/-- TEMP_SAMPLE (R262). -/
def execTempSample (temp : BitVec 8) (s : State) : Host.Outcome State Fault Refusal :=
  s.row fun s => s.orStay (tempStep temp s)

/-- SCRUB (R65), in cycles of the fast clock. -/
def execScrub (sector : Nat) (s : State) : Host.Outcome State Fault Refusal :=
  s.checked (decide (sector < 393216)) fun s => if s.clockOn then s.orStay (scrubStep sector s) else s

/-- FLIT_CRC_FAIL (R264): the replays of the flit that have failed before, 8 where this is the last. -/
def execFlitCrcFail (replays : Fin 9) (load : FlitLoad) (s : State) : Host.Outcome State Fault Refusal :=
  s.row fun s => flitFail replays.val load s

end Sys2Proof.Machine
end

