-- ==== Sys2Proof/Machine/Dispatch.lean ====
section
/-! DEFINITION. Machine/Dispatch.lean: one arm for each constructor of Instr, each a direct call of its meaning. -/

namespace Sys2Proof.Machine

/-- What a command does. -/
def exec (i : Instr) (s : State) : Host.Outcome State Fault Refusal :=
  match i with
  | .seqEnd w => Sys2Proof.Machine.execSeqEnd w s
  | .itemEnd w => Sys2Proof.Machine.execItemEnd w s
  | .seqNop w => Sys2Proof.Machine.execSeqNop w s
  | .seqFence w => Sys2Proof.Machine.execSeqFence w s
  | .seqEnq x => Sys2Proof.Machine.execSeqEnq x s
  | .sclAdd x => Sys2Proof.Machine.execSclAdd x s
  | .sclSub x => Sys2Proof.Machine.execSclSub x s
  | .sclAnd x => Sys2Proof.Machine.execSclAnd x s
  | .sclOr x => Sys2Proof.Machine.execSclOr x s
  | .sclXor x => Sys2Proof.Machine.execSclXor x s
  | .sclShl x => Sys2Proof.Machine.execSclShl x s
  | .sclShr x => Sys2Proof.Machine.execSclShr x s
  | .sclSar x => Sys2Proof.Machine.execSclSar x s
  | .sclMul x => Sys2Proof.Machine.execSclMul x s
  | .sclSlt x => Sys2Proof.Machine.execSclSlt x s
  | .sclSltu x => Sys2Proof.Machine.execSclSltu x s
  | .sclBeq x => Sys2Proof.Machine.execSclBeq x s
  | .sclBne x => Sys2Proof.Machine.execSclBne x s
  | .sclBlt x => Sys2Proof.Machine.execSclBlt x s
  | .sclBge x => Sys2Proof.Machine.execSclBge x s
  | .sclJmp x => Sys2Proof.Machine.execSclJmp x s
  | .sclLd8 x => Sys2Proof.Machine.execSclLd8 x s
  | .sclLd16 x => Sys2Proof.Machine.execSclLd16 x s
  | .sclLd32 x => Sys2Proof.Machine.execSclLd32 x s
  | .sclLd64 x => Sys2Proof.Machine.execSclLd64 x s
  | .sclSt8 x => Sys2Proof.Machine.execSclSt8 x s
  | .sclSt16 x => Sys2Proof.Machine.execSclSt16 x s
  | .sclSt32 x => Sys2Proof.Machine.execSclSt32 x s
  | .sclSt64 x => Sys2Proof.Machine.execSclSt64 x s
  | .sclRdreg x => Sys2Proof.Machine.execSclRdreg x s
  | .sclWrreg x => Sys2Proof.Machine.execSclWrreg x s
  | .arrMma w => Sys2Proof.Machine.execArrMma w s
  | .arrEmul w => Sys2Proof.Machine.execArrEmul w s
  | .arrBqpush w => Sys2Proof.Machine.execArrBqpush w s
  | .arrBqrelease w => Sys2Proof.Machine.execArrBqrelease w s
  | .passStart c => Sys2Proof.Machine.execPassStart c s
  | .passEnd c mismatch => Sys2Proof.Machine.execPassEnd c mismatch s
  | .retryRestart c => Sys2Proof.Machine.execRetryRestart c s
  | .arrayRampDown c => Sys2Proof.Machine.execArrayRampDown c s
  | .bqDeadlineShip q => Sys2Proof.Machine.execBqDeadlineShip q s
  | .epilogueTile w => Sys2Proof.Machine.execEpilogueTile w s
  | .vecChain w => Sys2Proof.Machine.execVecChain w s
  | .vecMaskld w => Sys2Proof.Machine.execVecMaskld w s
  | .vecMaskst w => Sys2Proof.Machine.execVecMaskst w s
  | .vecStatclr w => Sys2Proof.Machine.execVecStatclr w s
  | .vecSide w => Sys2Proof.Machine.execVecSide w s
  | .vecRowclose w => Sys2Proof.Machine.execVecRowclose w s
  | .dmaIssue w => Sys2Proof.Machine.execDmaIssue w s
  | .dmaIssuem w => Sys2Proof.Machine.execDmaIssuem w s
  | .descriptorStart ch => Sys2Proof.Machine.execDescriptorStart ch s
  | .dmaBeat => Sys2Proof.Machine.execDmaBeat s
  | .sectorPerformed ch => Sys2Proof.Machine.execSectorPerformed ch s
  | .descriptorComplete ch => Sys2Proof.Machine.execDescriptorComplete ch s
  | .dmaChCtrlWrite p ch value => Sys2Proof.Machine.execDmaChCtrlWrite p ch value s
  | .msgSend w => Sys2Proof.Machine.execMsgSend w s
  | .msgMsend w => Sys2Proof.Machine.execMsgMsend w s
  | .msgRclose w => Sys2Proof.Machine.execMsgRclose w s
  | .sendAccept => Sys2Proof.Machine.execSendAccept s
  | .messageArrival m => Sys2Proof.Machine.execMessageArrival m s
  | .handlerDispatch c => Sys2Proof.Machine.execHandlerDispatch c s
  | .combineDelivery slot => Sys2Proof.Machine.execCombineDelivery slot s
  | .statusEntry n => Sys2Proof.Machine.execStatusEntry n s
  | .creditReturn r => Sys2Proof.Machine.execCreditReturn r s
  | .synArrive w => Sys2Proof.Machine.execSynArrive w s
  | .arriveTakesEffect w => Sys2Proof.Machine.execArriveTakesEffect w s
  | .synWait w => Sys2Proof.Machine.execSynWait w s
  | .waitComplete w => Sys2Proof.Machine.execWaitComplete w s
  | .synRead w => Sys2Proof.Machine.execSynRead w s
  | .synSet w => Sys2Proof.Machine.execSynSet w s
  | .atmAdd w => Sys2Proof.Machine.execAtmAdd w s
  | .atmMin w => Sys2Proof.Machine.execAtmMin w s
  | .atmMax w => Sys2Proof.Machine.execAtmMax w s
  | .atmXchg w => Sys2Proof.Machine.execAtmXchg w s
  | .atmCas w => Sys2Proof.Machine.execAtmCas w s
  | .portBufferDrain sector => Sys2Proof.Machine.execPortBufferDrain sector s
  | .memoryResponse id r => Sys2Proof.Machine.execMemoryResponse id r s
  | .remoteRefusal id fault => Sys2Proof.Machine.execRemoteRefusal id fault s
  | .remoteAccess r => Sys2Proof.Machine.execRemoteAccess r s
  | .remoteCounterAdd sc k => Sys2Proof.Machine.execRemoteCounterAdd sc k s
  | .synArriveWrite p sc value => Sys2Proof.Machine.execSynArriveWrite p sc value s
  | .synSetWrite p sc value => Sys2Proof.Machine.execSynSetWrite p sc value s
  | .synPbufFlush p => Sys2Proof.Machine.execSynPbufFlush p s
  | .itemIssue w => Sys2Proof.Machine.execItemIssue w s
  | .abortSettle w => Sys2Proof.Machine.execAbortSettle w s
  | .cluEnq p c value => Sys2Proof.Machine.execCluEnq p c value s
  | .preempt p c => Sys2Proof.Machine.execPreempt p c s
  | .preemptPoint c => Sys2Proof.Machine.execPreemptPoint c s
  | .preemptSaveDone c => Sys2Proof.Machine.execPreemptSaveDone c s
  | .preemptRestore c => Sys2Proof.Machine.execPreemptRestore c s
  | .preemptRestoreDone c => Sys2Proof.Machine.execPreemptRestoreDone c s
  | .killCmd p c => Sys2Proof.Machine.execKillCmd p c s
  | .killHdl p c => Sys2Proof.Machine.execKillHdl p c s
  | .flush p c => Sys2Proof.Machine.execFlush p c s
  | .strOpen p => Sys2Proof.Machine.execStrOpen p s
  | .strValidate p => Sys2Proof.Machine.execStrValidate p s
  | .validationDone => Sys2Proof.Machine.execValidationDone s
  | .strCommit p => Sys2Proof.Machine.execStrCommit p s
  | .strAbort p => Sys2Proof.Machine.execStrAbort p s
  | .strConfirm p => Sys2Proof.Machine.execStrConfirm p s
  | .strStageData p data => Sys2Proof.Machine.execStrStageData p data s
  | .strDeltaData p data => Sys2Proof.Machine.execStrDeltaData p data s
  | .epochBoundary => Sys2Proof.Machine.execEpochBoundary s
  | .marlRecordComplete => Sys2Proof.Machine.execMarlRecordComplete s
  | .telemetryTimer => Sys2Proof.Machine.execTelemetryTimer s
  | .compactionComplete => Sys2Proof.Machine.execCompactionComplete s
  | .mrlSealGo p => Sys2Proof.Machine.execMrlSealGo p s
  | .mrlSealRetire p serial => Sys2Proof.Machine.execMrlSealRetire p serial s
  | .mrlReadAddr p value => Sys2Proof.Machine.execMrlReadAddr p value s
  | .idleEntry => Sys2Proof.Machine.execIdleEntry s
  | .napEntry => Sys2Proof.Machine.execNapEntry s
  | .coreSleepEntry c => Sys2Proof.Machine.execCoreSleepEntry c s
  | .coreSleepSaveDone c => Sys2Proof.Machine.execCoreSleepSaveDone c s
  | .wakeTrigger t => Sys2Proof.Machine.execWakeTrigger t s
  | .fastClockStable mhz => Sys2Proof.Machine.execFastClockStable mhz s
  | .pwrClock => Sys2Proof.Machine.execPwrClock s
  | .coreWake c => Sys2Proof.Machine.execCoreWake c s
  | .pwrCtrlStayup p on => Sys2Proof.Machine.execPwrCtrlStayup p on s
  | .pwrCtrlOff p => Sys2Proof.Machine.execPwrCtrlOff p s
  | .throttleAssert temp => Sys2Proof.Machine.execThrottleAssert temp s
  | .throttleDeassert => Sys2Proof.Machine.execThrottleDeassert s
  | .powerFailWarning => Sys2Proof.Machine.execPowerFailWarning s
  | .pfSafe => Sys2Proof.Machine.execPfSafe s
  | .powerFailClear => Sys2Proof.Machine.execPowerFailClear s
  | .powerLoss torn => Sys2Proof.Machine.execPowerLoss torn s
  | .startup => Sys2Proof.Machine.execStartup s
  | .coreRelease => Sys2Proof.Machine.execCoreRelease s
  | .waitTo w => Sys2Proof.Machine.execWaitTo w s
  | .sendTo w => Sys2Proof.Machine.execSendTo w s
  | .commandTo c => Sys2Proof.Machine.execCommandTo c s
  | .handlerTo c => Sys2Proof.Machine.execHandlerTo c s
  | .dmaTo t => Sys2Proof.Machine.execDmaTo t s
  | .clockMonitorInterval cycles => Sys2Proof.Machine.execClockMonitorInterval cycles s
  | .droneClockFault => Sys2Proof.Machine.execDroneClockFault s
  | .fclkChange mhz => Sys2Proof.Machine.execFclkChange mhz s
  | .droopStart mv => Sys2Proof.Machine.execDroopStart mv s
  | .droopEnd => Sys2Proof.Machine.execDroopEnd s
  | .overVoltage mv => Sys2Proof.Machine.execOverVoltage mv s
  | .tempSample temp => Sys2Proof.Machine.execTempSample temp s
  | .scrub sector => Sys2Proof.Machine.execScrub sector s
  | .flitCrcFail replays load => Sys2Proof.Machine.execFlitCrcFail replays load s
  | .msgRingAdvance p c ring => Sys2Proof.Machine.execMsgRingAdvance p c ring s
  | .msgRingAll p c => Sys2Proof.Machine.execMsgRingAll p c s
  | .msgCreditData p avail => Sys2Proof.Machine.execMsgCreditData p avail s
  | .pacingIncrease => Sys2Proof.Machine.execPacingIncrease s
  | .pacingAllowance => Sys2Proof.Machine.execPacingAllowance s
  | .dbgPingGo p => Sys2Proof.Machine.execDbgPingGo p s
  | .probeArrival src dest => Sys2Proof.Machine.execProbeArrival src dest s
  | .probeReply t2 t3 fault => Sys2Proof.Machine.execProbeReply t2 t3 fault s
  | .probeTimeout => Sys2Proof.Machine.execProbeTimeout s
  | .dbgSnapTake p => Sys2Proof.Machine.execDbgSnapTake p s
  | .dbgSnapRelease p => Sys2Proof.Machine.execDbgSnapRelease p s
  | .snapForwarded origin => Sys2Proof.Machine.execSnapForwarded origin s
  | .snapshotCaptureDone => Sys2Proof.Machine.execSnapshotCaptureDone s
  | .watchDump w => Sys2Proof.Machine.execWatchDump w s
  | .registerWrite p off width value => Sys2Proof.Machine.execRegisterWrite p off width value s
  | .registerRead p off width => Sys2Proof.Machine.execRegisterRead p off width s
  | .traceDrain n => Sys2Proof.Machine.execTraceDrain n s
  | .imageDecodedAgain ok => Sys2Proof.Machine.execImageDecodedAgain ok s

end Sys2Proof.Machine
end

