-- ==== Sys2Proof/Safety.lean ====
section
/-! DEFINITION. Safety.lean: what a sound state of the cluster is, in the terms the statements use. -/

namespace Sys2Proof.Machine

/-- A store with no upset and no poisoned location (R61, R62). -/
structure Store.Clean (st : Store) : Prop where
  flips : st.flips = []
  poison : st.poison = []
  tags : st.tagFlips = []

/-- A core's stores are in canonical form, and it keeps at most the records of its 32 most recently ended items (R274). -/
def Core.Sound (x : Core) : Prop :=
  x.kaolin.cells.wf = true ∧ x.vb.cells.wf = true ∧ x.recs.length ≤ 32

/-- A sound state: every memory of the cluster is in canonical form, every core is sound, and the fault log holds at most 64 entries
(R266). -/
def State.Sound (s : State) : Prop :=
  s.loam.cells.wf = true ∧ (∀ e ∈ s.cores, e.2.Sound) ∧ s.mrl.mram.wf = true ∧ s.tel.log.length ≤ 64

/-- The next instruction of the item in a context can issue: the fast clock runs, the item is at an instruction and waits for nothing,
its state is not damaged, and its fetch finds `o`, of `len` bytes, and leaves `t` (R148 to R150). -/
structure State.Issues (s : State) (w : Who) (t : State) (o : Op) (len : Nat) : Prop where
  fast : s.fastOn = true
  ready : (s.ctx w).canIssue = true
  whole : Damage.item w ∉ s.damage
  fetched : s.fetch w = (t, .op o len)

end Sys2Proof.Machine
end

