-- ==== Sys2Proof/Certificates/Slice0/Obligations.lean ====
section
/-! DEFINITION. Certificates/Slice0/Obligations.lean: the statements for the provers. Each docstring names the rules of spec/ that the
statement rests on, or the log entry of a choice that is the model's. -/

open Sys2Proof Sys2Proof.Machine

/-! ### The machine as a whole -/

/-- A step of a state with a command at the front of its queue is that command with the queue's rest. -/
def Obligations.StepTakesFront : Prop :=
  ∀ (c : Instr) (rest : List Instr) (s : State), s.pending = c :: rest → step s = exec c { s with pending := rest }

/-- On an empty queue one drone tick passes, which is the model's choice (log 2): TS advances while it runs, and where no commit swap is on
its way the structure image and the sync counters stay as they are, and what was sent is only added to, by additions that waited at the
memory port and by the attention pulse for a damaged field of the live image that is found (R265, log 13). Without power no tick passes. -/
def Obligations.EmptyQueueTicks : Prop :=
  ∀ s : State, s.pending = [] →
    (s.pwr.state = .off → step s = .next s) ∧
    (s.pwr.state ≠ .off → s.str.swap = none → ∃ t, step s = .next t ∧ t.ticks = s.ticks + 1 ∧
      t.ts = (if s.tsRun then s.ts + 1 else s.ts) ∧ t.str.live = s.str.live ∧ t.syn = s.syn ∧
      s.out <+: t.out ∧ (s.port.owed = [] → (∀ f, s.damage.contains (.image f) = false) → t.out = s.out) ∧ t.pending = [] ∧ t.id = s.id)

/-- Every command leads to a next state: none faults and none is refused. One whose operands no sender can give changes nothing, which is
the model's choice (log 1). -/
def Obligations.CommandsComplete : Prop :=
  ∀ (c : Instr) (s : State), (∃ t, exec c s = .next t) ∧ (c.wellFormed = false → exec c s = .next s)

/-- Every step keeps the memories in canonical form, at most 32 records a core (R274) and at most 64 fault log entries (R266). -/
def Obligations.StepKeepsSound : Prop :=
  ∀ s t : State, s.Sound → step s = .next t → t.Sound

/-- A step never changes the straps, and what is left of the queue is its rest. -/
def Obligations.StepKeepsStraps : Prop :=
  ∀ s t : State, step s = .next t → t.id = s.id ∧ t.pending = s.pending.tail

/-- After the always-on reset the state is sound, nothing waits, and the registers whose tables give a reset value other than zero, and
those that say that no image is live, read it (R298 and the register tables): CLU_ID, which is the straps, CLU_LCORES, STR_STATUS,
STR_LIVE_CORES, ARR_BQ_CFG, MSG_PACE_CFG, MSG_PACE_DATA, SYN_PEEK_DATA, whose upper word names no owner, DMA_CH_CTRL, DMA_CH_STATUS,
PWR_CFG, PWR_STATUS and TEL_MON_CFG. -/
def Obligations.ResetValues : Prop :=
  State.reset.Sound ∧ State.reset.pending = [] ∧ State.reset.str.liveValid = false ∧ State.reset.str.stage = .empty ∧
  ∀ e ∈ [(0x0000, 0x1848B0), (0x0004, 0x77770), (0x1004, 0), (0x102C, 0xFFFFFFFF), (0x4200, 0x07D0FF00), (0x6904, 0x0087D001), (0x6910, 0xF40007D0),
      (0x801C, 0x1C), (0xA000, 1), (0xA100, 0x40), (0xB000, 0x00064010), (0xB008, 2), (0xD020, 0x000EDA8A)],
    ∃ u, State.reset.regRead (accOf .host) e.1 .b4 = (u, .ok e.2)

/-- In Off nothing but STARTUP changes anything: every other command leaves the state as it is (R234, R252). -/
def Obligations.OffIsStill : Prop :=
  ∀ (c : Instr) (s : State), s.pwr.state = .off → c ≠ .startup → exec c s = .next s

/-! ### Items and the sequencer -/

/-- Where Loam holds no upset and no tag, a fetch of an instruction that lies within the item's code, to its last word, reads its words and
changes nothing: the instruction that issues is what the words at the item's offset decode to (R148). Where the code holds no word at that
offset the fetch finds an illegal instruction (R150). A fetch changes no core, no register and no queue: only Loam's own error state, its
records and counts. That the words are read as the instruction issues, so that a store to the code before it is seen, is the model's choice
(log 3). -/
def Obligations.FetchReadsCode : Prop :=
  (∀ (w : Who) (s : State) (o : Op) (len : Nat), s.loam.Clean →
      let at' := (s.item w).addr + (s.item w).off
      let words := bits (fieldB (s.loam.cells.read at' 16) 0 4) 11 10 + 1
      (s.item w).off + 16 * words ≤ 192 + (s.item w).hdr.codeLen →
      decodeOp w.core.val (s.loam.cells.read at' (16 * words)) = some (o, len) → s.fetch w = (s, .op o len)) ∧
  (∀ (w : Who) (s : State), 192 + (s.item w).hdr.codeLen < (s.item w).off + 16 → s.fetch w = (s, .illegal)) ∧
  (∀ (w : Who) (s : State), (s.fetch w).1 =
      { s with loam := (s.fetch w).1.loam, err := (s.fetch w).1.err, ctr := (s.fetch w).1.ctr, tel := (s.fetch w).1.tel })

/-- Where nothing decodes, the instruction is illegal: the item aborts with CMD_OPCODE, and nothing of it is performed (R150). That every
row of an instruction, given while an illegal word stands at the item's offset, makes this happen is the model's choice (log 3). -/
def Obligations.IllegalInstructionAborts : Prop :=
  ∀ (w : Who) (s t : State), s.fastOn = true → (s.ctx w).canIssue = true → Damage.item w ∉ s.damage → s.fetch w = (t, .illegal) →
    ∀ c ∈ [Instr.seqEnd w, .seqNop w, .seqFence w, .arrMma w, .arrEmul w, .arrBqpush w, .arrBqrelease w, .vecChain w, .vecMaskld w,
        .vecMaskst w, .vecStatclr w, .vecSide w, .vecRowclose w, .dmaIssue w, .dmaIssuem w, .msgSend w, .msgMsend w, .msgRclose w,
        .synArrive w, .synWait w, .synRead w, .synSet w, .atmAdd w, .atmMin w, .atmMax w, .atmXchg w, .atmCas w],
      ∃ u, exec c s = .next u ∧ (u.ctx w).phase = .aborting ∧
        (u.item w).abort = some { fault := 0x0702, tick := s.ticks, was := (s.item w).waitedAt } ∧ (u.item w).off = (s.item w).off ∧
        (u.item w).sregs = (s.item w).sregs ∧ (u.item w).record.aborted = true ∧ (u.item w).record.fault = 0x0702 ∧ u.loam = t.loam ∧
        u.syn = s.syn

/-- SEQ.END, SEQ.NOP and SEQ.FENCE: the first ends the sequence, the others go on behind the instruction (R146, R151). A fence waits for
what it names and changes nothing until then. Going on behind an instruction, `State.advance`, moves the item past it: the item's context is
replaced by one whose item stands behind the instruction, in every other context and in every other core nothing changes, and of the rest of
the state only the tick's busy marks, which show that the sequencer worked for the item (log 12). -/
def Obligations.SequencerInstructions : Prop :=
  ∀ (w : Who) (s t : State) (len : Nat),
    (s.Issues w t .seqEnd len →
      exec (.seqEnd w) s = .next ((t.modItem w fun i => { i with ending := true, blocked := none }).work 0 (s.item w).no).activate) ∧
    (s.Issues w t .seqNop len → exec (.seqNop w) s = .next (t.advance w len).activate) ∧
    (∀ gone : Ctx, gone = { t.ctx w with item := { t.item w with
        off := (t.item w).off + len, blocked := none, inProgress := false, sendWaits := false, chain := none, loadRun := 0 } } →
      t.advance w len = { t.setCtx w gone with
        moved := if t.moved.contains (0, (t.item w).no) then t.moved else t.moved ++ [(0, (t.item w).no)] } ∧
      (t.advance w len).ctx w = gone ∧ (∀ v, v ≠ w → (t.advance w len).ctx v = t.ctx v) ∧
      (t.advance w len).core w.core.val = (t.core w.core.val).setCtx w.ctx gone ∧
      ∀ c, c ≠ w.core.val → (t.advance w len).core c = t.core c) ∧
    (∀ a v, s.Issues w t (.fence a v) len →
      ((a = true → s.itemJobs w = []) ∧ (v = true → ∀ j ∈ s.itemJobs w, j.epi = []) →
        exec (.seqFence w) s = .next (t.advance w len).activate) ∧
      ((a = true ∧ s.itemJobs w ≠ []) ∨ (v = true ∧ ∃ j ∈ s.itemJobs w, j.epi ≠ []) → exec (.seqFence w) s = .next s))

/-- SEQ.ENQ: an aligned header address and a logical core of the image put the command at the back of that core's queue, which has room
(R141, R160): without URGENT in the normal queue, and the running command is left alone; with URGENT in the urgent queue, and a normal
command that runs is asked to pre-empt (R157). SEQ.ENQ with a header address that is no multiple of 64 aborts with CMD_OPCODE (R301), and
with a logical core that the image does not have, with CMD_ENQ (R160); to a full queue it waits. What the fault log's DETAIL holds for these
two faults, the header address and the core, is the model's choice (log 20). -/
def Obligations.EnqueueFromControlCore : Prop :=
  (∀ (x : CtxKind) (s t : State) (len core c a : Nat),
      s.Issues (sclWho x) t (.enq core false a) len → a % 64 = 0 → s.str.live.logical[core]? = some c → (s.core c).nq.length < 16 →
      ∃ u, exec (.seqEnq x) s = .next u ∧ (u.core c).nq = (s.core c).nq ++ [⟨a, (s.item (sclWho x)).sup,
          if (s.item (sclWho x)).sup then none else some (s.item (sclWho x)).hdr.job⟩] ∧
        (u.core c).uq = (s.core c).uq ∧ (c ≠ 4 → (u.core c).cmd = (s.core c).cmd) ∧
        (u.item (sclWho x)).off = (s.item (sclWho x)).off + len ∧ u.loam = t.loam ∧ u.syn = s.syn ∧ u.out = s.out) ∧
  (∀ (x : CtxKind) (s t : State) (len core c a : Nat),
      s.Issues (sclWho x) t (.enq core true a) len → a % 64 = 0 → s.str.live.logical[core]? = some c → (s.core c).uq.length < 4 →
      ∃ u, exec (.seqEnq x) s = .next u ∧ (u.core c).uq = (s.core c).uq ++ [⟨a, (s.item (sclWho x)).sup,
          if (s.item (sclWho x)).sup then none else some (s.item (sclWho x)).hdr.job⟩] ∧
        ((s.core c).cmd.phase ≠ .waitRange → (u.core c).nq = (s.core c).nq) ∧
        (c < 4 → (s.core c).cmd.phase = .running → (s.core c).cmd.item.urgent = false → (s.core c).cmd.item.abort = none →
          (s.core c).saved = none → (u.core c).cmd = { (s.core c).cmd with phase := .preempting }) ∧
        (u.item (sclWho x)).off = (s.item (sclWho x)).off + len ∧ u.loam = t.loam ∧ u.syn = s.syn ∧ u.out = s.out) ∧
  (∀ (x : CtxKind) (s t : State) (len core a : Nat) (urgent : Bool), s.Issues (sclWho x) t (.enq core urgent a) len →
      (a % 64 ≠ 0 → exec (.seqEnq x) s = .next (t.raise (sclWho x) 0x0702 a).activate) ∧
      (a % 64 = 0 → s.str.live.logical[core]? = none → exec (.seqEnq x) s = .next (t.raise (sclWho x) 0x0703 core).activate) ∧
      (∀ c, a % 64 = 0 → s.str.live.logical[core]? = some c → (s.core c).roomFor urgent = false →
        exec (.seqEnq x) s = .next (t.modItem (sclWho x) fun i => { i with blocked := some 13 }).activate))


/-! ### Scalar instructions -/

/-- The scalar registers: a write sets one register, S0 reads as zero whatever is written to it, and no other register changes (R154). -/
def Obligations.ScalarRegisters : Prop :=
  ∀ (i : Item) (r q : Nat) (v : Word64),
    i.reg 0 = 0 ∧ (i.setReg 0 v).reg q = i.reg q ∧ (r ≠ 0 → (i.setReg r v).reg r = v) ∧ (q ≠ r → (i.setReg r v).reg q = i.reg q)

/-- The arithmetic of R155: SD takes the result, the item goes on 16 bytes further (`State.advance`), and nothing else changes. -/
def Obligations.ScalarArithmetic : Prop :=
  ∀ (x : CtxKind) (s t : State) (sd sa sb : Nat) (imm : Word64) (vol : Bool),
    let w := sclWho x
    let a := (s.item w).reg sa
    let b := (s.item w).reg sb + imm
    let done (v : Word64) : Host.Outcome State Fault Refusal :=
      .next ((t.modItem w fun i => i.setReg sd v).advance w 16).activate
    (s.Issues w t (.scl 0x01 sd sa sb imm vol) 16 → exec (.sclAdd x) s = done (a + b)) ∧
    (s.Issues w t (.scl 0x02 sd sa sb imm vol) 16 → exec (.sclSub x) s = done (a - b)) ∧
    (s.Issues w t (.scl 0x03 sd sa sb imm vol) 16 → exec (.sclAnd x) s = done (a &&& b)) ∧
    (s.Issues w t (.scl 0x04 sd sa sb imm vol) 16 → exec (.sclOr x) s = done (a ||| b)) ∧
    (s.Issues w t (.scl 0x05 sd sa sb imm vol) 16 → exec (.sclXor x) s = done (a ^^^ b)) ∧
    (s.Issues w t (.scl 0x06 sd sa sb imm vol) 16 → exec (.sclShl x) s = done (a <<< (b.toNat % 64))) ∧
    (s.Issues w t (.scl 0x07 sd sa sb imm vol) 16 → exec (.sclShr x) s = done (a >>> (b.toNat % 64))) ∧
    (s.Issues w t (.scl 0x08 sd sa sb imm vol) 16 → exec (.sclSar x) s = done (a.sshiftRight (b.toNat % 64))) ∧
    (s.Issues w t (.scl 0x09 sd sa sb imm vol) 16 → exec (.sclMul x) s = done (BitVec.ofNat 64 (a.toNat * b.toNat))) ∧
    (s.Issues w t (.scl 0x0A sd sa sb imm vol) 16 → exec (.sclSlt x) s = done (if a.toInt < b.toInt then 1 else 0)) ∧
    (s.Issues w t (.scl 0x0B sd sa sb imm vol) 16 → exec (.sclSltu x) s = done (if a.toNat < b.toNat then 1 else 0))

/-- Branches and the jump: to item offset IMM where it lies in the instruction sequence and is a multiple of 16, if SA compares to SB as
named; a target elsewhere is an illegal instruction, taken or not (R150, R155, R301). The DETAIL of the logged faults is log 20's choice. -/
def Obligations.ScalarBranches : Prop :=
  ∀ (x : CtxKind) (s t : State) (sd sa sb : Nat) (imm : Word64) (vol : Bool),
    let w := sclWho x
    let a := (s.item w).reg sa
    let b := (s.item w).reg sb
    let good := 192 ≤ imm.toNat ∧ imm.toNat < 192 + (s.item w).hdr.codeLen ∧ imm.toNat % 16 = 0
    let goes (c : Instr) (p : Prop) : Prop :=
      (good → p → exec c s = .next ((t.modItem w fun i => { i with off := imm.toNat, blocked := none }).work 0 (s.item w).no).activate) ∧
      (good → ¬ p →
        exec c s = .next ((t.modItem w fun i => { i with off := i.off + 16, blocked := none }).work 0 (s.item w).no).activate) ∧
      (¬ good → exec c s = .next (t.raise w 0x0702 (s.item w).off).activate)
    (s.Issues w t (.scl 0x10 sd sa sb imm vol) 16 → goes (.sclBeq x) (a = b)) ∧
    (s.Issues w t (.scl 0x11 sd sa sb imm vol) 16 → goes (.sclBne x) (a ≠ b)) ∧
    (s.Issues w t (.scl 0x12 sd sa sb imm vol) 16 → goes (.sclBlt x) (a.toInt < b.toInt)) ∧
    (s.Issues w t (.scl 0x13 sd sa sb imm vol) 16 → goes (.sclBge x) (b.toInt ≤ a.toInt)) ∧
    (s.Issues w t (.scl 0x14 sd sa sb imm vol) 16 → goes (.sclJmp x) True)

/-- Loads (R155, R16, R48, R200, R201): an aligned and permitted load from the own Loam gives SD the zero-extended bytes at SA + IMM, which
are Loam's own where Loam holds no upset and no tag. From stack memory and from another cluster's Loam a load that is not volatile hits the
cached line or the port buffer, and else asks memory for the sector; a volatile one always asks; the item waits for the answer. From the
register block of the own cluster SD takes the register, from another's the item asks. What nothing is mapped at aborts with 0x0301; that
this takes all 64 bits of SA + IMM is the model's choice (log 76). The DETAIL of the logged faults is log 20's choice. -/
def Obligations.ScalarLoads : Prop :=
  ∀ (x : CtxKind) (s t u : State) (sd sa sb : Nat) (imm : Word64) (vol : Bool),
    let w := sclWho x
    let pa := ((s.item w).reg sa + imm).toNat
    ∀ p ∈ [(Instr.sclLd8 x, 0x18, Width.b1), (.sclLd16 x, 0x19, .b2), (.sclLd32 x, 0x1A, .b4), (.sclLd64 x, 0x1B, .b8)],
      let n := widthBytes p.2.2
      let gets (q : State) (v : Nat) : Prop :=
        exec p.1 s = .next ((q.modItem w fun i => i.setReg sd (BitVec.ofNat 64 v)).advance w 16).activate
      let asks (o : Output) : Prop :=
        ∃ v, exec p.1 s = .next v ∧ v.out = s.out ++ [o] ∧ (v.item w).pend = .memory s.port.nextId ∧ (v.item w).off = (s.item w).off ∧
          (v.item w).sregs = (s.item w).sregs ∧ v.loam = t.loam ∧ v.syn = s.syn
      let outer := placeOf s.id pa = .stack ∨ ∃ k l, placeOf s.id pa = .other k l
      s.Issues w t (.scl p.2.1 sd sa sb imm vol) 16 → pa % n = 0 →
      (∀ l bs, placeOf s.id pa = .own l → t.itemFault w false l n = 0 → t.loamRead (corePort 4) l n = (u, .ok bs) → gets u (leNat bs)) ∧
      (∀ l, placeOf s.id pa = .own l → s.itemFault w false l n = 0 → s.loam.Clean → gets s (leNat (s.loam.cells.read l n))) ∧
      (outer → vol = true → s.txnRoom = true → (∀ e ∈ s.port.pbuf, e.sector ≠ pa / 64) →
        asks (.memRead s.port.nextId (pa / 64 * 64) false)) ∧
      (outer → vol = false → ∀ l, t.lookLine (pa / 64) = (u, some l) → gets u (leNat (sliceB l.data (pa % 64) n))) ∧
      (outer → vol = false → t.lookLine (pa / 64) = (u, none) → s.port.covers (pa / 64) = true →
        gets u (leNat (sliceB (u.port.forward (pa / 64) []) (pa % 64) n))) ∧
      (outer → vol = false → t.lookLine (pa / 64) = (u, none) → s.port.covers (pa / 64) = false → s.txnRoom = true →
        asks (.memRead s.port.nextId (pa / 64 * 64) false)) ∧
      (∀ off, placeOf s.id pa = .regs (pkgIndex s.id) off → ∀ v, t.regRead (t.ownAcc w) off p.2.2 = (u, .ok v) → gets u v) ∧
      (∀ cl off, placeOf s.id pa = .regs cl off → cl ≠ pkgIndex s.id → s.txnRoom = true → asks (.regRead s.port.nextId pa p.2.2)) ∧
      (placeOf s.id pa = .unmapped → exec p.1 s = .next (t.raise w 0x0301 pa).activate)

/-- Stores (R155, R10, R192, R199, R200): to the own Loam the low bytes of SB at SA + IMM are written, little-endian, and no other byte of
Loam changes. To stack memory and another cluster's Loam a store that is not volatile goes into the port buffer and the item goes on; a
volatile one goes out as a write and the item waits; where the buffer holds the sector or an atomic's fetch of it is on its way, it waits to
go out. To the register block of the own cluster it is a write under the register's rules, and one to SYN_ARRIVE waits for the item's
earlier writes; to another's the item asks. What nothing is mapped at aborts with 0x0301 (log 76). That a store to the own Loam is performed
by its own instruction is the model's choice (log 6). The DETAIL of the logged faults is log 20's choice. -/
def Obligations.ScalarStores : Prop :=
  ∀ (x : CtxKind) (s t u : State) (sd sa sb : Nat) (imm : Word64) (vol : Bool),
    let w := sclWho x
    let pa := ((s.item w).reg sa + imm).toNat
    ∀ p ∈ [(Instr.sclSt8 x, 0x1C, Width.b1), (.sclSt16 x, 0x1D, .b2), (.sclSt32 x, 0x1E, .b4), (.sclSt64 x, 0x1F, .b8)],
      let n := widthBytes p.2.2
      let v := ((s.item w).reg sb).toNat % 2 ^ (8 * n)
      let asks (o : Output) : Prop :=
        ∃ r, exec p.1 s = .next r ∧ r.out = s.out ++ [o] ∧ (r.item w).pend = .memory s.port.nextId ∧ (r.item w).off = (s.item w).off ∧
          (r.item w).sregs = (s.item w).sregs ∧ r.loam = t.loam ∧ r.syn = s.syn
      let outer := placeOf s.id pa = .stack ∨ ∃ k l, placeOf s.id pa = .other k l
      s.Issues w t (.scl p.2.1 sd sa sb imm vol) 16 → pa % n = 0 →
      (∀ l, placeOf s.id pa = .own l → s.Sound → s.itemFault w true l n = 0 → s.loam.Clean →
        ∃ r, exec p.1 s = .next r ∧ (r.item w).off = (s.item w).off + 16 ∧ (r.item w).sregs = (s.item w).sregs ∧
          (∀ k < n, r.loam.cells.get (l + k) = BitVec.ofNat 8 (((s.item w).reg sb).toNat / 256 ^ k)) ∧
          (∀ a, a < l ∨ l + n ≤ a → r.loam.cells.get a = s.loam.cells.get a) ∧ r.syn = s.syn ∧ r.out = s.out) ∧
      (outer → vol = false → t.pbufWrite (s.item w).no pa (leBytes n v) = some u →
        exec p.1 s = .next ((u.updateLine pa (leBytes n v)).advance w 16).activate ∧ u.loam = t.loam ∧ u.out = s.out) ∧
      (outer → vol = false → (s.port.entry (pa / 64)).isSome = true ∨ s.port.used < 64 → ∃ r, t.pbufWrite (s.item w).no pa (leBytes n v) = some r) ∧
      (outer → vol = true → s.txnRoom = true → (∀ e ∈ s.port.pbuf, e.sector ≠ pa / 64) → s.port.fetching (pa / 64) = false →
        asks (.memWrite s.port.nextId (pa / 64 * 64) ((leBytes n v).mapIdx fun i b => (pa % 64 + i, b)))) ∧
      (outer → vol = true → (∃ e ∈ s.port.pbuf, e.sector = pa / 64) ∨ s.port.fetching (pa / 64) = true → exec p.1 s = .next s) ∧
      (∀ off, placeOf s.id pa = .regs (pkgIndex s.id) off → arriveStore off = false ∨ s.released (s.item w).no 2 = true →
        (regWriteWith allBlocks t (t.ownAcc w) off p.2.2 v = (u, 0) → u.item w = t.item w → u.ctx w = t.ctx w →
          exec p.1 s = .next (u.advance w 16).activate) ∧
        (∀ f, f ≠ 0 → regWriteWith allBlocks t (t.ownAcc w) off p.2.2 v = (u, f) → exec p.1 s = .next (u.raise w f off).activate)) ∧
      (∀ cl off, placeOf s.id pa = .regs cl off → cl ≠ pkgIndex s.id → arriveStore off = false ∨ s.released (s.item w).no 2 = true →
        s.txnRoom = true → asks (.regWrite s.port.nextId pa p.2.2 (BitVec.ofNat 64 v))) ∧
      (placeOf s.id pa = .unmapped → exec p.1 s = .next (t.raise w 0x0301 pa).activate)

/-- A scalar load or store that is not aligned to its size, and RDREG and WRREG at an offset that is no multiple of 8, abort with CMD_OPCODE
(R150, R301). -/
def Obligations.MisalignedScalarTraps : Prop :=
  ∀ (x : CtxKind) (s t : State) (sd sa sb : Nat) (imm : Word64) (vol : Bool),
    let w := sclWho x
    let pa := ((s.item w).reg sa + imm).toNat
    ∀ p ∈ [(Instr.sclLd16 x, 0x19, 2), (.sclLd32 x, 0x1A, 4), (.sclLd64 x, 0x1B, 8), (.sclSt16 x, 0x1D, 2), (.sclSt32 x, 0x1E, 4),
        (.sclSt64 x, 0x1F, 8), (.sclRdreg x, 0x20, 8), (.sclWrreg x, 0x21, 8)],
      s.Issues w t (.scl p.2.1 sd sa sb imm vol) 16 → pa % p.2.2 ≠ 0 →
      ∃ u, exec p.1 s = .next u ∧ (u.ctx w).phase = .aborting ∧ (u.item w).record.fault = 0x0702 ∧ u.loam = t.loam ∧ u.syn = s.syn

/-- RDREG and WRREG at an offset that is a multiple of 8: SD takes the 64 bits of the register that the item may read; SB is written under
the register's rules. A refused access aborts the item with its fault (R155, R256). A write to SYN_ARRIVE, which is a release at package
scope, waits for the item's earlier writes (R199). The DETAIL of the logged faults is log 20's choice. -/
def Obligations.RegisterInstructions : Prop :=
  ∀ (x : CtxKind) (s t u : State) (sd sa sb : Nat) (imm : Word64) (vol : Bool),
    let w := sclWho x
    let off := ((s.item w).reg sa + imm).toNat
    let goes := arriveStore off = false ∨ s.released (s.item w).no 2 = true
    off % 8 = 0 →
    (∀ v, s.Issues w t (.scl 0x20 sd sa sb imm vol) 16 → t.regRead (t.ownAcc w) off .b8 = (u, .ok v) →
      exec (.sclRdreg x) s = .next ((u.modItem w fun i => i.setReg sd (BitVec.ofNat 64 v)).advance w 16).activate) ∧
    (∀ f, s.Issues w t (.scl 0x20 sd sa sb imm vol) 16 → t.regRead (t.ownAcc w) off .b8 = (u, .bad f) →
      exec (.sclRdreg x) s = .next (u.raise w f off).activate) ∧
    (s.Issues w t (.scl 0x21 sd sa sb imm vol) 16 → goes →
      regWriteWith allBlocks t (t.ownAcc w) off .b8 ((s.item w).reg sb).toNat = (u, 0) → u.item w = t.item w → u.ctx w = t.ctx w →
      exec (.sclWrreg x) s = .next (u.advance w 16).activate) ∧
    (∀ f, f ≠ 0 → s.Issues w t (.scl 0x21 sd sa sb imm vol) 16 → goes →
      regWriteWith allBlocks t (t.ownAcc w) off .b8 ((s.item w).reg sb).toNat = (u, f) →
      exec (.sclWrreg x) s = .next (u.raise w f off).activate) ∧
    (s.Issues w t (.scl 0x21 sd sa sb imm vol) 16 → ¬ goes → ∃ v, exec (.sclWrreg x) s = .next v ∧ (v.item w).off = (s.item w).off ∧
      v.syn = s.syn ∧ v.loam = t.loam)

/-! ### Items from issue to end -/

/-- An item whose header passes, and whose declared ranges the other context does not hold, starts: it runs at its first instruction, and
its record is latched (R145): a handler that was dispatched; a command taken from its core's queues, the urgent one first (R141, R158); an
item that waited for held ranges. One whose declared ranges are held waits (R56). -/
def Obligations.ItemStarts : Prop :=
  ∀ (w : Who) (s : State), s.fastOn = true → (s.core w.core.val).asleep = false → s.str.liveValid = true →
    coreOn s.str.live.coreEn w.core.val = true → (s.item w).abort = none →
    let runs (t : State) (h : Hdr) (i : Item) : Prop :=
      (t.ctx w).phase = .running ∧ (t.item w).hdr = h ∧ (t.item w).no = i.no ∧ (t.item w).addr = i.addr ∧ (t.item w).off = i.off ∧
        (t.item w).sup = i.sup ∧ (t.item w).sregs = i.sregs ∧ (t.item w).msg = i.msg ∧ (t.item w).record.job = h.job ∧
        (t.item w).record.layer = h.layer ∧ (t.item w).record.operator = h.operator ∧ (t.item w).record.step = h.step ∧
        (t.item w).record.addr = i.addr ∧ (t.item w).record.start = s.ts ∧ t.syn = s.syn
    ((s.ctx w).phase = .issuing → Damage.item w ∉ s.damage → ∀ u h, s.headerOf w (s.item w) = (u, h, 0) →
      (u.rangeHeld w h = false → ∃ t, exec (.itemIssue w) s = .next t ∧ runs t h (s.item w) ∧ t.loam = u.loam) ∧
      (u.rangeHeld w h = true → ∃ t, exec (.itemIssue w) s = .next t ∧ (t.ctx w).phase = .waitRange ∧ (t.item w).hdr = h ∧
        t.loam = u.loam ∧ t.syn = s.syn)) ∧
    (w.ctx = .cmd → (s.ctx w).phase = .idle → Damage.item w ∉ s.damage →
      ∀ e urgent y u h, (s.core w.core.val).nextCmd = some (e, urgent, y) →
        let i : Item := { no := s.itemNo, addr := e.addr, sup := e.sup, jobReq := e.jobReq, urgent := urgent }
        s.headerOf w i = (u, h, 0) → s.rangeHeld w h = false →
        ∃ t, exec (.itemIssue w) s = .next t ∧ runs t h i ∧ (t.item w).off = 192 ∧ (t.item w).urgent = urgent ∧
          (t.core w.core.val).nq = y.nq ∧ (t.core w.core.val).uq = y.uq ∧ t.loam = u.loam) ∧
    ((s.ctx w).phase = .waitRange → s.rangeHeld w (s.item w).hdr = false →
      ∃ t, exec (.itemIssue w) s = .next t ∧ runs t (s.item w).hdr (s.item w) ∧ t.loam = s.loam) ∧
    ((s.ctx w).phase = .waitRange → s.rangeHeld w (s.item w).hdr = true → exec (.itemIssue w) s = .next s)

/-- An item whose header does not pass is not started: its context is free again and the fault is in the log (R145, R266). A command has
left its queue; the message of a handler is freed, and its credits return (R170, R172). -/
def Obligations.BadHeaderNotStarted : Prop :=
  ∀ (w : Who) (s u : State) (h : Hdr) (f : Nat), s.fastOn = true → (s.core w.core.val).asleep = false → s.str.liveValid = true →
    coreOn s.str.live.coreEn w.core.val = true → (s.item w).abort = none → Damage.item w ∉ s.damage → f ≠ 0 →
    (w.ctx = .cmd → (s.ctx w).phase = .idle → ∀ e urgent y, (s.core w.core.val).nextCmd = some (e, urgent, y) →
      s.headerOf w { no := s.itemNo, addr := e.addr, sup := e.sup, jobReq := e.jobReq, urgent := urgent } = (u, h, f) →
      ∃ t, exec (.itemIssue w) s = .next t ∧ t.ctx w = {} ∧ t.tel.log.head?.map LogEnt.code = some f ∧
        (t.core w.core.val).nq = y.nq ∧ (t.core w.core.val).uq = y.uq ∧ (t.core w.core.val).lastFault = f ∧ t.loam = u.loam ∧
        t.syn = s.syn) ∧
    ((s.ctx w).phase = .issuing → s.headerOf w (s.item w) = (u, h, f) → ∀ m, (s.item w).msg = some m →
      let x := s.ring w.core.val m.ring
      ∃ t, exec (.itemIssue w) s = .next t ∧ t.ctx w = {} ∧ t.tel.log.head?.map LogEnt.code = some f ∧
        t.ring w.core.val m.ring = { x with rd := (x.rd + m.entries) % max 1 (s.ringSize w.core.val m.ring), occ := x.occ - m.entries } ∧
        ((decodeMHdr m.header).kind = 0 → ∃ r : CreditRet, .credit ((decodeMHdr m.header).src / 256) r ∈ t.out ∧
          r.count = BitVec.ofNat 16 m.entries ∧ r.dest = BitVec.ofNat 32 (s.ringDest w.core.val m.ring) ∧ r.gen = some x.gen ∧ r.status = .ok) ∧
        t.loam = u.loam ∧ t.syn = s.syn)

/-- ITEM_END: an item at SEQ.END with nothing outstanding leaves its context; its record gets its end and is the core's newest, and DONE_SC
receives its arrive (R146, R274). A handler's message leaves its ring and its credits return (R173, R170). An item with a watch waits for
its dumps (R283). An item whose state in the sequencer an uncorrectable error has damaged aborts with STATE_UE instead of ending (R265). -/
def Obligations.ItemEnds : Prop :=
  ∀ (w : Who) (s : State), s.fastOn = true → s.itemDone w = true →
    (Damage.item w ∈ s.damage →
      exec (.itemEnd w) s = .next ({ s with damage := s.damage.filter (· != Damage.item w) }.raise w 0x0C0A (s.item w).off).activate) ∧
    (Damage.item w ∉ s.damage → (s.item w).watch ≠ [] → exec (.itemEnd w) s = .next s) ∧
    (Damage.item w ∉ s.damage → (s.item w).watch = [] → s.doneReleased (s.item w) = true →
      ((s.item w).hdr.doneSc ≠ 0xFFFF → s.scBad (s.item w).hdr.doneSc = false) →
      ∃ t, exec (.itemEnd w) s = .next t ∧ t.ctx w = {} ∧
        (t.core w.core.val).recs = ({ (s.item w).record with ended := true, stop := s.ts } :: (s.core w.core.val).recs).take 32 ∧
        ((s.item w).hdr.doneSc ≠ 0xFFFF → t.sc (s.item w).hdr.doneSc = s.sc (s.item w).hdr.doneSc + 1) ∧
        (∀ n, n ≠ (s.item w).hdr.doneSc → t.sc n = s.sc n) ∧ t.loam = s.loam ∧
        ((s.item w).msg = none → t.msg.rings = s.msg.rings) ∧
        (∀ m, (s.item w).msg = some m →
          let x := s.ring w.core.val m.ring
          t.ring w.core.val m.ring = { x with rd := (x.rd + m.entries) % max 1 (s.ringSize w.core.val m.ring), occ := x.occ - m.entries } ∧
          ((decodeMHdr m.header).kind = 0 → ∃ r : CreditRet, .credit ((decodeMHdr m.header).src / 256) r ∈ t.out ∧
            r.count = BitVec.ofNat 16 m.entries ∧ r.dest = BitVec.ofNat 32 (s.ringDest w.core.val m.ring) ∧ r.gen = some x.gen ∧
            r.status = .ok)))

/-- ABORT_SETTLE: once nothing of the item is outstanding its outputs are poisoned: every sector of a declared region in the own Loam
carries a tag, and every sector elsewhere takes a poison write, which goes out or waits for room at the memory port; bytes of Loam that the
item wrote beside its regions become undefined, and every other byte stays (R147, R206, R57). What waits goes out when there is room (R224).
When all of it is done and no dump is left, DONE_SC receives its arrive, as a release, the item is gone, and its record is the core's newest
(R147, R196). -/
def Obligations.AbortSettles : Prop :=
  ∀ (w : Who) (s : State) (a : Abort), s.fastOn = true → (s.ctx w).phase = .aborting → (s.item w).abort = some a →
    (a.poisoned = false → (s.sweepWatch (s.item w).no).settled (s.item w).no = true →
      ∃ t left, exec (.abortSettle w) s = .next t ∧ (t.item w).abort = some { a with poisoned := true, left := left } ∧
        (∀ r ∈ (s.item w).hdr.regions, ∀ l, placeOf s.id r.1 = .own l → ∀ k ∈ sectorsOf l r.2, k ∈ t.loam.poison) ∧
        (∀ x ∈ s.farSectors (s.item w).hdr, x ∈ left ∨ ∃ n, Output.memPoison n x 64 ∈ t.out) ∧
        (∀ x, (∀ r ∈ (s.item w).hdr.regions, ∀ l, placeOf s.id r.1 = .own l → x / 64 ∉ sectorsOf l r.2) →
          (∀ r ∈ (s.item w).wrote, x < r.1 ∨ r.1 + r.2 ≤ x) → t.loam.cells.get x = s.loam.cells.get x) ∧
        (t.ctx w).phase = .aborting ∧ t.syn = s.syn) ∧
    (a.poisoned = true → ∀ x l, a.left = x :: l → s.txnRoom = true →
      ∃ t left, exec (.abortSettle w) s = .next t ∧ (t.item w).abort = some { a with left := left } ∧ left.length ≤ l.length ∧
        (∃ n, Output.memPoison n x 64 ∈ t.out) ∧ t.loam = s.loam ∧ t.syn = s.syn) ∧
    (a.poisoned = true → a.left = [] → (s.item w).watch = [] → (s.sweepWatch (s.item w).no).settled (s.item w).no = true →
      s.doneReleased (s.item w) = true → ((s.item w).hdr.doneSc ≠ 0xFFFF → s.scBad (s.item w).hdr.doneSc = false) →
      ∃ t, exec (.abortSettle w) s = .next t ∧ t.ctx w = {} ∧
        (t.core w.core.val).recs = ({ (s.item w).record with ended := true, stop := s.ts } :: (s.core w.core.val).recs).take 32 ∧
        ((s.item w).hdr.doneSc ≠ 0xFFFF → t.sc (s.item w).hdr.doneSc = s.sc (s.item w).hdr.doneSc + 1) ∧
        (∀ n, n ≠ (s.item w).hdr.doneSc → t.sc n = s.sc n) ∧ t.loam = s.loam)

/-! ### Pre-emption -/

/-- Pre-emption: at its point the command stops with one pre-emption more in its record; when its state is saved its context is free; it
comes back when no urgent command waits and no range it declares is held; then it runs on (R158). Where the stores hold no upset and no tag,
a save leaves the declared Kaolin and VB bytes, the masks and the statistics in the core's save region at their places of R59 and every byte
outside the region as it was, and a restore gives the core what the region holds there (R59, R60). The array's back registers are discarded,
the front ones where they hold the command's own operand (R108). -/
def Obligations.PreemptionSteps : Prop :=
  ∀ (c : Fin 4) (s : State), s.fastOn = true →
    let w : Who := ⟨⟨c.val, by omega⟩, .cmd⟩
    let e := 2 ^ s.id.edgeLog2
    let fits (h : Hdr) : Prop := 1024 * (h.kaoBase + h.kaoLen) ≤ 6 * (e * e) ∧ ∀ p ∈ h.vbParts, p.1 < 4 ∧ p.2.1 + p.2.2 ≤ e * e ∧ p.2.1 + p.2.2 ≤ 65536
    let clean : Prop := s.loam.Clean ∧ (s.core c.val).kaolin.Clean ∧ (s.core c.val).vb.Clean
    let saved (h : Hdr) (k : Core) (m : Mem) : Prop :=
      (∀ x, 1024 * h.kaoBase ≤ x → x < 1024 * (h.kaoBase + h.kaoLen) → m.get (s.saveBase c.val + x) = k.kaolin.cells.get x) ∧
      (∀ p ∈ h.vbParts, ∀ x, p.2.1 ≤ x → x < p.2.1 + p.2.2 → m.get (s.saveVbAt c.val p.1 + x) = k.vb.cells.get (65536 * p.1 + x)) ∧
      (∀ i < 512, m.read (s.saveBase c.val + Config.saveMasks e + 8 * i) 8 = leBytes 8 (tabGet 0 k.masks i).toNat) ∧
      (∀ i < 1024, m.read (s.saveBase c.val + Config.saveStats e + 4 * i) 4 = leBytes 4 (tabGet 0 k.stats i).toNat)
    ((s.ctx w).phase = .preempting → (s.item w).abort = none → (s.item w).pend.stops = true → (s.item w).inProgress = false →
      (∀ j ∈ s.itemJobs w, j.running = false ∧ j.restart = false ∧ j.retryAt = none) →
      ∃ t, exec (.preemptPoint c) s = .next t ∧ (t.ctx w).phase = .saving ∧
        (t.item w).record.preempts = (s.item w).record.preempts + 1 ∧ (t.item w).off = (s.item w).off) ∧
    ((s.ctx w).phase = .saving →
      ∃ t, exec (.preemptSaveDone c) s = .next t ∧ (t.ctx w).phase = .idle ∧
        (t.core c.val).saved = some (s.item w, s.itemJobs w) ∧ (t.core c.val).back = none ∧
        (∀ r, (s.core c.val).front = some r → (∀ j ∈ s.itemJobs w, j.no ≠ r.job) → (t.core c.val).front = some r) ∧
        (∀ r, (t.core c.val).front = some r → ∀ j ∈ s.itemJobs w, j.no ≠ r.job) ∧
        (s.Sound → clean → fits (s.item w).hdr →
          saved (s.item w).hdr (s.core c.val) t.loam.cells ∧
          ∀ x, x < s.saveBase c.val ∨ s.saveBase c.val + Config.saveLen e ≤ x → t.loam.cells.get x = s.loam.cells.get x)) ∧
    (∀ i js, (s.core c.val).saved = some (i, js) → (s.ctx w).phase = .idle → (s.core c.val).uq = [] →
      s.rangeHeld w i.hdr = false → ∃ t, exec (.preemptRestore c) s = .next t ∧ (t.ctx w).phase = .restoring ∧ t.item w = i) ∧
    (∀ i js u, (s.core c.val).saved = some (i, js) → (s.ctx w).phase = .restoring → s.restoreCore c.val i.hdr = (u, false) →
      ∃ t, exec (.preemptRestoreDone c) s = .next t ∧ (t.ctx w).phase = .running ∧ t.item w = i ∧ (t.core c.val).saved = none ∧
        (s.Sound → clean → fits i.hdr → saved i.hdr (t.core c.val) s.loam.cells ∧ t.loam = s.loam))

/-! ### Queues, pre-emption, kill and flush by register -/

/-- CLU_ENQ and CLU_CORE_CTRL from outside (R141, R157, R159): a supervisor's enqueue goes to the back of the core's queue, normal or
urgent, or is answered 0x0704 where that queue is full; a pre-emption request reaches the running normal command and is refused at the
control core; a kill aborts the running item with CMD_KILLED; a flush empties both queues. -/
def Obligations.CoreControlRegisters : Prop :=
  ∀ (p : Party) (c : Fin 5) (s : State), s.portsHeld = false → (accOf p).sup = true →
    (∀ v : Word64, v.toNat &&& (2 ^ 64 - 1 - 0x3FFFFFF) = 0 → s.enqOk c.val v.toNat = true →
      (bitAt v.toNat 25 = false → (s.core c.val).nq.length < 16 →
        ∃ t, exec (.cluEnq p c v) s = .next t ∧
          (t.core c.val).nq = (s.core c.val).nq ++ [⟨bits v.toNat 24 0, true, none⟩] ∧ (t.core c.val).uq = (s.core c.val).uq ∧
          t.out.getLast? = some (.regAnswer p 0 0) ∧ t.loam = s.loam ∧ t.syn = s.syn) ∧
      (bitAt v.toNat 25 = true → (s.core c.val).uq.length < 4 → (s.core c.val).cmd.phase ≠ .waitRange →
        ∃ t, exec (.cluEnq p c v) s = .next t ∧
          (t.core c.val).uq = (s.core c.val).uq ++ [⟨bits v.toNat 24 0, true, none⟩] ∧ (t.core c.val).nq = (s.core c.val).nq ∧
          t.out.getLast? = some (.regAnswer p 0 0) ∧ t.loam = s.loam ∧ t.syn = s.syn) ∧
      ((s.core c.val).roomFor (bitAt v.toNat 25) = false →
        ∃ t, exec (.cluEnq p c v) s = .next t ∧ t.cores = s.cores ∧ t.out.getLast? = some (.regAnswer p 0 0x0704))) ∧
    (c.val < 4 → (s.core c.val).cmd.phase = .running → (s.core c.val).cmd.item.urgent = false →
      (s.core c.val).cmd.item.abort = none → (s.core c.val).saved = none →
      ∃ t, exec (.preempt p c) s = .next t ∧ (t.core c.val).cmd.phase = .preempting ∧ t.item ⟨c, .cmd⟩ = s.item ⟨c, .cmd⟩) ∧
    (c.val = 4 → ∃ t, exec (.preempt p c) s = .next t ∧ t.cores = s.cores ∧ t.out.getLast? = some (.regAnswer p 0 0x0C01)) ∧
    ((s.core c.val).cmd.phase = .running → (s.core c.val).cmd.item.abort = none →
      ∃ t, exec (.killCmd p c) s = .next t ∧ (t.ctx ⟨c, .cmd⟩).phase = .aborting ∧ (t.item ⟨c, .cmd⟩).record.fault = 0x0705) ∧
    ((s.core c.val).hdl.phase = .running → (s.core c.val).hdl.item.abort = none →
      ∃ t, exec (.killHdl p c) s = .next t ∧ (t.ctx ⟨c, .hdl⟩).phase = .aborting ∧ (t.item ⟨c, .hdl⟩).record.fault = 0x0705) ∧
    (∃ t, exec (.flush p c) s = .next t ∧ (t.core c.val).nq = [] ∧ (t.core c.val).uq = [])


/-! ### The matrix engine and the batcher -/

/-- ARR.MMA and ARR.EMUL (R81 to R83, R151): an instruction that passes its checks joins the jobs of its core, none of its passes run, and
the item goes on; one that fails them aborts the item with that fault. When the batch rows are taken is log 49's reading, and the order in
which the chains are checked log 31's. -/
def Obligations.MatrixInstructionsIssue : Prop :=
  ∀ (w : Who) (s t : State) (len : Nat) (o : MmaOp), s.Issues w t (.mma o) len →
    let i : Instr := if o.emul then .arrEmul w else .arrMma w
    (t.mmaFault w o ≠ 0 →
      ∃ v, exec i s = .next v ∧ (v.ctx w).phase = .aborting ∧ (v.item w).record.fault = t.mmaFault w o) ∧
    (∀ u eb ab bb, t.mmaFault w o = 0 → t.mmaChains w o = (u, .ok (eb, ab, bb)) → s.itemJobs w = [] →
      (o.abatch = true → (s.bqOf o.aAddr).shipped ≠ []) →
      0 < (o.passes (s.str.live.width s.id.edgeLog2 w.core.val)).length →
      ∃ v j, exec i s = .next v ∧ (v.core w.core.val).jobs = (s.core w.core.val).jobs ++ [j] ∧ j.who = w ∧ j.op = o ∧ j.epi = eb ∧
        j.passes = (o.passes (s.str.live.width s.id.edgeLog2 w.core.val)).length ∧ j.next = 0 ∧ j.running = false ∧
        (o.abatch = true → (s.bqOf o.aAddr).shipped.head? = some j.rows) ∧
        (v.item w).off = (s.item w).off + len ∧ (v.ctx w).phase = (s.ctx w).phase ∧
        (v.core w.core.val).kaolin = (s.core w.core.val).kaolin ∧ v.loam = u.loam ∧ v.syn = s.syn)

/-- PASS_START, PASS_END, RETRY_RESTART and ARRAY_RAMP_DOWN (R87, R88, R101 to R104). One pass runs at a time; the pass that begins has its
sub-tile in the front registers, loaded now where they did not hold it, and where its load fails its item aborts; its beginning leaves
Kaolin and a clean Loam as they were. The pass that will follow it, where its sub-tile is in no register and its load is hidden, has that
sub-tile read into the back registers; where that read fails, the item of the pass behind, and no other, aborts. An error in a column in
service, and nothing else, makes the column's sums S and T differ. A pass without a mismatch leaves the instruction at its next pass; a
first mismatch asks for a restart, which goes back to the retry point; a mismatch of the re-run, or one with no retry point, marks each such
column suspect and aborts the item with ARR_RESIDUE. That ARR.EMUL and pass pairs load their registers so, and that the sums of a pass pair
are of its halves, is the model's choice (logs 8 and 12). -/
def Obligations.PassesRunAndRetry : Prop :=
  ∀ (c : Fin 4) (s : State), s.fastOn = true →
    let runs (t : State) (j : ArrJob) : Prop := ∃ k ∈ (t.core c.val).jobs, k.running = true ∧ k.op = j.op ∧ k.who = j.who ∧
      k.itemNo = j.itemNo ∧ k.no = j.no ∧ k.next = j.next
    let held (j : ArrJob) : Prop := j.op.emul = true ∨ j.heldIn (s.core c.val).front = true ∨ j.heldIn (s.core c.val).back = true
    (∀ j, (∀ k ∈ (s.core c.val).jobs, k.running = false) → s.nextJob c.val = some j →
      ((held j ∨ ∃ u r, s.statLoad j j.next = (u, .ok r)) →
        ∃ t b k, exec (.passStart c) s = .next t ∧ s.passBegun c.val j = (b, .ok k) ∧ (t.core c.val).ramp = 4 ∧
          (j.op.emul = false → j.heldIn (t.core c.val).front = true) ∧ runs b j ∧
          ((s.core c.val).kaolin.Clean → (b.core c.val).kaolin = (s.core c.val).kaolin) ∧ (s.loam.Clean → b.loam = s.loam) ∧
          (b.behind c.val k = none → t.core c.val = b.core c.val ∧ t.loam = b.loam) ∧
          ((s.core c.val).jobs = [j] → j.next + 1 = j.passes → b.behind c.val k = none) ∧
          (∀ n, b.behind c.val k = some n →
            b.jobAfter c.val k = some n ∧ n.op.emul = false ∧ n.heldIn (b.core c.val).front = false ∧ n.heldIn (b.core c.val).back = false ∧
            n.tLoad n.next ≤ k.streamLen k.next * k.op.aw ∧
            (∀ u r, b.statLoad n n.next = (u, .ok r) → runs t j ∧ (t.core c.val).back = some r) ∧
            (∀ u e, b.statLoad n n.next = (u, .bad e) → (s.ctx n.who).canBear = true →
              (t.ctx n.who).phase = .aborting ∧ (t.item n.who).record.fault = e ∧ (n.who ≠ j.who → runs t j)))) ∧
      (∀ u e, ¬ held j → s.statLoad j j.next = (u, .bad e) → (s.ctx j.who).canBear = true →
        ∃ t, exec (.passStart c) s = .next t ∧ (t.ctx j.who).phase = .aborting ∧ (t.item j.who).record.fault = e)) ∧
    (∀ j, (s.core c.val).jobs.find? (·.running) = some j → ∃ t, exec (.passStart c) s = .next t ∧ t = s) ∧
    (∀ (u : State) j x err a b, differing (u.residues c.val j x err a b) = u.inService c.val err) ∧
    (∀ j x err, columnsOk err = true → (s.core c.val).jobs.find? (·.running) = some j → (j.op.passes j.width)[j.next]? = some x →
      (∀ u e, s.passRows j x (decide (j.top ≤ j.next)) = (u, .bad e) → (s.ctx j.who).canBear = true →
        ∃ t, exec (.passEnd c err) s = .next t ∧ (t.ctx j.who).phase = .aborting ∧ (t.item j.who).record.fault = e) ∧
      (∀ u a b, s.passRows j x (decide (j.top ≤ j.next)) = (u, .ok (a, b)) →
        let v := u.holdSums c.val (u.residues c.val j x err a b)
        (s.inService c.val err = [] → j.next + 1 < j.passes →
          (x.low = true ∨ ∃ y, v.addPass j x (decide (j.top ≤ j.next)) a b = (y, .ok ())) →
          ∃ t, exec (.passEnd c err) s = .next t ∧ ∃ k ∈ (t.core c.val).jobs, k.op = j.op ∧ k.no = j.no ∧ k.next = j.next + 1 ∧ k.running = false) ∧
        (s.inService c.val err ≠ [] → j.retryPoint ≠ .nowhere → j.retryAt = none → ∀ y, v.restoreGrid c.val j = (y, 0) →
          ∃ t, exec (.passEnd c err) s = .next t ∧
            ∃ k ∈ (t.core c.val).jobs, k.op = j.op ∧ k.no = j.no ∧ k.next = j.next ∧ k.running = false ∧ k.restart = true ∧ k.retryAt = some j.next) ∧
        (s.inService c.val err ≠ [] → (j.retryPoint = .nowhere ∨ j.retryAt.isSome = true) → (s.ctx j.who).canBear = true →
          ∃ t, exec (.passEnd c err) s = .next t ∧ (t.ctx j.who).phase = .aborting ∧ (t.item j.who).record.fault = 0x0403 ∧
            ∀ k ∈ s.inService c.val err, k ∈ (t.core c.val).suspect))) ∧
    (∀ j l r, (s.core c.val).jobs = l ++ j :: r → (∀ k ∈ l, k.restart = false) → j.restart = true →
      ∃ t, exec (.retryRestart c) s = .next t ∧ (t.core c.val).jobs = l ++ { j with restart := false, next := j.base } :: r ∧
        (t.core c.val).kaolin = (s.core c.val).kaolin) ∧
    ((∀ k ∈ (s.core c.val).jobs, k.running = false) → s.nextJob c.val = none → 0 < (s.core c.val).ramp →
      ∃ t, exec (.arrayRampDown c) s = .next t ∧ (t.core c.val).ramp = (s.core c.val).ramp - 1 ∧
        (t.core c.val).jobs = (s.core c.val).jobs)

/-- ARR.BQPUSH, ARR.BQRELEASE and a batch's deadline (R96 to R98): a push below CAP joins the filling buffer and, where it asks, stores the
row's index and the batch's number; the push of the CAP-th row and the deadline ship the buffer, count it and arrive at its counter; a push
of the same drone tick as the deadline still joins the batch that the deadline shipped, where that has room and does not stream yet; a
release drops the oldest shipped buffer. -/
def Obligations.BatchQueues : Prop :=
  ∀ (w : Who) (s t : State) (len : Nat),
    (∀ q row ret u, s.Issues w t (.bqpush q row ret) len → (s.bqOf q).en = true → s.itemJobs w = [] →
      let place : Nat × Word32 := match s.joinable q with
        | some l => (l.length, (s.bqOf q).seq)
        | none => ((s.bqOf q).fill.length, (s.bqOf q).seq + 1)
      ((ret = 0xFFFFFFFF ∧ u = t) ∨ (ret ≠ 0xFFFFFFFF ∧ ret % 8 = 0 ∧ t.itemFault w true ret 8 = 0 ∧
        (t.noteWrote w ret 8).loamWrite (corePort w.core.val) ret (leBytes 4 place.1 ++ leBytes 4 place.2.toNat) = (u, 0))) →
      (∀ l, s.joinable q = some l →
        ∃ v, exec (.arrBqpush w) s = .next v ∧ (v.item w).off = (s.item w).off + len ∧ v.loam = u.loam ∧ (v.bqOf q).fill = (s.bqOf q).fill ∧
          (v.bqOf q).shipped = (s.bqOf q).shipped.dropLast ++ [l ++ [row]] ∧ (v.bqOf q).seq = (s.bqOf q).seq ∧ v.syn = s.syn) ∧
      (s.joinable q = none → (s.bqOf q).shipped.length < 2 →
        ∃ v, exec (.arrBqpush w) s = .next v ∧ (v.item w).off = (s.item w).off + len ∧ v.loam = u.loam ∧
          ((s.bqOf q).fill.length < (s.bqOf q).capM1 →
            (v.bqOf q).fill = (s.bqOf q).fill ++ [row] ∧ (v.bqOf q).shipped = (s.bqOf q).shipped ∧ (v.bqOf q).seq = (s.bqOf q).seq) ∧
          ((s.bqOf q).capM1 ≤ (s.bqOf q).fill.length →
            (v.bqOf q).fill = [] ∧ (v.bqOf q).shipped = (s.bqOf q).shipped ++ [(s.bqOf q).fill ++ [row]] ∧
            (v.bqOf q).seq = (s.bqOf q).seq + 1 ∧ (s.scBad (s.bqOf q).notify = false → v.sc (s.bqOf q).notify = s.sc (s.bqOf q).notify + 1)))) ∧
    (∀ q, s.Issues w t (.bqrelease q) len → (s.bqOf q).shipped ≠ [] → s.itemJobs w = [] →
      ∃ v, exec (.arrBqrelease w) s = .next v ∧ (v.bqOf q).shipped = (s.bqOf q).shipped.drop 1 ∧ (v.bqOf q).fill = (s.bqOf q).fill ∧
        (v.item w).off = (s.item w).off + len ∧ v.loam = t.loam) ∧
    (∀ q, s.Issues w t (.bqrelease q) len → (s.bqOf q).shipped = [] →
      ∃ v, exec (.arrBqrelease w) s = .next v ∧ (v.ctx w).phase = .aborting ∧ (v.item w).record.fault = 0x0404) ∧
    (∀ q : Fin 16, s.fastOn = true → (s.bqOf q.val).fill ≠ [] → (s.bqOf q.val).openTick + (s.bqOf q.val).deadline * 10 ≤ s.ticks →
      ∃ v, exec (.bqDeadlineShip q) s = .next v ∧ (v.bqOf q.val).fill = [] ∧
        (v.bqOf q.val).shipped = (s.bqOf q.val).shipped ++ [(s.bqOf q.val).fill] ∧ (v.bqOf q.val).seq = (s.bqOf q.val).seq + 1 ∧
        (s.scBad (s.bqOf q.val).notify = false → v.sc (s.bqOf q.val).notify = s.sc (s.bqOf q.val).notify + 1) ∧ v.loam = s.loam)

/-- One contribution to an accumulator, and what a pass leaves (R76 to R78, R81, R84). An INT32 accumulator takes the sum and stops at the
ends of its range. A product block contributes NaN where it meets a NaN, an infinity a zero, or infinities of both signs; else infinity
where it meets one; else the sum of its products. An FP32 accumulator that is a NaN stays as it is, a contributed NaN or the opposite
infinity makes it the NaN 0x7FC00000, which counts, and an infinity stays under what else comes; else it becomes the finite value nearest
the exact sum, the even one of two as near, with the sum's sign, infinite from 2^128 - 2^103 on, and +0 where the sum is zero. That the zero
an infinity meets is a decoded integer 0 is the model's choice (log 81). A pass that is not the low half of a pair gives each accumulator of
its rows and columns its contributions in order, from the starting value that INIT gives in the first chunk and else from what it held, and
changes no other byte of Kaolin but padding, which is undefined (R50). The conversions (R79, R80, R116): FP32 becomes the nearest integer
brought into the range, the nearest BF16 and FP16, and, block by block, the nearest element codes under the exponent of the largest
magnitude; a block or INT code reads as its integer by its quantum, rounded once; that a negative value which rounds to zero keeps its sign
in an MX code is the model's choice (log 88). -/
def Obligations.Accumulation : Prop :=
  let finite (y : Word32) : Prop := y.toNat / 2 ^ 23 % 256 ≠ 255
  let infinity (n : Bool) : Word32 := if n then 0xFF800000#32 else 0x7F800000#32
  let infinite (p : Elem × Elem) (n : Bool) : Prop := (p.1.isInf = true ∨ p.2.isInf = true) ∧ (p.1.neg != p.2.neg) = n
  let val (y : Word32) : ℚ := (if y.toNat < 2 ^ 31 then 1 else -1) *
    (if y.toNat / 2 ^ 23 % 256 = 0 then (y.toNat % 2 ^ 23 : ℕ) * (2 : ℚ) ^ (-149 : ℤ)
      else (2 ^ 23 + y.toNat % 2 ^ 23 : ℕ) * (2 : ℚ) ^ ((y.toNat / 2 ^ 23 % 256 : ℕ) - 150 : ℤ))
  let rounds (x : ℚ) (r : Word32) : Prop :=
    (|x| < 2 ^ 128 - 2 ^ 103 → finite r ∧ ∀ y, finite y → |val r - x| ≤ |val y - x| ∧ (val y ≠ val r → |val r - x| = |val y - x| → r.toNat % 2 = 0)) ∧
    (2 ^ 128 - 2 ^ 103 ≤ x → r = 0x7F800000#32) ∧ (x ≤ -(2 ^ 128 - 2 ^ 103) → r = 0xFF800000#32) ∧
    (0 < x → r.toNat < 2 ^ 31) ∧ (x < 0 → 2 ^ 31 ≤ r.toNat)
  let half (n : Int) (x : ℚ) : Prop := |(n : ℚ) - x| ≤ 1 / 2 ∧ (|(n : ℚ) - x| = 1 / 2 → n % 2 = 0)
  let mag (mb : Nat) (emin : Int) (b : Nat) : ℚ :=
    if b / 2 ^ mb = 0 then (b % 2 ^ mb : ℕ) * (2 : ℚ) ^ emin else (2 ^ mb + b % 2 ^ mb : ℕ) * (2 : ℚ) ^ ((b / 2 ^ mb : ℕ) - 1 + emin : ℤ)
  let nearest (mb : Nat) (emin : Int) (b c : Nat) (x : ℚ) : Prop :=
    |mag mb emin b - x| ≤ |mag mb emin c - x| ∧ (c ≠ b → |mag mb emin b - x| = |mag mb emin c - x| → b % 2 = 0)
  let largest (eb mb : Nat) (t : MxTop) : Nat := match t with
    | .nanOnly => 2 ^ (eb + mb) - 2
    | .ieee => (2 ^ eb - 1) * 2 ^ mb - 1
    | .numbers => 2 ^ (eb + mb) - 1
  let amax (v : Word32) : ℚ := if v.toNat / 2 ^ 23 % 256 = 255 then 2 ^ 128 - 2 ^ 104 else |val v|
  (∀ (acc : Word32) (p q : Int), -(2 ^ 31) ≤ acc.toInt + p → acc.toInt + p < 2 ^ 31 →
    (accum true acc (.fin p q)).1.toInt = acc.toInt + p ∧ (accum true acc (.fin p q)).2 = false) ∧
  (∀ (acc : Word32) (p q : Int), 2 ^ 31 ≤ acc.toInt + p →
    (accum true acc (.fin p q)).1 = 0x7FFFFFFF#32 ∧ (accum true acc (.fin p q)).2 = true) ∧
  (∀ (acc : Word32) (p q : Int), acc.toInt + p < -(2 ^ 31) →
    (accum true acc (.fin p q)).1 = 0x80000000#32 ∧ (accum true acc (.fin p q)).2 = true) ∧
  (∀ (acc : Word32) (x : Contrib), isNaN acc = true → accum false acc x = (acc, false)) ∧
  (∀ acc : Word32, isNaN acc = false → accum false acc .nan = (0x7FC00000#32, true)) ∧
  (∀ n : Bool, accum false (infinity n) (.inf n) = (infinity n, false) ∧ accum false (infinity n) (.inf !n) = (0x7FC00000#32, true) ∧
    (∀ p q, accum false (infinity n) (.fin p q) = (infinity n, false)) ∧
    ∀ acc, finite acc → accum false acc (.inf n) = (infinity n, false)) ∧
  (∀ (a b : List Elem) (q : Int),
    ((∃ p ∈ a.zip b, p.1 = .nan ∨ p.2 = .nan ∨ (p.1.isInf = true ∧ p.2 = .num 0) ∨ (p.2.isInf = true ∧ p.1 = .num 0)) →
      blockSum a b q = .nan) ∧
    ((∃ p ∈ a.zip b, infinite p true) → (∃ p ∈ a.zip b, infinite p false) → blockSum a b q = .nan) ∧
    (∀ n, (∃ p ∈ a.zip b, infinite p n) →
      (∀ p ∈ a.zip b, p.1 ≠ .nan ∧ p.2 ≠ .nan ∧ ¬ (p.1.isInf = true ∧ p.2 = .num 0) ∧ ¬ (p.2.isInf = true ∧ p.1 = .num 0) ∧ ¬ infinite p !n) →
      blockSum a b q = .inf n)) ∧
  (∀ (a b : List Int) (q : Int), blockSum (a.map .num) (b.map .num) q = .fin ((a.zip b).map fun p => p.1 * p.2).sum q) ∧
  (∀ (acc : Word32) (p q : Int), finite acc →
    let r := (accum false acc (.fin p q)).1
    let x : ℚ := val acc + p * (2 : ℚ) ^ q
    (accum false acc (.fin p q)).2 = false ∧
    (|x| < 2 ^ 128 - 2 ^ 103 → finite r ∧ ∀ y, finite y → |val r - x| ≤ |val y - x| ∧ (val y ≠ val r → |val r - x| = |val y - x| → r.toNat % 2 = 0)) ∧
    (2 ^ 128 - 2 ^ 103 ≤ x → r = 0x7F800000#32) ∧ (x ≤ -(2 ^ 128 - 2 ^ 103) → r = 0xFF800000#32) ∧
    (x = 0 → r = 0#32) ∧ (0 < x → r.toNat < 2 ^ 31) ∧ (x < 0 → 2 ^ 31 ≤ r.toNat)) ∧
  (∀ (a : Word32) (lo hi : Int), lo ≤ hi →
    (finite a → ∃ n : Int, half n (val a) ∧ fpToInt lo hi a = (max lo (min hi n), decide (n < lo ∨ hi < n))) ∧
    (isNaN a = true → fpToInt lo hi a = (0, true)) ∧ ∀ n, fpToInt lo hi (infinity n) = (if n then lo else hi, true)) ∧
  (∀ v : Int, rounds v (intToFp v) ∧ (v = 0 → intToFp v = 0#32)) ∧
  (∀ a : Word32, if isNaN a then toBf16 a = 0x7FC0 else
    65536 * toBf16 a ≤ a.toNat + 32768 ∧ a.toNat ≤ 65536 * toBf16 a + 32768 ∧
    (65536 * toBf16 a = a.toNat + 32768 ∨ a.toNat = 65536 * toBf16 a + 32768 → toBf16 a % 2 = 0)) ∧
  (∀ a : Word32,
    (finite a → ∃ b, toFp16 a = b + (if 2 ^ 31 ≤ a.toNat then 0x8000 else 0) ∧
      (|val a| < 65520 → b < 0x7C00 ∧ ∀ c < 0x7C00, nearest 10 (-24) b c |val a|) ∧ (65520 ≤ |val a| → b = 0x7C00)) ∧
    (isNaN a = true → toFp16 a = 0x7E00) ∧ ∀ n, toFp16 (infinity n) = 0x7C00 + if n then 0x8000 else 0) ∧
  (∀ (f : Fmt) (code x : Nat), f ≠ .fp32 ∧ f ≠ .bf16 ∧ f ≠ .fp16 →
    (f.hasExp = true → f.toFp32 code 0xFF = 0x7FC00000#32) ∧
    ((f.hasExp = true → x ≠ 0xFF) →
      (∀ n : Int, f.elem code = .num n →
        rounds (n * (2 : ℚ) ^ f.qSrc x) (f.toFp32 code x) ∧ (n = 0 → f.toFp32 code x = if f.negZero code then 0x80000000#32 else 0#32)) ∧
      (f.elem code = .nan → f.toFp32 code x = 0x7FC00000#32) ∧ ∀ n, f.elem code = .inf n → f.toFp32 code x = infinity n)) ∧
  (∀ (v : Word32) (x : Nat), finite v →
    (∀ k, ∃ n, half n (val v * (2 : ℚ) ^ (127 - (x : ℤ) + ((k - 1 : ℕ) : ℤ))) ∧
      (Fmt.sb k).toElement v x = (max (-(2 ^ (k - 1) - 1)) (min (2 ^ (k - 1) - 1) n) % 2 ^ k : Int).toNat) ∧
    (∃ n, half n (val v * (2 : ℚ) ^ (127 - (x : ℤ) + 6)) ∧ Fmt.mxint8.toElement v x = (max (-127) (min 127 n) % 256 : Int).toNat) ∧
    (∀ eb mb t, 0 < mb → ∃ b, (Fmt.mxf eb mb t).toElement v x = b + (if 2 ^ 31 ≤ v.toNat then 2 ^ (eb + mb) else 0) ∧ b ≤ largest eb mb t ∧
      ∀ c ≤ largest eb mb t, nearest mb (mxEmin eb mb) b c (|val v| * (2 : ℚ) ^ (127 - (x : ℤ))))) ∧
  (∀ (n : Bool) (x : Nat),
    (∀ k, (Fmt.sb k).toElement (infinity n) x = ((if n then -(2 ^ (k - 1) - 1) else 2 ^ (k - 1) - 1) % 2 ^ k : Int).toNat) ∧
    Fmt.mxint8.toElement (infinity n) x = (if n then 129 else 127) ∧
    ∀ eb mb t, (Fmt.mxf eb mb t).toElement (infinity n) x =
      largest eb mb t + (if t = .ieee then 1 else 0) + if n then 2 ^ (eb + mb) else 0) ∧
  (∀ (f : Fmt) (vs : List Word32),
    ((∃ v ∈ vs, isNaN v = true) → f.encBlock vs = (vs.map fun _ => 0, 0xFF)) ∧
    ((∀ v ∈ vs, isNaN v = false) →
      ((∀ v ∈ vs, amax v = 0) → f.encBlock vs = (vs.map fun v => f.toElement v 0, 0)) ∧
      ∀ l : Int, (∃ v ∈ vs, (2 : ℚ) ^ l ≤ amax v) → (∀ v ∈ vs, amax v < (2 : ℚ) ^ (l + 1)) →
        let e := (max 0 (min 254 (l + 127 - f.emax))).toNat
        f.encBlock vs = (vs.map fun v => f.toElement v e, e))) ∧
  (∀ (c : Fin 4) (s u : State) (j : ArrJob) (x : Pass) (err : List Nat) (ad bd : FmtD) (a b : List (List DecBlk)),
    let word (m : Mem) (y : Nat) : Word32 := BitVec.ofNat 32 (leNat (m.read y 4))
    let cell (i l : Nat) : Nat := gridAddr j.op.kbase j.op.m j.op.n i l
    let start (i l : Nat) : Word32 :=
      if x.k = 0 ∧ j.op.init = 0 then 0
      else if x.k = 0 ∧ j.op.init = 2 then word s.loam.cells (j.op.loadAddr + i * j.op.loadPitch + 4 * l)
      else word (s.core c.val).kaolin.cells (cell i l)
    let contributions (i l : Nat) : List Contrib :=
      if j.op.emul then ((emulContribs (a.getD i []) (b.getD i [])).drop l).take 1
      else contribs (blockSize ad bd) (a.getD i []) (b.getD (l - x.c0) [])
    let ours (i l : Nat) : Prop := x.r0 + i < x.r1 ∧ (j.op.abatch = true → x.r0 + i < j.rows.length) ∧ x.c0 ≤ l ∧ l < x.c1
    s.fastOn = true → s.Sound → s.loam.Clean → (s.core c.val).kaolin.Clean → columnsOk err = true → s.inService c.val err = [] →
    (s.core c.val).jobs.find? (·.running) = some j → j.who.core.val = c.val → (j.op.passes j.width)[j.next]? = some x → x.low = false →
    j.op.aD = some ad → j.op.bD = some bd → s.passRows j x (decide (j.top ≤ j.next)) = (u, .ok (a, b)) →
    (isHdl j.who = true → j.op.init = 2 → x.k = 0 → ∀ i l, ours i l →
      inView ((j.op.loadAddr + (x.r0 + i) * j.op.loadPitch + 4 * l) / 64) = false) →
    ∃ t, exec (.passEnd c err) s = .next t ∧
      (∀ i l, ours i l → word (t.core c.val).kaolin.cells (cell (x.r0 + i) l) =
        (contributions i l).foldl (fun acc y => (accum j.op.int32 acc y).1) (start (x.r0 + i) l)) ∧
      (∀ y, (∀ i l, ours i l → ∀ z < 4, y ≠ cell (x.r0 + i) l + z) → (∀ p ∈ padding j.op, y < p.1 ∨ p.1 + p.2 ≤ y) →
        (t.core c.val).kaolin.cells.get y = (s.core c.val).kaolin.cells.get y))


/-! ### The vector engine -/

/-- VEC.MASKLD, VEC.MASKST and VEC.STATCLR at their turn (R119, R124): a load gives the 64 entries of one mask register the bits read from
Loam and leaves the others; a store writes them in the same layout; a clear sets the 256 entries of one statistic register. An address that
is no multiple of 64 aborts the command with VEC_CHAIN. -/
def Obligations.MasksAndStatistics : Prop :=
  ∀ (w : Who) (s t : State) (len : Nat),
    (∀ m a u b, s.Issues w t (.maskld m a) len → t.vecAddrFault w false a 512 0x0501 = 0 →
      t.mustWait w { lr := [(a, 512)] } = false → t.vecTurn w = true → t.itemRead w a 512 = (u, .ok b) →
      ∃ v, exec (.vecMaskld w) s = .next v ∧
        (∀ e, e < 64 → tabGet 0 (v.core w.core.val).masks (64 * m + e) = BitVec.ofNat 64 (fieldB b (8 * e) 8)) ∧
        (∀ k, k / 64 ≠ m → tabGet 0 (v.core w.core.val).masks k = tabGet 0 (s.core w.core.val).masks k) ∧
        (v.core w.core.val).stats = (s.core w.core.val).stats ∧ (v.item w).off = (s.item w).off + len ∧ v.loam = u.loam) ∧
    (∀ m a, s.Issues w t (.maskld m a) len → a % 64 ≠ 0 →
      ∃ v, exec (.vecMaskld w) s = .next v ∧ (v.ctx w).phase = .aborting ∧ (v.item w).record.fault = 0x0501) ∧
    (∀ m a u, s.Issues w t (.maskst m a) len → t.vecAddrFault w true a 512 0x0501 = 0 →
      t.mustWait w { lw := [(a, 512)] } = false → t.vecTurn w = true →
      t.loamWrite (corePort w.core.val) a
        ((List.range 64).flatMap fun e => leBytes 8 (tabGet 0 (s.core w.core.val).masks (64 * m + e)).toNat) = (u, 0) →
      ∃ v, exec (.vecMaskst w) s = .next v ∧ v.loam = u.loam ∧ (v.core w.core.val).masks = (s.core w.core.val).masks ∧
        (v.item w).off = (s.item w).off + len) ∧
    (∀ i inf, s.Issues w t (.statclr i inf) len → t.vecTurn w = true →
      ∃ v, exec (.vecStatclr w) s = .next v ∧
        (∀ r, r < 256 → tabGet 0 (v.core w.core.val).stats (256 * i + r) = if inf then 0xFF800000#32 else 0#32) ∧
        (∀ k, k / 256 ≠ i → tabGet 0 (v.core w.core.val).stats k = tabGet 0 (s.core w.core.val).stats k) ∧
        (v.core w.core.val).masks = (s.core w.core.val).masks ∧ (v.item w).off = (s.item w).off + len ∧ v.loam = t.loam)

/-- VEC.SIDE and VEC.ROWCLOSE at their turn (R132, R133): COPY writes STAT a to the side vector; LSE also folds the tile into the pair STAT
c, STAT d, entry by entry; a row close writes the final vector and, for RMS, leaves the side vectors; a count of 0 or above 4,096 aborts the
command with VEC_ROWCLOSE. -/
def Obligations.SideVectors : Prop :=
  ∀ (w : Who) (s t : State) (len : Nat),
    (∀ lse a b c d p u, s.Issues w t (.side lse a b c d p) len → t.vecAddrFault w true p 1024 0x0501 = 0 →
      t.mustWait w { lw := [(p, 1024)] } = false → t.vecTurn w = true →
      (t.noteWrote w p 1024).loamWrite (corePort w.core.val) p (statBytes ((s.core w.core.val).statRow a)) = (u, 0) →
      ∃ v, exec (.vecSide w) s = .next v ∧ v.loam = u.loam ∧ (v.item w).off = (s.item w).off + len ∧
        (lse = false → (v.core w.core.val).stats = (s.core w.core.val).stats) ∧
        (lse = true → c ≠ d → ∀ r, r < 256 →
          (tabGet 0 (v.core w.core.val).stats (256 * c + r), tabGet 0 (v.core w.core.val).stats (256 * d + r)) =
            lseFold (tabGet 0 (s.core w.core.val).stats (256 * c + r)) (tabGet 0 (s.core w.core.val).stats (256 * d + r))
              (tabGet 0 (s.core w.core.val).stats (256 * a + r)) (tabGet 0 (s.core w.core.val).stats (256 * b + r)))) ∧
    (∀ c d n side fin x y, s.Issues w t (.rowclose false c d n side fin x y) len → t.rowcloseFault w false n side fin = 0 →
      t.mustWait w { lr := [(side, 1024 * n)], lw := [(fin, 1024)] } = false → t.vecTurn w = true →
      ∀ u v sum, rmsSum w side n 0 (List.replicate 256 0#32) t = (u, .ok sum) →
        (u.noteWrote w fin 1024).loamWrite (corePort w.core.val) fin (statBytes (sum.map fun z => fRsqrt (fAdd (fMul z x) y))) = (v, 0) →
        ∃ r, exec (.vecRowclose w) s = .next r ∧ r.loam = v.loam ∧ (r.item w).off = (s.item w).off + len) ∧
    (∀ c d n side fin x y, s.Issues w t (.rowclose true c d n side fin x y) len → t.rowcloseFault w true n side fin = 0 →
      t.mustWait w { lr := [(side, 1024 * n)], lw := [(fin, 1024), (side, 1024 * n)] } = false → t.vecTurn w = true →
      let f := List.zipWith (fun m l => fAdd m (fLog2 l)) ((s.core w.core.val).statRow c) ((s.core w.core.val).statRow d)
      ∀ u v, ((t.noteWrote w side (1024 * n)).noteWrote w fin 1024).loamWrite (corePort w.core.val) fin (statBytes f) = (u, 0) → lseCorrect w side f n 0 u = (v, 0) →
        ∃ r, exec (.vecRowclose w) s = .next r ∧ r.loam = v.loam ∧ (r.item w).off = (v.item w).off + len) ∧
    (∀ lse c d n side fin x y, s.Issues w t (.rowclose lse c d n side fin x y) len → (n = 0 ∨ 4096 < n) →
      ∃ v, exec (.vecRowclose w) s = .next v ∧ (v.ctx w).phase = .aborting ∧ (v.item w).record.fault = 0x0502)

/-- VEC.CHAIN and the epilogues (R125, R126, R138, R139, R153): a chain whose fields, source and descriptor pass runs its 256 × 256 blocks
one after another, each at its turn, and after the last the item goes on; a source kind or a source format that does not suit, a size of 0
and a descriptor that is not aligned abort with VEC_CHAIN; one tile of an epilogue runs at a time, the oldest complete one first; and where
the handler has vector work that is ready, a command's block and tile wait. A block and a tile as one step each, and what counts as ready,
are the model's choice (log 8).

The stages (R112, R113, R116 to R118, R120, R121, R124, R129): a segment passes its stages in order; a stage forms each FP element's exact
sum, difference, product or product and sum and rounds it once, subnormals kept, with the zeros, NaN and infinities of R117; MAX, MIN and
CLAMP give the larger or smaller value, SEL the chosen operand's bits; RCP and RSQRT round the exact result once, EXP2 of an integer and
LOG2 of a power of two are that power and that logarithm rounded once, with the special cases of R118 (what EXP2 and LOG2 give elsewhere
rests on log 11, and no clause says it); an integer stage clamps to 32 bits, and a clamp that changes the value counts; CMP writes one mask
bit per element and no other, by value, by integers or by the position modulo 2^32, and passes the values; RRED folds the 64 lanes by the
tree of R124 into one entry and passes the values; every other stage gives its values converted to its round format. -/
def Obligations.ChainsAndEpilogues : Prop :=
  let finite (y : Word32) : Prop := y.toNat / 2 ^ 23 % 256 ≠ 255
  let infinity (n : Bool) : Word32 := if n then 0xFF800000#32 else 0x7F800000#32
  let zero (n : Bool) : Word32 := if n then 0x80000000#32 else 0#32
  let negative (y : Word32) : Prop := 2 ^ 31 ≤ y.toNat
  let nan : Word32 := 0x7FC00000#32
  let val (y : Word32) : ℚ := (if y.toNat < 2 ^ 31 then 1 else -1) *
    (if y.toNat / 2 ^ 23 % 256 = 0 then (y.toNat % 2 ^ 23 : ℕ) * (2 : ℚ) ^ (-149 : ℤ)
      else (2 ^ 23 + y.toNat % 2 ^ 23 : ℕ) * (2 : ℚ) ^ ((y.toNat / 2 ^ 23 % 256 : ℕ) - 150 : ℤ))
  let rounds (x : ℚ) (r : Word32) : Prop :=
    (|x| < 2 ^ 128 - 2 ^ 103 → finite r ∧ ∀ y, finite y → |val r - x| ≤ |val y - x| ∧ (val y ≠ val r → |val r - x| = |val y - x| → r.toNat % 2 = 0)) ∧
    (2 ^ 128 - 2 ^ 103 ≤ x → r = 0x7F800000#32) ∧ (x ≤ -(2 ^ 128 - 2 ^ 103) → r = 0xFF800000#32) ∧
    (0 < x → r.toNat < 2 ^ 31) ∧ (x < 0 → 2 ^ 31 ≤ r.toNat)
  (∀ (w : Who) (s t : State) (len : Nat),
      (∀ c f sf k blk u b x, s.Issues w t (.chain c) len →
        (((s.item w).chain = none ∧ k = 0 ∧ t.chainDecode w c = (u, .inl (f, b))) ∨
          ((s.item w).chain = some (k, b) ∧ c.fmt = some f ∧ u = t)) →
        u.mustWait w (c.foot (decodeChain b)) = false → u.vecTurn w = true → sfmtOf (decodeChain b).sfmt = some sf →
        (unitsOf c.rows c.cols)[k]? = some blk → State.endRun w (decodeChain b) (c.run w (decodeChain b) f sf blk u) c.src = (x, true) →
        ∃ v, exec (.vecChain w) s = .next v ∧ v.loam = x.loam ∧ (v.core w.core.val).kaolin = (x.core w.core.val).kaolin ∧
          (v.core w.core.val).vb = (x.core w.core.val).vb ∧
          (k + 1 < (unitsOf c.rows c.cols).length → (v.item w).off = (x.item w).off ∧ (v.item w).chain = some (k + 1, b)) ∧
          (k + 1 = (unitsOf c.rows c.cols).length → (v.item w).off = (x.item w).off + len ∧ (v.item w).chain = none)) ∧
      (∀ c, s.Issues w t (.chain c) len → (s.item w).chain = none →
        (c.srck = 3 ∨ c.rows = 0 ∨ c.cols = 0 ∨ (c.srck = 2 ∧ c.sfmt ≠ 0x28 ∧ c.sfmt ≠ 0x30) ∨ (c.sfmt ≠ 0x30 ∧ fmtD c.sfmt = none) ∨
          c.desc % 16 ≠ 0) →
        ∃ v, exec (.vecChain w) s = .next v ∧ (v.ctx w).phase = .aborting ∧ (v.item w).record.fault = 0x0501) ∧
      (∀ c k b, s.Issues w t (.chain c) len → (s.item w).chain = some (k, b) → c.fmt.isSome = true → isHdl w = false → t.hdlVec w.core = true →
        exec (.vecChain w) s = .next s) ∧
      (∀ j n ns x, s.fastOn = true → (s.item w).abort = none →
        (s.core w.core.val).jobs.find? (fun j => j.who == w && (!j.tiles.isEmpty && j.retryAt.isNone && !j.restart)) = some j →
        j.tiles = n :: ns →
        (isHdl w = true ∨ ((s.core w.core.val).cmd.phase = .running ∧ s.hdlVec w.core = false)) →
        s.epilogue w j.op (decodeChain j.epi) ((gridTiles j.op.m j.op.n).getD n (0, 0)).1 ((gridTiles j.op.m j.op.n).getD n (0, 0)).2 = (x, true) →
        ∃ v, exec (.epilogueTile w) s = .next v ∧ v.loam = x.loam ∧ (v.core w.core.val).kaolin = (x.core w.core.val).kaolin ∧
          (v.core w.core.val).vb = (x.core w.core.val).vb) ∧
      (isHdl w = false → s.hdlVec w.core = true → exec (.epilogueTile w) s = .next s)) ∧
  (∀ (t : Stage) (a b : Word32) (bit : Bool) (z : Word32), stageVal t (.fp a) (.fp b) bit = (.fp z, false) →
    (t.op = 7 → z = if bit then b else a) ∧
    ((t.op = 1 ∨ t.op = 2 ∨ t.op = 3 ∨ t.op = 4 ∨ t.op = 5 ∨ t.op = 0xE) → isNaN a = true ∨ isNaN b = true → z = nan) ∧
    (t.op = 3 → isNaN t.immB = true → z = nan) ∧ (t.op = 0xC → isNaN a = true → z = nan) ∧
    (finite a → finite b →
      (t.op = 1 → t.sub % 2 = 0 → rounds (val a + val b) z ∧ (val a + val b = 0 → z = zero (decide (a = zero true ∧ b = zero true)))) ∧
      (t.op = 1 → t.sub % 2 = 1 → rounds (val a - val b) z ∧ (val a - val b = 0 → z = zero (decide (a = zero true ∧ b = zero false)))) ∧
      (t.op = 2 ∨ t.op = 0xE → rounds (val a * val b) z ∧ (val a * val b = 0 → z = zero (decide (negative a ↔ ¬ negative b)))) ∧
      (t.op = 3 → finite t.immB → rounds (val a * val b + val t.immB) z ∧ (val a * val b + val t.immB = 0 →
        z = zero (decide (val a * val b = 0 ∧ (negative a ↔ ¬ negative b) ∧ t.immB = zero true)))) ∧
      (t.op = 4 → z = if val a < val b then b else if val b < val a then a else if negative a then b else a) ∧
      (t.op = 5 → z = if val a < val b then a else if val b < val a then b else if negative a then a else b) ∧
      (t.op = 0xC → finite t.immA → finite t.immB → val z = min (max (val a) (val t.immA)) (val t.immB))) ∧
    (t.op = 1 → t.sub % 2 = 0 → ∀ n, (a = infinity n → b = infinity n → z = infinity n) ∧ (a = infinity n → b = infinity (!n) → z = nan) ∧
      (a = infinity n → finite b → z = infinity n) ∧ (b = infinity n → finite a → z = infinity n)) ∧
    (t.op = 2 ∨ t.op = 0xE → ∀ n, (a = infinity n → finite b → z = if val b = 0 then nan else infinity (n != decide (negative b))) ∧
      (b = infinity n → finite a → z = if val a = 0 then nan else infinity (n != decide (negative a))) ∧
      ∀ k, a = infinity n → b = infinity k → z = infinity (n != k)) ∧
    (t.op = 3 → ∀ n, (finite a → finite b → t.immB = infinity n → z = infinity n) ∧
      (a = infinity n → finite b → val b = 0 → z = nan) ∧ (b = infinity n → finite a → val a = 0 → z = nan) ∧
      (a = infinity n → finite b → val b ≠ 0 → let p := n != decide (negative b)
        (finite t.immB ∨ t.immB = infinity p → z = infinity p) ∧ (t.immB = infinity (!p) → z = nan)))) ∧
  (∀ (t : Stage) (a : Word32) (y : Val) (bit : Bool) (z : Word32), stageVal t (.fp a) y bit = (.fp z, false) →
    (8 ≤ t.op → t.op ≤ 0xB → isNaN a = true → z = nan) ∧
    (t.op = 8 → (a = infinity false → z = infinity false) ∧ (a = infinity true → z = zero false) ∧
      (finite a → (val a = 0 → z = 0x3F800000#32) ∧ (512 ≤ val a → z = infinity false) ∧ (val a ≤ -512 → z = zero false) ∧
        ∀ n : Int, val a = n → -512 < n → n < 512 → rounds ((2 : ℚ) ^ n) z)) ∧
    (t.op = 9 → (a = infinity false → z = infinity false) ∧ (a = infinity true → z = nan) ∧
      (finite a → (val a = 0 → z = infinity true) ∧ (val a < 0 → z = nan) ∧ ∀ n : Int, val a = (2 : ℚ) ^ n → rounds n z)) ∧
    (t.op = 0xA → (∀ n, a = infinity n → z = zero n) ∧
      (finite a → (val a = 0 → z = infinity (decide (negative a))) ∧ (val a ≠ 0 → rounds (1 / val a) z))) ∧
    (t.op = 0xB → (a = infinity false → z = zero false) ∧ (a = infinity true → z = nan) ∧
      (finite a → (val a = 0 → z = infinity (decide (negative a))) ∧ (val a < 0 → z = nan) ∧
        (0 < val a → (∃ x, 0 < x ∧ x ^ 2 * val a = 1 ∧ rounds x z) ∨
          ∃ l h, 0 < l ∧ l ^ 2 * val a < 1 ∧ 1 < h ^ 2 * val a ∧ ∀ x, l < x → x < h → rounds x z)))) ∧
  (∀ (t : Stage) (a b : Word32) (bit : Bool), ∃ z, stageVal t (.fp a) (.fp b) bit = (.fp z, false)) ∧
  (∀ (t : Stage) (a b : Int) (bit : Bool) (v : Int),
    ((t.op = 1 ∧ t.sub % 2 = 0 ∧ v = a + b) ∨ (t.op = 1 ∧ t.sub % 2 = 1 ∧ v = a - b) ∨ (t.op = 2 ∧ v = a * b) ∨
      (t.op = 3 ∧ v = a * b + t.immB.toInt) ∨ (t.op = 4 ∧ v = max a b) ∨ (t.op = 5 ∧ v = min a b) ∨ (t.op = 7 ∧ v = if bit then b else a) ∨
      (t.op = 0xC ∧ v = min (max a t.immA.toInt) t.immB.toInt)) →
    stageVal t (.int a) (.int b) bit = (.int (max (-(2 ^ 31)) (min (2 ^ 31 - 1) v)), decide (v < -(2 ^ 31) ∨ 2 ^ 31 - 1 < v))) ∧
  (∀ a b : Int, cmpVal 0 (.int a) (.int b) = decide (a = b) ∧ cmpVal 1 (.int a) (.int b) = decide (a ≠ b) ∧
    cmpVal 2 (.int a) (.int b) = decide (a < b) ∧ cmpVal 3 (.int a) (.int b) = decide (a ≤ b) ∧ cmpVal 4 (.int a) (.int b) = decide (b < a) ∧
    cmpVal 5 (.int a) (.int b) = decide (b ≤ a) ∧ cmpVal 6 (.int a) (.int b) = false) ∧
  (∀ a b : Word32,
    (finite a → finite b → cmpVal 0 (.fp a) (.fp b) = decide (val a = val b) ∧ cmpVal 1 (.fp a) (.fp b) = decide (val a ≠ val b) ∧
      cmpVal 2 (.fp a) (.fp b) = decide (val a < val b) ∧ cmpVal 3 (.fp a) (.fp b) = decide (val a ≤ val b) ∧
      cmpVal 4 (.fp a) (.fp b) = decide (val b < val a) ∧ cmpVal 5 (.fp a) (.fp b) = decide (val b ≤ val a) ∧ cmpVal 6 (.fp a) (.fp b) = false) ∧
    ∀ sub, isNaN a = true ∨ isNaN b = true → cmpVal sub (.fp a) (.fp b) = decide (sub = 1 ∨ sub = 6)) ∧
  (∀ (t : Stage) (i j : Nat),
    cmpPos t i j = cmpVal t.sub (.int (((j : Int) + t.immB.toInt - i).bmod (2 ^ 32))) (.int t.immA.toInt)) ∧
  (∀ (sub : Nat) (xs : List Word32), xs.length ≤ 64 → ∃ node : Nat → Nat → Word32, segPartial sub xs = node 6 0 ∧
    (∀ l, l < 64 → node 0 l = if l < xs.length then (if sub % 4 = 2 then fMul (xs.getD l 0) (xs.getD l 0) else xs.getD l 0)
      else if sub % 4 = 1 then infinity true else zero false) ∧
    ∀ d i, node (d + 1) i = (if sub % 4 = 1 then fMax else fAdd) (node d (2 * i)) (node d (2 * i + 1))) ∧
  (∀ (s u : State) (g : Seg) (t : Stage) (int : Bool) (vs ys : List Val) (k : Nat), vs ≠ [] → vs.length ≤ 64 →
    (∀ v ∈ vs, (∃ n, v = .int n) ↔ int = true) → s.second g t int vs.length = (u, .ok (ys, k)) →
    let c := g.w.core.val
    let x (l : Nat) : Val := vs.getD l (.int 0)
    let y (l : Nat) : Val := ys.getD l (.int 0)
    let place (l : Nat) : Nat × Nat := if t.tile then (g.i % 64, (g.j + l) % 64) else (g.n % 64, l)
    let mask (v : State) (p : Nat × Nat) : Bool := (tabGet 0 (v.core c).masks (64 * t.mask + p.1)).getLsbD p.2
    let out := (List.range vs.length).map fun l => stageVal t (x l) (y l) (mask u (place l))
    (t.op = 6 → ∃ v, s.runStage g t vs = (v, .ok vs) ∧
      (∀ l, l < vs.length → mask v (place l) = if t.src2 = 6 then cmpPos t g.i (g.j + l) else cmpVal t.sub (x l) (y l)) ∧
      (∀ p, (∀ l, l < vs.length → p ≠ place l) → mask v p = mask u p) ∧ (v.core c).stats = (u.core c).stats ∧ v.loam = u.loam) ∧
    (t.op = 0xF → ∃ v, s.runStage g t vs = (v, .ok vs) ∧ (v.core c).masks = (u.core c).masks ∧ v.loam = u.loam ∧
      ∀ e, tabGet 0 (v.core c).stats e = if e ≠ 256 * t.stat + g.i % 256 then tabGet 0 (u.core c).stats e
        else if t.sub.testBit 2 ∧ g.first = true then segPartial t.sub (vs.map Val.toFp)
        else (if t.sub % 4 = 1 then fMax else fAdd) (tabGet 0 (u.core c).stats e) (segPartial t.sub (vs.map Val.toFp))) ∧
    (t.op ≠ 6 → t.op ≠ 0xD → t.op ≠ 0xF → ∃ v, s.runStage g t vs = (v, .ok (roundStage g.sf int t (out.map (·.1))).1) ∧
      (v.core c).masks = (u.core c).masks ∧ (v.core c).stats = (u.core c).stats ∧ v.loam = u.loam ∧
      (u.ctr.vecSat < 2 ^ 48 → v.ctr.vecSat = stick48 u.ctr.vecSat (k + out.countP (·.2) + (roundStage g.sf int t (out.map (·.1))).2)) ∧
      (u.ctr.vecNan < 2 ^ 48 → v.ctr.vecNan = stick48 u.ctr.vecNan ((List.range vs.length).countP fun l =>
        (out.getD l (.int 0, false)).1.nan && !(x l).nan && !(y l).nan && !(t.op == 3 && isNaN t.immB) && !(t.op == 0xC && (isNaN t.immA || isNaN t.immB))))) ∧
    (∀ f, t.op = 0xD → sfmtOf (t.immA.toNat % 256) = some f → ∃ v, s.runStage g t vs = (v, .ok (roundStage g.sf f.isInt t (cvtSeg f vs).1).1) ∧
      (v.core c).masks = (u.core c).masks ∧ (v.core c).stats = (u.core c).stats ∧ v.loam = u.loam)) ∧
  (∀ (f : SFmt) (t : Stage) (xs : List Word32),
    roundStage f false { t with ifmt := 1 } (xs.map Val.fp) = (xs.map Val.fp, 0) ∧
    roundStage f false { t with ifmt := 2 } (xs.map Val.fp) = (xs.map fun a => .fp (ofBf16 (toBf16 a)), 0) ∧
    (f.isInt = true → roundStage f false { t with ifmt := 0 } (xs.map Val.fp) =
      (xs.map fun a => .fp (intToFp (fpToInt f.range.1 f.range.2 a).1), xs.countP fun a => (fpToInt f.range.1 f.range.2 a).2)) ∧
    (∀ d, f = .blk d → f.isInt = false → roundStage f false { t with ifmt := 0 } (xs.map Val.fp) =
      ((d.readFp (d.encRow xs) xs.length).map Val.fp, 0))) ∧
  (∀ (f : SFmt) (t : Stage) (ns : List Int), t.ifmt = 0 → roundStage f true t (ns.map Val.int) =
    if f.isInt then (ns.map fun n => .int (max f.range.1 (min f.range.2 n)), ns.countP fun n => decide (n < f.range.1 ∨ f.range.2 < n))
    else (ns.map Val.int, 0)) ∧
  (∀ (s : State) (g : Seg) (t : Stage) (ts : List Stage) (vs : List Val), s.runStages g [] vs = (s, .ok vs) ∧
    ∀ u us, s.runStage g t vs = (u, .ok us) → s.runStages g (t :: ts) vs = u.runStages g ts us)

/-! ### The DMA engine -/

/-- DMA.ISSUE and DMA.ISSUEM (R210, R211, R214): a descriptor that passes its checks enters its channel's queue and records its item; one
that does not aborts the item with its fault; a full queue makes the instruction wait. -/
def Obligations.DescriptorsAreIssued : Prop :=
  ∀ (w : Who) (s t : State) (len ch : Nat) (d : Desc),
    (∀ b, s.Issues w t (.dma ch b) len → d = decodeDesc b →
      (descFault t w.core.val ch d ≠ 0 →
        ∃ v, exec (.dmaIssue w) s = .next v ∧ (v.ctx w).phase = .aborting ∧ (v.item w).record.fault = descFault t w.core.val ch d) ∧
      (descFault t w.core.val ch d = 0 → t.mustWait w (d.foot t.id) = false → (s.chan ch).queue.length < 8 →
        ∃ v, exec (.dmaIssue w) s = .next v ∧ (v.item w).off = (s.item w).off + len ∧ v.loam = t.loam ∧ v.syn = s.syn ∧
          (v.chan ch).queue = (s.chan ch).queue ++ [{ no := s.dma.nextNo, desc := d, who := w, itemNo := (s.item w).no }] ∧
          (v.chan ch).run = (s.chan ch).run ∧ ∀ k, k ≠ ch → v.chan k = s.chan k) ∧
      (descFault t w.core.val ch d = 0 → t.mustWait w (d.foot t.id) = false → 8 ≤ (s.chan ch).queue.length →
        ∃ v, exec (.dmaIssue w) s = .next v ∧ (v.item w).off = (s.item w).off ∧ (v.item w).blocked = some 13 ∧ v.dma = s.dma)) ∧
    (∀ a u b, s.Issues w t (.dmam ch a) len → a % 64 = 0 → t.itemFault w false a 64 = 0 → t.mustWait w { lr := [(a, 64)] } = false →
      t.itemRead w a 64 = (u, .ok b) → descFault u w.core.val ch (decodeDesc b) = 0 →
      u.mustWait w ((decodeDesc b).foot u.id) = false → (s.chan ch).queue.length < 8 →
      ∃ v, exec (.dmaIssuem w) s = .next v ∧ (v.item w).off = (s.item w).off + len ∧ v.loam = u.loam ∧ v.syn = s.syn ∧
        (v.chan ch).queue = (s.chan ch).queue ++ [{ no := s.dma.nextNo, desc := decodeDesc b, who := w, itemNo := (s.item w).no }]) ∧
    (∀ a, s.Issues w t (.dmam ch a) len → a % 64 ≠ 0 →
      ∃ v, exec (.dmaIssuem w) s = .next v ∧ (v.ctx w).phase = .aborting ∧ (v.item w).record.fault = 0x0A01)

/-- DESCRIPTOR_START (R212, R220): the head of an enabled channel starts once the one before it has issued its last read; an armed one also
needs a pulse on its line, of which it takes one. -/
def Obligations.DescriptorsStart : Prop :=
  ∀ (ch : Fin 32) (s : State) (r : DescRun) (rest : List DescRun), s.fastOn = true → (s.chan ch.val).queue = r :: rest →
    (s.chan ch.val).en = true →
    ((∀ p, (s.chan ch.val).run.getLast? = some p → p.readsDone = true) → r.desc.armed = false →
      ∃ t, exec (.descriptorStart ch) s = .next t ∧ (t.chan ch.val).queue = rest ∧
        (t.chan ch.val).run = (s.chan ch.val).run ++ [r] ∧ t.dma.ev = s.dma.ev ∧ t.loam = s.loam) ∧
    ((∀ p, (s.chan ch.val).run.getLast? = some p → p.readsDone = true) → r.desc.armed = true → 0 < s.ev r.desc.evIn →
      (s.dma.armed.find? fun k => ((s.chan k).queue.head?.map fun q => q.desc.evIn) == some r.desc.evIn) = some ch.val →
      ∃ t, exec (.descriptorStart ch) s = .next t ∧ (t.chan ch.val).queue = rest ∧
        (t.chan ch.val).run = (s.chan ch.val).run ++ [r] ∧ t.ev r.desc.evIn = s.ev r.desc.evIn - 1) ∧
    (r.desc.armed = true → s.ev r.desc.evIn = 0 → exec (.descriptorStart ch) s = .next s) ∧
    (∀ p, (s.chan ch.val).run.getLast? = some p → p.readsDone = false → exec (.descriptorStart ch) s = .next s)

/-- DMA_BEAT and SECTOR_PERFORMED (R45, R185, R197, R201, R207, R218, R224, R227): the channel that wins a beat is a ready one of the
highest priority; a read beat in the own Loam reads one sector, of which the piece joins the descriptor's buffer; a write beat issues its
bytes; a sector that is performed is written, and its byte count is added to the counter that the descriptor names. In stack memory and in
the other clusters a read beat takes its sector from the port buffer where one entry holds all of it, and otherwise sends a request,
latency-critical where the descriptor and the limit allow, for which the descriptor waits and which keeps the bytes held here; a write beat
sends its bytes, or poison where the source was poisoned, and counts a sector in flight. That the sector just read serves the next piece in
it too is the model's choice (log 14). -/
def Obligations.BeatsMoveSectors : Prop :=
  ∀ (s : State), s.fastOn = true →
    (∀ ch, s.beatChannel = some ch → s.chanReady ch = true ∧ ∀ k < 33, s.chanReady k = true → s.chanPrio k ≤ s.chanPrio ch) ∧
    (∀ ch r a n l u bs, s.beatChannel = some ch → (s.chan ch).run.find? s.descReady = some r → r.need[r.rd]? = some (a, n) →
      placeOf s.id a = .own l → s.loamRead 5 (l / 64 * 64) 64 = (u, .ok bs) →
      ∃ t, exec .dmaBeat s = .next t ∧ t.loam = u.loam ∧ r.got (a / 64) (bs.map some) (a % 64) n ∈ (t.chan ch).run ∧ (t.chan ch).writes = (s.chan ch).writes) ∧
    (∀ ch r a n l, s.beatChannel = some ch → ch ≠ 32 → (s.chan ch).run.find? s.descReady = some r → r.need[r.rd]? = none →
      (r.desc.dstPieces r.step)[r.wr]? = some (a, n) → placeOf s.id a = .own l → r.desc.mayOverlap = false →
      ∃ t, exec .dmaBeat s = .next t ∧ t.loam = s.loam ∧
        (t.chan ch).writes = (s.chan ch).writes ++ [⟨r.no, l, (r.pieceData (a - r.desc.dstAt r.step) n).1, (r.pieceData (a - r.desc.dstAt r.step) n).2⟩] ∧
        r.wrote (r.desc.dstPieces r.step).length ∈ (t.chan ch).run) ∧
    (∀ (ch : Fin 32) x rest u r, (s.chan ch.val).writes = x :: rest → x.poison = false → s.loamWrite 5 x.addr x.bytes = (u, 0) →
      (s.chan ch.val).run.find? (·.no == x.desc) = some r → (r.desc.bcEn = true → r.desc.bcClu = pkgIndex s.id → s.scBad r.desc.bcSc = false) →
      ∃ t, exec (.sectorPerformed ch) s = .next t ∧ t.loam = u.loam ∧ (t.chan ch.val).writes = rest ∧
        (r.desc.bcEn = true → r.desc.bcClu = pkgIndex s.id →
          t.sc r.desc.bcSc = s.sc r.desc.bcSc + BitVec.ofNat 32 x.bytes.length) ∧
        (r.desc.bcEn = false → t.syn = s.syn)) ∧
    (∀ ch r a n, s.beatChannel = some ch → (s.chan ch).run.find? s.descReady = some r → r.need[r.rd]? = some (a, n) →
      (∀ l, placeOf s.id a ≠ .own l) →
      (s.port.covers (a / 64) = true → ∃ t, exec .dmaBeat s = .next t ∧ t.loam = s.loam ∧ t.out = s.out ∧ t.port = s.port ∧
        r.got (a / 64) ((s.port.forward (a / 64) []).map some) (a % 64) n ∈ (t.chan ch).run ∧ (t.chan ch).writes = (s.chan ch).writes) ∧
      (s.port.covers (a / 64) = false → let crit := r.desc.latcrit && s.criticalRoom
        ∃ t, exec .dmaBeat s = .next t ∧ t.loam = s.loam ∧ t.out = s.out ++ [.memRead s.port.nextId (a / 64 * 64) crit] ∧
          t.port.txns = s.port.txns ++ [{ id := s.port.nextId, addr := a, kind := .dmaRead ch r.no (a % 64) n crit (s.port.holding (a / 64)) }] ∧
          { r with waiting := some s.port.nextId, ticks := 0 } ∈ (t.chan ch).run ∧ (t.chan ch).writes = (s.chan ch).writes)) ∧
    (∀ ch r a n, s.beatChannel = some ch → (s.chan ch).run.find? s.descReady = some r → r.need[r.rd]? = none →
      (r.desc.dstPieces r.step)[r.wr]? = some (a, n) → (∀ l, placeOf s.id a ≠ .own l) → r.desc.mayOverlap = false →
      let data := r.pieceData (a - r.desc.dstAt r.step) n
      ∃ t, exec .dmaBeat s = .next t ∧ t.loam = s.loam ∧ r.wrote (r.desc.dstPieces r.step).length ∈ (t.chan ch).run ∧
        t.port.txns = s.port.txns ++ [{ id := s.port.nextId, addr := a, kind := .dmaWrite ch r.no n }] ∧
        t.out = s.out ++ [if data.2 then .memPoison s.port.nextId (a / 64 * 64) 64
          else .memWrite s.port.nextId (a / 64 * 64) (data.1.mapIdx fun i b => (a % 64 + i, b))])

/-- DESCRIPTOR_COMPLETE and DMA_CH_CTRL (R219 to R222): a descriptor whose sectors are all performed leaves its channel, pulses its counter
and its event line, whose count stops at 255; a stopped one leaves without a pulse; clearing EN discards the queue. A pulse to a poisoned
counter is no part of this statement. -/
def Obligations.DescriptorsComplete : Prop :=
  ∀ (ch : Fin 32) (s : State),
    (∀ r, s.fastOn = true → (s.chan ch.val).run.find? (fun r => r.inFlight == 0 && (r.stopped || decide (r.desc.units ≤ r.step))) = some r →
      (r.desc.plEn = true → r.desc.plClu = pkgIndex s.id → s.scBad r.desc.plSc = false) →
      ∃ t, exec (.descriptorComplete ch) s = .next t ∧ (t.chan ch.val).run = (s.chan ch.val).run.filter (·.no != r.no) ∧ t.loam = s.loam ∧
        (r.stopped = false → r.desc.plEn = true → r.desc.plClu = pkgIndex s.id →
          t.sc r.desc.plSc = s.sc r.desc.plSc + 1) ∧
        (r.stopped = true ∨ r.desc.plEn = false → t.syn = s.syn) ∧
        (r.stopped = false → r.desc.evEn = true →
          (s.ev r.desc.evOut < 255 → t.ev r.desc.evOut = s.ev r.desc.evOut + 1) ∧ (s.ev r.desc.evOut = 255 → t.ev r.desc.evOut = 255)) ∧
        (r.stopped = true ∨ r.desc.evEn = false → t.dma.ev = s.dma.ev)) ∧
    (∀ p, s.portsHeld = false → (accOf p).sup = true →
      (∃ t, exec (.dmaChCtrlWrite p ch 1) s = .next t ∧ t.chan ch.val = { s.chan ch.val with en := true } ∧
        t.out.getLast? = some (.regAnswer p 0 0)) ∧
      ((s.chan ch.val).en = true →
        ∃ t, exec (.dmaChCtrlWrite p ch 0) s = .next t ∧ (t.chan ch.val).en = false ∧ (t.chan ch.val).queue = [] ∧
          (t.chan ch.val).run = [] ∧ (t.chan ch.val).writes = [] ∧ t.out.getLast? = some (.regAnswer p 0 0)))

/-! ### Messages -/

/-- MSG.SEND and MSG.MSEND (R168): a send that passes its checks waits for acceptance, behind the sends that wait already; one that fails
aborts its item with the first check that failed. MSG.RCLOSE advances the generation of a ring of its core (R180), and a ring that does not
exist aborts with MSG_DEST. -/
def Obligations.SendsAreIssued : Prop :=
  ∀ (w : Who) (s t : State) (len : Nat),
    (∀ c d g n a r o k, s.Issues w t (.send c d g n a r o k) len →
      let x : Send := ⟨w, 0, [d], g, n, a, c, false, 0, r, o, k⟩
      (t.sendFault x = 0 → t.mustWait w { lr := [(a, n)] } = false →
        ∃ v, exec (.msgSend w) s = .next v ∧ v.msg.sends = s.msg.sends ++ [{ x with itemNo := (s.item w).no }] ∧
          (v.item w).pend = .send ∧ (v.item w).off = (s.item w).off ∧ v.msg.credits = s.msg.credits ∧ v.loam = t.loam) ∧
      (t.sendFault x ≠ 0 →
        ∃ v, exec (.msgSend w) s = .next v ∧ (v.ctx w).phase = .aborting ∧ (v.item w).record.fault = t.sendFault x)) ∧
    (∀ d g n a m, s.Issues w t (.msend d g n a m) len →
      let x : Send := ⟨w, 0, if destClu d = 0 then maskDests d m else [], g, n, a, false, true, m, 0, 0, 0⟩
      (t.sendFault x = 0 → t.mustWait w { lr := [(a, n)] } = false →
        ∃ v, exec (.msgMsend w) s = .next v ∧ v.msg.sends = s.msg.sends ++ [{ x with itemNo := (s.item w).no }] ∧
          (v.item w).pend = .send ∧ (v.item w).off = (s.item w).off ∧ v.msg.credits = s.msg.credits ∧ v.loam = t.loam) ∧
      (t.sendFault x ≠ 0 →
        ∃ v, exec (.msgMsend w) s = .next v ∧ (v.ctx w).phase = .aborting ∧ (v.item w).record.fault = t.sendFault x)) ∧
    (∀ r, s.Issues w t (.rclose r) len →
      ((s.str.live.ring w.core.val r).isSome = true →
        ∃ v, exec (.msgRclose w) s = .next v ∧ (v.ring w.core.val r).gen = (s.ring w.core.val r).gen + 1 ∧ (v.ring w.core.val r).msgs = [] ∧
          (v.ring w.core.val r).occ = s.runningEntries w.core.val r ∧ (v.item w).off = (s.item w).off + len) ∧
      ((s.str.live.ring w.core.val r).isNone = true →
        ∃ v, exec (.msgRclose w) s = .next v ∧ (v.ctx w).phase = .aborting ∧ (v.item w).record.fault = 0x0802))

/-- SEND_ACCEPT (R169): the send that began to wait first is accepted when one of the 64 send buffers is free and its entry has a credit for
each of its entries; it takes them, its message leaves and its item goes on; without a buffer or the credits nothing changes. When a buffer
is free again is the model's choice (log 78). -/
def Obligations.SendsAreAccepted : Prop :=
  ∀ (s : State) (x : Send) (rest : List Send), s.fastOn = true → s.msg.sends = x :: rest → (s.item x.who).abort = none →
    (∀ d ∈ x.dests, s.damage.contains (.credit d) = false) →
    ((∀ d, x.dests = [d] → s.msg.bufs < 64 → entriesOf x.len ≤ s.creditAvail d → s.paced d = false →
      ∀ u p, ({ s with msg := { s.msg with sends := rest } }).itemRead x.who x.addr x.len = (u, .ok p) →
        ∃ t m, exec .sendAccept s = .next t ∧ t.msg.sends = rest ∧ (t.credit d).avail = (s.credit d).avail - entriesOf x.len ∧
          (t.credit d).out = (s.credit d).out + entriesOf x.len ∧ (∀ k, k ≠ d → t.credit k = s.credit k) ∧
          (t.item x.who).pend = .none ∧ (t.item x.who).off = (s.item x.who).off + 32 ∧ t.loam = u.loam ∧
          t.out = s.out ++ [.message m x.cmask] ∧ m.entries.length = entriesOf x.len ∧ t.msg.bufs = s.msg.bufs + 1) ∧
     (64 ≤ s.msg.bufs → exec .sendAccept s = .next s) ∧
     (∀ d, d ∈ x.dests → s.creditAvail d < entriesOf x.len → exec .sendAccept s = .next s))

/-- MESSAGE_ARRIVAL and CREDIT_RETURN (R33, R170, R171, R175 to R177): a message without COMBINE that passes the checks joins its ring and
takes its entries there; a stale one is counted and changes no ring; a full ring or a ring that does not exist discards it and the fault is
recorded. A contribution in turn is added position by position under the add rules of R117 and its credits return; one ahead of its turn is
parked in a free cell; an index or a round that does not suit, and a want of cells, discard it and its round fails. A return adds its
credits, at most to the allotment, and records its generation. -/
def Obligations.ArrivalsAreChecked : Prop :=
  (∀ (m : Frame) (s : State), frameWf m = true → s.portsHeld = false →
    let d := m.dest.toNat
    let h := decodeMHdr (m.entries.headD [])
    s.damage.contains (.ring (destCore d) (destRing d)) = false →
    (s.destHere d = true → coreOn s.str.live.coreEn (destCore d) = true → (s.str.live.ring (destCore d) (destRing d)).isSome = true →
      (h.anygen = true ∨ h.gen = (s.ring (destCore d) (destRing d)).gen.toNat) → frameOk m h = true → h.combine = false →
      (m.entries.length ≤ s.ringFree (destCore d) (destRing d) →
        ∃ t, exec (.messageArrival m) s = .next t ∧
          (t.ring (destCore d) (destRing d)).occ = (s.ring (destCore d) (destRing d)).occ + m.entries.length ∧
          (t.ring (destCore d) (destRing d)).msgs = (s.ring (destCore d) (destRing d)).msgs ++ [⟨m.entries.length, h.kind == 0, m.marked⟩] ∧
          t.out = s.out ∧ t.core (destCore d) = { s.core (destCore d) with sleepSaving := false, idleTicks := 0 } ∧
          ∀ k, k ≠ destCore d → t.core k = s.core k) ∧
      (s.ringFree (destCore d) (destRing d) < m.entries.length →
        ∃ t, exec (.messageArrival m) s = .next t ∧ t.msg.rings = s.msg.rings ∧ t.msg.refFault = 0x0804 ∧ t.msg.refTag = h.tag ∧ t.loam = s.loam)) ∧
    (s.destHere d = true → coreOn s.str.live.coreEn (destCore d) = true → (s.str.live.ring (destCore d) (destRing d)).isSome = true →
      h.anygen = false → h.gen ≠ (s.ring (destCore d) (destRing d)).gen.toNat →
      ∃ t, exec (.messageArrival m) s = .next t ∧ t.msg = s.msg ∧ t.ctr.msgStale = stick48 s.ctr.msgStale 1 ∧ t.loam = s.loam) ∧
    ((s.str.live.ring (destCore d) (destRing d)).isNone = true →
      ∃ t, exec (.messageArrival m) s = .next t ∧ t.msg.rings = s.msg.rings ∧ t.msg.refFault = 0x0802 ∧ t.loam = s.loam) ∧
    (∀ e, s.destHere d = true → coreOn s.str.live.coreEn (destCore d) = true → (s.str.live.ring (destCore d) (destRing d)).isSome = true →
      (h.anygen = true ∨ h.gen = (s.ring (destCore d) (destRing d)).gen.toNat) → frameOk m h = true → h.combine = true →
      s.damage.contains (.handler h.tag) = false → s.str.live.handler h.tag = some e → e.combine = true → e.core = destCore d →
      e.ring = destRing d → (e.sup = true → h.priv = true) → (∀ p ∈ s.msg.parked, p.slot ≠ e.slot) →
      let x := s.slot e.slot
      let ahead : Prop := h.round = (x.round + 1) % 256 ∧ x.nextSeen.contains h.cidx = false ∨
        h.round = x.round ∧ x.failCur = false ∧ x.delivering = false ∧ x.seen.contains h.cidx = false ∧ h.cidx ≠ x.next
      let returned (o : List Output) (t : State) : Prop := ∃ k r, t.out = s.out ++ o ++ [.credit k r] ∧ r.count.toNat = m.entries.length
      (h.round = x.round → h.cidx = x.next → h.cidx < e.expect → x.delivering = false → x.failCur = false → x.seen.contains h.cidx = false →
        x.flips = [] →
        ∃ t, exec (.messageArrival m) s = .next t ∧ returned [] t ∧ (t.slot e.slot).round = x.round ∧ (t.slot e.slot).next = x.next + 1 ∧
          (t.slot e.slot).count = x.count + 1 ∧ (t.slot e.slot).delivering = decide (e.expect ≤ x.count + 1) ∧
          t.msg.parked = s.msg.parked ∧ t.msg.rings = s.msg.rings ∧ t.loam = s.loam ∧
          ∀ i, tabGet 0 (t.slot e.slot).vals i = if h.offset ≤ i ∧ i < h.offset + h.len / 4
            then fAdd (tabGet 0 x.vals i) (BitVec.ofNat 32 (fieldB (payloadOf m.entries h.len) (4 * (i - h.offset)) 4)) else tabGet 0 x.vals i) ∧
      (∀ k, ahead → h.cidx < e.expect → s.freeCell = some k →
        ∃ t, exec (.messageArrival m) s = .next t ∧ t.msg.parked = s.msg.parked ++ [⟨k, e.slot, h.round, h.cidx, m.entries.length, m.marked⟩] ∧
          (t.slot e.slot).vals = x.vals ∧ (t.slot e.slot).next = x.next ∧ (t.slot e.slot).count = x.count ∧ t.msg.rings = s.msg.rings ∧
          t.out = s.out) ∧
      (∀ code, (code = 0x0808 ∧ ahead ∧ h.cidx < e.expect ∧ s.freeCell = none ∨
          code = 0x0807 ∧ (e.expect ≤ h.cidx ∨ h.round ≠ x.round ∧ h.round ≠ (x.round + 1) % 256 ∨ h.round = x.round ∧ (x.seen.contains h.cidx = true ∨ x.delivering = true) ∨
            h.round = (x.round + 1) % 256 ∧ x.nextSeen.contains h.cidx = true)) →
        ∃ t, exec (.messageArrival m) s = .next t ∧ returned [.attention] t ∧ t.msg.refFault = code ∧ t.msg.refTag = h.tag ∧
          (t.slot e.slot).vals = x.vals ∧ (t.slot e.slot).next = x.next ∧ t.msg.rings = s.msg.rings ∧ t.loam = s.loam ∧
          (h.round = x.round → x.delivering = false → (t.slot e.slot).failCur = true ∧ (t.slot e.slot).count = x.count + 1) ∧
          (h.round = (x.round + 1) % 256 → (t.slot e.slot).failNext = true ∧ (t.slot e.slot).nextNum = x.nextNum + 1)))) ∧
  (∀ (r : CreditRet) (s : State) (e : CreditEnt), s.portsHeld = false → s.str.live.credit r.dest.toNat = some e → r.echo = false →
    ∃ t, exec (.creditReturn r) s = .next t ∧
      (t.credit r.dest.toNat).avail = min e.allot ((s.credit r.dest.toNat).avail + r.count.toNat) ∧
      (∀ g, r.gen = some g → (t.credit r.dest.toNat).gen = some g) ∧
      (r.gen = none → (t.credit r.dest.toNat).gen = (s.credit r.dest.toNat).gen) ∧
      (∀ k, k ≠ r.dest.toNat → t.credit k = s.credit k) ∧ t.msg.rings = s.msg.rings ∧ t.loam = s.loam)

/-- HANDLER_DISPATCH, COMBINE_DELIVERY and STATUS_ENTRY (R172, R178, R181): an idle handler context takes the next message of its rings and
its item waits for issue; a finished round takes its entries of its ring and the slot starts the next round; a status entry takes one entry
of its ring, or is dropped and counted where its tag names no handler. -/
def Obligations.RingsAreServed : Prop :=
  (∀ (c : Fin 5) (s u : State) (r : Nat) (m : RingMsg) (ms : List RingMsg) (b : List Byte), s.fastOn = true →
    (s.core c.val).hdl.phase = .idle → (s.core c.val).asleep = false → coreOn s.str.live.coreEn c.val = true →
    (∀ k, s.damage.contains (.ring c.val k) = false) → s.nextRing c.val = some r → (s.ring c.val r).msgs = m :: ms →
    ((s.setRing c.val r { s.ring c.val r with msgs := ms }).modCore c.val fun y => { y with lastRing := r }).loamRead 6
      (s.ringAddr c.val r (s.ring c.val r).rd) 64 = (u, .ok b) →
    u.dispatchFault c.val r (decodeMHdr b) = 0 →
    ∃ t, exec (.handlerDispatch c) s = .next t ∧ (t.core c.val).hdl.phase = .issuing ∧
      (t.core c.val).hdl.item.msg = some ⟨r, m.entries, (s.ring c.val r).rd, b.take 16, m.marked⟩ ∧
      (t.ring c.val r).msgs = ms ∧ (t.ring c.val r).occ = (s.ring c.val r).occ ∧ (t.core c.val).lastRing = r ∧
      (t.core c.val).cmd = (s.core c.val).cmd ∧ t.loam = u.loam) ∧
  (∀ (n : Fin 512) (s : State) (e : HEntry), s.fastOn = true → (s.slot n.val).delivering = true →
    s.str.live.handler (s.slot n.val).tag = some e → e.combine = true → e.slot = n.val →
    (∀ p ∈ s.msg.parked, p.slot ≠ n.val) → (s.slot n.val).flips = [] → s.damage.contains (.ring e.core e.ring) = false →
    let bytes := if (s.slot n.val).failCur then 8 else 4 * (s.slot n.val).len
    entriesOf bytes ≤ s.ringFree e.core e.ring →
    ∃ t, exec (.combineDelivery n) s = .next t ∧ (t.slot n.val).round = ((s.slot n.val).round + 1) % 256 ∧ (t.slot n.val).next = 0 ∧
      (t.ring e.core e.ring).occ = (s.ring e.core e.ring).occ + entriesOf bytes ∧
      (t.ring e.core e.ring).msgs = (s.ring e.core e.ring).msgs ++ [⟨entriesOf bytes, false, false⟩]) ∧
  (∀ (i : Nat) (s : State) (e : StatusEnt), s.fastOn = true → s.msg.status[i]? = some e →
    (∀ h, s.str.live.handler (tabGet 0 s.msg.statusTag e.core) = some h → h.core = e.core → h.combine = false → s.damage.contains (.ring h.core h.ring) = false →
      0 < s.ringFree h.core h.ring →
      ∃ t, exec (.statusEntry i) s = .next t ∧ t.msg.status = s.msg.status.eraseIdx i ∧
        (t.ring h.core h.ring).occ = (s.ring h.core h.ring).occ + 1) ∧
    (s.str.live.handler (tabGet 0 s.msg.statusTag e.core) = none →
      ∃ t, exec (.statusEntry i) s = .next t ∧ t.msg.status = s.msg.status.eraseIdx i ∧ t.msg.rings = s.msg.rings ∧
        t.ctr.msgDrop = stick48 s.ctr.msgDrop 1 ∧ t.loam = s.loam))

/-- MSG_RING_CTRL and MSG_CREDIT_DATA by a supervisor (R180, R183), and the periodic steps of pacing (R230). -/
def Obligations.MessageRegistersAndPacing : Prop :=
  (∀ (p : Party) (c : Fin 5) (s : State), s.portsHeld = false → (accOf p).sup = true →
    (∀ r : Fin 32, (s.str.live.ring c.val r.val).isSome = true →
      ∃ t, exec (.msgRingAdvance p c r) s = .next t ∧ (t.ring c.val r.val).gen = (s.ring c.val r.val).gen + 1 ∧
        (t.ring c.val r.val).msgs = [] ∧ (t.ring c.val r.val).occ = s.runningEntries c.val r.val ∧ t.out.getLast? = some (.regAnswer p 0 0)) ∧
    (∃ t, exec (.msgRingAll p c) s = .next t ∧ t.out.getLast? = some (.regAnswer p 0 0) ∧
      ∀ r : Fin 32, (s.str.live.ring c.val r.val).isSome = true →
        (t.ring c.val r.val).gen = (s.ring c.val r.val).gen + 1 ∧ (t.ring c.val r.val).msgs = []) ∧
    (∀ v e, s.creditAt = some e → v.toNat ≤ e.allot →
      ∃ t, exec (.msgCreditData p v) s = .next t ∧ (t.credit e.dest).avail = v.toNat ∧ (∀ k, k ≠ e.dest → t.credit k = s.credit k) ∧
        t.out.getLast? = some (.regAnswer p 0 0))) ∧
  (∀ s : State, s.pwr.state ≠ .off →
    (5000 ≤ s.msg.rateTicks → ∃ t, exec .pacingIncrease s = .next t ∧ t.msg.rateTicks = 0 ∧ t.msg.credits = s.msg.credits ∧
      ∀ n, n < 4096 → (t.pace n).rate = (if s.msg.paceEn = true ∧ (s.pace n).rate < s.msg.maxRate
        then min s.msg.maxRate ((s.pace n).rate + s.msg.paceStep) else (s.pace n).rate) ∧ (t.pace n).allow = (s.pace n).allow) ∧
    (s.msg.rateTicks < 5000 → exec .pacingIncrease s = .next s) ∧
    (100 ≤ s.msg.allowTicks → ∃ t, exec .pacingAllowance s = .next t ∧ t.msg.allowTicks = 0 ∧ t.msg.credits = s.msg.credits ∧
      ∀ n, n < 4096 → (t.pace n).rate = (s.pace n).rate ∧
        (t.pace n).allow = max (s.pace n).allow (min (max 4096 ((s.pace n).rate * 64)) ((s.pace n).allow + (s.pace n).rate * 64))) ∧
    (s.msg.allowTicks < 100 → exec .pacingAllowance s = .next s))

/-! ### Sync counters, atomics and the ports -/

/-- The SYN instructions and the SYN_ registers (R187 to R190, R193, R197, R199, R209): an arrive and a wait are pending until their
conditions hold; an arrive adds to its counter modulo 2^32 and changes no other; a wait is met when the signed difference is zero or
positive, and changes no counter; SYN.READ stores the counter's value; SYN.SET sets it. A counter or scope that fails R189 aborts the item.
From outside, additions and arrives reach counters of package scope only, a supervisor sets any allocated counter, and a flush of the port
buffer begins where it holds an entry. That a release finds no store of the own Loam left to wait for is log 6's choice, and that the answer
to a counter addition names cluster 0 log 45's reading. -/
def Obligations.SyncInstructions : Prop :=
  (∀ (w : Who) (s : State),
    (∀ t len c p v, s.Issues w t (.arrive c p v) len →
      (t.scFault w.core.val c p false = 0 → s.itemJobs w = [] →
        ∃ u, exec (.synArrive w) s = .next u ∧ (u.item w).pend = .arrive c p v ∧ (u.item w).off = (s.item w).off ∧ u.syn = s.syn) ∧
      (t.scFault w.core.val c p false ≠ 0 →
        ∃ u, exec (.synArrive w) s = .next u ∧ (u.ctx w).phase = .aborting ∧ (u.item w).record.fault = t.scFault w.core.val c p false)) ∧
    (∀ c p v, s.fastOn = true → (s.ctx w).canBear = true → (s.item w).pend = .arrive c p v → s.scBad c = false →
      (s.released (s.item w).no p = true →
        ∃ u, exec (.arriveTakesEffect w) s = .next u ∧ u.sc c = s.sc c + v ∧ (∀ n, n ≠ c → u.sc n = s.sc n) ∧
          (u.item w).pend = .none ∧ (u.item w).off = (s.item w).off + 16 ∧ u.loam = s.loam) ∧
      (s.released (s.item w).no p = false → exec (.arriveTakesEffect w) s = .next s)) ∧
    (∀ t len c p g, s.Issues w t (.wait c p g) len → t.scFault w.core.val c p false = 0 →
      ∃ u, exec (.synWait w) s = .next u ∧ (u.item w).pend = .wait c p g ∧ (u.item w).off = (s.item w).off ∧
        (u.syn.met.contains (s.item w).no = true ↔ 0 ≤ (s.sc c - g).toInt) ∧ ∀ n, u.sc n = s.sc n) ∧
    (∀ c p g, s.fastOn = true → (s.ctx w).canBear = true → (s.item w).pend = .wait c p g → s.scBad c = false →
      (0 ≤ (s.sc c - g).toInt ∨ s.syn.met.contains (s.item w).no = true →
        ∃ u, exec (.waitComplete w) s = .next u ∧ (u.item w).pend = .none ∧ (u.item w).off = (s.item w).off + 16 ∧ u.loam = s.loam ∧
          ∀ n, u.sc n = s.sc n) ∧
      ((s.sc c - g).toInt < 0 → s.syn.met.contains (s.item w).no = false → exec (.waitComplete w) s = .next s)) ∧
    (∀ t len c p a u, s.Issues w t (.synRead c p a) len → a % 4 = 0 → t.scFault w.core.val c p true = 0 → t.itemFault w true a 4 = 0 →
      s.scBad c = false → t.loamWrite (corePort w.core.val) a (leBytes 4 (s.sc c).toNat) = (u, 0) →
      ∃ v, exec (.synRead w) s = .next v ∧ v.loam = u.loam ∧ v.syn = s.syn ∧ (v.item w).off = (s.item w).off + len) ∧
    (∀ t len c p x, s.Issues w t (.synSet c p x) len → t.scFault w.core.val c p true = 0 →
      ∃ v, exec (.synSet w) s = .next v ∧ v.sc c = x ∧ (∀ n, n ≠ c → v.sc n = s.sc n) ∧ v.loam = t.loam ∧
        (v.item w).off = (s.item w).off + len)) ∧
  (∀ (s : State), s.portsHeld = false →
    (∀ (c : BitVec 13) k x, s.str.live.sync c.toNat = some x →
      (x.scope = 2 → s.scBad c.toNat = false →
        ∃ t, exec (.remoteCounterAdd c k) s = .next t ∧ t.loam = s.loam ∧
          t.sc c.toNat = s.sc c.toNat + (match k with
            | .bytes n => n
            | .pulse => 1)) ∧
      (x.scope ≠ 2 → ∃ t, exec (.remoteCounterAdd c k) s = .next t ∧ t.syn = s.syn ∧ t.out = s.out ++ [.accessAnswer 0 .ack 0x0901])) ∧
    (∀ p (c : BitVec 13) v x, s.str.live.sync c.toNat = some x →
      (x.scope = 2 → s.scBad c.toNat = false →
        ∃ t, exec (.synArriveWrite p c v) s = .next t ∧ t.sc c.toNat = s.sc c.toNat + v ∧ t.loam = s.loam) ∧
      (x.scope ≠ 2 → ∃ t, exec (.synArriveWrite p c v) s = .next t ∧ t.syn = s.syn ∧ t.out.getLast? = some (.regAnswer p 0 0x0901)) ∧
      ((accOf p).sup = true →
        ∃ t, exec (.synSetWrite p c v) s = .next t ∧ t.sc c.toNat = v ∧ (∀ n, n ≠ c.toNat → t.sc n = s.sc n) ∧ t.loam = s.loam)) ∧
    (∀ p, (accOf p).sup = true →
      ∃ t, exec (.synPbufFlush p) s = .next t ∧ t.port.flushing = !s.port.pbuf.isEmpty ∧ t.port.pbuf = s.port.pbuf))

/-- The ATM instructions (R202 to R204): on a word of the own Loam the operation is done at the bank at once, and one whose sector reads bad
aborts its item; elsewhere at package scope it goes out as a request, for whose answer the item waits, but it waits itself while the port
buffer holds the sector or fetches it; at core or cluster scope it is done at the buffer's entry where that holds the whole sector, and else
fetches the sector, unless an entry is on its way out or an access that goes directly to memory is in flight, for which it waits. A RET gets
the old word as 8 bytes. The results of ADD, MIN, MAX, XCHG and CAS at both widths. -/
def Obligations.Atomics : Prop :=
  (∀ (op : AtomOp) (w : Who) (s t : State) (len : Nat) (w64 sg : Bool) (p ret a v k : Nat), s.Issues w t (.atm op w64 sg p ret a v k false) len →
    let i : Instr := match op with
      | .add => .atmAdd w
      | .min => .atmMin w
      | .max => .atmMax w
      | .xchg => .atmXchg w
      | .cas => .atmCas w
    let r : AtomReq := ⟨op, w64, sg, BitVec.ofNat 64 v, BitVec.ofNat 64 k⟩
    let n := if w64 then 8 else 4
    let back : List (Nat × Nat) := if ret = 0xFFFFFFFF then [] else [(ret, 8)]
    let returns (u z : State) (old : Nat) : Prop := ret = 0xFFFFFFFF ∧ z = u ∨ ret ≠ 0xFFFFFFFF ∧ u.loamWrite (corePort w.core.val) ret (leBytes 8 old) = (z, 0)
    let done (x z : State) : Prop := x.loam = z.loam ∧ (x.item w).off = (s.item w).off + 32 ∧ (x.item w).pend = .none ∧ x.syn = s.syn
    t.atomFault w false n ret a = 0 →
    (∀ l, placeOf s.id a = .own l → t.mustWait w { lw := (l, n) :: back } = false →
      (∀ q bs u z, t.loamRead (corePort w.core.val) l n = (q, .ok bs) →
        u = (q.loamWrite (corePort w.core.val) l (leBytes n (atomNew r (leNat bs)))).1 → returns u z (leNat bs) →
        ∃ x, exec i s = .next x ∧ done x z) ∧
      (∀ q f, t.loamRead (corePort w.core.val) l n = (q, .bad f) →
        ∃ x, exec i s = .next x ∧ (x.ctx w).phase = .aborting ∧ (x.item w).record.fault = f)) ∧
    ((∀ l, placeOf s.id a ≠ .own l) → t.mustWait w { lw := back } = false →
      (p = 2 → s.txnRoom = true → (∀ e ∈ s.port.pbuf, e.sector ≠ a / 64) → s.port.fetching (a / 64) = false →
        ∃ x, exec i s = .next x ∧ x.out = s.out ++ [.memAtomic s.port.nextId a r] ∧ (x.item w).pend = .memory s.port.nextId ∧
          (x.item w).off = (s.item w).off ∧ x.loam = t.loam) ∧
      (p = 2 → (∃ e ∈ s.port.pbuf, e.sector = a / 64) ∨ s.port.fetching (a / 64) = true → exec i s = .next s) ∧
      (∀ e z, p ≠ 2 → s.port.entry (a / 64) = some e → e.data.length = 64 →
        let old := leNat ((List.range n).map fun j => tabGet 0 e.data (a % 64 + j))
        returns t z old →
        ∃ x e', exec i s = .next x ∧ done x z ∧ x.out = s.out ∧ x.port.entry (a / 64) = some e' ∧ e'.atomic = true ∧
          (∀ j, tabGet 0 e'.data j = if a % 64 ≤ j ∧ j < a % 64 + n then (leBytes n (atomNew r old)).getD (j - a % 64) 0 else tabGet 0 e.data j) ∧
          ∀ y, y ≠ a / 64 → x.port.entry y = s.port.entry y) ∧
      (p ≠ 2 → (∀ e, s.port.entry (a / 64) = some e → e.data.length ≠ 64) →
        (s.port.draining (a / 64) = true ∨ s.port.directly (a / 64) = true → exec i s = .next s) ∧
        (s.port.draining (a / 64) = false → s.port.directly (a / 64) = false → s.txnRoom = true →
          ((s.port.entry (a / 64)).isSome = true ∨ s.port.used < 64) →
          ∃ x, exec i s = .next x ∧ x.out = s.out ++ [.memRead s.port.nextId (a / 64 * 64) false] ∧ (x.item w).pend = .memory s.port.nextId ∧
            (x.item w).off = (s.item w).off ∧ x.loam = t.loam ∧ x.port.txns = s.port.txns ++
              [{ id := s.port.nextId, addr := a, kind := .fetch w (s.item w).no (a % 64) r (if ret = 0xFFFFFFFF then none else some ret) }])))) ∧
  (∀ (sg : Bool) (v k : Word64) (old : Nat), old < 2 ^ 32 →
    atomNew ⟨.add, false, sg, v, k⟩ old = (old + v.toNat) % 2 ^ 32 ∧
    atomNew ⟨.xchg, false, sg, v, k⟩ old = v.toNat % 2 ^ 32 ∧
    atomNew ⟨.cas, false, sg, v, k⟩ old = if old = k.toNat % 2 ^ 32 then v.toNat % 2 ^ 32 else old) ∧
  (∀ (v k : Word64) (old : Nat), old < 2 ^ 32 →
    atomNew ⟨.min, false, false, v, k⟩ old = min old (v.toNat % 2 ^ 32) ∧ atomNew ⟨.max, false, false, v, k⟩ old = max old (v.toNat % 2 ^ 32)) ∧
  (∀ (v k : Word64) (old : Word32), let y := BitVec.ofNat 32 v.toNat
    atomNew ⟨.min, false, true, v, k⟩ old.toNat = (if y.toInt < old.toInt then y else old).toNat ∧
    atomNew ⟨.max, false, true, v, k⟩ old.toNat = (if old.toInt < y.toInt then y else old).toNat) ∧
  (∀ (sg : Bool) (v k old : Word64),
    atomNew ⟨.add, true, sg, v, k⟩ old.toNat = (old.toNat + v.toNat) % 2 ^ 64 ∧ atomNew ⟨.xchg, true, sg, v, k⟩ old.toNat = v.toNat ∧
    atomNew ⟨.cas, true, sg, v, k⟩ old.toNat = (if old = k then v else old).toNat ∧
    atomNew ⟨.min, true, false, v, k⟩ old.toNat = min old.toNat v.toNat ∧ atomNew ⟨.max, true, false, v, k⟩ old.toNat = max old.toNat v.toNat ∧
    atomNew ⟨.min, true, true, v, k⟩ old.toNat = (if v.toInt < old.toInt then v else old).toNat ∧
    atomNew ⟨.max, true, true, v, k⟩ old.toNat = (if old.toInt < v.toInt then v else old).toNat)

/-- The memory port of the issuing side (R192, R197, R202, R204, R207, R266): an entry drains as one sector write; an answer to a store lets
its item go on, and one to a load gives its register the bytes read; the word that answers an atomic, and the sector that answers a fetch
and on which the operation is done in the buffer under the bytes held there, let the item go on with the old word at RET; a sector that
answers a DMA read joins its descriptor's buffer under the bytes held here, and the acknowledgement of a DMA write counts its bytes; poison
for a load or an atomic, and a refusal, abort the item that waits with the fault. -/
def Obligations.PortTransactions : Prop :=
  ∀ (s : State), s.fastOn = true →
    (∀ sec e, s.port.entry sec = some e → s.txnRoom = true → (∀ x ∈ s.port.pbuf, x.sector = sec → x.out = none) →
      s.port.fetching sec = false →
      ∃ t, exec (.portBufferDrain sec) s = .next t ∧ t.out = s.out ++ [.memWrite s.port.nextId (sec * 64) e.data] ∧
        t.port.txns = s.port.txns ++ [{ id := s.port.nextId, addr := sec * 64, kind := .drain }] ∧ t.loam = s.loam ∧ t.syn = s.syn) ∧
    (∀ id x w no, s.port.txns.find? (·.id == id) = some x → x.id = id → x.abandoned = false → x.kind = .store w no → s.awaits w no id = true →
      ∃ t, exec (.memoryResponse id .ack) s = .next t ∧ (t.item w).pend = .none ∧ (t.item w).off = (s.item w).off + 16 ∧
        (∀ y ∈ t.port.txns, y.id ≠ id) ∧ t.loam = s.loam) ∧
    (∀ id x w no rd off n k f laid bs, bs.length = 64 → s.port.txns.find? (·.id == id) = some x → x.id = id → x.abandoned = false →
      x.kind = .load w no rd off n k f laid → s.awaits w no id = true → rd ≠ 0 →
      ∃ t, exec (.memoryResponse id (.data bs)) s = .next t ∧ (t.item w).reg rd = BitVec.ofNat 64
          (leNat (sliceB (if k then s.port.forward (x.addr / 64) (laidOver bs laid) else bs) off n)) ∧
        (t.item w).pend = .none ∧ (t.item w).off = (s.item w).off + 16 ∧ t.loam = s.loam) ∧
    (∀ id x w no (f : BitVec 16), s.port.txns.find? (·.id == id) = some x → x.id = id → x.abandoned = false → x.kind = .store w no →
      s.awaits w no id = true → f.toNat ∈ faultCodes →
      ∃ t, exec (.remoteRefusal id f) s = .next t ∧ (t.ctx w).phase = .aborting ∧ (t.item w).record.fault = f.toNat ∧
        ∀ y ∈ t.port.txns, y.id ≠ id) ∧
    (∀ id x w no, s.port.txns.find? (·.id == id) = some x → x.id = id → x.abandoned = false → s.awaits w no id = true →
      ((∃ rd off n k f laid, x.kind = .load w no rd off n k f laid) ∨ (∃ ret w64, x.kind = .atomic w no ret w64) ∨
        ∃ off r ret, x.kind = .fetch w no off r ret) →
      ∃ t, exec (.memoryResponse id .poisoned) s = .next t ∧ (t.ctx w).phase = .aborting ∧ (t.item w).record.fault = 0x030A ∧ t.loam = s.loam) ∧
    (∀ id x w no ret w64 (word : Word64) z, s.port.txns.find? (·.id == id) = some x → x.id = id → x.abandoned = false →
      x.kind = .atomic w no ret w64 → s.awaits w no id = true →
      (ret = none ∧ z = s ∨ ∃ a, ret = some a ∧
        s.loamWrite (corePort w.core.val) a (leBytes 8 (if w64 then word.toNat else word.toNat % 2 ^ 32)) = (z, 0)) →
      ∃ t, exec (.memoryResponse id (.word word)) s = .next t ∧ t.loam = z.loam ∧ (t.item w).pend = .none ∧
        (t.item w).off = (s.item w).off + 32 ∧ t.syn = s.syn) ∧
    (∀ id x w no off (r : AtomReq) ret bs z, s.port.txns.find? (·.id == id) = some x → x.id = id → x.abandoned = false →
      x.kind = .fetch w no off r ret → s.awaits w no id = true → bs.length = 64 → off + (if r.w64 then 8 else 4) ≤ 64 →
      let n := if r.w64 then 8 else 4
      let held (j : Nat) : Byte := match s.port.entry (x.addr / 64) with
        | some e => tabGet (bs.getD j 0) e.data j
        | none => bs.getD j 0
      let old := leNat ((List.range n).map fun j => held (off + j))
      (ret = none ∧ z = s ∨ ∃ a, ret = some a ∧ s.loamWrite (corePort w.core.val) a (leBytes 8 old) = (z, 0)) →
      ∃ t e', exec (.memoryResponse id (.data bs)) s = .next t ∧ t.loam = z.loam ∧ (t.item w).pend = .none ∧
        (t.item w).off = (s.item w).off + 32 ∧ t.syn = s.syn ∧ t.port.entry (x.addr / 64) = some e' ∧ e'.atomic = true ∧
        ∀ j, j < 64 → tabGet 0 e'.data j = if off ≤ j ∧ j < off + n then (leBytes n (atomNew r old)).getD (j - off) 0 else held j) ∧
    (∀ id x ch d off n crit laid bs r, s.port.txns.find? (·.id == id) = some x → x.id = id → x.abandoned = false →
      x.kind = .dmaRead ch d off n crit laid → (s.chan ch).run.find? (fun r => r.no == d && r.waiting == some id) = some r → bs.length = 64 →
      ∃ t, exec (.memoryResponse id (.data bs)) s = .next t ∧ t.loam = s.loam ∧
        { r.got (x.addr / 64) ((s.port.forward (x.addr / 64) (laidOver bs laid)).map some) off n with ticks := r.ticks } ∈ (t.chan ch).run ∧
        (t.chan ch).writes = (s.chan ch).writes) ∧
    (∀ id x ch d n r, s.port.txns.find? (·.id == id) = some x → x.id = id → x.abandoned = false → x.kind = .dmaWrite ch d n →
      (s.chan ch).run.find? (·.no == d) = some r → (r.desc.bcEn = true → r.desc.bcClu = pkgIndex s.id ∧ s.scBad r.desc.bcSc = false) →
      ∃ t, exec (.memoryResponse id .ack) s = .next t ∧ t.loam = s.loam ∧
        { r with inFlight := r.inFlight - 1, done := r.done + n } ∈ (t.chan ch).run ∧
        (r.desc.bcEn = true → t.sc r.desc.bcSc = s.sc r.desc.bcSc + BitVec.ofNat 32 n) ∧ (r.desc.bcEn = false → t.syn = s.syn))

/-- Accesses of other clusters to Loam (R47): one is permitted just where every sector lies in the export window and in a private or shared
region, and both permit its direction. A permitted read is answered with the sector, a permitted write is done, a permitted poison write
poisons its sector, and a permitted atomic answers the old word; one that is not permitted, or that lies beyond Loam, is answered with the
fault and changes nothing. -/
def Obligations.RequestsFromOutside : Prop :=
  (∀ (im : Image) (p : Access × Nat) (a n : Nat), p ∈ [(Access.remRead, 2), (Access.remWrite, 3)] →
    (accessFault im p.1 a n = 0 ↔ ∀ k ∈ sectorsOf a n, ∃ x r, im.window = some x ∧ x.base ≤ k ∧ k < x.base + x.size ∧
      x.perm.testBit p.2 = true ∧ im.regionAt k = some r ∧ (r.kind = .priv ∨ r.kind = .shared) ∧ r.perm.testBit p.2 = true)) ∧
  (∀ (s : State), s.portsHeld = false →
    (∀ r n u b, reqWf r = true → r.op = .read n → r.addr < s.id.loamMib * 2 ^ 20 → accessFault s.str.live .remRead r.addr n = 0 →
      s.loamRead 5 r.addr n = (u, .ok b) →
      ∃ t, exec (.remoteAccess r) s = .next t ∧ t.loam = u.loam ∧ t.syn = s.syn ∧
        t.out = s.out ++ [.accessAnswer r.cluster.val (.data (u.loam.cells.read (r.addr / 64 * 64) 64)) 0]) ∧
    (∀ r bs u, reqWf r = true → r.op = .write bs → r.addr < s.id.loamMib * 2 ^ 20 → accessFault s.str.live .remWrite r.addr bs.length = 0 →
      s.loamWrite 5 r.addr bs = (u, 0) →
      ∃ t, exec (.remoteAccess r) s = .next t ∧ t.loam = u.loam ∧ t.syn = s.syn ∧ t.out = s.out ++ [.accessAnswer r.cluster.val .ack 0]) ∧
    (∀ r, reqWf r = true → r.op = .poison → r.addr < s.id.loamMib * 2 ^ 20 → accessFault s.str.live .remWrite r.addr 64 = 0 →
      ∃ t, exec (.remoteAccess r) s = .next t ∧ t.loam = (s.poisonSectors [r.addr / 64]).loam ∧ t.syn = s.syn ∧
        t.out = s.out ++ [.accessAnswer r.cluster.val .ack 0]) ∧
    (∀ r q u old, reqWf r = true → r.op = .atomic q → r.addr < s.id.loamMib * 2 ^ 20 →
      accessFault s.str.live .remRead r.addr (atomBytes q) = 0 → accessFault s.str.live .remWrite r.addr (atomBytes q) = 0 →
      s.loamAtomic 5 r.addr q = (u, .ok old) →
      ∃ t, exec (.remoteAccess r) s = .next t ∧ t.loam = u.loam ∧ t.syn = s.syn ∧
        t.out = s.out ++ [.accessAnswer r.cluster.val (.word (BitVec.ofNat 64 old)) 0]) ∧
    (∀ r f, reqWf r = true → f ≠ 0 →
      let fault (p : Access) (n : Nat) : Nat := if s.id.loamMib * 2 ^ 20 ≤ r.addr then 0x0301 else accessFault s.str.live p r.addr n
      ((∃ n, r.op = .read n ∧ f = fault .remRead n) ∨ (∃ bs, r.op = .write bs ∧ f = fault .remWrite bs.length) ∨
        (r.op = .poison ∧ f = fault .remWrite 64) ∨
        ∃ q, r.op = .atomic q ∧ f = if fault .remRead (atomBytes q) = 0x0301 ∨ fault .remWrite (atomBytes q) = 0x0301 then 0x0301
          else if fault .remRead (atomBytes q) ≠ 0 then fault .remRead (atomBytes q) else fault .remWrite (atomBytes q)) →
      ∃ t, exec (.remoteAccess r) s = .next t ∧ t.loam = s.loam ∧ t.syn = s.syn ∧ t.out = s.out ++ [.accessAnswer r.cluster.val .ack f]))

/-- STR_CTRL by a supervisor (R29, R30, R31, R251): each command in the states of the table does its effect; in every other state the
staging state does not change and 0x0207 is raised; no command changes the live image or Loam. An ABORT in ticks T and T + 1 of a swap
cancels it, and one that the ports already show releases them at the next tick (R32). A command at job privilege is refused. Before core
release every staging command of another cluster is held, with what it writes (R304); that the host's are held too until the journal is
replayed is log 85's choice. The wait of a COMMIT for compaction is log 54's reading, and the DETAIL of the logged faults log 20's choice.
-/
def Obligations.StagingCommands : Prop :=
  ∀ (p : Party) (s : State), s.pwr.state ≠ .off →
    (s.heldEarly p 0x1000 true = (p != .host && s.pwr.start != .released || s.pwr.start == .reset)) ∧
    (s.heldEarly p 0x1000 true = true → ∀ d : Word32, ∀ x ∈ ([(.strOpen p, 0x1000, 1), (.strValidate p, 0x1000, 2), (.strCommit p, 0x1000, 3),
        (.strAbort p, 0x1000, 4), (.strConfirm p, 0x1000, 5), (.strStageData p d, 0x1008, d.toNat), (.strDeltaData p d, 0x1020, d.toNat)] :
          List (Instr × Nat × Nat)),
      exec x.1 s = .next { s with heldAon := s.heldAon ++ [.write p x.2.1 .b4 (BitVec.ofNat 64 x.2.2)] }) ∧
    (s.heldEarly p 0x1000 true = false → (accOf p).sup = true →
      (s.str.stage = .empty ∨ s.str.stage = .valid ∨ s.str.stage = .invalid →
        ∃ t, exec (.strOpen p) s = .next t ∧ t.str.stage = .opened ∧ t.str.stageBytes = [] ∧ t.str.valFault = 0 ∧ t.str.valSection = 0 ∧
          t.str.valOffset = 0 ∧ t.str.commitDone = false ∧ t.str.live = s.str.live ∧ t.str.liveValid = s.str.liveValid ∧ t.mrl = s.mrl ∧
          t.loam = s.loam ∧ t.out = s.out ++ [.regAnswer p 0 0]) ∧
      (s.str.stage = .opened →
        ∃ t, exec (.strValidate p) s = .next t ∧ t.str = { s.str with stage := .validating } ∧ t.mrl = s.mrl ∧ t.loam = s.loam ∧
          t.out = s.out ++ [.regAnswer p 0 0]) ∧
      (s.str.stage = .valid →
        ∃ t, exec (.strCommit p) s = .next t ∧ t.str.stage = .journaling ∧ t.str.live = s.str.live ∧ t.str.liveValid = s.str.liveValid ∧
          t.loam = s.loam ∧ t.out = s.out ++ [.regAnswer p 0 0] ∧
          (s.mrl.admits .image s.str.stageBytes.length = true →
            t.mrl.queue = s.mrl.queue ++ [⟨.image, s.mrl.nextSerial, s.ts.toNat, s.str.stageBytes⟩] ∧ t.str.imageSerial = s.mrl.nextSerial) ∧
          (s.mrl.admits .image s.str.stageBytes.length = false →
            t.mrl.queue = s.mrl.queue ∧ t.str.commitWaits = true ∧ (s.pwr.pfw = false → s.pwr.offReq = false → t.mrl.compact = true))) ∧
      (s.str.stage = .opened ∨ s.str.stage = .validating ∨ s.str.stage = .valid ∨ s.str.stage = .invalid →
        ∃ t, exec (.strAbort p) s = .next t ∧ t.str = { s.str with stage := .empty } ∧ t.mrl = s.mrl ∧ t.loam = s.loam ∧
          t.out = s.out ++ [.regAnswer p 0 0]) ∧
      (s.str.stage = .journaling ∨ s.str.stage = .pending →
        ∃ t, exec (.strAbort p) s = .next t ∧ t.held = s.held ∧ t.loam = s.loam ∧ t.cores = s.cores ∧ t.out = s.out ++ [.regAnswer p 0 0] ∧
          t.str = { s.str with stage := .empty, bounds := 0, commitWaits := false
                               swap := if s.swapHeld then some 7 else none } ∧
          (∀ r ∈ s.mrl.queue, s.str.commitWaits = false → r.serial ≠ s.str.imageSerial → ∃ x ∈ t.mrl.queue, x.typ = r.typ ∧ x.body = r.body)) ∧
      (s.str.stage = .empty → s.str.awaitConfirm = true →
        ∃ t, exec (.strConfirm p) s = .next t ∧ t.str = { s.str with awaitConfirm := false } ∧ t.pwr.start = .confirmed ∧ t.mrl = s.mrl ∧
          t.loam = s.loam ∧ t.out.getLast? = some (.regAnswer p 0 0)) ∧
      (∀ (f : BitVec 3) (i : Instr), (f, i) ∈ ([(1, .strOpen p), (2, .strValidate p), (3, .strCommit p), (4, .strAbort p), (5, .strConfirm p)] :
          List (BitVec 3 × Instr)) →
        (f = 1 → s.str.stage ≠ .empty ∧ s.str.stage ≠ .valid ∧ s.str.stage ≠ .invalid) → (f = 2 → s.str.stage ≠ .opened) →
        (f = 3 → s.str.stage ≠ .valid) → (f = 4 → s.str.stage = .empty ∨ s.str.stage = .committing) →
        (f = 5 → s.str.stage ≠ .empty ∨ s.str.awaitConfirm = false) →
        ∃ t, exec i s = .next t ∧ t.str = s.str ∧ t.mrl = s.mrl ∧ t.loam = s.loam ∧ t.out.getLast? = some (.regAnswer p 0 0x0207) ∧
          (p = .host → t.tel.log.head? = some ⟨0x0207, 7, false, false, 0x1000, s.ts.toNat % 2 ^ 48⟩))) ∧
    (s.heldEarly p 0x1000 true = false → (accOf p).sup = false → ∀ (d : Word32), ∀ i ∈ ([.strOpen p, .strValidate p, .strCommit p, .strAbort p, .strConfirm p, .strStageData p d,
        .strDeltaData p d] : List Instr),
      ∃ t, exec i s = .next t ∧ t.str = s.str ∧ t.mrl = s.mrl ∧ t.loam = s.loam ∧ t.out.getLast? = some (.regAnswer p 0 0x0C02))

/-- STR_STAGE_DATA and VALIDATION_DONE (R28, R40): an open slot takes four bytes a write; a write beyond 524,288 bytes is discarded and
makes the slot invalid; one in another state is discarded. A validation records the first failing check, and never touches the live image.
STR_DELTA_DATA by a supervisor (R36): words gather until the record has the length of its KIND and COUNT; a complete record that fails a
check is discarded as a whole with its fault; one that passes and that the journal admits is entered in Marl and not yet applied. The length
of a record of unknown KIND is log 28's reading, and that STR_DELTA_STATUS.STATE reads 0 after a record that fails a check log 28's choice;
the DETAIL of the logged faults is log 20's choice. -/
def Obligations.StagingAndDeltas : Prop :=
  ((∀ (p : Party) (d : Word32) (s : State), s.pwr.state ≠ .off → s.heldEarly p 0x1000 true = false → (accOf p).sup = true →
      (s.str.stage = .opened → s.str.stageBytes.length + 4 ≤ 524288 →
        ∃ t, exec (.strStageData p d) s = .next t ∧ t.str = { s.str with stageBytes := s.str.stageBytes ++ leBytes 4 d.toNat } ∧
          t.out = s.out ++ [.regAnswer p 0 0] ∧ t.mrl = s.mrl ∧ t.loam = s.loam) ∧
      (s.str.stage = .opened → 524288 < s.str.stageBytes.length + 4 →
        ∃ t, exec (.strStageData p d) s = .next t ∧ t.str = { s.str with stage := .invalid } ∧ t.out.getLast? = some (.regAnswer p 0 0x020A)) ∧
      (s.str.stage ≠ .opened →
        ∃ t, exec (.strStageData p d) s = .next t ∧ t.str = s.str ∧ t.out.getLast? = some (.regAnswer p 0 0x020A))) ∧
    (∀ s : State, s.pwr.state ≠ .off →
      (s.str.stage ≠ .validating → exec .validationDone s = .next s) ∧
      (s.str.stage = .validating → ∀ im, validateImage s.id s.str.stageBytes = .ok im →
        ∃ t, exec .validationDone s = .next t ∧ t.mrl = s.mrl ∧ t.loam = s.loam ∧
          t.str = { s.str with stage := .valid, staged := im, valFault := 0, valSection := 0, valOffset := 0 }) ∧
      (s.str.stage = .validating → ∀ e, validateImage s.id s.str.stageBytes = .error e →
        ∃ t, exec .validationDone s = .next t ∧ t.mrl = s.mrl ∧ t.loam = s.loam ∧
          t.str = { s.str with stage := .invalid, valFault := e.fault, valSection := e.sec, valOffset := e.off } ∧
          t.tel.log.head? = some ⟨e.fault, 7, false, false, e.off % 2 ^ 32, s.ts.toNat % 2 ^ 48⟩))) ∧
  (∀ (p : Party) (d : Word32) (s : State), s.pwr.state ≠ .off → s.heldEarly p 0x1000 true = false → (accOf p).sup = true →
      let b := s.str.deltaBuf ++ leBytes 4 d.toNat
      (b.length < 16 ∨ b.length < deltaLen b →
        ∃ t, exec (.strDeltaData p d) s = .next t ∧ t.str = { s.str with deltaBuf := b, deltaState := 1 } ∧ t.mrl = s.mrl ∧
          t.out = s.out ++ [.regAnswer p 0 0]) ∧
      (16 ≤ b.length → deltaLen b ≤ b.length → s.pwr.pfw = false → s.pwr.offReq = false →
        let f := deltaCheck s.str.live s.str.deltaSeq s.str.shownId b
        (fieldB b 4 4 ≠ s.str.shownId → f = 0x0204 ∨ f = 0x0209) ∧
        (f ≠ 0 →
          ∃ t, exec (.strDeltaData p d) s = .next t ∧ t.str = { s.str with deltaBuf := [], deltaState := 0, deltaFault := f } ∧ t.mrl = s.mrl ∧
            t.loam = s.loam ∧ t.tel.log.head? = some ⟨f, 7, false, false, 0, s.ts.toNat % 2 ^ 48⟩) ∧
        (f = 0 →
          s.str.deltaTotal + 64 * sectOf b.length ≤ 32768 → s.mrl.admits .delta b.length = true → s.committing = false →
          ∃ t, exec (.strDeltaData p d) s = .next t ∧
            t.str = { s.str with deltaBuf := [], deltaState := 2, deltaTotal := s.str.deltaTotal + 64 * sectOf b.length } ∧
            t.mrl.queue = s.mrl.queue ++ [⟨.delta, s.mrl.nextSerial, s.ts.toNat, b⟩] ∧ t.loam = s.loam)))

/-- EPOCH_BOUNDARY (R27, R31), the swap of a commit (R32) with the state it derives (R33, R100), and IMAGE_DECODED_AGAIN (R265). The epoch
advances by one at a boundary of a live image; a pending commit begins its swap at a quiescent boundary, counts one that is not, and at the
64th it is cancelled with 0x0208, the live image unchanged; while EPOCH_LEN is decoded again there is no boundary. At T + 2 LIVE_SLOT
inverts and the COMMIT record is admitted; from T + 3 on rings, counters, credits, sleeping cores and batch queues are carried over or
replaced; then the ports are released. That all of step 4 falls in the tick T + 3 is the model's choice (log 16). An upset field of the live
image is found and logged in the next tick, and then decoded again: it is whole, or the image is lost and every core held, which R265 lets a
later start mend. That it is found in the next tick is log 13's choice, and the DETAIL of the logged faults log 20's. -/
def Obligations.EpochsAndDecoding : Prop :=
  (∀ s : State, s.pwr.state ≠ .off →
    (s.str.liveValid = false ∨ s.tsRun = false ∨ s.waitsOn [.epoch] = true ∨ s.str.epochTicks < s.str.live.epochLen → exec .epochBoundary s = .next s) ∧
    (s.str.liveValid = true → s.tsRun = true → s.waitsOn [.epoch] = false → s.str.live.epochLen ≤ s.str.epochTicks →
      ∃ t, exec .epochBoundary s = .next t ∧ t.str.epoch = s.str.epoch + 1 ∧ t.str.epochTicks = s.str.epochTicks - s.str.live.epochLen ∧
        t.str.live = s.str.live ∧ t.str.liveSlot = s.str.liveSlot ∧ t.str.liveValid = true ∧ t.str.stageBytes = s.str.stageBytes ∧
        t.cores = s.cores ∧ t.msg = s.msg ∧ t.dma = s.dma ∧ t.port = s.port ∧ t.syn = s.syn ∧ t.loam = s.loam ∧
        (s.str.stage ≠ .pending ∨ s.str.swap.isSome ∨ s.clockHeld = true →
          t.str.stage = s.str.stage ∧ t.str.swap = s.str.swap ∧ t.str.bounds = s.str.bounds ∧ t.mrl = s.mrl) ∧
        (s.str.stage = .pending → s.str.swap = none → s.clockHeld = false →
          (s.quiescent = true → t.str.stage = .pending ∧ t.str.swap = some 0 ∧ t.mrl = s.mrl) ∧
          (s.quiescent = false → s.str.bounds < 63 →
            t.str.stage = .pending ∧ t.str.swap = none ∧ t.str.bounds = s.str.bounds + 1 ∧ t.mrl = s.mrl) ∧
          (s.quiescent = false → 63 ≤ s.str.bounds →
            t.str.stage = .valid ∧ t.str.swap = none ∧ t.str.bounds = 0 ∧ t.str.commitWaits = false ∧
            t.tel.log.head? = some ⟨0x0208, 7, false, false, 0, s.ts.toNat % 2 ^ 48⟩)))) ∧
  (∀ s : State, s.pending = [] → s.pwr.state ≠ .off →
    (s.str.swap = some 1 →
      ∃ t, step s = .next t ∧ t.str.liveSlot = !s.str.liveSlot ∧ t.str.live = s.str.staged ∧ t.str.staged = s.str.live ∧
        t.str.liveValid = true ∧ t.str.stage = .committing ∧ t.str.swap = some 2 ∧ t.loam = s.loam ∧ t.msg.rings = s.msg.rings ∧
        t.mrl.queue = s.mrl.queue ++ [⟨.commit, s.mrl.nextSerial, t.ts.toNat, commitBody s.str.staged.id s.str.imageSerial s.str.epoch.toNat⟩]) ∧
    (s.str.swap = some 2 →
      let old := s.str.staged
      let new := s.str.live
      ∃ t, step s = .next t ∧ t.str.swap = some 3 ∧ t.str.live = new ∧
        (∀ (c : Fin 5) (r : Fin 32),
          let place (im : Image) := (im.ring c.val r.val).map fun x => (x.base, x.size)
          (place old = place new → t.ring c.val r.val = s.ring c.val r.val) ∧
          (place old ≠ place new → (old.ring c.val r.val).isSome = true → (s.core c.val).hdl.phase = .idle →
            (t.ring c.val r.val).gen = (s.ring c.val r.val).gen + 1 ∧ (t.ring c.val r.val).msgs = [] ∧ (t.ring c.val r.val).occ = 0 ∧
            (t.ring c.val r.val).rd = (t.ring c.val r.val).wr) ∧
          (place old ≠ place new → old.ring c.val r.val = none → t.ring c.val r.val = { gen := (s.ring c.val r.val).gen + 1 })) ∧
        (∀ n, t.sc n = if (new.sync n).isSome ∧ ((old.sync n).map fun x => (x.scope, x.owner)) = (new.sync n).map fun x => (x.scope, x.owner)
          then s.sc n else 0) ∧
        (∀ d, new.credit d = none → (t.credit d).avail = 0) ∧
        ((new.credits.map (·.dest)).Nodup → ∀ d e, new.credit d = some e →
          (t.credit d).avail = if (old.credit d).map (·.allot) = some e.allot then (s.credit d).avail else e.allot - (s.credit d).out) ∧
        (∀ c : Fin 4,
          let was := coreOn old.coreEn c.val
          let now := coreOn new.coreEn c.val
          let fits : Prop := ∃ a b, old.save c.val = some a ∧ new.save c.val = some b ∧ a.base = b.base ∧ a.size ≤ b.size
          ((t.core c.val).asleep = ((s.core c.val).asleep || now && !was)) ∧
          ((s.core c.val).asleep = true → was = true → now = true → fits → (t.core c.val).sleepSaved = (s.core c.val).sleepSaved) ∧
          ((t.core c.val).asleep = true → ¬ (was = true ∧ now = true ∧ fits) → (t.core c.val).sleepSaved = false)) ∧
        ∀ q : Fin 16,
          ((∃ x, new.sync (s.bqOf q.val).notify = some x ∧ x.scope ≠ 0) → t.bqOf q.val = s.bqOf q.val) ∧
          ((∀ x, new.sync (s.bqOf q.val).notify = some x → x.scope = 0) →
            (t.bqOf q.val).en = false ∧ (t.bqOf q.val).fill = [] ∧ (t.bqOf q.val).shipped = [] ∧ (t.bqOf q.val).seq = (s.bqOf q.val).seq)) ∧
    (s.str.swap = some 7 → ∃ u : State, step s = .next u.releaseHeld ∧ u.str.swap = none ∧ u.held = s.held ∧ u.str.live = s.str.live)) ∧
  (∀ s : State, s.pwr.state ≠ .off →
    (s.pending = [] → s.str.swap = none →
      ∃ t, step s = .next t ∧ (∀ f, .image f ∉ t.damage) ∧
        ∀ f, .image f ∈ s.damage → .decoding f ∈ t.damage ∧ t.tel.log.head? = some ⟨0x0C0A, 7, false, false, 0, s.ts.toNat % 2 ^ 48⟩) ∧
    ((∀ f, .decoding f ∉ s.damage) → ∀ ok, exec (.imageDecodedAgain ok) s = .next s) ∧
    ((∃ f, .decoding f ∈ s.damage) →
      let whole (t : State) : Prop := (∀ f, .decoding f ∉ t.damage) ∧ ∀ d ∈ s.damage, (∀ f, d ≠ .decoding f) → d ∈ t.damage
      (s.held = [] → ∃ t, exec (.imageDecodedAgain true) s = .next t ∧ whole t ∧ t.str = s.str ∧ t.pwr = s.pwr ∧ t.cores = s.cores ∧
        t.loam = s.loam ∧ t.tel = s.tel) ∧
      (∃ u : State, exec (.imageDecodedAgain true) s = .next u.releaseHeld ∧ whole u ∧ u.held = s.held ∧ u.str = s.str ∧ u.pwr = s.pwr) ∧
      (∃ t, exec (.imageDecodedAgain false) s = .next t ∧ whole t ∧ t.str.liveValid = false ∧ t.fastOn = false ∧ t.held = s.held ∧
        t.cores = s.cores ∧ t.loam = s.loam ∧ t.tel = s.tel)))

/-- MARL_RECORD_COMPLETE (R31, R35, R37, R247, R249, R250): the record at the front of the queue is written behind the half's used bytes and
becomes durable; an IMAGE record makes its commit pending, a COMMIT record completes it, a DELTA record applies, a SEAL counts, a RETIRE
drops the seals at or before its serial, a TELEMETRY record's increments join the totals, an EPOCH record starts the time. Without a live
image the swap of a pending commit begins in the tick after its IMAGE record is complete. The DETAIL of the logged fault is log 20's choice.
-/
def Obligations.JournalRecords : Prop :=
  ∀ (s : State), s.pwr.state ≠ .off →
    (s.mrl.compact = true ∨ s.mrl.queue = [] ∨ s.pwr.pfSafe = true → exec .marlRecordComplete s = .next s) ∧
    (∀ r rest, s.mrl.compact = false → s.pwr.pfSafe = false → s.pwr.start ≠ .reset → s.mrl.queue = r :: rest →
      (r.typ = .commit → s.str.swap = none) → s.slotFails r = false →
      ∃ t, exec .marlRecordComplete s = .next t ∧
        t.mrl.mram = s.mrl.mram.write (halfBase s.mrl.active + s.mrl.used) r.bytes ∧ t.mrl.used = s.mrl.used + r.size ∧
        t.mrl.durable = r.serial ∧ t.mrl.queue = rest ∧ t.mrl.active = s.mrl.active ∧ t.mrl.nextSerial = s.mrl.nextSerial ∧ t.loam = s.loam ∧
        (r.typ = .image → s.str.stage = .journaling → r.serial = s.str.imageSerial →
          t.str = { s.str with stage := .pending, bounds := 0 }) ∧
        (r.typ = .commit → s.str.stage = .committing → r.serial = s.str.record.commit →
          t.str.stage = .empty ∧ t.str.commitDone = true ∧ t.str.shownId = s.str.live.id ∧ t.str.live = s.str.live) ∧
        (r.typ = .delta → s.str.liveValid = true → fieldB r.body 4 4 = s.str.live.id →
          serialLater (BitVec.ofNat 32 r.serial) (BitVec.ofNat 32 s.str.record.commit) = true →
          t.str.live = deltaImage s.str.live r.body ∧ t.str.deltaSeq = fieldB r.body 8 4 ∧ t.str.deltaState = 3) ∧
        (r.typ = .seal → t.mrl.seals = s.mrl.seals ++ [(r.serial, r.time, r.body)] ∧ t.str = s.str) ∧
        (r.typ = .retire → t.mrl.seals = retireSeals s.mrl.seals (fieldB r.body 0 4) ∧ t.str = s.str) ∧
        (r.typ = .telemetry → t.tel.hist = addIncrements s.tel.hist r.body ∧ t.str = s.str) ∧
        (r.typ = .epoch → t.tsRun = true ∧ t.str = s.str)) ∧
    (∀ r rest, s.mrl.compact = false → s.pwr.pfSafe = false → s.pwr.start ≠ .reset → s.mrl.queue = r :: rest → s.slotFails r = true →
      ∃ t, exec .marlRecordComplete s = .next t ∧ t.str.stage = .invalid ∧ t.str.live = s.str.live ∧ t.mrl.mram = s.mrl.mram ∧
        t.tel.log.head? = some ⟨0x020B, 7, false, false, 0, s.ts.toNat % 2 ^ 48⟩) ∧
    (s.pending = [] → s.str.stage = .pending → s.str.liveValid = false → s.str.swap = none →
      ∃ t, step s = .next t ∧ t.str.swap = some 0 ∧ t.str.stage = .pending ∧ t.mrl = { s.mrl with telTicks := t.mrl.telTicks })

/-- TELEMETRY_TIMER and COMPACTION_COMPLETE (R249, R251): every 100,000,000 ticks a TELEMETRY and an EPOCH record are queued; the other
half, once its base is whole, is the active one, with the next HALF_GEN, and the lifetime count of compactions takes one. MRL_SEAL_GO,
MRL_SEAL_RETIRE and MRL_READ_ADDR by a supervisor (R243, R247, R250, R294): a submission is checked in the order of R250 and queued with the
next serial, or reported with its fault and no record; a read fetches the sector of the segment. Before core release these writes of another
cluster are held (R304), and until the journal is replayed the host's too, which is log 85's choice. -/
def Obligations.MarlCommands : Prop :=
  (∀ (s : State), s.pwr.state ≠ .off →
      (s.mrl.telTicks < 100000000 → exec .telemetryTimer s = .next s) ∧
      (100000000 ≤ s.mrl.telTicks → s.pwr.pfSafe = false → s.committing = false →
        ∃ t a b, exec .telemetryTimer s = .next t ∧ t.mrl.telTicks = 0 ∧ t.mrl.queue = s.mrl.queue ++ [a, b] ∧ a.typ = .telemetry ∧
          b.typ = .epoch ∧ a.serial = s.mrl.nextSerial ∧ a.body = telemetryBody (s.tel.inc.filter fun e => e.2 != 0) ∧
          b.body = epochBody s.str.epoch.toNat s.liveId ∧ t.str = s.str ∧ t.loam = s.loam) ∧
      (s.mrl.compact = false → exec .compactionComplete s = .next s) ∧
      (s.mrl.compact = true → s.pwr.pfSafe = false → s.pwr.start ≠ .reset →
        ∃ t n, exec .compactionComplete s = .next t ∧ t.mrl.compact = false ∧ t.mrl.active = !s.mrl.active ∧
          t.mrl.halfGen = (s.mrl.halfGen + 1) % 2 ^ 32 ∧ t.mrl.used = 64 + (s.baseContents n).length ∧ t.mrl.seals = s.mrl.seals ∧
          tabGet 0 t.tel.inc 0x533 = stick64 (tabGet 0 s.tel.inc 0x533) 1 ∧ t.loam = s.loam ∧
          t.str.live = s.str.live ∧ t.str.liveValid = s.str.liveValid)) ∧
  (∀ (p : Party) (s : State), s.pwr.state ≠ .off →
      (s.heldEarly p 0xC000 true = true → ∀ n : Word32, ∀ x ∈ ([(.mrlSealGo p, 0xC03C, 1), (.mrlSealRetire p n, 0xC048, n.toNat),
          (.mrlReadAddr p n, 0xC050, n.toNat)] : List (Instr × Nat × Nat)),
        exec x.1 s = .next { s with heldAon := s.heldAon ++ [.write p x.2.1 .b4 (BitVec.ofNat 64 x.2.2)] }) ∧
      (s.heldEarly p 0xC000 true = false → (accOf p).sup = true →
      (∀ (i : Instr) (t : RecType) (b : List Byte),
        (i = .mrlSealGo p ∧ t = .seal ∧ b = padTo 44 s.mrl.sealData) ∨ (∃ n : Word32, i = .mrlSealRetire p n ∧ t = .retire ∧ b = leBytes 4 n.toNat) →
        (s.pwr.pfw = false → s.pwr.offReq = false → s.mrl.sealsFull = false → s.mrl.admits t b.length = true →
          ∃ u, exec i s = .next u ∧ u.mrl.queue = s.mrl.queue ++ [⟨t, s.mrl.nextSerial, s.ts.toNat, b⟩] ∧
            u.mrl.nextSerial = (s.mrl.nextSerial + 1) % 2 ^ 32 ∧ u.mrl.sealSerial = s.mrl.nextSerial ∧ u.mrl.sealFault = 0 ∧
            u.mrl.sealDone = true ∧ u.mrl.mram = s.mrl.mram ∧ u.mrl.seals = s.mrl.seals ∧ u.str = s.str ∧ u.loam = s.loam ∧
            u.out = s.out ++ [.regAnswer p 0 0]) ∧
        (s.pwr.pfw = true ∨ s.pwr.offReq = true ∨ s.mrl.sealsFull = true ∨ s.mrl.admits t b.length = false →
          ∃ u, exec i s = .next u ∧ u.mrl.queue = s.mrl.queue ∧ u.mrl.nextSerial = s.mrl.nextSerial ∧ u.mrl.sealDone = true ∧
            u.mrl.sealFault = (if s.pwr.pfw = true ∨ s.pwr.offReq = true then 0x0B04 else if s.mrl.sealsFull = true then 0x0B02 else 0x0B03) ∧
            u.mrl.seals = s.mrl.seals ∧ u.str = s.str)) ∧
      (∀ v : Word32, v.toNat < 2 ^ 21 → v.toNat % 64 = 0 →
        ∃ u, exec (.mrlReadAddr p v) s = .next u ∧ u.mrl = { s.mrl with readAddr := v.toNat, readData := s.mrl.mram.read v.toNat 64 } ∧
          u.out = s.out ++ [.regAnswer p 0 0] ∧ u.loam = s.loam)))


/-- IDLE_ENTRY, NAP_ENTRY, WAKE_TRIGGER, FAST_CLOCK_STABLE and PWR_CLOCK (R234, R235, R237, R238): Idle needs that no agent has work and
that no trigger falls; Nap follows NAP_AFTER times ten ticks of Idle unless STAYUP is set or another trigger falls, and is Sleep where every
enabled core is in core Sleep; each trigger that holds starts a wake, and beside it the wakes of the sleeping cores that held traffic, or
the watchdog's item, is for; a wake ends with the clock at every agent and the held traffic accepted, at once where no hold is on and else
when the hold ends; a clock that has not arrived after 1,000 ticks is logged once, with the fault log's DETAIL of log 20, and awaited. -/
def Obligations.PowerStates : Prop :=
  ∀ (s : State), s.pwr.state ≠ .off →
    let wakes (g : Trigger) (c : Nat) : Prop := (s.core c).asleep = true ∧ (s.core c).wakeTick = none ∧
      ((g = .traffic ∧ c < 4 ∧ s.heldFor c = true ∧ coreOn s.str.live.coreEn c = true) ∨ ∃ w : Who, g = .watchdog w ∧ w.core.val = c)
    (s.pwr.state = .active → s.clockOn = true → s.pwr.start ≠ .confirmed → s.hasWork = false → s.wakeDue = false →
      ∃ t, exec .idleEntry s = .next t ∧ t.pwr.state = .idle ∧ t.pwr.idleTicks = 0 ∧ t.cores = s.cores ∧ t.msg = s.msg ∧ t.loam = s.loam ∧
        t.str = s.str) ∧
    (s.hasWork = true → exec .idleEntry s = .next s ∧ exec .napEntry s = .next s) ∧
    (s.wakeDue = true → exec .idleEntry s = .next s ∧ exec .napEntry s = .next s) ∧
    (s.pwr.stayUp = true ∨ s.triggerDue = true ∨ s.pwr.napAfter = 0 ∨ s.pwr.idleTicks < s.pwr.napAfter * 10 → exec .napEntry s = .next s) ∧
    (s.pwr.state = .idle → s.clockOn = true → s.pwr.start ≠ .confirmed → s.pwr.napAfter ≠ 0 → s.pwr.napAfter * 10 ≤ s.pwr.idleTicks →
      s.triggerDue = false → s.hasWork = false → s.str.swap = none →
      ∃ t, exec .napEntry s = .next t ∧ t.pwr.state = (if s.allAsleep = true then .sleep else .nap) ∧ t.pwr.fclk = 0 ∧
        t.out = s.out ++ [.clockStop] ∧ t.cores = s.cores ∧ t.msg = s.msg ∧ t.loam = s.loam ∧ t.str = s.str) ∧
    (∀ g, s.pwr.state = .nap ∨ s.pwr.state = .sleep →
      (g = .traffic ∧ s.held ≠ []) ∨ (∃ q, g = .batch q ∧ (deadlineShip q.val s).isSome = true) ∨
        (∃ w, g = .watchdog w ∧ (s.item w).abort.isSome = true) ∨ (g = .epoch ∧ s.str.swap.isSome = true) ∨
        (g = .stayUp ∧ s.pwr.stayUp = true) →
      ∃ t, exec (.wakeTrigger g) s = .next t ∧ t.pwr.state = .waking ∧ t.pwr.wake = some 0 ∧ t.out = s.out ++ [.clockRequest] ∧
        t.msg = s.msg ∧ t.loam = s.loam ∧ t.str = s.str ∧ t.held = s.held ∧
        ∀ c, (wakes g c → t.core c = { s.core c with wakeTick := some 0 }) ∧ (¬ wakes g c → t.core c = s.core c)) ∧
    (∀ c : Fin 4, (s.core c.val).asleep = true → (s.core c.val).wakeTick = none → coreOn s.str.live.coreEn c.val = true →
      (s.core c.val).nq ≠ [] ∨ (s.core c.val).uq ≠ [] ∨ s.ringWork c.val = true ∨ s.heldFor c.val = true ∨ s.pwr.stayUp = true →
      ∃ t, exec (.wakeTrigger (.core c)) s = .next t ∧ t.core c.val = { s.core c.val with wakeTick := some 0 } ∧
        (∀ k, k ≠ c.val → t.core k = s.core k) ∧ t.pwr = s.pwr ∧ t.loam = s.loam) ∧
    (∀ (mhz : BitVec 11) n, s.pwr.state = .waking → s.pwr.wake = some n →
      (mhz = 0 ∨ s.pwr.clkArrived.isSome = true → exec (.fastClockStable mhz) s = .next s) ∧
      (mhz ≠ 0 → s.pwr.clkArrived = none → s.clockHeld = false →
        ∃ u : State, exec (.fastClockStable mhz) s = .next u.releaseHeld ∧ u.pwr.state = .active ∧ u.pwr.wake = none ∧ u.pwr.clkArrived = none ∧
          u.pwr.fclk = mhz.toNat ∧ u.held = s.held ∧ u.cores = s.cores ∧ u.msg = s.msg ∧ u.loam = s.loam ∧ u.str = s.str) ∧
      (mhz ≠ 0 → s.pwr.clkArrived = none → s.clockHeld = true →
        exec (.fastClockStable mhz) s = .next { s with pwr := { s.pwr with clkArrived := some mhz.toNat } }.releaseHeld)) ∧
    (∀ n, s.pwr.wake = some n →
      (n < 1000 ∨ s.pwr.wakeWarned = true ∨ s.pwr.clkArrived.isSome = true → exec .pwrClock s = .next s) ∧
      (1000 ≤ n → s.pwr.wakeWarned = false → s.pwr.clkArrived = none →
        ∃ t, exec .pwrClock s = .next t ∧ t.pwr.wakeWarned = true ∧ t.pwr.wake = some n ∧ t.cores = s.cores ∧ t.loam = s.loam ∧
          t.tel.log.head? = some ⟨0x0B06, 7, false, false, 0, s.ts.toNat % 2 ^ 48⟩))

/-- CORE_SLEEP_ENTRY, CORE_SLEEP_SAVE_DONE and CORE_WAKE (R236, R239, R59, R60): a core whose CSLEEP bit is set and that was quiet for
SLEEP_AFTER starts to save, in Nap too, unless traffic held at a port is for it; work that arrives meanwhile, or is held for it, abandons
the entry with the state in place, and else the core sleeps, with its statistics still readable (R298). Where its stores hold no upset and
no tag, its Kaolin, VBs, masks and statistics are then in its save region, at their places of R59, and every other byte of Loam is as
before; 3,800 ticks after its trigger the core is back with what the region holds, or with zeros where a commit discarded what it saved.
That the save is one step, and runs in Nap, is log 12's. -/
def Obligations.CoreSleep : Prop :=
  ∀ (c : Fin 4) (s : State),
    let running : Prop := s.fastOn = true ∨
      (s.pwr.state = .nap ∧ s.pwr.start = .released ∧ s.clockHeld = false ∧ s.swapHeld = false ∧ s.waitsOn imgFields = false)
    let e := 2 ^ s.id.edgeLog2
    let clean : Prop := s.loam.Clean ∧ (s.core c.val).kaolin.Clean ∧ (s.core c.val).vb.Clean
    let saved (k : Core) (m : Mem) : Prop :=
      (∀ x < 6 * (e * e), m.get (s.saveBase c.val + x) = k.kaolin.cells.get x) ∧
      (∀ v < 4, ∀ x < e * e, m.get (s.saveVbAt c.val v + x) = k.vb.cells.get (65536 * v + x)) ∧
      (∀ i < 512, m.read (s.saveBase c.val + Config.saveMasks e + 8 * i) 8 = leBytes 8 (tabGet 0 k.masks i).toNat) ∧
      (∀ i < 1024, m.read (s.saveBase c.val + Config.saveStats e + 4 * i) 4 = leBytes 4 (tabGet 0 k.stats i).toNat)
    (running → coreOn s.str.live.coreEn c.val = true → s.pwr.csleep.testBit c.val = true → s.pwr.sleepAfter ≠ 0 →
      s.pwr.sleepAfter * 1000 ≤ (s.core c.val).idleTicks → s.coreQuiet c.val = true → (s.core c.val).asleep = false →
      (s.core c.val).sleepSaving = false → s.pwr.stayUp = false → s.heldFor c.val = false →
      ∃ t, exec (.coreSleepEntry c) s = .next t ∧ t.core c.val = { s.core c.val with sleepSaving := true } ∧
        (∀ k, k ≠ c.val → t.core k = s.core k) ∧ t.loam = s.loam) ∧
    (s.heldFor c.val = true → exec (.coreSleepEntry c) s = .next s) ∧
    (running → (s.core c.val).sleepSaving = true → s.coreQuiet c.val = false ∨ s.heldFor c.val = true ∨ s.pwr.stayUp = true →
      ∃ t, exec (.coreSleepSaveDone c) s = .next t ∧ t.core c.val = { s.core c.val with sleepSaving := false } ∧
        (∀ k, k ≠ c.val → t.core k = s.core k) ∧ t.loam = s.loam) ∧
    ((s.core c.val).sleepSaving = false → exec (.coreSleepSaveDone c) s = .next s) ∧
    (running → (s.core c.val).sleepSaving = true → s.coreQuiet c.val = true → s.heldFor c.val = false → s.pwr.stayUp = false →
      ∃ t, exec (.coreSleepSaveDone c) s = .next t ∧ (t.core c.val).asleep = true ∧ (t.core c.val).sleepSaved = true ∧
        (t.core c.val).sleepSaving = false ∧ (t.core c.val).kaolin = {} ∧ (t.core c.val).vb = {} ∧ (t.core c.val).masks = [] ∧
        (t.core c.val).stats = (s.core c.val).stats ∧ (t.core c.val).front = none ∧ (t.core c.val).back = none ∧
        (s.Sound → clean → 5 ≤ s.id.edgeLog2 → s.id.edgeLog2 ≤ 8 → saved (s.core c.val) t.loam.cells ∧
          ∀ x, x < s.saveBase c.val ∨ s.saveBase c.val + Config.saveLen e ≤ x → t.loam.cells.get x = s.loam.cells.get x)) ∧
    (∀ n, s.fastOn = true → (s.core c.val).asleep = true → (s.core c.val).wakeTick = some n → 3800 ≤ n →
      ∃ t, exec (.coreWake c) s = .next t ∧ (t.core c.val).asleep = false ∧ (t.core c.val).wakeTick = none ∧ (t.core c.val).sleepSaved = false ∧
        ((s.core c.val).sleepSaved = true → s.Sound → clean → 5 ≤ s.id.edgeLog2 → s.id.edgeLog2 ≤ 8 →
          saved (t.core c.val) s.loam.cells ∧ t.loam = s.loam) ∧
        ((s.core c.val).sleepSaved = false → (t.core c.val).kaolin = {} ∧ (t.core c.val).vb = {} ∧ (t.core c.val).masks = [] ∧
          (t.core c.val).stats = [] ∧ (∀ k, k ≠ c.val → t.core k = s.core k) ∧ t.loam = s.loam)) ∧
    (∀ n, (s.core c.val).wakeTick = some n → n < 3800 → exec (.coreWake c) s = .next s)

/-- PWR_CTRL by a supervisor, the throttle pin, and power failure (R235, R241, R243, R244, R245): STAYUP takes what is written; a throttle
holds the clock until it ends, and with the last hold a wake whose clock has arrived is complete; a warning, or an Off request, queues a
TELEMETRY record and stops a compaction, and an Off request cancels a commit in journaling or pending whenever it comes (R32, R34); once the
queue is written the cluster is safe, and after an Off request, also one that comes later, says so; a warning that ends releases the hold
where no Off was requested, at once or, where the queue is not written yet, when it is, and the clock that a CONFIRM of the hold asked for
is requested (R254). These are the model's choices: that a warning which comes back before the queue is written is a new one, and that an
Off request in a warning queues no second record (log 37); that the end of a warning restarts the compaction a COMMIT waits for (logs 37 and
54); and that before the journal is replayed there is no record to add (log 85). -/
def Obligations.PowerControl : Prop :=
  ∀ (s : State), s.pwr.state ≠ .off →
    let flushed (t : State) : Prop := t.mrl.compact = false ∧ (s.pwr.start = .reset → t.mrl.queue = s.mrl.queue) ∧
      (s.pwr.start ≠ .reset → ∃ e : JRec, t.mrl.queue = s.mrl.queue ++ [e] ∧ e.typ = .telemetry)
    (∀ p, (accOf p).sup = true → s.heldEarly p 0xB004 true = false →
      (∃ t, exec (.pwrCtrlStayup p false) s = .next t ∧ t.pwr = { s.pwr with stayUp := false } ∧ t.out = s.out ++ [.regAnswer p 0 0] ∧
        t.cores = s.cores ∧ t.loam = s.loam) ∧
      (∃ t, exec (.pwrCtrlStayup p true) s = .next t ∧ t.pwr.stayUp = true ∧ t.out.getLast? = some (.regAnswer p 0 0) ∧ t.loam = s.loam ∧
        (s.pwr.state = .nap ∨ s.pwr.state = .sleep → t.pwr.state = .waking)) ∧
      (s.committing = true → s.pwr.stayUp = false →
        ∃ t, exec (.pwrCtrlOff p) s = .next t ∧ t.pwr.offReq = true ∧ t.loam = s.loam ∧
          t.str = { s.str with stage := .valid, bounds := 0, swap := (if s.swapHeld then some 7 else none), commitWaits := false }) ∧
      (s.pwr.offReq = true → s.pwr.stayUp = false → s.committing = false →
        ∃ t, exec (.pwrCtrlOff p) s = .next t ∧ t.pwr = s.pwr ∧ t.mrl = s.mrl ∧ t.out = s.out ++ [.regAnswer p 0 0]) ∧
      (s.pwr.offReq = false → s.pwr.stayUp = false → s.pwr.pfw = false → s.pwr.pfSafe = false → s.committing = false →
        ∃ t, exec (.pwrCtrlOff p) s = .next t ∧ t.pwr = { s.pwr with offReq := true } ∧ flushed t ∧
          t.out = s.out ++ [.regAnswer p 0 0] ∧ t.loam = s.loam ∧ t.str = s.str) ∧
      (s.pwr.offReq = false → s.pwr.stayUp = false → s.pwr.pfw = true → s.pwr.pfSafe = false → s.committing = false →
        ∃ t, exec (.pwrCtrlOff p) s = .next t ∧ t.pwr = { s.pwr with offReq := true } ∧ t.mrl = s.mrl ∧ t.out = s.out ++ [.regAnswer p 0 0]) ∧
      (s.pwr.offReq = false → s.pwr.stayUp = false → s.pwr.pfSafe = true → s.committing = false →
        ∃ t, exec (.pwrCtrlOff p) s = .next t ∧ t.pwr = { s.pwr with offReq := true, offReady := true } ∧ t.mrl = s.mrl ∧
          t.out = s.out ++ [.offReady, .regAnswer p 0 0])) ∧
    (∀ temp, (s.pwr.throttle = true → exec (.throttleAssert temp) s = .next s) ∧
      (s.pwr.throttle = false → ∃ t, exec (.throttleAssert temp) s = .next t ∧ t.pwr = { s.pwr with throttle := true } ∧ t.clockHeld = true ∧
        t.cores = s.cores ∧ t.loam = s.loam)) ∧
    (s.pwr.throttle = false → exec .throttleDeassert s = .next s) ∧
    (s.pwr.throttle = true → ∃ u : State, exec .throttleDeassert s = .next u.releaseHeld ∧ u.held = s.held ∧ u.cores = s.cores ∧ u.loam = s.loam ∧
      (s.pwr.wake = none ∨ s.pwr.clkArrived = none ∨ (s.pwr.clkHold || s.pwr.droop.isSome || s.pwr.pfSafe) = true →
        u.pwr = { s.pwr with throttle := false }) ∧
      (∀ n mhz, s.pwr.state = .waking → s.pwr.wake = some n → s.pwr.clkArrived = some mhz → s.pwr.clkHold = false → s.pwr.droop = none →
        s.pwr.pfSafe = false →
        u.pwr = { s.pwr with throttle := false, state := .active, wake := none, clkArrived := none, fclk := mhz, idleTicks := 0 })) ∧
    (s.pwr.pfw = true → s.pwr.pfCleared = false → exec .powerFailWarning s = .next s) ∧
    (s.pwr.pfw = false ∨ s.pwr.pfCleared = true → s.committing = false →
      ∃ t, exec .powerFailWarning s = .next t ∧ t.pwr = { s.pwr with pfw := true, pfCleared := false } ∧ flushed t ∧ t.loam = s.loam ∧ t.str = s.str ∧ t.cores = s.cores) ∧
    (s.mrl.queue ≠ [] ∨ (s.pwr.pfw = false ∧ s.pwr.offReq = false) ∨ s.pwr.pfSafe = true → exec .pfSafe s = .next s) ∧
    (s.pwr.pfw = true ∨ s.pwr.offReq = true → s.pwr.pfSafe = false → s.mrl.queue = [] →
      (s.pwr.pfCleared = false ∨ s.pwr.offReq = true →
        ∃ t, exec .pfSafe s = .next t ∧ t.pwr.pfSafe = true ∧ t.pwr.state = .pfHold ∧ t.clockHeld = true ∧ t.dbg.staged = [] ∧ t.mrl = s.mrl ∧
          t.out = (if s.pwr.offReq = true then s.out ++ [.offReady] else s.out)) ∧
      (s.pwr.pfCleared = true → s.pwr.offReq = false →
        ∃ u : State, exec .pfSafe s = .next u.endHold.wakeConfirmed ∧ u.pwr.pfw = false ∧ u.pwr.pfSafe = false ∧ u.pwr.state = s.pwr.state ∧
          u.held = s.held ∧ u.cores = s.cores)) ∧
    (s.pwr.pfw = false ∨ s.pwr.pfCleared = true → exec .powerFailClear s = .next s) ∧
    (s.pwr.pfw = true → s.pwr.pfCleared = false → s.pwr.pfSafe = false →
      ∃ t, exec .powerFailClear s = .next t ∧ t.pwr = { s.pwr with pfCleared := true } ∧ t.cores = s.cores ∧ t.mrl = s.mrl) ∧
    (s.pwr.pfw = true → s.pwr.pfCleared = false → s.pwr.pfSafe = true → s.pwr.offReq = true →
      ∃ t, exec .powerFailClear s = .next t ∧ t.pwr = { s.pwr with pfw := false } ∧ t.cores = s.cores) ∧
    (s.pwr.pfw = true → s.pwr.pfCleared = false → s.pwr.pfSafe = true → s.pwr.offReq = false →
      ∃ u : State, exec .powerFailClear s = .next u.endHold.wakeConfirmed ∧ u.pwr = { s.pwr with pfw := false, pfSafe := false, state := s.pwr.back } ∧
        u.held = s.held ∧ u.cores = s.cores ∧ u.mrl.compact = (s.mrl.compact || s.str.commitWaits))

/-- POWER_LOSS, STARTUP and CORE_RELEASE (R252, R253, R254): a loss of power keeps the segment alone, and nothing of a half-written record
counts once the cluster was safe; a start-up replays the segment and holds the cores, with the live image it found, which waits for CONFIRM,
and accepts what was held until then (log 85); a release clears Loam, the cores, the counters and the rings, fills the credits, and accepts
what was held: the traffic of the ports, then the accesses of other clusters to the always-on blocks (R304). -/
def Obligations.LossAndStartup : Prop :=
  (∀ (n : Nat) (s : State), s.pwr.state ≠ .off →
    ∃ t, exec (.powerLoss n) s = .next t ∧ t.pwr.state = .off ∧ t.id = s.id ∧ t.cores = [] ∧ t.loam = {} ∧ t.str = {} ∧ t.msg = {} ∧
      (s.pwr.pfSafe = true → t.mrl.mram = s.mrl.mram) ∧
      (s.mrl.compact = false → s.mrl.queue = [] → t.mrl.mram = s.mrl.mram)) ∧
  (∀ (s : State), s.pwr.start ≠ .reset → exec .startup s = .next s) ∧
  (∀ (s : State), s.pwr.start = .reset →
    ∃ t : State, exec .startup s = .next t.acceptAon ∧ t.heldAon = s.heldAon ∧ t.pwr.start = .replayed ∧ t.tel.hist = (replayOf s.mrl.mram).hist ∧
      ((replayOf s.mrl.mram).image = none → t.str.liveValid = false ∧ t.str.awaitConfirm = false) ∧
      (∀ b im, (replayOf s.mrl.mram).image = some b → validateImage s.id b.bytes = .ok im →
        t.str.liveValid = true ∧ t.str.awaitConfirm = true ∧ t.str.shownId = im.id ∧
        t.str.live = b.deltas.foldl (fun im d => deltaImage im d.2.2) im) ∧
      (∀ b e, (replayOf s.mrl.mram).image = some b → validateImage s.id b.bytes = .error e →
        t.str.liveValid = false ∧ t.str.awaitConfirm = false ∧ t.str.valFault = e.fault)) ∧
  (∀ (s : State), s.pwr.state ≠ .off →
    (s.pwr.start ≠ .confirmed ∨ s.clockOn = false → exec .coreRelease s = .next s) ∧
    (s.pwr.start = .confirmed → s.clockOn = true →
      ∃ u : State, exec .coreRelease s = .next u.releaseHeld.acceptAon ∧ u.pwr.start = .released ∧ u.loam = {} ∧ u.cores = [] ∧ u.syn.sc = [] ∧
        u.msg.rings = [] ∧ u.msg.slots = [] ∧ u.str = s.str ∧
        ∀ e ∈ s.str.live.credits, (∀ y ∈ s.str.live.credits, y.dest = e.dest → y = e) → u.credit e.dest = { avail := e.allot }))

/-- WAIT_TO, SEND_TO, COMMAND_TO and HANDLER_TO (R190, R257, R258, R288): before the limit of the live image, or at a wait that was found
met, nothing happens; at the limit a snapshot is requested; the abort of a started item waits until it has recorded the cluster, and begins
at once where the store is held and the request is missed; an item still in its issue steps is not started instead (log 42). Of an item that
already bears a fault, one that goes before it in the order of R258 and arises in the same drone tick takes its place; another, of that tick
or a later one, stands in the log alone, each once. While the limits are decoded again nothing expires (R265). What an expired item does
until its snapshot is taken is log 41's reading. -/
def Obligations.Watchdogs : Prop :=
  ∀ (w : Who) (s : State), s.pwr.state ≠ .off → s.str.liveValid = true →
    let item : Prop := (s.ctx w).phase ∈ [.running, .preempting, .aborting, .waitRange, .issuing]
    let fires (i : Instr) (f b : Nat) : Prop :=
      (i = .waitTo w ∧ f = 0x0C03 ∧ b = 0x540 ∧ (s.ctx w).phase.started = true ∧ s.str.live.waitTo ≤ (s.item w).waitTicks ∧
        ∃ c p g, s.waitedFor w = .wait c p g ∧ s.waitIsMet (s.item w).no c g = false) ∨
      (i = .sendTo w ∧ f = 0x0C04 ∧ b = 0x541 ∧ (s.ctx w).phase.started = true ∧ s.str.live.sendTo ≤ (s.item w).waitTicks ∧
        (s.waitedFor w = .send ∨ (s.item w).sendWaits = true)) ∨
      (i = .commandTo w.core ∧ w.ctx = .cmd ∧ f = 0x0C05 ∧ b = 0x542 ∧ item ∧ s.str.live.commandTo ≤ (s.item w).cmdTicks) ∨
      (i = .handlerTo w.core ∧ w.ctx = .hdl ∧ f = 0x0C06 ∧ b = 0x543 ∧ item ∧ s.str.live.handlerTo ≤ (s.item w).cmdTicks)
    ((s.item w).waitTicks < s.str.live.waitTo → exec (.waitTo w) s = .next s) ∧
    ((s.item w).waitTicks < s.str.live.sendTo → exec (.sendTo w) s = .next s) ∧
    ((s.item w).cmdTicks < s.str.live.commandTo → w.ctx = .cmd → exec (.commandTo w.core) s = .next s) ∧
    ((s.item w).cmdTicks < s.str.live.handlerTo → w.ctx = .hdl → exec (.handlerTo w.core) s = .next s) ∧
    (∀ c p g, s.waitedFor w = .wait c p g → s.waitIsMet (s.item w).no c g = true → exec (.waitTo w) s = .next s) ∧
    (s.waitsOn [.timeouts] = true → ∀ i ∈ ([.waitTo w, .sendTo w, .commandTo w.core, .handlerTo w.core] : List Instr), exec i s = .next s) ∧
    (∀ (i : Instr) (f b : Nat), fires i f b → s.waitsOn [.timeouts] = false → (s.item w).abort = none →
      (s.dbg.snapState = 0 →
        ∃ t, exec i s = .next t ∧ t.dbg.snapState = 1 ∧ t.dbg.snapCause = 1 ∧ t.dbg.snapFault = f ∧ t.dbg.snapTick = s.ts.toNat ∧
          (t.ctx w).phase = (s.ctx w).phase ∧
          (t.item w).abort = some { fault := f, snap := true, tick := s.ticks, was := (s.item w).pend, seen := [f] } ∧
          tabGet 0 t.tel.inc b = stick64 (tabGet 0 s.tel.inc b) 1 ∧ t.loam = s.loam ∧ t.syn = s.syn) ∧
      (s.dbg.snapState = 2 →
        ∃ t, exec i s = .next t ∧ t.dbg.missed = stick16 s.dbg.missed 1 ∧ t.loam = s.loam ∧ t.syn = s.syn ∧
          ((s.ctx w).phase = .issuing ∨ (s.ctx w).phase = .waitRange → t.ctx w = {} ∧ (t.core w.core.val).lastFault = f) ∧
          ((s.ctx w).phase ≠ .issuing → (s.ctx w).phase ≠ .waitRange → (t.ctx w).phase = .aborting ∧ (t.item w).record.fault = f))) ∧
    (∀ (i : Instr) (f b : Nat) (a : Abort), fires i f b → s.waitsOn [.timeouts] = false → (s.item w).abort = some a →
      let behind : Prop := a.tick ≠ s.ticks ∨ a.poisoned = true ∨ faultRank a.fault ≤ faultRank f
      (behind → f ∈ a.seen → exec i s = .next s) ∧
      (a.tick = s.ticks → a.poisoned = false → faultRank f < faultRank a.fault → s.dbg.snapState ≠ 2 →
        ∃ t, exec i s = .next t ∧ (t.ctx w).phase = (s.ctx w).phase ∧
          (t.item w).abort = some { fault := f, snap := true, tick := s.ticks, was := a.was, seen := f :: a.seen } ∧
          t.loam = s.loam ∧ t.syn = s.syn) ∧
      (behind → f ∉ a.seen →
        ∃ t, exec i s = .next t ∧ (t.ctx w).phase = (s.ctx w).phase ∧ (t.item w).abort = some { a with seen := f :: a.seen } ∧
          (∃ e : LogEnt, t.tel.log.head? = some e ∧ e.code = f ∧ e.core = w.core.val ∧ e.borne = false) ∧ t.loam = s.loam ∧ t.syn = s.syn))

/-- DMA_TO (R221, R257, R259): a running descriptor that won no beat, or the head of a queue that is not armed, stops with 0x0C07; a
transaction is abandoned and the item that waits for it aborts with that fault; after a store no load in flight of its sector fills a line.
Before the limit, and while the limit is decoded again (R265), nothing happens. -/
def Obligations.DmaTimeouts : Prop :=
  ∀ (s : State), s.pwr.state ≠ .off → s.str.liveValid = true →
    (s.waitsOn [.timeouts] = true → ∀ g, exec (.dmaTo g) s = .next s) ∧
    (∀ (ch : Fin 32) r, s.waitsOn [.timeouts] = false → (s.chan ch.val).run.find? (fun r => !r.stopped && decide (r.step < r.desc.units ∧ s.str.live.dmaTo ≤ r.ticks)) = some r →
      (s.chan ch.val).run.find? (·.no == r.no) = some r →
      ∃ t, exec (.dmaTo (.channel ch)) s = .next t ∧ (t.chan ch.val).fault = 0x0C07 ∧ (t.chan ch.val).queue = (s.chan ch.val).queue ∧
        (∀ x ∈ (t.chan ch.val).run, x.no = r.no → x.stopped = true) ∧ t.loam = s.loam ∧ t.syn = s.syn) ∧
    (∀ (ch : Fin 32) r rest, (s.chan ch.val).run = [] → (s.chan ch.val).queue = r :: rest → r.desc.armed = false →
      (s.waitsOn [.timeouts] = false → s.str.live.dmaTo ≤ r.ticks → r.stopped = false →
        ∃ t, exec (.dmaTo (.channel ch)) s = .next t ∧ (t.chan ch.val).fault = 0x0C07 ∧ (t.chan ch.val).queue = rest ∧ t.loam = s.loam ∧
          t.syn = s.syn) ∧
      (r.ticks < s.str.live.dmaTo → exec (.dmaTo (.channel ch)) s = .next s)) ∧
    (∀ id x, s.port.txns.find? (·.id == id) = some x →
      (x.ticks < s.str.live.dmaTo ∨ x.abandoned = true → exec (.dmaTo (.txn id)) s = .next s) ∧
      (∀ w no, s.waitsOn [.timeouts] = false → x.id = id → x.kind = .store w no → s.awaits w no id = true → x.abandoned = false →
        s.str.live.dmaTo ≤ x.ticks →
        ∃ t, exec (.dmaTo (.txn id)) s = .next t ∧ (t.ctx w).phase = .aborting ∧ (t.item w).record.fault = 0x0C07 ∧
          t.port.txns = (s.port.txns.map fun y => if y.id = id then { y with abandoned := true } else y).map
            (·.modLoad (x.addr / 64) fun _ laid => (false, laid)) ∧ t.loam = s.loam ∧ t.syn = s.syn))

/-- The clock, supply and temperature monitors (R233, R260, R261, R262): a count out of range is logged as 0x0C08, one too fast holds the
clock, and two good ones in a row end the hold; a droop holds the clock until it ends, one longer than 1,000 ticks is logged as 0x0C09, and
so is an over-voltage; a changed frequency is an event of the monitor, and one of a clock that a wake awaits the end of a hold with is taken
over. SCRUB and FLIT_CRC_FAIL (R61, R62, R65, R264): a scrub reads one sector, which corrects or poisons it, and logs one that cannot be
corrected; each replay of a flit counts; after the eighth that fails what the link carried ends with 0x0A03. A sector beyond Loam is nothing
that is scrubbed. The DETAIL of the logged faults is log 20's choice, and that a sector beyond Loam changes nothing log 1's. -/
def Obligations.MonitorsAndErrors : Prop :=
  (∀ (s : State), s.pwr.state ≠ .off →
      (∀ n, (s.pwr.monTicks < 100 → exec (.clockMonitorInterval n) s = .next s) ∧
        (100 ≤ s.pwr.monTicks → s.pwr.fclk * 102 < n * 100 ∨ 1632 < n →
          ∃ t, exec (.clockMonitorInterval n) s = .next t ∧ t.pwr = { s.pwr with monTicks := 0, clkHold := true, clkGood := 0 } ∧
            t.tel.fclkMeas = min n 2047 ∧ t.clockHeld = true ∧ t.loam = s.loam ∧ t.cores = s.cores ∧
            t.tel.log.head? = some ⟨0x0C08, 7, false, false, n % 2 ^ 32, s.ts.toNat % 2 ^ 48⟩) ∧
        (100 ≤ s.pwr.monTicks → n * 100 < s.pwr.fclk * 98 → n ≤ 1632 →
          ∃ t, exec (.clockMonitorInterval n) s = .next t ∧ t.pwr = { s.pwr with monTicks := 0, clkGood := 0 } ∧
            t.tel.fclkMeas = min n 2047 ∧ t.loam = s.loam ∧ t.cores = s.cores ∧
            t.tel.log.head? = some ⟨0x0C08, 7, false, false, n % 2 ^ 32, s.ts.toNat % 2 ^ 48⟩) ∧
        (100 ≤ s.pwr.monTicks → n * 100 ≤ s.pwr.fclk * 102 → s.pwr.fclk * 98 ≤ n * 100 → n ≤ 1632 →
          (s.pwr.clkHold = false → ∃ t, exec (.clockMonitorInterval n) s = .next t ∧ t.pwr = { s.pwr with monTicks := 0, clkGood := 0 } ∧
            t.tel = { s.tel with fclkMeas := min n 2047 } ∧ t.cores = s.cores) ∧
          (s.pwr.clkHold = true → s.pwr.clkGood = 0 →
            ∃ t, exec (.clockMonitorInterval n) s = .next t ∧ t.pwr = { s.pwr with monTicks := 0, clkGood := 1 } ∧ t.cores = s.cores) ∧
          (s.pwr.clkHold = true → s.pwr.clkGood ≠ 0 →
            ∃ u : State, exec (.clockMonitorInterval n) s = .next u.endHold ∧
              u.pwr = { s.pwr with monTicks := 0, clkHold := false, clkGood := 0 } ∧ u.held = s.held ∧ u.cores = s.cores))) ∧
      (∃ t, exec .droneClockFault s = .next t ∧ t.tel.droneBad = true ∧ t.pwr = s.pwr ∧ t.cores = s.cores ∧ t.loam = s.loam ∧
        ∃ e : LogEnt, t.tel.log.head? = some e ∧ e.code = 0x0C08) ∧
      (∀ mhz : BitVec 11, (s.pwr.fclk = 0 → s.pwr.clkArrived = none → exec (.fclkChange mhz) s = .next s) ∧
        (∀ n, s.pwr.fclk = 0 → s.pwr.clkArrived = some n →
          exec (.fclkChange mhz) s = .next { s with pwr := { s.pwr with clkArrived := some mhz.toNat } }) ∧
        (s.pwr.fclk ≠ 0 → ∃ t, exec (.fclkChange mhz) s = .next t ∧ t.pwr = { s.pwr with fclk := mhz.toNat } ∧ t.cores = s.cores ∧ t.loam = s.loam ∧
          (s.clockHeld = false → ∃ e : LogEnt, t.tel.log.head? = some e ∧ e.code = 0x0C08) ∧ (s.clockHeld = true → t.tel = s.tel))) ∧
      (∀ mv, (s.pwr.droop = none → mv < s.tel.vdroop →
          ∃ t, exec (.droopStart mv) s = .next t ∧ t.pwr = { s.pwr with droop := some 0 } ∧ t.clockHeld = true ∧ t.cores = s.cores ∧ t.loam = s.loam) ∧
        (s.tel.vdroop ≤ mv ∨ s.pwr.droop.isSome = true → exec (.droopStart mv) s = .next s) ∧
        (s.tel.vover < mv → ∃ t, exec (.overVoltage mv) s = .next t ∧ t.pwr = s.pwr ∧ t.cores = s.cores ∧ t.loam = s.loam ∧
          t.tel.log.head? = some ⟨0x0C09, 7, false, false, mv % 2 ^ 32, s.ts.toNat % 2 ^ 48⟩) ∧
        (mv ≤ s.tel.vover → exec (.overVoltage mv) s = .next s)) ∧
      (∀ n, s.pwr.droop = some n → (n < 8 → exec .droopEnd s = .next s) ∧
        (8 ≤ n → ∃ u : State, exec .droopEnd s = .next u.endHold ∧ u.pwr = { s.pwr with droop := none } ∧ u.held = s.held ∧
          u.cores = s.cores ∧ u.loam = s.loam ∧ (1008 < n → ∃ e : LogEnt, u.tel.log.head? = some e ∧ e.code = 0x0C09) ∧
          (n ≤ 1008 → u.tel.log = s.tel.log))) ∧
      (∀ temp, (s.pwr.tempTicks < 1000 → exec (.tempSample temp) s = .next s) ∧
        (1000 ≤ s.pwr.tempTicks →
          exec (.tempSample temp) s = .next { s with tel := { s.tel with temp := temp }, pwr := { s.pwr with tempTicks := 0 } }))) ∧
  (∀ (s : State), s.pwr.state ≠ .off →
      (∀ k u v, k < 393216 → s.clockOn = true → s.loamSector 7 k = (u, v) →
        (v ≠ .ue → ∃ t, exec (.scrub k) s = .next t ∧ t.loam = u.loam ∧ t.tel = u.tel ∧ t.cores = s.cores ∧ t.syn = s.syn) ∧
        (v = .ue → ∃ t, exec (.scrub k) s = .next t ∧ t.loam = u.loam ∧ t.cores = s.cores ∧ t.syn = s.syn ∧
          t.tel.log.head? = some ⟨0x0308, 7, false, false, k * 64 % 2 ^ 32, s.ts.toNat % 2 ^ 48⟩)) ∧
      (∀ k, 393216 ≤ k ∨ s.clockOn = false → exec (.scrub k) s = .next s) ∧
      (∀ (k : Fin 9) x, k.val < 8 →
        ∃ t, exec (.flitCrcFail k x) s = .next t ∧ t.ctr.linkRetry = stick48 s.ctr.linkRetry 1 ∧ t.cores = s.cores ∧ t.msg = s.msg ∧
          t.port = s.port ∧ t.loam = s.loam ∧ t.tel.log = s.tel.log) ∧
      (∃ t, exec (.flitCrcFail 8 .none) s = .next t ∧ t.cores = s.cores ∧ t.loam = s.loam ∧ t.ctr.linkRetry = s.ctr.linkRetry ∧
        ∃ e : LogEnt, t.tel.log.head? = some e ∧ e.code = 0x0A03) ∧
      (∀ d tag core job n, ∃ t, exec (.flitCrcFail 8 (.send d tag core job n)) s = .next t ∧ t.cores = s.cores ∧ t.loam = s.loam ∧
        t.ctr.linkRetry = s.ctr.linkRetry ∧ ∃ e : LogEnt, t.tel.log.head? = some e ∧ e.code = 0x0A03 ∧ e.core = core.toNat) ∧
      (∀ id x w no, s.port.txns.find? (·.id == id) = some x → x.id = id → x.abandoned = false → x.kind = .store w no → s.awaits w no id = true →
        ∃ t, exec (.flitCrcFail 8 (.txn id)) s = .next t ∧ (t.ctx w).phase = .aborting ∧ (t.item w).record.fault = 0x0A03 ∧
          t.port.txns = (s.port.txns.filter (·.id != id)).map (·.modLoad (x.addr / 64) fun _ laid => (false, laid)) ∧ t.loam = s.loam))

/-- DBG_PING_GO, PROBE_ARRIVAL, PROBE_REPLY and PROBE_TIMEOUT (R281): a probe leaves with one credit of its destination; an arriving one is
answered by the message unit with its times; the reply returns the credit, and its times, or its fault, appear; 1,000,000 ticks without a
reply make the probe fail. A GO with no entry or while one is pending fails the range check. That a probe leaves with no credit available is
log 56's reading. -/
def Obligations.Probes : Prop :=
  ∀ (s : State),
    (∀ p, s.portsHeld = false → (accOf p).sup = true →
      (s.pingOk = true → ∃ t, exec (.dbgPingGo p) s = .next t ∧ t.dbg.pingState = 1 ∧ t.dbg.t1 = s.ts.toNat ∧
        (t.credit s.dbg.pingDest).avail = (s.credit s.dbg.pingDest).avail - 1 ∧
        (t.credit s.dbg.pingDest).out = (s.credit s.dbg.pingDest).out + 1 ∧
        t.out = s.out ++ [.probe s.dbg.pingDest, .regAnswer p 0 0] ∧ t.loam = s.loam ∧ t.syn = s.syn) ∧
      (s.pingOk = false → ∃ t, exec (.dbgPingGo p) s = .next t ∧ t.dbg.pingState = s.dbg.pingState ∧ t.msg = s.msg ∧
        t.out.getLast? = some (.regAnswer p 0 0x0C01))) ∧
    (∀ src dest, s.portsHeld = false →
      ∃ t, exec (.probeArrival src dest) s = .next t ∧ t.out = s.out ++ [.probeAnswer src.toNat s.ts s.ts] ∧ t.msg = s.msg ∧ t.cores = s.cores ∧
        t.loam = s.loam) ∧
    (∀ t2 t3 (f : BitVec 16) e, s.portsHeld = false → s.dbg.pingLate = [] → s.dbg.pingState = 1 → s.str.live.credit s.dbg.pingTo = some e →
      ∃ t, exec (.probeReply t2 t3 f) s = .next t ∧ (t.credit s.dbg.pingTo).avail = min e.allot ((s.credit s.dbg.pingTo).avail + 1) ∧
        (t.credit s.dbg.pingTo).out = (s.credit s.dbg.pingTo).out - 1 ∧ t.loam = s.loam ∧
        (f = 0 → t.dbg.pingState = 2 ∧ t.dbg.t1 = s.dbg.t1 ∧ t.dbg.t2 = t2.toNat ∧ t.dbg.t3 = t3.toNat ∧ t.dbg.t4 = s.ts.toNat) ∧
        (f ≠ 0 → t.dbg.pingState = 3 ∧ t.dbg.pingFault = f.toNat)) ∧
    (s.pwr.state ≠ .off →
      (s.dbg.pingState ≠ 1 ∨ s.dbg.pingTicks < 1000000 → exec .probeTimeout s = .next s) ∧
      (s.dbg.pingState = 1 → 1000000 ≤ s.dbg.pingTicks →
        ∃ t, exec .probeTimeout s = .next t ∧ t.dbg.pingState = 3 ∧ t.msg = s.msg ∧ t.cores = s.cores ∧ t.loam = s.loam))

/-- The sieve snapshot (R285 to R288): a request starts a capture, and is missed and counted while a snapshot is held; a forwarded one is
not sent on; when the entries are captured, with the head of each ring read from Loam as the always-on port reads it, the store is held,
with at most 1,024 entries of which the first tells the request, and every abort that waited for it begins, an item in its issue steps being
not started instead (log 42); a release empties the store. -/
def Obligations.Snapshots : Prop :=
  ∀ (s : State),
    (∀ p, s.portsHeld = false → (accOf p).sup = true →
      (s.dbg.snapState = 0 → ∃ t, exec (.dbgSnapTake p) s = .next t ∧ t.dbg.snapState = 1 ∧ t.dbg.snapCause = 0 ∧
        t.dbg.snapOrigin = pkgIndex s.id ∧ t.dbg.snapTick = s.ts.toNat ∧ t.cores = s.cores ∧ t.loam = s.loam) ∧
      (s.dbg.snapState = 2 → ∃ t, exec (.dbgSnapTake p) s = .next t ∧ t.dbg.missed = stick16 s.dbg.missed 1 ∧
        t.dbg.snapState = 2 ∧ t.dbg.snap = s.dbg.snap ∧
        t.cores = s.cores ∧ t.loam = s.loam) ∧
      (s.dbg.snapState = 2 → ∃ t, exec (.dbgSnapRelease p) s = .next t ∧ t.dbg.snapState = 0 ∧ t.dbg.snap = [] ∧ t.dbg.omitted = 0 ∧
        t.dbg.missed = s.dbg.missed ∧
        t.cores = s.cores ∧ t.loam = s.loam)) ∧
    (∀ o : Fin 256, s.pwr.state ≠ .off →
      (s.dbg.snapState = 0 → ∃ t, exec (.snapForwarded o) s = .next t ∧ t.dbg.snapState = 1 ∧ t.dbg.snapCause = 2 ∧
        t.dbg.snapOrigin = o.val ∧ t.out = s.out ∧ t.cores = s.cores) ∧
      (s.dbg.snapState = 2 → ∃ t, exec (.snapForwarded o) s = .next t ∧ t.dbg = { s.dbg with missed := stick16 s.dbg.missed 1 } ∧
        t.out = s.out ∧ t.cores = s.cores)) ∧
    (s.pwr.state ≠ .off → s.dbg.snapState ≠ 1 → exec .snapshotCaptureDone s = .next s) ∧
    (s.clockOn = true → s.dbg.snapState = 1 →
      ∃ t, exec .snapshotCaptureDone s = .next t ∧ t.dbg.snapState = 2 ∧ t.dbg.snap = (s.snapEntries s.snapRing.2).1 ∧
        t.dbg.omitted = (s.snapEntries s.snapRing.2).2 ∧ t.loam = s.snapRing.1.loam ∧ t.syn = s.syn ∧
        (∃ e, t.dbg.snap.head? = some e ∧ e.time = s.ts.toNat ∧ e.kind = 0 ∧ e.vals = [s.dbg.snapCause, s.dbg.snapFault, s.dbg.snapOrigin,
          s.dbg.snapTick, s.str.shownId, s.str.epoch.toNat, t.dbg.snap.length, t.dbg.omitted]) ∧ t.dbg.snap.length ≤ 1024 ∧
        (∀ w a, (s.item w).abort = some a → a.snap = true →
          ((s.ctx w).phase = .waitRange ∨ (s.ctx w).phase = .issuing → t.ctx w = {}) ∧
          ((s.ctx w).phase ≠ .waitRange → (s.ctx w).phase ≠ .issuing → (t.ctx w).phase = .aborting ∧ (t.item w).record.fault = a.fault)) ∧
        (∀ w, (s.item w).abort = none → t.ctx w = s.ctx w))

/-- WATCH_DUMP and TRACE_DRAIN (R278, R279, R283): a dump begins when its item is done or its abort has poisoned, with no region to copy for
an aborted item; when every region is copied, or no room is left for more, the header is written and the entry is over; where it may not be
written there the entry is over without it; the oldest events leave in order, each with its 16-byte header of TIME, CLASS, WHO, LEN, CLUSTER
and SEQ, whose CODE is the one value left open (log 82). That the watch path is channel 32 of the channel table is log 35's choice, and that
a drain of no event changes nothing log 1's. -/
def Obligations.DumpsAndTrace : Prop :=
  (∀ (w : Who) (s : State), s.fastOn = true →
    ((s.item w).watch = [] ∨ s.dumpReady w = false → exec (.watchDump w) s = .next s) ∧
    (∀ h hs, (s.item w).watch = h :: hs → s.dumpReady w = true →
      ((s.item w).dump = none →
        ∃ t, exec (.watchDump w) s = .next t ∧ t.loam = s.loam ∧ (t.item w).watch = h :: hs ∧
          (t.item w).dump = some { time := s.ts.toNat, fault := ((s.item w).abort.map (·.fault)).getD 0,
                                   next := if (s.item w).abort.isSome then (s.item w).hdr.regions.length else 0 }) ∧
      (∀ d l, (s.item w).dump = some d → d.header = none → (s.chan 32).run.find? (fun r => r.itemNo == (s.item w).no) = none →
        (s.item w).hdr.regions.length ≤ d.next ∨ h.room d = 0 → placeOf s.id h.addr = .own l → s.dumpAllowed w.core.val h.addr 64 = 64 →
        ∃ t, exec (.watchDump w) s = .next t ∧ (t.item w).watch = hs ∧ (t.item w).dump = none ∧
          t.loam = (s.loamWrite 5 l (dumpHeader (pkgIndex s.id) w (s.item w).hdr h d)).1.loam) ∧
      (∀ d, (s.item w).dump = some d → d.header = none → (s.chan 32).run.find? (fun r => r.itemNo == (s.item w).no) = none →
        (s.item w).hdr.regions.length ≤ d.next ∨ h.room d = 0 → s.dumpAllowed w.core.val h.addr 64 < 64 →
        ∃ t, exec (.watchDump w) s = .next t ∧ (t.item w).watch = hs ∧ (t.item w).dump = none ∧ t.loam = s.loam))) ∧
  (∀ (n : Nat) (s : State), s.pwr.state ≠ .off →
    (s.clockOn = false ∨ s.dbg.staged = [] ∨ n = 0 → exec (.traceDrain n) s = .next s) ∧
    (s.clockOn = true → s.dbg.staged ≠ [] → 0 < n →
      ∃ t, exec (.traceDrain n) s = .next t ∧ t.dbg = { s.dbg with staged := s.dbg.staged.drop n } ∧
        t.out = s.out ++ (s.dbg.staged.take n).map (fun e => Output.trace (e.header (pkgIndex s.id)) e) ∧ t.cores = s.cores ∧ t.loam = s.loam) ∧
    (∀ (e : TraceEv) (c : Nat), (e.header c).length = 16 ∧ fieldB (e.header c) 0 8 = e.time % 2 ^ 64 ∧ fieldB (e.header c) 8 1 = e.cls % 32 ∧
      fieldB (e.header c) 10 1 = e.who % 256 ∧ fieldB (e.header c) 11 1 = e.size / 16 % 256 ∧ fieldB (e.header c) 12 2 = c % 2 ^ 16 ∧
      fieldB (e.header c) 14 2 = e.seq % 2 ^ 16))

/-- REGISTER_WRITE and REGISTER_READ (R237, R241, R256, R292 to R294, R304). An access to an STR_, PWR_ or MRL_ register is served in every
power state, Nap among them; one of another cluster is held before core release, and a write of the host to an STR_ or MRL_ register until
the journal is replayed, which is log 85's choice. An access to another register is held while the fast clock is stopped or held, in the
held steps of a swap, and, but for the host's, before core release. What is served is answered: an access that fails the checks of R256
writes nothing and answers the first fault; one that passes has the register's effect. The lower word of a 64-bit register is latched for
the path, and its upper word commits both; a 64-bit access has one register whole, or two words, each checked on its own before either is
performed, a half on no register or on a read-only one being ignored where it is zero. -/
def Obligations.RegisterAccess : Prop :=
  ∀ (p : Party) (off : BitVec 20) (s : State), s.pwr.state ≠ .off →
    let o := off.toNat
    let a := accOf p
    let aon := aonReg o
    let b := if aon = true then allBlocks else fastBlocks
    let served (wr : Bool) (x : Traffic) : Prop := (aon = true → s.heldEarly p o wr = false) ∧ (aon = false → s.holds x = false)
    let alike (t u : State) : Prop := t.loam = u.loam ∧ t.str = u.str ∧ t.cores = u.cores ∧ t.msg = u.msg ∧ t.latches = u.latches
    (aon = decide (o / 0x1000 = 1 ∨ o / 0x1000 = 0xB ∨ o / 0x1000 = 0xC) ∧
      (∀ wr, s.heldEarly p o wr =
        (p != .host && s.pwr.start != .released || (wr && s.pwr.start == .reset && (o / 0x1000 == 1 || o / 0x1000 == 0xC)))) ∧
      (∀ w v, s.holds (.write p o w v) = ((if p = .host then !s.clockOn || s.swapHeld else !s.agentsOn) || s.waitsOn (blockLookups o))) ∧
      (∀ w, s.holds (.read p o w) = ((if p = .host then !s.clockOn || s.swapHeld else !s.agentsOn) || s.waitsOn (blockLookups o)))) ∧
    (∀ (w : Width) (v : Word64), accessWf p w = true →
      (aon = true → s.heldEarly p o true = true → exec (.registerWrite p off w v) s = .next { s with heldAon := s.heldAon ++ [.write p o w v] }) ∧
      (aon = true → s.heldEarly p o false = true → exec (.registerRead p off w) s = .next { s with heldAon := s.heldAon ++ [.read p o w] }) ∧
      (aon = false → s.holds (.write p o w v) = true → exec (.registerWrite p off w v) s = .next { s with held := s.held ++ [.write p o w v] }) ∧
      (aon = false → s.holds (.read p o w) = true → exec (.registerRead p off w) s = .next { s with held := s.held ++ [.read p o w] }) ∧
      (served true (.write p o w v) → ∀ u f, regWriteWith b s a o w v.toNat = (u, f) →
        ∃ t, exec (.registerWrite p off w v) s = .next t ∧ alike t u ∧ t.out.getLast? = some (.regAnswer p 0 f)) ∧
      (served false (.read p o w) → ∀ u r, s.regRead a o w = (u, r) →
        ∃ t, exec (.registerRead p off w) s = .next t ∧ alike t u ∧
          t.out.getLast? = some (match r with
            | .ok x => .regAnswer p (BitVec.ofNat 64 x) 0
            | .bad f => .regAnswer p 0 f))) ∧
    (∀ v, (∀ w ∈ [Width.b1, Width.b2], regWriteWith b s a o w v = (s, 0x0C01) ∧ s.regRead a o w = (s, .bad 0x0C01)) ∧
      (regAt o = none ∨ o % 4 ≠ 0 → regWriteWith b s a o .b4 v = (s, 0x0C01) ∧ s.regRead a o .b4 = (s, .bad 0x0C01)) ∧
      ((regAt o = none ∧ regAt (o + 4) = none) ∨ o % 8 ≠ 0 → regWriteWith b s a o .b8 v = (s, 0x0C01) ∧ s.regRead a o .b8 = (s, .bad 0x0C01))) ∧
    (∀ x v, regAt o = some x → o % 4 = 0 → v < 2 ^ 32 →
      (x.row.bytes ≠ 8 → regWriteWith b s a o .b4 v =
        if writeFault b s a x v ≠ 0 then (s, writeFault b s a x v) else b.act s x.row.first x.k x.o v) ∧
      (x.row.bytes = 8 → x.row.priv.allows a true = true → x.row.ro = false →
        let t := s.setLatch a o { s.latch a o with wr := 0 }
        let both := (s.latch a o).wr.toNat + v * 2 ^ 32
        regWriteWith b s a o .b4 v =
          if x.o = 0 then (s.setLatch a o { s.latch a o with wr := BitVec.ofNat 32 v }, 0)
          else if writeFault b t a { x with o := 0 } both ≠ 0 then (t, writeFault b t a { x with o := 0 } both)
          else b.act t x.row.first x.k 0 both) ∧
      (x.row.priv.allows a false = false → s.regRead a o .b4 = (s, .bad 0x0C02)) ∧
      (x.row.priv.allows a false = true →
        (∀ u c, x.row.bytes = 8 → x.o = 0 → s.regBytes a x 8 = (u, .ok c) → s.regRead a o .b4 =
          (u.setLatch a o { u.latch a o with rd := some (BitVec.ofNat 32 (fieldB c 4 4)) }, .ok (fieldB c 0 4))) ∧
        (∀ hi, x.row.bytes = 8 → x.o ≠ 0 → (s.latch a o).rd = some hi →
          s.regRead a o .b4 = (s.setLatch a o { s.latch a o with rd := none }, .ok hi.toNat)) ∧
        (∀ u c, x.row.bytes ≠ 8 ∨ (x.o ≠ 0 ∧ (s.latch a o).rd = none) → s.regBytes a x 4 = (u, .ok c) →
          s.regRead a o .b4 = (u, .ok (leNat c))))) ∧
    (∀ x v, regAt o = some x → o % 8 = 0 → x.row.bytes = 8 →
      regWriteWith b s a o .b8 v = (if writeFault b s a x v ≠ 0 then (s, writeFault b s a x v) else b.act s x.row.first x.k 0 v) ∧
      (∀ u c, x.o = 0 → x.row.priv.allows a false = true → s.regBytes a x 8 = (u, .ok c) → s.regRead a o .b8 = (u, .ok (leNat c)))) ∧
    (∀ v, o % 8 = 0 → (∀ x, regAt o = some x → x.row.bytes ≠ 8) → regAt o ≠ none ∨ regAt (o + 4) ≠ none →
      let wide := sameReg (regAt o) (regAt (o + 4))
      let idle (y : Option RegAt) (n : Nat) : Prop := n = 0 ∧ ∀ r, y = some r → r.row.ro = true ∧ wide = false
      let fault (y : Option RegAt) (n f : Nat) : Prop := (idle y n ∧ f = 0) ∨ (y = none ∧ n ≠ 0 ∧ f = 0x0C01) ∨
        ∃ r, y = some r ∧ ¬ idle y n ∧ f = writeFault b s a r n
      let does (y : Option RegAt) (n : Nat) (t : State) : State × Nat := match y with
        | some r => if r.row.ro then (t, 0) else b.act t r.row.first r.k r.o n
        | none => (t, 0)
      ∀ fl fh, fault (regAt o) (v % 2 ^ 32) fl → fault (regAt (o + 4)) (v / 2 ^ 32) fh →
        (fl ≠ 0 ∨ fh ≠ 0 → regWriteWith b s a o .b8 v = (s, if fl ≠ 0 then fl else fh)) ∧
        (fl = 0 → fh = 0 → ∀ t, does (regAt o) (v % 2 ^ 32) s = (t, 0) → regWriteWith b s a o .b8 v = does (regAt (o + 4)) (v / 2 ^ 32) t))
end

