-- ==== Sys2Proof/Laws/Tab.lean ====
section
/-! SUPPORT. Laws/Tab.lean: sparse tables and sparse memories: reads after writes, and the canonical form that every operation on a
memory keeps. -/

namespace Sys2Proof.Machine

/-- A key that was set holds its value. -/
@[simp] theorem tabGet_tabSet_self {α : Type} (d : α) (t : Tab α) (k : Nat) (v : α) : tabGet d (tabSet t k v) k = v := by
  induction t with
  | nil => simp [tabSet, tabGet]
  | cons e t ih =>
    obtain ⟨k', v'⟩ := e
    simp only [tabSet]
    split
    · simp [tabGet]
    · split
      · simp [tabGet]
      · rename_i h; simp [tabGet, h, ih]

/-- Setting a key leaves every other key alone. -/
theorem tabGet_tabSet_ne {α : Type} (d : α) (t : Tab α) {k j : Nat} (v : α) (h : j ≠ k) : tabGet d (tabSet t k v) j = tabGet d t j := by
  induction t with
  | nil => simp [tabSet, tabGet, Ne.symm h]
  | cons e t ih =>
    obtain ⟨k', v'⟩ := e
    simp only [tabSet]
    split
    · simp [tabGet, Ne.symm h]
    · split
      · rename_i h'; subst h'; simp [tabGet, Ne.symm h]
      · simp [tabGet, ih]

/-- The later of two sets of a key stands. -/
@[simp] theorem tabSet_tabSet {α : Type} (t : Tab α) (k : Nat) (u v : α) : tabSet (tabSet t k u) k v = tabSet t k v := by
  induction t with
  | nil => simp [tabSet]
  | cons e t ih =>
    obtain ⟨k', v'⟩ := e
    simp only [tabSet]
    split
    · simp [tabSet]
    · split
      · simp [tabSet]
      · rename_i h1 h2; simp [tabSet, h1, h2, ih]

/-- The entries after a set are the new one and some of the old ones. -/
theorem mem_tabSet {α : Type} {t : Tab α} {k : Nat} {v : α} {e : Nat × α} (h : e ∈ tabSet t k v) : e = (k, v) ∨ e ∈ t := by
  induction t with
  | nil => simpa [tabSet] using h
  | cons a t ih =>
    obtain ⟨k', v'⟩ := a
    simp only [tabSet] at h
    split at h
    · simpa using h
    · split at h
      · simp only [List.mem_cons] at h ⊢; tauto
      · simp only [List.mem_cons] at h ⊢
        rcases h with h | h
        · exact .inr (.inl h)
        · rcases ih h with h | h <;> tauto

/-- What a table holds at a key is its default or one of its entries. -/
theorem tabGet_mem {α : Type} (d : α) (t : Tab α) (k : Nat) : tabGet d t k = d ∨ (k, tabGet d t k) ∈ t := by
  induction t with
  | nil => exact .inl rfl
  | cons a t ih =>
    obtain ⟨k', v'⟩ := a
    simp only [tabGet]
    split
    · rename_i h; subst h; simp
    · rcases ih with h | h
      · exact .inl h
      · exact .inr (List.mem_cons_of_mem _ h)

/-- Rising keys, as a property of every pair. -/
theorem keysRise_cons {α : Type} (e : Nat × α) (t : Tab α) :
    keysRise (e :: t) = true ↔ (∀ x ∈ t, e.1 < x.1) ∧ keysRise t = true := by
  induction t generalizing e with
  | nil => simp [keysRise]
  | cons f t ih =>
    have hf := ih f
    simp only [keysRise, Bool.and_eq_true, decide_eq_true_eq]
    constructor
    · rintro ⟨h, r⟩
      refine ⟨fun x hx => ?_, r⟩
      rcases List.mem_cons.mp hx with rfl | hx
      · exact h
      · exact lt_trans h ((hf.mp r).1 x hx)
    · rintro ⟨h, r⟩
      exact ⟨h f (by simp), r⟩

/-- A set keeps the keys rising. -/
theorem keysRise_tabSet {α : Type} {t : Tab α} (k : Nat) (v : α) (h : keysRise t = true) : keysRise (tabSet t k v) = true := by
  induction t with
  | nil => rfl
  | cons a t ih =>
    obtain ⟨k', v'⟩ := a
    have hc := (keysRise_cons _ _).mp h
    simp only [tabSet]
    split
    · refine (keysRise_cons _ _).mpr ⟨fun x hx => ?_, h⟩
      rcases List.mem_cons.mp hx with rfl | hx
      · assumption
      · exact lt_trans (by assumption) (hc.1 x hx)
    · split
      · rename_i e; subst e
        exact (keysRise_cons _ _).mpr hc
      · refine (keysRise_cons _ _).mpr ⟨fun x hx => ?_, ih hc.2⟩
        rcases mem_tabSet hx with rfl | hx
        · simp only at *; omega
        · exact hc.1 x hx

/-- The entries after an erasure are some of the old ones. -/
theorem mem_tabErase {α : Type} {t : Tab α} {k : Nat} {e : Nat × α} (h : e ∈ tabErase t k) : e ∈ t := by
  induction t with
  | nil => exact h
  | cons a t ih =>
    obtain ⟨k', v'⟩ := a
    simp only [tabErase] at h
    split at h
    · exact List.mem_cons_of_mem _ h
    · rcases List.mem_cons.mp h with rfl | h
      · simp
      · exact List.mem_cons_of_mem _ (ih h)

/-- An erasure keeps the keys rising. -/
theorem keysRise_tabErase {α : Type} {t : Tab α} (k : Nat) (h : keysRise t = true) : keysRise (tabErase t k) = true := by
  induction t with
  | nil => rfl
  | cons a t ih =>
    obtain ⟨k', v'⟩ := a
    have hc := (keysRise_cons _ _).mp h
    simp only [tabErase]
    split
    · exact hc.2
    · exact (keysRise_cons _ _).mpr ⟨fun x hx => hc.1 x (mem_tabErase hx), ih hc.2⟩

/-! ### Memories -/

/-- An empty memory is canonical. -/
@[simp] theorem Mem.wf_nil : Mem.wf [] = true := rfl

/-- Writing a byte keeps the canonical form. -/
theorem Mem.wf_set {m : Mem} (a : Nat) (v : Byte) (h : m.wf = true) : (m.set a v).wf = true := by
  simp only [Mem.wf, Bool.and_eq_true, List.all_eq_true] at h ⊢
  unfold Mem.set
  split
  · exact ⟨keysRise_tabErase _ h.1, fun x hx => h.2 x (mem_tabErase hx)⟩
  · refine ⟨keysRise_tabSet _ _ h.1, fun x hx => ?_⟩
    rcases mem_tabSet hx with rfl | hx
    · simpa using ‹¬v = 0›
    · exact h.2 x hx

/-- Writing bytes keeps the canonical form. -/
theorem Mem.wf_write (bs : List Byte) : ∀ {m : Mem} (a : Nat), m.wf = true → (m.write a bs).wf = true := by
  induction bs with
  | nil => intro m a h; exact h
  | cons b bs ih => intro m a h; exact ih _ (Mem.wf_set a b h)

/-- Leaving entries out keeps the keys rising. -/
theorem keysRise_filter {α : Type} (p : Nat × α → Bool) {t : Tab α} (h : keysRise t = true) : keysRise (t.filter p) = true := by
  induction t with
  | nil => rfl
  | cons a t ih =>
    have hc := (keysRise_cons _ _).mp h
    simp only [List.filter]
    split
    · exact (keysRise_cons _ _).mpr ⟨fun x hx => hc.1 x (List.mem_of_mem_filter hx), ih hc.2⟩
    · exact ih hc.2

/-- Leaving bytes out keeps the canonical form. -/
theorem Mem.wf_filter (p : Nat × Byte → Bool) {m : Mem} (h : m.wf = true) : Mem.wf (m.filter p) = true := by
  simp only [Mem.wf, Bool.and_eq_true, List.all_eq_true] at h ⊢
  exact ⟨keysRise_filter p h.1, fun x hx => h.2 x (List.mem_of_mem_filter hx)⟩

/-- A key below every listed key is not listed. -/
theorem tabGet_lt {α : Type} (d : α) {t : Tab α} {k : Nat} (h : ∀ x ∈ t, k < x.1) : tabGet d t k = d := by
  induction t with
  | nil => rfl
  | cons a t ih =>
    obtain ⟨k', v'⟩ := a
    have := h (k', v') (by simp)
    simp only at this
    simp only [tabGet]
    rw [if_neg (by omega)]
    exact ih fun x hx => h x (List.mem_cons_of_mem _ hx)

/-- An erased key holds the default, where the keys rise. -/
theorem tabGet_tabErase_self {α : Type} (d : α) {t : Tab α} (k : Nat) (h : keysRise t = true) : tabGet d (tabErase t k) k = d := by
  induction t with
  | nil => rfl
  | cons a t ih =>
    obtain ⟨k', v'⟩ := a
    have hc := (keysRise_cons _ _).mp h
    simp only [tabErase]
    split
    · rename_i e; subst e; exact tabGet_lt d hc.1
    · rename_i e; simp only [tabGet]; rw [if_neg e]; exact ih hc.2

/-- Erasing a key leaves every other key alone. -/
theorem tabGet_tabErase_ne {α : Type} (d : α) {t : Tab α} {k j : Nat} (h : j ≠ k) : tabGet d (tabErase t k) j = tabGet d t j := by
  induction t with
  | nil => rfl
  | cons a t ih =>
    obtain ⟨k', v'⟩ := a
    simp only [tabErase]
    split
    · rename_i e; subst e; simp [tabGet, Ne.symm h]
    · simp [tabGet, ih]

/-- The byte written is read back. -/
@[simp] theorem Mem.get_set_self {m : Mem} (a : Nat) (v : Byte) (h : m.wf = true) : (m.set a v).get a = v := by
  have hk : keysRise m = true := by simp only [Mem.wf, Bool.and_eq_true] at h; exact h.1
  unfold Mem.set Mem.get
  split
  · rename_i e; rw [e]; exact tabGet_tabErase_self 0 a hk
  · exact tabGet_tabSet_self 0 m a v

/-- Writing a byte leaves every other byte alone. -/
theorem Mem.get_set_ne {m : Mem} {a b : Nat} (v : Byte) (h : b ≠ a) : (m.set a v).get b = m.get b := by
  unfold Mem.set Mem.get
  split
  · exact tabGet_tabErase_ne 0 h
  · exact tabGet_tabSet_ne 0 m v h

/-- Writing bytes leaves every byte outside them alone. -/
theorem Mem.get_write_out (bs : List Byte) : ∀ (m : Mem) (a b : Nat), (b < a ∨ a + bs.length ≤ b) → (m.write a bs).get b = m.get b := by
  induction bs with
  | nil => intro m a b _; rfl
  | cons x bs ih =>
    intro m a b h
    simp only [List.length_cons] at h
    rw [Mem.write, ih _ _ _ (by omega), Mem.get_set_ne _ (by omega)]

/-- The bytes written are read back. -/
theorem Mem.get_write_in (bs : List Byte) : ∀ (m : Mem) (a i : Nat) (_ : m.wf = true) (h : i < bs.length), (m.write a bs).get (a + i) = bs[i] := by
  induction bs with
  | nil => intro m a i _ h; simp at h
  | cons x bs ih =>
    intro m a i hm h
    cases i with
    | zero => rw [Mem.write, Mem.get_write_out _ _ _ _ (by omega)]; simpa using Mem.get_set_self a x hm
    | succ i =>
      have := ih (m.set a x) (a + 1) i (Mem.wf_set a x hm) (by simpa using h)
      rw [Mem.write, show a + (i + 1) = a + 1 + i by omega, this]; rfl

end Sys2Proof.Machine
end

