-- ==== Sys2Proof/Laws/State.lean ====
section
/-! SUPPORT. Laws/State.lean: what each update of the state leaves alone, one lemma for each field, so that no later proof unfolds a
record update. -/

namespace Sys2Proof.Machine

@[simp] theorem State.setCore_id (s : State) (c : Nat) (x : Core) : (s.setCore c x).id = s.id := rfl
@[simp] theorem State.setCore_ticks (s : State) (c : Nat) (x : Core) : (s.setCore c x).ticks = s.ticks := rfl
@[simp] theorem State.setCore_ts (s : State) (c : Nat) (x : Core) : (s.setCore c x).ts = s.ts := rfl
@[simp] theorem State.setCore_tsRun (s : State) (c : Nat) (x : Core) : (s.setCore c x).tsRun = s.tsRun := rfl
@[simp] theorem State.setCore_align (s : State) (c : Nat) (x : Core) : (s.setCore c x).align = s.align := rfl
@[simp] theorem State.setCore_str (s : State) (c : Nat) (x : Core) : (s.setCore c x).str = s.str := rfl
@[simp] theorem State.setCore_loam (s : State) (c : Nat) (x : Core) : (s.setCore c x).loam = s.loam := rfl
@[simp] theorem State.setCore_err (s : State) (c : Nat) (x : Core) : (s.setCore c x).err = s.err := rfl
@[simp] theorem State.setCore_ctr (s : State) (c : Nat) (x : Core) : (s.setCore c x).ctr = s.ctr := rfl
@[simp] theorem State.setCore_msg (s : State) (c : Nat) (x : Core) : (s.setCore c x).msg = s.msg := rfl
@[simp] theorem State.setCore_syn (s : State) (c : Nat) (x : Core) : (s.setCore c x).syn = s.syn := rfl
@[simp] theorem State.setCore_port (s : State) (c : Nat) (x : Core) : (s.setCore c x).port = s.port := rfl
@[simp] theorem State.setCore_dma (s : State) (c : Nat) (x : Core) : (s.setCore c x).dma = s.dma := rfl
@[simp] theorem State.setCore_bq (s : State) (c : Nat) (x : Core) : (s.setCore c x).bq = s.bq := rfl
@[simp] theorem State.setCore_pwr (s : State) (c : Nat) (x : Core) : (s.setCore c x).pwr = s.pwr := rfl
@[simp] theorem State.setCore_mrl (s : State) (c : Nat) (x : Core) : (s.setCore c x).mrl = s.mrl := rfl
@[simp] theorem State.setCore_tel (s : State) (c : Nat) (x : Core) : (s.setCore c x).tel = s.tel := rfl
@[simp] theorem State.setCore_dbg (s : State) (c : Nat) (x : Core) : (s.setCore c x).dbg = s.dbg := rfl
@[simp] theorem State.setCore_latches (s : State) (c : Nat) (x : Core) : (s.setCore c x).latches = s.latches := rfl
@[simp] theorem State.setCore_held (s : State) (c : Nat) (x : Core) : (s.setCore c x).held = s.held := rfl
@[simp] theorem State.setCore_damage (s : State) (c : Nat) (x : Core) : (s.setCore c x).damage = s.damage := rfl
@[simp] theorem State.setCore_heldAon (s : State) (c : Nat) (x : Core) : (s.setCore c x).heldAon = s.heldAon := rfl
@[simp] theorem State.setCore_soft (s : State) (c : Nat) (x : Core) : (s.setCore c x).soft = s.soft := rfl
@[simp] theorem State.setCore_moved (s : State) (c : Nat) (x : Core) : (s.setCore c x).moved = s.moved := rfl
@[simp] theorem State.setCore_out (s : State) (c : Nat) (x : Core) : (s.setCore c x).out = s.out := rfl
@[simp] theorem State.setCore_free (s : State) (c : Nat) (x : Core) : (s.setCore c x).free = s.free := rfl
@[simp] theorem State.setCore_itemNo (s : State) (c : Nat) (x : Core) : (s.setCore c x).itemNo = s.itemNo := rfl
@[simp] theorem State.setCore_pending (s : State) (c : Nat) (x : Core) : (s.setCore c x).pending = s.pending := rfl

@[simp] theorem State.modCore_id (s : State) (c : Nat) (f : Core → Core) : (s.modCore c f).id = s.id := rfl
@[simp] theorem State.modCore_ticks (s : State) (c : Nat) (f : Core → Core) : (s.modCore c f).ticks = s.ticks := rfl
@[simp] theorem State.modCore_ts (s : State) (c : Nat) (f : Core → Core) : (s.modCore c f).ts = s.ts := rfl
@[simp] theorem State.modCore_tsRun (s : State) (c : Nat) (f : Core → Core) : (s.modCore c f).tsRun = s.tsRun := rfl
@[simp] theorem State.modCore_align (s : State) (c : Nat) (f : Core → Core) : (s.modCore c f).align = s.align := rfl
@[simp] theorem State.modCore_str (s : State) (c : Nat) (f : Core → Core) : (s.modCore c f).str = s.str := rfl
@[simp] theorem State.modCore_loam (s : State) (c : Nat) (f : Core → Core) : (s.modCore c f).loam = s.loam := rfl
@[simp] theorem State.modCore_err (s : State) (c : Nat) (f : Core → Core) : (s.modCore c f).err = s.err := rfl
@[simp] theorem State.modCore_ctr (s : State) (c : Nat) (f : Core → Core) : (s.modCore c f).ctr = s.ctr := rfl
@[simp] theorem State.modCore_msg (s : State) (c : Nat) (f : Core → Core) : (s.modCore c f).msg = s.msg := rfl
@[simp] theorem State.modCore_syn (s : State) (c : Nat) (f : Core → Core) : (s.modCore c f).syn = s.syn := rfl
@[simp] theorem State.modCore_port (s : State) (c : Nat) (f : Core → Core) : (s.modCore c f).port = s.port := rfl
@[simp] theorem State.modCore_dma (s : State) (c : Nat) (f : Core → Core) : (s.modCore c f).dma = s.dma := rfl
@[simp] theorem State.modCore_bq (s : State) (c : Nat) (f : Core → Core) : (s.modCore c f).bq = s.bq := rfl
@[simp] theorem State.modCore_pwr (s : State) (c : Nat) (f : Core → Core) : (s.modCore c f).pwr = s.pwr := rfl
@[simp] theorem State.modCore_mrl (s : State) (c : Nat) (f : Core → Core) : (s.modCore c f).mrl = s.mrl := rfl
@[simp] theorem State.modCore_tel (s : State) (c : Nat) (f : Core → Core) : (s.modCore c f).tel = s.tel := rfl
@[simp] theorem State.modCore_dbg (s : State) (c : Nat) (f : Core → Core) : (s.modCore c f).dbg = s.dbg := rfl
@[simp] theorem State.modCore_latches (s : State) (c : Nat) (f : Core → Core) : (s.modCore c f).latches = s.latches := rfl
@[simp] theorem State.modCore_held (s : State) (c : Nat) (f : Core → Core) : (s.modCore c f).held = s.held := rfl
@[simp] theorem State.modCore_damage (s : State) (c : Nat) (f : Core → Core) : (s.modCore c f).damage = s.damage := rfl
@[simp] theorem State.modCore_heldAon (s : State) (c : Nat) (f : Core → Core) : (s.modCore c f).heldAon = s.heldAon := rfl
@[simp] theorem State.modCore_soft (s : State) (c : Nat) (f : Core → Core) : (s.modCore c f).soft = s.soft := rfl
@[simp] theorem State.modCore_moved (s : State) (c : Nat) (f : Core → Core) : (s.modCore c f).moved = s.moved := rfl
@[simp] theorem State.modCore_out (s : State) (c : Nat) (f : Core → Core) : (s.modCore c f).out = s.out := rfl
@[simp] theorem State.modCore_free (s : State) (c : Nat) (f : Core → Core) : (s.modCore c f).free = s.free := rfl
@[simp] theorem State.modCore_itemNo (s : State) (c : Nat) (f : Core → Core) : (s.modCore c f).itemNo = s.itemNo := rfl
@[simp] theorem State.modCore_pending (s : State) (c : Nat) (f : Core → Core) : (s.modCore c f).pending = s.pending := rfl

@[simp] theorem State.setCtx_id (s : State) (w : Who) (y : Ctx) : (s.setCtx w y).id = s.id := rfl
@[simp] theorem State.setCtx_ticks (s : State) (w : Who) (y : Ctx) : (s.setCtx w y).ticks = s.ticks := rfl
@[simp] theorem State.setCtx_ts (s : State) (w : Who) (y : Ctx) : (s.setCtx w y).ts = s.ts := rfl
@[simp] theorem State.setCtx_tsRun (s : State) (w : Who) (y : Ctx) : (s.setCtx w y).tsRun = s.tsRun := rfl
@[simp] theorem State.setCtx_align (s : State) (w : Who) (y : Ctx) : (s.setCtx w y).align = s.align := rfl
@[simp] theorem State.setCtx_str (s : State) (w : Who) (y : Ctx) : (s.setCtx w y).str = s.str := rfl
@[simp] theorem State.setCtx_loam (s : State) (w : Who) (y : Ctx) : (s.setCtx w y).loam = s.loam := rfl
@[simp] theorem State.setCtx_err (s : State) (w : Who) (y : Ctx) : (s.setCtx w y).err = s.err := rfl
@[simp] theorem State.setCtx_ctr (s : State) (w : Who) (y : Ctx) : (s.setCtx w y).ctr = s.ctr := rfl
@[simp] theorem State.setCtx_msg (s : State) (w : Who) (y : Ctx) : (s.setCtx w y).msg = s.msg := rfl
@[simp] theorem State.setCtx_syn (s : State) (w : Who) (y : Ctx) : (s.setCtx w y).syn = s.syn := rfl
@[simp] theorem State.setCtx_port (s : State) (w : Who) (y : Ctx) : (s.setCtx w y).port = s.port := rfl
@[simp] theorem State.setCtx_dma (s : State) (w : Who) (y : Ctx) : (s.setCtx w y).dma = s.dma := rfl
@[simp] theorem State.setCtx_bq (s : State) (w : Who) (y : Ctx) : (s.setCtx w y).bq = s.bq := rfl
@[simp] theorem State.setCtx_pwr (s : State) (w : Who) (y : Ctx) : (s.setCtx w y).pwr = s.pwr := rfl
@[simp] theorem State.setCtx_mrl (s : State) (w : Who) (y : Ctx) : (s.setCtx w y).mrl = s.mrl := rfl
@[simp] theorem State.setCtx_tel (s : State) (w : Who) (y : Ctx) : (s.setCtx w y).tel = s.tel := rfl
@[simp] theorem State.setCtx_dbg (s : State) (w : Who) (y : Ctx) : (s.setCtx w y).dbg = s.dbg := rfl
@[simp] theorem State.setCtx_latches (s : State) (w : Who) (y : Ctx) : (s.setCtx w y).latches = s.latches := rfl
@[simp] theorem State.setCtx_held (s : State) (w : Who) (y : Ctx) : (s.setCtx w y).held = s.held := rfl
@[simp] theorem State.setCtx_damage (s : State) (w : Who) (y : Ctx) : (s.setCtx w y).damage = s.damage := rfl
@[simp] theorem State.setCtx_heldAon (s : State) (w : Who) (y : Ctx) : (s.setCtx w y).heldAon = s.heldAon := rfl
@[simp] theorem State.setCtx_soft (s : State) (w : Who) (y : Ctx) : (s.setCtx w y).soft = s.soft := rfl
@[simp] theorem State.setCtx_moved (s : State) (w : Who) (y : Ctx) : (s.setCtx w y).moved = s.moved := rfl
@[simp] theorem State.setCtx_out (s : State) (w : Who) (y : Ctx) : (s.setCtx w y).out = s.out := rfl
@[simp] theorem State.setCtx_free (s : State) (w : Who) (y : Ctx) : (s.setCtx w y).free = s.free := rfl
@[simp] theorem State.setCtx_itemNo (s : State) (w : Who) (y : Ctx) : (s.setCtx w y).itemNo = s.itemNo := rfl
@[simp] theorem State.setCtx_pending (s : State) (w : Who) (y : Ctx) : (s.setCtx w y).pending = s.pending := rfl

@[simp] theorem State.setItem_id (s : State) (w : Who) (i : Item) : (s.setItem w i).id = s.id := rfl
@[simp] theorem State.setItem_ticks (s : State) (w : Who) (i : Item) : (s.setItem w i).ticks = s.ticks := rfl
@[simp] theorem State.setItem_ts (s : State) (w : Who) (i : Item) : (s.setItem w i).ts = s.ts := rfl
@[simp] theorem State.setItem_tsRun (s : State) (w : Who) (i : Item) : (s.setItem w i).tsRun = s.tsRun := rfl
@[simp] theorem State.setItem_align (s : State) (w : Who) (i : Item) : (s.setItem w i).align = s.align := rfl
@[simp] theorem State.setItem_str (s : State) (w : Who) (i : Item) : (s.setItem w i).str = s.str := rfl
@[simp] theorem State.setItem_loam (s : State) (w : Who) (i : Item) : (s.setItem w i).loam = s.loam := rfl
@[simp] theorem State.setItem_err (s : State) (w : Who) (i : Item) : (s.setItem w i).err = s.err := rfl
@[simp] theorem State.setItem_ctr (s : State) (w : Who) (i : Item) : (s.setItem w i).ctr = s.ctr := rfl
@[simp] theorem State.setItem_msg (s : State) (w : Who) (i : Item) : (s.setItem w i).msg = s.msg := rfl
@[simp] theorem State.setItem_syn (s : State) (w : Who) (i : Item) : (s.setItem w i).syn = s.syn := rfl
@[simp] theorem State.setItem_port (s : State) (w : Who) (i : Item) : (s.setItem w i).port = s.port := rfl
@[simp] theorem State.setItem_dma (s : State) (w : Who) (i : Item) : (s.setItem w i).dma = s.dma := rfl
@[simp] theorem State.setItem_bq (s : State) (w : Who) (i : Item) : (s.setItem w i).bq = s.bq := rfl
@[simp] theorem State.setItem_pwr (s : State) (w : Who) (i : Item) : (s.setItem w i).pwr = s.pwr := rfl
@[simp] theorem State.setItem_mrl (s : State) (w : Who) (i : Item) : (s.setItem w i).mrl = s.mrl := rfl
@[simp] theorem State.setItem_tel (s : State) (w : Who) (i : Item) : (s.setItem w i).tel = s.tel := rfl
@[simp] theorem State.setItem_dbg (s : State) (w : Who) (i : Item) : (s.setItem w i).dbg = s.dbg := rfl
@[simp] theorem State.setItem_latches (s : State) (w : Who) (i : Item) : (s.setItem w i).latches = s.latches := rfl
@[simp] theorem State.setItem_held (s : State) (w : Who) (i : Item) : (s.setItem w i).held = s.held := rfl
@[simp] theorem State.setItem_damage (s : State) (w : Who) (i : Item) : (s.setItem w i).damage = s.damage := rfl
@[simp] theorem State.setItem_heldAon (s : State) (w : Who) (i : Item) : (s.setItem w i).heldAon = s.heldAon := rfl
@[simp] theorem State.setItem_soft (s : State) (w : Who) (i : Item) : (s.setItem w i).soft = s.soft := rfl
@[simp] theorem State.setItem_moved (s : State) (w : Who) (i : Item) : (s.setItem w i).moved = s.moved := rfl
@[simp] theorem State.setItem_out (s : State) (w : Who) (i : Item) : (s.setItem w i).out = s.out := rfl
@[simp] theorem State.setItem_free (s : State) (w : Who) (i : Item) : (s.setItem w i).free = s.free := rfl
@[simp] theorem State.setItem_itemNo (s : State) (w : Who) (i : Item) : (s.setItem w i).itemNo = s.itemNo := rfl
@[simp] theorem State.setItem_pending (s : State) (w : Who) (i : Item) : (s.setItem w i).pending = s.pending := rfl

@[simp] theorem State.modItem_id (s : State) (w : Who) (f : Item → Item) : (s.modItem w f).id = s.id := rfl
@[simp] theorem State.modItem_ticks (s : State) (w : Who) (f : Item → Item) : (s.modItem w f).ticks = s.ticks := rfl
@[simp] theorem State.modItem_ts (s : State) (w : Who) (f : Item → Item) : (s.modItem w f).ts = s.ts := rfl
@[simp] theorem State.modItem_tsRun (s : State) (w : Who) (f : Item → Item) : (s.modItem w f).tsRun = s.tsRun := rfl
@[simp] theorem State.modItem_align (s : State) (w : Who) (f : Item → Item) : (s.modItem w f).align = s.align := rfl
@[simp] theorem State.modItem_str (s : State) (w : Who) (f : Item → Item) : (s.modItem w f).str = s.str := rfl
@[simp] theorem State.modItem_loam (s : State) (w : Who) (f : Item → Item) : (s.modItem w f).loam = s.loam := rfl
@[simp] theorem State.modItem_err (s : State) (w : Who) (f : Item → Item) : (s.modItem w f).err = s.err := rfl
@[simp] theorem State.modItem_ctr (s : State) (w : Who) (f : Item → Item) : (s.modItem w f).ctr = s.ctr := rfl
@[simp] theorem State.modItem_msg (s : State) (w : Who) (f : Item → Item) : (s.modItem w f).msg = s.msg := rfl
@[simp] theorem State.modItem_syn (s : State) (w : Who) (f : Item → Item) : (s.modItem w f).syn = s.syn := rfl
@[simp] theorem State.modItem_port (s : State) (w : Who) (f : Item → Item) : (s.modItem w f).port = s.port := rfl
@[simp] theorem State.modItem_dma (s : State) (w : Who) (f : Item → Item) : (s.modItem w f).dma = s.dma := rfl
@[simp] theorem State.modItem_bq (s : State) (w : Who) (f : Item → Item) : (s.modItem w f).bq = s.bq := rfl
@[simp] theorem State.modItem_pwr (s : State) (w : Who) (f : Item → Item) : (s.modItem w f).pwr = s.pwr := rfl
@[simp] theorem State.modItem_mrl (s : State) (w : Who) (f : Item → Item) : (s.modItem w f).mrl = s.mrl := rfl
@[simp] theorem State.modItem_tel (s : State) (w : Who) (f : Item → Item) : (s.modItem w f).tel = s.tel := rfl
@[simp] theorem State.modItem_dbg (s : State) (w : Who) (f : Item → Item) : (s.modItem w f).dbg = s.dbg := rfl
@[simp] theorem State.modItem_latches (s : State) (w : Who) (f : Item → Item) : (s.modItem w f).latches = s.latches := rfl
@[simp] theorem State.modItem_held (s : State) (w : Who) (f : Item → Item) : (s.modItem w f).held = s.held := rfl
@[simp] theorem State.modItem_damage (s : State) (w : Who) (f : Item → Item) : (s.modItem w f).damage = s.damage := rfl
@[simp] theorem State.modItem_heldAon (s : State) (w : Who) (f : Item → Item) : (s.modItem w f).heldAon = s.heldAon := rfl
@[simp] theorem State.modItem_soft (s : State) (w : Who) (f : Item → Item) : (s.modItem w f).soft = s.soft := rfl
@[simp] theorem State.modItem_moved (s : State) (w : Who) (f : Item → Item) : (s.modItem w f).moved = s.moved := rfl
@[simp] theorem State.modItem_out (s : State) (w : Who) (f : Item → Item) : (s.modItem w f).out = s.out := rfl
@[simp] theorem State.modItem_free (s : State) (w : Who) (f : Item → Item) : (s.modItem w f).free = s.free := rfl
@[simp] theorem State.modItem_itemNo (s : State) (w : Who) (f : Item → Item) : (s.modItem w f).itemNo = s.itemNo := rfl
@[simp] theorem State.modItem_pending (s : State) (w : Who) (f : Item → Item) : (s.modItem w f).pending = s.pending := rfl

@[simp] theorem State.setPhase_id (s : State) (w : Who) (p : Phase) : (s.setPhase w p).id = s.id := rfl
@[simp] theorem State.setPhase_ticks (s : State) (w : Who) (p : Phase) : (s.setPhase w p).ticks = s.ticks := rfl
@[simp] theorem State.setPhase_ts (s : State) (w : Who) (p : Phase) : (s.setPhase w p).ts = s.ts := rfl
@[simp] theorem State.setPhase_tsRun (s : State) (w : Who) (p : Phase) : (s.setPhase w p).tsRun = s.tsRun := rfl
@[simp] theorem State.setPhase_align (s : State) (w : Who) (p : Phase) : (s.setPhase w p).align = s.align := rfl
@[simp] theorem State.setPhase_str (s : State) (w : Who) (p : Phase) : (s.setPhase w p).str = s.str := rfl
@[simp] theorem State.setPhase_loam (s : State) (w : Who) (p : Phase) : (s.setPhase w p).loam = s.loam := rfl
@[simp] theorem State.setPhase_err (s : State) (w : Who) (p : Phase) : (s.setPhase w p).err = s.err := rfl
@[simp] theorem State.setPhase_ctr (s : State) (w : Who) (p : Phase) : (s.setPhase w p).ctr = s.ctr := rfl
@[simp] theorem State.setPhase_msg (s : State) (w : Who) (p : Phase) : (s.setPhase w p).msg = s.msg := rfl
@[simp] theorem State.setPhase_syn (s : State) (w : Who) (p : Phase) : (s.setPhase w p).syn = s.syn := rfl
@[simp] theorem State.setPhase_port (s : State) (w : Who) (p : Phase) : (s.setPhase w p).port = s.port := rfl
@[simp] theorem State.setPhase_dma (s : State) (w : Who) (p : Phase) : (s.setPhase w p).dma = s.dma := rfl
@[simp] theorem State.setPhase_bq (s : State) (w : Who) (p : Phase) : (s.setPhase w p).bq = s.bq := rfl
@[simp] theorem State.setPhase_pwr (s : State) (w : Who) (p : Phase) : (s.setPhase w p).pwr = s.pwr := rfl
@[simp] theorem State.setPhase_mrl (s : State) (w : Who) (p : Phase) : (s.setPhase w p).mrl = s.mrl := rfl
@[simp] theorem State.setPhase_tel (s : State) (w : Who) (p : Phase) : (s.setPhase w p).tel = s.tel := rfl
@[simp] theorem State.setPhase_dbg (s : State) (w : Who) (p : Phase) : (s.setPhase w p).dbg = s.dbg := rfl
@[simp] theorem State.setPhase_latches (s : State) (w : Who) (p : Phase) : (s.setPhase w p).latches = s.latches := rfl
@[simp] theorem State.setPhase_held (s : State) (w : Who) (p : Phase) : (s.setPhase w p).held = s.held := rfl
@[simp] theorem State.setPhase_damage (s : State) (w : Who) (p : Phase) : (s.setPhase w p).damage = s.damage := rfl
@[simp] theorem State.setPhase_heldAon (s : State) (w : Who) (p : Phase) : (s.setPhase w p).heldAon = s.heldAon := rfl
@[simp] theorem State.setPhase_soft (s : State) (w : Who) (p : Phase) : (s.setPhase w p).soft = s.soft := rfl
@[simp] theorem State.setPhase_moved (s : State) (w : Who) (p : Phase) : (s.setPhase w p).moved = s.moved := rfl
@[simp] theorem State.setPhase_out (s : State) (w : Who) (p : Phase) : (s.setPhase w p).out = s.out := rfl
@[simp] theorem State.setPhase_free (s : State) (w : Who) (p : Phase) : (s.setPhase w p).free = s.free := rfl
@[simp] theorem State.setPhase_itemNo (s : State) (w : Who) (p : Phase) : (s.setPhase w p).itemNo = s.itemNo := rfl
@[simp] theorem State.setPhase_pending (s : State) (w : Who) (p : Phase) : (s.setPhase w p).pending = s.pending := rfl

@[simp] theorem State.send_id (s : State) (o : Output) : (s.send o).id = s.id := rfl
@[simp] theorem State.send_ticks (s : State) (o : Output) : (s.send o).ticks = s.ticks := rfl
@[simp] theorem State.send_ts (s : State) (o : Output) : (s.send o).ts = s.ts := rfl
@[simp] theorem State.send_tsRun (s : State) (o : Output) : (s.send o).tsRun = s.tsRun := rfl
@[simp] theorem State.send_align (s : State) (o : Output) : (s.send o).align = s.align := rfl
@[simp] theorem State.send_str (s : State) (o : Output) : (s.send o).str = s.str := rfl
@[simp] theorem State.send_loam (s : State) (o : Output) : (s.send o).loam = s.loam := rfl
@[simp] theorem State.send_err (s : State) (o : Output) : (s.send o).err = s.err := rfl
@[simp] theorem State.send_ctr (s : State) (o : Output) : (s.send o).ctr = s.ctr := rfl
@[simp] theorem State.send_cores (s : State) (o : Output) : (s.send o).cores = s.cores := rfl
@[simp] theorem State.send_msg (s : State) (o : Output) : (s.send o).msg = s.msg := rfl
@[simp] theorem State.send_syn (s : State) (o : Output) : (s.send o).syn = s.syn := rfl
@[simp] theorem State.send_port (s : State) (o : Output) : (s.send o).port = s.port := rfl
@[simp] theorem State.send_dma (s : State) (o : Output) : (s.send o).dma = s.dma := rfl
@[simp] theorem State.send_bq (s : State) (o : Output) : (s.send o).bq = s.bq := rfl
@[simp] theorem State.send_pwr (s : State) (o : Output) : (s.send o).pwr = s.pwr := rfl
@[simp] theorem State.send_mrl (s : State) (o : Output) : (s.send o).mrl = s.mrl := rfl
@[simp] theorem State.send_tel (s : State) (o : Output) : (s.send o).tel = s.tel := rfl
@[simp] theorem State.send_dbg (s : State) (o : Output) : (s.send o).dbg = s.dbg := rfl
@[simp] theorem State.send_latches (s : State) (o : Output) : (s.send o).latches = s.latches := rfl
@[simp] theorem State.send_held (s : State) (o : Output) : (s.send o).held = s.held := rfl
@[simp] theorem State.send_damage (s : State) (o : Output) : (s.send o).damage = s.damage := rfl
@[simp] theorem State.send_heldAon (s : State) (o : Output) : (s.send o).heldAon = s.heldAon := rfl
@[simp] theorem State.send_soft (s : State) (o : Output) : (s.send o).soft = s.soft := rfl
@[simp] theorem State.send_moved (s : State) (o : Output) : (s.send o).moved = s.moved := rfl
@[simp] theorem State.send_free (s : State) (o : Output) : (s.send o).free = s.free := rfl
@[simp] theorem State.send_itemNo (s : State) (o : Output) : (s.send o).itemNo = s.itemNo := rfl
@[simp] theorem State.send_pending (s : State) (o : Output) : (s.send o).pending = s.pending := rfl


@[simp] theorem State.bin_id (s : State) (b : Nat) (k : Nat) : (s.bin b k).id = s.id := rfl
@[simp] theorem State.bin_ticks (s : State) (b : Nat) (k : Nat) : (s.bin b k).ticks = s.ticks := rfl
@[simp] theorem State.bin_ts (s : State) (b : Nat) (k : Nat) : (s.bin b k).ts = s.ts := rfl
@[simp] theorem State.bin_tsRun (s : State) (b : Nat) (k : Nat) : (s.bin b k).tsRun = s.tsRun := rfl
@[simp] theorem State.bin_align (s : State) (b : Nat) (k : Nat) : (s.bin b k).align = s.align := rfl
@[simp] theorem State.bin_str (s : State) (b : Nat) (k : Nat) : (s.bin b k).str = s.str := rfl
@[simp] theorem State.bin_loam (s : State) (b : Nat) (k : Nat) : (s.bin b k).loam = s.loam := rfl
@[simp] theorem State.bin_err (s : State) (b : Nat) (k : Nat) : (s.bin b k).err = s.err := rfl
@[simp] theorem State.bin_ctr (s : State) (b : Nat) (k : Nat) : (s.bin b k).ctr = s.ctr := rfl
@[simp] theorem State.bin_cores (s : State) (b : Nat) (k : Nat) : (s.bin b k).cores = s.cores := rfl
@[simp] theorem State.bin_msg (s : State) (b : Nat) (k : Nat) : (s.bin b k).msg = s.msg := rfl
@[simp] theorem State.bin_syn (s : State) (b : Nat) (k : Nat) : (s.bin b k).syn = s.syn := rfl
@[simp] theorem State.bin_port (s : State) (b : Nat) (k : Nat) : (s.bin b k).port = s.port := rfl
@[simp] theorem State.bin_dma (s : State) (b : Nat) (k : Nat) : (s.bin b k).dma = s.dma := rfl
@[simp] theorem State.bin_bq (s : State) (b : Nat) (k : Nat) : (s.bin b k).bq = s.bq := rfl
@[simp] theorem State.bin_pwr (s : State) (b : Nat) (k : Nat) : (s.bin b k).pwr = s.pwr := rfl
@[simp] theorem State.bin_mrl (s : State) (b : Nat) (k : Nat) : (s.bin b k).mrl = s.mrl := rfl
@[simp] theorem State.bin_dbg (s : State) (b : Nat) (k : Nat) : (s.bin b k).dbg = s.dbg := rfl
@[simp] theorem State.bin_latches (s : State) (b : Nat) (k : Nat) : (s.bin b k).latches = s.latches := rfl
@[simp] theorem State.bin_held (s : State) (b : Nat) (k : Nat) : (s.bin b k).held = s.held := rfl
@[simp] theorem State.bin_damage (s : State) (b : Nat) (k : Nat) : (s.bin b k).damage = s.damage := rfl
@[simp] theorem State.bin_heldAon (s : State) (b : Nat) (k : Nat) : (s.bin b k).heldAon = s.heldAon := rfl
@[simp] theorem State.bin_soft (s : State) (b : Nat) (k : Nat) : (s.bin b k).soft = s.soft := rfl
@[simp] theorem State.bin_moved (s : State) (b : Nat) (k : Nat) : (s.bin b k).moved = s.moved := rfl
@[simp] theorem State.bin_out (s : State) (b : Nat) (k : Nat) : (s.bin b k).out = s.out := rfl
@[simp] theorem State.bin_free (s : State) (b : Nat) (k : Nat) : (s.bin b k).free = s.free := rfl
@[simp] theorem State.bin_itemNo (s : State) (b : Nat) (k : Nat) : (s.bin b k).itemNo = s.itemNo := rfl
@[simp] theorem State.bin_pending (s : State) (b : Nat) (k : Nat) : (s.bin b k).pending = s.pending := rfl

@[simp] theorem State.modCtr_id (s : State) (f : Ctrs → Ctrs) : (s.modCtr f).id = s.id := rfl
@[simp] theorem State.modCtr_ticks (s : State) (f : Ctrs → Ctrs) : (s.modCtr f).ticks = s.ticks := rfl
@[simp] theorem State.modCtr_ts (s : State) (f : Ctrs → Ctrs) : (s.modCtr f).ts = s.ts := rfl
@[simp] theorem State.modCtr_tsRun (s : State) (f : Ctrs → Ctrs) : (s.modCtr f).tsRun = s.tsRun := rfl
@[simp] theorem State.modCtr_align (s : State) (f : Ctrs → Ctrs) : (s.modCtr f).align = s.align := rfl
@[simp] theorem State.modCtr_str (s : State) (f : Ctrs → Ctrs) : (s.modCtr f).str = s.str := rfl
@[simp] theorem State.modCtr_loam (s : State) (f : Ctrs → Ctrs) : (s.modCtr f).loam = s.loam := rfl
@[simp] theorem State.modCtr_err (s : State) (f : Ctrs → Ctrs) : (s.modCtr f).err = s.err := rfl
@[simp] theorem State.modCtr_cores (s : State) (f : Ctrs → Ctrs) : (s.modCtr f).cores = s.cores := rfl
@[simp] theorem State.modCtr_msg (s : State) (f : Ctrs → Ctrs) : (s.modCtr f).msg = s.msg := rfl
@[simp] theorem State.modCtr_syn (s : State) (f : Ctrs → Ctrs) : (s.modCtr f).syn = s.syn := rfl
@[simp] theorem State.modCtr_port (s : State) (f : Ctrs → Ctrs) : (s.modCtr f).port = s.port := rfl
@[simp] theorem State.modCtr_dma (s : State) (f : Ctrs → Ctrs) : (s.modCtr f).dma = s.dma := rfl
@[simp] theorem State.modCtr_bq (s : State) (f : Ctrs → Ctrs) : (s.modCtr f).bq = s.bq := rfl
@[simp] theorem State.modCtr_pwr (s : State) (f : Ctrs → Ctrs) : (s.modCtr f).pwr = s.pwr := rfl
@[simp] theorem State.modCtr_mrl (s : State) (f : Ctrs → Ctrs) : (s.modCtr f).mrl = s.mrl := rfl
@[simp] theorem State.modCtr_tel (s : State) (f : Ctrs → Ctrs) : (s.modCtr f).tel = s.tel := rfl
@[simp] theorem State.modCtr_dbg (s : State) (f : Ctrs → Ctrs) : (s.modCtr f).dbg = s.dbg := rfl
@[simp] theorem State.modCtr_latches (s : State) (f : Ctrs → Ctrs) : (s.modCtr f).latches = s.latches := rfl
@[simp] theorem State.modCtr_held (s : State) (f : Ctrs → Ctrs) : (s.modCtr f).held = s.held := rfl
@[simp] theorem State.modCtr_damage (s : State) (f : Ctrs → Ctrs) : (s.modCtr f).damage = s.damage := rfl
@[simp] theorem State.modCtr_heldAon (s : State) (f : Ctrs → Ctrs) : (s.modCtr f).heldAon = s.heldAon := rfl
@[simp] theorem State.modCtr_soft (s : State) (f : Ctrs → Ctrs) : (s.modCtr f).soft = s.soft := rfl
@[simp] theorem State.modCtr_moved (s : State) (f : Ctrs → Ctrs) : (s.modCtr f).moved = s.moved := rfl
@[simp] theorem State.modCtr_out (s : State) (f : Ctrs → Ctrs) : (s.modCtr f).out = s.out := rfl
@[simp] theorem State.modCtr_free (s : State) (f : Ctrs → Ctrs) : (s.modCtr f).free = s.free := rfl
@[simp] theorem State.modCtr_itemNo (s : State) (f : Ctrs → Ctrs) : (s.modCtr f).itemNo = s.itemNo := rfl
@[simp] theorem State.modCtr_pending (s : State) (f : Ctrs → Ctrs) : (s.modCtr f).pending = s.pending := rfl

@[simp] theorem State.emit_id (s : State) (cls : Nat) (sub : SubEv) (who : Nat) (size : Nat) (vals : List Nat) : (s.emit cls sub who size vals).id = s.id := by unfold State.emit; dsimp only; (repeat' split) <;> simp
@[simp] theorem State.emit_ticks (s : State) (cls : Nat) (sub : SubEv) (who : Nat) (size : Nat) (vals : List Nat) : (s.emit cls sub who size vals).ticks = s.ticks := by unfold State.emit; dsimp only; (repeat' split) <;> simp
@[simp] theorem State.emit_ts (s : State) (cls : Nat) (sub : SubEv) (who : Nat) (size : Nat) (vals : List Nat) : (s.emit cls sub who size vals).ts = s.ts := by unfold State.emit; dsimp only; (repeat' split) <;> simp
@[simp] theorem State.emit_tsRun (s : State) (cls : Nat) (sub : SubEv) (who : Nat) (size : Nat) (vals : List Nat) : (s.emit cls sub who size vals).tsRun = s.tsRun := by unfold State.emit; dsimp only; (repeat' split) <;> simp
@[simp] theorem State.emit_align (s : State) (cls : Nat) (sub : SubEv) (who : Nat) (size : Nat) (vals : List Nat) : (s.emit cls sub who size vals).align = s.align := by unfold State.emit; dsimp only; (repeat' split) <;> simp
@[simp] theorem State.emit_str (s : State) (cls : Nat) (sub : SubEv) (who : Nat) (size : Nat) (vals : List Nat) : (s.emit cls sub who size vals).str = s.str := by unfold State.emit; dsimp only; (repeat' split) <;> simp
@[simp] theorem State.emit_loam (s : State) (cls : Nat) (sub : SubEv) (who : Nat) (size : Nat) (vals : List Nat) : (s.emit cls sub who size vals).loam = s.loam := by unfold State.emit; dsimp only; (repeat' split) <;> simp
@[simp] theorem State.emit_err (s : State) (cls : Nat) (sub : SubEv) (who : Nat) (size : Nat) (vals : List Nat) : (s.emit cls sub who size vals).err = s.err := by unfold State.emit; dsimp only; (repeat' split) <;> simp
@[simp] theorem State.emit_cores (s : State) (cls : Nat) (sub : SubEv) (who : Nat) (size : Nat) (vals : List Nat) : (s.emit cls sub who size vals).cores = s.cores := by unfold State.emit; dsimp only; (repeat' split) <;> simp
@[simp] theorem State.emit_msg (s : State) (cls : Nat) (sub : SubEv) (who : Nat) (size : Nat) (vals : List Nat) : (s.emit cls sub who size vals).msg = s.msg := by unfold State.emit; dsimp only; (repeat' split) <;> simp
@[simp] theorem State.emit_syn (s : State) (cls : Nat) (sub : SubEv) (who : Nat) (size : Nat) (vals : List Nat) : (s.emit cls sub who size vals).syn = s.syn := by unfold State.emit; dsimp only; (repeat' split) <;> simp
@[simp] theorem State.emit_port (s : State) (cls : Nat) (sub : SubEv) (who : Nat) (size : Nat) (vals : List Nat) : (s.emit cls sub who size vals).port = s.port := by unfold State.emit; dsimp only; (repeat' split) <;> simp
@[simp] theorem State.emit_dma (s : State) (cls : Nat) (sub : SubEv) (who : Nat) (size : Nat) (vals : List Nat) : (s.emit cls sub who size vals).dma = s.dma := by unfold State.emit; dsimp only; (repeat' split) <;> simp
@[simp] theorem State.emit_bq (s : State) (cls : Nat) (sub : SubEv) (who : Nat) (size : Nat) (vals : List Nat) : (s.emit cls sub who size vals).bq = s.bq := by unfold State.emit; dsimp only; (repeat' split) <;> simp
@[simp] theorem State.emit_pwr (s : State) (cls : Nat) (sub : SubEv) (who : Nat) (size : Nat) (vals : List Nat) : (s.emit cls sub who size vals).pwr = s.pwr := by unfold State.emit; dsimp only; (repeat' split) <;> simp
@[simp] theorem State.emit_mrl (s : State) (cls : Nat) (sub : SubEv) (who : Nat) (size : Nat) (vals : List Nat) : (s.emit cls sub who size vals).mrl = s.mrl := by unfold State.emit; dsimp only; (repeat' split) <;> simp
@[simp] theorem State.emit_tel (s : State) (cls : Nat) (sub : SubEv) (who : Nat) (size : Nat) (vals : List Nat) : (s.emit cls sub who size vals).tel = s.tel := by unfold State.emit; dsimp only; (repeat' split) <;> simp
@[simp] theorem State.emit_latches (s : State) (cls : Nat) (sub : SubEv) (who : Nat) (size : Nat) (vals : List Nat) : (s.emit cls sub who size vals).latches = s.latches := by unfold State.emit; dsimp only; (repeat' split) <;> simp
@[simp] theorem State.emit_held (s : State) (cls : Nat) (sub : SubEv) (who : Nat) (size : Nat) (vals : List Nat) : (s.emit cls sub who size vals).held = s.held := by unfold State.emit; dsimp only; (repeat' split) <;> simp
@[simp] theorem State.emit_damage (s : State) (cls : Nat) (sub : SubEv) (who : Nat) (size : Nat) (vals : List Nat) : (s.emit cls sub who size vals).damage = s.damage := by unfold State.emit; dsimp only; (repeat' split) <;> simp
@[simp] theorem State.emit_heldAon (s : State) (cls : Nat) (sub : SubEv) (who : Nat) (size : Nat) (vals : List Nat) : (s.emit cls sub who size vals).heldAon = s.heldAon := by unfold State.emit; dsimp only; (repeat' split) <;> simp
@[simp] theorem State.emit_soft (s : State) (cls : Nat) (sub : SubEv) (who : Nat) (size : Nat) (vals : List Nat) : (s.emit cls sub who size vals).soft = s.soft := by unfold State.emit; dsimp only; (repeat' split) <;> simp
@[simp] theorem State.emit_moved (s : State) (cls : Nat) (sub : SubEv) (who : Nat) (size : Nat) (vals : List Nat) : (s.emit cls sub who size vals).moved = s.moved := by unfold State.emit; dsimp only; (repeat' split) <;> simp
@[simp] theorem State.emit_out (s : State) (cls : Nat) (sub : SubEv) (who : Nat) (size : Nat) (vals : List Nat) : (s.emit cls sub who size vals).out = s.out := by unfold State.emit; dsimp only; (repeat' split) <;> simp
@[simp] theorem State.emit_free (s : State) (cls : Nat) (sub : SubEv) (who : Nat) (size : Nat) (vals : List Nat) : (s.emit cls sub who size vals).free = s.free := by unfold State.emit; dsimp only; (repeat' split) <;> simp
@[simp] theorem State.emit_itemNo (s : State) (cls : Nat) (sub : SubEv) (who : Nat) (size : Nat) (vals : List Nat) : (s.emit cls sub who size vals).itemNo = s.itemNo := by unfold State.emit; dsimp only; (repeat' split) <;> simp
@[simp] theorem State.emit_pending (s : State) (cls : Nat) (sub : SubEv) (who : Nat) (size : Nat) (vals : List Nat) : (s.emit cls sub who size vals).pending = s.pending := by unfold State.emit; dsimp only; (repeat' split) <;> simp

@[simp] theorem State.logFault_id (s : State) (code : Nat) (core : Nat) (hdl : Bool) (borne : Bool) (detail : Nat) : (s.logFault code core hdl borne detail).id = s.id := by unfold State.logFault; dsimp only; split <;> simp
@[simp] theorem State.logFault_ticks (s : State) (code : Nat) (core : Nat) (hdl : Bool) (borne : Bool) (detail : Nat) : (s.logFault code core hdl borne detail).ticks = s.ticks := by unfold State.logFault; dsimp only; split <;> simp
@[simp] theorem State.logFault_ts (s : State) (code : Nat) (core : Nat) (hdl : Bool) (borne : Bool) (detail : Nat) : (s.logFault code core hdl borne detail).ts = s.ts := by unfold State.logFault; dsimp only; split <;> simp
@[simp] theorem State.logFault_tsRun (s : State) (code : Nat) (core : Nat) (hdl : Bool) (borne : Bool) (detail : Nat) : (s.logFault code core hdl borne detail).tsRun = s.tsRun := by unfold State.logFault; dsimp only; split <;> simp
@[simp] theorem State.logFault_align (s : State) (code : Nat) (core : Nat) (hdl : Bool) (borne : Bool) (detail : Nat) : (s.logFault code core hdl borne detail).align = s.align := by unfold State.logFault; dsimp only; split <;> simp
@[simp] theorem State.logFault_str (s : State) (code : Nat) (core : Nat) (hdl : Bool) (borne : Bool) (detail : Nat) : (s.logFault code core hdl borne detail).str = s.str := by unfold State.logFault; dsimp only; split <;> simp
@[simp] theorem State.logFault_loam (s : State) (code : Nat) (core : Nat) (hdl : Bool) (borne : Bool) (detail : Nat) : (s.logFault code core hdl borne detail).loam = s.loam := by unfold State.logFault; dsimp only; split <;> simp
@[simp] theorem State.logFault_err (s : State) (code : Nat) (core : Nat) (hdl : Bool) (borne : Bool) (detail : Nat) : (s.logFault code core hdl borne detail).err = s.err := by unfold State.logFault; dsimp only; split <;> simp
@[simp] theorem State.logFault_cores (s : State) (code : Nat) (core : Nat) (hdl : Bool) (borne : Bool) (detail : Nat) : (s.logFault code core hdl borne detail).cores = s.cores := by unfold State.logFault; dsimp only; split <;> simp
@[simp] theorem State.logFault_msg (s : State) (code : Nat) (core : Nat) (hdl : Bool) (borne : Bool) (detail : Nat) : (s.logFault code core hdl borne detail).msg = s.msg := by unfold State.logFault; dsimp only; split <;> simp
@[simp] theorem State.logFault_syn (s : State) (code : Nat) (core : Nat) (hdl : Bool) (borne : Bool) (detail : Nat) : (s.logFault code core hdl borne detail).syn = s.syn := by unfold State.logFault; dsimp only; split <;> simp
@[simp] theorem State.logFault_port (s : State) (code : Nat) (core : Nat) (hdl : Bool) (borne : Bool) (detail : Nat) : (s.logFault code core hdl borne detail).port = s.port := by unfold State.logFault; dsimp only; split <;> simp
@[simp] theorem State.logFault_dma (s : State) (code : Nat) (core : Nat) (hdl : Bool) (borne : Bool) (detail : Nat) : (s.logFault code core hdl borne detail).dma = s.dma := by unfold State.logFault; dsimp only; split <;> simp
@[simp] theorem State.logFault_bq (s : State) (code : Nat) (core : Nat) (hdl : Bool) (borne : Bool) (detail : Nat) : (s.logFault code core hdl borne detail).bq = s.bq := by unfold State.logFault; dsimp only; split <;> simp
@[simp] theorem State.logFault_pwr (s : State) (code : Nat) (core : Nat) (hdl : Bool) (borne : Bool) (detail : Nat) : (s.logFault code core hdl borne detail).pwr = s.pwr := by unfold State.logFault; dsimp only; split <;> simp
@[simp] theorem State.logFault_mrl (s : State) (code : Nat) (core : Nat) (hdl : Bool) (borne : Bool) (detail : Nat) : (s.logFault code core hdl borne detail).mrl = s.mrl := by unfold State.logFault; dsimp only; split <;> simp
@[simp] theorem State.logFault_latches (s : State) (code : Nat) (core : Nat) (hdl : Bool) (borne : Bool) (detail : Nat) : (s.logFault code core hdl borne detail).latches = s.latches := by unfold State.logFault; dsimp only; split <;> simp
@[simp] theorem State.logFault_held (s : State) (code : Nat) (core : Nat) (hdl : Bool) (borne : Bool) (detail : Nat) : (s.logFault code core hdl borne detail).held = s.held := by unfold State.logFault; dsimp only; split <;> simp
@[simp] theorem State.logFault_damage (s : State) (code : Nat) (core : Nat) (hdl : Bool) (borne : Bool) (detail : Nat) : (s.logFault code core hdl borne detail).damage = s.damage := by unfold State.logFault; dsimp only; split <;> simp
@[simp] theorem State.logFault_heldAon (s : State) (code : Nat) (core : Nat) (hdl : Bool) (borne : Bool) (detail : Nat) : (s.logFault code core hdl borne detail).heldAon = s.heldAon := by unfold State.logFault; dsimp only; split <;> simp
@[simp] theorem State.logFault_soft (s : State) (code : Nat) (core : Nat) (hdl : Bool) (borne : Bool) (detail : Nat) : (s.logFault code core hdl borne detail).soft = s.soft := by unfold State.logFault; dsimp only; split <;> simp
@[simp] theorem State.logFault_moved (s : State) (code : Nat) (core : Nat) (hdl : Bool) (borne : Bool) (detail : Nat) : (s.logFault code core hdl borne detail).moved = s.moved := by unfold State.logFault; dsimp only; split <;> simp
@[simp] theorem State.logFault_free (s : State) (code : Nat) (core : Nat) (hdl : Bool) (borne : Bool) (detail : Nat) : (s.logFault code core hdl borne detail).free = s.free := by unfold State.logFault; dsimp only; split <;> simp
@[simp] theorem State.logFault_itemNo (s : State) (code : Nat) (core : Nat) (hdl : Bool) (borne : Bool) (detail : Nat) : (s.logFault code core hdl borne detail).itemNo = s.itemNo := by unfold State.logFault; dsimp only; split <;> simp
@[simp] theorem State.logFault_pending (s : State) (code : Nat) (core : Nat) (hdl : Bool) (borne : Bool) (detail : Nat) : (s.logFault code core hdl borne detail).pending = s.pending := by unfold State.logFault; dsimp only; split <;> simp

@[simp] theorem State.logOnly_id (s : State) (code : Nat) (detail : Nat) : (s.logOnly code detail).id = s.id := by simp [State.logOnly]
@[simp] theorem State.logOnly_ticks (s : State) (code : Nat) (detail : Nat) : (s.logOnly code detail).ticks = s.ticks := by simp [State.logOnly]
@[simp] theorem State.logOnly_ts (s : State) (code : Nat) (detail : Nat) : (s.logOnly code detail).ts = s.ts := by simp [State.logOnly]
@[simp] theorem State.logOnly_tsRun (s : State) (code : Nat) (detail : Nat) : (s.logOnly code detail).tsRun = s.tsRun := by simp [State.logOnly]
@[simp] theorem State.logOnly_align (s : State) (code : Nat) (detail : Nat) : (s.logOnly code detail).align = s.align := by simp [State.logOnly]
@[simp] theorem State.logOnly_str (s : State) (code : Nat) (detail : Nat) : (s.logOnly code detail).str = s.str := by simp [State.logOnly]
@[simp] theorem State.logOnly_loam (s : State) (code : Nat) (detail : Nat) : (s.logOnly code detail).loam = s.loam := by simp [State.logOnly]
@[simp] theorem State.logOnly_err (s : State) (code : Nat) (detail : Nat) : (s.logOnly code detail).err = s.err := by simp [State.logOnly]
@[simp] theorem State.logOnly_cores (s : State) (code : Nat) (detail : Nat) : (s.logOnly code detail).cores = s.cores := by simp [State.logOnly]
@[simp] theorem State.logOnly_msg (s : State) (code : Nat) (detail : Nat) : (s.logOnly code detail).msg = s.msg := by simp [State.logOnly]
@[simp] theorem State.logOnly_syn (s : State) (code : Nat) (detail : Nat) : (s.logOnly code detail).syn = s.syn := by simp [State.logOnly]
@[simp] theorem State.logOnly_port (s : State) (code : Nat) (detail : Nat) : (s.logOnly code detail).port = s.port := by simp [State.logOnly]
@[simp] theorem State.logOnly_dma (s : State) (code : Nat) (detail : Nat) : (s.logOnly code detail).dma = s.dma := by simp [State.logOnly]
@[simp] theorem State.logOnly_bq (s : State) (code : Nat) (detail : Nat) : (s.logOnly code detail).bq = s.bq := by simp [State.logOnly]
@[simp] theorem State.logOnly_pwr (s : State) (code : Nat) (detail : Nat) : (s.logOnly code detail).pwr = s.pwr := by simp [State.logOnly]
@[simp] theorem State.logOnly_mrl (s : State) (code : Nat) (detail : Nat) : (s.logOnly code detail).mrl = s.mrl := by simp [State.logOnly]
@[simp] theorem State.logOnly_latches (s : State) (code : Nat) (detail : Nat) : (s.logOnly code detail).latches = s.latches := by simp [State.logOnly]
@[simp] theorem State.logOnly_held (s : State) (code : Nat) (detail : Nat) : (s.logOnly code detail).held = s.held := by simp [State.logOnly]
@[simp] theorem State.logOnly_damage (s : State) (code : Nat) (detail : Nat) : (s.logOnly code detail).damage = s.damage := by simp [State.logOnly]
@[simp] theorem State.logOnly_heldAon (s : State) (code : Nat) (detail : Nat) : (s.logOnly code detail).heldAon = s.heldAon := by simp [State.logOnly]
@[simp] theorem State.logOnly_soft (s : State) (code : Nat) (detail : Nat) : (s.logOnly code detail).soft = s.soft := by simp [State.logOnly]
@[simp] theorem State.logOnly_moved (s : State) (code : Nat) (detail : Nat) : (s.logOnly code detail).moved = s.moved := by simp [State.logOnly]
@[simp] theorem State.logOnly_free (s : State) (code : Nat) (detail : Nat) : (s.logOnly code detail).free = s.free := by simp [State.logOnly]
@[simp] theorem State.logOnly_itemNo (s : State) (code : Nat) (detail : Nat) : (s.logOnly code detail).itemNo = s.itemNo := by simp [State.logOnly]
@[simp] theorem State.logOnly_pending (s : State) (code : Nat) (detail : Nat) : (s.logOnly code detail).pending = s.pending := by simp [State.logOnly]

@[simp] theorem State.modRec_id (s : State) (w : Who) (f : Rec → Rec) : (s.modRec w f).id = s.id := rfl
@[simp] theorem State.modRec_ticks (s : State) (w : Who) (f : Rec → Rec) : (s.modRec w f).ticks = s.ticks := rfl
@[simp] theorem State.modRec_ts (s : State) (w : Who) (f : Rec → Rec) : (s.modRec w f).ts = s.ts := rfl
@[simp] theorem State.modRec_tsRun (s : State) (w : Who) (f : Rec → Rec) : (s.modRec w f).tsRun = s.tsRun := rfl
@[simp] theorem State.modRec_align (s : State) (w : Who) (f : Rec → Rec) : (s.modRec w f).align = s.align := rfl
@[simp] theorem State.modRec_str (s : State) (w : Who) (f : Rec → Rec) : (s.modRec w f).str = s.str := rfl
@[simp] theorem State.modRec_loam (s : State) (w : Who) (f : Rec → Rec) : (s.modRec w f).loam = s.loam := rfl
@[simp] theorem State.modRec_err (s : State) (w : Who) (f : Rec → Rec) : (s.modRec w f).err = s.err := rfl
@[simp] theorem State.modRec_ctr (s : State) (w : Who) (f : Rec → Rec) : (s.modRec w f).ctr = s.ctr := rfl
@[simp] theorem State.modRec_msg (s : State) (w : Who) (f : Rec → Rec) : (s.modRec w f).msg = s.msg := rfl
@[simp] theorem State.modRec_syn (s : State) (w : Who) (f : Rec → Rec) : (s.modRec w f).syn = s.syn := rfl
@[simp] theorem State.modRec_port (s : State) (w : Who) (f : Rec → Rec) : (s.modRec w f).port = s.port := rfl
@[simp] theorem State.modRec_dma (s : State) (w : Who) (f : Rec → Rec) : (s.modRec w f).dma = s.dma := rfl
@[simp] theorem State.modRec_bq (s : State) (w : Who) (f : Rec → Rec) : (s.modRec w f).bq = s.bq := rfl
@[simp] theorem State.modRec_pwr (s : State) (w : Who) (f : Rec → Rec) : (s.modRec w f).pwr = s.pwr := rfl
@[simp] theorem State.modRec_mrl (s : State) (w : Who) (f : Rec → Rec) : (s.modRec w f).mrl = s.mrl := rfl
@[simp] theorem State.modRec_tel (s : State) (w : Who) (f : Rec → Rec) : (s.modRec w f).tel = s.tel := rfl
@[simp] theorem State.modRec_dbg (s : State) (w : Who) (f : Rec → Rec) : (s.modRec w f).dbg = s.dbg := rfl
@[simp] theorem State.modRec_latches (s : State) (w : Who) (f : Rec → Rec) : (s.modRec w f).latches = s.latches := rfl
@[simp] theorem State.modRec_held (s : State) (w : Who) (f : Rec → Rec) : (s.modRec w f).held = s.held := rfl
@[simp] theorem State.modRec_damage (s : State) (w : Who) (f : Rec → Rec) : (s.modRec w f).damage = s.damage := rfl
@[simp] theorem State.modRec_heldAon (s : State) (w : Who) (f : Rec → Rec) : (s.modRec w f).heldAon = s.heldAon := rfl
@[simp] theorem State.modRec_soft (s : State) (w : Who) (f : Rec → Rec) : (s.modRec w f).soft = s.soft := rfl
@[simp] theorem State.modRec_moved (s : State) (w : Who) (f : Rec → Rec) : (s.modRec w f).moved = s.moved := rfl
@[simp] theorem State.modRec_out (s : State) (w : Who) (f : Rec → Rec) : (s.modRec w f).out = s.out := rfl
@[simp] theorem State.modRec_free (s : State) (w : Who) (f : Rec → Rec) : (s.modRec w f).free = s.free := rfl
@[simp] theorem State.modRec_itemNo (s : State) (w : Who) (f : Rec → Rec) : (s.modRec w f).itemNo = s.itemNo := rfl
@[simp] theorem State.modRec_pending (s : State) (w : Who) (f : Rec → Rec) : (s.modRec w f).pending = s.pending := rfl

@[simp] theorem State.noteFault_id (s : State) (c : Nat) (code : Nat) (h : Hdr) : (s.noteFault c code h).id = s.id := rfl
@[simp] theorem State.noteFault_ticks (s : State) (c : Nat) (code : Nat) (h : Hdr) : (s.noteFault c code h).ticks = s.ticks := rfl
@[simp] theorem State.noteFault_ts (s : State) (c : Nat) (code : Nat) (h : Hdr) : (s.noteFault c code h).ts = s.ts := rfl
@[simp] theorem State.noteFault_tsRun (s : State) (c : Nat) (code : Nat) (h : Hdr) : (s.noteFault c code h).tsRun = s.tsRun := rfl
@[simp] theorem State.noteFault_align (s : State) (c : Nat) (code : Nat) (h : Hdr) : (s.noteFault c code h).align = s.align := rfl
@[simp] theorem State.noteFault_str (s : State) (c : Nat) (code : Nat) (h : Hdr) : (s.noteFault c code h).str = s.str := rfl
@[simp] theorem State.noteFault_loam (s : State) (c : Nat) (code : Nat) (h : Hdr) : (s.noteFault c code h).loam = s.loam := rfl
@[simp] theorem State.noteFault_err (s : State) (c : Nat) (code : Nat) (h : Hdr) : (s.noteFault c code h).err = s.err := rfl
@[simp] theorem State.noteFault_ctr (s : State) (c : Nat) (code : Nat) (h : Hdr) : (s.noteFault c code h).ctr = s.ctr := rfl
@[simp] theorem State.noteFault_msg (s : State) (c : Nat) (code : Nat) (h : Hdr) : (s.noteFault c code h).msg = s.msg := rfl
@[simp] theorem State.noteFault_syn (s : State) (c : Nat) (code : Nat) (h : Hdr) : (s.noteFault c code h).syn = s.syn := rfl
@[simp] theorem State.noteFault_port (s : State) (c : Nat) (code : Nat) (h : Hdr) : (s.noteFault c code h).port = s.port := rfl
@[simp] theorem State.noteFault_dma (s : State) (c : Nat) (code : Nat) (h : Hdr) : (s.noteFault c code h).dma = s.dma := rfl
@[simp] theorem State.noteFault_bq (s : State) (c : Nat) (code : Nat) (h : Hdr) : (s.noteFault c code h).bq = s.bq := rfl
@[simp] theorem State.noteFault_pwr (s : State) (c : Nat) (code : Nat) (h : Hdr) : (s.noteFault c code h).pwr = s.pwr := rfl
@[simp] theorem State.noteFault_mrl (s : State) (c : Nat) (code : Nat) (h : Hdr) : (s.noteFault c code h).mrl = s.mrl := rfl
@[simp] theorem State.noteFault_tel (s : State) (c : Nat) (code : Nat) (h : Hdr) : (s.noteFault c code h).tel = s.tel := rfl
@[simp] theorem State.noteFault_dbg (s : State) (c : Nat) (code : Nat) (h : Hdr) : (s.noteFault c code h).dbg = s.dbg := rfl
@[simp] theorem State.noteFault_latches (s : State) (c : Nat) (code : Nat) (h : Hdr) : (s.noteFault c code h).latches = s.latches := rfl
@[simp] theorem State.noteFault_held (s : State) (c : Nat) (code : Nat) (h : Hdr) : (s.noteFault c code h).held = s.held := rfl
@[simp] theorem State.noteFault_damage (s : State) (c : Nat) (code : Nat) (h : Hdr) : (s.noteFault c code h).damage = s.damage := rfl
@[simp] theorem State.noteFault_heldAon (s : State) (c : Nat) (code : Nat) (h : Hdr) : (s.noteFault c code h).heldAon = s.heldAon := rfl
@[simp] theorem State.noteFault_soft (s : State) (c : Nat) (code : Nat) (h : Hdr) : (s.noteFault c code h).soft = s.soft := rfl
@[simp] theorem State.noteFault_moved (s : State) (c : Nat) (code : Nat) (h : Hdr) : (s.noteFault c code h).moved = s.moved := rfl
@[simp] theorem State.noteFault_out (s : State) (c : Nat) (code : Nat) (h : Hdr) : (s.noteFault c code h).out = s.out := rfl
@[simp] theorem State.noteFault_free (s : State) (c : Nat) (code : Nat) (h : Hdr) : (s.noteFault c code h).free = s.free := rfl
@[simp] theorem State.noteFault_itemNo (s : State) (c : Nat) (code : Nat) (h : Hdr) : (s.noteFault c code h).itemNo = s.itemNo := rfl
@[simp] theorem State.noteFault_pending (s : State) (c : Nat) (code : Nat) (h : Hdr) : (s.noteFault c code h).pending = s.pending := rfl

@[simp] theorem State.markAbort_id (s : State) (w : Who) (code : Nat) : (s.markAbort w code).id = s.id := rfl
@[simp] theorem State.markAbort_ticks (s : State) (w : Who) (code : Nat) : (s.markAbort w code).ticks = s.ticks := rfl
@[simp] theorem State.markAbort_ts (s : State) (w : Who) (code : Nat) : (s.markAbort w code).ts = s.ts := rfl
@[simp] theorem State.markAbort_tsRun (s : State) (w : Who) (code : Nat) : (s.markAbort w code).tsRun = s.tsRun := rfl
@[simp] theorem State.markAbort_align (s : State) (w : Who) (code : Nat) : (s.markAbort w code).align = s.align := rfl
@[simp] theorem State.markAbort_str (s : State) (w : Who) (code : Nat) : (s.markAbort w code).str = s.str := rfl
@[simp] theorem State.markAbort_loam (s : State) (w : Who) (code : Nat) : (s.markAbort w code).loam = s.loam := rfl
@[simp] theorem State.markAbort_err (s : State) (w : Who) (code : Nat) : (s.markAbort w code).err = s.err := rfl
@[simp] theorem State.markAbort_ctr (s : State) (w : Who) (code : Nat) : (s.markAbort w code).ctr = s.ctr := rfl
@[simp] theorem State.markAbort_msg (s : State) (w : Who) (code : Nat) : (s.markAbort w code).msg = s.msg := rfl
@[simp] theorem State.markAbort_syn (s : State) (w : Who) (code : Nat) : (s.markAbort w code).syn = s.syn := rfl
@[simp] theorem State.markAbort_port (s : State) (w : Who) (code : Nat) : (s.markAbort w code).port = s.port := rfl
@[simp] theorem State.markAbort_dma (s : State) (w : Who) (code : Nat) : (s.markAbort w code).dma = s.dma := rfl
@[simp] theorem State.markAbort_bq (s : State) (w : Who) (code : Nat) : (s.markAbort w code).bq = s.bq := rfl
@[simp] theorem State.markAbort_pwr (s : State) (w : Who) (code : Nat) : (s.markAbort w code).pwr = s.pwr := rfl
@[simp] theorem State.markAbort_mrl (s : State) (w : Who) (code : Nat) : (s.markAbort w code).mrl = s.mrl := rfl
@[simp] theorem State.markAbort_tel (s : State) (w : Who) (code : Nat) : (s.markAbort w code).tel = s.tel := rfl
@[simp] theorem State.markAbort_dbg (s : State) (w : Who) (code : Nat) : (s.markAbort w code).dbg = s.dbg := rfl
@[simp] theorem State.markAbort_latches (s : State) (w : Who) (code : Nat) : (s.markAbort w code).latches = s.latches := rfl
@[simp] theorem State.markAbort_held (s : State) (w : Who) (code : Nat) : (s.markAbort w code).held = s.held := rfl
@[simp] theorem State.markAbort_damage (s : State) (w : Who) (code : Nat) : (s.markAbort w code).damage = s.damage := rfl
@[simp] theorem State.markAbort_heldAon (s : State) (w : Who) (code : Nat) : (s.markAbort w code).heldAon = s.heldAon := rfl
@[simp] theorem State.markAbort_soft (s : State) (w : Who) (code : Nat) : (s.markAbort w code).soft = s.soft := rfl
@[simp] theorem State.markAbort_moved (s : State) (w : Who) (code : Nat) : (s.markAbort w code).moved = s.moved := rfl
@[simp] theorem State.markAbort_out (s : State) (w : Who) (code : Nat) : (s.markAbort w code).out = s.out := rfl
@[simp] theorem State.markAbort_free (s : State) (w : Who) (code : Nat) : (s.markAbort w code).free = s.free := rfl
@[simp] theorem State.markAbort_itemNo (s : State) (w : Who) (code : Nat) : (s.markAbort w code).itemNo = s.itemNo := rfl
@[simp] theorem State.markAbort_pending (s : State) (w : Who) (code : Nat) : (s.markAbort w code).pending = s.pending := rfl

@[simp] theorem State.setSc_id (s : State) (n : Nat) (v : Word32) : (s.setSc n v).id = s.id := rfl
@[simp] theorem State.setSc_ticks (s : State) (n : Nat) (v : Word32) : (s.setSc n v).ticks = s.ticks := rfl
@[simp] theorem State.setSc_ts (s : State) (n : Nat) (v : Word32) : (s.setSc n v).ts = s.ts := rfl
@[simp] theorem State.setSc_tsRun (s : State) (n : Nat) (v : Word32) : (s.setSc n v).tsRun = s.tsRun := rfl
@[simp] theorem State.setSc_align (s : State) (n : Nat) (v : Word32) : (s.setSc n v).align = s.align := rfl
@[simp] theorem State.setSc_str (s : State) (n : Nat) (v : Word32) : (s.setSc n v).str = s.str := rfl
@[simp] theorem State.setSc_loam (s : State) (n : Nat) (v : Word32) : (s.setSc n v).loam = s.loam := rfl
@[simp] theorem State.setSc_err (s : State) (n : Nat) (v : Word32) : (s.setSc n v).err = s.err := rfl
@[simp] theorem State.setSc_ctr (s : State) (n : Nat) (v : Word32) : (s.setSc n v).ctr = s.ctr := rfl
@[simp] theorem State.setSc_cores (s : State) (n : Nat) (v : Word32) : (s.setSc n v).cores = s.cores := rfl
@[simp] theorem State.setSc_msg (s : State) (n : Nat) (v : Word32) : (s.setSc n v).msg = s.msg := rfl
@[simp] theorem State.setSc_port (s : State) (n : Nat) (v : Word32) : (s.setSc n v).port = s.port := rfl
@[simp] theorem State.setSc_dma (s : State) (n : Nat) (v : Word32) : (s.setSc n v).dma = s.dma := rfl
@[simp] theorem State.setSc_bq (s : State) (n : Nat) (v : Word32) : (s.setSc n v).bq = s.bq := rfl
@[simp] theorem State.setSc_pwr (s : State) (n : Nat) (v : Word32) : (s.setSc n v).pwr = s.pwr := rfl
@[simp] theorem State.setSc_mrl (s : State) (n : Nat) (v : Word32) : (s.setSc n v).mrl = s.mrl := rfl
@[simp] theorem State.setSc_tel (s : State) (n : Nat) (v : Word32) : (s.setSc n v).tel = s.tel := rfl
@[simp] theorem State.setSc_dbg (s : State) (n : Nat) (v : Word32) : (s.setSc n v).dbg = s.dbg := rfl
@[simp] theorem State.setSc_latches (s : State) (n : Nat) (v : Word32) : (s.setSc n v).latches = s.latches := rfl
@[simp] theorem State.setSc_held (s : State) (n : Nat) (v : Word32) : (s.setSc n v).held = s.held := rfl
@[simp] theorem State.setSc_damage (s : State) (n : Nat) (v : Word32) : (s.setSc n v).damage = s.damage := rfl
@[simp] theorem State.setSc_heldAon (s : State) (n : Nat) (v : Word32) : (s.setSc n v).heldAon = s.heldAon := rfl
@[simp] theorem State.setSc_soft (s : State) (n : Nat) (v : Word32) : (s.setSc n v).soft = s.soft := rfl
@[simp] theorem State.setSc_moved (s : State) (n : Nat) (v : Word32) : (s.setSc n v).moved = s.moved := rfl
@[simp] theorem State.setSc_out (s : State) (n : Nat) (v : Word32) : (s.setSc n v).out = s.out := rfl
@[simp] theorem State.setSc_free (s : State) (n : Nat) (v : Word32) : (s.setSc n v).free = s.free := rfl
@[simp] theorem State.setSc_itemNo (s : State) (n : Nat) (v : Word32) : (s.setSc n v).itemNo = s.itemNo := rfl
@[simp] theorem State.setSc_pending (s : State) (n : Nat) (v : Word32) : (s.setSc n v).pending = s.pending := rfl

@[simp] theorem State.addSc_id (s : State) (n : Nat) (v : Word32) : (s.addSc n v).id = s.id := by unfold State.addSc; split <;> simp
@[simp] theorem State.addSc_ticks (s : State) (n : Nat) (v : Word32) : (s.addSc n v).ticks = s.ticks := by unfold State.addSc; split <;> simp
@[simp] theorem State.addSc_ts (s : State) (n : Nat) (v : Word32) : (s.addSc n v).ts = s.ts := by unfold State.addSc; split <;> simp
@[simp] theorem State.addSc_tsRun (s : State) (n : Nat) (v : Word32) : (s.addSc n v).tsRun = s.tsRun := by unfold State.addSc; split <;> simp
@[simp] theorem State.addSc_align (s : State) (n : Nat) (v : Word32) : (s.addSc n v).align = s.align := by unfold State.addSc; split <;> simp
@[simp] theorem State.addSc_str (s : State) (n : Nat) (v : Word32) : (s.addSc n v).str = s.str := by unfold State.addSc; split <;> simp
@[simp] theorem State.addSc_loam (s : State) (n : Nat) (v : Word32) : (s.addSc n v).loam = s.loam := by unfold State.addSc; split <;> simp
@[simp] theorem State.addSc_err (s : State) (n : Nat) (v : Word32) : (s.addSc n v).err = s.err := by unfold State.addSc; split <;> simp
@[simp] theorem State.addSc_cores (s : State) (n : Nat) (v : Word32) : (s.addSc n v).cores = s.cores := by unfold State.addSc; split <;> simp
@[simp] theorem State.addSc_msg (s : State) (n : Nat) (v : Word32) : (s.addSc n v).msg = s.msg := by unfold State.addSc; split <;> simp
@[simp] theorem State.addSc_port (s : State) (n : Nat) (v : Word32) : (s.addSc n v).port = s.port := by unfold State.addSc; split <;> simp
@[simp] theorem State.addSc_dma (s : State) (n : Nat) (v : Word32) : (s.addSc n v).dma = s.dma := by unfold State.addSc; split <;> simp
@[simp] theorem State.addSc_bq (s : State) (n : Nat) (v : Word32) : (s.addSc n v).bq = s.bq := by unfold State.addSc; split <;> simp
@[simp] theorem State.addSc_pwr (s : State) (n : Nat) (v : Word32) : (s.addSc n v).pwr = s.pwr := by unfold State.addSc; split <;> simp
@[simp] theorem State.addSc_mrl (s : State) (n : Nat) (v : Word32) : (s.addSc n v).mrl = s.mrl := by unfold State.addSc; split <;> simp
@[simp] theorem State.addSc_latches (s : State) (n : Nat) (v : Word32) : (s.addSc n v).latches = s.latches := by unfold State.addSc; split <;> simp
@[simp] theorem State.addSc_held (s : State) (n : Nat) (v : Word32) : (s.addSc n v).held = s.held := by unfold State.addSc; split <;> simp
@[simp] theorem State.addSc_damage (s : State) (n : Nat) (v : Word32) : (s.addSc n v).damage = s.damage := by unfold State.addSc; split <;> simp
@[simp] theorem State.addSc_heldAon (s : State) (n : Nat) (v : Word32) : (s.addSc n v).heldAon = s.heldAon := by unfold State.addSc; split <;> simp
@[simp] theorem State.addSc_soft (s : State) (n : Nat) (v : Word32) : (s.addSc n v).soft = s.soft := by unfold State.addSc; split <;> simp
@[simp] theorem State.addSc_moved (s : State) (n : Nat) (v : Word32) : (s.addSc n v).moved = s.moved := by unfold State.addSc; split <;> simp
@[simp] theorem State.addSc_free (s : State) (n : Nat) (v : Word32) : (s.addSc n v).free = s.free := by unfold State.addSc; split <;> simp
@[simp] theorem State.addSc_itemNo (s : State) (n : Nat) (v : Word32) : (s.addSc n v).itemNo = s.itemNo := by unfold State.addSc; split <;> simp
@[simp] theorem State.addSc_pending (s : State) (n : Nat) (v : Word32) : (s.addSc n v).pending = s.pending := by unfold State.addSc; split <;> simp

@[simp] theorem State.arriveSc_id (s : State) (n : Nat) (v : Word32) (who : Nat) : (s.arriveSc n v who).id = s.id := by unfold State.arriveSc; dsimp only; split <;> simp
@[simp] theorem State.arriveSc_ticks (s : State) (n : Nat) (v : Word32) (who : Nat) : (s.arriveSc n v who).ticks = s.ticks := by unfold State.arriveSc; dsimp only; split <;> simp
@[simp] theorem State.arriveSc_ts (s : State) (n : Nat) (v : Word32) (who : Nat) : (s.arriveSc n v who).ts = s.ts := by unfold State.arriveSc; dsimp only; split <;> simp
@[simp] theorem State.arriveSc_tsRun (s : State) (n : Nat) (v : Word32) (who : Nat) : (s.arriveSc n v who).tsRun = s.tsRun := by unfold State.arriveSc; dsimp only; split <;> simp
@[simp] theorem State.arriveSc_align (s : State) (n : Nat) (v : Word32) (who : Nat) : (s.arriveSc n v who).align = s.align := by unfold State.arriveSc; dsimp only; split <;> simp
@[simp] theorem State.arriveSc_str (s : State) (n : Nat) (v : Word32) (who : Nat) : (s.arriveSc n v who).str = s.str := by unfold State.arriveSc; dsimp only; split <;> simp
@[simp] theorem State.arriveSc_loam (s : State) (n : Nat) (v : Word32) (who : Nat) : (s.arriveSc n v who).loam = s.loam := by unfold State.arriveSc; dsimp only; split <;> simp
@[simp] theorem State.arriveSc_err (s : State) (n : Nat) (v : Word32) (who : Nat) : (s.arriveSc n v who).err = s.err := by unfold State.arriveSc; dsimp only; split <;> simp
@[simp] theorem State.arriveSc_cores (s : State) (n : Nat) (v : Word32) (who : Nat) : (s.arriveSc n v who).cores = s.cores := by unfold State.arriveSc; dsimp only; split <;> simp
@[simp] theorem State.arriveSc_msg (s : State) (n : Nat) (v : Word32) (who : Nat) : (s.arriveSc n v who).msg = s.msg := by unfold State.arriveSc; dsimp only; split <;> simp
@[simp] theorem State.arriveSc_port (s : State) (n : Nat) (v : Word32) (who : Nat) : (s.arriveSc n v who).port = s.port := by unfold State.arriveSc; dsimp only; split <;> simp
@[simp] theorem State.arriveSc_dma (s : State) (n : Nat) (v : Word32) (who : Nat) : (s.arriveSc n v who).dma = s.dma := by unfold State.arriveSc; dsimp only; split <;> simp
@[simp] theorem State.arriveSc_bq (s : State) (n : Nat) (v : Word32) (who : Nat) : (s.arriveSc n v who).bq = s.bq := by unfold State.arriveSc; dsimp only; split <;> simp
@[simp] theorem State.arriveSc_pwr (s : State) (n : Nat) (v : Word32) (who : Nat) : (s.arriveSc n v who).pwr = s.pwr := by unfold State.arriveSc; dsimp only; split <;> simp
@[simp] theorem State.arriveSc_mrl (s : State) (n : Nat) (v : Word32) (who : Nat) : (s.arriveSc n v who).mrl = s.mrl := by unfold State.arriveSc; dsimp only; split <;> simp
@[simp] theorem State.arriveSc_latches (s : State) (n : Nat) (v : Word32) (who : Nat) : (s.arriveSc n v who).latches = s.latches := by unfold State.arriveSc; dsimp only; split <;> simp
@[simp] theorem State.arriveSc_held (s : State) (n : Nat) (v : Word32) (who : Nat) : (s.arriveSc n v who).held = s.held := by unfold State.arriveSc; dsimp only; split <;> simp
@[simp] theorem State.arriveSc_damage (s : State) (n : Nat) (v : Word32) (who : Nat) : (s.arriveSc n v who).damage = s.damage := by unfold State.arriveSc; dsimp only; split <;> simp
@[simp] theorem State.arriveSc_heldAon (s : State) (n : Nat) (v : Word32) (who : Nat) : (s.arriveSc n v who).heldAon = s.heldAon := by unfold State.arriveSc; dsimp only; split <;> simp
@[simp] theorem State.arriveSc_soft (s : State) (n : Nat) (v : Word32) (who : Nat) : (s.arriveSc n v who).soft = s.soft := by unfold State.arriveSc; dsimp only; split <;> simp
@[simp] theorem State.arriveSc_moved (s : State) (n : Nat) (v : Word32) (who : Nat) : (s.arriveSc n v who).moved = s.moved := by unfold State.arriveSc; dsimp only; split <;> simp
@[simp] theorem State.arriveSc_free (s : State) (n : Nat) (v : Word32) (who : Nat) : (s.arriveSc n v who).free = s.free := by unfold State.arriveSc; dsimp only; split <;> simp
@[simp] theorem State.arriveSc_itemNo (s : State) (n : Nat) (v : Word32) (who : Nat) : (s.arriveSc n v who).itemNo = s.itemNo := by unfold State.arriveSc; dsimp only; split <;> simp
@[simp] theorem State.arriveSc_pending (s : State) (n : Nat) (v : Word32) (who : Nat) : (s.arriveSc n v who).pending = s.pending := by unfold State.arriveSc; dsimp only; split <;> simp

@[simp] theorem State.recordUe_id (s : State) (store : Nat) (core : Nat) (vb : Nat) (addr : Nat) (port : Nat) : (s.recordUe store core vb addr port).id = s.id := by unfold State.recordUe; dsimp only; split <;> rfl
@[simp] theorem State.recordUe_ticks (s : State) (store : Nat) (core : Nat) (vb : Nat) (addr : Nat) (port : Nat) : (s.recordUe store core vb addr port).ticks = s.ticks := by unfold State.recordUe; dsimp only; split <;> rfl
@[simp] theorem State.recordUe_ts (s : State) (store : Nat) (core : Nat) (vb : Nat) (addr : Nat) (port : Nat) : (s.recordUe store core vb addr port).ts = s.ts := by unfold State.recordUe; dsimp only; split <;> rfl
@[simp] theorem State.recordUe_tsRun (s : State) (store : Nat) (core : Nat) (vb : Nat) (addr : Nat) (port : Nat) : (s.recordUe store core vb addr port).tsRun = s.tsRun := by unfold State.recordUe; dsimp only; split <;> rfl
@[simp] theorem State.recordUe_align (s : State) (store : Nat) (core : Nat) (vb : Nat) (addr : Nat) (port : Nat) : (s.recordUe store core vb addr port).align = s.align := by unfold State.recordUe; dsimp only; split <;> rfl
@[simp] theorem State.recordUe_str (s : State) (store : Nat) (core : Nat) (vb : Nat) (addr : Nat) (port : Nat) : (s.recordUe store core vb addr port).str = s.str := by unfold State.recordUe; dsimp only; split <;> rfl
@[simp] theorem State.recordUe_loam (s : State) (store : Nat) (core : Nat) (vb : Nat) (addr : Nat) (port : Nat) : (s.recordUe store core vb addr port).loam = s.loam := by unfold State.recordUe; dsimp only; split <;> rfl
@[simp] theorem State.recordUe_ctr (s : State) (store : Nat) (core : Nat) (vb : Nat) (addr : Nat) (port : Nat) : (s.recordUe store core vb addr port).ctr = s.ctr := by unfold State.recordUe; dsimp only; split <;> rfl
@[simp] theorem State.recordUe_cores (s : State) (store : Nat) (core : Nat) (vb : Nat) (addr : Nat) (port : Nat) : (s.recordUe store core vb addr port).cores = s.cores := by unfold State.recordUe; dsimp only; split <;> rfl
@[simp] theorem State.recordUe_msg (s : State) (store : Nat) (core : Nat) (vb : Nat) (addr : Nat) (port : Nat) : (s.recordUe store core vb addr port).msg = s.msg := by unfold State.recordUe; dsimp only; split <;> rfl
@[simp] theorem State.recordUe_syn (s : State) (store : Nat) (core : Nat) (vb : Nat) (addr : Nat) (port : Nat) : (s.recordUe store core vb addr port).syn = s.syn := by unfold State.recordUe; dsimp only; split <;> rfl
@[simp] theorem State.recordUe_port (s : State) (store : Nat) (core : Nat) (vb : Nat) (addr : Nat) (port : Nat) : (s.recordUe store core vb addr port).port = s.port := by unfold State.recordUe; dsimp only; split <;> rfl
@[simp] theorem State.recordUe_dma (s : State) (store : Nat) (core : Nat) (vb : Nat) (addr : Nat) (port : Nat) : (s.recordUe store core vb addr port).dma = s.dma := by unfold State.recordUe; dsimp only; split <;> rfl
@[simp] theorem State.recordUe_bq (s : State) (store : Nat) (core : Nat) (vb : Nat) (addr : Nat) (port : Nat) : (s.recordUe store core vb addr port).bq = s.bq := by unfold State.recordUe; dsimp only; split <;> rfl
@[simp] theorem State.recordUe_pwr (s : State) (store : Nat) (core : Nat) (vb : Nat) (addr : Nat) (port : Nat) : (s.recordUe store core vb addr port).pwr = s.pwr := by unfold State.recordUe; dsimp only; split <;> rfl
@[simp] theorem State.recordUe_mrl (s : State) (store : Nat) (core : Nat) (vb : Nat) (addr : Nat) (port : Nat) : (s.recordUe store core vb addr port).mrl = s.mrl := by unfold State.recordUe; dsimp only; split <;> rfl
@[simp] theorem State.recordUe_dbg (s : State) (store : Nat) (core : Nat) (vb : Nat) (addr : Nat) (port : Nat) : (s.recordUe store core vb addr port).dbg = s.dbg := by unfold State.recordUe; dsimp only; split <;> rfl
@[simp] theorem State.recordUe_latches (s : State) (store : Nat) (core : Nat) (vb : Nat) (addr : Nat) (port : Nat) : (s.recordUe store core vb addr port).latches = s.latches := by unfold State.recordUe; dsimp only; split <;> rfl
@[simp] theorem State.recordUe_held (s : State) (store : Nat) (core : Nat) (vb : Nat) (addr : Nat) (port : Nat) : (s.recordUe store core vb addr port).held = s.held := by unfold State.recordUe; dsimp only; split <;> rfl
@[simp] theorem State.recordUe_damage (s : State) (store : Nat) (core : Nat) (vb : Nat) (addr : Nat) (port : Nat) : (s.recordUe store core vb addr port).damage = s.damage := by unfold State.recordUe; dsimp only; split <;> rfl
@[simp] theorem State.recordUe_heldAon (s : State) (store : Nat) (core : Nat) (vb : Nat) (addr : Nat) (port : Nat) : (s.recordUe store core vb addr port).heldAon = s.heldAon := by unfold State.recordUe; dsimp only; split <;> rfl
@[simp] theorem State.recordUe_soft (s : State) (store : Nat) (core : Nat) (vb : Nat) (addr : Nat) (port : Nat) : (s.recordUe store core vb addr port).soft = s.soft := by unfold State.recordUe; dsimp only; split <;> rfl
@[simp] theorem State.recordUe_moved (s : State) (store : Nat) (core : Nat) (vb : Nat) (addr : Nat) (port : Nat) : (s.recordUe store core vb addr port).moved = s.moved := by unfold State.recordUe; dsimp only; split <;> rfl
@[simp] theorem State.recordUe_out (s : State) (store : Nat) (core : Nat) (vb : Nat) (addr : Nat) (port : Nat) : (s.recordUe store core vb addr port).out = s.out := by unfold State.recordUe; dsimp only; split <;> rfl
@[simp] theorem State.recordUe_free (s : State) (store : Nat) (core : Nat) (vb : Nat) (addr : Nat) (port : Nat) : (s.recordUe store core vb addr port).free = s.free := by unfold State.recordUe; dsimp only; split <;> rfl
@[simp] theorem State.recordUe_itemNo (s : State) (store : Nat) (core : Nat) (vb : Nat) (addr : Nat) (port : Nat) : (s.recordUe store core vb addr port).itemNo = s.itemNo := by unfold State.recordUe; dsimp only; split <;> rfl
@[simp] theorem State.recordUe_pending (s : State) (store : Nat) (core : Nat) (vb : Nat) (addr : Nat) (port : Nat) : (s.recordUe store core vb addr port).pending = s.pending := by unfold State.recordUe; dsimp only; split <;> rfl

@[simp] theorem State.countLoamCe_id (s : State) (sector : Nat) (k : Nat) : (s.countLoamCe sector k).id = s.id := by unfold State.countLoamCe; split <;> rfl
@[simp] theorem State.countLoamCe_ticks (s : State) (sector : Nat) (k : Nat) : (s.countLoamCe sector k).ticks = s.ticks := by unfold State.countLoamCe; split <;> rfl
@[simp] theorem State.countLoamCe_ts (s : State) (sector : Nat) (k : Nat) : (s.countLoamCe sector k).ts = s.ts := by unfold State.countLoamCe; split <;> rfl
@[simp] theorem State.countLoamCe_tsRun (s : State) (sector : Nat) (k : Nat) : (s.countLoamCe sector k).tsRun = s.tsRun := by unfold State.countLoamCe; split <;> rfl
@[simp] theorem State.countLoamCe_align (s : State) (sector : Nat) (k : Nat) : (s.countLoamCe sector k).align = s.align := by unfold State.countLoamCe; split <;> rfl
@[simp] theorem State.countLoamCe_str (s : State) (sector : Nat) (k : Nat) : (s.countLoamCe sector k).str = s.str := by unfold State.countLoamCe; split <;> rfl
@[simp] theorem State.countLoamCe_loam (s : State) (sector : Nat) (k : Nat) : (s.countLoamCe sector k).loam = s.loam := by unfold State.countLoamCe; split <;> rfl
@[simp] theorem State.countLoamCe_err (s : State) (sector : Nat) (k : Nat) : (s.countLoamCe sector k).err = s.err := by unfold State.countLoamCe; split <;> rfl
@[simp] theorem State.countLoamCe_cores (s : State) (sector : Nat) (k : Nat) : (s.countLoamCe sector k).cores = s.cores := by unfold State.countLoamCe; split <;> rfl
@[simp] theorem State.countLoamCe_msg (s : State) (sector : Nat) (k : Nat) : (s.countLoamCe sector k).msg = s.msg := by unfold State.countLoamCe; split <;> rfl
@[simp] theorem State.countLoamCe_syn (s : State) (sector : Nat) (k : Nat) : (s.countLoamCe sector k).syn = s.syn := by unfold State.countLoamCe; split <;> rfl
@[simp] theorem State.countLoamCe_port (s : State) (sector : Nat) (k : Nat) : (s.countLoamCe sector k).port = s.port := by unfold State.countLoamCe; split <;> rfl
@[simp] theorem State.countLoamCe_dma (s : State) (sector : Nat) (k : Nat) : (s.countLoamCe sector k).dma = s.dma := by unfold State.countLoamCe; split <;> rfl
@[simp] theorem State.countLoamCe_bq (s : State) (sector : Nat) (k : Nat) : (s.countLoamCe sector k).bq = s.bq := by unfold State.countLoamCe; split <;> rfl
@[simp] theorem State.countLoamCe_pwr (s : State) (sector : Nat) (k : Nat) : (s.countLoamCe sector k).pwr = s.pwr := by unfold State.countLoamCe; split <;> rfl
@[simp] theorem State.countLoamCe_mrl (s : State) (sector : Nat) (k : Nat) : (s.countLoamCe sector k).mrl = s.mrl := by unfold State.countLoamCe; split <;> rfl
@[simp] theorem State.countLoamCe_dbg (s : State) (sector : Nat) (k : Nat) : (s.countLoamCe sector k).dbg = s.dbg := by unfold State.countLoamCe; split <;> rfl
@[simp] theorem State.countLoamCe_latches (s : State) (sector : Nat) (k : Nat) : (s.countLoamCe sector k).latches = s.latches := by unfold State.countLoamCe; split <;> rfl
@[simp] theorem State.countLoamCe_held (s : State) (sector : Nat) (k : Nat) : (s.countLoamCe sector k).held = s.held := by unfold State.countLoamCe; split <;> rfl
@[simp] theorem State.countLoamCe_damage (s : State) (sector : Nat) (k : Nat) : (s.countLoamCe sector k).damage = s.damage := by unfold State.countLoamCe; split <;> rfl
@[simp] theorem State.countLoamCe_heldAon (s : State) (sector : Nat) (k : Nat) : (s.countLoamCe sector k).heldAon = s.heldAon := by unfold State.countLoamCe; split <;> rfl
@[simp] theorem State.countLoamCe_soft (s : State) (sector : Nat) (k : Nat) : (s.countLoamCe sector k).soft = s.soft := by unfold State.countLoamCe; split <;> rfl
@[simp] theorem State.countLoamCe_moved (s : State) (sector : Nat) (k : Nat) : (s.countLoamCe sector k).moved = s.moved := by unfold State.countLoamCe; split <;> rfl
@[simp] theorem State.countLoamCe_out (s : State) (sector : Nat) (k : Nat) : (s.countLoamCe sector k).out = s.out := by unfold State.countLoamCe; split <;> rfl
@[simp] theorem State.countLoamCe_free (s : State) (sector : Nat) (k : Nat) : (s.countLoamCe sector k).free = s.free := by unfold State.countLoamCe; split <;> rfl
@[simp] theorem State.countLoamCe_itemNo (s : State) (sector : Nat) (k : Nat) : (s.countLoamCe sector k).itemNo = s.itemNo := by unfold State.countLoamCe; split <;> rfl
@[simp] theorem State.countLoamCe_pending (s : State) (sector : Nat) (k : Nat) : (s.countLoamCe sector k).pending = s.pending := by unfold State.countLoamCe; split <;> rfl

@[simp] theorem State.countKaoCe_id (s : State) (c : Nat) (k : Nat) : (s.countKaoCe c k).id = s.id := by unfold State.countKaoCe; split <;> rfl
@[simp] theorem State.countKaoCe_ticks (s : State) (c : Nat) (k : Nat) : (s.countKaoCe c k).ticks = s.ticks := by unfold State.countKaoCe; split <;> rfl
@[simp] theorem State.countKaoCe_ts (s : State) (c : Nat) (k : Nat) : (s.countKaoCe c k).ts = s.ts := by unfold State.countKaoCe; split <;> rfl
@[simp] theorem State.countKaoCe_tsRun (s : State) (c : Nat) (k : Nat) : (s.countKaoCe c k).tsRun = s.tsRun := by unfold State.countKaoCe; split <;> rfl
@[simp] theorem State.countKaoCe_align (s : State) (c : Nat) (k : Nat) : (s.countKaoCe c k).align = s.align := by unfold State.countKaoCe; split <;> rfl
@[simp] theorem State.countKaoCe_str (s : State) (c : Nat) (k : Nat) : (s.countKaoCe c k).str = s.str := by unfold State.countKaoCe; split <;> rfl
@[simp] theorem State.countKaoCe_loam (s : State) (c : Nat) (k : Nat) : (s.countKaoCe c k).loam = s.loam := by unfold State.countKaoCe; split <;> rfl
@[simp] theorem State.countKaoCe_err (s : State) (c : Nat) (k : Nat) : (s.countKaoCe c k).err = s.err := by unfold State.countKaoCe; split <;> rfl
@[simp] theorem State.countKaoCe_cores (s : State) (c : Nat) (k : Nat) : (s.countKaoCe c k).cores = s.cores := by unfold State.countKaoCe; split <;> rfl
@[simp] theorem State.countKaoCe_msg (s : State) (c : Nat) (k : Nat) : (s.countKaoCe c k).msg = s.msg := by unfold State.countKaoCe; split <;> rfl
@[simp] theorem State.countKaoCe_syn (s : State) (c : Nat) (k : Nat) : (s.countKaoCe c k).syn = s.syn := by unfold State.countKaoCe; split <;> rfl
@[simp] theorem State.countKaoCe_port (s : State) (c : Nat) (k : Nat) : (s.countKaoCe c k).port = s.port := by unfold State.countKaoCe; split <;> rfl
@[simp] theorem State.countKaoCe_dma (s : State) (c : Nat) (k : Nat) : (s.countKaoCe c k).dma = s.dma := by unfold State.countKaoCe; split <;> rfl
@[simp] theorem State.countKaoCe_bq (s : State) (c : Nat) (k : Nat) : (s.countKaoCe c k).bq = s.bq := by unfold State.countKaoCe; split <;> rfl
@[simp] theorem State.countKaoCe_pwr (s : State) (c : Nat) (k : Nat) : (s.countKaoCe c k).pwr = s.pwr := by unfold State.countKaoCe; split <;> rfl
@[simp] theorem State.countKaoCe_mrl (s : State) (c : Nat) (k : Nat) : (s.countKaoCe c k).mrl = s.mrl := by unfold State.countKaoCe; split <;> rfl
@[simp] theorem State.countKaoCe_dbg (s : State) (c : Nat) (k : Nat) : (s.countKaoCe c k).dbg = s.dbg := by unfold State.countKaoCe; split <;> rfl
@[simp] theorem State.countKaoCe_latches (s : State) (c : Nat) (k : Nat) : (s.countKaoCe c k).latches = s.latches := by unfold State.countKaoCe; split <;> rfl
@[simp] theorem State.countKaoCe_held (s : State) (c : Nat) (k : Nat) : (s.countKaoCe c k).held = s.held := by unfold State.countKaoCe; split <;> rfl
@[simp] theorem State.countKaoCe_damage (s : State) (c : Nat) (k : Nat) : (s.countKaoCe c k).damage = s.damage := by unfold State.countKaoCe; split <;> rfl
@[simp] theorem State.countKaoCe_heldAon (s : State) (c : Nat) (k : Nat) : (s.countKaoCe c k).heldAon = s.heldAon := by unfold State.countKaoCe; split <;> rfl
@[simp] theorem State.countKaoCe_soft (s : State) (c : Nat) (k : Nat) : (s.countKaoCe c k).soft = s.soft := by unfold State.countKaoCe; split <;> rfl
@[simp] theorem State.countKaoCe_moved (s : State) (c : Nat) (k : Nat) : (s.countKaoCe c k).moved = s.moved := by unfold State.countKaoCe; split <;> rfl
@[simp] theorem State.countKaoCe_out (s : State) (c : Nat) (k : Nat) : (s.countKaoCe c k).out = s.out := by unfold State.countKaoCe; split <;> rfl
@[simp] theorem State.countKaoCe_free (s : State) (c : Nat) (k : Nat) : (s.countKaoCe c k).free = s.free := by unfold State.countKaoCe; split <;> rfl
@[simp] theorem State.countKaoCe_itemNo (s : State) (c : Nat) (k : Nat) : (s.countKaoCe c k).itemNo = s.itemNo := by unfold State.countKaoCe; split <;> rfl
@[simp] theorem State.countKaoCe_pending (s : State) (c : Nat) (k : Nat) : (s.countKaoCe c k).pending = s.pending := by unfold State.countKaoCe; split <;> rfl

@[simp] theorem State.requestSnap_id (s : State) (cause : Nat) (fault : Nat) (origin : Nat) : (s.requestSnap cause fault origin).id = s.id := by unfold State.requestSnap; dsimp only; (repeat' split) <;> simp
@[simp] theorem State.requestSnap_ticks (s : State) (cause : Nat) (fault : Nat) (origin : Nat) : (s.requestSnap cause fault origin).ticks = s.ticks := by unfold State.requestSnap; dsimp only; (repeat' split) <;> simp
@[simp] theorem State.requestSnap_ts (s : State) (cause : Nat) (fault : Nat) (origin : Nat) : (s.requestSnap cause fault origin).ts = s.ts := by unfold State.requestSnap; dsimp only; (repeat' split) <;> simp
@[simp] theorem State.requestSnap_tsRun (s : State) (cause : Nat) (fault : Nat) (origin : Nat) : (s.requestSnap cause fault origin).tsRun = s.tsRun := by unfold State.requestSnap; dsimp only; (repeat' split) <;> simp
@[simp] theorem State.requestSnap_align (s : State) (cause : Nat) (fault : Nat) (origin : Nat) : (s.requestSnap cause fault origin).align = s.align := by unfold State.requestSnap; dsimp only; (repeat' split) <;> simp
@[simp] theorem State.requestSnap_str (s : State) (cause : Nat) (fault : Nat) (origin : Nat) : (s.requestSnap cause fault origin).str = s.str := by unfold State.requestSnap; dsimp only; (repeat' split) <;> simp
@[simp] theorem State.requestSnap_loam (s : State) (cause : Nat) (fault : Nat) (origin : Nat) : (s.requestSnap cause fault origin).loam = s.loam := by unfold State.requestSnap; dsimp only; (repeat' split) <;> simp
@[simp] theorem State.requestSnap_err (s : State) (cause : Nat) (fault : Nat) (origin : Nat) : (s.requestSnap cause fault origin).err = s.err := by unfold State.requestSnap; dsimp only; (repeat' split) <;> simp
@[simp] theorem State.requestSnap_ctr (s : State) (cause : Nat) (fault : Nat) (origin : Nat) : (s.requestSnap cause fault origin).ctr = s.ctr := by unfold State.requestSnap; dsimp only; (repeat' split) <;> simp
@[simp] theorem State.requestSnap_cores (s : State) (cause : Nat) (fault : Nat) (origin : Nat) : (s.requestSnap cause fault origin).cores = s.cores := by unfold State.requestSnap; dsimp only; (repeat' split) <;> simp
@[simp] theorem State.requestSnap_msg (s : State) (cause : Nat) (fault : Nat) (origin : Nat) : (s.requestSnap cause fault origin).msg = s.msg := by unfold State.requestSnap; dsimp only; (repeat' split) <;> simp
@[simp] theorem State.requestSnap_syn (s : State) (cause : Nat) (fault : Nat) (origin : Nat) : (s.requestSnap cause fault origin).syn = s.syn := by unfold State.requestSnap; dsimp only; (repeat' split) <;> simp
@[simp] theorem State.requestSnap_port (s : State) (cause : Nat) (fault : Nat) (origin : Nat) : (s.requestSnap cause fault origin).port = s.port := by unfold State.requestSnap; dsimp only; (repeat' split) <;> simp
@[simp] theorem State.requestSnap_dma (s : State) (cause : Nat) (fault : Nat) (origin : Nat) : (s.requestSnap cause fault origin).dma = s.dma := by unfold State.requestSnap; dsimp only; (repeat' split) <;> simp
@[simp] theorem State.requestSnap_bq (s : State) (cause : Nat) (fault : Nat) (origin : Nat) : (s.requestSnap cause fault origin).bq = s.bq := by unfold State.requestSnap; dsimp only; (repeat' split) <;> simp
@[simp] theorem State.requestSnap_pwr (s : State) (cause : Nat) (fault : Nat) (origin : Nat) : (s.requestSnap cause fault origin).pwr = s.pwr := by unfold State.requestSnap; dsimp only; (repeat' split) <;> simp
@[simp] theorem State.requestSnap_mrl (s : State) (cause : Nat) (fault : Nat) (origin : Nat) : (s.requestSnap cause fault origin).mrl = s.mrl := by unfold State.requestSnap; dsimp only; (repeat' split) <;> simp
@[simp] theorem State.requestSnap_tel (s : State) (cause : Nat) (fault : Nat) (origin : Nat) : (s.requestSnap cause fault origin).tel = s.tel := by unfold State.requestSnap; dsimp only; (repeat' split) <;> simp
@[simp] theorem State.requestSnap_latches (s : State) (cause : Nat) (fault : Nat) (origin : Nat) : (s.requestSnap cause fault origin).latches = s.latches := by unfold State.requestSnap; dsimp only; (repeat' split) <;> simp
@[simp] theorem State.requestSnap_held (s : State) (cause : Nat) (fault : Nat) (origin : Nat) : (s.requestSnap cause fault origin).held = s.held := by unfold State.requestSnap; dsimp only; (repeat' split) <;> simp
@[simp] theorem State.requestSnap_damage (s : State) (cause : Nat) (fault : Nat) (origin : Nat) : (s.requestSnap cause fault origin).damage = s.damage := by unfold State.requestSnap; dsimp only; (repeat' split) <;> simp
@[simp] theorem State.requestSnap_heldAon (s : State) (cause : Nat) (fault : Nat) (origin : Nat) : (s.requestSnap cause fault origin).heldAon = s.heldAon := by unfold State.requestSnap; dsimp only; (repeat' split) <;> simp
@[simp] theorem State.requestSnap_soft (s : State) (cause : Nat) (fault : Nat) (origin : Nat) : (s.requestSnap cause fault origin).soft = s.soft := by unfold State.requestSnap; dsimp only; (repeat' split) <;> simp
@[simp] theorem State.requestSnap_moved (s : State) (cause : Nat) (fault : Nat) (origin : Nat) : (s.requestSnap cause fault origin).moved = s.moved := by unfold State.requestSnap; dsimp only; (repeat' split) <;> simp
@[simp] theorem State.requestSnap_out (s : State) (cause : Nat) (fault : Nat) (origin : Nat) : (s.requestSnap cause fault origin).out = s.out := by unfold State.requestSnap; dsimp only; (repeat' split) <;> simp
@[simp] theorem State.requestSnap_free (s : State) (cause : Nat) (fault : Nat) (origin : Nat) : (s.requestSnap cause fault origin).free = s.free := by unfold State.requestSnap; dsimp only; (repeat' split) <;> simp
@[simp] theorem State.requestSnap_itemNo (s : State) (cause : Nat) (fault : Nat) (origin : Nat) : (s.requestSnap cause fault origin).itemNo = s.itemNo := by unfold State.requestSnap; dsimp only; (repeat' split) <;> simp
@[simp] theorem State.requestSnap_pending (s : State) (cause : Nat) (fault : Nat) (origin : Nat) : (s.requestSnap cause fault origin).pending = s.pending := by unfold State.requestSnap; dsimp only; (repeat' split) <;> simp

@[simp] theorem State.askSnap_id (s : State) (cause : Nat) (fault : Nat) : (s.askSnap cause fault).id = s.id := by unfold State.askSnap; split <;> simp
@[simp] theorem State.askSnap_ticks (s : State) (cause : Nat) (fault : Nat) : (s.askSnap cause fault).ticks = s.ticks := by unfold State.askSnap; split <;> simp
@[simp] theorem State.askSnap_ts (s : State) (cause : Nat) (fault : Nat) : (s.askSnap cause fault).ts = s.ts := by unfold State.askSnap; split <;> simp
@[simp] theorem State.askSnap_tsRun (s : State) (cause : Nat) (fault : Nat) : (s.askSnap cause fault).tsRun = s.tsRun := by unfold State.askSnap; split <;> simp
@[simp] theorem State.askSnap_align (s : State) (cause : Nat) (fault : Nat) : (s.askSnap cause fault).align = s.align := by unfold State.askSnap; split <;> simp
@[simp] theorem State.askSnap_str (s : State) (cause : Nat) (fault : Nat) : (s.askSnap cause fault).str = s.str := by unfold State.askSnap; split <;> simp
@[simp] theorem State.askSnap_loam (s : State) (cause : Nat) (fault : Nat) : (s.askSnap cause fault).loam = s.loam := by unfold State.askSnap; split <;> simp
@[simp] theorem State.askSnap_err (s : State) (cause : Nat) (fault : Nat) : (s.askSnap cause fault).err = s.err := by unfold State.askSnap; split <;> simp
@[simp] theorem State.askSnap_ctr (s : State) (cause : Nat) (fault : Nat) : (s.askSnap cause fault).ctr = s.ctr := by unfold State.askSnap; split <;> simp
@[simp] theorem State.askSnap_cores (s : State) (cause : Nat) (fault : Nat) : (s.askSnap cause fault).cores = s.cores := by unfold State.askSnap; split <;> simp
@[simp] theorem State.askSnap_msg (s : State) (cause : Nat) (fault : Nat) : (s.askSnap cause fault).msg = s.msg := by unfold State.askSnap; split <;> simp
@[simp] theorem State.askSnap_syn (s : State) (cause : Nat) (fault : Nat) : (s.askSnap cause fault).syn = s.syn := by unfold State.askSnap; split <;> simp
@[simp] theorem State.askSnap_port (s : State) (cause : Nat) (fault : Nat) : (s.askSnap cause fault).port = s.port := by unfold State.askSnap; split <;> simp
@[simp] theorem State.askSnap_dma (s : State) (cause : Nat) (fault : Nat) : (s.askSnap cause fault).dma = s.dma := by unfold State.askSnap; split <;> simp
@[simp] theorem State.askSnap_bq (s : State) (cause : Nat) (fault : Nat) : (s.askSnap cause fault).bq = s.bq := by unfold State.askSnap; split <;> simp
@[simp] theorem State.askSnap_pwr (s : State) (cause : Nat) (fault : Nat) : (s.askSnap cause fault).pwr = s.pwr := by unfold State.askSnap; split <;> simp
@[simp] theorem State.askSnap_mrl (s : State) (cause : Nat) (fault : Nat) : (s.askSnap cause fault).mrl = s.mrl := by unfold State.askSnap; split <;> simp
@[simp] theorem State.askSnap_tel (s : State) (cause : Nat) (fault : Nat) : (s.askSnap cause fault).tel = s.tel := by unfold State.askSnap; split <;> simp
@[simp] theorem State.askSnap_latches (s : State) (cause : Nat) (fault : Nat) : (s.askSnap cause fault).latches = s.latches := by unfold State.askSnap; split <;> simp
@[simp] theorem State.askSnap_held (s : State) (cause : Nat) (fault : Nat) : (s.askSnap cause fault).held = s.held := by unfold State.askSnap; split <;> simp
@[simp] theorem State.askSnap_damage (s : State) (cause : Nat) (fault : Nat) : (s.askSnap cause fault).damage = s.damage := by unfold State.askSnap; split <;> simp
@[simp] theorem State.askSnap_heldAon (s : State) (cause : Nat) (fault : Nat) : (s.askSnap cause fault).heldAon = s.heldAon := by unfold State.askSnap; split <;> simp
@[simp] theorem State.askSnap_soft (s : State) (cause : Nat) (fault : Nat) : (s.askSnap cause fault).soft = s.soft := by unfold State.askSnap; split <;> simp
@[simp] theorem State.askSnap_moved (s : State) (cause : Nat) (fault : Nat) : (s.askSnap cause fault).moved = s.moved := by unfold State.askSnap; split <;> simp
@[simp] theorem State.askSnap_free (s : State) (cause : Nat) (fault : Nat) : (s.askSnap cause fault).free = s.free := by unfold State.askSnap; split <;> simp
@[simp] theorem State.askSnap_itemNo (s : State) (cause : Nat) (fault : Nat) : (s.askSnap cause fault).itemNo = s.itemNo := by unfold State.askSnap; split <;> simp
@[simp] theorem State.askSnap_pending (s : State) (cause : Nat) (fault : Nat) : (s.askSnap cause fault).pending = s.pending := by unfold State.askSnap; split <;> simp

@[simp] theorem State.newTxn_id (s : State) (addr : Nat) (k : TxnKind) : (s.newTxn addr k).1.id = s.id := rfl
@[simp] theorem State.newTxn_ticks (s : State) (addr : Nat) (k : TxnKind) : (s.newTxn addr k).1.ticks = s.ticks := rfl
@[simp] theorem State.newTxn_ts (s : State) (addr : Nat) (k : TxnKind) : (s.newTxn addr k).1.ts = s.ts := rfl
@[simp] theorem State.newTxn_tsRun (s : State) (addr : Nat) (k : TxnKind) : (s.newTxn addr k).1.tsRun = s.tsRun := rfl
@[simp] theorem State.newTxn_align (s : State) (addr : Nat) (k : TxnKind) : (s.newTxn addr k).1.align = s.align := rfl
@[simp] theorem State.newTxn_str (s : State) (addr : Nat) (k : TxnKind) : (s.newTxn addr k).1.str = s.str := rfl
@[simp] theorem State.newTxn_loam (s : State) (addr : Nat) (k : TxnKind) : (s.newTxn addr k).1.loam = s.loam := rfl
@[simp] theorem State.newTxn_err (s : State) (addr : Nat) (k : TxnKind) : (s.newTxn addr k).1.err = s.err := rfl
@[simp] theorem State.newTxn_ctr (s : State) (addr : Nat) (k : TxnKind) : (s.newTxn addr k).1.ctr = s.ctr := rfl
@[simp] theorem State.newTxn_cores (s : State) (addr : Nat) (k : TxnKind) : (s.newTxn addr k).1.cores = s.cores := rfl
@[simp] theorem State.newTxn_msg (s : State) (addr : Nat) (k : TxnKind) : (s.newTxn addr k).1.msg = s.msg := rfl
@[simp] theorem State.newTxn_syn (s : State) (addr : Nat) (k : TxnKind) : (s.newTxn addr k).1.syn = s.syn := rfl
@[simp] theorem State.newTxn_dma (s : State) (addr : Nat) (k : TxnKind) : (s.newTxn addr k).1.dma = s.dma := rfl
@[simp] theorem State.newTxn_bq (s : State) (addr : Nat) (k : TxnKind) : (s.newTxn addr k).1.bq = s.bq := rfl
@[simp] theorem State.newTxn_pwr (s : State) (addr : Nat) (k : TxnKind) : (s.newTxn addr k).1.pwr = s.pwr := rfl
@[simp] theorem State.newTxn_mrl (s : State) (addr : Nat) (k : TxnKind) : (s.newTxn addr k).1.mrl = s.mrl := rfl
@[simp] theorem State.newTxn_tel (s : State) (addr : Nat) (k : TxnKind) : (s.newTxn addr k).1.tel = s.tel := rfl
@[simp] theorem State.newTxn_dbg (s : State) (addr : Nat) (k : TxnKind) : (s.newTxn addr k).1.dbg = s.dbg := rfl
@[simp] theorem State.newTxn_latches (s : State) (addr : Nat) (k : TxnKind) : (s.newTxn addr k).1.latches = s.latches := rfl
@[simp] theorem State.newTxn_held (s : State) (addr : Nat) (k : TxnKind) : (s.newTxn addr k).1.held = s.held := rfl
@[simp] theorem State.newTxn_damage (s : State) (addr : Nat) (k : TxnKind) : (s.newTxn addr k).1.damage = s.damage := rfl
@[simp] theorem State.newTxn_heldAon (s : State) (addr : Nat) (k : TxnKind) : (s.newTxn addr k).1.heldAon = s.heldAon := rfl
@[simp] theorem State.newTxn_soft (s : State) (addr : Nat) (k : TxnKind) : (s.newTxn addr k).1.soft = s.soft := rfl
@[simp] theorem State.newTxn_moved (s : State) (addr : Nat) (k : TxnKind) : (s.newTxn addr k).1.moved = s.moved := rfl
@[simp] theorem State.newTxn_out (s : State) (addr : Nat) (k : TxnKind) : (s.newTxn addr k).1.out = s.out := rfl
@[simp] theorem State.newTxn_free (s : State) (addr : Nat) (k : TxnKind) : (s.newTxn addr k).1.free = s.free := rfl
@[simp] theorem State.newTxn_itemNo (s : State) (addr : Nat) (k : TxnKind) : (s.newTxn addr k).1.itemNo = s.itemNo := rfl
@[simp] theorem State.newTxn_pending (s : State) (addr : Nat) (k : TxnKind) : (s.newTxn addr k).1.pending = s.pending := rfl

@[simp] theorem State.dropTxn_id (s : State) (id : Nat) : (s.dropTxn id).id = s.id := rfl
@[simp] theorem State.dropTxn_ticks (s : State) (id : Nat) : (s.dropTxn id).ticks = s.ticks := rfl
@[simp] theorem State.dropTxn_ts (s : State) (id : Nat) : (s.dropTxn id).ts = s.ts := rfl
@[simp] theorem State.dropTxn_tsRun (s : State) (id : Nat) : (s.dropTxn id).tsRun = s.tsRun := rfl
@[simp] theorem State.dropTxn_align (s : State) (id : Nat) : (s.dropTxn id).align = s.align := rfl
@[simp] theorem State.dropTxn_str (s : State) (id : Nat) : (s.dropTxn id).str = s.str := rfl
@[simp] theorem State.dropTxn_loam (s : State) (id : Nat) : (s.dropTxn id).loam = s.loam := rfl
@[simp] theorem State.dropTxn_err (s : State) (id : Nat) : (s.dropTxn id).err = s.err := rfl
@[simp] theorem State.dropTxn_ctr (s : State) (id : Nat) : (s.dropTxn id).ctr = s.ctr := rfl
@[simp] theorem State.dropTxn_cores (s : State) (id : Nat) : (s.dropTxn id).cores = s.cores := rfl
@[simp] theorem State.dropTxn_msg (s : State) (id : Nat) : (s.dropTxn id).msg = s.msg := rfl
@[simp] theorem State.dropTxn_syn (s : State) (id : Nat) : (s.dropTxn id).syn = s.syn := rfl
@[simp] theorem State.dropTxn_dma (s : State) (id : Nat) : (s.dropTxn id).dma = s.dma := rfl
@[simp] theorem State.dropTxn_bq (s : State) (id : Nat) : (s.dropTxn id).bq = s.bq := rfl
@[simp] theorem State.dropTxn_pwr (s : State) (id : Nat) : (s.dropTxn id).pwr = s.pwr := rfl
@[simp] theorem State.dropTxn_mrl (s : State) (id : Nat) : (s.dropTxn id).mrl = s.mrl := rfl
@[simp] theorem State.dropTxn_tel (s : State) (id : Nat) : (s.dropTxn id).tel = s.tel := rfl
@[simp] theorem State.dropTxn_dbg (s : State) (id : Nat) : (s.dropTxn id).dbg = s.dbg := rfl
@[simp] theorem State.dropTxn_latches (s : State) (id : Nat) : (s.dropTxn id).latches = s.latches := rfl
@[simp] theorem State.dropTxn_held (s : State) (id : Nat) : (s.dropTxn id).held = s.held := rfl
@[simp] theorem State.dropTxn_damage (s : State) (id : Nat) : (s.dropTxn id).damage = s.damage := rfl
@[simp] theorem State.dropTxn_heldAon (s : State) (id : Nat) : (s.dropTxn id).heldAon = s.heldAon := rfl
@[simp] theorem State.dropTxn_soft (s : State) (id : Nat) : (s.dropTxn id).soft = s.soft := rfl
@[simp] theorem State.dropTxn_moved (s : State) (id : Nat) : (s.dropTxn id).moved = s.moved := rfl
@[simp] theorem State.dropTxn_out (s : State) (id : Nat) : (s.dropTxn id).out = s.out := rfl
@[simp] theorem State.dropTxn_free (s : State) (id : Nat) : (s.dropTxn id).free = s.free := rfl
@[simp] theorem State.dropTxn_itemNo (s : State) (id : Nat) : (s.dropTxn id).itemNo = s.itemNo := rfl
@[simp] theorem State.dropTxn_pending (s : State) (id : Nat) : (s.dropTxn id).pending = s.pending := rfl

@[simp] theorem State.setRing_id (s : State) (c : Nat) (r : Nat) (x : Ring) : (s.setRing c r x).id = s.id := rfl
@[simp] theorem State.setRing_ticks (s : State) (c : Nat) (r : Nat) (x : Ring) : (s.setRing c r x).ticks = s.ticks := rfl
@[simp] theorem State.setRing_ts (s : State) (c : Nat) (r : Nat) (x : Ring) : (s.setRing c r x).ts = s.ts := rfl
@[simp] theorem State.setRing_tsRun (s : State) (c : Nat) (r : Nat) (x : Ring) : (s.setRing c r x).tsRun = s.tsRun := rfl
@[simp] theorem State.setRing_align (s : State) (c : Nat) (r : Nat) (x : Ring) : (s.setRing c r x).align = s.align := rfl
@[simp] theorem State.setRing_str (s : State) (c : Nat) (r : Nat) (x : Ring) : (s.setRing c r x).str = s.str := rfl
@[simp] theorem State.setRing_loam (s : State) (c : Nat) (r : Nat) (x : Ring) : (s.setRing c r x).loam = s.loam := rfl
@[simp] theorem State.setRing_err (s : State) (c : Nat) (r : Nat) (x : Ring) : (s.setRing c r x).err = s.err := rfl
@[simp] theorem State.setRing_ctr (s : State) (c : Nat) (r : Nat) (x : Ring) : (s.setRing c r x).ctr = s.ctr := rfl
@[simp] theorem State.setRing_cores (s : State) (c : Nat) (r : Nat) (x : Ring) : (s.setRing c r x).cores = s.cores := rfl
@[simp] theorem State.setRing_syn (s : State) (c : Nat) (r : Nat) (x : Ring) : (s.setRing c r x).syn = s.syn := rfl
@[simp] theorem State.setRing_port (s : State) (c : Nat) (r : Nat) (x : Ring) : (s.setRing c r x).port = s.port := rfl
@[simp] theorem State.setRing_dma (s : State) (c : Nat) (r : Nat) (x : Ring) : (s.setRing c r x).dma = s.dma := rfl
@[simp] theorem State.setRing_bq (s : State) (c : Nat) (r : Nat) (x : Ring) : (s.setRing c r x).bq = s.bq := rfl
@[simp] theorem State.setRing_pwr (s : State) (c : Nat) (r : Nat) (x : Ring) : (s.setRing c r x).pwr = s.pwr := rfl
@[simp] theorem State.setRing_mrl (s : State) (c : Nat) (r : Nat) (x : Ring) : (s.setRing c r x).mrl = s.mrl := rfl
@[simp] theorem State.setRing_tel (s : State) (c : Nat) (r : Nat) (x : Ring) : (s.setRing c r x).tel = s.tel := rfl
@[simp] theorem State.setRing_dbg (s : State) (c : Nat) (r : Nat) (x : Ring) : (s.setRing c r x).dbg = s.dbg := rfl
@[simp] theorem State.setRing_latches (s : State) (c : Nat) (r : Nat) (x : Ring) : (s.setRing c r x).latches = s.latches := rfl
@[simp] theorem State.setRing_held (s : State) (c : Nat) (r : Nat) (x : Ring) : (s.setRing c r x).held = s.held := rfl
@[simp] theorem State.setRing_damage (s : State) (c : Nat) (r : Nat) (x : Ring) : (s.setRing c r x).damage = s.damage := rfl
@[simp] theorem State.setRing_heldAon (s : State) (c : Nat) (r : Nat) (x : Ring) : (s.setRing c r x).heldAon = s.heldAon := rfl
@[simp] theorem State.setRing_soft (s : State) (c : Nat) (r : Nat) (x : Ring) : (s.setRing c r x).soft = s.soft := rfl
@[simp] theorem State.setRing_moved (s : State) (c : Nat) (r : Nat) (x : Ring) : (s.setRing c r x).moved = s.moved := rfl
@[simp] theorem State.setRing_out (s : State) (c : Nat) (r : Nat) (x : Ring) : (s.setRing c r x).out = s.out := rfl
@[simp] theorem State.setRing_free (s : State) (c : Nat) (r : Nat) (x : Ring) : (s.setRing c r x).free = s.free := rfl
@[simp] theorem State.setRing_itemNo (s : State) (c : Nat) (r : Nat) (x : Ring) : (s.setRing c r x).itemNo = s.itemNo := rfl
@[simp] theorem State.setRing_pending (s : State) (c : Nat) (r : Nat) (x : Ring) : (s.setRing c r x).pending = s.pending := rfl

@[simp] theorem State.setCredit_id (s : State) (dest : Nat) (c : Credit) : (s.setCredit dest c).id = s.id := rfl
@[simp] theorem State.setCredit_ticks (s : State) (dest : Nat) (c : Credit) : (s.setCredit dest c).ticks = s.ticks := rfl
@[simp] theorem State.setCredit_ts (s : State) (dest : Nat) (c : Credit) : (s.setCredit dest c).ts = s.ts := rfl
@[simp] theorem State.setCredit_tsRun (s : State) (dest : Nat) (c : Credit) : (s.setCredit dest c).tsRun = s.tsRun := rfl
@[simp] theorem State.setCredit_align (s : State) (dest : Nat) (c : Credit) : (s.setCredit dest c).align = s.align := rfl
@[simp] theorem State.setCredit_str (s : State) (dest : Nat) (c : Credit) : (s.setCredit dest c).str = s.str := rfl
@[simp] theorem State.setCredit_loam (s : State) (dest : Nat) (c : Credit) : (s.setCredit dest c).loam = s.loam := rfl
@[simp] theorem State.setCredit_err (s : State) (dest : Nat) (c : Credit) : (s.setCredit dest c).err = s.err := rfl
@[simp] theorem State.setCredit_ctr (s : State) (dest : Nat) (c : Credit) : (s.setCredit dest c).ctr = s.ctr := rfl
@[simp] theorem State.setCredit_cores (s : State) (dest : Nat) (c : Credit) : (s.setCredit dest c).cores = s.cores := rfl
@[simp] theorem State.setCredit_syn (s : State) (dest : Nat) (c : Credit) : (s.setCredit dest c).syn = s.syn := rfl
@[simp] theorem State.setCredit_port (s : State) (dest : Nat) (c : Credit) : (s.setCredit dest c).port = s.port := rfl
@[simp] theorem State.setCredit_dma (s : State) (dest : Nat) (c : Credit) : (s.setCredit dest c).dma = s.dma := rfl
@[simp] theorem State.setCredit_bq (s : State) (dest : Nat) (c : Credit) : (s.setCredit dest c).bq = s.bq := rfl
@[simp] theorem State.setCredit_pwr (s : State) (dest : Nat) (c : Credit) : (s.setCredit dest c).pwr = s.pwr := rfl
@[simp] theorem State.setCredit_mrl (s : State) (dest : Nat) (c : Credit) : (s.setCredit dest c).mrl = s.mrl := rfl
@[simp] theorem State.setCredit_tel (s : State) (dest : Nat) (c : Credit) : (s.setCredit dest c).tel = s.tel := rfl
@[simp] theorem State.setCredit_dbg (s : State) (dest : Nat) (c : Credit) : (s.setCredit dest c).dbg = s.dbg := rfl
@[simp] theorem State.setCredit_latches (s : State) (dest : Nat) (c : Credit) : (s.setCredit dest c).latches = s.latches := rfl
@[simp] theorem State.setCredit_held (s : State) (dest : Nat) (c : Credit) : (s.setCredit dest c).held = s.held := rfl
@[simp] theorem State.setCredit_damage (s : State) (dest : Nat) (c : Credit) : (s.setCredit dest c).damage = s.damage := rfl
@[simp] theorem State.setCredit_heldAon (s : State) (dest : Nat) (c : Credit) : (s.setCredit dest c).heldAon = s.heldAon := rfl
@[simp] theorem State.setCredit_soft (s : State) (dest : Nat) (c : Credit) : (s.setCredit dest c).soft = s.soft := rfl
@[simp] theorem State.setCredit_moved (s : State) (dest : Nat) (c : Credit) : (s.setCredit dest c).moved = s.moved := rfl
@[simp] theorem State.setCredit_out (s : State) (dest : Nat) (c : Credit) : (s.setCredit dest c).out = s.out := rfl
@[simp] theorem State.setCredit_free (s : State) (dest : Nat) (c : Credit) : (s.setCredit dest c).free = s.free := rfl
@[simp] theorem State.setCredit_itemNo (s : State) (dest : Nat) (c : Credit) : (s.setCredit dest c).itemNo = s.itemNo := rfl
@[simp] theorem State.setCredit_pending (s : State) (dest : Nat) (c : Credit) : (s.setCredit dest c).pending = s.pending := rfl

@[simp] theorem State.setPace_id (s : State) (node : Nat) (p : Pace) : (s.setPace node p).id = s.id := rfl
@[simp] theorem State.setPace_ticks (s : State) (node : Nat) (p : Pace) : (s.setPace node p).ticks = s.ticks := rfl
@[simp] theorem State.setPace_ts (s : State) (node : Nat) (p : Pace) : (s.setPace node p).ts = s.ts := rfl
@[simp] theorem State.setPace_tsRun (s : State) (node : Nat) (p : Pace) : (s.setPace node p).tsRun = s.tsRun := rfl
@[simp] theorem State.setPace_align (s : State) (node : Nat) (p : Pace) : (s.setPace node p).align = s.align := rfl
@[simp] theorem State.setPace_str (s : State) (node : Nat) (p : Pace) : (s.setPace node p).str = s.str := rfl
@[simp] theorem State.setPace_loam (s : State) (node : Nat) (p : Pace) : (s.setPace node p).loam = s.loam := rfl
@[simp] theorem State.setPace_err (s : State) (node : Nat) (p : Pace) : (s.setPace node p).err = s.err := rfl
@[simp] theorem State.setPace_ctr (s : State) (node : Nat) (p : Pace) : (s.setPace node p).ctr = s.ctr := rfl
@[simp] theorem State.setPace_cores (s : State) (node : Nat) (p : Pace) : (s.setPace node p).cores = s.cores := rfl
@[simp] theorem State.setPace_syn (s : State) (node : Nat) (p : Pace) : (s.setPace node p).syn = s.syn := rfl
@[simp] theorem State.setPace_port (s : State) (node : Nat) (p : Pace) : (s.setPace node p).port = s.port := rfl
@[simp] theorem State.setPace_dma (s : State) (node : Nat) (p : Pace) : (s.setPace node p).dma = s.dma := rfl
@[simp] theorem State.setPace_bq (s : State) (node : Nat) (p : Pace) : (s.setPace node p).bq = s.bq := rfl
@[simp] theorem State.setPace_pwr (s : State) (node : Nat) (p : Pace) : (s.setPace node p).pwr = s.pwr := rfl
@[simp] theorem State.setPace_mrl (s : State) (node : Nat) (p : Pace) : (s.setPace node p).mrl = s.mrl := rfl
@[simp] theorem State.setPace_tel (s : State) (node : Nat) (p : Pace) : (s.setPace node p).tel = s.tel := rfl
@[simp] theorem State.setPace_dbg (s : State) (node : Nat) (p : Pace) : (s.setPace node p).dbg = s.dbg := rfl
@[simp] theorem State.setPace_latches (s : State) (node : Nat) (p : Pace) : (s.setPace node p).latches = s.latches := rfl
@[simp] theorem State.setPace_held (s : State) (node : Nat) (p : Pace) : (s.setPace node p).held = s.held := rfl
@[simp] theorem State.setPace_damage (s : State) (node : Nat) (p : Pace) : (s.setPace node p).damage = s.damage := rfl
@[simp] theorem State.setPace_heldAon (s : State) (node : Nat) (p : Pace) : (s.setPace node p).heldAon = s.heldAon := rfl
@[simp] theorem State.setPace_soft (s : State) (node : Nat) (p : Pace) : (s.setPace node p).soft = s.soft := rfl
@[simp] theorem State.setPace_moved (s : State) (node : Nat) (p : Pace) : (s.setPace node p).moved = s.moved := rfl
@[simp] theorem State.setPace_out (s : State) (node : Nat) (p : Pace) : (s.setPace node p).out = s.out := rfl
@[simp] theorem State.setPace_free (s : State) (node : Nat) (p : Pace) : (s.setPace node p).free = s.free := rfl
@[simp] theorem State.setPace_itemNo (s : State) (node : Nat) (p : Pace) : (s.setPace node p).itemNo = s.itemNo := rfl
@[simp] theorem State.setPace_pending (s : State) (node : Nat) (p : Pace) : (s.setPace node p).pending = s.pending := rfl

@[simp] theorem State.setSlot_id (s : State) (n : Nat) (x : Slot) : (s.setSlot n x).id = s.id := rfl
@[simp] theorem State.setSlot_ticks (s : State) (n : Nat) (x : Slot) : (s.setSlot n x).ticks = s.ticks := rfl
@[simp] theorem State.setSlot_ts (s : State) (n : Nat) (x : Slot) : (s.setSlot n x).ts = s.ts := rfl
@[simp] theorem State.setSlot_tsRun (s : State) (n : Nat) (x : Slot) : (s.setSlot n x).tsRun = s.tsRun := rfl
@[simp] theorem State.setSlot_align (s : State) (n : Nat) (x : Slot) : (s.setSlot n x).align = s.align := rfl
@[simp] theorem State.setSlot_str (s : State) (n : Nat) (x : Slot) : (s.setSlot n x).str = s.str := rfl
@[simp] theorem State.setSlot_loam (s : State) (n : Nat) (x : Slot) : (s.setSlot n x).loam = s.loam := rfl
@[simp] theorem State.setSlot_err (s : State) (n : Nat) (x : Slot) : (s.setSlot n x).err = s.err := rfl
@[simp] theorem State.setSlot_ctr (s : State) (n : Nat) (x : Slot) : (s.setSlot n x).ctr = s.ctr := rfl
@[simp] theorem State.setSlot_cores (s : State) (n : Nat) (x : Slot) : (s.setSlot n x).cores = s.cores := rfl
@[simp] theorem State.setSlot_syn (s : State) (n : Nat) (x : Slot) : (s.setSlot n x).syn = s.syn := rfl
@[simp] theorem State.setSlot_port (s : State) (n : Nat) (x : Slot) : (s.setSlot n x).port = s.port := rfl
@[simp] theorem State.setSlot_dma (s : State) (n : Nat) (x : Slot) : (s.setSlot n x).dma = s.dma := rfl
@[simp] theorem State.setSlot_bq (s : State) (n : Nat) (x : Slot) : (s.setSlot n x).bq = s.bq := rfl
@[simp] theorem State.setSlot_pwr (s : State) (n : Nat) (x : Slot) : (s.setSlot n x).pwr = s.pwr := rfl
@[simp] theorem State.setSlot_mrl (s : State) (n : Nat) (x : Slot) : (s.setSlot n x).mrl = s.mrl := rfl
@[simp] theorem State.setSlot_tel (s : State) (n : Nat) (x : Slot) : (s.setSlot n x).tel = s.tel := rfl
@[simp] theorem State.setSlot_dbg (s : State) (n : Nat) (x : Slot) : (s.setSlot n x).dbg = s.dbg := rfl
@[simp] theorem State.setSlot_latches (s : State) (n : Nat) (x : Slot) : (s.setSlot n x).latches = s.latches := rfl
@[simp] theorem State.setSlot_held (s : State) (n : Nat) (x : Slot) : (s.setSlot n x).held = s.held := rfl
@[simp] theorem State.setSlot_damage (s : State) (n : Nat) (x : Slot) : (s.setSlot n x).damage = s.damage := rfl
@[simp] theorem State.setSlot_heldAon (s : State) (n : Nat) (x : Slot) : (s.setSlot n x).heldAon = s.heldAon := rfl
@[simp] theorem State.setSlot_soft (s : State) (n : Nat) (x : Slot) : (s.setSlot n x).soft = s.soft := rfl
@[simp] theorem State.setSlot_moved (s : State) (n : Nat) (x : Slot) : (s.setSlot n x).moved = s.moved := rfl
@[simp] theorem State.setSlot_out (s : State) (n : Nat) (x : Slot) : (s.setSlot n x).out = s.out := rfl
@[simp] theorem State.setSlot_free (s : State) (n : Nat) (x : Slot) : (s.setSlot n x).free = s.free := rfl
@[simp] theorem State.setSlot_itemNo (s : State) (n : Nat) (x : Slot) : (s.setSlot n x).itemNo = s.itemNo := rfl
@[simp] theorem State.setSlot_pending (s : State) (n : Nat) (x : Slot) : (s.setSlot n x).pending = s.pending := rfl

@[simp] theorem State.setChan_id (s : State) (ch : Nat) (c : Channel) : (s.setChan ch c).id = s.id := rfl
@[simp] theorem State.setChan_ticks (s : State) (ch : Nat) (c : Channel) : (s.setChan ch c).ticks = s.ticks := rfl
@[simp] theorem State.setChan_ts (s : State) (ch : Nat) (c : Channel) : (s.setChan ch c).ts = s.ts := rfl
@[simp] theorem State.setChan_tsRun (s : State) (ch : Nat) (c : Channel) : (s.setChan ch c).tsRun = s.tsRun := rfl
@[simp] theorem State.setChan_align (s : State) (ch : Nat) (c : Channel) : (s.setChan ch c).align = s.align := rfl
@[simp] theorem State.setChan_str (s : State) (ch : Nat) (c : Channel) : (s.setChan ch c).str = s.str := rfl
@[simp] theorem State.setChan_loam (s : State) (ch : Nat) (c : Channel) : (s.setChan ch c).loam = s.loam := rfl
@[simp] theorem State.setChan_err (s : State) (ch : Nat) (c : Channel) : (s.setChan ch c).err = s.err := rfl
@[simp] theorem State.setChan_ctr (s : State) (ch : Nat) (c : Channel) : (s.setChan ch c).ctr = s.ctr := rfl
@[simp] theorem State.setChan_cores (s : State) (ch : Nat) (c : Channel) : (s.setChan ch c).cores = s.cores := rfl
@[simp] theorem State.setChan_msg (s : State) (ch : Nat) (c : Channel) : (s.setChan ch c).msg = s.msg := rfl
@[simp] theorem State.setChan_syn (s : State) (ch : Nat) (c : Channel) : (s.setChan ch c).syn = s.syn := rfl
@[simp] theorem State.setChan_port (s : State) (ch : Nat) (c : Channel) : (s.setChan ch c).port = s.port := rfl
@[simp] theorem State.setChan_bq (s : State) (ch : Nat) (c : Channel) : (s.setChan ch c).bq = s.bq := rfl
@[simp] theorem State.setChan_pwr (s : State) (ch : Nat) (c : Channel) : (s.setChan ch c).pwr = s.pwr := rfl
@[simp] theorem State.setChan_mrl (s : State) (ch : Nat) (c : Channel) : (s.setChan ch c).mrl = s.mrl := rfl
@[simp] theorem State.setChan_tel (s : State) (ch : Nat) (c : Channel) : (s.setChan ch c).tel = s.tel := rfl
@[simp] theorem State.setChan_dbg (s : State) (ch : Nat) (c : Channel) : (s.setChan ch c).dbg = s.dbg := rfl
@[simp] theorem State.setChan_latches (s : State) (ch : Nat) (c : Channel) : (s.setChan ch c).latches = s.latches := rfl
@[simp] theorem State.setChan_held (s : State) (ch : Nat) (c : Channel) : (s.setChan ch c).held = s.held := rfl
@[simp] theorem State.setChan_damage (s : State) (ch : Nat) (c : Channel) : (s.setChan ch c).damage = s.damage := rfl
@[simp] theorem State.setChan_heldAon (s : State) (ch : Nat) (c : Channel) : (s.setChan ch c).heldAon = s.heldAon := rfl
@[simp] theorem State.setChan_soft (s : State) (ch : Nat) (c : Channel) : (s.setChan ch c).soft = s.soft := rfl
@[simp] theorem State.setChan_moved (s : State) (ch : Nat) (c : Channel) : (s.setChan ch c).moved = s.moved := rfl
@[simp] theorem State.setChan_out (s : State) (ch : Nat) (c : Channel) : (s.setChan ch c).out = s.out := rfl
@[simp] theorem State.setChan_free (s : State) (ch : Nat) (c : Channel) : (s.setChan ch c).free = s.free := rfl
@[simp] theorem State.setChan_itemNo (s : State) (ch : Nat) (c : Channel) : (s.setChan ch c).itemNo = s.itemNo := rfl
@[simp] theorem State.setChan_pending (s : State) (ch : Nat) (c : Channel) : (s.setChan ch c).pending = s.pending := rfl

@[simp] theorem State.modDesc_id (s : State) (ch : Nat) (no : Nat) (f : DescRun → DescRun) : (s.modDesc ch no f).id = s.id := rfl
@[simp] theorem State.modDesc_ticks (s : State) (ch : Nat) (no : Nat) (f : DescRun → DescRun) : (s.modDesc ch no f).ticks = s.ticks := rfl
@[simp] theorem State.modDesc_ts (s : State) (ch : Nat) (no : Nat) (f : DescRun → DescRun) : (s.modDesc ch no f).ts = s.ts := rfl
@[simp] theorem State.modDesc_tsRun (s : State) (ch : Nat) (no : Nat) (f : DescRun → DescRun) : (s.modDesc ch no f).tsRun = s.tsRun := rfl
@[simp] theorem State.modDesc_align (s : State) (ch : Nat) (no : Nat) (f : DescRun → DescRun) : (s.modDesc ch no f).align = s.align := rfl
@[simp] theorem State.modDesc_str (s : State) (ch : Nat) (no : Nat) (f : DescRun → DescRun) : (s.modDesc ch no f).str = s.str := rfl
@[simp] theorem State.modDesc_loam (s : State) (ch : Nat) (no : Nat) (f : DescRun → DescRun) : (s.modDesc ch no f).loam = s.loam := rfl
@[simp] theorem State.modDesc_err (s : State) (ch : Nat) (no : Nat) (f : DescRun → DescRun) : (s.modDesc ch no f).err = s.err := rfl
@[simp] theorem State.modDesc_ctr (s : State) (ch : Nat) (no : Nat) (f : DescRun → DescRun) : (s.modDesc ch no f).ctr = s.ctr := rfl
@[simp] theorem State.modDesc_cores (s : State) (ch : Nat) (no : Nat) (f : DescRun → DescRun) : (s.modDesc ch no f).cores = s.cores := rfl
@[simp] theorem State.modDesc_msg (s : State) (ch : Nat) (no : Nat) (f : DescRun → DescRun) : (s.modDesc ch no f).msg = s.msg := rfl
@[simp] theorem State.modDesc_syn (s : State) (ch : Nat) (no : Nat) (f : DescRun → DescRun) : (s.modDesc ch no f).syn = s.syn := rfl
@[simp] theorem State.modDesc_port (s : State) (ch : Nat) (no : Nat) (f : DescRun → DescRun) : (s.modDesc ch no f).port = s.port := rfl
@[simp] theorem State.modDesc_bq (s : State) (ch : Nat) (no : Nat) (f : DescRun → DescRun) : (s.modDesc ch no f).bq = s.bq := rfl
@[simp] theorem State.modDesc_pwr (s : State) (ch : Nat) (no : Nat) (f : DescRun → DescRun) : (s.modDesc ch no f).pwr = s.pwr := rfl
@[simp] theorem State.modDesc_mrl (s : State) (ch : Nat) (no : Nat) (f : DescRun → DescRun) : (s.modDesc ch no f).mrl = s.mrl := rfl
@[simp] theorem State.modDesc_tel (s : State) (ch : Nat) (no : Nat) (f : DescRun → DescRun) : (s.modDesc ch no f).tel = s.tel := rfl
@[simp] theorem State.modDesc_dbg (s : State) (ch : Nat) (no : Nat) (f : DescRun → DescRun) : (s.modDesc ch no f).dbg = s.dbg := rfl
@[simp] theorem State.modDesc_latches (s : State) (ch : Nat) (no : Nat) (f : DescRun → DescRun) : (s.modDesc ch no f).latches = s.latches := rfl
@[simp] theorem State.modDesc_held (s : State) (ch : Nat) (no : Nat) (f : DescRun → DescRun) : (s.modDesc ch no f).held = s.held := rfl
@[simp] theorem State.modDesc_damage (s : State) (ch : Nat) (no : Nat) (f : DescRun → DescRun) : (s.modDesc ch no f).damage = s.damage := rfl
@[simp] theorem State.modDesc_heldAon (s : State) (ch : Nat) (no : Nat) (f : DescRun → DescRun) : (s.modDesc ch no f).heldAon = s.heldAon := rfl
@[simp] theorem State.modDesc_soft (s : State) (ch : Nat) (no : Nat) (f : DescRun → DescRun) : (s.modDesc ch no f).soft = s.soft := rfl
@[simp] theorem State.modDesc_moved (s : State) (ch : Nat) (no : Nat) (f : DescRun → DescRun) : (s.modDesc ch no f).moved = s.moved := rfl
@[simp] theorem State.modDesc_out (s : State) (ch : Nat) (no : Nat) (f : DescRun → DescRun) : (s.modDesc ch no f).out = s.out := rfl
@[simp] theorem State.modDesc_free (s : State) (ch : Nat) (no : Nat) (f : DescRun → DescRun) : (s.modDesc ch no f).free = s.free := rfl
@[simp] theorem State.modDesc_itemNo (s : State) (ch : Nat) (no : Nat) (f : DescRun → DescRun) : (s.modDesc ch no f).itemNo = s.itemNo := rfl
@[simp] theorem State.modDesc_pending (s : State) (ch : Nat) (no : Nat) (f : DescRun → DescRun) : (s.modDesc ch no f).pending = s.pending := rfl

@[simp] theorem State.setBq_id (s : State) (q : Nat) (b : BatchQ) : (s.setBq q b).id = s.id := rfl
@[simp] theorem State.setBq_ticks (s : State) (q : Nat) (b : BatchQ) : (s.setBq q b).ticks = s.ticks := rfl
@[simp] theorem State.setBq_ts (s : State) (q : Nat) (b : BatchQ) : (s.setBq q b).ts = s.ts := rfl
@[simp] theorem State.setBq_tsRun (s : State) (q : Nat) (b : BatchQ) : (s.setBq q b).tsRun = s.tsRun := rfl
@[simp] theorem State.setBq_align (s : State) (q : Nat) (b : BatchQ) : (s.setBq q b).align = s.align := rfl
@[simp] theorem State.setBq_str (s : State) (q : Nat) (b : BatchQ) : (s.setBq q b).str = s.str := rfl
@[simp] theorem State.setBq_loam (s : State) (q : Nat) (b : BatchQ) : (s.setBq q b).loam = s.loam := rfl
@[simp] theorem State.setBq_err (s : State) (q : Nat) (b : BatchQ) : (s.setBq q b).err = s.err := rfl
@[simp] theorem State.setBq_ctr (s : State) (q : Nat) (b : BatchQ) : (s.setBq q b).ctr = s.ctr := rfl
@[simp] theorem State.setBq_cores (s : State) (q : Nat) (b : BatchQ) : (s.setBq q b).cores = s.cores := rfl
@[simp] theorem State.setBq_msg (s : State) (q : Nat) (b : BatchQ) : (s.setBq q b).msg = s.msg := rfl
@[simp] theorem State.setBq_syn (s : State) (q : Nat) (b : BatchQ) : (s.setBq q b).syn = s.syn := rfl
@[simp] theorem State.setBq_port (s : State) (q : Nat) (b : BatchQ) : (s.setBq q b).port = s.port := rfl
@[simp] theorem State.setBq_dma (s : State) (q : Nat) (b : BatchQ) : (s.setBq q b).dma = s.dma := rfl
@[simp] theorem State.setBq_pwr (s : State) (q : Nat) (b : BatchQ) : (s.setBq q b).pwr = s.pwr := rfl
@[simp] theorem State.setBq_mrl (s : State) (q : Nat) (b : BatchQ) : (s.setBq q b).mrl = s.mrl := rfl
@[simp] theorem State.setBq_tel (s : State) (q : Nat) (b : BatchQ) : (s.setBq q b).tel = s.tel := rfl
@[simp] theorem State.setBq_dbg (s : State) (q : Nat) (b : BatchQ) : (s.setBq q b).dbg = s.dbg := rfl
@[simp] theorem State.setBq_latches (s : State) (q : Nat) (b : BatchQ) : (s.setBq q b).latches = s.latches := rfl
@[simp] theorem State.setBq_held (s : State) (q : Nat) (b : BatchQ) : (s.setBq q b).held = s.held := rfl
@[simp] theorem State.setBq_damage (s : State) (q : Nat) (b : BatchQ) : (s.setBq q b).damage = s.damage := rfl
@[simp] theorem State.setBq_heldAon (s : State) (q : Nat) (b : BatchQ) : (s.setBq q b).heldAon = s.heldAon := rfl
@[simp] theorem State.setBq_soft (s : State) (q : Nat) (b : BatchQ) : (s.setBq q b).soft = s.soft := rfl
@[simp] theorem State.setBq_moved (s : State) (q : Nat) (b : BatchQ) : (s.setBq q b).moved = s.moved := rfl
@[simp] theorem State.setBq_out (s : State) (q : Nat) (b : BatchQ) : (s.setBq q b).out = s.out := rfl
@[simp] theorem State.setBq_free (s : State) (q : Nat) (b : BatchQ) : (s.setBq q b).free = s.free := rfl
@[simp] theorem State.setBq_itemNo (s : State) (q : Nat) (b : BatchQ) : (s.setBq q b).itemNo = s.itemNo := rfl
@[simp] theorem State.setBq_pending (s : State) (q : Nat) (b : BatchQ) : (s.setBq q b).pending = s.pending := rfl

@[simp] theorem State.modJob_id (s : State) (c : Nat) (p : ArrJob → Bool) (f : ArrJob → ArrJob) : (s.modJob c p f).id = s.id := rfl
@[simp] theorem State.modJob_ticks (s : State) (c : Nat) (p : ArrJob → Bool) (f : ArrJob → ArrJob) : (s.modJob c p f).ticks = s.ticks := rfl
@[simp] theorem State.modJob_ts (s : State) (c : Nat) (p : ArrJob → Bool) (f : ArrJob → ArrJob) : (s.modJob c p f).ts = s.ts := rfl
@[simp] theorem State.modJob_tsRun (s : State) (c : Nat) (p : ArrJob → Bool) (f : ArrJob → ArrJob) : (s.modJob c p f).tsRun = s.tsRun := rfl
@[simp] theorem State.modJob_align (s : State) (c : Nat) (p : ArrJob → Bool) (f : ArrJob → ArrJob) : (s.modJob c p f).align = s.align := rfl
@[simp] theorem State.modJob_str (s : State) (c : Nat) (p : ArrJob → Bool) (f : ArrJob → ArrJob) : (s.modJob c p f).str = s.str := rfl
@[simp] theorem State.modJob_loam (s : State) (c : Nat) (p : ArrJob → Bool) (f : ArrJob → ArrJob) : (s.modJob c p f).loam = s.loam := rfl
@[simp] theorem State.modJob_err (s : State) (c : Nat) (p : ArrJob → Bool) (f : ArrJob → ArrJob) : (s.modJob c p f).err = s.err := rfl
@[simp] theorem State.modJob_ctr (s : State) (c : Nat) (p : ArrJob → Bool) (f : ArrJob → ArrJob) : (s.modJob c p f).ctr = s.ctr := rfl
@[simp] theorem State.modJob_msg (s : State) (c : Nat) (p : ArrJob → Bool) (f : ArrJob → ArrJob) : (s.modJob c p f).msg = s.msg := rfl
@[simp] theorem State.modJob_syn (s : State) (c : Nat) (p : ArrJob → Bool) (f : ArrJob → ArrJob) : (s.modJob c p f).syn = s.syn := rfl
@[simp] theorem State.modJob_port (s : State) (c : Nat) (p : ArrJob → Bool) (f : ArrJob → ArrJob) : (s.modJob c p f).port = s.port := rfl
@[simp] theorem State.modJob_dma (s : State) (c : Nat) (p : ArrJob → Bool) (f : ArrJob → ArrJob) : (s.modJob c p f).dma = s.dma := rfl
@[simp] theorem State.modJob_bq (s : State) (c : Nat) (p : ArrJob → Bool) (f : ArrJob → ArrJob) : (s.modJob c p f).bq = s.bq := rfl
@[simp] theorem State.modJob_pwr (s : State) (c : Nat) (p : ArrJob → Bool) (f : ArrJob → ArrJob) : (s.modJob c p f).pwr = s.pwr := rfl
@[simp] theorem State.modJob_mrl (s : State) (c : Nat) (p : ArrJob → Bool) (f : ArrJob → ArrJob) : (s.modJob c p f).mrl = s.mrl := rfl
@[simp] theorem State.modJob_tel (s : State) (c : Nat) (p : ArrJob → Bool) (f : ArrJob → ArrJob) : (s.modJob c p f).tel = s.tel := rfl
@[simp] theorem State.modJob_dbg (s : State) (c : Nat) (p : ArrJob → Bool) (f : ArrJob → ArrJob) : (s.modJob c p f).dbg = s.dbg := rfl
@[simp] theorem State.modJob_latches (s : State) (c : Nat) (p : ArrJob → Bool) (f : ArrJob → ArrJob) : (s.modJob c p f).latches = s.latches := rfl
@[simp] theorem State.modJob_held (s : State) (c : Nat) (p : ArrJob → Bool) (f : ArrJob → ArrJob) : (s.modJob c p f).held = s.held := rfl
@[simp] theorem State.modJob_damage (s : State) (c : Nat) (p : ArrJob → Bool) (f : ArrJob → ArrJob) : (s.modJob c p f).damage = s.damage := rfl
@[simp] theorem State.modJob_heldAon (s : State) (c : Nat) (p : ArrJob → Bool) (f : ArrJob → ArrJob) : (s.modJob c p f).heldAon = s.heldAon := rfl
@[simp] theorem State.modJob_soft (s : State) (c : Nat) (p : ArrJob → Bool) (f : ArrJob → ArrJob) : (s.modJob c p f).soft = s.soft := rfl
@[simp] theorem State.modJob_moved (s : State) (c : Nat) (p : ArrJob → Bool) (f : ArrJob → ArrJob) : (s.modJob c p f).moved = s.moved := rfl
@[simp] theorem State.modJob_out (s : State) (c : Nat) (p : ArrJob → Bool) (f : ArrJob → ArrJob) : (s.modJob c p f).out = s.out := rfl
@[simp] theorem State.modJob_free (s : State) (c : Nat) (p : ArrJob → Bool) (f : ArrJob → ArrJob) : (s.modJob c p f).free = s.free := rfl
@[simp] theorem State.modJob_itemNo (s : State) (c : Nat) (p : ArrJob → Bool) (f : ArrJob → ArrJob) : (s.modJob c p f).itemNo = s.itemNo := rfl
@[simp] theorem State.modJob_pending (s : State) (c : Nat) (p : ArrJob → Bool) (f : ArrJob → ArrJob) : (s.modJob c p f).pending = s.pending := rfl

@[simp] theorem State.dropDone_id (s : State) (c : Nat) : (s.dropDone c).id = s.id := rfl
@[simp] theorem State.dropDone_ticks (s : State) (c : Nat) : (s.dropDone c).ticks = s.ticks := rfl
@[simp] theorem State.dropDone_ts (s : State) (c : Nat) : (s.dropDone c).ts = s.ts := rfl
@[simp] theorem State.dropDone_tsRun (s : State) (c : Nat) : (s.dropDone c).tsRun = s.tsRun := rfl
@[simp] theorem State.dropDone_align (s : State) (c : Nat) : (s.dropDone c).align = s.align := rfl
@[simp] theorem State.dropDone_str (s : State) (c : Nat) : (s.dropDone c).str = s.str := rfl
@[simp] theorem State.dropDone_loam (s : State) (c : Nat) : (s.dropDone c).loam = s.loam := rfl
@[simp] theorem State.dropDone_err (s : State) (c : Nat) : (s.dropDone c).err = s.err := rfl
@[simp] theorem State.dropDone_ctr (s : State) (c : Nat) : (s.dropDone c).ctr = s.ctr := rfl
@[simp] theorem State.dropDone_msg (s : State) (c : Nat) : (s.dropDone c).msg = s.msg := rfl
@[simp] theorem State.dropDone_syn (s : State) (c : Nat) : (s.dropDone c).syn = s.syn := rfl
@[simp] theorem State.dropDone_port (s : State) (c : Nat) : (s.dropDone c).port = s.port := rfl
@[simp] theorem State.dropDone_dma (s : State) (c : Nat) : (s.dropDone c).dma = s.dma := rfl
@[simp] theorem State.dropDone_bq (s : State) (c : Nat) : (s.dropDone c).bq = s.bq := rfl
@[simp] theorem State.dropDone_pwr (s : State) (c : Nat) : (s.dropDone c).pwr = s.pwr := rfl
@[simp] theorem State.dropDone_mrl (s : State) (c : Nat) : (s.dropDone c).mrl = s.mrl := rfl
@[simp] theorem State.dropDone_tel (s : State) (c : Nat) : (s.dropDone c).tel = s.tel := rfl
@[simp] theorem State.dropDone_dbg (s : State) (c : Nat) : (s.dropDone c).dbg = s.dbg := rfl
@[simp] theorem State.dropDone_latches (s : State) (c : Nat) : (s.dropDone c).latches = s.latches := rfl
@[simp] theorem State.dropDone_held (s : State) (c : Nat) : (s.dropDone c).held = s.held := rfl
@[simp] theorem State.dropDone_damage (s : State) (c : Nat) : (s.dropDone c).damage = s.damage := rfl
@[simp] theorem State.dropDone_heldAon (s : State) (c : Nat) : (s.dropDone c).heldAon = s.heldAon := rfl
@[simp] theorem State.dropDone_soft (s : State) (c : Nat) : (s.dropDone c).soft = s.soft := rfl
@[simp] theorem State.dropDone_moved (s : State) (c : Nat) : (s.dropDone c).moved = s.moved := rfl
@[simp] theorem State.dropDone_out (s : State) (c : Nat) : (s.dropDone c).out = s.out := rfl
@[simp] theorem State.dropDone_free (s : State) (c : Nat) : (s.dropDone c).free = s.free := rfl
@[simp] theorem State.dropDone_itemNo (s : State) (c : Nat) : (s.dropDone c).itemNo = s.itemNo := rfl
@[simp] theorem State.dropDone_pending (s : State) (c : Nat) : (s.dropDone c).pending = s.pending := rfl

@[simp] theorem State.work_id (s : State) (e no : Nat) : (s.work e no).id = s.id := by unfold State.work; split <;> rfl
@[simp] theorem State.work_ticks (s : State) (e no : Nat) : (s.work e no).ticks = s.ticks := by unfold State.work; split <;> rfl
@[simp] theorem State.work_ts (s : State) (e no : Nat) : (s.work e no).ts = s.ts := by unfold State.work; split <;> rfl
@[simp] theorem State.work_tsRun (s : State) (e no : Nat) : (s.work e no).tsRun = s.tsRun := by unfold State.work; split <;> rfl
@[simp] theorem State.work_align (s : State) (e no : Nat) : (s.work e no).align = s.align := by unfold State.work; split <;> rfl
@[simp] theorem State.work_str (s : State) (e no : Nat) : (s.work e no).str = s.str := by unfold State.work; split <;> rfl
@[simp] theorem State.work_loam (s : State) (e no : Nat) : (s.work e no).loam = s.loam := by unfold State.work; split <;> rfl
@[simp] theorem State.work_err (s : State) (e no : Nat) : (s.work e no).err = s.err := by unfold State.work; split <;> rfl
@[simp] theorem State.work_ctr (s : State) (e no : Nat) : (s.work e no).ctr = s.ctr := by unfold State.work; split <;> rfl
@[simp] theorem State.work_cores (s : State) (e no : Nat) : (s.work e no).cores = s.cores := by unfold State.work; split <;> rfl
@[simp] theorem State.work_msg (s : State) (e no : Nat) : (s.work e no).msg = s.msg := by unfold State.work; split <;> rfl
@[simp] theorem State.work_syn (s : State) (e no : Nat) : (s.work e no).syn = s.syn := by unfold State.work; split <;> rfl
@[simp] theorem State.work_port (s : State) (e no : Nat) : (s.work e no).port = s.port := by unfold State.work; split <;> rfl
@[simp] theorem State.work_dma (s : State) (e no : Nat) : (s.work e no).dma = s.dma := by unfold State.work; split <;> rfl
@[simp] theorem State.work_bq (s : State) (e no : Nat) : (s.work e no).bq = s.bq := by unfold State.work; split <;> rfl
@[simp] theorem State.work_pwr (s : State) (e no : Nat) : (s.work e no).pwr = s.pwr := by unfold State.work; split <;> rfl
@[simp] theorem State.work_mrl (s : State) (e no : Nat) : (s.work e no).mrl = s.mrl := by unfold State.work; split <;> rfl
@[simp] theorem State.work_tel (s : State) (e no : Nat) : (s.work e no).tel = s.tel := by unfold State.work; split <;> rfl
@[simp] theorem State.work_dbg (s : State) (e no : Nat) : (s.work e no).dbg = s.dbg := by unfold State.work; split <;> rfl
@[simp] theorem State.work_latches (s : State) (e no : Nat) : (s.work e no).latches = s.latches := by unfold State.work; split <;> rfl
@[simp] theorem State.work_held (s : State) (e no : Nat) : (s.work e no).held = s.held := by unfold State.work; split <;> rfl
@[simp] theorem State.work_heldAon (s : State) (e no : Nat) : (s.work e no).heldAon = s.heldAon := by unfold State.work; split <;> rfl
@[simp] theorem State.work_damage (s : State) (e no : Nat) : (s.work e no).damage = s.damage := by unfold State.work; split <;> rfl
@[simp] theorem State.work_soft (s : State) (e no : Nat) : (s.work e no).soft = s.soft := by unfold State.work; split <;> rfl
@[simp] theorem State.work_out (s : State) (e no : Nat) : (s.work e no).out = s.out := by unfold State.work; split <;> rfl
@[simp] theorem State.work_free (s : State) (e no : Nat) : (s.work e no).free = s.free := by unfold State.work; split <;> rfl
@[simp] theorem State.work_itemNo (s : State) (e no : Nat) : (s.work e no).itemNo = s.itemNo := by unfold State.work; split <;> rfl
@[simp] theorem State.work_pending (s : State) (e no : Nat) : (s.work e no).pending = s.pending := by unfold State.work; split <;> rfl

@[simp] theorem State.issues_id (s : State) (w : Who) : (s.issues w).id = s.id := by simp [State.issues]
@[simp] theorem State.issues_ticks (s : State) (w : Who) : (s.issues w).ticks = s.ticks := by simp [State.issues]
@[simp] theorem State.issues_ts (s : State) (w : Who) : (s.issues w).ts = s.ts := by simp [State.issues]
@[simp] theorem State.issues_tsRun (s : State) (w : Who) : (s.issues w).tsRun = s.tsRun := by simp [State.issues]
@[simp] theorem State.issues_align (s : State) (w : Who) : (s.issues w).align = s.align := by simp [State.issues]
@[simp] theorem State.issues_str (s : State) (w : Who) : (s.issues w).str = s.str := by simp [State.issues]
@[simp] theorem State.issues_loam (s : State) (w : Who) : (s.issues w).loam = s.loam := by simp [State.issues]
@[simp] theorem State.issues_err (s : State) (w : Who) : (s.issues w).err = s.err := by simp [State.issues]
@[simp] theorem State.issues_ctr (s : State) (w : Who) : (s.issues w).ctr = s.ctr := by simp [State.issues]
@[simp] theorem State.issues_cores (s : State) (w : Who) : (s.issues w).cores = s.cores := by simp [State.issues]
@[simp] theorem State.issues_msg (s : State) (w : Who) : (s.issues w).msg = s.msg := by simp [State.issues]
@[simp] theorem State.issues_syn (s : State) (w : Who) : (s.issues w).syn = s.syn := by simp [State.issues]
@[simp] theorem State.issues_port (s : State) (w : Who) : (s.issues w).port = s.port := by simp [State.issues]
@[simp] theorem State.issues_dma (s : State) (w : Who) : (s.issues w).dma = s.dma := by simp [State.issues]
@[simp] theorem State.issues_bq (s : State) (w : Who) : (s.issues w).bq = s.bq := by simp [State.issues]
@[simp] theorem State.issues_pwr (s : State) (w : Who) : (s.issues w).pwr = s.pwr := by simp [State.issues]
@[simp] theorem State.issues_mrl (s : State) (w : Who) : (s.issues w).mrl = s.mrl := by simp [State.issues]
@[simp] theorem State.issues_tel (s : State) (w : Who) : (s.issues w).tel = s.tel := by simp [State.issues]
@[simp] theorem State.issues_dbg (s : State) (w : Who) : (s.issues w).dbg = s.dbg := by simp [State.issues]
@[simp] theorem State.issues_latches (s : State) (w : Who) : (s.issues w).latches = s.latches := by simp [State.issues]
@[simp] theorem State.issues_held (s : State) (w : Who) : (s.issues w).held = s.held := by simp [State.issues]
@[simp] theorem State.issues_heldAon (s : State) (w : Who) : (s.issues w).heldAon = s.heldAon := by simp [State.issues]
@[simp] theorem State.issues_damage (s : State) (w : Who) : (s.issues w).damage = s.damage := by simp [State.issues]
@[simp] theorem State.issues_soft (s : State) (w : Who) : (s.issues w).soft = s.soft := by simp [State.issues]
@[simp] theorem State.issues_out (s : State) (w : Who) : (s.issues w).out = s.out := by simp [State.issues]
@[simp] theorem State.issues_free (s : State) (w : Who) : (s.issues w).free = s.free := by simp [State.issues]
@[simp] theorem State.issues_itemNo (s : State) (w : Who) : (s.issues w).itemNo = s.itemNo := by simp [State.issues]
@[simp] theorem State.issues_pending (s : State) (w : Who) : (s.issues w).pending = s.pending := by simp [State.issues]

@[simp] theorem State.advance_id (s : State) (w : Who) (len : Nat) : (s.advance w len).id = s.id := by simp [State.advance]
@[simp] theorem State.advance_ticks (s : State) (w : Who) (len : Nat) : (s.advance w len).ticks = s.ticks := by simp [State.advance]
@[simp] theorem State.advance_ts (s : State) (w : Who) (len : Nat) : (s.advance w len).ts = s.ts := by simp [State.advance]
@[simp] theorem State.advance_tsRun (s : State) (w : Who) (len : Nat) : (s.advance w len).tsRun = s.tsRun := by simp [State.advance]
@[simp] theorem State.advance_align (s : State) (w : Who) (len : Nat) : (s.advance w len).align = s.align := by simp [State.advance]
@[simp] theorem State.advance_str (s : State) (w : Who) (len : Nat) : (s.advance w len).str = s.str := by simp [State.advance]
@[simp] theorem State.advance_loam (s : State) (w : Who) (len : Nat) : (s.advance w len).loam = s.loam := by simp [State.advance]
@[simp] theorem State.advance_err (s : State) (w : Who) (len : Nat) : (s.advance w len).err = s.err := by simp [State.advance]
@[simp] theorem State.advance_ctr (s : State) (w : Who) (len : Nat) : (s.advance w len).ctr = s.ctr := by simp [State.advance]
@[simp] theorem State.advance_msg (s : State) (w : Who) (len : Nat) : (s.advance w len).msg = s.msg := by simp [State.advance]
@[simp] theorem State.advance_syn (s : State) (w : Who) (len : Nat) : (s.advance w len).syn = s.syn := by simp [State.advance]
@[simp] theorem State.advance_port (s : State) (w : Who) (len : Nat) : (s.advance w len).port = s.port := by simp [State.advance]
@[simp] theorem State.advance_dma (s : State) (w : Who) (len : Nat) : (s.advance w len).dma = s.dma := by simp [State.advance]
@[simp] theorem State.advance_bq (s : State) (w : Who) (len : Nat) : (s.advance w len).bq = s.bq := by simp [State.advance]
@[simp] theorem State.advance_pwr (s : State) (w : Who) (len : Nat) : (s.advance w len).pwr = s.pwr := by simp [State.advance]
@[simp] theorem State.advance_mrl (s : State) (w : Who) (len : Nat) : (s.advance w len).mrl = s.mrl := by simp [State.advance]
@[simp] theorem State.advance_tel (s : State) (w : Who) (len : Nat) : (s.advance w len).tel = s.tel := by simp [State.advance]
@[simp] theorem State.advance_dbg (s : State) (w : Who) (len : Nat) : (s.advance w len).dbg = s.dbg := by simp [State.advance]
@[simp] theorem State.advance_latches (s : State) (w : Who) (len : Nat) : (s.advance w len).latches = s.latches := by simp [State.advance]
@[simp] theorem State.advance_held (s : State) (w : Who) (len : Nat) : (s.advance w len).held = s.held := by simp [State.advance]
@[simp] theorem State.advance_heldAon (s : State) (w : Who) (len : Nat) : (s.advance w len).heldAon = s.heldAon := by simp [State.advance]
@[simp] theorem State.advance_damage (s : State) (w : Who) (len : Nat) : (s.advance w len).damage = s.damage := by simp [State.advance]
@[simp] theorem State.advance_soft (s : State) (w : Who) (len : Nat) : (s.advance w len).soft = s.soft := by simp [State.advance]
@[simp] theorem State.advance_out (s : State) (w : Who) (len : Nat) : (s.advance w len).out = s.out := by simp [State.advance]
@[simp] theorem State.advance_free (s : State) (w : Who) (len : Nat) : (s.advance w len).free = s.free := by simp [State.advance]
@[simp] theorem State.advance_itemNo (s : State) (w : Who) (len : Nat) : (s.advance w len).itemNo = s.itemNo := by simp [State.advance]
@[simp] theorem State.advance_pending (s : State) (w : Who) (len : Nat) : (s.advance w len).pending = s.pending := by simp [State.advance]

@[simp] theorem State.advanceVec_id (s : State) (w : Who) (len : Nat) : (s.advanceVec w len).id = s.id := by simp [State.advanceVec]
@[simp] theorem State.advanceVec_ticks (s : State) (w : Who) (len : Nat) : (s.advanceVec w len).ticks = s.ticks := by simp [State.advanceVec]
@[simp] theorem State.advanceVec_ts (s : State) (w : Who) (len : Nat) : (s.advanceVec w len).ts = s.ts := by simp [State.advanceVec]
@[simp] theorem State.advanceVec_tsRun (s : State) (w : Who) (len : Nat) : (s.advanceVec w len).tsRun = s.tsRun := by simp [State.advanceVec]
@[simp] theorem State.advanceVec_align (s : State) (w : Who) (len : Nat) : (s.advanceVec w len).align = s.align := by simp [State.advanceVec]
@[simp] theorem State.advanceVec_str (s : State) (w : Who) (len : Nat) : (s.advanceVec w len).str = s.str := by simp [State.advanceVec]
@[simp] theorem State.advanceVec_loam (s : State) (w : Who) (len : Nat) : (s.advanceVec w len).loam = s.loam := by simp [State.advanceVec]
@[simp] theorem State.advanceVec_err (s : State) (w : Who) (len : Nat) : (s.advanceVec w len).err = s.err := by simp [State.advanceVec]
@[simp] theorem State.advanceVec_ctr (s : State) (w : Who) (len : Nat) : (s.advanceVec w len).ctr = s.ctr := by simp [State.advanceVec]
@[simp] theorem State.advanceVec_msg (s : State) (w : Who) (len : Nat) : (s.advanceVec w len).msg = s.msg := by simp [State.advanceVec]
@[simp] theorem State.advanceVec_syn (s : State) (w : Who) (len : Nat) : (s.advanceVec w len).syn = s.syn := by simp [State.advanceVec]
@[simp] theorem State.advanceVec_port (s : State) (w : Who) (len : Nat) : (s.advanceVec w len).port = s.port := by simp [State.advanceVec]
@[simp] theorem State.advanceVec_dma (s : State) (w : Who) (len : Nat) : (s.advanceVec w len).dma = s.dma := by simp [State.advanceVec]
@[simp] theorem State.advanceVec_bq (s : State) (w : Who) (len : Nat) : (s.advanceVec w len).bq = s.bq := by simp [State.advanceVec]
@[simp] theorem State.advanceVec_pwr (s : State) (w : Who) (len : Nat) : (s.advanceVec w len).pwr = s.pwr := by simp [State.advanceVec]
@[simp] theorem State.advanceVec_mrl (s : State) (w : Who) (len : Nat) : (s.advanceVec w len).mrl = s.mrl := by simp [State.advanceVec]
@[simp] theorem State.advanceVec_tel (s : State) (w : Who) (len : Nat) : (s.advanceVec w len).tel = s.tel := by simp [State.advanceVec]
@[simp] theorem State.advanceVec_dbg (s : State) (w : Who) (len : Nat) : (s.advanceVec w len).dbg = s.dbg := by simp [State.advanceVec]
@[simp] theorem State.advanceVec_latches (s : State) (w : Who) (len : Nat) : (s.advanceVec w len).latches = s.latches := by simp [State.advanceVec]
@[simp] theorem State.advanceVec_held (s : State) (w : Who) (len : Nat) : (s.advanceVec w len).held = s.held := by simp [State.advanceVec]
@[simp] theorem State.advanceVec_heldAon (s : State) (w : Who) (len : Nat) : (s.advanceVec w len).heldAon = s.heldAon := by simp [State.advanceVec]
@[simp] theorem State.advanceVec_damage (s : State) (w : Who) (len : Nat) : (s.advanceVec w len).damage = s.damage := by simp [State.advanceVec]
@[simp] theorem State.advanceVec_soft (s : State) (w : Who) (len : Nat) : (s.advanceVec w len).soft = s.soft := by simp [State.advanceVec]
@[simp] theorem State.advanceVec_out (s : State) (w : Who) (len : Nat) : (s.advanceVec w len).out = s.out := by simp [State.advanceVec]
@[simp] theorem State.advanceVec_free (s : State) (w : Who) (len : Nat) : (s.advanceVec w len).free = s.free := by simp [State.advanceVec]
@[simp] theorem State.advanceVec_itemNo (s : State) (w : Who) (len : Nat) : (s.advanceVec w len).itemNo = s.itemNo := by simp [State.advanceVec]
@[simp] theorem State.advanceVec_pending (s : State) (w : Who) (len : Nat) : (s.advanceVec w len).pending = s.pending := by simp [State.advanceVec]


@[simp] theorem State.block_id (s : State) (w : Who) (reason : Nat) : (s.block w reason).id = s.id := rfl
@[simp] theorem State.block_ticks (s : State) (w : Who) (reason : Nat) : (s.block w reason).ticks = s.ticks := rfl
@[simp] theorem State.block_ts (s : State) (w : Who) (reason : Nat) : (s.block w reason).ts = s.ts := rfl
@[simp] theorem State.block_tsRun (s : State) (w : Who) (reason : Nat) : (s.block w reason).tsRun = s.tsRun := rfl
@[simp] theorem State.block_align (s : State) (w : Who) (reason : Nat) : (s.block w reason).align = s.align := rfl
@[simp] theorem State.block_str (s : State) (w : Who) (reason : Nat) : (s.block w reason).str = s.str := rfl
@[simp] theorem State.block_loam (s : State) (w : Who) (reason : Nat) : (s.block w reason).loam = s.loam := rfl
@[simp] theorem State.block_err (s : State) (w : Who) (reason : Nat) : (s.block w reason).err = s.err := rfl
@[simp] theorem State.block_ctr (s : State) (w : Who) (reason : Nat) : (s.block w reason).ctr = s.ctr := rfl
@[simp] theorem State.block_msg (s : State) (w : Who) (reason : Nat) : (s.block w reason).msg = s.msg := rfl
@[simp] theorem State.block_syn (s : State) (w : Who) (reason : Nat) : (s.block w reason).syn = s.syn := rfl
@[simp] theorem State.block_port (s : State) (w : Who) (reason : Nat) : (s.block w reason).port = s.port := rfl
@[simp] theorem State.block_dma (s : State) (w : Who) (reason : Nat) : (s.block w reason).dma = s.dma := rfl
@[simp] theorem State.block_bq (s : State) (w : Who) (reason : Nat) : (s.block w reason).bq = s.bq := rfl
@[simp] theorem State.block_pwr (s : State) (w : Who) (reason : Nat) : (s.block w reason).pwr = s.pwr := rfl
@[simp] theorem State.block_mrl (s : State) (w : Who) (reason : Nat) : (s.block w reason).mrl = s.mrl := rfl
@[simp] theorem State.block_tel (s : State) (w : Who) (reason : Nat) : (s.block w reason).tel = s.tel := rfl
@[simp] theorem State.block_dbg (s : State) (w : Who) (reason : Nat) : (s.block w reason).dbg = s.dbg := rfl
@[simp] theorem State.block_latches (s : State) (w : Who) (reason : Nat) : (s.block w reason).latches = s.latches := rfl
@[simp] theorem State.block_held (s : State) (w : Who) (reason : Nat) : (s.block w reason).held = s.held := rfl
@[simp] theorem State.block_damage (s : State) (w : Who) (reason : Nat) : (s.block w reason).damage = s.damage := rfl
@[simp] theorem State.block_heldAon (s : State) (w : Who) (reason : Nat) : (s.block w reason).heldAon = s.heldAon := rfl
@[simp] theorem State.block_soft (s : State) (w : Who) (reason : Nat) : (s.block w reason).soft = s.soft := rfl
@[simp] theorem State.block_moved (s : State) (w : Who) (reason : Nat) : (s.block w reason).moved = s.moved := rfl
@[simp] theorem State.block_out (s : State) (w : Who) (reason : Nat) : (s.block w reason).out = s.out := rfl
@[simp] theorem State.block_free (s : State) (w : Who) (reason : Nat) : (s.block w reason).free = s.free := rfl
@[simp] theorem State.block_itemNo (s : State) (w : Who) (reason : Nat) : (s.block w reason).itemNo = s.itemNo := rfl
@[simp] theorem State.block_pending (s : State) (w : Who) (reason : Nat) : (s.block w reason).pending = s.pending := rfl

@[simp] theorem State.await_id (s : State) (w : Who) (id : Nat) : (s.await w id).id = s.id := by simp [State.await]
@[simp] theorem State.await_ticks (s : State) (w : Who) (id : Nat) : (s.await w id).ticks = s.ticks := by simp [State.await]
@[simp] theorem State.await_ts (s : State) (w : Who) (id : Nat) : (s.await w id).ts = s.ts := by simp [State.await]
@[simp] theorem State.await_tsRun (s : State) (w : Who) (id : Nat) : (s.await w id).tsRun = s.tsRun := by simp [State.await]
@[simp] theorem State.await_align (s : State) (w : Who) (id : Nat) : (s.await w id).align = s.align := by simp [State.await]
@[simp] theorem State.await_str (s : State) (w : Who) (id : Nat) : (s.await w id).str = s.str := by simp [State.await]
@[simp] theorem State.await_loam (s : State) (w : Who) (id : Nat) : (s.await w id).loam = s.loam := by simp [State.await]
@[simp] theorem State.await_err (s : State) (w : Who) (id : Nat) : (s.await w id).err = s.err := by simp [State.await]
@[simp] theorem State.await_ctr (s : State) (w : Who) (id : Nat) : (s.await w id).ctr = s.ctr := by simp [State.await]
@[simp] theorem State.await_msg (s : State) (w : Who) (id : Nat) : (s.await w id).msg = s.msg := by simp [State.await]
@[simp] theorem State.await_syn (s : State) (w : Who) (id : Nat) : (s.await w id).syn = s.syn := by simp [State.await]
@[simp] theorem State.await_port (s : State) (w : Who) (id : Nat) : (s.await w id).port = s.port := by simp [State.await]
@[simp] theorem State.await_dma (s : State) (w : Who) (id : Nat) : (s.await w id).dma = s.dma := by simp [State.await]
@[simp] theorem State.await_bq (s : State) (w : Who) (id : Nat) : (s.await w id).bq = s.bq := by simp [State.await]
@[simp] theorem State.await_pwr (s : State) (w : Who) (id : Nat) : (s.await w id).pwr = s.pwr := by simp [State.await]
@[simp] theorem State.await_mrl (s : State) (w : Who) (id : Nat) : (s.await w id).mrl = s.mrl := by simp [State.await]
@[simp] theorem State.await_tel (s : State) (w : Who) (id : Nat) : (s.await w id).tel = s.tel := by simp [State.await]
@[simp] theorem State.await_dbg (s : State) (w : Who) (id : Nat) : (s.await w id).dbg = s.dbg := by simp [State.await]
@[simp] theorem State.await_latches (s : State) (w : Who) (id : Nat) : (s.await w id).latches = s.latches := by simp [State.await]
@[simp] theorem State.await_held (s : State) (w : Who) (id : Nat) : (s.await w id).held = s.held := by simp [State.await]
@[simp] theorem State.await_damage (s : State) (w : Who) (id : Nat) : (s.await w id).damage = s.damage := by simp [State.await]
@[simp] theorem State.await_heldAon (s : State) (w : Who) (id : Nat) : (s.await w id).heldAon = s.heldAon := by simp [State.await]
@[simp] theorem State.await_soft (s : State) (w : Who) (id : Nat) : (s.await w id).soft = s.soft := by simp [State.await]
@[simp] theorem State.await_out (s : State) (w : Who) (id : Nat) : (s.await w id).out = s.out := by simp [State.await]
@[simp] theorem State.await_free (s : State) (w : Who) (id : Nat) : (s.await w id).free = s.free := by simp [State.await]
@[simp] theorem State.await_itemNo (s : State) (w : Who) (id : Nat) : (s.await w id).itemNo = s.itemNo := by simp [State.await]
@[simp] theorem State.await_pending (s : State) (w : Who) (id : Nat) : (s.await w id).pending = s.pending := by simp [State.await]

@[simp] theorem State.setLatch_id (s : State) (a : Acc) (off : Nat) (l : Latch) : (s.setLatch a off l).id = s.id := rfl
@[simp] theorem State.setLatch_ticks (s : State) (a : Acc) (off : Nat) (l : Latch) : (s.setLatch a off l).ticks = s.ticks := rfl
@[simp] theorem State.setLatch_ts (s : State) (a : Acc) (off : Nat) (l : Latch) : (s.setLatch a off l).ts = s.ts := rfl
@[simp] theorem State.setLatch_tsRun (s : State) (a : Acc) (off : Nat) (l : Latch) : (s.setLatch a off l).tsRun = s.tsRun := rfl
@[simp] theorem State.setLatch_align (s : State) (a : Acc) (off : Nat) (l : Latch) : (s.setLatch a off l).align = s.align := rfl
@[simp] theorem State.setLatch_str (s : State) (a : Acc) (off : Nat) (l : Latch) : (s.setLatch a off l).str = s.str := rfl
@[simp] theorem State.setLatch_loam (s : State) (a : Acc) (off : Nat) (l : Latch) : (s.setLatch a off l).loam = s.loam := rfl
@[simp] theorem State.setLatch_err (s : State) (a : Acc) (off : Nat) (l : Latch) : (s.setLatch a off l).err = s.err := rfl
@[simp] theorem State.setLatch_ctr (s : State) (a : Acc) (off : Nat) (l : Latch) : (s.setLatch a off l).ctr = s.ctr := rfl
@[simp] theorem State.setLatch_cores (s : State) (a : Acc) (off : Nat) (l : Latch) : (s.setLatch a off l).cores = s.cores := rfl
@[simp] theorem State.setLatch_msg (s : State) (a : Acc) (off : Nat) (l : Latch) : (s.setLatch a off l).msg = s.msg := rfl
@[simp] theorem State.setLatch_syn (s : State) (a : Acc) (off : Nat) (l : Latch) : (s.setLatch a off l).syn = s.syn := rfl
@[simp] theorem State.setLatch_port (s : State) (a : Acc) (off : Nat) (l : Latch) : (s.setLatch a off l).port = s.port := rfl
@[simp] theorem State.setLatch_dma (s : State) (a : Acc) (off : Nat) (l : Latch) : (s.setLatch a off l).dma = s.dma := rfl
@[simp] theorem State.setLatch_bq (s : State) (a : Acc) (off : Nat) (l : Latch) : (s.setLatch a off l).bq = s.bq := rfl
@[simp] theorem State.setLatch_pwr (s : State) (a : Acc) (off : Nat) (l : Latch) : (s.setLatch a off l).pwr = s.pwr := rfl
@[simp] theorem State.setLatch_mrl (s : State) (a : Acc) (off : Nat) (l : Latch) : (s.setLatch a off l).mrl = s.mrl := rfl
@[simp] theorem State.setLatch_tel (s : State) (a : Acc) (off : Nat) (l : Latch) : (s.setLatch a off l).tel = s.tel := rfl
@[simp] theorem State.setLatch_dbg (s : State) (a : Acc) (off : Nat) (l : Latch) : (s.setLatch a off l).dbg = s.dbg := rfl
@[simp] theorem State.setLatch_held (s : State) (a : Acc) (off : Nat) (l : Latch) : (s.setLatch a off l).held = s.held := rfl
@[simp] theorem State.setLatch_damage (s : State) (a : Acc) (off : Nat) (l : Latch) : (s.setLatch a off l).damage = s.damage := rfl
@[simp] theorem State.setLatch_heldAon (s : State) (a : Acc) (off : Nat) (l : Latch) : (s.setLatch a off l).heldAon = s.heldAon := rfl
@[simp] theorem State.setLatch_soft (s : State) (a : Acc) (off : Nat) (l : Latch) : (s.setLatch a off l).soft = s.soft := rfl
@[simp] theorem State.setLatch_moved (s : State) (a : Acc) (off : Nat) (l : Latch) : (s.setLatch a off l).moved = s.moved := rfl
@[simp] theorem State.setLatch_out (s : State) (a : Acc) (off : Nat) (l : Latch) : (s.setLatch a off l).out = s.out := rfl
@[simp] theorem State.setLatch_free (s : State) (a : Acc) (off : Nat) (l : Latch) : (s.setLatch a off l).free = s.free := rfl
@[simp] theorem State.setLatch_itemNo (s : State) (a : Acc) (off : Nat) (l : Latch) : (s.setLatch a off l).itemNo = s.itemNo := rfl
@[simp] theorem State.setLatch_pending (s : State) (a : Acc) (off : Nat) (l : Latch) : (s.setLatch a off l).pending = s.pending := rfl

@[simp] theorem State.queueStatus_id (s : State) (r : CreditRet) (fault : Nat) (kind : Nat) : (s.queueStatus r fault kind).id = s.id := by unfold State.queueStatus; dsimp only; (repeat' split) <;> simp
@[simp] theorem State.queueStatus_ticks (s : State) (r : CreditRet) (fault : Nat) (kind : Nat) : (s.queueStatus r fault kind).ticks = s.ticks := by unfold State.queueStatus; dsimp only; (repeat' split) <;> simp
@[simp] theorem State.queueStatus_ts (s : State) (r : CreditRet) (fault : Nat) (kind : Nat) : (s.queueStatus r fault kind).ts = s.ts := by unfold State.queueStatus; dsimp only; (repeat' split) <;> simp
@[simp] theorem State.queueStatus_tsRun (s : State) (r : CreditRet) (fault : Nat) (kind : Nat) : (s.queueStatus r fault kind).tsRun = s.tsRun := by unfold State.queueStatus; dsimp only; (repeat' split) <;> simp
@[simp] theorem State.queueStatus_align (s : State) (r : CreditRet) (fault : Nat) (kind : Nat) : (s.queueStatus r fault kind).align = s.align := by unfold State.queueStatus; dsimp only; (repeat' split) <;> simp
@[simp] theorem State.queueStatus_str (s : State) (r : CreditRet) (fault : Nat) (kind : Nat) : (s.queueStatus r fault kind).str = s.str := by unfold State.queueStatus; dsimp only; (repeat' split) <;> simp
@[simp] theorem State.queueStatus_loam (s : State) (r : CreditRet) (fault : Nat) (kind : Nat) : (s.queueStatus r fault kind).loam = s.loam := by unfold State.queueStatus; dsimp only; (repeat' split) <;> simp
@[simp] theorem State.queueStatus_err (s : State) (r : CreditRet) (fault : Nat) (kind : Nat) : (s.queueStatus r fault kind).err = s.err := by unfold State.queueStatus; dsimp only; (repeat' split) <;> simp
@[simp] theorem State.queueStatus_cores (s : State) (r : CreditRet) (fault : Nat) (kind : Nat) : (s.queueStatus r fault kind).cores = s.cores := by unfold State.queueStatus; dsimp only; (repeat' split) <;> simp
@[simp] theorem State.queueStatus_syn (s : State) (r : CreditRet) (fault : Nat) (kind : Nat) : (s.queueStatus r fault kind).syn = s.syn := by unfold State.queueStatus; dsimp only; (repeat' split) <;> simp
@[simp] theorem State.queueStatus_port (s : State) (r : CreditRet) (fault : Nat) (kind : Nat) : (s.queueStatus r fault kind).port = s.port := by unfold State.queueStatus; dsimp only; (repeat' split) <;> simp
@[simp] theorem State.queueStatus_dma (s : State) (r : CreditRet) (fault : Nat) (kind : Nat) : (s.queueStatus r fault kind).dma = s.dma := by unfold State.queueStatus; dsimp only; (repeat' split) <;> simp
@[simp] theorem State.queueStatus_bq (s : State) (r : CreditRet) (fault : Nat) (kind : Nat) : (s.queueStatus r fault kind).bq = s.bq := by unfold State.queueStatus; dsimp only; (repeat' split) <;> simp
@[simp] theorem State.queueStatus_pwr (s : State) (r : CreditRet) (fault : Nat) (kind : Nat) : (s.queueStatus r fault kind).pwr = s.pwr := by unfold State.queueStatus; dsimp only; (repeat' split) <;> simp
@[simp] theorem State.queueStatus_mrl (s : State) (r : CreditRet) (fault : Nat) (kind : Nat) : (s.queueStatus r fault kind).mrl = s.mrl := by unfold State.queueStatus; dsimp only; (repeat' split) <;> simp
@[simp] theorem State.queueStatus_tel (s : State) (r : CreditRet) (fault : Nat) (kind : Nat) : (s.queueStatus r fault kind).tel = s.tel := by unfold State.queueStatus; dsimp only; (repeat' split) <;> simp
@[simp] theorem State.queueStatus_dbg (s : State) (r : CreditRet) (fault : Nat) (kind : Nat) : (s.queueStatus r fault kind).dbg = s.dbg := by unfold State.queueStatus; dsimp only; (repeat' split) <;> simp
@[simp] theorem State.queueStatus_latches (s : State) (r : CreditRet) (fault : Nat) (kind : Nat) : (s.queueStatus r fault kind).latches = s.latches := by unfold State.queueStatus; dsimp only; (repeat' split) <;> simp
@[simp] theorem State.queueStatus_held (s : State) (r : CreditRet) (fault : Nat) (kind : Nat) : (s.queueStatus r fault kind).held = s.held := by unfold State.queueStatus; dsimp only; (repeat' split) <;> simp
@[simp] theorem State.queueStatus_damage (s : State) (r : CreditRet) (fault : Nat) (kind : Nat) : (s.queueStatus r fault kind).damage = s.damage := by unfold State.queueStatus; dsimp only; (repeat' split) <;> simp
@[simp] theorem State.queueStatus_heldAon (s : State) (r : CreditRet) (fault : Nat) (kind : Nat) : (s.queueStatus r fault kind).heldAon = s.heldAon := by unfold State.queueStatus; dsimp only; (repeat' split) <;> simp
@[simp] theorem State.queueStatus_soft (s : State) (r : CreditRet) (fault : Nat) (kind : Nat) : (s.queueStatus r fault kind).soft = s.soft := by unfold State.queueStatus; dsimp only; (repeat' split) <;> simp
@[simp] theorem State.queueStatus_moved (s : State) (r : CreditRet) (fault : Nat) (kind : Nat) : (s.queueStatus r fault kind).moved = s.moved := by unfold State.queueStatus; dsimp only; (repeat' split) <;> simp
@[simp] theorem State.queueStatus_out (s : State) (r : CreditRet) (fault : Nat) (kind : Nat) : (s.queueStatus r fault kind).out = s.out := by unfold State.queueStatus; dsimp only; (repeat' split) <;> simp
@[simp] theorem State.queueStatus_free (s : State) (r : CreditRet) (fault : Nat) (kind : Nat) : (s.queueStatus r fault kind).free = s.free := by unfold State.queueStatus; dsimp only; (repeat' split) <;> simp
@[simp] theorem State.queueStatus_itemNo (s : State) (r : CreditRet) (fault : Nat) (kind : Nat) : (s.queueStatus r fault kind).itemNo = s.itemNo := by unfold State.queueStatus; dsimp only; (repeat' split) <;> simp
@[simp] theorem State.queueStatus_pending (s : State) (r : CreditRet) (fault : Nat) (kind : Nat) : (s.queueStatus r fault kind).pending = s.pending := by unfold State.queueStatus; dsimp only; (repeat' split) <;> simp

@[simp] theorem State.setPower_id (s : State) (p : PState) : (s.setPower p).id = s.id := by simp [State.setPower]
@[simp] theorem State.setPower_ticks (s : State) (p : PState) : (s.setPower p).ticks = s.ticks := by simp [State.setPower]
@[simp] theorem State.setPower_ts (s : State) (p : PState) : (s.setPower p).ts = s.ts := by simp [State.setPower]
@[simp] theorem State.setPower_tsRun (s : State) (p : PState) : (s.setPower p).tsRun = s.tsRun := by simp [State.setPower]
@[simp] theorem State.setPower_align (s : State) (p : PState) : (s.setPower p).align = s.align := by simp [State.setPower]
@[simp] theorem State.setPower_str (s : State) (p : PState) : (s.setPower p).str = s.str := by simp [State.setPower]
@[simp] theorem State.setPower_loam (s : State) (p : PState) : (s.setPower p).loam = s.loam := by simp [State.setPower]
@[simp] theorem State.setPower_err (s : State) (p : PState) : (s.setPower p).err = s.err := by simp [State.setPower]
@[simp] theorem State.setPower_cores (s : State) (p : PState) : (s.setPower p).cores = s.cores := by simp [State.setPower]
@[simp] theorem State.setPower_msg (s : State) (p : PState) : (s.setPower p).msg = s.msg := by simp [State.setPower]
@[simp] theorem State.setPower_syn (s : State) (p : PState) : (s.setPower p).syn = s.syn := by simp [State.setPower]
@[simp] theorem State.setPower_port (s : State) (p : PState) : (s.setPower p).port = s.port := by simp [State.setPower]
@[simp] theorem State.setPower_dma (s : State) (p : PState) : (s.setPower p).dma = s.dma := by simp [State.setPower]
@[simp] theorem State.setPower_bq (s : State) (p : PState) : (s.setPower p).bq = s.bq := by simp [State.setPower]
@[simp] theorem State.setPower_mrl (s : State) (p : PState) : (s.setPower p).mrl = s.mrl := by simp [State.setPower]
@[simp] theorem State.setPower_tel (s : State) (p : PState) : (s.setPower p).tel = s.tel := by simp [State.setPower]
@[simp] theorem State.setPower_latches (s : State) (p : PState) : (s.setPower p).latches = s.latches := by simp [State.setPower]
@[simp] theorem State.setPower_held (s : State) (p : PState) : (s.setPower p).held = s.held := by simp [State.setPower]
@[simp] theorem State.setPower_damage (s : State) (p : PState) : (s.setPower p).damage = s.damage := by simp [State.setPower]
@[simp] theorem State.setPower_heldAon (s : State) (p : PState) : (s.setPower p).heldAon = s.heldAon := by simp [State.setPower]
@[simp] theorem State.setPower_soft (s : State) (p : PState) : (s.setPower p).soft = s.soft := by simp [State.setPower]
@[simp] theorem State.setPower_moved (s : State) (p : PState) : (s.setPower p).moved = s.moved := by simp [State.setPower]
@[simp] theorem State.setPower_out (s : State) (p : PState) : (s.setPower p).out = s.out := by simp [State.setPower]
@[simp] theorem State.setPower_free (s : State) (p : PState) : (s.setPower p).free = s.free := by simp [State.setPower]
@[simp] theorem State.setPower_itemNo (s : State) (p : PState) : (s.setPower p).itemNo = s.itemNo := by simp [State.setPower]
@[simp] theorem State.setPower_pending (s : State) (p : PState) : (s.setPower p).pending = s.pending := by simp [State.setPower]

@[simp] theorem State.activate_id (s : State) : (s.activate).id = s.id := by unfold State.activate; split <;> simp
@[simp] theorem State.activate_ticks (s : State) : (s.activate).ticks = s.ticks := by unfold State.activate; split <;> simp
@[simp] theorem State.activate_ts (s : State) : (s.activate).ts = s.ts := by unfold State.activate; split <;> simp
@[simp] theorem State.activate_tsRun (s : State) : (s.activate).tsRun = s.tsRun := by unfold State.activate; split <;> simp
@[simp] theorem State.activate_align (s : State) : (s.activate).align = s.align := by unfold State.activate; split <;> simp
@[simp] theorem State.activate_str (s : State) : (s.activate).str = s.str := by unfold State.activate; split <;> simp
@[simp] theorem State.activate_loam (s : State) : (s.activate).loam = s.loam := by unfold State.activate; split <;> simp
@[simp] theorem State.activate_err (s : State) : (s.activate).err = s.err := by unfold State.activate; split <;> simp
@[simp] theorem State.activate_cores (s : State) : (s.activate).cores = s.cores := by unfold State.activate; split <;> simp
@[simp] theorem State.activate_msg (s : State) : (s.activate).msg = s.msg := by unfold State.activate; split <;> simp
@[simp] theorem State.activate_syn (s : State) : (s.activate).syn = s.syn := by unfold State.activate; split <;> simp
@[simp] theorem State.activate_port (s : State) : (s.activate).port = s.port := by unfold State.activate; split <;> simp
@[simp] theorem State.activate_dma (s : State) : (s.activate).dma = s.dma := by unfold State.activate; split <;> simp
@[simp] theorem State.activate_bq (s : State) : (s.activate).bq = s.bq := by unfold State.activate; split <;> simp
@[simp] theorem State.activate_mrl (s : State) : (s.activate).mrl = s.mrl := by unfold State.activate; split <;> simp
@[simp] theorem State.activate_tel (s : State) : (s.activate).tel = s.tel := by unfold State.activate; split <;> simp
@[simp] theorem State.activate_latches (s : State) : (s.activate).latches = s.latches := by unfold State.activate; split <;> simp
@[simp] theorem State.activate_held (s : State) : (s.activate).held = s.held := by unfold State.activate; split <;> simp
@[simp] theorem State.activate_heldAon (s : State) : (s.activate).heldAon = s.heldAon := by unfold State.activate; split <;> simp
@[simp] theorem State.activate_damage (s : State) : (s.activate).damage = s.damage := by unfold State.activate; split <;> simp
@[simp] theorem State.activate_soft (s : State) : (s.activate).soft = s.soft := by unfold State.activate; split <;> simp
@[simp] theorem State.activate_moved (s : State) : (s.activate).moved = s.moved := by unfold State.activate; split <;> simp
@[simp] theorem State.activate_out (s : State) : (s.activate).out = s.out := by unfold State.activate; split <;> simp
@[simp] theorem State.activate_free (s : State) : (s.activate).free = s.free := by unfold State.activate; split <;> simp
@[simp] theorem State.activate_itemNo (s : State) : (s.activate).itemNo = s.itemNo := by unfold State.activate; split <;> simp
@[simp] theorem State.activate_pending (s : State) : (s.activate).pending = s.pending := by unfold State.activate; split <;> simp



@[simp] theorem State.dropCache_id (s : State) : (s.dropCache).id = s.id := rfl
@[simp] theorem State.dropCache_ticks (s : State) : (s.dropCache).ticks = s.ticks := rfl
@[simp] theorem State.dropCache_ts (s : State) : (s.dropCache).ts = s.ts := rfl
@[simp] theorem State.dropCache_tsRun (s : State) : (s.dropCache).tsRun = s.tsRun := rfl
@[simp] theorem State.dropCache_align (s : State) : (s.dropCache).align = s.align := rfl
@[simp] theorem State.dropCache_str (s : State) : (s.dropCache).str = s.str := rfl
@[simp] theorem State.dropCache_loam (s : State) : (s.dropCache).loam = s.loam := rfl
@[simp] theorem State.dropCache_err (s : State) : (s.dropCache).err = s.err := rfl
@[simp] theorem State.dropCache_ctr (s : State) : (s.dropCache).ctr = s.ctr := rfl
@[simp] theorem State.dropCache_cores (s : State) : (s.dropCache).cores = s.cores := rfl
@[simp] theorem State.dropCache_msg (s : State) : (s.dropCache).msg = s.msg := rfl
@[simp] theorem State.dropCache_syn (s : State) : (s.dropCache).syn = s.syn := rfl
@[simp] theorem State.dropCache_dma (s : State) : (s.dropCache).dma = s.dma := rfl
@[simp] theorem State.dropCache_bq (s : State) : (s.dropCache).bq = s.bq := rfl
@[simp] theorem State.dropCache_pwr (s : State) : (s.dropCache).pwr = s.pwr := rfl
@[simp] theorem State.dropCache_mrl (s : State) : (s.dropCache).mrl = s.mrl := rfl
@[simp] theorem State.dropCache_tel (s : State) : (s.dropCache).tel = s.tel := rfl
@[simp] theorem State.dropCache_dbg (s : State) : (s.dropCache).dbg = s.dbg := rfl
@[simp] theorem State.dropCache_latches (s : State) : (s.dropCache).latches = s.latches := rfl
@[simp] theorem State.dropCache_held (s : State) : (s.dropCache).held = s.held := rfl
@[simp] theorem State.dropCache_damage (s : State) : (s.dropCache).damage = s.damage := rfl
@[simp] theorem State.dropCache_heldAon (s : State) : (s.dropCache).heldAon = s.heldAon := rfl
@[simp] theorem State.dropCache_soft (s : State) : (s.dropCache).soft = s.soft := rfl
@[simp] theorem State.dropCache_moved (s : State) : (s.dropCache).moved = s.moved := rfl
@[simp] theorem State.dropCache_out (s : State) : (s.dropCache).out = s.out := rfl
@[simp] theorem State.dropCache_free (s : State) : (s.dropCache).free = s.free := rfl
@[simp] theorem State.dropCache_itemNo (s : State) : (s.dropCache).itemNo = s.itemNo := rfl
@[simp] theorem State.dropCache_pending (s : State) : (s.dropCache).pending = s.pending := rfl


@[simp] theorem State.requestPreempt_id (s : State) (c : Nat) : (s.requestPreempt c).id = s.id := by unfold State.requestPreempt; dsimp only; (repeat' split) <;> simp
@[simp] theorem State.requestPreempt_ticks (s : State) (c : Nat) : (s.requestPreempt c).ticks = s.ticks := by unfold State.requestPreempt; dsimp only; (repeat' split) <;> simp
@[simp] theorem State.requestPreempt_ts (s : State) (c : Nat) : (s.requestPreempt c).ts = s.ts := by unfold State.requestPreempt; dsimp only; (repeat' split) <;> simp
@[simp] theorem State.requestPreempt_tsRun (s : State) (c : Nat) : (s.requestPreempt c).tsRun = s.tsRun := by unfold State.requestPreempt; dsimp only; (repeat' split) <;> simp
@[simp] theorem State.requestPreempt_align (s : State) (c : Nat) : (s.requestPreempt c).align = s.align := by unfold State.requestPreempt; dsimp only; (repeat' split) <;> simp
@[simp] theorem State.requestPreempt_str (s : State) (c : Nat) : (s.requestPreempt c).str = s.str := by unfold State.requestPreempt; dsimp only; (repeat' split) <;> simp
@[simp] theorem State.requestPreempt_loam (s : State) (c : Nat) : (s.requestPreempt c).loam = s.loam := by unfold State.requestPreempt; dsimp only; (repeat' split) <;> simp
@[simp] theorem State.requestPreempt_err (s : State) (c : Nat) : (s.requestPreempt c).err = s.err := by unfold State.requestPreempt; dsimp only; (repeat' split) <;> simp
@[simp] theorem State.requestPreempt_ctr (s : State) (c : Nat) : (s.requestPreempt c).ctr = s.ctr := by unfold State.requestPreempt; dsimp only; (repeat' split) <;> simp
@[simp] theorem State.requestPreempt_msg (s : State) (c : Nat) : (s.requestPreempt c).msg = s.msg := by unfold State.requestPreempt; dsimp only; (repeat' split) <;> simp
@[simp] theorem State.requestPreempt_syn (s : State) (c : Nat) : (s.requestPreempt c).syn = s.syn := by unfold State.requestPreempt; dsimp only; (repeat' split) <;> simp
@[simp] theorem State.requestPreempt_port (s : State) (c : Nat) : (s.requestPreempt c).port = s.port := by unfold State.requestPreempt; dsimp only; (repeat' split) <;> simp
@[simp] theorem State.requestPreempt_dma (s : State) (c : Nat) : (s.requestPreempt c).dma = s.dma := by unfold State.requestPreempt; dsimp only; (repeat' split) <;> simp
@[simp] theorem State.requestPreempt_bq (s : State) (c : Nat) : (s.requestPreempt c).bq = s.bq := by unfold State.requestPreempt; dsimp only; (repeat' split) <;> simp
@[simp] theorem State.requestPreempt_pwr (s : State) (c : Nat) : (s.requestPreempt c).pwr = s.pwr := by unfold State.requestPreempt; dsimp only; (repeat' split) <;> simp
@[simp] theorem State.requestPreempt_mrl (s : State) (c : Nat) : (s.requestPreempt c).mrl = s.mrl := by unfold State.requestPreempt; dsimp only; (repeat' split) <;> simp
@[simp] theorem State.requestPreempt_tel (s : State) (c : Nat) : (s.requestPreempt c).tel = s.tel := by unfold State.requestPreempt; dsimp only; (repeat' split) <;> simp
@[simp] theorem State.requestPreempt_dbg (s : State) (c : Nat) : (s.requestPreempt c).dbg = s.dbg := by unfold State.requestPreempt; dsimp only; (repeat' split) <;> simp
@[simp] theorem State.requestPreempt_latches (s : State) (c : Nat) : (s.requestPreempt c).latches = s.latches := by unfold State.requestPreempt; dsimp only; (repeat' split) <;> simp
@[simp] theorem State.requestPreempt_held (s : State) (c : Nat) : (s.requestPreempt c).held = s.held := by unfold State.requestPreempt; dsimp only; (repeat' split) <;> simp
@[simp] theorem State.requestPreempt_damage (s : State) (c : Nat) : (s.requestPreempt c).damage = s.damage := by unfold State.requestPreempt; dsimp only; (repeat' split) <;> simp
@[simp] theorem State.requestPreempt_heldAon (s : State) (c : Nat) : (s.requestPreempt c).heldAon = s.heldAon := by unfold State.requestPreempt; dsimp only; (repeat' split) <;> simp
@[simp] theorem State.requestPreempt_soft (s : State) (c : Nat) : (s.requestPreempt c).soft = s.soft := by unfold State.requestPreempt; dsimp only; (repeat' split) <;> simp
@[simp] theorem State.requestPreempt_moved (s : State) (c : Nat) : (s.requestPreempt c).moved = s.moved := by unfold State.requestPreempt; dsimp only; (repeat' split) <;> simp
@[simp] theorem State.requestPreempt_out (s : State) (c : Nat) : (s.requestPreempt c).out = s.out := by unfold State.requestPreempt; dsimp only; (repeat' split) <;> simp
@[simp] theorem State.requestPreempt_free (s : State) (c : Nat) : (s.requestPreempt c).free = s.free := by unfold State.requestPreempt; dsimp only; (repeat' split) <;> simp
@[simp] theorem State.requestPreempt_itemNo (s : State) (c : Nat) : (s.requestPreempt c).itemNo = s.itemNo := by unfold State.requestPreempt; dsimp only; (repeat' split) <;> simp
@[simp] theorem State.requestPreempt_pending (s : State) (c : Nat) : (s.requestPreempt c).pending = s.pending := by unfold State.requestPreempt; dsimp only; (repeat' split) <;> simp

@[simp] theorem State.doneArrive_id (s : State) (w : Who) : (s.doneArrive w).id = s.id := by unfold State.doneArrive; dsimp only; split <;> simp
@[simp] theorem State.doneArrive_ticks (s : State) (w : Who) : (s.doneArrive w).ticks = s.ticks := by unfold State.doneArrive; dsimp only; split <;> simp
@[simp] theorem State.doneArrive_ts (s : State) (w : Who) : (s.doneArrive w).ts = s.ts := by unfold State.doneArrive; dsimp only; split <;> simp
@[simp] theorem State.doneArrive_tsRun (s : State) (w : Who) : (s.doneArrive w).tsRun = s.tsRun := by unfold State.doneArrive; dsimp only; split <;> simp
@[simp] theorem State.doneArrive_align (s : State) (w : Who) : (s.doneArrive w).align = s.align := by unfold State.doneArrive; dsimp only; split <;> simp
@[simp] theorem State.doneArrive_str (s : State) (w : Who) : (s.doneArrive w).str = s.str := by unfold State.doneArrive; dsimp only; split <;> simp
@[simp] theorem State.doneArrive_loam (s : State) (w : Who) : (s.doneArrive w).loam = s.loam := by unfold State.doneArrive; dsimp only; split <;> simp
@[simp] theorem State.doneArrive_err (s : State) (w : Who) : (s.doneArrive w).err = s.err := by unfold State.doneArrive; dsimp only; split <;> simp
@[simp] theorem State.doneArrive_cores (s : State) (w : Who) : (s.doneArrive w).cores = s.cores := by unfold State.doneArrive; dsimp only; split <;> simp
@[simp] theorem State.doneArrive_msg (s : State) (w : Who) : (s.doneArrive w).msg = s.msg := by unfold State.doneArrive; dsimp only; split <;> simp
@[simp] theorem State.doneArrive_port (s : State) (w : Who) : (s.doneArrive w).port = s.port := by unfold State.doneArrive; dsimp only; split <;> simp
@[simp] theorem State.doneArrive_dma (s : State) (w : Who) : (s.doneArrive w).dma = s.dma := by unfold State.doneArrive; dsimp only; split <;> simp
@[simp] theorem State.doneArrive_bq (s : State) (w : Who) : (s.doneArrive w).bq = s.bq := by unfold State.doneArrive; dsimp only; split <;> simp
@[simp] theorem State.doneArrive_pwr (s : State) (w : Who) : (s.doneArrive w).pwr = s.pwr := by unfold State.doneArrive; dsimp only; split <;> simp
@[simp] theorem State.doneArrive_mrl (s : State) (w : Who) : (s.doneArrive w).mrl = s.mrl := by unfold State.doneArrive; dsimp only; split <;> simp
@[simp] theorem State.doneArrive_latches (s : State) (w : Who) : (s.doneArrive w).latches = s.latches := by unfold State.doneArrive; dsimp only; split <;> simp
@[simp] theorem State.doneArrive_held (s : State) (w : Who) : (s.doneArrive w).held = s.held := by unfold State.doneArrive; dsimp only; split <;> simp
@[simp] theorem State.doneArrive_damage (s : State) (w : Who) : (s.doneArrive w).damage = s.damage := by unfold State.doneArrive; dsimp only; split <;> simp
@[simp] theorem State.doneArrive_heldAon (s : State) (w : Who) : (s.doneArrive w).heldAon = s.heldAon := by unfold State.doneArrive; dsimp only; split <;> simp
@[simp] theorem State.doneArrive_soft (s : State) (w : Who) : (s.doneArrive w).soft = s.soft := by unfold State.doneArrive; dsimp only; split <;> simp
@[simp] theorem State.doneArrive_moved (s : State) (w : Who) : (s.doneArrive w).moved = s.moved := by unfold State.doneArrive; dsimp only; split <;> simp
@[simp] theorem State.doneArrive_free (s : State) (w : Who) : (s.doneArrive w).free = s.free := by unfold State.doneArrive; dsimp only; (repeat' split) <;> simp
@[simp] theorem State.doneArrive_itemNo (s : State) (w : Who) : (s.doneArrive w).itemNo = s.itemNo := by unfold State.doneArrive; dsimp only; (repeat' split) <;> simp
@[simp] theorem State.doneArrive_pending (s : State) (w : Who) : (s.doneArrive w).pending = s.pending := by unfold State.doneArrive; dsimp only; (repeat' split) <;> simp


@[simp] theorem State.poisonSectors_id (s : State) (l : List Nat) : (s.poisonSectors l).id = s.id := rfl
@[simp] theorem State.poisonSectors_ticks (s : State) (l : List Nat) : (s.poisonSectors l).ticks = s.ticks := rfl
@[simp] theorem State.poisonSectors_ts (s : State) (l : List Nat) : (s.poisonSectors l).ts = s.ts := rfl
@[simp] theorem State.poisonSectors_tsRun (s : State) (l : List Nat) : (s.poisonSectors l).tsRun = s.tsRun := rfl
@[simp] theorem State.poisonSectors_align (s : State) (l : List Nat) : (s.poisonSectors l).align = s.align := rfl
@[simp] theorem State.poisonSectors_str (s : State) (l : List Nat) : (s.poisonSectors l).str = s.str := rfl
@[simp] theorem State.poisonSectors_err (s : State) (l : List Nat) : (s.poisonSectors l).err = s.err := rfl
@[simp] theorem State.poisonSectors_ctr (s : State) (l : List Nat) : (s.poisonSectors l).ctr = s.ctr := rfl
@[simp] theorem State.poisonSectors_cores (s : State) (l : List Nat) : (s.poisonSectors l).cores = s.cores := rfl
@[simp] theorem State.poisonSectors_msg (s : State) (l : List Nat) : (s.poisonSectors l).msg = s.msg := rfl
@[simp] theorem State.poisonSectors_syn (s : State) (l : List Nat) : (s.poisonSectors l).syn = s.syn := rfl
@[simp] theorem State.poisonSectors_port (s : State) (l : List Nat) : (s.poisonSectors l).port = s.port := rfl
@[simp] theorem State.poisonSectors_dma (s : State) (l : List Nat) : (s.poisonSectors l).dma = s.dma := rfl
@[simp] theorem State.poisonSectors_bq (s : State) (l : List Nat) : (s.poisonSectors l).bq = s.bq := rfl
@[simp] theorem State.poisonSectors_pwr (s : State) (l : List Nat) : (s.poisonSectors l).pwr = s.pwr := rfl
@[simp] theorem State.poisonSectors_mrl (s : State) (l : List Nat) : (s.poisonSectors l).mrl = s.mrl := rfl
@[simp] theorem State.poisonSectors_tel (s : State) (l : List Nat) : (s.poisonSectors l).tel = s.tel := rfl
@[simp] theorem State.poisonSectors_dbg (s : State) (l : List Nat) : (s.poisonSectors l).dbg = s.dbg := rfl
@[simp] theorem State.poisonSectors_latches (s : State) (l : List Nat) : (s.poisonSectors l).latches = s.latches := rfl
@[simp] theorem State.poisonSectors_held (s : State) (l : List Nat) : (s.poisonSectors l).held = s.held := rfl
@[simp] theorem State.poisonSectors_damage (s : State) (l : List Nat) : (s.poisonSectors l).damage = s.damage := rfl
@[simp] theorem State.poisonSectors_heldAon (s : State) (l : List Nat) : (s.poisonSectors l).heldAon = s.heldAon := rfl
@[simp] theorem State.poisonSectors_soft (s : State) (l : List Nat) : (s.poisonSectors l).soft = s.soft := rfl
@[simp] theorem State.poisonSectors_moved (s : State) (l : List Nat) : (s.poisonSectors l).moved = s.moved := rfl
@[simp] theorem State.poisonSectors_out (s : State) (l : List Nat) : (s.poisonSectors l).out = s.out := rfl
@[simp] theorem State.poisonSectors_free (s : State) (l : List Nat) : (s.poisonSectors l).free = s.free := rfl
@[simp] theorem State.poisonSectors_itemNo (s : State) (l : List Nat) : (s.poisonSectors l).itemNo = s.itemNo := rfl
@[simp] theorem State.poisonSectors_pending (s : State) (l : List Nat) : (s.poisonSectors l).pending = s.pending := rfl

@[simp] theorem State.freeBytes_id (s : State) (n : Nat) : (s.freeBytes n).1.id = s.id := rfl
@[simp] theorem State.freeBytes_ticks (s : State) (n : Nat) : (s.freeBytes n).1.ticks = s.ticks := rfl
@[simp] theorem State.freeBytes_ts (s : State) (n : Nat) : (s.freeBytes n).1.ts = s.ts := rfl
@[simp] theorem State.freeBytes_tsRun (s : State) (n : Nat) : (s.freeBytes n).1.tsRun = s.tsRun := rfl
@[simp] theorem State.freeBytes_align (s : State) (n : Nat) : (s.freeBytes n).1.align = s.align := rfl
@[simp] theorem State.freeBytes_str (s : State) (n : Nat) : (s.freeBytes n).1.str = s.str := rfl
@[simp] theorem State.freeBytes_loam (s : State) (n : Nat) : (s.freeBytes n).1.loam = s.loam := rfl
@[simp] theorem State.freeBytes_err (s : State) (n : Nat) : (s.freeBytes n).1.err = s.err := rfl
@[simp] theorem State.freeBytes_ctr (s : State) (n : Nat) : (s.freeBytes n).1.ctr = s.ctr := rfl
@[simp] theorem State.freeBytes_cores (s : State) (n : Nat) : (s.freeBytes n).1.cores = s.cores := rfl
@[simp] theorem State.freeBytes_msg (s : State) (n : Nat) : (s.freeBytes n).1.msg = s.msg := rfl
@[simp] theorem State.freeBytes_syn (s : State) (n : Nat) : (s.freeBytes n).1.syn = s.syn := rfl
@[simp] theorem State.freeBytes_port (s : State) (n : Nat) : (s.freeBytes n).1.port = s.port := rfl
@[simp] theorem State.freeBytes_dma (s : State) (n : Nat) : (s.freeBytes n).1.dma = s.dma := rfl
@[simp] theorem State.freeBytes_bq (s : State) (n : Nat) : (s.freeBytes n).1.bq = s.bq := rfl
@[simp] theorem State.freeBytes_pwr (s : State) (n : Nat) : (s.freeBytes n).1.pwr = s.pwr := rfl
@[simp] theorem State.freeBytes_mrl (s : State) (n : Nat) : (s.freeBytes n).1.mrl = s.mrl := rfl
@[simp] theorem State.freeBytes_tel (s : State) (n : Nat) : (s.freeBytes n).1.tel = s.tel := rfl
@[simp] theorem State.freeBytes_dbg (s : State) (n : Nat) : (s.freeBytes n).1.dbg = s.dbg := rfl
@[simp] theorem State.freeBytes_latches (s : State) (n : Nat) : (s.freeBytes n).1.latches = s.latches := rfl
@[simp] theorem State.freeBytes_held (s : State) (n : Nat) : (s.freeBytes n).1.held = s.held := rfl
@[simp] theorem State.freeBytes_damage (s : State) (n : Nat) : (s.freeBytes n).1.damage = s.damage := rfl
@[simp] theorem State.freeBytes_heldAon (s : State) (n : Nat) : (s.freeBytes n).1.heldAon = s.heldAon := rfl
@[simp] theorem State.freeBytes_soft (s : State) (n : Nat) : (s.freeBytes n).1.soft = s.soft := rfl
@[simp] theorem State.freeBytes_moved (s : State) (n : Nat) : (s.freeBytes n).1.moved = s.moved := rfl
@[simp] theorem State.freeBytes_out (s : State) (n : Nat) : (s.freeBytes n).1.out = s.out := rfl
@[simp] theorem State.freeBytes_itemNo (s : State) (n : Nat) : (s.freeBytes n).1.itemNo = s.itemNo := rfl
@[simp] theorem State.freeBytes_pending (s : State) (n : Nat) : (s.freeBytes n).1.pending = s.pending := rfl

@[simp] theorem State.freeWord_id (s : State) : (s.freeWord).1.id = s.id := rfl
@[simp] theorem State.freeWord_ticks (s : State) : (s.freeWord).1.ticks = s.ticks := rfl
@[simp] theorem State.freeWord_ts (s : State) : (s.freeWord).1.ts = s.ts := rfl
@[simp] theorem State.freeWord_tsRun (s : State) : (s.freeWord).1.tsRun = s.tsRun := rfl
@[simp] theorem State.freeWord_align (s : State) : (s.freeWord).1.align = s.align := rfl
@[simp] theorem State.freeWord_str (s : State) : (s.freeWord).1.str = s.str := rfl
@[simp] theorem State.freeWord_loam (s : State) : (s.freeWord).1.loam = s.loam := rfl
@[simp] theorem State.freeWord_err (s : State) : (s.freeWord).1.err = s.err := rfl
@[simp] theorem State.freeWord_ctr (s : State) : (s.freeWord).1.ctr = s.ctr := rfl
@[simp] theorem State.freeWord_cores (s : State) : (s.freeWord).1.cores = s.cores := rfl
@[simp] theorem State.freeWord_msg (s : State) : (s.freeWord).1.msg = s.msg := rfl
@[simp] theorem State.freeWord_syn (s : State) : (s.freeWord).1.syn = s.syn := rfl
@[simp] theorem State.freeWord_port (s : State) : (s.freeWord).1.port = s.port := rfl
@[simp] theorem State.freeWord_dma (s : State) : (s.freeWord).1.dma = s.dma := rfl
@[simp] theorem State.freeWord_bq (s : State) : (s.freeWord).1.bq = s.bq := rfl
@[simp] theorem State.freeWord_pwr (s : State) : (s.freeWord).1.pwr = s.pwr := rfl
@[simp] theorem State.freeWord_mrl (s : State) : (s.freeWord).1.mrl = s.mrl := rfl
@[simp] theorem State.freeWord_tel (s : State) : (s.freeWord).1.tel = s.tel := rfl
@[simp] theorem State.freeWord_dbg (s : State) : (s.freeWord).1.dbg = s.dbg := rfl
@[simp] theorem State.freeWord_latches (s : State) : (s.freeWord).1.latches = s.latches := rfl
@[simp] theorem State.freeWord_held (s : State) : (s.freeWord).1.held = s.held := rfl
@[simp] theorem State.freeWord_damage (s : State) : (s.freeWord).1.damage = s.damage := rfl
@[simp] theorem State.freeWord_heldAon (s : State) : (s.freeWord).1.heldAon = s.heldAon := rfl
@[simp] theorem State.freeWord_soft (s : State) : (s.freeWord).1.soft = s.soft := rfl
@[simp] theorem State.freeWord_moved (s : State) : (s.freeWord).1.moved = s.moved := rfl
@[simp] theorem State.freeWord_out (s : State) : (s.freeWord).1.out = s.out := rfl
@[simp] theorem State.freeWord_itemNo (s : State) : (s.freeWord).1.itemNo = s.itemNo := rfl
@[simp] theorem State.freeWord_pending (s : State) : (s.freeWord).1.pending = s.pending := rfl

@[simp] theorem State.freeWord64_id (s : State) : (s.freeWord64).1.id = s.id := rfl
@[simp] theorem State.freeWord64_ticks (s : State) : (s.freeWord64).1.ticks = s.ticks := rfl
@[simp] theorem State.freeWord64_ts (s : State) : (s.freeWord64).1.ts = s.ts := rfl
@[simp] theorem State.freeWord64_tsRun (s : State) : (s.freeWord64).1.tsRun = s.tsRun := rfl
@[simp] theorem State.freeWord64_align (s : State) : (s.freeWord64).1.align = s.align := rfl
@[simp] theorem State.freeWord64_str (s : State) : (s.freeWord64).1.str = s.str := rfl
@[simp] theorem State.freeWord64_loam (s : State) : (s.freeWord64).1.loam = s.loam := rfl
@[simp] theorem State.freeWord64_err (s : State) : (s.freeWord64).1.err = s.err := rfl
@[simp] theorem State.freeWord64_ctr (s : State) : (s.freeWord64).1.ctr = s.ctr := rfl
@[simp] theorem State.freeWord64_cores (s : State) : (s.freeWord64).1.cores = s.cores := rfl
@[simp] theorem State.freeWord64_msg (s : State) : (s.freeWord64).1.msg = s.msg := rfl
@[simp] theorem State.freeWord64_syn (s : State) : (s.freeWord64).1.syn = s.syn := rfl
@[simp] theorem State.freeWord64_port (s : State) : (s.freeWord64).1.port = s.port := rfl
@[simp] theorem State.freeWord64_dma (s : State) : (s.freeWord64).1.dma = s.dma := rfl
@[simp] theorem State.freeWord64_bq (s : State) : (s.freeWord64).1.bq = s.bq := rfl
@[simp] theorem State.freeWord64_pwr (s : State) : (s.freeWord64).1.pwr = s.pwr := rfl
@[simp] theorem State.freeWord64_mrl (s : State) : (s.freeWord64).1.mrl = s.mrl := rfl
@[simp] theorem State.freeWord64_tel (s : State) : (s.freeWord64).1.tel = s.tel := rfl
@[simp] theorem State.freeWord64_dbg (s : State) : (s.freeWord64).1.dbg = s.dbg := rfl
@[simp] theorem State.freeWord64_latches (s : State) : (s.freeWord64).1.latches = s.latches := rfl
@[simp] theorem State.freeWord64_held (s : State) : (s.freeWord64).1.held = s.held := rfl
@[simp] theorem State.freeWord64_damage (s : State) : (s.freeWord64).1.damage = s.damage := rfl
@[simp] theorem State.freeWord64_heldAon (s : State) : (s.freeWord64).1.heldAon = s.heldAon := rfl
@[simp] theorem State.freeWord64_soft (s : State) : (s.freeWord64).1.soft = s.soft := rfl
@[simp] theorem State.freeWord64_moved (s : State) : (s.freeWord64).1.moved = s.moved := rfl
@[simp] theorem State.freeWord64_out (s : State) : (s.freeWord64).1.out = s.out := rfl
@[simp] theorem State.freeWord64_itemNo (s : State) : (s.freeWord64).1.itemNo = s.itemNo := rfl
@[simp] theorem State.freeWord64_pending (s : State) : (s.freeWord64).1.pending = s.pending := rfl

@[simp] theorem State.pulse_id (s : State) (n : Nat) : (s.pulse n).id = s.id := by unfold State.pulse; split <;> simp
@[simp] theorem State.pulse_ticks (s : State) (n : Nat) : (s.pulse n).ticks = s.ticks := by unfold State.pulse; split <;> simp
@[simp] theorem State.pulse_ts (s : State) (n : Nat) : (s.pulse n).ts = s.ts := by unfold State.pulse; split <;> simp
@[simp] theorem State.pulse_tsRun (s : State) (n : Nat) : (s.pulse n).tsRun = s.tsRun := by unfold State.pulse; split <;> simp
@[simp] theorem State.pulse_align (s : State) (n : Nat) : (s.pulse n).align = s.align := by unfold State.pulse; split <;> simp
@[simp] theorem State.pulse_str (s : State) (n : Nat) : (s.pulse n).str = s.str := by unfold State.pulse; split <;> simp
@[simp] theorem State.pulse_loam (s : State) (n : Nat) : (s.pulse n).loam = s.loam := by unfold State.pulse; split <;> simp
@[simp] theorem State.pulse_err (s : State) (n : Nat) : (s.pulse n).err = s.err := by unfold State.pulse; split <;> simp
@[simp] theorem State.pulse_cores (s : State) (n : Nat) : (s.pulse n).cores = s.cores := by unfold State.pulse; split <;> simp
@[simp] theorem State.pulse_msg (s : State) (n : Nat) : (s.pulse n).msg = s.msg := by unfold State.pulse; split <;> simp
@[simp] theorem State.pulse_syn (s : State) (n : Nat) : (s.pulse n).syn = s.syn := by unfold State.pulse; split <;> simp
@[simp] theorem State.pulse_port (s : State) (n : Nat) : (s.pulse n).port = s.port := by unfold State.pulse; split <;> simp
@[simp] theorem State.pulse_bq (s : State) (n : Nat) : (s.pulse n).bq = s.bq := by unfold State.pulse; split <;> simp
@[simp] theorem State.pulse_pwr (s : State) (n : Nat) : (s.pulse n).pwr = s.pwr := by unfold State.pulse; split <;> simp
@[simp] theorem State.pulse_mrl (s : State) (n : Nat) : (s.pulse n).mrl = s.mrl := by unfold State.pulse; split <;> simp
@[simp] theorem State.pulse_tel (s : State) (n : Nat) : (s.pulse n).tel = s.tel := by unfold State.pulse; split <;> simp
@[simp] theorem State.pulse_latches (s : State) (n : Nat) : (s.pulse n).latches = s.latches := by unfold State.pulse; split <;> simp
@[simp] theorem State.pulse_held (s : State) (n : Nat) : (s.pulse n).held = s.held := by unfold State.pulse; split <;> simp
@[simp] theorem State.pulse_damage (s : State) (n : Nat) : (s.pulse n).damage = s.damage := by unfold State.pulse; split <;> simp
@[simp] theorem State.pulse_heldAon (s : State) (n : Nat) : (s.pulse n).heldAon = s.heldAon := by unfold State.pulse; split <;> simp
@[simp] theorem State.pulse_soft (s : State) (n : Nat) : (s.pulse n).soft = s.soft := by unfold State.pulse; split <;> simp
@[simp] theorem State.pulse_moved (s : State) (n : Nat) : (s.pulse n).moved = s.moved := by unfold State.pulse; split <;> simp
@[simp] theorem State.pulse_out (s : State) (n : Nat) : (s.pulse n).out = s.out := by unfold State.pulse; split <;> simp
@[simp] theorem State.pulse_free (s : State) (n : Nat) : (s.pulse n).free = s.free := by unfold State.pulse; split <;> simp
@[simp] theorem State.pulse_itemNo (s : State) (n : Nat) : (s.pulse n).itemNo = s.itemNo := by unfold State.pulse; split <;> simp
@[simp] theorem State.pulse_pending (s : State) (n : Nat) : (s.pulse n).pending = s.pending := by unfold State.pulse; split <;> simp

@[simp] theorem State.noteHead_id (s : State) (ch : Nat) : (s.noteHead ch).id = s.id := by unfold State.noteHead; dsimp only; (repeat' split) <;> simp
@[simp] theorem State.noteHead_ticks (s : State) (ch : Nat) : (s.noteHead ch).ticks = s.ticks := by unfold State.noteHead; dsimp only; (repeat' split) <;> simp
@[simp] theorem State.noteHead_ts (s : State) (ch : Nat) : (s.noteHead ch).ts = s.ts := by unfold State.noteHead; dsimp only; (repeat' split) <;> simp
@[simp] theorem State.noteHead_tsRun (s : State) (ch : Nat) : (s.noteHead ch).tsRun = s.tsRun := by unfold State.noteHead; dsimp only; (repeat' split) <;> simp
@[simp] theorem State.noteHead_align (s : State) (ch : Nat) : (s.noteHead ch).align = s.align := by unfold State.noteHead; dsimp only; (repeat' split) <;> simp
@[simp] theorem State.noteHead_str (s : State) (ch : Nat) : (s.noteHead ch).str = s.str := by unfold State.noteHead; dsimp only; (repeat' split) <;> simp
@[simp] theorem State.noteHead_loam (s : State) (ch : Nat) : (s.noteHead ch).loam = s.loam := by unfold State.noteHead; dsimp only; (repeat' split) <;> simp
@[simp] theorem State.noteHead_err (s : State) (ch : Nat) : (s.noteHead ch).err = s.err := by unfold State.noteHead; dsimp only; (repeat' split) <;> simp
@[simp] theorem State.noteHead_ctr (s : State) (ch : Nat) : (s.noteHead ch).ctr = s.ctr := by unfold State.noteHead; dsimp only; (repeat' split) <;> simp
@[simp] theorem State.noteHead_cores (s : State) (ch : Nat) : (s.noteHead ch).cores = s.cores := by unfold State.noteHead; dsimp only; (repeat' split) <;> simp
@[simp] theorem State.noteHead_msg (s : State) (ch : Nat) : (s.noteHead ch).msg = s.msg := by unfold State.noteHead; dsimp only; (repeat' split) <;> simp
@[simp] theorem State.noteHead_syn (s : State) (ch : Nat) : (s.noteHead ch).syn = s.syn := by unfold State.noteHead; dsimp only; (repeat' split) <;> simp
@[simp] theorem State.noteHead_port (s : State) (ch : Nat) : (s.noteHead ch).port = s.port := by unfold State.noteHead; dsimp only; (repeat' split) <;> simp
@[simp] theorem State.noteHead_bq (s : State) (ch : Nat) : (s.noteHead ch).bq = s.bq := by unfold State.noteHead; dsimp only; (repeat' split) <;> simp
@[simp] theorem State.noteHead_pwr (s : State) (ch : Nat) : (s.noteHead ch).pwr = s.pwr := by unfold State.noteHead; dsimp only; (repeat' split) <;> simp
@[simp] theorem State.noteHead_mrl (s : State) (ch : Nat) : (s.noteHead ch).mrl = s.mrl := by unfold State.noteHead; dsimp only; (repeat' split) <;> simp
@[simp] theorem State.noteHead_tel (s : State) (ch : Nat) : (s.noteHead ch).tel = s.tel := by unfold State.noteHead; dsimp only; (repeat' split) <;> simp
@[simp] theorem State.noteHead_dbg (s : State) (ch : Nat) : (s.noteHead ch).dbg = s.dbg := by unfold State.noteHead; dsimp only; (repeat' split) <;> simp
@[simp] theorem State.noteHead_latches (s : State) (ch : Nat) : (s.noteHead ch).latches = s.latches := by unfold State.noteHead; dsimp only; (repeat' split) <;> simp
@[simp] theorem State.noteHead_held (s : State) (ch : Nat) : (s.noteHead ch).held = s.held := by unfold State.noteHead; dsimp only; (repeat' split) <;> simp
@[simp] theorem State.noteHead_damage (s : State) (ch : Nat) : (s.noteHead ch).damage = s.damage := by unfold State.noteHead; dsimp only; (repeat' split) <;> simp
@[simp] theorem State.noteHead_heldAon (s : State) (ch : Nat) : (s.noteHead ch).heldAon = s.heldAon := by unfold State.noteHead; dsimp only; (repeat' split) <;> simp
@[simp] theorem State.noteHead_soft (s : State) (ch : Nat) : (s.noteHead ch).soft = s.soft := by unfold State.noteHead; dsimp only; (repeat' split) <;> simp
@[simp] theorem State.noteHead_moved (s : State) (ch : Nat) : (s.noteHead ch).moved = s.moved := by unfold State.noteHead; dsimp only; (repeat' split) <;> simp
@[simp] theorem State.noteHead_out (s : State) (ch : Nat) : (s.noteHead ch).out = s.out := by unfold State.noteHead; dsimp only; (repeat' split) <;> simp
@[simp] theorem State.noteHead_free (s : State) (ch : Nat) : (s.noteHead ch).free = s.free := by unfold State.noteHead; dsimp only; (repeat' split) <;> simp
@[simp] theorem State.noteHead_itemNo (s : State) (ch : Nat) : (s.noteHead ch).itemNo = s.itemNo := by unfold State.noteHead; dsimp only; (repeat' split) <;> simp
@[simp] theorem State.noteHead_pending (s : State) (ch : Nat) : (s.noteHead ch).pending = s.pending := by unfold State.noteHead; dsimp only; (repeat' split) <;> simp

@[simp] theorem State.countVec_id (s : State) (w : Who) (sat : Nat) (nan : Nat) : (s.countVec w sat nan).id = s.id := by unfold State.countVec; split <;> rfl
@[simp] theorem State.countVec_ticks (s : State) (w : Who) (sat : Nat) (nan : Nat) : (s.countVec w sat nan).ticks = s.ticks := by unfold State.countVec; split <;> rfl
@[simp] theorem State.countVec_ts (s : State) (w : Who) (sat : Nat) (nan : Nat) : (s.countVec w sat nan).ts = s.ts := by unfold State.countVec; split <;> rfl
@[simp] theorem State.countVec_tsRun (s : State) (w : Who) (sat : Nat) (nan : Nat) : (s.countVec w sat nan).tsRun = s.tsRun := by unfold State.countVec; split <;> rfl
@[simp] theorem State.countVec_align (s : State) (w : Who) (sat : Nat) (nan : Nat) : (s.countVec w sat nan).align = s.align := by unfold State.countVec; split <;> rfl
@[simp] theorem State.countVec_str (s : State) (w : Who) (sat : Nat) (nan : Nat) : (s.countVec w sat nan).str = s.str := by unfold State.countVec; split <;> rfl
@[simp] theorem State.countVec_loam (s : State) (w : Who) (sat : Nat) (nan : Nat) : (s.countVec w sat nan).loam = s.loam := by unfold State.countVec; split <;> rfl
@[simp] theorem State.countVec_err (s : State) (w : Who) (sat : Nat) (nan : Nat) : (s.countVec w sat nan).err = s.err := by unfold State.countVec; split <;> rfl
@[simp] theorem State.countVec_msg (s : State) (w : Who) (sat : Nat) (nan : Nat) : (s.countVec w sat nan).msg = s.msg := by unfold State.countVec; split <;> rfl
@[simp] theorem State.countVec_syn (s : State) (w : Who) (sat : Nat) (nan : Nat) : (s.countVec w sat nan).syn = s.syn := by unfold State.countVec; split <;> rfl
@[simp] theorem State.countVec_port (s : State) (w : Who) (sat : Nat) (nan : Nat) : (s.countVec w sat nan).port = s.port := by unfold State.countVec; split <;> rfl
@[simp] theorem State.countVec_dma (s : State) (w : Who) (sat : Nat) (nan : Nat) : (s.countVec w sat nan).dma = s.dma := by unfold State.countVec; split <;> rfl
@[simp] theorem State.countVec_bq (s : State) (w : Who) (sat : Nat) (nan : Nat) : (s.countVec w sat nan).bq = s.bq := by unfold State.countVec; split <;> rfl
@[simp] theorem State.countVec_pwr (s : State) (w : Who) (sat : Nat) (nan : Nat) : (s.countVec w sat nan).pwr = s.pwr := by unfold State.countVec; split <;> rfl
@[simp] theorem State.countVec_mrl (s : State) (w : Who) (sat : Nat) (nan : Nat) : (s.countVec w sat nan).mrl = s.mrl := by unfold State.countVec; split <;> rfl
@[simp] theorem State.countVec_tel (s : State) (w : Who) (sat : Nat) (nan : Nat) : (s.countVec w sat nan).tel = s.tel := by unfold State.countVec; split <;> rfl
@[simp] theorem State.countVec_dbg (s : State) (w : Who) (sat : Nat) (nan : Nat) : (s.countVec w sat nan).dbg = s.dbg := by unfold State.countVec; split <;> rfl
@[simp] theorem State.countVec_latches (s : State) (w : Who) (sat : Nat) (nan : Nat) : (s.countVec w sat nan).latches = s.latches := by unfold State.countVec; split <;> rfl
@[simp] theorem State.countVec_held (s : State) (w : Who) (sat : Nat) (nan : Nat) : (s.countVec w sat nan).held = s.held := by unfold State.countVec; split <;> rfl
@[simp] theorem State.countVec_damage (s : State) (w : Who) (sat : Nat) (nan : Nat) : (s.countVec w sat nan).damage = s.damage := by unfold State.countVec; split <;> rfl
@[simp] theorem State.countVec_heldAon (s : State) (w : Who) (sat : Nat) (nan : Nat) : (s.countVec w sat nan).heldAon = s.heldAon := by unfold State.countVec; split <;> rfl
@[simp] theorem State.countVec_soft (s : State) (w : Who) (sat : Nat) (nan : Nat) : (s.countVec w sat nan).soft = s.soft := by unfold State.countVec; split <;> rfl
@[simp] theorem State.countVec_moved (s : State) (w : Who) (sat : Nat) (nan : Nat) : (s.countVec w sat nan).moved = s.moved := by unfold State.countVec; split <;> rfl
@[simp] theorem State.countVec_out (s : State) (w : Who) (sat : Nat) (nan : Nat) : (s.countVec w sat nan).out = s.out := by unfold State.countVec; split <;> rfl
@[simp] theorem State.countVec_free (s : State) (w : Who) (sat : Nat) (nan : Nat) : (s.countVec w sat nan).free = s.free := by unfold State.countVec; split <;> rfl
@[simp] theorem State.countVec_itemNo (s : State) (w : Who) (sat : Nat) (nan : Nat) : (s.countVec w sat nan).itemNo = s.itemNo := by unfold State.countVec; split <;> rfl
@[simp] theorem State.countVec_pending (s : State) (w : Who) (sat : Nat) (nan : Nat) : (s.countVec w sat nan).pending = s.pending := by unfold State.countVec; split <;> rfl

@[simp] theorem State.countArr_id (s : State) (w : Who) (sat : Nat) (nan : Nat) : (s.countArr w sat nan).id = s.id := by unfold State.countArr; split <;> rfl
@[simp] theorem State.countArr_ticks (s : State) (w : Who) (sat : Nat) (nan : Nat) : (s.countArr w sat nan).ticks = s.ticks := by unfold State.countArr; split <;> rfl
@[simp] theorem State.countArr_ts (s : State) (w : Who) (sat : Nat) (nan : Nat) : (s.countArr w sat nan).ts = s.ts := by unfold State.countArr; split <;> rfl
@[simp] theorem State.countArr_tsRun (s : State) (w : Who) (sat : Nat) (nan : Nat) : (s.countArr w sat nan).tsRun = s.tsRun := by unfold State.countArr; split <;> rfl
@[simp] theorem State.countArr_align (s : State) (w : Who) (sat : Nat) (nan : Nat) : (s.countArr w sat nan).align = s.align := by unfold State.countArr; split <;> rfl
@[simp] theorem State.countArr_str (s : State) (w : Who) (sat : Nat) (nan : Nat) : (s.countArr w sat nan).str = s.str := by unfold State.countArr; split <;> rfl
@[simp] theorem State.countArr_loam (s : State) (w : Who) (sat : Nat) (nan : Nat) : (s.countArr w sat nan).loam = s.loam := by unfold State.countArr; split <;> rfl
@[simp] theorem State.countArr_err (s : State) (w : Who) (sat : Nat) (nan : Nat) : (s.countArr w sat nan).err = s.err := by unfold State.countArr; split <;> rfl
@[simp] theorem State.countArr_msg (s : State) (w : Who) (sat : Nat) (nan : Nat) : (s.countArr w sat nan).msg = s.msg := by unfold State.countArr; split <;> rfl
@[simp] theorem State.countArr_syn (s : State) (w : Who) (sat : Nat) (nan : Nat) : (s.countArr w sat nan).syn = s.syn := by unfold State.countArr; split <;> rfl
@[simp] theorem State.countArr_port (s : State) (w : Who) (sat : Nat) (nan : Nat) : (s.countArr w sat nan).port = s.port := by unfold State.countArr; split <;> rfl
@[simp] theorem State.countArr_dma (s : State) (w : Who) (sat : Nat) (nan : Nat) : (s.countArr w sat nan).dma = s.dma := by unfold State.countArr; split <;> rfl
@[simp] theorem State.countArr_bq (s : State) (w : Who) (sat : Nat) (nan : Nat) : (s.countArr w sat nan).bq = s.bq := by unfold State.countArr; split <;> rfl
@[simp] theorem State.countArr_pwr (s : State) (w : Who) (sat : Nat) (nan : Nat) : (s.countArr w sat nan).pwr = s.pwr := by unfold State.countArr; split <;> rfl
@[simp] theorem State.countArr_mrl (s : State) (w : Who) (sat : Nat) (nan : Nat) : (s.countArr w sat nan).mrl = s.mrl := by unfold State.countArr; split <;> rfl
@[simp] theorem State.countArr_tel (s : State) (w : Who) (sat : Nat) (nan : Nat) : (s.countArr w sat nan).tel = s.tel := by unfold State.countArr; split <;> rfl
@[simp] theorem State.countArr_dbg (s : State) (w : Who) (sat : Nat) (nan : Nat) : (s.countArr w sat nan).dbg = s.dbg := by unfold State.countArr; split <;> rfl
@[simp] theorem State.countArr_latches (s : State) (w : Who) (sat : Nat) (nan : Nat) : (s.countArr w sat nan).latches = s.latches := by unfold State.countArr; split <;> rfl
@[simp] theorem State.countArr_held (s : State) (w : Who) (sat : Nat) (nan : Nat) : (s.countArr w sat nan).held = s.held := by unfold State.countArr; split <;> rfl
@[simp] theorem State.countArr_damage (s : State) (w : Who) (sat : Nat) (nan : Nat) : (s.countArr w sat nan).damage = s.damage := by unfold State.countArr; split <;> rfl
@[simp] theorem State.countArr_heldAon (s : State) (w : Who) (sat : Nat) (nan : Nat) : (s.countArr w sat nan).heldAon = s.heldAon := by unfold State.countArr; split <;> rfl
@[simp] theorem State.countArr_soft (s : State) (w : Who) (sat : Nat) (nan : Nat) : (s.countArr w sat nan).soft = s.soft := by unfold State.countArr; split <;> rfl
@[simp] theorem State.countArr_moved (s : State) (w : Who) (sat : Nat) (nan : Nat) : (s.countArr w sat nan).moved = s.moved := by unfold State.countArr; split <;> rfl
@[simp] theorem State.countArr_out (s : State) (w : Who) (sat : Nat) (nan : Nat) : (s.countArr w sat nan).out = s.out := by unfold State.countArr; split <;> rfl
@[simp] theorem State.countArr_free (s : State) (w : Who) (sat : Nat) (nan : Nat) : (s.countArr w sat nan).free = s.free := by unfold State.countArr; split <;> rfl
@[simp] theorem State.countArr_itemNo (s : State) (w : Who) (sat : Nat) (nan : Nat) : (s.countArr w sat nan).itemNo = s.itemNo := by unfold State.countArr; split <;> rfl
@[simp] theorem State.countArr_pending (s : State) (w : Who) (sat : Nat) (nan : Nat) : (s.countArr w sat nan).pending = s.pending := by unfold State.countArr; split <;> rfl

@[simp] theorem State.startWake_id (s : State) : (s.startWake).id = s.id := by unfold State.startWake; split <;> simp
@[simp] theorem State.startWake_ticks (s : State) : (s.startWake).ticks = s.ticks := by unfold State.startWake; split <;> simp
@[simp] theorem State.startWake_ts (s : State) : (s.startWake).ts = s.ts := by unfold State.startWake; split <;> simp
@[simp] theorem State.startWake_tsRun (s : State) : (s.startWake).tsRun = s.tsRun := by unfold State.startWake; split <;> simp
@[simp] theorem State.startWake_align (s : State) : (s.startWake).align = s.align := by unfold State.startWake; split <;> simp
@[simp] theorem State.startWake_str (s : State) : (s.startWake).str = s.str := by unfold State.startWake; split <;> simp
@[simp] theorem State.startWake_loam (s : State) : (s.startWake).loam = s.loam := by unfold State.startWake; split <;> simp
@[simp] theorem State.startWake_err (s : State) : (s.startWake).err = s.err := by unfold State.startWake; split <;> simp
@[simp] theorem State.startWake_cores (s : State) : (s.startWake).cores = s.cores := by unfold State.startWake; split <;> simp
@[simp] theorem State.startWake_msg (s : State) : (s.startWake).msg = s.msg := by unfold State.startWake; split <;> simp
@[simp] theorem State.startWake_syn (s : State) : (s.startWake).syn = s.syn := by unfold State.startWake; split <;> simp
@[simp] theorem State.startWake_port (s : State) : (s.startWake).port = s.port := by unfold State.startWake; split <;> simp
@[simp] theorem State.startWake_dma (s : State) : (s.startWake).dma = s.dma := by unfold State.startWake; split <;> simp
@[simp] theorem State.startWake_bq (s : State) : (s.startWake).bq = s.bq := by unfold State.startWake; split <;> simp
@[simp] theorem State.startWake_mrl (s : State) : (s.startWake).mrl = s.mrl := by unfold State.startWake; split <;> simp
@[simp] theorem State.startWake_tel (s : State) : (s.startWake).tel = s.tel := by unfold State.startWake; split <;> simp
@[simp] theorem State.startWake_latches (s : State) : (s.startWake).latches = s.latches := by unfold State.startWake; split <;> simp
@[simp] theorem State.startWake_held (s : State) : (s.startWake).held = s.held := by unfold State.startWake; split <;> simp
@[simp] theorem State.startWake_damage (s : State) : (s.startWake).damage = s.damage := by unfold State.startWake; split <;> simp
@[simp] theorem State.startWake_heldAon (s : State) : (s.startWake).heldAon = s.heldAon := by unfold State.startWake; split <;> simp
@[simp] theorem State.startWake_soft (s : State) : (s.startWake).soft = s.soft := by unfold State.startWake; split <;> simp
@[simp] theorem State.startWake_moved (s : State) : (s.startWake).moved = s.moved := by unfold State.startWake; split <;> simp
@[simp] theorem State.startWake_free (s : State) : (s.startWake).free = s.free := by unfold State.startWake; split <;> simp
@[simp] theorem State.startWake_itemNo (s : State) : (s.startWake).itemNo = s.itemNo := by unfold State.startWake; split <;> simp
@[simp] theorem State.startWake_pending (s : State) : (s.startWake).pending = s.pending := by unfold State.startWake; split <;> simp

@[simp] theorem State.enter_id (s : State) (t : RecType) (body : List Byte) : (s.enter t body).id = s.id := rfl
@[simp] theorem State.enter_ticks (s : State) (t : RecType) (body : List Byte) : (s.enter t body).ticks = s.ticks := rfl
@[simp] theorem State.enter_ts (s : State) (t : RecType) (body : List Byte) : (s.enter t body).ts = s.ts := rfl
@[simp] theorem State.enter_tsRun (s : State) (t : RecType) (body : List Byte) : (s.enter t body).tsRun = s.tsRun := rfl
@[simp] theorem State.enter_align (s : State) (t : RecType) (body : List Byte) : (s.enter t body).align = s.align := rfl
@[simp] theorem State.enter_str (s : State) (t : RecType) (body : List Byte) : (s.enter t body).str = s.str := rfl
@[simp] theorem State.enter_loam (s : State) (t : RecType) (body : List Byte) : (s.enter t body).loam = s.loam := rfl
@[simp] theorem State.enter_err (s : State) (t : RecType) (body : List Byte) : (s.enter t body).err = s.err := rfl
@[simp] theorem State.enter_ctr (s : State) (t : RecType) (body : List Byte) : (s.enter t body).ctr = s.ctr := rfl
@[simp] theorem State.enter_cores (s : State) (t : RecType) (body : List Byte) : (s.enter t body).cores = s.cores := rfl
@[simp] theorem State.enter_msg (s : State) (t : RecType) (body : List Byte) : (s.enter t body).msg = s.msg := rfl
@[simp] theorem State.enter_syn (s : State) (t : RecType) (body : List Byte) : (s.enter t body).syn = s.syn := rfl
@[simp] theorem State.enter_port (s : State) (t : RecType) (body : List Byte) : (s.enter t body).port = s.port := rfl
@[simp] theorem State.enter_dma (s : State) (t : RecType) (body : List Byte) : (s.enter t body).dma = s.dma := rfl
@[simp] theorem State.enter_bq (s : State) (t : RecType) (body : List Byte) : (s.enter t body).bq = s.bq := rfl
@[simp] theorem State.enter_pwr (s : State) (t : RecType) (body : List Byte) : (s.enter t body).pwr = s.pwr := rfl
@[simp] theorem State.enter_tel (s : State) (t : RecType) (body : List Byte) : (s.enter t body).tel = s.tel := rfl
@[simp] theorem State.enter_dbg (s : State) (t : RecType) (body : List Byte) : (s.enter t body).dbg = s.dbg := rfl
@[simp] theorem State.enter_latches (s : State) (t : RecType) (body : List Byte) : (s.enter t body).latches = s.latches := rfl
@[simp] theorem State.enter_held (s : State) (t : RecType) (body : List Byte) : (s.enter t body).held = s.held := rfl
@[simp] theorem State.enter_damage (s : State) (t : RecType) (body : List Byte) : (s.enter t body).damage = s.damage := rfl
@[simp] theorem State.enter_heldAon (s : State) (t : RecType) (body : List Byte) : (s.enter t body).heldAon = s.heldAon := rfl
@[simp] theorem State.enter_soft (s : State) (t : RecType) (body : List Byte) : (s.enter t body).soft = s.soft := rfl
@[simp] theorem State.enter_moved (s : State) (t : RecType) (body : List Byte) : (s.enter t body).moved = s.moved := rfl
@[simp] theorem State.enter_out (s : State) (t : RecType) (body : List Byte) : (s.enter t body).out = s.out := rfl
@[simp] theorem State.enter_free (s : State) (t : RecType) (body : List Byte) : (s.enter t body).free = s.free := rfl
@[simp] theorem State.enter_itemNo (s : State) (t : RecType) (body : List Byte) : (s.enter t body).itemNo = s.itemNo := rfl
@[simp] theorem State.enter_pending (s : State) (t : RecType) (body : List Byte) : (s.enter t body).pending = s.pending := rfl


@[simp] theorem State.setDump_id (s : State) (w : Who) (d : Option Dump) : (s.setDump w d).id = s.id := rfl
@[simp] theorem State.setDump_ticks (s : State) (w : Who) (d : Option Dump) : (s.setDump w d).ticks = s.ticks := rfl
@[simp] theorem State.setDump_ts (s : State) (w : Who) (d : Option Dump) : (s.setDump w d).ts = s.ts := rfl
@[simp] theorem State.setDump_tsRun (s : State) (w : Who) (d : Option Dump) : (s.setDump w d).tsRun = s.tsRun := rfl
@[simp] theorem State.setDump_align (s : State) (w : Who) (d : Option Dump) : (s.setDump w d).align = s.align := rfl
@[simp] theorem State.setDump_str (s : State) (w : Who) (d : Option Dump) : (s.setDump w d).str = s.str := rfl
@[simp] theorem State.setDump_loam (s : State) (w : Who) (d : Option Dump) : (s.setDump w d).loam = s.loam := rfl
@[simp] theorem State.setDump_err (s : State) (w : Who) (d : Option Dump) : (s.setDump w d).err = s.err := rfl
@[simp] theorem State.setDump_ctr (s : State) (w : Who) (d : Option Dump) : (s.setDump w d).ctr = s.ctr := rfl
@[simp] theorem State.setDump_msg (s : State) (w : Who) (d : Option Dump) : (s.setDump w d).msg = s.msg := rfl
@[simp] theorem State.setDump_syn (s : State) (w : Who) (d : Option Dump) : (s.setDump w d).syn = s.syn := rfl
@[simp] theorem State.setDump_port (s : State) (w : Who) (d : Option Dump) : (s.setDump w d).port = s.port := rfl
@[simp] theorem State.setDump_dma (s : State) (w : Who) (d : Option Dump) : (s.setDump w d).dma = s.dma := rfl
@[simp] theorem State.setDump_bq (s : State) (w : Who) (d : Option Dump) : (s.setDump w d).bq = s.bq := rfl
@[simp] theorem State.setDump_pwr (s : State) (w : Who) (d : Option Dump) : (s.setDump w d).pwr = s.pwr := rfl
@[simp] theorem State.setDump_mrl (s : State) (w : Who) (d : Option Dump) : (s.setDump w d).mrl = s.mrl := rfl
@[simp] theorem State.setDump_tel (s : State) (w : Who) (d : Option Dump) : (s.setDump w d).tel = s.tel := rfl
@[simp] theorem State.setDump_dbg (s : State) (w : Who) (d : Option Dump) : (s.setDump w d).dbg = s.dbg := rfl
@[simp] theorem State.setDump_latches (s : State) (w : Who) (d : Option Dump) : (s.setDump w d).latches = s.latches := rfl
@[simp] theorem State.setDump_held (s : State) (w : Who) (d : Option Dump) : (s.setDump w d).held = s.held := rfl
@[simp] theorem State.setDump_damage (s : State) (w : Who) (d : Option Dump) : (s.setDump w d).damage = s.damage := rfl
@[simp] theorem State.setDump_heldAon (s : State) (w : Who) (d : Option Dump) : (s.setDump w d).heldAon = s.heldAon := rfl
@[simp] theorem State.setDump_soft (s : State) (w : Who) (d : Option Dump) : (s.setDump w d).soft = s.soft := rfl
@[simp] theorem State.setDump_moved (s : State) (w : Who) (d : Option Dump) : (s.setDump w d).moved = s.moved := rfl
@[simp] theorem State.setDump_out (s : State) (w : Who) (d : Option Dump) : (s.setDump w d).out = s.out := rfl
@[simp] theorem State.setDump_free (s : State) (w : Who) (d : Option Dump) : (s.setDump w d).free = s.free := rfl
@[simp] theorem State.setDump_itemNo (s : State) (w : Who) (d : Option Dump) : (s.setDump w d).itemNo = s.itemNo := rfl
@[simp] theorem State.setDump_pending (s : State) (w : Who) (d : Option Dump) : (s.setDump w d).pending = s.pending := rfl

@[simp] theorem State.goOn_id (s : State) (w : Who) (no : Nat) : (s.goOn w no).id = s.id := by unfold State.goOn; split <;> simp
@[simp] theorem State.goOn_ticks (s : State) (w : Who) (no : Nat) : (s.goOn w no).ticks = s.ticks := by unfold State.goOn; split <;> simp
@[simp] theorem State.goOn_ts (s : State) (w : Who) (no : Nat) : (s.goOn w no).ts = s.ts := by unfold State.goOn; split <;> simp
@[simp] theorem State.goOn_tsRun (s : State) (w : Who) (no : Nat) : (s.goOn w no).tsRun = s.tsRun := by unfold State.goOn; split <;> simp
@[simp] theorem State.goOn_align (s : State) (w : Who) (no : Nat) : (s.goOn w no).align = s.align := by unfold State.goOn; split <;> simp
@[simp] theorem State.goOn_str (s : State) (w : Who) (no : Nat) : (s.goOn w no).str = s.str := by unfold State.goOn; split <;> simp
@[simp] theorem State.goOn_loam (s : State) (w : Who) (no : Nat) : (s.goOn w no).loam = s.loam := by unfold State.goOn; split <;> simp
@[simp] theorem State.goOn_err (s : State) (w : Who) (no : Nat) : (s.goOn w no).err = s.err := by unfold State.goOn; split <;> simp
@[simp] theorem State.goOn_ctr (s : State) (w : Who) (no : Nat) : (s.goOn w no).ctr = s.ctr := by unfold State.goOn; split <;> simp
@[simp] theorem State.goOn_msg (s : State) (w : Who) (no : Nat) : (s.goOn w no).msg = s.msg := by unfold State.goOn; split <;> simp
@[simp] theorem State.goOn_syn (s : State) (w : Who) (no : Nat) : (s.goOn w no).syn = s.syn := by unfold State.goOn; split <;> simp
@[simp] theorem State.goOn_port (s : State) (w : Who) (no : Nat) : (s.goOn w no).port = s.port := by unfold State.goOn; split <;> simp
@[simp] theorem State.goOn_dma (s : State) (w : Who) (no : Nat) : (s.goOn w no).dma = s.dma := by unfold State.goOn; split <;> simp
@[simp] theorem State.goOn_bq (s : State) (w : Who) (no : Nat) : (s.goOn w no).bq = s.bq := by unfold State.goOn; split <;> simp
@[simp] theorem State.goOn_pwr (s : State) (w : Who) (no : Nat) : (s.goOn w no).pwr = s.pwr := by unfold State.goOn; split <;> simp
@[simp] theorem State.goOn_mrl (s : State) (w : Who) (no : Nat) : (s.goOn w no).mrl = s.mrl := by unfold State.goOn; split <;> simp
@[simp] theorem State.goOn_tel (s : State) (w : Who) (no : Nat) : (s.goOn w no).tel = s.tel := by unfold State.goOn; split <;> simp
@[simp] theorem State.goOn_dbg (s : State) (w : Who) (no : Nat) : (s.goOn w no).dbg = s.dbg := by unfold State.goOn; split <;> simp
@[simp] theorem State.goOn_latches (s : State) (w : Who) (no : Nat) : (s.goOn w no).latches = s.latches := by unfold State.goOn; split <;> simp
@[simp] theorem State.goOn_held (s : State) (w : Who) (no : Nat) : (s.goOn w no).held = s.held := by unfold State.goOn; split <;> simp
@[simp] theorem State.goOn_heldAon (s : State) (w : Who) (no : Nat) : (s.goOn w no).heldAon = s.heldAon := by unfold State.goOn; split <;> simp
@[simp] theorem State.goOn_damage (s : State) (w : Who) (no : Nat) : (s.goOn w no).damage = s.damage := by unfold State.goOn; split <;> simp
@[simp] theorem State.goOn_soft (s : State) (w : Who) (no : Nat) : (s.goOn w no).soft = s.soft := by unfold State.goOn; split <;> simp
@[simp] theorem State.goOn_out (s : State) (w : Who) (no : Nat) : (s.goOn w no).out = s.out := by unfold State.goOn; split <;> simp
@[simp] theorem State.goOn_free (s : State) (w : Who) (no : Nat) : (s.goOn w no).free = s.free := by unfold State.goOn; split <;> simp
@[simp] theorem State.goOn_itemNo (s : State) (w : Who) (no : Nat) : (s.goOn w no).itemNo = s.itemNo := by unfold State.goOn; split <;> simp
@[simp] theorem State.goOn_pending (s : State) (w : Who) (no : Nat) : (s.goOn w no).pending = s.pending := by unfold State.goOn; split <;> simp


@[simp] theorem State.undefVec_id (s : State) (c : Nat) : (s.undefVec c).id = s.id := rfl
@[simp] theorem State.undefVec_ticks (s : State) (c : Nat) : (s.undefVec c).ticks = s.ticks := rfl
@[simp] theorem State.undefVec_ts (s : State) (c : Nat) : (s.undefVec c).ts = s.ts := rfl
@[simp] theorem State.undefVec_tsRun (s : State) (c : Nat) : (s.undefVec c).tsRun = s.tsRun := rfl
@[simp] theorem State.undefVec_align (s : State) (c : Nat) : (s.undefVec c).align = s.align := rfl
@[simp] theorem State.undefVec_str (s : State) (c : Nat) : (s.undefVec c).str = s.str := rfl
@[simp] theorem State.undefVec_loam (s : State) (c : Nat) : (s.undefVec c).loam = s.loam := rfl
@[simp] theorem State.undefVec_err (s : State) (c : Nat) : (s.undefVec c).err = s.err := rfl
@[simp] theorem State.undefVec_ctr (s : State) (c : Nat) : (s.undefVec c).ctr = s.ctr := rfl
@[simp] theorem State.undefVec_msg (s : State) (c : Nat) : (s.undefVec c).msg = s.msg := rfl
@[simp] theorem State.undefVec_syn (s : State) (c : Nat) : (s.undefVec c).syn = s.syn := rfl
@[simp] theorem State.undefVec_port (s : State) (c : Nat) : (s.undefVec c).port = s.port := rfl
@[simp] theorem State.undefVec_dma (s : State) (c : Nat) : (s.undefVec c).dma = s.dma := rfl
@[simp] theorem State.undefVec_bq (s : State) (c : Nat) : (s.undefVec c).bq = s.bq := rfl
@[simp] theorem State.undefVec_pwr (s : State) (c : Nat) : (s.undefVec c).pwr = s.pwr := rfl
@[simp] theorem State.undefVec_mrl (s : State) (c : Nat) : (s.undefVec c).mrl = s.mrl := rfl
@[simp] theorem State.undefVec_tel (s : State) (c : Nat) : (s.undefVec c).tel = s.tel := rfl
@[simp] theorem State.undefVec_dbg (s : State) (c : Nat) : (s.undefVec c).dbg = s.dbg := rfl
@[simp] theorem State.undefVec_latches (s : State) (c : Nat) : (s.undefVec c).latches = s.latches := rfl
@[simp] theorem State.undefVec_held (s : State) (c : Nat) : (s.undefVec c).held = s.held := rfl
@[simp] theorem State.undefVec_damage (s : State) (c : Nat) : (s.undefVec c).damage = s.damage := rfl
@[simp] theorem State.undefVec_heldAon (s : State) (c : Nat) : (s.undefVec c).heldAon = s.heldAon := rfl
@[simp] theorem State.undefVec_soft (s : State) (c : Nat) : (s.undefVec c).soft = s.soft := rfl
@[simp] theorem State.undefVec_moved (s : State) (c : Nat) : (s.undefVec c).moved = s.moved := rfl
@[simp] theorem State.undefVec_out (s : State) (c : Nat) : (s.undefVec c).out = s.out := rfl
@[simp] theorem State.undefVec_itemNo (s : State) (c : Nat) : (s.undefVec c).itemNo = s.itemNo := rfl
@[simp] theorem State.undefVec_pending (s : State) (c : Nat) : (s.undefVec c).pending = s.pending := rfl

@[simp] theorem State.stopEngines_id (s : State) (w : Who) : (s.stopEngines w).id = s.id := by unfold State.stopEngines; dsimp only; split <;> simp
@[simp] theorem State.stopEngines_ticks (s : State) (w : Who) : (s.stopEngines w).ticks = s.ticks := by unfold State.stopEngines; dsimp only; split <;> simp
@[simp] theorem State.stopEngines_ts (s : State) (w : Who) : (s.stopEngines w).ts = s.ts := by unfold State.stopEngines; dsimp only; split <;> simp
@[simp] theorem State.stopEngines_tsRun (s : State) (w : Who) : (s.stopEngines w).tsRun = s.tsRun := by unfold State.stopEngines; dsimp only; split <;> simp
@[simp] theorem State.stopEngines_align (s : State) (w : Who) : (s.stopEngines w).align = s.align := by unfold State.stopEngines; dsimp only; split <;> simp
@[simp] theorem State.stopEngines_str (s : State) (w : Who) : (s.stopEngines w).str = s.str := by unfold State.stopEngines; dsimp only; split <;> simp
@[simp] theorem State.stopEngines_loam (s : State) (w : Who) : (s.stopEngines w).loam = s.loam := by unfold State.stopEngines; dsimp only; split <;> simp
@[simp] theorem State.stopEngines_err (s : State) (w : Who) : (s.stopEngines w).err = s.err := by unfold State.stopEngines; dsimp only; split <;> simp
@[simp] theorem State.stopEngines_ctr (s : State) (w : Who) : (s.stopEngines w).ctr = s.ctr := by unfold State.stopEngines; dsimp only; split <;> simp
@[simp] theorem State.stopEngines_syn (s : State) (w : Who) : (s.stopEngines w).syn = s.syn := by unfold State.stopEngines; dsimp only; split <;> simp
@[simp] theorem State.stopEngines_port (s : State) (w : Who) : (s.stopEngines w).port = s.port := by unfold State.stopEngines; dsimp only; split <;> simp
@[simp] theorem State.stopEngines_bq (s : State) (w : Who) : (s.stopEngines w).bq = s.bq := by unfold State.stopEngines; dsimp only; split <;> simp
@[simp] theorem State.stopEngines_pwr (s : State) (w : Who) : (s.stopEngines w).pwr = s.pwr := by unfold State.stopEngines; dsimp only; split <;> simp
@[simp] theorem State.stopEngines_mrl (s : State) (w : Who) : (s.stopEngines w).mrl = s.mrl := by unfold State.stopEngines; dsimp only; split <;> simp
@[simp] theorem State.stopEngines_tel (s : State) (w : Who) : (s.stopEngines w).tel = s.tel := by unfold State.stopEngines; dsimp only; split <;> simp
@[simp] theorem State.stopEngines_dbg (s : State) (w : Who) : (s.stopEngines w).dbg = s.dbg := by unfold State.stopEngines; dsimp only; split <;> simp
@[simp] theorem State.stopEngines_latches (s : State) (w : Who) : (s.stopEngines w).latches = s.latches := by unfold State.stopEngines; dsimp only; split <;> simp
@[simp] theorem State.stopEngines_held (s : State) (w : Who) : (s.stopEngines w).held = s.held := by unfold State.stopEngines; dsimp only; split <;> simp
@[simp] theorem State.stopEngines_damage (s : State) (w : Who) : (s.stopEngines w).damage = s.damage := by unfold State.stopEngines; dsimp only; split <;> simp
@[simp] theorem State.stopEngines_heldAon (s : State) (w : Who) : (s.stopEngines w).heldAon = s.heldAon := by unfold State.stopEngines; dsimp only; split <;> simp
@[simp] theorem State.stopEngines_soft (s : State) (w : Who) : (s.stopEngines w).soft = s.soft := by unfold State.stopEngines; dsimp only; split <;> simp
@[simp] theorem State.stopEngines_moved (s : State) (w : Who) : (s.stopEngines w).moved = s.moved := by unfold State.stopEngines; dsimp only; split <;> simp
@[simp] theorem State.stopEngines_out (s : State) (w : Who) : (s.stopEngines w).out = s.out := by unfold State.stopEngines; dsimp only; split <;> simp
@[simp] theorem State.stopEngines_itemNo (s : State) (w : Who) : (s.stopEngines w).itemNo = s.itemNo := by unfold State.stopEngines; dsimp only; split <;> simp
@[simp] theorem State.stopEngines_pending (s : State) (w : Who) : (s.stopEngines w).pending = s.pending := by unfold State.stopEngines; dsimp only; split <;> simp

@[simp] theorem State.beginAbort_id (s : State) (w : Who) (code : Nat) : (s.beginAbort w code).id = s.id := by simp [State.beginAbort]
@[simp] theorem State.beginAbort_ticks (s : State) (w : Who) (code : Nat) : (s.beginAbort w code).ticks = s.ticks := by simp [State.beginAbort]
@[simp] theorem State.beginAbort_ts (s : State) (w : Who) (code : Nat) : (s.beginAbort w code).ts = s.ts := by simp [State.beginAbort]
@[simp] theorem State.beginAbort_tsRun (s : State) (w : Who) (code : Nat) : (s.beginAbort w code).tsRun = s.tsRun := by simp [State.beginAbort]
@[simp] theorem State.beginAbort_align (s : State) (w : Who) (code : Nat) : (s.beginAbort w code).align = s.align := by simp [State.beginAbort]
@[simp] theorem State.beginAbort_str (s : State) (w : Who) (code : Nat) : (s.beginAbort w code).str = s.str := by simp [State.beginAbort]
@[simp] theorem State.beginAbort_loam (s : State) (w : Who) (code : Nat) : (s.beginAbort w code).loam = s.loam := by simp [State.beginAbort]
@[simp] theorem State.beginAbort_err (s : State) (w : Who) (code : Nat) : (s.beginAbort w code).err = s.err := by simp [State.beginAbort]
@[simp] theorem State.beginAbort_ctr (s : State) (w : Who) (code : Nat) : (s.beginAbort w code).ctr = s.ctr := by simp [State.beginAbort]
@[simp] theorem State.beginAbort_syn (s : State) (w : Who) (code : Nat) : (s.beginAbort w code).syn = s.syn := by simp [State.beginAbort]
@[simp] theorem State.beginAbort_port (s : State) (w : Who) (code : Nat) : (s.beginAbort w code).port = s.port := by simp [State.beginAbort]
@[simp] theorem State.beginAbort_bq (s : State) (w : Who) (code : Nat) : (s.beginAbort w code).bq = s.bq := by simp [State.beginAbort]
@[simp] theorem State.beginAbort_pwr (s : State) (w : Who) (code : Nat) : (s.beginAbort w code).pwr = s.pwr := by simp [State.beginAbort]
@[simp] theorem State.beginAbort_mrl (s : State) (w : Who) (code : Nat) : (s.beginAbort w code).mrl = s.mrl := by simp [State.beginAbort]
@[simp] theorem State.beginAbort_tel (s : State) (w : Who) (code : Nat) : (s.beginAbort w code).tel = s.tel := by simp [State.beginAbort]
@[simp] theorem State.beginAbort_dbg (s : State) (w : Who) (code : Nat) : (s.beginAbort w code).dbg = s.dbg := by simp [State.beginAbort]
@[simp] theorem State.beginAbort_latches (s : State) (w : Who) (code : Nat) : (s.beginAbort w code).latches = s.latches := by simp [State.beginAbort]
@[simp] theorem State.beginAbort_held (s : State) (w : Who) (code : Nat) : (s.beginAbort w code).held = s.held := by simp [State.beginAbort]
@[simp] theorem State.beginAbort_damage (s : State) (w : Who) (code : Nat) : (s.beginAbort w code).damage = s.damage := by simp [State.beginAbort]
@[simp] theorem State.beginAbort_heldAon (s : State) (w : Who) (code : Nat) : (s.beginAbort w code).heldAon = s.heldAon := by simp [State.beginAbort]
@[simp] theorem State.beginAbort_soft (s : State) (w : Who) (code : Nat) : (s.beginAbort w code).soft = s.soft := by simp [State.beginAbort]
@[simp] theorem State.beginAbort_moved (s : State) (w : Who) (code : Nat) : (s.beginAbort w code).moved = s.moved := by simp [State.beginAbort]
@[simp] theorem State.beginAbort_out (s : State) (w : Who) (code : Nat) : (s.beginAbort w code).out = s.out := by simp [State.beginAbort]
@[simp] theorem State.beginAbort_itemNo (s : State) (w : Who) (code : Nat) : (s.beginAbort w code).itemNo = s.itemNo := by simp [State.beginAbort]
@[simp] theorem State.beginAbort_pending (s : State) (w : Who) (code : Nat) : (s.beginAbort w code).pending = s.pending := by simp [State.beginAbort]

@[simp] theorem State.unbear_id (s : State) (w : Who) : (s.unbear w).id = s.id := by unfold State.unbear; (repeat' split) <;> simp
@[simp] theorem State.unbear_ticks (s : State) (w : Who) : (s.unbear w).ticks = s.ticks := by unfold State.unbear; (repeat' split) <;> simp
@[simp] theorem State.unbear_ts (s : State) (w : Who) : (s.unbear w).ts = s.ts := by unfold State.unbear; (repeat' split) <;> simp
@[simp] theorem State.unbear_tsRun (s : State) (w : Who) : (s.unbear w).tsRun = s.tsRun := by unfold State.unbear; (repeat' split) <;> simp
@[simp] theorem State.unbear_align (s : State) (w : Who) : (s.unbear w).align = s.align := by unfold State.unbear; (repeat' split) <;> simp
@[simp] theorem State.unbear_str (s : State) (w : Who) : (s.unbear w).str = s.str := by unfold State.unbear; (repeat' split) <;> simp
@[simp] theorem State.unbear_loam (s : State) (w : Who) : (s.unbear w).loam = s.loam := by unfold State.unbear; (repeat' split) <;> simp
@[simp] theorem State.unbear_err (s : State) (w : Who) : (s.unbear w).err = s.err := by unfold State.unbear; (repeat' split) <;> simp
@[simp] theorem State.unbear_msg (s : State) (w : Who) : (s.unbear w).msg = s.msg := by unfold State.unbear; (repeat' split) <;> simp
@[simp] theorem State.unbear_syn (s : State) (w : Who) : (s.unbear w).syn = s.syn := by unfold State.unbear; (repeat' split) <;> simp
@[simp] theorem State.unbear_port (s : State) (w : Who) : (s.unbear w).port = s.port := by unfold State.unbear; (repeat' split) <;> simp
@[simp] theorem State.unbear_dma (s : State) (w : Who) : (s.unbear w).dma = s.dma := by unfold State.unbear; (repeat' split) <;> simp
@[simp] theorem State.unbear_bq (s : State) (w : Who) : (s.unbear w).bq = s.bq := by unfold State.unbear; (repeat' split) <;> simp
@[simp] theorem State.unbear_pwr (s : State) (w : Who) : (s.unbear w).pwr = s.pwr := by unfold State.unbear; (repeat' split) <;> simp
@[simp] theorem State.unbear_mrl (s : State) (w : Who) : (s.unbear w).mrl = s.mrl := by unfold State.unbear; (repeat' split) <;> simp
@[simp] theorem State.unbear_latches (s : State) (w : Who) : (s.unbear w).latches = s.latches := by unfold State.unbear; (repeat' split) <;> simp
@[simp] theorem State.unbear_held (s : State) (w : Who) : (s.unbear w).held = s.held := by unfold State.unbear; (repeat' split) <;> simp
@[simp] theorem State.unbear_heldAon (s : State) (w : Who) : (s.unbear w).heldAon = s.heldAon := by unfold State.unbear; (repeat' split) <;> simp
@[simp] theorem State.unbear_damage (s : State) (w : Who) : (s.unbear w).damage = s.damage := by unfold State.unbear; (repeat' split) <;> simp
@[simp] theorem State.unbear_soft (s : State) (w : Who) : (s.unbear w).soft = s.soft := by unfold State.unbear; (repeat' split) <;> simp
@[simp] theorem State.unbear_moved (s : State) (w : Who) : (s.unbear w).moved = s.moved := by unfold State.unbear; (repeat' split) <;> simp
@[simp] theorem State.unbear_free (s : State) (w : Who) : (s.unbear w).free = s.free := by unfold State.unbear; (repeat' split) <;> simp
@[simp] theorem State.unbear_itemNo (s : State) (w : Who) : (s.unbear w).itemNo = s.itemNo := by unfold State.unbear; (repeat' split) <;> simp
@[simp] theorem State.unbear_pending (s : State) (w : Who) : (s.unbear w).pending = s.pending := by unfold State.unbear; (repeat' split) <;> simp

@[simp] theorem State.raiseSaved_id (s : State) (c : Fin 5) (code detail : Nat) : (s.raiseSaved c code detail).id = s.id := by unfold State.raiseSaved; dsimp only; (repeat' split) <;> simp
@[simp] theorem State.raiseSaved_ticks (s : State) (c : Fin 5) (code detail : Nat) : (s.raiseSaved c code detail).ticks = s.ticks := by unfold State.raiseSaved; dsimp only; (repeat' split) <;> simp
@[simp] theorem State.raiseSaved_ts (s : State) (c : Fin 5) (code detail : Nat) : (s.raiseSaved c code detail).ts = s.ts := by unfold State.raiseSaved; dsimp only; (repeat' split) <;> simp
@[simp] theorem State.raiseSaved_tsRun (s : State) (c : Fin 5) (code detail : Nat) : (s.raiseSaved c code detail).tsRun = s.tsRun := by unfold State.raiseSaved; dsimp only; (repeat' split) <;> simp
@[simp] theorem State.raiseSaved_align (s : State) (c : Fin 5) (code detail : Nat) : (s.raiseSaved c code detail).align = s.align := by unfold State.raiseSaved; dsimp only; (repeat' split) <;> simp
@[simp] theorem State.raiseSaved_str (s : State) (c : Fin 5) (code detail : Nat) : (s.raiseSaved c code detail).str = s.str := by unfold State.raiseSaved; dsimp only; (repeat' split) <;> simp
@[simp] theorem State.raiseSaved_loam (s : State) (c : Fin 5) (code detail : Nat) : (s.raiseSaved c code detail).loam = s.loam := by unfold State.raiseSaved; dsimp only; (repeat' split) <;> simp
@[simp] theorem State.raiseSaved_err (s : State) (c : Fin 5) (code detail : Nat) : (s.raiseSaved c code detail).err = s.err := by unfold State.raiseSaved; dsimp only; (repeat' split) <;> simp
@[simp] theorem State.raiseSaved_syn (s : State) (c : Fin 5) (code detail : Nat) : (s.raiseSaved c code detail).syn = s.syn := by unfold State.raiseSaved; dsimp only; (repeat' split) <;> simp
@[simp] theorem State.raiseSaved_port (s : State) (c : Fin 5) (code detail : Nat) : (s.raiseSaved c code detail).port = s.port := by unfold State.raiseSaved; dsimp only; (repeat' split) <;> simp
@[simp] theorem State.raiseSaved_dma (s : State) (c : Fin 5) (code detail : Nat) : (s.raiseSaved c code detail).dma = s.dma := by unfold State.raiseSaved; dsimp only; (repeat' split) <;> simp
@[simp] theorem State.raiseSaved_msg (s : State) (c : Fin 5) (code detail : Nat) : (s.raiseSaved c code detail).msg = s.msg := by unfold State.raiseSaved; dsimp only; (repeat' split) <;> simp
@[simp] theorem State.raiseSaved_bq (s : State) (c : Fin 5) (code detail : Nat) : (s.raiseSaved c code detail).bq = s.bq := by unfold State.raiseSaved; dsimp only; (repeat' split) <;> simp
@[simp] theorem State.raiseSaved_pwr (s : State) (c : Fin 5) (code detail : Nat) : (s.raiseSaved c code detail).pwr = s.pwr := by unfold State.raiseSaved; dsimp only; (repeat' split) <;> simp
@[simp] theorem State.raiseSaved_mrl (s : State) (c : Fin 5) (code detail : Nat) : (s.raiseSaved c code detail).mrl = s.mrl := by unfold State.raiseSaved; dsimp only; (repeat' split) <;> simp
@[simp] theorem State.raiseSaved_latches (s : State) (c : Fin 5) (code detail : Nat) : (s.raiseSaved c code detail).latches = s.latches := by unfold State.raiseSaved; dsimp only; (repeat' split) <;> simp
@[simp] theorem State.raiseSaved_held (s : State) (c : Fin 5) (code detail : Nat) : (s.raiseSaved c code detail).held = s.held := by unfold State.raiseSaved; dsimp only; (repeat' split) <;> simp
@[simp] theorem State.raiseSaved_heldAon (s : State) (c : Fin 5) (code detail : Nat) : (s.raiseSaved c code detail).heldAon = s.heldAon := by unfold State.raiseSaved; dsimp only; (repeat' split) <;> simp
@[simp] theorem State.raiseSaved_damage (s : State) (c : Fin 5) (code detail : Nat) : (s.raiseSaved c code detail).damage = s.damage := by unfold State.raiseSaved; dsimp only; (repeat' split) <;> simp
@[simp] theorem State.raiseSaved_soft (s : State) (c : Fin 5) (code detail : Nat) : (s.raiseSaved c code detail).soft = s.soft := by unfold State.raiseSaved; dsimp only; (repeat' split) <;> simp
@[simp] theorem State.raiseSaved_moved (s : State) (c : Fin 5) (code detail : Nat) : (s.raiseSaved c code detail).moved = s.moved := by unfold State.raiseSaved; dsimp only; (repeat' split) <;> simp
@[simp] theorem State.raiseSaved_itemNo (s : State) (c : Fin 5) (code detail : Nat) : (s.raiseSaved c code detail).itemNo = s.itemNo := by unfold State.raiseSaved; dsimp only; (repeat' split) <;> simp
@[simp] theorem State.raiseSaved_pending (s : State) (c : Fin 5) (code detail : Nat) : (s.raiseSaved c code detail).pending = s.pending := by unfold State.raiseSaved; dsimp only; (repeat' split) <;> simp

@[simp] theorem State.raise_id (s : State) (w : Who) (code detail : Nat) : (s.raise w code detail).id = s.id := by unfold State.raise; (repeat' split) <;> simp
@[simp] theorem State.raise_ticks (s : State) (w : Who) (code detail : Nat) : (s.raise w code detail).ticks = s.ticks := by unfold State.raise; (repeat' split) <;> simp
@[simp] theorem State.raise_ts (s : State) (w : Who) (code detail : Nat) : (s.raise w code detail).ts = s.ts := by unfold State.raise; (repeat' split) <;> simp
@[simp] theorem State.raise_tsRun (s : State) (w : Who) (code detail : Nat) : (s.raise w code detail).tsRun = s.tsRun := by unfold State.raise; (repeat' split) <;> simp
@[simp] theorem State.raise_align (s : State) (w : Who) (code detail : Nat) : (s.raise w code detail).align = s.align := by unfold State.raise; (repeat' split) <;> simp
@[simp] theorem State.raise_str (s : State) (w : Who) (code detail : Nat) : (s.raise w code detail).str = s.str := by unfold State.raise; (repeat' split) <;> simp
@[simp] theorem State.raise_loam (s : State) (w : Who) (code detail : Nat) : (s.raise w code detail).loam = s.loam := by unfold State.raise; (repeat' split) <;> simp
@[simp] theorem State.raise_err (s : State) (w : Who) (code detail : Nat) : (s.raise w code detail).err = s.err := by unfold State.raise; (repeat' split) <;> simp
@[simp] theorem State.raise_syn (s : State) (w : Who) (code detail : Nat) : (s.raise w code detail).syn = s.syn := by unfold State.raise; (repeat' split) <;> simp
@[simp] theorem State.raise_port (s : State) (w : Who) (code detail : Nat) : (s.raise w code detail).port = s.port := by unfold State.raise; (repeat' split) <;> simp
@[simp] theorem State.raise_bq (s : State) (w : Who) (code detail : Nat) : (s.raise w code detail).bq = s.bq := by unfold State.raise; (repeat' split) <;> simp
@[simp] theorem State.raise_pwr (s : State) (w : Who) (code detail : Nat) : (s.raise w code detail).pwr = s.pwr := by unfold State.raise; (repeat' split) <;> simp
@[simp] theorem State.raise_mrl (s : State) (w : Who) (code detail : Nat) : (s.raise w code detail).mrl = s.mrl := by unfold State.raise; (repeat' split) <;> simp
@[simp] theorem State.raise_latches (s : State) (w : Who) (code detail : Nat) : (s.raise w code detail).latches = s.latches := by unfold State.raise; (repeat' split) <;> simp
@[simp] theorem State.raise_held (s : State) (w : Who) (code detail : Nat) : (s.raise w code detail).held = s.held := by unfold State.raise; (repeat' split) <;> simp
@[simp] theorem State.raise_heldAon (s : State) (w : Who) (code detail : Nat) : (s.raise w code detail).heldAon = s.heldAon := by unfold State.raise; (repeat' split) <;> simp
@[simp] theorem State.raise_damage (s : State) (w : Who) (code detail : Nat) : (s.raise w code detail).damage = s.damage := by unfold State.raise; (repeat' split) <;> simp
@[simp] theorem State.raise_soft (s : State) (w : Who) (code detail : Nat) : (s.raise w code detail).soft = s.soft := by unfold State.raise; (repeat' split) <;> simp
@[simp] theorem State.raise_moved (s : State) (w : Who) (code detail : Nat) : (s.raise w code detail).moved = s.moved := by unfold State.raise; (repeat' split) <;> simp
@[simp] theorem State.raise_itemNo (s : State) (w : Who) (code detail : Nat) : (s.raise w code detail).itemNo = s.itemNo := by unfold State.raise; (repeat' split) <;> simp
@[simp] theorem State.raise_pending (s : State) (w : Who) (code detail : Nat) : (s.raise w code detail).pending = s.pending := by unfold State.raise; (repeat' split) <;> simp


end Sys2Proof.Machine
end

