-- ==== Sys2Proof/Laws/Access.lean ====
section
/-! SUPPORT. Laws/Access.lean: cores, contexts, items and counters after an update; when a step of an agent on the fast clock is taken;
and the issue of an instruction. -/

namespace Sys2Proof.Machine

/-! ### Cores, contexts, items -/

@[simp] theorem State.core_setCore_self (s : State) (c : Nat) (x : Core) : (s.setCore c x).core c = x := tabGet_tabSet_self ..
theorem State.core_setCore_ne (s : State) {c d : Nat} (x : Core) (h : d ≠ c) : (s.setCore c x).core d = s.core d := tabGet_tabSet_ne _ _ _ h
@[simp] theorem State.core_modCore_self (s : State) (c : Nat) (f : Core → Core) : (s.modCore c f).core c = f (s.core c) := by
  simp [State.modCore]
theorem State.core_modCore_ne (s : State) {c d : Nat} (f : Core → Core) (h : d ≠ c) : (s.modCore c f).core d = s.core d :=
  State.core_setCore_ne s _ h

@[simp] theorem Core.ctx_setCtx_self (x : Core) (k : CtxKind) (y : Ctx) : (x.setCtx k y).ctx k = y := by cases k <;> rfl
theorem Core.ctx_setCtx_ne (x : Core) {k l : CtxKind} (y : Ctx) (h : l ≠ k) : (x.setCtx k y).ctx l = x.ctx l := by
  cases k <;> cases l <;> first | rfl | exact absurd rfl h

@[simp] theorem State.ctx_setCtx_self (s : State) (w : Who) (y : Ctx) : (s.setCtx w y).ctx w = y := by
  simp [State.setCtx, State.ctx]
theorem State.ctx_setCtx_ne (s : State) {w v : Who} (y : Ctx) (h : v ≠ w) : (s.setCtx w y).ctx v = s.ctx v := by
  unfold State.ctx State.setCtx
  by_cases e : v.core = w.core
  · rw [e, State.core_modCore_self]
    refine Core.ctx_setCtx_ne _ _ fun k => h ?_
    cases v; cases w; simp_all
  · rw [State.core_modCore_ne]
    intro k; exact e (Fin.ext k)

@[simp] theorem State.item_setCtx_self (s : State) (w : Who) (y : Ctx) : (s.setCtx w y).item w = y.item := by simp [State.item]
@[simp] theorem State.ctx_modItem_self (s : State) (w : Who) (f : Item → Item) :
    (s.modItem w f).ctx w = { s.ctx w with item := f (s.item w) } := by simp [State.modItem, State.setItem]
@[simp] theorem State.item_modItem_self (s : State) (w : Who) (f : Item → Item) : (s.modItem w f).item w = f (s.item w) := by
  simp [State.item]
theorem State.ctx_modItem_ne (s : State) {w v : Who} (f : Item → Item) (h : v ≠ w) : (s.modItem w f).ctx v = s.ctx v :=
  State.ctx_setCtx_ne s _ h

@[simp] theorem Core.setCtx_setCtx (x : Core) (k : CtxKind) (y z : Ctx) : (x.setCtx k y).setCtx k z = x.setCtx k z := by cases k <;> rfl
@[simp] theorem State.setCore_setCore (s : State) (c : Nat) (x y : Core) : (s.setCore c x).setCore c y = s.setCore c y := by
  simp [State.setCore]
@[simp] theorem State.setCtx_setCtx (s : State) (w : Who) (y z : Ctx) : (s.setCtx w y).setCtx w z = s.setCtx w z := by
  simp [State.setCtx, State.modCore]
/-- Two changes of an item are one. -/
theorem State.modItem_modItem (s : State) (w : Who) (f g : Item → Item) : (s.modItem w f).modItem w g = s.modItem w fun i => g (f i) := by
  simp [State.modItem, State.setItem]

/-- A change of a core that leaves its contexts alone. -/
theorem State.ctx_modCore_of (s : State) {c : Nat} {f : Core → Core} (h : ∀ x, (f x).cmd = x.cmd ∧ (f x).hdl = x.hdl) (v : Who) :
    (s.modCore c f).ctx v = s.ctx v := by
  unfold State.ctx
  by_cases e : v.core.val = c
  · rw [e, State.core_modCore_self]
    cases v.ctx
    · exact (h _).1
    · exact (h _).2
  · rw [State.core_modCore_ne _ _ e]

@[simp] theorem State.ctx_idleAnew (s : State) (c : Nat) (v : Who) : (s.modCore c fun x => { x with idleTicks := 0 }).ctx v = s.ctx v :=
  State.ctx_modCore_of s (f := fun x => { x with idleTicks := 0 }) (fun _ => ⟨rfl, rfl⟩) v

@[simp] theorem State.lastFault_idleAnew (s : State) (c d : Nat) :
    ((s.modCore c fun x => { x with idleTicks := 0 }).core d).lastFault = (s.core d).lastFault := by
  by_cases e : d = c
  · subst e; rw [State.core_modCore_self]
  · rw [State.core_modCore_ne _ _ e]

/-- A change of contexts leaves everything else of every core alone. -/
theorem Core.setCtx_rest (x : Core) (k : CtxKind) (y : Ctx) : { x.setCtx k y with cmd := x.cmd, hdl := x.hdl } = x := by cases k <;> rfl

@[simp] theorem State.core_send (s : State) (o : Output) (c : Nat) : (s.send o).core c = s.core c := by simp [State.core]
@[simp] theorem State.ctx_send (s : State) (o : Output) (w : Who) : (s.send o).ctx w = s.ctx w := by simp [State.ctx]
@[simp] theorem State.item_send (s : State) (o : Output) (w : Who) : (s.send o).item w = s.item w := by simp [State.item]
@[simp] theorem State.core_activate (s : State) (c : Nat) : (s.activate).core c = s.core c := by simp [State.core]
@[simp] theorem State.ctx_activate (s : State) (w : Who) : (s.activate).ctx w = s.ctx w := by simp [State.ctx]
@[simp] theorem State.item_activate (s : State) (w : Who) : (s.activate).item w = s.item w := by simp [State.item]
@[simp] theorem State.core_bin (s : State) (b : Nat) (k : Nat) (c : Nat) : (s.bin b k).core c = s.core c := by simp [State.core]
@[simp] theorem State.ctx_bin (s : State) (b : Nat) (k : Nat) (w : Who) : (s.bin b k).ctx w = s.ctx w := by simp [State.ctx]
@[simp] theorem State.item_bin (s : State) (b : Nat) (k : Nat) (w : Who) : (s.bin b k).item w = s.item w := by simp [State.item]
@[simp] theorem State.core_modCtr (s : State) (f : Ctrs → Ctrs) (c : Nat) : (s.modCtr f).core c = s.core c := by simp [State.core]
@[simp] theorem State.ctx_modCtr (s : State) (f : Ctrs → Ctrs) (w : Who) : (s.modCtr f).ctx w = s.ctx w := by simp [State.ctx]
@[simp] theorem State.item_modCtr (s : State) (f : Ctrs → Ctrs) (w : Who) : (s.modCtr f).item w = s.item w := by simp [State.item]
@[simp] theorem State.core_emit (s : State) (cls : Nat) (sub : SubEv) (who : Nat) (size : Nat) (vals : List Nat) (c : Nat) : (s.emit cls sub who size vals).core c = s.core c := by simp [State.core]
@[simp] theorem State.ctx_emit (s : State) (cls : Nat) (sub : SubEv) (who : Nat) (size : Nat) (vals : List Nat) (w : Who) : (s.emit cls sub who size vals).ctx w = s.ctx w := by simp [State.ctx]
@[simp] theorem State.item_emit (s : State) (cls : Nat) (sub : SubEv) (who : Nat) (size : Nat) (vals : List Nat) (w : Who) : (s.emit cls sub who size vals).item w = s.item w := by simp [State.item]
@[simp] theorem State.core_logFault (s : State) (code : Nat) (core : Nat) (hdl : Bool) (borne : Bool) (detail : Nat) (c : Nat) : (s.logFault code core hdl borne detail).core c = s.core c := by simp [State.core]
@[simp] theorem State.ctx_logFault (s : State) (code : Nat) (core : Nat) (hdl : Bool) (borne : Bool) (detail : Nat) (w : Who) : (s.logFault code core hdl borne detail).ctx w = s.ctx w := by simp [State.ctx]
@[simp] theorem State.item_logFault (s : State) (code : Nat) (core : Nat) (hdl : Bool) (borne : Bool) (detail : Nat) (w : Who) : (s.logFault code core hdl borne detail).item w = s.item w := by simp [State.item]
@[simp] theorem State.core_logOnly (s : State) (code : Nat) (detail : Nat) (c : Nat) : (s.logOnly code detail).core c = s.core c := by simp [State.core]
@[simp] theorem State.ctx_logOnly (s : State) (code : Nat) (detail : Nat) (w : Who) : (s.logOnly code detail).ctx w = s.ctx w := by simp [State.ctx]
@[simp] theorem State.item_logOnly (s : State) (code : Nat) (detail : Nat) (w : Who) : (s.logOnly code detail).item w = s.item w := by simp [State.item]
@[simp] theorem State.core_setSc (s : State) (n : Nat) (v : Word32) (c : Nat) : (s.setSc n v).core c = s.core c := by simp [State.core]
@[simp] theorem State.ctx_setSc (s : State) (n : Nat) (v : Word32) (w : Who) : (s.setSc n v).ctx w = s.ctx w := by simp [State.ctx]
@[simp] theorem State.item_setSc (s : State) (n : Nat) (v : Word32) (w : Who) : (s.setSc n v).item w = s.item w := by simp [State.item]
@[simp] theorem State.core_addSc (s : State) (n : Nat) (v : Word32) (c : Nat) : (s.addSc n v).core c = s.core c := by simp [State.core]
@[simp] theorem State.ctx_addSc (s : State) (n : Nat) (v : Word32) (w : Who) : (s.addSc n v).ctx w = s.ctx w := by simp [State.ctx]
@[simp] theorem State.item_addSc (s : State) (n : Nat) (v : Word32) (w : Who) : (s.addSc n v).item w = s.item w := by simp [State.item]
@[simp] theorem State.core_arriveSc (s : State) (n : Nat) (v : Word32) (who : Nat) (c : Nat) : (s.arriveSc n v who).core c = s.core c := by simp [State.core]
@[simp] theorem State.ctx_arriveSc (s : State) (n : Nat) (v : Word32) (who : Nat) (w : Who) : (s.arriveSc n v who).ctx w = s.ctx w := by simp [State.ctx]
@[simp] theorem State.item_arriveSc (s : State) (n : Nat) (v : Word32) (who : Nat) (w : Who) : (s.arriveSc n v who).item w = s.item w := by simp [State.item]
@[simp] theorem State.core_recordUe (s : State) (store : Nat) (core : Nat) (vb : Nat) (addr : Nat) (port : Nat) (c : Nat) : (s.recordUe store core vb addr port).core c = s.core c := by simp [State.core]
@[simp] theorem State.ctx_recordUe (s : State) (store : Nat) (core : Nat) (vb : Nat) (addr : Nat) (port : Nat) (w : Who) : (s.recordUe store core vb addr port).ctx w = s.ctx w := by simp [State.ctx]
@[simp] theorem State.item_recordUe (s : State) (store : Nat) (core : Nat) (vb : Nat) (addr : Nat) (port : Nat) (w : Who) : (s.recordUe store core vb addr port).item w = s.item w := by simp [State.item]
@[simp] theorem State.core_countLoamCe (s : State) (sector : Nat) (k : Nat) (c : Nat) : (s.countLoamCe sector k).core c = s.core c := by simp [State.core]
@[simp] theorem State.ctx_countLoamCe (s : State) (sector : Nat) (k : Nat) (w : Who) : (s.countLoamCe sector k).ctx w = s.ctx w := by simp [State.ctx]
@[simp] theorem State.item_countLoamCe (s : State) (sector : Nat) (k : Nat) (w : Who) : (s.countLoamCe sector k).item w = s.item w := by simp [State.item]
@[simp] theorem State.core_countKaoCe (s : State) (c : Nat) (k : Nat) (j : Nat) : (s.countKaoCe c k).core j = s.core j := by simp [State.core]
@[simp] theorem State.ctx_countKaoCe (s : State) (c : Nat) (k : Nat) (w : Who) : (s.countKaoCe c k).ctx w = s.ctx w := by simp [State.ctx]
@[simp] theorem State.item_countKaoCe (s : State) (c : Nat) (k : Nat) (w : Who) : (s.countKaoCe c k).item w = s.item w := by simp [State.item]
@[simp] theorem State.core_requestSnap (s : State) (cause : Nat) (fault : Nat) (origin : Nat) (c : Nat) : (s.requestSnap cause fault origin).core c = s.core c := by simp [State.core]
@[simp] theorem State.ctx_requestSnap (s : State) (cause : Nat) (fault : Nat) (origin : Nat) (w : Who) : (s.requestSnap cause fault origin).ctx w = s.ctx w := by simp [State.ctx]
@[simp] theorem State.item_requestSnap (s : State) (cause : Nat) (fault : Nat) (origin : Nat) (w : Who) : (s.requestSnap cause fault origin).item w = s.item w := by simp [State.item]
@[simp] theorem State.core_askSnap (s : State) (cause : Nat) (fault : Nat) (c : Nat) : (s.askSnap cause fault).core c = s.core c := by simp [State.core]
@[simp] theorem State.ctx_askSnap (s : State) (cause : Nat) (fault : Nat) (w : Who) : (s.askSnap cause fault).ctx w = s.ctx w := by simp [State.ctx]
@[simp] theorem State.item_askSnap (s : State) (cause : Nat) (fault : Nat) (w : Who) : (s.askSnap cause fault).item w = s.item w := by simp [State.item]
@[simp] theorem State.core_dropTxn (s : State) (id : Nat) (c : Nat) : (s.dropTxn id).core c = s.core c := by simp [State.core]
@[simp] theorem State.ctx_dropTxn (s : State) (id : Nat) (w : Who) : (s.dropTxn id).ctx w = s.ctx w := by simp [State.ctx]
@[simp] theorem State.item_dropTxn (s : State) (id : Nat) (w : Who) : (s.dropTxn id).item w = s.item w := by simp [State.item]
@[simp] theorem State.core_setRing (s : State) (c : Nat) (r : Nat) (x : Ring) (k : Nat) : (s.setRing c r x).core k = s.core k := by simp [State.core]
@[simp] theorem State.ctx_setRing (s : State) (c : Nat) (r : Nat) (x : Ring) (w : Who) : (s.setRing c r x).ctx w = s.ctx w := by simp [State.ctx]
@[simp] theorem State.item_setRing (s : State) (c : Nat) (r : Nat) (x : Ring) (w : Who) : (s.setRing c r x).item w = s.item w := by simp [State.item]
@[simp] theorem State.core_setCredit (s : State) (dest : Nat) (c : Credit) (k : Nat) : (s.setCredit dest c).core k = s.core k := by simp [State.core]
@[simp] theorem State.ctx_setCredit (s : State) (dest : Nat) (c : Credit) (w : Who) : (s.setCredit dest c).ctx w = s.ctx w := by simp [State.ctx]
@[simp] theorem State.item_setCredit (s : State) (dest : Nat) (c : Credit) (w : Who) : (s.setCredit dest c).item w = s.item w := by simp [State.item]
@[simp] theorem State.core_setPace (s : State) (node : Nat) (p : Pace) (c : Nat) : (s.setPace node p).core c = s.core c := by simp [State.core]
@[simp] theorem State.ctx_setPace (s : State) (node : Nat) (p : Pace) (w : Who) : (s.setPace node p).ctx w = s.ctx w := by simp [State.ctx]
@[simp] theorem State.item_setPace (s : State) (node : Nat) (p : Pace) (w : Who) : (s.setPace node p).item w = s.item w := by simp [State.item]
@[simp] theorem State.core_setSlot (s : State) (n : Nat) (x : Slot) (c : Nat) : (s.setSlot n x).core c = s.core c := by simp [State.core]
@[simp] theorem State.ctx_setSlot (s : State) (n : Nat) (x : Slot) (w : Who) : (s.setSlot n x).ctx w = s.ctx w := by simp [State.ctx]
@[simp] theorem State.item_setSlot (s : State) (n : Nat) (x : Slot) (w : Who) : (s.setSlot n x).item w = s.item w := by simp [State.item]
@[simp] theorem State.core_setChan (s : State) (ch : Nat) (c : Channel) (k : Nat) : (s.setChan ch c).core k = s.core k := by simp [State.core]
@[simp] theorem State.ctx_setChan (s : State) (ch : Nat) (c : Channel) (w : Who) : (s.setChan ch c).ctx w = s.ctx w := by simp [State.ctx]
@[simp] theorem State.item_setChan (s : State) (ch : Nat) (c : Channel) (w : Who) : (s.setChan ch c).item w = s.item w := by simp [State.item]
@[simp] theorem State.core_modDesc (s : State) (ch : Nat) (no : Nat) (f : DescRun → DescRun) (c : Nat) : (s.modDesc ch no f).core c = s.core c := by simp [State.core]
@[simp] theorem State.ctx_modDesc (s : State) (ch : Nat) (no : Nat) (f : DescRun → DescRun) (w : Who) : (s.modDesc ch no f).ctx w = s.ctx w := by simp [State.ctx]
@[simp] theorem State.item_modDesc (s : State) (ch : Nat) (no : Nat) (f : DescRun → DescRun) (w : Who) : (s.modDesc ch no f).item w = s.item w := by simp [State.item]
@[simp] theorem State.core_setBq (s : State) (q : Nat) (b : BatchQ) (c : Nat) : (s.setBq q b).core c = s.core c := by simp [State.core]
@[simp] theorem State.ctx_setBq (s : State) (q : Nat) (b : BatchQ) (w : Who) : (s.setBq q b).ctx w = s.ctx w := by simp [State.ctx]
@[simp] theorem State.item_setBq (s : State) (q : Nat) (b : BatchQ) (w : Who) : (s.setBq q b).item w = s.item w := by simp [State.item]
@[simp] theorem State.core_setLatch (s : State) (a : Acc) (off : Nat) (l : Latch) (c : Nat) : (s.setLatch a off l).core c = s.core c := by simp [State.core]
@[simp] theorem State.ctx_setLatch (s : State) (a : Acc) (off : Nat) (l : Latch) (w : Who) : (s.setLatch a off l).ctx w = s.ctx w := by simp [State.ctx]
@[simp] theorem State.item_setLatch (s : State) (a : Acc) (off : Nat) (l : Latch) (w : Who) : (s.setLatch a off l).item w = s.item w := by simp [State.item]
@[simp] theorem State.core_queueStatus (s : State) (r : CreditRet) (fault : Nat) (kind : Nat) (c : Nat) : (s.queueStatus r fault kind).core c = s.core c := by simp [State.core]
@[simp] theorem State.ctx_queueStatus (s : State) (r : CreditRet) (fault : Nat) (kind : Nat) (w : Who) : (s.queueStatus r fault kind).ctx w = s.ctx w := by simp [State.ctx]
@[simp] theorem State.item_queueStatus (s : State) (r : CreditRet) (fault : Nat) (kind : Nat) (w : Who) : (s.queueStatus r fault kind).item w = s.item w := by simp [State.item]
@[simp] theorem State.core_setPower (s : State) (p : PState) (c : Nat) : (s.setPower p).core c = s.core c := by simp [State.core]
@[simp] theorem State.ctx_setPower (s : State) (p : PState) (w : Who) : (s.setPower p).ctx w = s.ctx w := by simp [State.ctx]
@[simp] theorem State.item_setPower (s : State) (p : PState) (w : Who) : (s.setPower p).item w = s.item w := by simp [State.item]
@[simp] theorem State.core_dropCache (s : State) (c : Nat) : (s.dropCache).core c = s.core c := by simp [State.core]
@[simp] theorem State.ctx_dropCache (s : State) (w : Who) : (s.dropCache).ctx w = s.ctx w := by simp [State.ctx]
@[simp] theorem State.item_dropCache (s : State) (w : Who) : (s.dropCache).item w = s.item w := by simp [State.item]
@[simp] theorem State.core_doneArrive (s : State) (w : Who) (c : Nat) : (s.doneArrive w).core c = s.core c := by simp [State.core]
@[simp] theorem State.ctx_doneArrive (s : State) (w : Who) (v : Who) : (s.doneArrive w).ctx v = s.ctx v := by simp [State.ctx]
@[simp] theorem State.item_doneArrive (s : State) (w : Who) (v : Who) : (s.doneArrive w).item v = s.item v := by simp [State.item]
@[simp] theorem State.core_poisonSectors (s : State) (l : List Nat) (c : Nat) : (s.poisonSectors l).core c = s.core c := by simp [State.core]
@[simp] theorem State.ctx_poisonSectors (s : State) (l : List Nat) (w : Who) : (s.poisonSectors l).ctx w = s.ctx w := by simp [State.ctx]
@[simp] theorem State.item_poisonSectors (s : State) (l : List Nat) (w : Who) : (s.poisonSectors l).item w = s.item w := by simp [State.item]
@[simp] theorem State.core_pulse (s : State) (n : Nat) (c : Nat) : (s.pulse n).core c = s.core c := by simp [State.core]
@[simp] theorem State.ctx_pulse (s : State) (n : Nat) (w : Who) : (s.pulse n).ctx w = s.ctx w := by simp [State.ctx]
@[simp] theorem State.item_pulse (s : State) (n : Nat) (w : Who) : (s.pulse n).item w = s.item w := by simp [State.item]
@[simp] theorem State.core_noteHead (s : State) (ch : Nat) (c : Nat) : (s.noteHead ch).core c = s.core c := by simp [State.core]
@[simp] theorem State.ctx_noteHead (s : State) (ch : Nat) (w : Who) : (s.noteHead ch).ctx w = s.ctx w := by simp [State.ctx]
@[simp] theorem State.item_noteHead (s : State) (ch : Nat) (w : Who) : (s.noteHead ch).item w = s.item w := by simp [State.item]
@[simp] theorem State.core_startWake (s : State) (c : Nat) : (s.startWake).core c = s.core c := by simp [State.core]
@[simp] theorem State.ctx_startWake (s : State) (w : Who) : (s.startWake).ctx w = s.ctx w := by simp [State.ctx]
@[simp] theorem State.item_startWake (s : State) (w : Who) : (s.startWake).item w = s.item w := by simp [State.item]
@[simp] theorem State.core_enter (s : State) (t : RecType) (body : List Byte) (c : Nat) : (s.enter t body).core c = s.core c := by simp [State.core]
@[simp] theorem State.ctx_enter (s : State) (t : RecType) (body : List Byte) (w : Who) : (s.enter t body).ctx w = s.ctx w := by simp [State.ctx]
@[simp] theorem State.item_enter (s : State) (t : RecType) (body : List Byte) (w : Who) : (s.enter t body).item w = s.item w := by simp [State.item]

theorem State.ctx_of_cores {s t : State} (h : s.cores = t.cores) (v : Who) : s.ctx v = t.ctx v := by simp [State.ctx, State.core, h]

@[simp] theorem State.ctx_noteFault (s : State) (c code : Nat) (h : Hdr) (v : Who) : (s.noteFault c code h).ctx v = s.ctx v := by
  apply State.ctx_modCore_of
  intro x
  exact ⟨rfl, rfl⟩
@[simp] theorem State.item_noteFault (s : State) (c code : Nat) (h : Hdr) (v : Who) : (s.noteFault c code h).item v = s.item v := by
  simp [State.item]
@[simp] theorem State.ctx_undefVec (s : State) (c : Nat) (v : Who) : (s.undefVec c).ctx v = s.ctx v :=
  State.ctx_modCore_of s (f := fun x => { x with
      masks := (List.range 512).map fun i => (i, Config.freeWord64 (s.free + i))
      stats := (List.range 1024).map fun i => (i, Config.freeWord (s.free + 512 + i)) }) (fun _ => ⟨rfl, rfl⟩) v
@[simp] theorem State.ctx_stopEngines (s : State) (w v : Who) : (s.stopEngines w).ctx v = s.ctx v := by
  unfold State.stopEngines
  extract_lets c no mine t m u
  have ht : t.ctx v = s.ctx v := by
    apply State.ctx_modCore_of
    intro x
    exact ⟨rfl, rfl⟩
  have hu : u.ctx v = t.ctx v := State.ctx_of_cores rfl v
  clear_value t u
  split
  · rw [State.ctx_undefVec, hu, ht]
  · rw [hu, ht]
@[simp] theorem State.item_stopEngines (s : State) (w v : Who) : (s.stopEngines w).item v = s.item v := by simp [State.item]

/-! ### Work and advance -/

@[simp] theorem State.core_work (s : State) (e no c : Nat) : (s.work e no).core c = s.core c := by simp [State.core]
@[simp] theorem State.ctx_work (s : State) (e no : Nat) (w : Who) : (s.work e no).ctx w = s.ctx w := by simp [State.ctx]
@[simp] theorem State.item_work (s : State) (e no : Nat) (w : Who) : (s.work e no).item w = s.item w := by simp [State.item]

@[simp] theorem State.core_issues (s : State) (w : Who) (c : Nat) : (s.issues w).core c = s.core c := by simp [State.core]
@[simp] theorem State.ctx_issues (s : State) (w v : Who) : (s.issues w).ctx v = s.ctx v := by simp [State.ctx]
@[simp] theorem State.item_issues (s : State) (w v : Who) : (s.issues w).item v = s.item v := by simp [State.item]

/-- What is left of an item when it goes on behind an instruction. -/
def Item.gone (i : Item) (len : Nat) : Item :=
  { i with off := i.off + len, blocked := none, inProgress := false, sendWaits := false, chain := none, loadRun := 0 }

@[simp] theorem State.ctx_advance_self (s : State) (w : Who) (len : Nat) :
    (s.advance w len).ctx w = { s.ctx w with item := (s.item w).gone len } := by simp [State.advance, Item.gone]
@[simp] theorem State.item_advance_self (s : State) (w : Who) (len : Nat) : (s.advance w len).item w = (s.item w).gone len := by
  simp [State.item]
theorem State.ctx_advance_ne (s : State) {w v : Who} (len : Nat) (h : v ≠ w) : (s.advance w len).ctx v = s.ctx v := by
  simp [State.advance, State.ctx_modItem_ne _ _ h]

@[simp] theorem State.core_advanceVec (s : State) (w : Who) (len c : Nat) : (s.advanceVec w len).core c = (s.advance w len).core c := by
  simp [State.advanceVec]
@[simp] theorem State.ctx_advanceVec (s : State) (w v : Who) (len : Nat) : (s.advanceVec w len).ctx v = (s.advance w len).ctx v := by
  simp [State.advanceVec]
@[simp] theorem State.item_advanceVec (s : State) (w v : Who) (len : Nat) : (s.advanceVec w len).item v = (s.advance w len).item v := by
  simp [State.advanceVec]

@[simp] theorem Item.gone_off (i : Item) (n : Nat) : (i.gone n).off = i.off + n := rfl
@[simp] theorem Item.gone_no (i : Item) (n : Nat) : (i.gone n).no = i.no := rfl
@[simp] theorem Item.gone_hdr (i : Item) (n : Nat) : (i.gone n).hdr = i.hdr := rfl
@[simp] theorem Item.gone_addr (i : Item) (n : Nat) : (i.gone n).addr = i.addr := rfl
@[simp] theorem Item.gone_sregs (i : Item) (n : Nat) : (i.gone n).sregs = i.sregs := rfl
@[simp] theorem Item.gone_pend (i : Item) (n : Nat) : (i.gone n).pend = i.pend := rfl
@[simp] theorem Item.gone_abort (i : Item) (n : Nat) : (i.gone n).abort = i.abort := rfl
@[simp] theorem Item.gone_record (i : Item) (n : Nat) : (i.gone n).record = i.record := rfl
@[simp] theorem Item.gone_blocked (i : Item) (n : Nat) : (i.gone n).blocked = none := rfl
@[simp] theorem Item.gone_ending (i : Item) (n : Nat) : (i.gone n).ending = i.ending := rfl
@[simp] theorem Item.gone_reg (i : Item) (n r : Nat) : (i.gone n).reg r = i.reg r := rfl

@[simp] theorem Item.bears_abort (i : Item) (code tick : Nat) : (i.bears code tick).abort =
    some { fault := code, tick := i.boreAt tick, was := i.waitedAt, seen := i.seenFaults } := rfl
theorem Item.boreAt_of_none {i : Item} (h : i.abort = none) (tick : Nat) : i.boreAt tick = tick := by simp [Item.boreAt, h]
theorem Item.seenFaults_of_none {i : Item} (h : i.abort = none) : i.seenFaults = [] := by simp [Item.seenFaults, h]
theorem Item.boreAt_of_some {i : Item} {a : Abort} (h : i.abort = some a) (tick : Nat) : i.boreAt tick = a.tick := by simp [Item.boreAt, h]
theorem Item.seenFaults_of_some {i : Item} {a : Abort} (h : i.abort = some a) : i.seenFaults = a.seen := by simp [Item.seenFaults, h]
@[simp] theorem Item.bears_record (i : Item) (code tick : Nat) : (i.bears code tick).record = { i.record with fault := code, aborted := true } := rfl
@[simp] theorem Item.bears_pend (i : Item) (code tick : Nat) : (i.bears code tick).pend = .none := rfl
@[simp] theorem Item.bears_hdr (i : Item) (code tick : Nat) : (i.bears code tick).hdr = i.hdr := rfl
@[simp] theorem Item.bears_no (i : Item) (code tick : Nat) : (i.bears code tick).no = i.no := rfl
@[simp] theorem Item.bears_addr (i : Item) (code tick : Nat) : (i.bears code tick).addr = i.addr := rfl
@[simp] theorem Item.bears_off (i : Item) (code tick : Nat) : (i.bears code tick).off = i.off := rfl
@[simp] theorem Item.bears_sregs (i : Item) (code tick : Nat) : (i.bears code tick).sregs = i.sregs := rfl

/-- The item of a context after the abort begins (R147). -/
theorem State.ctx_beginAbort (s : State) (w : Who) (code : Nat) : (s.beginAbort w code).ctx w =
    { phase := .aborting, item := (s.item w).bears code s.ticks } := by
  simp [State.beginAbort, State.markAbort]

/-- A fault against an item that can bear it begins its abort (R147, R258). -/
theorem State.ctx_raise {s : State} {w : Who} (h : (s.ctx w).canBear = true) (code detail : Nat) : (s.raise w code detail).ctx w =
    { phase := .aborting, item := (s.item w).bears code s.ticks } := by
  simp [State.raise, h, State.ctx_beginAbort]

/-- An item that can issue can bear a fault. -/
theorem Ctx.canBear_of_canIssue {x : Ctx} (h : x.canIssue = true) : x.canBear = true := by
  simp only [Ctx.canIssue, Bool.and_eq_true, Bool.or_eq_true] at h
  simp only [Ctx.canBear, Bool.and_eq_true, Bool.or_eq_true]
  exact ⟨.inl (h.1.1.1.imp id And.left), h.1.2⟩

/-! ### Steps -/

/-- What the fast clock needs: the cluster is not in Off. -/
theorem State.agentsOn_on {s : State} (h : s.agentsOn = true) : s.pwr.state ≠ .off := by
  intro e
  simp [State.agentsOn, State.clockOn, e] at h

theorem State.fastOn_agents {s : State} (h : s.fastOn = true) : s.agentsOn = true := by
  simp only [State.fastOn, Bool.and_eq_true] at h
  exact h.1

/-- With no field of the live image damaged, no lookup waits (R265). -/
theorem State.fastOn_waits {s : State} (h : s.fastOn = true) (l : List ImgField) : s.waitsOn l = false := by
  simp only [State.fastOn, Bool.and_eq_true, Bool.not_eq_true', State.waitsOn, List.any_eq_false] at h
  simp only [State.waitsOn, List.any_eq_false]
  intro f _
  refine h.2 f ?_
  cases f <;> simp [imgFields]

theorem State.fastOn_on {s : State} (h : s.fastOn = true) : s.pwr.state ≠ .off := State.agentsOn_on (State.fastOn_agents h)

@[simp] theorem State.row_on {s : State} {f : State → State} (h : s.pwr.state ≠ .off) : s.row f = .next (f s) := by simp [State.row, h]

theorem State.fast_some {s t : State} {f : State → Option State} {l : List ImgField} (h : s.fastOn = true) (e : f s = some t) :
    s.fast f l = t.activate := by
  simp [State.fast, State.fastOn_agents h, State.fastOn_waits h, e]

theorem State.fast_none {s : State} {f : State → Option State} {l : List ImgField} (e : f s = none) : s.fast f l = s := by
  simp [State.fast, e]

/-- A step whose lookup of the live image waits changes nothing (R265). -/
theorem State.fast_waits {s : State} {f : State → Option State} {l : List ImgField} (h : s.waitsOn l = true) : s.fast f l = s := by
  simp [State.fast, h]

/-- An instruction that issues does what its row says. -/
theorem State.issue_some {s t u : State} {w : Who} {o : Op} {len : Nat} {f : Op → Nat → State → Option State}
    (h : s.Issues w t o len) (e : f o len t = some u) : s.issue w f = u.activate := by
  refine State.fast_some h.fast ?_
  have hw := fun l => State.fastOn_waits h.fast l
  simp [h.ready, h.whole, h.fetched, e, hw]

/-- An instruction that waits changes nothing. -/
theorem State.issue_none {s t : State} {w : Who} {o : Op} {len : Nat} {f : Op → Nat → State → Option State}
    (h : s.Issues w t o len) (e : f o len t = none) : s.issue w f = s := by
  refine State.fast_none ?_
  simp [h.ready, h.whole, h.fetched, e]

/-- An illegal instruction aborts the item with CMD_OPCODE (R150). -/
theorem State.issue_illegal {s t : State} {w : Who} {f : Op → Nat → State → Option State} (h : s.fastOn = true)
    (hc : (s.ctx w).canIssue = true) (hd : Damage.item w ∉ s.damage) (e : s.fetch w = (t, .illegal)) :
    s.issue w f = (t.raise w 0x0702 (s.item w).off).activate := by
  refine State.fast_some h ?_
  simp [hc, hd, e]

/-! ### Rows -/

theorem State.row_issue {s t u : State} {w : Who} {o : Op} {len : Nat} {f : Op → Nat → State → Option State}
    (h : s.Issues w t o len) (e : f o len t = some u) : s.row (fun s => s.issue w f) = .next u.activate := by
  rw [State.row_on (State.fastOn_on h.fast), State.issue_some h e]

theorem State.row_issue_none {s t : State} {w : Who} {o : Op} {len : Nat} {f : Op → Nat → State → Option State}
    (h : s.Issues w t o len) (e : f o len t = none) : s.row (fun s => s.issue w f) = .next s := by
  rw [State.row_on (State.fastOn_on h.fast), State.issue_none h e]

theorem State.row_fast {s t : State} {f : State → Option State} {l : List ImgField} (h : s.fastOn = true) (e : f s = some t) :
    s.row (fun s => s.fast f l) = .next t.activate := by
  rw [State.row_on (State.fastOn_on h), State.fast_some h e]

theorem State.row_fast_none {s : State} {f : State → Option State} {l : List ImgField} (e : f s = none) :
    s.row (fun s => s.fast f l) = .next s := by
  simp [State.row, State.fast_none e]

theorem State.row_stay {s t : State} {f : State → Option State} (h : s.pwr.state ≠ .off) (e : f s = some t) :
    s.row (fun s => s.orStay (f s)) = .next t := by
  simp [State.row_on h, State.orStay, e]

theorem State.row_stay_none {s : State} {f : State → Option State} (e : f s = none) : s.row (fun s => s.orStay (f s)) = .next s := by
  simp [State.row, State.orStay, e]

end Sys2Proof.Machine
end

