-- ==== Sys2Proof/Laws/Fetch.lean ====
section
/-! SUPPORT. Laws/Fetch.lean: what a read of Loam, and so the fetch of an instruction, changes: corrected or poisoned words, the error
registers and counts; nothing where Loam holds no upset. -/

namespace Sys2Proof.Machine

/-- Only Loam, the error registers, counters and telemetry differ. -/
def Touched (s t : State) : Prop := ∃ l e k x, t = { s with loam := l, err := e, ctr := k, tel := x }

theorem Touched.refl (s : State) : Touched s s := ⟨_, _, _, _, rfl⟩

theorem Touched.trans {s t u : State} (h : Touched s t) (g : Touched t u) : Touched s u := by
  obtain ⟨_, _, _, _, rfl⟩ := h
  obtain ⟨_, _, _, _, rfl⟩ := g
  exact ⟨_, _, _, _, rfl⟩

theorem Touched.countLoamCe (s : State) (k n : Nat) : Touched s (s.countLoamCe k n) := by
  unfold State.countLoamCe
  split
  · exact Touched.refl s
  · exact ⟨_, _, _, _, rfl⟩

theorem Touched.recordUe (s : State) (a b c d e : Nat) : Touched s (s.recordUe a b c d e) := by
  unfold State.recordUe
  dsimp only
  split <;> exact ⟨_, _, _, _, rfl⟩

theorem Touched.noteLoam (s : State) (p : Nat) (x : UnitNote) : Touched s (s.noteLoam p x) := by
  have h := Touched.countLoamCe s x.1 x.2.2
  unfold State.noteLoam
  dsimp only
  split
  · exact h.trans (Touched.recordUe _ _ _ _ _ _)
  · exact h

theorem Touched.noteAll (p : Nat) (l : List UnitNote) : ∀ s : State, Touched s (l.foldl (fun t x => t.noteLoam p x) s) := by
  induction l with
  | nil => exact Touched.refl
  | cons x l ih => exact fun s => (Touched.noteLoam s p x).trans (ih _)

theorem Touched.loamSector (s : State) (p k : Nat) : Touched s (s.loamSector p k).1 :=
  Touched.trans ⟨_, _, _, _, rfl⟩ (Touched.noteLoam { s with loam := (s.loam.touch 64 k).1 } _ _)

theorem Touched.loamWrite (s : State) (p a : Nat) (bs : List Byte) : Touched s (s.loamWrite p a bs).1 :=
  Touched.trans ⟨_, _, _, _, rfl⟩ (Touched.noteAll _ _ { s with loam := (s.loam.writeRange 64 (bs.length + 1) a bs).1 })

theorem Touched.loamRead (s : State) (p a n : Nat) : Touched s (s.loamRead p a n).1 := by
  have key : ∀ (l : List Nat) (acc : State × Nat), Touched acc.1 (l.foldl (fun (acc : State × Nat) k =>
      let q := acc.1.loamSector p k
      (q.1, worstFault acc.2 (loamTouchFault q.2))) acc).1 := by
    intro l
    induction l with
    | nil => intro acc; exact Touched.refl _
    | cons k l ih => intro acc; exact (Touched.loamSector _ _ _).trans (ih _)
  exact key _ (s, 0)

/-- A fetch reads Loam and does nothing else. -/
theorem Touched.fetch (s : State) (w : Who) : Touched s (s.fetch w).1 := by
  unfold State.fetch
  dsimp only
  split
  · exact Touched.refl s
  · have h := Touched.loamRead s (corePort w.core.val) ((s.item w).addr + (s.item w).off) 16
    split
    · exact h
    · have g := fun n => h.trans (Touched.loamRead _ (corePort w.core.val) ((s.item w).addr + (s.item w).off) n)
      split
      · exact g _
      · split <;> exact g _

theorem Touched.id {s t : State} (h : Touched s t) : t.id = s.id := by obtain ⟨_, _, _, _, rfl⟩ := h; rfl
theorem Touched.ticks {s t : State} (h : Touched s t) : t.ticks = s.ticks := by obtain ⟨_, _, _, _, rfl⟩ := h; rfl
theorem Touched.ts {s t : State} (h : Touched s t) : t.ts = s.ts := by obtain ⟨_, _, _, _, rfl⟩ := h; rfl
theorem Touched.tsRun {s t : State} (h : Touched s t) : t.tsRun = s.tsRun := by obtain ⟨_, _, _, _, rfl⟩ := h; rfl
theorem Touched.align {s t : State} (h : Touched s t) : t.align = s.align := by obtain ⟨_, _, _, _, rfl⟩ := h; rfl
theorem Touched.str {s t : State} (h : Touched s t) : t.str = s.str := by obtain ⟨_, _, _, _, rfl⟩ := h; rfl
theorem Touched.cores {s t : State} (h : Touched s t) : t.cores = s.cores := by obtain ⟨_, _, _, _, rfl⟩ := h; rfl
theorem Touched.msg {s t : State} (h : Touched s t) : t.msg = s.msg := by obtain ⟨_, _, _, _, rfl⟩ := h; rfl
theorem Touched.syn {s t : State} (h : Touched s t) : t.syn = s.syn := by obtain ⟨_, _, _, _, rfl⟩ := h; rfl
theorem Touched.port {s t : State} (h : Touched s t) : t.port = s.port := by obtain ⟨_, _, _, _, rfl⟩ := h; rfl
theorem Touched.dma {s t : State} (h : Touched s t) : t.dma = s.dma := by obtain ⟨_, _, _, _, rfl⟩ := h; rfl
theorem Touched.bq {s t : State} (h : Touched s t) : t.bq = s.bq := by obtain ⟨_, _, _, _, rfl⟩ := h; rfl
theorem Touched.pwr {s t : State} (h : Touched s t) : t.pwr = s.pwr := by obtain ⟨_, _, _, _, rfl⟩ := h; rfl
theorem Touched.mrl {s t : State} (h : Touched s t) : t.mrl = s.mrl := by obtain ⟨_, _, _, _, rfl⟩ := h; rfl
theorem Touched.dbg {s t : State} (h : Touched s t) : t.dbg = s.dbg := by obtain ⟨_, _, _, _, rfl⟩ := h; rfl
theorem Touched.latches {s t : State} (h : Touched s t) : t.latches = s.latches := by obtain ⟨_, _, _, _, rfl⟩ := h; rfl
theorem Touched.held {s t : State} (h : Touched s t) : t.held = s.held := by obtain ⟨_, _, _, _, rfl⟩ := h; rfl
theorem Touched.heldAon {s t : State} (h : Touched s t) : t.heldAon = s.heldAon := by obtain ⟨_, _, _, _, rfl⟩ := h; rfl
theorem Touched.soft {s t : State} (h : Touched s t) : t.soft = s.soft := by obtain ⟨_, _, _, _, rfl⟩ := h; rfl
theorem Touched.moved {s t : State} (h : Touched s t) : t.moved = s.moved := by obtain ⟨_, _, _, _, rfl⟩ := h; rfl
theorem Touched.damage {s t : State} (h : Touched s t) : t.damage = s.damage := by obtain ⟨_, _, _, _, rfl⟩ := h; rfl
theorem Touched.out {s t : State} (h : Touched s t) : t.out = s.out := by obtain ⟨_, _, _, _, rfl⟩ := h; rfl
theorem Touched.free {s t : State} (h : Touched s t) : t.free = s.free := by obtain ⟨_, _, _, _, rfl⟩ := h; rfl
theorem Touched.itemNo {s t : State} (h : Touched s t) : t.itemNo = s.itemNo := by obtain ⟨_, _, _, _, rfl⟩ := h; rfl
theorem Touched.pending {s t : State} (h : Touched s t) : t.pending = s.pending := by obtain ⟨_, _, _, _, rfl⟩ := h; rfl
theorem Touched.core {s t : State} (h : Touched s t) (c : Nat) : t.core c = s.core c := by obtain ⟨_, _, _, _, rfl⟩ := h; rfl
theorem Touched.ctx {s t : State} (h : Touched s t) (w : Who) : t.ctx w = s.ctx w := by obtain ⟨_, _, _, _, rfl⟩ := h; rfl
theorem Touched.item {s t : State} (h : Touched s t) (w : Who) : t.item w = s.item w := by obtain ⟨_, _, _, _, rfl⟩ := h; rfl

/-- The state that an issue leaves to its instruction. -/
theorem State.Issues.touched {s t : State} {w : Who} {o : Op} {len : Nat} (h : s.Issues w t o len) : Touched s t := by
  have := Touched.fetch s w
  rwa [h.fetched] at this

/-! ### Without upsets -/

theorem Store.Clean.readTag {st : Store} (h : st.Clean) (k : Nat) : st.readTag k = (st, 0) := by
  obtain ⟨_, _, _, _⟩ := st
  obtain ⟨rfl, rfl, rfl⟩ := h
  rfl

theorem Store.touch_clean {st : Store} (h : st.Clean) (u k : Nat) : st.touch u k = (st, .ok, 0) := by
  simp only [Store.touch, h.readTag, h.flips, h.poison]
  obtain ⟨_, _, _, _⟩ := st
  obtain ⟨rfl, rfl, rfl⟩ := h
  rfl

theorem State.noteLoam_ok (s : State) (p k : Nat) : s.noteLoam p (k, .ok, 0) = s := by simp [State.noteLoam, State.countLoamCe]

theorem State.loamSector_clean {s : State} (h : s.loam.Clean) (p k : Nat) : s.loamSector p k = (s, .ok) := by
  simp [State.loamSector, Store.touch_clean h, State.noteLoam_ok]

/-- Without upsets and tags a read gives the bytes and changes nothing. -/
theorem State.loamRead_clean {s : State} (h : s.loam.Clean) (p a n : Nat) :
    s.loamRead p a n = (s, .ok (s.loam.cells.read a n)) := by
  have key : ∀ l : List Nat, l.foldl (fun (acc : State × Nat) k =>
      let q := acc.1.loamSector p k
      (q.1, worstFault acc.2 (loamTouchFault q.2))) (s, 0) = (s, 0) := by
    intro l
    induction l with
    | nil => rfl
    | cons k l ih => simp only [List.foldl, State.loamSector_clean h]; simpa [loamTouchFault, worstFault] using ih
  simp only [State.loamRead, key]
  simp

end Sys2Proof.Machine
end

