-- ==== Sys2Proof/Laws/Loam.lean ====
section
/-! SUPPORT. Laws/Loam.lean: writes of a store without upsets and tags. -/

namespace Sys2Proof.Machine

theorem Mem.write_append (bs cs : List Byte) : ∀ (m : Mem) (a : Nat), m.write a (bs ++ cs) = (m.write a bs).write (a + bs.length) cs := by
  induction bs with
  | nil => intro m a; rfl
  | cons b bs ih =>
    intro m a
    simp only [List.cons_append, Mem.write, ih, List.length_cons]
    rw [show a + 1 + bs.length = a + (bs.length + 1) by omega]

theorem Mem.write_split (bs : List Byte) (n : Nat) (m : Mem) (a : Nat) :
    (m.write a (bs.take n)).write (a + (bs.take n).length) (bs.drop n) = m.write a bs := by
  rw [← Mem.write_append, List.take_append_drop]

theorem Store.writeUnit_clean {st : Store} (h : st.Clean) (u a : Nat) (bs : List Byte) :
    st.writeUnit u a bs = ({ st with cells := st.cells.write a bs }, .ok, 0) := by
  simp only [Store.writeUnit, h.readTag, h.flips, h.poison]
  obtain ⟨_, _, _, _⟩ := st
  obtain ⟨rfl, rfl, rfl⟩ := h
  simp [setErase]

/-- A write without upsets and tags writes the bytes and meets nothing. -/
theorem Store.writeRange_clean (u : Nat) (hu : 0 < u) (fuel : Nat) :
    ∀ (st : Store) (a : Nat) (bs : List Byte), st.Clean → bs.length < fuel →
      ∃ l : List UnitNote, (∀ x ∈ l, x.2 = (.ok, 0)) ∧ st.writeRange u fuel a bs = ({ st with cells := st.cells.write a bs }, l) := by
  induction fuel with
  | zero => intro st a bs _ h; omega
  | succ n ih =>
    intro st a bs h hl
    unfold Store.writeRange
    split
    · rename_i e
      rw [List.isEmpty_iff] at e
      subst e
      exact ⟨[], by simp, rfl⟩
    · rename_i e
      have hm : 0 < u - a % u := by have := Nat.mod_lt a hu; omega
      have hb : 0 < bs.length := by
        rcases bs with _ | ⟨b, bs⟩
        · simp at e
        · simp
      dsimp only
      rw [Store.writeUnit_clean h]
      obtain ⟨l, hl', e'⟩ := ih { st with cells := st.cells.write a (bs.take (u - a % u)) } (a + (bs.take (u - a % u)).length)
        (bs.drop (u - a % u)) ⟨h.flips, h.poison, h.tags⟩ (by simp only [List.length_drop]; omega)
      refine ⟨(a / u, .ok, 0) :: l, by simpa using hl', ?_⟩
      rw [e']
      simp only [Mem.write_split]

/-- An access none of whose units failed. -/
theorem worstTouch_ok {l : List UnitNote} (h : ∀ x ∈ l, x.2 = (.ok, 0)) : worstTouch l = .ok := by
  have none : ∀ t : Touch, t ≠ .ok → l.any (fun x => x.2.1 == t) = false := fun t ht => List.any_eq_false.2 fun x hx => by
    simpa [h x hx] using ht.symm
  simp [worstTouch, none .ue (by decide), none .poisoned (by decide)]

/-- A write of Loam without upsets and tags writes the bytes and nothing else. -/
theorem State.loamWrite_clean {s : State} (h : s.loam.Clean) (p a : Nat) (bs : List Byte) :
    s.loamWrite p a bs = ({ s with loam := { s.loam with cells := s.loam.cells.write a bs } }, 0) := by
  obtain ⟨l, hl, e⟩ := Store.writeRange_clean 64 (by omega) (bs.length + 1) s.loam a bs h (by omega)
  have note : ∀ (l : List UnitNote) (t : State), (∀ x ∈ l, x.2 = (.ok, 0)) → l.foldl (fun t x => t.noteLoam p x) t = t := by
    intro l
    induction l with
    | nil => intro t _; rfl
    | cons x l ih =>
      intro t h
      obtain ⟨k, r⟩ := x
      obtain rfl : r = (.ok, 0) := h (k, r) (by simp)
      rw [List.foldl_cons, State.noteLoam_ok]
      exact ih t fun x hx => h x (by simp [hx])
  simp only [State.loamWrite, e, note l _ hl, worstTouch_ok hl, loamTouchFault]

/-- Without upsets and tags a fetch changes nothing. -/
theorem State.fetch_clean {s : State} (h : s.loam.Clean) (w : Who) : (s.fetch w).1 = s := by
  unfold State.fetch
  dsimp only
  split
  · rfl
  · rw [State.loamRead_clean h]
    dsimp only
    rw [State.loamRead_clean h]
    dsimp only
    split <;> rfl

theorem State.Issues.clean {s t : State} {w : Who} {o : Op} {len : Nat} (i : s.Issues w t o len) (h : s.loam.Clean) : t = s := by
  have := State.fetch_clean h w
  rw [i.fetched] at this
  exact this

/-! ### Kaolin and the vector buffers without upsets and tags -/

theorem Store.touchRange_clean {st : Store} (h : st.Clean) (u a n : Nat) :
    ∃ l : List UnitNote, (∀ x ∈ l, x.2 = (.ok, 0)) ∧ st.touchRange u a n = (st, l) := by
  have key : ∀ (units : List Nat) (l : List UnitNote), (∀ x ∈ l, x.2 = (.ok, 0)) →
      ∃ l' : List UnitNote, (∀ x ∈ l', x.2 = (.ok, 0)) ∧ units.foldl (fun (acc : Store × List UnitNote) k =>
        let r := acc.1.touch u k
        (r.1, acc.2 ++ [(k, r.2.1, r.2.2)])) (st, l) = (st, l') := by
    intro units
    induction units with
    | nil => intro l hl; exact ⟨l, hl, rfl⟩
    | cons k units ih =>
      intro l hl
      rw [List.foldl_cons, Store.touch_clean h]
      refine ih _ fun x hx => ?_
      rcases List.mem_append.mp hx with hx | hx
      · exact hl x hx
      · simp only [List.mem_singleton] at hx; rw [hx]
  exact key _ [] (by simp)

theorem State.noteKao_all {l : List UnitNote} (h : ∀ x ∈ l, x.2 = (.ok, 0)) (c : Nat) : ∀ s : State, l.foldl (fun t x => t.noteKao c x) s = s := by
  induction l with
  | nil => intro s; rfl
  | cons x l ih =>
    intro s
    have e : s.noteKao c x = s := by simp [State.noteKao, h x (by simp), State.countKaoCe]
    rw [List.foldl_cons, e]
    exact ih (fun y hy => h y (by simp [hy])) s

theorem State.noteVb_all {l : List UnitNote} (h : ∀ x ∈ l, x.2 = (.ok, 0)) (c : Nat) : ∀ s : State, l.foldl (fun t x => t.noteVb c x) s = s := by
  induction l with
  | nil => intro s; rfl
  | cons x l ih =>
    intro s
    have e : s.noteVb c x = s := by simp [State.noteVb, h x (by simp), State.countKaoCe]
    rw [List.foldl_cons, e]
    exact ih (fun y hy => h y (by simp [hy])) s

/-- Without upsets and tags a read of Kaolin gives the bytes and leaves Kaolin as it is. -/
theorem State.kaoRead_clean {s : State} {c : Nat} (h : (s.core c).kaolin.Clean) (a n : Nat) :
    s.kaoRead c a n = (s.modCore c fun x => { x with kaolin := (s.core c).kaolin }, .ok ((s.core c).kaolin.cells.read a n)) := by
  obtain ⟨l, hl, e⟩ := Store.touchRange_clean h 256 a n
  simp only [State.kaoRead, e, State.noteKao_all hl, kvbRd, worstTouch_ok hl, if_true]

/-- A write of Kaolin without upsets and tags writes the bytes and nothing else. -/
theorem State.kaoWrite_clean {s : State} {c : Nat} (h : (s.core c).kaolin.Clean) (a : Nat) (bs : List Byte) :
    s.kaoWrite c a bs = (s.modCore c fun x => { x with kaolin := { (s.core c).kaolin with cells := (s.core c).kaolin.cells.write a bs } }, 0) := by
  obtain ⟨l, hl, e⟩ := Store.writeRange_clean 256 (by omega) (bs.length + 1) (s.core c).kaolin a bs h (by omega)
  simp only [State.kaoWrite, e, State.noteKao_all hl, worstTouch_ok hl, kvbTouchFault]

/-- The same for the vector buffers. -/
theorem State.vbRead_clean {s : State} {c : Nat} (h : (s.core c).vb.Clean) (a n : Nat) :
    s.vbRead c a n = (s.modCore c fun x => { x with vb := (s.core c).vb }, .ok ((s.core c).vb.cells.read a n)) := by
  obtain ⟨l, hl, e⟩ := Store.touchRange_clean h 64 a n
  simp only [State.vbRead, e, State.noteVb_all hl, kvbRd, worstTouch_ok hl, if_true]

theorem State.vbWrite_clean {s : State} {c : Nat} (h : (s.core c).vb.Clean) (a : Nat) (bs : List Byte) :
    s.vbWrite c a bs = (s.modCore c fun x => { x with vb := { (s.core c).vb with cells := (s.core c).vb.cells.write a bs } }, 0) := by
  obtain ⟨l, hl, e⟩ := Store.writeRange_clean 64 (by omega) (bs.length + 1) (s.core c).vb a bs h (by omega)
  simp only [State.vbWrite, e, State.noteVb_all hl, worstTouch_ok hl, kvbTouchFault]

/-! ### Poison -/

theorem mem_setInsert (l : List Nat) (k x : Nat) : x ∈ setInsert l k ↔ x = k ∨ x ∈ l := by
  induction l with
  | nil => simp [setInsert]
  | cons a l ih =>
    unfold setInsert
    split
    · simp
    · split
      · next e => subst e; simp
      · rw [List.mem_cons, ih, List.mem_cons]; tauto

theorem mem_foldl_setInsert (u : List Nat) (x : Nat) : ∀ l : List Nat, x ∈ u.foldl setInsert l ↔ x ∈ u ∨ x ∈ l := by
  induction u with
  | nil => simp
  | cons a u ih => intro l; rw [List.foldl_cons, ih, mem_setInsert, List.mem_cons]; tauto

/-- Poisoning sets the tags of its units and no other (R62). -/
@[simp] theorem Store.mem_poisonUnits (st : Store) (u : Nat) (l : List Nat) (k : Nat) : k ∈ (st.poisonUnits u l).poison ↔ k ∈ l ∨ k ∈ st.poison :=
  mem_foldl_setInsert l k st.poison

theorem tabGet_filter {α : Type} (d : α) (p : Nat × α → Bool) (t : Tab α) (k : Nat) (h : ∀ v, p (k, v) = true) :
    tabGet d (t.filter p) k = tabGet d t k := by
  induction t with
  | nil => rfl
  | cons a t ih =>
    obtain ⟨j, v⟩ := a
    rw [List.filter_cons]
    split
    · simp [tabGet, ih]
    · next e =>
      have : j ≠ k := fun x => by subst x; exact e (h v)
      simp [tabGet, this, ih]

/-- Poisoning leaves the bytes of every other unit alone (R62). -/
theorem Store.get_poisonUnits (st : Store) (u : Nat) (l : List Nat) (a : Nat) (h : a / u ∉ l) :
    (st.poisonUnits u l).cells.get a = st.cells.get a := by
  refine tabGet_filter (0 : Byte) (fun c => !l.contains (c.1 / u)) st.cells a fun v => ?_
  simpa using h

theorem leBytes_length (n v : Nat) : (leBytes n v).length = n := by
  induction n generalizing v with
  | zero => rfl
  | succ n ih => simp [leBytes, ih]

theorem leBytes_get (n : Nat) : ∀ (v k : Nat) (h : k < (leBytes n v).length), (leBytes n v)[k] = BitVec.ofNat 8 (v / 256 ^ k) := by
  induction n with
  | zero => intro v k h; simp [leBytes] at h
  | succ n ih =>
    intro v k h
    cases k with
    | zero => simp [leBytes]
    | succ k =>
      simp only [leBytes, List.getElem_cons_succ]
      rw [ih, Nat.div_div_eq_div_mul, Nat.pow_succ, Nat.mul_comm]

end Sys2Proof.Machine
end

