-- ==== Sys2Proof/Laws/Registers.lean ====
section
/-! SUPPORT. Laws/Registers.lean: a row that writes a whole register from outside does what the register's block does. -/

namespace Sys2Proof.Machine

theorem State.portsHeld_on {s : State} (h : s.portsHeld = false) : s.fastOn = true := by simpa [State.portsHeld] using h

/-- Ports that hold nothing accept every kind of traffic. -/
theorem State.holds_false {s : State} (h : s.portsHeld = false) (x : Traffic) : s.holds x = false := by
  have hf := State.portsHeld_on h
  have ha := State.fastOn_agents hf
  have hw := State.fastOn_waits hf x.lookups
  unfold State.holds
  rw [ha, hw]
  simp only [State.agentsOn, Bool.and_eq_true, Bool.not_eq_true'] at ha
  rw [ha.1.2, ha.2]
  split <;> rfl

theorem State.arrive_ok {s : State} (h : s.portsHeld = false) (x : Traffic) : s.arrive x = (accept x s).activate := by
  simp [State.arrive, State.holds_false h]

/-- An arrival at ports that hold nothing. -/
theorem State.row_arrive {s : State} (h : s.portsHeld = false) (x : Traffic) : s.row (fun s => s.arrive x) = .next (accept x s).activate := by
  rw [State.row_on (State.fastOn_on (State.portsHeld_on h)), State.arrive_ok h]

/-- What a write from outside leaves: the register's effect, a log entry where it failed, and the answer. -/
def State.answered (p : Party) (off : Nat) (q : State × Nat) : State := (q.1.noteAccess p off q.2).send (.regAnswer p 0 q.2)

@[simp] theorem State.answered_ok (p : Party) (off : Nat) (t : State) : State.answered p off (t, 0) = t.send (.regAnswer p 0 0) := by
  simp [State.answered, State.noteAccess]

/-- A row that writes one 32-bit register of a fast block. -/
theorem State.row_fastRow {s : State} {p : Party} {off v : Nat} {x : RegAt} (h : s.portsHeld = false) (hr : regAt off = some x)
    (h8 : x.row.bytes ≠ 8) (ho : off % 4 = 0) (hv : v < 2 ^ 32) (hw : writeFault fastBlocks s (accOf p) x v = 0) :
    s.row (fun s => s.fastRow p off v) = .next (State.answered p off (s.fastDo x.row.first x.k v)).activate := by
  rw [State.row_on (State.fastOn_on (State.portsHeld_on h)), State.fastRow, State.arrive_ok h]
  have e : (BitVec.ofNat 64 v).toNat % 2 ^ 32 = v := by simp only [BitVec.toNat_ofNat]; omega
  simp only [accept, outsideWrite, regWriteWith, ho, e, write32, hr, h8, hw, ne_eq, not_true_eq_false, if_false]
  rfl

/-- A row that writes one 32-bit register of a fast block and is refused. -/
theorem State.row_fastRow_bad {s : State} {p : Party} {off v : Nat} {x : RegAt} (h : s.portsHeld = false) (hr : regAt off = some x)
    (h8 : x.row.bytes ≠ 8) (ho : off % 4 = 0) (hv : v < 2 ^ 32) (hw : writeFault fastBlocks s (accOf p) x v ≠ 0) :
    s.row (fun s => s.fastRow p off v) = .next (State.answered p off (s, writeFault fastBlocks s (accOf p) x v)).activate := by
  rw [State.row_on (State.fastOn_on (State.portsHeld_on h)), State.fastRow, State.arrive_ok h]
  have e : (BitVec.ofNat 64 v).toNat % 2 ^ 32 = v := by simp only [BitVec.toNat_ofNat]; omega
  simp only [accept, outsideWrite, regWriteWith, ho, e, write32, hr, h8, ne_eq, not_true_eq_false, if_false]
  simp only [if_pos hw]
  rfl

/-- A row that writes one 64-bit register of a fast block. -/
theorem State.row_fastRow64 {s : State} {p : Party} {off : Nat} {v : Word64} {x : RegAt} (h : s.portsHeld = false)
    (hr : regAt off = some x) (h8 : x.row.bytes = 8) (ho : off % 8 = 0) (hw : writeFault fastBlocks s (accOf p) x v.toNat = 0) :
    s.row (fun s => s.fastRow64 p off v) = .next (State.answered p off (s.fastDo x.row.first x.k v.toNat)).activate := by
  rw [State.row_on (State.fastOn_on (State.portsHeld_on h)), State.fastRow64, State.arrive_ok h]
  simp only [accept, outsideWrite, regWriteWith, ho, write64, hr, h8, hw, ne_eq, not_true_eq_false, if_false, if_true]
  rfl

/-- The offset of an access to an always-on block that is held tells only its block. -/
theorem State.heldEarly_block (s : State) (p : Party) {a b : Nat} (h : a / 0x1000 = b / 0x1000) (write : Bool) :
    s.heldEarly p a write = s.heldEarly p b write := by simp [State.heldEarly, h]

/-- A row that writes one register of an always-on block. -/
theorem State.row_aonRow {s : State} {p : Party} {off v : Nat} {x : RegAt} (h : s.pwr.state ≠ .off) (hp : s.heldEarly p off true = false) (hr : regAt off = some x)
    (ha : aonReg x.row.first = true) (hw : writeFault allBlocks s (accOf p) x v = 0) :
    s.row (fun s => s.aonRow p off v) = .next (State.answered p off (s.aonDo x.row.first x.o v)) := by
  rw [State.row_on h, State.aonRow, regRow, hr]
  simp only [hp, Bool.false_eq_true, hw, ne_eq, not_true_eq_false, if_false]
  have e : allBlocks.act s x.row.first x.k x.o v = s.aonDo x.row.first x.o v := by simp [allBlocks, ha]
  simp only [e]
  rfl

theorem State.row_aonRow_bad {s : State} {p : Party} {off v : Nat} {x : RegAt} (h : s.pwr.state ≠ .off) (hp : s.heldEarly p off true = false)
    (hr : regAt off = some x)
    (hw : writeFault allBlocks s (accOf p) x v ≠ 0) :
    s.row (fun s => s.aonRow p off v) = .next (State.answered p off (s, writeFault allBlocks s (accOf p) x v)) := by
  rw [State.row_on h, State.aonRow, regRow, hr]
  simp only [hp, Bool.false_eq_true, if_false, if_pos hw]
  rfl

end Sys2Proof.Machine
end

