-- ==== Sys2Proof/Laws/Items.lean ====
section
/-! SUPPORT. Laws/Items.lean: what the operations on items leave alone. -/

namespace Sys2Proof.Machine

/-- A property that each step of a fold keeps. -/
theorem foldl_keeps {α β : Type} {P : β → Prop} {f : β → α → β} (h : ∀ b a, P b → P (f b a)) (l : List α) (b : β) (hb : P b) : P (l.foldl f b) := by
  induction l generalizing b with
  | nil => exact hb
  | cons a l ih => exact ih _ (h _ _ hb)

theorem State.fireWatch_frame (s : State) (w : Who) (h : Hdr) : (s.fireWatch w h).1.cores = s.cores ∧ (s.fireWatch w h).1.loam = s.loam ∧
    (s.fireWatch w h).1.syn = s.syn ∧ (s.fireWatch w h).1.ts = s.ts := by
  unfold State.fireWatch
  refine foldl_keeps (P := fun q : State × List WatchHit => q.1.cores = s.cores ∧ q.1.loam = s.loam ∧ q.1.syn = s.syn ∧ q.1.ts = s.ts) ?_ _ _
    ⟨rfl, rfl, rfl, rfl⟩
  rintro b a ⟨h1, h2, h3, h4⟩
  split <;> simp [h1, h2, h3, h4]

theorem Touched.headerOf (s : State) (w : Who) (i : Item) : Touched s (s.headerOf w i).1 := by
  unfold State.headerOf
  dsimp only
  split
  · exact Touched.refl s
  · have := Touched.loamRead s (corePort w.core.val) i.addr 192
    split <;> exact this

theorem State.retireMsg_frame (s : State) (c : Nat) (m : MsgRef) : (s.retireMsg c m).cores = s.cores ∧ (s.retireMsg c m).syn = s.syn ∧
    (s.retireMsg c m).ts = s.ts ∧ (s.retireMsg c m).loam = s.loam := by
  unfold State.retireMsg State.freeEntries State.returnCredits
  dsimp only
  split <;> simp

/-- What the end of an item leaves: a free context, its record the newest, the counters as they were. -/
theorem State.finishItem_frame (s : State) (w : Who) : (s.finishItem w).ctx w = {} ∧ (s.finishItem w).syn = s.syn ∧
    ((s.finishItem w).core w.core.val).recs = ({ (s.item w).record with ended := true, stop := s.ts } :: (s.core w.core.val).recs).take 32 := by
  unfold State.finishItem
  dsimp only
  have key : ∀ t : State, t.cores = (s.modCore w.core.val fun x => { x with recs := ({ (s.item w).record with ended := true, stop := s.ts } :: x.recs).take 32, idleTicks := 0 }).cores →
      ((t.setCtx w {}).core w.core.val).recs = ({ (s.item w).record with ended := true, stop := s.ts } :: (s.core w.core.val).recs).take 32 := by
    intro t h
    have : t.core w.core.val = (s.modCore w.core.val fun x => { x with recs := ({ (s.item w).record with ended := true, stop := s.ts } :: x.recs).take 32, idleTicks := 0 }).core w.core.val := by
      simp only [State.core, h]
    simp only [State.setCtx, State.core_modCore_self, this, Core.setCtx]
    split <;> rfl
  split
  · next m e =>
    obtain ⟨h1, h2, -, -⟩ := State.retireMsg_frame (s.modCore w.core.val fun x => { x with recs := ({ (s.item w).record with ended := true, stop := s.ts } :: x.recs).take 32, idleTicks := 0 }) w.core.val m
    refine ⟨by simp, by simp only [State.emit_syn, State.setCtx_syn]; exact h2, ?_⟩
    simp only [State.core_emit]
    exact key _ h1
  · refine ⟨by simp, by simp, ?_⟩
    simp only [State.core_emit]
    exact key _ rfl

theorem State.sc_arriveSc (s : State) (n : Nat) (v : Word32) (who : Nat) (h : s.scBad n = false) : (s.arriveSc n v who).sc n = s.sc n + v := by
  simp [State.arriveSc, State.sc, State.addSc, h, State.setSc]

theorem State.sc_arriveSc_ne (s : State) {n m : Nat} (v : Word32) (who : Nat) (h : m ≠ n) : (s.arriveSc n v who).sc m = s.sc m := by
  have e : (s.addSc n v).sc m = s.sc m := by
    simp only [State.sc, State.addSc]
    split
    · simp
    · simp [State.setSc, tabGet_tabSet_ne _ _ _ h]
  simp only [State.arriveSc]
  split
  · exact e
  · simpa [State.sc] using e

/-! ### The parts of a core beside its contexts -/

theorem State.core_setCtx_rest (s : State) (w : Who) (y : Ctx) (c : Nat) :
    { (s.setCtx w y).core c with cmd := (s.core c).cmd, hdl := (s.core c).hdl } = s.core c := by
  by_cases h : c = w.core.val
  · subst h; simp [State.setCtx, Core.setCtx_rest]
  · simp [State.setCtx, State.core_modCore_ne _ _ h]

@[simp] theorem State.nq_setCtx (s : State) (w : Who) (y : Ctx) (c : Nat) : ((s.setCtx w y).core c).nq = (s.core c).nq := by
  have h := congrArg Core.nq (s.core_setCtx_rest w y c)
  exact h
@[simp] theorem State.nq_modItem (s : State) (w : Who) (f : Item → Item) (c : Nat) : ((s.modItem w f).core c).nq = (s.core c).nq := by
  have h := congrArg Core.nq (s.core_setCtx_rest w { s.ctx w with item := f (s.item w) } c)
  exact h
@[simp] theorem State.uq_setCtx (s : State) (w : Who) (y : Ctx) (c : Nat) : ((s.setCtx w y).core c).uq = (s.core c).uq := by
  have h := congrArg Core.uq (s.core_setCtx_rest w y c)
  exact h
@[simp] theorem State.uq_modItem (s : State) (w : Who) (f : Item → Item) (c : Nat) : ((s.modItem w f).core c).uq = (s.core c).uq := by
  have h := congrArg Core.uq (s.core_setCtx_rest w { s.ctx w with item := f (s.item w) } c)
  exact h
@[simp] theorem State.saved_setCtx (s : State) (w : Who) (y : Ctx) (c : Nat) : ((s.setCtx w y).core c).saved = (s.core c).saved := by
  have h := congrArg Core.saved (s.core_setCtx_rest w y c)
  exact h
@[simp] theorem State.saved_modItem (s : State) (w : Who) (f : Item → Item) (c : Nat) : ((s.modItem w f).core c).saved = (s.core c).saved := by
  have h := congrArg Core.saved (s.core_setCtx_rest w { s.ctx w with item := f (s.item w) } c)
  exact h
@[simp] theorem State.kaolin_setCtx (s : State) (w : Who) (y : Ctx) (c : Nat) : ((s.setCtx w y).core c).kaolin = (s.core c).kaolin := by
  have h := congrArg Core.kaolin (s.core_setCtx_rest w y c)
  exact h
@[simp] theorem State.kaolin_modItem (s : State) (w : Who) (f : Item → Item) (c : Nat) : ((s.modItem w f).core c).kaolin = (s.core c).kaolin := by
  have h := congrArg Core.kaolin (s.core_setCtx_rest w { s.ctx w with item := f (s.item w) } c)
  exact h
@[simp] theorem State.vb_setCtx (s : State) (w : Who) (y : Ctx) (c : Nat) : ((s.setCtx w y).core c).vb = (s.core c).vb := by
  have h := congrArg Core.vb (s.core_setCtx_rest w y c)
  exact h
@[simp] theorem State.vb_modItem (s : State) (w : Who) (f : Item → Item) (c : Nat) : ((s.modItem w f).core c).vb = (s.core c).vb := by
  have h := congrArg Core.vb (s.core_setCtx_rest w { s.ctx w with item := f (s.item w) } c)
  exact h
@[simp] theorem State.masks_setCtx (s : State) (w : Who) (y : Ctx) (c : Nat) : ((s.setCtx w y).core c).masks = (s.core c).masks := by
  have h := congrArg Core.masks (s.core_setCtx_rest w y c)
  exact h
@[simp] theorem State.masks_modItem (s : State) (w : Who) (f : Item → Item) (c : Nat) : ((s.modItem w f).core c).masks = (s.core c).masks := by
  have h := congrArg Core.masks (s.core_setCtx_rest w { s.ctx w with item := f (s.item w) } c)
  exact h
@[simp] theorem State.stats_setCtx (s : State) (w : Who) (y : Ctx) (c : Nat) : ((s.setCtx w y).core c).stats = (s.core c).stats := by
  have h := congrArg Core.stats (s.core_setCtx_rest w y c)
  exact h
@[simp] theorem State.stats_modItem (s : State) (w : Who) (f : Item → Item) (c : Nat) : ((s.modItem w f).core c).stats = (s.core c).stats := by
  have h := congrArg Core.stats (s.core_setCtx_rest w { s.ctx w with item := f (s.item w) } c)
  exact h
@[simp] theorem State.suspect_setCtx (s : State) (w : Who) (y : Ctx) (c : Nat) : ((s.setCtx w y).core c).suspect = (s.core c).suspect := by
  have h := congrArg Core.suspect (s.core_setCtx_rest w y c)
  exact h
@[simp] theorem State.suspect_modItem (s : State) (w : Who) (f : Item → Item) (c : Nat) : ((s.modItem w f).core c).suspect = (s.core c).suspect := by
  have h := congrArg Core.suspect (s.core_setCtx_rest w { s.ctx w with item := f (s.item w) } c)
  exact h
@[simp] theorem State.jobs_setCtx (s : State) (w : Who) (y : Ctx) (c : Nat) : ((s.setCtx w y).core c).jobs = (s.core c).jobs := by
  have h := congrArg Core.jobs (s.core_setCtx_rest w y c)
  exact h
@[simp] theorem State.jobs_modItem (s : State) (w : Who) (f : Item → Item) (c : Nat) : ((s.modItem w f).core c).jobs = (s.core c).jobs := by
  have h := congrArg Core.jobs (s.core_setCtx_rest w { s.ctx w with item := f (s.item w) } c)
  exact h
@[simp] theorem State.ramp_setCtx (s : State) (w : Who) (y : Ctx) (c : Nat) : ((s.setCtx w y).core c).ramp = (s.core c).ramp := by
  have h := congrArg Core.ramp (s.core_setCtx_rest w y c)
  exact h
@[simp] theorem State.ramp_modItem (s : State) (w : Who) (f : Item → Item) (c : Nat) : ((s.modItem w f).core c).ramp = (s.core c).ramp := by
  have h := congrArg Core.ramp (s.core_setCtx_rest w { s.ctx w with item := f (s.item w) } c)
  exact h
@[simp] theorem State.recs_setCtx (s : State) (w : Who) (y : Ctx) (c : Nat) : ((s.setCtx w y).core c).recs = (s.core c).recs := by
  have h := congrArg Core.recs (s.core_setCtx_rest w y c)
  exact h
@[simp] theorem State.recs_modItem (s : State) (w : Who) (f : Item → Item) (c : Nat) : ((s.modItem w f).core c).recs = (s.core c).recs := by
  have h := congrArg Core.recs (s.core_setCtx_rest w { s.ctx w with item := f (s.item w) } c)
  exact h
@[simp] theorem State.asleep_setCtx (s : State) (w : Who) (y : Ctx) (c : Nat) : ((s.setCtx w y).core c).asleep = (s.core c).asleep := by
  have h := congrArg Core.asleep (s.core_setCtx_rest w y c)
  exact h
@[simp] theorem State.asleep_modItem (s : State) (w : Who) (f : Item → Item) (c : Nat) : ((s.modItem w f).core c).asleep = (s.core c).asleep := by
  have h := congrArg Core.asleep (s.core_setCtx_rest w { s.ctx w with item := f (s.item w) } c)
  exact h

@[simp] theorem State.nq_advance (s : State) (w : Who) (len c : Nat) : ((s.advance w len).core c).nq = (s.core c).nq := by
  simp [State.advance]
@[simp] theorem State.uq_advance (s : State) (w : Who) (len c : Nat) : ((s.advance w len).core c).uq = (s.core c).uq := by
  simp [State.advance]
@[simp] theorem State.saved_advance (s : State) (w : Who) (len c : Nat) : ((s.advance w len).core c).saved = (s.core c).saved := by
  simp [State.advance]
@[simp] theorem State.kaolin_advance (s : State) (w : Who) (len c : Nat) : ((s.advance w len).core c).kaolin = (s.core c).kaolin := by
  simp [State.advance]
@[simp] theorem State.vb_advance (s : State) (w : Who) (len c : Nat) : ((s.advance w len).core c).vb = (s.core c).vb := by
  simp [State.advance]
@[simp] theorem State.masks_advance (s : State) (w : Who) (len c : Nat) : ((s.advance w len).core c).masks = (s.core c).masks := by
  simp [State.advance]
@[simp] theorem State.stats_advance (s : State) (w : Who) (len c : Nat) : ((s.advance w len).core c).stats = (s.core c).stats := by
  simp [State.advance]
@[simp] theorem State.suspect_advance (s : State) (w : Who) (len c : Nat) : ((s.advance w len).core c).suspect = (s.core c).suspect := by
  simp [State.advance]
@[simp] theorem State.jobs_advance (s : State) (w : Who) (len c : Nat) : ((s.advance w len).core c).jobs = (s.core c).jobs := by
  simp [State.advance]
@[simp] theorem State.ramp_advance (s : State) (w : Who) (len c : Nat) : ((s.advance w len).core c).ramp = (s.core c).ramp := by
  simp [State.advance]
@[simp] theorem State.recs_advance (s : State) (w : Who) (len c : Nat) : ((s.advance w len).core c).recs = (s.core c).recs := by
  simp [State.advance]
@[simp] theorem State.asleep_advance (s : State) (w : Who) (len c : Nat) : ((s.advance w len).core c).asleep = (s.core c).asleep := by
  simp [State.advance]

/-- An item's record of what it wrote changes nothing else of the state. -/
theorem State.noteWrote_eq (s : State) (w : Who) (a n : Nat) :
    s.noteWrote w a n = s ∨ s.noteWrote w a n = s.modItem w fun i => { i with wrote := i.wrote ++ [(a, n)] } := by
  unfold State.noteWrote
  split
  · exact .inr rfl
  · exact .inl rfl

@[simp] theorem State.raiseFor_loam (s : State) (no : Nat) (w : Who) (f d : Nat) : (s.raiseFor no w f d).loam = s.loam := by
  unfold State.raiseFor State.raiseElse; split <;> simp
@[simp] theorem State.raiseFor_syn (s : State) (no : Nat) (w : Who) (f d : Nat) : (s.raiseFor no w f d).syn = s.syn := by
  unfold State.raiseFor State.raiseElse; split <;> simp

theorem State.noteStop_loam (s : State) (ch : Nat) (w : Who) (i f a : Nat) : (s.noteStop ch w i f a).loam = s.loam := by
  unfold State.noteStop; simp

@[simp] theorem State.noteKao_cores (s : State) (c : Nat) (x : UnitNote) : (s.noteKao c x).cores = s.cores := by
  unfold State.noteKao State.countKaoCe State.recordUe State.bin State.modCtr
  dsimp only
  split <;> split <;> (try split) <;> rfl

/-- A write of Kaolin changes the core's Kaolin, and counts and records what it met. -/
theorem State.kaoWrite_cores (s : State) (c a : Nat) (bs : List Byte) :
    (s.kaoWrite c a bs).1.cores = (s.modCore c fun x => { x with kaolin := (x.kaolin.writeRange 256 (bs.length + 1) a bs).1 }).cores := by
  unfold State.kaoWrite
  exact foldl_keeps (P := fun t : State => t.cores = _) (fun b x h => by rw [State.noteKao_cores, h]) _ _ rfl

theorem State.noteWrote_frame (s : State) (w : Who) (a n : Nat) : ∃ cs, s.noteWrote w a n = { s with cores := cs } := by
  rcases s.noteWrote_eq w a n with h | h <;> exact ⟨_, h⟩

theorem State.ctx_noteWrote (s : State) (w : Who) (a n : Nat) :
    ∃ l, (s.noteWrote w a n).ctx w = { s.ctx w with item := { s.item w with wrote := l } } := by
  rcases s.noteWrote_eq w a n with h | h
  · exact ⟨_, by rw [h]; rfl⟩
  · exact ⟨_, by rw [h, State.ctx_modItem_self]⟩

theorem State.row_checked {s : State} {ok : Bool} {f : State → State} {r : Host.Outcome State Fault Refusal} (h : ok = true)
    (e : s.row f = r) : s.checked ok f = r := by
  subst h
  exact e

/-- An operand that no sender can give changes nothing (log 1). -/
theorem State.checked_bad {s : State} {ok : Bool} {f : State → State} (h : ok = false) : s.checked ok f = .next s := by
  simp [State.checked, h, State.row]

/-! ### Stall reasons -/

theorem State.unblock_eq (s : State) (r : Nat) : ∃ x, s.unblock r = { s with cores := x } := by
  unfold State.unblock
  refine foldl_keeps (P := fun t : State => ∃ x, t = { s with cores := x }) ?_ _ _ ⟨s.cores, rfl⟩
  rintro b a ⟨x, rfl⟩
  split
  · exact ⟨_, rfl⟩
  · exact ⟨x, rfl⟩

@[simp] theorem State.unblock_id (s : State) (r : Nat) : (s.unblock r).id = s.id := by obtain ⟨x, h⟩ := s.unblock_eq r; rw [h]
@[simp] theorem State.unblock_ticks (s : State) (r : Nat) : (s.unblock r).ticks = s.ticks := by obtain ⟨x, h⟩ := s.unblock_eq r; rw [h]
@[simp] theorem State.unblock_ts (s : State) (r : Nat) : (s.unblock r).ts = s.ts := by obtain ⟨x, h⟩ := s.unblock_eq r; rw [h]
@[simp] theorem State.unblock_tsRun (s : State) (r : Nat) : (s.unblock r).tsRun = s.tsRun := by obtain ⟨x, h⟩ := s.unblock_eq r; rw [h]
@[simp] theorem State.unblock_align (s : State) (r : Nat) : (s.unblock r).align = s.align := by obtain ⟨x, h⟩ := s.unblock_eq r; rw [h]
@[simp] theorem State.unblock_str (s : State) (r : Nat) : (s.unblock r).str = s.str := by obtain ⟨x, h⟩ := s.unblock_eq r; rw [h]
@[simp] theorem State.unblock_loam (s : State) (r : Nat) : (s.unblock r).loam = s.loam := by obtain ⟨x, h⟩ := s.unblock_eq r; rw [h]
@[simp] theorem State.unblock_err (s : State) (r : Nat) : (s.unblock r).err = s.err := by obtain ⟨x, h⟩ := s.unblock_eq r; rw [h]
@[simp] theorem State.unblock_ctr (s : State) (r : Nat) : (s.unblock r).ctr = s.ctr := by obtain ⟨x, h⟩ := s.unblock_eq r; rw [h]
@[simp] theorem State.unblock_msg (s : State) (r : Nat) : (s.unblock r).msg = s.msg := by obtain ⟨x, h⟩ := s.unblock_eq r; rw [h]
@[simp] theorem State.unblock_syn (s : State) (r : Nat) : (s.unblock r).syn = s.syn := by obtain ⟨x, h⟩ := s.unblock_eq r; rw [h]
@[simp] theorem State.unblock_port (s : State) (r : Nat) : (s.unblock r).port = s.port := by obtain ⟨x, h⟩ := s.unblock_eq r; rw [h]
@[simp] theorem State.unblock_dma (s : State) (r : Nat) : (s.unblock r).dma = s.dma := by obtain ⟨x, h⟩ := s.unblock_eq r; rw [h]
@[simp] theorem State.unblock_bq (s : State) (r : Nat) : (s.unblock r).bq = s.bq := by obtain ⟨x, h⟩ := s.unblock_eq r; rw [h]
@[simp] theorem State.unblock_pwr (s : State) (r : Nat) : (s.unblock r).pwr = s.pwr := by obtain ⟨x, h⟩ := s.unblock_eq r; rw [h]
@[simp] theorem State.unblock_mrl (s : State) (r : Nat) : (s.unblock r).mrl = s.mrl := by obtain ⟨x, h⟩ := s.unblock_eq r; rw [h]
@[simp] theorem State.unblock_tel (s : State) (r : Nat) : (s.unblock r).tel = s.tel := by obtain ⟨x, h⟩ := s.unblock_eq r; rw [h]
@[simp] theorem State.unblock_dbg (s : State) (r : Nat) : (s.unblock r).dbg = s.dbg := by obtain ⟨x, h⟩ := s.unblock_eq r; rw [h]
@[simp] theorem State.unblock_latches (s : State) (r : Nat) : (s.unblock r).latches = s.latches := by obtain ⟨x, h⟩ := s.unblock_eq r; rw [h]
@[simp] theorem State.unblock_held (s : State) (r : Nat) : (s.unblock r).held = s.held := by obtain ⟨x, h⟩ := s.unblock_eq r; rw [h]
@[simp] theorem State.unblock_damage (s : State) (r : Nat) : (s.unblock r).damage = s.damage := by obtain ⟨x, h⟩ := s.unblock_eq r; rw [h]
@[simp] theorem State.unblock_out (s : State) (r : Nat) : (s.unblock r).out = s.out := by obtain ⟨x, h⟩ := s.unblock_eq r; rw [h]
@[simp] theorem State.unblock_free (s : State) (r : Nat) : (s.unblock r).free = s.free := by obtain ⟨x, h⟩ := s.unblock_eq r; rw [h]
@[simp] theorem State.unblock_itemNo (s : State) (r : Nat) : (s.unblock r).itemNo = s.itemNo := by obtain ⟨x, h⟩ := s.unblock_eq r; rw [h]
@[simp] theorem State.unblock_pending (s : State) (r : Nat) : (s.unblock r).pending = s.pending := by obtain ⟨x, h⟩ := s.unblock_eq r; rw [h]

@[simp] theorem State.unblock_off (s : State) (r : Nat) (w : Who) : ((s.unblock r).item w).off = (s.item w).off := by
  unfold State.unblock
  refine foldl_keeps (P := fun t : State => (t.item w).off = (s.item w).off) ?_ _ _ rfl
  intro b a h
  split
  · by_cases e : w = a
    · subst e; simpa using h
    · rw [State.item, State.ctx_modItem_ne _ _ e]; exact h
  · exact h

/-! ### Reads of descriptors -/

theorem Touched.viewRead (s : State) (c x n : Nat) (m : MsgRef) : Touched s (s.viewRead c x n m).1 := by
  unfold State.viewRead
  exact foldl_keeps (P := fun q : State × Nat => Touched s q.1) (fun b a h => h.trans (Touched.loamSector _ _ _)) _ _ (Touched.refl s)

theorem Touched.itemRead (s : State) (w : Who) (a n : Nat) : Touched s (s.itemRead w a n).1 := by
  unfold State.itemRead
  repeat' split
  all_goals first | exact Touched.refl s | exact Touched.loamRead s _ _ _ | exact Touched.viewRead s _ _ _ _

theorem Touched.chainBytes (s : State) (w : Who) (a : Nat) : Touched s (s.chainBytes w a).1 := by
  unfold State.chainBytes
  dsimp only
  repeat' split
  all_goals first | exact Touched.refl s | exact Touched.itemRead s _ _ _ | exact (Touched.itemRead s _ _ _).trans (Touched.itemRead _ _ _ _)

theorem Touched.chainCheck (s : State) (w : Who) (a : Nat) (p : Option Nat) (r c k : Nat) (i : Bool) (g : Option (Nat × Nat)) :
    Touched s (s.chainCheck w a p r c k i g).1 := by
  unfold State.chainCheck
  dsimp only
  repeat' split
  all_goals exact Touched.chainBytes s w a

theorem Touched.mmaChains (s : State) (w : Who) (o : MmaOp) : Touched s (s.mmaChains w o).1 := by
  have key : ∀ (s : State) (a : Nat) (p : Option Nat) (r c k : Nat) (i : Bool) (g : Option (Nat × Nat)),
      Touched s (if a = 0xFFFFFFFF then (s, Rd.ok []) else s.chainCheck w a p r c k i g).1 := by
    intro s a p r c k i g
    split
    · exact Touched.refl s
    · exact Touched.chainCheck ..
  unfold State.mmaChains
  dsimp only
  generalize hE : (if o.epi = 0xFFFFFFFF then (s, Rd.ok []) else s.chainCheck w o.epi none o.m o.n 1 o.int32
    (if o.int32 = true then none else some (o.kbase, gridBytes o.m o.n))) = e
  have ke : Touched s e.1 := hE ▸ key ..
  split
  · exact ke
  · generalize hA : (if o.aPro = 0xFFFFFFFF then (e.1, Rd.ok []) else _) = a
    have ka : Touched e.1 a.1 := hA ▸ key ..
    split
    · exact ke.trans ka
    · generalize hB : (if o.bPro = 0xFFFFFFFF then (a.1, Rd.ok []) else _) = b
      have kb : Touched a.1 b.1 := hB ▸ key ..
      split <;> exact (ke.trans ka).trans kb

/-- An instruction that fails before it does anything aborts its item with the fault. -/
theorem State.Issues.raised {w : Who} {s t v : State} {op : Op} {len code d : Nat} (h : s.Issues w t op len) (hv : Touched t v) :
    ((v.raise w code d).activate.ctx w).phase = .aborting ∧ ((v.raise w code d).activate.item w).record.fault = code := by
  have hb : (v.ctx w).canBear = true := by rw [hv.ctx, h.touched.ctx]; exact Ctx.canBear_of_canIssue h.ready
  simp [State.item, State.ctx_raise hb]

/-! ### Tables written entry by entry -/

theorem tabGet_fold_ne {α β : Type} (d : β) (key : α → Nat) (val : α → β) (k : Nat) (l : List α) : ∀ t : Tab β,
    (∀ x ∈ l, key x ≠ k) → tabGet d (l.foldl (fun t x => tabSet t (key x) (val x)) t) k = tabGet d t k := by
  induction l with
  | nil => intro t _; rfl
  | cons a l ih =>
    intro t h
    rw [List.foldl_cons, ih _ fun x hx => h x (List.mem_cons_of_mem _ hx)]
    exact tabGet_tabSet_ne _ _ _ (Ne.symm (h a List.mem_cons_self))

theorem tabGet_fold {α β : Type} (d : β) (key : α → Nat) (val : α → β) (x : α) (l : List α) : ∀ t : Tab β,
    x ∈ l → (∀ y ∈ l, key y = key x → y = x) → tabGet d (l.foldl (fun t x => tabSet t (key x) (val x)) t) (key x) = val x := by
  induction l with
  | nil => intro t h; simp at h
  | cons a l ih =>
    intro t h hu
    rw [List.foldl_cons]
    by_cases hx : x ∈ l
    · exact ih _ hx fun y hy => hu y (List.mem_cons_of_mem _ hy)
    · have : a = x := by
        rcases List.mem_cons.mp h with rfl | h
        · rfl
        · exact absurd h hx
      subst this
      rw [tabGet_fold_ne, tabGet_tabSet_self]
      intro y hy e
      exact hx (hu y (List.mem_cons_of_mem _ hy) e ▸ hy)

theorem Core.setStatRow_in (x : Core) (st : Nat) (v : List Fp32) (r : Nat) (h : r < v.length) :
    tabGet 0 (x.setStatRow st v).stats (256 * st + r) = v[r] := by
  have := tabGet_fold (0 : Fp32) (fun p : Nat × Fp32 => p.1) (fun p => p.2) (256 * st + r, v[r]) (v.mapIdx fun r y => (256 * st + r, y)) x.stats
    (List.mem_mapIdx.mpr ⟨r, h, rfl⟩) (by
      rintro ⟨a, b⟩ hm e
      obtain ⟨i, hi, e'⟩ := List.mem_mapIdx.mp hm
      simp only [Prod.mk.injEq] at e e' ⊢
      obtain ⟨e1, e2⟩ := e'
      have : i = r := by omega
      subst this
      exact ⟨e, e2.symm⟩)
  exact this

theorem Core.setStatRow_out (x : Core) (st : Nat) (v : List Fp32) (k : Nat) (h : k < 256 * st ∨ 256 * st + v.length ≤ k) :
    tabGet 0 (x.setStatRow st v).stats k = tabGet 0 x.stats k := by
  refine tabGet_fold_ne (0 : Fp32) (fun p : Nat × Fp32 => p.1) (fun p => p.2) k _ x.stats ?_
  rintro ⟨a, b⟩ hm
  obtain ⟨i, hi, e⟩ := List.mem_mapIdx.mp hm
  simp only [Prod.mk.injEq] at e ⊢
  omega

theorem Touched.itemJobs {s t : State} (h : Touched s t) (w : Who) : t.itemJobs w = s.itemJobs w := by
  unfold State.itemJobs; rw [h.core, h.item]

/-! ### What a read of Loam depends on -/

@[simp] theorem State.noteLoam_loam (s : State) (p : Nat) (x : UnitNote) : (s.noteLoam p x).loam = s.loam := by
  unfold State.noteLoam State.countLoamCe State.recordUe State.bin State.modCtr
  dsimp only
  split <;> split <;> (try split) <;> rfl

theorem State.noteAll_loam (p : Nat) (l : List UnitNote) : ∀ s : State, (l.foldl (fun t x => t.noteLoam p x) s).loam = s.loam := by
  induction l with
  | nil => intro s; rfl
  | cons x l ih => intro s; rw [List.foldl_cons, ih, State.noteLoam_loam]

theorem State.loamSector_same {s t : State} (h : t.loam = s.loam) (p k : Nat) :
    (t.loamSector p k).1.loam = (s.loamSector p k).1.loam ∧ (t.loamSector p k).2 = (s.loamSector p k).2 := by
  unfold State.loamSector
  dsimp only
  rw [h]
  exact ⟨by simp, rfl⟩

/-- The bytes and the tags that a read of Loam gives depend on Loam alone. -/
theorem State.loamRead_same {s t : State} (h : t.loam = s.loam) (p a n : Nat) :
    (t.loamRead p a n).1.loam = (s.loamRead p a n).1.loam ∧ (t.loamRead p a n).2 = (s.loamRead p a n).2 := by
  have key : ∀ (l : List Nat) (x y : State × Nat), x.1.loam = y.1.loam → x.2 = y.2 →
      let f := fun (acc : State × Nat) k => let q := acc.1.loamSector p k; (q.1, worstFault acc.2 (loamTouchFault q.2))
      (l.foldl f x).1.loam = (l.foldl f y).1.loam ∧ (l.foldl f x).2 = (l.foldl f y).2 := by
    intro l
    induction l with
    | nil => intro x y h1 h2; exact ⟨h1, h2⟩
    | cons k l ih =>
      intro x y h1 h2
      obtain ⟨a, b⟩ := State.loamSector_same h1 p k
      exact ih _ _ a (by dsimp only; rw [b, h2])
  obtain ⟨h1, h2⟩ := key (sectorsOf a n) (t, 0) (s, 0) h rfl
  unfold State.loamRead
  dsimp only at h1 h2 ⊢
  rw [h1, h2]
  exact ⟨rfl, rfl⟩

theorem State.loamWrite_same {s t : State} (h : t.loam = s.loam) (p a : Nat) (b : List Byte) :
    (t.loamWrite p a b).1.loam = (s.loamWrite p a b).1.loam ∧ (t.loamWrite p a b).2 = (s.loamWrite p a b).2 := by
  unfold State.loamWrite
  dsimp only
  rw [h]
  exact ⟨by simp only [State.noteAll_loam], rfl⟩

/-- A header read depends on Loam, the live image and the straps alone. -/
theorem State.headerOf_same {s t : State} (h : t.loam = s.loam) (h2 : t.str = s.str) (h3 : t.id = s.id) (w : Who) (i : Item) :
    (t.headerOf w i).1.loam = (s.headerOf w i).1.loam ∧ (t.headerOf w i).2 = (s.headerOf w i).2 := by
  obtain ⟨a, b⟩ := State.loamRead_same h (corePort w.core.val) i.addr 192
  have hd : ∀ x y : State, x.str = s.str → x.id = s.id → y.str = s.str → y.id = s.id → ∀ hh, x.declFault w.core.val hh = y.declFault w.core.val hh := by
    intro x y h1 h2 h3 h4 hh
    unfold State.declFault State.regionOk
    rw [h1, h2, h3, h4]
  unfold State.headerOf
  dsimp only
  rw [h2]
  split
  · exact ⟨h, rfl⟩
  · rw [b]
    split
    · exact ⟨a, rfl⟩
    · rename_i bs _
      refine ⟨a, ?_⟩
      dsimp only
      rw [hd t s h2 h3 rfl rfl]

/-- What an item waited for may have come: nothing of a context changes but that. -/
theorem State.unblock_ctx (s : State) (r : Nat) (w : Who) :
    ∃ b, (s.unblock r).ctx w = { s.ctx w with item := { s.item w with blocked := b } } ∧ ((s.item w).blocked = none → b = none) := by
  have key : ∀ l : List Who, ∀ t : State, (∃ b, t.ctx w = { s.ctx w with item := { s.item w with blocked := b } } ∧ ((s.item w).blocked = none → b = none)) →
      ∃ b, (l.foldl (fun (t : State) v => if (t.item v).blocked = some r then t.modItem v fun i => { i with blocked := none } else t) t).ctx w =
        { s.ctx w with item := { s.item w with blocked := b } } ∧ ((s.item w).blocked = none → b = none) := by
    intro l
    induction l with
    | nil => intro t h; exact h
    | cons v l ih =>
      intro t h
      refine ih _ ?_
      dsimp only
      split
      · by_cases e : w = v
        · subst e
          obtain ⟨b, h, -⟩ := h
          refine ⟨none, ?_, fun _ => rfl⟩
          rw [State.ctx_modItem_self, State.item, h]
        · rw [State.ctx_modItem_ne _ _ e]; exact h
      · exact h
  exact key _ s ⟨(s.item w).blocked, rfl, fun h => h⟩

/-- An item that waits for nothing is left alone. -/
theorem State.unblock_ctx_of {s : State} {w : Who} (r : Nat) (h : (s.item w).blocked = none) : (s.unblock r).ctx w = s.ctx w := by
  obtain ⟨b, e, hb⟩ := s.unblock_ctx r w
  rw [e, hb h, ← h]; rfl

/-! ### DMA channels -/

theorem State.chan_of {s t : State} (h : t.dma.ch = s.dma.ch) (k : Nat) : t.chan k = s.chan k := by unfold State.chan; rw [h]

@[simp] theorem State.chan_activate (s : State) (k : Nat) : s.activate.chan k = s.chan k := State.chan_of (by simp) k

@[simp] theorem State.noteHead_chan (s : State) (c k : Nat) : (s.noteHead c).chan k = s.chan k := by
  unfold State.noteHead
  split
  · split <;> rfl
  · rfl

@[simp] theorem State.noteHead_ev (s : State) (c : Nat) : (s.noteHead c).dma.ev = s.dma.ev := by
  unfold State.noteHead
  split
  · split <;> rfl
  · rfl

@[simp] theorem State.chan_setChan (s : State) (c : Nat) (x : Channel) : (s.setChan c x).chan c = x := by simp [State.chan, State.setChan]

theorem State.chan_setChan_ne (s : State) {c k : Nat} (x : Channel) (h : k ≠ c) : (s.setChan c x).chan k = s.chan k :=
  tabGet_tabSet_ne _ _ _ h

/-! ### Rings (R172, R180) -/

@[simp] theorem State.ring_setRing (s : State) (c r : Nat) (x : Ring) : (s.setRing c r x).ring c r = x := by simp [State.ring, State.setRing]

theorem State.ring_setRing_ne (s : State) {c r d k : Nat} (x : Ring) (h : ringKey d k ≠ ringKey c r) : (s.setRing c r x).ring d k = s.ring d k :=
  tabGet_tabSet_ne _ _ _ h

theorem ringKey_ne {c r k : Nat} (h : k ≠ r) : ringKey c k ≠ ringKey c r := by unfold ringKey; omega

theorem State.ring_of {s t : State} (h : t.msg.rings = s.msg.rings) (c r : Nat) : t.ring c r = s.ring c r := by unfold State.ring; rw [h]

/-- A discarded message changes no ring. -/
theorem State.resetMsg_frame (s : State) (c r a : Nat) (m : RingMsg) : (s.resetMsg c r a m).msg = s.msg ∧ (s.resetMsg c r a m).cores = s.cores ∧
    (s.resetMsg c r a m).str = s.str := by
  have h := Touched.loamRead s 6 (s.ringAddr c r a) 64
  unfold State.resetMsg
  dsimp only
  split
  · split <;> exact ⟨by simp [h.msg], by simp [h.cores], by simp [h.str]⟩
  · split
    · exact ⟨h.msg, h.cores, h.str⟩
    · exact ⟨by simp [State.returnCredits, h.msg], by simp [State.returnCredits, h.cores], by simp [State.returnCredits, h.str]⟩

/-- What an advance of a ring's generation does (R180). -/
theorem State.advanceRing_frame (s : State) (c r : Nat) : ((s.advanceRing c r).ring c r).gen = (s.ring c r).gen + 1 ∧
    ((s.advanceRing c r).ring c r).msgs = [] ∧ ((s.advanceRing c r).ring c r).occ = s.runningEntries c r ∧
    (∀ k, k ≠ r → (s.advanceRing c r).ring c k = s.ring c k) ∧ (s.advanceRing c r).cores = s.cores ∧ (s.advanceRing c r).str = s.str := by
  obtain ⟨X, hX⟩ : ∃ X, X = s.setRing c r { s.ring c r with gen := (s.ring c r).gen + 1 } := ⟨_, rfl⟩
  obtain ⟨T, hT⟩ : ∃ T, T = ((s.ring c r).msgs.foldl (fun (a : State × Nat) m => (a.1.resetMsg c r a.2 m, a.2 + m.entries))
      (X, (s.ring c r).rd + s.runningEntries c r)).1 := ⟨_, rfl⟩
  have hf : T.msg = X.msg ∧ T.cores = X.cores ∧ T.str = X.str := by
    rw [hT]
    refine foldl_keeps (P := fun q : State × Nat => q.1.msg = X.msg ∧ q.1.cores = X.cores ∧ q.1.str = X.str) ?_ _ _ ⟨rfl, rfl, rfl⟩
    rintro b a ⟨h1, h2, h3⟩
    obtain ⟨k1, k2, k3⟩ := State.resetMsg_frame b.1 c r b.2 a
    exact ⟨k1.trans h1, k2.trans h2, k3.trans h3⟩
  have hTr : T.ring c r = { s.ring c r with gen := (s.ring c r).gen + 1 } := by
    rw [State.ring_of (s := X) (by rw [hf.1]), hX, State.ring_setRing]
  have hTk : ∀ k, k ≠ r → T.ring c k = s.ring c k := fun k hk => by
    rw [State.ring_of (s := X) (by rw [hf.1]), hX, State.ring_setRing_ne _ _ (ringKey_ne hk)]
  have e : s.advanceRing c r = if s.runningEntries c r = 0 then T.setRing c r { T.ring c r with rd := (T.ring c r).wr, occ := 0, msgs := [] }
      else T.setRing c r { T.ring c r with wr := ((T.ring c r).rd + s.runningEntries c r) % max 1 (s.ringSize c r), occ := s.runningEntries c r, msgs := [] } := by
    rw [hT, hX]; rfl
  rw [e]
  have hc : T.cores = s.cores := hf.2.1.trans (by rw [hX]; rfl)
  have hs : T.str = s.str := hf.2.2.trans (by rw [hX]; rfl)
  split
  · next h0 =>
    refine ⟨by simp [hTr], by simp, by simp [h0], fun k hk => ?_, by simp [hc], by simp [hs]⟩
    rw [State.ring_setRing_ne _ _ (ringKey_ne hk), hTk k hk]
  · refine ⟨by simp [hTr], by simp, by simp, fun k hk => ?_, by simp [hc], by simp [hs]⟩
    rw [State.ring_setRing_ne _ _ (ringKey_ne hk), hTk k hk]

/-- The message of an ended handler leaves its ring, and its credits go back to its sender (R170, R172). -/
def State.Retired (s : State) (c : Nat) (m : MsgRef) (t : State) : Prop :=
  t.ring c m.ring = { s.ring c m.ring with rd := ((s.ring c m.ring).rd + m.entries) % max 1 (s.ringSize c m.ring)
                                           occ := (s.ring c m.ring).occ - m.entries } ∧
  ((decodeMHdr m.header).kind = 0 → ∃ r : CreditRet, .credit ((decodeMHdr m.header).src / 256) r ∈ t.out ∧
    r.count = BitVec.ofNat 16 m.entries ∧ r.dest = BitVec.ofNat 32 (s.ringDest c m.ring) ∧ r.gen = some (s.ring c m.ring).gen ∧ r.status = .ok)

theorem State.retireMsg_retired (s : State) (c : Nat) (m : MsgRef) : s.Retired c m (s.retireMsg c m) := by
  unfold State.retireMsg State.freeEntries State.returnCredits
  dsimp only
  split
  · next h => exact ⟨by simp, fun e => absurd e h⟩
  · refine ⟨?_, fun _ => ⟨_, List.mem_append.mpr (.inr (List.mem_singleton.mpr rfl)), rfl, rfl, by simp, rfl⟩⟩
    rw [State.ring_of (s := s.setRing c m.ring { s.ring c m.ring with rd := ((s.ring c m.ring).rd + m.entries) % max 1 (s.ringSize c m.ring)
                                                                      occ := (s.ring c m.ring).occ - m.entries }) (by simp)]
    simp

/-- What is retired stays so where rings and outputs are only added to. -/
theorem State.Retired.of {s t u v : State} {c : Nat} {m : MsgRef} (h : s.Retired c m t) (hs : v.msg = s.msg) (h1 : v.str = s.str) (h2 : v.id = s.id)
    (hr : u.msg.rings = t.msg.rings) (ho : ∀ o ∈ t.out, o ∈ u.out) : v.Retired c m u := by
  obtain ⟨a, b⟩ := h
  have e1 : v.ring c m.ring = s.ring c m.ring := State.ring_of (by rw [hs]) ..
  have e2 : v.ringSize c m.ring = s.ringSize c m.ring := by simp [State.ringSize, h1]
  have e3 : v.ringDest c m.ring = s.ringDest c m.ring := by simp [State.ringDest, State.srcOf, State.ownNode, hs, h2]
  refine ⟨by rw [State.ring_of hr, e1, e2]; exact a, fun k => ?_⟩
  obtain ⟨r, r1, r2, r3, r4, r5⟩ := b k
  exact ⟨r, ho _ r1, r2, by rw [e3]; exact r3, by rw [e1]; exact r4, r5⟩

/-- What the end of an item does with its message, and what it leaves of Loam and the rings. -/
theorem State.finishItem_msg (s : State) (w : Who) : (s.finishItem w).loam = s.loam ∧ ((s.item w).msg = none → (s.finishItem w).msg = s.msg) ∧
    ∀ m, (s.item w).msg = some m → s.Retired w.core.val m (s.finishItem w) := by
  unfold State.finishItem
  dsimp only
  split
  · next m e =>
    obtain ⟨h1, h2, h3, h4⟩ := State.retireMsg_frame (s.modCore w.core.val fun x => { x with recs := ({ (s.item w).record with ended := true, stop := s.ts } :: x.recs).take 32, idleTicks := 0 }) w.core.val m
    refine ⟨?_, fun h => ?_, fun m' h => ?_⟩
    · simp only [State.emit_loam, State.setCtx_loam]
      exact h4
    · simp [e] at h
    obtain rfl : m = m' := by simpa [e] using h
    refine State.Retired.of (State.retireMsg_retired (s.modCore w.core.val fun x => { x with recs := ({ (s.item w).record with ended := true, stop := s.ts } :: x.recs).take 32, idleTicks := 0 }) w.core.val m) ?_ ?_ ?_ ?_ ?_
    · simp
    · simp
    · simp
    · simp
    · intro o ho
      simpa using ho
  · next e => exact ⟨by simp, fun _ => by simp, fun m h => by simp [e] at h⟩

/-! ### Register rows -/

@[simp] theorem State.send_out (s : State) (o : Output) : (s.send o).out = s.out ++ [o] := rfl

@[simp] theorem State.noteAccess_cores (s : State) (p : Party) (o f : Nat) : (s.noteAccess p o f).cores = s.cores := by
  unfold State.noteAccess; repeat' first | rfl | split | simp

@[simp] theorem State.noteAccess_loam (s : State) (p : Party) (o f : Nat) : (s.noteAccess p o f).loam = s.loam := by
  unfold State.noteAccess; repeat' first | rfl | split | simp

@[simp] theorem State.noteAccess_syn (s : State) (p : Party) (o f : Nat) : (s.noteAccess p o f).syn = s.syn := by
  unfold State.noteAccess; repeat' first | rfl | split | simp

@[simp] theorem State.noteAccess_str (s : State) (p : Party) (o f : Nat) : (s.noteAccess p o f).str = s.str := by
  unfold State.noteAccess; repeat' first | rfl | split | simp

@[simp] theorem State.noteAccess_pwr (s : State) (p : Party) (o f : Nat) : (s.noteAccess p o f).pwr = s.pwr := by
  unfold State.noteAccess; repeat' first | rfl | split | simp

/-- The answer is the last output. -/
theorem State.answered_last (p : Party) (o : Nat) (q : State × Nat) :
    (State.answered p o q).out.getLast? = some (.regAnswer p 0 q.2) := by
  simp [State.answered]

/-- A write that every check of R256 lets through. -/
theorem writeFault_ok {b : Blocks} {s : State} {a : Acc} {x : RegAt} {v : Nat} (h1 : x.row.priv.allows a true = true)
    (h2 : x.row.ro = false) (h3 : v &&& (2 ^ 64 - 1 - x.row.mask) = 0) (h4 : b.range s x.row.first x.k x.o v = true) :
    writeFault b s a x v = 0 := by
  unfold writeFault
  simp only [h1, h2, Bool.not_true, Bool.false_eq_true, if_false]
  rw [if_neg]
  rintro (h | h)
  · exact h h3
  · simp [h4] at h

/-- A write without the privilege of the register's row. -/
theorem writeFault_denied {b : Blocks} {s : State} {a : Acc} {x : RegAt} {v : Nat} (h1 : x.row.priv.allows a true = false) :
    writeFault b s a x v = 0x0C02 := by
  unfold writeFault
  simp [h1]

theorem State.unblock_queues (s : State) (r c : Nat) : ((s.unblock r).core c).nq = (s.core c).nq ∧ ((s.unblock r).core c).uq = (s.core c).uq := by
  unfold State.unblock
  refine foldl_keeps (P := fun t : State => (t.core c).nq = (s.core c).nq ∧ (t.core c).uq = (s.core c).uq) ?_ _ _ ⟨rfl, rfl⟩
  rintro b a ⟨h1, h2⟩
  split
  · by_cases e : c = a.core.val
    · subst e
      have : ∀ (x : Core) k y, (x.setCtx k y).nq = x.nq ∧ (x.setCtx k y).uq = x.uq := by intro x k y; cases k <;> exact ⟨rfl, rfl⟩
      simp [State.modItem, State.setItem, State.setCtx, this, h1, h2]
    · simp only [State.modItem, State.setItem, State.setCtx, State.core_modCore_ne _ _ e]
      exact ⟨h1, h2⟩
  · exact ⟨h1, h2⟩

end Sys2Proof.Machine
end

