-- ==== Sys2Proof/Laws/Kept.lean ====
section
/-! SUPPORT. Laws/Kept.lean: what every operation of the model keeps: the straps, the queue, and the soundness of the state
(Safety.lean). One lemma for each shape of a definition's body, so that the lemma of an operation follows its body. -/

namespace Sys2Proof.Machine

/-- From `s` to `t` the straps and the queue are unchanged, and `t` is sound if `s` is. -/
structure Kept (s t : State) : Prop where
  id : t.id = s.id
  pending : t.pending = s.pending
  sound : s.Sound → t.Sound

/-- `Kept` of a step that may not be taken. -/
structure KeptO (s : State) (o : Option State) : Prop where
  get : ∀ t, o = some t → Kept s t

/-- What a command does: it goes on to a state that keeps what every operation keeps. -/
structure KeptR (s : State) (o : Host.Outcome State Fault Refusal) : Prop where
  get : ∃ t, o = .next t ∧ Kept s t

/-- A change of a core that keeps it sound. -/
structure CoreKept (f : Core → Core) : Prop where
  get : ∀ x, x.Sound → (f x).Sound

theorem Kept.refl (s : State) : Kept s s := ⟨rfl, rfl, fun h => h⟩

theorem Kept.trans {s t u : State} (h : Kept s t) (g : Kept t u) : Kept s u :=
  ⟨g.id.trans h.id, g.pending.trans h.pending, fun x => g.sound (h.sound x)⟩

theorem KeptO.none (s : State) : KeptO s none := ⟨fun _ h => by cases h⟩

theorem KeptO.some {s t : State} (h : Kept s t) : KeptO s (some t) := ⟨fun _ e => by cases e; exact h⟩

theorem KeptO.of {s t : State} {o : Option State} (g : KeptO t o) (h : Kept s t) : KeptO s o := ⟨fun u e => h.trans (g.get u e)⟩

theorem KeptO.map {s : State} {o : Option State} {f : State → State} (h : KeptO s o) (g : ∀ t, Kept t (f t)) : KeptO s (o.map f) := by
  cases o with
  | none => exact KeptO.none s
  | some t => exact KeptO.some ((h.get t rfl).trans (g t))

/-- An update of fields that the notion does not read. -/
theorem Kept.upd {s t : State} (h : Kept s t) {ticks ts tsRun align str err ctr msg syn port dma bq pwr mrl tel dbg latches held heldAon damage soft moved out free itemNo}
    (hm : Mrl.mram mrl = t.mrl.mram) (hl : Tel.log tel = t.tel.log) :
    Kept s (State.mk t.id ticks ts tsRun align str t.loam err ctr t.cores msg syn port dma bq pwr mrl tel dbg latches held heldAon damage soft moved out free itemNo t.pending) :=
  h.trans ⟨rfl, rfl, fun x => ⟨x.1, x.2.1, by rw [hm]; exact x.2.2.1, by rw [hl]; exact x.2.2.2⟩⟩

/-- A new Loam store in canonical form. -/
theorem Kept.updLoam {s t : State} (h : Kept s t) {ticks ts tsRun align str loam err ctr msg syn port dma bq pwr mrl tel dbg latches held heldAon damage soft moved out free itemNo}
    (hw : s.Sound → t.Sound → (Store.cells loam).wf = true) (hm : Mrl.mram mrl = t.mrl.mram) (hl : Tel.log tel = t.tel.log) :
    Kept s (State.mk t.id ticks ts tsRun align str loam err ctr t.cores msg syn port dma bq pwr mrl tel dbg latches held heldAon damage soft moved out free itemNo t.pending) :=
  ⟨h.id, h.pending, fun y => have x := h.sound y
    ⟨hw y x, x.2.1, by rw [hm]; exact x.2.2.1, by rw [hl]; exact x.2.2.2⟩⟩

/-- A new MRAM segment in canonical form. -/
theorem Kept.updMram {s t : State} (h : Kept s t) {ticks ts tsRun align str err ctr msg syn port dma bq pwr mrl tel dbg latches held heldAon damage soft moved out free itemNo}
    (hw : t.Sound → (Mrl.mram mrl).wf = true) (hl : Tel.log tel = t.tel.log) :
    Kept s (State.mk t.id ticks ts tsRun align str t.loam err ctr t.cores msg syn port dma bq pwr mrl tel dbg latches held heldAon damage soft moved out free itemNo t.pending) :=
  ⟨h.id, h.pending, fun y => have x := h.sound y
    ⟨x.1, x.2.1, hw x, by rw [hl]; exact x.2.2.2⟩⟩

/-- The meaning of a block of registers keeps what every operation keeps. -/
structure BlocksKept (b : Blocks) : Prop where
  get : ∀ {z s : State} {f k o v : Nat}, Kept z s → Kept z (b.act s f k o v).1

theorem Core.sound_new : Core.Sound {} := ⟨rfl, rfl, by simp⟩

/-- The core of a sound state is sound. -/
theorem State.Sound.core {s : State} (h : s.Sound) (c : Nat) : (s.core c).Sound := by
  rcases tabGet_mem ({} : Core) s.cores c with e | e
  · unfold State.core; rw [e]; exact Core.sound_new
  · exact h.2.1 _ e

theorem State.setCore_kept {s t : State} (h : Kept s t) {c : Nat} {x : Core} (hx : s.Sound → t.Sound → x.Sound) : Kept s (t.setCore c x) := by
  refine ⟨h.id, h.pending, fun y => ?_⟩
  have z := h.sound y
  refine ⟨z.1, fun e he => ?_, z.2.2⟩
  rcases mem_tabSet he with rfl | he
  · exact hx y z
  · exact z.2.1 e he

theorem State.modCore_kept {s t : State} (h : Kept s t) {c : Nat} {f : Core → Core} (hf : CoreKept f) : Kept s (t.modCore c f) :=
  State.setCore_kept h fun _ z => hf.get _ (z.core c)

theorem State.row_kept {s : State} {f : State → State} (h : Kept s (f s)) : KeptR s (s.row f) := by
  refine ⟨_, rfl, ?_⟩
  split
  · exact Kept.refl s
  · exact h

theorem State.checked_kept {s : State} {ok : Bool} {f : State → State} (h : Kept s (f s)) : KeptR s (s.checked ok f) := by
  refine State.row_kept ?_
  split
  · exact h
  · exact Kept.refl s

theorem Kept.ite {s a b : State} {p : Prop} [Decidable p] (h : Kept s a) (g : Kept s b) : Kept s (if p then a else b) := by
  split <;> assumption

theorem KeptO.ite {s : State} {a b : Option State} {p : Prop} [Decidable p] (h : KeptO s a) (g : KeptO s b) : KeptO s (if p then a else b) := by
  split <;> assumption

theorem Kept.fstIte {α : Type} {s : State} {a b : State × α} {p : Prop} [Decidable p] (h : Kept s a.1) (g : Kept s b.1) :
    Kept s (if p then a else b).1 := by
  split <;> assumption

/-- A fold over a list. -/
theorem Kept.foldl {α : Type} {s : State} {f : State → α → State} (hf : ∀ t x, Kept s t → Kept s (f t x)) :
    ∀ {l : List α} {t : State}, Kept s t → Kept s (l.foldl f t) := by
  intro l
  induction l with
  | nil => intro t h; exact h
  | cons x l ih => intro t h; exact ih (hf _ _ h)

/-- A fold over a list that carries more than the state. -/
theorem Kept.foldlFst {α β : Type} {s : State} {f : State × β → α → State × β} (hf : ∀ t x, Kept s t.1 → Kept s (f t x).1) :
    ∀ {l : List α} {t : State × β}, Kept s t.1 → Kept s (l.foldl f t).1 := by
  intro l
  induction l with
  | nil => intro t h; exact h
  | cons x l ih => intro t h; exact ih (hf _ _ h)

theorem Kept.getD {s t : State} {o : Option State} (h : KeptO s o) (g : Kept s t) : Kept s (o.getD t) := by
  cases o with
  | none => exact g
  | some t => exact h.get t rfl

/-- An update of a core that leaves its stores and its records alone. -/
theorem CoreKept.of {f : Core → Core} (h1 : ∀ x, (f x).kaolin = x.kaolin) (h2 : ∀ x, (f x).vb = x.vb) (h3 : ∀ x, (f x).recs = x.recs) : CoreKept f :=
  ⟨fun x hx => by rw [Core.Sound, h1, h2, h3]; exact hx⟩

/-- A core with the stores and the records of a sound core is sound. -/
theorem Core.Sound.of {x y : Core} (h : x.Sound) (h1 : y.kaolin = x.kaolin) (h2 : y.vb = x.vb) (h3 : y.recs = x.recs) : y.Sound := by
  rw [Core.Sound, h1, h2, h3]; exact h

/-- A core with the records of a sound core and sound stores is sound. -/
theorem Core.Sound.ofStores {x y : Core} (h : x.Sound) (h1 : y.kaolin.cells.wf = true) (h2 : y.vb.cells.wf = true) (h3 : y.recs = x.recs) :
    y.Sound := by
  rw [Core.Sound, h3]; exact ⟨h1, h2, h.2.2⟩

/-- A change of a core that keeps it sound in a sound state. -/
theorem Kept.modCoreOf {s t : State} (h : Kept s t) {c : Nat} {f : Core → Core} (hf : t.Sound → ∀ x, x.Sound → (f x).Sound) :
    Kept s (t.modCore c f) :=
  State.setCore_kept h fun _ z => hf z _ (z.core c)

theorem Core.setCtx_kept {k : CtxKind} {y : Ctx} : CoreKept fun x => x.setCtx k y := by
  cases k <;> exact CoreKept.of (fun _ => rfl) (fun _ => rfl) (fun _ => rfl)

/-- Bytes of Kaolin written. -/
theorem Core.Sound.write {x y : Core} (h : x.Sound) {a : Nat} {bs : List Byte} (h1 : y.kaolin.cells = x.kaolin.cells.write a bs)
    (h2 : y.vb = x.vb) (h3 : y.recs = x.recs) : y.Sound :=
  h.ofStores (by rw [h1]; exact Mem.wf_write _ _ h.1) (by rw [h2]; exact h.2.1) h3

/-- Units of Kaolin poisoned. -/
theorem Core.Sound.poisonKao {x y : Core} (h : x.Sound) {u : Nat} {l : List Nat} (h1 : y.kaolin = x.kaolin.poisonUnits u l)
    (h2 : y.vb = x.vb) (h3 : y.recs = x.recs) : y.Sound :=
  h.ofStores (by rw [h1]; exact Mem.wf_filter _ h.1) (by rw [h2]; exact h.2.1) h3

/-- Units of a VB poisoned. -/
theorem Core.Sound.poisonVb {x y : Core} (h : x.Sound) {u : Nat} {l : List Nat} (h1 : y.kaolin = x.kaolin)
    (h2 : y.vb = x.vb.poisonUnits u l) (h3 : y.recs = x.recs) : y.Sound :=
  h.ofStores (by rw [h1]; exact h.1) (by rw [h2]; exact Mem.wf_filter _ h.2.1) h3

/-- Stores emptied. -/
theorem Core.Sound.empty {x y : Core} (h : x.Sound) (h1 : y.kaolin = {}) (h2 : y.vb = {}) (h3 : y.recs = x.recs) : y.Sound :=
  h.ofStores (by rw [h1]; rfl) (by rw [h2]; rfl) h3

/-- The records of the 32 most recently ended items (R274). -/
theorem Core.Sound.take {x y : Core} (h : x.Sound) {l : List Rec} (h1 : y.kaolin = x.kaolin) (h2 : y.vb = x.vb)
    (h3 : y.recs = l.take 32) : y.Sound := by
  rw [Core.Sound, h1, h2, h3]; exact ⟨h.1, h.2.1, by simp⟩

theorem Core.nextCmd_sound {x y : Core} {e : QEntry} {u : Bool} (h : x.nextCmd = some (e, u, y)) (hx : x.Sound) : y.Sound := by
  unfold Core.nextCmd at h
  split at h
  · cases h; exact hx.of rfl rfl rfl
  · split at h
    · cases h
    · cases h; exact hx.of rfl rfl rfl
  · cases h

theorem Core.setStatRow_sound {x : Core} {st : Nat} {v : List Fp32} (h : x.Sound) : (x.setStatRow st v).Sound := h.of rfl rfl rfl

theorem Core.setMaskBits_sound {m : Nat} {p : Nat → Nat × Nat} {l : List (Nat × Bool)} :
    ∀ {x : Core}, x.Sound → (l.foldl (fun x e => x.setMaskBit m (p e.1) e.2) x).Sound := by
  induction l with
  | nil => intro x h; exact h
  | cons e l ih => intro x h; exact ih (x := x.setMaskBit m (p e.1) e.2) (h.of rfl rfl rfl)

/-- Replay leaves the segment in canonical form. -/
theorem replayOf_wf {m : Mem} (h : m.wf = true) : (replayOf m).mrl.mram.wf = true := by
  unfold replayOf
  split
  · exact h
  · unfold replayEmpty
    dsimp only
    exact Mem.wf_write _ _ h

/-! ### Stores -/

theorem Store.poisonUnits_wf {st : Store} {u : Nat} {l : List Nat} (h : st.cells.wf = true) : (st.poisonUnits u l).cells.wf = true :=
  Mem.wf_filter _ h

theorem Store.touch_wf {st : Store} {u k : Nat} (h : st.cells.wf = true) : (st.touch u k).1.cells.wf = true := by
  unfold Store.touch
  dsimp only
  split
  · exact h
  · split
    · exact Store.poisonUnits_wf h
    · exact h

theorem Store.touchRange_wf {st : Store} {u a n : Nat} (h : st.cells.wf = true) : (st.touchRange u a n).1.cells.wf = true := by
  unfold Store.touchRange
  generalize (if n = 0 then [] else (List.range ((a + n - 1) / u - a / u + 1)).map fun i => a / u + i) = l
  have : ∀ (l : List Nat) (acc : Store × List UnitNote), acc.1.cells.wf = true → (l.foldl (fun acc k =>
      let r := acc.1.touch u k
      (r.1, acc.2 ++ [(k, r.2.1, r.2.2)])) acc).1.cells.wf = true := by
    intro l
    induction l with
    | nil => intro acc h; exact h
    | cons k l ih => intro acc h; exact ih _ (Store.touch_wf h)
  exact this l _ h

theorem Store.writeUnit_wf {st : Store} {u a : Nat} {bs : List Byte} (h : st.cells.wf = true) : (st.writeUnit u a bs).1.cells.wf = true := by
  unfold Store.writeUnit
  dsimp only
  split
  · exact Mem.wf_write _ _ h
  · split
    · exact h
    · split
      · exact Store.poisonUnits_wf h
      · exact Mem.wf_write _ _ h

theorem Store.writeRange_wf {u : Nat} (n : Nat) :
    ∀ {st : Store} {a : Nat} {bs : List Byte}, st.cells.wf = true → (st.writeRange u n a bs).1.cells.wf = true := by
  induction n with
  | zero => intro st a bs h; exact h
  | succ n ih =>
    intro st a bs h
    unfold Store.writeRange
    split
    · exact h
    · exact ih (Store.writeUnit_wf h)

/-- The state of a pair that a match took apart. -/
theorem Kept.fst {α : Type} {s t : State} {p : State × α} {v : α} (h : Kept s p.1) (e : p = (t, v)) : Kept s t := by
  subst e; exact h

end Sys2Proof.Machine
end

