-- ==== Sys2Proof/Laws/Saves.lean ====
section
/-! SUPPORT. Laws/Saves.lean: what a save leaves in the save region, and what a restore gives the core, where the stores hold no upset and
no tag (R59, R60). -/

namespace Sys2Proof.Machine

/-! ### Bytes -/

theorem leNat_lt : ∀ bs : List Byte, leNat bs < 256 ^ bs.length := by
  intro bs
  induction bs with
  | nil => simp [leNat]
  | cons b bs ih =>
    simp only [leNat, List.length_cons, Nat.pow_succ]
    have := b.isLt
    omega

theorem leBytes_leNat (bs : List Byte) : leBytes bs.length (leNat bs) = bs := by
  induction bs with
  | nil => rfl
  | cons b bs ih =>
    simp only [leNat, List.length_cons, leBytes]
    have hb := b.isLt
    rw [show (b.toNat + 256 * leNat bs) / 256 = leNat bs by omega, ih]
    congr 1
    apply BitVec.eq_of_toNat_eq
    simp only [BitVec.toNat_ofNat]
    omega

theorem Mem.read_length (m : Mem) (a n : Nat) : (m.read a n).length = n := by simp [Mem.read]

theorem Mem.read_get (m : Mem) (a n i : Nat) (h : i < (m.read a n).length) : (m.read a n)[i] = m.get (a + i) := by simp [Mem.read]

/-- Bytes that agree with a list are that list. -/
theorem Mem.read_eq {m : Mem} {a : Nat} {bs : List Byte} (h : ∀ i (hi : i < bs.length), m.get (a + i) = bs[i]) : m.read a bs.length = bs := by
  apply List.ext_getElem
  · simp [Mem.read]
  · intro i h1 h2
    rw [Mem.read_get]
    exact h i h2

theorem tabGet_map_range {α : Type} (d : α) (f : Nat → α) (n i : Nat) (h : i < n) : tabGet d ((List.range n).map fun k => (k, f k)) i = f i := by
  have key : ∀ l : List Nat, i ∈ l → tabGet d (l.map fun k => (k, f k)) i = f i := by
    intro l
    induction l with
    | nil => intro h; simp at h
    | cons a l ih =>
      intro h
      simp only [List.map_cons, tabGet]
      split
      · next e => rw [e]
      · next e =>
        rcases List.mem_cons.mp h with h | h
        · exact absurd h.symm e
        · exact ih h
  exact key _ (List.mem_range.mpr h)

/-! ### Saving -/

/-- A save under way: cores, image and straps as they were, Loam clean; bytes of `D` hold what `F` says, bytes outside `R` what they held. -/
structure Saving (s t : State) (F : Nat → Byte) (R D : Nat → Prop) : Prop where
  str : t.str = s.str
  id : t.id = s.id
  free : t.free = s.free
  core : ∀ d, t.core d = s.core d
  clean : t.loam.Clean
  wf : t.loam.cells.wf = true
  hit : ∀ x, D x → t.loam.cells.get x = F x
  miss : ∀ x, ¬ R x → t.loam.cells.get x = s.loam.cells.get x

theorem Saving.write {s t : State} {F R D} (h : Saving s t F R D) (p a : Nat) (bs : List Byte) (hb : ∀ i (hi : i < bs.length), bs[i] = F (a + i))
    (hR : ∀ i < bs.length, R (a + i)) : Saving s (t.loamWrite p a bs).1 F R fun x => D x ∨ (a ≤ x ∧ x < a + bs.length) := by
  rw [State.loamWrite_clean h.clean]
  refine ⟨h.str, h.id, h.free, h.core, ⟨h.clean.flips, h.clean.poison, h.clean.tags⟩, Mem.wf_write _ _ h.wf, fun x hx => ?_, fun x hx => ?_⟩
  · dsimp only
    by_cases e : a ≤ x ∧ x < a + bs.length
    · obtain ⟨e1, e2⟩ := e
      have := Mem.get_write_in bs t.loam.cells a (x - a) h.wf (by omega)
      rw [show a + (x - a) = x by omega] at this
      rw [this, hb, show a + (x - a) = x by omega]
    · rw [Mem.get_write_out _ _ _ _ (by omega)]
      rcases hx with hx | hx
      · exact h.hit x hx
      · exact absurd hx e
  · dsimp only
    rw [Mem.get_write_out _ _ _ _ ?_]
    · exact h.miss x hx
    · by_contra e
      exact hx (by have := hR (x - a) (by omega); rwa [show a + (x - a) = x by omega] at this)

theorem Saving.mono {s t : State} {F R} {D E : Nat → Prop} (h : Saving s t F R D) (he : ∀ x, E x → D x) : Saving s t F R E :=
  ⟨h.str, h.id, h.free, h.core, h.clean, h.wf, fun x hx => h.hit x (he x hx), h.miss⟩

/-- A fold of steps each of which saves a range. -/
theorem Saving.fold {α : Type} {s : State} {F R} (f : State → α → State) (rng : α → Nat → Prop) (l : List α)
    (hf : ∀ a ∈ l, ∀ t D, Saving s t F R D → Saving s (f t a) F R fun x => D x ∨ rng a x) :
    ∀ t D, Saving s t F R D → Saving s (l.foldl f t) F R fun x => D x ∨ ∃ a ∈ l, rng a x := by
  induction l with
  | nil => intro t D h; exact h.mono fun x hx => by simpa using hx
  | cons a l ih =>
    intro t D h
    refine (ih (fun b hb => hf b (List.mem_cons_of_mem _ hb)) _ _ (hf a List.mem_cons_self t D h)).mono fun x hx => ?_
    rcases hx with hx | ⟨b, hb, hx⟩
    · exact .inl (.inl hx)
    · rcases List.mem_cons.mp hb with rfl | hb
      · exact .inl (.inr hx)
      · exact .inr ⟨b, hb, hx⟩

/-- A core put back as it is. -/
theorem Saving.sameCore {s t : State} {F R D} (h : Saving s t F R D) (c : Nat) (f : Core → Core) (hf : f (t.core c) = t.core c) :
    Saving s (t.modCore c f) F R D := by
  refine ⟨h.str, h.id, h.free, fun d => ?_, h.clean, h.wf, h.hit, h.miss⟩
  by_cases e : d = c
  · subst e; rw [State.core_modCore_self, hf, h.core]
  · rw [State.core_modCore_ne _ _ e, h.core]

/-- What a save leaves at each address of the save region. -/
def savedByte (s : State) (c : Nat) (x : Nat) : Byte :=
  let e := 2 ^ s.id.edgeLog2
  let y := x - s.saveBase c
  let k := s.core c
  if y < 6 * (e * e) then k.kaolin.cells.get y
  else if y < 10 * (e * e) then k.vb.cells.get (65536 * ((y - 6 * (e * e)) / (e * e)) + (y - 6 * (e * e)) % (e * e))
  else if y < 10 * (e * e) + 4096 then ((List.range 512).flatMap fun i => leBytes 8 (tabGet 0 k.masks i).toNat).getD (y - 10 * (e * e)) 0
  else if y < 10 * (e * e) + 8192 then ((List.range 1024).flatMap fun i => leBytes 4 (tabGet 0 k.stats i).toNat).getD (y - (10 * (e * e) + 4096)) 0
  else (s.freeBytes 8192).2.getD (y - (10 * (e * e) + 8192)) 0

theorem flatMap_leBytes_length (n : Nat) (f : Nat → Nat) (k : Nat) : ((List.range k).flatMap fun i => leBytes n (f i)).length = n * k := by
  induction k with
  | zero => simp
  | succ k ih => rw [List.range_succ, List.flatMap_append, List.length_append, ih]; simp [leBytes_length, Nat.mul_succ]

theorem flatMap_leBytes_get (n : Nat) (f : Nat → Nat) (k i j : Nat) (hi : i < k) (hj : j < n) :
    ((List.range k).flatMap fun i => leBytes n (f i)).getD (n * i + j) 0 = (leBytes n (f i)).getD j 0 := by
  induction k with
  | zero => omega
  | succ k ih =>
    rw [List.range_succ, List.flatMap_append]
    by_cases e : i < k
    · have hl : n * i + j < ((List.range k).flatMap fun i => leBytes n (f i)).length := by
        rw [flatMap_leBytes_length]
        calc n * i + j < n * i + n := by omega
          _ = n * (i + 1) := by rw [Nat.mul_succ]
          _ ≤ n * k := Nat.mul_le_mul_left _ e
      rw [← ih e, List.getD_append _ _ _ _ hl]
    · obtain rfl : i = k := by omega
      rw [List.getD_append_right _ _ _ _ (by rw [flatMap_leBytes_length]; omega), flatMap_leBytes_length]
      simp

/-- The ranges that a header declares lie in Kaolin and in the vector buffers of the array edge. -/
def Hdr.Fits (h : Hdr) (e : Nat) : Prop :=
  1024 * (h.kaoBase + h.kaoLen) ≤ 6 * (e * e) ∧ ∀ p ∈ h.vbParts, p.1 < 4 ∧ p.2.1 + p.2.2 ≤ e * e ∧ p.2.1 + p.2.2 ≤ 65536

/-- The addresses of a core's save region. -/
def inSave (s : State) (c x : Nat) : Prop := s.saveBase c ≤ x ∧ x < s.saveBase c + Config.saveLen (2 ^ s.id.edgeLog2)

theorem Saving.saveBase {s t : State} {F R D} (h : Saving s t F R D) (c : Nat) : t.saveBase c = s.saveBase c := by
  unfold State.saveBase; rw [h.str]

theorem unitStarts_mem {u a n x : Nat} (h : x ∈ unitStarts u a n) : a ≤ x ∧ x + u ≤ a + n := by
  unfold unitStarts at h
  obtain ⟨i, hi, rfl⟩ := List.mem_map.mp h
  have := List.mem_range.mp hi
  have h2 : u * (n / u) ≤ n := Nat.mul_div_le n u
  have h3 : u * (i + 1) ≤ u * (n / u) := Nat.mul_le_mul_left _ this
  rw [Nat.mul_succ] at h3
  omega

theorem unitStarts_cover {u a n x : Nat} (hu : 0 < u) (hn : n % u = 0) (h1 : a ≤ x) (h2 : x < a + n) : ∃ y ∈ unitStarts u a n, y ≤ x ∧ x < y + u := by
  refine ⟨a + u * ((x - a) / u), List.mem_map.mpr ⟨(x - a) / u, List.mem_range.mpr ?_, rfl⟩, ?_, ?_⟩
  · have : u * (n / u) = n := by have := Nat.div_add_mod n u; omega
    rw [Nat.div_lt_iff_lt_mul hu, Nat.mul_comm]
    omega
  · have := Nat.mul_div_le (x - a) u
    omega
  · have := Nat.div_add_mod (x - a) u
    have := Nat.mod_lt (x - a) hu
    omega

theorem savedByte_kao (s : State) (c x : Nat) (h : x < 6 * (2 ^ s.id.edgeLog2 * 2 ^ s.id.edgeLog2)) :
    savedByte s c (s.saveBase c + x) = (s.core c).kaolin.cells.get x := by
  unfold savedByte
  dsimp only
  rw [show s.saveBase c + x - s.saveBase c = x by omega, if_pos h]

theorem savedByte_vb (s : State) (c v x : Nat) (hv : v < 4) (h : x < 2 ^ s.id.edgeLog2 * 2 ^ s.id.edgeLog2) :
    savedByte s c (s.saveVbAt c v + x) = (s.core c).vb.cells.get (65536 * v + x) := by
  unfold savedByte State.saveVbAt Config.saveVb
  dsimp only
  generalize 2 ^ s.id.edgeLog2 * 2 ^ s.id.edgeLog2 = q at *
  rw [show s.saveBase c + q * 6 + v * q + x - s.saveBase c = q * 6 + (v * q + x) by omega]
  have hq : v * q + x < 4 * q := by
    have : (v + 1) * q ≤ 4 * q := Nat.mul_le_mul_right _ hv
    rw [Nat.add_mul] at this
    omega
  rw [if_neg (by omega), if_pos (by omega), show q * 6 + (v * q + x) - 6 * q = x + q * v by rw [Nat.mul_comm v q]; omega]
  rw [Nat.add_mul_div_left _ _ (by omega), Nat.add_mul_mod_self_left, Nat.div_eq_of_lt h, Nat.mod_eq_of_lt h, Nat.zero_add]

/-- Vector buffer ranges are whole sectors. -/
theorem Hdr.vbParts_unit {h : Hdr} {p : Nat × Nat × Nat} (hp : p ∈ h.vbParts) : p.2.2 % 64 = 0 := by
  obtain ⟨v, hv, hp⟩ := List.mem_flatMap.mp hp
  dsimp only at hp
  rcases List.mem_append.mp hp with hp | hp
  · split at hp
    · simp only [List.mem_singleton] at hp; rw [hp]; dsimp only; omega
    · simp at hp
  · split at hp
    · simp only [List.mem_singleton] at hp; rw [hp]; dsimp only; omega
    · simp at hp

/-- An address in the state block is in its masks, its statistics or its sequencer state. -/
theorem inBlock {a b x : Nat} (h1 : a + b ≤ x) (h2 : x < a + (b + 16384)) :
    (a + b ≤ x ∧ x < a + b + 4096) ∨ (a + (b + 4096) ≤ x ∧ x < a + (b + 4096) + 4096) ∨ (a + (b + 8192) ≤ x ∧ x < a + (b + 8192) + 8192) := by omega

theorem inMasks {b m i j : Nat} (hi : i < 512) (hj : j < 8) : b + m ≤ b + m + (8 * i + j) ∧ b + m + (8 * i + j) < b + (m + 16384) := by omega

theorem inStats {b m i j : Nat} (hi : i < 1024) (hj : j < 4) :
    b + m ≤ b + (m + 4096) + (4 * i + j) ∧ b + (m + 4096) + (4 * i + j) < b + (m + 16384) := by omega

/-- A save of the declared ranges and of the state block (R59). -/
theorem State.saveCore_saves {s : State} {c : Nat} {h : Hdr} (hw : s.loam.cells.wf = true) (hl : s.loam.Clean) (hk : (s.core c).kaolin.Clean)
    (hv : (s.core c).vb.Clean) (hf : h.Fits (2 ^ s.id.edgeLog2)) :
    Saving { s with free := s.free + 8192 } (s.saveCore c h) (savedByte s c) (inSave s c) fun x =>
      (s.saveBase c + 1024 * h.kaoBase ≤ x ∧ x < s.saveBase c + 1024 * (h.kaoBase + h.kaoLen)) ∨
      (∃ p ∈ h.vbParts, s.saveVbAt c p.1 + p.2.1 ≤ x ∧ x < s.saveVbAt c p.1 + (p.2.1 + p.2.2)) ∨
      (s.saveBase c + Config.saveMasks (2 ^ s.id.edgeLog2) ≤ x ∧ x < s.saveBase c + Config.saveLen (2 ^ s.id.edgeLog2)) := by
  obtain ⟨f1, f2⟩ := hf
  obtain ⟨q, hq⟩ : ∃ q, q = 2 ^ s.id.edgeLog2 * 2 ^ s.id.edgeLog2 := ⟨_, rfl⟩
  rw [← hq] at f1 f2
  have hvb : ∀ v, s.saveVbAt c v = s.saveBase c + q * 6 + v * q := by intro v; simp [State.saveVbAt, Config.saveVb, ← hq]
  have hlen : Config.saveLen (2 ^ s.id.edgeLog2) = q * 10 + 16384 := by simp [Config.saveLen, ← hq]
  have s0 : Saving s s (savedByte s c) (inSave s c) fun _ => False := ⟨rfl, rfl, rfl, fun _ => rfl, hl, hw, fun _ h => h.elim, fun _ _ => rfl⟩
  -- Kaolin
  have s1 := Saving.fold (fun (t : State) a => saveUnit c (t.kaoRead c a 256) (t.saveBase c + a) 256)
    (fun a x => s.saveBase c + a ≤ x ∧ x < s.saveBase c + a + 256) (unitStarts 256 (1024 * h.kaoBase) (1024 * h.kaoLen)) (by
      intro a ha t D ht
      have hb := unitStarts_mem ha
      rw [State.kaoRead_clean (by rw [ht.core]; exact hk), ht.saveBase]
      unfold saveUnit
      dsimp only
      have := (ht.sameCore c (fun x => { x with kaolin := (t.core c).kaolin }) rfl).write (corePort c) (s.saveBase c + a) ((t.core c).kaolin.cells.read a 256) ?_ ?_
      · rwa [Mem.read_length] at this
      · intro i hi
        rw [Mem.read_get, ht.core]
        rw [Mem.read_length] at hi
        rw [show s.saveBase c + a + i = s.saveBase c + (a + i) by omega, savedByte_kao]
        rw [← hq]; omega
      · intro i hi
        rw [Mem.read_length] at hi
        unfold inSave
        rw [hlen]
        omega) s _ s0
  -- VBs
  have s2 := Saving.fold (fun (t : State) (p : Nat × Nat × Nat) => (unitStarts 64 p.2.1 p.2.2).foldl
      (fun (t : State) a => saveUnit c (t.vbRead c (65536 * p.1 + a) 64) (t.saveVbAt c p.1 + a) 64) t)
    (fun p x => ∃ a ∈ unitStarts 64 p.2.1 p.2.2, s.saveVbAt c p.1 + a ≤ x ∧ x < s.saveVbAt c p.1 + a + 64) h.vbParts (by
      intro p hp t D ht
      obtain ⟨g1, g2, g3⟩ := f2 p hp
      refine Saving.fold _ (fun a x => s.saveVbAt c p.1 + a ≤ x ∧ x < s.saveVbAt c p.1 + a + 64) _ ?_ t D ht
      intro a ha t D ht
      have hb := unitStarts_mem ha
      have hva : t.saveVbAt c p.1 = s.saveVbAt c p.1 := by unfold State.saveVbAt; rw [ht.saveBase, ht.id]
      rw [State.vbRead_clean (by rw [ht.core]; exact hv), hva]
      unfold saveUnit
      dsimp only
      have := (ht.sameCore c (fun x => { x with vb := (t.core c).vb }) rfl).write (corePort c) (s.saveVbAt c p.1 + a)
        ((t.core c).vb.cells.read (65536 * p.1 + a) 64) ?_ ?_
      · rwa [Mem.read_length] at this
      · intro i hi
        rw [Mem.read_get, ht.core]
        rw [Mem.read_length] at hi
        rw [show s.saveVbAt c p.1 + a + i = s.saveVbAt c p.1 + (a + i) by omega, savedByte_vb s c _ _ g1 (by rw [← hq]; omega), Nat.add_assoc]
      · intro i hi
        rw [Mem.read_length] at hi
        unfold inSave
        rw [hlen, hvb]
        have : (p.1 + 1) * q ≤ 4 * q := Nat.mul_le_mul_right _ g1
        rw [Nat.add_mul] at this
        omega) _ _ s1
  -- the state block
  obtain ⟨T, hT⟩ : ∃ T, T = h.vbParts.foldl (fun (t : State) p => (unitStarts 64 p.2.1 p.2.2).foldl
      (fun (t : State) a => saveUnit c (t.vbRead c (65536 * p.1 + a) 64) (t.saveVbAt c p.1 + a) 64) t)
      ((unitStarts 256 (1024 * h.kaoBase) (1024 * h.kaoLen)).foldl (fun (t : State) a => saveUnit c (t.kaoRead c a 256) (t.saveBase c + a) 256) s) := ⟨_, rfl⟩
  rw [← hT] at s2
  have e0 : s.saveCore c h = T.saveBlock c := by rw [hT]; rfl
  rw [e0]
  have v0 : Saving { s with free := s.free + 8192 } (T.freeBytes 8192).1 (savedByte s c) (inSave s c) _ :=
    ⟨s2.str, s2.id, by show T.free + 8192 = s.free + 8192; rw [s2.free], s2.core, s2.clean, s2.wf, s2.hit, s2.miss⟩
  have hx : T.core c = s.core c := s2.core c
  have hb : T.saveBase c = s.saveBase c := s2.saveBase c
  have hlay : ∀ y, savedByte s c (s.saveBase c + (10 * q + y)) =
      if y < 4096 then ((List.range 512).flatMap fun i => leBytes 8 (tabGet 0 (s.core c).masks i).toNat).getD y 0
      else if y < 8192 then ((List.range 1024).flatMap fun i => leBytes 4 (tabGet 0 (s.core c).stats i).toNat).getD (y - 4096) 0
      else (s.freeBytes 8192).2.getD (y - 8192) 0 := by
    intro y
    unfold savedByte
    dsimp only
    rw [← hq, show s.saveBase c + (10 * q + y) - s.saveBase c = 10 * q + y by omega, if_neg (by omega), if_neg (by omega)]
    rw [show 10 * q + y - 10 * q = y by omega, show 10 * q + y - (10 * q + 4096) = y - 4096 by omega,
      show 10 * q + y - (10 * q + 8192) = y - 8192 by omega]
    by_cases a1 : y < 4096
    · rw [if_pos (by omega), if_pos a1]
    · rw [if_neg (by omega), if_neg a1]
      by_cases a2 : y < 8192
      · rw [if_pos (by omega), if_pos a2]
      · rw [if_neg (by omega), if_neg a2]
  obtain ⟨ms, hms⟩ : ∃ ms, ms = (List.range 512).flatMap fun i => leBytes 8 (tabGet 0 (s.core c).masks i).toNat := ⟨_, rfl⟩
  obtain ⟨st, hst⟩ : ∃ st, st = (List.range 1024).flatMap fun i => leBytes 4 (tabGet 0 (s.core c).stats i).toNat := ⟨_, rfl⟩
  have lms : ms.length = 4096 := by rw [hms, flatMap_leBytes_length]
  have lst : st.length = 4096 := by rw [hst, flatMap_leBytes_length]
  have lfr : (s.freeBytes 8192).2.length = 8192 := by simp [State.freeBytes]
  have hfr : (T.freeBytes 8192).2 = (s.freeBytes 8192).2 := by simp [State.freeBytes, s2.free]
  have hm : Config.saveMasks (2 ^ s.id.edgeLog2) = q * 10 := by simp [Config.saveMasks, ← hq]
  have hs' : Config.saveStats (2 ^ s.id.edgeLog2) = q * 10 + 4096 := by simp [Config.saveStats, ← hq]
  have hsq : Config.saveSeq (2 ^ s.id.edgeLog2) = q * 10 + 8192 := by simp [Config.saveSeq, ← hq]
  rw [← hms, ← hst] at hlay
  have v1 := v0.write (corePort c) (s.saveBase c + q * 10) ms (fun i hi => by
    rw [show s.saveBase c + q * 10 + i = s.saveBase c + (10 * q + i) by omega, hlay, if_pos (by omega), List.getD_eq_getElem _ _ hi]) (fun i hi => by
    unfold inSave; rw [hlen]; omega)
  have v2 := v1.write (corePort c) (s.saveBase c + (q * 10 + 4096)) st (fun i hi => by
    rw [show s.saveBase c + (q * 10 + 4096) + i = s.saveBase c + (10 * q + (4096 + i)) by omega, hlay, if_neg (by omega), if_pos (by omega),
      show 4096 + i - 4096 = i by omega, List.getD_eq_getElem _ _ hi]) (fun i hi => by
    unfold inSave; rw [hlen]; omega)
  have v3 := v2.write (corePort c) (s.saveBase c + (q * 10 + 8192)) (s.freeBytes 8192).2 (fun i hi => by
    rw [show s.saveBase c + (q * 10 + 8192) + i = s.saveBase c + (10 * q + (8192 + i)) by omega, hlay, if_neg (by omega), if_neg (by omega),
      show 8192 + i - 8192 = i by omega, List.getD_eq_getElem _ _ hi]) (fun i hi => by
    unfold inSave; rw [hlen]; omega)
  have e1 : T.saveBlock c = (((((T.freeBytes 8192).1.loamWrite (corePort c) (s.saveBase c + q * 10) ms).1).loamWrite (corePort c) (s.saveBase c + (q * 10 + 4096)) st).1.loamWrite
      (corePort c) (s.saveBase c + (q * 10 + 8192)) (s.freeBytes 8192).2).1 := by
    unfold State.saveBlock
    dsimp only
    rw [hx, hb, hfr, s2.id, hm, hs', hsq, hms, hst]
  rw [e1]
  refine v3.mono fun x hx => ?_
  rw [lms, lst, lfr]
  rcases hx with ⟨h1, h2⟩ | ⟨p, hp, h1, h2⟩ | ⟨h1, h2⟩
  · obtain ⟨y, hy, hy1, hy2⟩ := unitStarts_cover (u := 256) (a := 1024 * h.kaoBase) (n := 1024 * h.kaoLen) (x := x - s.saveBase c) (by omega) (by omega) (by omega) (by omega)
    exact .inl (.inl (.inl (.inl (.inr ⟨y, hy, by omega, by omega⟩))))
  · obtain ⟨y, hy, hy1, hy2⟩ := unitStarts_cover (u := 64) (a := p.2.1) (n := p.2.2) (x := x - s.saveVbAt c p.1) (by omega) (Hdr.vbParts_unit hp) (by omega) (by omega)
    exact .inl (.inl (.inl (.inr ⟨p, hp, y, hy, by omega, by omega⟩)))
  · rw [hm] at h1
    rw [hlen] at h2
    rcases inBlock h1 h2 with r | r | r
    · exact .inl (.inl (.inr r))
    · exact .inl (.inr r)
    · exact .inr r

theorem getD_leBytes (n v j : Nat) (h : j < n) : (leBytes n v).getD j 0 = (leBytes n v)[j]'(by rw [leBytes_length]; exact h) :=
  List.getD_eq_getElem _ _ _

/-- A word of a table of a saved state block. -/
theorem read_word {m : Mem} {b : Nat} {n : Nat} {f : Nat → Nat} {i : Nat}
    (h : ∀ j < n, m.get (b + (n * i + j)) = (leBytes n (f i)).getD j 0) : m.read (b + n * i) n = leBytes n (f i) := by
  have := Mem.read_eq (m := m) (a := b + n * i) (bs := leBytes n (f i)) fun j hj => by
    rw [leBytes_length] at hj
    rw [Nat.add_assoc, h j hj, getD_leBytes _ _ _ hj]
  rwa [leBytes_length] at this

theorem savedByte_mask (s : State) (c i j : Nat) (hi : i < 512) (hj : j < 8) :
    savedByte s c (s.saveBase c + Config.saveMasks (2 ^ s.id.edgeLog2) + (8 * i + j)) = (leBytes 8 (tabGet 0 (s.core c).masks i).toNat).getD j 0 := by
  rw [← flatMap_leBytes_get 8 (fun i => (tabGet 0 (s.core c).masks i).toNat) 512 i j hi hj]
  unfold savedByte Config.saveMasks
  dsimp only
  generalize 2 ^ s.id.edgeLog2 * 2 ^ s.id.edgeLog2 = q
  rw [if_neg (by omega), if_neg (by omega), if_pos (by omega)]
  congr 1
  omega

theorem inStat (b q x : Nat) : b + (q * 10 + 4096) + x - b - (10 * q + 4096) = x := by omega

theorem savedByte_stat (s : State) (c i j : Nat) (hi : i < 1024) (hj : j < 4) :
    savedByte s c (s.saveBase c + Config.saveStats (2 ^ s.id.edgeLog2) + (4 * i + j)) = (leBytes 4 (tabGet 0 (s.core c).stats i).toNat).getD j 0 := by
  rw [← flatMap_leBytes_get 4 (fun i => (tabGet 0 (s.core c).stats i).toNat) 1024 i j hi hj]
  unfold savedByte Config.saveStats
  dsimp only
  generalize 2 ^ s.id.edgeLog2 * 2 ^ s.id.edgeLog2 = q
  rw [if_neg (by omega), if_neg (by omega), if_neg (by omega), if_pos (by omega), inStat]

/-- What a memory that holds a save holds: the declared ranges, the masks and the statistics of core `c` (R59). -/
theorem State.saveCore_holds {s : State} {c : Nat} {h : Hdr} (hw : s.loam.cells.wf = true) (hl : s.loam.Clean) (hk : (s.core c).kaolin.Clean)
    (hv : (s.core c).vb.Clean) (hf : h.Fits (2 ^ s.id.edgeLog2)) :
    ((∀ x, 1024 * h.kaoBase ≤ x → x < 1024 * (h.kaoBase + h.kaoLen) → (s.saveCore c h).loam.cells.get (s.saveBase c + x) = (s.core c).kaolin.cells.get x) ∧
      (∀ p ∈ h.vbParts, ∀ x, p.2.1 ≤ x → x < p.2.1 + p.2.2 → (s.saveCore c h).loam.cells.get (s.saveVbAt c p.1 + x) = (s.core c).vb.cells.get (65536 * p.1 + x)) ∧
      (∀ i < 512, (s.saveCore c h).loam.cells.read (s.saveBase c + Config.saveMasks (2 ^ s.id.edgeLog2) + 8 * i) 8 = leBytes 8 (tabGet 0 (s.core c).masks i).toNat) ∧
      (∀ i < 1024, (s.saveCore c h).loam.cells.read (s.saveBase c + Config.saveStats (2 ^ s.id.edgeLog2) + 4 * i) 4 = leBytes 4 (tabGet 0 (s.core c).stats i).toNat)) ∧
      ∀ x, x < s.saveBase c ∨ s.saveBase c + Config.saveLen (2 ^ s.id.edgeLog2) ≤ x → (s.saveCore c h).loam.cells.get x = s.loam.cells.get x := by
  have v := State.saveCore_saves hw hl hk hv hf
  obtain ⟨f1, f2⟩ := hf
  have hlen : Config.saveLen (2 ^ s.id.edgeLog2) = Config.saveMasks (2 ^ s.id.edgeLog2) + 16384 := rfl
  have hst : Config.saveStats (2 ^ s.id.edgeLog2) = Config.saveMasks (2 ^ s.id.edgeLog2) + 4096 := rfl
  refine ⟨⟨fun x h1 h2 => ?_, fun p hp x h1 h2 => ?_, fun i hi => ?_, fun i hi => ?_⟩, fun x hx => ?_⟩
  · rw [v.hit _ (.inl ⟨by omega, by omega⟩), savedByte_kao _ _ _ (by omega)]
  · obtain ⟨g1, g2, g3⟩ := f2 p hp
    rw [v.hit _ (.inr (.inl ⟨p, hp, by omega, by omega⟩)), savedByte_vb _ _ _ _ g1 (by omega)]
  · refine read_word (f := fun i => (tabGet 0 (s.core c).masks i).toNat) fun j hj => ?_
    rw [v.hit _ (.inr (.inr ?_)), savedByte_mask _ _ _ _ hi hj]
    rw [hlen]
    exact inMasks hi hj
  · refine read_word (f := fun i => (tabGet 0 (s.core c).stats i).toNat) fun j hj => ?_
    rw [v.hit _ (.inr (.inr ?_)), savedByte_stat _ _ _ _ hi hj]
    rw [hlen, hst]
    exact inStats hi hj
  · exact v.miss x (by unfold inSave; omega)

/-! ### Restoring -/

theorem State.restoreRead_clean {s : State} (h : s.loam.Clean) (c a n : Nat) : s.restoreRead c a n = (s, false, false) := by
  unfold State.restoreRead
  generalize sectorsOf a n = l
  induction l with
  | nil => rfl
  | cons k l ih =>
    rw [List.foldl_cons, State.loamSector_clean h]
    exact ih

/-- A restore under way: no error met, Loam, image and straps as they were, the core's stores clean; the bytes of Kaolin in `D (0, _)`, and
those of VB v in `D (v + 1, _)`, hold what the save region holds for them. -/
structure Restoring (s : State) (c : Nat) (q : State × Bool) (D : Nat × Nat → Prop) : Prop where
  ok : q.2 = false
  str : q.1.str = s.str
  id : q.1.id = s.id
  loam : q.1.loam = s.loam
  kclean : (q.1.core c).kaolin.Clean
  vclean : (q.1.core c).vb.Clean
  kwf : (q.1.core c).kaolin.cells.wf = true
  vwf : (q.1.core c).vb.cells.wf = true
  kao : ∀ x, D (0, x) → (q.1.core c).kaolin.cells.get x = s.loam.cells.get (s.saveBase c + x)
  vb : ∀ v x, D (v + 1, x) → x < 65536 ∧ (q.1.core c).vb.cells.get (65536 * v + x) = s.loam.cells.get (s.saveVbAt c v + x)

theorem Restoring.mono {s : State} {c : Nat} {q : State × Bool} {D E : Nat × Nat → Prop} (h : Restoring s c q D) (he : ∀ x, E x → D x) :
    Restoring s c q E :=
  { h with kao := fun x hx => h.kao x (he _ hx), vb := fun v x hx => h.vb v x (he _ hx) }

/-- A fold of steps each of which restores a range. -/
theorem Restoring.fold {α : Type} {s : State} {c : Nat} (f : State × Bool → α → State × Bool) (rng : α → Nat × Nat → Prop) (l : List α)
    (hf : ∀ a ∈ l, ∀ q D, Restoring s c q D → Restoring s c (f q a) fun x => D x ∨ rng a x) :
    ∀ q D, Restoring s c q D → Restoring s c (l.foldl f q) fun x => D x ∨ ∃ a ∈ l, rng a x := by
  induction l with
  | nil => intro q D h; exact h.mono fun x hx => by simpa using hx
  | cons a l ih =>
    intro q D h
    refine (ih (fun b hb => hf b (List.mem_cons_of_mem _ hb)) _ _ (hf a List.mem_cons_self q D h)).mono fun x hx => ?_
    rcases hx with hx | ⟨b, hb, hx⟩
    · exact .inl (.inl hx)
    · rcases List.mem_cons.mp hb with rfl | hb
      · exact .inl (.inr hx)
      · exact .inr ⟨b, hb, hx⟩

theorem Mem.get_write_read {m n : Mem} {a b k x : Nat} (h : n.wf = true) (h1 : a ≤ x) (h2 : x < a + k) :
    (n.write a (m.read b k)).get x = m.get (b + (x - a)) := by
  have hi : x - a < (m.read b k).length := by rw [Mem.read_length]; omega
  have := Mem.get_write_in (m.read b k) n a (x - a) h hi
  rw [show a + (x - a) = x by omega] at this
  rw [this, Mem.read_get]

theorem Restoring.kaoUnit {s : State} {c : Nat} {q : State × Bool} {D : Nat × Nat → Prop} (h : Restoring s c q D) (hl : s.loam.Clean) (a : Nat) :
    Restoring s c (State.restoreKao q c a) fun x => D x ∨ (x.1 = 0 ∧ a ≤ x.2 ∧ x.2 < a + 256) := by
  have hb : q.1.saveBase c = s.saveBase c := by unfold State.saveBase; rw [h.str]
  have e : State.restoreKao q c a = (q.1.modCore c fun x => { x with kaolin := { (q.1.core c).kaolin with
      cells := (q.1.core c).kaolin.cells.write a (s.loam.cells.read (s.saveBase c + a) 256) } }, q.2) := by
    unfold State.restoreKao
    dsimp only
    rw [State.restoreRead_clean (by rw [h.loam]; exact hl), hb]
    dsimp only
    rw [State.kaoWrite_clean h.kclean, h.loam]
    simp
  rw [e]
  refine ⟨h.ok, h.str, h.id, h.loam, ?_, ?_, ?_, ?_, fun x hx => ?_, fun v x hx => ?_⟩
  · rw [State.core_modCore_self]; exact ⟨h.kclean.flips, h.kclean.poison, h.kclean.tags⟩
  · rw [State.core_modCore_self]; exact h.vclean
  · rw [State.core_modCore_self]; dsimp only; exact Mem.wf_write _ _ h.kwf
  · rw [State.core_modCore_self]; exact h.vwf
  · rw [State.core_modCore_self]
    dsimp only
    by_cases e : a ≤ x ∧ x < a + 256
    · rw [Mem.get_write_read h.kwf e.1 e.2]
      congr 1
      omega
    · have o : x < a ∨ a + 256 ≤ x := by omega
      rw [Mem.get_write_out _ _ _ _ (by rw [Mem.read_length]; exact o)]
      rcases hx with hx | ⟨_, hx⟩
      · exact h.kao x hx
      · exact absurd hx e
  · rw [State.core_modCore_self]
    rcases hx with hx | ⟨hx, _⟩
    · exact h.vb v x hx
    · exact absurd hx (by simp)

theorem Restoring.vbUnit {s : State} {c : Nat} {q : State × Bool} {D : Nat × Nat → Prop} (h : Restoring s c q D) (hl : s.loam.Clean) (v a : Nat)
    (ha : a + 64 ≤ 65536) : Restoring s c (State.restoreVb q c v a) fun x => D x ∨ (x.1 = v + 1 ∧ a ≤ x.2 ∧ x.2 < a + 64) := by
  have hb : q.1.saveVbAt c v = s.saveVbAt c v := by unfold State.saveVbAt State.saveBase; rw [h.str, h.id]
  have e : State.restoreVb q c v a = (q.1.modCore c fun x => { x with vb := { (q.1.core c).vb with
      cells := (q.1.core c).vb.cells.write (65536 * v + a) (s.loam.cells.read (s.saveVbAt c v + a) 64) } }, q.2) := by
    unfold State.restoreVb
    dsimp only
    rw [State.restoreRead_clean (by rw [h.loam]; exact hl), hb]
    dsimp only
    rw [State.vbWrite_clean h.vclean, h.loam]
    simp
  rw [e]
  refine ⟨h.ok, h.str, h.id, h.loam, ?_, ?_, ?_, ?_, fun x hx => ?_, fun u x hx => ?_⟩
  · rw [State.core_modCore_self]; exact h.kclean
  · rw [State.core_modCore_self]; exact ⟨h.vclean.flips, h.vclean.poison, h.vclean.tags⟩
  · rw [State.core_modCore_self]; exact h.kwf
  · rw [State.core_modCore_self]; dsimp only; exact Mem.wf_write _ _ h.vwf
  · rw [State.core_modCore_self]
    rcases hx with hx | ⟨hx, _⟩
    · exact h.kao x hx
    · exact absurd hx (by simp)
  · rw [State.core_modCore_self]
    dsimp only
    have hu : x < 65536 := by
      rcases hx with hx | ⟨_, _, hx⟩
      · exact (h.vb u x hx).1
      · dsimp only at hx; omega
    refine ⟨hu, ?_⟩
    by_cases e : u = v ∧ a ≤ x ∧ x < a + 64
    · obtain ⟨rfl, e1, e2⟩ := e
      rw [Mem.get_write_read h.vwf (by omega) (by omega)]
      congr 1
      omega
    · rw [Mem.get_write_out _ _ _ _ (by rw [Mem.read_length]; omega)]
      rcases hx with hx | ⟨hx, hy⟩
      · exact (h.vb u x hx).2
      · exact absurd ⟨by simpa using hx, hy⟩ e

/-- A restore of the declared ranges and of the state block from a clean save region (R60). -/
theorem State.restoreCore_restores {s : State} {c : Nat} {h : Hdr} (hl : s.loam.Clean) (hk : (s.core c).kaolin.Clean) (hv : (s.core c).vb.Clean)
    (kw : (s.core c).kaolin.cells.wf = true) (vw : (s.core c).vb.cells.wf = true) (hf : h.Fits (2 ^ s.id.edgeLog2)) :
    ∃ t, s.restoreCore c h = (t, false) ∧ t.loam = s.loam ∧
      (∀ x, 1024 * h.kaoBase ≤ x → x < 1024 * (h.kaoBase + h.kaoLen) →
        (t.core c).kaolin.cells.get x = s.loam.cells.get (s.saveBase c + x)) ∧
      (∀ p ∈ h.vbParts, ∀ x, p.2.1 ≤ x → x < p.2.1 + p.2.2 →
        (t.core c).vb.cells.get (65536 * p.1 + x) = s.loam.cells.get (s.saveVbAt c p.1 + x)) ∧
      (t.core c).masks = ((List.range 512).map fun i => (i, BitVec.ofNat 64 (leNat
        (s.loam.cells.read (s.saveBase c + Config.saveMasks (2 ^ s.id.edgeLog2) + 8 * i) 8)))) ∧
      (t.core c).stats = ((List.range 1024).map fun i => (i, BitVec.ofNat 32 (leNat
        (s.loam.cells.read (s.saveBase c + Config.saveStats (2 ^ s.id.edgeLog2) + 4 * i) 4)))) := by
  obtain ⟨f1, f2⟩ := hf
  have s0 : Restoring s c (s, false) fun _ => False :=
    ⟨rfl, rfl, rfl, rfl, hk, hv, kw, vw, fun _ h => h.elim, fun _ _ h => h.elim⟩
  have s1 := Restoring.fold (fun (q : State × Bool) a => State.restoreKao q c a) (fun a x => x.1 = 0 ∧ a ≤ x.2 ∧ x.2 < a + 256)
    (unitStarts 256 (1024 * h.kaoBase) (1024 * h.kaoLen)) (fun a _ q D hq => hq.kaoUnit hl a) _ _ s0
  have s2 := Restoring.fold (fun (q : State × Bool) (p : Nat × Nat × Nat) => (unitStarts 64 p.2.1 p.2.2).foldl (fun q a => State.restoreVb q c p.1 a) q)
    (fun p x => ∃ a ∈ unitStarts 64 p.2.1 p.2.2, x.1 = p.1 + 1 ∧ a ≤ x.2 ∧ x.2 < a + 64) h.vbParts (fun p hp q D hq =>
      Restoring.fold (fun q a => State.restoreVb q c p.1 a) (fun a x => x.1 = p.1 + 1 ∧ a ≤ x.2 ∧ x.2 < a + 64) _
        (fun a ha q D hq => hq.vbUnit hl p.1 a (by have := unitStarts_mem ha; have := f2 p hp; omega)) q D hq) _ _ s1
  obtain ⟨Q, hQ⟩ : ∃ Q, Q = h.vbParts.foldl (fun (q : State × Bool) (p : Nat × Nat × Nat) =>
      (unitStarts 64 p.2.1 p.2.2).foldl (fun q a => State.restoreVb q c p.1 a) q)
      ((unitStarts 256 (1024 * h.kaoBase) (1024 * h.kaoLen)).foldl (fun (q : State × Bool) a => State.restoreKao q c a) (s, false)) := ⟨_, rfl⟩
  rw [← hQ] at s2
  have e0 : s.restoreCore c h = State.restoreBlock Q c := by rw [hQ]; rfl
  have hb : Q.1.saveBase c = s.saveBase c := by unfold State.saveBase; rw [s2.str]
  have e1 : State.restoreBlock Q c = (Q.1.modCore c fun x => { x with
      masks := (List.range 512).map fun i => (i, BitVec.ofNat 64 (leNat (s.loam.cells.read (s.saveBase c + Config.saveMasks (2 ^ s.id.edgeLog2) + 8 * i) 8)))
      stats := (List.range 1024).map fun i => (i, BitVec.ofNat 32 (leNat (s.loam.cells.read (s.saveBase c + Config.saveStats (2 ^ s.id.edgeLog2) + 4 * i) 4))) }, false) := by
    unfold State.restoreBlock
    dsimp only
    rw [State.restoreRead_clean (by rw [s2.loam]; exact hl)]
    dsimp only
    rw [hb, s2.id, s2.loam, s2.ok]
    rfl
  refine ⟨_, e0.trans e1, s2.loam, fun x h1 h2 => ?_, fun p hp x h1 h2 => ?_, by rw [State.core_modCore_self], by rw [State.core_modCore_self]⟩
  · rw [State.core_modCore_self]
    obtain ⟨y, hy, hy1, hy2⟩ := unitStarts_cover (u := 256) (a := 1024 * h.kaoBase) (n := 1024 * h.kaoLen) (x := x) (by omega) (by omega) (by omega) (by omega)
    exact s2.kao x (.inl (.inr ⟨y, hy, rfl, hy1, hy2⟩))
  · rw [State.core_modCore_self]
    obtain ⟨y, hy, hy1, hy2⟩ := unitStarts_cover (u := 64) (a := p.2.1) (n := p.2.2) (x := x) (by omega) (Hdr.vbParts_unit hp) (by omega) (by omega)
    exact (s2.vb p.1 x (.inr ⟨p, hp, y, hy, rfl, hy1, hy2⟩)).2

/-- The same, said of the words of the state block. -/
theorem State.restoreCore_holds {s : State} {c : Nat} {h : Hdr} (hl : s.loam.Clean) (hk : (s.core c).kaolin.Clean) (hv : (s.core c).vb.Clean)
    (kw : (s.core c).kaolin.cells.wf = true) (vw : (s.core c).vb.cells.wf = true) (hf : h.Fits (2 ^ s.id.edgeLog2)) :
    ∃ t, s.restoreCore c h = (t, false) ∧ t.loam = s.loam ∧
      (∀ x, 1024 * h.kaoBase ≤ x → x < 1024 * (h.kaoBase + h.kaoLen) →
        s.loam.cells.get (s.saveBase c + x) = (t.core c).kaolin.cells.get x) ∧
      (∀ p ∈ h.vbParts, ∀ x, p.2.1 ≤ x → x < p.2.1 + p.2.2 →
        s.loam.cells.get (s.saveVbAt c p.1 + x) = (t.core c).vb.cells.get (65536 * p.1 + x)) ∧
      (∀ i < 512, s.loam.cells.read (s.saveBase c + Config.saveMasks (2 ^ s.id.edgeLog2) + 8 * i) 8 = leBytes 8 (tabGet 0 (t.core c).masks i).toNat) ∧
      (∀ i < 1024, s.loam.cells.read (s.saveBase c + Config.saveStats (2 ^ s.id.edgeLog2) + 4 * i) 4 = leBytes 4 (tabGet 0 (t.core c).stats i).toNat) := by
  obtain ⟨t, e, h1, h2, h3, h4, h5⟩ := State.restoreCore_restores hl hk hv kw vw hf
  refine ⟨t, e, h1, fun x a b => (h2 x a b).symm, fun p hp x a b => (h3 p hp x a b).symm, fun i hi => ?_, fun i hi => ?_⟩
  · rw [h4, tabGet_map_range 0 (fun i => BitVec.ofNat 64 (leNat (s.loam.cells.read (s.saveBase c + Config.saveMasks (2 ^ s.id.edgeLog2) + 8 * i) 8))) 512 i hi]
    have := leBytes_leNat (s.loam.cells.read (s.saveBase c + Config.saveMasks (2 ^ s.id.edgeLog2) + 8 * i) 8)
    have lt := leNat_lt (s.loam.cells.read (s.saveBase c + Config.saveMasks (2 ^ s.id.edgeLog2) + 8 * i) 8)
    rw [Mem.read_length] at this lt
    rw [BitVec.toNat_ofNat, show (2 : Nat) ^ 64 = 256 ^ 8 by decide, Nat.mod_eq_of_lt lt, this]
  · rw [h5, tabGet_map_range 0 (fun i => BitVec.ofNat 32 (leNat (s.loam.cells.read (s.saveBase c + Config.saveStats (2 ^ s.id.edgeLog2) + 4 * i) 4))) 1024 i hi]
    have := leBytes_leNat (s.loam.cells.read (s.saveBase c + Config.saveStats (2 ^ s.id.edgeLog2) + 4 * i) 4)
    have lt := leNat_lt (s.loam.cells.read (s.saveBase c + Config.saveStats (2 ^ s.id.edgeLog2) + 4 * i) 4)
    rw [Mem.read_length] at this lt
    rw [BitVec.toNat_ofNat, show (2 : Nat) ^ 32 = 256 ^ 4 by decide, Nat.mod_eq_of_lt lt, this]

end Sys2Proof.Machine
end

