-- ==== Sys2Proof/Laws/Passes.lean ====
section
/-! SUPPORT. Laws/Passes.lean: what the feeding of a pass leaves as it was, and the accumulators that a pass leaves. -/

namespace Sys2Proof.Machine

/-- Everything but the stores, the counts and the records is as it was: the array's instructions and registers, the image, the straps,
and which items can bear a fault. -/
structure Calm (z s : State) : Prop where
  str : s.str = z.str
  id : s.id = z.id
  jobs : ∀ d, (s.core d).jobs = (z.core d).jobs
  front : ∀ d, (s.core d).front = (z.core d).front
  back : ∀ d, (s.core d).back = (z.core d).back
  ramp : ∀ d, (s.core d).ramp = (z.core d).ramp
  suspect : ∀ d, (s.core d).suspect = (z.core d).suspect
  bear : ∀ w, (s.ctx w).canBear = (z.ctx w).canBear

/-- And a store without upsets and tags is as it was too. -/
structure Fed (z s : State) : Prop extends Calm z s where
  loam : z.loam.Clean → s.loam = z.loam
  kao : ∀ d, (z.core d).kaolin.Clean → (s.core d).kaolin = (z.core d).kaolin
  vb : ∀ d, (z.core d).vb.Clean → (s.core d).vb = (z.core d).vb

theorem Calm.refl (s : State) : Calm s s := ⟨rfl, rfl, fun _ => rfl, fun _ => rfl, fun _ => rfl, fun _ => rfl, fun _ => rfl, fun _ => rfl⟩

theorem Calm.trans {s t u : State} (h : Calm s t) (g : Calm t u) : Calm s u :=
  ⟨g.str.trans h.str, g.id.trans h.id, fun d => (g.jobs d).trans (h.jobs d), fun d => (g.front d).trans (h.front d),
    fun d => (g.back d).trans (h.back d), fun d => (g.ramp d).trans (h.ramp d), fun d => (g.suspect d).trans (h.suspect d), fun w => (g.bear w).trans (h.bear w)⟩

theorem Fed.refl (s : State) : Fed s s := ⟨Calm.refl s, fun _ => rfl, fun _ _ => rfl, fun _ _ => rfl⟩

theorem Fed.trans {s t u : State} (h : Fed s t) (g : Fed t u) : Fed s u :=
  ⟨h.toCalm.trans g.toCalm, fun c => (g.loam (by rw [h.loam c]; exact c)).trans (h.loam c),
    fun d c => (g.kao d (by rw [h.kao d c]; exact c)).trans (h.kao d c), fun d c => (g.vb d (by rw [h.vb d c]; exact c)).trans (h.vb d c)⟩

theorem Touched.calm {s t : State} (h : Touched s t) : Calm s t :=
  ⟨h.str, h.id, fun d => by rw [h.core], fun d => by rw [h.core], fun d => by rw [h.core], fun d => by rw [h.core], fun d => by rw [h.core], fun w => by rw [h.ctx]⟩

theorem Touched.fed {s t : State} (h : Touched s t) (g : s.loam.Clean → t.loam = s.loam) : Fed s t :=
  ⟨h.calm, g, fun d _ => by rw [h.core], fun d _ => by rw [h.core]⟩

theorem State.viewRead_clean {s : State} (h : s.loam.Clean) (c x n : Nat) (m : MsgRef) : (s.viewRead c x n m).1 = s := by
  unfold State.viewRead
  refine foldl_keeps (P := fun q : State × Nat => q.1 = s) (fun b a e => ?_) _ _ rfl
  dsimp only
  rw [e, State.loamSector_clean h]

theorem State.itemRead_clean {s : State} (h : s.loam.Clean) (w : Who) (a n : Nat) : (s.itemRead w a n).1 = s := by
  unfold State.itemRead
  repeat' split
  all_goals first | rfl | exact State.viewRead_clean h _ _ _ _ | rw [State.loamRead_clean h]

theorem Fed.itemRead (s : State) (w : Who) (a n : Nat) : Fed s (s.itemRead w a n).1 :=
  (Touched.itemRead s w a n).fed fun h => by rw [State.itemRead_clean h]

theorem Touched.countKaoCe (s : State) (c k : Nat) : Touched s (s.countKaoCe c k) := by
  unfold State.countKaoCe
  split
  · exact Touched.refl s
  · exact ⟨_, _, _, _, rfl⟩

theorem Touched.noteKaoAll (c : Nat) (l : List UnitNote) : ∀ s : State, Touched s (l.foldl (fun t x => t.noteKao c x) s) ∧ (l.foldl (fun t x => t.noteKao c x) s).loam = s.loam := by
  induction l with
  | nil => exact fun s => ⟨Touched.refl s, rfl⟩
  | cons x l ih =>
    intro s
    have h : Touched s (s.noteKao c x) ∧ (s.noteKao c x).loam = s.loam := by
      unfold State.noteKao
      dsimp only
      split
      · refine ⟨(Touched.countKaoCe _ _ _).trans (Touched.recordUe _ _ _ _ _ _), ?_⟩
        simp
      · exact ⟨Touched.countKaoCe _ _ _, by simp⟩
    exact ⟨h.1.trans (ih _).1, (ih _).2.trans h.2⟩

theorem Touched.noteVbAll (c : Nat) (l : List UnitNote) : ∀ s : State, Touched s (l.foldl (fun t x => t.noteVb c x) s) ∧ (l.foldl (fun t x => t.noteVb c x) s).loam = s.loam := by
  induction l with
  | nil => exact fun s => ⟨Touched.refl s, rfl⟩
  | cons x l ih =>
    intro s
    have h : Touched s (s.noteVb c x) ∧ (s.noteVb c x).loam = s.loam := by
      unfold State.noteVb
      dsimp only
      split
      · refine ⟨(Touched.countKaoCe _ _ _).trans (Touched.recordUe _ _ _ _ _ _), ?_⟩
        simp
      · exact ⟨Touched.countKaoCe _ _ _, by simp⟩
    exact ⟨h.1.trans (ih _).1, (ih _).2.trans h.2⟩

/-- A change of one core that leaves its contexts, its instructions and its registers. -/
theorem Calm.modCore (s : State) (c : Nat) (f : Core → Core) (h1 : ∀ x, (f x).jobs = x.jobs) (h2 : ∀ x, (f x).front = x.front)
    (h3 : ∀ x, (f x).back = x.back) (hr : ∀ x, (f x).ramp = x.ramp) (hs : ∀ x, (f x).suspect = x.suspect) (h4 : (f (s.core c)).cmd.canBear = (s.core c).cmd.canBear ∧ (f (s.core c)).hdl.canBear = (s.core c).hdl.canBear) : Calm s (s.modCore c f) := by
  have key : ∀ d, (s.modCore c f).core d = s.core d ∨ (s.modCore c f).core d = f (s.core d) := by
    intro d
    by_cases e : d = c
    · subst e; exact .inr (State.core_modCore_self _ _ _)
    · exact .inl (State.core_modCore_ne _ _ e)
  refine ⟨rfl, rfl, fun d => ?_, fun d => ?_, fun d => ?_, fun d => ?_, fun d => ?_, fun w => ?_⟩
  · rcases key d with e | e <;> rw [e]; exact h1 _
  · rcases key d with e | e <;> rw [e]; exact h2 _
  · rcases key d with e | e <;> rw [e]; exact h3 _
  · rcases key d with e | e <;> rw [e]; exact hr _
  · rcases key d with e | e <;> rw [e]; exact hs _
  · unfold State.ctx Core.ctx
    by_cases e : w.core.val = c
    · rw [e, State.core_modCore_self]
      cases w.ctx
      · exact h4.1
      · exact h4.2
    · rw [State.core_modCore_ne _ _ e]

theorem State.kaoRead_fed {z s : State} {c a n : Nat} (hz : Fed z s) : Fed z (s.kaoRead c a n).1 := by
  refine hz.trans ?_
  have g := Calm.modCore s c (fun x => { x with kaolin := ((s.core c).kaolin.touchRange 256 a n).1 }) (fun _ => rfl) (fun _ => rfl) (fun _ => rfl) (fun _ => rfl) (fun _ => rfl) ⟨rfl, rfl⟩
  obtain ⟨h1, h2⟩ := Touched.noteKaoAll c ((s.core c).kaolin.touchRange 256 a n).2 (s.modCore c fun x => { x with kaolin := ((s.core c).kaolin.touchRange 256 a n).1 })
  refine ⟨g.trans h1.calm, fun _ => h2, fun d hd => ?_, fun d _ => ?_⟩
  · show ((_ : State).core d).kaolin = _
    unfold State.kaoRead
    dsimp only
    rw [h1.core]
    by_cases e : d = c
    · subst e
      obtain ⟨l, _, e⟩ := Store.touchRange_clean hd 256 a n
      rw [State.core_modCore_self, e]
    · rw [State.core_modCore_ne _ _ e]
  · unfold State.kaoRead
    dsimp only
    rw [h1.core]
    by_cases e : d = c
    · subst e; rw [State.core_modCore_self]
    · rw [State.core_modCore_ne _ _ e]

theorem State.vbRead_fed {z s : State} {c a n : Nat} (hz : Fed z s) : Fed z (s.vbRead c a n).1 := by
  refine hz.trans ?_
  have g := Calm.modCore s c (fun x => { x with vb := ((s.core c).vb.touchRange 64 a n).1 }) (fun _ => rfl) (fun _ => rfl) (fun _ => rfl) (fun _ => rfl) (fun _ => rfl) ⟨rfl, rfl⟩
  obtain ⟨h1, h2⟩ := Touched.noteVbAll c ((s.core c).vb.touchRange 64 a n).2 (s.modCore c fun x => { x with vb := ((s.core c).vb.touchRange 64 a n).1 })
  refine ⟨g.trans h1.calm, fun _ => h2, fun d _ => ?_, fun d hd => ?_⟩
  · unfold State.vbRead
    dsimp only
    rw [h1.core]
    by_cases e : d = c
    · subst e; rw [State.core_modCore_self]
    · rw [State.core_modCore_ne _ _ e]
  · unfold State.vbRead
    dsimp only
    rw [h1.core]
    by_cases e : d = c
    · subst e
      obtain ⟨l, _, e⟩ := Store.touchRange_clean hd 64 a n
      rw [State.core_modCore_self, e]
    · rw [State.core_modCore_ne _ _ e]

theorem Fed.core {z s : State} (hz : Fed z s) (c : Nat) (f : Core → Core) (h1 : ∀ x, (f x).jobs = x.jobs) (h2 : ∀ x, (f x).front = x.front)
    (h3 : ∀ x, (f x).back = x.back) (hr : ∀ x, (f x).ramp = x.ramp) (hs : ∀ x, (f x).suspect = x.suspect) (h4 : (f (s.core c)).cmd.canBear = (s.core c).cmd.canBear ∧ (f (s.core c)).hdl.canBear = (s.core c).hdl.canBear)
    (h5 : ∀ x, (f x).kaolin = x.kaolin) (h6 : ∀ x, (f x).vb = x.vb) : Fed z (s.modCore c f) := by
  refine hz.trans ⟨Calm.modCore s c f h1 h2 h3 hr hs h4, fun _ => rfl, fun d _ => ?_, fun d _ => ?_⟩
  · by_cases e : d = c
    · subst e; rw [State.core_modCore_self, h5]
    · rw [State.core_modCore_ne _ _ e]
  · by_cases e : d = c
    · subst e; rw [State.core_modCore_self, h6]
    · rw [State.core_modCore_ne _ _ e]

theorem State.itemRead_fed {z s : State} {w : Who} {a n : Nat} (hz : Fed z s) : Fed z (s.itemRead w a n).1 := hz.trans (Fed.itemRead s w a n)

theorem State.modCtr_fed {z s : State} {f : Ctrs → Ctrs} (hz : Fed z s) : Fed z (s.modCtr f) :=
  hz.trans (Touched.fed ⟨_, _, _, _, rfl⟩ fun _ => rfl)

theorem State.work_fed {z s : State} {e no : Nat} (hz : Fed z s) : Fed z (s.work e no) :=
  hz.trans ⟨⟨by simp, by simp, fun _ => by simp, fun _ => by simp, fun _ => by simp, fun _ => by simp, fun _ => by simp, fun _ => by simp⟩,
    fun _ => by simp, fun _ _ => by simp, fun _ _ => by simp⟩

theorem State.modRec_fed {z s : State} {w : Who} {f : Rec → Rec} (hz : Fed z s) : Fed z (s.modRec w f) := by
  have e : (s.modRec w f) = s.modCore w.core.val fun x => x.setCtx w.ctx { s.ctx w with item := { (s.ctx w).item with record := f (s.ctx w).item.record } } := rfl
  rw [e]
  refine Fed.core hz _ _ (fun x => ?_) (fun x => ?_) (fun x => ?_) (fun x => ?_) (fun x => ?_) ?_ (fun x => ?_) (fun x => ?_) <;>
    (unfold State.ctx; cases w.ctx <;> simp [Core.setCtx, Core.ctx, Ctx.canBear])

theorem State.countVec_fed {z s : State} {w : Who} {a b : Nat} (hz : Fed z s) : Fed z (s.countVec w a b) := by
  unfold State.countVec
  split
  · exact hz
  · exact State.modRec_fed (State.modCtr_fed hz)

theorem State.opRead_fed {z s : State} {w : Who} {v : Bool} {a n : Nat} (hz : Fed z s) : Fed z (s.opRead w v a n).1 := by
  unfold State.opRead
  repeat' split
  · exact hz
  · exact State.vbRead_fed hz
  · exact State.itemRead_fed hz

theorem State.rowRead_fed {z s : State} {w : Who} {vb : Bool} {d : FmtD} {a n lo hi : Nat} (hz : Fed z s) :
    Fed z (State.rowRead s w vb d a n lo hi).1 := by
  unfold State.rowRead
  dsimp only
  repeat' split
  all_goals first | exact State.opRead_fed hz | exact State.opRead_fed (State.opRead_fed hz)

theorem State.second_fed {z s : State} {g : Seg} {t : Stage} {int : Bool} {n : Nat} (hz : Fed z s) :
    Fed z (State.second s g t int n).1 := by
  unfold State.second
  repeat' split
  all_goals first | exact hz | exact State.itemRead_fed hz | exact State.rowRead_fed hz | exact State.kaoRead_fed hz

theorem setMaskBits_same (m : Nat) (f : Nat → Nat × Nat) (l : List (Nat × Bool)) : ∀ x : Core,
    (l.foldl (fun x p => x.setMaskBit m (f p.1) p.2) x) = { x with masks := (l.foldl (fun x p => x.setMaskBit m (f p.1) p.2) x).masks } := by
  induction l with
  | nil => intro x; rfl
  | cons a l ih => intro x; rw [List.foldl_cons, ih]; rfl

theorem State.runStage_fed {z s : State} {g : Seg} {t : Stage} {vs : List Val} (hz : Fed z s) :
    Fed z (State.runStage s g t vs).1 := by
  have h := State.second_fed (g := g) (t := t) (int := match vs with
    | .int _ :: _ => true
    | _ => false) (n := vs.length) hz
  unfold State.runStage
  dsimp only
  split
  · exact h
  · split
    · refine State.countVec_fed (Fed.core h _ _ (fun _ => ?_) (fun _ => ?_) (fun _ => ?_) (fun _ => ?_) (fun _ => ?_) ?_ (fun _ => ?_) (fun _ => ?_)) <;> rw [setMaskBits_same] <;> simp
    · exact Fed.core h g.w.core.val (fun x => x.rred g t (vs.map Val.toFp)) (fun _ => rfl) (fun _ => rfl) (fun _ => rfl) (fun _ => rfl) (fun _ => rfl) ⟨rfl, rfl⟩ (fun _ => rfl) (fun _ => rfl)
    · split
      · exact State.countVec_fed h
      · exact h
    · exact State.countVec_fed h

theorem State.runStages_fed {z s : State} {g : Seg} {ts : List Stage} {vs : List Val} (hz : Fed z s) :
    Fed z (State.runStages s g ts vs).1 := by
  induction ts generalizing s vs with
  | nil => exact hz
  | cons t ts ih =>
    unfold State.runStages
    dsimp only
    split
    · exact State.runStage_fed hz
    · exact ih (State.runStage_fed hz)

theorem State.feedRow_fed {z s : State} {w : Who} {f : Feed} {pb k i k0 k1 n : Nat} (hz : Fed z s) : Fed z (State.feedRow s w f pb k i k0 k1 n).1 := by
  have h : ∀ a l, Fed z (s.rowRead w f.vb f.d a f.len k0 l).1 := fun a l => State.rowRead_fed hz
  unfold State.feedRow
  dsimp only
  repeat' split
  all_goals first
    | exact hz
    | exact h _ _
    | refine foldl_keeps (P := fun q : State × Rd (List DecBlk) => Fed z q.1) (fun b a hb => ?_) _ _ (State.work_fed (h _ _))
  repeat' split
  all_goals first | exact hb | exact State.runStages_fed hb | exact State.countVec_fed (State.runStages_fed hb)

theorem State.feed_fed {z s : State} {w : Who} {f : Feed} {pb k r0 r1 k0 k1 : Nat} (hz : Fed z s) : Fed z (State.feed s w f pb k r0 r1 k0 k1).1 := by
  unfold State.feed
  refine foldl_keeps (P := fun q : State × Rd (List (List DecBlk)) => Fed z q.1) (fun b a hb => ?_) _ _ hz
  split
  · exact hb
  · exact State.feedRow_fed hb

theorem State.keepVec_fed {z s old : State} {w : Who} (hz : Fed z s) : Fed z (State.keepVec s old w) := by
  unfold State.keepVec
  exact State.modRec_fed (hz.trans (Touched.fed ⟨_, _, _, _, rfl⟩ fun _ => rfl))

theorem State.feedPass_fed {z s : State} {j : ArrJob} {x : Pass} {a c : Bool} (hz : Fed z s) : Fed z (State.feedPass s j x a c).1 := by
  unfold State.feedPass
  split
  · dsimp only
    repeat' split
    all_goals first | exact State.feed_fed hz | exact State.keepVec_fed (State.feed_fed hz)
  · exact hz

theorem State.statLoad_fed {z s : State} {j : ArrJob} {n : Nat} (hz : Fed z s) : Fed z (State.statLoad s j n).1 := by
  unfold State.statLoad
  split
  · exact hz
  · exact State.feedPass_fed hz

theorem State.statRows_fed {z s : State} {j : ArrJob} {x : Pass} {c : Bool} (hz : Fed z s) : Fed z (State.statRows s j x c).1 := by
  unfold State.statRows
  repeat' split
  all_goals first | exact hz | exact State.feedPass_fed hz

theorem State.passRows_fed {z s : State} {j : ArrJob} {x : Pass} {c : Bool} (hz : Fed z s) : Fed z (State.passRows s j x c).1 := by
  unfold State.passRows
  dsimp only
  split
  · exact State.statRows_fed hz
  · exact State.feedPass_fed (State.statRows_fed hz)

/-! ### What a fault leaves of the array -/

/-- The registers, the ramp and the suspect columns of every array are as they were. -/
def SameRegs (s t : State) : Prop :=
  ∀ d, (t.core d).front = (s.core d).front ∧ (t.core d).ramp = (s.core d).ramp ∧ (t.core d).suspect = (s.core d).suspect

theorem SameRegs.of_cores {s t : State} (h : t.cores = s.cores) : SameRegs s t := by
  intro d
  have : t.core d = s.core d := by unfold State.core; rw [h]
  rw [this]
  exact ⟨rfl, rfl, rfl⟩

theorem Calm.sameRegs {s t : State} (h : Calm s t) : SameRegs s t := fun d => ⟨h.front d, h.ramp d, h.suspect d⟩

theorem SameRegs.trans {s t u : State} (h : SameRegs s t) (g : SameRegs t u) : SameRegs s u :=
  fun d => ⟨(g d).1.trans (h d).1, (g d).2.1.trans (h d).2.1, (g d).2.2.trans (h d).2.2⟩

theorem SameRegs.modCore (s : State) (c : Nat) (f : Core → Core) (h1 : ∀ x, (f x).front = x.front) (h2 : ∀ x, (f x).ramp = x.ramp)
    (h3 : ∀ x, (f x).suspect = x.suspect) : SameRegs s (s.modCore c f) := by
  intro d
  by_cases e : d = c
  · subst e; rw [State.core_modCore_self]; exact ⟨h1 _, h2 _, h3 _⟩
  · rw [State.core_modCore_ne _ _ e]; exact ⟨rfl, rfl, rfl⟩

theorem SameRegs.setCtx (s : State) (w : Who) (y : Ctx) : SameRegs s (s.setCtx w y) :=
  SameRegs.modCore s _ _ (fun x => by cases w.ctx <;> rfl) (fun x => by cases w.ctx <;> rfl) (fun x => by cases w.ctx <;> rfl)

theorem SameRegs.markAbort (s : State) (w : Who) (code : Nat) : SameRegs s (s.markAbort w code) := by
  have h : SameRegs s (s.setCtx w { phase := .aborting, item := (s.item w).bears code s.ticks }) := SameRegs.setCtx s w _
  have g := SameRegs.modCore (s.setCtx w { phase := .aborting, item := (s.item w).bears code s.ticks }) w.core.val
    (fun x => { x with lastFault := code, lastLayer := (s.item w).hdr.layer, lastOperator := (s.item w).hdr.operator }) (fun _ => rfl) (fun _ => rfl) (fun _ => rfl)
  exact h.trans g

theorem SameRegs.undefVec (s : State) (c : Nat) : SameRegs s (s.undefVec c) := by
  obtain ⟨f, n, e, h1, h2, h3⟩ : ∃ f n, s.undefVec c = { s.modCore c f with free := n } ∧ (∀ x : Core, (f x).front = x.front) ∧
      (∀ x : Core, (f x).ramp = x.ramp) ∧ ∀ x : Core, (f x).suspect = x.suspect := ⟨_, _, rfl, fun _ => rfl, fun _ => rfl, fun _ => rfl⟩
  rw [e]
  exact SameRegs.modCore s c f h1 h2 h3

theorem SameRegs.stopEngines (s : State) (w : Who) : SameRegs s (s.stopEngines w) := by
  have h := SameRegs.modCore s w.core.val (fun x => { x with
    kaolin := (((s.core w.core.val).jobs.filter fun j => j.who == w && j.itemNo == (s.item w).no).filter ArrJob.begun).foldl (fun k j => poisonGrid k j.op) x.kaolin
    jobs := x.jobs.filter fun j => !(j.who == w && j.itemNo == (s.item w).no) }) (fun _ => rfl) (fun _ => rfl) (fun _ => rfl)
  unfold State.stopEngines
  dsimp only
  split
  · exact (h.trans (SameRegs.of_cores rfl)).trans (SameRegs.undefVec _ _)
  · exact h.trans (SameRegs.of_cores rfl)

theorem SameRegs.beginAbort (s : State) (w : Who) (code : Nat) : SameRegs s (s.beginAbort w code) :=
  (SameRegs.stopEngines s w).trans (SameRegs.markAbort _ w code)

/-- A fault leaves the arrays' registers; their instructions too, unless its item aborts. -/
theorem State.raise_array (s : State) (w : Who) (code detail : Nat) : SameRegs s (s.raise w code detail) ∧
    ((∀ d, ((s.raise w code detail).core d).jobs = (s.core d).jobs) ∨ ((s.raise w code detail).ctx w).phase = .aborting) := by
  have log : ∀ (u : State) (a b : Nat) (x y : Bool), (u.logFault a b x y detail).cores = u.cores := fun u a b x y => by simp
  unfold State.raise
  split
  · exact ⟨(SameRegs.of_cores (log _ _ _ _ _)).trans (SameRegs.beginAbort _ w code), .inr (by rw [State.ctx_beginAbort])⟩
  · split
    · unfold State.raiseSaved
      split
      · exact ⟨SameRegs.of_cores rfl, .inl fun _ => rfl⟩
      · next i js hs =>
        have g := (SameRegs.of_cores (log s code w.core.val false true)).trans
          (SameRegs.modCore _ w.core.val (fun x => { x with saved := none }) (fun _ => rfl) (fun _ => rfl) (fun _ => rfl))
        have j : ∀ d, ((((s.logFault code w.core.val false true detail).modCore w.core.val fun x => { x with saved := none }).core d).jobs) = (s.core d).jobs := by
          intro d
          by_cases e : d = w.core.val
          · subst e; rw [State.core_modCore_self]; simp
          · rw [State.core_modCore_ne _ _ e]; simp
        dsimp only
        split
        · refine ⟨g.trans ((SameRegs.setCtx _ _ _).trans (SameRegs.markAbort _ _ _)), .inl fun d => ?_⟩
          simp only [State.markAbort, State.noteFault]
          by_cases e : d = w.core.val
          · subst e
            simp [State.setCtx, Core.setCtx]
          · rw [State.core_modCore_ne _ _ e]
            simp [State.setCtx, State.core_modCore_ne _ _ e]
        · refine ⟨g.trans ((SameRegs.modCore _ _ (fun x => { x with dying := x.dying ++ [i.bears code s.ticks] }) (fun _ => rfl) (fun _ => rfl) (fun _ => rfl)).trans (SameRegs.modCore _ _ _ (fun _ => rfl) (fun _ => rfl) (fun _ => rfl))), .inl fun d => ?_⟩
          simp only [State.noteFault]
          by_cases e : d = w.core.val
          · subst e
            simp
          · rw [State.core_modCore_ne _ _ e, State.core_modCore_ne _ _ e]
            exact j d
    · split
      · have u : (s.unbear w).cores = s.cores := by
          unfold State.unbear
          repeat' split
          all_goals simp
        exact ⟨(SameRegs.of_cores ((log _ _ _ _ _).trans u)).trans (SameRegs.beginAbort _ w code), .inr (by rw [State.ctx_beginAbort])⟩
      · exact ⟨SameRegs.of_cores (log _ _ _ _ _), .inl fun d => by simp⟩

theorem State.jobs_modCore (s : State) (c : Nat) {f : Core → Core} (hf : ∀ x, (f x).jobs = x.jobs) (d : Nat) :
    ((s.modCore c f).core d).jobs = (s.core d).jobs := by
  by_cases e : d = c
  · rw [e, State.core_modCore_self, hf]
  · rw [State.core_modCore_ne _ _ e]

theorem State.jobs_undefVec (s : State) (c d : Nat) : ((s.undefVec c).core d).jobs = (s.core d).jobs :=
  State.jobs_modCore s c (f := fun x => { x with
      masks := (List.range 512).map fun i => (i, Config.freeWord64 (s.free + i))
      stats := (List.range 1024).map fun i => (i, Config.freeWord (s.free + 512 + i)) }) (fun _ => rfl) d

/-- The matrix instructions of other items stay where a fault is borne. -/
theorem State.raise_jobs {s : State} {w : Who} (h : (s.ctx w).canBear = true) (code detail d : Nat) {k : ArrJob}
    (hk : k ∈ (s.core d).jobs) (hw : k.who ≠ w) : k ∈ ((s.raise w code detail).core d).jobs := by
  obtain ⟨t, ht, hc⟩ : ∃ t, t = s.logFault code w.core.val (isHdl w) true detail ∧ t.core d = s.core d := ⟨_, rfl, by simp⟩
  rw [← hc] at hk
  unfold State.raise State.beginAbort State.markAbort State.noteFault
  rw [if_pos h, ← ht, State.jobs_modCore _ _ (by intro _; rfl)]
  unfold State.setCtx
  rw [State.jobs_modCore _ _ (by intro x; cases w.ctx <;> rfl)]
  unfold State.stopEngines
  dsimp only
  have hm : ∀ g : Core → Store, k ∈ ((t.modCore w.core.val fun x => { x with
      kaolin := g x, jobs := x.jobs.filter fun j => !(j.who == w && j.itemNo == (t.item w).no) }).core d).jobs := by
    intro g
    by_cases e : d = w.core.val
    · rw [e, State.core_modCore_self]
      exact List.mem_filter.mpr ⟨e ▸ hk, by simp [hw]⟩
    · rw [State.core_modCore_ne _ _ e]; exact hk
  split
  · rw [State.jobs_undefVec]; exact hm fun x => _
  · exact hm fun x => _

/-- Faults of one code that does not go before others: the item aborts with it, the arrays' registers stay. -/
theorem State.raise_each {w : Who} (l : List Nat) (s : State) (hl : l ≠ []) (hb : (s.ctx w).canBear = true) (code : Nat) (hc : faultRank code = 0) :
    ((l.foldl (fun t k => t.raise w code k) s).ctx w).phase = .aborting ∧ ((l.foldl (fun t k => t.raise w code k) s).item w).record.fault = code ∧
      SameRegs s (l.foldl (fun t k => t.raise w code k) s) := by
  have rest : ∀ (l : List Nat) (t : State), (t.ctx w).phase = .aborting → (t.item w).record.fault = code → (∃ a, (t.item w).abort = some a ∧ a.fault = code) →
      ((l.foldl (fun t k => t.raise w code k) t).ctx w).phase = .aborting ∧ ((l.foldl (fun t k => t.raise w code k) t).item w).record.fault = code ∧
        SameRegs t (l.foldl (fun t k => t.raise w code k) t) := by
    intro l
    induction l with
    | nil => exact fun t h1 h2 _ => ⟨h1, h2, SameRegs.of_cores rfl⟩
    | cons k l ih =>
      intro t h1 h2 h3
      obtain ⟨a, ha, hf⟩ := h3
      have e : t.raise w code k = t.logFault code w.core.val (isHdl w) false k := by
        unfold State.raise
        rw [if_neg (by simp [Ctx.canBear, h1]), if_neg (by simp [h1]), if_neg (by simp [State.outranks, ha, hf, hc])]
      rw [List.foldl_cons, e]
      obtain ⟨r1, r2, r3⟩ := ih (t.logFault code w.core.val (isHdl w) false k) (by simpa using h1) (by simpa using h2) ⟨a, by simpa using ha, hf⟩
      exact ⟨r1, r2, (SameRegs.of_cores (by simp)).trans r3⟩
  cases l with
  | nil => exact absurd rfl hl
  | cons k l =>
    rw [List.foldl_cons]
    have e := State.ctx_raise hb code k
    obtain ⟨r1, r2, r3⟩ := rest l (s.raise w code k) (by rw [e]) (by simp [State.item, e])
      ⟨{ fault := code, tick := (s.item w).boreAt s.ticks, was := (s.item w).waitedAt, seen := (s.item w).seenFaults }, by simp [State.item, e, Item.bears], rfl⟩
    exact ⟨r1, r2, (State.raise_array s w code k).1.trans r3⟩

theorem State.suspect_mem (s : State) (c : Nat) (l : List Nat) {k : Nat} (h : k ∈ l) : k ∈ ((s.suspect c l).core c).suspect := by
  have keep : ∀ (l : List Nat) (t : State), k ∈ (t.core c).suspect → k ∈ ((t.suspect c l).core c).suspect := by
    intro l
    induction l with
    | nil => exact fun _ h => h
    | cons a l ih =>
      intro t ht
      refine ih _ ?_
      rw [State.core_modCore_self]
      exact (mem_setInsert _ _ _).mpr (.inr (by simpa using ht))
  induction l generalizing s with
  | nil => simp at h
  | cons a l ih =>
    rcases List.mem_cons.mp h with rfl | h
    · refine keep l _ ?_
      rw [State.core_modCore_self]
      exact (mem_setInsert _ _ _).mpr (.inl rfl)
    · exact ih _ h

/-! ### Residues (R102) -/

theorem Int.modEq_sum_map {α : Type} (n : Int) (f g : α → Int) (l : List α) (h : ∀ a ∈ l, f a % n = g a % n) : (l.map f).sum % n = (l.map g).sum % n := by
  induction l with
  | nil => rfl
  | cons a l ih =>
    simp only [List.map_cons, List.sum_cons]
    rw [Int.add_emod, h a List.mem_cons_self, ih fun b hb => h b (List.mem_cons_of_mem _ hb), ← Int.add_emod]

theorem footS_eq (l : List (List (Int × Int))) : footS l = footT l := by
  unfold footS footT
  congr 1
  refine Int.modEq_sum_map 7 _ _ _ fun b _ => Int.modEq_sum_map 7 _ _ _ fun p _ => ?_
  rw [← Int.mul_emod]

theorem footT_lt (l : List (List (Int × Int))) : footT l < 7 := by
  unfold footT
  have := Int.emod_lt_of_pos ((l.map fun b => (b.map fun p => p.1 % 7 * (p.2 % 7)).sum).sum) (show (0 : Int) < 7 by decide)
  have := Int.emod_nonneg ((l.map fun b => (b.map fun p => p.1 % 7 * (p.2 % 7)).sum).sum) (show (7 : Int) ≠ 0 by decide)
  omega

/-- Without an error in a column its sums agree, and an error makes them differ. -/
theorem differing_passSums (lane : Nat → List (List (Int × Int))) (cols err : List Nat) :
    differing (passSums lane cols err) = cols.filter fun k => err.contains k := by
  unfold passSums
  have key : ∀ (cols : List Nat) (f : Nat → Nat), differing (cols.mapIdx fun c p => (p, (footS (lane (f c)) + if err.contains p then 1 else 0) % 7, footT (lane (f c)))) =
      cols.filter fun k => err.contains k := by
    intro cols
    induction cols with
    | nil => intro _; rfl
    | cons p cols ih =>
      intro f
      rw [List.mapIdx_cons]
      have := ih fun i => f (i + 1)
      unfold differing at this ⊢
      rw [List.filter_cons, List.filter_cons]
      have ft := footT_lt (lane (f 0))
      by_cases e : err.contains p = true
      · rw [if_pos (by simp only [e, if_true, footS_eq, bne_iff_ne, ne_eq]; omega), List.map_cons, this]
        simp only [e, if_true]
      · rw [if_neg (by simp only [e, footS_eq, bne_iff_ne, ne_eq]; simp; omega), if_neg e]
        exact this
  exact key cols id

/-! ### What a pass leaves of the array -/

theorem State.kaoWrite_calm {z s : State} {c a : Nat} {bs : List Byte} (hz : Calm z s) : Calm z (s.kaoWrite c a bs).1 := by
  refine hz.trans ?_
  have g := Calm.modCore s c (fun x => { x with kaolin := ((s.core c).kaolin.writeRange 256 (bs.length + 1) a bs).1 }) (fun _ => rfl) (fun _ => rfl) (fun _ => rfl)
    (fun _ => rfl) (fun _ => rfl) ⟨rfl, rfl⟩
  exact g.trans (Touched.noteKaoAll c ((s.core c).kaolin.writeRange 256 (bs.length + 1) a bs).2 _).1.calm

theorem Calm.of_same {z s t : State} (hz : Calm z s) (h1 : t.cores = s.cores) (h2 : t.str = s.str) (h3 : t.id = s.id) : Calm z t := by
  have hc : ∀ d, t.core d = s.core d := fun d => by unfold State.core; rw [h1]
  refine hz.trans ⟨h2, h3, fun d => by rw [hc], fun d => by rw [hc], fun d => by rw [hc], fun d => by rw [hc], fun d => by rw [hc], fun w => ?_⟩
  unfold State.ctx
  rw [hc]

/-! ### What a save leaves of the array -/

theorem saveUnit_calm {z s : State} {c dst n : Nat} {r : Rd (List Byte)} (hz : Calm z s) : Calm z (saveUnit c (s, r) dst n) := by
  unfold saveUnit
  dsimp only
  repeat' split
  all_goals first
    | exact hz.trans (Touched.loamWrite _ _ _ _).calm
    | exact (hz.of_same (State.logFault_cores ..) (State.logFault_str ..) (State.logFault_id ..)).of_same rfl rfl rfl
    | exact hz.of_same rfl rfl rfl

theorem State.saveCore_calm (s : State) (c : Nat) (h : Hdr) : Calm s (s.saveCore c h) := by
  unfold State.saveCore State.saveBlock
  have kao : ∀ z t : State, ∀ a n, Calm z t → Calm z (t.kaoRead c a n).1 := fun z t a n hz => hz.trans (State.kaoRead_fed (Fed.refl t)).toCalm
  have vb : ∀ z t : State, ∀ a n, Calm z t → Calm z (t.vbRead c a n).1 := fun z t a n hz => hz.trans (State.vbRead_fed (Fed.refl t)).toCalm
  have wr : ∀ z t : State, ∀ p a b, Calm z t → Calm z (t.loamWrite p a b).1 := fun z t p a b hz => hz.trans (Touched.loamWrite ..).calm
  have h1 := foldl_keeps (P := fun t => Calm s t) (f := fun (t : State) a => saveUnit c (t.kaoRead c a 256) (t.saveBase c + a) 256)
    (fun b a hb => saveUnit_calm (kao _ _ a 256 hb)) (unitStarts 256 (1024 * h.kaoBase) (1024 * h.kaoLen)) s (Calm.refl s)
  have h2 := foldl_keeps (P := fun t => Calm s t) (f := fun (t : State) (p : Nat × Nat × Nat) => (unitStarts 64 p.2.1 p.2.2).foldl
      (fun (t : State) a => saveUnit c (t.vbRead c (65536 * p.1 + a) 64) (t.saveVbAt c p.1 + a) 64) t)
    (fun b p hb => foldl_keeps (P := fun t => Calm s t) (fun b a hb => saveUnit_calm (vb _ _ (65536 * p.1 + a) 64 hb)) _ b hb) h.vbParts _ h1
  exact wr _ _ _ _ _ (wr _ _ _ _ _ (wr _ _ _ _ _ (h2.of_same rfl rfl rfl)))

/-- A save leaves the statistic registers as they are. -/
theorem State.saveCore_stats (s : State) (c : Nat) (h : Hdr) (d : Nat) : ((s.saveCore c h).core d).stats = (s.core d).stats := by
  have mod : ∀ (t : State) (f : Core → Core), (∀ x, (f x).stats = x.stats) → ((t.modCore c f).core d).stats = (t.core d).stats := by
    intro t f hf
    by_cases e : d = c
    · rw [e, State.core_modCore_self, hf]
    · rw [State.core_modCore_ne _ _ e]
  have kao : ∀ (t : State) (a n : Nat), ((t.kaoRead c a n).1.core d).stats = (t.core d).stats := by
    intro t a n
    unfold State.kaoRead
    dsimp only
    rw [(Touched.noteKaoAll c _ _).1.core]
    exact mod t _ fun _ => rfl
  have vb : ∀ (t : State) (a n : Nat), ((t.vbRead c a n).1.core d).stats = (t.core d).stats := by
    intro t a n
    unfold State.vbRead
    dsimp only
    rw [(Touched.noteVbAll c _ _).1.core]
    exact mod t _ fun _ => rfl
  have wr : ∀ (t : State) (p a : Nat) (b : List Byte), ((t.loamWrite p a b).1.core d).stats = (t.core d).stats := fun t p a b => by
    rw [(Touched.loamWrite t p a b).core]
  have unit : ∀ (t : State) (r : Rd (List Byte)) (dst n : Nat), ((saveUnit c (t, r) dst n).core d).stats = (t.core d).stats := by
    intro t r dst n
    unfold saveUnit
    dsimp only
    split
    · exact wr ..
    · split
      · simp [State.poisonSectors, State.core, State.logFault_cores]
      · simp [State.poisonSectors, State.core]
  unfold State.saveCore State.saveBlock
  have h1 := foldl_keeps (P := fun t : State => (t.core d).stats = (s.core d).stats)
    (f := fun (t : State) a => saveUnit c (t.kaoRead c a 256) (t.saveBase c + a) 256)
    (fun b a hb => (unit ..).trans ((kao ..).trans hb)) (unitStarts 256 (1024 * h.kaoBase) (1024 * h.kaoLen)) s rfl
  have h2 := foldl_keeps (P := fun t : State => (t.core d).stats = (s.core d).stats) (f := fun (t : State) (p : Nat × Nat × Nat) =>
      (unitStarts 64 p.2.1 p.2.2).foldl (fun (t : State) a => saveUnit c (t.vbRead c (65536 * p.1 + a) 64) (t.saveVbAt c p.1 + a) 64) t)
    (fun b p hb => foldl_keeps (P := fun t : State => (t.core d).stats = (s.core d).stats) (fun b a hb => (unit ..).trans ((vb ..).trans hb)) _ b hb)
    h.vbParts _ h1
  exact (wr ..).trans ((wr ..).trans ((wr ..).trans h2))

theorem State.accStart_calm {z s : State} {w : Who} {j : ArrJob} {k i c n : Nat} (hz : Calm z s) : Calm z (s.accStart w j k i c n).1 := by
  have kao : ∀ a n, Calm z (s.kaoRead w.core.val a n).1 := fun a n => hz.trans (State.kaoRead_fed (Fed.refl s)).toCalm
  unfold State.accStart
  dsimp only
  repeat' split
  all_goals first
    | exact hz
    | exact kao _ _
    | exact hz.trans (Fed.itemRead s _ _ _).toCalm
    | exact (kao _ _).trans (Touched.loamWrite _ _ _ _).calm

theorem State.accWrite_calm {z s : State} {c : Nat} {o : MmaOp} {i j : Nat} {bs : List Byte} (hz : Calm z s) : Calm z (s.accWrite c o i j bs).1 := by
  unfold State.accWrite
  dsimp only
  refine State.kaoWrite_calm ?_
  split
  · exact hz.of_same rfl rfl rfl
  · exact hz

theorem State.accSegment_calm {z s : State} {w : Who} {j : ArrJob} {k i : Nat} {p : Nat × Nat} {cs : Nat → List Contrib} (hz : Calm z s) :
    Calm z (s.accSegment w j k i p cs).1 := by
  unfold State.accSegment
  dsimp only
  split
  · exact State.accStart_calm hz
  · exact State.accWrite_calm (State.accStart_calm hz)

theorem State.countArr_calm {z s : State} {w : Who} {a b : Nat} (hz : Calm z s) : Calm z (s.countArr w a b) := by
  unfold State.countArr
  split
  · exact hz
  · exact hz.trans (State.modRec_fed (State.modCtr_fed (Fed.refl s))).toCalm

theorem State.addPass_calm (s : State) (j : ArrJob) (x : Pass) (count : Bool) (a b : List (List DecBlk)) : Calm s (s.addPass j x count a b).1 := by
  have key : ∀ (l : List (Nat × Nat × Nat)) (f : Nat × Nat × Nat → Nat → List Contrib), Calm s (l.foldl (fun (acc : State × Rd Nat) t =>
      match acc.2 with
      | .bad e => (acc.1, .bad e)
      | .ok n =>
        let q := acc.1.accSegment j.who j x.k (x.r0 + t.1) t.2 (f t)
        (q.1, match q.2 with
          | .ok m => .ok (n + m)
          | .bad e => .bad e)) (s, .ok 0)).1 := by
    intro l f
    refine foldl_keeps (P := fun q : State × Rd Nat => Calm s q.1) (fun b a hb => ?_) _ _ (Calm.refl s)
    split
    · exact hb
    · exact State.accSegment_calm hb
  unfold State.addPass
  dsimp only
  cases j.op.aD with
  | none => exact Calm.refl s
  | some sa =>
    cases j.op.bD with
    | none => exact Calm.refl s
    | some sb =>
      have h := key ((List.range ((j.span x true).1.2 - (j.span x true).1.1)).flatMap fun i => (colSegs x.c0 x.c1).map fun p => (i, p))
        fun t c => if j.op.emul then ((emulContribs (a.getD t.1 []) (b.getD t.1 [])).drop c).take 1
          else contribs (blockSize sa sb) (a.getD t.1 []) (b.getD (c - x.c0) [])
      dsimp only at h ⊢
      generalize hF : List.foldl _ (s, Rd.ok 0) _ = R at h ⊢
      split
      · exact h
      · exact State.countArr_calm h

theorem State.restoreGrid_calm (s : State) (c : Nat) (j : ArrJob) : Calm s (s.restoreGrid c j).1 := by
  unfold State.restoreGrid
  dsimp only
  refine foldl_keeps (P := fun q : State × Nat => Calm s q.1) (fun b a hb => ?_) _ _ (Calm.refl s)
  have h := hb.trans (Touched.loamRead b.1 (corePort c) (b.1.saveBase c + gridAddr j.op.kbase j.op.m j.op.n a.1 a.2.1) (4 * a.2.2)).calm
  split
  · exact h
  · exact State.kaoWrite_calm h

theorem State.freePadding_calm (s : State) (c : Nat) (o : MmaOp) : Calm s (s.freePadding c o) := by
  unfold State.freePadding
  refine foldl_keeps (P := fun q : State => Calm s q) (fun b a hb => ?_) _ _ (Calm.refl s)
  split
  · exact hb
  · refine (hb.of_same (t := (b.freeBytes a.2).1) rfl rfl rfl).trans ?_
    exact Calm.modCore _ c (fun x => { x with kaolin := { x.kaolin with cells := x.kaolin.cells.write a.1 (b.freeBytes a.2).2 } }) (fun _ => rfl) (fun _ => rfl) (fun _ => rfl)
      (fun _ => rfl) (fun _ => rfl) ⟨rfl, rfl⟩

end Sys2Proof.Machine
end

