-- ==== Sys2Proof/Laws/Grid.lean ====
section
/-! SUPPORT. Laws/Grid.lean: the bytes of an accumulator grid do not overlap (R50, R92). -/

namespace Sys2Proof.Machine

/-- A byte of a grid: tile (p, q), column group s and row r of the tile, byte y of the row segment. -/
def slotAddr (b m n p q s r y : Nat) : Nat := b + tileOff m n p q + s * (1024 * cdiv (tileRows m p) 4) + r * 256 + y

/-- The slot exists. -/
structure Slotted (m n p q s r y : Nat) : Prop where
  tr : p < cdiv m 256
  tc : q < cdiv n 256
  gr : s < cdiv (tileRows n q) 64
  rw : r < 4 * cdiv (tileRows m p) 4
  by_ : y < 256

theorem gridTiles_get {m n p q : Nat} (hp : p < cdiv m 256) (hq : q < cdiv n 256) : (gridTiles m n)[p * cdiv n 256 + q]? = some (p, q) := by
  unfold gridTiles
  generalize cdiv m 256 = P at *
  generalize cdiv n 256 = Q at *
  induction P with
  | zero => omega
  | succ k ih =>
    rw [List.range_succ, List.flatMap_append]
    have hl : ((List.range k).flatMap fun p => (List.range Q).map fun q => (p, q)).length = k * Q := by
      clear ih hp
      induction k with
      | zero => simp
      | succ k ih => rw [List.range_succ, List.flatMap_append, List.length_append, ih, Nat.succ_mul]; simp
    by_cases e : p < k
    · have h1 : p * Q + q < k * Q := by
        have : (p + 1) * Q ≤ k * Q := Nat.mul_le_mul_right _ e
        rw [Nat.succ_mul] at this
        omega
      rw [List.getElem?_append_left (by rw [hl]; exact h1)]
      exact ih e
    · obtain rfl : p = k := by omega
      rw [List.getElem?_append_right (by rw [hl]; omega), hl]
      simp [hq]

theorem sum_take_le {l : List Nat} {i j x : Nat} (h : i < j) (hx : l[i]? = some x) : (l.take i).sum + x ≤ (l.take j).sum := by
  induction l generalizing i j with
  | nil => simp at hx
  | cons a l ih =>
    obtain ⟨j, rfl⟩ : ∃ k, j = k + 1 := ⟨j - 1, by omega⟩
    cases i with
    | zero => simp at hx; subst hx; simp
    | succ i =>
      simp only [List.take_succ_cons, List.sum_cons]
      have := ih (i := i) (j := j) (by omega) (by simpa using hx)
      omega

/-- Tiles follow one another. -/
theorem tileOff_le {m n p q p' q' : Nat} (hp : p < cdiv m 256) (hq : q < cdiv n 256) (h : p * cdiv n 256 + q < p' * cdiv n 256 + q') :
    tileOff m n p q + tileBytes (tileRows m p) (tileRows n q) ≤ tileOff m n p' q' := by
  unfold tileOff
  rw [List.map_take, List.map_take]
  exact sum_take_le h (by rw [List.getElem?_map, gridTiles_get hp hq]; rfl)

theorem rowByte {r y r' y' : Nat} (h : y < 256) (h' : y' < 256) (e : r * 256 + y = r' * 256 + y') : r = r' ∧ y = y' := by omega

theorem rowIn {r y k : Nat} (h : r < 4 * k) (h' : y < 256) : r * 256 + y < 1024 * k := by omega

/-- Distinct slots have distinct addresses. -/
theorem slot_inj {b m n p q s r y p' q' s' r' y' : Nat} (h : Slotted m n p q s r y) (h' : Slotted m n p' q' s' r' y')
    (e : slotAddr b m n p q s r y = slotAddr b m n p' q' s' r' y') : p = p' ∧ q = q' ∧ s = s' ∧ r = r' ∧ y = y' := by
  have bound : ∀ {p q s r y : Nat}, Slotted m n p q s r y → slotAddr b m n p q s r y < b + tileOff m n p q + tileBytes (tileRows m p) (tileRows n q) := by
    intro p q s r y h
    unfold slotAddr tileBytes
    have h1 : (s + 1) * (1024 * cdiv (tileRows m p) 4) ≤ cdiv (tileRows n q) 64 * (1024 * cdiv (tileRows m p) 4) := Nat.mul_le_mul_right _ h.gr
    rw [Nat.succ_mul] at h1
    have := h.rw
    have := h.by_
    omega
  have tile : ∀ {p q s r y p' q' s' r' y' : Nat}, Slotted m n p q s r y → Slotted m n p' q' s' r' y' →
      p * cdiv n 256 + q < p' * cdiv n 256 + q' → slotAddr b m n p q s r y < slotAddr b m n p' q' s' r' y' := by
    intro p q s r y p' q' s' r' y' h h' l
    have := bound h
    have := tileOff_le h.tr h.tc l
    have : b + tileOff m n p' q' ≤ slotAddr b m n p' q' s' r' y' := by unfold slotAddr; omega
    omega
  have et : p * cdiv n 256 + q = p' * cdiv n 256 + q' := by
    rcases Nat.lt_trichotomy (p * cdiv n 256 + q) (p' * cdiv n 256 + q') with l | l | l
    · have := tile h h' l; omega
    · exact l
    · have := tile h' h l; omega
  have hq := h.tc
  have hq' := h'.tc
  have ep : p = p' := by
    have h1 : (p * cdiv n 256 + q) / cdiv n 256 = p := by
      rw [Nat.mul_comm, Nat.mul_add_div (by omega), Nat.div_eq_of_lt hq]; omega
    have h2 : (p' * cdiv n 256 + q') / cdiv n 256 = p' := by
      rw [Nat.mul_comm, Nat.mul_add_div (by omega), Nat.div_eq_of_lt hq']; omega
    rw [← h1, ← h2, et]
  subst ep
  obtain rfl : q = q' := by omega
  refine ⟨rfl, rfl, ?_⟩
  unfold slotAddr at e
  obtain ⟨g, hg⟩ : ∃ g, g = 1024 * cdiv (tileRows m p) 4 := ⟨_, rfl⟩
  rw [← hg] at e
  have a1 : r * 256 + y < g := hg ▸ rowIn h.rw h.by_
  have a2 : r' * 256 + y' < g := hg ▸ rowIn h'.rw h'.by_
  have e' : s * g + (r * 256 + y) = s' * g + (r' * 256 + y') := by omega
  have es : s = s' := by
    have h1 : (s * g + (r * 256 + y)) / g = s := by
      rw [Nat.mul_comm, Nat.mul_add_div (by omega), Nat.div_eq_of_lt a1]; omega
    have h2 : (s' * g + (r' * 256 + y')) / g = s' := by
      rw [Nat.mul_comm, Nat.mul_add_div (by omega), Nat.div_eq_of_lt a2]; omega
    rw [← h1, ← h2, e']
  subst es
  exact ⟨rfl, rowByte h.by_ h'.by_ (by omega)⟩

/-- The slot of byte `y` of accumulator (i, j). -/
theorem gridAddr_slot (b m n i j y : Nat) :
    gridAddr b m n i j + y = slotAddr b m n (i / 256) (j / 256) (j % 256 / 64) (i % 256) (j % 64 * 4 + y) := by
  unfold gridAddr slotAddr
  dsimp only
  omega

theorem acc_slotted {m n i j y : Nat} (hi : i < m) (hj : j < n) (hy : y < 4) :
    Slotted m n (i / 256) (j / 256) (j % 256 / 64) (i % 256) (j % 64 * 4 + y) := by
  refine ⟨?_, ?_, ?_, ?_, ?_⟩
  all_goals try simp only [cdiv, tileRows]
  all_goals omega

end Sys2Proof.Machine
end

