-- ==== Sys2Proof/Laws/Accumulators.lean ====
section
/-! SUPPORT. Laws/Accumulators.lean: the accumulators that a pass leaves in Kaolin, where the stores hold no upset and no tag (R76 to R81,
R84, R92). -/

namespace Sys2Proof.Machine

/-- The accumulator at an address. -/
def accWord (m : Mem) (a : Nat) : Word32 := BitVec.ofNat 32 (leNat (m.read a 4))

theorem accWord_of_get {m n : Mem} {a b : Nat} (h : ∀ i < 4, m.get (a + i) = n.get (b + i)) : accWord m a = accWord n b := by
  unfold accWord
  congr 2
  unfold Mem.read
  exact List.map_congr_left fun i hi => h i (List.mem_range.mp hi)

theorem leNat_leBytes (n v : Nat) (h : v < 256 ^ n) : leNat (leBytes n v) = v := by
  induction n generalizing v with
  | zero => simp at h; subst h; rfl
  | succ n ih =>
    simp only [leBytes, leNat]
    rw [Nat.pow_succ] at h
    rw [ih _ (by omega), BitVec.toNat_ofNat]
    omega

theorem read_sub {m : Mem} {a n l : Nat} (h : 4 * l + 4 ≤ n) : sliceB (m.read a n) (4 * l) 4 = m.read (a + 4 * l) 4 := by
  have e : ((m.read a n).drop (4 * l)).take 4 = m.read (a + 4 * l) 4 := by
    apply List.ext_getElem
    · simp only [List.length_take, List.length_drop, Mem.read_length]; omega
    · intro i h1 h2
      rw [Mem.read_length] at h2
      rw [List.getElem_take, List.getElem_drop, Mem.read_get, Mem.read_get]
      congr 1
      omega
  unfold sliceB
  rw [e]
  simp [Mem.read_length]

theorem accWords_read (m : Mem) (a n : Nat) : accWords (m.read a (4 * n)) n = (List.range n).map fun l => accWord m (a + 4 * l) := by
  unfold accWords accWord fieldB
  refine List.map_congr_left fun l hl => ?_
  have := List.mem_range.mp hl
  rw [read_sub (by omega)]

theorem accBytes_length (l : List Word32) : (accBytes l).length = 4 * l.length := by
  induction l with
  | nil => rfl
  | cons a l ih => simp only [accBytes, List.flatMap_cons, List.length_append, List.length_cons] at *; rw [ih, leBytes_length]; omega

theorem accBytes_get (l : List Word32) (i : Nat) (hi : i < l.length) (j : Nat) (hj : j < 4) :
    (accBytes l)[4 * i + j]'(by rw [accBytes_length]; omega) = (leBytes 4 (l[i]).toNat)[j]'(by rw [leBytes_length]; exact hj) := by
  induction l generalizing i with
  | nil => simp at hi
  | cons a l ih =>
    have hl : (leBytes 4 a.toNat).length = 4 := leBytes_length _ _
    have e : accBytes (a :: l) = leBytes 4 a.toNat ++ accBytes l := rfl
    cases i with
    | zero =>
      simp only [e, Nat.mul_zero, Nat.zero_add]
      rw [List.getElem_append_left (by omega)]
      rfl
    | succ i =>
      simp only [e]
      rw [List.getElem_append_right (by omega)]
      have := ih i (by simpa using hi)
      simp only [List.getElem_cons_succ]
      rw [← this]
      congr 1
      omega

/-- An accumulator just written. -/
theorem accWord_write_in {m : Mem} {a : Nat} {l : List Word32} (hw : m.wf = true) (i : Nat) (hi : i < l.length) :
    accWord (m.write a (accBytes l)) (a + 4 * i) = l[i] := by
  have : (m.write a (accBytes l)).read (a + 4 * i) 4 = leBytes 4 (l[i]).toNat := by
    have := Mem.read_eq (m := m.write a (accBytes l)) (a := a + 4 * i) (bs := leBytes 4 (l[i]).toNat) fun j hj => by
      rw [leBytes_length] at hj
      rw [Nat.add_assoc, Mem.get_write_in _ _ _ _ hw (by rw [accBytes_length]; omega), accBytes_get _ _ hi _ hj]
    rwa [leBytes_length] at this
  unfold accWord
  rw [this, leNat_leBytes _ _ (by have := (l[i]).isLt; omega)]
  simp

/-- The starting value of accumulator (i, c) in a pass of reduction chunk `k` (R81): 0, an element of the LOAD tile, or what it holds. -/
def State.accFrom (s : State) (core : Nat) (o : MmaOp) (k i c : Nat) : Word32 :=
  if k = 0 ∧ o.init = 0 then 0
  else if k = 0 ∧ o.init = 2 then accWord s.loam.cells (o.loadAddr + i * o.loadPitch + 4 * c)
  else accWord (s.core core).kaolin.cells (gridAddr o.kbase o.m o.n i c)

/-- Loam at an address is what the item reads there: it is not in the message view of a handler. -/
def plainLoam (w : Who) (a : Nat) : Prop := ¬ (isHdl w = true ∧ w.core.val ≠ 4 ∧ inView (a / 64) = true)

/-- What a step of a pass leaves: Loam and Kaolin clean, Loam as it was under LOAD, the array's instructions and registers. -/
structure Adding (o : MmaOp) (c : Nat) (s t : State) : Prop extends Calm s t where
  loam : t.loam.Clean
  kao : (t.core c).kaolin.Clean
  wf : (t.core c).kaolin.cells.wf = true
  same : o.init = 2 → t.loam = s.loam

theorem Adding.refl {o : MmaOp} {c : Nat} {s : State} (h1 : s.loam.Clean) (h2 : (s.core c).kaolin.Clean) (h3 : (s.core c).kaolin.cells.wf = true) :
    Adding o c s s := ⟨Calm.refl s, h1, h2, h3, fun _ => rfl⟩

theorem Adding.trans {o : MmaOp} {c : Nat} {s t u : State} (h : Adding o c s t) (g : Adding o c t u) : Adding o c s u :=
  ⟨h.toCalm.trans g.toCalm, g.loam, g.kao, g.wf, fun e => (g.same e).trans (h.same e)⟩

theorem Adding.kaoRead {o : MmaOp} {c : Nat} {s t : State} (h : Adding o c s t) (a n : Nat) :
    t.kaoRead c a n = ((t.kaoRead c a n).1, .ok ((t.core c).kaolin.cells.read a n)) ∧ Adding o c s (t.kaoRead c a n).1 ∧
      ((t.kaoRead c a n).1.core c).kaolin = (t.core c).kaolin ∧ (t.kaoRead c a n).1.loam = t.loam := by
  have f := State.kaoRead_fed (c := c) (a := a) (n := n) (Fed.refl t)
  refine ⟨by rw [State.kaoRead_clean h.kao], ⟨h.toCalm.trans f.toCalm, ?_, ?_, ?_, fun e => ?_⟩, f.kao c h.kao, f.loam h.loam⟩
  · rw [f.loam h.loam]; exact h.loam
  · rw [f.kao c h.kao]; exact h.kao
  · rw [f.kao c h.kao]; exact h.wf
  · rw [f.loam h.loam]; exact h.same e

/-- The starting values of a segment. -/
theorem State.accStart_clean {s t : State} {w : Who} {j : ArrJob} {k i c n : Nat} (h : Adding j.op w.core.val s t)
    (hp : k = 0 → j.op.init = 2 → plainLoam w (j.op.loadAddr + i * j.op.loadPitch + 4 * c))
    (hg : ∀ l < n, gridAddr j.op.kbase j.op.m j.op.n i (c + l) = gridAddr j.op.kbase j.op.m j.op.n i c + 4 * l) :
    ∃ u, t.accStart w j k i c n = (u, .ok ((List.range n).map fun l => t.accFrom w.core.val j.op k i (c + l))) ∧ Adding j.op w.core.val s u ∧
      (j.op.init = 2 → u.loam = t.loam) ∧ (u.core w.core.val).kaolin = (t.core w.core.val).kaolin := by
  obtain ⟨r1, r2, r3, r4⟩ := h.kaoRead (gridAddr j.op.kbase j.op.m j.op.n i c) (4 * n)
  have kao : accWords ((t.core w.core.val).kaolin.cells.read (gridAddr j.op.kbase j.op.m j.op.n i c) (4 * n)) n =
      (List.range n).map fun l => accWord (t.core w.core.val).kaolin.cells (gridAddr j.op.kbase j.op.m j.op.n i (c + l)) := by
    rw [accWords_read]
    exact List.map_congr_left fun l hl => by rw [hg l (List.mem_range.mp hl)]
  obtain ⟨u0, hu0⟩ : ∃ u0, u0 = (t.kaoRead w.core.val (gridAddr j.op.kbase j.op.m j.op.n i c) (4 * n)).1 := ⟨_, rfl⟩
  rw [← hu0] at r1 r2 r3 r4
  unfold State.accStart
  simp only [r1]
  clear r1 hu0
  by_cases hk : k = 0
  · rw [if_neg (by omega)]
    by_cases h0 : j.op.init = 0
    · rw [if_pos h0]
      refine ⟨t, ?_, h, fun _ => rfl, rfl⟩
      congr 2
      rw [List.map_congr_left (g := fun _ => 0#32) fun l _ => by simp [State.accFrom, hk, h0]]
      simp
    · rw [if_neg h0]
      by_cases h2 : j.op.init = 2
      · rw [if_pos h2]
        have e : t.itemRead w (j.op.loadAddr + i * j.op.loadPitch + 4 * c) (4 * n) =
            (t, .ok (t.loam.cells.read (j.op.loadAddr + i * j.op.loadPitch + 4 * c) (4 * n))) := by
          unfold State.itemRead
          rw [if_neg (fun q => hp hk h2 ⟨q.2.1, q.2.2.1, q.2.2.2⟩), State.loamRead_clean h.loam]
        rw [e]
        refine ⟨t, ?_, h, fun _ => rfl, rfl⟩
        dsimp only
        rw [accWords_read]
        congr 2
        refine List.map_congr_left fun l _ => ?_
        unfold State.accFrom
        rw [if_neg (fun q => h0 q.2), if_pos ⟨hk, h2⟩]
        congr 1
        omega
      · rw [if_neg h2]
        have v : (List.range n).map (fun l => t.accFrom w.core.val j.op k i (c + l)) =
            (List.range n).map fun l => accWord (t.core w.core.val).kaolin.cells (gridAddr j.op.kbase j.op.m j.op.n i (c + l)) :=
          List.map_congr_left fun l _ => by
            unfold State.accFrom
            rw [if_neg (fun q => h0 q.2), if_neg (fun q => h2 q.2)]
        rw [v, ← kao]
        split
        · unfold State.copyOut
          rw [State.loamWrite_clean r2.loam]
          refine ⟨_, rfl, ⟨⟨r2.str, r2.id, r2.jobs, r2.front, r2.back, r2.ramp, r2.suspect, r2.bear⟩, ⟨r2.loam.flips, r2.loam.poison, r2.loam.tags⟩, r2.kao, r2.wf, fun q => absurd q h2⟩, fun q => absurd q h2, r3⟩
        · exact ⟨_, rfl, r2, fun _ => r4, r3⟩
  · rw [if_pos hk]
    have v : (List.range n).map (fun l => t.accFrom w.core.val j.op k i (c + l)) =
        (List.range n).map fun l => accWord (t.core w.core.val).kaolin.cells (gridAddr j.op.kbase j.op.m j.op.n i (c + l)) :=
      List.map_congr_left fun l _ => by
        unfold State.accFrom
        rw [if_neg (fun q => hk q.1), if_neg (fun q => hk q.1)]
    rw [v, ← kao]
    exact ⟨_, rfl, r2, fun _ => r4, r3⟩

/-! ### Segments -/

theorem colSegs_mem {c0 c1 : Nat} {p : Nat × Nat} (h : p ∈ colSegs c0 c1) :
    c0 ≤ p.1 ∧ p.1 + p.2 ≤ c1 ∧ (∀ l < p.2, (p.1 + l) / 64 = p.1 / 64) ∧ 0 < p.2 := by
  unfold colSegs at h
  obtain ⟨g, hg, h⟩ := List.mem_filterMap.mp h
  dsimp only at h
  split at h
  · cases h
    refine ⟨by omega, by omega, fun l hl => ?_, by dsimp only; omega⟩
    dsimp only at *
    omega
  · simp at h

theorem colSegs_cover {c0 c1 c : Nat} (h1 : c0 ≤ c) (h2 : c < c1) : ∃ p ∈ colSegs c0 c1, p.1 ≤ c ∧ c < p.1 + p.2 := by
  refine ⟨(max c0 (64 * (c / 64)), min c1 (64 * (c / 64) + 64) - max c0 (64 * (c / 64))), ?_, by dsimp only; omega, by dsimp only; omega⟩
  unfold colSegs
  refine List.mem_filterMap.mpr ⟨c / 64 - c0 / 64, List.mem_range.mpr (by simp only [cdiv]; omega), ?_⟩
  dsimp only
  rw [show c0 / 64 + (c / 64 - c0 / 64) = c / 64 by omega, if_pos (by omega)]

theorem colSegs_apart (c0 c1 : Nat) : (colSegs c0 c1).Pairwise fun p q => p.1 + p.2 ≤ q.1 := by
  unfold colSegs
  refine List.Pairwise.filterMap _ ?_ (List.pairwise_lt_range (n := cdiv c1 64 - c0 / 64))
  intro a b hab p hp q hq
  dsimp only at hp hq
  split at hp
  · split at hq
    · cases hp; cases hq; dsimp only; omega
    · simp at hq
  · simp at hp

theorem gridAddr_seg {b m n i lo len : Nat} (h : ∀ l < len, (lo + l) / 64 = lo / 64) :
    ∀ l < len, gridAddr b m n i (lo + l) = gridAddr b m n i lo + 4 * l := by
  intro l hl
  have := h l hl
  unfold gridAddr
  dsimp only
  rw [show (lo + l) / 256 = lo / 256 by omega, show (lo + l) % 256 / 64 = lo % 256 / 64 by omega]
  omega

/-- A piece of a pass's work that lies in the grid. -/
structure Piece (o : MmaOp) (r0 : Nat) (t : Nat × Nat × Nat) : Prop where
  row : r0 + t.1 < o.m
  col : t.2.1 + t.2.2 ≤ o.n
  seg : ∀ l < t.2.2, (t.2.1 + l) / 64 = t.2.1 / 64

/-- Cell (i, c) is in a piece. -/
def inPiece (t : Nat × Nat × Nat) (i c : Nat) : Prop := i = t.1 ∧ t.2.1 ≤ c ∧ c < t.2.1 + t.2.2

/-- What an accumulator is after a pass over contributions `cs`. -/
def State.accTo (s : State) (core : Nat) (o : MmaOp) (k r0 : Nat) (cs : Nat → Nat → List Contrib) (i c : Nat) : Word32 :=
  (accumAll o.int32 (s.accFrom core o k (r0 + i) c) (cs i c)).1

/-- One piece: its accumulators take their contributions; no other byte of Kaolin changes. -/
theorem State.accSegment_clean {s t : State} {w : Who} {j : ArrJob} {k r0 : Nat} {p : Nat × Nat × Nat} {cs : Nat → Nat → List Contrib}
    (h : Adding j.op w.core.val s t) (hp : Piece j.op r0 p)
    (hl : k = 0 → j.op.init = 2 → plainLoam w (j.op.loadAddr + (r0 + p.1) * j.op.loadPitch + 4 * p.2.1)) :
    ∃ u n, t.accSegment w j k (r0 + p.1) p.2 (cs p.1) = (u, .ok n) ∧ Adding j.op w.core.val s u ∧ (j.op.init = 2 → u.loam = t.loam) ∧
      (∀ i c, inPiece p i c → accWord (u.core w.core.val).kaolin.cells (gridAddr j.op.kbase j.op.m j.op.n (r0 + i) c) =
        t.accTo w.core.val j.op k r0 cs i c) ∧
      (∀ a, (∀ i c, inPiece p i c → ∀ y < 4, a ≠ gridAddr j.op.kbase j.op.m j.op.n (r0 + i) c + y) →
        (u.core w.core.val).kaolin.cells.get a = (t.core w.core.val).kaolin.cells.get a) := by
  have hs := gridAddr_seg (b := j.op.kbase) (m := j.op.m) (n := j.op.n) (i := r0 + p.1) hp.seg
  obtain ⟨v, e, hv, hsame, hk⟩ := State.accStart_clean (k := k) (i := r0 + p.1) (c := p.2.1) (n := p.2.2) h hl hs
  obtain ⟨W, hW⟩ : ∃ W, W = ((List.range p.2.2).map fun l => t.accFrom w.core.val j.op k (r0 + p.1) (p.2.1 + l)).mapIdx
      fun l a => accumAll j.op.int32 a (cs p.1 (p.2.1 + l)) := ⟨_, rfl⟩
  have hWl : (W.map (·.1)).length = p.2.2 := by simp [hW]
  have hWg : ∀ l (hl : l < p.2.2), (W.map (·.1))[l]'(by rw [hWl]; exact hl) = t.accTo w.core.val j.op k r0 cs p.1 (p.2.1 + l) := by
    intro l hl
    simp [hW, State.accTo]
  obtain ⟨m, hm⟩ : ∃ m, m = (v.core w.core.val).kaolin.cells.write (gridAddr j.op.kbase j.op.m j.op.n (r0 + p.1) p.2.1) (accBytes (W.map (·.1))) := ⟨_, rfl⟩
  have e2 : v.accWrite w.core.val j.op (r0 + p.1) p.2.1 (accBytes (W.map (·.1))) =
      (v.modCore w.core.val fun x => { x with kaolin := { (v.core w.core.val).kaolin with cells := m } }, 0) := by
    unfold State.accWrite
    dsimp only
    have z : ∀ n, (v.core w.core.val).kaolin.poison.contains n = false := fun n => by rw [hv.kao.poison]; rfl
    simp only [z, Bool.and_false, Bool.false_eq_true, if_false, List.append_nil]
    rw [State.kaoWrite_clean hv.kao, hm]
  refine ⟨(v.accWrite w.core.val j.op (r0 + p.1) p.2.1 (accBytes (W.map (·.1)))).1, (W.map (·.2)).sum, ?_, ?_, ?_, ?_, ?_⟩
  rotate_left
  · rw [e2]
    have g := Calm.modCore v w.core.val (fun x => { x with kaolin := { (v.core w.core.val).kaolin with cells := m } }) (fun _ => rfl) (fun _ => rfl) (fun _ => rfl) (fun _ => rfl) (fun _ => rfl) ⟨rfl, rfl⟩
    refine ⟨hv.toCalm.trans g, hv.loam, ?_, ?_, hv.same⟩
    · rw [State.core_modCore_self]; exact ⟨hv.kao.flips, hv.kao.poison, hv.kao.tags⟩
    · rw [State.core_modCore_self]; dsimp only; rw [hm]; exact Mem.wf_write _ _ hv.wf
  · intro q
    rw [e2]
    exact hsame q
  · intro i c hc
    obtain ⟨rfl, c1, c2⟩ := hc
    rw [e2, State.core_modCore_self]
    dsimp only
    obtain ⟨l, rfl⟩ : ∃ l, c = p.2.1 + l := ⟨c - p.2.1, by omega⟩
    rw [hm, hs l (by omega), accWord_write_in hv.wf l (by rw [hWl]; omega), hWg l (by omega)]
  · intro a ha
    rw [e2, State.core_modCore_self]
    dsimp only
    rw [hm, Mem.get_write_out _ _ _ _ ?_, hk]
    rw [accBytes_length, hWl]
    by_contra q
    obtain ⟨l, y, hl, hy, ha'⟩ : ∃ l y, l < p.2.2 ∧ y < 4 ∧ a = gridAddr j.op.kbase j.op.m j.op.n (r0 + p.1) p.2.1 + 4 * l + y :=
      ⟨(a - gridAddr j.op.kbase j.op.m j.op.n (r0 + p.1) p.2.1) / 4, (a - gridAddr j.op.kbase j.op.m j.op.n (r0 + p.1) p.2.1) % 4, by omega, by omega, by omega⟩
    exact ha p.1 (p.2.1 + l) ⟨rfl, by omega, by omega⟩ y hy (by rw [hs l hl]; exact ha')
  · unfold State.accSegment
    dsimp only
    rw [e]
    dsimp only
    rw [← hW, e2]
    rfl

/-- Accumulators of distinct cells of a grid have no byte in common. -/
theorem cell_apart {b m n i j i' j' y y' : Nat} (hi : i < m) (hj : j < n) (hi' : i' < m) (hj' : j' < n) (hy : y < 4) (hy' : y' < 4)
    (h : gridAddr b m n i j + y = gridAddr b m n i' j' + y') : i = i' ∧ j = j' ∧ y = y' := by
  rw [gridAddr_slot, gridAddr_slot] at h
  have := slot_inj (acc_slotted hi hj hy) (acc_slotted hi' hj' hy') h
  omega

/-- Two pieces have no cell in common. -/
def apart (p q : Nat × Nat × Nat) : Prop := ∀ i c, inPiece p i c → ¬ inPiece q i c

/-- Pieces that have no cell in common: each accumulator takes its contributions once; no other byte of Kaolin changes. -/
theorem State.accFold_clean {s : State} {w : Who} {j : ArrJob} {k r0 : Nat} {cs : Nat → Nat → List Contrib} (L : List (Nat × Nat × Nat)) :
    ∀ (t : State) (m : Nat), Adding j.op w.core.val s t → (∀ p ∈ L, Piece j.op r0 p) → L.Pairwise apart →
      (∀ p ∈ L, k = 0 → j.op.init = 2 → plainLoam w (j.op.loadAddr + (r0 + p.1) * j.op.loadPitch + 4 * p.2.1)) →
      ∃ u n, L.foldl (fun (acc : State × Rd Nat) p => match acc.2 with
          | .bad e => (acc.1, .bad e)
          | .ok n =>
            let q := acc.1.accSegment w j k (r0 + p.1) p.2 (cs p.1)
            (q.1, match q.2 with
              | .ok m => .ok (n + m)
              | .bad e => .bad e)) (t, .ok m) = (u, .ok n) ∧ Adding j.op w.core.val s u ∧
        (∀ i c, (∃ p ∈ L, inPiece p i c) → accWord (u.core w.core.val).kaolin.cells (gridAddr j.op.kbase j.op.m j.op.n (r0 + i) c) =
          t.accTo w.core.val j.op k r0 cs i c) ∧
        (∀ a, (∀ i c, (∃ p ∈ L, inPiece p i c) → ∀ y < 4, a ≠ gridAddr j.op.kbase j.op.m j.op.n (r0 + i) c + y) →
          (u.core w.core.val).kaolin.cells.get a = (t.core w.core.val).kaolin.cells.get a) := by
  induction L with
  | nil => exact fun t m h _ _ _ => ⟨t, m, rfl, h, fun i c q => by simp at q, fun _ _ => rfl⟩
  | cons p L ih =>
    intro t m h hp ha hl
    obtain ⟨v, n, e, hv, v0, v1, v2⟩ := State.accSegment_clean (k := k) (cs := cs) h (hp p List.mem_cons_self) (hl p List.mem_cons_self)
    obtain ⟨u, n', e', hu, u1, u2⟩ := ih v (m + n) hv (fun q hq => hp q (List.mem_cons_of_mem _ hq)) (List.pairwise_cons.mp ha).2
      (fun q hq => hl q (List.mem_cons_of_mem _ hq))
    have P := hp p List.mem_cons_self
    have sep : ∀ i c, (∃ q ∈ L, inPiece q i c) → r0 + i < j.op.m ∧ c < j.op.n ∧ ¬ inPiece p i c := by
      rintro i c ⟨q, hq, hc⟩
      have Q := hp q (List.mem_cons_of_mem _ hq)
      refine ⟨?_, ?_, fun g => (List.pairwise_cons.mp ha).1 q hq i c g hc⟩
      · rw [hc.1]; exact Q.row
      · have := Q.col; have := hc.2.2; omega
    have pin : ∀ i c, inPiece p i c → r0 + i < j.op.m ∧ c < j.op.n := by
      intro i c hc
      refine ⟨by rw [hc.1]; exact P.row, by have := P.col; have := hc.2.2; omega⟩
    refine ⟨u, n', ?_, hu, fun i c q => ?_, fun a q => ?_⟩
    · rw [List.foldl_cons]
      dsimp only
      rw [e]
      exact e'
    · by_cases g : ∃ q ∈ L, inPiece q i c
      · rw [u1 i c g]
        obtain ⟨g1, g2, g3⟩ := sep i c g
        unfold State.accTo
        congr 2
        unfold State.accFrom
        split
        · rfl
        · split
          · next q2 => rw [v0 q2.2]
          · refine accWord_of_get fun y hy => v2 _ fun i' c' hc' y' hy' e2 => ?_
            obtain ⟨p1, p2⟩ := pin i' c' hc'
            obtain ⟨e3, e4, _⟩ := cell_apart g1 g2 p1 p2 hy hy' e2
            exact g3 (by rwa [show i = i' by omega, e4])
      · have hc : inPiece p i c := by
          obtain ⟨q, hq, hc⟩ := q
          rcases List.mem_cons.mp hq with rfl | hq
          · exact hc
          · exact absurd ⟨q, hq, hc⟩ g
        rw [← v1 i c hc]
        obtain ⟨p1, p2⟩ := pin i c hc
        refine accWord_of_get fun y hy => u2 _ fun i' c' hc' y' hy' e2 => ?_
        obtain ⟨g1, g2, g3⟩ := sep i' c' hc'
        obtain ⟨e3, e4, _⟩ := cell_apart p1 p2 g1 g2 hy hy' e2
        exact g (by rwa [show i = i' by omega, e4])
    · rw [u2 a fun i c hc => q i c (by obtain ⟨p', h1, h2⟩ := hc; exact ⟨p', List.mem_cons_of_mem _ h1, h2⟩),
        v2 a fun i c hc => q i c ⟨p, List.mem_cons_self, hc⟩]

/-! ### A pass -/

theorem chunkOf_le (n w q : Nat) : (chunkOf n w q).2 ≤ n := by simp [chunkOf]

theorem passes_in {o : MmaOp} {w : Nat} {x : Pass} (h : x ∈ o.passes w) : x.r1 ≤ o.m ∧ x.c1 ≤ o.n := by
  unfold MmaOp.passes at h
  dsimp only at h
  split at h
  · obtain ⟨l, _, rfl⟩ := List.mem_map.mp h
    exact ⟨Nat.le_refl _, Nat.le_refl _⟩
  · obtain ⟨b, hb, h⟩ := List.mem_flatMap.mp h
    obtain ⟨k, _, h⟩ := List.mem_flatMap.mp h
    obtain ⟨l, _, rfl⟩ := List.mem_map.mp h
    dsimp only
    split at hb
    · obtain ⟨p, _, hb⟩ := List.mem_flatMap.mp hb
      obtain ⟨q, _, rfl⟩ := List.mem_map.mp hb
      exact ⟨chunkOf_le _ _ _, chunkOf_le _ _ _⟩
    · obtain ⟨p, _, rfl⟩ := List.mem_map.mp hb
      exact ⟨chunkOf_le _ _ _, Nat.le_refl _⟩
    · obtain ⟨p, _, rfl⟩ := List.mem_map.mp hb
      exact ⟨Nat.le_refl _, chunkOf_le _ _ _⟩

theorem countArr_adding {o : MmaOp} {c : Nat} {s t : State} {w : Who} {a b : Nat} (h : Adding o c s t) : Adding o c s (t.countArr w a b) ∧
    ((t.countArr w a b).core c).kaolin = (t.core c).kaolin ∧ (t.countArr w a b).loam = t.loam := by
  unfold State.countArr
  split
  · exact ⟨h, rfl, rfl⟩
  · have f := State.modRec_fed (w := w) (f := fun r => { r with arrSat := stick48 r.arrSat a, arrNan := stick48 r.arrNan b })
      (State.modCtr_fed (f := fun c => { c with arrSat := stick48 c.arrSat a, arrNan := stick48 c.arrNan b }) (Fed.refl t))
    refine ⟨⟨h.toCalm.trans f.toCalm, ?_, ?_, ?_, fun e => ?_⟩, f.kao c h.kao, f.loam h.loam⟩
    · rw [f.loam h.loam]; exact h.loam
    · rw [f.kao c h.kao]; exact h.kao
    · rw [f.kao c h.kao]; exact h.wf
    · rw [f.loam h.loam]; exact h.same e

/-- The contributions of row `i` and column `c` of a pass over decoded rows of A and B (R75, R78, R82). -/
def passContribs (o : MmaOp) (x : Pass) (pb : Nat) (a b : List (List DecBlk)) (i c : Nat) : List Contrib :=
  if o.emul then ((emulContribs (a.getD i []) (b.getD i [])).drop c).take 1 else contribs pb (a.getD i []) (b.getD (c - x.c0) [])

/-- Rows of the result that a pass adds to. -/
def ArrJob.passRowsOf (j : ArrJob) (x : Pass) : Nat := (j.span x true).1.2 - x.r0

/-- What a pass adds: every accumulator of its rows and columns takes its contributions in order; no other byte of Kaolin changes. -/
theorem State.addPass_clean {s : State} {j : ArrJob} {x : Pass} {count : Bool} {a b : List (List DecBlk)} {ad bd : FmtD}
    (h1 : s.loam.Clean) (h2 : (s.core j.who.core.val).kaolin.Clean) (h3 : (s.core j.who.core.val).kaolin.cells.wf = true)
    (had : j.op.aD = some ad) (hbd : j.op.bD = some bd) (hr : x.r1 ≤ j.op.m) (hc : x.c1 ≤ j.op.n)
    (hl : x.k = 0 → j.op.init = 2 → ∀ i c, i < j.passRowsOf x → x.c0 ≤ c → c < x.c1 →
      plainLoam j.who (j.op.loadAddr + (x.r0 + i) * j.op.loadPitch + 4 * c)) :
    ∃ u, s.addPass j x count a b = (u, .ok ()) ∧ Adding j.op j.who.core.val s u ∧
      (∀ i c, i < j.passRowsOf x → x.c0 ≤ c → c < x.c1 →
        accWord (u.core j.who.core.val).kaolin.cells (gridAddr j.op.kbase j.op.m j.op.n (x.r0 + i) c) =
          s.accTo j.who.core.val j.op x.k x.r0 (passContribs j.op x (blockSize ad bd) a b) i c) ∧
      (∀ y, (∀ i c, i < j.passRowsOf x → x.c0 ≤ c → c < x.c1 → ∀ z < 4, y ≠ gridAddr j.op.kbase j.op.m j.op.n (x.r0 + i) c + z) →
        (u.core j.who.core.val).kaolin.cells.get y = (s.core j.who.core.val).kaolin.cells.get y) := by
  have hrow : ∀ i, i < j.passRowsOf x → x.r0 + i < j.op.m := by
    intro i hi
    unfold ArrJob.passRowsOf ArrJob.span at hi
    dsimp only at hi
    simp only [Bool.true_or, if_true] at hi
    split at hi <;> omega
  obtain ⟨L, hL⟩ : ∃ L : List (Nat × Nat × Nat), L = (List.range (j.passRowsOf x)).flatMap fun i => (colSegs x.c0 x.c1).map fun p => (i, p) := ⟨_, rfl⟩
  have mem : ∀ p ∈ L, p.1 < j.passRowsOf x ∧ p.2 ∈ colSegs x.c0 x.c1 := by
    intro p hp
    rw [hL] at hp
    obtain ⟨i, hi, hp⟩ := List.mem_flatMap.mp hp
    obtain ⟨q, hq, rfl⟩ := List.mem_map.mp hp
    exact ⟨List.mem_range.mp hi, hq⟩
  have cells : ∀ i c, (∃ p ∈ L, inPiece p i c) ↔ i < j.passRowsOf x ∧ x.c0 ≤ c ∧ c < x.c1 := by
    intro i c
    constructor
    · rintro ⟨p, hp, rfl, g1, g2⟩
      obtain ⟨m1, m2⟩ := mem p hp
      obtain ⟨s1, s2, _, _⟩ := colSegs_mem m2
      exact ⟨m1, by omega, by omega⟩
    · rintro ⟨g1, g2, g3⟩
      obtain ⟨p, hp, p1, p2⟩ := colSegs_cover g2 g3
      exact ⟨(i, p), by rw [hL]; exact List.mem_flatMap.mpr ⟨i, List.mem_range.mpr g1, List.mem_map.mpr ⟨p, hp, rfl⟩⟩, rfl, p1, p2⟩
  have pieces : ∀ p ∈ L, Piece j.op x.r0 p := by
    intro p hp
    obtain ⟨m1, m2⟩ := mem p hp
    obtain ⟨s1, s2, s3, _⟩ := colSegs_mem m2
    exact ⟨hrow _ m1, by omega, s3⟩
  have ap : L.Pairwise apart := by
    rw [hL, List.pairwise_flatMap]
    refine ⟨fun i _ => ?_, ?_⟩
    · rw [List.pairwise_map]
      refine (colSegs_apart x.c0 x.c1).imp fun {p q} hpq i' c h h' => ?_
      have := h.2.2
      have := h'.2.1
      dsimp only at *
      omega
    · refine (List.pairwise_lt_range (n := j.passRowsOf x)).imp fun {i i'} hi p hp q hq r c h h' => ?_
      obtain ⟨p', _, rfl⟩ := List.mem_map.mp hp
      obtain ⟨q', _, rfl⟩ := List.mem_map.mp hq
      have e1 := h.1
      have e2 := h'.1
      dsimp only at e1 e2
      omega
  obtain ⟨u, n, e, hu, u1, u2⟩ := State.accFold_clean (w := j.who) (j := j) (k := x.k) (r0 := x.r0) (cs := passContribs j.op x (blockSize ad bd) a b)
    L s 0 (Adding.refl h1 h2 h3) pieces ap (fun p hp q1 q2 => by
      obtain ⟨m1, m2⟩ := mem p hp
      obtain ⟨s1, s2, _, s4⟩ := colSegs_mem m2
      exact hl q1 q2 _ _ m1 s1 (by omega))
  obtain ⟨v1, v2, v3⟩ := countArr_adding (w := j.who)
    (a := (if count then (if x.firstA then feedSat a else 0) + (if x.firstB then feedSat b else 0) else 0) + if j.op.int32 then (if count then n else 0) else 0)
    (b := if j.op.int32 then 0 else if count then n else 0) hu
  refine ⟨_, ?_, v1, fun i c g1 g2 g3 => ?_, fun y q => ?_⟩
  · unfold State.addPass
    simp only [had, hbd]
    have : ((List.range ((j.span x true).1.2 - (j.span x true).1.1)).flatMap fun i => (colSegs x.c0 x.c1).map fun p => (i, p)) = L := by
      rw [hL]
      unfold ArrJob.passRowsOf ArrJob.span
      simp
    rw [this]
    generalize hF : List.foldl _ (s, Rd.ok 0) L = R
    obtain rfl : R = (u, .ok n) := hF.symm.trans e
    rfl
  · rw [v2, u1 i c ((cells i c).mpr ⟨g1, g2, g3⟩)]
  · rw [v2, u2 y fun i c hc z hz => by
      obtain ⟨g1, g2, g3⟩ := (cells i c).mp hc
      exact q i c g1 g2 g3 z hz]

/-! ### Padding -/

theorem padding_apart {o : MmaOp} {p : Nat × Nat} (hp : p ∈ padding o) {i j y : Nat} (hi : i < o.m) (hj : j < o.n) (hy : y < 4) :
    gridAddr o.kbase o.m o.n i j + y < p.1 ∨ p.1 + p.2 ≤ gridAddr o.kbase o.m o.n i j + y := by
  by_contra q
  obtain ⟨q1, q2⟩ : p.1 ≤ gridAddr o.kbase o.m o.n i j + y ∧ gridAddr o.kbase o.m o.n i j + y < p.1 + p.2 := by omega
  unfold padding at hp
  obtain ⟨t, ht, hp⟩ := List.mem_flatMap.mp hp
  dsimp only at hp
  obtain ⟨t1, t2⟩ : t.1 < cdiv o.m 256 ∧ t.2 < cdiv o.n 256 := by
    unfold gridTiles at ht
    obtain ⟨a, ha, ht⟩ := List.mem_flatMap.mp ht
    obtain ⟨b, hb, rfl⟩ := List.mem_map.mp ht
    exact ⟨List.mem_range.mp ha, List.mem_range.mp hb⟩
  have acc := acc_slotted (m := o.m) (n := o.n) hi hj hy
  obtain ⟨A, hA⟩ : ∃ A, A = slotAddr o.kbase o.m o.n (i / 256) (j / 256) (j % 256 / 64) (i % 256) (j % 64 * 4 + y) := ⟨_, rfl⟩
  rw [gridAddr_slot, ← hA] at q1 q2
  rcases List.mem_append.mp hp with hp | hp
  · obtain ⟨s, hs, hp⟩ := List.mem_flatMap.mp hp
    obtain ⟨r, hr, rfl⟩ := List.mem_map.mp hp
    have hs := List.mem_range.mp hs
    have hr := List.mem_range.mp hr
    dsimp only at q1 q2
    obtain ⟨z, hz, e⟩ : ∃ z, z < 256 ∧ A =
        slotAddr o.kbase o.m o.n t.1 t.2 s (tileRows o.m t.1 + r) z := by
      refine ⟨A -
        (o.kbase + tileOff o.m o.n t.1 t.2 + s * (1024 * cdiv (tileRows o.m t.1) 4) + (tileRows o.m t.1 + r) * 256), by omega, ?_⟩
      unfold slotAddr
      omega
    rw [hA] at e
    obtain ⟨e1, e2, e3, e4, e5⟩ := slot_inj acc ⟨t1, t2, hs, by omega, hz⟩ e
    have : i % 256 < tileRows o.m t.1 := by rw [← e1]; unfold tileRows; omega
    omega
  · split at hp
    · simp at hp
    · next hn =>
      obtain ⟨r, hr, rfl⟩ := List.mem_map.mp hp
      have hr := List.mem_range.mp hr
      dsimp only at q1 q2
      obtain ⟨z, hz, e⟩ : ∃ z, z < 256 - tileRows o.n t.2 % 64 * 4 ∧ A =
          slotAddr o.kbase o.m o.n t.1 t.2 (tileRows o.n t.2 / 64) r (tileRows o.n t.2 % 64 * 4 + z) := by
        refine ⟨A -
          (o.kbase + tileOff o.m o.n t.1 t.2 + tileRows o.n t.2 / 64 * (1024 * cdiv (tileRows o.m t.1) 4) + r * 256 + tileRows o.n t.2 % 64 * 4), by omega, ?_⟩
        unfold slotAddr
        omega
      rw [hA] at e
      obtain ⟨e1, e2, e3, e4, e5⟩ := slot_inj acc ⟨t1, t2, by unfold cdiv; omega, by unfold cdiv; omega, by omega⟩ e
      have : j % 256 < tileRows o.n t.2 := by rw [← e2]; unfold tileRows; omega
      omega

/-- Freeing the padding of a grid leaves every other byte. -/
theorem State.freePadding_get (s : State) (c : Nat) (o : MmaOp) {y : Nat} (h : ∀ p ∈ padding o, y < p.1 ∨ p.1 + p.2 ≤ y) :
    ((s.freePadding c o).core c).kaolin.cells.get y = (s.core c).kaolin.cells.get y := by
  have key : ∀ l : List (Nat × Nat), (∀ p ∈ l, p ∈ padding o) → ∀ t : State,
      ((l.foldl (fun (s : State) p => if (s.core c).kaolin.poison.contains (p.1 / 256) then s
        else
          let r := s.freeBytes p.2
          r.1.modCore c fun x => { x with kaolin := { x.kaolin with cells := x.kaolin.cells.write p.1 r.2 } }) t).core c).kaolin.cells.get y =
        (t.core c).kaolin.cells.get y := by
    intro l
    induction l with
    | nil => intro _ t; rfl
    | cons p l ih =>
      intro hp t
      rw [List.foldl_cons, ih (fun q hq => hp q (List.mem_cons_of_mem _ hq)) _]
      split
      · rfl
      · dsimp only
        rw [State.core_modCore_self]
        dsimp only
        rw [Mem.get_write_out]
        · rfl
        · have hl : (t.freeBytes p.2).2.length = p.2 := by simp [State.freeBytes]
          rw [hl]
          exact h p (hp p List.mem_cons_self)
  exact key (padding o) (fun _ h => h) s

/-- Freeing the padding of a grid leaves its accumulators. -/
theorem State.freePadding_acc (s : State) (c : Nat) (o : MmaOp) {i j : Nat} (hi : i < o.m) (hj : j < o.n) :
    accWord ((s.freePadding c o).core c).kaolin.cells (gridAddr o.kbase o.m o.n i j) =
      accWord (s.core c).kaolin.cells (gridAddr o.kbase o.m o.n i j) :=
  accWord_of_get fun _ hy => s.freePadding_get c o fun _ hp => padding_apart hp hi hj hy

end Sys2Proof.Machine
end

