-- ==== Sys2Proof/Laws/KeptOps.lean ====
section
/-! SUPPORT. Laws/KeptOps.lean: what is kept (Laws/Kept.lean) by the operations of the named operations (Ops.lean) and the ports (Port.lean). -/

namespace Sys2Proof.Machine

theorem State.setCtx_kept {z s : State} {w : Who} {y : Ctx} (hz : Kept z s) :
    Kept z (State.setCtx s w y) := by
  unfold State.setCtx
  with_reducible repeat' first | assumption | apply State.modCore_kept | exact Core.setCtx_kept

theorem State.setItem_kept {z s : State} {w : Who} {i : Item} (hz : Kept z s) :
    Kept z (State.setItem s w i) := by
  unfold State.setItem
  with_reducible repeat' first | assumption | apply State.setCtx_kept

theorem State.modItem_kept {z s : State} {w : Who} {f : Item → Item} (hz : Kept z s) :
    Kept z (State.modItem s w f) := by
  unfold State.modItem
  with_reducible repeat' first | assumption | apply State.setItem_kept

theorem State.setPhase_kept {z s : State} {w : Who} {p : Phase} (hz : Kept z s) :
    Kept z (State.setPhase s w p) := by
  unfold State.setPhase
  with_reducible repeat' first | assumption | apply State.setCtx_kept

theorem State.freeBytes_kept {z s : State} {n : Nat} (hz : Kept z s) :
    Kept z (State.freeBytes s n).1 := by
  unfold State.freeBytes
  with_reducible repeat' first | assumption | fail_if_no_progress refine Kept.upd ?_ rfl rfl

theorem State.freeWord_kept {z s : State} (hz : Kept z s) :
    Kept z (State.freeWord s).1 := by
  unfold State.freeWord
  with_reducible repeat' first | assumption | fail_if_no_progress refine Kept.upd ?_ rfl rfl

theorem State.freeWord64_kept {z s : State} (hz : Kept z s) :
    Kept z (State.freeWord64 s).1 := by
  unfold State.freeWord64
  with_reducible repeat' first | assumption | fail_if_no_progress refine Kept.upd ?_ rfl rfl

theorem State.send_kept {z s : State} {o : Output} (hz : Kept z s) :
    Kept z (State.send s o) := by
  unfold State.send
  with_reducible repeat' first | assumption | fail_if_no_progress refine Kept.upd ?_ rfl rfl

theorem State.orStay_kept {z s : State} {o : Option State} (hz : Kept z s) (ho : KeptO z o) :
    Kept z (State.orStay s o) := by
  unfold State.orStay
  with_reducible repeat' exact Kept.getD ho hz

theorem State.bin_kept {z s : State} {b : Nat} {k : Nat} (hz : Kept z s) :
    Kept z (State.bin s b k) := by
  unfold State.bin
  with_reducible repeat' first | assumption | fail_if_no_progress refine Kept.upd ?_ rfl rfl

theorem State.modCtr_kept {z s : State} {f : Ctrs → Ctrs} (hz : Kept z s) :
    Kept z (State.modCtr s f) := by
  unfold State.modCtr
  with_reducible repeat' first | assumption | fail_if_no_progress refine Kept.upd ?_ rfl rfl

theorem State.emit_kept {z s : State} {cls : Nat} {sub : SubEv} {who : Nat} {size : Nat} {vals : List Nat} (hz : Kept z s) :
    Kept z (State.emit s cls sub who size vals) := by
  unfold State.emit
  dsimp only
  with_reducible repeat' first | assumption | fail_if_no_progress refine Kept.upd ?_ rfl rfl | split

theorem State.setPower_kept {z s : State} {p : PState} (hz : Kept z s) :
    Kept z (State.setPower s p) := by
  unfold State.setPower
  with_reducible repeat' first | assumption | apply State.emit_kept | fail_if_no_progress refine Kept.upd ?_ rfl rfl

theorem State.activate_kept {z s : State} (hz : Kept z s) :
    Kept z (State.activate s) := by
  unfold State.activate
  with_reducible repeat' first | assumption | apply State.setPower_kept | split

theorem State.fast_kept {z s : State} {f : State → Option State} {l : List ImgField} (hz : Kept z s) (hf : ∀ t, KeptO t (f t)) :
    Kept z (State.fast s f l) := by
  unfold State.fast
  with_reducible repeat' first | assumption | apply State.activate_kept | split | exact Kept.trans ‹_› ((hf _).get _ (by assumption))

theorem State.logFault_kept {z s : State} {code : Nat} {core : Nat} {hdl : Bool} {borne : Bool} {detail : Nat} (hz : Kept z s) :
    Kept z (State.logFault s code core hdl borne detail) := by
  have key : ∀ (e : LogEnt) (l : List LogEnt) (ctr : Ctrs) (n : Nat), Kept s { s with tel := { s.tel with log := (e :: s.tel.log).take 64, lost := n }, ctr := ctr } :=
    fun e l ctr n => ⟨rfl, rfl, fun x => ⟨x.1, x.2.1, x.2.2.1, by simp⟩⟩
  unfold State.logFault
  dsimp only
  apply State.emit_kept
  apply State.send_kept
  split
  · exact State.bin_kept (hz.trans (key _ [] _ _))
  · exact hz.trans (key _ [] _ _)

theorem State.logOnly_kept {z s : State} {code : Nat} {detail : Nat} (hz : Kept z s) :
    Kept z (State.logOnly s code detail) := by
  unfold State.logOnly
  with_reducible repeat' first | assumption | apply State.logFault_kept

theorem State.modRec_kept {z s : State} {w : Who} {f : Rec → Rec} (hz : Kept z s) :
    Kept z (State.modRec s w f) := by
  unfold State.modRec
  with_reducible repeat' first | assumption | apply State.modItem_kept

theorem State.undefVec_kept {z s : State} {c : Nat} (hz : Kept z s) :
    Kept z (State.undefVec s c) := by
  unfold State.undefVec
  with_reducible repeat' first
    | assumption | apply State.modCore_kept | fail_if_no_progress refine Kept.upd ?_ rfl rfl | refine CoreKept.mk fun _ hx => ?_
    | exact Core.Sound.of hx rfl rfl rfl

theorem State.stopEngines_kept {z s : State} {w : Who} (hz : Kept z s) :
    Kept z (State.stopEngines s w) := by
  have key : ∀ (l : List ArrJob) (k : Store), k.cells.wf = true → (l.foldl (fun k j => poisonGrid k j.op) k).cells.wf = true := by
    intro l
    induction l with
    | nil => intro k h; exact h
    | cons j l ih => intro k h; exact ih _ (Store.poisonUnits_wf h)
  unfold State.stopEngines
  dsimp only
  have step : ∀ (msg : Msg) (dma : Dma) (f : Core → Core), CoreKept f → Kept z { s.modCore w.core.val f with msg := msg, dma := dma } :=
    fun _ _ f hf => Kept.upd (State.modCore_kept hz hf) rfl rfl
  split
  · refine State.undefVec_kept (step _ _ _ ⟨fun x hx => ?_⟩)
    exact Core.Sound.ofStores hx (key _ _ hx.1) hx.2.1 rfl
  · refine step _ _ _ ⟨fun x hx => ?_⟩
    exact Core.Sound.ofStores hx (key _ _ hx.1) hx.2.1 rfl

theorem State.noteFault_kept {z s : State} {c : Nat} {code : Nat} {h : Hdr} (hz : Kept z s) :
    Kept z (State.noteFault s c code h) := by
  unfold State.noteFault
  with_reducible repeat' first | assumption | apply State.modCore_kept | refine CoreKept.mk fun _ hx => ?_ | exact Core.Sound.of hx rfl rfl rfl

theorem State.markAbort_kept {z s : State} {w : Who} {code : Nat} (hz : Kept z s) :
    Kept z (State.markAbort s w code) := by
  unfold State.markAbort
  with_reducible repeat' first | assumption | apply State.setCtx_kept | apply State.noteFault_kept

theorem State.beginAbort_kept {z s : State} {w : Who} {code : Nat} (hz : Kept z s) :
    Kept z (State.beginAbort s w code) := by
  unfold State.beginAbort
  with_reducible repeat' first | assumption | apply State.stopEngines_kept | apply State.markAbort_kept

theorem unbearLog_length (core : Nat) (hdl : Bool) (code : Nat) (l : List LogEnt) : (unbearLog core hdl code l).length = l.length := by
  induction l with
  | nil => rfl
  | cons e l ih => unfold unbearLog; split <;> simp [ih]

theorem State.unbear_kept {z s : State} {w : Who} (hz : Kept z s) :
    Kept z (State.unbear s w) := by
  unfold State.unbear
  split
  · split
    · exact State.logFault_kept hz
    · exact hz.trans ⟨rfl, rfl, fun x => ⟨x.1, x.2.1, x.2.2.1, by simp only [unbearLog_length]; exact x.2.2.2⟩⟩
  · exact hz

theorem State.raiseSaved_kept {z s : State} {c : Fin 5} {code : Nat} {detail : Nat} (hz : Kept z s) :
    Kept z (State.raiseSaved s c code detail) := by
  unfold State.raiseSaved
  dsimp only
  with_reducible repeat' first
    | assumption | apply State.modCore_kept | apply State.setCtx_kept | apply State.logFault_kept | apply State.noteFault_kept
    | apply State.markAbort_kept | refine CoreKept.mk fun _ hx => ?_ | exact Core.Sound.of hx rfl rfl rfl | split

theorem State.work_kept {z s : State} {e : Nat} {no : Nat} (hz : Kept z s) :
    Kept z (State.work s e no) := by
  unfold State.work
  with_reducible repeat' first | assumption | fail_if_no_progress refine Kept.upd ?_ rfl rfl | split

theorem State.mendSoft_kept {z s : State} (hz : Kept z s) :
    Kept z (State.mendSoft s) := by
  unfold State.mendSoft
  with_reducible repeat' first | assumption | apply State.bin_kept | apply State.modCtr_kept | fail_if_no_progress refine Kept.upd ?_ rfl rfl | split

theorem State.raise_kept {z s : State} {w : Who} {code : Nat} {detail : Nat} (hz : Kept z s) :
    Kept z (State.raise s w code detail) := by
  unfold State.raise
  with_reducible repeat' first
    | assumption | apply State.logFault_kept | apply State.beginAbort_kept | apply State.unbear_kept | apply State.raiseSaved_kept | split

theorem State.recordUe_kept {z s : State} {store : Nat} {core : Nat} {vb : Nat} {addr : Nat} {port : Nat} (hz : Kept z s) :
    Kept z (State.recordUe s store core vb addr port) := by
  unfold State.recordUe
  dsimp only
  with_reducible repeat' first | assumption | apply State.bin_kept | fail_if_no_progress refine Kept.upd ?_ rfl rfl | split

theorem State.countLoamCe_kept {z s : State} {sector : Nat} {k : Nat} (hz : Kept z s) :
    Kept z (State.countLoamCe s sector k) := by
  unfold State.countLoamCe
  with_reducible repeat' first | assumption | apply State.bin_kept | apply State.modCtr_kept | split

theorem State.noteLoam_kept {z s : State} {port : Nat} {x : UnitNote} (hz : Kept z s) :
    Kept z (State.noteLoam s port x) := by
  unfold State.noteLoam
  with_reducible repeat' first | assumption | apply State.recordUe_kept | apply State.countLoamCe_kept | split

theorem State.loamSector_kept {z s : State} {port : Nat} {sector : Nat} (hz : Kept z s) :
    Kept z (State.loamSector s port sector).1 := by
  have key : Kept z { s with loam := (s.loam.touch 64 sector).1 } := Kept.updLoam hz (fun _ x => Store.touch_wf x.1) rfl rfl
  exact State.noteLoam_kept key

theorem State.loamRead_kept {z s : State} {port : Nat} {a : Nat} {n : Nat} (hz : Kept z s) :
    Kept z (State.loamRead s port a n).1 := by
  unfold State.loamRead
  dsimp only
  apply Kept.foldlFst
  · intro _ _ h
    exact State.loamSector_kept h
  · exact hz

theorem State.loamWrite_kept {z s : State} {port : Nat} {a : Nat} {bs : List Byte} (hz : Kept z s) :
    Kept z (State.loamWrite s port a bs).1 := by
  have key : Kept z { s with loam := (s.loam.writeRange 64 (bs.length + 1) a bs).1 } :=
    Kept.updLoam hz (fun _ x => Store.writeRange_wf _ x.1) rfl rfl
  exact Kept.foldl (fun _ _ h => State.noteLoam_kept h) key

theorem State.poisonSectors_kept {z s : State} {l : List Nat} (hz : Kept z s) :
    Kept z (State.poisonSectors s l) :=
  Kept.updLoam hz (fun _ x => Store.poisonUnits_wf x.1) rfl rfl

theorem State.countKaoCe_kept {z s : State} {c : Nat} {k : Nat} (hz : Kept z s) :
    Kept z (State.countKaoCe s c k) := by
  unfold State.countKaoCe
  with_reducible repeat' first | assumption | apply State.bin_kept | apply State.modCtr_kept | split

theorem State.noteKao_kept {z s : State} {c : Nat} {x : UnitNote} (hz : Kept z s) :
    Kept z (State.noteKao s c x) := by
  unfold State.noteKao
  with_reducible repeat' first | assumption | apply State.recordUe_kept | apply State.countKaoCe_kept | split

theorem State.noteVb_kept {z s : State} {c : Nat} {x : UnitNote} (hz : Kept z s) :
    Kept z (State.noteVb s c x) := by
  unfold State.noteVb
  with_reducible repeat' first | assumption | apply State.recordUe_kept | apply State.countKaoCe_kept | split

theorem State.kaoRead_kept {z s : State} {c : Nat} {a : Nat} {n : Nat} (hz : Kept z s) :
    Kept z (State.kaoRead s c a n).1 := by
  have key : Kept z (s.modCore c fun x => { x with kaolin := ((s.core c).kaolin.touchRange 256 a n).1 }) :=
    Kept.modCoreOf hz fun y x hx => Core.Sound.ofStores hx (Store.touchRange_wf (y.core c).1) hx.2.1 rfl
  exact Kept.foldl (fun _ _ h => State.noteKao_kept h) key

theorem State.kaoWrite_kept {z s : State} {c : Nat} {a : Nat} {bs : List Byte} (hz : Kept z s) :
    Kept z (State.kaoWrite s c a bs).1 := by
  have key : Kept z (s.modCore c fun x => { x with kaolin := ((s.core c).kaolin.writeRange 256 (bs.length + 1) a bs).1 }) :=
    Kept.modCoreOf hz fun y x hx => Core.Sound.ofStores hx (Store.writeRange_wf _ (y.core c).1) hx.2.1 rfl
  exact Kept.foldl (fun _ _ h => State.noteKao_kept h) key

theorem State.vbRead_kept {z s : State} {c : Nat} {a : Nat} {n : Nat} (hz : Kept z s) :
    Kept z (State.vbRead s c a n).1 := by
  have key : Kept z (s.modCore c fun x => { x with vb := ((s.core c).vb.touchRange 64 a n).1 }) :=
    Kept.modCoreOf hz fun y x hx => Core.Sound.ofStores hx hx.1 (Store.touchRange_wf (y.core c).2.1) rfl
  exact Kept.foldl (fun _ _ h => State.noteVb_kept h) key

theorem State.vbWrite_kept {z s : State} {c : Nat} {a : Nat} {bs : List Byte} (hz : Kept z s) :
    Kept z (State.vbWrite s c a bs).1 := by
  have key : Kept z (s.modCore c fun x => { x with vb := ((s.core c).vb.writeRange 64 (bs.length + 1) a bs).1 }) :=
    Kept.modCoreOf hz fun y x hx => Core.Sound.ofStores hx hx.1 (Store.writeRange_wf _ (y.core c).2.1) rfl
  exact Kept.foldl (fun _ _ h => State.noteVb_kept h) key

theorem State.unblock_kept {z s : State} {reason : Nat} (hz : Kept z s) :
    Kept z (State.unblock s reason) := by
  unfold State.unblock
  with_reducible repeat' first | assumption | apply State.modItem_kept | apply Kept.foldl | intro _ _ _ | split

theorem State.setSc_kept {z s : State} {n : Nat} {v : Word32} (hz : Kept z s) :
    Kept z (State.setSc s n v) := by
  unfold State.setSc
  with_reducible repeat' first | assumption | fail_if_no_progress refine Kept.upd ?_ rfl rfl

theorem State.addSc_kept {z s : State} {n : Nat} {v : Word32} (hz : Kept z s) :
    Kept z (State.addSc s n v) := by
  unfold State.addSc
  with_reducible repeat' first | assumption | apply State.logFault_kept | apply State.setSc_kept | split

theorem State.arriveSc_kept {z s : State} {n : Nat} {v : Word32} {who : Nat} (hz : Kept z s) :
    Kept z (State.arriveSc s n v who) := by
  unfold State.arriveSc
  with_reducible repeat' first | assumption | apply State.emit_kept | apply State.addSc_kept | split

theorem State.requestSnap_kept {z s : State} {cause : Nat} {fault : Nat} {origin : Nat} (hz : Kept z s) :
    Kept z (State.requestSnap s cause fault origin) := by
  unfold State.requestSnap
  dsimp only
  with_reducible repeat' first | assumption | fail_if_no_progress refine Kept.upd ?_ rfl rfl | split

theorem State.askSnap_kept {z s : State} {cause : Nat} {fault : Nat} (hz : Kept z s) :
    Kept z (State.askSnap s cause fault) := by
  unfold State.askSnap
  with_reducible repeat' first | assumption | apply State.send_kept | apply State.requestSnap_kept | split

theorem State.newTxn_kept {z s : State} {addr : Nat} {k : TxnKind} (hz : Kept z s) :
    Kept z (State.newTxn s addr k).1 := by
  unfold State.newTxn
  try dsimp only
  with_reducible repeat' first | assumption | fail_if_no_progress refine Kept.upd ?_ rfl rfl

theorem State.issueAdd_kept {z s : State} {k : TxnKind} {addr : Nat} {clu : Nat} {sc : Nat} {a : AddKind} (hz : Kept z s) :
    Kept z (State.issueAdd s k addr clu sc a) := by
  unfold State.issueAdd
  try dsimp only
  with_reducible repeat' first | assumption | apply State.send_kept | apply State.newTxn_kept

theorem State.oweAdd_kept {z s : State} {k : TxnKind} {addr : Nat} {clu : Nat} {sc : Nat} {a : AddKind} (hz : Kept z s) :
    Kept z (State.oweAdd s k addr clu sc a) := by
  unfold State.oweAdd
  try dsimp only
  with_reducible repeat' first | assumption | apply State.issueAdd_kept | fail_if_no_progress refine Kept.upd ?_ rfl rfl | split

theorem State.payOwed_kept {z s : State} (hz : Kept z s) :
    Kept z (State.payOwed s) := by
  unfold State.payOwed
  try dsimp only
  with_reducible repeat' first
    | assumption | apply State.oweAdd_kept | fail_if_no_progress refine Kept.upd ?_ rfl rfl | apply Kept.foldl | intro _ _ _

theorem State.dropTxn_kept {z s : State} {id : Nat} (hz : Kept z s) :
    Kept z (State.dropTxn s id) := by
  unfold State.dropTxn
  try dsimp only
  with_reducible repeat' first | assumption | fail_if_no_progress refine Kept.upd ?_ rfl rfl

theorem State.pbufWrite_kept {z s : State} {itemNo : Nat} {pa : Nat} {bs : List Byte} (hz : Kept z s) :
    KeptO z (State.pbufWrite s itemNo pa bs) := by
  unfold State.pbufWrite
  try dsimp only
  with_reducible repeat' first | assumption | exact KeptO.none _ | apply KeptO.some | fail_if_no_progress refine Kept.upd ?_ rfl rfl | split

theorem portDrain_kept {z s : State} {sector : Nat} (hz : Kept z s) :
    KeptO z (portDrain sector s) := by
  unfold portDrain
  try dsimp only
  with_reducible repeat' first
    | assumption | exact KeptO.none _ | apply KeptO.some | apply State.send_kept | apply State.newTxn_kept
    | fail_if_no_progress refine Kept.upd ?_ rfl rfl | split

theorem State.endDrain_kept {z s : State} {id : Nat} (hz : Kept z s) :
    Kept z (State.endDrain s id) := by
  unfold State.endDrain
  try dsimp only
  with_reducible repeat' first | assumption | fail_if_no_progress refine Kept.upd ?_ rfl rfl

theorem State.raiseElse_kept {z s : State} {no : Nat} {code : Nat} {detail : Nat} {f : State → State} (hz : Kept z s) (hf : ∀ t, Kept z t → Kept z (f t)) :
    Kept z (State.raiseElse s no code detail f) := by
  unfold State.raiseElse
  try dsimp only
  with_reducible repeat' first | assumption | apply State.raiseSaved_kept | apply State.raise_kept | apply hf | split

theorem State.raiseItem_kept {z s : State} {no : Nat} {code : Nat} {detail : Nat} (hz : Kept z s) :
    Kept z (State.raiseItem s no code detail) := by
  unfold State.raiseItem
  try dsimp only
  with_reducible repeat' first | assumption | apply State.logOnly_kept | apply State.raiseElse_kept | intro _ _

theorem State.raiseFor_kept {z s : State} {no : Nat} {by_ : Who} {code : Nat} {detail : Nat} (hz : Kept z s) :
    Kept z (State.raiseFor s no by_ code detail) := by
  unfold State.raiseFor
  try dsimp only
  with_reducible repeat' first | assumption | apply State.logFault_kept | apply State.raiseElse_kept | intro _ _

theorem State.failDrain_kept {z s : State} {id : Nat} {code : Nat} (hz : Kept z s) :
    Kept z (State.failDrain s id code) := by
  unfold State.failDrain
  try dsimp only
  with_reducible repeat' first | assumption | apply State.endDrain_kept | apply State.raiseItem_kept | apply Kept.foldl | intro _ _ _ | split

theorem State.fillLine_kept {z s : State} {sector : Nat} {data : List Byte} (hz : Kept z s) :
    Kept z (State.fillLine s sector data) := by
  unfold State.fillLine
  try dsimp only
  with_reducible repeat' first | assumption | fail_if_no_progress refine Kept.upd ?_ rfl rfl

theorem State.lookLine_kept {z s : State} {sector : Nat} (hz : Kept z s) :
    Kept z (State.lookLine s sector).1 := by
  unfold State.lookLine
  try dsimp only
  with_reducible repeat' first | assumption | apply State.bin_kept | apply State.modCtr_kept | fail_if_no_progress refine Kept.upd ?_ rfl rfl | split

theorem State.updateLine_kept {z s : State} {pa : Nat} {bs : List Byte} (hz : Kept z s) :
    Kept z (State.updateLine s pa bs) := by
  unfold State.updateLine
  try dsimp only
  with_reducible repeat' first | assumption | fail_if_no_progress refine Kept.upd ?_ rfl rfl

theorem State.dropLine_kept {z s : State} {sector : Nat} (hz : Kept z s) :
    Kept z (State.dropLine s sector) := by
  unfold State.dropLine
  try dsimp only
  with_reducible repeat' first | assumption | fail_if_no_progress refine Kept.upd ?_ rfl rfl

theorem State.dropCache_kept {z s : State} (hz : Kept z s) :
    Kept z (State.dropCache s) := by
  unfold State.dropCache
  try dsimp only
  with_reducible repeat' first | assumption | fail_if_no_progress refine Kept.upd ?_ rfl rfl

theorem State.loamAtomic_kept {z s : State} {port : Nat} {a : Nat} {r : AtomReq} (hz : Kept z s) :
    Kept z (State.loamAtomic s port a r).1 := by
  unfold State.loamAtomic
  try dsimp only
  with_reducible repeat' first | assumption | apply State.loamRead_kept | apply State.loamWrite_kept | split

theorem State.atomReturn_kept {z s : State} {w : Who} {ret : Option Nat} {old : Nat} (hz : Kept z s) :
    Kept z (State.atomReturn s w ret old) := by
  unfold State.atomReturn
  try dsimp only
  with_reducible repeat' first | assumption | apply State.raise_kept | apply State.loamWrite_kept | split

theorem State.pbufAtomic_kept {z s : State} {itemNo : Nat} {pa : Nat} {r : AtomReq} (hz : Kept z s) :
    Kept z (State.pbufAtomic s itemNo pa r).1 := by
  unfold State.pbufAtomic
  try dsimp only
  with_reducible repeat' first | assumption | fail_if_no_progress refine Kept.upd ?_ rfl rfl

theorem State.pbufAtomicBy_kept {z s : State} {w : Who} {pa : Nat} {r : AtomReq} (hz : Kept z s) :
    Kept z (State.pbufAtomicBy s w pa r).1 := by
  unfold State.pbufAtomicBy
  try dsimp only
  with_reducible repeat' first | assumption | apply State.updateLine_kept | apply State.pbufAtomic_kept | split

theorem State.pbufFill_kept {z s : State} {sec : Nat} {data : List Byte} (hz : Kept z s) :
    Kept z (State.pbufFill s sec data) := by
  unfold State.pbufFill
  try dsimp only
  with_reducible repeat' first | assumption | fail_if_no_progress refine Kept.upd ?_ rfl rfl | split

theorem State.remoteRead_kept {z s : State} {cl : Nat} {a : Nat} {n : Nat} (hz : Kept z s) :
    Kept z (State.remoteRead s cl a n) := by
  unfold State.remoteRead
  try dsimp only
  with_reducible repeat' first | assumption | apply State.send_kept | apply State.logOnly_kept | apply State.loamRead_kept | split

theorem acceptAccess_kept {z s : State} {r : RemoteReq} (hz : Kept z s) :
    Kept z (acceptAccess r s) := by
  unfold acceptAccess
  try dsimp only
  with_reducible repeat' first
    | assumption | apply State.send_kept | apply State.logOnly_kept | apply State.loamWrite_kept | apply State.poisonSectors_kept
    | apply State.loamAtomic_kept | apply State.remoteRead_kept | split

theorem acceptAdd_kept {z s : State} {sc : Nat} {k : AddKind} (hz : Kept z s) :
    Kept z (acceptAdd sc k s) := by
  unfold acceptAdd
  try dsimp only
  with_reducible repeat' first | assumption | apply State.send_kept | apply State.addSc_kept | split

end Sys2Proof.Machine
end

