-- ==== Sys2Proof/Laws/KeptMsg.lean ====
section
/-! SUPPORT. Laws/KeptMsg.lean: what is kept (Laws/Kept.lean) by the operations of messages (Msg.lean). -/

namespace Sys2Proof.Machine

theorem State.mkEntries_kept {z s : State} {h : MHdr} {payload : List Byte} (hz : Kept z s) :
    Kept z (State.mkEntries s h payload).1 := by
  unfold State.mkEntries
  with_reducible repeat' first | assumption | apply State.freeBytes_kept

theorem State.setRing_kept {z s : State} {c : Nat} {r : Nat} {x : Ring} (hz : Kept z s) :
    Kept z (State.setRing s c r x) := by
  unfold State.setRing
  with_reducible repeat' first | assumption | fail_if_no_progress refine Kept.upd ?_ rfl rfl

theorem State.countMsg_kept {z s : State} {n : Nat} (hz : Kept z s) :
    Kept z (State.countMsg s n) := by
  unfold State.countMsg
  with_reducible repeat' first | assumption | fail_if_no_progress refine Kept.upd ?_ rfl rfl

theorem State.ringWrite_kept {z s : State} {c : Nat} {r : Nat} {es : List (List Byte)} {credited : Bool} {marked : Bool} (hz : Kept z s) :
    Kept z (State.ringWrite s c r es credited marked) := by
  unfold State.ringWrite
  with_reducible repeat' first
    | assumption | apply State.modCore_kept | apply State.loamWrite_kept | apply State.setRing_kept | refine CoreKept.mk fun _ hx => ?_
    | exact Core.Sound.of hx rfl rfl rfl | apply Kept.foldl | intro _ _ _

theorem State.returnCredits_kept {z s : State} {h : MHdr} {dest : Nat} {count : Nat} {gen : Option Byte} {st : RetStatus} {echo : Bool} (hz : Kept z s) :
    Kept z (State.returnCredits s h dest count gen st echo) := by
  unfold State.returnCredits
  with_reducible repeat' first | assumption | apply State.send_kept

theorem State.noteDiscard_kept {z s : State} {code : Nat} {tag : Nat} {src : Nat} {core : Nat} {detail : Nat} (hz : Kept z s) :
    Kept z (State.noteDiscard s code tag src core detail) := by
  unfold State.noteDiscard
  with_reducible repeat' first | assumption | apply State.emit_kept | apply State.logFault_kept | fail_if_no_progress refine Kept.upd ?_ rfl rfl

theorem State.noteRefused_kept {z s : State} {code : Nat} {h : MHdr} {core : Nat} (hz : Kept z s) :
    Kept z (State.noteRefused s code h core) := by
  unfold State.noteRefused
  with_reducible repeat' first | assumption | apply State.noteDiscard_kept

theorem State.noteUnread_kept {z s : State} {code : Nat} {core : Nat} {detail : Nat} (hz : Kept z s) :
    Kept z (State.noteUnread s code core detail) := by
  unfold State.noteUnread
  with_reducible repeat' first | assumption | apply State.freeWord_kept | apply State.noteDiscard_kept

theorem State.freeEntries_kept {z s : State} {c : Nat} {r : Nat} {n : Nat} (hz : Kept z s) :
    Kept z (State.freeEntries s c r n) := by
  unfold State.freeEntries
  with_reducible repeat' first | assumption | apply State.setRing_kept

theorem State.retireMsg_kept {z s : State} {c : Nat} {m : MsgRef} (hz : Kept z s) :
    Kept z (State.retireMsg s c m) := by
  unfold State.retireMsg
  dsimp only
  with_reducible repeat' first | assumption | apply State.returnCredits_kept | apply State.freeEntries_kept | split

theorem State.resetMsg_kept {z s : State} {c : Nat} {r : Nat} {at_ : Nat} {m : RingMsg} (hz : Kept z s) :
    Kept z (State.resetMsg s c r at_ m) := by
  unfold State.resetMsg
  dsimp only
  with_reducible repeat' first | assumption | apply State.logFault_kept | apply State.modCtr_kept | apply State.loamRead_kept | apply State.returnCredits_kept | split

theorem State.advanceRing_kept {z s : State} {c : Nat} {r : Nat} (hz : Kept z s) :
    Kept z (State.advanceRing s c r) := by
  unfold State.advanceRing
  dsimp only
  with_reducible repeat' first | assumption | apply State.setRing_kept | apply State.resetMsg_kept | apply Kept.foldlFst | intro _ _ _ | split

theorem State.mendRing_kept {z s : State} {c : Nat} {r : Nat} (hz : Kept z s) :
    Kept z (State.mendRing s c r) := by
  unfold State.mendRing
  with_reducible repeat' first
    | assumption | apply State.logFault_kept | apply State.advanceRing_kept | fail_if_no_progress refine Kept.upd ?_ rfl rfl | split

theorem State.advanceAll_kept {z s : State} {c : Nat} (hz : Kept z s) :
    Kept z (State.advanceAll s c) := by
  unfold State.advanceAll
  with_reducible repeat' first | assumption | apply State.advanceRing_kept | apply Kept.foldl | intro _ _ _ | split

theorem State.viewRead_kept {z s : State} {c : Nat} {x : Nat} {n : Nat} {m : MsgRef} (hz : Kept z s) :
    Kept z (State.viewRead s c x n m).1 := by
  unfold State.viewRead
  with_reducible repeat' first | assumption | apply State.loamSector_kept | apply Kept.foldlFst | intro _ _ _

theorem State.itemRead_kept {z s : State} {w : Who} {a : Nat} {n : Nat} (hz : Kept z s) :
    Kept z (State.itemRead s w a n).1 := by
  unfold State.itemRead
  with_reducible repeat' first | assumption | apply State.loamRead_kept | apply State.viewRead_kept | split

theorem State.setCredit_kept {z s : State} {dest : Nat} {c : Credit} (hz : Kept z s) :
    Kept z (State.setCredit s dest c) := by
  unfold State.setCredit
  with_reducible repeat' first | assumption | fail_if_no_progress refine Kept.upd ?_ rfl rfl

theorem State.queueStatus_kept {z s : State} {r : CreditRet} {fault : Nat} {kind : Nat} (hz : Kept z s) :
    Kept z (State.queueStatus s r fault kind) := by
  unfold State.queueStatus
  dsimp only
  with_reducible repeat' first | assumption | apply State.modCtr_kept | fail_if_no_progress refine Kept.upd ?_ rfl rfl | split

theorem State.setPace_kept {z s : State} {node : Nat} {p : Pace} (hz : Kept z s) :
    Kept z (State.setPace s node p) := by
  unfold State.setPace
  with_reducible repeat' first | assumption | fail_if_no_progress refine Kept.upd ?_ rfl rfl

theorem State.echo_kept {z s : State} {node : Nat} (hz : Kept z s) :
    Kept z (State.echo s node) := by
  unfold State.echo
  dsimp only
  with_reducible repeat' first | assumption | apply State.modCtr_kept | apply State.setPace_kept | split

theorem acceptCredit_kept {z s : State} {r : CreditRet} (hz : Kept z s) :
    Kept z (acceptCredit r s) := by
  unfold acceptCredit
  dsimp only
  with_reducible repeat' first
    | assumption | apply State.logFault_kept | apply State.setCredit_kept | apply State.queueStatus_kept | apply State.echo_kept | split

theorem statusWrite_kept {z s : State} {i : Nat} (hz : Kept z s) :
    KeptO z (statusWrite i s) := by
  unfold statusWrite
  dsimp only
  with_reducible repeat' first
    | assumption | apply State.mendRing_kept | exact KeptO.none _ | apply KeptO.some | apply State.modCtr_kept | apply State.mkEntries_kept | apply State.ringWrite_kept
    | fail_if_no_progress refine Kept.upd ?_ rfl rfl | split

theorem State.setSlot_kept {z s : State} {n : Nat} {x : Slot} (hz : Kept z s) :
    Kept z (State.setSlot s n x) := by
  unfold State.setSlot
  with_reducible repeat' first | assumption | fail_if_no_progress refine Kept.upd ?_ rfl rfl

theorem State.returnContribution_kept {z s : State} {h : MHdr} {e : HEntry} {n : Nat} {marked : Bool} {st : RetStatus} (hz : Kept z s) :
    Kept z (State.returnContribution s h e n marked st) := by
  unfold State.returnContribution
  with_reducible repeat' first | assumption | apply State.returnCredits_kept

theorem State.discardContribution_kept {z s : State} {code : Nat} {h : MHdr} {e : HEntry} {n : Nat} {marked : Bool} (hz : Kept z s) :
    Kept z (State.discardContribution s code h e n marked) := by
  unfold State.discardContribution
  with_reducible repeat' first | assumption | apply State.noteRefused_kept | apply State.setSlot_kept | apply State.returnContribution_kept

theorem State.slotRead_kept {z s : State} {n : Nat} {lo : Nat} {k : Nat} (hz : Kept z s) :
    Kept z (State.slotRead s n lo k).1 := by
  unfold State.slotRead
  dsimp only
  with_reducible repeat' first | assumption | apply State.recordUe_kept | apply State.setSlot_kept | split

theorem State.addContribution_kept {z s : State} {h : MHdr} {p : List Byte} {e : HEntry} {n : Nat} {marked : Bool} (hz : Kept z s) :
    Kept z (State.addContribution s h p e n marked) := by
  unfold State.addContribution
  dsimp only
  with_reducible repeat' first
    | assumption | apply State.setSlot_kept | apply State.returnContribution_kept | apply State.discardContribution_kept | apply State.slotRead_kept
    | split

theorem State.takeParked_kept {z s : State} {e : HEntry} {p : Parked} (hz : Kept z s) :
    Kept z (State.takeParked s e p) := by
  unfold State.takeParked
  dsimp only
  with_reducible repeat' first
    | assumption | apply State.modCtr_kept | apply State.logFault_kept | apply State.loamRead_kept | apply State.setSlot_kept
    | apply State.addContribution_kept | fail_if_no_progress refine Kept.upd ?_ rfl rfl | split

theorem State.drainParked_kept {z s : State} {e : HEntry} {fuel : Nat} (hz : Kept z s) :
    Kept z (State.drainParked e fuel s) := by
  induction fuel generalizing s with
  | zero => exact hz
  | succ n ih =>
    unfold State.drainParked
    dsimp only
    split
    · exact hz
    · split
      · exact hz
      · exact ih (State.takeParked_kept hz)

theorem State.parkContribution_kept {z s : State} {cell : Nat} {h : MHdr} {p : List Byte} {e : HEntry} {n : Nat} {marked : Bool} (hz : Kept z s) :
    Kept z (State.parkContribution s cell h p e n marked) := by
  unfold State.parkContribution
  with_reducible repeat' first
    | assumption | apply State.loamWrite_kept | apply State.setSlot_kept | fail_if_no_progress refine Kept.upd ?_ rfl rfl | split

theorem State.contribute_kept {z s : State} {h : MHdr} {p : List Byte} {e : HEntry} {n : Nat} {marked : Bool} (hz : Kept z s) :
    Kept z (State.contribute s h p e n marked) := by
  unfold State.contribute
  dsimp only
  with_reducible repeat' first
    | assumption | apply State.discardContribution_kept | apply State.addContribution_kept | apply State.drainParked_kept
    | apply State.parkContribution_kept | split

theorem State.slotTaken_kept {z s : State} {n : Nat} (hz : Kept z s) :
    Kept z (State.slotTaken s n) := by
  unfold State.slotTaken
  dsimp only
  with_reducible repeat' first | assumption | apply State.logOnly_kept | apply State.setSlot_kept | apply State.slotRead_kept | split

theorem combineDeliver_kept {z s : State} {n : Nat} (hz : Kept z s) :
    KeptO z (combineDeliver n s) := by
  unfold combineDeliver
  dsimp only
  with_reducible repeat' first
    | assumption | apply State.mendRing_kept | exact KeptO.none _ | apply KeptO.some | apply State.emit_kept | apply State.mkEntries_kept | apply State.ringWrite_kept
    | apply State.setSlot_kept | apply State.drainParked_kept | apply State.slotTaken_kept | split

theorem State.refuseMsg_kept {z s : State} {code : Nat} {h : MHdr} {dest : Nat} {n : Nat} {gen : Option Byte} {marked : Bool} (hz : Kept z s) :
    Kept z (State.refuseMsg s code h dest n gen marked) := by
  unfold State.refuseMsg
  with_reducible repeat' first | assumption | apply State.returnCredits_kept | apply State.noteRefused_kept

theorem acceptMessage_kept {z s : State} {m : Frame} (hz : Kept z s) :
    Kept z (acceptMessage m s) := by
  unfold acceptMessage
  dsimp only
  with_reducible repeat' first
    | assumption | apply State.emit_kept | apply State.modCtr_kept | apply State.countMsg_kept | apply State.ringWrite_kept | apply State.returnCredits_kept
    | apply State.mendRing_kept | apply State.contribute_kept | apply State.refuseMsg_kept | split

theorem dispatch_kept {z s : State} {c : Nat} (hz : Kept z s) :
    KeptO z (dispatch c s) := by
  unfold dispatch
  dsimp only
  with_reducible repeat' first
    | assumption | exact KeptO.none _ | apply KeptO.some | apply State.modCore_kept | apply State.modCtr_kept | apply State.emit_kept
    | apply State.loamRead_kept | apply State.setRing_kept | apply State.returnCredits_kept | apply State.noteRefused_kept
    | apply State.noteUnread_kept | apply State.freeEntries_kept | apply State.mendRing_kept | fail_if_no_progress refine Kept.upd ?_ rfl rfl
    | refine CoreKept.mk fun _ hx => ?_ | exact Core.Sound.of hx rfl rfl rfl | apply Kept.foldl | intro _ _ _ | split

theorem State.takeCredits_kept {z s : State} {x : Send} {e : Nat} (hz : Kept z s) :
    Kept z (State.takeCredits s x e) := by
  unfold State.takeCredits
  dsimp only
  with_reducible repeat' first | assumption | apply State.setCredit_kept | apply State.setPace_kept | apply Kept.foldl | intro _ _ _ | split

theorem State.noteCredits_kept {z s : State} {x : Send} (hz : Kept z s) :
    KeptO z (State.noteCredits s x) := by
  unfold State.noteCredits
  with_reducible repeat' first
    | assumption | exact KeptO.none _ | apply KeptO.some | apply State.logFault_kept | fail_if_no_progress refine Kept.upd ?_ rfl rfl | split

theorem sendAccept_kept {z s : State} (hz : Kept z s) :
    KeptO z (sendAccept s) := by
  unfold sendAccept
  dsimp only
  with_reducible repeat' first
    | assumption | exact KeptO.none _ | apply KeptO.some | apply State.modItem_kept | apply State.send_kept | apply State.emit_kept
    | apply State.work_kept | apply State.raise_kept | apply State.mkEntries_kept | apply State.countMsg_kept | apply State.itemRead_kept
    | apply State.takeCredits_kept | apply State.noteCredits_kept | fail_if_no_progress refine Kept.upd ?_ rfl rfl | split

theorem State.paceAll_kept {z s : State} {f : Pace → Pace} (hz : Kept z s) :
    Kept z (State.paceAll s f) := by
  unfold State.paceAll
  with_reducible repeat' first | assumption | fail_if_no_progress refine Kept.upd ?_ rfl rfl

theorem State.paceIncrease_kept {z s : State} (hz : Kept z s) :
    Kept z (State.paceIncrease s) := by
  unfold State.paceIncrease
  with_reducible repeat' first | assumption | apply State.paceAll_kept | fail_if_no_progress refine Kept.upd ?_ rfl rfl | split

theorem State.paceAllow_kept {z s : State} (hz : Kept z s) :
    Kept z (State.paceAllow s) := by
  unfold State.paceAllow
  with_reducible repeat' first | assumption | apply State.paceAll_kept | fail_if_no_progress refine Kept.upd ?_ rfl rfl

end Sys2Proof.Machine
end

