-- ==== Sys2Proof/Laws/KeptVector.lean ====
section
/-! SUPPORT. Laws/KeptVector.lean: what is kept (Laws/Kept.lean) by the operations of chains, the fetch of an instruction and the vector engine (Chain.lean, Issue.lean, Vector.lean). -/

namespace Sys2Proof.Machine

theorem State.opRead_kept {z s : State} {w : Who} {vb : Bool} {a : Nat} {n : Nat} (hz : Kept z s) :
    Kept z (State.opRead s w vb a n).1 := by
  unfold State.opRead
  with_reducible repeat' first | assumption | apply State.vbRead_kept | apply State.itemRead_kept | split

theorem State.rowRead_kept {z s : State} {w : Who} {vb : Bool} {d : FmtD} {a : Nat} {n : Nat} {lo : Nat} {hi : Nat} (hz : Kept z s) :
    Kept z (State.rowRead s w vb d a n lo hi).1 := by
  unfold State.rowRead
  dsimp only
  with_reducible repeat' first | assumption | apply State.opRead_kept | split

theorem State.second_kept {z s : State} {g : Seg} {t : Stage} {int : Bool} {n : Nat} (hz : Kept z s) :
    Kept z (State.second s g t int n).1 := by
  unfold State.second
  with_reducible repeat' first | assumption | apply State.kaoRead_kept | apply State.itemRead_kept | apply State.rowRead_kept | split

theorem State.countVec_kept {z s : State} {w : Who} {sat : Nat} {nan : Nat} (hz : Kept z s) :
    Kept z (State.countVec s w sat nan) := by
  unfold State.countVec
  with_reducible repeat' first | assumption | apply State.modCtr_kept | apply State.modRec_kept | split

theorem State.runStage_kept {z s : State} {g : Seg} {t : Stage} {vs : List Val} (hz : Kept z s) :
    Kept z (State.runStage s g t vs).1 := by
  unfold State.runStage
  dsimp only
  with_reducible repeat' first
    | assumption | apply State.modCore_kept | apply State.second_kept | apply State.countVec_kept | apply Core.setMaskBits_sound
    | refine CoreKept.mk fun _ hx => ?_ | exact Core.Sound.of hx rfl rfl rfl | split

theorem State.runStages_kept {z s : State} {g : Seg} {ts : List Stage} {vs : List Val} (hz : Kept z s) :
    Kept z (State.runStages s g ts vs).1 := by
  induction ts generalizing s vs with
  | nil => exact hz
  | cons t ts ih =>
    unfold State.runStages
    dsimp only
    split
    · exact State.runStage_kept hz
    · exact ih (State.runStage_kept hz)

theorem State.scatter_kept {z s : State} {w : Who} {vb : Bool} {t : Tab Byte} (hz : Kept z s) :
    Kept z (State.scatter s w vb t).1 := by
  unfold State.scatter
  dsimp only
  with_reducible repeat' first | assumption | apply State.loamWrite_kept | apply State.vbWrite_kept | apply Kept.foldlFst | intro _ _ _ | split

theorem State.fetch_kept {z s : State} {w : Who} (hz : Kept z s) :
    Kept z (State.fetch s w).1 := by
  unfold State.fetch
  dsimp only
  with_reducible repeat' first | assumption | apply State.loamRead_kept | split

theorem State.issue_kept {z s : State} {w : Who} {f : Op → Nat → State → Option State} (hz : Kept z s) (hf : ∀ a b t, KeptO t (f a b t)) :
    Kept z (State.issue s w f) := by
  unfold State.issue
  refine State.fast_kept hz fun t => ?_
  dsimp only
  split
  · exact KeptO.none _
  · split
    · exact KeptO.some (State.raise_kept (Kept.upd (Kept.refl t) rfl rfl))
    · split
      · exact KeptO.some (State.raise_kept (State.fetch_kept (Kept.refl t)))
      · exact KeptO.some (State.raise_kept (State.fetch_kept (Kept.refl t)))
      · split
        · exact KeptO.none _
        · exact (hf _ _ _).of (State.fetch_kept (Kept.refl t))

theorem State.advance_kept {z s : State} {w : Who} {len : Nat} (hz : Kept z s) :
    Kept z (State.advance s w len) := by
  unfold State.advance
  with_reducible repeat' first | assumption | apply State.modItem_kept | apply State.work_kept

theorem State.advanceVec_kept {z s : State} {w : Who} {len : Nat} (hz : Kept z s) :
    Kept z (State.advanceVec s w len) := by
  unfold State.advanceVec
  with_reducible repeat' first | assumption | apply State.advance_kept | apply State.work_kept

theorem State.issues_kept {z s : State} {w : Who} (hz : Kept z s) : Kept z (State.issues s w) := State.work_kept hz

theorem State.conflicts_kept {z s : State} {w : Who} {n : Nat} (hz : Kept z s) : Kept z (State.conflicts s w n) := by
  unfold State.conflicts
  with_reducible repeat' first | assumption | apply State.modItem_kept

theorem State.noteAside_kept {z s : State} {c no a n : Nat} (hz : Kept z s) : Kept z (State.noteAside s c no a n) := by
  unfold State.noteAside
  dsimp only
  with_reducible repeat' first
    | assumption | apply State.modCore_kept | refine CoreKept.mk fun _ hx => ?_ | exact Core.Sound.of hx rfl rfl rfl

theorem State.block_kept {z s : State} {w : Who} {reason : Nat} (hz : Kept z s) :
    Kept z (State.block s w reason) := by
  unfold State.block
  with_reducible repeat' first | assumption | apply State.modItem_kept

theorem State.blockThrough_kept {z s : State} {w : Who} {reason : Nat} (hz : Kept z s) :
    Kept z (State.blockThrough s w reason) := by
  unfold State.blockThrough
  with_reducible repeat' first | assumption | apply State.modItem_kept

theorem State.noteWrote_kept {z s : State} {w : Who} {a : Nat} {n : Nat} (hz : Kept z s) :
    Kept z (State.noteWrote s w a n) := by
  unfold State.noteWrote
  with_reducible repeat' first | assumption | apply State.modItem_kept | split

theorem State.chainBytes_kept {z s : State} {w : Who} {a : Nat} (hz : Kept z s) :
    Kept z (State.chainBytes s w a).1 := by
  unfold State.chainBytes
  dsimp only
  with_reducible repeat' first | assumption | apply State.itemRead_kept | split

theorem State.chainCheck_kept {z s : State} {w : Who} {a : Nat} {pro : Option Nat} {rows : Nat} {cols : Nat} {kc : Nat} {int : Bool} {kao : Option (Nat × Nat)} (hz : Kept z s) :
    Kept z (State.chainCheck s w a pro rows cols kc int kao).1 := by
  unfold State.chainCheck
  dsimp only
  with_reducible repeat' first | assumption | apply State.chainBytes_kept | split

theorem runSegment_kept {z : State} {w : Who} {c : Chain} {f : SFmt} {cols : Nat} {src : Nat → Nat → Nat → State → State × Rd (List Val)} {kao : Nat → Nat → Nat} {c0 : Nat} {r : Run} {n : Nat} {p : Nat × Nat × Nat} (hr : Kept z r.1) (hsrc : ∀ i j k t, Kept t (src i j k t).1) :
    Kept z (runSegment w c f cols src kao c0 r n p).1 := by
  unfold runSegment
  split
  · exact hr
  · have hq := hr.trans (hsrc p.1 p.2.1 p.2.2 r.1)
    dsimp only
    split
    · exact hq
    · split
      · exact State.runStages_kept hq
      · split
        · exact State.runStages_kept hq
        · exact State.countVec_kept (State.runStages_kept hq)

theorem runUnit_kept {z : State} {w : Who} {c : Chain} {f : SFmt} {cols : Nat} {src : Nat → Nat → Nat → State → State × Rd (List Val)} {kao : Nat → Nat → Nat} {r : Run} {r0 : Nat} {r1 : Nat} {c0 : Nat} {c1 : Nat} (hr : Kept z r.1) (hsrc : ∀ i j k t, Kept t (src i j k t).1) :
    Kept z (runUnit w c f cols src kao r r0 r1 c0 c1).1 := by
  unfold runUnit
  exact Kept.foldlFst (fun _ _ h => runSegment_kept h hsrc) hr

theorem State.noteGathered_kept {z s : State} {w : Who} {t : Tab Byte} (hz : Kept z s) :
    Kept z (State.noteGathered s w t) := by
  unfold State.noteGathered
  with_reducible repeat' first | assumption | apply State.noteWrote_kept | apply Kept.foldl | intro _ _ _

theorem State.endRun_kept {z : State} {w : Who} {c : Chain} {r : Run} {a : Nat} (hr : Kept z r.1) :
    Kept z (State.endRun w c r a).1 := by
  unfold State.endRun
  dsimp only
  with_reducible repeat' first
    | assumption | apply State.work_kept | apply State.raise_kept | apply State.scatter_kept | apply State.noteGathered_kept | split

theorem kaoSource_kept {z s : State} {w : Who} {int : Bool} {b : Nat} {m : Nat} {n : Nat} {i : Nat} {j : Nat} {k : Nat} (hz : Kept z s) :
    Kept z (kaoSource w int b m n i j k s).1 := by
  unfold kaoSource
  with_reducible repeat' first | assumption | apply State.kaoRead_kept

theorem rowSource_kept {z s : State} {w : Who} {vb : Bool} {f : SFmt} {a : Nat} {pitch : Nat} {cols : Nat} {i : Nat} {j : Nat} {k : Nat} (hz : Kept z s) :
    Kept z (rowSource w vb f a pitch cols i j k s).1 := by
  unfold rowSource
  with_reducible repeat' first | assumption | apply State.opRead_kept | apply State.rowRead_kept | split

theorem State.epilogue_kept {z s : State} {w : Who} {o : MmaOp} {c : Chain} {p : Nat} {q : Nat} (hz : Kept z s) :
    Kept z (State.epilogue s w o c p q).1 := by
  have src : ∀ i j k t, Kept t (kaoSource w o.int32 o.kbase o.m o.n i j k t).1 := fun _ _ _ t => kaoSource_kept (Kept.refl t)
  unfold State.epilogue
  dsimp only
  split
  · exact hz
  · exact State.endRun_kept (runUnit_kept hz src)

theorem ChainOp.run_kept {z s : State} {c : ChainOp} {w : Who} {ch : Chain} {f : SFmt} {sf : SFmt} {u : Nat × Nat × Nat × Nat} (hz : Kept z s) :
    Kept z (ChainOp.run c w ch f sf u s).1 := by
  unfold ChainOp.run
  refine runUnit_kept hz fun i j k t => ?_
  split
  · exact kaoSource_kept (Kept.refl t)
  · exact rowSource_kept (Kept.refl t)

theorem runBlock_kept {z s : State} {w : Who} {len : Nat} {c : ChainOp} {f : SFmt} {b : List Byte} {k : Nat} (hz : Kept z s) :
    KeptO z (runBlock w len c f b k s) := by
  unfold runBlock
  dsimp only
  split
  · exact KeptO.none _
  · split
    · apply KeptO.some
      split
      · exact State.endRun_kept (ChainOp.run_kept hz)
      · split
        · exact State.advance_kept (State.conflicts_kept (State.endRun_kept (ChainOp.run_kept hz)))
        · exact State.modItem_kept (State.conflicts_kept (State.endRun_kept (ChainOp.run_kept hz)))
    · exact KeptO.none _

theorem State.chainDecode_kept {z s : State} {w : Who} {c : ChainOp} (hz : Kept z s) :
    Kept z (State.chainDecode s w c).1 := by
  unfold State.chainDecode
  dsimp only
  with_reducible repeat' first | assumption | apply State.chainCheck_kept | split

theorem runChainOp_kept {z s : State} {w : Who} {len : Nat} {c : ChainOp} (hz : Kept z s) :
    KeptO z (runChainOp w len c s) := by
  unfold runChainOp
  split
  · exact runBlock_kept hz
  · dsimp only
    split
    · exact KeptO.some (State.raise_kept (State.chainDecode_kept hz))
    · exact runBlock_kept (State.chainDecode_kept hz)

theorem maskLoad_kept {z s : State} {w : Who} {len : Nat} {m : Nat} {a : Nat} (hz : Kept z s) :
    KeptO z (maskLoad w len m a s) := by
  unfold maskLoad
  dsimp only
  with_reducible repeat' first
    | assumption | apply State.advanceVec_kept | exact KeptO.none _ | apply KeptO.some | apply State.modCore_kept | apply State.raise_kept | apply State.itemRead_kept
    | apply State.advance_kept | refine CoreKept.mk fun _ hx => ?_ | exact Core.Sound.of hx rfl rfl rfl | split

theorem maskStore_kept {z s : State} {w : Who} {len : Nat} {m : Nat} {a : Nat} (hz : Kept z s) :
    KeptO z (maskStore w len m a s) := by
  unfold maskStore
  dsimp only
  with_reducible repeat' first
    | assumption | apply State.advanceVec_kept | exact KeptO.none _ | apply KeptO.some | apply State.raise_kept | apply State.loamWrite_kept | apply State.advance_kept
    | apply State.noteWrote_kept | split

theorem statClear_kept {z s : State} {w : Who} {len : Nat} {st : Nat} {inf : Bool} (hz : Kept z s) :
    KeptO z (statClear w len st inf s) := by
  unfold statClear
  with_reducible repeat' first
    | assumption | apply State.advanceVec_kept | exact KeptO.none _ | apply KeptO.some | apply State.modCore_kept | apply State.advance_kept | refine CoreKept.mk fun _ hx => ?_
    | apply Core.setStatRow_sound | split

theorem sideVector_kept {z s : State} {w : Who} {len : Nat} {lse : Bool} {a : Nat} {b : Nat} {c : Nat} {d : Nat} {addr : Nat} (hz : Kept z s) :
    KeptO z (sideVector w len lse a b c d addr s) := by
  unfold sideVector
  dsimp only
  with_reducible repeat' first
    | assumption | apply State.advanceVec_kept | exact KeptO.none _ | apply KeptO.some | apply State.modCore_kept | apply State.raise_kept | apply State.loamWrite_kept
    | apply State.advance_kept | apply State.noteWrote_kept | refine CoreKept.mk fun _ hx => ?_ | apply Core.setStatRow_sound | split

theorem rmsSum_kept {z s : State} {w : Who} {a : Nat} {fuel : Nat} {k2 : Nat} {ys : List Fp32} (hz : Kept z s) :
    Kept z (rmsSum w a fuel k2 ys s).1 := by
  induction fuel generalizing s k2 ys with
  | zero => exact hz
  | succ n ih =>
    unfold rmsSum
    dsimp only
    split
    · exact State.itemRead_kept hz
    · exact ih (State.itemRead_kept hz)

theorem lseCorrect_kept {z s : State} {w : Who} {a : Nat} {fin : List Fp32} {fuel : Nat} {k2 : Nat} (hz : Kept z s) :
    Kept z (lseCorrect w a fin fuel k2 s).1 := by
  induction fuel generalizing s k2 with
  | zero => exact hz
  | succ n ih =>
    unfold lseCorrect
    dsimp only
    split
    · exact State.itemRead_kept hz
    · split
      · exact ih (State.loamWrite_kept (State.itemRead_kept hz))
      · exact State.loamWrite_kept (State.itemRead_kept hz)

theorem rowClose_kept {z s : State} {w : Who} {len : Nat} {lse : Bool} {c : Nat} {d : Nat} {t : Nat} {side : Nat} {fin : Nat} {a : Fp32} {b : Fp32} (hz : Kept z s) :
    KeptO z (rowClose w len lse c d t side fin a b s) := by
  unfold rowClose
  dsimp only
  with_reducible repeat' first
    | assumption | apply State.advanceVec_kept | exact KeptO.none _ | apply KeptO.some | apply State.raise_kept | apply State.loamWrite_kept | apply State.advance_kept
    | apply State.noteWrote_kept | apply rmsSum_kept | apply lseCorrect_kept | split

end Sys2Proof.Machine
end

