-- ==== Sys2Proof/Laws/KeptArray.lean ====
section
/-! SUPPORT. Laws/KeptArray.lean: what is kept (Laws/Kept.lean) by the operations of the array (Array.lean). -/

namespace Sys2Proof.Machine

theorem State.setBq_kept {z s : State} {q : Nat} {b : BatchQ} (hz : Kept z s) :
    Kept z (State.setBq s q b) := by
  unfold State.setBq
  with_reducible repeat' first | assumption | fail_if_no_progress refine Kept.upd ?_ rfl rfl

theorem State.mmaChains_kept {z s : State} {w : Who} {o : MmaOp} (hz : Kept z s) :
    Kept z (State.mmaChains s w o).1 := by
  unfold State.mmaChains
  dsimp only
  with_reducible repeat' first | assumption | apply State.chainCheck_kept | split

theorem State.feedRow_kept {z s : State} {w : Who} {f : Feed} {pb : Nat} {k : Nat} {i : Nat} {k0 : Nat} {k1 : Nat} {n : Nat} (hz : Kept z s) :
    Kept z (State.feedRow s w f pb k i k0 k1 n).1 := by
  unfold State.feedRow
  dsimp only
  with_reducible repeat' first
    | assumption | apply State.work_kept | apply State.rowRead_kept | apply State.countVec_kept | apply State.runStages_kept | apply Kept.foldlFst | intro _ _ _ | split

theorem State.feed_kept {z s : State} {w : Who} {f : Feed} {pb : Nat} {k : Nat} {r0 : Nat} {r1 : Nat} {k0 : Nat} {k1 : Nat} (hz : Kept z s) :
    Kept z (State.feed s w f pb k r0 r1 k0 k1).1 := by
  unfold State.feed
  with_reducible repeat' first | assumption | apply State.feedRow_kept | apply Kept.foldlFst | intro _ _ _ | split

theorem State.freePadding_kept {z s : State} {c : Nat} {o : MmaOp} (hz : Kept z s) :
    Kept z (State.freePadding s c o) := by
  unfold State.freePadding
  with_reducible repeat' first
    | assumption | apply State.modCore_kept | apply State.freeBytes_kept | refine CoreKept.mk fun _ hx => ?_ | exact Core.Sound.write hx rfl rfl rfl
    | apply Kept.foldl | intro _ _ _ | split

theorem State.accWrite_kept {z s : State} {c : Nat} {o : MmaOp} {i : Nat} {j : Nat} {bs : List Byte} (hz : Kept z s) :
    Kept z (State.accWrite s c o i j bs).1 := by
  unfold State.accWrite
  with_reducible repeat' first | assumption | apply State.freeBytes_kept | apply State.kaoWrite_kept | split

theorem State.copyOut_kept {z s : State} {c : Nat} {a : Nat} {bs : List Byte} (hz : Kept z s) :
    Kept z (State.copyOut s c a bs).1 := by
  unfold State.copyOut
  with_reducible repeat' first | assumption | apply State.loamWrite_kept

theorem State.accStart_kept {z s : State} {w : Who} {j : ArrJob} {k : Nat} {i : Nat} {c : Nat} {n : Nat} (hz : Kept z s) :
    Kept z (State.accStart s w j k i c n).1 := by
  unfold State.accStart
  dsimp only
  with_reducible repeat' first | assumption | apply State.kaoRead_kept | apply State.itemRead_kept | apply State.copyOut_kept | split

theorem State.countArr_kept {z s : State} {w : Who} {sat : Nat} {nan : Nat} (hz : Kept z s) :
    Kept z (State.countArr s w sat nan) := by
  unfold State.countArr
  with_reducible repeat' first | assumption | apply State.modCtr_kept | apply State.modRec_kept | split

theorem State.accSegment_kept {z s : State} {w : Who} {j : ArrJob} {k : Nat} {i : Nat} {p : Nat × Nat} {cs : Nat → List Contrib} (hz : Kept z s) :
    Kept z (State.accSegment s w j k i p cs).1 := by
  unfold State.accSegment
  dsimp only
  with_reducible repeat' first | assumption | apply State.accWrite_kept | apply State.accStart_kept | split

theorem State.keepVec_kept {z s : State} {w : Who} (hz : Kept z s) :
    Kept z (State.keepVec s old w) := by
  unfold State.keepVec
  with_reducible repeat' first | assumption | apply State.modRec_kept | fail_if_no_progress refine Kept.upd ?_ rfl rfl

theorem State.feedPass_kept {z s : State} {j : ArrJob} {x : Pass} {isA : Bool} {count : Bool} (hz : Kept z s) :
    Kept z (State.feedPass s j x isA count).1 := by
  unfold State.feedPass
  with_reducible repeat' first | assumption | apply State.feed_kept | apply State.keepVec_kept | split

theorem State.addPass_kept {z s : State} {j : ArrJob} {x : Pass} {count : Bool} {a : List (List DecBlk)} {b : List (List DecBlk)} (hz : Kept z s) :
    Kept z (State.addPass s j x count a b).1 := by
  unfold State.addPass
  dsimp only
  with_reducible repeat' first | assumption | apply State.countArr_kept | apply State.accSegment_kept | apply Kept.foldlFst | intro _ _ _ | split

theorem State.statLoad_kept {z s : State} {j : ArrJob} {n : Nat} (hz : Kept z s) :
    Kept z (State.statLoad s j n).1 := by
  unfold State.statLoad
  with_reducible repeat' first | assumption | apply State.feedPass_kept | split

theorem State.statRows_kept {z s : State} {j : ArrJob} {x : Pass} {count : Bool} (hz : Kept z s) :
    Kept z (State.statRows s j x count).1 := by
  unfold State.statRows
  with_reducible repeat' first | assumption | apply State.feedPass_kept | split

theorem State.passRows_kept {z s : State} {j : ArrJob} {x : Pass} {count : Bool} (hz : Kept z s) :
    Kept z (State.passRows s j x count).1 := by
  unfold State.passRows
  dsimp only
  with_reducible repeat' first | assumption | apply State.feedPass_kept | apply State.statRows_kept | split

theorem State.modJob_kept {z s : State} {c : Nat} {p : ArrJob → Bool} {f : ArrJob → ArrJob} (hz : Kept z s) :
    Kept z (State.modJob s c p f) := by
  unfold State.modJob
  with_reducible repeat' first | assumption | apply State.modCore_kept | refine CoreKept.mk fun _ hx => ?_ | exact Core.Sound.of hx rfl rfl rfl

theorem State.dropDone_kept {z s : State} {c : Nat} (hz : Kept z s) :
    Kept z (State.dropDone s c) := by
  unfold State.dropDone
  with_reducible repeat' first | assumption | apply State.modCore_kept | refine CoreKept.mk fun _ hx => ?_ | exact Core.Sound.of hx rfl rfl rfl

theorem State.initGrid_kept {z s : State} {j : ArrJob} (hz : Kept z s) :
    Kept z (State.initGrid s j).1 := by
  unfold State.initGrid
  with_reducible repeat' first | assumption | apply State.accSegment_kept | apply Kept.foldlFst | intro _ _ _ | split

theorem issueMma_kept {z s : State} {w : Who} {len : Nat} {o : MmaOp} (hz : Kept z s) :
    KeptO z (issueMma w len o s) := by
  unfold issueMma
  dsimp only
  with_reducible repeat' first
    | assumption | exact KeptO.none _ | apply KeptO.some | apply State.modCore_kept | apply State.raise_kept | apply State.advance_kept
    | apply State.blockThrough_kept | apply State.mmaChains_kept | apply State.freePadding_kept | apply State.dropDone_kept
    | apply State.initGrid_kept | refine CoreKept.mk fun _ hx => ?_ | exact Core.Sound.of hx rfl rfl rfl | split

theorem State.loadBack_kept {z s : State} {c : Nat} {j : ArrJob} {n : Nat} (hz : Kept z s) :
    Kept z (State.loadBack s c j n) := by
  unfold State.loadBack
  dsimp only
  with_reducible repeat' first
    | assumption | apply State.modCore_kept | apply State.raise_kept | apply State.statLoad_kept | apply State.modJob_kept
    | refine CoreKept.mk fun _ hx => ?_ | exact Core.Sound.of hx rfl rfl rfl | split

theorem State.preload_kept {z s : State} {c : Nat} {j : ArrJob} (hz : Kept z s) :
    Kept z (State.preload s c j) := by
  unfold State.preload
  with_reducible repeat' first | assumption | apply State.loadBack_kept | split

theorem State.beginPass_kept {z s : State} {c : Nat} {j k : ArrJob} {f b : Option StatReg} (hz : Kept z s) : Kept z (State.beginPass s c j k f b) := by
  unfold State.beginPass
  with_reducible repeat' first
    | assumption | apply State.modCore_kept | refine CoreKept.mk fun _ hx => ?_ | exact Core.Sound.of hx rfl rfl rfl

theorem State.passBegun_kept {z s : State} {c : Nat} {j : ArrJob} (hz : Kept z s) : Kept z (State.passBegun s c j).1 := by
  unfold State.passBegun
  dsimp only
  with_reducible repeat' first | assumption | apply State.beginPass_kept | apply State.statLoad_kept | split

theorem passStartStep_kept {z s : State} {c : Nat} (hz : Kept z s) :
    KeptO z (passStartStep c s) := by
  unfold passStartStep
  dsimp only
  with_reducible repeat' first
    | assumption | apply State.passBegun_kept | exact KeptO.none _ | apply KeptO.some | apply State.modCore_kept | apply State.modJob_kept | apply State.statLoad_kept
    | apply State.raise_kept | apply State.preload_kept | refine CoreKept.mk fun _ hx => ?_ | exact Core.Sound.of hx rfl rfl rfl | split

theorem State.restoreGrid_kept {z s : State} {c : Nat} {j : ArrJob} (hz : Kept z s) :
    Kept z (State.restoreGrid s c j).1 := by
  unfold State.restoreGrid
  dsimp only
  with_reducible repeat' first | assumption | apply State.loamRead_kept | apply State.kaoWrite_kept | apply Kept.foldlFst | intro _ _ _ | split

theorem State.suspect_kept {z s : State} {c : Nat} {cols : List Nat} (hz : Kept z s) :
    Kept z (State.suspect s c cols) := by
  unfold State.suspect
  with_reducible repeat' first
    | assumption | apply State.modCore_kept | apply State.bin_kept | refine CoreKept.mk fun _ hx => ?_ | exact Core.Sound.of hx rfl rfl rfl
    | apply Kept.foldl | intro _ _ _

theorem State.countRetry_kept {z s : State} {w : Who} {n : Nat} (hz : Kept z s) :
    Kept z (State.countRetry s w n) := by
  unfold State.countRetry
  with_reducible repeat' first | assumption | apply State.modCtr_kept | apply State.modRec_kept | split

theorem State.mismatch_kept {z s : State} {c : Nat} {j : ArrJob} {cols : List Nat} (hz : Kept z s) :
    Kept z (State.mismatch s c j cols) := by
  unfold State.mismatch
  dsimp only
  with_reducible repeat' first
    | assumption | apply State.modCore_kept | apply State.raise_kept | apply State.modJob_kept | apply State.restoreGrid_kept
    | apply State.suspect_kept | apply State.countRetry_kept | refine CoreKept.mk fun _ hx => ?_ | exact Core.Sound.of hx rfl rfl rfl
    | apply Kept.foldl | intro _ _ _ | split

theorem State.holdSums_kept {z s : State} {c : Nat} {l : List (Nat × Nat × Nat)} (hz : Kept z s) :
    Kept z (State.holdSums s c l) := by
  unfold State.holdSums
  with_reducible repeat' first | assumption | apply State.modCore_kept | refine CoreKept.mk fun _ hx => ?_ | exact Core.Sound.of hx rfl rfl rfl

theorem State.passDone_kept {z s : State} {c : Nat} {j : ArrJob} (hz : Kept z s) :
    Kept z (State.passDone s c j) := by
  unfold State.passDone
  with_reducible repeat' first
    | assumption | apply State.freePadding_kept | apply State.modJob_kept | apply State.dropDone_kept | apply State.countRetry_kept | split

theorem passEndStep_kept {z s : State} {c : Nat} {err : List Nat} (hz : Kept z s) :
    KeptO z (passEndStep c err s) := by
  unfold passEndStep
  dsimp only
  with_reducible repeat' first
    | assumption | exact KeptO.none _ | apply KeptO.some | apply State.raise_kept | apply State.addPass_kept | apply State.passRows_kept
    | apply State.mismatch_kept | apply State.holdSums_kept | apply State.passDone_kept | split

theorem retryStep_kept {z s : State} {c : Nat} (hz : Kept z s) :
    KeptO z (retryStep c s) := by
  unfold retryStep
  with_reducible repeat' first | assumption | exact KeptO.none _ | apply KeptO.some | apply State.modJob_kept | split

theorem rampStep_kept {z s : State} {c : Nat} (hz : Kept z s) :
    KeptO z (rampStep c s) := by
  unfold rampStep
  with_reducible repeat' first
    | assumption | exact KeptO.none _ | apply KeptO.some | apply State.modCore_kept | refine CoreKept.mk fun _ hx => ?_
    | exact Core.Sound.of hx rfl rfl rfl | split

theorem epilogueStep_kept {z s : State} {w : Who} (hz : Kept z s) :
    KeptO z (epilogueStep w s) := by
  unfold epilogueStep
  dsimp only
  with_reducible repeat' first
    | assumption | apply State.conflicts_kept | exact KeptO.none _ | apply KeptO.some | apply State.epilogue_kept | apply State.modJob_kept | apply State.dropDone_kept | split

theorem State.ship_kept {z s : State} {q : Nat} (hz : Kept z s) :
    Kept z (State.ship s q) := by
  unfold State.ship
  with_reducible repeat' first | assumption | apply State.emit_kept | apply State.unblock_kept | apply State.arriveSc_kept | apply State.setBq_kept

theorem batchPush_kept {z s : State} {w : Who} {len : Nat} {q : Nat} {row : Nat} {ret : Nat} (hz : Kept z s) :
    KeptO z (batchPush w len q row ret s) := by
  unfold batchPush
  dsimp only
  with_reducible repeat' first
    | assumption | exact KeptO.none _ | apply KeptO.some | apply State.raise_kept | apply State.loamWrite_kept | apply State.advance_kept
    | apply State.blockThrough_kept | apply State.noteWrote_kept | apply State.setBq_kept | apply State.ship_kept | split

theorem batchRelease_kept {z s : State} {w : Who} {len : Nat} {q : Nat} (hz : Kept z s) :
    KeptO z (batchRelease w len q s) := by
  unfold batchRelease
  dsimp only
  with_reducible repeat' first
    | assumption | exact KeptO.none _ | apply KeptO.some | apply State.raise_kept | apply State.unblock_kept | apply State.advance_kept
    | apply State.setBq_kept | split

theorem deadlineShip_kept {z s : State} {q : Nat} (hz : Kept z s) :
    KeptO z (deadlineShip q s) := by
  unfold deadlineShip
  dsimp only
  with_reducible repeat' first | assumption | exact KeptO.none _ | apply KeptO.some | apply State.setBq_kept | apply State.ship_kept | split

end Sys2Proof.Machine
end

