-- ==== Sys2Proof/Laws/KeptDma.lean ====
section
/-! SUPPORT. Laws/KeptDma.lean: what is kept (Laws/Kept.lean) by the operations of the DMA fabric, sync counters and atomics (Dma.lean, Sync.lean). -/

namespace Sys2Proof.Machine

theorem State.setChan_kept {z s : State} {ch : Nat} {c : Channel} (hz : Kept z s) :
    Kept z (State.setChan s ch c) := by
  unfold State.setChan
  with_reducible repeat' first | assumption | fail_if_no_progress refine Kept.upd ?_ rfl rfl

theorem State.noteHead_kept {z s : State} {ch : Nat} (hz : Kept z s) :
    Kept z (State.noteHead s ch) := by
  unfold State.noteHead
  with_reducible repeat' first | assumption | fail_if_no_progress refine Kept.upd ?_ rfl rfl | split

theorem State.acceptDesc_kept {z s : State} {w : Who} {ch : Nat} {d : Desc} (hz : Kept z s) :
    KeptO z (State.acceptDesc s w ch d) := by
  unfold State.acceptDesc
  dsimp only
  with_reducible repeat' first
    | assumption | exact KeptO.none _ | apply KeptO.some | apply State.emit_kept | apply State.setChan_kept | apply State.noteHead_kept
    | fail_if_no_progress refine Kept.upd ?_ rfl rfl | split

theorem State.pulse_kept {z s : State} {n : Nat} (hz : Kept z s) :
    Kept z (State.pulse s n) := by
  unfold State.pulse
  with_reducible repeat' first | assumption | apply State.modCtr_kept | apply State.emit_kept | fail_if_no_progress refine Kept.upd ?_ rfl rfl | split

theorem descStart_kept {z s : State} {ch : Nat} (hz : Kept z s) :
    KeptO z (descStart ch s) := by
  unfold descStart
  dsimp only
  with_reducible repeat' first
    | assumption | exact KeptO.none _ | apply KeptO.some | apply State.emit_kept | apply State.unblock_kept | apply State.setChan_kept
    | apply State.noteHead_kept | fail_if_no_progress refine Kept.upd ?_ rfl rfl | split

theorem State.modDesc_kept {z s : State} {ch : Nat} {no : Nat} {f : DescRun → DescRun} (hz : Kept z s) :
    Kept z (State.modDesc s ch no f) := by
  unfold State.modDesc
  with_reducible repeat' first | assumption | apply State.setChan_kept

theorem State.noteStop_kept {z s : State} {ch : Nat} {who : Who} {itemNo : Nat} {fault : Nat} {addr : Nat} (hz : Kept z s) :
    Kept z (State.noteStop s ch who itemNo fault addr) := by
  unfold State.noteStop
  with_reducible repeat' first
    | assumption | apply State.emit_kept | apply State.raiseFor_kept | apply State.setChan_kept | fail_if_no_progress refine Kept.upd ?_ rfl rfl

theorem State.stopDesc_kept {z s : State} {ch : Nat} {no : Nat} {fault : Nat} {where_ : Nat} (hz : Kept z s) :
    Kept z (State.stopDesc s ch no fault where_) := by
  unfold State.stopDesc
  with_reducible repeat' first
    | assumption | apply State.logFault_kept | apply State.logOnly_kept | apply State.modDesc_kept | apply State.noteStop_kept
    | fail_if_no_progress refine Kept.upd ?_ rfl rfl | split

theorem State.countFails_kept {z s : State} {ch : Nat} {no : Nat} {who : Who} {itemNo : Nat} {fault : Nat} {addr : Nat} (hz : Kept z s) :
    Kept z (State.countFails s ch no who itemNo fault addr) := by
  unfold State.countFails
  with_reducible repeat' first | assumption | apply State.noteStop_kept | apply State.stopDesc_kept | split

theorem State.dmaPoison_kept {z s : State} {ch : Nat} {no : Nat} {fault : Nat} {addr : Nat} (hz : Kept z s) :
    Kept z (State.dmaPoison s ch no fault addr) := by
  unfold State.dmaPoison
  with_reducible repeat' first | assumption | apply State.logFault_kept | apply State.modDesc_kept | split

theorem State.readBeat_kept {z s : State} {ch : Nat} {r : DescRun} {a : Nat} {n : Nat} (hz : Kept z s) :
    Kept z (State.readBeat s ch r a n) := by
  unfold State.readBeat
  dsimp only
  with_reducible repeat' first
    | assumption | apply State.send_kept | apply State.loamRead_kept | apply State.newTxn_kept | apply State.modDesc_kept
    | apply State.dmaPoison_kept | split

theorem State.countTo_kept {z s : State} {ch : Nat} {r : DescRun} {addr : Nat} {clu : Nat} {sc : Nat} {k : AddKind} (hz : Kept z s) :
    Kept z (State.countTo s ch r addr clu sc k) := by
  unfold State.countTo
  with_reducible repeat' first | assumption | apply State.addSc_kept | apply State.oweAdd_kept | apply State.countFails_kept | split

theorem State.performed_kept {z s : State} {ch : Nat} {no : Nat} {n : Nat} {addr : Nat} (hz : Kept z s) :
    Kept z (State.performed s ch no n addr) := by
  unfold State.performed
  with_reducible repeat' first | assumption | apply State.modDesc_kept | apply State.countTo_kept | split

theorem State.noteDma_kept {z s : State} {r : DescRun} {l : Nat} {n : Nat} (hz : Kept z s) :
    Kept z (State.noteDma s r l n) := by
  unfold State.noteDma
  dsimp only
  with_reducible repeat' first | assumption | apply State.noteAside_kept | apply State.noteWrote_kept | split

theorem State.freeOverlap_kept {z s : State} {d : Desc} {a : Nat} {bs : List Byte} (hz : Kept z s) :
    Kept z (State.freeOverlap s d a bs).1 := by
  unfold State.freeOverlap
  with_reducible repeat' first | assumption | apply State.freeBytes_kept | split

theorem State.writeBeat_kept {z s : State} {ch : Nat} {r : DescRun} (hz : Kept z s) :
    Kept z (State.writeBeat s ch r) := by
  unfold State.writeBeat
  dsimp only
  with_reducible repeat' first
    | assumption | apply State.send_kept | apply State.loamWrite_kept | apply State.poisonSectors_kept | apply State.newTxn_kept
    | apply State.setChan_kept | apply State.modDesc_kept | apply State.dmaPoison_kept | apply State.performed_kept | apply State.freeOverlap_kept
    | split

theorem dmaBeatStep_kept {z s : State} (hz : Kept z s) :
    KeptO z (dmaBeatStep s) := by
  unfold dmaBeatStep
  with_reducible repeat' first
    | assumption | exact KeptO.none _ | apply KeptO.some | apply State.work_kept | apply State.readBeat_kept | apply State.writeBeat_kept
    | fail_if_no_progress refine Kept.upd ?_ rfl rfl | split

theorem sectorDone_kept {z s : State} {ch : Nat} (hz : Kept z s) :
    KeptO z (sectorDone ch s) := by
  unfold sectorDone
  dsimp only
  with_reducible repeat' first
    | assumption | exact KeptO.none _ | apply KeptO.some | apply State.loamWrite_kept | apply State.poisonSectors_kept | apply State.setChan_kept
    | apply State.dmaPoison_kept | apply State.performed_kept | apply State.noteDma_kept | split

theorem descDone_kept {z s : State} {ch : Nat} (hz : Kept z s) :
    KeptO z (descDone ch s) := by
  unfold descDone
  dsimp only
  with_reducible repeat' first
    | assumption | exact KeptO.none _ | apply KeptO.some | apply State.emit_kept | apply State.setChan_kept | apply State.pulse_kept
    | apply State.countTo_kept | split

theorem State.dmaData_kept {z s : State} {ch : Nat} {no : Nat} {id : Nat} {a : Nat} {off : Nat} {n : Nat} {laid : Tab Byte} {resp : MemResp} (hz : Kept z s) :
    Kept z (State.dmaData s ch no id a off n laid resp) := by
  unfold State.dmaData
  with_reducible repeat' first | assumption | apply State.modDesc_kept | apply State.dmaPoison_kept | split

theorem State.dmaAck_kept {z s : State} {ch : Nat} {no : Nat} {n : Nat} {a : Nat} {resp : MemResp} (hz : Kept z s) :
    Kept z (State.dmaAck s ch no n a resp) := by
  unfold State.dmaAck
  with_reducible repeat' first | assumption | apply State.dmaPoison_kept | apply State.performed_kept | split

theorem State.dmaWriteRefused_kept {z s : State} {ch : Nat} {no : Nat} {fault : Nat} {addr : Nat} (hz : Kept z s) :
    Kept z (State.dmaWriteRefused s ch no fault addr) := by
  unfold State.dmaWriteRefused
  with_reducible repeat' first | assumption | apply State.modDesc_kept | apply State.stopDesc_kept

theorem State.headerFails_kept {z s : State} {id : Nat} {addr : Nat} (hz : Kept z s) :
    Kept z (State.headerFails s id addr) := by
  unfold State.headerFails
  with_reducible repeat' first | assumption | apply State.modItem_kept | apply State.logOnly_kept | apply Kept.foldl | intro _ _ _

theorem State.freeLoam_kept {z s : State} {a : Nat} {n : Nat} (hz : Kept z s) :
    Kept z (State.freeLoam s a n) := by
  have q : Kept z (s.freeBytes n).1 := State.freeBytes_kept hz
  unfold State.freeLoam
  exact Kept.updLoam q (fun _ x => Mem.wf_write _ _ x.1) rfl rfl

theorem State.freeSc_kept {z s : State} {n : Nat} (hz : Kept z s) :
    Kept z (State.freeSc s n) := by
  unfold State.freeSc
  with_reducible repeat' first | assumption | apply State.freeWord_kept | apply State.setSc_kept

theorem State.havocDesc_kept {z s : State} {r : DescRun} (hz : Kept z s) :
    Kept z (State.havocDesc s r) := by
  unfold State.havocDesc
  with_reducible repeat' first | assumption | apply State.freeLoam_kept | apply State.freeSc_kept | apply Kept.foldl | intro _ _ _ | split

theorem State.disableChan_kept {z s : State} {ch : Nat} (hz : Kept z s) :
    Kept z (State.disableChan s ch) := by
  unfold State.disableChan
  with_reducible repeat' first
    | assumption | apply State.unblock_kept | apply State.setChan_kept | apply State.havocDesc_kept | fail_if_no_progress refine Kept.upd ?_ rfl rfl
    | apply Kept.foldl

theorem State.setChanEn_kept {z s : State} {ch : Nat} {en : Bool} (hz : Kept z s) :
    Kept z (State.setChanEn s ch en) := by
  unfold State.setChanEn
  with_reducible repeat' first | assumption | apply State.setChan_kept | apply State.disableChan_kept | split

theorem arriveIssue_kept {z s : State} {w : Who} {sc : Nat} {scope : Nat} {v : Word32} (hz : Kept z s) :
    KeptO z (arriveIssue w sc scope v s) := by
  unfold arriveIssue
  try dsimp only
  with_reducible repeat' first | assumption | apply State.issues_kept | exact KeptO.none _ | apply KeptO.some | apply State.modItem_kept | apply State.raise_kept | split

theorem arriveEffect_kept {z s : State} {w : Who} (hz : Kept z s) :
    KeptO z (arriveEffect w s) := by
  unfold arriveEffect
  try dsimp only
  with_reducible repeat' first
    | assumption | exact KeptO.none _ | apply KeptO.some | apply State.modItem_kept | apply State.raise_kept | apply State.arriveSc_kept | split

theorem waitIssue_kept {z s : State} {w : Who} {sc : Nat} {scope : Nat} {target : Word32} (hz : Kept z s) :
    KeptO z (waitIssue w sc scope target s) := by
  unfold waitIssue
  try dsimp only
  with_reducible repeat' first
    | assumption | apply State.issues_kept | apply KeptO.some | apply State.modItem_kept | apply State.raise_kept | fail_if_no_progress refine Kept.upd ?_ rfl rfl | split

theorem waitDone_kept {z s : State} {w : Who} (hz : Kept z s) :
    KeptO z (waitDone w s) := by
  unfold waitDone
  try dsimp only
  with_reducible repeat' first
    | assumption | exact KeptO.none _ | apply KeptO.some | apply State.modItem_kept | apply State.emit_kept | apply State.raise_kept
    | apply State.dropCache_kept | fail_if_no_progress refine Kept.upd ?_ rfl rfl | split

theorem syncRead_kept {z s : State} {w : Who} {len : Nat} {sc : Nat} {scope : Nat} {a : Nat} (hz : Kept z s) :
    KeptO z (syncRead w len sc scope a s) := by
  unfold syncRead
  try dsimp only
  with_reducible repeat' first
    | assumption | apply KeptO.some | apply State.raise_kept | apply State.loamWrite_kept | apply State.advance_kept | apply State.noteWrote_kept
    | split

theorem State.synSetSc_kept {z s : State} {n : Nat} {v : Word32} (hz : Kept z s) :
    Kept z (State.synSetSc s n v) := by
  unfold State.synSetSc
  try dsimp only
  with_reducible repeat' first | assumption | apply State.setSc_kept | fail_if_no_progress refine Kept.upd ?_ rfl rfl

theorem syncSet_kept {z s : State} {w : Who} {len : Nat} {sc : Nat} {scope : Nat} {v : Word32} (hz : Kept z s) :
    KeptO z (syncSet w len sc scope v s) := by
  unfold syncSet
  try dsimp only
  with_reducible repeat' first | assumption | apply KeptO.some | apply State.raise_kept | apply State.advance_kept | apply State.synSetSc_kept | split

theorem State.atomDone_kept {z s : State} {w : Who} {ret : Option Nat} {old : Nat} (hz : Kept z s) :
    Kept z (State.atomDone s w ret old) := by
  unfold State.atomDone
  try dsimp only
  with_reducible repeat' first | assumption | apply State.modItem_kept | apply State.atomReturn_kept | apply State.noteWrote_kept | split

theorem atomIssue_kept {z s : State} {w : Who} {r : AtomReq} {bad : Bool} {scope : Nat} {ret : Nat} {addr : Nat} (hz : Kept z s) :
    KeptO z (atomIssue w r bad scope ret addr s) := by
  unfold atomIssue
  try dsimp only
  with_reducible repeat' first
    | assumption | apply State.issues_kept | exact KeptO.none _ | apply KeptO.some | apply State.modItem_kept | apply State.send_kept | apply State.raise_kept
    | apply State.newTxn_kept | apply State.loamAtomic_kept | apply State.pbufAtomicBy_kept | apply State.noteWrote_kept | apply State.atomDone_kept
    | split

theorem State.memDone_kept {z s : State} {w : Who} {len : Nat} (hz : Kept z s) :
    Kept z (State.memDone s w len) := by
  unfold State.memDone
  try dsimp only
  with_reducible repeat' first | assumption | apply State.modItem_kept

theorem State.answer_kept {z s : State} {t : Txn} {r : MemResp} (hz : Kept z s) :
    Kept z (State.answer s t r) := by
  unfold State.answer
  try dsimp only
  with_reducible repeat' first
    | assumption | apply State.modItem_kept | apply State.raise_kept | apply State.endDrain_kept | apply State.failDrain_kept
    | apply State.fillLine_kept | apply State.dropLine_kept | apply State.pbufAtomicBy_kept | apply State.pbufFill_kept | apply State.dmaData_kept
    | apply State.dmaAck_kept | apply State.atomDone_kept | apply State.memDone_kept | split

theorem memAnswer_kept {z s : State} {id : Nat} {r : MemResp} (hz : Kept z s) :
    KeptO z (memAnswer id r s) := by
  unfold memAnswer
  try dsimp only
  with_reducible repeat' first
    | assumption | exact KeptO.none _ | apply KeptO.some | apply State.dropTxn_kept | apply State.endDrain_kept | apply State.answer_kept | split

theorem State.txnFail_kept {z s : State} {t : Txn} {fault : Nat} (hz : Kept z s) :
    Kept z (State.txnFail s t fault) := by
  unfold State.txnFail
  try dsimp only
  with_reducible repeat' first
    | assumption | apply State.dropLine_kept | apply State.modCore_kept | refine CoreKept.mk fun _ hx => ?_ | exact Core.Sound.of hx rfl rfl rfl | apply State.logFault_kept | apply State.modRec_kept | apply State.raise_kept | apply State.failDrain_kept
    | apply State.stopDesc_kept | apply State.countFails_kept | apply State.dmaWriteRefused_kept | apply State.headerFails_kept | split

theorem remoteRefuse_kept {z s : State} {id : Nat} {fault : Nat} (hz : Kept z s) :
    KeptO z (remoteRefuse id fault s) := by
  unfold remoteRefuse
  try dsimp only
  with_reducible repeat' first
    | assumption | exact KeptO.none _ | apply KeptO.some | apply State.dropTxn_kept | apply State.endDrain_kept | apply State.txnFail_kept | split

end Sys2Proof.Machine
end

