-- ==== Sys2Proof/Laws/KeptItem.lean ====
section
/-! SUPPORT. Laws/KeptItem.lean: what is kept (Laws/Kept.lean) by the operations of items and journal submissions (Item.lean, Journal.lean). -/

namespace Sys2Proof.Machine

theorem State.requestPreempt_kept {z s : State} {c : Nat} (hz : Kept z s) :
    Kept z (State.requestPreempt s c) := by
  unfold State.requestPreempt
  dsimp only
  with_reducible repeat' first
    | assumption | apply State.modCore_kept | refine CoreKept.mk fun _ hx => ?_ | exact Core.Sound.of hx rfl rfl rfl | split

theorem State.enqueue_kept {z s : State} {c : Nat} {urgent : Bool} {e : QEntry} (hz : Kept z s) :
    Kept z (State.enqueue s c urgent e) := by
  unfold State.enqueue
  with_reducible repeat' first
    | assumption | apply State.modCore_kept | apply State.requestPreempt_kept | refine CoreKept.mk fun _ hx => ?_
    | exact Core.Sound.of hx rfl rfl rfl | split

theorem State.headerOf_kept {z s : State} {w : Who} {i : Item} (hz : Kept z s) :
    Kept z (State.headerOf s w i).1 := by
  unfold State.headerOf
  dsimp only
  with_reducible repeat' first | assumption | apply State.loamRead_kept | split

theorem State.notStarted_kept {z s : State} {w : Who} {code : Nat} {h : Hdr} (hz : Kept z s) :
    Kept z (State.notStarted s w code h) := by
  unfold State.notStarted
  with_reducible repeat' first
    | assumption | apply State.modCore_kept | refine CoreKept.mk fun _ hx => ?_ | exact Core.Sound.of hx rfl rfl rfl | apply State.setCtx_kept | apply State.logFault_kept | apply State.noteFault_kept | apply State.retireMsg_kept | split

theorem State.fireWatch_kept {z s : State} {w : Who} {h : Hdr} (hz : Kept z s) :
    Kept z (State.fireWatch s w h).1 := by
  unfold State.fireWatch
  with_reducible repeat' first | assumption | apply State.modCtr_kept | apply State.emit_kept | apply Kept.foldlFst | intro _ _ _ | split

theorem State.startItem_kept {z s : State} {w : Who} {h : Hdr} (hz : Kept z s) :
    Kept z (State.startItem s w h) := by
  unfold State.startItem
  with_reducible repeat' first
    | assumption | apply State.setCtx_kept | apply State.emit_kept | apply State.dropCache_kept | apply State.fireWatch_kept | split

theorem State.startOrWait_kept {z s : State} {w : Who} {h : Hdr} (hz : Kept z s) :
    Kept z (State.startOrWait s w h) := by
  unfold State.startOrWait
  with_reducible repeat' first | assumption | apply State.setCtx_kept | apply State.startItem_kept | split

theorem State.issueItem_kept {z s : State} {w : Who} (hz : Kept z s) :
    Kept z (State.issueItem s w) := by
  unfold State.issueItem
  dsimp only
  with_reducible repeat' first
    | assumption | apply State.headerOf_kept | apply State.notStarted_kept | apply State.startOrWait_kept
    | fail_if_no_progress refine Kept.upd ?_ rfl rfl | split

theorem itemStart_kept {z s : State} {w : Who} (hz : Kept z s) :
    KeptO z (itemStart w s) := by
  unfold itemStart
  dsimp only
  with_reducible repeat' first
    | assumption | exact KeptO.none _ | apply KeptO.some | apply State.setCore_kept | apply State.unblock_kept | apply State.startItem_kept
    | apply State.issueItem_kept | fail_if_no_progress refine Kept.upd ?_ rfl rfl | split
  have hn := Core.nextCmd_sound ‹(s.core w.core.val).nextCmd = _›
  exact fun _ k => Core.Sound.of (hn (State.Sound.core (s := s) k _)) rfl rfl rfl

theorem State.finishItem_kept {z s : State} {w : Who} (hz : Kept z s) :
    Kept z (State.finishItem s w) := by
  unfold State.finishItem
  with_reducible repeat' first
    | assumption | apply State.modCore_kept | apply State.setCtx_kept | apply State.emit_kept | apply State.retireMsg_kept
    | refine CoreKept.mk fun _ hx => ?_ | exact Core.Sound.take hx rfl rfl rfl | split

theorem State.doneArrive_kept {z s : State} {w : Who} (hz : Kept z s) :
    Kept z (State.doneArrive s w) := by
  unfold State.doneArrive
  dsimp only
  with_reducible repeat' first | assumption | apply State.arriveSc_kept | split

theorem itemFinish_kept {z s : State} {w : Who} (hz : Kept z s) :
    KeptO z (itemFinish w s) := by
  unfold itemFinish
  dsimp only
  with_reducible repeat' first
    | assumption | fail_if_no_progress refine Kept.upd ?_ rfl rfl | exact KeptO.none _ | apply KeptO.some | apply State.raise_kept | apply State.finishItem_kept | apply State.doneArrive_kept
    | split

theorem State.sweepWatch_kept {z s : State} {no : Nat} (hz : Kept z s) :
    Kept z (State.sweepWatch s no) := by
  unfold State.sweepWatch
  dsimp only
  with_reducible repeat' first | assumption | apply State.setChan_kept | split

theorem State.poisonRegion_kept {z s : State} {r : Nat × Nat} (hz : Kept z s) :
    Kept z (State.poisonRegion s r) := by
  unfold State.poisonRegion
  with_reducible repeat' first | assumption | apply State.poisonSectors_kept | split

theorem State.poisonFar_kept {z : State} {acc : State × List Nat} {w : Who} {no : Nat} {a : Nat} (hacc : Kept z acc.1) :
    Kept z (State.poisonFar acc w no a).1 := by
  unfold State.poisonFar
  with_reducible repeat' first | assumption | apply State.send_kept | apply State.newTxn_kept | split

theorem State.poisonAll_kept {z s : State} {w : Who} {no : Nat} {l : List Nat} (hz : Kept z s) :
    Kept z (State.poisonAll s w no l).1 := by
  unfold State.poisonAll
  with_reducible repeat' first | assumption | apply State.poisonFar_kept | apply Kept.foldlFst | intro _ _ _

theorem State.freeWrote_kept {z s : State} {h : Hdr} {r : Nat × Nat} (hz : Kept z s) :
    Kept z (State.freeWrote s h r) := by
  unfold State.freeWrote
  dsimp only
  refine Kept.updLoam (State.freeBytes_kept hz) (fun y _ => ?_) rfl rfl
  have hs := (hz.sound y).1
  generalize (List.range r.2).zip (s.freeBytes r.2).2 = l
  generalize s.loam.cells = m at hs ⊢
  induction l generalizing m with
  | nil => exact hs
  | cons p l ih =>
    refine ih _ ?_
    dsimp only
    split
    · exact hs
    · exact Mem.wf_set _ _ hs

theorem State.poisonOutputs_kept {z s : State} {w : Who} (hz : Kept z s) :
    Kept z (State.poisonOutputs s w).1 := by
  unfold State.poisonOutputs
  with_reducible repeat' first
    | assumption | apply State.poisonRegion_kept | apply State.poisonAll_kept | apply State.freeWrote_kept | apply Kept.foldl | intro _ _ _

theorem settleItem_kept {z s : State} {w : Who} (hz : Kept z s) :
    KeptO z (settleItem w s) := by
  unfold settleItem
  dsimp only
  with_reducible repeat' first
    | assumption | exact KeptO.none _ | apply KeptO.some | apply State.modItem_kept | apply State.finishItem_kept | apply State.doneArrive_kept
    | apply State.sweepWatch_kept | apply State.poisonAll_kept | apply State.poisonOutputs_kept | split

theorem settleDying_kept {z s : State} {w : Who} (hz : Kept z s) :
    KeptO z (settleDying w s) := by
  unfold settleDying
  dsimp only
  split
  · refine KeptO.map (settleItem_kept (State.setCtx_kept (State.modCore_kept hz (CoreKept.of (fun _ => rfl) (fun _ => rfl) (fun _ => rfl))))) fun t => ?_
    exact State.modCore_kept (Kept.refl t) (CoreKept.of (fun _ => rfl) (fun _ => rfl) (fun _ => rfl))
  · exact KeptO.none _

theorem abortStep_kept {z s : State} {w : Who} (hz : Kept z s) :
    KeptO z (abortStep w s) := by
  unfold abortStep
  with_reducible repeat' first | assumption | apply settleItem_kept | apply settleDying_kept | split

theorem State.killItem_kept {z s : State} {w : Who} (hz : Kept z s) :
    Kept z (State.killItem s w) := by
  unfold State.killItem
  with_reducible repeat' first | assumption | apply State.raiseSaved_kept | apply State.raise_kept | apply State.notStarted_kept | split

theorem State.flushQueues_kept {z s : State} {c : Nat} (hz : Kept z s) :
    Kept z (State.flushQueues s c) := by
  unfold State.flushQueues
  with_reducible repeat' first
    | assumption | apply State.modCore_kept | apply State.unblock_kept | refine CoreKept.mk fun _ hx => ?_ | exact Core.Sound.of hx rfl rfl rfl

theorem saveUnit_kept {z : State} {c : Nat} {r : State × Rd (List Byte)} {dst : Nat} {n : Nat} (hr : Kept z r.1) :
    Kept z (saveUnit c r dst n) := by
  unfold saveUnit
  with_reducible repeat' first | assumption | apply State.logFault_kept | apply State.loamWrite_kept | apply State.poisonSectors_kept | split

theorem State.saveBlock_kept {z s : State} {c : Nat} (hz : Kept z s) :
    Kept z (State.saveBlock s c) := by
  unfold State.saveBlock
  with_reducible repeat' first | assumption | apply State.freeBytes_kept | apply State.loamWrite_kept

theorem State.saveCore_kept {z s : State} {c : Nat} {h : Hdr} (hz : Kept z s) :
    Kept z (State.saveCore s c h) := by
  unfold State.saveCore
  with_reducible repeat' first
    | assumption | apply State.kaoRead_kept | apply State.vbRead_kept | apply saveUnit_kept | apply State.saveBlock_kept | apply Kept.foldl
    | intro _ _ _

theorem State.restoreRead_kept {z s : State} {c : Nat} {a : Nat} {n : Nat} (hz : Kept z s) :
    Kept z (State.restoreRead s c a n).1 := by
  unfold State.restoreRead
  with_reducible repeat' first | assumption | apply State.loamSector_kept | apply Kept.foldlFst | intro _ _ _

theorem State.restoreKao_kept {z : State} {acc : State × Bool} {c : Nat} {a : Nat} (hacc : Kept z acc.1) :
    Kept z (State.restoreKao acc c a).1 := by
  unfold State.restoreKao
  dsimp only
  with_reducible repeat' first
    | assumption | apply State.modCore_kept | apply State.kaoWrite_kept | apply State.restoreRead_kept | refine CoreKept.mk fun _ hx => ?_
    | exact Core.Sound.poisonKao hx rfl rfl rfl | split

theorem State.restoreVb_kept {z : State} {acc : State × Bool} {c : Nat} {v : Nat} {a : Nat} (hacc : Kept z acc.1) :
    Kept z (State.restoreVb acc c v a).1 := by
  unfold State.restoreVb
  dsimp only
  with_reducible repeat' first
    | assumption | apply State.modCore_kept | apply State.vbWrite_kept | apply State.restoreRead_kept | refine CoreKept.mk fun _ hx => ?_
    | exact Core.Sound.poisonVb hx rfl rfl rfl | split

theorem State.restoreBlock_kept {z : State} {acc : State × Bool} {c : Nat} (hacc : Kept z acc.1) :
    Kept z (State.restoreBlock acc c).1 := by
  unfold State.restoreBlock
  dsimp only
  with_reducible repeat' first
    | assumption | apply State.modCore_kept | apply State.undefVec_kept | apply State.restoreRead_kept | refine CoreKept.mk fun _ hx => ?_
    | exact Core.Sound.of hx rfl rfl rfl | split

theorem State.restoreCore_kept {z s : State} {c : Nat} {h : Hdr} (hz : Kept z s) :
    Kept z (State.restoreCore s c h).1 := by
  unfold State.restoreCore
  with_reducible repeat' first
    | assumption | apply State.restoreKao_kept | apply State.restoreVb_kept | apply State.restoreBlock_kept | apply Kept.foldlFst | intro _ _ _

theorem preemptPointStep_kept {z s : State} {c : Fin 4} (hz : Kept z s) :
    KeptO z (preemptPointStep c s) := by
  unfold preemptPointStep
  dsimp only
  with_reducible repeat' first
    | assumption | exact KeptO.none _ | apply KeptO.some | apply State.setCtx_kept | fail_if_no_progress refine Kept.upd ?_ rfl rfl | split

theorem preemptSaved_kept {z s : State} {c : Fin 4} (hz : Kept z s) :
    KeptO z (preemptSaved c s) := by
  unfold preemptSaved
  dsimp only
  with_reducible repeat' first
    | assumption | exact KeptO.none _ | apply KeptO.some | apply State.modCore_kept | apply State.saveCore_kept | refine CoreKept.mk fun _ hx => ?_
    | exact Core.Sound.of hx rfl rfl rfl | split

theorem preemptRestoreStart_kept {z s : State} {c : Fin 4} (hz : Kept z s) :
    KeptO z (preemptRestoreStart c s) := by
  unfold preemptRestoreStart
  dsimp only
  with_reducible repeat' first | assumption | exact KeptO.none _ | apply KeptO.some | apply State.setCtx_kept | split

theorem preemptRestored_kept {z s : State} {c : Fin 4} (hz : Kept z s) :
    KeptO z (preemptRestored c s) := by
  unfold preemptRestored
  dsimp only
  with_reducible repeat' first
    | assumption | exact KeptO.none _ | apply KeptO.some | apply State.modCore_kept | apply State.raise_kept | apply State.restoreCore_kept
    | refine CoreKept.mk fun _ hx => ?_ | exact Core.Sound.of hx rfl rfl rfl | split

theorem seqEndStep_kept {z s : State} {w : Who} (hz : Kept z s) :
    KeptO z (seqEndStep w s) := by
  unfold seqEndStep
  with_reducible repeat' first | assumption | apply KeptO.some | apply State.modItem_kept | apply State.work_kept

theorem fenceStep_kept {z s : State} {w : Who} {len : Nat} {arr : Bool} {vec : Bool} (hz : Kept z s) :
    KeptO z (fenceStep w len arr vec s) := by
  unfold fenceStep
  with_reducible repeat' first | assumption | exact KeptO.none _ | apply KeptO.some | apply State.advance_kept | split

theorem enqStep_kept {z s : State} {w : Who} {len : Nat} {core : Nat} {urgent : Bool} {a : Nat} (hz : Kept z s) :
    KeptO z (enqStep w len core urgent a s) := by
  unfold enqStep
  dsimp only
  with_reducible repeat' first
    | assumption | apply KeptO.some | apply State.raise_kept | apply State.advance_kept | apply State.block_kept | apply State.enqueue_kept | split

theorem State.enter_kept {z s : State} {t : RecType} {body : List Byte} (hz : Kept z s) :
    Kept z (State.enter s t body) := by
  unfold State.enter
  with_reducible repeat' first | assumption | fail_if_no_progress refine Kept.upd ?_ rfl rfl

theorem State.admitTelemetry_kept {z s : State} (hz : Kept z s) :
    Kept z (State.admitTelemetry s) := by
  unfold State.admitTelemetry
  with_reducible repeat' first | assumption | apply State.enter_kept | fail_if_no_progress refine Kept.upd ?_ rfl rfl

theorem State.admitEpoch_kept {z s : State} (hz : Kept z s) :
    Kept z (State.admitEpoch s) := by
  unfold State.admitEpoch
  with_reducible repeat' first | assumption | apply State.enter_kept

theorem State.submit_kept {z s : State} {t : RecType} {body : List Byte} (hz : Kept z s) :
    Kept z (State.submit s t body) := by
  unfold State.submit
  dsimp only
  with_reducible repeat' first
    | assumption | apply State.logOnly_kept | apply State.enter_kept | fail_if_no_progress refine Kept.upd ?_ rfl rfl | split

end Sys2Proof.Machine
end

