-- ==== Sys2Proof/Laws/KeptRegs.lean ====
section
/-! SUPPORT. Laws/KeptRegs.lean: what is kept (Laws/Kept.lean) by the operations of registers and sends (RegRead.lean, RegWrite.lean, Send.lean). -/

namespace Sys2Proof.Machine

theorem State.peekRead_kept {z s : State} (hz : Kept z s) :
    Kept z (State.peekRead s).1 := by
  unfold State.peekRead
  dsimp only
  with_reducible repeat' first | assumption | apply State.loamRead_kept | split

theorem State.statPeek_kept {z s : State} {k : Nat} (hz : Kept z s) :
    Kept z (State.statPeek s k).1 := by
  unfold State.statPeek
  with_reducible repeat' first | assumption | apply State.freeWord_kept | split

theorem State.viewBytes_kept {z s : State} {a : Acc} {o : Nat} {n : Nat} (hz : Kept z s) :
    Kept z (State.viewBytes s a o n).1 := by
  unfold State.viewBytes
  with_reducible repeat' first | assumption | apply State.viewRead_kept | split

theorem State.regBytes_kept {z s : State} {a : Acc} {x : RegAt} {n : Nat} (hz : Kept z s) :
    Kept z (State.regBytes s a x n).1 := by
  unfold State.regBytes
  with_reducible repeat' first | assumption | apply State.peekRead_kept | apply State.statPeek_kept | apply State.viewBytes_kept | split

theorem State.setLatch_kept {z s : State} {a : Acc} {off : Nat} {l : Latch} (hz : Kept z s) :
    Kept z (State.setLatch s a off l) := by
  unfold State.setLatch
  with_reducible repeat' first | assumption | fail_if_no_progress refine Kept.upd ?_ rfl rfl

theorem State.readWord_kept {z s : State} {a : Acc} {x : RegAt} {off : Nat} (hz : Kept z s) :
    Kept z (State.readWord s a x off).1 := by
  unfold State.readWord
  dsimp only
  with_reducible repeat' first | assumption | apply State.regBytes_kept | apply State.setLatch_kept | split

theorem State.readHalf_kept {z s : State} {a : Acc} {x : Option RegAt} (hz : Kept z s) :
    Kept z (State.readHalf s a x).1 := by
  unfold State.readHalf
  with_reducible repeat' first | assumption | apply State.regBytes_kept | split

theorem State.read64_kept {z s : State} {a : Acc} {off : Nat} (hz : Kept z s) :
    Kept z (State.read64 s a off).1 := by
  unfold State.read64
  dsimp only
  with_reducible repeat' first | assumption | apply State.regBytes_kept | apply State.readHalf_kept | split

theorem State.regRead_kept {z s : State} {a : Acc} {off : Nat} {w : Width} (hz : Kept z s) :
    Kept z (State.regRead s a off w).1 := by
  unfold State.regRead
  dsimp only
  with_reducible repeat' first | assumption | apply State.readWord_kept | apply State.read64_kept | split

theorem State.coreCtrl_kept {z s : State} {c : Fin 5} {v : Nat} (hz : Kept z s) :
    Kept z (State.coreCtrl s c v) := by
  unfold State.coreCtrl
  with_reducible repeat' first | assumption | apply State.requestPreempt_kept | apply State.killItem_kept | apply State.flushQueues_kept | split

theorem State.enqWrite_kept {z s : State} {c : Nat} {v : Nat} (hz : Kept z s) :
    Kept z (State.enqWrite s c v).1 := by
  unfold State.enqWrite
  dsimp only
  with_reducible repeat' first | assumption | apply State.enqueue_kept | split

theorem State.ringCtrl_kept {z s : State} {v : Nat} (hz : Kept z s) :
    Kept z (State.ringCtrl s v) := by
  unfold State.ringCtrl
  with_reducible repeat' first | assumption | apply State.advanceRing_kept | apply State.advanceAll_kept | split

theorem State.creditWrite_kept {z s : State} {v : Nat} (hz : Kept z s) :
    Kept z (State.creditWrite s v) := by
  unfold State.creditWrite
  with_reducible repeat' first | assumption | apply State.setCredit_kept | fail_if_no_progress refine Kept.upd ?_ rfl rfl | split

theorem State.synArriveDo_kept {z s : State} {v : Nat} (hz : Kept z s) :
    Kept z (State.synArriveDo s v).1 := by
  unfold State.synArriveDo
  dsimp only
  with_reducible repeat' first | assumption | apply State.arriveSc_kept | split

theorem State.pingGo_kept {z s : State} (hz : Kept z s) :
    Kept z (State.pingGo s) := by
  unfold State.pingGo
  with_reducible repeat' first | assumption | apply State.send_kept | apply State.setCredit_kept | fail_if_no_progress refine Kept.upd ?_ rfl rfl

theorem State.probeCredit_kept {z s : State} {d : Nat} (hz : Kept z s) :
    Kept z (State.probeCredit s d) := by
  unfold State.probeCredit
  with_reducible repeat' first | assumption | apply State.setCredit_kept | split

theorem State.probeReply_kept {z s : State} {t2 : Word64} {t3 : Word64} {fault : BitVec 16} {t4 : Word64} (hz : Kept z s) :
    Kept z (State.probeReply s t2 t3 fault t4) := by
  unfold State.probeReply
  with_reducible repeat' first | assumption | apply State.probeCredit_kept | fail_if_no_progress refine Kept.upd ?_ rfl rfl | split

theorem State.snapCtrl_kept {z s : State} {v : Nat} (hz : Kept z s) :
    Kept z (State.snapCtrl s v) := by
  unfold State.snapCtrl
  dsimp only
  with_reducible repeat' first | assumption | apply State.askSnap_kept | fail_if_no_progress refine Kept.upd ?_ rfl rfl | split

theorem State.fastDoA_kept {z s : State} {first : Nat} {k : Nat} {v : Nat} (hz : Kept z s) :
    Kept z (State.fastDoA s first k v).1 := by
  unfold State.fastDoA
  with_reducible repeat' first
    | assumption | apply State.setPace_kept | apply State.setBq_kept | apply State.coreCtrl_kept | apply State.enqWrite_kept
    | apply State.ringCtrl_kept | apply State.creditWrite_kept | fail_if_no_progress refine Kept.upd ?_ rfl rfl | split

theorem State.fastDoB_kept {z s : State} {first : Nat} {k : Nat} {v : Nat} (hz : Kept z s) :
    Kept z (State.fastDoB s first k v).1 := by
  unfold State.fastDoB
  with_reducible repeat' first
    | assumption | apply State.emit_kept | apply State.setChanEn_kept | apply State.synSetSc_kept | apply State.synArriveDo_kept
    | apply State.pingGo_kept | apply State.snapCtrl_kept | fail_if_no_progress refine Kept.upd ?_ rfl rfl | split

theorem State.fastDo_kept {z s : State} {first : Nat} {k : Nat} {v : Nat} (hz : Kept z s) :
    Kept z (State.fastDo s first k v).1 := by
  unfold State.fastDo
  with_reducible repeat' first | assumption | apply State.fastDoA_kept | apply State.fastDoB_kept | split

theorem fastBlocks_kept : BlocksKept fastBlocks := ⟨State.fastDo_kept⟩

theorem halfAct_kept {z s : State} {b : Blocks} {x : Option RegAt} {v : Nat} (hz : Kept z s) (hb : BlocksKept b) :
    Kept z (halfAct b s x v).1 := by
  unfold halfAct
  with_reducible repeat' first | assumption | apply BlocksKept.get hb | split

theorem write32_kept {z s : State} {b : Blocks} {a : Acc} {off : Nat} {v : Nat} (hz : Kept z s) (hb : BlocksKept b) :
    Kept z (write32 b s a off v).1 := by
  unfold write32
  dsimp only
  with_reducible repeat' first | assumption | apply State.setLatch_kept | apply BlocksKept.get hb | split

theorem write64.pair_kept {z s : State} {b : Blocks} {a : Acc} {v : Nat} {lo hi : Option RegAt} (hb : BlocksKept b) (hz : Kept z s) :
    Kept z (write64.pair b s a v lo hi).1 := by
  unfold write64.pair
  try dsimp only
  with_reducible repeat' first
    | assumption
    | apply halfAct_kept
    | apply Kept.fstIte

theorem write64_kept {z s : State} {b : Blocks} {a : Acc} {off : Nat} {v : Nat} (hz : Kept z s) (hb : BlocksKept b) :
    Kept z (write64 b s a off v).1 := by
  unfold write64
  dsimp only
  with_reducible repeat' first | assumption | apply BlocksKept.get hb | apply write64.pair_kept hb | split

theorem regWriteWith_kept {z s : State} {b : Blocks} {a : Acc} {off : Nat} {w : Width} {v : Nat} (hz : Kept z s) (hb : BlocksKept b) :
    Kept z (regWriteWith b s a off w v).1 := by
  unfold regWriteWith
  with_reducible repeat' first | assumption | apply write32_kept | apply write64_kept | split

theorem State.noteAccess_kept {z s : State} {p : Party} {off : Nat} {f : Nat} (hz : Kept z s) :
    Kept z (State.noteAccess s p off f) := by
  unfold State.noteAccess
  with_reducible repeat' first | assumption | apply State.logOnly_kept | split

theorem outsideWrite_kept {z s : State} {b : Blocks} {p : Party} {off : Nat} {w : Width} {v : Nat} (hz : Kept z s) (hb : BlocksKept b) :
    Kept z (outsideWrite b p off w v s) := by
  unfold outsideWrite
  with_reducible repeat' first | assumption | apply State.send_kept | apply regWriteWith_kept | apply State.noteAccess_kept

theorem outsideRead_kept {z s : State} {p : Party} {off : Nat} {w : Width} (hz : Kept z s) :
    Kept z (outsideRead p off w s) := by
  unfold outsideRead
  dsimp only
  with_reducible repeat' first | assumption | apply State.send_kept | apply State.regRead_kept | apply State.noteAccess_kept | split

theorem regRow_kept {z s : State} {b : Blocks} {p : Party} {off : Nat} {v : Nat} (hz : Kept z s) (hb : BlocksKept b) :
    Kept z (regRow b p off v s) := by
  unfold regRow
  with_reducible repeat' first | assumption | apply State.send_kept | apply State.noteAccess_kept | apply BlocksKept.get hb | split

theorem accept_kept {z s : State} {x : Traffic} (hz : Kept z s) :
    Kept z (accept x s) := by
  unfold accept
  with_reducible repeat' first
    | assumption | apply State.send_kept | apply acceptAccess_kept | apply acceptAdd_kept | apply acceptCredit_kept | apply acceptMessage_kept
    | apply State.probeReply_kept | apply outsideWrite_kept | apply outsideRead_kept | apply regRow_kept | exact fastBlocks_kept | split

theorem State.arrive_kept {z s : State} {x : Traffic} (hz : Kept z s) :
    Kept z (State.arrive s x) := by
  unfold State.arrive
  with_reducible repeat' first | assumption | apply State.activate_kept | apply accept_kept | fail_if_no_progress refine Kept.upd ?_ rfl rfl | split

theorem State.releaseHeld_kept {z s : State} (hz : Kept z s) :
    Kept z (State.releaseHeld s) := by
  unfold State.releaseHeld
  dsimp only
  with_reducible repeat' first
    | assumption | apply State.activate_kept | apply accept_kept | fail_if_no_progress refine Kept.upd ?_ rfl rfl | apply Kept.foldl | split

theorem sendIssue_kept {z s : State} {x : Send} (hz : Kept z s) :
    KeptO z (sendIssue x s) := by
  unfold sendIssue
  dsimp only
  with_reducible repeat' first
    | assumption | apply State.issues_kept | exact KeptO.none _ | apply KeptO.some | apply State.modItem_kept | apply State.raise_kept
    | fail_if_no_progress refine Kept.upd ?_ rfl rfl | split

theorem msgSendStep_kept {z s : State} {w : Who} {combine : Bool} {dest : Nat} {tag : Nat} {len : Nat} {a : Nat} {round : Nat} {offset : Nat} {cidx : Nat} (hz : Kept z s) :
    KeptO z (msgSendStep w combine dest tag len a round offset cidx s) := by
  unfold msgSendStep
  with_reducible repeat' first | assumption | apply sendIssue_kept

theorem msgMsendStep_kept {z s : State} {w : Who} {dest : Nat} {tag : Nat} {len : Nat} {a : Nat} {cmask : Nat} (hz : Kept z s) :
    KeptO z (msgMsendStep w dest tag len a cmask s) := by
  unfold msgMsendStep
  with_reducible repeat' first | assumption | apply sendIssue_kept

theorem msgRcloseStep_kept {z s : State} {w : Who} {len : Nat} {ring : Nat} (hz : Kept z s) :
    KeptO z (msgRcloseStep w len ring s) := by
  unfold msgRcloseStep
  dsimp only
  with_reducible repeat' first
    | assumption | apply KeptO.some | apply State.raise_kept | apply State.advanceRing_kept | apply State.advance_kept | split

theorem descIssue_kept {z s : State} {w : Who} {len : Nat} {ch : Nat} {d : Desc} (hz : Kept z s) :
    KeptO z (descIssue w len ch d s) := by
  unfold descIssue
  dsimp only
  with_reducible repeat' first
    | assumption | exact KeptO.none _ | apply KeptO.some | apply State.raise_kept | apply State.advance_kept | apply State.blockThrough_kept | split
    | refine (State.acceptDesc_kept ?_).get _ (by assumption)

theorem descIssueM_kept {z s : State} {w : Who} {len : Nat} {ch : Nat} {a : Nat} (hz : Kept z s) :
    KeptO z (descIssueM w len ch a s) := by
  unfold descIssueM
  dsimp only
  with_reducible repeat' first
    | assumption | exact KeptO.none _ | apply KeptO.some | apply State.raise_kept | apply State.itemRead_kept | apply descIssue_kept | split

end Sys2Proof.Machine
end

