-- ==== Sys2Proof/Laws/KeptPower.lean ====
section
/-! SUPPORT. Laws/KeptPower.lean: what is kept (Laws/Kept.lean) by the operations of power, structure images and the always-on blocks (Power.lean, Structure.lean, Control.lean). -/

namespace Sys2Proof.Machine

theorem idleStep_kept {z s : State} (hz : Kept z s) :
    KeptO z (idleStep s) := by
  unfold idleStep
  with_reducible repeat' first
    | assumption | exact KeptO.none _ | apply KeptO.some | apply State.setPower_kept | fail_if_no_progress refine Kept.upd ?_ rfl rfl | split

theorem napStep_kept {z s : State} (hz : Kept z s) :
    KeptO z (napStep s) := by
  unfold napStep
  dsimp only
  with_reducible repeat' first
    | assumption | exact KeptO.none _ | apply KeptO.some | apply State.send_kept | apply State.setPower_kept
    | fail_if_no_progress refine Kept.upd ?_ rfl rfl | split

theorem State.startWake_kept {z s : State} (hz : Kept z s) :
    Kept z (State.startWake s) := by
  unfold State.startWake
  with_reducible repeat' first
    | assumption | apply State.send_kept | apply State.setPower_kept | fail_if_no_progress refine Kept.upd ?_ rfl rfl | split

theorem State.finishWake_kept {z s : State} (hz : Kept z s) :
    Kept z (State.finishWake s) := by
  unfold State.finishWake
  with_reducible repeat' first
    | assumption | apply State.bin_kept | apply State.setPower_kept | fail_if_no_progress refine Kept.upd ?_ rfl rfl | split

theorem State.endHold_kept {z s : State} (hz : Kept z s) :
    Kept z (State.endHold s) := by
  unfold State.endHold
  with_reducible repeat' first | assumption | apply State.releaseHeld_kept | apply State.finishWake_kept

theorem clockStable_kept {z s : State} {mhz : Nat} (hz : Kept z s) :
    KeptO z (clockStable mhz s) := by
  unfold clockStable
  with_reducible repeat' first
    | assumption | exact KeptO.none _ | apply KeptO.some | apply State.endHold_kept | fail_if_no_progress refine Kept.upd ?_ rfl rfl | split

theorem clockLate_kept {z s : State} (hz : Kept z s) :
    KeptO z (clockLate s) := by
  unfold clockLate
  with_reducible repeat' first
    | assumption | exact KeptO.none _ | apply KeptO.some | apply State.logOnly_kept | fail_if_no_progress refine Kept.upd ?_ rfl rfl | split

theorem State.coreClock_kept {z s : State} {f : State → Option State} {l : List ImgField} (hz : Kept z s) (hf : ∀ t, KeptO t (f t)) :
    Kept z (State.coreClock s f l) := by
  unfold State.coreClock
  with_reducible repeat' first | assumption | apply State.orStay_kept | apply State.fast_kept | split
  exact (hf _).of hz

theorem coreSleepStart_kept {z s : State} {c : Nat} (hz : Kept z s) :
    KeptO z (coreSleepStart c s) := by
  unfold coreSleepStart
  dsimp only
  with_reducible repeat' first
    | assumption | exact KeptO.none _ | apply KeptO.some | apply State.modCore_kept | refine CoreKept.mk fun _ hx => ?_
    | exact Core.Sound.of hx rfl rfl rfl | split

theorem coreSleepDone_kept {z s : State} {c : Nat} (hz : Kept z s) :
    KeptO z (coreSleepDone c s) := by
  unfold coreSleepDone
  with_reducible repeat' first
    | assumption | exact KeptO.none _ | apply KeptO.some | apply State.modCore_kept | apply State.setPower_kept | apply State.saveCore_kept
    | refine CoreKept.mk fun _ hx => ?_ | exact Core.Sound.of hx rfl rfl rfl | exact Core.Sound.empty hx rfl rfl rfl | split

theorem State.wakeCore_kept {z s : State} {c : Nat} (hz : Kept z s) :
    Kept z (State.wakeCore s c) := by
  unfold State.wakeCore
  with_reducible repeat' first
    | assumption | apply State.modCore_kept | refine CoreKept.mk fun _ hx => ?_ | exact Core.Sound.of hx rfl rfl rfl | split

theorem coreWakeStep_kept {z s : State} {c : Nat} (hz : Kept z s) :
    KeptO z (coreWakeStep c s) := by
  unfold coreWakeStep
  dsimp only
  with_reducible repeat' first
    | assumption | exact KeptO.none _ | apply KeptO.some | apply State.modCore_kept | apply State.logFault_kept | apply State.restoreCore_kept
    | refine CoreKept.mk fun _ hx => ?_ | exact Core.Sound.of hx rfl rfl rfl | exact Core.Sound.empty hx rfl rfl rfl | split

theorem State.wakeTargets_kept {z s : State} (hz : Kept z s) :
    Kept z (State.wakeTargets s) := by
  unfold State.wakeTargets
  with_reducible repeat' first | assumption | apply State.wakeCore_kept | apply Kept.foldl | intro _ _ _ | split

theorem wakeStep_kept {z s : State} {t : Trigger} (hz : Kept z s) :
    KeptO z (wakeStep t s) := by
  unfold wakeStep
  dsimp only
  with_reducible repeat' first
    | assumption | exact KeptO.none _ | apply KeptO.some | apply State.startWake_kept | apply State.wakeCore_kept | apply State.wakeTargets_kept
    | split

theorem throttleOn_kept {z s : State} {temp : BitVec 8} (hz : Kept z s) :
    KeptO z (throttleOn temp s) := by
  unfold throttleOn
  with_reducible repeat' first
    | assumption | exact KeptO.none _ | apply KeptO.some | apply State.bin_kept | apply State.emit_kept
    | fail_if_no_progress refine Kept.upd ?_ rfl rfl | split

theorem throttleOff_kept {z s : State} (hz : Kept z s) :
    KeptO z (throttleOff s) := by
  unfold throttleOff
  with_reducible repeat' first
    | assumption | exact KeptO.none _ | apply KeptO.some | apply State.emit_kept | apply State.endHold_kept
    | fail_if_no_progress refine Kept.upd ?_ rfl rfl | split

theorem State.clockEvent_kept {z s : State} {detail : Nat} (hz : Kept z s) :
    Kept z (State.clockEvent s detail) := by
  unfold State.clockEvent
  with_reducible repeat' first | assumption | apply State.bin_kept | apply State.logOnly_kept

theorem clockInterval_kept {z s : State} {n : Nat} (hz : Kept z s) :
    KeptO z (clockInterval n s) := by
  unfold clockInterval
  dsimp only
  with_reducible repeat' first
    | assumption | exact KeptO.none _ | apply KeptO.some | apply State.emit_kept | apply State.endHold_kept | apply State.clockEvent_kept
    | fail_if_no_progress refine Kept.upd ?_ rfl rfl | split

theorem droneFault_kept {z s : State} (hz : Kept z s) :
    Kept z (droneFault s) := by
  unfold droneFault
  with_reducible repeat' first | assumption | apply State.clockEvent_kept | fail_if_no_progress refine Kept.upd ?_ rfl rfl

theorem fclkStep_kept {z s : State} {mhz : Nat} (hz : Kept z s) :
    Kept z (fclkStep mhz s) := by
  unfold fclkStep
  with_reducible repeat' first | assumption | apply State.clockEvent_kept | fail_if_no_progress refine Kept.upd ?_ rfl rfl | split

theorem droopOn_kept {z s : State} {mv : Nat} (hz : Kept z s) :
    KeptO z (droopOn mv s) := by
  unfold droopOn
  with_reducible repeat' first
    | assumption | exact KeptO.none _ | apply KeptO.some | apply State.emit_kept | fail_if_no_progress refine Kept.upd ?_ rfl rfl | split

theorem droopOff_kept {z s : State} (hz : Kept z s) :
    KeptO z (droopOff s) := by
  unfold droopOff
  with_reducible repeat' first
    | assumption | exact KeptO.none _ | apply KeptO.some | apply State.bin_kept | apply State.emit_kept | apply State.logOnly_kept
    | apply State.endHold_kept | fail_if_no_progress refine Kept.upd ?_ rfl rfl | split

theorem overVolt_kept {z s : State} {mv : Nat} (hz : Kept z s) :
    KeptO z (overVolt mv s) := by
  unfold overVolt
  with_reducible repeat' first | assumption | exact KeptO.none _ | apply KeptO.some | apply State.logOnly_kept | split

theorem tempStep_kept {z s : State} {t : BitVec 8} (hz : Kept z s) :
    KeptO z (tempStep t s) := by
  unfold tempStep
  with_reducible repeat' first | assumption | exact KeptO.none _ | apply KeptO.some | fail_if_no_progress refine Kept.upd ?_ rfl rfl | split

theorem State.cancelCommit_kept {z s : State} {st : StageState} (hz : Kept z s) :
    Kept z (State.cancelCommit s st) := by
  unfold State.cancelCommit
  try dsimp only
  with_reducible repeat' first | assumption | fail_if_no_progress refine Kept.upd ?_ rfl rfl | split
  all_goals exact Kept.upd hz (by unfold Mrl.dropQueued; split <;> rfl) rfl

theorem State.checkRoom_kept {z s : State} (hz : Kept z s) :
    Kept z (State.checkRoom s) := by
  unfold State.checkRoom
  try dsimp only
  with_reducible repeat' first | assumption | apply State.logOnly_kept | apply State.cancelCommit_kept | split

theorem strRefused_kept {z s : State} (hz : Kept z s) :
    Kept z (strRefused s).1 := by
  unfold strRefused
  try dsimp only
  with_reducible repeat' assumption

theorem State.strOpen_kept {z s : State} (hz : Kept z s) :
    Kept z (State.strOpen s).1 := by
  unfold State.strOpen
  try dsimp only
  with_reducible repeat' first | assumption | apply strRefused_kept | fail_if_no_progress refine Kept.upd ?_ rfl rfl | split

theorem State.strValidate_kept {z s : State} (hz : Kept z s) :
    Kept z (State.strValidate s).1 := by
  unfold State.strValidate
  try dsimp only
  with_reducible repeat' first | assumption | apply strRefused_kept | fail_if_no_progress refine Kept.upd ?_ rfl rfl | split

theorem State.enterImage_kept {z s : State} (hz : Kept z s) :
    Kept z (State.enterImage s) := by
  unfold State.enterImage
  try dsimp only
  with_reducible repeat' first | assumption | apply State.enter_kept | fail_if_no_progress refine Kept.upd ?_ rfl rfl

theorem State.strCommit_kept {z s : State} (hz : Kept z s) :
    Kept z (State.strCommit s).1 := by
  unfold State.strCommit
  try dsimp only
  with_reducible repeat' first
    | assumption | apply strRefused_kept | apply State.enterImage_kept | fail_if_no_progress refine Kept.upd ?_ rfl rfl | split

theorem State.strAbort_kept {z s : State} (hz : Kept z s) :
    Kept z (State.strAbort s).1 := by
  unfold State.strAbort
  try dsimp only
  with_reducible repeat' first
    | assumption | apply State.cancelCommit_kept | apply strRefused_kept | fail_if_no_progress refine Kept.upd ?_ rfl rfl | split

theorem State.strConfirm_kept {z s : State} (hz : Kept z s) :
    Kept z (State.strConfirm s).1 := by
  unfold State.strConfirm
  try dsimp only
  with_reducible repeat' first
    | assumption | apply State.startWake_kept | apply strRefused_kept | fail_if_no_progress refine Kept.upd ?_ rfl rfl | split

theorem State.strCtrl_kept {z s : State} {cmd : Nat} (hz : Kept z s) :
    Kept z (State.strCtrl s cmd).1 := by
  unfold State.strCtrl
  try dsimp only
  with_reducible repeat' first
    | assumption | apply State.strOpen_kept | apply State.strValidate_kept | apply State.strCommit_kept | apply State.strAbort_kept
    | apply State.strConfirm_kept | split

theorem State.stageData_kept {z s : State} {v : Nat} (hz : Kept z s) :
    Kept z (State.stageData s v).1 := by
  unfold State.stageData
  try dsimp only
  with_reducible repeat' first | assumption | fail_if_no_progress refine Kept.upd ?_ rfl rfl | split

theorem validateStep_kept {z s : State} (hz : Kept z s) :
    KeptO z (validateStep s) := by
  unfold validateStep
  try dsimp only
  with_reducible repeat' first
    | assumption | exact KeptO.none _ | apply KeptO.some | apply State.emit_kept | apply State.logOnly_kept
    | fail_if_no_progress refine Kept.upd ?_ rfl rfl | split

theorem State.sampleCommit_kept {z s : State} (hz : Kept z s) :
    Kept z (State.sampleCommit s) := by
  unfold State.sampleCommit
  try dsimp only
  with_reducible repeat' first
    | assumption | apply State.logOnly_kept | apply State.startWake_kept | apply State.cancelCommit_kept
    | fail_if_no_progress refine Kept.upd ?_ rfl rfl | split

theorem epochStep_kept {z s : State} (hz : Kept z s) :
    KeptO z (epochStep s) := by
  unfold epochStep
  try dsimp only
  with_reducible repeat' first
    | assumption | exact KeptO.none _ | apply KeptO.some | apply State.emit_kept | apply State.sampleCommit_kept
    | fail_if_no_progress refine Kept.upd ?_ rfl rfl | split

theorem State.swapSlots_kept {z s : State} (hz : Kept z s) :
    Kept z (State.swapSlots s) := by
  unfold State.swapSlots
  try dsimp only
  with_reducible repeat' first | assumption | apply State.emit_kept | apply State.enter_kept | fail_if_no_progress refine Kept.upd ?_ rfl rfl

theorem State.deriveRing_kept {z s : State} {old : Image} {new : Image} {c : Nat} {r : Nat} (hz : Kept z s) :
    Kept z (State.deriveRing s old new c r) := by
  unfold State.deriveRing
  try dsimp only
  with_reducible repeat' first
    | assumption | apply State.setRing_kept | apply State.advanceRing_kept | fail_if_no_progress refine Kept.upd ?_ rfl rfl | split

theorem State.deriveRings_kept {z s : State} {old : Image} {new : Image} (hz : Kept z s) :
    Kept z (State.deriveRings s old new) := by
  unfold State.deriveRings
  try dsimp only
  with_reducible repeat' first | assumption | apply State.deriveRing_kept | apply Kept.foldl | intro _ _ _

theorem State.deriveCounters_kept {z s : State} {old : Image} {new : Image} (hz : Kept z s) :
    Kept z (State.deriveCounters s old new) := by
  unfold State.deriveCounters
  try dsimp only
  with_reducible repeat' first | assumption | fail_if_no_progress refine Kept.upd ?_ rfl rfl

theorem State.deriveCredits_kept {z s : State} {old : Image} {new : Image} (hz : Kept z s) :
    Kept z (State.deriveCredits s old new) := by
  unfold State.deriveCredits
  try dsimp only
  with_reducible repeat' first | assumption | apply State.setCredit_kept | apply Kept.foldl | intro _ _ _ | split

theorem State.deriveCores_kept {z s : State} {old : Image} {new : Image} (hz : Kept z s) :
    Kept z (State.deriveCores s old new) := by
  unfold State.deriveCores
  try dsimp only
  with_reducible repeat' first
    | assumption | apply State.modCore_kept | refine CoreKept.mk fun _ hx => ?_ | exact Core.Sound.of hx rfl rfl rfl
    | exact Core.Sound.empty hx rfl rfl rfl | apply Kept.foldl | intro _ _ _ | split

theorem State.deriveQueues_kept {z s : State} (hz : Kept z s) :
    Kept z (State.deriveQueues s) := by
  unfold State.deriveQueues
  try dsimp only
  with_reducible repeat' first | assumption | apply State.setBq_kept | apply Kept.foldl | intro _ _ _ | split

theorem State.deriveSlots_kept {z s : State} {old : Image} {new : Image} (hz : Kept z s) :
    Kept z (State.deriveSlots s old new) := by
  unfold State.deriveSlots
  try dsimp only
  with_reducible repeat' first | assumption | fail_if_no_progress refine Kept.upd ?_ rfl rfl

theorem State.freeTrace_kept {z s : State} {old : Image} (hz : Kept z s) :
    Kept z (State.freeTrace s old) := by
  unfold State.freeTrace
  split
  · exact hz
  · split
    · exact hz
    · have k := fun n => State.freeBytes_kept (n := n) hz
      exact Kept.updLoam (k _) (fun y _ => Mem.wf_write _ _ ((k _).sound y).1) rfl rfl

theorem State.deriveAll_kept {z s : State} (hz : Kept z s) :
    Kept z (State.deriveAll s) := by
  unfold State.deriveAll
  try dsimp only
  with_reducible repeat' first
    | assumption | apply State.freeTrace_kept | apply State.askSnap_kept | apply State.deriveRings_kept | apply State.deriveCounters_kept | apply State.deriveCredits_kept
    | apply State.deriveCores_kept | apply State.deriveQueues_kept | apply State.deriveSlots_kept | fail_if_no_progress refine Kept.upd ?_ rfl rfl
    | split

theorem State.swapTick_kept {z s : State} (hz : Kept z s) :
    Kept z (State.swapTick s) := by
  unfold State.swapTick
  try dsimp only
  with_reducible repeat' first
    | assumption | apply State.releaseHeld_kept | apply State.swapSlots_kept | apply State.deriveAll_kept
    | fail_if_no_progress refine Kept.upd ?_ rfl rfl | split

theorem State.commitDone_kept {z s : State} (hz : Kept z s) :
    Kept z (State.commitDone s) := by
  unfold State.commitDone
  try dsimp only
  with_reducible repeat' first | assumption | fail_if_no_progress refine Kept.upd ?_ rfl rfl

theorem State.deltaCredit_kept {z s : State} {old new : Image} {e : List Byte} (hz : Kept z s) :
    Kept z (State.deltaCredit s old new e) := by
  unfold State.deltaCredit
  try dsimp only
  with_reducible repeat' first | assumption | apply State.setCredit_kept | fail_if_no_progress refine Kept.upd ?_ rfl rfl | split

theorem State.applyDelta_kept {z s : State} {serial : Nat} {time : Nat} {b : List Byte} (hz : Kept z s) :
    Kept z (State.applyDelta s serial time b) := by
  unfold State.applyDelta
  try dsimp only
  with_reducible repeat' first
    | assumption | apply State.emit_kept | apply State.deltaCredit_kept | fail_if_no_progress refine Kept.upd ?_ rfl rfl | apply Kept.foldl
    | intro _ _ _ | split

theorem State.takeDelta_kept {z s : State} {b : List Byte} (hz : Kept z s) :
    Kept z (State.takeDelta s b) := by
  unfold State.takeDelta
  try dsimp only
  with_reducible repeat' first
    | assumption | apply State.logOnly_kept | apply State.enter_kept | apply State.checkRoom_kept | fail_if_no_progress refine Kept.upd ?_ rfl rfl
    | split

theorem State.deltaData_kept {z s : State} {v : Nat} (hz : Kept z s) :
    Kept z (State.deltaData s v) := by
  unfold State.deltaData
  try dsimp only
  with_reducible repeat' first | assumption | apply State.takeDelta_kept | fail_if_no_progress refine Kept.upd ?_ rfl rfl | split

theorem State.retryCommit_kept {z s : State} (hz : Kept z s) :
    Kept z (State.retryCommit s) := by
  unfold State.retryCommit
  try dsimp only
  with_reducible repeat' first
    | assumption | apply State.logOnly_kept | apply State.enterImage_kept | fail_if_no_progress refine Kept.upd ?_ rfl rfl | split

theorem State.recordDone_kept {z s : State} {r : JRec} (hz : Kept z s) :
    Kept z (State.recordDone s r) := by
  unfold State.recordDone
  try dsimp only
  with_reducible repeat' first
    | assumption | apply State.commitDone_kept | apply State.applyDelta_kept | fail_if_no_progress refine Kept.upd ?_ rfl rfl | split

theorem State.startCompaction_kept {z s : State} (hz : Kept z s) :
    Kept z (State.startCompaction s) := by
  unfold State.startCompaction
  try dsimp only
  with_reducible repeat' first | assumption | fail_if_no_progress refine Kept.upd ?_ rfl rfl | split

theorem recordStep_kept {z s : State} (hz : Kept z s) :
    KeptO z (recordStep s) := by
  unfold recordStep
  split
  · exact KeptO.none _
  · split
    · exact KeptO.none _
    · split
      · exact KeptO.none _
      · split
        · exact KeptO.some (State.logOnly_kept (State.cancelCommit_kept hz))
        · exact KeptO.some (State.startCompaction_kept (State.recordDone_kept
            (Kept.updMram hz (fun x => Mem.wf_write _ _ x.2.2.1) rfl)))

theorem compactStep_kept {z s : State} (hz : Kept z s) :
    KeptO z (compactStep s) := by
  unfold compactStep
  extract_lets m next serial body a gen base t
  clear_value base body a
  have wf : s.Sound → ((m.mram.write (a + 64) body).write a base).wf = true := fun x => Mem.wf_write _ _ (Mem.wf_write _ _ x.2.2.1)
  have key : Kept z t := Kept.updMram hz wf rfl
  split
  · exact KeptO.none _
  · exact KeptO.some (State.retryCommit_kept (State.bin_kept key))

theorem telemetryStep_kept {z s : State} (hz : Kept z s) :
    KeptO z (telemetryStep s) := by
  unfold telemetryStep
  try dsimp only
  with_reducible repeat' first
    | assumption | exact KeptO.none _ | apply KeptO.some | apply State.admitTelemetry_kept | apply State.admitEpoch_kept
    | apply State.checkRoom_kept | fail_if_no_progress refine Kept.upd ?_ rfl rfl | split

theorem decodedAgain_kept {z s : State} {ok : Bool} (hz : Kept z s) :
    KeptO z (decodedAgain ok s) := by
  unfold decodedAgain
  try dsimp only
  with_reducible repeat' first
    | assumption | exact KeptO.none _ | apply KeptO.some | apply State.logOnly_kept | apply State.releaseHeld_kept
    | fail_if_no_progress refine Kept.upd ?_ rfl rfl | split

theorem State.flushBegin_kept {z s : State} (hz : Kept z s) :
    Kept z (State.flushBegin s) := by
  unfold State.flushBegin
  try dsimp only
  with_reducible repeat' first
    | assumption | apply State.admitTelemetry_kept | apply State.cancelCommit_kept | fail_if_no_progress refine Kept.upd ?_ rfl rfl | split

theorem powerFail_kept {z s : State} (hz : Kept z s) :
    KeptO z (powerFail s) := by
  unfold powerFail
  try dsimp only
  with_reducible repeat' first
    | assumption | exact KeptO.none _ | apply KeptO.some | apply State.bin_kept | apply State.emit_kept | apply State.flushBegin_kept
    | fail_if_no_progress refine Kept.upd ?_ rfl rfl | split

theorem State.wakeConfirmed_kept {z s : State} (hz : Kept z s) :
    Kept z (State.wakeConfirmed s) := by
  unfold State.wakeConfirmed
  with_reducible repeat' first | assumption | apply State.startWake_kept | split

theorem State.pfRelease_kept {z s : State} (hz : Kept z s) :
    Kept z (State.pfRelease s) := by
  unfold State.pfRelease
  try dsimp only
  with_reducible repeat' first
    | assumption | apply State.wakeConfirmed_kept | apply State.setPower_kept | apply State.endHold_kept | fail_if_no_progress refine Kept.upd ?_ rfl rfl | split

theorem pfSafeStep_kept {z s : State} (hz : Kept z s) :
    KeptO z (pfSafeStep s) := by
  unfold pfSafeStep
  try dsimp only
  with_reducible repeat' first
    | assumption | exact KeptO.none _ | apply KeptO.some | apply State.send_kept | apply State.setPower_kept | apply State.pfRelease_kept
    | fail_if_no_progress refine Kept.upd ?_ rfl rfl | split

theorem pfClear_kept {z s : State} (hz : Kept z s) :
    KeptO z (pfClear s) := by
  unfold pfClear
  try dsimp only
  with_reducible repeat' first
    | assumption | exact KeptO.none _ | apply KeptO.some | apply State.bin_kept | apply State.pfRelease_kept
    | fail_if_no_progress refine Kept.upd ?_ rfl rfl | split

theorem State.offRequest_kept {z s : State} (hz : Kept z s) :
    Kept z (State.offRequest s) := by
  unfold State.offRequest
  try dsimp only
  with_reducible repeat' first
    | assumption | apply State.cancelCommit_kept | apply State.send_kept | apply State.bin_kept | apply State.flushBegin_kept | fail_if_no_progress refine Kept.upd ?_ rfl rfl
    | split

theorem powerLost_kept {z s : State} {torn : Nat} (hz : Kept z s) :
    Kept z (powerLost torn s) := by
  refine hz.trans ⟨rfl, rfl, fun x => ⟨rfl, by simp [powerLost], ?_, by simp [powerLost]⟩⟩
  unfold powerLost
  dsimp only
  split
  · exact x.2.2.1
  · split
    · exact Mem.wf_write _ _ x.2.2.1
    · split
      · exact Mem.wf_write _ _ x.2.2.1
      · exact x.2.2.1

theorem startup_kept {z s : State} (hz : Kept z s) :
    KeptO z (startup s) := by
  unfold startup
  split
  · exact KeptO.none _
  · extract_lets r p x fresh y t
    have key : Kept z fresh := Kept.updMram hz (fun x => replayOf_wf x.2.2.1) rfl
    have ht : Kept z t := by
      unfold t
      split
      · exact Kept.upd key rfl rfl
      · split
        · exact State.logOnly_kept (Kept.upd key rfl rfl)
        · exact Kept.upd key rfl rfl
    exact KeptO.some (State.admitEpoch_kept ht)

theorem releaseCores_kept {z s : State} (hz : Kept z s) :
    KeptO z (releaseCores s) := by
  unfold releaseCores
  split
  · exact KeptO.none _
  · exact KeptO.some (State.releaseHeld_kept (State.activate_kept (hz.trans
      ⟨rfl, rfl, fun x => ⟨rfl, by simp, x.2.2.1, x.2.2.2⟩⟩)))

theorem State.wakeCores_kept {z s : State} (hz : Kept z s) :
    Kept z (State.wakeCores s) := by
  unfold State.wakeCores
  try dsimp only
  with_reducible repeat' first | assumption | apply State.wakeCore_kept | apply Kept.foldl | intro _ _ _ | split

theorem State.pwrCtrl_kept {z s : State} {v : Nat} (hz : Kept z s) :
    Kept z (State.pwrCtrl s v) := by
  unfold State.pwrCtrl
  try dsimp only
  with_reducible repeat' first
    | assumption | apply State.startWake_kept | apply State.offRequest_kept | apply State.wakeCores_kept
    | fail_if_no_progress refine Kept.upd ?_ rfl rfl | split

theorem State.sealWord_kept {z s : State} {o : Nat} {v : Nat} (hz : Kept z s) :
    Kept z (State.sealWord s o v) := by
  unfold State.sealWord
  try dsimp only
  with_reducible repeat' first | assumption | fail_if_no_progress refine Kept.upd ?_ rfl rfl

theorem State.mrlRead_kept {z s : State} {v : Nat} (hz : Kept z s) :
    Kept z (State.mrlRead s v) := by
  unfold State.mrlRead
  try dsimp only
  with_reducible repeat' first | assumption | fail_if_no_progress refine Kept.upd ?_ rfl rfl

theorem State.aonDo_kept {z s : State} {first : Nat} {o : Nat} {v : Nat} (hz : Kept z s) :
    Kept z (State.aonDo s first o v).1 := by
  unfold State.aonDo
  try dsimp only
  with_reducible repeat' first
    | assumption | apply State.submit_kept | apply State.strCtrl_kept | apply State.stageData_kept | apply State.deltaData_kept
    | apply State.pwrCtrl_kept | apply State.sealWord_kept | apply State.mrlRead_kept | fail_if_no_progress refine Kept.upd ?_ rfl rfl | split

theorem allBlocks_kept : BlocksKept allBlocks := by
  refine ⟨fun h => ?_⟩
  unfold allBlocks
  dsimp only
  split
  · exact State.aonDo_kept h
  · exact State.fastDo_kept h

theorem State.acceptAon_kept {z s : State} (hz : Kept z s) :
    Kept z (State.acceptAon s) := by
  unfold State.acceptAon
  try dsimp only
  with_reducible repeat' first
    | assumption | apply outsideWrite_kept | apply outsideRead_kept | exact allBlocks_kept | fail_if_no_progress refine Kept.upd ?_ rfl rfl
    | apply Kept.foldl | intro _ _ _ | split

theorem State.writeFrom_kept {z s : State} {p : Party} {off : Nat} {w : Width} {v : Word64} (hz : Kept z s) :
    Kept z (State.writeFrom s p off w v) := by
  unfold State.writeFrom
  try dsimp only
  with_reducible repeat' first
    | assumption | apply outsideWrite_kept | apply State.arrive_kept | exact allBlocks_kept | fail_if_no_progress refine Kept.upd ?_ rfl rfl | split

theorem State.readFrom_kept {z s : State} {p : Party} {off : Nat} {w : Width} (hz : Kept z s) :
    Kept z (State.readFrom s p off w) := by
  unfold State.readFrom
  try dsimp only
  with_reducible repeat' first
    | assumption | apply outsideRead_kept | apply State.arrive_kept | fail_if_no_progress refine Kept.upd ?_ rfl rfl | split

theorem State.aonRow_kept {z s : State} {p : Party} {off : Nat} {v : Nat} (hz : Kept z s) :
    Kept z (State.aonRow s p off v) := by
  unfold State.aonRow
  try dsimp only
  with_reducible repeat' first | assumption | apply regRow_kept | exact allBlocks_kept | fail_if_no_progress refine Kept.upd ?_ rfl rfl | split

theorem State.fastRow_kept {z s : State} {p : Party} {off : Nat} {v : Nat} (hz : Kept z s) :
    Kept z (State.fastRow s p off v) := by
  unfold State.fastRow
  try dsimp only
  with_reducible repeat' first | assumption | apply State.arrive_kept

theorem State.fastRow64_kept {z s : State} {p : Party} {off : Nat} {v : Word64} (hz : Kept z s) :
    Kept z (State.fastRow64 s p off v) := by
  unfold State.fastRow64
  try dsimp only
  with_reducible repeat' first | assumption | apply State.arrive_kept

end Sys2Proof.Machine
end

