-- ==== Sys2Proof/Laws/KeptWatch.lean ====
section
/-! SUPPORT. Laws/KeptWatch.lean: what is kept (Laws/Kept.lean) by the operations of watchdogs, observation, scalar instructions and the tick (Watchdog.lean, Debug.lean, Scalar.lean, Tick.lean). -/

namespace Sys2Proof.Machine

theorem State.beginExpired_kept {z s : State} {w : Who} (hz : Kept z s) :
    Kept z (State.beginExpired s w) := by
  unfold State.beginExpired
  with_reducible repeat' first | assumption | apply State.logFault_kept | apply State.beginAbort_kept | apply State.notStarted_kept | split

theorem State.expire_kept {z s : State} {w : Who} {fault : Nat} {binNo : Nat} (hz : Kept z s) :
    Kept z (State.expire s w fault binNo) := by
  unfold State.expire
  dsimp only
  with_reducible repeat' first
    | assumption | apply State.modItem_kept | apply State.bin_kept | apply State.unbear_kept | apply State.askSnap_kept
    | apply State.beginExpired_kept | split

theorem State.expireLate_kept {z s : State} {w : Who} {fault : Nat} {binNo : Nat} (hz : Kept z s) :
    Kept z (State.expireLate s w fault binNo) := by
  unfold State.expireLate
  with_reducible repeat' first | assumption | apply State.modItem_kept | apply State.bin_kept | apply State.logFault_kept | apply State.askSnap_kept

theorem State.expireAny_kept {z s : State} {w : Who} {fault : Nat} {binNo : Nat} (hz : Kept z s) :
    KeptO z (State.expireAny s w fault binNo) := by
  unfold State.expireAny
  with_reducible repeat' first | assumption | exact KeptO.none _ | apply KeptO.some | apply State.expire_kept | apply State.expireLate_kept | split

theorem waitExpire_kept {z s : State} {w : Who} (hz : Kept z s) :
    KeptO z (waitExpire w s) := by
  unfold waitExpire
  dsimp only
  with_reducible repeat' first | assumption | exact KeptO.none _ | apply State.expireAny_kept | split

theorem sendExpire_kept {z s : State} {w : Who} (hz : Kept z s) :
    KeptO z (sendExpire w s) := by
  unfold sendExpire
  dsimp only
  with_reducible repeat' first | assumption | exact KeptO.none _ | apply State.expireAny_kept | split

theorem itemExpire_kept {z s : State} {w : Who} {limit : Nat} {fault : Nat} {binNo : Nat} (hz : Kept z s) :
    KeptO z (itemExpire w limit fault binNo s) := by
  unfold itemExpire
  with_reducible repeat' first | assumption | exact KeptO.none _ | apply State.expireAny_kept | split

theorem chanExpire_kept {z s : State} {ch : Nat} (hz : Kept z s) :
    KeptO z (chanExpire ch s) := by
  unfold chanExpire
  dsimp only
  with_reducible repeat' first
    | assumption | exact KeptO.none _ | apply KeptO.some | apply State.bin_kept | apply State.setChan_kept | apply State.noteHead_kept
    | apply State.stopDesc_kept | split

theorem State.abandonCount_kept {z s : State} {t : Txn} (hz : Kept z s) :
    Kept z (State.abandonCount s t) := by
  unfold State.abandonCount
  with_reducible repeat' first | assumption | apply State.freeSc_kept | split

theorem txnExpire_kept {z s : State} {id : Nat} (hz : Kept z s) :
    KeptO z (txnExpire id s) := by
  unfold txnExpire
  with_reducible repeat' first
    | assumption | exact KeptO.none _ | apply KeptO.some | apply State.bin_kept | apply State.txnFail_kept | apply State.abandonCount_kept
    | fail_if_no_progress refine Kept.upd ?_ rfl rfl | split

theorem dmaExpire_kept {z s : State} {t : DmaTarget} (hz : Kept z s) :
    KeptO z (dmaExpire t s) := by
  unfold dmaExpire
  with_reducible repeat' first | assumption | exact KeptO.none _ | apply chanExpire_kept | apply txnExpire_kept | split

theorem State.linkFailed_kept {z s : State} {x : FlitLoad} (hz : Kept z s) :
    Kept z (State.linkFailed s x) := by
  unfold State.linkFailed
  with_reducible repeat' first
    | assumption | apply State.logFault_kept | apply State.logOnly_kept | apply State.dropTxn_kept | apply State.endDrain_kept
    | apply State.queueStatus_kept | apply State.txnFail_kept | split

theorem flitFail_kept {z s : State} {replays : Nat} {x : FlitLoad} (hz : Kept z s) :
    Kept z (flitFail replays x s) := by
  unfold flitFail
  with_reducible repeat' first | assumption | apply State.bin_kept | apply State.modCtr_kept | apply State.linkFailed_kept | split

theorem scrubStep_kept {z s : State} {sector : Nat} (hz : Kept z s) :
    KeptO z (scrubStep sector s) := by
  unfold scrubStep
  with_reducible repeat' first | assumption | apply KeptO.some | apply State.logOnly_kept | apply State.loamSector_kept | split

theorem State.snapHead_kept {z s : State} {c : Nat} {r : Nat} (hz : Kept z s) :
    Kept z (State.snapHead s c r).1 := by
  unfold State.snapHead
  dsimp only
  with_reducible repeat' first | assumption | apply State.freeWord64_kept | apply State.logFault_kept | apply State.loamRead_kept | split

theorem State.snapRing_kept {z s : State} (hz : Kept z s) :
    Kept z (State.snapRing s).1 := by
  unfold State.snapRing
  with_reducible repeat' first | assumption | apply State.snapHead_kept | apply Kept.foldlFst | intro _ _ _ | split

theorem snapDone_kept {z s : State} (hz : Kept z s) :
    KeptO z (snapDone s) := by
  unfold snapDone
  with_reducible repeat' first
    | assumption | exact KeptO.none _ | apply KeptO.some | apply State.emit_kept | apply State.beginExpired_kept | apply State.snapRing_kept
    | fail_if_no_progress refine Kept.upd ?_ rfl rfl | apply Kept.foldl | intro _ _ _ | split

theorem snapForwarded_kept {z s : State} {origin : Nat} (hz : Kept z s) :
    Kept z (snapForwarded origin s) := by
  unfold snapForwarded
  with_reducible repeat' first | assumption | apply State.requestSnap_kept

theorem probeExpire_kept {z s : State} (hz : Kept z s) :
    KeptO z (probeExpire s) := by
  unfold probeExpire
  dsimp only
  with_reducible repeat' first | assumption | exact KeptO.none _ | apply KeptO.some | fail_if_no_progress refine Kept.upd ?_ rfl rfl | split

theorem State.setDump_kept {z s : State} {w : Who} {d : Option Dump} (hz : Kept z s) :
    Kept z (State.setDump s w d) := by
  unfold State.setDump
  with_reducible repeat' first | assumption | apply State.modItem_kept

theorem State.dumpFails_kept {z s : State} {w : Who} {d : Dump} {n : Nat} (hz : Kept z s) :
    Kept z (State.dumpFails s w d n) := by
  unfold State.dumpFails
  with_reducible repeat' first | assumption | apply State.setDump_kept

theorem State.copyEnds_kept {z s : State} {w : Who} {h : WatchHit} {d : Dump} {r : DescRun} (hz : Kept z s) :
    Kept z (State.copyEnds s w h d r) := by
  unfold State.copyEnds
  dsimp only
  with_reducible repeat' first
    | assumption | apply State.logOnly_kept | apply State.setChan_kept | apply State.setDump_kept | apply State.dumpFails_kept | split

theorem State.copyStarts_kept {z s : State} {w : Who} {h : WatchHit} {d : Dump} {reg : Nat × Nat} (hz : Kept z s) :
    Kept z (State.copyStarts s w h d reg) := by
  unfold State.copyStarts
  dsimp only
  with_reducible repeat' first
    | assumption | apply State.logOnly_kept | apply State.setChan_kept | apply State.dumpFails_kept | fail_if_no_progress refine Kept.upd ?_ rfl rfl
    | split

theorem State.dumpEnds_kept {z s : State} {w : Who} {h : WatchHit} {d : Dump} (hz : Kept z s) :
    Kept z (State.dumpEnds s w h d) := by
  unfold State.dumpEnds
  with_reducible repeat' first | assumption | apply State.modItem_kept | apply State.emit_kept

theorem State.writeDumpHeader_kept {z s : State} {w : Who} {h : WatchHit} {d : Dump} (hz : Kept z s) :
    KeptO z (State.writeDumpHeader s w h d) := by
  unfold State.writeDumpHeader
  with_reducible repeat' first
    | assumption | exact KeptO.none _ | apply KeptO.some | apply State.send_kept | apply State.logOnly_kept | apply State.loamWrite_kept
    | apply State.newTxn_kept | apply State.setDump_kept | apply State.dumpEnds_kept | split

theorem State.dumpGoes_kept {z s : State} {w : Who} {h : WatchHit} {d : Dump} (hz : Kept z s) :
    KeptO z (State.dumpGoes s w h d) := by
  unfold State.dumpGoes
  dsimp only
  with_reducible repeat' first
    | assumption | exact KeptO.none _ | apply KeptO.some | apply State.bin_kept | apply State.stopDesc_kept | apply State.copyEnds_kept
    | apply State.copyStarts_kept | apply State.dumpEnds_kept | apply State.writeDumpHeader_kept | split

theorem dumpStep_kept {z s : State} {w : Who} (hz : Kept z s) :
    KeptO z (dumpStep w s) := by
  unfold dumpStep
  dsimp only
  with_reducible repeat' first | assumption | exact KeptO.none _ | apply KeptO.some | apply State.setDump_kept | apply State.dumpGoes_kept | split

theorem traceOut_kept {z s : State} {n : Nat} (hz : Kept z s) :
    KeptO z (traceOut n s) := by
  unfold traceOut
  with_reducible repeat' first
    | assumption | exact KeptO.none _ | apply KeptO.some | apply State.send_kept | fail_if_no_progress refine Kept.upd ?_ rfl rfl | apply Kept.foldl
    | intro _ _ _ | split

theorem State.scl_kept {z s : State} {x : CtxKind} {o : Nat} {f : Who → SclArgs → State → Option State} (hz : Kept z s) (hf : ∀ a b t, KeptO t (f a b t)) :
    Kept z (State.scl s x o f) := by
  unfold State.scl
  with_reducible repeat' first | assumption | exact KeptO.none _ | apply State.issue_kept | intro _ _ _ | split
  exact hf _ _ _

theorem aluStep_kept {z s : State} {f : Word64 → Word64 → Word64} {w : Who} {a : SclArgs} (hz : Kept z s) :
    KeptO z (aluStep f w a s) := by
  unfold aluStep
  with_reducible repeat' first | assumption | apply KeptO.some | apply State.modItem_kept | apply State.advance_kept

theorem branchStep_kept {z s : State} {f : Word64 → Word64 → Bool} {w : Who} {a : SclArgs} (hz : Kept z s) :
    KeptO z (branchStep f w a s) := by
  unfold branchStep
  dsimp only
  with_reducible repeat' first | assumption | apply KeptO.some | apply State.modItem_kept | apply State.work_kept | apply State.raise_kept | split

theorem State.goOn_kept {z s : State} {w : Who} {no : Nat} (hz : Kept z s) :
    Kept z (State.goOn s w no) := by
  unfold State.goOn
  with_reducible repeat' first | assumption | apply State.advance_kept | split

theorem ownRegRead_kept {z s : State} {w : Who} {sd : Nat} {off : Nat} {k : Width} (hz : Kept z s) :
    KeptO z (ownRegRead w sd off k s) := by
  unfold ownRegRead
  dsimp only
  with_reducible repeat' first
    | assumption | apply KeptO.some | apply State.modItem_kept | apply State.raise_kept | apply State.advance_kept | apply State.regRead_kept
    | split

theorem ownRegWrite_kept {z s : State} {w : Who} {off : Nat} {k : Width} {v : Nat} (hz : Kept z s) :
    KeptO z (ownRegWrite w off k v s) := by
  unfold ownRegWrite
  dsimp only
  with_reducible repeat' first
    | assumption | apply KeptO.some | apply State.raise_kept | apply State.block_kept | apply regWriteWith_kept | apply State.goOn_kept
    | exact allBlocks_kept | split

theorem State.await_kept {z s : State} {w : Who} {id : Nat} (hz : Kept z s) :
    Kept z (State.await s w id) := by
  unfold State.await
  with_reducible repeat' first | assumption | apply State.issues_kept | apply State.modItem_kept

theorem outerLoad_kept {z s : State} {w : Who} {a : SclArgs} {pa : Nat} {n : Nat} (hz : Kept z s) :
    KeptO z (outerLoad w a pa n s) := by
  unfold outerLoad
  dsimp only
  with_reducible repeat' first
    | assumption | exact KeptO.none _ | apply KeptO.some | apply State.modItem_kept | apply State.send_kept | apply State.newTxn_kept
    | apply State.lookLine_kept | apply State.advance_kept | apply State.await_kept | split

theorem loadStep_kept {z s : State} {k : Width} {w : Who} {a : SclArgs} (hz : Kept z s) :
    KeptO z (loadStep k w a s) := by
  unfold loadStep
  dsimp only
  with_reducible repeat' first
    | assumption | exact KeptO.none _ | apply KeptO.some | apply State.modItem_kept | apply State.send_kept | apply State.raise_kept
    | apply State.loamRead_kept | apply State.newTxn_kept | apply State.advance_kept | apply ownRegRead_kept | apply State.await_kept
    | apply outerLoad_kept | split

theorem outerStore_kept {z s : State} {w : Who} {vol : Bool} {pa : Nat} {bs : List Byte} (hz : Kept z s) :
    KeptO z (outerStore w vol pa bs s) := by
  unfold outerStore
  with_reducible repeat' first
    | assumption | exact KeptO.none _ | apply KeptO.some | apply State.send_kept | apply State.newTxn_kept | apply State.updateLine_kept
    | apply State.await_kept | split
  exact KeptO.map (State.pbufWrite_kept hz) fun t => State.advance_kept (State.updateLine_kept (Kept.refl t))

theorem storeStep_kept {z s : State} {k : Width} {w : Who} {a : SclArgs} (hz : Kept z s) :
    KeptO z (storeStep k w a s) := by
  unfold storeStep
  dsimp only
  with_reducible repeat' first
    | assumption | exact KeptO.none _ | apply KeptO.some | apply State.send_kept | apply State.raise_kept | apply State.loamWrite_kept
    | apply State.newTxn_kept | apply State.advance_kept | apply State.block_kept | apply State.noteWrote_kept | apply ownRegWrite_kept
    | apply State.await_kept | apply outerStore_kept | split

theorem rdregStep_kept {z s : State} {w : Who} {a : SclArgs} (hz : Kept z s) :
    KeptO z (rdregStep w a s) := by
  unfold rdregStep
  dsimp only
  with_reducible repeat' first | assumption | apply KeptO.some | apply State.raise_kept | apply ownRegRead_kept | split

theorem wrregStep_kept {z s : State} {w : Who} {a : SclArgs} (hz : Kept z s) :
    KeptO z (wrregStep w a s) := by
  unfold wrregStep
  dsimp only
  with_reducible repeat' first | assumption | apply KeptO.some | apply State.raise_kept | apply ownRegWrite_kept | split

theorem State.sampleItem_kept {z s : State} {cyc : Nat} {w : Who} (hz : Kept z s) :
    Kept z (State.sampleItem s cyc w) := by
  unfold State.sampleItem
  with_reducible repeat' first | assumption | apply State.modItem_kept | apply State.modRec_kept | split

theorem State.waitLoad_kept {z s : State} {cyc c : Nat} (hz : Kept z s) :
    Kept z (State.waitLoad s cyc c) := by
  unfold State.waitLoad
  with_reducible repeat' first | assumption | apply State.modItem_kept | apply State.modJob_kept | split

theorem State.earlyLoad_kept {z s : State} {cyc c : Nat} (hz : Kept z s) :
    Kept z (State.earlyLoad s cyc c) := by
  unfold State.earlyLoad
  with_reducible repeat' first | assumption | apply State.waitLoad_kept | apply State.modJob_kept | split

theorem State.sampleCore_kept {z s : State} {cyc : Nat} {c : Nat} (hz : Kept z s) :
    Kept z (State.sampleCore s cyc c) := by
  unfold State.sampleCore
  with_reducible repeat' first
    | assumption | apply State.earlyLoad_kept | apply State.modCore_kept | apply State.modCtr_kept | refine CoreKept.mk fun _ hx => ?_ | exact Core.Sound.of hx rfl rfl rfl
    | split

theorem State.sample_kept {z s : State} (hz : Kept z s) :
    Kept z (State.sample s) := by
  unfold State.sample
  with_reducible repeat' first | assumption | apply State.sampleItem_kept | apply State.sampleCore_kept | apply Kept.foldl | intro _ _ _ | split

theorem State.timeAll_kept {z s : State} (hz : Kept z s) :
    Kept z (State.timeAll s) := by
  unfold State.timeAll
  with_reducible repeat' first
    | assumption | apply State.setItem_kept | fail_if_no_progress refine Kept.upd ?_ rfl rfl | apply Kept.foldl | intro _ _ _ | split

theorem State.timeCore_kept {z s : State} {c : Nat} (hz : Kept z s) :
    Kept z (State.timeCore s c) := by
  unfold State.timeCore
  with_reducible repeat' first | assumption | apply State.modCore_kept | refine CoreKept.mk fun _ hx => ?_ | exact Core.Sound.of hx rfl rfl rfl

theorem State.timeCtrs_kept {z s : State} (hz : Kept z s) :
    Kept z (State.timeCtrs s) := by
  unfold State.timeCtrs
  with_reducible repeat' first | assumption | apply State.modCtr_kept | split

theorem State.timeStamp_kept {z s : State} (hz : Kept z s) :
    Kept z (State.timeStamp s) := by
  unfold State.timeStamp
  with_reducible repeat' first | assumption | fail_if_no_progress refine Kept.upd ?_ rfl rfl | split

theorem State.timeUnits_kept {z s : State} (hz : Kept z s) :
    Kept z (State.timeUnits s) := by
  unfold State.timeUnits
  with_reducible repeat' first | assumption | fail_if_no_progress refine Kept.upd ?_ rfl rfl

theorem State.findImage_kept {z s : State} (hz : Kept z s) :
    Kept z (State.findImage s) := by
  unfold State.findImage
  with_reducible repeat' first
    | assumption | apply Kept.foldl | intro _ _ _ | apply State.logOnly_kept | fail_if_no_progress refine Kept.upd ?_ rfl rfl | split

theorem State.tick_kept {z s : State} (hz : Kept z s) :
    Kept z (State.tick s) := by
  unfold State.tick
  with_reducible repeat' first
    | assumption | apply State.findImage_kept | apply State.mendSoft_kept | apply State.payOwed_kept | apply State.swapTick_kept | apply State.sample_kept
    | apply State.timeAll_kept | apply State.timeCore_kept | apply State.timeCtrs_kept | apply State.timeStamp_kept | apply State.timeUnits_kept
    | apply Kept.foldl | split

end Sys2Proof.Machine
end

