-- ==== Sys2Proof/Laws/KeptRows.lean ====
section
/-! SUPPORT. Laws/KeptRows.lean: what is kept (Laws/Kept.lean) by the operations of every row, every command, and a step. -/

namespace Sys2Proof.Machine

theorem execSeqEnd_kept {s : State} {w : Who} : KeptR s (execSeqEnd w s) := by
  unfold execSeqEnd
  apply State.row_kept
  with_reducible repeat' first | exact Kept.refl _ | exact KeptO.none _ | apply State.issue_kept | apply seqEndStep_kept | intro _ | split

theorem execItemEnd_kept {s : State} {w : Who} : KeptR s (execItemEnd w s) := by
  unfold execItemEnd
  apply State.row_kept
  with_reducible repeat' first | exact Kept.refl _ | apply State.fast_kept | apply itemFinish_kept | intro _

theorem execSeqNop_kept {s : State} {w : Who} : KeptR s (execSeqNop w s) := by
  unfold execSeqNop
  apply State.row_kept
  with_reducible repeat' first
    | exact Kept.refl _ | exact KeptO.none _ | apply KeptO.some | apply State.issue_kept | apply State.advance_kept | intro _ | split

theorem execSeqFence_kept {s : State} {w : Who} : KeptR s (execSeqFence w s) := by
  unfold execSeqFence
  apply State.row_kept
  with_reducible repeat' first | exact Kept.refl _ | exact KeptO.none _ | apply State.issue_kept | apply fenceStep_kept | intro _ | split

theorem execSeqEnq_kept {s : State} {x : CtxKind} : KeptR s (execSeqEnq x s) := by
  unfold execSeqEnq
  apply State.row_kept
  with_reducible repeat' first | exact Kept.refl _ | exact KeptO.none _ | apply State.issue_kept | apply enqStep_kept | intro _ | split

theorem execItemIssue_kept {s : State} {w : Who} : KeptR s (execItemIssue w s) := by
  unfold execItemIssue
  apply State.row_kept
  with_reducible repeat' first | exact Kept.refl _ | apply State.fast_kept | apply itemStart_kept | intro _

theorem execAbortSettle_kept {s : State} {w : Who} : KeptR s (execAbortSettle w s) := by
  unfold execAbortSettle
  apply State.row_kept
  with_reducible repeat' first | exact Kept.refl _ | apply State.fast_kept | apply abortStep_kept | intro _

theorem execCluEnq_kept {s : State} {p : Party} {c : Fin 5} {value : Word64} : KeptR s (execCluEnq p c value s) := by
  unfold execCluEnq
  apply State.row_kept
  with_reducible repeat' first | exact Kept.refl _ | apply State.fastRow64_kept

theorem execPreempt_kept {s : State} {p : Party} {c : Fin 5} : KeptR s (execPreempt p c s) := by
  unfold execPreempt
  apply State.row_kept
  with_reducible repeat' first | exact Kept.refl _ | apply State.fastRow_kept

theorem execPreemptPoint_kept {s : State} {c : Fin 4} : KeptR s (execPreemptPoint c s) := by
  unfold execPreemptPoint
  apply State.row_kept
  with_reducible repeat' first | exact Kept.refl _ | apply State.fast_kept | apply preemptPointStep_kept | intro _

theorem execPreemptSaveDone_kept {s : State} {c : Fin 4} : KeptR s (execPreemptSaveDone c s) := by
  unfold execPreemptSaveDone
  apply State.row_kept
  with_reducible repeat' first | exact Kept.refl _ | apply State.fast_kept | apply preemptSaved_kept | intro _

theorem execPreemptRestore_kept {s : State} {c : Fin 4} : KeptR s (execPreemptRestore c s) := by
  unfold execPreemptRestore
  apply State.row_kept
  with_reducible repeat' first | exact Kept.refl _ | apply State.fast_kept | apply preemptRestoreStart_kept | intro _

theorem execPreemptRestoreDone_kept {s : State} {c : Fin 4} : KeptR s (execPreemptRestoreDone c s) := by
  unfold execPreemptRestoreDone
  apply State.row_kept
  with_reducible repeat' first | exact Kept.refl _ | apply State.fast_kept | apply preemptRestored_kept | intro _

theorem execKillCmd_kept {s : State} {p : Party} {c : Fin 5} : KeptR s (execKillCmd p c s) := by
  unfold execKillCmd
  apply State.row_kept
  with_reducible repeat' first | exact Kept.refl _ | apply State.fastRow_kept

theorem execKillHdl_kept {s : State} {p : Party} {c : Fin 5} : KeptR s (execKillHdl p c s) := by
  unfold execKillHdl
  apply State.row_kept
  with_reducible repeat' first | exact Kept.refl _ | apply State.fastRow_kept

theorem execFlush_kept {s : State} {p : Party} {c : Fin 5} : KeptR s (execFlush p c s) := by
  unfold execFlush
  apply State.row_kept
  with_reducible repeat' first | exact Kept.refl _ | apply State.fastRow_kept

theorem execSclAdd_kept {s : State} {x : CtxKind} : KeptR s (execSclAdd x s) := by
  unfold execSclAdd
  apply State.row_kept
  with_reducible repeat' first | exact Kept.refl _ | apply State.scl_kept | apply aluStep_kept | intro _

theorem execSclSub_kept {s : State} {x : CtxKind} : KeptR s (execSclSub x s) := by
  unfold execSclSub
  apply State.row_kept
  with_reducible repeat' first | exact Kept.refl _ | apply State.scl_kept | apply aluStep_kept | intro _

theorem execSclAnd_kept {s : State} {x : CtxKind} : KeptR s (execSclAnd x s) := by
  unfold execSclAnd
  apply State.row_kept
  with_reducible repeat' first | exact Kept.refl _ | apply State.scl_kept | apply aluStep_kept | intro _

theorem execSclOr_kept {s : State} {x : CtxKind} : KeptR s (execSclOr x s) := by
  unfold execSclOr
  apply State.row_kept
  with_reducible repeat' first | exact Kept.refl _ | apply State.scl_kept | apply aluStep_kept | intro _

theorem execSclXor_kept {s : State} {x : CtxKind} : KeptR s (execSclXor x s) := by
  unfold execSclXor
  apply State.row_kept
  with_reducible repeat' first | exact Kept.refl _ | apply State.scl_kept | apply aluStep_kept | intro _

theorem execSclShl_kept {s : State} {x : CtxKind} : KeptR s (execSclShl x s) := by
  unfold execSclShl
  apply State.row_kept
  with_reducible repeat' first | exact Kept.refl _ | apply State.scl_kept | apply aluStep_kept | intro _

theorem execSclShr_kept {s : State} {x : CtxKind} : KeptR s (execSclShr x s) := by
  unfold execSclShr
  apply State.row_kept
  with_reducible repeat' first | exact Kept.refl _ | apply State.scl_kept | apply aluStep_kept | intro _

theorem execSclSar_kept {s : State} {x : CtxKind} : KeptR s (execSclSar x s) := by
  unfold execSclSar
  apply State.row_kept
  with_reducible repeat' first | exact Kept.refl _ | apply State.scl_kept | apply aluStep_kept | intro _

theorem execSclMul_kept {s : State} {x : CtxKind} : KeptR s (execSclMul x s) := by
  unfold execSclMul
  apply State.row_kept
  with_reducible repeat' first | exact Kept.refl _ | apply State.scl_kept | apply aluStep_kept | intro _

theorem execSclSlt_kept {s : State} {x : CtxKind} : KeptR s (execSclSlt x s) := by
  unfold execSclSlt
  apply State.row_kept
  with_reducible repeat' first | exact Kept.refl _ | apply State.scl_kept | apply aluStep_kept | intro _

theorem execSclSltu_kept {s : State} {x : CtxKind} : KeptR s (execSclSltu x s) := by
  unfold execSclSltu
  apply State.row_kept
  with_reducible repeat' first | exact Kept.refl _ | apply State.scl_kept | apply aluStep_kept | intro _

theorem execSclBeq_kept {s : State} {x : CtxKind} : KeptR s (execSclBeq x s) := by
  unfold execSclBeq
  apply State.row_kept
  with_reducible repeat' first | exact Kept.refl _ | apply State.scl_kept | apply branchStep_kept | intro _

theorem execSclBne_kept {s : State} {x : CtxKind} : KeptR s (execSclBne x s) := by
  unfold execSclBne
  apply State.row_kept
  with_reducible repeat' first | exact Kept.refl _ | apply State.scl_kept | apply branchStep_kept | intro _

theorem execSclBlt_kept {s : State} {x : CtxKind} : KeptR s (execSclBlt x s) := by
  unfold execSclBlt
  apply State.row_kept
  with_reducible repeat' first | exact Kept.refl _ | apply State.scl_kept | apply branchStep_kept | intro _

theorem execSclBge_kept {s : State} {x : CtxKind} : KeptR s (execSclBge x s) := by
  unfold execSclBge
  apply State.row_kept
  with_reducible repeat' first | exact Kept.refl _ | apply State.scl_kept | apply branchStep_kept | intro _

theorem execSclJmp_kept {s : State} {x : CtxKind} : KeptR s (execSclJmp x s) := by
  unfold execSclJmp
  apply State.row_kept
  with_reducible repeat' first | exact Kept.refl _ | apply State.scl_kept | apply branchStep_kept | intro _

theorem execSclLd8_kept {s : State} {x : CtxKind} : KeptR s (execSclLd8 x s) := by
  unfold execSclLd8
  apply State.row_kept
  with_reducible repeat' first | exact Kept.refl _ | apply State.scl_kept | apply loadStep_kept | intro _

theorem execSclLd16_kept {s : State} {x : CtxKind} : KeptR s (execSclLd16 x s) := by
  unfold execSclLd16
  apply State.row_kept
  with_reducible repeat' first | exact Kept.refl _ | apply State.scl_kept | apply loadStep_kept | intro _

theorem execSclLd32_kept {s : State} {x : CtxKind} : KeptR s (execSclLd32 x s) := by
  unfold execSclLd32
  apply State.row_kept
  with_reducible repeat' first | exact Kept.refl _ | apply State.scl_kept | apply loadStep_kept | intro _

theorem execSclLd64_kept {s : State} {x : CtxKind} : KeptR s (execSclLd64 x s) := by
  unfold execSclLd64
  apply State.row_kept
  with_reducible repeat' first | exact Kept.refl _ | apply State.scl_kept | apply loadStep_kept | intro _

theorem execSclSt8_kept {s : State} {x : CtxKind} : KeptR s (execSclSt8 x s) := by
  unfold execSclSt8
  apply State.row_kept
  with_reducible repeat' first | exact Kept.refl _ | apply State.scl_kept | apply storeStep_kept | intro _

theorem execSclSt16_kept {s : State} {x : CtxKind} : KeptR s (execSclSt16 x s) := by
  unfold execSclSt16
  apply State.row_kept
  with_reducible repeat' first | exact Kept.refl _ | apply State.scl_kept | apply storeStep_kept | intro _

theorem execSclSt32_kept {s : State} {x : CtxKind} : KeptR s (execSclSt32 x s) := by
  unfold execSclSt32
  apply State.row_kept
  with_reducible repeat' first | exact Kept.refl _ | apply State.scl_kept | apply storeStep_kept | intro _

theorem execSclSt64_kept {s : State} {x : CtxKind} : KeptR s (execSclSt64 x s) := by
  unfold execSclSt64
  apply State.row_kept
  with_reducible repeat' first | exact Kept.refl _ | apply State.scl_kept | apply storeStep_kept | intro _

theorem execSclRdreg_kept {s : State} {x : CtxKind} : KeptR s (execSclRdreg x s) := by
  unfold execSclRdreg
  apply State.row_kept
  with_reducible repeat' first | exact Kept.refl _ | apply State.scl_kept | apply rdregStep_kept | intro _

theorem execSclWrreg_kept {s : State} {x : CtxKind} : KeptR s (execSclWrreg x s) := by
  unfold execSclWrreg
  apply State.row_kept
  with_reducible repeat' first | exact Kept.refl _ | apply State.scl_kept | apply wrregStep_kept | intro _

theorem execArrMma_kept {s : State} {w : Who} : KeptR s (execArrMma w s) := by
  unfold execArrMma
  apply State.row_kept
  with_reducible repeat' first | exact Kept.refl _ | exact KeptO.none _ | apply State.issue_kept | apply issueMma_kept | intro _ | split

theorem execArrEmul_kept {s : State} {w : Who} : KeptR s (execArrEmul w s) := by
  unfold execArrEmul
  apply State.row_kept
  with_reducible repeat' first | exact Kept.refl _ | exact KeptO.none _ | apply State.issue_kept | apply issueMma_kept | intro _ | split

theorem execArrBqpush_kept {s : State} {w : Who} : KeptR s (execArrBqpush w s) := by
  unfold execArrBqpush
  apply State.row_kept
  with_reducible repeat' first | exact Kept.refl _ | exact KeptO.none _ | apply State.issue_kept | apply batchPush_kept | intro _ | split

theorem execArrBqrelease_kept {s : State} {w : Who} : KeptR s (execArrBqrelease w s) := by
  unfold execArrBqrelease
  apply State.row_kept
  with_reducible repeat' first | exact Kept.refl _ | exact KeptO.none _ | apply State.issue_kept | apply batchRelease_kept | intro _ | split

theorem execPassStart_kept {s : State} {c : Fin 4} : KeptR s (execPassStart c s) := by
  unfold execPassStart
  apply State.row_kept
  with_reducible repeat' first | exact Kept.refl _ | apply State.fast_kept | apply passStartStep_kept | intro _

theorem execPassEnd_kept {s : State} {c : Fin 4} {mismatch : List Nat} : KeptR s (execPassEnd c mismatch s) := by
  unfold execPassEnd
  apply State.checked_kept
  with_reducible repeat' first | exact Kept.refl _ | apply State.fast_kept | apply passEndStep_kept | intro _

theorem execRetryRestart_kept {s : State} {c : Fin 4} : KeptR s (execRetryRestart c s) := by
  unfold execRetryRestart
  apply State.row_kept
  with_reducible repeat' first | exact Kept.refl _ | apply State.fast_kept | apply retryStep_kept | intro _

theorem execArrayRampDown_kept {s : State} {c : Fin 4} : KeptR s (execArrayRampDown c s) := by
  unfold execArrayRampDown
  apply State.row_kept
  with_reducible repeat' first | exact Kept.refl _ | apply State.fast_kept | apply rampStep_kept | intro _

theorem execBqDeadlineShip_kept {s : State} {q : Fin 16} : KeptR s (execBqDeadlineShip q s) := by
  unfold execBqDeadlineShip
  apply State.row_kept
  with_reducible repeat' first | exact Kept.refl _ | apply State.fast_kept | apply deadlineShip_kept | intro _

theorem execEpilogueTile_kept {s : State} {w : Who} : KeptR s (execEpilogueTile w s) := by
  unfold execEpilogueTile
  apply State.row_kept
  with_reducible repeat' first | exact Kept.refl _ | apply State.fast_kept | apply epilogueStep_kept | intro _

theorem execVecChain_kept {s : State} {w : Who} : KeptR s (execVecChain w s) := by
  unfold execVecChain
  apply State.row_kept
  with_reducible repeat' first | exact Kept.refl _ | exact KeptO.none _ | apply State.issue_kept | apply runChainOp_kept | intro _ | split

theorem execVecMaskld_kept {s : State} {w : Who} : KeptR s (execVecMaskld w s) := by
  unfold execVecMaskld
  apply State.row_kept
  with_reducible repeat' first | exact Kept.refl _ | exact KeptO.none _ | apply State.issue_kept | apply maskLoad_kept | intro _ | split

theorem execVecMaskst_kept {s : State} {w : Who} : KeptR s (execVecMaskst w s) := by
  unfold execVecMaskst
  apply State.row_kept
  with_reducible repeat' first | exact Kept.refl _ | exact KeptO.none _ | apply State.issue_kept | apply maskStore_kept | intro _ | split

theorem execVecStatclr_kept {s : State} {w : Who} : KeptR s (execVecStatclr w s) := by
  unfold execVecStatclr
  apply State.row_kept
  with_reducible repeat' first | exact Kept.refl _ | exact KeptO.none _ | apply State.issue_kept | apply statClear_kept | intro _ | split

theorem execVecSide_kept {s : State} {w : Who} : KeptR s (execVecSide w s) := by
  unfold execVecSide
  apply State.row_kept
  with_reducible repeat' first | exact Kept.refl _ | exact KeptO.none _ | apply State.issue_kept | apply sideVector_kept | intro _ | split

theorem execVecRowclose_kept {s : State} {w : Who} : KeptR s (execVecRowclose w s) := by
  unfold execVecRowclose
  apply State.row_kept
  with_reducible repeat' first | exact Kept.refl _ | exact KeptO.none _ | apply State.issue_kept | apply rowClose_kept | intro _ | split

theorem execDmaIssue_kept {s : State} {w : Who} : KeptR s (execDmaIssue w s) := by
  unfold execDmaIssue
  apply State.row_kept
  with_reducible repeat' first | exact Kept.refl _ | exact KeptO.none _ | apply State.issue_kept | apply descIssue_kept | intro _ | split

theorem execDmaIssuem_kept {s : State} {w : Who} : KeptR s (execDmaIssuem w s) := by
  unfold execDmaIssuem
  apply State.row_kept
  with_reducible repeat' first | exact Kept.refl _ | exact KeptO.none _ | apply State.issue_kept | apply descIssueM_kept | intro _ | split

theorem execDescriptorStart_kept {s : State} {ch : Fin 32} : KeptR s (execDescriptorStart ch s) := by
  unfold execDescriptorStart
  apply State.row_kept
  with_reducible repeat' first | exact Kept.refl _ | apply State.fast_kept | apply descStart_kept | intro _

theorem execDmaBeat_kept {s : State} : KeptR s (execDmaBeat s) := by
  unfold execDmaBeat
  apply State.row_kept
  with_reducible repeat' first | exact Kept.refl _ | apply State.fast_kept | apply dmaBeatStep_kept | intro _

theorem execSectorPerformed_kept {s : State} {ch : Fin 32} : KeptR s (execSectorPerformed ch s) := by
  unfold execSectorPerformed
  apply State.row_kept
  with_reducible repeat' first | exact Kept.refl _ | apply State.fast_kept | apply sectorDone_kept | intro _

theorem execDescriptorComplete_kept {s : State} {ch : Fin 32} : KeptR s (execDescriptorComplete ch s) := by
  unfold execDescriptorComplete
  apply State.row_kept
  with_reducible repeat' first | exact Kept.refl _ | apply State.fast_kept | apply descDone_kept | intro _

theorem execDmaChCtrlWrite_kept {s : State} {p : Party} {ch : Fin 32} {value : Word32} : KeptR s (execDmaChCtrlWrite p ch value s) := by
  unfold execDmaChCtrlWrite
  apply State.row_kept
  with_reducible repeat' first | exact Kept.refl _ | apply State.fastRow_kept

theorem execMsgSend_kept {s : State} {w : Who} : KeptR s (execMsgSend w s) := by
  unfold execMsgSend
  apply State.row_kept
  with_reducible repeat' first | exact Kept.refl _ | exact KeptO.none _ | apply State.issue_kept | apply msgSendStep_kept | intro _ | split

theorem execMsgMsend_kept {s : State} {w : Who} : KeptR s (execMsgMsend w s) := by
  unfold execMsgMsend
  apply State.row_kept
  with_reducible repeat' first | exact Kept.refl _ | exact KeptO.none _ | apply State.issue_kept | apply msgMsendStep_kept | intro _ | split

theorem execMsgRclose_kept {s : State} {w : Who} : KeptR s (execMsgRclose w s) := by
  unfold execMsgRclose
  apply State.row_kept
  with_reducible repeat' first | exact Kept.refl _ | exact KeptO.none _ | apply State.issue_kept | apply msgRcloseStep_kept | intro _ | split

theorem execSendAccept_kept {s : State} : KeptR s (execSendAccept s) :=
  State.row_kept (State.fast_kept (Kept.refl s) fun _ => sendAccept_kept (Kept.refl _))

theorem execMessageArrival_kept {s : State} {m : Frame} : KeptR s (execMessageArrival m s) := by
  unfold execMessageArrival
  apply State.checked_kept
  with_reducible repeat' first | exact Kept.refl _ | apply State.arrive_kept

theorem execHandlerDispatch_kept {s : State} {c : Fin 5} : KeptR s (execHandlerDispatch c s) := by
  unfold execHandlerDispatch
  apply State.row_kept
  with_reducible repeat' first | exact Kept.refl _ | apply State.fast_kept | apply dispatch_kept | intro _

theorem execCombineDelivery_kept {s : State} {slot : Fin 512} : KeptR s (execCombineDelivery slot s) := by
  unfold execCombineDelivery
  apply State.row_kept
  with_reducible repeat' first | exact Kept.refl _ | apply State.fast_kept | apply combineDeliver_kept | intro _

theorem execStatusEntry_kept {s : State} {i : Nat} : KeptR s (execStatusEntry i s) := by
  unfold execStatusEntry
  apply State.row_kept
  with_reducible repeat' first | exact Kept.refl _ | apply State.fast_kept | apply statusWrite_kept | intro _

theorem execCreditReturn_kept {s : State} {r : CreditRet} : KeptR s (execCreditReturn r s) := by
  unfold execCreditReturn
  apply State.row_kept
  with_reducible repeat' first | exact Kept.refl _ | apply State.arrive_kept

theorem execMsgRingAdvance_kept {s : State} {p : Party} {c : Fin 5} {ring : Fin 32} : KeptR s (execMsgRingAdvance p c ring s) := by
  unfold execMsgRingAdvance
  apply State.row_kept
  with_reducible repeat' first | exact Kept.refl _ | apply State.fastRow_kept

theorem execMsgRingAll_kept {s : State} {p : Party} {c : Fin 5} : KeptR s (execMsgRingAll p c s) := by
  unfold execMsgRingAll
  apply State.row_kept
  with_reducible repeat' first | exact Kept.refl _ | apply State.fastRow_kept

theorem execMsgCreditData_kept {s : State} {p : Party} {avail : BitVec 16} : KeptR s (execMsgCreditData p avail s) := by
  unfold execMsgCreditData
  apply State.row_kept
  with_reducible repeat' first | exact Kept.refl _ | apply State.fastRow64_kept

theorem execPacingIncrease_kept {s : State} : KeptR s (execPacingIncrease s) := by
  unfold execPacingIncrease
  apply State.row_kept
  with_reducible repeat' first | exact Kept.refl _ | apply State.paceIncrease_kept | split

theorem execPacingAllowance_kept {s : State} : KeptR s (execPacingAllowance s) := by
  unfold execPacingAllowance
  apply State.row_kept
  with_reducible repeat' first | exact Kept.refl _ | apply State.paceAllow_kept | split

theorem execSynArrive_kept {s : State} {w : Who} : KeptR s (execSynArrive w s) := by
  unfold execSynArrive
  apply State.row_kept
  with_reducible repeat' first | exact Kept.refl _ | exact KeptO.none _ | apply State.issue_kept | apply arriveIssue_kept | intro _ | split

theorem execArriveTakesEffect_kept {s : State} {w : Who} : KeptR s (execArriveTakesEffect w s) := by
  unfold execArriveTakesEffect
  apply State.row_kept
  with_reducible repeat' first | exact Kept.refl _ | apply State.fast_kept | apply arriveEffect_kept | intro _

theorem execSynWait_kept {s : State} {w : Who} : KeptR s (execSynWait w s) := by
  unfold execSynWait
  apply State.row_kept
  with_reducible repeat' first | exact Kept.refl _ | exact KeptO.none _ | apply State.issue_kept | apply waitIssue_kept | intro _ | split

theorem execWaitComplete_kept {s : State} {w : Who} : KeptR s (execWaitComplete w s) := by
  unfold execWaitComplete
  apply State.row_kept
  with_reducible repeat' first | exact Kept.refl _ | apply State.fast_kept | apply waitDone_kept | intro _

theorem execSynRead_kept {s : State} {w : Who} : KeptR s (execSynRead w s) := by
  unfold execSynRead
  apply State.row_kept
  with_reducible repeat' first | exact Kept.refl _ | exact KeptO.none _ | apply State.issue_kept | apply syncRead_kept | intro _ | split

theorem execSynSet_kept {s : State} {w : Who} : KeptR s (execSynSet w s) := by
  unfold execSynSet
  apply State.row_kept
  with_reducible repeat' first | exact Kept.refl _ | exact KeptO.none _ | apply State.issue_kept | apply syncSet_kept | intro _ | split

theorem execAtmAdd_kept {s : State} {w : Who} : KeptR s (execAtmAdd w s) := by
  unfold execAtmAdd
  apply State.row_kept
  with_reducible repeat' first | exact Kept.refl _ | exact KeptO.none _ | apply State.issue_kept | apply atomIssue_kept | intro _ | split

theorem execAtmMin_kept {s : State} {w : Who} : KeptR s (execAtmMin w s) := by
  unfold execAtmMin
  apply State.row_kept
  with_reducible repeat' first | exact Kept.refl _ | exact KeptO.none _ | apply State.issue_kept | apply atomIssue_kept | intro _ | split

theorem execAtmMax_kept {s : State} {w : Who} : KeptR s (execAtmMax w s) := by
  unfold execAtmMax
  apply State.row_kept
  with_reducible repeat' first | exact Kept.refl _ | exact KeptO.none _ | apply State.issue_kept | apply atomIssue_kept | intro _ | split

theorem execAtmXchg_kept {s : State} {w : Who} : KeptR s (execAtmXchg w s) := by
  unfold execAtmXchg
  apply State.row_kept
  with_reducible repeat' first | exact Kept.refl _ | exact KeptO.none _ | apply State.issue_kept | apply atomIssue_kept | intro _ | split

theorem execAtmCas_kept {s : State} {w : Who} : KeptR s (execAtmCas w s) := by
  unfold execAtmCas
  apply State.row_kept
  with_reducible repeat' first | exact Kept.refl _ | exact KeptO.none _ | apply State.issue_kept | apply atomIssue_kept | intro _ | split

theorem execPortBufferDrain_kept {s : State} {sector : Nat} : KeptR s (execPortBufferDrain sector s) := by
  unfold execPortBufferDrain
  apply State.row_kept
  with_reducible repeat' first | exact Kept.refl _ | apply State.fast_kept | apply portDrain_kept | intro _

theorem execMemoryResponse_kept {s : State} {id : Nat} {r : MemResp} : KeptR s (execMemoryResponse id r s) := by
  unfold execMemoryResponse
  apply State.checked_kept
  with_reducible repeat' first | exact Kept.refl _ | apply State.fast_kept | apply memAnswer_kept | intro _

theorem execRemoteRefusal_kept {s : State} {id : Nat} {fault : BitVec 16} : KeptR s (execRemoteRefusal id fault s) := by
  unfold execRemoteRefusal
  apply State.checked_kept
  with_reducible repeat' first | exact Kept.refl _ | apply State.fast_kept | apply remoteRefuse_kept | intro _

theorem execRemoteAccess_kept {s : State} {r : RemoteReq} : KeptR s (execRemoteAccess r s) := by
  unfold execRemoteAccess
  apply State.checked_kept
  with_reducible repeat' first | exact Kept.refl _ | apply State.arrive_kept

theorem execRemoteCounterAdd_kept {s : State} {sc : BitVec 13} {k : AddKind} : KeptR s (execRemoteCounterAdd sc k s) := by
  unfold execRemoteCounterAdd
  apply State.row_kept
  with_reducible repeat' first | exact Kept.refl _ | apply State.arrive_kept

theorem execSynArriveWrite_kept {s : State} {p : Party} {sc : BitVec 13} {value : Word32} : KeptR s (execSynArriveWrite p sc value s) := by
  unfold execSynArriveWrite
  apply State.row_kept
  with_reducible repeat' first | exact Kept.refl _ | apply State.arrive_kept

theorem execSynSetWrite_kept {s : State} {p : Party} {sc : BitVec 13} {value : Word32} : KeptR s (execSynSetWrite p sc value s) := by
  unfold execSynSetWrite
  apply State.row_kept
  with_reducible repeat' first | exact Kept.refl _ | apply State.fastRow64_kept

theorem execSynPbufFlush_kept {s : State} {p : Party} : KeptR s (execSynPbufFlush p s) := by
  unfold execSynPbufFlush
  apply State.row_kept
  with_reducible repeat' first | exact Kept.refl _ | apply State.fastRow_kept

theorem execStrOpen_kept {s : State} {p : Party} : KeptR s (execStrOpen p s) := by
  unfold execStrOpen
  apply State.row_kept
  with_reducible repeat' first | exact Kept.refl _ | apply State.aonRow_kept

theorem execStrValidate_kept {s : State} {p : Party} : KeptR s (execStrValidate p s) := by
  unfold execStrValidate
  apply State.row_kept
  with_reducible repeat' first | exact Kept.refl _ | apply State.aonRow_kept

theorem execStrCommit_kept {s : State} {p : Party} : KeptR s (execStrCommit p s) := by
  unfold execStrCommit
  apply State.row_kept
  with_reducible repeat' first | exact Kept.refl _ | apply State.aonRow_kept

theorem execStrAbort_kept {s : State} {p : Party} : KeptR s (execStrAbort p s) := by
  unfold execStrAbort
  apply State.row_kept
  with_reducible repeat' first | exact Kept.refl _ | apply State.aonRow_kept

theorem execStrConfirm_kept {s : State} {p : Party} : KeptR s (execStrConfirm p s) := by
  unfold execStrConfirm
  apply State.row_kept
  with_reducible repeat' first | exact Kept.refl _ | apply State.aonRow_kept

theorem execValidationDone_kept {s : State} : KeptR s (execValidationDone s) := by
  unfold execValidationDone
  apply State.row_kept
  with_reducible repeat' first | exact Kept.refl _ | apply State.orStay_kept | apply validateStep_kept

theorem execStrStageData_kept {s : State} {p : Party} {data : Word32} : KeptR s (execStrStageData p data s) := by
  unfold execStrStageData
  apply State.row_kept
  with_reducible repeat' first | exact Kept.refl _ | apply State.aonRow_kept

theorem execStrDeltaData_kept {s : State} {p : Party} {data : Word32} : KeptR s (execStrDeltaData p data s) := by
  unfold execStrDeltaData
  apply State.row_kept
  with_reducible repeat' first | exact Kept.refl _ | apply State.aonRow_kept

theorem execEpochBoundary_kept {s : State} : KeptR s (execEpochBoundary s) := by
  unfold execEpochBoundary
  apply State.row_kept
  with_reducible repeat' first | exact Kept.refl _ | apply State.orStay_kept | apply epochStep_kept

theorem execImageDecodedAgain_kept {s : State} {ok : Bool} : KeptR s (execImageDecodedAgain ok s) := by
  unfold execImageDecodedAgain
  apply State.row_kept
  with_reducible repeat' first | exact Kept.refl _ | apply State.orStay_kept | apply decodedAgain_kept

theorem execMarlRecordComplete_kept {s : State} : KeptR s (execMarlRecordComplete s) := by
  unfold execMarlRecordComplete
  apply State.row_kept
  with_reducible repeat' first | exact Kept.refl _ | apply State.orStay_kept | apply recordStep_kept

theorem execTelemetryTimer_kept {s : State} : KeptR s (execTelemetryTimer s) := by
  unfold execTelemetryTimer
  apply State.row_kept
  with_reducible repeat' first | exact Kept.refl _ | apply State.orStay_kept | apply telemetryStep_kept

theorem execCompactionComplete_kept {s : State} : KeptR s (execCompactionComplete s) := by
  unfold execCompactionComplete
  apply State.row_kept
  with_reducible repeat' first | exact Kept.refl _ | apply State.orStay_kept | apply compactStep_kept

theorem execMrlSealGo_kept {s : State} {p : Party} : KeptR s (execMrlSealGo p s) := by
  unfold execMrlSealGo
  apply State.row_kept
  with_reducible repeat' first | exact Kept.refl _ | apply State.aonRow_kept

theorem execMrlSealRetire_kept {s : State} {p : Party} {serial : Word32} : KeptR s (execMrlSealRetire p serial s) := by
  unfold execMrlSealRetire
  apply State.row_kept
  with_reducible repeat' first | exact Kept.refl _ | apply State.aonRow_kept

theorem execMrlReadAddr_kept {s : State} {p : Party} {value : Word32} : KeptR s (execMrlReadAddr p value s) := by
  unfold execMrlReadAddr
  apply State.row_kept
  with_reducible repeat' first | exact Kept.refl _ | apply State.aonRow_kept

theorem execIdleEntry_kept {s : State} : KeptR s (execIdleEntry s) := by
  unfold execIdleEntry
  apply State.row_kept
  with_reducible repeat' first | exact Kept.refl _ | apply State.orStay_kept | apply idleStep_kept

theorem execNapEntry_kept {s : State} : KeptR s (execNapEntry s) := by
  unfold execNapEntry
  apply State.row_kept
  with_reducible repeat' first | exact Kept.refl _ | apply State.orStay_kept | apply napStep_kept

theorem execCoreSleepEntry_kept {s : State} {c : Fin 4} : KeptR s (execCoreSleepEntry c s) := by
  unfold execCoreSleepEntry
  apply State.row_kept
  with_reducible repeat' first | exact Kept.refl _ | apply State.coreClock_kept | apply coreSleepStart_kept | intro _

theorem execCoreSleepSaveDone_kept {s : State} {c : Fin 4} : KeptR s (execCoreSleepSaveDone c s) := by
  unfold execCoreSleepSaveDone
  apply State.row_kept
  with_reducible repeat' first | exact Kept.refl _ | apply State.coreClock_kept | apply coreSleepDone_kept | intro _

theorem execWakeTrigger_kept {s : State} {t : Trigger} : KeptR s (execWakeTrigger t s) := by
  unfold execWakeTrigger
  apply State.row_kept
  with_reducible repeat' first | exact Kept.refl _ | apply State.orStay_kept | apply wakeStep_kept

theorem execFastClockStable_kept {s : State} {mhz : BitVec 11} : KeptR s (execFastClockStable mhz s) := by
  unfold execFastClockStable
  apply State.row_kept
  with_reducible repeat' first | exact Kept.refl _ | apply State.orStay_kept | apply clockStable_kept

theorem execPwrClock_kept {s : State} : KeptR s (execPwrClock s) := by
  unfold execPwrClock
  apply State.row_kept
  with_reducible repeat' first | exact Kept.refl _ | apply State.orStay_kept | apply clockLate_kept

theorem execCoreWake_kept {s : State} {c : Fin 4} : KeptR s (execCoreWake c s) := by
  unfold execCoreWake
  apply State.row_kept
  with_reducible repeat' first | exact Kept.refl _ | apply State.fast_kept | apply coreWakeStep_kept | intro _

theorem execPwrCtrlStayup_kept {s : State} {p : Party} {on : Bool} : KeptR s (execPwrCtrlStayup p on s) := by
  unfold execPwrCtrlStayup
  apply State.row_kept
  with_reducible repeat' first | exact Kept.refl _ | apply State.aonRow_kept

theorem execPwrCtrlOff_kept {s : State} {p : Party} : KeptR s (execPwrCtrlOff p s) := by
  unfold execPwrCtrlOff
  apply State.row_kept
  with_reducible repeat' first | exact Kept.refl _ | apply State.aonRow_kept

theorem execThrottleAssert_kept {s : State} {temp : BitVec 8} : KeptR s (execThrottleAssert temp s) := by
  unfold execThrottleAssert
  apply State.row_kept
  with_reducible repeat' first | exact Kept.refl _ | apply State.orStay_kept | apply throttleOn_kept

theorem execThrottleDeassert_kept {s : State} : KeptR s (execThrottleDeassert s) := by
  unfold execThrottleDeassert
  apply State.row_kept
  with_reducible repeat' first | exact Kept.refl _ | apply State.orStay_kept | apply throttleOff_kept

theorem execPowerFailWarning_kept {s : State} : KeptR s (execPowerFailWarning s) := by
  unfold execPowerFailWarning
  apply State.row_kept
  with_reducible repeat' first | exact Kept.refl _ | apply State.orStay_kept | apply powerFail_kept

theorem execPfSafe_kept {s : State} : KeptR s (execPfSafe s) := by
  unfold execPfSafe
  apply State.row_kept
  with_reducible repeat' first | exact Kept.refl _ | apply State.orStay_kept | apply pfSafeStep_kept

theorem execPowerFailClear_kept {s : State} : KeptR s (execPowerFailClear s) := by
  unfold execPowerFailClear
  apply State.row_kept
  with_reducible repeat' first | exact Kept.refl _ | apply State.orStay_kept | apply pfClear_kept

theorem execPowerLoss_kept {s : State} {torn : Nat} : KeptR s (execPowerLoss torn s) := by
  unfold execPowerLoss
  apply State.row_kept
  with_reducible repeat' first | exact Kept.refl _ | apply powerLost_kept

theorem execStartup_kept {s : State} : KeptR s (execStartup s) :=
  ⟨_, rfl, State.orStay_kept (Kept.refl s) (KeptO.map (startup_kept (Kept.refl s)) fun t => State.acceptAon_kept (Kept.refl t))⟩

theorem execCoreRelease_kept {s : State} : KeptR s (execCoreRelease s) := by
  unfold execCoreRelease
  apply State.row_kept
  with_reducible repeat' first | exact Kept.refl _ | apply State.orStay_kept | apply releaseCores_kept
  exact KeptO.map (releaseCores_kept (Kept.refl s)) fun t => State.acceptAon_kept (Kept.refl t)

theorem execWaitTo_kept {s : State} {w : Who} : KeptR s (execWaitTo w s) := by
  unfold execWaitTo
  apply State.row_kept
  with_reducible repeat' first | exact Kept.refl _ | apply State.orStay_kept | apply waitExpire_kept

theorem execSendTo_kept {s : State} {w : Who} : KeptR s (execSendTo w s) := by
  unfold execSendTo
  apply State.row_kept
  with_reducible repeat' first | exact Kept.refl _ | apply State.orStay_kept | apply sendExpire_kept

theorem execCommandTo_kept {s : State} {c : Fin 5} : KeptR s (execCommandTo c s) := by
  unfold execCommandTo
  apply State.row_kept
  with_reducible repeat' first | exact Kept.refl _ | apply State.orStay_kept | apply itemExpire_kept

theorem execHandlerTo_kept {s : State} {c : Fin 5} : KeptR s (execHandlerTo c s) := by
  unfold execHandlerTo
  apply State.row_kept
  with_reducible repeat' first | exact Kept.refl _ | apply State.orStay_kept | apply itemExpire_kept

theorem execDmaTo_kept {s : State} {t : DmaTarget} : KeptR s (execDmaTo t s) := by
  unfold execDmaTo
  apply State.row_kept
  with_reducible repeat' first | exact Kept.refl _ | apply State.orStay_kept | apply dmaExpire_kept

theorem execClockMonitorInterval_kept {s : State} {cycles : Nat} : KeptR s (execClockMonitorInterval cycles s) := by
  unfold execClockMonitorInterval
  apply State.row_kept
  with_reducible repeat' first | exact Kept.refl _ | apply State.orStay_kept | apply clockInterval_kept

theorem execDroneClockFault_kept {s : State} : KeptR s (execDroneClockFault s) := by
  unfold execDroneClockFault
  apply State.row_kept
  with_reducible repeat' first | exact Kept.refl _ | apply droneFault_kept

theorem execFclkChange_kept {s : State} {mhz : BitVec 11} : KeptR s (execFclkChange mhz s) := by
  unfold execFclkChange
  apply State.row_kept
  with_reducible repeat' first | exact Kept.refl _ | apply fclkStep_kept

theorem execDroopStart_kept {s : State} {mv : Nat} : KeptR s (execDroopStart mv s) := by
  unfold execDroopStart
  apply State.row_kept
  with_reducible repeat' first | exact Kept.refl _ | apply State.orStay_kept | apply droopOn_kept

theorem execDroopEnd_kept {s : State} : KeptR s (execDroopEnd s) := by
  unfold execDroopEnd
  apply State.row_kept
  with_reducible repeat' first | exact Kept.refl _ | apply State.orStay_kept | apply droopOff_kept

theorem execOverVoltage_kept {s : State} {mv : Nat} : KeptR s (execOverVoltage mv s) := by
  unfold execOverVoltage
  apply State.row_kept
  with_reducible repeat' first | exact Kept.refl _ | apply State.orStay_kept | apply overVolt_kept

theorem execTempSample_kept {s : State} {temp : BitVec 8} : KeptR s (execTempSample temp s) := by
  unfold execTempSample
  apply State.row_kept
  with_reducible repeat' first | exact Kept.refl _ | apply State.orStay_kept | apply tempStep_kept

theorem execScrub_kept {s : State} {sector : Nat} : KeptR s (execScrub sector s) := by
  unfold execScrub
  apply State.checked_kept
  with_reducible repeat' first | exact Kept.refl _ | apply State.orStay_kept | apply scrubStep_kept | split

theorem execFlitCrcFail_kept {s : State} {replays : Fin 9} {load : FlitLoad} : KeptR s (execFlitCrcFail replays load s) := by
  unfold execFlitCrcFail
  apply State.row_kept
  with_reducible repeat' first | exact Kept.refl _ | apply flitFail_kept

theorem execDbgPingGo_kept {s : State} {p : Party} : KeptR s (execDbgPingGo p s) := by
  unfold execDbgPingGo
  apply State.row_kept
  with_reducible repeat' first | exact Kept.refl _ | apply State.fastRow_kept

theorem execProbeArrival_kept {s : State} {src : Word32} {dest : Word32} : KeptR s (execProbeArrival src dest s) := by
  unfold execProbeArrival
  apply State.row_kept
  with_reducible repeat' first | exact Kept.refl _ | apply State.arrive_kept

theorem execProbeReply_kept {s : State} {t2 : Word64} {t3 : Word64} {fault : BitVec 16} : KeptR s (execProbeReply t2 t3 fault s) := by
  unfold execProbeReply
  apply State.row_kept
  with_reducible repeat' first | exact Kept.refl _ | apply State.arrive_kept

theorem execProbeTimeout_kept {s : State} : KeptR s (execProbeTimeout s) := by
  unfold execProbeTimeout
  apply State.row_kept
  with_reducible repeat' first | exact Kept.refl _ | apply State.orStay_kept | apply probeExpire_kept

theorem execDbgSnapTake_kept {s : State} {p : Party} : KeptR s (execDbgSnapTake p s) := by
  unfold execDbgSnapTake
  apply State.row_kept
  with_reducible repeat' first | exact Kept.refl _ | apply State.fastRow_kept

theorem execDbgSnapRelease_kept {s : State} {p : Party} : KeptR s (execDbgSnapRelease p s) := by
  unfold execDbgSnapRelease
  apply State.row_kept
  with_reducible repeat' first | exact Kept.refl _ | apply State.fastRow_kept

theorem execSnapForwarded_kept {s : State} {origin : Fin 256} : KeptR s (execSnapForwarded origin s) := by
  apply State.row_kept
  exact snapForwarded_kept (Kept.refl _)

theorem execSnapshotCaptureDone_kept {s : State} : KeptR s (execSnapshotCaptureDone s) := by
  unfold execSnapshotCaptureDone
  apply State.row_kept
  with_reducible repeat' first | exact Kept.refl _ | apply State.orStay_kept | apply snapDone_kept

theorem execWatchDump_kept {s : State} {w : Who} : KeptR s (execWatchDump w s) := by
  unfold execWatchDump
  apply State.row_kept
  with_reducible repeat' first | exact Kept.refl _ | apply State.fast_kept | apply dumpStep_kept | intro _

theorem execRegisterWrite_kept {s : State} {p : Party} {off : BitVec 20} {width : Width} {value : Word64} : KeptR s (execRegisterWrite p off width value s) := by
  unfold execRegisterWrite
  apply State.checked_kept
  with_reducible repeat' first | exact Kept.refl _ | apply State.writeFrom_kept

theorem execRegisterRead_kept {s : State} {p : Party} {off : BitVec 20} {width : Width} : KeptR s (execRegisterRead p off width s) := by
  unfold execRegisterRead
  apply State.checked_kept
  with_reducible repeat' first | exact Kept.refl _ | apply State.readFrom_kept

theorem execTraceDrain_kept {s : State} {n : Nat} : KeptR s (execTraceDrain n s) := by
  unfold execTraceDrain
  apply State.checked_kept
  with_reducible repeat' first | exact Kept.refl _ | apply State.orStay_kept | apply traceOut_kept

/-- Every command goes on to a state that keeps what every operation keeps. -/
theorem exec_kept (i : Instr) (s : State) : KeptR s (exec i s) := by
  cases i with
  | seqEnd _ => exact execSeqEnd_kept
  | itemEnd _ => exact execItemEnd_kept
  | seqNop _ => exact execSeqNop_kept
  | seqFence _ => exact execSeqFence_kept
  | seqEnq _ => exact execSeqEnq_kept
  | sclAdd _ => exact execSclAdd_kept
  | sclSub _ => exact execSclSub_kept
  | sclAnd _ => exact execSclAnd_kept
  | sclOr _ => exact execSclOr_kept
  | sclXor _ => exact execSclXor_kept
  | sclShl _ => exact execSclShl_kept
  | sclShr _ => exact execSclShr_kept
  | sclSar _ => exact execSclSar_kept
  | sclMul _ => exact execSclMul_kept
  | sclSlt _ => exact execSclSlt_kept
  | sclSltu _ => exact execSclSltu_kept
  | sclBeq _ => exact execSclBeq_kept
  | sclBne _ => exact execSclBne_kept
  | sclBlt _ => exact execSclBlt_kept
  | sclBge _ => exact execSclBge_kept
  | sclJmp _ => exact execSclJmp_kept
  | sclLd8 _ => exact execSclLd8_kept
  | sclLd16 _ => exact execSclLd16_kept
  | sclLd32 _ => exact execSclLd32_kept
  | sclLd64 _ => exact execSclLd64_kept
  | sclSt8 _ => exact execSclSt8_kept
  | sclSt16 _ => exact execSclSt16_kept
  | sclSt32 _ => exact execSclSt32_kept
  | sclSt64 _ => exact execSclSt64_kept
  | sclRdreg _ => exact execSclRdreg_kept
  | sclWrreg _ => exact execSclWrreg_kept
  | arrMma _ => exact execArrMma_kept
  | arrEmul _ => exact execArrEmul_kept
  | arrBqpush _ => exact execArrBqpush_kept
  | arrBqrelease _ => exact execArrBqrelease_kept
  | passStart _ => exact execPassStart_kept
  | passEnd _ _ => exact execPassEnd_kept
  | retryRestart _ => exact execRetryRestart_kept
  | arrayRampDown _ => exact execArrayRampDown_kept
  | bqDeadlineShip _ => exact execBqDeadlineShip_kept
  | epilogueTile _ => exact execEpilogueTile_kept
  | vecChain _ => exact execVecChain_kept
  | vecMaskld _ => exact execVecMaskld_kept
  | vecMaskst _ => exact execVecMaskst_kept
  | vecStatclr _ => exact execVecStatclr_kept
  | vecSide _ => exact execVecSide_kept
  | vecRowclose _ => exact execVecRowclose_kept
  | dmaIssue _ => exact execDmaIssue_kept
  | dmaIssuem _ => exact execDmaIssuem_kept
  | descriptorStart _ => exact execDescriptorStart_kept
  | dmaBeat => exact execDmaBeat_kept
  | sectorPerformed _ => exact execSectorPerformed_kept
  | descriptorComplete _ => exact execDescriptorComplete_kept
  | dmaChCtrlWrite _ _ _ => exact execDmaChCtrlWrite_kept
  | msgSend _ => exact execMsgSend_kept
  | msgMsend _ => exact execMsgMsend_kept
  | msgRclose _ => exact execMsgRclose_kept
  | sendAccept => exact execSendAccept_kept
  | messageArrival _ => exact execMessageArrival_kept
  | handlerDispatch _ => exact execHandlerDispatch_kept
  | combineDelivery _ => exact execCombineDelivery_kept
  | statusEntry _ => exact execStatusEntry_kept
  | creditReturn _ => exact execCreditReturn_kept
  | synArrive _ => exact execSynArrive_kept
  | arriveTakesEffect _ => exact execArriveTakesEffect_kept
  | synWait _ => exact execSynWait_kept
  | waitComplete _ => exact execWaitComplete_kept
  | synRead _ => exact execSynRead_kept
  | synSet _ => exact execSynSet_kept
  | atmAdd _ => exact execAtmAdd_kept
  | atmMin _ => exact execAtmMin_kept
  | atmMax _ => exact execAtmMax_kept
  | atmXchg _ => exact execAtmXchg_kept
  | atmCas _ => exact execAtmCas_kept
  | portBufferDrain _ => exact execPortBufferDrain_kept
  | memoryResponse _ _ => exact execMemoryResponse_kept
  | remoteRefusal _ _ => exact execRemoteRefusal_kept
  | remoteAccess _ => exact execRemoteAccess_kept
  | remoteCounterAdd _ _ => exact execRemoteCounterAdd_kept
  | synArriveWrite _ _ _ => exact execSynArriveWrite_kept
  | synSetWrite _ _ _ => exact execSynSetWrite_kept
  | synPbufFlush _ => exact execSynPbufFlush_kept
  | itemIssue _ => exact execItemIssue_kept
  | abortSettle _ => exact execAbortSettle_kept
  | cluEnq _ _ _ => exact execCluEnq_kept
  | preempt _ _ => exact execPreempt_kept
  | preemptPoint _ => exact execPreemptPoint_kept
  | preemptSaveDone _ => exact execPreemptSaveDone_kept
  | preemptRestore _ => exact execPreemptRestore_kept
  | preemptRestoreDone _ => exact execPreemptRestoreDone_kept
  | killCmd _ _ => exact execKillCmd_kept
  | killHdl _ _ => exact execKillHdl_kept
  | flush _ _ => exact execFlush_kept
  | strOpen _ => exact execStrOpen_kept
  | strValidate _ => exact execStrValidate_kept
  | validationDone => exact execValidationDone_kept
  | strCommit _ => exact execStrCommit_kept
  | strAbort _ => exact execStrAbort_kept
  | strConfirm _ => exact execStrConfirm_kept
  | strStageData _ _ => exact execStrStageData_kept
  | strDeltaData _ _ => exact execStrDeltaData_kept
  | epochBoundary => exact execEpochBoundary_kept
  | marlRecordComplete => exact execMarlRecordComplete_kept
  | telemetryTimer => exact execTelemetryTimer_kept
  | compactionComplete => exact execCompactionComplete_kept
  | mrlSealGo _ => exact execMrlSealGo_kept
  | mrlSealRetire _ _ => exact execMrlSealRetire_kept
  | mrlReadAddr _ _ => exact execMrlReadAddr_kept
  | idleEntry => exact execIdleEntry_kept
  | napEntry => exact execNapEntry_kept
  | coreSleepEntry _ => exact execCoreSleepEntry_kept
  | coreSleepSaveDone _ => exact execCoreSleepSaveDone_kept
  | wakeTrigger _ => exact execWakeTrigger_kept
  | fastClockStable _ => exact execFastClockStable_kept
  | pwrClock => exact execPwrClock_kept
  | coreWake _ => exact execCoreWake_kept
  | pwrCtrlStayup _ _ => exact execPwrCtrlStayup_kept
  | pwrCtrlOff _ => exact execPwrCtrlOff_kept
  | throttleAssert _ => exact execThrottleAssert_kept
  | throttleDeassert => exact execThrottleDeassert_kept
  | powerFailWarning => exact execPowerFailWarning_kept
  | pfSafe => exact execPfSafe_kept
  | powerFailClear => exact execPowerFailClear_kept
  | powerLoss _ => exact execPowerLoss_kept
  | startup => exact execStartup_kept
  | coreRelease => exact execCoreRelease_kept
  | waitTo _ => exact execWaitTo_kept
  | sendTo _ => exact execSendTo_kept
  | commandTo _ => exact execCommandTo_kept
  | handlerTo _ => exact execHandlerTo_kept
  | dmaTo _ => exact execDmaTo_kept
  | clockMonitorInterval _ => exact execClockMonitorInterval_kept
  | droneClockFault => exact execDroneClockFault_kept
  | fclkChange _ => exact execFclkChange_kept
  | droopStart _ => exact execDroopStart_kept
  | droopEnd => exact execDroopEnd_kept
  | overVoltage _ => exact execOverVoltage_kept
  | tempSample _ => exact execTempSample_kept
  | scrub _ => exact execScrub_kept
  | flitCrcFail _ _ => exact execFlitCrcFail_kept
  | msgRingAdvance _ _ _ => exact execMsgRingAdvance_kept
  | msgRingAll _ _ => exact execMsgRingAll_kept
  | msgCreditData _ _ => exact execMsgCreditData_kept
  | pacingIncrease => exact execPacingIncrease_kept
  | pacingAllowance => exact execPacingAllowance_kept
  | dbgPingGo _ => exact execDbgPingGo_kept
  | probeArrival _ _ => exact execProbeArrival_kept
  | probeReply _ _ _ => exact execProbeReply_kept
  | probeTimeout => exact execProbeTimeout_kept
  | dbgSnapTake _ => exact execDbgSnapTake_kept
  | dbgSnapRelease _ => exact execDbgSnapRelease_kept
  | snapForwarded _ => exact execSnapForwarded_kept
  | snapshotCaptureDone => exact execSnapshotCaptureDone_kept
  | watchDump _ => exact execWatchDump_kept
  | registerWrite _ _ _ _ => exact execRegisterWrite_kept
  | registerRead _ _ _ => exact execRegisterRead_kept
  | traceDrain _ => exact execTraceDrain_kept
  | imageDecodedAgain _ => exact execImageDecodedAgain_kept

/-- A step keeps the straps and the soundness of the state; a command leaves the rest of the queue alone. -/
theorem step_kept {s t : State} (h : step s = .next t) : t.id = s.id ∧ t.pending = s.pending.tail ∧ (s.Sound → t.Sound) := by
  unfold step at h
  split at h
  · rename_i e
    cases h
    have k := State.tick_kept (Kept.refl s)
    exact ⟨k.id, by rw [k.pending, e]; rfl, k.sound⟩
  · rename_i c rest e
    obtain ⟨u, hu, k⟩ := (exec_kept c { s with pending := rest }).get
    rw [hu] at h
    cases h
    exact ⟨k.id, by rw [k.pending, e]; rfl, k.sound⟩

end Sys2Proof.Machine
end

