-- ==== Sys2Proof/Laws/Tick.lean ====
section
/-! SUPPORT. Laws/Tick.lean: what a drone tick changes. -/

namespace Sys2Proof.Machine

/-- Time does not begin or end a handler, nor the sleep of a core. -/
def Core.Like (x y : Core) : Prop := y.hdl.phase = x.hdl.phase ∧ y.asleep = x.asleep ∧ y.sleepSaved = x.sleepSaved

theorem Core.Like.trans {x y z : Core} (h : x.Like y) (g : y.Like z) : x.Like z := ⟨g.1.trans h.1, g.2.1.trans h.2.1, g.2.2.trans h.2.2⟩

/-- Only cores, counters, DMA channels and the memory port differ, and no core begins or ends its sleep. -/
def Timed (s t : State) : Prop :=
  (∃ cs k d p, t = { s with cores := cs, ctr := k, dma := d, port := p } ∧ p.owed = s.port.owed) ∧ ∀ c, (s.core c).Like (t.core c)

theorem Timed.refl (s : State) : Timed s s := ⟨⟨_, _, _, _, rfl, rfl⟩, fun _ => ⟨rfl, rfl, rfl⟩⟩

theorem Timed.trans {s t u : State} (h : Timed s t) (g : Timed t u) : Timed s u := by
  obtain ⟨⟨_, _, _, _, rfl, e⟩, l⟩ := h
  obtain ⟨⟨_, _, _, _, rfl, f⟩, m⟩ := g
  exact ⟨⟨_, _, _, _, rfl, f.trans e⟩, fun c => (l c).trans (m c)⟩

theorem Timed.foldl {α : Type} {f : State → α → State} (h : ∀ t x, Timed t (f t x)) (l : List α) (s : State) : Timed s (l.foldl f s) := by
  induction l generalizing s with
  | nil => exact Timed.refl s
  | cons x l ih => exact (h s x).trans (ih _)

theorem Timed.modCore (s : State) (c : Nat) (f : Core → Core) (h : (s.core c).Like (f (s.core c))) : Timed s (s.modCore c f) := by
  refine ⟨⟨_, _, _, _, rfl, rfl⟩, fun d => ?_⟩
  by_cases e : d = c
  · subst e
    rw [State.core_modCore_self]
    exact h
  · rw [State.core_modCore_ne _ _ e]
    exact ⟨rfl, rfl, rfl⟩

theorem Timed.setItem (s : State) (w : Who) (i : Item) : Timed s (s.setItem w i) := by
  unfold State.setItem State.setCtx
  refine Timed.modCore s _ _ ?_
  unfold Core.Like Core.setCtx State.ctx Core.ctx
  cases w.ctx <;> exact ⟨rfl, rfl, rfl⟩

theorem Timed.modItem (s : State) (w : Who) (f : Item → Item) : Timed s (s.modItem w f) := Timed.setItem _ _ _
theorem Timed.modJob (s : State) (c : Nat) (p : ArrJob → Bool) (f : ArrJob → ArrJob) : Timed s (s.modJob c p f) :=
  Timed.modCore _ _ _ ⟨rfl, rfl, rfl⟩
theorem Timed.modRec (s : State) (w : Who) (f : Rec → Rec) : Timed s (s.modRec w f) := Timed.setItem _ _ _
theorem Timed.modCtr (s : State) (f : Ctrs → Ctrs) : Timed s (s.modCtr f) := ⟨⟨_, _, _, _, rfl, rfl⟩, fun _ => ⟨rfl, rfl, rfl⟩⟩

theorem Timed.sampleItem (s : State) (n : Nat) (w : Who) : Timed s (s.sampleItem n w) := by
  unfold State.sampleItem
  split <;> first | exact Timed.refl s | exact Timed.modItem _ _ _

theorem Timed.waitLoad (s : State) (n c : Nat) : Timed s (s.waitLoad n c) := by
  unfold State.waitLoad
  repeat' split
  all_goals first | exact Timed.refl s | exact Timed.modItem _ _ _ | exact Timed.modJob _ _ _ _

theorem Timed.earlyLoad (s : State) (n c : Nat) : Timed s (s.earlyLoad n c) := by
  unfold State.earlyLoad
  repeat' split
  all_goals first | exact Timed.refl s | exact Timed.waitLoad _ _ _ | exact Timed.modJob _ _ _ _

theorem Timed.sampleCore (s : State) (n c : Nat) : Timed s (s.sampleCore n c) := by
  unfold State.sampleCore
  extract_lets x t u v
  have ht : Timed s t := by
    unfold t
    split
    · exact Timed.modCore _ _ _ ⟨rfl, rfl, rfl⟩
    · exact Timed.refl s
  have hu : Timed s u := by
    unfold u
    split
    · exact ht.trans (Timed.modCtr _ _)
    · exact ht
  have hv : Timed s v := by
    unfold v
    split
    · exact hu.trans (Timed.modCtr _ _)
    · exact hu
  exact (hv.trans (Timed.earlyLoad _ _ _)).trans (Timed.modCore _ _ _ ⟨rfl, rfl, rfl⟩)

theorem Timed.sample (s : State) : Timed s s.sample := by
  unfold State.sample
  split
  · exact Timed.refl s
  · exact (Timed.foldl (fun _ _ => Timed.sampleItem _ _ _) _ _).trans (Timed.foldl (fun _ _ => Timed.sampleCore _ _ _) _ _)

theorem Timed.timeAll (s : State) : Timed s s.timeAll := by
  unfold State.timeAll
  split
  · exact Timed.refl s
  · refine Timed.trans (Timed.foldl (fun t w => Timed.setItem t w ((t.item w).timed (t.ctx w).phase)) allWho s) ?_
    exact ⟨⟨_, _, _, _, rfl, rfl⟩, fun _ => ⟨rfl, rfl, rfl⟩⟩

theorem Timed.timeCore (s : State) (c : Nat) : Timed s (s.timeCore c) := by
  unfold State.timeCore
  exact Timed.modCore _ _ _ ⟨rfl, rfl, rfl⟩

theorem Timed.timeCtrs (s : State) : Timed s s.timeCtrs := by
  unfold State.timeCtrs
  extract_lets t
  have ht : Timed s t := by
    unfold t
    split
    · exact Timed.modCtr _ _
    · exact Timed.refl s
  split
  · exact ht.trans (Timed.modCtr _ _)
  · exact ht

/-- What mends the state of the correctable errors found in a tick changes: their counts. -/
theorem State.mendSoft_eq (s : State) : ∃ k x, s.mendSoft = { s with soft := [], ctr := k, tel := x } := by
  unfold State.mendSoft
  split
  · rename_i e
    rw [List.isEmpty_iff] at e
    exact ⟨s.ctr, s.tel, by rw [← e]⟩
  · exact ⟨_, _, rfl⟩

theorem State.emit_eq (s : State) (cls : Nat) (sub : SubEv) (who size : Nat) (vals : List Nat) :
    ∃ b k, s.emit cls sub who size vals = { s with dbg := b, ctr := k } := by
  unfold State.emit
  split
  · exact ⟨s.dbg, s.ctr, rfl⟩
  · extract_lets d room pre q
    split <;> exact ⟨_, _, rfl⟩

theorem State.logFault_eq (s : State) (code core : Nat) (hdl borne : Bool) (detail : Nat) :
    ∃ b k x o, s.logFault code core hdl borne detail = { s with dbg := b, ctr := k, tel := x, out := s.out ++ o } := by
  unfold State.logFault
  dsimp only
  split <;> (rw [(State.emit_eq _ _ _ _ _ _).choose_spec.choose_spec]; exact ⟨_, _, _, [.attention], rfl⟩)

/-- No field of the decoded live image holds an error that has not been found. -/
def State.imageWhole (s : State) : Prop := ∀ f, s.damage.contains (.image f) = false

/-- What the finding of damaged fields of the live image changes: the damage, and what a fault log entry changes; nothing where none is. -/
theorem State.findImage_eq (s : State) : ∃ dm b k x o, s.findImage = { s with damage := dm, dbg := b, ctr := k, tel := x, out := s.out ++ o } ∧
    (s.imageWhole → dm = s.damage ∧ b = s.dbg ∧ o = []) := by
  have key : ∀ (l : List ImgField) (t : State), (∃ dm b k x o, t = { s with damage := dm, dbg := b, ctr := k, tel := x, out := s.out ++ o }) →
      ∃ dm b k x o, l.foldl (fun (t : State) f => if t.damage.contains (.image f) then
        { t with damage := t.damage.map fun d => if d = Damage.image f then Damage.decoding f else d }.logOnly 0x0C0A 0 else t) t =
          { s with damage := dm, dbg := b, ctr := k, tel := x, out := s.out ++ o } := by
    intro l
    induction l with
    | nil => exact fun t h => h
    | cons f l ih =>
      rintro _ ⟨dm, b, k, x, o, rfl⟩
      refine ih _ ?_
      dsimp only
      split
      · obtain ⟨b', k', x', o', e⟩ := State.logFault_eq { s with
          damage := dm.map fun d => if d = Damage.image f then Damage.decoding f else d, dbg := b, ctr := k, tel := x, out := s.out ++ o } 0x0C0A 7 false false 0
        exact ⟨_, b', k', x', o ++ o', by rw [State.logOnly, e, ← List.append_assoc]⟩
      · exact ⟨_, _, _, _, _, rfl⟩
  by_cases h : s.imageWhole
  · refine ⟨s.damage, s.dbg, s.ctr, s.tel, [], ?_, fun _ => ⟨rfl, rfl, rfl⟩⟩
    have none : ∀ l : List ImgField, l.foldl (fun (t : State) f => if t.damage.contains (.image f) then
        { t with damage := t.damage.map fun d => if d = Damage.image f then Damage.decoding f else d }.logOnly 0x0C0A 0 else t) s = s := by
      intro l
      induction l with
      | nil => rfl
      | cons f l ih => rw [List.foldl_cons, if_neg (by simpa using h f)]; exact ih
    rw [State.findImage, none, List.append_nil]
  · obtain ⟨dm, b, k, x, o, e⟩ := key imgFields s ⟨_, _, _, _, [], by rw [List.append_nil]⟩
    exact ⟨dm, b, k, x, o, e, fun h' => absurd h' h⟩

/-- Additions that wait at the port change the port and what is sent, and where none waits nothing is sent. -/
theorem State.payOwed_eq (s : State) : ∃ p o, s.payOwed = { s with port := p, out := s.out ++ o } ∧ (s.port.owed = [] → o = []) := by
  have key : ∀ (l : List (TxnKind × Nat × Nat × Nat × AddKind)) (t : State), (∃ p o, t = { s with port := p, out := s.out ++ o }) →
      ∃ p o, l.foldl (fun t x => t.oweAdd x.1 x.2.1 x.2.2.1 x.2.2.2.1 x.2.2.2.2) t = { s with port := p, out := s.out ++ o } := by
    intro l
    induction l with
    | nil => exact fun t h => h
    | cons x l ih =>
      rintro _ ⟨p, o, rfl⟩
      refine ih _ ?_
      dsimp only [State.oweAdd]
      split
      · refine ⟨{ p with txns := p.txns ++ [{ id := p.nextId, addr := x.2.1, kind := x.1 }], nextId := p.nextId + 1 },
          o ++ [.counterAdd p.nextId x.2.2.1 x.2.2.2.1 x.2.2.2.2], ?_⟩
        rw [← List.append_assoc]
        rfl
      · exact ⟨_, _, rfl⟩
  by_cases h : s.port.owed = []
  · refine ⟨{ s.port with owed := [] }, [], ?_, fun _ => rfl⟩
    rw [State.payOwed, h, List.foldl_nil, List.append_nil]
  · obtain ⟨p, o, e⟩ := key s.port.owed { s with port := { s.port with owed := [] } } ⟨{ s.port with owed := [] }, [], by rw [List.append_nil]⟩
    exact ⟨p, o, e, fun h' => absurd h' h⟩

/-- A tick but for a swap: counts of cores, DMA, port and correctable errors, damaged fields of the live image found, what waited at the
port, TS, and the intervals. -/
theorem State.tick_eq {s : State} (h : s.pwr.state ≠ .off) : ∃ cs k d p x o b dm, (s.port.owed = [] → s.imageWhole → o = []) ∧
    (s.imageWhole → b = s.dbg ∧ dm = s.damage) ∧ (∀ c, (s.core c).Like (tabGet {} cs c)) ∧
    s.tick = ({ s with cores := cs, ctr := k, dma := d, port := p, soft := [], tel := x, out := s.out ++ o, dbg := b, damage := dm } :
      State).timeStamp.timeUnits.swapTick := by
  unfold State.tick
  rw [if_neg h]
  obtain ⟨⟨cs, k, d, p, e, w⟩, l⟩ := (((Timed.sample s).trans (Timed.timeAll _)).trans (Timed.timeCtrs _)).trans
    (Timed.foldl Timed.timeCore (List.range 4) _)
  dsimp only
  have l' : ∀ c, (s.core c).Like (tabGet {} cs c) := fun c => by
    have := l c
    rw [e] at this
    exact this
  rw [e]
  obtain ⟨k', x, e⟩ := State.mendSoft_eq { s with cores := cs, ctr := k, dma := d, port := p }
  rw [e]
  obtain ⟨dm, b, k2, x2, o1, e, hf⟩ := State.findImage_eq { s with cores := cs, ctr := k', dma := d, port := p, soft := [], tel := x }
  rw [e]
  obtain ⟨p', o, e, ho⟩ := State.payOwed_eq { s with
    cores := cs, ctr := k2, dma := d, port := p, soft := [], tel := x2, damage := dm, dbg := b, out := s.out ++ o1 }
  rw [e]
  exact ⟨cs, k2, d, p', x2, o1 ++ o, b, dm, fun h g => by rw [(hf g).2.2, ho (w.trans h)]; rfl, fun g => ⟨(hf g).2.1, (hf g).1⟩, l',
    by rw [List.append_assoc]⟩

end Sys2Proof.Machine
end

