-- ==== Sys2Proof/Laws/Log.lean ====
section
/-! SUPPORT. Laws/Log.lean: what a fault log entry, a trace event and the end of a register access leave unchanged, and where the command registers lie (R256, R266, R277). -/

namespace Sys2Proof.Machine

theorem regAt_enq (c : Fin 5) : regAt (0x20 + 8 * c.val) = some ⟨⟨0x0020, 8, 5, 8, .S, false, 0x3FFFFFF⟩, c.val, 0⟩ := by
  revert c; decide

theorem regAt_ctl (c : Fin 5) : regAt (0x50 + 4 * c.val) = some ⟨⟨0x0050, 4, 5, 4, .S, false, 0xF⟩, c.val, 0⟩ := by
  revert c; decide

theorem answered_cores (p : Party) (o : Nat) (q : State × Nat) : (State.answered p o q).activate.cores = q.1.cores ∧ (State.answered p o q).activate.out.getLast? = some (.regAnswer p 0 q.2) := by
  simp [State.answered]

theorem regAt_dma (c : Fin 32) : regAt (0xA000 + 4 * c.val) = some ⟨⟨0xA000, 4, 32, 4, .S, false, 1⟩, c.val, 0⟩ := by
  revert c; decide

theorem regAt_ringctrl : regAt 0x6020 = some ⟨⟨0x6020, 4, 1, 4, .S, false, 0x3FF⟩, 0, 0⟩ := by decide

theorem regAt_credit : regAt 0x6038 = some ⟨⟨0x6038, 8, 1, 8, .S, false, 0xFFFFFFFFFFFFFFFF⟩, 0, 0⟩ := by decide

theorem regAt_arr : regAt 0x8000 = some ⟨⟨0x8000, 8, 1, 8, .A, false, 0xFFFFFFFF00001FFF⟩, 0, 0⟩ := by decide

theorem regAt_set : regAt 0x8008 = some ⟨⟨0x8008, 8, 1, 8, .S, false, 0xFFFFFFFF00001FFF⟩, 0, 0⟩ := by decide

theorem regAt_pbuf : regAt 0x8020 = some ⟨⟨0x8020, 4, 1, 4, .S, false, 1⟩, 0, 0⟩ := by decide

theorem logFault_head (s : State) (code core : Nat) (h b : Bool) (d : Nat) :
    (s.logFault code core h b d).tel.log.head? = some ⟨code, core, h, b, d % 2 ^ 32, s.ts.toNat % 2 ^ 48⟩ := by
  unfold State.logFault
  dsimp only
  rw [State.emit_tel]
  split <;> simp [State.send, State.bin]

theorem logOnly_head (s : State) (code d : Nat) :
    (s.logOnly code d).tel.log.head? = some ⟨code, 7, false, false, d % 2 ^ 32, s.ts.toNat % 2 ^ 48⟩ := logFault_head ..

/-- What a trace event changes in the DBG_ block: the staging alone. -/
theorem emit_dbg (s : State) (cls : Nat) (sub : SubEv) (who size : Nat) (vals : List Nat) :
    ∃ l a b c, (s.emit cls sub who size vals).dbg = { s.dbg with staged := l, seq := a, dropped := b, dropTime := c } := by
  unfold State.emit
  dsimp only
  repeat' split
  all_goals exact ⟨_, _, _, _, rfl⟩

theorem activate_dbg (s : State) : ∃ l a b c, s.activate.dbg = { s.dbg with staged := l, seq := a, dropped := b, dropTime := c } := by
  unfold State.activate State.setPower
  split
  · exact emit_dbg ..
  · exact ⟨_, _, _, _, rfl⟩

theorem emit_linkRetry (s : State) (cls : Nat) (sub : SubEv) (who size : Nat) (vals : List Nat) :
    (s.emit cls sub who size vals).ctr.linkRetry = s.ctr.linkRetry := by
  unfold State.emit
  dsimp only
  repeat' split
  all_goals rfl

theorem logFault_linkRetry (s : State) (code core : Nat) (h b : Bool) (d : Nat) :
    (s.logFault code core h b d).ctr.linkRetry = s.ctr.linkRetry := by
  unfold State.logFault
  dsimp only
  rw [emit_linkRetry]
  split <;> rfl

theorem noteAccess_mrl (s : State) (p : Party) (o f : Nat) : (s.noteAccess p o f).mrl = s.mrl := by
  unfold State.noteAccess; repeat' first | rfl | split | simp

theorem regAt_ctrl : regAt 0x1000 = some ⟨⟨0x1000, 4, 1, 4, .R, false, 7⟩, 0, 0⟩ := by decide

theorem regAt_stage : regAt 0x1008 = some ⟨⟨0x1008, 4, 1, 4, .R, false, 0xFFFFFFFF⟩, 0, 0⟩ := by decide

theorem regAt_delta : regAt 0x1020 = some ⟨⟨0x1020, 4, 1, 4, .R, false, 0xFFFFFFFF⟩, 0, 0⟩ := by decide

theorem low32_mask (d : Word32) : d.toNat &&& (2 ^ 64 - 1 - 0xFFFFFFFF) = 0 := by
  apply Nat.eq_of_testBit_eq
  intro i
  rw [Nat.testBit_and, show (2 ^ 64 - 1 - 0xFFFFFFFF : Nat) = 0xFFFFFFFF * 2 ^ 32 by norm_num, Nat.testBit_mul_two_pow]
  by_cases hi : 32 ≤ i
  · rw [Nat.testBit_lt_two_pow (lt_of_lt_of_le d.isLt (Nat.pow_le_pow_right (by norm_num) hi))]; simp
  · simp [hi]

theorem regAt_go : regAt 0xC03C = some ⟨⟨0xC03C, 4, 1, 4, .S, false, 1⟩, 0, 0⟩ := by decide

theorem regAt_retire : regAt 0xC048 = some ⟨⟨0xC048, 4, 1, 4, .S, false, 0xFFFFFFFF⟩, 0, 0⟩ := by decide

theorem regAt_read : regAt 0xC050 = some ⟨⟨0xC050, 4, 1, 4, .S, false, 0x1FFFFF⟩, 0, 0⟩ := by decide

theorem regAt_pwrctrl : regAt 0xB004 = some ⟨⟨0xB004, 4, 1, 4, .S, false, 3⟩, 0, 0⟩ := by decide

theorem logOnly_meas (s : State) (c d : Nat) : (s.logOnly c d).tel.fclkMeas = s.tel.fclkMeas := by
  unfold State.logOnly State.logFault; dsimp only; rw [State.emit_tel]; split <;> rfl

theorem logOnly_bad (s : State) (c d : Nat) : (s.logOnly c d).tel.droneBad = s.tel.droneBad := by
  unfold State.logOnly State.logFault; dsimp only; rw [State.emit_tel]; split <;> rfl

theorem emit_missed (s : State) (a : Nat) (b : SubEv) (c d : Nat) (l : List Nat) : (s.emit a b c d l).dbg.missed = s.dbg.missed := by
  unfold State.emit
  split
  · rfl
  · dsimp only
    repeat' split
    all_goals rfl

theorem noteAccess_msg (s : State) (p : Party) (o f : Nat) : (s.noteAccess p o f).msg = s.msg := by
  unfold State.noteAccess; repeat' first | rfl | split | simp

theorem emit_snap (s : State) (a : Nat) (b : SubEv) (c d : Nat) (l : List Nat) : (s.emit a b c d l).dbg.snapState = s.dbg.snapState ∧ 
   (s.emit a b c d l).dbg.snap = s.dbg.snap ∧ (s.emit a b c d l).dbg.omitted = s.dbg.omitted ∧ (s.emit a b c d l).dbg.pingState = s.dbg.pingState := by
  unfold State.emit
  split
  · exact ⟨rfl, rfl, rfl, rfl⟩
  · dsimp only
    repeat' split
    all_goals exact ⟨rfl, rfl, rfl, rfl⟩

theorem logFault_snap (s : State) (a b : Nat) (c d : Bool) (e : Nat) : (s.logFault a b c d e).dbg.snapState = s.dbg.snapState ∧ 
   (s.logFault a b c d e).dbg.snap = s.dbg.snap ∧ (s.logFault a b c d e).dbg.omitted = s.dbg.omitted ∧ (s.logFault a b c d e).dbg.pingState = s.dbg.pingState := by
  unfold State.logFault
  dsimp only
  refine ⟨(emit_snap ..).1.trans ?_, (emit_snap ..).2.1.trans ?_, (emit_snap ..).2.2.1.trans ?_, (emit_snap ..).2.2.2.trans ?_⟩ <;> (split <;> rfl)

theorem noteAccess_ping (s : State) (p : Party) (o f : Nat) : (s.noteAccess p o f).dbg.pingState = s.dbg.pingState := by
  unfold State.noteAccess
  repeat' first | rfl | exact (logFault_snap ..).2.2.2 | split

theorem regAt_ping : regAt 0xE024 = some ⟨⟨0xE024, 4, 1, 4, .S, false, 1⟩, 0, 0⟩ := by decide

theorem regAt_snap : regAt 0xE104 = some ⟨⟨0xE104, 4, 1, 4, .S, false, 3⟩, 0, 0⟩ := by decide

@[simp] theorem credit_setCredit (s : State) (d : Nat) (c : Credit) : (s.setCredit d c).credit d = c := by simp [State.credit, State.setCredit]

theorem credit_congr {s t : State} (h : t.msg = s.msg) (d : Nat) : t.credit d = s.credit d := by unfold State.credit; rw [h]

theorem noteAccess_latches (s : State) (p : Party) (o f : Nat) : (s.noteAccess p o f).latches = s.latches := by
  unfold State.noteAccess; repeat' first | rfl | split | simp

end Sys2Proof.Machine
end

