-- ==== Sys2Proof/Laws/Instructions.lean ====
section
/-! SUPPORT. Laws/Instructions.lean: what the scalar, vector, matrix and DMA instructions do at their turn, over the shared operations (R155, R104, R133, R211). -/

namespace Sys2Proof.Machine

theorem sclRow_next {x : CtxKind} {s t u : State} {o sd sa sb : Nat} {imm : Word64} {vol : Bool} {f}
   (h : s.Issues (sclWho x) t (.scl o sd sa sb imm vol) 16) (e : f (sclWho x) ⟨sd, sa, sb, imm, vol⟩ t = some u) :
   s.row (fun s => s.scl x o f) = .next u.activate := by
  apply State.row_issue h
  simpa using e

theorem sclAlu_next {x : CtxKind} {s t : State} {o sd sa sb : Nat} {imm : Word64} {vol : Bool} {f}
   (h : s.Issues (sclWho x) t (.scl o sd sa sb imm vol) 16) : s.row (fun s => s.scl x o (aluStep f)) =
     .next ((t.modItem (sclWho x) fun i => i.setReg sd (f ((s.item (sclWho x)).reg sa) ((s.item (sclWho x)).reg sb + imm))).advance (sclWho x) 16).activate := by
  refine sclRow_next h ?_
  rw [← h.touched.item]
  rfl

theorem sclBranch_next {x : CtxKind} {s t : State} {o sd sa sb : Nat} {imm : Word64} {vol : Bool} {f}
   (h : s.Issues (sclWho x) t (.scl o sd sa sb imm vol) 16) : s.row (fun s => s.scl x o (branchStep f)) =
     .next (if 192 ≤ imm.toNat ∧ imm.toNat < 192 + (s.item (sclWho x)).hdr.codeLen ∧ imm.toNat % 16 = 0 then (t.modItem (sclWho x) fun i => { i with off := if f ((s.item (sclWho x)).reg sa) ((s.item (sclWho x)).reg sb) then imm.toNat else i.off + 16, blocked := none }).work 0 (s.item (sclWho x)).no
      else t.raise (sclWho x) 0x0702 (s.item (sclWho x)).off).activate := by
  refine sclRow_next h ?_
  unfold branchStep
  rw [← h.touched.item]
  dsimp only
  unfold Hdr.targetOk
  split <;> split <;> simp_all
  rfl

theorem sclLoad_next {x : CtxKind} {s t u : State} {k : Width} {o sd sa sb l : Nat} {imm : Word64} {vol : Bool} {bs : List Byte}
   (h : s.Issues (sclWho x) t (.scl o sd sa sb imm vol) 16)
   (hp : placeOf s.id ((s.item (sclWho x)).reg sa + imm).toNat = .own l) (ha : ((s.item (sclWho x)).reg sa + imm).toNat % widthBytes k = 0)
   (hf : t.itemFault (sclWho x) false l (widthBytes k) = 0) (hr : t.loamRead (corePort 4) l (widthBytes k) = (u, .ok bs)) :
   s.row (fun s => s.scl x o (loadStep k)) = .next ((u.modItem (sclWho x) fun i =>
        i.setReg sd (BitVec.ofNat 64 (leNat bs))).advance (sclWho x) 16).activate := by
  refine sclRow_next h ?_
  unfold loadStep
  simp only [h.touched.item, h.touched.id]
  rw [if_neg (by simpa only [not_not] using ha), hp]
  dsimp only
  rw [if_neg (by simpa only [not_not] using hf), hr]

theorem sclStore_next {x : CtxKind} {s t : State} {k : Width} {o sd sa sb l : Nat} {imm : Word64} {vol : Bool}
   (h : s.Issues (sclWho x) t (.scl o sd sa sb imm vol) 16)
   (hp : placeOf s.id ((s.item (sclWho x)).reg sa + imm).toNat = .own l) (ha : ((s.item (sclWho x)).reg sa + imm).toNat % widthBytes k = 0)
   (hf : s.itemFault (sclWho x) true l (widthBytes k) = 0) (hc : s.loam.Clean) (hs : s.Sound) :
   ∃ u, s.row (fun s => s.scl x o (storeStep k)) = .next u ∧ (u.item (sclWho x)).off = (s.item (sclWho x)).off + 16 ∧ (u.item (sclWho x)).sregs = (s.item (sclWho x)).sregs ∧
        (∀ j < widthBytes k, u.loam.cells.get (l + j) = BitVec.ofNat 8 (((s.item (sclWho x)).reg sb).toNat / 256 ^ j)) ∧
        (∀ a, a < l ∨ l + widthBytes k ≤ a → u.loam.cells.get a = s.loam.cells.get a) ∧ u.syn = s.syn ∧ u.out = s.out := by
  have e := h.clean hc
  subst e
  let bs := leBytes (widthBytes k) (((t.item (sclWho x)).reg sb).toNat % 2 ^ (8 * widthBytes k))
  have hl : bs.length = widthBytes k := leBytes_length _ _
  refine ⟨_, sclRow_next (u := (({ t with loam := { t.loam with cells := t.loam.cells.write l bs } }.noteWrote (sclWho x) l (widthBytes k)).advance (sclWho x) 16)) h ?_, ?_⟩
  · unfold storeStep
    dsimp only
    rw [if_neg (by simpa only [not_not] using ha), hp]
    dsimp only
    rw [if_neg (by simpa only [not_not] using hf), State.loamWrite_clean hc]
    rfl
  · obtain ⟨cs, hw⟩ := State.noteWrote_frame { t with loam := { t.loam with cells := t.loam.cells.write l bs } } (sclWho x) l (widthBytes k)
    obtain ⟨wr, hi⟩ := State.ctx_noteWrote { t with loam := { t.loam with cells := t.loam.cells.write l bs } } (sclWho x) l (widthBytes k)
    have hi' := congrArg Ctx.item hi
    change State.item _ _ = _ at hi'
    refine ⟨by simp [hi']; rfl, by simp [hi']; rfl, fun j hj => ?_, fun a ha => ?_, by simp [hw], by simp [hw]⟩
    all_goals have hl' : (({ t with loam := { t.loam with cells := t.loam.cells.write l bs } } : State).noteWrote (sclWho x) l (widthBytes k)).loam =
      { t.loam with cells := t.loam.cells.write l bs } := by rw [hw]
    all_goals simp only [State.activate_loam, State.advance_loam, hl']
    · rw [Mem.get_write_in _ _ _ _ hs.1 (by omega)]
      simp only [bs]
      rw [leBytes_get]
      have : ∀ n, n = ((t.item (sclWho x)).reg sb).toNat → BitVec.ofNat 8 (n % 2 ^ (8 * widthBytes k) / 256 ^ j) = BitVec.ofNat 8 (n / 256 ^ j) := by
        intro n _
        apply BitVec.eq_of_toNat_eq
        simp only [BitVec.toNat_ofNat]
        have e256 : (256 : Nat) ^ j = 2 ^ (8 * j) := by rw [Nat.pow_mul]
        rw [e256]
        have h8 : 8 * widthBytes k = 8 * j + (8 + (8 * widthBytes k - (8 * j + 8))) := by omega
        rw [h8, Nat.pow_add, Nat.mod_mul_right_div_self, Nat.mod_mod_of_dvd]
        exact ⟨2 ^ (8 * widthBytes k - (8 * j + 8)), by rw [Nat.pow_add]⟩
      exact this _ rfl
    · exact Mem.get_write_out _ _ _ _ (by omega)

theorem mem_modFirst {α : Type} (p : α → Bool) (f : α → α) (l : List α) (x : α) (h : l.find? p = some x) : f x ∈ modFirst p f l := by
  induction l with
  | nil => simp at h
  | cons a l ih =>
    unfold modFirst
    rw [List.find?_cons] at h
    split at h
    · next e => rw [if_pos e]; simp_all
    · next e => rw [if_neg (by simp [e])]; exact List.mem_cons_of_mem _ (ih h)

theorem restoreGrid_jobs (s : State) (c : Nat) (j : ArrJob) : ((s.restoreGrid c j).1.core c).jobs = (s.core c).jobs := by
  unfold State.restoreGrid
  refine foldl_keeps (P := fun q : State × Nat => (q.1.core c).jobs = (s.core c).jobs) ?_ _ _ rfl
  intro b a h
  dsimp only
  split
  · rw [(Touched.loamRead ..).core]; exact h
  · dsimp only
    rw [State.core, State.kaoWrite_cores, ← State.core, State.core_modCore_self, (Touched.loamRead ..).core]
    exact h

theorem modFirst_split {α : Type} (p : α → Bool) (f : α → α) (l r : List α) (x : α) (h : ∀ k ∈ l, p k = false) (hx : p x = true) : modFirst p f (l ++ x :: r) = l ++ f x :: r := by
  induction l with
  | nil => simp [modFirst, hx]
  | cons a l ih =>
    simp only [List.cons_append, modFirst]
    rw [if_neg (by simp [h a List.mem_cons_self]), ih (fun k hk => h k (List.mem_cons_of_mem _ hk))]

theorem suspect_ctx (s : State) (c : Nat) (l : List Nat) (w : Who) : (s.suspect c l).ctx w = s.ctx w := by
  unfold State.suspect
  refine foldl_keeps (P := fun t : State => t.ctx w = s.ctx w) ?_ _ _ rfl
  intro b a h
  have h1 := State.ctx_modCore_of (b.bin (0x0100 + 256 * c + a) 1) (c := c) (f := fun x => { x with suspect := setInsert x.suspect a }) (fun _ => ⟨rfl, rfl⟩) w
  rw [h1]
  simpa using h

theorem countRetry_core (s : State) (w : Who) (n c : Nat) : ((s.countRetry w n).core c).jobs = (s.core c).jobs ∧ ((s.countRetry w n).core c).kaolin = (s.core c).kaolin := by
  unfold State.countRetry
  split
  · exact ⟨rfl, rfl⟩
  · simp [State.modRec]

theorem countRetry_canBear (s : State) (w : Who) (n : Nat) : ((s.countRetry w n).ctx w).canBear = (s.ctx w).canBear := by
  unfold State.countRetry
  split
  · rfl
  · simp [State.modRec, Ctx.canBear]; rfl

theorem ship_bq (s : State) (q : Nat) : ((s.ship q).bqOf q).fill = [] ∧ ((s.ship q).bqOf q).shipped = (s.bqOf q).shipped ++ [(s.bqOf q).fill] ∧ ((s.ship q).bqOf q).seq = (s.bqOf q).seq + 1 ∧ (s.ship q).loam = s.loam ∧ (s.scBad (s.bqOf q).notify = false → (s.ship q).sc (s.bqOf q).notify = s.sc (s.bqOf q).notify + 1) ∧ (∀ w, ((s.ship q).item w).off = (s.item w).off) := by
  unfold State.ship
  dsimp only
  refine ⟨by simp [State.bqOf, State.setBq], by simp [State.bqOf, State.setBq], by simp [State.bqOf, State.setBq], by simp [State.setBq], fun hb => ?_, fun w => ?_⟩
  · simp only [State.sc, State.unblock_syn]
    rw [show ∀ t : State, tabGet 0 t.syn.sc (s.bqOf q).notify = t.sc (s.bqOf q).notify from fun _ => rfl]
    rw [State.sc_arriveSc]
    · simp [State.sc, State.setBq]
    · simpa [State.scBad, State.setBq] using hb
  · rw [State.unblock_off]
    simp [State.setBq]
    rfl

theorem advance_item {s t : State} {w : Who} {len : Nat} (h : t.item w = s.item w) : ((t.advance w len).activate.item w).off = (s.item w).off + len := by
  simp [State.advance, h]

theorem Touched.rmsSum (w : Who) (a : Nat) : ∀ (n t : Nat) (acc : List Fp32) (s : State), Touched s (Sys2Proof.Machine.rmsSum w a n t acc s).1 := by
  intro n
  induction n with
  | zero => intro t acc s; exact Touched.refl s
  | succ n ih =>
    intro t acc s
    unfold Sys2Proof.Machine.rmsSum
    dsimp only
    have h := Touched.itemRead s w (a + 1024 * t) 1024
    split
    · exact h
    · exact h.trans (ih ..)

theorem descIssue_next {w : Who} {s t : State} {len ch : Nat} {d : Desc} (st : Touched s t) (hf : descFault t w.core.val ch d = 0)
   (hm : t.mustWait w (d.foot t.id) = false) (hq : (s.chan ch).queue.length < 8) :
   ∃ v, descIssue w len ch d t = some v ∧ (v.activate.item w).off = (s.item w).off + len ∧ v.activate.loam = t.loam ∧ v.activate.syn = s.syn ∧
          (v.activate.chan ch).queue = (s.chan ch).queue ++ [{ no := s.dma.nextNo, desc := d, who := w, itemNo := (s.item w).no }] ∧
          (v.activate.chan ch).run = (s.chan ch).run ∧ ∀ k, k ≠ ch → v.activate.chan k = s.chan k := by
  have hc : ∀ k, t.chan k = s.chan k := State.chan_of (by rw [st.dma])
  obtain ⟨A, hA⟩ : ∃ A : State, A = (({ t with dma := { t.dma with nextNo := t.dma.nextNo + 1 } } : State).setChan ch { t.chan ch with queue := (t.chan ch).queue ++ [{ no := t.dma.nextNo, desc := d, who := w, itemNo := (t.item w).no }] }) := ⟨_, rfl⟩
  refine ⟨((A.noteHead ch).emit 3 .accept (whoByte w) 32 [ch, d.src, d.dst]).advance w len, ?_, ?_⟩
  · unfold descIssue State.acceptDesc
    simp only [hf, hm, hc]
    rw [if_neg (by simp), if_neg (by simp), if_neg (by omega)]
    rw [hA, hc]
  have hch : ∀ k, (((A.noteHead ch).emit 3 .accept (whoByte w) 32 [ch, d.src, d.dst]).advance w len).activate.chan k = A.chan k := by
    intro k
    rw [← State.noteHead_chan A ch k]
    apply State.chan_of
    simp [State.advance]
  have hA1 : A.chan ch = { t.chan ch with queue := (t.chan ch).queue ++ [{ no := t.dma.nextNo, desc := d, who := w, itemNo := (t.item w).no }] } := by rw [hA]; exact State.chan_setChan ..
  have hA2 : ∀ k, k ≠ ch → A.chan k = t.chan k := by intro k hk; rw [hA]; exact State.chan_setChan_ne _ _ hk
  have hAi : A.item w = s.item w := by rw [hA]; exact st.item w
  have hAl : A.loam = t.loam := by rw [hA]; rfl
  have hAs : A.syn = s.syn := by rw [hA]; exact st.syn
  refine ⟨by simp [State.advance, hAi], by simp [State.advance, hAl], by simp [State.advance, hAs], ?_, ?_, fun k hk => ?_⟩
  · rw [hch, hA1, hc, st.item, st.dma]
  · rw [hch, hA1, hc]
  · rw [hch, hA2 k hk, hc]

theorem mem_map_desc (l : List DescRun) (r : DescRun) (f : DescRun → DescRun) (h : r ∈ l) : f r ∈ l.map fun x => if x.no = r.no then f x else x :=
  List.mem_map.mpr ⟨r, h, by simp⟩

theorem countFails_loam (s : State) (c no : Nat) (w : Who) (i f a : Nat) : (s.countFails c no w i f a).loam = s.loam := by
  unfold State.countFails State.stopDesc
  repeat' first | rfl | (simp [State.noteStop_loam, State.modDesc]; done) | split

/-- What a byte count or pulse changes: a sound counter of the own cluster is added to, and the DMA fabric is left alone (R197). -/
theorem countTo_frame (s : State) (c : Nat) (r : DescRun) (a cl n : Nat) (k : AddKind) : (s.countTo c r a cl n k).loam = s.loam ∧
    (cl = pkgIndex s.id → s.scBad n = false → (s.countTo c r a cl n k).dma = s.dma ∧
      (s.countTo c r a cl n k).sc n = s.sc n + (match k with | .bytes n => n | .pulse => 1)) := by
  unfold State.countTo
  split
  · refine ⟨?_, fun _ h => ?_⟩
    · split
      · exact countFails_loam ..
      · cases k <;> simp
    · rw [h]
      refine ⟨by cases k <;> simp, ?_⟩
      simp only [Bool.false_eq_true, if_false, State.addSc, h]
      cases k <;> simp [State.setSc, State.sc]
  · next h =>
    refine ⟨?_, fun e => absurd e h⟩
    unfold State.oweAdd State.issueAdd State.newTxn
    split <;> simp

theorem pulse_frame (s : State) (n : Nat) : (s.pulse n).loam = s.loam ∧ (s.pulse n).dma.ch = s.dma.ch ∧ (s.pulse n).syn = s.syn ∧ (s.ev n < 255 → (s.pulse n).ev n = s.ev n + 1) ∧ (s.ev n = 255 → (s.pulse n).ev n = 255) := by
  unfold State.pulse
  dsimp only
  split
  · next h => refine ⟨by simp, by simp, by simp, fun h' => by omega, fun _ => ?_⟩
              simp [State.ev] at h ⊢; omega
  · next h => refine ⟨by simp, by simp, by simp, fun _ => ?_, fun h' => absurd h' h⟩
              simp [State.ev] at *

/-! ### What going on, and noting a write, leave -/

@[simp] theorem Item.gone_chain (i : Item) (n : Nat) : (i.gone n).chain = none := rfl
@[simp] theorem State.loam_advance (s : State) (w : Who) (len : Nat) : (s.advance w len).loam = s.loam := by simp [State.advance]
@[simp] theorem State.syn_advance (s : State) (w : Who) (len : Nat) : (s.advance w len).syn = s.syn := by simp [State.advance]
@[simp] theorem State.loam_noteWrote (s : State) (w : Who) (a n : Nat) : (s.noteWrote w a n).loam = s.loam := by
  obtain ⟨_, h⟩ := s.noteWrote_frame w a n
  rw [h]
@[simp] theorem State.syn_noteWrote (s : State) (w : Who) (a n : Nat) : (s.noteWrote w a n).syn = s.syn := by
  obtain ⟨_, h⟩ := s.noteWrote_frame w a n
  rw [h]
@[simp] theorem State.masks_noteWrote (s : State) (w : Who) (a n c : Nat) : ((s.noteWrote w a n).core c).masks = (s.core c).masks := by
  rcases s.noteWrote_eq w a n with h | h <;> rw [h]
  exact State.masks_modItem s w _ c
@[simp] theorem State.stats_noteWrote (s : State) (w : Who) (a n c : Nat) : ((s.noteWrote w a n).core c).stats = (s.core c).stats := by
  rcases s.noteWrote_eq w a n with h | h <;> rw [h]
  exact State.stats_modItem s w _ c
@[simp] theorem State.pend_noteWrote (s : State) (w : Who) (a n : Nat) : ((s.noteWrote w a n).item w).pend = (s.item w).pend := by
  obtain ⟨_, h⟩ := s.ctx_noteWrote w a n
  rw [State.item, h]
@[simp] theorem State.off_noteWrote (s : State) (w : Who) (a n : Nat) : ((s.noteWrote w a n).item w).off = (s.item w).off := by
  obtain ⟨_, h⟩ := s.ctx_noteWrote w a n
  unfold State.item
  rw [h]
  rfl

end Sys2Proof.Machine
end

