-- ==== Sys2Proof/Laws/Atomics.lean ====
section
/-! SUPPORT. Laws/Atomics.lean: entries of the port buffer, atomics on them, and how an atomic completes (R192, R202, R204). -/

namespace Sys2Proof.Machine

theorem overlay_get (t : Tab Byte) (o : Nat) (bs : List Byte) (i : Nat) :
    tabGet 0 (overlay t o bs) i = if o ≤ i ∧ i < o + bs.length then bs.getD (i - o) 0 else tabGet 0 t i := by
  have key : ∀ (l : List Byte) (k : Nat) (t : Tab Byte), tabGet 0 ((l.mapIdx fun i b => (o + (k + i), b)).foldl (fun t p => tabSet t p.1 p.2) t) i =
      if o + k ≤ i ∧ i < o + k + l.length then l.getD (i - (o + k)) 0 else tabGet 0 t i := by
    intro l
    induction l with
    | nil => intro k t; rw [if_neg (by simp)]; rfl
    | cons b l ih =>
      intro k t
      rw [List.mapIdx_cons, List.foldl_cons]
      have e : (List.mapIdx (fun i b => (o + (k + (i + 1)), b)) l) = List.mapIdx (fun i b => (o + (k + 1 + i), b)) l := by
        congr 1
        funext i b
        congr 2
        omega
      rw [e, ih (k + 1)]
      simp only [List.length_cons, Nat.add_zero]
      rcases Nat.lt_trichotomy i (o + k) with h | h | h
      · rw [if_neg (by omega), if_neg (by omega), tabGet_tabSet_ne _ _ _ (by omega)]
      · rw [if_neg (by omega), if_pos (by omega), h, tabGet_tabSet_self]
        simp
      · by_cases g : i < o + k + (l.length + 1)
        · rw [if_pos (by omega), if_pos (by omega), show i - (o + k) = i - (o + (k + 1)) + 1 by omega]
          rfl
        · rw [if_neg (by omega), if_neg (by omega), tabGet_tabSet_ne _ _ _ (by omega)]
  have := key bs 0 t
  simpa [overlay] using this

theorem mem_setInsert_self (l : List Nat) (n : Nat) : n ∈ setInsert l n := by
  induction l with
  | nil => simp [setInsert]
  | cons a l ih =>
    unfold setInsert
    split
    · simp_all
    · split <;> simp_all

/-- The entry of a sector after its entries are changed, and those of the others. -/
theorem find_entry_map (l : List PEntry) (sec k : Nat) (f : PEntry → PEntry) (hf : ∀ e, (f e).sector = e.sector ∧ (f e).out = e.out) :
    (l.map fun e => if e.sector = sec ∧ e.out.isNone then f e else e).find? (fun e => e.sector == k && e.out.isNone) =
      if k = sec then (l.find? fun e => e.sector == k && e.out.isNone).map f else l.find? fun e => e.sector == k && e.out.isNone := by
  induction l with
  | nil => split <;> rfl
  | cons a l ih =>
    rw [List.map_cons]
    by_cases h : a.sector = sec ∧ a.out.isNone = true
    · rw [if_pos h]
      obtain ⟨h1, h2⟩ := h
      by_cases hk : k = sec
      · subst hk
        rw [if_pos rfl, List.find?_cons_of_pos (by simp [hf, h1, h2]), List.find?_cons_of_pos (by simp [h1, h2])]
        rfl
      · rw [if_neg hk, List.find?_cons_of_neg (by simp [hf, h1, Ne.symm hk]), List.find?_cons_of_neg (by simp [h1, Ne.symm hk]), ih, if_neg hk]
    · rw [if_neg h]
      by_cases g : (a.sector == k && a.out.isNone) = true
      · have hk : k ≠ sec := by
          rintro rfl
          simp only [Bool.and_eq_true, beq_iff_eq] at g
          exact h g
        rw [if_neg hk, List.find?_cons_of_pos (by exact g), List.find?_cons_of_pos (by exact g)]
      · rw [List.find?_cons_of_neg (by exact g), List.find?_cons_of_neg (by exact g), ih]

/-- An atomic at the bank changes Loam, its error state and its counts alone. -/
theorem Touched.loamAtomic (s : State) (p a : Nat) (r : AtomReq) : Touched s (s.loamAtomic p a r).1 := by
  have h := Touched.loamRead s p a (atomBytes r)
  unfold State.loamAtomic
  dsimp only
  split
  · exact h
  · exact h.trans (Touched.loamWrite ..)

/-- An atomic on the entry of its sector. -/
theorem State.pbufAtomic_spec (s : State) (no pa : Nat) (r : AtomReq) {e : PEntry} (he : s.port.entry (pa / 64) = some e) :
    let old := leNat ((List.range (atomBytes r)).map fun i => tabGet 0 e.data (pa % 64 + i))
    (s.pbufAtomic no pa r).2 = old ∧
    (∃ e', (s.pbufAtomic no pa r).1.port.entry (pa / 64) = some e' ∧ e'.atomic = true ∧ no ∈ e'.writers ∧ ∀ j,
      tabGet 0 e'.data j = if pa % 64 ≤ j ∧ j < pa % 64 + atomBytes r then (leBytes (atomBytes r) (atomNew r old)).getD (j - pa % 64) 0
        else tabGet 0 e.data j) ∧
    (∀ k, k ≠ pa / 64 → (s.pbufAtomic no pa r).1.port.entry k = s.port.entry k) ∧
    ∃ b, (s.pbufAtomic no pa r).1 = { s with port := { s.port with pbuf := b } } := by
  intro old
  have h2 : (s.pbufAtomic no pa r).2 = old := by unfold State.pbufAtomic; dsimp only; rw [he]
  have hp : (s.pbufAtomic no pa r).1 = { s with port := { s.port with pbuf := s.port.pbuf.map fun e =>
      if e.sector = pa / 64 ∧ e.out.isNone then
        { e with data := overlay e.data (pa % 64) (leBytes (atomBytes r) (atomNew r old)), atomic := true, writers := setInsert e.writers no }
      else e } } := by unfold State.pbufAtomic; dsimp only; rw [he]
  have key := fun k => find_entry_map s.port.pbuf (pa / 64) k (fun e => { e with data := overlay e.data (pa % 64) (leBytes (atomBytes r) (atomNew r old)), atomic := true, writers := setInsert e.writers no }) fun e => ⟨rfl, rfl⟩
  refine ⟨h2, ⟨{ e with data := overlay e.data (pa % 64) (leBytes (atomBytes r) (atomNew r old)), atomic := true, writers := setInsert e.writers no },
    ?_, rfl, ?_, fun j => ?_⟩, fun k hk => ?_, ⟨_, hp⟩⟩
  · rw [hp]
    unfold Port.entry at he ⊢
    rw [key, if_pos rfl, he]
    rfl
  · exact mem_setInsert_self ..
  · show tabGet 0 (overlay _ _ _) j = _
    rw [overlay_get, leBytes_length]
  · rw [hp]
    unfold Port.entry
    rw [key, if_neg hk]

/-- The same by a context. -/
theorem State.pbufAtomicBy_spec (s : State) (w : Who) (pa : Nat) (r : AtomReq) {e : PEntry} (he : s.port.entry (pa / 64) = some e) :
    let old := leNat ((List.range (atomBytes r)).map fun i => tabGet 0 e.data (pa % 64 + i))
    (s.pbufAtomicBy w pa r).2 = old ∧
    (∃ e', (s.pbufAtomicBy w pa r).1.port.entry (pa / 64) = some e' ∧ e'.atomic = true ∧ (s.item w).no ∈ e'.writers ∧ ∀ j,
      tabGet 0 e'.data j = if pa % 64 ≤ j ∧ j < pa % 64 + atomBytes r then (leBytes (atomBytes r) (atomNew r old)).getD (j - pa % 64) 0
        else tabGet 0 e.data j) ∧
    (∀ k, k ≠ pa / 64 → (s.pbufAtomicBy w pa r).1.port.entry k = s.port.entry k) ∧
    ∃ p, (s.pbufAtomicBy w pa r).1 = { s with port := p } := by
  intro old
  obtain ⟨h1, h2, h3, b, h4⟩ := s.pbufAtomic_spec (s.item w).no pa r he
  have hp : ∀ k, (s.pbufAtomicBy w pa r).1.port.entry k = (s.pbufAtomic (s.item w).no pa r).1.port.entry k := by
    intro k
    unfold State.pbufAtomicBy
    dsimp only
    split <;> rfl
  refine ⟨h1, ?_, fun k hk => (hp k).trans (h3 k hk), ?_⟩
  · rw [hp]
    exact h2
  · unfold State.pbufAtomicBy
    dsimp only
    rw [h4]
    split <;> exact ⟨_, rfl⟩

/-- A fetched sector under the bytes that the buffer holds of it. -/
theorem State.pbufFill_spec (s : State) (sec : Nat) (data : List Byte) :
    (∃ e', (s.pbufFill sec data).port.entry sec = some e' ∧ ∀ j, j < 64 →
      tabGet 0 e'.data j = match s.port.entry sec with
        | some e => tabGet (data.getD j 0) e.data j
        | none => data.getD j 0) ∧
    (∀ k, k ≠ sec → (s.pbufFill sec data).port.entry k = s.port.entry k) ∧
    ∃ b, s.pbufFill sec data = { s with port := { s.port with pbuf := b } } := by
  have get : ∀ (f : Nat → Byte) (n j : Nat), j < n → tabGet 0 ((List.range n).map fun i => (i, f i)) j = f j := by
    intro f n
    have gen : ∀ (l : List Nat) (j : Nat), j ∈ l → tabGet (0 : Byte) (l.map fun i => (i, f i)) j = f j := by
      intro l
      induction l with
      | nil => intro j h; simp at h
      | cons a l ih =>
        intro j h
        rw [List.map_cons]
        by_cases e : a = j
        · subst e; simp [tabGet]
        · rw [show tabGet (0 : Byte) ((a, f a) :: l.map fun i => (i, f i)) j = tabGet 0 (l.map fun i => (i, f i)) j by simp [tabGet, e]]
          exact ih j ((List.mem_cons.mp h).resolve_left (Ne.symm e))
    exact fun j h => gen _ j (List.mem_range.mpr h)
  unfold State.pbufFill
  dsimp only
  cases he : s.port.entry sec with
  | some e =>
    dsimp only
    have key := fun k => find_entry_map s.port.pbuf sec k (fun e => { e with data := (List.range 64).map fun i => (i, tabGet (data.getD i 0) e.data i) }) fun e => ⟨rfl, rfl⟩
    refine ⟨⟨{ e with data := (List.range 64).map fun i => (i, tabGet (data.getD i 0) e.data i) }, ?_, fun j hj => get _ 64 j hj⟩, fun k hk => ?_, ⟨_, rfl⟩⟩
    · unfold Port.entry at he ⊢
      rw [key, if_pos rfl, he]
      rfl
    · unfold Port.entry
      rw [key, if_neg hk]
  | none =>
    dsimp only
    refine ⟨⟨⟨sec, (List.range 64).map fun i => (i, data.getD i 0), false, [], none⟩, ?_, fun j hj => get _ 64 j hj⟩, fun k hk => ?_, ⟨_, rfl⟩⟩
    · unfold Port.entry at he ⊢
      rw [List.find?_append, he]
      simp [tabGet]
    · unfold Port.entry
      rw [List.find?_append]
      simp [Ne.symm hk]

/-- An atomic completes: its old word goes to RET, if it has one, and its item goes on. -/
theorem State.atomDone_spec (s : State) (w : Who) (ret : Option Nat) (old : Nat) {v : State}
    (h : ret = none ∧ v = s ∨ ∃ a, ret = some a ∧ s.loamWrite (corePort w.core.val) a (leBytes 8 old) = (v, 0)) :
    (s.atomDone w ret old).loam = v.loam ∧ ((s.atomDone w ret old).item w).pend = .none ∧
    ((s.atomDone w ret old).item w).off = (s.item w).off + 32 ∧ (s.atomDone w ret old).syn = s.syn ∧ (s.atomDone w ret old).port = s.port ∧
    (s.atomDone w ret old).out = s.out := by
  rcases h with ⟨rfl, rfl⟩ | ⟨a, rfl, h⟩
  · simp [State.atomDone, State.atomReturn]
  · obtain ⟨X, hX⟩ : ∃ X, X = s.modItem w fun i => { i with pend := .none, blocked := none, off := i.off + 32 } := ⟨_, rfl⟩
    obtain ⟨cs, hN⟩ := X.noteWrote_frame w a 8
    obtain ⟨l, hl⟩ := X.ctx_noteWrote w a 8
    obtain ⟨Y, hY⟩ : ∃ Y, Y = X.noteWrote w a 8 := ⟨_, rfl⟩
    rw [← hY] at hN hl
    have Yl : Y.loam = s.loam := by rw [hN, hX]; simp
    obtain ⟨e1, e2⟩ := State.loamWrite_same Yl (corePort w.core.val) a (leBytes 8 old)
    rw [h] at e1 e2
    have tu := Touched.loamWrite Y (corePort w.core.val) a (leBytes 8 old)
    have hd : s.atomDone w (some a) old = (Y.loamWrite (corePort w.core.val) a (leBytes 8 old)).1 := by
      unfold State.atomDone State.atomReturn
      dsimp only
      rw [← hX, ← hY, if_pos e2]
    rw [hd]
    have hi : (Y.loamWrite (corePort w.core.val) a (leBytes 8 old)).1.item w = { X.item w with wrote := l } := by
      rw [tu.item]
      unfold State.item
      rw [hl]
      rfl
    refine ⟨e1, ?_, ?_, ?_, ?_, ?_⟩
    · rw [hi, hX]; simp
    · rw [hi, hX]; simp
    · rw [tu.syn, hN, hX]; simp
    · rw [tu.port, hN, hX]; simp
    · rw [tu.out, hN, hX]; simp

end Sys2Proof.Machine
end

