-- ==== Sys2Proof/Laws/Rounding.lean ====
section
/-! SUPPORT. Laws/Rounding.lean: `fl32` gives the FP32 value nearest an exact sum, the even one of two as near (R76). -/

namespace Sys2Proof.Machine

/-- `r` is a nearest multiple of `p` to `x`, the even one where two are as near. -/
def Nearest (r : Nat) (p x : ℚ) : Prop := |r * p - x| ≤ p / 2 ∧ (|r * p - x| = p / 2 → r % 2 = 0)

theorem Nearest.le {r : Nat} {p x : ℚ} (h : Nearest r p x) (hp : 0 < p) (n : Nat) :
    |r * p - x| ≤ |n * p - x| ∧ (n ≠ r → |r * p - x| = |n * p - x| → r % 2 = 0) := by
  by_cases e : n = r
  · subst e; exact ⟨le_refl _, fun q => absurd rfl q⟩
  have far : p ≤ |(n : ℚ) * p - r * p| := by
    rw [← sub_mul, abs_mul, abs_of_pos hp]
    have : (1 : ℚ) ≤ |(n : ℚ) - r| := by
      have : (1 : ℤ) ≤ |(n : ℤ) - r| := Int.one_le_abs (by omega)
      exact_mod_cast this
    nlinarith
  have tri : |(n : ℚ) * p - r * p| ≤ |n * p - x| + |r * p - x| := by
    have := abs_sub (n * p - x) (r * p - x)
    rwa [show n * p - x - (r * p - x) = n * p - r * p by ring] at this
  have := h.1
  exact ⟨by linarith, fun _ q => h.2 (by linarith)⟩

theorem rneShift_near (m s : Nat) (w : ℚ) (hw : 0 < w) : Nearest (rneShift m s) (2 ^ s * w) (m * w) := by
  cases s with
  | zero =>
    have : (0 : ℚ) < w / 2 := by linarith
    simp only [rneShift, if_true, Nearest, pow_zero, one_mul, sub_self, abs_zero]
    exact ⟨this.le, fun q => absurd q this.ne⟩
  | succ s =>
    have split : m = m / 2 ^ (s + 1) * 2 ^ (s + 1) + m % 2 ^ (s + 1) := (Nat.div_add_mod' m (2 ^ (s + 1))).symm
    have low : m % 2 ^ (s + 1) < 2 ^ (s + 1) := Nat.mod_lt _ (by positivity)
    obtain ⟨d, hd⟩ : ∃ d, d = m / 2 ^ (s + 1) := ⟨_, rfl⟩
    obtain ⟨a, ha⟩ : ∃ a, a = m % 2 ^ (s + 1) := ⟨_, rfl⟩
    rw [← hd, ← ha] at split
    rw [← ha] at low
    have hr : rneShift m (s + 1) = if 2 ^ s < a then d + 1 else if a = 2 ^ s then d + d % 2 else d := by
      unfold rneShift
      simp only [Nat.add_one_ne_zero, if_false, Nat.shiftRight_eq_div_pow, Nat.shiftLeft_eq, Nat.add_sub_cancel, one_mul]
      rw [← hd, show m - d * 2 ^ (s + 1) = a by omega]
    have hx : (m : ℚ) * w = d * (2 ^ (s + 1) * w) + a * w := by
      have : (m : ℚ) = d * 2 ^ (s + 1) + a := by exact_mod_cast split
      rw [this]; ring
    have half : (2 : ℚ) ^ (s + 1) * w / 2 = 2 ^ s * w := by rw [pow_succ]; ring
    have lowq : (a : ℚ) < 2 * 2 ^ s := by have : (a : ℚ) < 2 ^ (s + 1) := by exact_mod_cast low
                                          rwa [pow_succ, mul_comm] at this
    unfold Nearest
    rw [half, hr, hx]
    split
    · next q =>
      have q' : (2 : ℚ) ^ s < a := by exact_mod_cast q
      have e : ((d + 1 : ℕ) : ℚ) * (2 ^ (s + 1) * w) - (d * (2 ^ (s + 1) * w) + a * w) = (2 * 2 ^ s - a) * w := by push_cast; rw [pow_succ]; ring
      rw [e, abs_of_pos (by nlinarith)]
      exact ⟨by nlinarith, fun h => absurd h (by nlinarith)⟩
    · split
      · next q =>
        have q' : (a : ℚ) = 2 ^ s := by exact_mod_cast q
        refine ⟨?_, fun _ => by omega⟩
        rcases Nat.mod_two_eq_zero_or_one d with z | z <;> rw [z, q']
        · rw [show ((d + 0 : ℕ) : ℚ) * (2 ^ (s + 1) * w) - (d * (2 ^ (s + 1) * w) + 2 ^ s * w) = -(2 ^ s * w) by push_cast; ring, abs_neg, abs_of_pos (by positivity)]
        · rw [show ((d + 1 : ℕ) : ℚ) * (2 ^ (s + 1) * w) - (d * (2 ^ (s + 1) * w) + 2 ^ s * w) = 2 ^ s * w by push_cast; rw [pow_succ]; ring, abs_of_pos (by positivity)]
      · next q1 q2 =>
        have q' : (a : ℚ) < 2 ^ s := by exact_mod_cast (show a < 2 ^ s by omega)
        have a0 : (0 : ℚ) ≤ a := by positivity
        rw [show (d : ℚ) * (2 ^ (s + 1) * w) - (d * (2 ^ (s + 1) * w) + a * w) = -(a * w) by ring, abs_neg, abs_of_nonneg (by positivity)]
        exact ⟨by nlinarith, fun h => absurd h (by nlinarith)⟩

/-- `b` is the magnitude a value rounds to: a quantum and a multiple of it nearest the value. -/
def RoundsMag (b : Nat) (X : ℚ) : Prop := ∃ (k sig : Nat), b = k * 2 ^ 23 + sig ∧ sig ≤ 2 ^ 24 ∧
    Nearest sig ((2 : ℚ) ^ ((k : ℤ) - 149)) X ∧ X < 2 ^ 24 * (2 : ℚ) ^ ((k : ℤ) - 149) ∧
    (k = 0 ∨ 2 ^ 23 * (2 : ℚ) ^ ((k : ℤ) - 149) ≤ X)

/-- What `roundMag` gives for FP32. -/
theorem roundMag_near {m : Nat} (hm : m ≠ 0) (e : Int) : RoundsMag (roundMag 23 (-149) m e) (m * (2 : ℚ) ^ e) := by
  obtain ⟨q, hq⟩ : ∃ q : Int, q = max ((Nat.log2 m : Int) + e - 23) (-149) := ⟨_, rfl⟩
  obtain ⟨k, hk⟩ : ∃ k : Nat, q = (k : Int) - 149 := ⟨(q + 149).toNat, by omega⟩
  obtain ⟨sig, hs⟩ : ∃ sig, sig = if q ≤ e then m <<< (e - q).toNat else rneShift m (q - e).toNat := ⟨_, rfl⟩
  have two : ∀ z : ℤ, (0 : ℚ) < 2 ^ z := fun z => by positivity
  have up : (m : ℚ) < 2 ^ ((Nat.log2 m : ℤ) + 1) := by
    have : m < 2 ^ (Nat.log2 m + 1) := Nat.lt_log2_self
    have : (m : ℚ) < 2 ^ (Nat.log2 m + 1) := by exact_mod_cast this
    exact_mod_cast this
  have dn : (2 : ℚ) ^ (Nat.log2 m : ℤ) ≤ m := by
    have := Nat.log2_self_le hm
    exact_mod_cast this
  have hlt : (m : ℚ) * 2 ^ e < 2 ^ 24 * 2 ^ q := by
    calc (m : ℚ) * 2 ^ e < 2 ^ ((Nat.log2 m : ℤ) + 1) * 2 ^ e := by have := two e; nlinarith
      _ = 2 ^ ((Nat.log2 m : ℤ) + 1 + e) := by rw [← zpow_add₀ (by norm_num)]
      _ ≤ 2 ^ ((24 : ℤ) + q) := zpow_le_zpow_right₀ (by norm_num) (by omega)
      _ = 2 ^ 24 * 2 ^ q := by rw [zpow_add₀ (by norm_num)]; norm_num
  have near : Nearest sig ((2 : ℚ) ^ q) (m * 2 ^ e) := by
    rw [hs]
    split
    · next h =>
      have : (m <<< (e - q).toNat : ℕ) * (2 : ℚ) ^ q = m * 2 ^ e := by
        rw [Nat.shiftLeft_eq]
        push_cast
        rw [mul_assoc, ← zpow_natCast, ← zpow_add₀ (by norm_num), show (((e - q).toNat : ℕ) : ℤ) + q = e by omega]
      unfold Nearest
      rw [this, sub_self, abs_zero]
      have := two q
      exact ⟨by linarith, fun h => absurd h (by linarith)⟩
    · next h =>
      have := rneShift_near m (q - e).toNat ((2 : ℚ) ^ e) (two e)
      rwa [← zpow_natCast, ← zpow_add₀ (by norm_num), show (((q - e).toNat : ℕ) : ℤ) + e = q by omega] at this
  refine ⟨k, sig, ?_, ?_, hk ▸ near, hk ▸ hlt, ?_⟩
  · unfold roundMag
    rw [if_neg hm]
    dsimp only
    rw [show max ((Nat.log2 m : Int) + e - (23 : ℕ)) (-149) = q by rw [hq]; rfl, ← hs, show (q - -149).toNat = k by omega]
  · by_contra h
    have h1 : (2 ^ 24 + 1 : ℚ) ≤ sig := by exact_mod_cast (show 2 ^ 24 + 1 ≤ sig by omega)
    have := (abs_le.mp near.1).2
    have := two q
    nlinarith
  · by_cases h : k = 0
    · exact .inl h
    · right
      rw [← hk]
      calc (2 : ℚ) ^ 23 * 2 ^ q = 2 ^ ((23 : ℤ) + q) := by rw [zpow_add₀ (by norm_num)]; norm_num
        _ = 2 ^ (Nat.log2 m : ℤ) * 2 ^ e := by rw [← zpow_add₀ (by norm_num)]; congr 1; omega
        _ ≤ m * 2 ^ e := by have := two e; nlinarith

/-- The value of the magnitude bits of a finite FP32 number. -/
def f32Mag (b : Nat) : ℚ :=
  if b / 2 ^ 23 = 0 then (b % 2 ^ 23 : ℕ) * (2 : ℚ) ^ (-149 : ℤ) else (2 ^ 23 + b % 2 ^ 23 : ℕ) * (2 : ℚ) ^ ((b / 2 ^ 23 : ℕ) - 150 : ℤ)

theorem f32Mag_nonneg (b : Nat) : 0 ≤ f32Mag b := by unfold f32Mag; split <;> positivity

theorem f32Mag_zero : f32Mag 0 = 0 := by simp [f32Mag]

theorem f32Mag_sig {k sig : Nat} (h1 : sig ≤ 2 ^ 24) (h2 : k = 0 ∨ 2 ^ 23 ≤ sig) : f32Mag (k * 2 ^ 23 + sig) = sig * (2 : ℚ) ^ ((k : ℤ) - 149) := by
  unfold f32Mag
  rcases Nat.lt_or_ge sig (2 ^ 23) with h | h
  · obtain rfl : k = 0 := by omega
    rw [if_pos (by omega), show (0 * 2 ^ 23 + sig) % 2 ^ 23 = sig by omega]
    norm_num
  · rcases Nat.lt_or_ge sig (2 ^ 24) with g | g
    · rw [if_neg (by omega), show 2 ^ 23 + (k * 2 ^ 23 + sig) % 2 ^ 23 = sig by omega, show (k * 2 ^ 23 + sig) / 2 ^ 23 = k + 1 by omega]
      congr 2
      push_cast
      ring
    · obtain rfl : sig = 2 ^ 24 := by omega
      rw [if_neg (by omega), show 2 ^ 23 + (k * 2 ^ 23 + 2 ^ 24) % 2 ^ 23 = 2 ^ 23 by omega, show (k * 2 ^ 23 + 2 ^ 24) / 2 ^ 23 = k + 2 by omega,
        show (((k + 2 : ℕ) : ℤ) - 150) = (k : ℤ) - 149 + 1 by push_cast; ring, zpow_add₀ (by norm_num)]
      push_cast
      ring

/-- Every magnitude is a multiple of a quantum, or under its least normal multiple. -/
theorem f32Mag_cases (b k : Nat) : (∃ n : Nat, f32Mag b = n * (2 : ℚ) ^ ((k : ℤ) - 149)) ∨ (k ≠ 0 ∧ f32Mag b < 2 ^ 23 * (2 : ℚ) ^ ((k : ℤ) - 149)) := by
  obtain ⟨j, sig, hs, e⟩ : ∃ j sig : Nat, sig < 2 ^ 24 ∧ f32Mag b = sig * (2 : ℚ) ^ ((j : ℤ) - 149) := by
    by_cases h : b / 2 ^ 23 = 0
    · refine ⟨0, b % 2 ^ 23, by omega, ?_⟩
      unfold f32Mag
      rw [if_pos h]
      norm_num
    · refine ⟨b / 2 ^ 23 - 1, 2 ^ 23 + b % 2 ^ 23, by omega, ?_⟩
      unfold f32Mag
      rw [if_neg h, show ((b / 2 ^ 23 - 1 : ℕ) : ℤ) - 149 = ((b / 2 ^ 23 : ℕ) : ℤ) - 150 by omega]
  rcases Nat.lt_or_ge j k with h | h
  · refine .inr ⟨by omega, ?_⟩
    have s : (sig : ℚ) < 2 ^ 24 := by exact_mod_cast hs
    have p : (0 : ℚ) < 2 ^ ((j : ℤ) - 149) := by positivity
    calc f32Mag b < 2 ^ 24 * (2 : ℚ) ^ ((j : ℤ) - 149) := by rw [e]; nlinarith
      _ = 2 ^ 23 * (2 : ℚ) ^ ((j : ℤ) - 149 + 1) := by rw [zpow_add₀ (by norm_num)]; norm_num; ring
      _ ≤ 2 ^ 23 * (2 : ℚ) ^ ((k : ℤ) - 149) := by
        have := zpow_le_zpow_right₀ (show (1 : ℚ) ≤ 2 by norm_num) (show (j : ℤ) - 149 + 1 ≤ (k : ℤ) - 149 by omega)
        linarith
  · refine .inl ⟨sig * 2 ^ (j - k), ?_⟩
    rw [e]
    push_cast
    rw [mul_assoc, ← zpow_natCast, ← zpow_add₀ (by norm_num), show ((j - k : ℕ) : ℤ) + ((k : ℤ) - 149) = (j : ℤ) - 149 by omega]

/-- That magnitude is the nearest, the even one of two as near. -/
theorem RoundsMag.nearest {r : Nat} {X : ℚ} (h : RoundsMag r X) (b : Nat) :
    |f32Mag r - X| ≤ |f32Mag b - X| ∧ (f32Mag b ≠ f32Mag r → |f32Mag r - X| = |f32Mag b - X| → r % 2 = 0) := by
  obtain ⟨k, sig, hr, h1, near, hlt, hk⟩ := h
  have p : (0 : ℚ) < 2 ^ ((k : ℤ) - 149) := by positivity
  have h2 : k = 0 ∨ 2 ^ 23 ≤ sig := by
    refine hk.imp id fun h => ?_
    by_contra g
    have : (sig : ℚ) + 1 ≤ 2 ^ 23 := by exact_mod_cast (show sig + 1 ≤ 2 ^ 23 by omega)
    have := (abs_le.mp near.1).1
    nlinarith
  rw [hr, f32Mag_sig h1 h2]
  rcases f32Mag_cases b k with ⟨n, hn⟩ | ⟨hk0, hn⟩
  · rw [hn]
    obtain ⟨a, c⟩ := near.le p n
    refine ⟨a, fun q g => ?_⟩
    have := c (fun z => q (by rw [z])) g
    omega
  · have hk := hk.resolve_left hk0
    have a := (near.le p (2 ^ 23)).1
    push_cast at a
    rw [abs_of_nonpos (show (8388608 : ℚ) * 2 ^ ((k : ℤ) - 149) - X ≤ 0 by linarith)] at a
    rw [abs_of_nonpos (show f32Mag b - X ≤ 0 by linarith)]
    exact ⟨by linarith, fun _ g => by linarith⟩

theorem RoundsMag.over {r : Nat} {X : ℚ} (h : RoundsMag r X) :
    (X < 2 ^ 128 - 2 ^ 103 → r < 0x7F800000) ∧ (2 ^ 128 - 2 ^ 103 ≤ X → 0x7F800000 ≤ r) := by
  obtain ⟨k, sig, hr, h1, near, hlt, hk⟩ := h
  have p : (0 : ℚ) < 2 ^ ((k : ℤ) - 149) := by positivity
  obtain ⟨n1, n2⟩ := abs_le.mp near.1
  have at253 : k = 253 → (2 : ℚ) ^ ((k : ℤ) - 149) = 2 ^ 104 := fun h => by rw [h]; norm_num
  constructor
  · intro h
    have k1 : k ≤ 253 := by
      by_contra g
      have hk := hk.resolve_left (by omega)
      have := zpow_le_zpow_right₀ (show (1 : ℚ) ≤ 2 by norm_num) (show (105 : ℤ) ≤ (k : ℤ) - 149 by omega)
      have : (2 : ℚ) ^ (105 : ℤ) = 2 ^ 105 := by norm_num
      linarith
    rw [hr]
    rcases Nat.lt_or_ge k 253 with g | g
    · omega
    · have hp := at253 (by omega)
      rw [hp] at n1 n2
      have : (sig : ℚ) < 2 ^ 24 := by linarith
      have : sig < 2 ^ 24 := by exact_mod_cast this
      omega
  · intro h
    have k1 : 253 ≤ k := by
      by_contra g
      have := zpow_le_zpow_right₀ (show (1 : ℚ) ≤ 2 by norm_num) (show (k : ℤ) - 149 ≤ 103 by omega)
      have : (2 : ℚ) ^ (103 : ℤ) = 2 ^ 103 := by norm_num
      linarith
    rw [hr]
    have hk := hk.resolve_left (by omega)
    have s : 2 ^ 23 ≤ sig := by
      by_contra g
      have : (sig : ℚ) + 1 ≤ 2 ^ 23 := by exact_mod_cast (show sig + 1 ≤ 2 ^ 23 by omega)
      nlinarith
    rcases Nat.lt_or_ge 253 k with g | g
    · omega
    · have hp := at253 (by omega)
      rw [hp] at n1 n2
      by_contra q
      have h3 : sig ≤ 2 ^ 24 - 1 := by omega
      have h4 : (sig : ℚ) ≤ 2 ^ 24 - 1 := by
        have : (sig : ℚ) + 1 ≤ 2 ^ 24 := by exact_mod_cast (show sig + 1 ≤ 2 ^ 24 by omega)
        linarith
      have h5 : (sig : ℚ) = 2 ^ 24 - 1 := by linarith
      have h6 : sig + 1 = 2 ^ 24 := by
        have : (sig : ℚ) + 1 = 2 ^ 24 := by linarith
        exact_mod_cast this
      have := near.2 (by rw [hp, h5, abs_of_nonpos (by linarith)]; linarith)
      omega

/-! ### Signed values -/

/-- The value of a finite FP32 number. -/
def f32Val (y : Fp32) : ℚ := (if y.toNat < 2 ^ 31 then 1 else -1) * f32Mag (y.toNat % 2 ^ 31)

/-- A word of a sign and a magnitude. -/
theorem f32Val_word {b : Nat} (hb : b < 2 ^ 31) (s : Bool) :
    (BitVec.ofNat 32 (b + if s then 0x80000000 else 0)).toNat = b + (if s then 2 ^ 31 else 0) ∧
    f32Val (BitVec.ofNat 32 (b + if s then 0x80000000 else 0)) = (if s then -1 else 1) * f32Mag b := by
  have e : (BitVec.ofNat 32 (b + if s then 0x80000000 else 0)).toNat = b + (if s then 2 ^ 31 else 0) := by
    rw [BitVec.toNat_ofNat]
    cases s <;> simp only [Bool.false_eq_true, if_false, if_true] <;> omega
  refine ⟨e, ?_⟩
  unfold f32Val
  rw [e]
  cases s
  · simp only [Bool.false_eq_true, if_false, Nat.add_zero]
    rw [if_pos hb, Nat.mod_eq_of_lt hb]
  · simp only [if_true]
    rw [if_neg (by omega), show (b + 2 ^ 31) % 2 ^ 31 = b by omega]

/-- A word of a sign and the magnitude a value rounds to: the nearest finite value, the even one of two as near, with the sign of the
value; infinite beyond. -/
theorem RoundsMag.word {b : Nat} {X : ℚ} (hR : RoundsMag b X) (X0 : 0 < X) (s : Bool) {r : Fp32} {x : ℚ}
    (hr : r = BitVec.ofNat 32 (min b 0x7F800000 + if s then 0x80000000 else 0)) (hx : x = (if s then -1 else 1) * X) :
    (|x| < 2 ^ 128 - 2 ^ 103 → r.toNat / 2 ^ 23 % 256 ≠ 255 ∧ ∀ y : Fp32,
      |f32Val r - x| ≤ |f32Val y - x| ∧ (f32Val y ≠ f32Val r → |f32Val r - x| = |f32Val y - x| → r.toNat % 2 = 0)) ∧
    (2 ^ 128 - 2 ^ 103 ≤ x → r = 0x7F800000#32) ∧ (x ≤ -(2 ^ 128 - 2 ^ 103) → r = 0xFF800000#32) ∧
    (0 < x → r.toNat < 2 ^ 31) ∧ (x < 0 → 2 ^ 31 ≤ r.toNat) := by
  have ax : |x| = X := by rw [hx]; cases s <;> simp [abs_of_pos X0]
  obtain ⟨o1, o2⟩ := hR.over
  obtain ⟨w1, w2⟩ := f32Val_word (b := min b 0x7F800000) (by omega) s
  rw [← hr] at w1 w2
  refine ⟨fun h => ?_, fun h => ?_, fun h => ?_, fun h => ?_, fun h => ?_⟩
  · rw [ax] at h
    have hlt := o1 h
    rw [Nat.min_eq_left (by omega)] at w1 w2
    refine ⟨by rw [w1]; cases s <;> simp only [Bool.false_eq_true, if_false, if_true] <;> omega, fun y => ?_⟩
    have even : b % 2 = 0 → r.toNat % 2 = 0 := by rw [w1]; cases s <;> simp only [Bool.false_eq_true, if_false, if_true] <;> omega
    have flip : ∀ a : ℚ, |(if s then -1 else 1) * a - x| = |a - X| := by
      intro a
      rw [hx, ← mul_sub, abs_mul]
      cases s <;> simp
    rw [w2, flip]
    have vy : f32Val y = (if decide (2 ^ 31 ≤ y.toNat) then -1 else 1) * f32Mag (y.toNat % 2 ^ 31) := by
      unfold f32Val
      rcases Nat.lt_or_ge y.toNat (2 ^ 31) with h | h
      · rw [if_pos h, if_neg (by simpa using Nat.not_le.mpr h)]
      · rw [if_neg (Nat.not_lt.mpr h), if_pos (by simpa using h)]
    by_cases hy : decide (2 ^ 31 ≤ y.toNat) = s
    · rw [hy] at vy
      rw [vy, flip]
      obtain ⟨a, c⟩ := hR.nearest (y.toNat % 2 ^ 31)
      exact ⟨a, fun q g => even (c (fun z => q (by rw [z])) g)⟩
    · replace vy : f32Val y = -((if s then -1 else 1) * f32Mag (y.toNat % 2 ^ 31)) := by
        rw [vy]
        generalize decide (2 ^ 31 ≤ y.toNat) = g at hy
        cases g <;> cases s <;> simp at hy ⊢
      have g0 := f32Mag_nonneg (y.toNat % 2 ^ 31)
      have e2 : |f32Val y - x| = f32Mag (y.toNat % 2 ^ 31) + X := by
        rw [vy, ← mul_neg, flip, abs_of_nonpos (by linarith)]
        ring
      rw [e2]
      obtain ⟨a, c⟩ := hR.nearest 0
      rw [f32Mag_zero, zero_sub, abs_neg, abs_of_pos X0] at a c
      refine ⟨by linarith, fun q g => even (c (fun z => ?_) (by linarith))⟩
      refine q ?_
      have : f32Mag (y.toNat % 2 ^ 31) = 0 := by linarith
      rw [vy, ← z, this]
      simp
  · have s0 : s = false := by
      cases s with
      | false => rfl
      | true => simp only [if_true] at hx; have : (0 : ℚ) < 2 ^ 128 - 2 ^ 103 := by norm_num
                linarith
    subst s0
    have := o2 (by rw [← ax, abs_of_nonneg (le_trans (by norm_num) h)]; exact h)
    rw [hr, Nat.min_eq_right this]
    rfl
  · have s1 : s = true := by
      cases s with
      | true => rfl
      | false => simp only [Bool.false_eq_true, if_false] at hx; have : (0 : ℚ) < 2 ^ 128 - 2 ^ 103 := by norm_num
                 linarith
    subst s1
    have := o2 (by simp only [if_true] at hx; linarith)
    rw [hr, Nat.min_eq_right this]
    rfl
  · have s0 : s = false := by
      cases s with
      | false => rfl
      | true => simp only [if_true] at hx; linarith
    rw [w1, s0]
    simp only [Bool.false_eq_true, if_false]
    omega
  · have s1 : s = true := by
      cases s with
      | true => rfl
      | false => simp only [Bool.false_eq_true, if_false] at hx; linarith
    rw [w1, s1]
    simp

/-- `fl32` of a signed significand: the nearest finite value, the even one of two as near, with the sign of the sum; infinite beyond. -/
theorem fl32Int_near (m : Int) (e : Int) :
    let r := fl32Int false m e
    let x : ℚ := m * (2 : ℚ) ^ e
    (|x| < 2 ^ 128 - 2 ^ 103 → r.toNat / 2 ^ 23 % 256 ≠ 255 ∧ ∀ y : Fp32,
      |f32Val r - x| ≤ |f32Val y - x| ∧ (f32Val y ≠ f32Val r → |f32Val r - x| = |f32Val y - x| → r.toNat % 2 = 0)) ∧
    (2 ^ 128 - 2 ^ 103 ≤ x → r = 0x7F800000#32) ∧ (x ≤ -(2 ^ 128 - 2 ^ 103) → r = 0xFF800000#32) ∧
    (x = 0 → r = 0#32) ∧ (0 < x → r.toNat < 2 ^ 31) ∧ (x < 0 → 2 ^ 31 ≤ r.toNat) := by
  intro r x
  have two : (0 : ℚ) < 2 ^ e := by positivity
  by_cases hm : m = 0
  · have hr : r = 0#32 := by simp only [r, fl32Int, hm, if_true, fl32, roundMag]; rfl
    have hx : x = 0 := by simp [x, hm]
    have hv : f32Val 0#32 = 0 := by simp [f32Val, f32Mag]
    rw [hr, hx]
    refine ⟨fun _ => ⟨by decide, fun y => ⟨?_, fun _ _ => rfl⟩⟩, fun h => by norm_num at h, fun h => by norm_num at h, fun _ => rfl, fun h => absurd h (lt_irrefl _),
      fun h => absurd h (lt_irrefl _)⟩
    rw [hv, sub_self, abs_zero]
    exact abs_nonneg _
  obtain ⟨s, hs⟩ : ∃ s, s = decide (m < 0) := ⟨_, rfl⟩
  obtain ⟨b, hb⟩ : ∃ b, b = roundMag 23 (-149) m.natAbs e := ⟨_, rfl⟩
  obtain ⟨X, hX⟩ : ∃ X : ℚ, X = m.natAbs * (2 : ℚ) ^ e := ⟨_, rfl⟩
  have hn : m.natAbs ≠ 0 := by omega
  have X0 : 0 < X := by
    have : (0 : ℚ) < m.natAbs := by exact_mod_cast (show 0 < m.natAbs by omega)
    rw [hX]; positivity
  have hx : x = (if s then -1 else 1) * X := by
    rw [hX, hs]
    show (m : ℚ) * _ = _
    by_cases h : m < 0
    · have : (m : ℚ) = -(m.natAbs : ℚ) := by exact_mod_cast (show m = -(m.natAbs : ℤ) by omega)
      rw [this]; simp [h]
    · have : (m : ℚ) = ((m.natAbs : ℤ) : ℚ) := congrArg _ (show m = (m.natAbs : ℤ) by omega)
      rw [this]; simp [h]
  have hr : r = BitVec.ofNat 32 (min b 0x7F800000 + if s then 0x80000000 else 0) := by
    simp only [r, fl32Int, if_neg hm, fl32, ← hs, ← hb]
  obtain ⟨a1, a2, a3, a4, a5⟩ := RoundsMag.word (hb ▸ hX ▸ roundMag_near hn e) X0 s hr hx
  refine ⟨a1, a2, a3, fun h => ?_, a4, a5⟩
  rw [hx] at h
  cases s <;> simp at h <;> linarith

/-- The parts of a finite pattern give its value. -/
theorem ext32_finite {y : Fp32} (h : y.toNat / 2 ^ 23 % 256 ≠ 255) :
    ∃ s m e, ext32 y = .fin s m e ∧ (sgn s m : ℚ) * (2 : ℚ) ^ e = f32Val y := by
  have bit : y.toNat.testBit 31 = decide (2 ^ 31 ≤ y.toNat) := by
    rw [Nat.testBit_eq_decide_div_mod_eq]
    have := y.isLt
    congr 1
    apply propext
    omega
  have sign : ∀ (m : Nat) (g : ℚ), ((sgn (decide (2 ^ 31 ≤ y.toNat)) m : ℤ) : ℚ) * g = (if y.toNat < 2 ^ 31 then 1 else -1) * (m * g) := by
    intro m g
    unfold sgn
    rcases Nat.lt_or_ge y.toNat (2 ^ 31) with q | q
    · rw [if_pos q, if_neg (by simpa using Nat.not_le.mpr q)]
      push_cast
      ring
    · rw [if_neg (Nat.not_lt.mpr q), if_pos (by simpa using q)]
      push_cast
      ring
  unfold ext32 extOf
  simp only [Nat.shiftRight_eq_div_pow, bit, Nat.reduceAdd]
  rw [if_neg (by norm_num; omega)]
  split
  · next q =>
    refine ⟨_, _, _, rfl, ?_⟩
    rw [sign]
    unfold f32Val f32Mag
    norm_num at q
    rw [if_pos (show y.toNat % 2 ^ 31 / 2 ^ 23 = 0 by omega), show y.toNat % 2 ^ 31 % 2 ^ 23 = y.toNat % 2 ^ 23 by omega]
    norm_num
  · next q =>
    refine ⟨_, _, _, rfl, ?_⟩
    rw [sign]
    unfold f32Val f32Mag
    norm_num at q
    rw [if_neg (show ¬ y.toNat % 2 ^ 31 / 2 ^ 23 = 0 by omega), show y.toNat % 2 ^ 31 % 2 ^ 23 = y.toNat % 2 ^ 23 by omega,
      show y.toNat % 2 ^ 31 / 2 ^ 23 = y.toNat / 2 ^ 23 % 2 ^ 8 by omega]
    congr 3
    norm_num
    ring

/-- The exact sum is exact. -/
theorem exactSum_val (m1 e1 m2 e2 : Int) :
    ((exactSum m1 e1 m2 e2).1 : ℚ) * (2 : ℚ) ^ (exactSum m1 e1 m2 e2).2 = m1 * (2 : ℚ) ^ e1 + m2 * (2 : ℚ) ^ e2 := by
  unfold exactSum
  dsimp only
  push_cast
  rw [add_mul, mul_assoc, mul_assoc, ← zpow_natCast, ← zpow_natCast, ← zpow_add₀ (by norm_num), ← zpow_add₀ (by norm_num)]
  congr 3 <;> omega

end Sys2Proof.Machine
end

