-- ==== Sys2Proof/Laws/Convert.lean ====
section
/-! SUPPORT. Laws/Convert.lean: rounding to an integer and to a small binary format gives the nearest value (R73, R79, R80). -/

namespace Sys2Proof.Machine

/-! ### Integers -/

/-- `rneInt` gives a nearest integer, the even one of two as near. -/
theorem rneInt_near (n k : Int) :
    |(rneInt n k : ℚ) - n * (2 : ℚ) ^ k| ≤ 1 / 2 ∧ (|(rneInt n k : ℚ) - n * (2 : ℚ) ^ k| = 1 / 2 → rneInt n k % 2 = 0) := by
  unfold rneInt
  split
  · next h =>
    have : ((n * 2 ^ k.toNat : ℤ) : ℚ) = n * (2 : ℚ) ^ k := by
      push_cast
      rw [← zpow_natCast, show ((k.toNat : ℕ) : ℤ) = k by omega]
    rw [this, sub_self, abs_zero]
    norm_num
  · next h =>
    obtain ⟨s, hs⟩ : ∃ s : Nat, k = -(s : ℤ) := ⟨(-k).toNat, by omega⟩
    subst hs
    have hp : (0 : ℚ) < 2 ^ s := by positivity
    have near := rneShift_near n.natAbs s ((2 ^ s)⁻¹) (by positivity)
    rw [mul_inv_cancel₀ hp.ne'] at near
    rw [show (- -(s : ℤ)).toNat = s by omega]
    have hz : (2 : ℚ) ^ (-(s : ℤ)) = (2 ^ s)⁻¹ := by rw [zpow_neg, zpow_natCast]
    rw [hz]
    unfold Nearest at near
    rw [mul_one] at near
    dsimp only
    split
    · next g =>
      have hn : (n : ℚ) = -(n.natAbs : ℚ) := by exact_mod_cast (show n = -(n.natAbs : ℤ) by omega)
      have e : |((-(rneShift n.natAbs s : ℤ) : ℤ) : ℚ) - n * (2 ^ s)⁻¹| = |(rneShift n.natAbs s : ℚ) - n.natAbs * (2 ^ s)⁻¹| := by
        rw [hn, ← abs_neg]
        congr 1
        push_cast
        ring
      rw [e]
      exact ⟨near.1, fun q => by have := near.2 q; omega⟩
    · next g =>
      have hn : (n : ℚ) = (n.natAbs : ℚ) := congrArg (fun z : ℤ => (z : ℚ)) (show n = (n.natAbs : ℤ) by omega)
      rw [hn]
      exact ⟨by exact_mod_cast near.1, fun q => by have := near.2 (by exact_mod_cast q); omega⟩

/-- The integer of a finite value: the nearest one, brought into the range, and whether it lay outside. -/
theorem fpToInt_finite {a : Fp32} (h : a.toNat / 2 ^ 23 % 256 ≠ 255) {lo hi : Int} (hr : lo ≤ hi) :
    ∃ n : Int, |(n : ℚ) - f32Val a| ≤ 1 / 2 ∧ (|(n : ℚ) - f32Val a| = 1 / 2 → n % 2 = 0) ∧
      fpToInt lo hi a = (max lo (min hi n), decide (n < lo ∨ hi < n)) := by
  obtain ⟨s, m, e, he, hv⟩ := ext32_finite h
  obtain ⟨n1, n2⟩ := rneInt_near (sgn s m) e
  rw [hv] at n1 n2
  refine ⟨_, n1, n2, ?_⟩
  unfold fpToInt
  rw [he]
  dsimp only
  split
  · rw [show max lo (min hi (rneInt (sgn s m) e)) = lo by omega]; simp [*]
  · split
    · rw [show max lo (min hi (rneInt (sgn s m) e)) = hi by omega]; simp [*]
    · rw [show max lo (min hi (rneInt (sgn s m) e)) = rneInt (sgn s m) e by omega]
      simp only [Prod.mk.injEq, true_and]
      symm
      simp only [decide_eq_false_iff_not, not_or]
      omega

/-! ### Small binary formats -/

/-- The value of magnitude bits `b` in a format of `mb` fraction bits and least quantum 2^emin. -/
def magVal (mb : Nat) (emin : Int) (b : Nat) : ℚ :=
  if b / 2 ^ mb = 0 then (b % 2 ^ mb : ℕ) * (2 : ℚ) ^ emin else (2 ^ mb + b % 2 ^ mb : ℕ) * (2 : ℚ) ^ ((b / 2 ^ mb : ℕ) - 1 + emin : ℤ)

/-- A multiple of a quantum as magnitude bits. -/
theorem magVal_sig {mb k sig : Nat} {emin : Int} (h1 : sig ≤ 2 ^ (mb + 1)) (h2 : k = 0 ∨ 2 ^ mb ≤ sig) :
    magVal mb emin (k * 2 ^ mb + sig) = sig * (2 : ℚ) ^ ((k : ℤ) + emin) := by
  have hp : 0 < 2 ^ mb := by positivity
  have hd : ∀ j r : Nat, r < 2 ^ mb → (j * 2 ^ mb + r) / 2 ^ mb = j ∧ (j * 2 ^ mb + r) % 2 ^ mb = r := by
    intro j r hr
    rw [Nat.add_comm, Nat.add_mul_div_right _ _ hp, Nat.add_mul_mod_self_right, Nat.div_eq_of_lt hr, Nat.mod_eq_of_lt hr]
    exact ⟨by omega, rfl⟩
  unfold magVal
  rcases Nat.lt_or_ge sig (2 ^ mb) with h | h
  · obtain rfl : k = 0 := by omega
    obtain ⟨d1, d2⟩ := hd 0 sig h
    rw [d1, d2, if_pos rfl]
    simp
  · rcases Nat.lt_or_ge sig (2 ^ (mb + 1)) with g | g
    · have g' : sig - 2 ^ mb < 2 ^ mb := by rw [pow_succ] at g; omega
      obtain ⟨d1, d2⟩ := hd (k + 1) (sig - 2 ^ mb) g'
      rw [show k * 2 ^ mb + sig = (k + 1) * 2 ^ mb + (sig - 2 ^ mb) by rw [Nat.add_mul]; omega, d1, d2, if_neg (by omega),
        show 2 ^ mb + (sig - 2 ^ mb) = sig by omega]
      congr 2
      push_cast
      ring
    · obtain rfl : sig = 2 ^ (mb + 1) := by omega
      obtain ⟨d1, d2⟩ := hd (k + 2) 0 hp
      rw [show k * 2 ^ mb + 2 ^ (mb + 1) = (k + 2) * 2 ^ mb + 0 by rw [Nat.add_mul, pow_succ]; omega, d1, d2, if_neg (by omega),
        show (((k + 2 : ℕ) : ℤ) - 1 + emin) = ((k : ℤ) + emin) + 1 by push_cast; ring, zpow_add₀ (by norm_num)]
      push_cast
      rw [pow_succ]
      ring

/-- Magnitude bits are a multiple of a quantum, or less than its least normal multiple. -/
theorem magVal_cases (mb b k : Nat) (emin : Int) : (∃ n : Nat, magVal mb emin b = n * (2 : ℚ) ^ ((k : ℤ) + emin)) ∨
    (k ≠ 0 ∧ magVal mb emin b < 2 ^ mb * (2 : ℚ) ^ ((k : ℤ) + emin)) := by
  have hp : 0 < 2 ^ mb := by positivity
  obtain ⟨j, sig, hs, e⟩ : ∃ j sig : Nat, sig < 2 ^ (mb + 1) ∧ magVal mb emin b = sig * (2 : ℚ) ^ ((j : ℤ) + emin) := by
    have := Nat.mod_lt b hp
    by_cases h : b / 2 ^ mb = 0
    · refine ⟨0, b % 2 ^ mb, by rw [pow_succ]; omega, ?_⟩
      unfold magVal
      rw [if_pos h]
      norm_num
    · refine ⟨b / 2 ^ mb - 1, 2 ^ mb + b % 2 ^ mb, by rw [pow_succ]; omega, ?_⟩
      unfold magVal
      rw [if_neg h, show ((b / 2 ^ mb - 1 : ℕ) : ℤ) + emin = ((b / 2 ^ mb : ℕ) : ℤ) - 1 + emin by
        rw [Nat.cast_sub (Nat.one_le_iff_ne_zero.mpr h)]; push_cast; ring]
  rcases Nat.lt_or_ge j k with h | h
  · refine .inr ⟨by omega, ?_⟩
    have s : (sig : ℚ) < 2 ^ (mb + 1) := by exact_mod_cast hs
    have p : (0 : ℚ) < 2 ^ ((j : ℤ) + emin) := by positivity
    have pm : (0 : ℚ) < 2 ^ mb := by positivity
    calc magVal mb emin b < 2 ^ (mb + 1) * (2 : ℚ) ^ ((j : ℤ) + emin) := by rw [e]; nlinarith
      _ = 2 ^ mb * (2 : ℚ) ^ ((j : ℤ) + emin + 1) := by rw [zpow_add₀ (by norm_num : (2 : ℚ) ≠ 0) _ 1, zpow_one, pow_succ]; ring
      _ ≤ 2 ^ mb * (2 : ℚ) ^ ((k : ℤ) + emin) :=
        mul_le_mul_of_nonneg_left (zpow_le_zpow_right₀ (by norm_num) (by omega)) pm.le
  · refine .inl ⟨sig * 2 ^ (j - k), ?_⟩
    rw [e]
    push_cast
    rw [mul_assoc, ← zpow_natCast, ← zpow_add₀ (by norm_num), show ((j - k : ℕ) : ℤ) + ((k : ℤ) + emin) = (j : ℤ) + emin by omega]

/-- What `roundMag` gives: a quantum and a multiple of it nearest the value. -/
theorem roundMag_parts (mb : Nat) (emin : Int) {m : Nat} (hm : m ≠ 0) (e : Int) : ∃ (k sig : Nat), roundMag mb emin m e = k * 2 ^ mb + sig ∧
    sig ≤ 2 ^ (mb + 1) ∧ Nearest sig ((2 : ℚ) ^ ((k : ℤ) + emin)) (m * (2 : ℚ) ^ e) ∧
    (k = 0 ∨ 2 ^ mb * (2 : ℚ) ^ ((k : ℤ) + emin) ≤ m * (2 : ℚ) ^ e) := by
  obtain ⟨q, hq⟩ : ∃ q : Int, q = max ((Nat.log2 m : Int) + e - mb) emin := ⟨_, rfl⟩
  obtain ⟨k, hk⟩ : ∃ k : Nat, q = (k : Int) + emin := ⟨(q - emin).toNat, by omega⟩
  obtain ⟨sig, hs⟩ : ∃ sig, sig = if q ≤ e then m <<< (e - q).toNat else rneShift m (q - e).toNat := ⟨_, rfl⟩
  have two : ∀ z : ℤ, (0 : ℚ) < 2 ^ z := fun z => by positivity
  have up : (m : ℚ) < 2 ^ ((Nat.log2 m : ℤ) + 1) := by
    have : m < 2 ^ (Nat.log2 m + 1) := Nat.lt_log2_self
    have : (m : ℚ) < 2 ^ (Nat.log2 m + 1) := by exact_mod_cast this
    exact_mod_cast this
  have dn : (2 : ℚ) ^ (Nat.log2 m : ℤ) ≤ m := by
    have := Nat.log2_self_le hm
    exact_mod_cast this
  have hlt : (m : ℚ) * 2 ^ e < 2 ^ (mb + 1) * 2 ^ q := by
    calc (m : ℚ) * 2 ^ e < 2 ^ ((Nat.log2 m : ℤ) + 1) * 2 ^ e := mul_lt_mul_of_pos_right up (two e)
      _ = 2 ^ ((Nat.log2 m : ℤ) + 1 + e) := by rw [← zpow_add₀ (by norm_num)]
      _ ≤ 2 ^ (((mb + 1 : ℕ) : ℤ) + q) := zpow_le_zpow_right₀ (by norm_num) (by omega)
      _ = 2 ^ (mb + 1) * 2 ^ q := by rw [zpow_add₀ (by norm_num), zpow_natCast]
  have near : Nearest sig ((2 : ℚ) ^ q) (m * 2 ^ e) := by
    rw [hs]
    split
    · next h =>
      have : (m <<< (e - q).toNat : ℕ) * (2 : ℚ) ^ q = m * 2 ^ e := by
        rw [Nat.shiftLeft_eq]
        push_cast
        rw [mul_assoc, ← zpow_natCast, ← zpow_add₀ (by norm_num), show (((e - q).toNat : ℕ) : ℤ) + q = e by omega]
      unfold Nearest
      rw [this, sub_self, abs_zero]
      have := two q
      exact ⟨by linarith, fun h => absurd h (by linarith)⟩
    · next h =>
      have := rneShift_near m (q - e).toNat ((2 : ℚ) ^ e) (two e)
      rwa [← zpow_natCast, ← zpow_add₀ (by norm_num), show (((q - e).toNat : ℕ) : ℤ) + e = q by omega] at this
  refine ⟨k, sig, ?_, ?_, hk ▸ near, ?_⟩
  · unfold roundMag
    rw [if_neg hm]
    dsimp only
    rw [← hq, ← hs, show (q - emin).toNat = k by omega]
  · by_contra h
    have h1 : (2 ^ (mb + 1) + 1 : ℚ) ≤ sig := by exact_mod_cast (show 2 ^ (mb + 1) + 1 ≤ sig by omega)
    have := (abs_le.mp near.1).2
    have := two q
    nlinarith
  · by_cases h : k = 0
    · exact .inl h
    · right
      rw [← hk]
      calc (2 : ℚ) ^ mb * 2 ^ q = 2 ^ ((mb : ℤ) + q) := by rw [zpow_add₀ (by norm_num), zpow_natCast]
        _ = 2 ^ (Nat.log2 m : ℤ) * 2 ^ e := by rw [← zpow_add₀ (by norm_num)]; congr 1; omega
        _ ≤ m * 2 ^ e := mul_le_mul_of_nonneg_right dn (two e).le

theorem magVal_zero (mb : Nat) (emin : Int) : magVal mb emin 0 = 0 := by simp [magVal]

/-- The magnitude that `roundMag` gives is the nearest of all, the even one of two as near. -/
theorem roundMag_nearest_of {mb : Nat} (h0 : 0 < mb) (emin : Int) (m : Nat) (e : Int) (b : Nat) :
    |magVal mb emin (roundMag mb emin m e) - m * (2 : ℚ) ^ e| ≤ |magVal mb emin b - m * (2 : ℚ) ^ e| ∧
    (magVal mb emin b ≠ magVal mb emin (roundMag mb emin m e) →
      |magVal mb emin (roundMag mb emin m e) - m * (2 : ℚ) ^ e| = |magVal mb emin b - m * (2 : ℚ) ^ e| → roundMag mb emin m e % 2 = 0) := by
  by_cases hm : m = 0
  · subst hm
    have : roundMag mb emin 0 e = 0 := by simp [roundMag]
    rw [this, magVal_zero]
    simp
  obtain ⟨k, sig, hr, h1, near, hk⟩ := roundMag_parts mb emin hm e
  have p : (0 : ℚ) < 2 ^ ((k : ℤ) + emin) := by positivity
  have h2 : k = 0 ∨ 2 ^ mb ≤ sig := by
    refine hk.imp id fun h => ?_
    by_contra g
    have : (sig : ℚ) + 1 ≤ 2 ^ mb := by exact_mod_cast (show sig + 1 ≤ 2 ^ mb by omega)
    have := (abs_le.mp near.1).1
    nlinarith
  have even : sig % 2 = 0 → (k * 2 ^ mb + sig) % 2 = 0 := by
    intro z
    obtain ⟨mb', rfl⟩ : ∃ mb', mb = mb' + 1 := ⟨mb - 1, by omega⟩
    rw [pow_succ, ← mul_assoc]
    omega
  rw [hr, magVal_sig h1 h2]
  rcases magVal_cases mb b k emin with ⟨n, hn⟩ | ⟨hk0, hn⟩
  · rw [hn]
    obtain ⟨a, c⟩ := near.le p n
    exact ⟨a, fun q g => even (c (fun z => q (by rw [z])) g)⟩
  · have hk := hk.resolve_left hk0
    have a := (near.le p (2 ^ mb)).1
    push_cast at a
    rw [abs_of_nonpos (show (2 : ℚ) ^ mb * 2 ^ ((k : ℤ) + emin) - m * 2 ^ e ≤ 0 by linarith)] at a
    rw [abs_of_nonpos (show magVal mb emin b - m * (2 : ℚ) ^ e ≤ 0 by linarith)]
    exact ⟨by linarith, fun _ g => by linarith⟩

/-- Larger magnitude bits have a larger value. -/
theorem magVal_lt (mb : Nat) (emin : Int) {a b : Nat} (h : a < b) : magVal mb emin a < magVal mb emin b := by
  have step : ∀ b, magVal mb emin b < magVal mb emin (b + 1) := by
    intro b
    have hp : 0 < 2 ^ mb := by positivity
    obtain ⟨k, sig, e, h1, h2⟩ : ∃ k sig : Nat, b = k * 2 ^ mb + sig ∧ sig < 2 ^ (mb + 1) ∧ (k = 0 ∨ 2 ^ mb ≤ sig) := by
      have := Nat.mod_lt b hp
      have hd := Nat.div_add_mod' b (2 ^ mb)
      by_cases h : b / 2 ^ mb = 0
      · exact ⟨0, b % 2 ^ mb, by rw [h] at hd; omega, by rw [pow_succ]; omega, .inl rfl⟩
      · refine ⟨b / 2 ^ mb - 1, 2 ^ mb + b % 2 ^ mb, ?_, by rw [pow_succ]; omega, .inr (by omega)⟩
        have : (b / 2 ^ mb - 1 + 1) * 2 ^ mb = b / 2 ^ mb * 2 ^ mb := by rw [Nat.sub_add_cancel (Nat.one_le_iff_ne_zero.mpr h)]
        rw [Nat.add_mul] at this
        omega
    have p : (0 : ℚ) < 2 ^ ((k : ℤ) + emin) := by positivity
    rw [e, Nat.add_assoc, magVal_sig h1.le h2, magVal_sig (by omega) (h2.imp id (by omega))]
    push_cast
    nlinarith
  induction b with
  | zero => omega
  | succ b ih =>
    rcases Nat.lt_or_ge a b with g | g
    · exact lt_trans (ih g) (step b)
    · obtain rfl : a = b := by omega
      exact step a

/-- Under a largest magnitude the nearest value is that largest one, where the nearest of all lies beyond it. -/
theorem roundMag_capped {mb : Nat} (h0 : 0 < mb) (emin : Int) (m : Nat) (e : Int) (hi b : Nat) (hb : b ≤ hi) :
    let c := min (roundMag mb emin m e) hi
    |magVal mb emin c - m * (2 : ℚ) ^ e| ≤ |magVal mb emin b - m * (2 : ℚ) ^ e| ∧
    (b ≠ c → |magVal mb emin c - m * (2 : ℚ) ^ e| = |magVal mb emin b - m * (2 : ℚ) ^ e| → c % 2 = 0) := by
  intro c
  have ne : ∀ x y : Nat, x ≠ y → magVal mb emin x ≠ magVal mb emin y := by
    intro x y h
    rcases Nat.lt_or_gt_of_ne h with g | g
    · exact (magVal_lt mb emin g).ne
    · exact (magVal_lt mb emin g).ne'
  rcases Nat.lt_or_ge hi (roundMag mb emin m e) with g | g
  · have hc : c = hi := Nat.min_eq_right g.le
    have lt := magVal_lt mb emin g
    obtain ⟨n, _⟩ := roundMag_nearest_of h0 emin m e hi
    have hx : magVal mb emin hi ≤ m * (2 : ℚ) ^ e := by
      by_contra q
      push Not at q
      rw [abs_of_pos (by linarith), abs_of_pos (by linarith)] at n
      linarith
    rw [hc, abs_of_nonpos (by linarith)]
    rcases Nat.lt_or_ge b hi with z | z
    · have := magVal_lt mb emin z
      rw [abs_of_nonpos (by linarith)]
      exact ⟨by linarith, fun _ h => by linarith⟩
    · obtain rfl : b = hi := by omega
      rw [abs_of_nonpos (by linarith)]
      exact ⟨le_refl _, fun h => absurd rfl h⟩
  · have hc : c = roundMag mb emin m e := Nat.min_eq_left g
    obtain ⟨n1, n2⟩ := roundMag_nearest_of h0 emin m e b
    rw [hc]
    exact ⟨n1, fun h => n2 (ne _ _ h)⟩

end Sys2Proof.Machine
end

