-- ==== Sys2Proof/Laws/Stages.lean ====
section
/-! SUPPORT. Laws/Stages.lean: what the operations of a chain's stages give (R112, R113, R116 to R118). -/

namespace Sys2Proof.Machine

/-- `r` is the FP32 value nearest `x`, the even one of two as near, infinite from 2^128 - 2^103 on, and with the sign of `x` (R76). -/
def Rounds (x : ℚ) (r : Fp32) : Prop :=
  (|x| < 2 ^ 128 - 2 ^ 103 → r.toNat / 2 ^ 23 % 256 ≠ 255 ∧ ∀ y : Fp32,
    |f32Val r - x| ≤ |f32Val y - x| ∧ (f32Val y ≠ f32Val r → |f32Val r - x| = |f32Val y - x| → r.toNat % 2 = 0)) ∧
  (2 ^ 128 - 2 ^ 103 ≤ x → r = 0x7F800000#32) ∧ (x ≤ -(2 ^ 128 - 2 ^ 103) → r = 0xFF800000#32) ∧
  (0 < x → r.toNat < 2 ^ 31) ∧ (x < 0 → 2 ^ 31 ≤ r.toNat)

/-- Zero of a sign. -/
def zeroF (n : Bool) : Fp32 := if n then 0x80000000#32 else 0#32

theorem f32Val_zeroF (n : Bool) : f32Val (zeroF n) = 0 := by cases n <;> simp [zeroF, f32Val, f32Mag]

theorem zeroF_bits (n : Bool) : (zeroF n).toNat / 2 ^ 23 % 256 ≠ 255 ∧ (zeroF n).toNat % 2 = 0 := by
  have : (zeroF n).toNat = if n then 2147483648 else 0 := by cases n <;> rfl
  rw [this]
  cases n <;> simp

/-- The least sum that rounds to infinity is positive. -/
theorem over_pos : (0 : ℚ) < 2 ^ 128 - 2 ^ 103 := by norm_num

theorem near_zero {z : Fp32} (hz : f32Val z = 0) (h : z.toNat % 2 = 0) (y : Fp32) :
    |f32Val z - 0| ≤ |f32Val y - 0| ∧ (f32Val y ≠ f32Val z → |f32Val z - 0| = |f32Val y - 0| → z.toNat % 2 = 0) := by
  rw [hz, sub_self, abs_zero]
  exact ⟨abs_nonneg _, fun _ _ => h⟩

theorem zero_under {p : Prop} (h : (2 : ℚ) ^ 128 - 2 ^ 103 ≤ 0) : p := absurd h (not_le.mpr over_pos)

theorem zero_over {p : Prop} (h : (0 : ℚ) ≤ -(2 ^ 128 - 2 ^ 103)) : p := absurd h (not_le.mpr (neg_neg_of_pos over_pos))

theorem Rounds.of_zero {z : Fp32} (hz : f32Val z = 0) (h1 : z.toNat / 2 ^ 23 % 256 ≠ 255) (h2 : z.toNat % 2 = 0) : Rounds 0 z :=
  ⟨fun _ => ⟨h1, near_zero hz h2⟩, zero_under, zero_over, fun h => absurd h (lt_irrefl _), fun h => absurd h (lt_irrefl _)⟩

theorem Rounds.zero (n : Bool) : Rounds 0 (zeroF n) := Rounds.of_zero (f32Val_zeroF n) (zeroF_bits n).1 (zeroF_bits n).2

theorem fl32_zero (n : Bool) (e : Int) : fl32 n 0 e = zeroF n := by
  simp only [fl32, roundMag, if_true, Nat.zero_min, Nat.zero_add]
  cases n <;> rfl

theorem fl32Int_rounds (z : Bool) (m e : Int) : Rounds (m * (2 : ℚ) ^ e) (fl32Int z m e) ∧ (m = 0 → fl32Int z m e = zeroF z) := by
  by_cases h : m = 0
  · subst h
    have : fl32Int z 0 e = zeroF z := by unfold fl32Int; rw [if_pos rfl, fl32_zero]
    rw [this]
    simpa using Rounds.zero z
  · have : fl32Int z m e = fl32Int false m e := by unfold fl32Int; rw [if_neg h, if_neg h]
    rw [this]
    obtain ⟨n1, n2, n3, _, n5, n6⟩ := fl32Int_near m e
    exact ⟨⟨n1, n2, n3, n5, n6⟩, fun g => absurd g h⟩

theorem fl32_rounds (s : Bool) (m : Nat) (e : Int) : Rounds (sgn s m * (2 : ℚ) ^ e) (fl32 s m e) := by
  by_cases h : m = 0
  · subst h
    rw [fl32_zero]
    have : sgn s 0 = 0 := by cases s <;> rfl
    rw [this]
    simpa using Rounds.zero s
  · have e1 : fl32 s m e = fl32Int false (sgn s m) e := by
      unfold fl32Int
      have : sgn s m ≠ 0 := by unfold sgn; split <;> omega
      rw [if_neg this]
      congr 1
      · cases s
        · simp [sgn]
        · simp [sgn]; omega
      · unfold sgn; split <;> omega
    rw [e1]
    exact (fl32Int_rounds false _ e).1

/-- The parts of a finite pattern: its sign, and a significand that is zero in the two zeros only. -/
theorem ext32_parts {y : Fp32} (h : y.toNat / 2 ^ 23 % 256 ≠ 255) :
    ∃ m e, ext32 y = .fin (decide (2 ^ 31 ≤ y.toNat)) m e ∧ (sgn (decide (2 ^ 31 ≤ y.toNat)) m : ℚ) * (2 : ℚ) ^ e = f32Val y ∧
      (m = 0 ↔ y.toNat % 2 ^ 31 = 0) ∧ -149 ≤ e := by
  obtain ⟨s, m, e, h1, h2⟩ := ext32_finite h
  have hs : s = decide (2 ^ 31 ≤ y.toNat) ∧ (m = 0 ↔ y.toNat % 2 ^ 31 = 0) ∧ -149 ≤ e := by
    have bit : y.toNat.testBit 31 = decide (2 ^ 31 ≤ y.toNat) := by
      rw [Nat.testBit_eq_decide_div_mod_eq]
      have := y.isLt
      congr 1
      apply propext
      omega
    unfold ext32 extOf at h1
    simp only [Nat.shiftRight_eq_div_pow, Nat.reduceAdd] at h1
    rw [bit, if_neg (by norm_num; omega)] at h1
    split at h1
    · next q =>
      cases h1
      norm_num at q
      exact ⟨rfl, by omega, by norm_num⟩
    · next q =>
      cases h1
      norm_num at q
      refine ⟨rfl, by norm_num; omega, by norm_num; omega⟩
  exact ⟨m, e, hs.1 ▸ h1, hs.1 ▸ h2, hs.2⟩

theorem isNaN_finite {y : Fp32} (h : y.toNat / 2 ^ 23 % 256 ≠ 255) : isNaN y = false := by
  obtain ⟨m, e, h1, _⟩ := ext32_parts h
  simp [isNaN, h1]

theorem zeroF_eq {y : Fp32} (h : y.toNat % 2 ^ 31 = 0) : y = zeroF (decide (2 ^ 31 ≤ y.toNat)) := by
  apply BitVec.eq_of_toNat_eq
  have := y.isLt
  unfold zeroF
  by_cases g : 2 ^ 31 ≤ y.toNat
  · simp only [g, decide_true, if_true]
    show y.toNat = 0x80000000
    omega
  · simp only [g, decide_false, Bool.false_eq_true, if_false]
    show y.toNat = 0
    omega

/-- The sum of two parts. -/
theorem addExt_fin (s1 s2 : Bool) (m1 m2 : Nat) (e1 e2 : Int) :
    let x : ℚ := sgn s1 m1 * (2 : ℚ) ^ e1 + sgn s2 m2 * (2 : ℚ) ^ e2
    Rounds x (addExt (.fin s1 m1 e1) (.fin s2 m2 e2)) ∧
    (x = 0 → addExt (.fin s1 m1 e1) (.fin s2 m2 e2) = zeroF (s1 && s2 && m1 == 0 && m2 == 0)) := by
  intro x
  obtain ⟨r1, r2⟩ := fl32Int_rounds (s1 && s2 && m1 == 0 && m2 == 0) (exactSum (sgn s1 m1) e1 (sgn s2 m2) e2).1 (exactSum (sgn s1 m1) e1 (sgn s2 m2) e2).2
  rw [exactSum_val] at r1
  refine ⟨r1, fun h => r2 ?_⟩
  have hv := exactSum_val (sgn s1 m1) e1 (sgn s2 m2) e2
  rw [show (sgn s1 m1 : ℚ) * 2 ^ e1 + sgn s2 m2 * 2 ^ e2 = 0 from h] at hv
  have two : (0 : ℚ) < 2 ^ (exactSum (sgn s1 m1) e1 (sgn s2 m2) e2).2 := by positivity
  have := (mul_eq_zero.mp hv).resolve_right two.ne'
  exact_mod_cast this

/-- A sum with an exact zero is +0 unless both addends are -0. -/
theorem zeroF_both {a b : Fp32} {m1 m2 : Nat} (h1 : m1 = 0 ↔ a.toNat % 2 ^ 31 = 0) (h2 : m2 = 0 ↔ b.toNat % 2 ^ 31 = 0) :
    zeroF (decide (2 ^ 31 ≤ a.toNat) && decide (2 ^ 31 ≤ b.toNat) && m1 == 0 && m2 == 0) =
      if a = 0x80000000#32 ∧ b = 0x80000000#32 then 0x80000000#32 else 0#32 := by
  have ha := a.isLt
  have hb := b.isLt
  have ea : a = 0x80000000#32 ↔ 2 ^ 31 ≤ a.toNat ∧ m1 = 0 := by
    rw [h1]
    constructor
    · rintro rfl; decide
    · intro ⟨g1, g2⟩; apply BitVec.eq_of_toNat_eq; show a.toNat = 0x80000000; omega
  have eb : b = 0x80000000#32 ↔ 2 ^ 31 ≤ b.toNat ∧ m2 = 0 := by
    rw [h2]
    constructor
    · rintro rfl; decide
    · intro ⟨g1, g2⟩; apply BitVec.eq_of_toNat_eq; show b.toNat = 0x80000000; omega
  unfold zeroF
  congr 1
  apply propext
  rw [ea, eb]
  simp only [Bool.and_eq_true, decide_eq_true_eq, beq_iff_eq]
  tauto

theorem fAdd_finite {a b : Fp32} (ha : a.toNat / 2 ^ 23 % 256 ≠ 255) (hb : b.toNat / 2 ^ 23 % 256 ≠ 255) :
    Rounds (f32Val a + f32Val b) (fAdd a b) ∧
    (f32Val a + f32Val b = 0 → fAdd a b = if a = 0x80000000#32 ∧ b = 0x80000000#32 then 0x80000000#32 else 0#32) := by
  obtain ⟨m1, e1, p1, v1, z1, _⟩ := ext32_parts ha
  obtain ⟨m2, e2, p2, v2, z2, _⟩ := ext32_parts hb
  obtain ⟨r1, r2⟩ := addExt_fin (decide (2 ^ 31 ≤ a.toNat)) (decide (2 ^ 31 ≤ b.toNat)) m1 m2 e1 e2
  rw [v1, v2] at r1 r2
  unfold fAdd
  rw [p1, p2]
  exact ⟨r1, fun h => (r2 h).trans (zeroF_both z1 z2)⟩

theorem sgn_not (s : Bool) (m : Nat) : sgn (!s) m = -sgn s m := by cases s <;> simp [sgn]

theorem fSub_finite {a b : Fp32} (ha : a.toNat / 2 ^ 23 % 256 ≠ 255) (hb : b.toNat / 2 ^ 23 % 256 ≠ 255) :
    Rounds (f32Val a - f32Val b) (fSub a b) ∧
    (f32Val a - f32Val b = 0 → fSub a b = if a = 0x80000000#32 ∧ b = 0#32 then 0x80000000#32 else 0#32) := by
  obtain ⟨m1, e1, p1, v1, z1, _⟩ := ext32_parts ha
  obtain ⟨m2, e2, p2, v2, z2, _⟩ := ext32_parts hb
  obtain ⟨r1, r2⟩ := addExt_fin (decide (2 ^ 31 ≤ a.toNat)) (!decide (2 ^ 31 ≤ b.toNat)) m1 m2 e1 e2
  have hx : (sgn (decide (2 ^ 31 ≤ a.toNat)) m1 : ℚ) * 2 ^ e1 + sgn (!decide (2 ^ 31 ≤ b.toNat)) m2 * 2 ^ e2 = f32Val a - f32Val b := by
    rw [sgn_not, ← v1, ← v2]; push_cast; ring
  rw [hx] at r1 r2
  unfold fSub
  rw [p1, p2]
  refine ⟨r1, fun h => (r2 h).trans ?_⟩
  have la := a.isLt
  have lb := b.isLt
  have ea : a = 0x80000000#32 ↔ 2 ^ 31 ≤ a.toNat ∧ m1 = 0 := by
    rw [z1]
    constructor
    · rintro rfl; decide
    · intro ⟨g1, g2⟩; apply BitVec.eq_of_toNat_eq; show a.toNat = 0x80000000; omega
  have eb : b = 0#32 ↔ ¬ 2 ^ 31 ≤ b.toNat ∧ m2 = 0 := by
    rw [z2]
    constructor
    · rintro rfl; decide
    · intro ⟨g1, g2⟩; apply BitVec.eq_of_toNat_eq; show b.toNat = 0; omega
  unfold zeroF
  congr 1
  apply propext
  rw [ea, eb]
  simp only [Bool.and_eq_true, decide_eq_true_eq, beq_iff_eq, Bool.not_eq_true', decide_eq_false_iff_not]
  tauto

theorem sgn_mul (s1 s2 : Bool) (m1 m2 : Nat) : sgn (s1 != s2) (m1 * m2) = sgn s1 m1 * sgn s2 m2 := by
  cases s1 <;> cases s2 <;> simp [sgn]

/-- The exact product. -/
theorem mulExt_val (s1 s2 : Bool) (m1 m2 : Nat) (e1 e2 : Int) :
    (sgn (s1 != s2) (m1 * m2) : ℚ) * (2 : ℚ) ^ (e1 + e2) = (sgn s1 m1 * (2 : ℚ) ^ e1) * (sgn s2 m2 * (2 : ℚ) ^ e2) := by
  rw [sgn_mul, zpow_add₀ (by norm_num)]
  push_cast
  ring

theorem f32Val_zero_iff {a : Fp32} (ha : a.toNat / 2 ^ 23 % 256 ≠ 255) : f32Val a = 0 ↔ a.toNat % 2 ^ 31 = 0 := by
  obtain ⟨m, e, _, v, z, _⟩ := ext32_parts ha
  rw [← v, ← z, mul_eq_zero]
  have two : (2 : ℚ) ^ e ≠ 0 := by positivity
  constructor
  · intro h
    have := h.resolve_right two
    have : sgn (decide (2 ^ 31 ≤ a.toNat)) m = 0 := by exact_mod_cast this
    unfold sgn at this
    split at this <;> omega
  · intro h
    subst h
    left
    cases decide (2 ^ 31 ≤ a.toNat) <;> simp [sgn]

theorem fMul_finite {a b : Fp32} (ha : a.toNat / 2 ^ 23 % 256 ≠ 255) (hb : b.toNat / 2 ^ 23 % 256 ≠ 255) :
    Rounds (f32Val a * f32Val b) (fMul a b) ∧
    (f32Val a * f32Val b = 0 → fMul a b = if (2 ^ 31 ≤ a.toNat) = (2 ^ 31 ≤ b.toNat) then 0#32 else 0x80000000#32) := by
  obtain ⟨m1, e1, p1, v1, z1, _⟩ := ext32_parts ha
  obtain ⟨m2, e2, p2, v2, z2, _⟩ := ext32_parts hb
  have r := fl32_rounds (decide (2 ^ 31 ≤ a.toNat) != decide (2 ^ 31 ≤ b.toNat)) (m1 * m2) (e1 + e2)
  rw [mulExt_val, v1, v2] at r
  unfold fMul
  rw [p1, p2]
  refine ⟨r, fun h => ?_⟩
  have hm : m1 * m2 = 0 := by
    rcases mul_eq_zero.mp h with h | h
    · rw [z1.mpr ((f32Val_zero_iff ha).mp h), Nat.zero_mul]
    · rw [z2.mpr ((f32Val_zero_iff hb).mp h), Nat.mul_zero]
  show fl32 _ (m1 * m2) _ = _
  rw [hm, fl32_zero]
  unfold zeroF
  by_cases g1 : 2 ^ 31 ≤ a.toNat <;> by_cases g2 : 2 ^ 31 ≤ b.toNat <;> simp

theorem fFma_finite {a b c : Fp32} (ha : a.toNat / 2 ^ 23 % 256 ≠ 255) (hb : b.toNat / 2 ^ 23 % 256 ≠ 255) (hc : c.toNat / 2 ^ 23 % 256 ≠ 255) :
    Rounds (f32Val a * f32Val b + f32Val c) (fFma a b c) ∧
    (f32Val a * f32Val b + f32Val c = 0 → fFma a b c =
      if f32Val a * f32Val b = 0 ∧ ¬ ((2 ^ 31 ≤ a.toNat) = (2 ^ 31 ≤ b.toNat)) ∧ c = 0x80000000#32 then 0x80000000#32 else 0#32) := by
  obtain ⟨m1, e1, p1, v1, z1, _⟩ := ext32_parts ha
  obtain ⟨m2, e2, p2, v2, z2, _⟩ := ext32_parts hb
  obtain ⟨m3, e3, p3, v3, z3, _⟩ := ext32_parts hc
  obtain ⟨r1, r2⟩ := addExt_fin (decide (2 ^ 31 ≤ a.toNat) != decide (2 ^ 31 ≤ b.toNat)) (decide (2 ^ 31 ≤ c.toNat)) (m1 * m2) m3 (e1 + e2) e3
  rw [mulExt_val, v1, v2, v3] at r1 r2
  unfold fFma
  rw [p1, p2, p3]
  refine ⟨r1, fun h => (r2 h).trans ?_⟩
  have lc := c.isLt
  have ec : c = 0x80000000#32 ↔ 2 ^ 31 ≤ c.toNat ∧ m3 = 0 := by
    rw [z3]
    constructor
    · rintro rfl; decide
    · intro ⟨g1, g2⟩; apply BitVec.eq_of_toNat_eq; show c.toNat = 0x80000000; omega
  have ep : f32Val a * f32Val b = 0 ↔ m1 * m2 = 0 := by
    rw [mul_eq_zero, Nat.mul_eq_zero, f32Val_zero_iff ha, f32Val_zero_iff hb, z1, z2]
  unfold zeroF
  congr 1
  apply propext
  rw [ec, ep]
  simp only [Bool.and_eq_true, decide_eq_true_eq, beq_iff_eq, bne_iff_ne, ne_eq, eq_iff_iff, decide_eq_decide]
  tauto

/-! ### NaN and infinities -/

theorem isNaN_iff (y : Fp32) : isNaN y = true ↔ y.toNat / 2 ^ 23 % 256 = 255 ∧ y.toNat % 2 ^ 23 ≠ 0 := by
  unfold isNaN ext32 extOf
  simp only [Nat.shiftRight_eq_div_pow]
  norm_num
  split
  · next h =>
    rw [h]
    split
    · next g => simp [g]
    · next g => simp [g]
  · next h =>
    split <;> simp [h]

theorem ext32_nan {y : Fp32} (h : isNaN y = true) : ext32 y = .nan := by simpa [isNaN] using h

theorem addExt_nan_left (x : Ext) : addExt .nan x = qNaN := rfl
theorem addExt_nan_right (x : Ext) : addExt x .nan = qNaN := by cases x <;> rfl
theorem mulExt_nan_right (x : Ext) : mulExt x .nan = .nan := by cases x <;> rfl

/-- ADD, SUB, MUL, GATE, FMA, MAX and MIN of a NaN. -/
theorem nan_in {a b c : Fp32} (h : isNaN a = true ∨ isNaN b = true) :
    fAdd a b = qNaN ∧ fSub a b = qNaN ∧ fMul a b = qNaN ∧ fFma a b c = qNaN ∧ fMax a b = qNaN ∧ fMin a b = qNaN := by
  have hm : fMax a b = qNaN ∧ fMin a b = qNaN := by
    unfold fMax fMin
    rw [if_pos (by simpa using h), if_pos (by simpa using h)]
    exact ⟨rfl, rfl⟩
  refine ⟨?_, ?_, ?_, ?_, hm⟩
  all_goals
    rcases h with h | h
    all_goals
      have e := ext32_nan h
      first
        | (unfold fAdd; rw [e]; first | exact addExt_nan_left _ | exact addExt_nan_right _)
        | (unfold fSub; rw [e]; first | exact addExt_nan_left _ | exact addExt_nan_right _)
        | (unfold fMul; rw [e]; first | rfl | (rw [mulExt_nan_right]; rfl))
        | (unfold fFma; rw [e]; first | exact addExt_nan_left _ | (rw [mulExt_nan_right]; exact addExt_nan_left _))

theorem fFma_nan {a b c : Fp32} (h : isNaN c = true) : fFma a b c = qNaN := by
  unfold fFma
  rw [ext32_nan h, addExt_nan_right]

/-- An infinity of a sign. -/
def infF (n : Bool) : Fp32 := if n then 0xFF800000#32 else 0x7F800000#32

theorem ext32_infF (n : Bool) : ext32 (infF n) = .inf n := by cases n <;> decide
theorem fromExt_inf (n : Bool) : fromExt (.inf n) = infF n := rfl

/-- Sums with an infinity. -/
theorem fAdd_inf (n : Bool) : fAdd (infF n) (infF n) = infF n ∧ fAdd (infF n) (infF !n) = qNaN ∧
    ∀ a, a.toNat / 2 ^ 23 % 256 ≠ 255 → fAdd (infF n) a = infF n ∧ fAdd a (infF n) = infF n := by
  refine ⟨by cases n <;> decide, by cases n <;> decide, fun a h => ?_⟩
  obtain ⟨m, e, p, _⟩ := ext32_parts h
  unfold fAdd
  rw [p, ext32_infF]
  exact ⟨rfl, rfl⟩

/-- Products with an infinity. -/
theorem fMul_inf (n : Bool) (a : Fp32) (h : a.toNat / 2 ^ 23 % 256 ≠ 255) :
    (f32Val a = 0 → fMul (infF n) a = qNaN ∧ fMul a (infF n) = qNaN) ∧
    (f32Val a ≠ 0 → fMul (infF n) a = infF (n != decide (2 ^ 31 ≤ a.toNat)) ∧ fMul a (infF n) = infF (n != decide (2 ^ 31 ≤ a.toNat))) := by
  obtain ⟨m, e, p, _, z, _⟩ := ext32_parts h
  have hz := f32Val_zero_iff h
  unfold fMul
  rw [p, ext32_infF]
  refine ⟨fun g => ?_, fun g => ?_⟩
  · have : m = 0 := z.mpr (hz.mp g)
    simp [mulExt, this, fromExt]
  · have : m ≠ 0 := fun q => g (hz.mpr (z.mp q))
    simp only [mulExt, if_neg this, fromExt_inf]
    exact ⟨trivial, by cases n <;> cases decide (2 ^ 31 ≤ a.toNat) <;> rfl⟩

/-! ### Order -/

/-- The order of two finite values. -/
theorem cmpExt_finite {a b : Fp32} (ha : a.toNat / 2 ^ 23 % 256 ≠ 255) (hb : b.toNat / 2 ^ 23 % 256 ≠ 255) :
    cmpExt (ext32 a) (ext32 b) = if f32Val a < f32Val b then -1 else if f32Val a = f32Val b then 0 else 1 := by
  obtain ⟨m1, e1, p1, v1, _⟩ := ext32_parts ha
  obtain ⟨m2, e2, p2, v2, _⟩ := ext32_parts hb
  rw [p1, p2]
  show (exactSum _ e1 (-(sgn _ m2)) e2).1.sign = _
  obtain ⟨X, hX⟩ : ∃ X, X = exactSum (sgn (decide (2 ^ 31 ≤ a.toNat)) m1) e1 (-(sgn (decide (2 ^ 31 ≤ b.toNat)) m2)) e2 := ⟨_, rfl⟩
  have hv := exactSum_val (sgn (decide (2 ^ 31 ≤ a.toNat)) m1) e1 (-(sgn (decide (2 ^ 31 ≤ b.toNat)) m2)) e2
  rw [← hX] at hv ⊢
  have hd : (X.1 : ℚ) * 2 ^ X.2 = f32Val a - f32Val b := by rw [hv, ← v1, ← v2]; push_cast; ring
  have two : (0 : ℚ) < 2 ^ X.2 := by positivity
  rcases lt_trichotomy X.1 0 with h | h | h
  · have : (X.1 : ℚ) < 0 := by exact_mod_cast h
    rw [if_pos (by nlinarith), Int.sign_eq_neg_one_of_neg h]
  · rw [h] at hd
    simp only [Int.cast_zero, zero_mul] at hd
    rw [if_neg (by linarith), if_pos (by linarith), h]
    rfl
  · have : (0 : ℚ) < X.1 := by exact_mod_cast h
    rw [if_neg (by nlinarith), if_neg (by intro q; rw [q, sub_self] at hd; nlinarith), Int.sign_eq_one_of_pos h]

theorem msb_neg (a : Fp32) : a.msb = decide (2 ^ 31 ≤ a.toNat) := by rw [BitVec.msb_eq_decide]

theorem fMax_finite {a b : Fp32} (ha : a.toNat / 2 ^ 23 % 256 ≠ 255) (hb : b.toNat / 2 ^ 23 % 256 ≠ 255) :
    fMax a b = if f32Val a < f32Val b then b else if f32Val b < f32Val a then a else if 2 ^ 31 ≤ a.toNat then b else a := by
  unfold fMax
  rw [isNaN_finite ha, isNaN_finite hb, cmpExt_finite ha hb, msb_neg]
  rcases lt_trichotomy (f32Val a) (f32Val b) with h | h | h
  · simp [h]
  · simp [h]
  · simp [h, h.ne', not_lt.mpr h.le]

theorem fMin_finite {a b : Fp32} (ha : a.toNat / 2 ^ 23 % 256 ≠ 255) (hb : b.toNat / 2 ^ 23 % 256 ≠ 255) :
    fMin a b = if f32Val a < f32Val b then a else if f32Val b < f32Val a then b else if 2 ^ 31 ≤ a.toNat then a else b := by
  unfold fMin
  rw [isNaN_finite ha, isNaN_finite hb, cmpExt_finite ha hb, msb_neg]
  rcases lt_trichotomy (f32Val a) (f32Val b) with h | h | h
  · simp [h]
  · simp [h]
  · simp [h, h.ne', not_lt.mpr h.le]

/-- A clamp of finite values. -/
theorem fClamp_finite {a lo hi : Fp32} (ha : a.toNat / 2 ^ 23 % 256 ≠ 255) (hl : lo.toNat / 2 ^ 23 % 256 ≠ 255) (hh : hi.toNat / 2 ^ 23 % 256 ≠ 255) :
    f32Val (fMin (fMax a lo) hi) = min (max (f32Val a) (f32Val lo)) (f32Val hi) := by
  have h1 : (fMax a lo).toNat / 2 ^ 23 % 256 ≠ 255 ∧ f32Val (fMax a lo) = max (f32Val a) (f32Val lo) := by
    rw [fMax_finite ha hl]
    rcases lt_trichotomy (f32Val a) (f32Val lo) with h | h | h
    · rw [if_pos h, max_eq_right h.le]; exact ⟨hl, rfl⟩
    · rw [h, if_neg (lt_irrefl _), if_neg (lt_irrefl _), max_self]
      split
      · exact ⟨hl, rfl⟩
      · exact ⟨ha, h⟩
    · rw [if_neg h.not_gt, if_pos h, max_eq_left h.le]; exact ⟨ha, rfl⟩
  rw [fMin_finite h1.1 hh, h1.2]
  rcases lt_trichotomy (max (f32Val a) (f32Val lo)) (f32Val hi) with h | h | h
  · rw [if_pos h, min_eq_left h.le, h1.2]
  · rw [h, if_neg (lt_irrefl _), if_neg (lt_irrefl _), min_self]
    split
    · rw [h1.2, h]
    · rfl
  · rw [if_neg h.not_gt, if_pos h, min_eq_right h.le]

/-! ### EXP2 and LOG2 (R118) -/

/-- EXP2 of an integer. -/
theorem fExp2_int {a : Fp32} (ha : a.toNat / 2 ^ 23 % 256 ≠ 255) {n : Int} (h : f32Val a = n) (h1 : -512 < n) (h2 : n < 512) :
    Rounds ((2 : ℚ) ^ n) (fExp2 a) := by
  obtain ⟨m, e, p, v, z, he⟩ := ext32_parts ha
  obtain ⟨s, hs⟩ : ∃ s, s = decide (2 ^ 31 ≤ a.toNat) := ⟨_, rfl⟩
  rw [← hs] at p v
  rw [h] at v
  have key : fExp2 a = fl32 false 1 n := by
    unfold fExp2
    rw [p]
    dsimp only
    by_cases hm : m = 0
    · subst hm
      have : n = 0 := by
        have : sgn s 0 = 0 := by cases s <;> rfl
        rw [this, Int.cast_zero, zero_mul] at v
        exact_mod_cast v.symm
      subst this
      rw [if_pos rfl]
      decide
    · have lead : ¬ (9 : ℤ) ≤ (Nat.log2 m : ℤ) + e := by
        intro g
        have dn : (2 : ℚ) ^ (Nat.log2 m : ℤ) ≤ m := by
          have := Nat.log2_self_le hm
          exact_mod_cast this
        have two : (0 : ℚ) < 2 ^ e := by positivity
        have c : (2 : ℚ) ^ (9 : ℤ) ≤ m * 2 ^ e := calc
          (2 : ℚ) ^ (9 : ℤ) ≤ 2 ^ ((Nat.log2 m : ℤ) + e) := zpow_le_zpow_right₀ (by norm_num) g
          _ = 2 ^ (Nat.log2 m : ℤ) * 2 ^ e := zpow_add₀ (by norm_num) _ _
          _ ≤ m * 2 ^ e := mul_le_mul_of_nonneg_right dn two.le
        have hn : |(n : ℚ)| = m * 2 ^ e := by
          rw [← v, abs_mul, abs_of_pos two]
          congr 1
          unfold sgn
          split <;> simp
        have h3 : |(n : ℚ)| < 512 := by
          rw [abs_lt]
          have a1 : ((-512 : ℤ) : ℚ) < n := by exact_mod_cast h1
          have a2 : (n : ℚ) < ((512 : ℤ) : ℚ) := by exact_mod_cast h2
          push_cast at a1 a2
          exact ⟨a1, a2⟩
        rw [hn] at h3
        norm_num at c
        linarith
      rw [if_neg hm, if_neg lead]
      have ht : sgn s m * 2 ^ (e + (expBits : ℕ)).toNat = n * 2 ^ expBits := by
        have : ((sgn s m * 2 ^ (e + (expBits : ℕ)).toNat : ℤ) : ℚ) = ((n * 2 ^ expBits : ℤ) : ℚ) := by
          push_cast
          rw [← v, ← zpow_natCast, ← zpow_natCast, mul_assoc, ← zpow_add₀ (by norm_num)]
          congr 2
          unfold expBits
          omega
        exact_mod_cast this
      rw [ht]
      have e1 : n * 2 ^ expBits / 2 ^ expBits = n := Int.mul_ediv_cancel _ (by positivity)
      have e2 : n * 2 ^ expBits % 2 ^ expBits = 0 := Int.mul_emod_left _ _
      rw [e1, e2, if_pos (show Int.toNat 0 = 0 from rfl)]
  rw [key]
  have r := fl32_rounds false 1 n
  rwa [show ((sgn false 1 : ℤ) : ℚ) * 2 ^ n = 2 ^ n by simp [sgn]] at r

/-- EXP2 far out. -/
theorem fExp2_far {a : Fp32} (ha : a.toNat / 2 ^ 23 % 256 ≠ 255) :
    (512 ≤ f32Val a → fExp2 a = 0x7F800000#32) ∧ (f32Val a ≤ -512 → fExp2 a = 0#32) := by
  obtain ⟨m, e, p, v, z, _⟩ := ext32_parts ha
  obtain ⟨s, hs⟩ : ∃ s, s = decide (2 ^ 31 ≤ a.toNat) := ⟨_, rfl⟩
  rw [← hs] at p v
  have te : (0 : ℚ) < 2 ^ e := by positivity
  have m0 : (0 : ℚ) ≤ m := by positivity
  have key : 512 ≤ (m : ℚ) * 2 ^ e → fExp2 a = if s then 0#32 else 0x7F800000#32 := by
    intro g
    have hm : m ≠ 0 := by rintro rfl; norm_num at g
    have up : (m : ℚ) < 2 ^ ((Nat.log2 m : ℤ) + 1) := by
      have : m < 2 ^ (Nat.log2 m + 1) := Nat.lt_log2_self
      exact_mod_cast this
    have lead : 9 ≤ (Nat.log2 m : ℤ) + e := by
      by_contra q
      have : (2 : ℚ) ^ ((Nat.log2 m : ℤ) + 1 + e) ≤ 2 ^ (9 : ℤ) := zpow_le_zpow_right₀ (by norm_num) (by omega)
      rw [zpow_add₀ (by norm_num)] at this
      norm_num at this
      nlinarith
    unfold fExp2
    rw [p]
    dsimp only
    rw [if_neg hm, if_pos lead]
  cases s
  · simp only [sgn, Bool.false_eq_true, if_false, Int.cast_natCast] at v
    refine ⟨fun h => (key (by linarith)).trans rfl, fun h => by nlinarith⟩
  · simp only [sgn, if_true, Int.cast_neg, Int.cast_natCast] at v
    refine ⟨fun h => by nlinarith, fun h => (key (by linarith)).trans rfl⟩


/-- LOG2 of a power of two. -/
theorem fLog2_two {a : Fp32} (ha : a.toNat / 2 ^ 23 % 256 ≠ 255) {n : Int} (h : f32Val a = (2 : ℚ) ^ n) : fLog2 a = intToFp n := by
  obtain ⟨m, e, p, v, z, he⟩ := ext32_parts ha
  have two : (0 : ℚ) < 2 ^ n := by positivity
  have twe : (0 : ℚ) < 2 ^ e := by positivity
  have hs : decide (2 ^ 31 ≤ a.toNat) = false := by
    by_contra g
    simp only [Bool.not_eq_false] at g
    rw [g, h] at v
    have : (0 : ℚ) ≤ m := by positivity
    simp only [sgn, if_true, Int.cast_neg, Int.cast_natCast] at v
    nlinarith
  rw [hs] at p v
  simp only [sgn, Bool.false_eq_true, if_false, Int.cast_natCast] at v
  rw [h] at v
  have hm : m ≠ 0 := by
    intro g
    rw [g] at v
    simp only [Nat.cast_zero, zero_mul] at v
    linarith
  have hv : (m : ℚ) = 2 ^ (n - e) := by
    rw [zpow_sub₀ (by norm_num)]
    field_simp
    exact v
  have dn := Nat.log2_self_le hm
  have up : m < 2 ^ (Nat.log2 m + 1) := Nat.lt_log2_self
  have l : (Nat.log2 m : ℤ) = n - e := by
    have d1 : (2 : ℚ) ^ (Nat.log2 m : ℤ) ≤ 2 ^ (n - e) := by rw [← hv]; exact_mod_cast dn
    have d2 : (2 : ℚ) ^ (n - e) < 2 ^ ((Nat.log2 m : ℤ) + 1) := by rw [← hv]; exact_mod_cast up
    have d1 := (zpow_le_zpow_iff_right₀ (by norm_num : (1 : ℚ) < 2)).mp d1
    have d2 := (zpow_lt_zpow_iff_right₀ (by norm_num : (1 : ℚ) < 2)).mp d2
    omega
  have hm2 : m = 2 ^ Nat.log2 m := by
    rw [← l, zpow_natCast] at hv
    exact_mod_cast hv
  unfold fLog2 intToFp
  rw [p]
  dsimp only
  rw [if_neg hm, if_neg (by simp), if_pos hm2, l]
  congr 1
  ring

/-! ### The reduction tree (R124) -/

theorem treeLevel_getD (f : Fp32 → Fp32 → Fp32) (d : Fp32) : ∀ (l : List Fp32) (n i : Nat), l.length = 2 * n → i < n →
    (treeLevel f l).length = n ∧ (treeLevel f l).getD i d = f (l.getD (2 * i) d) (l.getD (2 * i + 1) d) := by
  intro l n
  induction n generalizing l with
  | zero => intro i _ h; omega
  | succ n ih =>
    intro i hl hi
    match l, hl with
    | a :: b :: l, hl =>
      simp only [List.length_cons] at hl
      have hl' : l.length = 2 * n := by omega
      have hlen : (treeLevel f l).length = n := by
        cases n with
        | zero =>
          have : l = [] := List.length_eq_zero_iff.mp (by omega)
          subst this
          rfl
        | succ n => exact (ih l 0 hl' (by omega)).1
      cases i with
      | zero => exact ⟨by simp [treeLevel, hlen], rfl⟩
      | succ i =>
        refine ⟨by simp [treeLevel, hlen], ?_⟩
        show (treeLevel f l).getD i d = _
        rw [(ih l i hl' (by omega)).2]
        rfl

/-- The value of node `i` of level `d` of the tree over lanes. -/
def treeNode (f : Fp32 → Fp32 → Fp32) (lane : Nat → Fp32) : Nat → Nat → Fp32
  | 0, i => lane i
  | d + 1, i => f (treeNode f lane d (2 * i)) (treeNode f lane d (2 * i + 1))

/-- The lane that enters the tree. -/
def segLane (sub : Nat) (xs : List Fp32) (l : Nat) : Fp32 :=
  if l < xs.length then (if sub % 4 = 2 then fMul (xs.getD l 0) (xs.getD l 0) else xs.getD l 0)
  else if sub % 4 = 1 then 0xFF800000#32 else 0#32

theorem segPartial_tree (sub : Nat) (xs : List Fp32) (h : xs.length ≤ 64) :
    segPartial sub xs = treeNode (if sub % 4 = 1 then fMax else fAdd) (segLane sub xs) 6 0 := by
  obtain ⟨f, hf⟩ : ∃ f, f = if sub % 4 = 1 then fMax else fAdd := ⟨_, rfl⟩
  obtain ⟨pad, hp⟩ : ∃ pad : Fp32, pad = if sub % 4 = 1 then 0xFF800000#32 else 0#32 := ⟨_, rfl⟩
  obtain ⟨ys, hy⟩ : ∃ ys, ys = if sub % 4 = 2 then xs.map fun x => fMul x x else xs := ⟨_, rfl⟩
  obtain ⟨l, hl⟩ : ∃ l, l = ys ++ List.replicate (64 - ys.length) pad := ⟨_, rfl⟩
  have hys : ys.length = xs.length := by rw [hy]; split <;> simp
  have hlen : l.length = 2 * 32 := by rw [hl]; simp; omega
  have lane : ∀ i, i < 64 → l.getD i pad = segLane sub xs i := by
    intro i hi
    rw [hl, List.getD_eq_getElem?_getD, List.getElem?_append]
    unfold segLane
    rw [← hp]
    by_cases g : i < xs.length
    · rw [if_pos (by omega), if_pos g, hy]
      split
      · simp [List.getElem?_map, List.getElem?_eq_getElem g, List.getD_eq_getElem?_getD]
      · simp [List.getElem?_eq_getElem g, List.getD_eq_getElem?_getD]
    · rw [if_neg (by omega), if_neg g, List.getElem?_replicate, if_pos (by omega)]
      rfl
  have up : ∀ (m : List Fp32) (n d : Nat), m.length = 2 * n → 0 < n → (∀ i, i < 2 * n → m.getD i pad = treeNode f (segLane sub xs) d i) →
      (treeLevel f m).length = n ∧ ∀ i, i < n → (treeLevel f m).getD i pad = treeNode f (segLane sub xs) (d + 1) i := by
    intro m n d h1 h0 h2
    refine ⟨(treeLevel_getD f pad m n 0 h1 h0).1, fun i hi => ?_⟩
    rw [(treeLevel_getD f pad m n i h1 hi).2, h2 _ (by omega), h2 _ (by omega)]
    rfl
  obtain ⟨a1, b1⟩ := up l 32 0 hlen (by norm_num) lane
  obtain ⟨a2, b2⟩ := up _ 16 1 a1 (by norm_num) b1
  obtain ⟨a3, b3⟩ := up _ 8 2 a2 (by norm_num) b2
  obtain ⟨a4, b4⟩ := up _ 4 3 a3 (by norm_num) b3
  obtain ⟨a5, b5⟩ := up _ 2 4 a4 (by norm_num) b4
  obtain ⟨a6, b6⟩ := up _ 1 5 a5 (by norm_num) b5
  have e := b6 0 (by norm_num)
  rw [← hf, ← e]
  unfold segPartial
  dsimp only
  rw [← hp, ← hf, ← hy, ← hl]
  rw [List.getD_eq_getElem?_getD, List.headD_eq_head?_getD, List.head?_eq_getElem?]

end Sys2Proof.Machine
end

