-- ==== Sys2Proof/Laws/Formats.lean ====
section
/-! SUPPORT. Laws/Formats.lean: what the conversions between FP32, the small formats and the block formats give (R79, R80). -/

namespace Sys2Proof.Machine

/-! ### Integers -/

theorem intToFp_rounds (v : Int) : Rounds v (intToFp v) ∧ (v = 0 → intToFp v = 0#32) := by
  obtain ⟨h1, h2⟩ := fl32Int_rounds false v 0
  simp only [zpow_zero, mul_one] at h1
  exact ⟨h1, h2⟩

theorem fpToInt_special {a : Fp32} (lo hi : Int) : (isNaN a = true → fpToInt lo hi a = (0, true)) ∧
    ∀ n, fpToInt lo hi (infF n) = (if n then lo else hi, true) := by
  refine ⟨fun h => ?_, fun n => ?_⟩
  · unfold fpToInt; rw [ext32_nan h]
  · unfold fpToInt; rw [ext32_infF]

/-! ### BF16 and FP16 -/

/-- BF16: the upper half of the pattern, rounded to the nearest, the even one of two as near. -/
theorem toBf16_near {a : Fp32} (h : isNaN a = false) :
    65536 * toBf16 a ≤ a.toNat + 32768 ∧ a.toNat ≤ 65536 * toBf16 a + 32768 ∧
    (65536 * toBf16 a = a.toNat + 32768 ∨ a.toNat = 65536 * toBf16 a + 32768 → toBf16 a % 2 = 0) := by
  unfold toBf16
  rw [h]
  simp only [Bool.false_eq_true, if_false, Nat.shiftRight_eq_div_pow, Nat.reducePow]
  omega

theorem toBf16_nan {a : Fp32} (h : isNaN a = true) : toBf16 a = 0x7FC0 := by unfold toBf16; rw [if_pos h]

theorem toFp16_special (a : Fp32) : (isNaN a = true → toFp16 a = 0x7E00) ∧ ∀ n, toFp16 (infF n) = 0x7C00 + if n then 0x8000 else 0 := by
  refine ⟨fun h => ?_, fun n => ?_⟩
  · unfold toFp16; rw [ext32_nan h]
  · unfold toFp16; rw [ext32_infF]

/-- The magnitude of a finite value from its parts. -/
theorem f32Val_abs {a : Fp32} {s : Bool} {m : Nat} {e : Int} (v : (sgn s m : ℚ) * (2 : ℚ) ^ e = f32Val a) : |f32Val a| = m * (2 : ℚ) ^ e := by
  have two : (0 : ℚ) < 2 ^ e := by positivity
  rw [← v, abs_mul, abs_of_pos two]
  congr 1
  cases s <;> simp [sgn]

/-- FP16: the nearest finite magnitude, the even one of two as near, or infinity. -/
theorem toFp16_near {a : Fp32} (h : a.toNat / 2 ^ 23 % 256 ≠ 255) : ∃ b : Nat, toFp16 a = b + (if 2 ^ 31 ≤ a.toNat then 0x8000 else 0) ∧
    (|f32Val a| < 65520 → b < 0x7C00 ∧ ∀ c, c < 0x7C00 → |magVal 10 (-24) b - (|f32Val a|)| ≤ |magVal 10 (-24) c - (|f32Val a|)| ∧
      (c ≠ b → |magVal 10 (-24) b - (|f32Val a|)| = |magVal 10 (-24) c - (|f32Val a|)| → b % 2 = 0)) ∧
    (65520 ≤ |f32Val a| → b = 0x7C00) := by
  obtain ⟨m, e, p, v, _, _⟩ := ext32_parts h
  have hx := f32Val_abs v
  refine ⟨min (roundMag 10 (-24) m e) 0x7C00, ?_, fun g => ?_, fun g => ?_⟩
  · unfold toFp16
    rw [p]
    simp only [decide_eq_true_eq]
  · have top : magVal 10 (-24) 0x7BFF = 65504 ∧ magVal 10 (-24) 0x7C00 = 65536 := by
      unfold magVal
      constructor <;> norm_num
    have lt : roundMag 10 (-24) m e < 0x7C00 := by
      by_contra q
      have q : 0x7C00 ≤ roundMag 10 (-24) m e := by omega
      have hm : (65536 : ℚ) ≤ magVal 10 (-24) (roundMag 10 (-24) m e) := by
        rw [← top.2]
        rcases Nat.eq_or_lt_of_le q with q | q
        · rw [← q]
        · exact (magVal_lt 10 (-24) q).le
      have n := (roundMag_nearest_of (by norm_num : 0 < 10) (-24) m e 0x7BFF).1
      rw [← hx, top.1, abs_of_pos (by linarith)] at n
      rcases abs_cases (65504 - |f32Val a|) with ⟨q1, _⟩ | ⟨q1, _⟩ <;> rw [q1] at n <;> linarith
    rw [Nat.min_eq_left lt.le]
    refine ⟨lt, fun c hc => ?_⟩
    have := roundMag_capped (by norm_num : 0 < 10) (-24) m e 0x7BFF c (by omega)
    rw [Nat.min_eq_left (by omega), ← hx] at this
    exact this
  · have top : magVal 10 (-24) 0x7BFF = 65504 ∧ magVal 10 (-24) 0x7C00 = 65536 := by
      unfold magVal
      constructor <;> norm_num
    rw [Nat.min_eq_right]
    by_contra q
    have q : roundMag 10 (-24) m e ≤ 0x7BFF := by omega
    have hm : magVal 10 (-24) (roundMag 10 (-24) m e) ≤ 65504 := by
      rw [← top.1]
      rcases Nat.eq_or_lt_of_le q with q | q
      · rw [q]
      · exact (magVal_lt 10 (-24) q).le
    obtain ⟨n1, n2⟩ := roundMag_nearest_of (by norm_num : 0 < 10) (-24) m e 0x7C00
    rw [← hx, top.2, abs_of_nonpos (by linarith : magVal 10 (-24) (roundMag 10 (-24) m e) - |f32Val a| ≤ 0)] at n1 n2
    have hd : |65536 - (|f32Val a|)| = 65536 - |f32Val a| ∨ |f32Val a| > 65536 := by
      by_cases z : |f32Val a| ≤ 65536
      · exact .inl (abs_of_nonneg (by linarith))
      · exact .inr (by linarith)
    rcases hd with hd | hd
    · rw [hd] at n1 n2
      have e1 : |f32Val a| = 65520 := by linarith
      have e2 : magVal 10 (-24) (roundMag 10 (-24) m e) = 65504 := by linarith
      have ev := n2 (by rw [e2]; norm_num) (by linarith)
      rcases Nat.eq_or_lt_of_le q with q | q
      · rw [q] at ev; norm_num at ev
      · have := magVal_lt 10 (-24) q
        rw [top.1] at this
        linarith
    · rw [abs_of_nonpos (by linarith : 65536 - |f32Val a| ≤ 0)] at n1
      linarith

/-! ### Block formats -/

/-- A block or INT code that stands for an integer reads as that integer by the block's quantum, rounded once. -/
theorem toFp32_rounds {f : Fmt} {code x : Nat} {n : Int} (hf : f ≠ .fp32 ∧ f ≠ .bf16 ∧ f ≠ .fp16) (hx : f.hasExp = true → x ≠ 0xFF) (h : f.elem code = .num n) :
    Rounds (n * (2 : ℚ) ^ f.qSrc x) (f.toFp32 code x) ∧ (n = 0 → f.toFp32 code x = if f.negZero code then 0x80000000#32 else 0#32) := by
  have hx' : (f.hasExp && x == 0xFF) = false := by
    cases g : f.hasExp with
    | false => rfl
    | true => simpa using hx g
  have e : f.toFp32 code x = fl32Int (f.negZero code) n (f.qSrc x) := by
    unfold Fmt.toFp32
    obtain ⟨h1, h2, h3⟩ := hf
    split
    · exact absurd rfl h1
    · exact absurd rfl h2
    · exact absurd rfl h3
    · rw [hx', h]; simp
  rw [e]
  exact fl32Int_rounds _ _ _

/-- An SB or MXINT8 code: the nearest integer, brought into the symmetric range. -/
theorem toElement_int {v : Fp32} (h : v.toNat / 2 ^ 23 % 256 ≠ 255) (x : Nat) :
    (∀ k, ∃ n : Int, |(n : ℚ) - f32Val v * (2 : ℚ) ^ (127 - (x : ℤ) + ((k - 1 : ℕ) : ℤ))| ≤ 1 / 2 ∧
      (|(n : ℚ) - f32Val v * (2 : ℚ) ^ (127 - (x : ℤ) + ((k - 1 : ℕ) : ℤ))| = 1 / 2 → n % 2 = 0) ∧
      (Fmt.sb k).toElement v x = (clampI n (-(2 ^ (k - 1) - 1)) (2 ^ (k - 1) - 1) % 2 ^ k).toNat) ∧
    (∃ n : Int, |(n : ℚ) - f32Val v * (2 : ℚ) ^ (127 - (x : ℤ) + 6)| ≤ 1 / 2 ∧
      (|(n : ℚ) - f32Val v * (2 : ℚ) ^ (127 - (x : ℤ) + 6)| = 1 / 2 → n % 2 = 0) ∧
      Fmt.mxint8.toElement v x = (clampI n (-127) 127 % 256).toNat) := by
  obtain ⟨m, e, p, hv, _, _⟩ := ext32_parts h
  have sc : ∀ d : ℤ, (sgn (decide (2 ^ 31 ≤ v.toNat)) m : ℚ) * (2 : ℚ) ^ (e + d) = f32Val v * (2 : ℚ) ^ d := by
    intro d
    rw [zpow_add₀ (by norm_num), ← mul_assoc, hv]
  refine ⟨fun k => ?_, ?_⟩
  · obtain ⟨n1, n2⟩ := rneInt_near (sgn (decide (2 ^ 31 ≤ v.toNat)) m) (e + (127 - (x : ℤ) + ((k - 1 : ℕ) : ℤ)))
    rw [sc] at n1 n2
    refine ⟨_, n1, n2, ?_⟩
    unfold Fmt.toElement
    rw [p]
    dsimp only
    rw [Int.add_assoc]
  · obtain ⟨n1, n2⟩ := rneInt_near (sgn (decide (2 ^ 31 ≤ v.toNat)) m) (e + (127 - (x : ℤ) + 6))
    rw [sc] at n1 n2
    refine ⟨_, n1, n2, ?_⟩
    unfold Fmt.toElement
    rw [p]
    dsimp only
    rw [Int.add_assoc]

/-- The largest finite magnitude of an MX floating format. -/
def mxTop (eb mb : Nat) : MxTop → Nat
  | .nanOnly => 2 ^ (eb + mb) - 2
  | .ieee => (2 ^ eb - 1) * 2 ^ mb - 1
  | .numbers => 2 ^ (eb + mb) - 1

/-- An MX floating code: the nearest magnitude of the format, the even one of two as near, the largest finite one beyond it. -/
theorem toElement_mx {v : Fp32} (h : v.toNat / 2 ^ 23 % 256 ≠ 255) (eb mb : Nat) (top : MxTop) (x : Nat) (h0 : 0 < mb) :
    ∃ b : Nat, (Fmt.mxf eb mb top).toElement v x = b + (if 2 ^ 31 ≤ v.toNat then 2 ^ (eb + mb) else 0) ∧ b ≤ mxTop eb mb top ∧
      ∀ c, c ≤ mxTop eb mb top →
        |magVal mb (mxEmin eb mb) b - |f32Val v| * (2 : ℚ) ^ (127 - (x : ℤ))| ≤ |magVal mb (mxEmin eb mb) c - |f32Val v| * (2 : ℚ) ^ (127 - (x : ℤ))| ∧
        (c ≠ b → |magVal mb (mxEmin eb mb) b - |f32Val v| * (2 : ℚ) ^ (127 - (x : ℤ))| =
          |magVal mb (mxEmin eb mb) c - |f32Val v| * (2 : ℚ) ^ (127 - (x : ℤ))| → b % 2 = 0) := by
  obtain ⟨m, e, p, hv, _, _⟩ := ext32_parts h
  have hx := f32Val_abs hv
  have sc : |f32Val v| * (2 : ℚ) ^ (127 - (x : ℤ)) = m * (2 : ℚ) ^ (e + (127 - (x : ℤ))) := by
    rw [hx, mul_assoc, ← zpow_add₀ (by norm_num)]
  refine ⟨min (roundMag mb (mxEmin eb mb) m (e + (127 - (x : ℤ)))) (mxTop eb mb top), ?_, Nat.min_le_right _ _, fun c hc => ?_⟩
  · unfold Fmt.toElement
    rw [p]
    simp only [decide_eq_true_eq]
    cases top <;> rfl
  · rw [sc]
    exact roundMag_capped h0 _ m _ _ c hc

/-- The magnitude of a value that is not NaN, an infinity counted as the largest finite one. -/
def amaxOf (v : Fp32) : ℚ := if v.toNat / 2 ^ 23 % 256 = 255 then 2 ^ 128 - 2 ^ 104 else |f32Val v|

/-- floor_log2 of a magnitude. -/
theorem floorLog2_spec {v : Fp32} (h : isNaN v = false) : (amaxOf v = 0 ∧ floorLog2 (ext32 v) = none) ∨
    ∃ y : Int, floorLog2 (ext32 v) = some y ∧ (2 : ℚ) ^ y ≤ amaxOf v ∧ amaxOf v < (2 : ℚ) ^ (y + 1) := by
  by_cases hf : v.toNat / 2 ^ 23 % 256 = 255
  · have hz : v.toNat % 2 ^ 23 = 0 := by
      by_contra q
      have := (isNaN_iff v).mpr ⟨hf, q⟩
      rw [h] at this
      exact absurd this (by simp)
    obtain ⟨n, hn⟩ : ∃ n, ext32 v = .inf n := by
      unfold ext32 extOf
      simp only [Nat.shiftRight_eq_div_pow]
      rw [if_pos (by norm_num; exact hf), if_pos (by norm_num at hz ⊢; exact hz)]
      exact ⟨_, rfl⟩
    refine .inr ⟨127, by rw [hn]; rfl, ?_⟩
    unfold amaxOf
    rw [if_pos hf]
    constructor <;> norm_num
  · obtain ⟨m, e, p, hv, z, _⟩ := ext32_parts hf
    have hx := f32Val_abs hv
    unfold amaxOf
    rw [if_neg hf, p, hx]
    by_cases hm : m = 0
    · left; simp [floorLog2, hm]
    · right
      have two : (0 : ℚ) < 2 ^ e := by positivity
      refine ⟨(Nat.log2 m : ℤ) + e, by simp [floorLog2, hm], ?_, ?_⟩
      · rw [zpow_add₀ (by norm_num)]
        refine mul_le_mul_of_nonneg_right ?_ two.le
        have := Nat.log2_self_le hm
        exact_mod_cast this
      · rw [show (Nat.log2 m : ℤ) + e + 1 = ((Nat.log2 m + 1 : ℕ) : ℤ) + e by push_cast; ring, zpow_add₀ (by norm_num)]
        refine mul_lt_mul_of_pos_right ?_ two
        have : m < 2 ^ (Nat.log2 m + 1) := Nat.lt_log2_self
        exact_mod_cast this

/-- A block (R79): NaN makes it a NaN block; else its exponent is that of its largest magnitude, and each value is taken to its code. -/
theorem encBlock_nan {f : Fmt} {vs : List Fp32} (h : ∃ v ∈ vs, isNaN v = true) : f.encBlock vs = (vs.map fun _ => 0, 0xFF) := by
  unfold Fmt.encBlock
  rw [if_pos (by simpa using h)]

theorem encBlock_zero {f : Fmt} {vs : List Fp32} (hn : ∀ v ∈ vs, isNaN v = false) (h : ∀ v ∈ vs, amaxOf v = 0) :
    f.encBlock vs = (vs.map fun v => f.toElement v 0, 0) := by
  unfold Fmt.encBlock
  rw [if_neg (by simp only [List.any_eq_true, not_exists, not_and]; intro v hv; rw [hn v hv]; simp)]
  have : ∀ l : List Fp32, (∀ v ∈ l, v ∈ vs) → l.foldl topLog2 none = none := by
    intro l
    induction l with
    | nil => intro _; rfl
    | cons v l ih =>
      intro g
      rw [List.foldl_cons]
      have hv := g v List.mem_cons_self
      have e : topLog2 none v = none := by
        unfold topLog2
        rcases floorLog2_spec (hn v hv) with ⟨_, q⟩ | ⟨y, _, q, _⟩
        · rw [q]
        · rw [h v hv] at q
          have : (0 : ℚ) < 2 ^ y := by positivity
          linarith
      rw [e]
      exact ih fun v hv => g v (List.mem_cons_of_mem _ hv)
  dsimp only
  rw [this vs fun _ h => h]

theorem encBlock_amax {f : Fmt} {vs : List Fp32} (hn : ∀ v ∈ vs, isNaN v = false) {l : Int}
    (h1 : ∃ v ∈ vs, (2 : ℚ) ^ l ≤ amaxOf v) (h2 : ∀ v ∈ vs, amaxOf v < (2 : ℚ) ^ (l + 1)) :
    f.encBlock vs = (vs.map fun v => f.toElement v (clampI (l + 127 - f.emax) 0 254).toNat, (clampI (l + 127 - f.emax) 0 254).toNat) := by
  unfold Fmt.encBlock
  rw [if_neg (by simp only [List.any_eq_true, not_exists, not_and]; intro v hv; rw [hn v hv]; simp)]
  have lt : ∀ {a b : ℤ}, (2 : ℚ) ^ a < 2 ^ b → a < b := fun h => (zpow_lt_zpow_iff_right₀ (by norm_num : (1 : ℚ) < 2)).mp h
  have fold : ∀ (k : List Fp32) (a : Option Int), (∀ v ∈ k, v ∈ vs) → (∀ y, a = some y → y ≤ l) →
      (a = some l ∨ ∃ v ∈ k, (2 : ℚ) ^ l ≤ amaxOf v) → k.foldl topLog2 a = some l := by
    intro k
    induction k with
    | nil => exact fun a _ _ g => by simpa using g
    | cons v k ih =>
      intro a g ha q
      have hv := g v List.mem_cons_self
      have step : (∀ y, topLog2 a v = some y → y ≤ l) ∧ ((a = some l ∨ (2 : ℚ) ^ l ≤ amaxOf v) → topLog2 a v = some l) := by
        unfold topLog2
        rcases floorLog2_spec (hn v hv) with ⟨e0, e⟩ | ⟨z, e, z1, z2⟩
        · rw [e]
          refine ⟨fun y hy => ha y (by cases a <;> simp_all), fun q => ?_⟩
          rcases q with q | q
          · rw [q]
          · rw [e0] at q
            have : (0 : ℚ) < 2 ^ l := by positivity
            linarith
        · rw [e]
          have b1 : z ≤ l := by have := lt (lt_of_le_of_lt z1 (h2 v hv)); omega
          have b2 : (2 : ℚ) ^ l ≤ amaxOf v → z = l := fun q => by have := lt (lt_of_le_of_lt q z2); omega
          cases a with
          | none =>
            refine ⟨fun y hy => by cases hy; exact b1, fun q => ?_⟩
            rcases q with q | q
            · exact absurd q (by simp)
            · rw [b2 q]
          | some x =>
            have hx := ha x rfl
            refine ⟨fun y hy => by cases hy; omega, fun q => ?_⟩
            simp only [Option.some.injEq] at q ⊢
            rcases q with q | q
            · omega
            · have := b2 q; omega
      rw [List.foldl_cons]
      refine ih (topLog2 a v) (fun v hv => g v (List.mem_cons_of_mem _ hv)) step.1 ?_
      rcases q with q | ⟨w, hw, q⟩
      · exact .inl (step.2 (.inl q))
      · rcases List.mem_cons.mp hw with rfl | hw
        · exact .inl (step.2 (.inr q))
        · exact .inr ⟨w, hw, q⟩
  dsimp only
  rw [fold vs none (fun _ h => h) (by simp) (.inr h1)]

end Sys2Proof.Machine
end

