-- ==== Sys2Proof/Laws/Journals.lean ====
section
/-! SUPPORT. Laws/Journals.lean: what the staging commands and the records of the journal do (R30, R36, R249, R251). -/

namespace Sys2Proof.Machine

theorem strCtrl_row (p : Party) (s : State) (hp : (accOf p).sup = true) (h : s.pwr.state ≠ .off) (he : s.heldEarly p 0x1000 true = false) (v : Nat) (hv : 1 ≤ v ∧ v ≤ 5) :
    s.row (fun s => s.aonRow p 0x1000 v) = .next (State.answered p 0x1000 (s.strCtrl v)) := by
  have m : v &&& (2 ^ 64 - 1 - 7) = 0 := by
    obtain ⟨h1, h2⟩ := hv
    interval_cases v <;> decide
  have e := State.row_aonRow (v := v) h he regAt_ctrl (by decide) (writeFault_ok (b := allBlocks) (s := s) (a := accOf p)
    (x := ⟨⟨0x1000, 4, 1, 4, .R, false, 7⟩, 0, 0⟩) (v := v) (by simp [RPriv.allows, hp]) rfl m (by simp [allBlocks, aonReg, aonRange, hv]))
  simpa [State.aonDo] using e

theorem strCtrl_refused (p : Party) (s : State) (h : s.pwr.state ≠ .off) (he : s.heldEarly p 0x1000 true = false) (v : Nat) (hv : 1 ≤ v ∧ v ≤ 5) (e : s.strCtrl v = (s, 0x0207)) (hp : (accOf p).sup = true) :
    ∃ t, s.row (fun s => s.aonRow p 0x1000 v) = .next t ∧ t.str = s.str ∧ t.mrl = s.mrl ∧ t.loam = s.loam ∧ t.out.getLast? = some (.regAnswer p 0 0x0207) ∧
          (p = .host → t.tel.log.head? = some ⟨0x0207, 7, false, false, 0x1000, s.ts.toNat % 2 ^ 48⟩) := by
  refine ⟨_, strCtrl_row p s hp h he v hv, ?_⟩
  rw [e]
  refine ⟨by simp [State.answered], by simp [State.answered, noteAccess_mrl], by simp [State.answered], State.answered_last .., fun hh => ?_⟩
  subst hh
  simp only [State.answered, State.noteAccess]
  rw [if_neg (by decide)]
  exact logOnly_head ..

theorem aonWrite_denied (p : Party) (s : State) (h : s.pwr.state ≠ .off) (v : Nat) (off : Nat) (he : s.heldEarly p off true = false) (x : RegAt) (hr : regAt off = some x) (hx : x.row.priv = .R)
    (hp : (accOf p).sup = false) :
    ∃ t, s.row (fun s => s.aonRow p off v) = .next t ∧ t.str = s.str ∧ t.mrl = s.mrl ∧ t.loam = s.loam ∧ t.out.getLast? = some (.regAnswer p 0 0x0C02) := by
  have hd : writeFault allBlocks s (accOf p) x v = 0x0C02 := writeFault_denied (by simp [hx, RPriv.allows, hp])
  refine ⟨_, State.row_aonRow_bad h he hr (by rw [hd]; decide), ?_⟩
  rw [hd]
  exact ⟨by simp [State.answered], by simp [State.answered, noteAccess_mrl], by simp [State.answered], State.answered_last ..⟩

theorem foldCredit_frame (l : List (List Byte)) (f : State → List Byte → State)
    (hf : ∀ t e, (f t e).mrl = t.mrl ∧ (f t e).loam = t.loam ∧ (f t e).str = t.str ∧ (f t e).pwr = t.pwr) (t : State) :
    (l.foldl f t).mrl = t.mrl ∧ (l.foldl f t).loam = t.loam ∧ (l.foldl f t).str = t.str ∧ (l.foldl f t).pwr = t.pwr := by
  induction l generalizing t with
  | nil => exact ⟨rfl, rfl, rfl, rfl⟩
  | cons e l ih =>
    obtain ⟨a, b, c, d⟩ := hf t e
    obtain ⟨a', b', c', d'⟩ := ih (f t e)
    exact ⟨a'.trans a, b'.trans b, c'.trans c, d'.trans d⟩

theorem deltaCredit_frame (old new : Image) (t : State) (e : List Byte) : (t.deltaCredit old new e).mrl = t.mrl ∧
    (t.deltaCredit old new e).loam = t.loam ∧ (t.deltaCredit old new e).str = t.str ∧ (t.deltaCredit old new e).pwr = t.pwr := by
  unfold State.deltaCredit
  dsimp only
  split
  · simp
  · split <;> simp

theorem startCompaction_frame (s : State) : ∃ b, s.startCompaction = { s with mrl := { s.mrl with compact := b } } := by
  unfold State.startCompaction
  split
  · exact ⟨_, rfl⟩
  · exact ⟨s.mrl.compact, rfl⟩

theorem applyDelta_frame (s : State) (n k : Nat) (b : List Byte) : (s.applyDelta n k b).mrl = s.mrl ∧ (s.applyDelta n k b).loam = s.loam := by
  unfold State.applyDelta
  dsimp only
  split
  · exact ⟨rfl, rfl⟩
  · split
    · simp
    · have := foldCredit_frame (deltaEnts b) (fun t e => t.deltaCredit s.str.live (deltaImage s.str.live b) e) (deltaCredit_frame _ _)
      simp [this]
    · simp

theorem applyDelta_str (s : State) (n k : Nat) (b : List Byte) (h1 : s.str.liveValid = true) (h2 : fieldB b 4 4 = s.str.live.id)
    (h4 : serialLater (BitVec.ofNat 32 n) (BitVec.ofNat 32 s.str.record.commit) = true) :
    (s.applyDelta n k b).str.live = deltaImage s.str.live b ∧ (s.applyDelta n k b).str.deltaSeq = fieldB b 8 4 ∧
      (s.applyDelta n k b).str.deltaState = 3 := by
  unfold State.applyDelta
  dsimp only
  rw [if_neg (by simp [h1, h2, h4])]
  split
  · simp
  · have := foldCredit_frame (deltaEnts b) (fun t e => t.deltaCredit s.str.live (deltaImage s.str.live b) e) (deltaCredit_frame _ _)
    simp [this]
  · simp

theorem recordDone_frame (s : State) (r : JRec) : (s.recordDone r).mrl.mram = s.mrl.mram ∧ (s.recordDone r).mrl.used = s.mrl.used ∧
    (s.recordDone r).mrl.durable = s.mrl.durable ∧ (s.recordDone r).mrl.queue = s.mrl.queue ∧ (s.recordDone r).mrl.active = s.mrl.active ∧
    (s.recordDone r).mrl.nextSerial = s.mrl.nextSerial ∧ (s.recordDone r).loam = s.loam := by
  unfold State.recordDone
  split <;> try (simp; done)
  · split <;> simp
  · split <;> simp [State.commitDone]
  · have := applyDelta_frame s r.serial r.time r.body
    simp [this]

/-- An error found in a field of the live image: whole again to the next lookup, decoded from now on, and logged. -/
theorem State.findImage_spec (s : State) : (∀ f, Damage.image f ∉ s.findImage.damage) ∧
    (∀ f, Damage.image f ∈ s.damage → Damage.decoding f ∈ s.findImage.damage) ∧
    (∀ f, Damage.image f ∈ s.damage → s.findImage.tel.log.head? = some ⟨0x0C0A, 7, false, false, 0, s.ts.toNat % 2 ^ 48⟩) := by
  have key : ∀ (l : List ImgField) (t : State), (∀ f, Damage.image f ∈ s.damage → Damage.image f ∈ t.damage ∧ f ∈ l ∨ Damage.decoding f ∈ t.damage ∧
        t.tel.log.head? = some ⟨0x0C0A, 7, false, false, 0, s.ts.toNat % 2 ^ 48⟩) → (∀ f, Damage.image f ∈ t.damage → f ∈ l) → t.ts = s.ts →
      let u := l.foldl (fun (t : State) f => if t.damage.contains (.image f) then
        { t with damage := t.damage.map fun d => if d = Damage.image f then Damage.decoding f else d }.logOnly 0x0C0A 0 else t) t
      (∀ f, Damage.image f ∉ u.damage) ∧ ∀ f, Damage.image f ∈ s.damage → Damage.decoding f ∈ u.damage ∧
        u.tel.log.head? = some ⟨0x0C0A, 7, false, false, 0, s.ts.toNat % 2 ^ 48⟩ := by
    intro l
    induction l with
    | nil =>
      refine fun t h1 h2 _ => ⟨fun f hf => absurd (h2 f hf) (by simp), fun f hf => ?_⟩
      rcases h1 f hf with h | h
      · exact absurd h.2 (by simp)
      · exact h
    | cons g l ih =>
      intro t h1 h2 h3
      rw [List.foldl_cons]
      by_cases hg : t.damage.contains (.image g) = true
      · rw [if_pos hg]
        refine ih _ (fun f hf => ?_) (fun f hf => ?_) (by simpa using h3)
        · have head : ({ t with damage := t.damage.map fun d => if d = Damage.image g then Damage.decoding g else d }.logOnly 0x0C0A 0).tel.log.head? =
              some ⟨0x0C0A, 7, false, false, 0, s.ts.toNat % 2 ^ 48⟩ := by
            rw [logOnly_head, ← h3]
            rfl
          by_cases e : f = g
          · refine .inr ⟨?_, head⟩
            rw [State.logOnly_damage, e]
            exact List.mem_map.mpr ⟨_, by simpa using hg, by simp⟩
          · rcases h1 f hf with h | h
            · refine .inl ⟨?_, (List.mem_cons.mp h.2).resolve_left e⟩
              rw [State.logOnly_damage]
              exact List.mem_map.mpr ⟨_, h.1, by simp [e]⟩
            · refine .inr ⟨?_, head⟩
              rw [State.logOnly_damage]
              exact List.mem_map.mpr ⟨_, h.1, by simp⟩
        · rw [State.logOnly_damage] at hf
          obtain ⟨d, hd, e⟩ := List.mem_map.mp hf
          split at e
          · cases e
          · next n =>
            rw [e] at hd n
            exact (List.mem_cons.mp (h2 f hd)).resolve_left fun q => n (by rw [q])
      · rw [if_neg hg]
        have ne : ∀ f, Damage.image f ∈ t.damage → f ≠ g := fun f hf q => hg (by rw [← q]; simpa using hf)
        refine ih _ (fun f hf => ?_) (fun f hf => (List.mem_cons.mp (h2 f hf)).resolve_left (ne f hf)) h3
        rcases h1 f hf with h | h
        · exact .inl ⟨h.1, (List.mem_cons.mp h.2).resolve_left (ne f h.1)⟩
        · exact .inr h
  have all : ∀ f : ImgField, f ∈ imgFields := fun f => by cases f <;> decide
  obtain ⟨a, b⟩ := key imgFields s (fun f hf => .inl ⟨hf, all f⟩) (fun f _ => all f) rfl
  exact ⟨a, fun f h => (b f h).1, fun f h => (b f h).2⟩

/-- A tick with no swap finds the damaged fields of the live image (R265). -/
theorem State.tick_finds {s : State} (h : s.pwr.state ≠ .off) (hs : s.str.swap = none) : (∀ f, Damage.image f ∉ s.tick.damage) ∧
    (∀ f, Damage.image f ∈ s.damage → Damage.decoding f ∈ s.tick.damage ∧
      s.tick.tel.log.head? = some ⟨0x0C0A, 7, false, false, 0, s.ts.toNat % 2 ^ 48⟩) := by
  unfold State.tick
  rw [if_neg h]
  obtain ⟨⟨cs, k, d, p, e, w⟩, l⟩ := (((Timed.sample s).trans (Timed.timeAll _)).trans (Timed.timeCtrs _)).trans
    (Timed.foldl Timed.timeCore (List.range 4) _)
  dsimp only
  rw [e]
  obtain ⟨k', x, e⟩ := State.mendSoft_eq { s with cores := cs, ctr := k, dma := d, port := p }
  rw [e]
  obtain ⟨U, hU⟩ : ∃ U : State, U = { s with cores := cs, ctr := k', dma := d, port := p, soft := [], tel := x } := ⟨_, rfl⟩
  obtain ⟨a, b, c⟩ := U.findImage_spec
  obtain ⟨dm, b', k2, x2, o1, e2, _⟩ := U.findImage_eq
  obtain ⟨p', o, e3, _⟩ := U.findImage.payOwed_eq
  rw [← hU]
  have key : U.findImage.payOwed.timeStamp.timeUnits.swapTick.damage = U.findImage.damage ∧
      U.findImage.payOwed.timeStamp.timeUnits.swapTick.tel = U.findImage.tel := by
    rw [e3]
    have sw : ∀ V : State, V.str.swap = none → V.swapTick.damage = V.damage ∧ V.swapTick.tel = V.tel := by
      intro V hV
      unfold State.swapTick
      rw [hV]
      dsimp only
      split <;> exact ⟨rfl, rfl⟩
    have ti : ∀ V : State, V.timeStamp.timeUnits.str.swap = V.str.swap ∧ V.timeStamp.timeUnits.damage = V.damage ∧ V.timeStamp.timeUnits.tel = V.tel := by
      intro V
      unfold State.timeStamp State.timeUnits
      split <;> exact ⟨rfl, rfl, rfl⟩
    obtain ⟨V, hV⟩ : ∃ V : State, V = { U.findImage with port := p', out := U.findImage.out ++ o } := ⟨_, rfl⟩
    have vs : V.str.swap = none ∧ V.damage = U.findImage.damage ∧ V.tel = U.findImage.tel := by
      rw [hV]
      exact ⟨by rw [e2, hU]; exact hs, rfl, rfl⟩
    rw [← hV]
    obtain ⟨t1, t2, t3⟩ := ti V
    obtain ⟨y1, y2⟩ := sw V.timeStamp.timeUnits (by rw [t1, vs.1])
    exact ⟨by rw [y1, t2, vs.2.1], by rw [y2, t3, vs.2.2]⟩
  rw [key.1, key.2]
  have ud : U.damage = s.damage ∧ U.ts = s.ts := by rw [hU]; exact ⟨rfl, rfl⟩
  rw [ud.1] at b c
  rw [ud.2] at c
  exact ⟨a, fun f hf => ⟨b f hf, c f hf⟩⟩

end Sys2Proof.Machine
end

