-- ==== Sys2Proof/Laws/Messages.lean ====
section
/-! SUPPORT. Laws/Messages.lean: what the operations on rings, parked contributions and paces do (R172, R176, R180, R230). -/

namespace Sys2Proof.Machine

/-- A trace event counts at most itself as lost: the message counters keep their values. -/
theorem State.emit_msgCtrs (s : State) (cls : Nat) (sub : SubEv) (who size : Nat) (vals : List Nat) :
    (s.emit cls sub who size vals).ctr.msgStale = s.ctr.msgStale ∧ (s.emit cls sub who size vals).ctr.msgDrop = s.ctr.msgDrop := by
  unfold State.emit
  dsimp only
  repeat' split
  all_goals exact ⟨rfl, rfl⟩
theorem State.activate_msgCtrs (s : State) : s.activate.ctr.msgStale = s.ctr.msgStale ∧ s.activate.ctr.msgDrop = s.ctr.msgDrop := by
  unfold State.activate State.setPower
  split
  · exact State.emit_msgCtrs ..
  · exact ⟨rfl, rfl⟩
theorem mkEntries_frame (s : State) (h : MHdr) (p : List Byte) : ∃ f, (s.mkEntries h p).1 = { s with free := f } ∧ (s.mkEntries h p).2.length = entriesOf h.len := by
  unfold State.mkEntries State.freeBytes
  dsimp only
  exact ⟨_, rfl, by simp⟩

theorem mendRing_id {s : State} {c r : Nat} (h : s.damage.contains (.ring c r) = false) : s.mendRing c r = s := by unfold State.mendRing; rw [h]; rfl

theorem ringWrite_frame (s : State) (c r : Nat) (es : List (List Byte)) (cr mk : Bool) : ∃ u, Touched s u ∧ s.ringWrite c r es cr mk =
    (u.modCore c fun y => { y with sleepSaving := false, idleTicks := 0 }).setRing c r { s.ring c r with wr := ((s.ring c r).wr + es.length) % s.ringSize c r, occ := (s.ring c r).occ + es.length, msgs := (s.ring c r).msgs ++ [⟨es.length, cr, mk⟩] } := by
  refine ⟨_, ?_, rfl⟩
  have h : ∀ (l : List (Nat × List Byte)), Touched s (l.foldl (fun (t : State) p => (t.loamWrite 6 p.1 p.2).1) s) := fun l => foldl_keeps (P := fun q => Touched s q) (fun b a h => h.trans (Touched.loamWrite ..)) l s (Touched.refl s)
  exact h _

theorem refuse_frame (s : State) (code : Nat) (h : MHdr) (d n : Nat) (g : Option Byte) (m : Bool) : (s.refuseMsg code h d n g m).msg = { s.msg with refFault := code, refTag := h.tag, refSrc := h.src } ∧ (s.refuseMsg code h d n g m).loam = s.loam := by
  unfold State.refuseMsg State.noteRefused State.noteDiscard State.returnCredits
  simp

theorem drainParked_id (e : HEntry) (n : Nat) (s : State) (h : ∀ p ∈ s.msg.parked, p.slot ≠ e.slot) : State.drainParked e n s = s := by
  cases n with
  | zero => rfl
  | succ n =>
    unfold State.drainParked
    dsimp only
    split
    · rfl
    · have : (s.msg.parked.find? fun p => p.slot == e.slot && p.round == (s.slot e.slot).round && ((s.slot e.slot).failCur || p.cidx == (s.slot e.slot).next)) = none := by
        rw [List.find?_eq_none]
        intro p hp
        simp [h p hp]
      rw [this]

theorem bits_ring (c : Fin 5) (r : Fin 32) : let v := r.val + fld c.val 5 + fld 1 8
   bits v 7 5 = c.val ∧ bits v 4 0 = r.val ∧ bitAt v 8 = true ∧ bitAt v 9 = false ∧ v &&& (2 ^ 64 - 1 - 0x3FF) = 0 ∧ v < 2 ^ 32 := by
  revert c r; decide

theorem bits_all (c : Fin 5) : let v := fld c.val 5 + fld 1 9
   bits v 7 5 = c.val ∧ bitAt v 8 = false ∧ bitAt v 9 = true ∧ v &&& (2 ^ 64 - 1 - 0x3FF) = 0 ∧ v < 2 ^ 32 := by
  revert c; decide

theorem advance_rings (c : Nat) : ∀ (l : List Nat), l.Nodup → ∀ t : State,
    let u := l.foldl (fun t r => if (t.str.live.ring c r).isSome then t.advanceRing c r else t) t
    u.str = t.str ∧ (∀ r, r ∉ l → u.ring c r = t.ring c r) ∧
    (∀ r ∈ l, (t.str.live.ring c r).isSome = true → (u.ring c r).gen = (t.ring c r).gen + 1 ∧ (u.ring c r).msgs = []) := by
  intro l
  induction l with
  | nil => intro _ t; exact ⟨rfl, fun _ _ => rfl, fun r h => by simp at h⟩
  | cons a l ih =>
    intro hn t
    obtain ⟨ha, hl⟩ := List.nodup_cons.mp hn
    dsimp only
    rw [List.foldl_cons]
    by_cases hs : (t.str.live.ring c a).isSome = true
    · rw [if_pos hs]
      obtain ⟨f1, f2, f3, f4, f5, f6⟩ := State.advanceRing_frame t c a
      obtain ⟨i1, i2, i3⟩ := ih hl (t.advanceRing c a)
      refine ⟨i1.trans f6, fun r hr => ?_, fun r hr hx => ?_⟩
      · simp only [List.mem_cons, not_or] at hr
        rw [i2 r hr.2, f4 r hr.1]
      · rcases List.mem_cons.mp hr with rfl | hr
        · rw [i2 r ha]; exact ⟨f1, f2⟩
        · have : r ≠ a := fun e => ha (e ▸ hr)
          have := i3 r hr (by rw [f6]; exact hx)
          rwa [f4 r ‹_›] at this
    · rw [if_neg hs]
      obtain ⟨i1, i2, i3⟩ := ih hl t
      refine ⟨i1, fun r hr => ?_, fun r hr hx => ?_⟩
      · simp only [List.mem_cons, not_or] at hr
        exact i2 r hr.2
      · rcases List.mem_cons.mp hr with rfl | hr
        · exact absurd hx hs
        · exact i3 r hr hx

theorem tabGet_map_pace (f : Pace → Pace) (h : f {} = {}) (t : Tab Pace) (n : Nat) : tabGet {} (t.map fun e => (e.1, f e.2)) n = f (tabGet {} t n) := by
  induction t with
  | nil => exact h.symm
  | cons a t ih =>
    simp only [List.map_cons, tabGet]
    split
    · rfl
    · exact ih

theorem tabGet_range_map (g : Nat → Pace) (n : Nat) : ∀ k, n < k → tabGet {} ((List.range k).map fun i => (i, g i)) n = g n := by
  have key : ∀ (l : List Nat), n ∈ l → tabGet {} (l.map fun i => (i, g i)) n = g n := by
    intro l
    induction l with
    | nil => intro h; simp at h
    | cons a l ih =>
      intro h
      simp only [List.map_cons, tabGet]
      split
      · next e => rw [e]
      · next e => exact ih ((List.mem_cons.mp h).resolve_left fun e' => e e'.symm)
  exact fun k hk => key _ (List.mem_range.mpr hk)

theorem paceAll_get (s : State) (f : Pace → Pace) (n : Nat) (h : n < 4096) : (s.paceAll f).pace n = f (s.pace n) := by
  unfold State.paceAll State.pace
  dsimp only
  split
  · next e => exact tabGet_map_pace f e _ _
  · exact tabGet_range_map (fun n => f (tabGet {} s.msg.pace n)) n 4096 h

theorem awaits_bear {s : State} {w : Who} {no id : Nat} (h : s.awaits w no id = true) : (s.ctx w).canBear = true := by
  unfold State.awaits at h; simp only [Bool.and_eq_true] at h; exact h.2

theorem awaits_drop (s : State) (w : Who) (no id k : Nat) : (s.dropTxn k).awaits w no id = s.awaits w no id := rfl

theorem arr_bits (c : BitVec 13) (v : Word32) : (c.toNat + fld v.toNat 32) &&& (2 ^ 64 - 1 - 0xFFFFFFFF00001FFF) = 0 ∧
   bits (c.toNat + fld v.toNat 32) 12 0 = c.toNat ∧ bits (c.toNat + fld v.toNat 32) 63 32 = v.toNat := by
  have hc := c.isLt
  have hv := v.isLt
  refine ⟨?_, ?_, ?_⟩
  · apply Nat.eq_of_testBit_eq
    intro i
    rw [Nat.testBit_and, Nat.zero_testBit]
    have hk : (2 ^ 64 - 1 - 0xFFFFFFFF00001FFF : Nat) = (2 ^ 19 - 1) <<< 13 := by decide
    rw [hk, Nat.testBit_shiftLeft, Nat.testBit_two_pow_sub_one]
    by_cases h : 13 ≤ i ∧ i < 32
    · have e : c.toNat + fld v.toNat 32 = 2 ^ 32 * v.toNat + c.toNat := by unfold fld; omega
      rw [e, Nat.testBit_two_pow_mul_add _ (by omega), if_pos h.2]
      rw [Nat.testBit_lt_two_pow (lt_of_lt_of_le hc (Nat.pow_le_pow_right (by decide) h.1))]
      rfl
    · have : (decide (i ≥ 13) && decide (i - 13 < 19)) = false := by
        by_cases h1 : i ≥ 13
        · simp; omega
        · simp [h1]
      rw [this, Bool.and_false]
  · unfold bits fld; omega
  · unfold bits fld; omega

end Sys2Proof.Machine
end

