-- ==== Sys2Proof/Laws/PerInstr.lean ====
section
/-! SUPPORT. Laws/PerInstr.lean: families with one lemma for each command. The family NoWord: the opcode table gives no row bits, so no
word spells the command, with any operands (log 1). -/

namespace Sys2Proof.Laws.NoWord

/-- No word of any length spells the command. -/
def Statement (i : Instr) : Prop := ∀ nbits w : Nat, decodeTableWord nbits w ≠ some i

theorem of_none (i : Instr) : Statement i := by
  intro n w h
  cases h

theorem seqEnd (w : Who) : Statement (.seqEnd w) := of_none _
theorem itemEnd (w : Who) : Statement (.itemEnd w) := of_none _
theorem seqNop (w : Who) : Statement (.seqNop w) := of_none _
theorem seqFence (w : Who) : Statement (.seqFence w) := of_none _
theorem seqEnq (x : CtxKind) : Statement (.seqEnq x) := of_none _
theorem sclAdd (x : CtxKind) : Statement (.sclAdd x) := of_none _
theorem sclSub (x : CtxKind) : Statement (.sclSub x) := of_none _
theorem sclAnd (x : CtxKind) : Statement (.sclAnd x) := of_none _
theorem sclOr (x : CtxKind) : Statement (.sclOr x) := of_none _
theorem sclXor (x : CtxKind) : Statement (.sclXor x) := of_none _
theorem sclShl (x : CtxKind) : Statement (.sclShl x) := of_none _
theorem sclShr (x : CtxKind) : Statement (.sclShr x) := of_none _
theorem sclSar (x : CtxKind) : Statement (.sclSar x) := of_none _
theorem sclMul (x : CtxKind) : Statement (.sclMul x) := of_none _
theorem sclSlt (x : CtxKind) : Statement (.sclSlt x) := of_none _
theorem sclSltu (x : CtxKind) : Statement (.sclSltu x) := of_none _
theorem sclBeq (x : CtxKind) : Statement (.sclBeq x) := of_none _
theorem sclBne (x : CtxKind) : Statement (.sclBne x) := of_none _
theorem sclBlt (x : CtxKind) : Statement (.sclBlt x) := of_none _
theorem sclBge (x : CtxKind) : Statement (.sclBge x) := of_none _
theorem sclJmp (x : CtxKind) : Statement (.sclJmp x) := of_none _
theorem sclLd8 (x : CtxKind) : Statement (.sclLd8 x) := of_none _
theorem sclLd16 (x : CtxKind) : Statement (.sclLd16 x) := of_none _
theorem sclLd32 (x : CtxKind) : Statement (.sclLd32 x) := of_none _
theorem sclLd64 (x : CtxKind) : Statement (.sclLd64 x) := of_none _
theorem sclSt8 (x : CtxKind) : Statement (.sclSt8 x) := of_none _
theorem sclSt16 (x : CtxKind) : Statement (.sclSt16 x) := of_none _
theorem sclSt32 (x : CtxKind) : Statement (.sclSt32 x) := of_none _
theorem sclSt64 (x : CtxKind) : Statement (.sclSt64 x) := of_none _
theorem sclRdreg (x : CtxKind) : Statement (.sclRdreg x) := of_none _
theorem sclWrreg (x : CtxKind) : Statement (.sclWrreg x) := of_none _
theorem arrMma (w : Who) : Statement (.arrMma w) := of_none _
theorem arrEmul (w : Who) : Statement (.arrEmul w) := of_none _
theorem arrBqpush (w : Who) : Statement (.arrBqpush w) := of_none _
theorem arrBqrelease (w : Who) : Statement (.arrBqrelease w) := of_none _
theorem passStart (c : Fin 4) : Statement (.passStart c) := of_none _
theorem passEnd (c : Fin 4) (mismatch : List Nat) : Statement (.passEnd c mismatch) := of_none _
theorem retryRestart (c : Fin 4) : Statement (.retryRestart c) := of_none _
theorem arrayRampDown (c : Fin 4) : Statement (.arrayRampDown c) := of_none _
theorem bqDeadlineShip (q : Fin 16) : Statement (.bqDeadlineShip q) := of_none _
theorem epilogueTile (w : Who) : Statement (.epilogueTile w) := of_none _
theorem vecChain (w : Who) : Statement (.vecChain w) := of_none _
theorem vecMaskld (w : Who) : Statement (.vecMaskld w) := of_none _
theorem vecMaskst (w : Who) : Statement (.vecMaskst w) := of_none _
theorem vecStatclr (w : Who) : Statement (.vecStatclr w) := of_none _
theorem vecSide (w : Who) : Statement (.vecSide w) := of_none _
theorem vecRowclose (w : Who) : Statement (.vecRowclose w) := of_none _
theorem dmaIssue (w : Who) : Statement (.dmaIssue w) := of_none _
theorem dmaIssuem (w : Who) : Statement (.dmaIssuem w) := of_none _
theorem descriptorStart (ch : Fin 32) : Statement (.descriptorStart ch) := of_none _
theorem dmaBeat : Statement (.dmaBeat) := of_none _
theorem sectorPerformed (ch : Fin 32) : Statement (.sectorPerformed ch) := of_none _
theorem descriptorComplete (ch : Fin 32) : Statement (.descriptorComplete ch) := of_none _
theorem dmaChCtrlWrite (p : Party) (ch : Fin 32) (value : Word32) : Statement (.dmaChCtrlWrite p ch value) := of_none _
theorem msgSend (w : Who) : Statement (.msgSend w) := of_none _
theorem msgMsend (w : Who) : Statement (.msgMsend w) := of_none _
theorem msgRclose (w : Who) : Statement (.msgRclose w) := of_none _
theorem sendAccept : Statement (.sendAccept) := of_none _
theorem messageArrival (m : Frame) : Statement (.messageArrival m) := of_none _
theorem handlerDispatch (c : Fin 5) : Statement (.handlerDispatch c) := of_none _
theorem combineDelivery (slot : Fin 512) : Statement (.combineDelivery slot) := of_none _
theorem statusEntry (i : Nat) : Statement (.statusEntry i) := of_none _
theorem creditReturn (r : CreditRet) : Statement (.creditReturn r) := of_none _
theorem synArrive (w : Who) : Statement (.synArrive w) := of_none _
theorem arriveTakesEffect (w : Who) : Statement (.arriveTakesEffect w) := of_none _
theorem synWait (w : Who) : Statement (.synWait w) := of_none _
theorem waitComplete (w : Who) : Statement (.waitComplete w) := of_none _
theorem synRead (w : Who) : Statement (.synRead w) := of_none _
theorem synSet (w : Who) : Statement (.synSet w) := of_none _
theorem atmAdd (w : Who) : Statement (.atmAdd w) := of_none _
theorem atmMin (w : Who) : Statement (.atmMin w) := of_none _
theorem atmMax (w : Who) : Statement (.atmMax w) := of_none _
theorem atmXchg (w : Who) : Statement (.atmXchg w) := of_none _
theorem atmCas (w : Who) : Statement (.atmCas w) := of_none _
theorem portBufferDrain (sector : Nat) : Statement (.portBufferDrain sector) := of_none _
theorem memoryResponse (id : Nat) (r : MemResp) : Statement (.memoryResponse id r) := of_none _
theorem remoteRefusal (id : Nat) (fault : BitVec 16) : Statement (.remoteRefusal id fault) := of_none _
theorem remoteAccess (r : RemoteReq) : Statement (.remoteAccess r) := of_none _
theorem remoteCounterAdd (sc : BitVec 13) (k : AddKind) : Statement (.remoteCounterAdd sc k) := of_none _
theorem synArriveWrite (p : Party) (sc : BitVec 13) (value : Word32) : Statement (.synArriveWrite p sc value) := of_none _
theorem synSetWrite (p : Party) (sc : BitVec 13) (value : Word32) : Statement (.synSetWrite p sc value) := of_none _
theorem synPbufFlush (p : Party) : Statement (.synPbufFlush p) := of_none _
theorem itemIssue (w : Who) : Statement (.itemIssue w) := of_none _
theorem abortSettle (w : Who) : Statement (.abortSettle w) := of_none _
theorem cluEnq (p : Party) (c : Fin 5) (value : Word64) : Statement (.cluEnq p c value) := of_none _
theorem preempt (p : Party) (c : Fin 5) : Statement (.preempt p c) := of_none _
theorem preemptPoint (c : Fin 4) : Statement (.preemptPoint c) := of_none _
theorem preemptSaveDone (c : Fin 4) : Statement (.preemptSaveDone c) := of_none _
theorem preemptRestore (c : Fin 4) : Statement (.preemptRestore c) := of_none _
theorem preemptRestoreDone (c : Fin 4) : Statement (.preemptRestoreDone c) := of_none _
theorem killCmd (p : Party) (c : Fin 5) : Statement (.killCmd p c) := of_none _
theorem killHdl (p : Party) (c : Fin 5) : Statement (.killHdl p c) := of_none _
theorem flush (p : Party) (c : Fin 5) : Statement (.flush p c) := of_none _
theorem strOpen (p : Party) : Statement (.strOpen p) := of_none _
theorem strValidate (p : Party) : Statement (.strValidate p) := of_none _
theorem validationDone : Statement (.validationDone) := of_none _
theorem strCommit (p : Party) : Statement (.strCommit p) := of_none _
theorem strAbort (p : Party) : Statement (.strAbort p) := of_none _
theorem strConfirm (p : Party) : Statement (.strConfirm p) := of_none _
theorem strStageData (p : Party) (data : Word32) : Statement (.strStageData p data) := of_none _
theorem strDeltaData (p : Party) (data : Word32) : Statement (.strDeltaData p data) := of_none _
theorem epochBoundary : Statement (.epochBoundary) := of_none _
theorem marlRecordComplete : Statement (.marlRecordComplete) := of_none _
theorem telemetryTimer : Statement (.telemetryTimer) := of_none _
theorem compactionComplete : Statement (.compactionComplete) := of_none _
theorem mrlSealGo (p : Party) : Statement (.mrlSealGo p) := of_none _
theorem mrlSealRetire (p : Party) (serial : Word32) : Statement (.mrlSealRetire p serial) := of_none _
theorem mrlReadAddr (p : Party) (value : Word32) : Statement (.mrlReadAddr p value) := of_none _
theorem idleEntry : Statement (.idleEntry) := of_none _
theorem napEntry : Statement (.napEntry) := of_none _
theorem coreSleepEntry (c : Fin 4) : Statement (.coreSleepEntry c) := of_none _
theorem coreSleepSaveDone (c : Fin 4) : Statement (.coreSleepSaveDone c) := of_none _
theorem wakeTrigger (t : Trigger) : Statement (.wakeTrigger t) := of_none _
theorem fastClockStable (mhz : BitVec 11) : Statement (.fastClockStable mhz) := of_none _
theorem pwrClock : Statement (.pwrClock) := of_none _
theorem coreWake (c : Fin 4) : Statement (.coreWake c) := of_none _
theorem pwrCtrlStayup (p : Party) (on : Bool) : Statement (.pwrCtrlStayup p on) := of_none _
theorem pwrCtrlOff (p : Party) : Statement (.pwrCtrlOff p) := of_none _
theorem throttleAssert (temp : BitVec 8) : Statement (.throttleAssert temp) := of_none _
theorem throttleDeassert : Statement (.throttleDeassert) := of_none _
theorem powerFailWarning : Statement (.powerFailWarning) := of_none _
theorem pfSafe : Statement (.pfSafe) := of_none _
theorem powerFailClear : Statement (.powerFailClear) := of_none _
theorem powerLoss (torn : Nat) : Statement (.powerLoss torn) := of_none _
theorem startup : Statement (.startup) := of_none _
theorem coreRelease : Statement (.coreRelease) := of_none _
theorem waitTo (w : Who) : Statement (.waitTo w) := of_none _
theorem sendTo (w : Who) : Statement (.sendTo w) := of_none _
theorem commandTo (c : Fin 5) : Statement (.commandTo c) := of_none _
theorem handlerTo (c : Fin 5) : Statement (.handlerTo c) := of_none _
theorem dmaTo (t : DmaTarget) : Statement (.dmaTo t) := of_none _
theorem clockMonitorInterval (cycles : Nat) : Statement (.clockMonitorInterval cycles) := of_none _
theorem droneClockFault : Statement (.droneClockFault) := of_none _
theorem fclkChange (mhz : BitVec 11) : Statement (.fclkChange mhz) := of_none _
theorem droopStart (mv : Nat) : Statement (.droopStart mv) := of_none _
theorem droopEnd : Statement (.droopEnd) := of_none _
theorem overVoltage (mv : Nat) : Statement (.overVoltage mv) := of_none _
theorem tempSample (temp : BitVec 8) : Statement (.tempSample temp) := of_none _
theorem scrub (sector : Nat) : Statement (.scrub sector) := of_none _
theorem flitCrcFail (failed : Fin 9) (load : FlitLoad) : Statement (.flitCrcFail failed load) := of_none _
theorem msgRingAdvance (p : Party) (c : Fin 5) (ring : Fin 32) : Statement (.msgRingAdvance p c ring) := of_none _
theorem msgRingAll (p : Party) (c : Fin 5) : Statement (.msgRingAll p c) := of_none _
theorem msgCreditData (p : Party) (avail : BitVec 16) : Statement (.msgCreditData p avail) := of_none _
theorem pacingIncrease : Statement (.pacingIncrease) := of_none _
theorem pacingAllowance : Statement (.pacingAllowance) := of_none _
theorem dbgPingGo (p : Party) : Statement (.dbgPingGo p) := of_none _
theorem probeArrival (src : Word32) (dest : Word32) : Statement (.probeArrival src dest) := of_none _
theorem probeReply (t2 t3 : Word64) (fault : BitVec 16) : Statement (.probeReply t2 t3 fault) := of_none _
theorem probeTimeout : Statement (.probeTimeout) := of_none _
theorem dbgSnapTake (p : Party) : Statement (.dbgSnapTake p) := of_none _
theorem dbgSnapRelease (p : Party) : Statement (.dbgSnapRelease p) := of_none _
theorem snapForwarded (origin : Fin 256) : Statement (.snapForwarded origin) := of_none _
theorem snapshotCaptureDone : Statement (.snapshotCaptureDone) := of_none _
theorem watchDump (w : Who) : Statement (.watchDump w) := of_none _
theorem registerWrite (p : Party) (off : BitVec 20) (width : Width) (value : Word64) : Statement (.registerWrite p off width value) := of_none _
theorem registerRead (p : Party) (off : BitVec 20) (width : Width) : Statement (.registerRead p off width) := of_none _
theorem traceDrain (n : Nat) : Statement (.traceDrain n) := of_none _
theorem imageDecodedAgain (ok : Bool) : Statement (.imageDecodedAgain ok) := of_none _

end Sys2Proof.Laws.NoWord
end

