-- ==== Sys2Proof/Laws/Power.lean ====
section
/-! SUPPORT. Laws/Power.lean: what wakes, expired watchdogs, snapshots and register rows do (R238, R257, R285, R294). -/

namespace Sys2Proof.Machine

theorem sweep_cores (s : State) (n : Nat) : (s.sweepWatch n).cores = s.cores ∧ (s.sweepWatch n).loam = s.loam ∧ (s.sweepWatch n).ts = s.ts := by
  unfold State.sweepWatch
  dsimp only
  split <;> simp

theorem ctl_row {p : Party} {c : Fin 5} {s : State} (v : Nat) (h : s.portsHeld = false) (hp : (accOf p).sup = true) (hv : v &&& (2 ^ 64 - 1 - 0xF) = 0)
    (h4 : ¬ (bitAt v 0 = true ∧ c.val = 4)) (h32 : v < 2 ^ 32) :
    s.row (fun s => s.fastRow p (0x50 + 4 * c.val) v) = .next (State.answered p (0x50 + 4 * c.val) (s.coreCtrl c v, 0)).activate := by
  rw [State.row_fastRow h (regAt_ctl c) (by simp) (by omega) h32]
  · simp [State.fastDo, State.fastDoA, Fin.ofNat, Nat.mod_eq_of_lt c.2]
  · have h4' : (bitAt v 0 && c.val == 4) = false := by simpa using h4
    simp [writeFault, RPriv.allows, hp, fastBlocks, State.fastRange, h4']
    exact hv

theorem ctlBit_1_0 : bitAt 1 0 = true := by decide

theorem ctlBit_1_1 : bitAt 1 1 = false := by decide

theorem ctlBit_1_2 : bitAt 1 2 = false := by decide

theorem ctlBit_1_3 : bitAt 1 3 = false := by decide

theorem ctlBit_2_0 : bitAt 2 0 = false := by decide

theorem ctlBit_2_1 : bitAt 2 1 = true := by decide

theorem ctlBit_2_2 : bitAt 2 2 = false := by decide

theorem ctlBit_2_3 : bitAt 2 3 = false := by decide

theorem ctlBit_4_0 : bitAt 4 0 = false := by decide

theorem ctlBit_4_1 : bitAt 4 1 = false := by decide

theorem ctlBit_4_2 : bitAt 4 2 = true := by decide

theorem ctlBit_4_3 : bitAt 4 3 = false := by decide

theorem ctlBit_8_0 : bitAt 8 0 = false := by decide

theorem ctlBit_8_1 : bitAt 8 1 = false := by decide

theorem ctlBit_8_2 : bitAt 8 2 = false := by decide

theorem ctlBit_8_3 : bitAt 8 3 = true := by decide

theorem ctl_masks : (1 &&& (2 ^ 64 - 1 - 0xF) = 0) ∧ (2 &&& (2 ^ 64 - 1 - 0xF) = 0) ∧ (4 &&& (2 ^ 64 - 1 - 0xF) = 0) ∧ (8 &&& (2 ^ 64 - 1 - 0xF) = 0) := by decide

theorem enq_row {p : Party} {c : Fin 5} {s : State} (hp : (accOf p).sup = true) (v : Word64) (hv : v.toNat &&& (2 ^ 64 - 1 - 0x3FFFFFF) = 0) (hk : s.enqOk c.val v.toNat = true) :
  writeFault fastBlocks s (accOf p) ⟨⟨0x0020, 8, 5, 8, .S, false, 0x3FFFFFF⟩, c.val, 0⟩ v.toNat = 0 := by
  have h1 : RPriv.allows .S (accOf p) true = true := hp
  have h2 : State.fastRange s 0x0020 c.val v.toNat = true := hk
  unfold writeFault
  simp only [h1, Bool.not_true, Bool.false_eq_true, if_false]
  rw [if_neg]
  rintro (h | h)
  · exact h hv
  · simp only [fastBlocks, h2] at h
    exact absurd h (by decide)

theorem startWake_low {s : State} (h : s.pwr.state = .nap ∨ s.pwr.state = .sleep) : s.startWake.pwr.state = .waking ∧ s.startWake.pwr.wake = some 0 ∧
    s.startWake.out = s.out ++ [.clockRequest] ∧ s.startWake.msg = s.msg ∧ s.startWake.loam = s.loam ∧ s.startWake.str = s.str ∧ s.startWake.held = s.held := by
  refine ⟨?_, ?_, ?_, by simp, by simp, by simp, by simp⟩ <;> (unfold State.startWake; rw [if_pos h]; simp [State.setPower, State.send])

theorem wakeCore_frame (s : State) (c : Nat) : (s.wakeCore c).pwr = s.pwr ∧ (s.wakeCore c).out = s.out ∧ (s.wakeCore c).msg = s.msg ∧
    (s.wakeCore c).loam = s.loam ∧ (s.wakeCore c).str = s.str ∧ (s.wakeCore c).held = s.held := by
  unfold State.wakeCore; split <;> simp

theorem wakeTargets_frame (s : State) : s.wakeTargets.pwr = s.pwr ∧ s.wakeTargets.out = s.out ∧ s.wakeTargets.msg = s.msg ∧
    s.wakeTargets.loam = s.loam ∧ s.wakeTargets.str = s.str ∧ s.wakeTargets.held = s.held := by
  unfold State.wakeTargets
  refine foldl_keeps (P := fun t : State => t.pwr = s.pwr ∧ t.out = s.out ∧ t.msg = s.msg ∧ t.loam = s.loam ∧ t.str = s.str ∧ t.held = s.held)
    ?_ _ _ ⟨rfl, rfl, rfl, rfl, rfl, rfl⟩
  rintro b a h
  split
  · obtain ⟨h1, h2, h3, h4, h5, h6⟩ := h
    obtain ⟨g1, g2, g3, g4, g5, g6⟩ := wakeCore_frame b a
    exact ⟨g1.trans h1, g2.trans h2, g3.trans h3, g4.trans h4, g5.trans h5, g6.trans h6⟩
  · exact h

/-- What `State.wakeCore` does to each core: the named one, if it sleeps and no wake of it runs, begins its wake. -/
theorem wakeCore_core (s : State) (c k : Nat) : (s.wakeCore c).core k =
    if k = c ∧ (s.core k).asleep = true ∧ (s.core k).wakeTick = none then { s.core k with wakeTick := some 0 } else s.core k := by
  unfold State.wakeCore
  by_cases hk : k = c
  · subst hk
    by_cases h : (s.core k).asleep = true ∧ (s.core k).wakeTick = none
    · rw [if_pos ⟨h.1, by simp [h.2]⟩, if_pos ⟨rfl, h⟩, State.core_modCore_self]
    · rw [if_neg (fun x => h ⟨x.1, by simpa using x.2⟩), if_neg fun x => h x.2]
  · simp only [hk, false_and, if_false]
    split
    · exact State.core_modCore_ne _ _ hk
    · rfl

/-- What `State.wakeTargets` does to each core. -/
theorem wakeTargets_core (s : State) (k : Nat) : s.wakeTargets.core k =
    if k < 4 ∧ s.heldFor k = true ∧ coreOn s.str.live.coreEn k = true ∧ (s.core k).asleep = true ∧ (s.core k).wakeTick = none
    then { s.core k with wakeTick := some 0 } else s.core k := by
  have key : ∀ (l : List Nat) (t : State), t.str = s.str →
      (l.foldl (fun (t : State) c => if s.heldFor c && coreOn t.str.live.coreEn c then t.wakeCore c else t) t).core k =
      if k ∈ l ∧ s.heldFor k = true ∧ coreOn s.str.live.coreEn k = true ∧ (t.core k).asleep = true ∧ (t.core k).wakeTick = none
      then { t.core k with wakeTick := some 0 } else t.core k := by
    intro l
    induction l with
    | nil => intro t _; simp
    | cons a l ih =>
      intro t ht
      rw [List.foldl_cons]
      by_cases ha : (s.heldFor a && coreOn t.str.live.coreEn a) = true
      · rw [if_pos ha, ih _ ((wakeCore_frame t a).2.2.2.2.1.trans ht), wakeCore_core, ht] at *
        rw [Bool.and_eq_true] at ha
        by_cases hk : k = a
        · subst hk
          by_cases h : (t.core k).asleep = true ∧ (t.core k).wakeTick = none
          · simp [h, ha]
          · have h' : ¬((t.core k).asleep = true ∧ (t.core k).wakeTick = none) := h
            simp [h']
        · simp [hk]
      · rw [if_neg ha, ih _ ht]
        rw [ht, Bool.and_eq_true] at ha
        by_cases hk : k = a
        · subst hk
          have : ¬(s.heldFor k = true ∧ coreOn s.str.live.coreEn k = true ∧ (t.core k).asleep = true ∧ (t.core k).wakeTick = none) := fun x => ha ⟨x.1, x.2.1⟩
          simp [this]
        · simp [hk]
  unfold State.wakeTargets
  rw [key _ _ rfl]
  simp only [List.mem_range]

theorem startWake_core (s : State) (k : Nat) : s.startWake.core k = s.core k := by
  have : s.startWake.cores = s.cores := by unfold State.startWake; split <;> simp
  unfold State.core; rw [this]

theorem startWake_heldFor (s : State) (k : Nat) : s.startWake.heldFor k = s.heldFor k := by
  have : s.startWake.held = s.held := by unfold State.startWake; split <;> simp
  unfold State.heldFor; rw [this]

theorem startWake_str (s : State) : s.startWake.str = s.str := by unfold State.startWake; split <;> simp

/-- What the end of a wake does: a waking cluster whose clock has arrived is Active with it once no hold is on. -/
theorem finishWake_ends {s : State} {n mhz : Nat} (w : s.pwr.wake = some n) (a : s.pwr.clkArrived = some mhz) (e : s.pwr.state = .waking)
    (h : s.clockHeld = false) :
    s.finishWake.pwr = { s.pwr with state := .active, wake := none, clkArrived := none, fclk := mhz, idleTicks := 0 } ∧
      s.finishWake.held = s.held ∧ s.finishWake.cores = s.cores ∧ s.finishWake.msg = s.msg ∧ s.finishWake.loam = s.loam ∧
      s.finishWake.str = s.str ∧ s.finishWake.mrl = s.mrl := by
  unfold State.finishWake
  rw [w, a]
  dsimp only
  rw [if_neg (by simp [e, h])]
  simp [State.setPower]

theorem finishWake_waits {s : State} (h : s.pwr.wake = none ∨ s.pwr.clkArrived = none ∨ s.pwr.state ≠ .waking ∨ s.clockHeld = true) :
    s.finishWake = s := by
  unfold State.finishWake
  split
  · next w a => rw [if_pos]; simpa [w, a] using h
  · rfl

theorem finishWake_frame (s : State) : s.finishWake.held = s.held ∧ s.finishWake.cores = s.cores ∧ s.finishWake.loam = s.loam := by
  unfold State.finishWake
  split
  · dsimp only; split <;> simp
  · exact ⟨rfl, rfl, rfl⟩

theorem wakeCores_frame (s : State) : s.wakeCores.pwr = s.pwr ∧ s.wakeCores.out = s.out ∧ s.wakeCores.loam = s.loam := by
  unfold State.wakeCores
  generalize List.range 4 = l
  induction l generalizing s with
  | nil => exact ⟨rfl, rfl, rfl⟩
  | cons c l ih =>
    rw [List.foldl_cons]
    obtain ⟨a, b, d⟩ := ih (if coreOn s.str.live.coreEn c then s.wakeCore c else s)
    rw [a, b, d]
    split
    · exact ⟨(wakeCore_frame s c).1, (wakeCore_frame s c).2.1, (wakeCore_frame s c).2.2.2.1⟩
    · exact ⟨rfl, rfl, rfl⟩

theorem pwrctrl_row (p : Party) (s : State) (hp : (accOf p).sup = true) (h : s.pwr.state ≠ .off) (he : s.heldEarly p 0xB004 true = false) (v : Nat) (hv : v < 4) :
    s.row (fun s => s.aonRow p 0xB004 v) = .next ((s.pwrCtrl v).send (.regAnswer p 0 0)) := by
  have m : v &&& (2 ^ 64 - 1 - 3) = 0 := by interval_cases v <;> decide
  have e := State.row_aonRow (v := v) h he regAt_pwrctrl (by decide) (writeFault_ok (b := allBlocks) (s := s) (a := accOf p)
    (x := ⟨⟨0xB004, 4, 1, 4, .S, false, 3⟩, 0, 0⟩) (v := v) hp rfl m (by rfl))
  have e2 : s.aonDo 0xB004 0 v = (s.pwrCtrl v, 0) := by simp [State.aonDo]
  refine e.trans ?_
  rw [← State.answered_ok p 0xB004, ← e2]

theorem flushBegin_queue (s : State) (h : s.committing = false) (hr : s.pwr.start ≠ .reset) : s.flushBegin.mrl.queue = s.mrl.queue ++ [⟨.telemetry, s.mrl.nextSerial, s.ts.toNat,
      telemetryBody (s.tel.inc.filter fun e => e.2 != 0)⟩] ∧ s.flushBegin.mrl.compact = false ∧ s.flushBegin.pwr = s.pwr ∧ s.flushBegin.loam = s.loam ∧
      s.flushBegin.str = s.str ∧ s.flushBegin.cores = s.cores ∧ s.flushBegin.out = s.out := by
  unfold State.flushBegin
  simp [h, hr, State.admitTelemetry, State.enter]

theorem wakeTrigger_low {s : State} (h : s.pwr.state ≠ .off) (g : Trigger) (hl : s.pwr.state = .nap ∨ s.pwr.state = .sleep)
   (hg : (g = .traffic ∧ s.held ≠ []) ∨ (∃ q, g = .batch q ∧ (deadlineShip q.val s).isSome = true) ∨
        (∃ w, g = .watchdog w ∧ (s.item w).abort.isSome = true) ∨ (g = .epoch ∧ s.str.swap.isSome = true) ∨
        (g = .stayUp ∧ s.pwr.stayUp = true)) :
      ∃ t, exec (.wakeTrigger g) s = .next t ∧ t.pwr.state = .waking ∧ t.pwr.wake = some 0 ∧ t.out = s.out ++ [.clockRequest] ∧
        t.msg = s.msg ∧ t.loam = s.loam ∧ t.str = s.str ∧ t.held = s.held := by
  · have low : (s.pwr.state == .nap || s.pwr.state == .sleep) = true := by rcases hl with x | x <;> simp [x]
    have hl' := low
    simp only [Bool.or_eq_true, beq_iff_eq] at hl'
    have w := startWake_low hl
    have w' := w
    rcases hg with ⟨rfl, x⟩ | ⟨q, rfl, x⟩ | ⟨q, rfl, x⟩ | ⟨rfl, x⟩ | ⟨rfl, x⟩
    · refine ⟨_, State.row_stay h (t := s.startWake.wakeTargets) (by simp [wakeStep, hl', x]), ?_⟩
      obtain ⟨b1, b2, b3, b4, b5, b6⟩ := wakeTargets_frame s.startWake
      rw [b1, b2, b3, b4, b5, b6]; exact w
    · exact ⟨_, State.row_stay h (t := s.startWake) (by simp [wakeStep, hl', x]), w⟩
    · refine ⟨_, State.row_stay h (t := s.startWake.wakeCore q.core.val) (by simp [wakeStep, hl', x]), ?_⟩
      obtain ⟨b1, b2, b3, b4, b5, b6⟩ := wakeCore_frame s.startWake q.core.val
      rw [b1, b2, b3, b4, b5, b6]; exact w
    · exact ⟨_, State.row_stay h (t := s.startWake) (by simp [wakeStep, hl', x]), w⟩
    · exact ⟨_, State.row_stay h (t := s.startWake) (by simp [wakeStep, hl', x]), w⟩

theorem pwrClock_late {s : State} (h : s.pwr.state ≠ .off) (n : Nat) (a1 : s.pwr.wake = some n) (a2 : 1000 ≤ n) (a3 : s.pwr.wakeWarned = false) (a4 : s.pwr.clkArrived = none) :
        ∃ t, exec .pwrClock s = .next t ∧ t.pwr.wakeWarned = true ∧ t.pwr.wake = some n ∧ t.cores = s.cores ∧ t.loam = s.loam ∧
          t.tel.log.head? = some ⟨0x0B06, 7, false, false, 0, s.ts.toNat % 2 ^ 48⟩ := by
  · refine ⟨_, State.row_stay h (t := _) (by unfold clockLate; rw [a1]; dsimp only; rw [if_neg (by simp [a3, a4]; omega)]), ?_⟩
    refine ⟨by simp, by simp [a1], by simp, by simp, logOnly_head ..⟩

theorem askSnap_frame (s : State) (c f : Nat) : (s.askSnap c f).cores = s.cores ∧ (s.askSnap c f).tel = s.tel ∧ (s.askSnap c f).loam = s.loam ∧
    (s.askSnap c f).syn = s.syn ∧ (s.askSnap c f).dbg = (s.requestSnap c f (pkgIndex s.id)).dbg ∧ (s.askSnap c f).msg = s.msg ∧ (s.askSnap c f).dma = s.dma ∧ (s.askSnap c f).ts = s.ts := by
  unfold State.askSnap State.requestSnap
  dsimp only
  split <;> (split; · simp [State.send]) <;> (split <;> simp [State.send])

theorem unbear_none {s : State} {w : Who} (h : (s.item w).abort = none) : s.unbear w = s := by unfold State.unbear; rw [h]

theorem expire_zero {s : State} {w : Who} (f b : Nat) (ha : (s.item w).abort = none) (h0 : s.dbg.snapState = 0) : let t := s.expire w f b
    t.dbg.snapState = 1 ∧ t.dbg.snapCause = 1 ∧ t.dbg.snapFault = f ∧ t.dbg.snapTick = s.ts.toNat ∧
          (t.ctx w).phase = (s.ctx w).phase ∧
          (t.item w).abort = some { fault := f, snap := true, tick := s.ticks, was := (s.item w).waitedAt, seen := [f] } ∧
          tabGet 0 t.tel.inc b = stick64 (tabGet 0 s.tel.inc b) 1 ∧ t.loam = s.loam ∧ t.syn = s.syn := by
  intro t
  obtain ⟨u, hu⟩ : ∃ u : State, u = (s.bin b 1).askSnap 1 f := ⟨_, rfl⟩
  obtain ⟨a1, a2, a3, a4, a5, a6, a7, a8⟩ := askSnap_frame (s.bin b 1) 1 f
  rw [← hu] at a1 a2 a3 a4 a5 a6 a7
  have hd : u.dbg = { s.dbg with snapState := 1, snapCause := 1, snapFault := f, snapOrigin := pkgIndex s.id, snapTick := s.ts.toNat } := by
    rw [a5]; unfold State.requestSnap; simp [h0]
  have e : t = u.modItem w fun i =>
      { i with abort := some { fault := f, snap := true, tick := s.ticks, was := (s.item w).waitedAt, seen := [f] } } := by
    show s.expire w f b = _
    unfold State.expire
    rw [unbear_none ha, ← hu, Item.seenFaults_of_none ha]
    dsimp only
    rw [if_pos (by simp [hd])]
  have hc : u.ctx w = s.ctx w := by unfold State.ctx State.core; rw [a1]; rfl
  rw [e]
  refine ⟨by simp [hd], by simp [hd], by simp [hd], by simp [hd], by simp [hc], by simp, ?_, by simp [a3], by simp [a4]⟩
  rw [State.modItem_tel, a2]
  simp [State.bin, tabMod]

theorem notStarted_frame (s : State) (w : Who) (f : Nat) (h : Hdr) (hm : (s.item w).msg = none) :
    ((s.notStarted w f h).ctx w).phase = .idle ∧ ((s.notStarted w f h).core w.core.val).lastFault = f ∧ (s.notStarted w f h).loam = s.loam ∧
    (s.notStarted w f h).syn = s.syn := by
  unfold State.notStarted
  simp only [hm]
  have keep : ∀ (x : Core) k y, (x.setCtx k y).lastFault = x.lastFault := by intro x k y; cases k <;> rfl
  refine ⟨?_, ?_, by simp [State.noteFault], by simp [State.noteFault]⟩
  · simp
  · rw [State.lastFault_idleAnew]
    unfold State.setCtx
    rw [State.core_modCore_self, keep]
    simp [State.noteFault]

theorem stopWatch_chan (s : State) (no k : Nat) (hk : k ≠ 32) : ({ s with dma := s.dma.stopWatch no } : State).chan k = s.chan k := by
  unfold State.chan Dma.stopWatch
  dsimp only
  split
  · rfl
  · exact tabGet_tabSet_ne _ _ _ hk

theorem raise_chan (s : State) (w : Who) (f d k : Nat) (hk : k ≠ 32) : (s.raise w f d).chan k = s.chan k := by
  have begins : ∀ X : State, (X.beginAbort w f).chan k = X.chan k := by
    intro X
    unfold State.beginAbort
    have e1 : ∀ X : State, (X.markAbort w f).dma = X.dma := by intro X; simp [State.markAbort, State.noteFault]
    rw [State.chan_of (congrArg Dma.ch (e1 _)) k]
    have e2 : ∀ X : State, (X.stopEngines w).chan k = X.chan k := by
      intro X
      unfold State.stopEngines
      dsimp only
      split
      · rw [State.chan_of (s := ({ X with dma := X.dma.stopWatch (X.item w).no } : State)) (by simp) k]; exact stopWatch_chan _ _ _ hk
      · rw [State.chan_of (s := ({ X with dma := X.dma.stopWatch (X.item w).no } : State)) (by simp) k]; exact stopWatch_chan _ _ _ hk
    exact e2 _
  unfold State.raise
  repeat' split
  · rw [begins]; exact State.chan_of (by simp) k
  · exact State.chan_of (by simp) k
  · rw [begins]; exact State.chan_of (by simp) k
  · exact State.chan_of (by simp) k

theorem raiseFor_chan (s : State) (no : Nat) (w : Who) (f d k : Nat) (hk : k ≠ 32) : (s.raiseFor no w f d).chan k = s.chan k := by
  unfold State.raiseFor State.raiseElse
  split
  · exact raise_chan _ _ _ _ _ hk
  · exact State.chan_of (by simp) _
  · exact State.chan_of (by simp) _

theorem stopDesc_stops (s : State) (ch no f a : Nat) (r : DescRun) (hk : ch ≠ 32) (hr : (s.chan ch).run.find? (·.no == no) = some r) (hs : r.stopped = false) :
    ((s.stopDesc ch no f a).chan ch).fault = f ∧ ((s.stopDesc ch no f a).chan ch).queue = (s.chan ch).queue ∧
    (∀ x ∈ ((s.stopDesc ch no f a).chan ch).run, x.no = no → x.stopped = true) ∧ (s.stopDesc ch no f a).loam = s.loam ∧ (s.stopDesc ch no f a).syn = s.syn := by
  unfold State.stopDesc
  dsimp only
  rw [if_neg hk, hr]
  dsimp only
  rw [if_neg (by simp [hs])]
  obtain ⟨B, hB⟩ : ∃ B : State, B = s.modDesc ch no fun r => { r with stopped := true, waiting := none, buf := [], kept := none } := ⟨_, rfl⟩
  rw [← hB]
  unfold State.noteStop
  dsimp only
  obtain ⟨D, hD⟩ : ∃ D : State, D = { B.setChan ch { B.chan ch with fault := f } with
      dma := (B.setChan ch { B.chan ch with fault := f }).dma.noteErr ch f (a - a % 64) } := ⟨_, rfl⟩
  rw [← hD]
  have hDC : D.chan ch = { B.chan ch with fault := f } := by
    have e : D.chan ch = (B.setChan ch { B.chan ch with fault := f }).chan ch := by
      rw [hD]
      exact State.chan_of (by unfold Dma.noteErr; split <;> rfl) ch
    rw [e, State.chan_setChan]
  have hDf : D.loam = s.loam ∧ D.syn = s.syn := by rw [hD, hB]; exact ⟨by simp [State.modDesc], by simp [State.modDesc]⟩
  rw [State.chan_of (s := D.raiseFor r.itemNo r.who f (a - a % 64)) (by simp) ch, raiseFor_chan _ _ _ _ _ _ hk, hDC]
  have hBc : B.chan ch = { s.chan ch with run := (s.chan ch).run.map fun r =>
      if r.no = no then { r with stopped := true, waiting := none, buf := [], kept := none } else r } := by
    rw [hB]; simp [State.modDesc]
  rw [hBc]
  refine ⟨rfl, rfl, ?_, by simp [hDf.1], by simp [hDf.2]⟩
  intro x hx hn
  simp only [List.mem_map] at hx
  obtain ⟨y, hy, rfl⟩ := hx
  split at hn
  · next q => rw [if_pos q]
  · next q => exact absurd hn q

theorem snap_row (p : Party) (s : State) (hp : (accOf p).sup = true) (h : s.portsHeld = false) (v : Nat) (hv : v < 4) :
    s.row (fun s => s.fastRow p 0xE104 v) = .next ((s.snapCtrl v).send (.regAnswer p 0 0)).activate := by
  have m : v &&& (2 ^ 64 - 1 - 3) = 0 := by interval_cases v <;> decide
  have e := State.row_fastRow (v := v) h regAt_snap (by simp) (by decide) (by omega) (writeFault_ok (b := fastBlocks) (s := s) (a := accOf p)
    (x := ⟨⟨0xE104, 4, 1, 4, .S, false, 3⟩, 0, 0⟩) (v := v) hp rfl m (by rfl))
  have e2 : s.fastDo 0xE104 0 v = (s.snapCtrl v, 0) := by simp [State.fastDo, State.fastDoB]
  refine e.trans ?_
  rw [← State.answered_ok p 0xE104, ← e2]

/-- An item in its issue steps, which an expired watchdog does not let start (log 42). -/
def State.unstarted (s : State) (w : Who) : Prop := (s.ctx w).phase = .waitRange ∨ (s.ctx w).phase = .issuing

/-- What the expired watchdog of an item leaves of its context. -/
def Ctx.Expired (x : Ctx) (early : Prop) (f : Nat) : Prop := (early → x = {}) ∧ (¬early → x.phase = .aborting ∧ x.item.record.fault = f)

theorem beginExpired_self (s : State) (w : Who) (a : Abort) (h : (s.item w).abort = some a) (hs : a.snap = true) :
    ((s.beginExpired w).ctx w).Expired (s.unstarted w) a.fault := by
  unfold State.beginExpired
  rw [h]; dsimp only; rw [if_neg (by simp [hs])]
  unfold State.unstarted Ctx.Expired
  split
  · next e => simp [e, State.notStarted]
  · next e => simp [e, State.notStarted]
  · next e1 e2 => exact ⟨fun h => by rcases h with h | h <;> contradiction, fun _ => by simp [State.ctx_beginAbort]⟩

theorem notStarted_ne (s : State) {w v : Who} (f : Nat) (x : Hdr) (h : v ≠ w) : (s.notStarted w f x).ctx v = s.ctx v := by
  unfold State.notStarted
  dsimp only
  rw [State.ctx_idleAnew, State.ctx_setCtx_ne _ _ h]
  split
  · rw [State.ctx_of_cores (State.retireMsg_frame ..).1]; simp
  · simp

theorem notStarted_rest (s : State) (w : Who) (f : Nat) (x : Hdr) : (s.notStarted w f x).dbg.snapState = s.dbg.snapState ∧
    (s.notStarted w f x).dbg.snap = s.dbg.snap ∧ (s.notStarted w f x).dbg.omitted = s.dbg.omitted ∧ (s.notStarted w f x).loam = s.loam ∧
    (s.notStarted w f x).syn = s.syn := by
  obtain ⟨l1, l2, l3, -⟩ := logFault_snap s f w.core.val (isHdl w) true (s.item w).addr
  unfold State.notStarted
  dsimp only
  split
  · next m _ =>
    obtain ⟨-, r2, -, r4⟩ := State.retireMsg_frame ((s.logFault f w.core.val (isHdl w) true (s.item w).addr).noteFault w.core.val f x) w.core.val m
    refine ⟨?_, ?_, ?_, by simp [r4], by simp [r2]⟩ <;>
      (unfold State.retireMsg State.freeEntries State.returnCredits; dsimp only; split <;> simpa [State.noteFault, State.send])
  · exact ⟨by simp [l1], by simp [l2], by simp [l3], by simp, by simp⟩

theorem ctx_beginAbort_ne (s : State) {w v : Who} (c : Nat) (h : v ≠ w) : (s.beginAbort w c).ctx v = s.ctx v := by
  simp [State.beginAbort, State.markAbort, State.ctx_setCtx_ne _ _ h]

theorem beginExpired_ne (s : State) {w v : Who} (h : v ≠ w) : (s.beginExpired w).ctx v = s.ctx v := by
  unfold State.beginExpired
  split
  · split
    · rfl
    · split
      · exact notStarted_ne _ _ _ h
      · exact notStarted_ne _ _ _ h
      · rw [ctx_beginAbort_ne _ _ h]; simp
  · rfl

theorem beginExpired_none (s : State) {w : Who} (h : (s.item w).abort = none) : s.beginExpired w = s := by
  unfold State.beginExpired; rw [h]

theorem beginExpired_frame (s : State) (w : Who) : (s.beginExpired w).dbg.snapState = s.dbg.snapState ∧ (s.beginExpired w).dbg.snap = s.dbg.snap ∧
    (s.beginExpired w).dbg.omitted = s.dbg.omitted ∧ (s.beginExpired w).loam = s.loam ∧ (s.beginExpired w).syn = s.syn := by
  unfold State.beginExpired
  split
  · split
    · exact ⟨rfl, rfl, rfl, rfl, rfl⟩
    · split
      · exact notStarted_rest ..
      · exact notStarted_rest ..
      · have k : ∀ (X : State) c, (X.beginAbort w c).dbg = X.dbg := by intro X c; simp
        rw [k]
        exact ⟨(logFault_snap ..).1, (logFault_snap ..).2.1, (logFault_snap ..).2.2.1, by simp, by simp⟩
  · exact ⟨rfl, rfl, rfl, rfl, rfl⟩

theorem unbear_frame (s : State) (w : Who) : (s.unbear w).cores = s.cores ∧ (s.unbear w).loam = s.loam ∧ (s.unbear w).syn = s.syn ∧
    (s.unbear w).ticks = s.ticks ∧ (s.unbear w).dbg.snapState = s.dbg.snapState := by
  unfold State.unbear
  split
  · split
    · exact ⟨by simp, by simp, by simp, by simp, (logFault_snap ..).1⟩
    · exact ⟨rfl, rfl, rfl, rfl, rfl⟩
  · exact ⟨rfl, rfl, rfl, rfl, rfl⟩

theorem requestSnap_state (s : State) (c f o : Nat) : (s.requestSnap c f o).dbg.snapState = if s.dbg.snapState = 2 then 2 else 1 := by
  unfold State.requestSnap
  dsimp only
  split
  · next h => exact h
  · split
    · next h => exact h
    · rfl

/-- An expired watchdog whose request is not missed: the item bears its fault, and its abort waits for the snapshot. -/
theorem expire_waits {s : State} {w : Who} (f b : Nat) (h0 : s.dbg.snapState ≠ 2) : let t := s.expire w f b
    (t.ctx w).phase = (s.ctx w).phase ∧
      (t.item w).abort = some { fault := f, snap := true, tick := s.ticks, was := (s.item w).waitedAt, seen := f :: (s.item w).seenFaults } ∧
      t.loam = s.loam ∧ t.syn = s.syn := by
  intro t
  obtain ⟨u1, u2, u3, u4, u5⟩ := unbear_frame s w
  obtain ⟨u, hu⟩ : ∃ u : State, u = ((s.unbear w).bin b 1).askSnap 1 f := ⟨_, rfl⟩
  obtain ⟨a1, a2, a3, a4, a5, -⟩ := askSnap_frame ((s.unbear w).bin b 1) 1 f
  rw [← hu] at a1 a3 a4 a5
  have hd : u.dbg.snapState = 1 := by
    rw [a5, requestSnap_state, State.bin_dbg, u5, if_neg h0]
  have hc : u.ctx w = s.ctx w := by unfold State.ctx State.core; rw [a1, State.bin_cores, u1]
  have e : t = u.modItem w fun i =>
      { i with abort := some { fault := f, snap := true, tick := s.ticks, was := (s.item w).waitedAt, seen := f :: (s.item w).seenFaults } } := by
    show s.expire w f b = _
    unfold State.expire
    dsimp only
    rw [← hu, if_pos (by simp [hd])]
  rw [e]
  exact ⟨by simp [hc], by simp, by rw [State.modItem_loam, a3, State.bin_loam, u2], by rw [State.modItem_syn, a4, State.bin_syn, u3]⟩

/-- An expired watchdog whose request is missed: the abort begins at once, or the item is not started. -/
theorem expire_held {s : State} {w : Who} (f b : Nat) (ha : (s.item w).abort = none) (h0 : s.dbg.snapState = 2) : let t := s.expire w f b
    t.dbg.missed = stick16 s.dbg.missed 1 ∧ t.loam = s.loam ∧ t.syn = s.syn ∧
      ((s.ctx w).phase = .issuing ∨ (s.ctx w).phase = .waitRange → t.ctx w = {} ∧ (t.core w.core.val).lastFault = f) ∧
      ((s.ctx w).phase ≠ .issuing → (s.ctx w).phase ≠ .waitRange → (t.ctx w).phase = .aborting ∧ (t.item w).record.fault = f) := by
  intro t
  obtain ⟨u, hu⟩ : ∃ u : State, u = (s.bin b 1).askSnap 1 f := ⟨_, rfl⟩
  obtain ⟨a1, a2, a3, a4, a5, a6, a7, a8⟩ := askSnap_frame (s.bin b 1) 1 f
  rw [← hu] at a1 a2 a3 a4 a5 a6 a7
  have hd : u.dbg = { s.dbg with missed := stick16 s.dbg.missed 1 } := by
    rw [a5]; unfold State.requestSnap; simp [h0]
  obtain ⟨v, hv⟩ : ∃ v : State, v = u.modItem w fun i =>
      { i with abort := some { fault := f, snap := true, tick := s.ticks, was := (s.item w).waitedAt, seen := [f] } } := ⟨_, rfl⟩
  have hc : u.ctx w = s.ctx w := by unfold State.ctx State.core; rw [a1]; rfl
  have hph : (v.ctx w).phase = (s.ctx w).phase := by rw [hv]; simp [hc]
  have hvi : (v.item w).abort = some { fault := f, snap := true, tick := s.ticks, was := (s.item w).waitedAt, seen := [f] } := by rw [hv]; simp
  have vd : v.dbg.missed = stick16 s.dbg.missed 1 := by rw [hv]; simp [hd]
  have vl : v.loam = s.loam ∧ v.syn = s.syn := by rw [hv]; exact ⟨by simp [a3], by simp [a4]⟩
  have e : t = v.beginExpired w := by
    show s.expire w f b = _
    unfold State.expire
    rw [unbear_none ha, ← hu, Item.seenFaults_of_none ha]
    dsimp only
    rw [← hv, if_neg (by simp [hv, hd, h0])]
  have bf := beginExpired_frame v w
  rw [e]
  have lm : ∀ (X : State) a b c d e, (X.logFault a b c d e).dbg.missed = X.dbg.missed := by
    intro X a b c d e
    unfold State.logFault
    dsimp only
    rw [emit_missed]
    split <;> rfl
  have nm : (v.notStarted w f (v.item w).hdr).dbg.missed = v.dbg.missed ∧ (v.notStarted w f (v.item w).hdr).ctx w = {} ∧
      ((v.notStarted w f (v.item w).hdr).core w.core.val).lastFault = f := by
    unfold State.notStarted
    dsimp only
    have lf : ∀ (X : State) y, ((X.setCtx w y).core w.core.val).lastFault = (X.core w.core.val).lastFault := by
      intro X y
      unfold State.setCtx
      rw [State.core_modCore_self]
      cases w with | mk c k => cases k <;> rfl
    refine ⟨?_, by rw [State.ctx_idleAnew]; exact State.ctx_setCtx_self .., ?_⟩
    · rw [State.modCore_dbg, State.setCtx_dbg]
      split
      · unfold State.retireMsg State.freeEntries State.returnCredits; dsimp only; split <;> simp [State.noteFault, State.send, lm]
      · simp [State.noteFault, lm]
    · rw [State.lastFault_idleAnew, lf]
      have : ∀ X : State, ((X.noteFault w.core.val f (v.item w).hdr).core w.core.val).lastFault = f := by
        intro X; simp [State.noteFault]
      split
      · have : ∀ X : State, X.cores = (State.noteFault (s := v.logFault f w.core.val (isHdl w) true (v.item w).addr) w.core.val f (v.item w).hdr).cores →
            (X.core w.core.val).lastFault = f := by
          intro X h; unfold State.core; rw [h]; exact this _
        exact this _ (State.retireMsg_frame ..).1
      · exact this _
  refine ⟨?_, by rw [bf.2.2.2.1, vl.1], by rw [bf.2.2.2.2, vl.2], fun hp => ?_, fun h1 h2 => ?_⟩
  · rw [← vd]
    unfold State.beginExpired
    rw [hvi]
    dsimp only
    rw [if_neg (by decide)]
    split
    · exact nm.1
    · exact nm.1
    · have : ∀ X : State, (X.beginAbort w f).dbg = X.dbg := by intro X; simp
      rw [this, lm]
  · unfold State.beginExpired
    rw [hvi]
    dsimp only
    rw [if_neg (by decide)]
    rcases hp with hp | hp <;> rw [hph, hp] <;> exact ⟨nm.2.1, nm.2.2⟩
  · have x := (beginExpired_self v w _ hvi rfl).2 (by unfold State.unstarted; rw [hph]; simp [h1, h2])
    exact x

/-- A watchdog that expires after a fault of its tick which goes before it. -/
theorem expireLate_frame {s : State} {w : Who} (f b : Nat) {a : Abort} (ha : (s.item w).abort = some a) : let t := s.expireLate w f b
    (t.ctx w).phase = (s.ctx w).phase ∧ (t.item w).abort = some { a with seen := f :: a.seen } ∧
      (∃ e : LogEnt, t.tel.log.head? = some e ∧ e.code = f ∧ e.core = w.core.val ∧ e.borne = false) ∧ t.loam = s.loam ∧ t.syn = s.syn := by
  intro t
  obtain ⟨a1, a2, a3, a4, a5, -⟩ := askSnap_frame (s.bin b 1) 1 f
  have hc : ((s.bin b 1).askSnap 1 f).ctx w = s.ctx w := by unfold State.ctx State.core; rw [a1]; rfl
  have hi : ((s.bin b 1).askSnap 1 f).item w = s.item w := by unfold State.item; rw [hc]
  have e : t = (((s.bin b 1).askSnap 1 f).logFault f w.core.val (isHdl w) false (s.item w).addr).modItem w fun i =>
    { i with abort := i.abort.map fun a => { a with seen := f :: a.seen } } := rfl
  rw [e]
  refine ⟨by simp [hc], by simp [hi, ha], ?_, by simp, by simp⟩
  rw [State.modItem_tel]
  exact ⟨_, logFault_head .., rfl, rfl, rfl⟩

theorem snapHead_frame (s : State) (c r : Nat) : (s.snapHead c r).1.cores = s.cores ∧ (s.snapHead c r).1.syn = s.syn := by
  unfold State.snapHead
  dsimp only
  have T := Touched.loamRead s 7 (s.ringAddr c r (s.ring c r).rd) 16
  split
  · exact ⟨T.cores, T.syn⟩
  · simp only [State.freeWord64]
    exact ⟨by simp [T.cores], by simp [T.syn]⟩

/-- The reading of the ring heads for a snapshot changes no core and no counter. -/
theorem snapRing_frame (s : State) : s.snapRing.1.cores = s.cores ∧ s.snapRing.1.syn = s.syn := by
  unfold State.snapRing
  refine foldl_keeps (P := fun q : State × List SnapEnt => q.1.cores = s.cores ∧ q.1.syn = s.syn) ?_ _ _ ⟨rfl, rfl⟩
  intro b a h
  dsimp only
  split
  · exact h
  · exact ⟨(snapHead_frame ..).1.trans h.1, (snapHead_frame ..).2.trans h.2⟩

theorem expired_fold (l : List Who) (w : Who) : ∀ s : State, l.Nodup →
    (∀ a, w ∈ l → (s.item w).abort = some a → a.snap = true →
      ((l.foldl State.beginExpired s).ctx w).Expired (s.unstarted w) a.fault) ∧
    (w ∉ l ∨ (s.item w).abort = none → (l.foldl State.beginExpired s).ctx w = s.ctx w) ∧
    ((l.foldl State.beginExpired s).dbg.snapState = s.dbg.snapState ∧ (l.foldl State.beginExpired s).dbg.snap = s.dbg.snap ∧
    (l.foldl State.beginExpired s).dbg.omitted = s.dbg.omitted ∧ (l.foldl State.beginExpired s).loam = s.loam ∧ (l.foldl State.beginExpired s).syn = s.syn) := by
  induction l with
  | nil => intro s _; exact ⟨fun a h => by simp at h, fun _ => rfl, rfl, rfl, rfl, rfl, rfl⟩
  | cons v l ih =>
    intro s hn
    rw [List.nodup_cons] at hn
    obtain ⟨i1, i2, i3, i4, i5, i6, i7⟩ := ih (s.beginExpired v) hn.2
    obtain ⟨f1, f2, f3, f4, f5⟩ := beginExpired_frame s v
    rw [List.foldl_cons]
    refine ⟨fun a hw ha hs => ?_, fun hw => ?_, i3.trans f1, i4.trans f2, i5.trans f3, i6.trans f4, i7.trans f5⟩
    · by_cases e : w = v
      · subst e
        have := beginExpired_self s w a ha hs
        rw [i2 (Or.inl hn.1)]
        exact this
      · have hw' : w ∈ l := by simpa [e] using hw
        have hu : (s.beginExpired v).unstarted w = s.unstarted w := by unfold State.unstarted; rw [beginExpired_ne s e]
        rw [← hu]
        refine i1 a hw' ?_ hs
        rw [State.item, beginExpired_ne s e]; exact ha
    · by_cases e : w = v
      · subst e
        rcases hw with hw | hw
        · simp at hw
        · rw [i2 (Or.inl hn.1), beginExpired_none s hw]
      · rw [i2 ?_, beginExpired_ne s e]
        rcases hw with hw | hw
        · exact Or.inl (by simp at hw; tauto)
        · exact Or.inr (by rw [State.item, beginExpired_ne s e]; exact hw)

theorem emit_fold {α : Type} (l : List α) (f : α → State → State) (hf : ∀ a s, ∃ c b w z v, f a s = s.emit c b w z v) : ∀ s : State,
   let t := l.foldl (fun t e => f e t) s
   t.dbg.snapState = s.dbg.snapState ∧ t.dbg.snap = s.dbg.snap ∧ t.dbg.omitted = s.dbg.omitted ∧ t.cores = s.cores ∧ t.loam = s.loam ∧ t.syn = s.syn := by
  induction l with
  | nil => intro s; exact ⟨rfl, rfl, rfl, rfl, rfl, rfl⟩
  | cons a l ih =>
    intro s
    obtain ⟨c, b, w, z, v, e⟩ := hf a s
    obtain ⟨h1, h2, h3, h4, h5, h6⟩ := ih (f a s)
    obtain ⟨g1, g2, g3, -⟩ := emit_snap s c b w z v
    rw [e] at h1 h2 h3 h4 h5 h6
    rw [List.foldl_cons, e]
    exact ⟨h1.trans g1, h2.trans g2, h3.trans g3, by rw [h4]; simp, by rw [h5]; simp, by rw [h6]; simp⟩

/-- After core release no access of another cluster is held before it (R304). -/
theorem heldEarly_false {s : State} (h : s.portsHeld = false) (p : Party) (off : Nat) (write : Bool) : s.heldEarly p off write = false := by
  have hf := State.fastOn_agents (State.portsHeld_on h)
  simp only [State.agentsOn, Bool.and_eq_true, beq_iff_eq] at hf
  simp [State.heldEarly, hf.1.1]

/-- A register write that is not held is performed and answered. -/
theorem State.writeFrom_served {s : State} {p : Party} {off : Nat} {w : Width} {v : Word64} (ha : aonReg off = true → s.heldEarly p off true = false)
    (hf : aonReg off = false → s.holds (.write p off w v) = false) :
    let u := outsideWrite (if aonReg off = true then allBlocks else fastBlocks) p off w v.toNat s
    s.writeFrom p off w v = u ∨ s.writeFrom p off w v = u.activate := by
  unfold State.writeFrom
  by_cases h : aonReg off = true
  · exact .inl (by simp only [h, if_true, ha h, Bool.false_eq_true, if_false])
  · have h' : aonReg off = false := by simpa using h
    exact .inr (by simp only [h', Bool.false_eq_true, if_false, State.arrive, hf h', accept])

/-- A register read that is not held is performed and answered. -/
theorem State.readFrom_served {s : State} {p : Party} {off : Nat} {w : Width} (ha : aonReg off = true → s.heldEarly p off false = false)
    (hf : aonReg off = false → s.holds (.read p off w) = false) :
    s.readFrom p off w = outsideRead p off w s ∨ s.readFrom p off w = (outsideRead p off w s).activate := by
  unfold State.readFrom
  by_cases h : aonReg off = true
  · exact .inl (by simp only [h, if_true, ha h, Bool.false_eq_true, if_false])
  · have h' : aonReg off = false := by simpa using h
    exact .inr (by simp only [h', Bool.false_eq_true, if_false, State.arrive, hf h', accept])

/-- What a performed write leaves, and its answer. -/
theorem outsideWrite_out (b : Blocks) (p : Party) (off : Nat) (w : Width) (v : Nat) (s : State) :
    let u := outsideWrite b p off w v s
    let q := regWriteWith b s (accOf p) off w v
    u.loam = q.1.loam ∧ u.str = q.1.str ∧ u.cores = q.1.cores ∧ u.msg = q.1.msg ∧ u.latches = q.1.latches ∧
      u.out.getLast? = some (.regAnswer p 0 q.2) := by
  unfold outsideWrite
  simp [noteAccess_msg, noteAccess_latches]

/-- What a performed read leaves, and its answer. -/
theorem outsideRead_out (p : Party) (off : Nat) (w : Width) (s : State) :
    let u := outsideRead p off w s
    let q := s.regRead (accOf p) off w
    u.loam = q.1.loam ∧ u.str = q.1.str ∧ u.cores = q.1.cores ∧ u.msg = q.1.msg ∧ u.latches = q.1.latches ∧
      u.out.getLast? = some (match q.2 with
        | .ok x => .regAnswer p (BitVec.ofNat 64 x) 0
        | .bad f => .regAnswer p 0 f) := by
  unfold outsideRead
  dsimp only
  cases h : (s.regRead (accOf p) off w).2 <;> simp [noteAccess_msg, noteAccess_latches]

end Sys2Proof.Machine
end

