-- ==== Sys2Proof/Laws/Roots.lean ====
section
/-! SUPPORT. Laws/Roots.lean: RCP and RSQRT rounded once, and the special cases of the transcendental stages (R118). -/

namespace Sys2Proof.Machine

/-- A quotient or a root cut off below a rounding position, with a last bit that says whether something was cut, rounds as the exact
value does. -/
theorem RoundsMag.between {b q : Nat} {E : ℤ} (hq : 2 ^ 27 ≤ q) (h : RoundsMag b ((2 * q + 1 : ℕ) * (2 : ℚ) ^ E)) {X : ℚ}
    (h1 : q * (2 : ℚ) ^ (E + 1) < X) (h2 : X < (q + 1) * (2 : ℚ) ^ (E + 1)) : RoundsMag b X := by
  obtain ⟨k, sig, hb, hs, ⟨n1, _⟩, hlt, hk⟩ := h
  obtain ⟨u, hu⟩ : ∃ u : ℚ, u = 2 ^ (E + 1) := ⟨_, rfl⟩
  have u0 : 0 < u := by rw [hu]; positivity
  have hE : (2 : ℚ) ^ E = u / 2 := by rw [hu, zpow_add₀ (by norm_num)]; norm_num
  have qq : (2 ^ 27 : ℚ) ≤ q := by exact_mod_cast hq
  have hj : E + 1 < (k : ℤ) - 149 := by
    by_contra g
    have : (2 : ℚ) ^ ((k : ℤ) - 149) ≤ u := by rw [hu]; exact zpow_le_zpow_right₀ (by norm_num) (by omega)
    rw [hE] at hlt
    push_cast at hlt
    nlinarith
  obtain ⟨j, hj'⟩ : ∃ j : ℕ, (k : ℤ) - 149 = j + 1 + (E + 1) := ⟨((k : ℤ) - 149 - (E + 1) - 1).toNat, by omega⟩
  have hp : (2 : ℚ) ^ ((k : ℤ) - 149) = 2 * 2 ^ j * u := by
    rw [hj', zpow_add₀ (by norm_num), ← hu, zpow_add₀ (by norm_num), zpow_natCast]
    ring
  rw [← hu] at h1 h2
  have x' : ((2 * q + 1 : ℕ) : ℚ) * (u / 2) = (q + 1 / 2) * u := by push_cast; ring
  rw [hp, hE, x'] at n1 hlt hk
  obtain ⟨H, hH⟩ : ∃ H : ℕ, H = 2 ^ j := ⟨_, rfl⟩
  have hHq : (2 : ℚ) ^ j = H := by rw [hH]; norm_num
  rw [hHq] at hp n1 hlt hk
  obtain ⟨a1, a2⟩ := abs_le.mp n1
  have up : q + 1 ≤ 2 * sig * H + H := by
    have : (q : ℚ) + 1 / 2 ≤ 2 * sig * H + H := by
      by_contra g
      nlinarith
    have : (q : ℚ) < ((2 * sig * H + H : ℕ) : ℚ) := by push_cast; linarith
    exact_mod_cast this
  have dn : 2 * sig * H ≤ q + H := by
    have : (2 * sig * H : ℚ) - H ≤ q + 1 / 2 := by
      by_contra g
      nlinarith
    have : ((2 * sig * H : ℕ) : ℚ) < ((q + H + 1 : ℕ) : ℚ) := by push_cast; linarith
    have : 2 * sig * H < q + H + 1 := by exact_mod_cast this
    omega
  have upq : (q : ℚ) + 1 ≤ 2 * sig * H + H := by exact_mod_cast up
  have dnq : (2 * sig * H : ℚ) ≤ q + H := by exact_mod_cast dn
  have c1 : X < (2 * sig * H + H) * u := lt_of_lt_of_le h2 (mul_le_mul_of_nonneg_right upq u0.le)
  have c2 : (2 * sig * H - H) * u < X := lt_of_le_of_lt (mul_le_mul_of_nonneg_right (by linarith) u0.le) h1
  have near : |sig * (2 * H * u) - X| < 2 * H * u / 2 := by rw [abs_lt]; constructor <;> linarith
  refine ⟨k, sig, hb, hs, ⟨?_, ?_⟩, ?_, ?_⟩
  · rw [hp]; exact near.le
  · rw [hp]; exact fun e => absurd e near.ne
  · rw [hp]
    have : q + 1 ≤ 2 ^ 24 * (2 * H) := by
      have : (q : ℚ) + 1 / 2 < 2 ^ 24 * (2 * H) := by
        by_contra g
        nlinarith
      have : (q : ℚ) < ((2 ^ 24 * (2 * H) : ℕ) : ℚ) := by push_cast; linarith
      exact_mod_cast this
    have : (q : ℚ) + 1 ≤ 2 ^ 24 * (2 * H) := by exact_mod_cast this
    nlinarith
  · refine hk.imp id fun g => ?_
    rw [hp]
    have : 2 ^ 23 * (2 * H) ≤ q := by
      have : (2 ^ 23 * (2 * H) : ℚ) ≤ q + 1 / 2 := by
        by_contra z
        nlinarith
      have : ((2 ^ 23 * (2 * H) : ℕ) : ℚ) < ((q + 1 : ℕ) : ℚ) := by push_cast; linarith
      have : 2 ^ 23 * (2 * H) < q + 1 := by exact_mod_cast this
      omega
    have : (2 ^ 23 * (2 * H) : ℚ) ≤ q := by exact_mod_cast this
    nlinarith

theorem Rounds.of_mag {s : Bool} {m : Nat} {e : Int} {X : ℚ} (h : RoundsMag (roundMag 23 (-149) m e) X) (X0 : 0 < X) :
    Rounds ((if s then -1 else 1) * X) (fl32 s m e) := RoundsMag.word h X0 s rfl rfl

/-- A cut result with its last bit, exact or not. -/
theorem cut_rounds {q : Nat} (hq : 2 ^ 27 ≤ q) (E : ℤ) (exact : Prop) [Decidable exact] {X : ℚ}
    (h1 : exact → X = q * (2 : ℚ) ^ (E + 1)) (h2 : ¬ exact → q * (2 : ℚ) ^ (E + 1) < X ∧ X < (q + 1) * (2 : ℚ) ^ (E + 1)) (s : Bool) :
    Rounds ((if s then -1 else 1) * X) (fl32 s (2 * q + if exact then 0 else 1) E) := by
  have q0 : (0 : ℚ) < q := by exact_mod_cast (show 0 < q by omega)
  have u0 : (0 : ℚ) < 2 ^ (E + 1) := by positivity
  by_cases h : exact
  · rw [if_pos h]
    refine Rounds.of_mag ?_ (by rw [h1 h]; positivity)
    have := roundMag_near (m := 2 * q + 0) (by omega) E
    rwa [show (((2 * q + 0 : ℕ) : ℚ) * 2 ^ E) = X by rw [h1 h, zpow_add₀ (by norm_num)]; push_cast; ring] at this
  · rw [if_neg h]
    obtain ⟨g1, g2⟩ := h2 h
    exact Rounds.of_mag (RoundsMag.between hq (roundMag_near (by omega) E) g1 g2) (lt_trans (by positivity) g1)

/-- RCP of a value that is not zero. -/
theorem fRcp_rounds {a : Fp32} (ha : a.toNat / 2 ^ 23 % 256 ≠ 255) (h0 : f32Val a ≠ 0) : Rounds (1 / f32Val a) (fRcp a) := by
  obtain ⟨m, e, p, v, z, _⟩ := ext32_parts ha
  obtain ⟨s, hs⟩ : ∃ s, s = decide (2 ^ 31 ≤ a.toNat) := ⟨_, rfl⟩
  rw [← hs] at p v
  have hm : m ≠ 0 := fun g => h0 ((f32Val_zero_iff ha).mpr (z.mp g))
  have mq : (0 : ℚ) < m := by exact_mod_cast Nat.pos_of_ne_zero hm
  have te : (0 : ℚ) < 2 ^ e := by positivity
  obtain ⟨k, hk⟩ : ∃ k, k = Nat.log2 m + 64 := ⟨_, rfl⟩
  obtain ⟨q, hq⟩ : ∃ q, q = 2 ^ k / m := ⟨_, rfl⟩
  have up : m < 2 ^ (Nat.log2 m + 1) := Nat.lt_log2_self
  have qle : 2 ^ 63 ≤ q := by
    rw [hq, Nat.le_div_iff_mul_le (Nat.pos_of_ne_zero hm)]
    calc 2 ^ 63 * m ≤ 2 ^ 63 * 2 ^ (Nat.log2 m + 1) := Nat.mul_le_mul_left _ up.le
      _ = 2 ^ k := by rw [← pow_add, hk]; congr 1; omega
  have d1 : q * m ≤ 2 ^ k := hq ▸ Nat.div_mul_le_self _ _
  have d2 : 2 ^ k < (q + 1) * m := by
    have := Nat.lt_div_mul_add (a := 2 ^ k) (Nat.pos_of_ne_zero hm)
    rw [← hq] at this
    rw [Nat.add_mul, Nat.one_mul]
    exact this
  have cut : fRcp a = fl32 s (2 * q + if q * m = 2 ^ k then 0 else 1) (-(k : Int) - 1 - e) := by
    unfold fRcp
    rw [p]
    dsimp only
    rw [if_neg hm, ← hk, ← hq]
  have hX : 1 / f32Val a = (if s then -1 else 1) * (1 / (m * 2 ^ e)) := by
    rw [← v]
    cases s
    · simp [sgn]
    · simp only [sgn, if_true, Int.cast_neg, Int.cast_natCast]
      rw [neg_mul, one_div_neg_eq_neg_one_div, neg_one_mul]
  have hu : (2 : ℚ) ^ (-(k : ℤ) - 1 - e + 1) = 1 / (2 ^ k * 2 ^ e) := by
    rw [show -(k : ℤ) - 1 - e + 1 = -(k : ℤ) + -e by ring, zpow_add₀ (by norm_num), zpow_neg, zpow_neg, zpow_natCast]
    field_simp
  have kq : (0 : ℚ) < 2 ^ k := by positivity
  rw [cut, hX]
  refine cut_rounds (by omega) _ _ (fun g => ?_) (fun g => ⟨?_, ?_⟩) s
  · have g : (q : ℚ) * m = 2 ^ k := by exact_mod_cast g
    rw [hu, ← g]
    have : (q : ℚ) ≠ 0 := by
      have : q ≠ 0 := by omega
      exact_mod_cast this
    field_simp
  · have g : (q : ℚ) * m < 2 ^ k := by exact_mod_cast lt_of_le_of_ne d1 g
    rw [hu, mul_one_div, div_lt_div_iff₀ (by positivity) (by positivity)]
    nlinarith
  · have g : (2 ^ k : ℚ) < (q + 1) * m := by exact_mod_cast d2
    rw [hu, mul_one_div, div_lt_div_iff₀ (by positivity) (by positivity)]
    nlinarith

theorem isqrt_spec : ∀ (n v r : Nat), 2 ^ n ∣ r → r * r ≤ v → v < (r + 2 ^ n) * (r + 2 ^ n) →
    isqrt n v r * isqrt n v r ≤ v ∧ v < (isqrt n v r + 1) * (isqrt n v r + 1) := by
  intro n
  induction n with
  | zero => intro v r _ h1 h2; exact ⟨h1, by simpa [isqrt] using h2⟩
  | succ n ih =>
    intro v r hd h1 h2
    unfold isqrt
    dsimp only
    have hd' : 2 ^ n ∣ r := Dvd.dvd.trans (pow_dvd_pow 2 (Nat.le_succ n)) hd
    split
    · next g =>
      refine ih v (r + 2 ^ n) (Dvd.dvd.add hd' (dvd_refl _)) g ?_
      rw [show r + 2 ^ n + 2 ^ n = r + 2 ^ (n + 1) by rw [pow_succ]; ring]
      exact h2
    · next g => exact ih v r hd' h1 (by omega)

/-- RSQRT of a positive value: the value rounded lies in an interval that holds the root, or is the root. -/
theorem fRsqrt_rounds {a : Fp32} (ha : a.toNat / 2 ^ 23 % 256 ≠ 255) (h0 : 0 < f32Val a) :
    (∃ x, 0 < x ∧ x ^ 2 * f32Val a = 1 ∧ Rounds x (fRsqrt a)) ∨
    ∃ l h, 0 < l ∧ l ^ 2 * f32Val a < 1 ∧ 1 < h ^ 2 * f32Val a ∧ ∀ x, l < x → x < h → Rounds x (fRsqrt a) := by
  obtain ⟨m, e, p, v, z, _⟩ := ext32_parts ha
  have te : (0 : ℚ) < 2 ^ e := by positivity
  have hs : decide (2 ^ 31 ≤ a.toNat) = false := by
    by_contra g
    simp only [Bool.not_eq_false] at g
    rw [g] at v
    have : (0 : ℚ) ≤ m := by positivity
    simp only [sgn, if_true, Int.cast_neg, Int.cast_natCast] at v
    nlinarith
  rw [hs] at p v
  simp only [sgn, Bool.false_eq_true, if_false, Int.cast_natCast] at v
  have hm : m ≠ 0 := fun g => h0.ne' ((f32Val_zero_iff ha).mpr (z.mp g))
  obtain ⟨m', hm'⟩ : ∃ m', m' = if e % 2 = 1 then 2 * m else m := ⟨_, rfl⟩
  obtain ⟨e', he'⟩ : ∃ e', e' = if e % 2 = 1 then e - 1 else e := ⟨_, rfl⟩
  obtain ⟨f, hf⟩ : ∃ f, e' = f + f := ⟨e' / 2, by rw [he']; split <;> omega⟩
  have m0 : m' ≠ 0 := by rw [hm']; split <;> omega
  have mq : (0 : ℚ) < m' := by exact_mod_cast Nat.pos_of_ne_zero m0
  have v' : f32Val a = m' * (2 ^ f * 2 ^ f) := by
    rw [← v, ← zpow_add₀ (by norm_num), ← hf, hm', he']
    split
    · push_cast
      rw [zpow_sub₀ (by norm_num)]
      norm_num
      ring
    · rfl
  obtain ⟨k, hk⟩ : ∃ k, k = Nat.log2 m' + 64 := ⟨_, rfl⟩
  obtain ⟨y, hy⟩ : ∃ y, y = 2 ^ (2 * k) / m' := ⟨_, rfl⟩
  obtain ⟨r, hr⟩ : ∃ r, r = isqrt (k + 1) y 0 := ⟨_, rfl⟩
  have cut : fRsqrt a = fl32 false (2 * r + if r * r * m' = 2 ^ (2 * k) then 0 else 1) (-(k : Int) - 1 - f) := by
    unfold fRsqrt
    rw [p]
    dsimp only
    rw [if_neg hm, if_neg (by simp), ← hm', ← he', ← hk, ← hy, ← hr, show e' / 2 = f by omega]
  obtain ⟨r1, r2⟩ := isqrt_spec (k + 1) y 0 (dvd_zero _) (by omega) (by
    have : y ≤ 2 ^ (2 * k) := hy ▸ Nat.div_le_self _ _
    rw [Nat.zero_add, ← pow_add]
    exact lt_of_le_of_lt this (Nat.pow_lt_pow_right (by norm_num) (by omega)))
  rw [← hr] at r1 r2
  have d1 : r * r * m' ≤ 2 ^ (2 * k) := le_trans (Nat.mul_le_mul_right _ r1) (hy ▸ Nat.div_mul_le_self _ _)
  have d2 : 2 ^ (2 * k) < (r + 1) * (r + 1) * m' := by
    have := Nat.lt_div_mul_add (a := 2 ^ (2 * k)) (Nat.pos_of_ne_zero m0)
    rw [← hy] at this
    calc 2 ^ (2 * k) < (y + 1) * m' := by rw [Nat.add_mul, Nat.one_mul]; exact this
      _ ≤ _ := Nat.mul_le_mul_right _ r2
  have rle : 2 ^ 27 ≤ r := by
    by_contra g
    have up : m' < 2 ^ (Nat.log2 m' + 1) := Nat.lt_log2_self
    have : (r + 1) * (r + 1) ≤ 2 ^ 27 * 2 ^ 27 := Nat.mul_le_mul (by omega) (by omega)
    have : (r + 1) * (r + 1) * m' ≤ 2 ^ 27 * 2 ^ 27 * 2 ^ (Nat.log2 m' + 1) := Nat.mul_le_mul this up.le
    rw [← pow_add, ← pow_add] at this
    have : 2 ^ (27 + 27 + (Nat.log2 m' + 1)) ≤ 2 ^ (2 * k) := Nat.pow_le_pow_right (by norm_num) (by omega)
    omega
  have hu : (2 : ℚ) ^ (-(k : ℤ) - 1 - f + 1) = 1 / (2 ^ k * 2 ^ f) := by
    rw [show -(k : ℤ) - 1 - f + 1 = -(k : ℤ) + -f by ring, zpow_add₀ (by norm_num), zpow_neg, zpow_neg, zpow_natCast]
    field_simp
  have kq : (0 : ℚ) < 2 ^ k := by positivity
  have fq : (0 : ℚ) < 2 ^ f := by positivity
  have rq : (0 : ℚ) < r := by exact_mod_cast (show 0 < r by omega)
  have sq : ∀ t : ℚ, (t * (2 : ℚ) ^ (-(k : ℤ) - 1 - f + 1)) ^ 2 * f32Val a = t * t * m' / (2 ^ k * 2 ^ k) := by
    intro t
    rw [hu, v']
    field_simp
  rw [cut]
  by_cases g : r * r * m' = 2 ^ (2 * k)
  · left
    refine ⟨r * (2 : ℚ) ^ (-(k : ℤ) - 1 - f + 1), by positivity, ?_, ?_⟩
    · rw [sq]
      have : (r : ℚ) * r * m' = 2 ^ k * 2 ^ k := by rw [← pow_add, ← two_mul]; exact_mod_cast g
      rw [this]
      field_simp
    · simpa using cut_rounds (s := false) rle (-(k : Int) - 1 - f) (r * r * m' = 2 ^ (2 * k)) (fun _ => rfl) (fun h => absurd g h)
  · right
    refine ⟨r * (2 : ℚ) ^ (-(k : ℤ) - 1 - f + 1), (r + 1) * (2 : ℚ) ^ (-(k : ℤ) - 1 - f + 1), by positivity, ?_, ?_, fun x x1 x2 => ?_⟩
    · rw [sq, div_lt_one (by positivity), ← pow_add, ← two_mul]
      exact_mod_cast lt_of_le_of_ne d1 g
    · rw [sq, one_lt_div (by positivity), ← pow_add, ← two_mul]
      exact_mod_cast d2
    · simpa using cut_rounds (s := false) rle (-(k : Int) - 1 - f) (r * r * m' = 2 ^ (2 * k)) (fun h => absurd h g) (fun _ => ⟨x1, x2⟩)

/-! ### The table of R118 -/

/-- A NaN and the infinities. -/
theorem trans_special {a : Fp32} : (isNaN a = true → fExp2 a = qNaN ∧ fLog2 a = qNaN ∧ fRcp a = qNaN ∧ fRsqrt a = qNaN) ∧
    (fExp2 (infF false) = infF false ∧ fLog2 (infF false) = infF false ∧ fRcp (infF false) = zeroF false ∧ fRsqrt (infF false) = zeroF false) ∧
    fExp2 (infF true) = zeroF false ∧ fLog2 (infF true) = qNaN ∧ fRcp (infF true) = zeroF true ∧ fRsqrt (infF true) = qNaN := by
  refine ⟨fun h => ?_, ?_, ?_⟩
  · have := ext32_nan h
    unfold fExp2 fLog2 fRcp fRsqrt
    rw [this]
    exact ⟨rfl, rfl, rfl, rfl⟩
  · unfold fExp2 fLog2 fRcp fRsqrt
    rw [ext32_infF]
    exact ⟨rfl, rfl, fl32_zero _ _, fl32_zero _ _⟩
  · unfold fExp2 fLog2 fRcp fRsqrt
    rw [ext32_infF]
    exact ⟨rfl, rfl, fl32_zero _ _, rfl⟩

/-- The zeros, and LOG2 and RSQRT of a negative value. -/
theorem trans_zero {a : Fp32} (ha : a.toNat / 2 ^ 23 % 256 ≠ 255) :
    (f32Val a = 0 → fExp2 a = 0x3F800000#32 ∧ fLog2 a = infF true ∧ fRcp a = infF (decide (2 ^ 31 ≤ a.toNat)) ∧
      fRsqrt a = infF (decide (2 ^ 31 ≤ a.toNat))) ∧
    (f32Val a < 0 → fLog2 a = qNaN ∧ fRsqrt a = qNaN) := by
  obtain ⟨m, e, p, v, z, _⟩ := ext32_parts ha
  unfold fExp2 fLog2 fRcp fRsqrt
  rw [p]
  dsimp only
  refine ⟨fun h => ?_, fun h => ?_⟩
  · have hm : m = 0 := z.mpr ((f32Val_zero_iff ha).mp h)
    rw [if_pos hm, if_pos hm, if_pos hm, if_pos hm]
    exact ⟨rfl, rfl, rfl, rfl⟩
  · have hm : m ≠ 0 := fun g => h.ne ((f32Val_zero_iff ha).mpr (z.mp g))
    have hs : decide (2 ^ 31 ≤ a.toNat) = true := by
      by_contra g
      simp only [Bool.not_eq_true] at g
      rw [g] at v
      have te : (0 : ℚ) < 2 ^ e := by positivity
      have : (0 : ℚ) ≤ m := by positivity
      simp only [sgn, Bool.false_eq_true, if_false, Int.cast_natCast] at v
      nlinarith
    rw [if_neg hm, if_neg hm, hs, if_pos rfl, if_pos rfl]
    exact ⟨rfl, rfl⟩

end Sys2Proof.Machine
end

