-- ==== Sys2Proof/Laws/StageRun.lean ====
section
/-! SUPPORT. Laws/StageRun.lean: what one stage of a chain does to a segment (R112, R113, R116, R120, R121, R124, R129). -/

namespace Sys2Proof.Machine

/-- A mask bit after one is set. -/
theorem Core.maskBit_set (x : Core) (m : Nat) {p q : Nat × Nat} (b : Bool) (hp : p.2 < 64) :
    (x.setMaskBit m p b).maskBit m q = if q = p then b else x.maskBit m q := by
  obtain ⟨p1, p2⟩ := p
  obtain ⟨q1, q2⟩ := q
  simp only at hp
  unfold Core.setMaskBit Core.maskBit tabMod
  dsimp only
  by_cases h1 : q1 = p1
  · subst h1
    rw [tabGet_tabSet_self]
    by_cases h2 : q2 = p2
    · subst h2
      rw [if_pos rfl]
      cases b <;> simp [hp]
    · rw [if_neg (show ¬ ((q1, q2) : Nat × Nat) = (q1, p2) by simp [h2])]
      rcases Nat.lt_or_ge q2 64 with g | g
      · have e : ((1#64) <<< p2).getLsbD q2 = false := by
          rw [BitVec.getLsbD_shiftLeft]
          rcases Nat.lt_or_ge q2 p2 with z | z
          · simp [z]
          · have : q2 - p2 ≠ 0 := by omega
            simp [BitVec.getLsbD_one, this]
        cases b
        · rw [if_neg (by simp), BitVec.getLsbD_and, BitVec.getLsbD_not, e]
          simp [g]
        · rw [if_pos rfl, BitVec.getLsbD_or, e, Bool.or_false]
      · rw [BitVec.getLsbD_of_ge _ _ g, BitVec.getLsbD_of_ge _ _ g]
  · rw [tabGet_tabSet_ne _ _ _ (by omega), if_neg (by simp [h1])]

/-- A list of mask bits at different positions. -/
theorem Core.maskBit_setAll (m : Nat) (f : Nat → Nat × Nat) : ∀ (l : List (Nat × Bool)) (x : Core) (q : Nat × Nat), (∀ e ∈ l, (f e.1).2 < 64) →
    (l.Pairwise fun a b => f a.1 ≠ f b.1) →
    (∀ e ∈ l, q = f e.1 → (l.foldl (fun x e => x.setMaskBit m (f e.1) e.2) x).maskBit m q = e.2) ∧
    ((∀ e ∈ l, q ≠ f e.1) → (l.foldl (fun x e => x.setMaskBit m (f e.1) e.2) x).maskBit m q = x.maskBit m q) := by
  intro l
  induction l with
  | nil => intro x q _ _; simp
  | cons a l ih =>
    intro x q hlt hp
    rw [List.pairwise_cons] at hp
    obtain ⟨i1, i2⟩ := ih (x.setMaskBit m (f a.1) a.2) q (fun e he => hlt e (List.mem_cons_of_mem _ he)) hp.2
    rw [List.foldl_cons]
    refine ⟨fun e he hq => ?_, fun h => ?_⟩
    · rcases List.mem_cons.mp he with rfl | he
      · rw [i2 (fun b hb => hq ▸ hp.1 b hb), Core.maskBit_set _ _ _ (hlt e List.mem_cons_self), if_pos hq]
      · exact i1 e he hq
    · rw [i2 fun e he => h e (List.mem_cons_of_mem _ he), Core.maskBit_set _ _ _ (hlt a List.mem_cons_self),
        if_neg (h a List.mem_cons_self)]

/-- FMA with an infinity. -/
theorem fFma_inf (a b c : Fp32) (n : Bool) :
    (a.toNat / 2 ^ 23 % 256 ≠ 255 → b.toNat / 2 ^ 23 % 256 ≠ 255 → c = infF n → fFma a b c = infF n) ∧
    (a = infF n → b.toNat / 2 ^ 23 % 256 ≠ 255 → f32Val b = 0 → fFma a b c = qNaN) ∧
    (b = infF n → a.toNat / 2 ^ 23 % 256 ≠ 255 → f32Val a = 0 → fFma a b c = qNaN) ∧
    (a = infF n → b.toNat / 2 ^ 23 % 256 ≠ 255 → f32Val b ≠ 0 →
      (c.toNat / 2 ^ 23 % 256 ≠ 255 ∨ c = infF (n != decide (2 ^ 31 ≤ b.toNat)) → fFma a b c = infF (n != decide (2 ^ 31 ≤ b.toNat))) ∧
      (c = infF (!(n != decide (2 ^ 31 ≤ b.toNat))) → fFma a b c = qNaN)) := by
  refine ⟨?_, ?_, ?_, ?_⟩
  · rintro h1 h2 rfl
    obtain ⟨m1, e1, p1, _⟩ := ext32_parts h1
    obtain ⟨m2, e2, p2, _⟩ := ext32_parts h2
    unfold fFma
    rw [p1, p2, ext32_infF]
    rfl
  · rintro rfl h2 h
    obtain ⟨m2, e2, p2, _, z2, _⟩ := ext32_parts h2
    unfold fFma
    rw [p2, ext32_infF, z2.mpr ((f32Val_zero_iff h2).mp h)]
    rfl
  · rintro rfl h2 h
    obtain ⟨m2, e2, p2, _, z2, _⟩ := ext32_parts h2
    unfold fFma
    rw [p2, ext32_infF, z2.mpr ((f32Val_zero_iff h2).mp h)]
    rfl
  · rintro rfl h2 h
    obtain ⟨m2, e2, p2, _, z2, _⟩ := ext32_parts h2
    have hm : m2 ≠ 0 := fun g => h ((f32Val_zero_iff h2).mpr (z2.mp g))
    have hp : mulExt (.inf n) (.fin (decide (2 ^ 31 ≤ b.toNat)) m2 e2) = .inf (n != decide (2 ^ 31 ≤ b.toNat)) := by
      show (if m2 = 0 then _ else _) = _
      rw [if_neg hm]
    generalize (n != decide (2 ^ 31 ≤ b.toNat)) = p at hp
    refine ⟨?_, ?_⟩
    · rintro (h3 | rfl)
      · obtain ⟨m3, e3, p3, _⟩ := ext32_parts h3
        unfold fFma
        rw [p2, ext32_infF, p3, hp]
        rfl
      · unfold fFma
        rw [p2, ext32_infF, ext32_infF, hp]
        cases p <;> rfl
    · rintro rfl
      unfold fFma
      rw [p2, ext32_infF, ext32_infF, hp]
      cases p <;> rfl

theorem countTrue_map {α : Type} (l : List α) (f : α → Bool) : countTrue (l.map f) = l.countP f := by
  unfold countTrue
  rw [List.countP_eq_length_filter, List.filter_map, List.length_map]
  rfl

/-- The default round format of FP values where SFMT is an INT format (R129). -/
theorem roundStage_dflt {f : SFmt} {t : Stage} {xs : List Word32} (hf : f.isInt = true) :
    roundStage f false { t with ifmt := 0 } (xs.map Val.fp) =
      (xs.map fun a => .fp (intToFp (fpToInt f.range.1 f.range.2 a).1), xs.countP fun a => (fpToInt f.range.1 f.range.2 a).2) := by
  have key : cvtSeg f (xs.map Val.fp) = (xs.map fun a => Val.int (fpToInt f.range.1 f.range.2 a).1, xs.countP fun a => (fpToInt f.range.1 f.range.2 a).2) := by
    cases f with
    | blk d =>
      have : d.fmt.isInt = true := hf
      simp only [cvtSeg, this, if_true, List.map_map, countTrue_map]
      rfl
    | int32 =>
      simp only [cvtSeg, List.map_map, countTrue_map]
      rfl
  simp only [roundStage, dfltSeg, hf, if_true, key, List.map_map]
  rfl

/-- The round format of INT values (R113, R129). -/
theorem roundStage_int {f : SFmt} {t : Stage} {ns : List Int} (h : t.ifmt = 0) : roundStage f true t (ns.map Val.int) =
    if f.isInt then (ns.map fun n => .int (max f.range.1 (min f.range.2 n)), ns.countP fun n => decide (n < f.range.1 ∨ f.range.2 < n))
    else (ns.map Val.int, 0) := by
  have cnt : ∀ r : Int × Int, r.1 ≤ r.2 → ∀ n, decide (clampI n r.1 r.2 ≠ n) = decide (n < r.1 ∨ r.2 < n) := fun r hr n => by
    unfold clampI
    simp only [decide_eq_decide]
    omega
  have hr : f.range.1 ≤ f.range.2 := by
    unfold SFmt.range
    split
    · next k _ _ =>
      have : (0 : Int) < 2 ^ (k - 1) := by positivity
      simp only
      omega
    · decide
  have key : f.isInt = true → cvtSeg f (ns.map Val.int) =
      (ns.map fun n => .int (max f.range.1 (min f.range.2 n)), ns.countP fun n => decide (n < f.range.1 ∨ f.range.2 < n)) := by
    intro hf
    have hc : (ns.countP fun n => decide (n < f.range.1 ∨ f.range.2 < n)) = ns.countP fun n => (clampC f.range n).2 :=
      List.countP_congr fun n _ => by rw [← cnt f.range hr n]; rfl
    rw [hc]
    cases f with
    | blk d =>
      have : d.fmt.isInt = true := hf
      simp only [cvtSeg, this, if_true, List.map_map, countTrue_map]
      rfl
    | int32 =>
      simp only [cvtSeg, List.map_map, countTrue_map]
      rfl
  unfold roundStage
  rw [if_neg (by omega), if_neg (by omega)]
  unfold dfltSeg
  rw [if_pos rfl]
  split
  · next hf => exact key hf
  · rfl

/-! ### One stage -/

/-- What counting leaves alone. -/
theorem State.countVec_spec (s : State) (w : Who) (a b : Nat) : ((s.countVec w a b).core w.core.val).masks = (s.core w.core.val).masks ∧
    ((s.countVec w a b).core w.core.val).stats = (s.core w.core.val).stats ∧ (s.countVec w a b).loam = s.loam ∧
    (s.ctr.vecSat < 2 ^ 48 → (s.countVec w a b).ctr.vecSat = stick48 s.ctr.vecSat a) ∧
    (s.ctr.vecNan < 2 ^ 48 → (s.countVec w a b).ctr.vecNan = stick48 s.ctr.vecNan b) := by
  unfold State.countVec
  split
  · next h =>
    obtain ⟨rfl, rfl⟩ := h
    refine ⟨rfl, rfl, rfl, fun g => ?_, fun g => ?_⟩ <;> unfold stick48 <;> omega
  · refine ⟨by simp [State.modRec], by simp [State.modRec], by simp [State.modRec, State.modCtr], fun _ => ?_, fun _ => ?_⟩ <;> simp [State.modRec, State.modCtr]

theorem isIntSeg_eq {int : Bool} {vs : List Val} (h0 : vs ≠ []) (hd : ∀ v ∈ vs, (∃ n, v = .int n) ↔ int = true) : isIntSeg vs = int := by
  cases vs with
  | nil => exact absurd rfl h0
  | cons a l =>
    have := hd a List.mem_cons_self
    cases a with
    | int n => exact (this.mp ⟨n, rfl⟩).symm
    | fp x =>
      cases int
      · rfl
      · obtain ⟨n, hn⟩ := this.mpr rfl
        cases hn

theorem runStage_spec {s u : State} {g : Seg} {t : Stage} {int : Bool} {vs ys : List Val} {k : Nat} (h0 : vs ≠ []) (hl : vs.length ≤ 64)
    (hd : ∀ v ∈ vs, (∃ n, v = .int n) ↔ int = true) (hs : s.second g t int vs.length = (u, .ok (ys, k))) :
    let c := g.w.core.val
    let x (l : Nat) : Val := vs.getD l (.int 0)
    let y (l : Nat) : Val := ys.getD l (.int 0)
    let place (l : Nat) : Nat × Nat := if t.tile then (g.i % 64, (g.j + l) % 64) else (g.n % 64, l)
    let mask (v : State) (p : Nat × Nat) : Bool := (tabGet 0 (v.core c).masks (64 * t.mask + p.1)).getLsbD p.2
    let out := (List.range vs.length).map fun l => stageVal t (x l) (y l) (mask u (place l))
    (t.op = 6 → ∃ v, s.runStage g t vs = (v, .ok vs) ∧
      (∀ l, l < vs.length → mask v (place l) = if t.src2 = 6 then cmpPos t g.i (g.j + l) else cmpVal t.sub (x l) (y l)) ∧
      (∀ p, (∀ l, l < vs.length → p ≠ place l) → mask v p = mask u p) ∧ (v.core c).stats = (u.core c).stats ∧ v.loam = u.loam) ∧
    (t.op = 0xF → ∃ v, s.runStage g t vs = (v, .ok vs) ∧ (v.core c).masks = (u.core c).masks ∧ v.loam = u.loam ∧
      ∀ e, tabGet 0 (v.core c).stats e = if e ≠ 256 * t.stat + g.i % 256 then tabGet 0 (u.core c).stats e
        else if t.sub.testBit 2 ∧ g.first = true then segPartial t.sub (vs.map Val.toFp)
        else (if t.sub % 4 = 1 then fMax else fAdd) (tabGet 0 (u.core c).stats e) (segPartial t.sub (vs.map Val.toFp))) ∧
    (t.op ≠ 6 → t.op ≠ 0xD → t.op ≠ 0xF → ∃ v, s.runStage g t vs = (v, .ok (roundStage g.sf int t (out.map (·.1))).1) ∧
      (v.core c).masks = (u.core c).masks ∧ (v.core c).stats = (u.core c).stats ∧ v.loam = u.loam ∧
      (u.ctr.vecSat < 2 ^ 48 → v.ctr.vecSat = stick48 u.ctr.vecSat (k + out.countP (·.2) + (roundStage g.sf int t (out.map (·.1))).2)) ∧
      (u.ctr.vecNan < 2 ^ 48 → v.ctr.vecNan = stick48 u.ctr.vecNan ((List.range vs.length).countP fun l =>
        (out.getD l (.int 0, false)).1.nan && !(x l).nan && !(y l).nan && !(t.op == 3 && isNaN t.immB) && !(t.op == 0xC && (isNaN t.immA || isNaN t.immB))))) ∧
    (∀ f, t.op = 0xD → sfmtOf (t.immA.toNat % 256) = some f → ∃ v, s.runStage g t vs = (v, .ok (roundStage g.sf f.isInt t (cvtSeg f vs).1).1) ∧
      (v.core c).masks = (u.core c).masks ∧ (v.core c).stats = (u.core c).stats ∧ v.loam = u.loam) := by
  intro c x y place mask out
  have hplace : ∀ l, place l = maskPos g t l := fun _ => rfl
  have hmask : ∀ v p, mask v p = (v.core c).maskBit t.mask p := fun _ _ => rfl
  have hint : isIntSeg vs = int := isIntSeg_eq h0 hd
  refine ⟨fun h => ?_, fun h => ?_, fun h6 hD hF => ?_, fun f h hf => ?_⟩
  · refine ⟨_, by unfold State.runStage; dsimp only; rw [hint, hs]; dsimp only; rw [h]; exact rfl, ?_⟩
    obtain ⟨bits, hb⟩ : ∃ bits, bits = (List.range vs.length).map fun l =>
      if t.src2 = 6 then cmpPos t g.i (g.j + l) else cmpVal t.sub (vs.getD l (.int 0)) (ys.getD l (.int 0)) := ⟨_, rfl⟩
    rw [← hb]
    obtain ⟨c1, c2, c3, _⟩ := State.countVec_spec (u.modCore c fun x => (bits.mapIdx fun l b => (l, b)).foldl (fun x p => x.setMaskBit t.mask (maskPos g t p.1) p.2) x) g.w k 0
    have hlen : bits.length = vs.length := by simp [hb]
    have mem : ∀ e ∈ (bits.mapIdx fun l b => (l, b)), e.1 < vs.length ∧ e.2 = if t.src2 = 6 then cmpPos t g.i (g.j + e.1) else cmpVal t.sub (x e.1) (y e.1) := by
      intro e he
      obtain ⟨l, hl, rfl⟩ := List.mem_mapIdx.mp he
      exact ⟨by omega, by simp [hb]; rfl⟩
    have inj : ∀ a b, a < vs.length → b < vs.length → maskPos g t a = maskPos g t b → a = b := by
      intro a b ha hb e
      unfold maskPos at e
      split at e
      · have := (Prod.mk.inj e).2
        omega
      · exact (Prod.mk.inj e).2
    have lt64 : ∀ e ∈ (bits.mapIdx fun l b => (l, b)), (maskPos g t e.1).2 < 64 := by
      intro e he
      have := (mem e he).1
      unfold maskPos
      split
      · exact Nat.mod_lt _ (by norm_num)
      · show e.1 < 64
        omega
    have pw : (bits.mapIdx fun l b => (l, b)).Pairwise fun a b => maskPos g t a.1 ≠ maskPos g t b.1 := by
      rw [List.pairwise_iff_getElem]
      intro i j hi hj hij e
      simp only [List.length_mapIdx] at hi hj
      simp only [List.getElem_mapIdx] at e
      have := inj i j (by omega) (by omega) e
      omega
    have all := fun q => Core.maskBit_setAll t.mask (maskPos g t) (bits.mapIdx fun l b => (l, b)) (u.core c) q lt64 pw
    have core : ∀ q, mask ((u.modCore c fun x => (bits.mapIdx fun l b => (l, b)).foldl (fun x p => x.setMaskBit t.mask (maskPos g t p.1) p.2) x).countVec g.w k 0) q =
        (((bits.mapIdx fun l b => (l, b)).foldl (fun x p => x.setMaskBit t.mask (maskPos g t p.1) p.2) (u.core c)).maskBit t.mask q) := by
      intro q
      rw [hmask]
      unfold Core.maskBit
      rw [c1, State.core_modCore_self]
    refine ⟨fun l hl => ?_, fun p hp => ?_, ?_, ?_⟩
    · rw [core]
      have hm : (l, bits.getD l false) ∈ (bits.mapIdx fun l b => (l, b)) := List.mem_mapIdx.mpr ⟨l, by omega, by simp [List.getD_eq_getElem?_getD, List.getElem?_eq_getElem (show l < bits.length by omega)]⟩
      rw [(all (place l)).1 _ hm (hplace l)]
      exact (mem _ hm).2
    · rw [core, (all p).2 (fun e he => hp e.1 (mem e he).1)]
      rfl
    · rw [c2, State.core_modCore_self, setMaskBits_same]
    · rw [c3]
      simp
  · refine ⟨_, by unfold State.runStage; dsimp only; rw [hint, hs]; dsimp only; rw [h]; exact rfl, ?_, by simp, fun e => ?_⟩
    · rw [State.core_modCore_self]
      rfl
    · rw [State.core_modCore_self]
      unfold Core.rred
      dsimp only
      by_cases he : e = 256 * t.stat + g.i % 256
      · subst he
        rw [tabGet_tabSet_self, if_neg (show ¬ 256 * t.stat + g.i % 256 ≠ 256 * t.stat + g.i % 256 from fun z => z rfl)]
        show (if (t.sub.testBit 2 && g.first) = true then _ else if t.sub % 4 = 1 then fMax _ _ else fAdd _ _) = _
        simp only [Bool.and_eq_true]
        split
        · rfl
        · split <;> rfl
      · rw [tabGet_tabSet_ne _ _ _ he, if_pos he]
  · have e : s.runStage g t vs = (u.countVec g.w (k + countTrue (out.map (·.2)) + (roundStage g.sf int t (out.map (·.1))).2)
        (nanMade t vs ys (out.map (·.1))), .ok (roundStage g.sf int t (out.map (·.1))).1) := by
      unfold State.runStage
      dsimp only
      rw [hint, hs]
      dsimp only
      split
      · exact absurd ‹_› h6
      · exact absurd ‹_› hF
      · exact absurd ‹_› hD
      · rfl
    obtain ⟨c1, c2, c3, c4, c5⟩ := State.countVec_spec u g.w (k + countTrue (out.map (·.2)) + (roundStage g.sf int t (out.map (·.1))).2) (nanMade t vs ys (out.map (·.1)))
    refine ⟨_, e, c1, c2, c3, fun g => ?_, fun g => ?_⟩
    · rw [c4 g, countTrue_map]
    · rw [c5 g]
      unfold nanMade
      rw [countTrue_map, List.length_map, List.length_map, List.length_range]
      congr 1
      refine List.countP_congr fun l hl => ?_
      have hl := List.mem_range.mp hl
      simp only [List.getD_eq_getElem?_getD, List.getElem?_map, List.getElem?_range hl, out, Option.map_some, Option.getD_some]
      exact Iff.rfl
  · refine ⟨_, by unfold State.runStage; dsimp only; rw [hint, hs]; dsimp only; rw [h, hf]; exact rfl, ?_⟩
    exact ⟨(State.countVec_spec _ _ _ _).1, (State.countVec_spec _ _ _ _).2.1, (State.countVec_spec _ _ _ _).2.2.1⟩

end Sys2Proof.Machine
end

