-- ==== Sys2Proof/Laws/Swap.lean ====
section
/-! SUPPORT. Laws/Swap.lean: what a commit swap does to each kind of derived state (R32, R33, R100). -/

namespace Sys2Proof.Machine

/-! ### Rings -/

/-- Only Loam, its error record, counters, telemetry, the trace and what is sent differ. -/
def Quiet (s t : State) : Prop := ∃ l e k x b o, t = { s with loam := l, err := e, ctr := k, tel := x, dbg := b, out := o }

theorem Quiet.refl (s : State) : Quiet s s := ⟨_, _, _, _, _, _, rfl⟩
theorem Quiet.trans {s t u : State} (h : Quiet s t) (g : Quiet t u) : Quiet s u := by
  obtain ⟨_, _, _, _, _, _, rfl⟩ := h
  obtain ⟨_, _, _, _, _, _, rfl⟩ := g
  exact ⟨_, _, _, _, _, _, rfl⟩

theorem Quiet.resetMsg (s : State) (c r a : Nat) (m : RingMsg) : Quiet s (s.resetMsg c r a m) := by
  obtain ⟨l, e, k, x, h⟩ := Touched.loamRead s 6 (s.ringAddr c r a) 64
  unfold State.resetMsg
  dsimp only
  rw [h]
  split
  · obtain ⟨b, k', x', o, g⟩ := State.logFault_eq { s with loam := l, err := e, ctr := k, tel := x } (by assumption) c true false (s.ringAddr c r a)
    rw [g]
    split <;> exact ⟨_, _, _, _, _, _, rfl⟩
  · split
    · exact ⟨_, _, _, _, _, _, rfl⟩
    · exact ⟨_, _, _, _, _, _, rfl⟩

/-- An advance changes its ring alone, and what it sends and counts. -/
theorem State.advanceRing_eq (s : State) (c r : Nat) : ∃ u, Quiet s u ∧ s.advanceRing c r = u.setRing c r ((s.advanceRing c r).ring c r) := by
  obtain ⟨g, hg⟩ : ∃ g : Ring, g = { s.ring c r with gen := (s.ring c r).gen + 1 } := ⟨_, rfl⟩
  obtain ⟨T, hT⟩ : ∃ T, T = ((s.ring c r).msgs.foldl (fun (a : State × Nat) m => (a.1.resetMsg c r a.2 m, a.2 + m.entries))
      (s.setRing c r g, (s.ring c r).rd + s.runningEntries c r)).1 := ⟨_, rfl⟩
  have q : Quiet (s.setRing c r g) T := by
    rw [hT]
    exact foldl_keeps (P := fun q : State × Nat => Quiet (s.setRing c r g) q.1) (fun b a h => h.trans (Quiet.resetMsg ..)) _ _ (Quiet.refl _)
  obtain ⟨l, er, k, x, b, o, q⟩ := q
  have q' : T = ({ s with loam := l, err := er, ctr := k, tel := x, dbg := b, out := o } : State).setRing c r g := q
  have e : ∃ y, s.advanceRing c r = T.setRing c r y := by
    unfold State.advanceRing
    dsimp only
    rw [← hg, ← hT]
    split <;> exact ⟨_, rfl⟩
  obtain ⟨y, e⟩ := e
  refine ⟨{ s with loam := l, err := er, ctr := k, tel := x, dbg := b, out := o }, ⟨_, _, _, _, _, _, rfl⟩, ?_⟩
  rw [e, State.ring_setRing, q']
  simp [State.setRing]

/-- What the swap makes of a ring (R33), where no handler runs on it. -/
def RingDerived (old new : Image) (c r : Nat) (idle : Prop) (x y : Ring) : Prop :=
  let place (im : Image) := (im.ring c r).map fun x => (x.base, x.size)
  (place old = place new → y = x) ∧
  (place old ≠ place new → (old.ring c r).isSome = true → idle → y.gen = x.gen + 1 ∧ y.msgs = [] ∧ y.occ = 0 ∧ y.rd = y.wr) ∧
  (place old ≠ place new → old.ring c r = none → y = { gen := x.gen + 1 })

/-- One ring at step 4 of a swap: it is derived, and nothing else changes but what is sent and counted. -/
theorem State.deriveRing_eq (s : State) (old new : Image) (c r : Nat) : ∃ u y, Quiet s u ∧
    (s.deriveRing old new c r = u ∧ y = s.ring c r ∨ s.deriveRing old new c r = u.setRing c r y) ∧
    RingDerived old new c r ((s.core c).hdl.phase = .idle) (s.ring c r) y := by
  unfold State.deriveRing
  dsimp only
  by_cases h : (old.ring c r).map (fun x => (x.base, x.size)) = (new.ring c r).map (fun x => (x.base, x.size))
  · rw [if_pos h]
    exact ⟨s, s.ring c r, Quiet.refl s, .inl ⟨rfl, rfl⟩, fun _ => rfl, fun n => absurd h n, fun n => absurd h n⟩
  · rw [if_neg h]
    by_cases g : (old.ring c r).isSome = true
    · rw [if_pos g]
      obtain ⟨S, hS⟩ : ∃ S : State, S = { s with str := { s.str with live := old } } := ⟨_, rfl⟩
      rw [← hS]
      obtain ⟨u, q, e⟩ := S.advanceRing_eq c r
      obtain ⟨f1, f2, f3, _, _, _⟩ := State.advanceRing_frame S c r
      have hrun : (s.core c).hdl.phase = .idle → S.runningEntries c r = 0 := by
        intro hi
        have : (S.core c).hdl.phase = .idle := by rw [hS]; exact hi
        unfold State.runningEntries
        rw [this]
      have hptr : (s.core c).hdl.phase = .idle → ((S.advanceRing c r).ring c r).rd = ((S.advanceRing c r).ring c r).wr := by
        intro hi
        unfold State.advanceRing
        dsimp only
        rw [if_pos (hrun hi), State.ring_setRing]
      obtain ⟨l, er, k, x, b, o, q⟩ := q
      have hr : S.ring c r = s.ring c r := by rw [hS]; rfl
      obtain ⟨y, hy⟩ : ∃ y, y = (S.advanceRing c r).ring c r := ⟨_, rfl⟩
      rw [← hy] at e f1 f2 f3 hptr
      have e' : ({ S.advanceRing c r with str := s.str } : State) = ({ s with loam := l, err := er, ctr := k, tel := x, dbg := b, out := o } : State).setRing c r y := by
        rw [e, q, hS]; rfl
      rw [e']
      cases hn : new.ring c r with
      | none =>
        refine ⟨{ s with loam := l, err := er, ctr := k, tel := x, dbg := b, out := o }, y, ⟨_, _, _, _, _, _, rfl⟩, .inr rfl, fun n => absurd n h, fun _ _ hi => ?_, fun _ n => by rw [n] at g; simp at g⟩
        exact ⟨f1.trans (by rw [hr]), f2, f3.trans (hrun hi), hptr hi⟩
      | some z =>
        dsimp only
        rw [State.ring_setRing]
        refine ⟨{ s with loam := l, err := er, ctr := k, tel := x, dbg := b, out := o }, { y with wr := y.wr % max 1 z.size, rd := y.rd % max 1 z.size }, ⟨_, _, _, _, _, _, rfl⟩,
          .inr (by simp [State.setRing]), fun n => absurd n h, fun _ _ hi => ?_, fun _ n => by rw [n] at g; simp at g⟩
        exact ⟨f1.trans (by rw [hr]), f2, f3.trans (hrun hi), by rw [hptr hi]⟩
    · rw [if_neg g]
      exact ⟨s, _, Quiet.refl s, .inr rfl, fun n => absurd n h, fun _ n => absurd n g, fun _ _ => rfl⟩

/-- What the derivation of rings leaves. -/
structure RestKept (s t : State) : Prop where
  str : t.str = s.str
  syn : t.syn = s.syn
  cores : t.cores = s.cores
  bq : t.bq = s.bq
  credits : t.msg.credits = s.msg.credits
  slots : t.msg.slots = s.msg.slots

theorem RestKept.refl (s : State) : RestKept s s := ⟨rfl, rfl, rfl, rfl, rfl, rfl⟩
theorem RestKept.trans {s t u : State} (h : RestKept s t) (g : RestKept t u) : RestKept s u :=
  ⟨g.str.trans h.str, g.syn.trans h.syn, g.cores.trans h.cores, g.bq.trans h.bq, g.credits.trans h.credits, g.slots.trans h.slots⟩

theorem State.deriveRing_frame (s : State) (old new : Image) (c r : Nat) : RestKept s (s.deriveRing old new c r) ∧
    RingDerived old new c r ((s.core c).hdl.phase = .idle) (s.ring c r) ((s.deriveRing old new c r).ring c r) ∧
    ∀ d k, ringKey d k ≠ ringKey c r → (s.deriveRing old new c r).ring d k = s.ring d k := by
  obtain ⟨u, y, ⟨l, er, k, x, b, o, rfl⟩, e, h⟩ := s.deriveRing_eq old new c r
  rcases e with ⟨e, rfl⟩ | e
  · rw [e]
    exact ⟨⟨rfl, rfl, rfl, rfl, rfl, rfl⟩, h, fun _ _ _ => rfl⟩
  · rw [e]
    refine ⟨⟨rfl, rfl, rfl, rfl, rfl, rfl⟩, by rwa [State.ring_setRing], fun d k n => ?_⟩
    rw [State.ring_setRing_ne _ _ n]
    rfl

theorem State.deriveRings_list (old new : Image) : ∀ (l : List (Nat × Nat)), (l.map fun p => ringKey p.1 p.2).Nodup → ∀ s : State,
    RestKept s (l.foldl (fun (t : State) p => t.deriveRing old new p.1 p.2) s) ∧
    (∀ p ∈ l, RingDerived old new p.1 p.2 ((s.core p.1).hdl.phase = .idle) (s.ring p.1 p.2)
      ((l.foldl (fun (t : State) p => t.deriveRing old new p.1 p.2) s).ring p.1 p.2)) ∧
    ∀ d k, ringKey d k ∉ l.map (fun p => ringKey p.1 p.2) → (l.foldl (fun (t : State) p => t.deriveRing old new p.1 p.2) s).ring d k = s.ring d k := by
  intro l
  induction l with
  | nil => exact fun _ s => ⟨RestKept.refl s, fun _ h => by simp at h, fun _ _ _ => rfl⟩
  | cons a l ih =>
    intro hn s
    rw [List.map_cons, List.nodup_cons] at hn
    obtain ⟨h1, h2, h3⟩ := s.deriveRing_frame old new a.1 a.2
    obtain ⟨g1, g2, g3⟩ := ih hn.2 (s.deriveRing old new a.1 a.2)
    rw [List.foldl_cons]
    refine ⟨h1.trans g1, fun p hp => ?_, fun d k n => ?_⟩
    · rcases List.mem_cons.mp hp with rfl | hp
      · rw [g3 _ _ hn.1]
        exact h2
      · have hc : (s.deriveRing old new a.1 a.2).core p.1 = s.core p.1 := by unfold State.core; rw [h1.cores]
        have hk : ringKey p.1 p.2 ≠ ringKey a.1 a.2 := fun q => hn.1 (by rw [← q]; exact List.mem_map.mpr ⟨p, hp, rfl⟩)
        have := g2 p hp
        rwa [hc, h3 _ _ hk] at this
    · rw [List.map_cons, List.mem_cons, not_or] at n
      rw [g3 _ _ n.2, h3 _ _ n.1]

/-- Rings at step 4 of a swap (R33). -/
theorem State.deriveRings_ring (s : State) (old new : Image) : RestKept s (s.deriveRings old new) ∧
    ∀ (c : Fin 5) (r : Fin 32), RingDerived old new c.val r.val ((s.core c.val).hdl.phase = .idle) (s.ring c.val r.val) ((s.deriveRings old new).ring c.val r.val) := by
  have hn : (((List.range 5).flatMap fun c => (List.range 32).map fun r => (c, r)).map (fun p => ringKey p.1 p.2)).Nodup := by
    rw [List.map_flatMap]
    simp only [List.map_map]
    rw [List.nodup_flatMap]
    refine ⟨fun c _ => List.nodup_range.map fun a b h => by simp [ringKey] at h; exact h, List.nodup_range.imp fun {a b} ne => ?_⟩
    intro x hx hy
    obtain ⟨i, hi, rfl⟩ := List.mem_map.mp hx
    obtain ⟨j, hj, e⟩ := List.mem_map.mp hy
    rw [List.mem_range] at hi hj
    simp [ringKey] at e
    omega
  obtain ⟨h1, h2, _⟩ := State.deriveRings_list old new ((List.range 5).flatMap fun c => (List.range 32).map fun r => (c, r)) hn s
  refine ⟨h1, fun c r => h2 (c.val, r.val) ?_⟩
  exact List.mem_flatMap.mpr ⟨c.val, List.mem_range.mpr c.2, List.mem_map.mpr ⟨r.val, List.mem_range.mpr r.2, rfl⟩⟩

/-! ### Counters, credits, cores, batch queues -/

theorem tabGet_filterKey {α : Type} (d : α) (p : Nat → Bool) (n : Nat) : ∀ t : Tab α,
    tabGet d (t.filter fun e => p e.1) n = if p n = true then tabGet d t n else d
  | [] => by simp [tabGet]
  | (k, v) :: t => by
    rw [List.filter_cons]
    by_cases h : p k = true
    · rw [if_pos h, tabGet, tabGet_filterKey d p n t, tabGet]
      by_cases e : k = n
      · subst e; simp [h]
      · simp [e]
    · rw [if_neg h, tabGet_filterKey d p n t, tabGet]
      by_cases e : k = n
      · subst e; simp [h]
      · simp [e]

/-- Counters at step 4 of a swap (R33). -/
theorem State.deriveCounters_sc (s : State) (old new : Image) (n : Nat) : (s.deriveCounters old new).sc n =
    if (new.sync n).isSome ∧ ((old.sync n).map fun x => (x.scope, x.owner)) = (new.sync n).map fun x => (x.scope, x.owner) then s.sc n else 0 := by
  unfold State.deriveCounters State.sc
  dsimp only
  rw [tabGet_filterKey 0 (fun k => ((new.sync k).map fun r => (r.scope, r.owner)).isSome && ((old.sync k).map fun r => (r.scope, r.owner)) == (new.sync k).map fun r => (r.scope, r.owner))]
  congr 1
  simp only [Option.isSome_map, Bool.and_eq_true, beq_iff_eq]

theorem State.credit_setCredit_ne (s : State) {d k : Nat} (x : Credit) (h : k ≠ d) : (s.setCredit d x).credit k = s.credit k := tabGet_tabSet_ne _ _ _ h
@[simp] theorem State.credit_setCredit (s : State) (d : Nat) (x : Credit) : (s.setCredit d x).credit d = x := tabGet_tabSet_self ..

/-- Setting credits of destinations alone. -/
def CreditsOnly (s t : State) : Prop := ∃ c, t = { s with msg := { s.msg with credits := c } }

theorem CreditsOnly.trans {s t u : State} (h : CreditsOnly s t) (g : CreditsOnly t u) : CreditsOnly s u := by
  obtain ⟨_, rfl⟩ := h
  obtain ⟨_, rfl⟩ := g
  exact ⟨_, rfl⟩

/-- The entries that the new image does not have read zero. -/
theorem State.dropCredits (new : Image) : ∀ (l : Tab Credit) (s : State),
    let t := l.foldl (fun (t : State) e => if (new.credit e.1).isSome then t else t.setCredit e.1 { e.2 with avail := 0, gen := none }) s
    CreditsOnly s t ∧ (∀ d, (new.credit d).isSome = true → t.credit d = s.credit d) ∧
    ∀ d, new.credit d = none → (d ∈ l.map Prod.fst ∨ (s.credit d).avail = 0) → (t.credit d).avail = 0 := by
  intro l
  induction l with
  | nil => exact fun s => ⟨⟨_, rfl⟩, fun _ _ => rfl, fun d _ h => by simpa using h⟩
  | cons a l ih =>
    intro s
    dsimp only
    rw [List.foldl_cons]
    by_cases h : (new.credit a.1).isSome = true
    · rw [if_pos h]
      obtain ⟨g1, g2, g3⟩ := ih s
      refine ⟨g1, g2, fun d hd hm => g3 d hd ?_⟩
      rcases hm with hm | hm
      · rw [List.map_cons, List.mem_cons] at hm
        rcases hm with rfl | hm
        · rw [hd] at h; simp at h
        · exact .inl hm
      · exact .inr hm
    · rw [if_neg h]
      obtain ⟨g1, g2, g3⟩ := ih (s.setCredit a.1 { a.2 with avail := 0, gen := none })
      refine ⟨CreditsOnly.trans ⟨_, rfl⟩ g1, fun d hd => ?_, fun d hd hm => g3 d hd ?_⟩
      · rw [g2 d hd, State.credit_setCredit_ne _ _ fun q => h (by rw [← q]; exact hd)]
      · by_cases q : d = a.1
        · subst q
          exact .inr (by rw [State.credit_setCredit])
        · rw [State.credit_setCredit_ne _ _ q]
          rcases hm with hm | hm
          · rw [List.map_cons, List.mem_cons] at hm
            exact .inl (hm.resolve_left q)
          · exact .inr hm

/-- The entries of the new image are renewed where they are new or changed. -/
theorem State.renewCredits (old : Image) : ∀ (l : List CreditEnt), (l.map (·.dest)).Nodup → ∀ s : State,
    let t := l.foldl (fun (t : State) e => if (old.credit e.dest).map (·.allot) = some e.allot then t else t.setCredit e.dest ((t.credit e.dest).renew e.allot)) s
    CreditsOnly s t ∧ (∀ d, d ∉ l.map (·.dest) → t.credit d = s.credit d) ∧
    ∀ e ∈ l, (t.credit e.dest).avail = if (old.credit e.dest).map (·.allot) = some e.allot then (s.credit e.dest).avail else e.allot - (s.credit e.dest).out := by
  intro l
  induction l with
  | nil => exact fun _ s => ⟨⟨_, rfl⟩, fun _ _ => rfl, fun _ h => by simp at h⟩
  | cons a l ih =>
    intro hn s
    rw [List.map_cons, List.nodup_cons] at hn
    dsimp only
    rw [List.foldl_cons]
    by_cases h : (old.credit a.dest).map (·.allot) = some a.allot
    · rw [if_pos h]
      obtain ⟨g1, g2, g3⟩ := ih hn.2 s
      refine ⟨g1, fun d hd => g2 d (fun q => hd (List.mem_cons_of_mem _ q)), fun e he => ?_⟩
      rcases List.mem_cons.mp he with rfl | he
      · rw [if_pos h, g2 _ hn.1]
      · exact g3 e he
    · rw [if_neg h]
      obtain ⟨g1, g2, g3⟩ := ih hn.2 (s.setCredit a.dest ((s.credit a.dest).renew a.allot))
      refine ⟨CreditsOnly.trans ⟨_, rfl⟩ g1, fun d hd => ?_, fun e he => ?_⟩
      · rw [g2 d (fun q => hd (List.mem_cons_of_mem _ q)), State.credit_setCredit_ne _ _ fun q => hd (by rw [q]; exact List.mem_cons_self)]
      · rcases List.mem_cons.mp he with rfl | he
        · rw [if_neg h, g2 _ hn.1, State.credit_setCredit]
          rfl
        · rw [g3 e he, State.credit_setCredit_ne _ _ fun q => hn.1 (by rw [← q]; exact List.mem_map.mpr ⟨e, he, rfl⟩)]

theorem State.renewCredits_only (old : Image) (l : List CreditEnt) (s : State) :
    CreditsOnly s (l.foldl (fun (t : State) e => if (old.credit e.dest).map (·.allot) = some e.allot then t else t.setCredit e.dest ((t.credit e.dest).renew e.allot)) s) ∧
    ∀ d, d ∉ l.map (·.dest) → (l.foldl (fun (t : State) e => if (old.credit e.dest).map (·.allot) = some e.allot then t else t.setCredit e.dest ((t.credit e.dest).renew e.allot)) s).credit d = s.credit d := by
  induction l generalizing s with
  | nil => exact ⟨⟨_, rfl⟩, fun _ _ => rfl⟩
  | cons a l ih =>
    rw [List.foldl_cons]
    split
    · obtain ⟨g1, g2⟩ := ih s
      exact ⟨g1, fun d hd => g2 d fun q => hd (List.mem_cons_of_mem _ q)⟩
    · obtain ⟨g1, g2⟩ := ih (s.setCredit a.dest ((s.credit a.dest).renew a.allot))
      refine ⟨CreditsOnly.trans ⟨_, rfl⟩ g1, fun d hd => ?_⟩
      rw [g2 d (fun q => hd (List.mem_cons_of_mem _ q)), State.credit_setCredit_ne _ _ fun q => hd (by rw [q]; exact List.mem_cons_self)]

theorem Image.credit_mem {im : Image} {d : Nat} {e : CreditEnt} (h : im.credit d = some e) : e ∈ im.credits ∧ e.dest = d := by
  refine ⟨List.mem_of_find?_eq_some h, ?_⟩
  have := List.find?_some h
  simpa using this

theorem Image.credit_none {im : Image} {d : Nat} (h : im.credit d = none) : d ∉ im.credits.map (·.dest) := by
  intro m
  obtain ⟨e, he, rfl⟩ := List.mem_map.mp m
  have := List.find?_eq_none.mp h e he
  simp at this

/-- Credits at step 4 of a swap (R33). -/
theorem State.deriveCredits_credit (s : State) (old new : Image) : CreditsOnly s (s.deriveCredits old new) ∧
    (∀ d, new.credit d = none → ((s.deriveCredits old new).credit d).avail = 0) ∧
    ((new.credits.map (·.dest)).Nodup → ∀ d e, new.credit d = some e → ((s.deriveCredits old new).credit d).avail =
      if (old.credit d).map (·.allot) = some e.allot then (s.credit d).avail else e.allot - (s.credit d).out) := by
  unfold State.deriveCredits
  dsimp only
  obtain ⟨g1, g2, g3⟩ := State.dropCredits new s.msg.credits s
  obtain ⟨G, hG⟩ : ∃ G : State, G = s.msg.credits.foldl (fun (t : State) e => if (new.credit e.1).isSome then t else t.setCredit e.1 { e.2 with avail := 0, gen := none }) s := ⟨_, rfl⟩
  rw [← hG] at g1 g2 g3 ⊢
  obtain ⟨f1, f2⟩ := State.renewCredits_only old new.credits G
  refine ⟨g1.trans f1, fun d hd => ?_, fun hn d e he => ?_⟩
  · rw [f2 d (Image.credit_none hd)]
    refine g3 d hd ?_
    rcases tabGet_mem {} s.msg.credits d with h | h
    · right
      unfold State.credit
      rw [h]
    · exact .inl (List.mem_map.mpr ⟨_, h, rfl⟩)
  · obtain ⟨m, rfl⟩ := Image.credit_mem he
    rw [(State.renewCredits old new.credits hn G).2.2 e m, g2 _ (by rw [he]; rfl)]

/-- What the swap makes of a compute core (R33). -/
def CoreDerived (old new : Image) (c : Nat) (x y : Core) : Prop :=
  let was := coreOn old.coreEn c
  let now := coreOn new.coreEn c
  let fits : Prop := ∃ a b, old.save c = some a ∧ new.save c = some b ∧ a.base = b.base ∧ a.size ≤ b.size
  (y.asleep = (x.asleep || now && !was)) ∧ (x.asleep = true → was = true → now = true → fits → y.sleepSaved = x.sleepSaved) ∧
  (y.asleep = true → ¬ (was = true ∧ now = true ∧ fits) → y.sleepSaved = false)

/-- A fold over cores each of which changes its own core alone. -/
theorem State.foldl_cores (f : State → Nat → State) (P : Nat → Core → Core → Prop) (rest : State → State → Prop) (hr : ∀ s, rest s s)
    (ht : ∀ s t u, rest s t → rest t u → rest s u)
    (hf : ∀ s c, rest s (f s c) ∧ P c (s.core c) ((f s c).core c) ∧ ∀ d, d ≠ c → (f s c).core d = s.core d) :
    ∀ (l : List Nat), l.Nodup → ∀ s : State, rest s (l.foldl f s) ∧ (∀ c ∈ l, P c (s.core c) ((l.foldl f s).core c)) ∧
      ∀ d, d ∉ l → (l.foldl f s).core d = s.core d := by
  intro l
  induction l with
  | nil => exact fun _ s => ⟨hr s, fun _ h => by simp at h, fun _ _ => rfl⟩
  | cons a l ih =>
    intro hn s
    rw [List.nodup_cons] at hn
    obtain ⟨h1, h2, h3⟩ := hf s a
    obtain ⟨g1, g2, g3⟩ := ih hn.2 (f s a)
    rw [List.foldl_cons]
    refine ⟨ht _ _ _ h1 g1, fun c hc => ?_, fun d hd => ?_⟩
    · rcases List.mem_cons.mp hc with rfl | hc
      · rw [g3 _ hn.1]; exact h2
      · have := g2 c hc
        rwa [h3 c fun q => hn.1 (q ▸ hc)] at this
    · rw [List.mem_cons, not_or] at hd
      rw [g3 d hd.2, h3 d hd.1]

/-- Compute cores at step 4 of a swap (R33). -/
theorem State.deriveCores_core (s : State) (old new : Image) : (∃ cs, s.deriveCores old new = { s with cores := cs }) ∧
    ∀ c : Fin 4, CoreDerived old new c.val (s.core c.val) ((s.deriveCores old new).core c.val) := by
  unfold State.deriveCores
  obtain ⟨f, hf⟩ : ∃ f : State → Nat → State, f = fun (t : State) c =>
    let fits : Bool := match old.save c, new.save c with
      | some a, some b => a.base == b.base && decide (a.size ≤ b.size)
      | _, _ => false
    let was := coreOn old.coreEn c
    let now := coreOn new.coreEn c
    if (t.core c).asleep && now && was && fits then t
    else if (t.core c).asleep then t.modCore c fun x => { x with sleepSaved := false, wakeTick := if now then x.wakeTick else none }
    else if now ∧ !was then t.modCore c fun x => { x with asleep := true, sleepSaved := false, kaolin := {}, vb := {}, masks := [], front := none, back := none, sumS := [], sumT := [] }
    else t := ⟨_, rfl⟩
  have key := State.foldl_cores f (CoreDerived old new) (fun s t => ∃ cs, t = { s with cores := cs }) (fun s => ⟨s.cores, rfl⟩)
    (fun s t u h g => by obtain ⟨_, rfl⟩ := h; obtain ⟨_, rfl⟩ := g; exact ⟨_, rfl⟩) (fun t c => by
      have hfits : (match old.save c, new.save c with
          | some a, some b => a.base == b.base && decide (a.size ≤ b.size)
          | _, _ => false) = true ↔ ∃ a b, old.save c = some a ∧ new.save c = some b ∧ a.base = b.base ∧ a.size ≤ b.size := by
        cases old.save c <;> cases new.save c <;> simp
      rw [hf]
      dsimp only
      unfold CoreDerived
      dsimp only
      rw [← hfits]
      generalize (match old.save c, new.save c with
          | some a, some b => a.base == b.base && decide (a.size ≤ b.size)
          | _, _ => false) = fits
      generalize coreOn old.coreEn c = was
      generalize coreOn new.coreEn c = now
      cases ha : (t.core c).asleep <;> cases fits <;> cases was <;> cases now <;>
        simp only [Bool.and_false, Bool.and_true, Bool.false_eq_true, if_false, if_true, and_true, and_false, Bool.not_false, Bool.not_true, State.core_modCore_self, ha] <;>
        first
          | exact ⟨⟨_, rfl⟩, by simp, fun d hd => State.core_modCore_ne _ _ hd⟩
          | exact ⟨⟨_, rfl⟩, by simp, fun d hd => trivial⟩)
    (List.range 4) List.nodup_range s
  subst hf
  exact ⟨key.1, fun c => key.2.1 c.val (List.mem_range.mpr c.2)⟩

theorem State.bqOf_setBq_ne (s : State) {q k : Nat} (b : BatchQ) (h : k ≠ q) : (s.setBq q b).bqOf k = s.bqOf k := tabGet_tabSet_ne _ _ _ h
@[simp] theorem State.bqOf_setBq (s : State) (q : Nat) (b : BatchQ) : (s.setBq q b).bqOf q = b := tabGet_tabSet_self ..

/-- Batch queues at step 4 of a swap (R100). -/
theorem State.deriveQueues_bqOf (s : State) : (∃ b, s.deriveQueues = { s with bq := b }) ∧ ∀ q : Fin 16,
    s.deriveQueues.bqOf q.val = if s.scShared (s.bqOf q.val).notify = true then s.bqOf q.val
      else { s.bqOf q.val with en := false, fill := [], shipped := [] } := by
  have key : ∀ (l : List Nat), l.Nodup → ∀ (t : State), (∃ b, t = { s with bq := b }) →
      let u := l.foldl (fun (t : State) q => if t.scShared (t.bqOf q).notify then t else t.setBq q { t.bqOf q with en := false, fill := [], shipped := [] }) t
      (∃ b, u = { s with bq := b }) ∧ (∀ q, q ∉ l → u.bqOf q = t.bqOf q) ∧ ∀ q ∈ l, u.bqOf q = if s.scShared (t.bqOf q).notify = true then t.bqOf q
        else { t.bqOf q with en := false, fill := [], shipped := [] } := by
    intro l
    induction l with
    | nil => exact fun _ t h => ⟨h, fun _ _ => rfl, fun _ h => by simp at h⟩
    | cons a l ih =>
      intro hn t ht
      rw [List.nodup_cons] at hn
      have hsh : ∀ n, t.scShared n = s.scShared n := by
        obtain ⟨b, rfl⟩ := ht
        exact fun _ => rfl
      dsimp only
      rw [List.foldl_cons]
      by_cases h : s.scShared (t.bqOf a).notify = true
      · rw [if_pos (by rw [hsh]; exact h)]
        obtain ⟨g1, g2, g3⟩ := ih hn.2 t ht
        refine ⟨g1, fun q hq => g2 q fun m => hq (List.mem_cons_of_mem _ m), fun q hq => ?_⟩
        rcases List.mem_cons.mp hq with rfl | hq
        · rw [if_pos h, g2 _ hn.1]
        · exact g3 q hq
      · rw [if_neg (by rw [hsh]; exact h)]
        obtain ⟨g1, g2, g3⟩ := ih hn.2 (t.setBq a { t.bqOf a with en := false, fill := [], shipped := [] }) (by obtain ⟨b, rfl⟩ := ht; exact ⟨_, rfl⟩)
        refine ⟨g1, fun q hq => ?_, fun q hq => ?_⟩
        · rw [g2 q (fun m => hq (List.mem_cons_of_mem _ m)), State.bqOf_setBq_ne _ _ fun e => hq (by rw [e]; exact List.mem_cons_self)]
        · rcases List.mem_cons.mp hq with rfl | hq
          · rw [if_neg h, g2 _ hn.1, State.bqOf_setBq]
          · have := g3 q hq
            rwa [State.bqOf_setBq_ne _ _ fun e => hn.1 (by rw [← e]; exact hq)] at this
  obtain ⟨g1, _, g3⟩ := key (List.range 16) List.nodup_range s ⟨s.bq, rfl⟩
  exact ⟨g1, fun q => g3 q.val (List.mem_range.mpr q.2)⟩

/-! ### All of step 4 -/

/-- The trace staging region at step 4 takes free values. -/
theorem State.freeTrace_eq (s : State) (old : Image) : ∃ l n, s.freeTrace old = { s with loam := l, free := n } := by
  unfold State.freeTrace
  split
  · exact ⟨s.loam, s.free, rfl⟩
  · split <;> exact ⟨_, _, rfl⟩

/-- What step 4 of a swap makes of each kind of derived state (R33, R100). -/
structure Derived (old new : Image) (s t : State) : Prop where
  str : t.str = s.str
  ring : ∀ (c : Fin 5) (r : Fin 32), RingDerived old new c.val r.val ((s.core c.val).hdl.phase = .idle) (s.ring c.val r.val) (t.ring c.val r.val)
  sc : ∀ n, t.sc n = if (new.sync n).isSome ∧ ((old.sync n).map fun x => (x.scope, x.owner)) = (new.sync n).map fun x => (x.scope, x.owner)
    then s.sc n else 0
  gone : ∀ d, new.credit d = none → (t.credit d).avail = 0
  credit : (new.credits.map (·.dest)).Nodup → ∀ d e, new.credit d = some e →
    (t.credit d).avail = if (old.credit d).map (·.allot) = some e.allot then (s.credit d).avail else e.allot - (s.credit d).out
  core : ∀ c : Fin 4, CoreDerived old new c.val (s.core c.val) (t.core c.val)
  queue : ∀ q : Fin 16, t.bqOf q.val = if s.scShared (s.bqOf q.val).notify = true then s.bqOf q.val
    else { s.bqOf q.val with en := false, fill := [], shipped := [] }

theorem State.deriveAll_derived (s : State) : Derived s.str.staged s.str.live s s.deriveAll := by
  obtain ⟨l, n, e⟩ := s.freeTrace_eq s.str.staged
  obtain ⟨z, hz⟩ : ∃ z, z = s.freeTrace s.str.staged := ⟨_, rfl⟩
  suffices h : Derived s.str.staged s.str.live z s.deriveAll by
    rw [hz, e] at h
    exact ⟨h.str, h.ring, h.sc, h.gone, h.credit, h.core, h.queue⟩
  obtain ⟨k, hr⟩ := z.deriveRings_ring s.str.staged s.str.live
  unfold State.deriveAll
  dsimp only
  rw [← hz]
  obtain ⟨old, ho⟩ : ∃ o, o = s.str.staged := ⟨_, rfl⟩
  obtain ⟨new, hn⟩ : ∃ o, o = s.str.live := ⟨_, rfl⟩
  rw [← ho, ← hn] at hr k ⊢
  obtain ⟨A, hA⟩ : ∃ A, A = z.deriveRings old new := ⟨_, rfl⟩
  rw [← hA] at hr k ⊢
  obtain ⟨B, hB⟩ : ∃ B, B = A.deriveCounters old new := ⟨_, rfl⟩
  have hB' : B.str = A.str ∧ B.msg = A.msg ∧ B.cores = A.cores ∧ B.bq = A.bq := by rw [hB]; exact ⟨rfl, rfl, rfl, rfl⟩
  have hBs := A.deriveCounters_sc old new
  rw [← hB] at hBs ⊢
  obtain ⟨C, hC⟩ : ∃ C, C = B.deriveCredits old new := ⟨_, rfl⟩
  obtain ⟨⟨cr, hC'⟩, c1, c2⟩ := B.deriveCredits_credit old new
  rw [← hC] at hC' c1 c2 ⊢
  obtain ⟨⟨cs, hD'⟩, d1⟩ := C.deriveCores_core old new
  obtain ⟨D, hD⟩ : ∃ D, D = C.deriveCores old new := ⟨_, rfl⟩
  rw [← hD] at hD' d1 ⊢
  obtain ⟨E, hE⟩ : ∃ E, E = D.deriveSlots old new := ⟨_, rfl⟩
  have hE' : E.str = D.str ∧ E.syn = D.syn ∧ E.cores = D.cores ∧ E.bq = D.bq ∧ E.msg.rings = D.msg.rings ∧ E.msg.credits = D.msg.credits := by
    rw [hE]; exact ⟨rfl, rfl, rfl, rfl, rfl, rfl⟩
  rw [← hE]
  obtain ⟨⟨bq, hF'⟩, f1⟩ := E.deriveQueues_bqOf
  obtain ⟨F, hF⟩ : ∃ F, F = E.deriveQueues := ⟨_, rfl⟩
  rw [← hF] at hF' f1 ⊢
  have fin : ∀ t : State, t.str = F.str → t.syn = F.syn → t.cores = F.cores → t.bq = F.bq → t.msg = F.msg → Derived old new z t := by
    intro t t1 t2 t3 t4 t5
    have estr : F.str = z.str := by rw [hF', hE'.1, hD', hC', hB'.1, k.str]
    have ecores : C.cores = z.cores := by rw [hC', hB'.2.2.1, k.cores]
    have ebq : E.bq = z.bq := by rw [hE'.2.2.2.1, hD', hC', hB'.2.2.2, k.bq]
    have ering : F.msg.rings = A.msg.rings := by rw [hF', hE'.2.2.2.2.1, hD', hC', hB'.2.1]
    have ecred : F.msg.credits = C.msg.credits := by rw [hF', hE'.2.2.2.2.2, hD']
    have ebase : ∀ d, B.credit d = z.credit d := fun d => by unfold State.credit; rw [hB'.2.1, k.credits]
    have esc : ∀ n, t.sc n = B.sc n := fun n => by unfold State.sc; rw [t2, hF', hE'.2.1, hD', hC']
    have ecore : ∀ c, t.core c = D.core c := fun c => by unfold State.core; rw [t3, hF', hE'.2.2.1]
    have ec : ∀ d, t.credit d = C.credit d := fun d => by unfold State.credit; rw [t5, ecred]
    refine ⟨t1.trans estr, fun c r => ?_, fun n => ?_, fun d hd => ?_, fun nd d e he => ?_, fun c => ?_, fun q => ?_⟩
    · rw [State.ring_of (t := t) (s := A) (by rw [t5, ering])]
      exact hr c r
    · rw [esc, hBs]
      have : A.sc n = z.sc n := by unfold State.sc; rw [k.syn]
      rw [this]
    · rw [ec]; exact c1 d hd
    · rw [ec, c2 nd d e he, ebase]
    · rw [ecore]
      have : C.core c.val = z.core c.val := by unfold State.core; rw [ecores]
      rw [← this]
      exact d1 c
    · have e1 : t.bqOf q.val = F.bqOf q.val := by unfold State.bqOf; rw [t4]
      have e2 : E.bqOf q.val = z.bqOf q.val := by unfold State.bqOf; rw [ebq]
      have e3 : ∀ n, E.scShared n = z.scShared n := fun n => by unfold State.scShared; rw [show E.str = z.str from by rw [← estr, hF']]
      rw [e1, f1 q, e2, e3]
  split
  · exact fin _ (by simp) (by simp) (by simp) (by simp) (by simp)
  · exact fin _ rfl rfl rfl rfl rfl

end Sys2Proof.Machine
end

