-- ==== Sys2Proof/Tests/Slice0.lean ====
section
/-! SUPPORT. Tests/Slice0.lean: the smoke of WellFormed, and for each statement a state and operands that meet its hypotheses. -/

namespace Sys2Proof.Tests

open Sys2Proof.Machine

-- one witness after the other: many kernel evaluations side by side take one thread's stack each
set_option Elab.async false

/-! ### WellFormed refuses what no sender can give -/

theorem test_wf_passEnd : (Instr.passEnd 0 [3, 3]).wellFormed = false := by decide
theorem test_wf_messageArrival : (Instr.messageArrival ⟨0, [], false⟩).wellFormed = false := by decide
theorem test_wf_memoryResponse : (Instr.memoryResponse 0 (.data [0])).wellFormed = false := by decide
theorem test_wf_remoteAccess : (Instr.remoteAccess ⟨1, 60, .read 8⟩).wellFormed = false := by decide
theorem test_wf_scrub : (Instr.scrub 393216).wellFormed = false := by decide
theorem test_wf_registerWrite : (Instr.registerWrite .host 0 .b8 0).wellFormed = false := by decide
theorem test_wf_registerRead : (Instr.registerRead .host 0 .b1).wellFormed = false := by decide
theorem test_wf_traceDrain : (Instr.traceDrain 0).wellFormed = false := by decide

/-! ### A small running cluster -/

/-- All cores on; 64 KiB of shared Loam; a ring of core 0 and of core 4; two counters; one credit entry. -/
def img : Image :=
  { id := 7, coreEn := 15, epochLen := 1000, waitTo := 100, sendTo := 100, commandTo := 100, handlerTo := 100, dmaTo := 100
    regions := [⟨.shared, 255, 4095, 0, 0, 1024⟩, ⟨.ring, 0, 4095, 1, 1024, 16⟩, ⟨.ring, 4, 4095, 2, 1040, 16⟩, ⟨.exportWin, 255, 4095, 0, 0, 1024⟩]
    kvb := List.replicate 4 { kao := 384, vb := [64, 64, 64, 64] }
    handlers := [⟨5, 1, ⟨0, 0, 1, true, false, true, 0, 0⟩⟩, ⟨6, 1, ⟨0, 0, 1, true, true, true, 511, 1⟩⟩]
    syncs := [⟨0, 8, 1, 255⟩, ⟨8, 8, 2, 255⟩], credits := [⟨0x40, 4⟩] }

/-- The cluster with `img` live and released cores, its fast clock running. -/
def base : State :=
  { str := { live := img, liveValid := true, shownId := 7 }, pwr := { state := .active, start := .released, fclk := 1600 }, tsRun := true }

/-- Where an item of the tests declares everything. -/
def hdr : Hdr := { hdrFmt := 1, codeLen := 64, kaoLen := 384, vb := [(0, 64), (0, 64), (0, 64), (0, 64)], doneSc := 0xFFFF }

/-- An item at its first instruction. -/
def item : Item := { no := 1, hdr := hdr, sup := true, off := 192 }

/-- `base` with `x` in a context and `b` in Loam from address 192. -/
def withCtx (w : Who) (x : Ctx) (b : List Byte) : State :=
  ({ base with loam := { cells := Mem.write [] 192 b } }).setCtx w x

/-- An instruction word of class, operation, length in 16-byte units and bits 31:16 (R148). -/
def insn (cls op n hi : Nat) : Nat := cls + 16 * op + 1024 * (n - 1) + 65536 * hi

/-- A context that runs the instruction of the words `ws`. -/
def run (w : Who) (ws : List Nat) : State := withCtx w { phase := .running, item := item } (ws.flatMap (leBytes 4))

def c0 : Who := ⟨0, .cmd⟩
def c4 : Who := ⟨4, .cmd⟩

theorem issues_of {s : State} {w : Who} {o : Op} {len : Nat} (h : s.fastOn = true ∧ (s.ctx w).canIssue = true ∧ Damage.item w ∉ s.damage)
    (f : (s.fetch w).2 = .op o len) : s.Issues w (s.fetch w).1 o len := ⟨h.1, h.2.1, h.2.2, Prod.ext rfl f⟩

/-- A job of context `c0` that has an epilogue. -/
def job : ArrJob := { who := c0, itemNo := 1, op := {}, epi := [0], width := 256, passes := 1 }

theorem sound_of {s : State} (l : s.loam.cells.wf = true)
    (c : ∀ e ∈ s.cores, e.2.kaolin.cells.wf = true ∧ e.2.vb.cells.wf = true ∧ e.2.recs.length ≤ 32) (m : s.mrl.mram.wf = true)
    (g : s.tel.log.length ≤ 64) : s.Sound := ⟨l, c, m, g⟩
theorem clean_of {st : Store} (h : st.flips = [] ∧ st.poison = [] ∧ st.tagFlips = []) : st.Clean := ⟨h.1, h.2.1, h.2.2⟩

/-- Byte `a` of the own Loam in the package. -/
def own (a : Nat) : Nat := 0xC000 * 2 ^ 32 + a


/-! ### The machine as a whole -/

def off : State := { pwr := { state := .off } }

theorem test_StepTakesFront : ({ base with pending := [.idleEntry] } : State).pending = .idleEntry :: [] := rfl
theorem test_EmptyQueueTicks : base.pending = [] ∧ base.pwr.state ≠ .off ∧ base.str.swap = none ∧ off.pending = [] ∧ off.pwr.state = .off := by
  decide
theorem test_CommandsComplete : Instr.droneClockFault.wellFormed = true ∧ (Instr.scrub 393215).wellFormed = true ∧
    (Instr.scrub 393216).wellFormed = false := by decide
theorem test_StepKeepsSound : base.Sound ∧ ∃ t, step base = .next t := ⟨⟨by decide, by simp [base], by decide, by decide⟩, _, rfl⟩
theorem test_OffIsStill : off.pwr.state = .off ∧ Instr.flush .host 0 ≠ .startup ∧ (Instr.flush .host 0).wellFormed = true := by decide

/-! ### The sequencer and scalar instructions -/

/-- An instruction of the tests at its turn. -/
def at_ (w : Who) (ws : List Nat) (o : Op) (len : Nat) : Prop := (run w ws).Issues w ((run w ws).fetch w).1 o len

theorem test_FetchReadsCode : let s := run c0 [insn 0 2 1 0]
    s.loam.flips = [] ∧ s.loam.tagFlips = [] ∧ s.loam.poison = [] ∧
    (s.item c0).off + 16 * (bits (fieldB (s.loam.cells.read ((s.item c0).addr + (s.item c0).off) 16) 0 4) 11 10 + 1) ≤ 192 + (s.item c0).hdr.codeLen ∧
    decodeOp 0 (s.loam.cells.read ((s.item c0).addr + (s.item c0).off)
      (16 * (bits (fieldB (s.loam.cells.read ((s.item c0).addr + (s.item c0).off) 16) 0 4) 11 10 + 1))) = some (.seqNop, 16) := by decide
theorem test_FetchReadsCode_beyond : let s := (run c0 []).modItem c0 fun i => { i with off := 241 }
    192 + (s.item c0).hdr.codeLen < (s.item c0).off + 16 := by decide
theorem test_IllegalInstructionAborts : let s := run c0 [insn 15 0 1 0]
    s.fastOn = true ∧ (s.ctx c0).canIssue = true ∧ Damage.item c0 ∉ s.damage ∧ ∃ t, s.fetch c0 = (t, .illegal) :=
  ⟨by decide, by decide, by decide, _, Prod.ext rfl (by decide)⟩
theorem test_SequencerInstructions : at_ c0 [insn 0 1 1 0] .seqEnd 16 ∧ at_ c0 [insn 0 2 1 0] .seqNop 16 ∧
    at_ c0 [insn 0 3 1 3] (.fence true true) 16 :=
  ⟨issues_of (by decide) (by decide), issues_of (by decide) (by decide), issues_of (by decide) (by decide)⟩

theorem test_SequencerInstructions_fenceWaits : let s := (run c0 [insn 0 3 1 3]).modCore 0 fun x => { x with jobs := [job] }
    s.Issues c0 (s.fetch c0).1 (.fence true true) 16 ∧ s.itemJobs c0 ≠ [] :=
  ⟨issues_of (by decide) (by decide), by decide⟩
theorem test_EnqueueFromControlCore : at_ c4 [insn 0 4 1 1, 64] (.enq 1 false 64) 16 ∧ (run c4 []).str.live.logical[1]? = some 1 ∧
    ((run c4 []).core 1).nq.length < 16 ∧ at_ c4 [insn 0 4 1 1, 65] (.enq 1 false 65) 16 ∧ at_ c4 [insn 0 4 1 5, 64] (.enq 5 false 64) 16 ∧
    (run c4 []).str.live.logical[5]? = none :=
  ⟨issues_of (by decide) (by decide), by decide, by decide, issues_of (by decide) (by decide), issues_of (by decide) (by decide), by decide⟩

theorem test_EnqueueFromControlCore_urgent :
    let s := (run c4 [insn 0 4 1 (1 + 8), 64]).setCtx ⟨1, .cmd⟩ { phase := .running, item := item }
    s.Issues c4 (s.fetch c4).1 (.enq 1 true 64) 16 ∧ s.str.live.logical[1]? = some 1 ∧ (s.core 1).uq.length < 4 ∧
    (s.core 1).cmd.phase = .running ∧ (s.core 1).cmd.item.urgent = false ∧ (s.core 1).cmd.item.abort = none ∧ (s.core 1).saved = none :=
  ⟨issues_of (by decide) (by decide), by decide⟩
theorem test_EnqueueFromControlCore_full : let s := (run c4 [insn 0 4 1 1, 64]).modCore 1 fun x => { x with nq := List.replicate 16 ⟨0, true, none⟩ }
    s.Issues c4 (s.fetch c4).1 (.enq 1 false 64) 16 ∧ (s.core 1).roomFor false = false := ⟨issues_of (by decide) (by decide), by decide⟩

/-- A scalar instruction: operation, SD, SA, SB and IMM. -/
def scl (o sd sa sb imm : Nat) : List Nat := [insn 1 o 1 (sd + 32 * sa + 1024 * sb), 0, imm % 2 ^ 32, imm / 2 ^ 32]

theorem test_ScalarArithmetic : ∀ o ∈ [1, 2, 3, 4, 5, 6, 7, 8, 9, 10, 11], at_ c4 (scl o 3 0 0 (2 ^ 63)) (.scl o 3 0 0 0x8000000000000000 false) 16 :=
  fun o ho => issues_of (by revert o; decide) (by revert o; decide)
theorem test_ScalarBranches : ∀ o ∈ [0x10, 0x11, 0x12, 0x13, 0x14], at_ c4 (scl o 0 0 0 240) (.scl o 0 0 0 240 false) 16 ∧
    at_ c4 (scl o 0 0 0 256) (.scl o 0 0 0 256 false) 16 ∧ at_ c4 (scl o 0 0 0 200) (.scl o 0 0 0 200 false) 16 :=
  fun o ho => ⟨issues_of (by revert o; decide) (by revert o; decide), issues_of (by revert o; decide) (by revert o; decide),
    issues_of (by revert o; decide) (by revert o; decide)⟩

theorem test_ScalarLoads : ∀ p ∈ [(0x18, 1), (0x19, 2), (0x1A, 4), (0x1B, 8)],
    at_ c4 (scl p.1 3 0 0 (own 1024)) (.scl p.1 3 0 0 (BitVec.ofNat 64 (own 1024)) false) 16 ∧ placeOf ({} : Ident) (own 1024) = .own 1024 ∧
    let s := run c4 (scl p.1 3 0 0 (own 1024))
    (s.fetch c4).1.itemFault c4 false 1024 p.2 = 0 ∧ ((s.fetch c4).1.loamRead (corePort 4) 1024 p.2).2 = .ok (List.replicate p.2 0) :=
  fun o ho => ⟨issues_of (by revert o; decide) (by revert o; decide), by decide, by revert o; decide, by revert o; decide⟩
theorem test_ScalarLoads_own : let s := run c4 (scl 0x1B 3 0 0 (own 1024)); s.itemFault c4 false 1024 8 = 0 ∧ s.loam.Clean :=
  ⟨by decide, clean_of (by decide)⟩

/-- A scalar instruction with its volatile bit. -/
def sclV (o sd sa sb imm : Nat) (v : Bool) : List Nat := [insn 1 o 1 (sd + 32 * sa + 1024 * sb + if v then 2 ^ 15 else 0), 0, imm % 2 ^ 32, imm / 2 ^ 32]

/-- An address of stack memory and one of another cluster's Loam. -/
def outers : List Nat := [4096, 0xC000 * 2 ^ 32 + 2 ^ 28]
def isOuter (pa : Nat) : Bool := match placeOf {} pa with
  | .stack | .other _ _ => true
  | _ => false

/-- A state at a scalar instruction with a memory port. -/
def ported (ws : List Nat) (p : Port) : State := { run c4 ws with port := p }

theorem test_ScalarLoads_outer : ∀ pa ∈ outers, ∀ v ∈ [false, true],
    (∀ p ∈ [{}, { cache := [⟨pa / 64, List.replicate 64 7, false⟩] }, { pbuf := [⟨pa / 64, (List.range 64).map fun i => (i, 7), false, [1], none⟩] }],
      let s := ported (sclV 0x1B 3 0 0 pa v) p
      s.Issues c4 (s.fetch c4).1 (.scl 0x1B 3 0 0 (BitVec.ofNat 64 pa) v) 16) ∧
    isOuter pa = true ∧ pa % 8 = 0 :=
  fun pa hp v hv => ⟨fun p h => issues_of (by revert pa v p; decide) (by revert pa v p; decide), by revert pa v; decide, by revert pa v; decide⟩
theorem test_ScalarLoads_found : ∀ pa ∈ outers,
    (let s := ported [] {}
     s.txnRoom = true ∧ s.port.pbuf = [] ∧ (s.lookLine (pa / 64)).2 = none ∧ s.port.covers (pa / 64) = false) ∧
    ((ported [] { cache := [⟨pa / 64, List.replicate 64 7, false⟩] }).lookLine (pa / 64)).2.isSome = true ∧
    (let s := ported [] { pbuf := [⟨pa / 64, (List.range 64).map fun i => (i, 7), false, [1], none⟩] }
     (s.lookLine (pa / 64)).2 = none ∧ s.port.covers (pa / 64) = true) := by decide
theorem test_ScalarLoads_elsewhere :
    (∀ pa ∈ [Config.regBase + 0xE010, Config.regBase + 2 ^ 20 + 0xE010, 0xF000 * 2 ^ 32, 2 ^ 48], at_ c4 (scl 0x1B 3 0 0 pa) (.scl 0x1B 3 0 0 (BitVec.ofNat 64 pa) false) 16) ∧
    placeOf {} (Config.regBase + 0xE010) = .regs (pkgIndex {}) 0xE010 ∧ placeOf {} (Config.regBase + 2 ^ 20 + 0xE010) = .regs 1 0xE010 ∧
    placeOf {} (0xF000 * 2 ^ 32) = .unmapped ∧ placeOf {} (2 ^ 48) = .unmapped ∧
    (let t := ((run c4 (scl 0x1B 3 0 0 (Config.regBase + 0xE010))).fetch c4).1
     (t.regRead (t.ownAcc c4) 0xE010 .b8).2 = .ok 0) :=
  ⟨fun pa hp => issues_of (by revert pa; decide) (by revert pa; decide), by decide⟩
theorem test_ScalarStores_outer : ∀ pa ∈ outers, ∀ v ∈ [false, true], let s := ported (sclV 0x1F 0 0 3 pa v) {}
    s.Issues c4 (s.fetch c4).1 (.scl 0x1F 0 0 3 (BitVec.ofNat 64 pa) v) 16 ∧ isOuter pa = true ∧ s.txnRoom = true ∧ s.port.used < 64 ∧
    ((s.fetch c4).1.pbufWrite 1 pa (leBytes 8 0)).isSome = true :=
  fun pa hp v hv => ⟨issues_of (by revert pa v; decide) (by revert pa v; decide), by revert pa v; decide⟩
theorem test_ScalarStores_elsewhere :
    (∀ pa ∈ [Config.regBase + 0xE010, Config.regBase + 0xE018, Config.regBase + 2 ^ 20 + 0xE018, 2 ^ 48],
      at_ c4 (scl 0x1F 0 0 3 pa) (.scl 0x1F 0 0 3 (BitVec.ofNat 64 pa) false) 16) ∧ arriveStore 0xE018 = false ∧
    (∀ o ∈ [0xE010, 0xE018], let t := ((run c4 (scl 0x1F 0 0 3 (Config.regBase + o))).fetch c4).1
     let q := regWriteWith allBlocks t (t.ownAcc c4) o .b8 0
     placeOf {} (Config.regBase + o) = .regs (pkgIndex {}) o ∧ (q.2 = 0 ↔ o = 0xE018) ∧ q.1.item c4 = t.item c4 ∧ q.1.ctx c4 = t.ctx c4) :=
  ⟨fun pa hp => issues_of (by revert pa; decide) (by revert pa; decide), by decide, by decide⟩
theorem test_ScalarStores : (∀ p ∈ [(0x1C, 1), (0x1D, 2), (0x1E, 4), (0x1F, 8)],
    at_ c4 (scl p.1 0 0 3 (own 1024)) (.scl p.1 0 0 3 (BitVec.ofNat 64 (own 1024)) false) 16 ∧
    (run c4 (scl p.1 0 0 3 (own 1024))).itemFault c4 true 1024 p.2 = 0) ∧
    (run c4 (scl 0x1F 0 0 3 (own 1024))).Sound ∧ (run c4 (scl 0x1F 0 0 3 (own 1024))).loam.Clean :=
  ⟨fun o ho => ⟨issues_of (by revert o; decide) (by revert o; decide), by revert o; decide⟩,
   sound_of (by decide) (by decide) (by decide) (by decide), clean_of (by decide)⟩
theorem test_MisalignedScalarTraps : ∀ p ∈ [(0x19, 2), (0x1A, 4), (0x1B, 8), (0x1D, 2), (0x1E, 4), (0x1F, 8), (0x20, 8), (0x21, 8)],
    at_ c4 (scl p.1 0 0 0 (own 1025)) (.scl p.1 0 0 0 (BitVec.ofNat 64 (own 1025)) false) 16 ∧ own 1025 % p.2 ≠ 0 :=
  fun o ho => ⟨issues_of (by revert o; decide) (by revert o; decide), by revert o; decide⟩
theorem test_RegisterInstructions :
    (let s := run c4 (scl 0x20 3 0 0 0xE010)
     s.Issues c4 (s.fetch c4).1 (.scl 0x20 3 0 0 0xE010 false) 16 ∧
     ((s.fetch c4).1.regRead ((s.fetch c4).1.ownAcc c4) 0xE010 .b8).2 = .ok 0) ∧
    (let s := run c4 (scl 0x20 3 0 0 0xFFFF8)
     s.Issues c4 (s.fetch c4).1 (.scl 0x20 3 0 0 0xFFFF8 false) 16 ∧
     ((s.fetch c4).1.regRead ((s.fetch c4).1.ownAcc c4) 0xFFFF8 .b8).2 = .bad 0x0C01) ∧
    (let s := run c4 (scl 0x21 0 0 3 0xE018)
     s.Issues c4 (s.fetch c4).1 (.scl 0x21 0 0 3 0xE018 false) 16 ∧ arriveStore 0xE018 = false ∧
     let q := regWriteWith allBlocks (s.fetch c4).1 ((s.fetch c4).1.ownAcc c4) 0xE018 .b8 0
     q.2 = 0 ∧ q.1.item c4 = (s.fetch c4).1.item c4 ∧ q.1.ctx c4 = (s.fetch c4).1.ctx c4) ∧
    (let s := run c4 (scl 0x21 0 0 3 0xE010)
     s.Issues c4 (s.fetch c4).1 (.scl 0x21 0 0 3 0xE010 false) 16 ∧
     (regWriteWith allBlocks (s.fetch c4).1 ((s.fetch c4).1.ownAcc c4) 0xE010 .b8 0).2 = 0x0C01) :=
  ⟨⟨issues_of (by decide) (by decide), by decide⟩, ⟨issues_of (by decide) (by decide), by decide⟩,
   ⟨issues_of (by decide) (by decide), by decide, by decide, by decide, by decide⟩, issues_of (by decide) (by decide), by decide⟩

theorem test_RegisterInstructions_arrives : let s := ported (scl 0x21 0 0 3 0x8000) { pbuf := [⟨64, [(0, 7)], false, [1], none⟩] }
    s.Issues c4 (s.fetch c4).1 (.scl 0x21 0 0 3 0x8000 false) 16 ∧ arriveStore 0x8000 = true ∧ s.released (s.item c4).no 2 = false :=
  ⟨issues_of (by decide) (by decide), by decide, by decide⟩

/-! ### Items -/

/-- The header of an item of 64 bytes of code without outputs (R143). -/
def headerBytes : List Byte :=
  [1] ++ List.replicate 15 0 ++ leBytes 4 64 ++ List.replicate 14 0 ++ leBytes 2 0xFFFF ++ List.replicate 156 0

/-- A message of one entry in ring 1. -/
def aMsg : MsgRef := ⟨1, 1, 64, List.replicate 16 0, false⟩

/-- An item at its issue steps, with `b` at its header address. -/
def issuing (b : List Byte) : State :=
  ({ base with loam := { cells := Mem.write [] 0 b } }).setCtx c0 { phase := .issuing, item := { no := 1, sup := true } }

set_option maxRecDepth 100000 in
theorem test_ItemStarts : let s := issuing headerBytes
    s.fastOn = true ∧ (s.core 0).asleep = false ∧ s.str.liveValid = true ∧ coreOn s.str.live.coreEn 0 = true ∧
    (s.ctx c0).phase = .issuing ∧ (s.item c0).abort = none ∧ Damage.item c0 ∉ s.damage ∧
    let q := s.headerOf c0 (s.item c0)
    q.2.2 = 0 ∧ q.1.rangeHeld c0 q.2.1 = false := by decide
/-- A header with Kaolin declared, and the state of a command that waits for a handler which holds it. -/
def held : State :=
  (withCtx c0 { phase := .waitRange, item := item } []).setCtx ⟨0, .hdl⟩ { phase := .running, item := item }
/-- `headerBytes` with all of Kaolin declared (R143). -/
def kaoHeader : List Byte := headerBytes.take 22 ++ leBytes 2 384 ++ headerBytes.drop 24
/-- `base` with the header `b` at address 0 and commands queued in core 0. -/
def queued (b : List Byte) : State :=
  ({ base with loam := { cells := Mem.write [] 0 b } }).modCore 0 fun x => { x with nq := [⟨0, true, none⟩], uq := [⟨0, true, none⟩, ⟨64, true, none⟩] }
set_option maxRecDepth 100000 in
theorem test_ItemStarts_others :
    (let s := (issuing kaoHeader).setCtx ⟨0, .hdl⟩ { phase := .running, item := item }
     let q := s.headerOf c0 (s.item c0)
     q.2.2 = 0 ∧ q.1.rangeHeld c0 q.2.1 = true) ∧
    (let s := queued headerBytes
     s.fastOn = true ∧ (s.ctx c0).phase = .idle ∧ Damage.item c0 ∉ s.damage ∧
     (match (s.core 0).nextCmd with
     | some (e, z, y) =>
       let q := s.headerOf c0 { no := s.itemNo, addr := e.addr, sup := e.sup, jobReq := e.jobReq, urgent := z }
       z && q.2.2 == 0 && !s.rangeHeld c0 q.2.1 && y.uq == [⟨64, true, none⟩]
     | none => false) = true) ∧
    (held.ctx c0).phase = .waitRange ∧ held.rangeHeld c0 (held.item c0).hdr = true ∧ (held.item c0).abort = none ∧
    (let s := withCtx c0 { phase := .waitRange, item := item } []
     (s.ctx c0).phase = .waitRange ∧ s.rangeHeld c0 (s.item c0).hdr = false) := by decide
set_option maxRecDepth 100000 in
theorem test_BadHeaderNotStarted :
    (let s := queued []
     s.fastOn = true ∧ (s.core 0).asleep = false ∧ s.str.liveValid = true ∧ coreOn s.str.live.coreEn 0 = true ∧ (s.item c0).abort = none ∧
     (s.ctx c0).phase = .idle ∧ Damage.item c0 ∉ s.damage ∧
     (match (s.core 0).nextCmd with
     | some (e, z, _) => (s.headerOf c0 { no := s.itemNo, addr := e.addr, sup := e.sup, jobReq := e.jobReq, urgent := z }).2.2 != 0
     | none => false) = true) ∧
    (let w : Who := ⟨0, .hdl⟩
     let s := base.setCtx w { phase := .issuing, item := { no := 1, sup := true, msg := some aMsg } }
     (s.ctx w).phase = .issuing ∧ (s.item w).abort = none ∧ (s.item w).msg = some aMsg ∧ (s.headerOf w (s.item w)).2.2 ≠ 0 ∧
     (decodeMHdr aMsg.header).kind = 0) := by decide
theorem test_ItemEnds : ∀ d ∈ [0, 0xFFFF], let s := withCtx c0 { phase := .running, item := { item with ending := true, hdr := { hdr with doneSc := d } } } []
    s.fastOn = true ∧ s.itemDone c0 = true ∧ (s.item c0).watch = [] ∧ s.doneReleased (s.item c0) = true ∧ s.scBad d = false := by decide
theorem test_ItemEnds_others :
    (let s := withCtx ⟨0, .hdl⟩ { phase := .running, item := { item with ending := true, msg := some aMsg } } []
     s.itemDone ⟨0, .hdl⟩ = true ∧ (s.item ⟨0, .hdl⟩).msg = some aMsg ∧ (s.item ⟨0, .hdl⟩).watch = []) ∧
    (let s := withCtx c0 { phase := .running, item := { item with ending := true, watch := [⟨0, own 1024, 64, 0⟩] } } []
     s.itemDone c0 = true ∧ (s.item c0).watch ≠ []) := by decide
theorem test_AbortSettles_regions :
    let h : Hdr := { hdr with nOuts := 2, outs := [(own 1024, 128, 0), (4096, 64, 0)] }
    let s := withCtx c0 { phase := .aborting, item := { item with hdr := h, abort := some { fault := 0x0705 }, wrote := [(2048, 64)] } } []
    (s.item c0).hdr.regions = [(own 1024, 128), (4096, 64)] ∧ placeOf s.id (own 1024) = .own 1024 ∧ sectorsOf 1024 128 = [16, 17] ∧
    s.farSectors (s.item c0).hdr = [4096] ∧ (s.sweepWatch (s.item c0).no).settled (s.item c0).no = true := by decide
theorem test_AbortSettles_left : ∀ l ∈ [[], [4096]],
    let s := withCtx c0 { phase := .aborting, item := { item with abort := some { fault := 0x0705, poisoned := true, left := l } } } []
    s.fastOn = true ∧ (s.item c0).abort = some { fault := 0x0705, poisoned := true, left := l } ∧ s.txnRoom = true ∧
    s.doneReleased (s.item c0) = true ∧ (s.item c0).watch = [] := by decide
theorem test_AbortSettles : ∀ z ∈ [false, true],
    let s := withCtx c0 { phase := .aborting, item := { item with abort := some { fault := 0x0705, poisoned := z } } } []
    s.fastOn = true ∧ (s.ctx c0).phase = .aborting ∧ (s.item c0).abort = some { fault := 0x0705, poisoned := z } ∧
    (s.sweepWatch (s.item c0).no).settled (s.item c0).no = true ∧ (s.item c0).hdr.regions = [] ∧ (s.item c0).watch = [] := by decide

set_option maxRecDepth 100000 in
theorem test_PreemptionSteps :
    (let s := withCtx c0 { phase := .preempting, item := item } []
     s.fastOn = true ∧ (s.ctx c0).phase = .preempting ∧ (s.item c0).abort = none ∧ (s.item c0).pend.stops = true ∧ (s.item c0).inProgress = false ∧ s.itemJobs c0 = []) ∧
    (let s := withCtx c0 { phase := .saving, item := item } []
     s.fastOn = true ∧ (s.ctx c0).phase = .saving) ∧
    (let s := base.modCore 0 fun x => { x with saved := some (item, []) }
     s.fastOn = true ∧ (s.core 0).saved = some (item, []) ∧ item.abort = none ∧ (s.ctx c0).phase = .idle ∧ (s.core 0).uq = [] ∧
     s.rangeHeld c0 item.hdr = false) ∧
    (let s := (base.modCore 0 fun x => { x with saved := some ({ item with hdr := {} }, []) }).setCtx c0 { phase := .restoring, item := item }
     (s.core 0).saved = some ({ item with hdr := {} }, []) ∧ (s.ctx c0).phase = .restoring ∧ (s.restoreCore 0 {}).2 = false) := by decide

/-- What a header of the tests keeps fits the core. -/
theorem test_PreemptionSteps_fits : ∀ h ∈ [hdr, {}], 1024 * (h.kaoBase + h.kaoLen) ≤ 6 * (256 * 256) ∧
    ∀ p ∈ h.vbParts, p.1 < 4 ∧ p.2.1 + p.2.2 ≤ 256 * 256 ∧ p.2.1 + p.2.2 ≤ 65536 := by decide
theorem test_PreemptionSteps_clean : ∀ p ∈ [Phase.saving, .restoring],
    let s := (base.modCore 0 fun x => { x with saved := some ({ item with hdr := {} }, []) }).setCtx c0 { phase := p, item := item }
    s.Sound ∧ s.loam.Clean ∧ (s.core 0).kaolin.Clean ∧ (s.core 0).vb.Clean ∧ 2 ^ s.id.edgeLog2 = 256 :=
  fun p hp => ⟨sound_of (by revert p; decide) (by revert p; decide) (by revert p; decide) (by revert p; decide),
    clean_of (by revert p; decide), clean_of (by revert p; decide), clean_of (by revert p; decide), by revert p; decide⟩

set_option maxRecDepth 100000 in
theorem test_CoreControlRegisters :
    base.portsHeld = false ∧ (accOf .host).sup = true ∧
    (64 &&& (2 ^ 64 - 1 - 0x3FFFFFF) = 0 ∧ base.enqOk 0 64 = true ∧ bitAt 64 25 = false ∧ (base.core 0).nq.length < 16) ∧
    ((64 + 2 ^ 25) &&& (2 ^ 64 - 1 - 0x3FFFFFF) = 0 ∧ base.enqOk 0 (64 + 2 ^ 25) = true ∧ bitAt (64 + 2 ^ 25) 25 = true ∧
      (base.core 0).uq.length < 4 ∧ (base.core 0).cmd.phase ≠ .waitRange) ∧
    (let s := base.modCore 0 fun x => { x with nq := List.replicate 16 ⟨0, true, none⟩ }
     s.portsHeld = false ∧ s.enqOk 0 64 = true ∧ (s.core 0).roomFor (bitAt 64 25) = false) ∧
    (let s := withCtx c0 { phase := .running, item := item } []
     s.portsHeld = false ∧ (s.core 0).cmd.phase = .running ∧ (s.core 0).cmd.item.urgent = false ∧ (s.core 0).cmd.item.abort = none ∧
     (s.core 0).saved = none) ∧
    (let s := withCtx ⟨0, .hdl⟩ { phase := .running, item := item } []
     s.portsHeld = false ∧ (s.core 0).hdl.phase = .running ∧ (s.core 0).hdl.item.abort = none) := by decide


/-! ### The matrix engine -/

/-- INT8 by INT8 to INT32, one row, one column and `k` long, from Loam addresses 1024 and 4096 (R152). -/
def mmaOp (emul : Bool) (m k : Nat) : MmaOp :=
  { emul := emul, int32 := true, m := m, n := 1, k := k, aAddr := 1024, aPitch := 1024, aFmt := 0x17, aWidth := 8, aPro := 0xFFFFFFFF
    bAddr := 4096, bPitch := 1024, bFmt := 0x17, bWidth := 8, bPro := 0xFFFFFFFF, epi := 0xFFFFFFFF }

/-- Its words. -/
def mmaWords (op m k : Nat) : List Nat :=
  [insn 2 op 4 4, m + 65536, k, 0, 1024, 1024, 0x0817, 0xFFFFFFFF, 4096, 1024, 0x0817, 0xFFFFFFFF, 0xFFFFFFFF, 0, 0, 0]

theorem test_MatrixInstructionsIssue : ∀ e ∈ [false, true], let o := mmaOp e 1 (if e then 0 else 1); let s := run c0 (mmaWords (if e then 2 else 1) o.m o.k)
    s.Issues c0 (s.fetch c0).1 (.mma o) 64 ∧ (s.fetch c0).1.mmaFault c0 o = 0 ∧ ((s.fetch c0).1.mmaChains c0 o).2 = .ok ([], [], []) ∧
    s.itemJobs c0 = [] ∧ o.abatch = false ∧ 0 < (o.passes (s.str.live.width s.id.edgeLog2 0)).length :=
  fun e _ => ⟨issues_of (by cases e <;> decide) (by cases e <;> decide), by cases e <;> decide, by cases e <;> decide, by cases e <;> decide,
    by cases e <;> decide, by cases e <;> decide⟩
theorem test_MatrixInstructionsIssue_fault : ∀ e ∈ [false, true], let o := mmaOp e 0 0; let s := run c0 (mmaWords (if e then 2 else 1) 0 0)
    s.Issues c0 (s.fetch c0).1 (.mma o) 64 ∧ (s.fetch c0).1.mmaFault c0 o ≠ 0 :=
  fun e _ => ⟨issues_of (by cases e <;> decide) (by cases e <;> decide), by cases e <;> decide⟩

/-- A job of three passes at its second. -/
def job3 : ArrJob := { who := c0, itemNo := 1, op := mmaOp false 1 768, width := 256, passes := 3, next := 1 }

/-- `base` with the jobs `js` in core 0, whose command runs. -/
def jobs (js : List ArrJob) : State := (withCtx c0 { phase := .running, item := item } []).modCore 0 fun x => { x with jobs := js, ramp := 1 }

theorem test_PassesRunAndRetry :
    (jobs [job3]).fastOn = true ∧ (∀ k ∈ ((jobs [job3]).core 0).jobs, k.running = false) ∧ (jobs [job3]).nextJob 0 = some job3 ∧
    (let j := { job3 with running := true }
     ((jobs [j]).core 0).jobs.find? (·.running) = some j ∧ columnsOk [] = true ∧ (jobs [j]).inService 0 [] = [] ∧
     columnsOk [255] = true ∧ (jobs [j]).inService 0 [255] ≠ [] ∧ j.retryPoint ≠ .nowhere ∧ j.retryAt = none) ∧
    (∀ j ∈ [{ job3 with running := true, retryPoint := .nowhere }, { job3 with running := true, retryAt := some 1 }],
     ((jobs [j]).core 0).jobs.find? (·.running) = some j ∧ (jobs [j]).inService 0 [255] ≠ [] ∧
     (j.retryPoint = .nowhere ∨ j.retryAt.isSome = true) ∧ ((jobs [j]).ctx j.who).canBear = true) ∧
    ((jobs [{ job3 with restart := true }]).core 0).jobs = [] ++ { job3 with restart := true } :: [] ∧
    (jobs []).nextJob 0 = none ∧ 0 < ((jobs []).core 0).ramp := by decide
/-- Whether a read answers. -/
def good {α : Type} : Rd α → Bool
  | .ok _ => true
  | .bad _ => false

/-- `job3` at its last pass. -/
def job3l : ArrJob := { job3 with next := 2 }

/-- A state with a poisoned sector of Loam. -/
def poisoned (k : Nat) (s : State) : State := { s with loam.poison := [k] }

theorem test_PassesRunAndRetry_starts :
    good ((jobs [job3]).statLoad job3 1).2 = true ∧ (jobs [job3l]).nextJob 0 = some job3l ∧ job3l.next + 1 = job3l.passes ∧
    good ((jobs [job3l]).statLoad job3l 2).2 = true ∧ job3l.op.emul = false := by decide +kernel
theorem test_PassesRunAndRetry_starts_bad : let s := poisoned 68 (jobs [job3])
    s.fastOn = true ∧ s.nextJob 0 = some job3 ∧ job3.op.emul = false ∧ job3.heldIn (s.core 0).front = false ∧
    job3.heldIn (s.core 0).back = false ∧ good (s.statLoad job3 1).2 = false ∧ (s.ctx job3.who).canBear = true := by decide +kernel

/-- A pass of a job reads its rows, and its contributions can be added. -/
def passOk (s : State) (j : ArrJob) : Bool :=
  match (j.op.passes j.width)[j.next]? with
  | none => false
  | some x => match s.passRows j x (decide (j.top ≤ j.next)) with
    | (u, .ok (a, b)) => good ((u.holdSums 0 (u.residues 0 j x [] a b)).addPass j x (decide (j.top ≤ j.next)) a b).2 &&
        ((u.holdSums 0 (u.residues 0 j x [255] a b)).restoreGrid 0 j).2 == 0
    | (_, .bad _) => false

theorem test_PassesRunAndRetry_endsPass : let j := { job3 with running := true }
    passOk (jobs [j]) j = true ∧ j.next + 1 < j.passes ∧ j.retryPoint ≠ .nowhere ∧ j.retryAt = none := by decide +kernel
theorem test_PassesRunAndRetry_endsPass_bad : let j := { job3 with running := true }; let s := poisoned 68 (jobs [j])
    ∃ x, (j.op.passes j.width)[j.next]? = some x ∧ good (s.passRows j x (decide (j.top ≤ j.next))).2 = false ∧
    (s.ctx j.who).canBear = true ∧ (s.core 0).jobs.find? (·.running) = some j := ⟨_, rfl, by decide +kernel⟩

/-- A batch queue in use. -/
def bq : BatchQ := { en := true, capM1 := 1, deadline := 1, notify := 8, seq := 0 }

/-- `run c0 ws` with queue 15. -/
def runBq (q : BatchQ) (ws : List Nat) : State := (run c0 ws).setBq 15 q

theorem test_BatchQueues :
    (∀ ret ∈ [0xFFFFFFFF, 1024], ∀ f ∈ [[], [5]], let s := runBq { bq with fill := f } [insn 2 3 1 15, 77, ret, 0]
      s.Issues c0 (s.fetch c0).1 (.bqpush 15 77 ret) 16 ∧ (s.bqOf 15).en = true ∧ s.itemJobs c0 = [] ∧ (s.bqOf 15).shipped.length < 2 ∧
      (ret = 0xFFFFFFFF ∨ (ret ≠ 0xFFFFFFFF ∧ ret % 8 = 0 ∧ (s.fetch c0).1.itemFault c0 true ret 8 = 0 ∧
        ((s.fetch c0).1.loamWrite (corePort 0) ret (leBytes 4 (s.bqOf 15).fill.length ++ leBytes 4 ((s.bqOf 15).seq + 1).toNat)).2 = 0))) ∧
    (∀ sh ∈ [[], [[5]]], let s := runBq { bq with shipped := sh } [insn 2 4 1 15, 0, 0, 0]
      s.Issues c0 (s.fetch c0).1 (.bqrelease 15) 16 ∧ (s.bqOf 15).shipped = sh ∧ s.itemJobs c0 = []) ∧
    (let s := runBq { bq with fill := [5] } []
     s.fastOn = true ∧ (s.bqOf 15).fill ≠ [] ∧ (({ s with ticks := 10 } : State).bqOf 15).openTick + (s.bqOf 15).deadline * 10 ≤ 10 ∧
     s.scBad (s.bqOf 15).notify = false) :=
  ⟨fun ret h f hf => ⟨issues_of (by revert ret f; decide) (by revert ret f; decide), by revert ret f; decide, by revert ret f; decide,
      by revert ret f; decide, by revert ret f; decide⟩,
   fun sh h => ⟨issues_of (by revert sh; decide) (by revert sh; decide), by revert sh; decide, by revert sh; decide⟩, by decide⟩
theorem test_BatchQueues_joins : let s := { runBq { bq with capM1 := 2, shipped := [[5]], shipTick := some 0 } [insn 2 3 1 15, 77, 0xFFFFFFFF, 0] with ticks := 0 }
    s.Issues c0 (s.fetch c0).1 (.bqpush 15 77 0xFFFFFFFF) 16 ∧ (s.bqOf 15).en = true ∧ s.itemJobs c0 = [] ∧ s.joinable 15 = some [5] :=
  ⟨issues_of (by decide) (by decide), by decide⟩
theorem test_Accumulation :
    (-(2 ^ 31) ≤ (0x7FFFFFFE#32).toInt + 1 ∧ (0x7FFFFFFE#32).toInt + 1 < 2 ^ 31) ∧ 2 ^ 31 ≤ (0x7FFFFFFF#32).toInt + 1 ∧
    (0x80000000#32).toInt + -1 < -(2 ^ 31) ∧ isNaN 0x7FC00000#32 = true := by decide
theorem test_Accumulation_fp32 :
    let finite (y : Word32) : Prop := y.toNat / 2 ^ 23 % 256 ≠ 255
    let val (y : Word32) : ℚ := (if y.toNat < 2 ^ 31 then 1 else -1) *
      (if y.toNat / 2 ^ 23 % 256 = 0 then (y.toNat % 2 ^ 23 : ℕ) * (2 : ℚ) ^ (-149 : ℤ)
        else (2 ^ 23 + y.toNat % 2 ^ 23 : ℕ) * (2 : ℚ) ^ ((y.toNat / 2 ^ 23 % 256 : ℕ) - 150 : ℤ))
    let x (p q : Int) : ℚ := val 0#32 + p * (2 : ℚ) ^ q
    finite 0#32 ∧ |x 1 0| < 2 ^ 128 - 2 ^ 103 ∧ 0 < x 1 0 ∧ x (-1) 0 < 0 ∧ x 0 0 = 0 ∧ 2 ^ 128 - 2 ^ 103 ≤ x 1 128 ∧
    x (-1) 128 ≤ -(2 ^ 128 - 2 ^ 103) := by
  refine ⟨by decide, ?_, ?_, ?_, ?_, ?_, ?_⟩ <;> norm_num
theorem test_Accumulation_pass : let j := { job3 with running := true }
    passOk (jobs [j]) j = true ∧ columnsOk [] = true ∧ (jobs [j]).inService 0 [] = [] ∧ ((jobs [j]).core 0).jobs.find? (·.running) = some j ∧
    j.op.aD.isSome = true ∧ j.op.bD.isSome = true ∧ (∃ x, (j.op.passes j.width)[j.next]? = some x ∧ x.low = false) ∧ isHdl j.who = false :=
  ⟨by decide +kernel, by decide, by decide, by decide, by decide, by decide, ⟨_, rfl, by decide⟩, by decide⟩
theorem test_Accumulation_clean : let s := jobs [{ job3 with running := true }]
    s.fastOn = true ∧ s.Sound ∧ s.loam.Clean ∧ (s.core 0).kaolin.Clean :=
  ⟨by decide, sound_of (by decide) (by decide) (by decide) (by decide), clean_of (by decide), clean_of (by decide)⟩

/-! Further clauses of the statements above. -/

theorem test_ScalarStores_waits : ∀ pa ∈ outers, ∀ p ∈ [({ pbuf := [⟨pa / 64, [(0, 7)], false, [1], none⟩] } : Port),
      { txns := [{ id := 0, addr := pa, kind := .fetch c4 1 0 ⟨.add, false, false, 1, 0⟩ none }] }],
    let s := ported (sclV 0x1F 0 0 3 pa true) p
    s.Issues c4 (s.fetch c4).1 (.scl 0x1F 0 0 3 (BitVec.ofNat 64 pa) true) 16 ∧ isOuter pa = true ∧
    ((∃ e ∈ s.port.pbuf, e.sector = pa / 64) ∨ s.port.fetching (pa / 64) = true) :=
  fun pa hp p h => ⟨issues_of (by revert pa p; decide) (by revert pa p; decide), by revert pa p; decide⟩
theorem test_ScalarStores_sent : ∀ pa ∈ outers, (ported [] {}).port.fetching (pa / 64) = false ∧ (ported [] {}).port.pbuf = [] := by decide
theorem test_ItemEnds_damaged : let s : State := { withCtx c0 { phase := .running, item := { item with ending := true } } [] with damage := [.item c0] }
    s.fastOn = true ∧ s.itemDone c0 = true ∧ Damage.item c0 ∈ s.damage := by decide
theorem test_PreemptionSteps_front : let s := (withCtx c0 { phase := .saving, item := item } []).modCore 0 fun x =>
      { x with front := some ⟨3, 0, []⟩, back := some ⟨4, 0, []⟩, jobs := [{ job with no := 4 }] }
    s.fastOn = true ∧ (s.ctx c0).phase = .saving ∧ (s.core 0).front = some ⟨3, 0, []⟩ ∧ ∀ j ∈ s.itemJobs c0, j.no ≠ 3 := by decide
/-- What `State.passBegun` answers for the pass of `job3`: the job that is behind it, and whether its sub-tile reads. -/
def behindOf (s : State) : Option (Nat × Bool) :=
  match s.passBegun 0 job3 with
  | (b, .ok k) => (b.behind 0 k).map fun n => (n.next, good (b.statLoad n n.next).2 && decide (n.who = c0))
  | (_, .bad _) => none

theorem test_PassesRunAndRetry_behind :
    behindOf (jobs [job3]) = some (2, true) ∧ behindOf (poisoned 72 (jobs [job3])) = some (2, false) ∧
    (let s := poisoned 72 (jobs [job3])
     s.fastOn = true ∧ (∀ k ∈ (s.core 0).jobs, k.running = false) ∧ s.nextJob 0 = some job3 ∧ good (s.statLoad job3 1).2 = true ∧
     (s.ctx c0).canBear = true) := by decide +kernel
theorem test_Accumulation_special :
    let inf : Word32 := 0x7F800000#32
    isNaN 0 = false ∧ (∃ p ∈ [Elem.inf true].zip [Elem.num 0], p.1.isInf = true ∧ p.2 = .num 0) ∧
    (∃ p ∈ [Elem.inf true, .num 2].zip [Elem.num 1, .inf false], (p.1.isInf = true ∨ p.2.isInf = true) ∧ (p.1.neg != p.2.neg) = true) ∧
    (∃ p ∈ [Elem.inf true, .num 2].zip [Elem.num 1, .inf false], (p.1.isInf = true ∨ p.2.isInf = true) ∧ (p.1.neg != p.2.neg) = false) ∧
    (∀ p ∈ [Elem.inf true].zip [Elem.num 1], p.1 ≠ .nan ∧ p.2 ≠ .nan ∧ ¬ (p.1.isInf = true ∧ p.2 = .num 0) ∧
      ¬ (p.2.isInf = true ∧ p.1 = .num 0) ∧ ¬ ((p.1.isInf = true ∨ p.2.isInf = true) ∧ (p.1.neg != p.2.neg) = false)) ∧
    inf.toNat / 2 ^ 23 % 256 = 255 ∧ isNaN inf = false := by decide
theorem test_Accumulation_conversions :
    (-128 : Int) ≤ 127 ∧ (0x3F008000#32 : Word32).toNat / 2 ^ 23 % 256 ≠ 255 ∧ 65536 * toBf16 0x3F008000#32 + 32768 = 0x3F008000 ∧
    isNaN 0x3F008000#32 = false ∧ isNaN 0x7F800001#32 = true ∧ Fmt.sb 8 ≠ .fp32 ∧ Fmt.sb 8 ≠ .bf16 ∧ Fmt.sb 8 ≠ .fp16 ∧
    (Fmt.sb 8).hasExp = true ∧ (Fmt.sb 8).elem 0 = .num 0 ∧ (Fmt.sb 8).elem 255 = .num (-1) ∧ (Fmt.mxf 5 2 .ieee).elem 0x7F = .nan ∧
    (Fmt.mxf 5 2 .ieee).elem 0x7C = .inf false ∧ (0x80 : Nat) ≠ 0xFF ∧ (Fmt.int 8).hasExp = false := by decide
theorem test_Accumulation_block :
    let amax (n : Nat) : ℚ := if n / 2 ^ 23 % 256 = 255 then 2 ^ 128 - 2 ^ 104 else
      |(if n < 2 ^ 31 then 1 else -1) * (if n / 2 ^ 23 % 256 = 0 then (n % 2 ^ 23 : ℕ) * (2 : ℚ) ^ (-149 : ℤ)
        else (2 ^ 23 + n % 2 ^ 23 : ℕ) * (2 : ℚ) ^ ((n / 2 ^ 23 % 256 : ℕ) - 150 : ℤ))|
    (0x3F800000#32 : Word32).toNat = 0x3F800000 ∧ isNaN 0x3F800000#32 = false ∧ amax 0 = 0 ∧ amax 0x3F800000 = 1 ∧ (2 : ℚ) ^ (0 : Int) ≤ 1 ∧
    (1 : ℚ) < (2 : ℚ) ^ ((0 : Int) + 1) ∧ isNaN 0x7FC00000#32 = true := by
  refine ⟨by decide +kernel, by decide +kernel, ?_, ?_, ?_, ?_, by decide +kernel⟩ <;> norm_num

/-! ### The vector engine -/

theorem test_MasksAndStatistics :
    (∀ a ∈ [1024, 1025], ∀ o ∈ [2, 3], let s := run c0 [insn 3 o 1 7, a, 0, 0]
      s.Issues c0 (s.fetch c0).1 (if o = 2 then .maskld 7 a else .maskst 7 a) 16) ∧
    (let s := run c0 [insn 3 2 1 7, 1024, 0, 0]
     (s.fetch c0).1.vecAddrFault c0 false 1024 512 0x0501 = 0 ∧ (s.fetch c0).1.mustWait c0 { lr := [(1024, 512)] } = false ∧
     (s.fetch c0).1.vecTurn c0 = true ∧ ((s.fetch c0).1.itemRead c0 1024 512).2 = .ok (List.replicate 512 0)) ∧
    (let s := run c0 [insn 3 3 1 7, 1024, 0, 0]
     (s.fetch c0).1.vecAddrFault c0 true 1024 512 0x0501 = 0 ∧ (s.fetch c0).1.mustWait c0 { lw := [(1024, 512)] } = false ∧
     (s.fetch c0).1.vecTurn c0 = true ∧ ((s.fetch c0).1.loamWrite (corePort 0) 1024
        ((List.range 64).flatMap fun e => leBytes 8 (tabGet 0 (s.core 0).masks (64 * 7 + e)).toNat)).2 = 0) ∧
    (∀ inf ∈ [false, true], let s := run c0 [insn 3 4 1 (3 + if inf then 4 else 0), 0, 0, 0]
      s.Issues c0 (s.fetch c0).1 (.statclr 3 inf) 16 ∧ (s.fetch c0).1.vecTurn c0 = true) :=
  ⟨fun a ha o ho => issues_of (by revert a o; decide) (by revert a o; decide), by decide +kernel, by decide +kernel,
   fun inf _ => ⟨issues_of (by cases inf <;> decide) (by cases inf <;> decide), by cases inf <;> decide⟩⟩

theorem test_SideVectors :
    (∀ l ∈ [false, true], let s := run c0 [insn 3 5 1 ((if l then 1 else 0) + 2 * 0 + 8 * 1 + 32 * 2 + 128 * 3), 1024, 0, 0]
      s.Issues c0 (s.fetch c0).1 (.side l 0 1 2 3 1024) 16 ∧ (s.fetch c0).1.vecAddrFault c0 true 1024 1024 0x0501 = 0 ∧
      (s.fetch c0).1.mustWait c0 { lw := [(1024, 1024)] } = false ∧ (s.fetch c0).1.vecTurn c0 = true ∧
      ((s.fetch c0).1.loamWrite (corePort 0) 1024 (statBytes ((s.core 0).statRow 0))).2 = 0) ∧
    (∀ l ∈ [false, true], ∀ n ∈ [0, 1, 4097], let s := run c0 [insn 3 6 2 ((if l then 1 else 0) + 2 * 2 + 8 * 3), n, 1024, 4096, 0, 0, 0, 0]
      s.Issues c0 (s.fetch c0).1 (.rowclose l 2 3 n 1024 4096 0 0) 32) :=
  ⟨fun l _ => ⟨issues_of (by cases l <;> decide) (by cases l <;> decide), by cases l <;> decide, by cases l <;> decide,
     by cases l <;> decide, by cases l <;> decide +kernel⟩,
   fun l _ n hn => issues_of (by revert n; cases l <;> decide) (by revert n; cases l <;> decide)⟩
theorem test_SideVectors_close :
    let s := run c0 [insn 3 6 2 (2 * 2 + 8 * 3), 1, 1024, 4096, 0, 0, 0, 0]
    let t := (s.fetch c0).1
    let q := rmsSum c0 1024 1 0 (List.replicate 256 0#32) t
    t.rowcloseFault c0 false 1 1024 4096 = 0 ∧ t.mustWait c0 { lr := [(1024, 1024 * 1)], lw := [(4096, 1024)] } = false ∧
    t.vecTurn c0 = true ∧ q.2 = .ok (List.replicate 256 0#32) ∧
    (q.1.loamWrite (corePort 0) 4096 (statBytes ((List.replicate 256 0#32).map fun z => fRsqrt (fAdd (fMul z 0) 0)))).2 = 0 := by decide +kernel
theorem test_SideVectors_correct :
    let s := run c0 [insn 3 6 2 (1 + 2 * 2 + 8 * 3), 1, 1024, 4096, 0, 0, 0, 0]
    let t := (s.fetch c0).1
    let f := List.zipWith (fun m l => fAdd m (fLog2 l)) ((s.core 0).statRow 2) ((s.core 0).statRow 3)
    let q := t.loamWrite (corePort 0) 4096 (statBytes f)
    t.rowcloseFault c0 true 1 1024 4096 = 0 ∧ t.mustWait c0 { lr := [(1024, 1024 * 1)], lw := [(4096, 1024), (1024, 1024 * 1)] } = false ∧
    t.vecTurn c0 = true ∧ q.2 = 0 ∧ (lseCorrect c0 1024 f 1 0 q.1).2 = 0 := by decide +kernel

/-- A chain of one conversion to INT8, in INT, whose results go to Loam address 8192 (R114). -/
def cvt : List Byte := [1, 0x17, 0, 0] ++ leBytes 4 8192 ++ leBytes 4 64 ++ leBytes 4 0 ++ leBytes 4 0x0D ++ leBytes 4 0x17 ++ List.replicate 8 0

/-- VEC.CHAIN over one INT8 element at Loam address 1024 with the chain at address 2048. -/
def chainOp (srck rows : Nat) : ChainOp := ⟨srck, rows, 1, 1024, 64, 0x17, 2048⟩

/-- A state at that instruction. -/
def chainRun (srck rows : Nat) : State :=
  let s := run c0 [insn 3 1 2 srck, rows + 65536, 1024, 64, 0x17, 2048, 0, 0]
  { s with loam.cells := s.loam.cells.write 2048 cvt }

theorem test_ChainsAndEpilogues : ∀ p ∈ [(0, 1), (3, 1), (0, 0), (2, 1)],
    (chainRun p.1 p.2).Issues c0 ((chainRun p.1 p.2).fetch c0).1 (.chain (chainOp p.1 p.2)) 32 ∧ ((chainRun p.1 p.2).item c0).chain = none :=
  fun p hp => ⟨issues_of (by revert p; decide) (by revert p; decide), by revert p; decide⟩

/-- The source formats of R153: one that names no format, and a descriptor that stands wrong. -/
theorem test_ChainsAndEpilogues_formats :
    (let s := run c0 [insn 3 1 2 0, 65537, 1024, 64, 0x3F, 2048, 0, 0]
     s.Issues c0 (s.fetch c0).1 (.chain ⟨0, 1, 1, 1024, 64, 0x3F, 2048⟩) 32 ∧ fmtD 0x3F = none) ∧
    (let s := run c0 [insn 3 1 2 0, 65537, 1024, 64, 0x17, 2049, 0, 0]
     s.Issues c0 (s.fetch c0).1 (.chain ⟨0, 1, 1, 1024, 64, 0x17, 2049⟩) 32) :=
  ⟨⟨issues_of (by decide) (by decide), by decide⟩, issues_of (by decide) (by decide)⟩

/-- What the chain's decoding finds, and INT8. -/
def chainSeen : State × (SFmt × List Byte ⊕ Nat × Nat) := ((chainRun 0 1).fetch c0).1.chainDecode c0 (chainOp 0 1)
def int8 : SFmt := .blk ⟨.int 8, 32, true⟩

theorem test_ChainsAndEpilogues_runs : let c := chainOp 0 1
    c.fmt = some int8 ∧ chainSeen.2 = .inl (int8, cvt) ∧ unitsOf 1 1 = [(0, 1, 0, 1)] ∧
    chainSeen.1.mustWait c0 (c.foot (decodeChain cvt)) = false ∧ chainSeen.1.vecTurn c0 = true ∧
    sfmtOf (decodeChain cvt).sfmt = some int8 ∧
    (State.endRun c0 (decodeChain cvt) (c.run c0 (decodeChain cvt) int8 int8 (0, 1, 0, 1) chainSeen.1) c.src).2 = true := by decide +kernel

/-- The handler of core 0 at that VEC.CHAIN too, while the command is at its chain's second block. -/
def chainBoth : State :=
  let s := (chainRun 0 1).modItem c0 fun x => { x with chain := some (1, cvt) }
  s.setCtx ⟨0, .hdl⟩ { phase := .running, item := item }

theorem test_ChainsAndEpilogues_handlerFirst :
    chainBoth.Issues c0 (chainBoth.fetch c0).1 (.chain (chainOp 0 1)) 32 ∧ (chainBoth.item c0).chain = some (1, cvt) ∧
    (chainOp 0 1).fmt.isSome = true ∧ (chainBoth.fetch c0).1.hdlVec 0 = true ∧ chainBoth.hdlVec 0 = true ∧
    (unitsOf 257 1)[1]? = some (256, 257, 0, 1) :=
  ⟨issues_of (by decide) (by decide), by decide +kernel⟩
theorem test_ChainsAndEpilogues_tile :
    let j : ArrJob := { job with op := mmaOp false 1 1, epi := cvt, tiles := [0], tilesLeft := 1, next := 1 }
    let s := jobs [j]
    s.fastOn = true ∧ (s.item c0).abort = none ∧
    (s.core 0).jobs.find? (fun j => j.who == c0 && (!j.tiles.isEmpty && j.retryAt.isNone && !j.restart)) = some j ∧ j.tiles = 0 :: [] ∧
    (s.core 0).cmd.phase = .running ∧ s.hdlVec 0 = false ∧
    (s.epilogue c0 j.op (decodeChain j.epi) ((gridTiles j.op.m j.op.n).getD 0 (0, 0)).1 ((gridTiles j.op.m j.op.n).getD 0 (0, 0)).2).2 = true := by
  decide +kernel

/-! ### The DMA engine -/

/-- A copy of one sector of own Loam, from 1024 to 2048; it pulses counter 8 of this cluster and event line 63 (R213). -/
def copy : Desc := { src := own 1024, dst := own 2048, xlen := 64, ycnt := 1, zcnt := 1, sig := 8 + 2 ^ 13 + 8 * 2 ^ 22 + 2 ^ 35 + 63 * 2 ^ 44 + 2 ^ 50 }

/-- Its words. -/
def copyWords (x : Nat) : List Nat :=
  [1024, 0xC000, 2048, 0xC000, x, 65537, 0, 0, 0, 0, 0, 0, copy.sig % 2 ^ 32, copy.sig / 2 ^ 32]

/-- DMA.ISSUE at channel 31 with `q` descriptors queued there. -/
def dmaRun (x q : Nat) : State :=
  (run c0 ([insn 4 1 4 31, 0] ++ copyWords x)).setChan 31 { queue := List.replicate q { no := 0, desc := copy, who := c0, itemNo := 1 } }

theorem test_DescriptorsAreIssued :
    (∀ q ∈ [0, 7, 8], (dmaRun 64 q).Issues c0 ((dmaRun 64 q).fetch c0).1 (.dma 31 ((copyWords 64).flatMap (leBytes 4))) 64 ∧
      descFault ((dmaRun 64 q).fetch c0).1 0 31 copy = 0 ∧ decodeDesc ((copyWords 64).flatMap (leBytes 4)) = copy ∧
      ((dmaRun 64 q).fetch c0).1.mustWait c0 (copy.foot (((dmaRun 64 q).fetch c0).1).id) = false ∧ ((dmaRun 64 q).chan 31).queue.length = q) ∧
    (dmaRun 0 0).Issues c0 ((dmaRun 0 0).fetch c0).1 (.dma 31 ((copyWords 0).flatMap (leBytes 4))) 64 ∧
    descFault ((dmaRun 0 0).fetch c0).1 0 31 (decodeDesc ((copyWords 0).flatMap (leBytes 4))) ≠ 0 :=
  ⟨fun q hq => ⟨issues_of (by revert q; decide) (by revert q; decide), by revert q; decide, by revert q; decide, by revert q; decide,
    by revert q; decide⟩, issues_of (by decide) (by decide), by decide⟩

/-- DMA.ISSUEM at channel 31 with the copy at Loam address 2048. -/
def dmamRun (a : Nat) : State :=
  let s := run c0 [insn 4 2 1 31, a, 0, 0]
  { s with loam.cells := s.loam.cells.write 2048 ((copyWords 64).flatMap (leBytes 4)) }

theorem test_DescriptorsAreIssued_fromMemory :
    (∀ a ∈ [2048, 2049], (dmamRun a).Issues c0 ((dmamRun a).fetch c0).1 (.dmam 31 a) 16) ∧
    (let t := ((dmamRun 2048).fetch c0).1
     let q := t.itemRead c0 2048 64
     let b := (copyWords 64).flatMap (leBytes 4) ++ List.replicate 8 0
     t.itemFault c0 false 2048 64 = 0 ∧ t.mustWait c0 { lr := [(2048, 64)] } = false ∧ q.2 = .ok b ∧
     descFault q.1 0 31 (decodeDesc b) = 0 ∧ q.1.mustWait c0 ((decodeDesc b).foot q.1.id) = false ∧ ((dmamRun 2048).chan 31).queue.length < 8) :=
  ⟨fun a ha => issues_of (by revert a; decide) (by revert a; decide), by decide⟩

/-- A descriptor in channel 31's queue, or running there at its next beat; `armed` waits for line 63 (R213). -/
def runD (d : Desc) : DescRun := { no := 1, desc := d, who := c0, itemNo := 1 }
def armed : Desc := { copy with ctrl := 32 + 63 * 64 }
def chanOf (d : Desc) (run : List DescRun) : State := base.setChan 31 { queue := [runD d], run := run }

theorem test_DescriptorsStart :
    (chanOf copy []).fastOn = true ∧ ((chanOf copy []).chan 31).queue = [runD copy] ∧ ((chanOf copy []).chan 31).en = true ∧
    ((chanOf copy []).chan 31).run.getLast? = none ∧ (runD copy).desc.armed = false ∧ (runD armed).desc.armed = true ∧
    (let s : State := { chanOf armed [] with dma := { (chanOf armed []).dma with ev := [(63, 1)], armed := [31] } }
     0 < s.ev armed.evIn ∧ (s.dma.armed.find? fun k => ((s.chan k).queue.head?.map fun q => q.desc.evIn) == some armed.evIn) = some 31) ∧
    (chanOf armed []).ev armed.evIn = 0 ∧ ((chanOf copy [runD copy]).chan 31).run.getLast? = some (runD copy) ∧
    (runD copy).readsDone = false := by decide

/-- The same descriptor after its source sector was read, and after its write was issued. -/
def readD : DescRun := (runD copy).got (own 1024 / 64) (List.replicate 64 (some 7)) 0 64
def running (r : DescRun) (wr : List DmaWrite) : State := base.setChan 31 { run := [r], writes := wr }

theorem test_BeatsMoveSectors :
    (let s := running (runD copy) []
     s.fastOn = true ∧ s.beatChannel = some 31 ∧ (s.chan 31).run.find? s.descReady = some (runD copy) ∧
     (runD copy).need[(runD copy).rd]? = some (own 1024, 64) ∧ placeOf s.id (own 1024) = .own 1024 ∧
     (s.loamRead 5 1024 64).2 = .ok (List.replicate 64 0)) ∧
    (let s := running readD []
     s.beatChannel = some 31 ∧ (s.chan 31).run.find? s.descReady = some readD ∧ readD.need[readD.rd]? = none ∧
     (readD.desc.dstPieces readD.step)[readD.wr]? = some (own 2048, 64) ∧ placeOf s.id (own 2048) = .own 2048 ∧ readD.desc.mayOverlap = false) ∧
    (let x : DmaWrite := ⟨1, 2048, List.replicate 64 7, false⟩
     let s := running readD [x]
     (s.chan 31).writes = x :: [] ∧ x.poison = false ∧ (s.loamWrite 5 x.addr x.bytes).2 = 0 ∧
     (s.chan 31).run.find? (·.no == x.desc) = some readD ∧ copy.bcEn = true ∧ copy.bcClu = pkgIndex s.id ∧ s.scBad copy.bcSc = false) := by decide
theorem test_DescriptorsComplete :
    (∀ z ∈ [false, true], let r := { readD with step := 1, stopped := z }
     let s := running r []
     s.fastOn = true ∧ (s.chan 31).run.find? (fun r => r.inFlight == 0 && (r.stopped || decide (r.desc.units ≤ r.step))) = some r) ∧
    copy.plEn = true ∧ copy.plClu = pkgIndex base.id ∧ base.scBad copy.plSc = false ∧ copy.evEn = true ∧ base.ev copy.evOut < 255 ∧
    (∃ s : State, s.ev copy.evOut = 255) ∧ base.portsHeld = false ∧ (accOf .host).sup = true ∧ (base.chan 31).en = true :=
  ⟨by decide, by decide, by decide, by decide, by decide, by decide, ⟨{ base with dma := { ev := [(63, 255)] } }, by decide⟩, by decide, by decide, by decide⟩

/-! ### Messages -/

/-- A send of `n` bytes from Loam address 1024 to destination `d` with tag 5 (R188). -/
def sendOf (masked : Bool) (d n : Nat) : Send := ⟨c0, 0, [d], 5, n, 1024, false, masked, if masked then 1 else 0, 0, 0, 0⟩

/-- A state at that instruction. -/
def sendRun (masked : Bool) (d n : Nat) : State := run c0 [insn 5 (if masked then 2 else 1) 2 0, d, 5 + 65536 * n, 1024, if masked then 1 else 0, 0, 0, 0]

theorem test_SendsAreIssued :
    (∀ n ∈ [8, 48, 7], (sendRun false 0x40 n).Issues c0 ((sendRun false 0x40 n).fetch c0).1 (.send false 0x40 5 n 1024 0 0 0) 32 ∧
      (sendRun true 0x40 n).Issues c0 ((sendRun true 0x40 n).fetch c0).1 (.msend 0x40 5 n 1024 1) 32) ∧
    (∀ m ∈ [false, true], ∀ n ∈ [8, 48], ((sendRun m 0x40 n).fetch c0).1.sendFault (sendOf m 0x40 n) = 0 ∧
      ((sendRun m 0x40 n).fetch c0).1.mustWait c0 { lr := [(1024, n)] } = false ∧ ((sendRun m 0x40 7).fetch c0).1.sendFault (sendOf m 0x40 7) ≠ 0) ∧
    (∀ r ∈ [1, 31], (run c0 [insn 5 3 1 r, 0, 0, 0]).Issues c0 ((run c0 [insn 5 3 1 r, 0, 0, 0]).fetch c0).1 (.rclose r) 16) ∧
    img.ring 0 1 ≠ none ∧ img.ring 0 31 = none :=
  ⟨fun n h => ⟨issues_of (by revert n; decide) (by revert n; decide), issues_of (by revert n; decide) (by revert n; decide)⟩, by decide,
   fun r h => issues_of (by revert r; decide) (by revert r; decide), by decide, by decide⟩
set_option maxRecDepth 100000 in
theorem test_SendsAreAccepted : ∀ k ∈ [0, 1], ∀ f ∈ [63, 64],
    let x := sendOf false 0x40 48
    let s : State := { withCtx c0 { phase := .running, item := { item with pend := .send } } [] with
      msg := { sends := [x], credits := [(0x40, { avail := k })], bufs := f } }
    s.fastOn = true ∧ s.damage = [] ∧ (s.msg.bufs < 64 ↔ f = 63) ∧ s.msg.sends = x :: [] ∧ (s.item x.who).abort = none ∧ x.dests = [0x40] ∧
    (k = 1 → entriesOf x.len ≤ s.creditAvail 0x40 ∧ s.paced 0x40 = false ∧
      (({ s with msg := { s.msg with sends := [] } } : State).itemRead x.who x.addr x.len).2 = .ok (List.replicate 48 0)) ∧
    (k = 0 → s.creditAvail 0x40 < entriesOf x.len) := by decide

/-- A message of one entry with tag 5 and generation `g` to ring 1 of core 0, or to ring 31, which does not exist (R166). -/
def msgTo (ring g : Nat) : Frame :=
  ⟨BitVec.ofNat 32 ring, [leBytes 4 0 ++ leBytes 2 5 ++ leBytes 2 8 ++ leBytes 1 g ++ List.replicate 55 0], false⟩
def ringOcc (n : Nat) : State := base.setRing 0 1 { occ := n }

/-- A contribution of two values to handler 6 (slot 511): its round and index (R174). -/
def part (round cidx : Nat) : Frame :=
  ⟨1#32, [leBytes 4 0 ++ leBytes 2 6 ++ leBytes 2 8 ++ [0, 5, BitVec.ofNat 8 round, 0] ++ leBytes 2 cidx ++ List.replicate 50 0], false⟩

/-- `base` with an overflow region of one cell; `full` where a contribution of slot 0 is parked in it. -/
def oneCell (full : Bool) : State :=
  { base with str := { base.str with live := { img with regions := img.regions ++ [⟨.overflow, 255, 0, 0, 2048, 8⟩] } }
              msg := { parked := if full then [⟨0, 0, 1, 0, 1, false⟩] else [] } }

set_option maxRecDepth 100000 in
theorem test_ArrivalsAreChecked_combine : ∀ p ∈ [(0, 0), (1, 0), (2, 0), (0, 1), (0, 1022)], ∀ f ∈ [false, true],
    let s := oneCell f
    let m := part p.1 p.2
    let h := decodeMHdr (m.entries.headD [])
    let e : HEntry := ⟨0, 0, 1, true, true, true, 511, 1⟩
    frameWf m = true ∧ s.portsHeld = false ∧ s.damage = [] ∧ s.destHere m.dest.toNat = true ∧ destCore m.dest.toNat = 0 ∧
    destRing m.dest.toNat = 1 ∧ h.gen = (s.ring 0 1).gen.toNat ∧ frameOk m h = true ∧ h.combine = true ∧
    s.str.live.handler h.tag = some e ∧ e.combine = true ∧ (e.sup = true → h.priv = true) ∧ (∀ q ∈ s.msg.parked, q.slot ≠ 511) ∧ s.freeCell = (if f then none else some 0) ∧
    h.round = p.1 ∧ h.cidx = p.2 ∧ (s.slot 511).round = 0 ∧ (s.slot 511).next = 0 ∧ (s.slot 511).delivering = false ∧
    (s.slot 511).failCur = false ∧ (s.slot 511).seen = [] ∧ (s.slot 511).nextSeen = [] ∧ (s.slot 511).flips = [] := by decide

set_option maxRecDepth 100000 in
theorem test_ArrivalsAreChecked :
    (∀ n ∈ [0, 15, 16], let s := ringOcc n
     let m := msgTo 1 0
     let h := decodeMHdr (m.entries.headD [])
     frameWf m = true ∧ s.portsHeld = false ∧ s.damage.contains (.ring 0 1) = false ∧ destCore m.dest.toNat = 0 ∧ destRing m.dest.toNat = 1 ∧
     s.destHere m.dest.toNat = true ∧ coreOn s.str.live.coreEn 0 = true ∧ (s.str.live.ring 0 1).isSome = true ∧
     h.gen = (s.ring 0 1).gen.toNat ∧ frameOk m h = true ∧ h.combine = false ∧ (n < 16 → m.entries.length ≤ s.ringFree 0 1) ∧
     (n = 16 → s.ringFree 0 1 < m.entries.length)) ∧
    (let m := msgTo 1 255
     let h := decodeMHdr (m.entries.headD [])
     frameWf m = true ∧ h.anygen = false ∧ h.gen ≠ (base.ring 0 1).gen.toNat) ∧
    (frameWf (msgTo 31 0) = true ∧ (base.str.live.ring (destCore (msgTo 31 0).dest.toNat) (destRing (msgTo 31 0).dest.toNat)).isNone = true ∧
      base.damage.contains (.ring 0 31) = false) ∧
    (∀ g ∈ [none, some (255 : Byte)], let r : CreditRet := ⟨0x40, 1, g, .ok, 5, 0, 0, false⟩
     base.portsHeld = false ∧ base.str.live.credit r.dest.toNat = some ⟨0x40, 4⟩ ∧ r.echo = false ∧ r.gen = g) := by decide

/-- A message waits in ring 1 of core 0: its entry, with tag 5 and PRIV. -/
def waitingMsg : State := { base.setRing 0 1 { occ := 1, wr := 1, msgs := [⟨1, true, false⟩] } with
  loam := { cells := Mem.write [] (1024 * 64) (leBytes 4 0 ++ leBytes 2 5 ++ leBytes 2 8 ++ leBytes 1 0 ++ leBytes 1 1) } }

set_option maxRecDepth 100000 in
theorem test_RingsAreServed :
    (let s := waitingMsg
     let q := ((s.setRing 0 1 { s.ring 0 1 with msgs := [] }).modCore 0 fun y => { y with lastRing := 1 }).loamRead 6 (s.ringAddr 0 1 (s.ring 0 1).rd) 64
     let b := leBytes 4 0 ++ leBytes 2 5 ++ leBytes 2 8 ++ leBytes 1 0 ++ leBytes 1 1 ++ List.replicate 54 0
     s.fastOn = true ∧ (s.core 0).hdl.phase = .idle ∧ (s.core 0).asleep = false ∧ coreOn s.str.live.coreEn 0 = true ∧
     s.damage = [] ∧ s.nextRing 0 = some 1 ∧ (s.ring 0 1).msgs = ⟨1, true, false⟩ :: [] ∧ q.2 = .ok b ∧ q.1.dispatchFault 0 1 (decodeMHdr b) = 0) ∧
    (∀ f ∈ [false, true], let s := base.setSlot 511 { delivering := true, tag := 6, len := 2, failCur := f }
     s.fastOn = true ∧ s.damage = [] ∧ (s.slot 511).delivering = true ∧ s.str.live.handler (s.slot 511).tag = some ⟨0, 0, 1, true, true, true, 511, 1⟩ ∧
     s.msg.parked = [] ∧ (s.slot 511).flips = [] ∧ entriesOf (if (s.slot 511).failCur then 8 else 4 * (s.slot 511).len) ≤ s.ringFree 0 1) ∧
    (∀ g ∈ [5, 7], let s : State := { base with msg := { status := [⟨0, 0x40, 0x0804, 5, 1, 0, 0, 0⟩], statusTag := [(0, g)] } }
     s.fastOn = true ∧ s.msg.status[0]? = some ⟨0, 0x40, 0x0804, 5, 1, 0, 0, 0⟩ ∧
     (g = 5 → s.str.live.handler (tabGet 0 s.msg.statusTag 0) = some ⟨0, 0, 1, true, false, true, 0, 0⟩ ∧ 0 < s.ringFree 0 1) ∧
     (g = 7 → s.str.live.handler (tabGet 0 s.msg.statusTag 0) = none)) := by decide
theorem test_MessageRegistersAndPacing :
    base.portsHeld = false ∧ (accOf .host).sup = true ∧ (base.str.live.ring 0 1).isSome = true ∧ base.creditAt = some ⟨0x40, 4⟩ ∧
    (4 : Word64).toNat ≤ 4 ∧ base.pwr.state ≠ .off ∧
    (∀ r ∈ [4999, 5000], ({ base with msg := { rateTicks := r } } : State).msg.rateTicks = r) ∧
    (∀ r ∈ [99, 100], ({ base with msg := { allowTicks := r } } : State).msg.allowTicks = r) := by decide

/-! ### Sync counters, atomics and the ports -/

/-- A SYN instruction at counter `c` and scope `p` (R188). -/
def syn (o c p v : Nat) : State := run c0 [insn 6 o 1 (c + 8192 * p), v, 0, 0]

theorem test_SyncInstructions_issue :
    (∀ c ∈ [8, 15, 16, 8191], (syn 1 c 2 5).Issues c0 ((syn 1 c 2 5).fetch c0).1 (.arrive c 2 5) 16 ∧
      (c < 16 → ((syn 1 c 2 5).fetch c0).1.scFault 0 c 2 false = 0 ∧ (syn 1 c 2 5).itemJobs c0 = []) ∧
      (16 ≤ c → ((syn 1 c 2 5).fetch c0).1.scFault 0 c 2 false ≠ 0)) ∧
    (syn 2 8 2 5).Issues c0 ((syn 2 8 2 5).fetch c0).1 (.wait 8 2 5) 16 ∧ ((syn 2 8 2 5).fetch c0).1.scFault 0 8 2 false = 0 ∧
    (syn 3 8 0 1024).Issues c0 ((syn 3 8 0 1024).fetch c0).1 (.synRead 8 0 1024) 16 ∧
    (syn 4 8 0 5).Issues c0 ((syn 4 8 0 5).fetch c0).1 (.synSet 8 0 5) 16 ∧
    (∀ o ∈ [3, 4], ((syn o 8 0 1024).fetch c0).1.scFault 0 8 0 true = 0) ∧ ((syn 4 8 0 5).fetch c0).1.scFault 0 8 0 true = 0 ∧
    ((syn 3 8 0 1024).fetch c0).1.itemFault c0 true 1024 4 = 0 ∧ (syn 3 8 0 1024).scBad 8 = false ∧
    (((syn 3 8 0 1024).fetch c0).1.loamWrite (corePort 0) 1024 (leBytes 4 ((syn 3 8 0 1024).sc 8).toNat)).2 = 0 :=
  ⟨fun c h => ⟨issues_of (by revert c; decide) (by revert c; decide), by revert c; decide, by revert c; decide⟩,
   issues_of (by decide) (by decide), by decide, issues_of (by decide) (by decide), issues_of (by decide) (by decide), by decide, by decide,
   by decide, by decide, by decide⟩
theorem test_SyncInstructions_complete : ∀ e ∈ [Pend.arrive 8 2 5, .wait 8 2 0, .wait 8 2 1],
    let s := withCtx c0 { phase := .running, item := { item with pend := e } } []
    s.fastOn = true ∧ (s.ctx c0).canBear = true ∧ (s.item c0).pend = e ∧ s.scBad 8 = false ∧ s.released (s.item c0).no 2 = true ∧
    ({ s with port := { pbuf := [⟨0, [], false, [1], none⟩] } } : State).released (s.item c0).no 2 = false ∧ 0 ≤ (s.sc 8 - 0).toInt ∧
    (s.sc 8 - 1).toInt < 0 ∧ s.syn.met.contains (s.item c0).no = false ∧
    ({ s with syn.met := [1] } : State).syn.met.contains (s.item c0).no = true := by decide

/-- An atomic on 32 bits at package address `a`, with addend 7 and no return (R202). -/
def atm (o p : Nat) (a : Nat) : State := run c0 [insn 7 o 2 (4 * p), 0xFFFFFFFF, a % 2 ^ 32, a / 2 ^ 32, 7, 0, 0, 0]

theorem test_Atomics : ∀ x ∈ [(1, AtomOp.add), (2, .min), (3, .max), (4, .xchg), (5, .cas)],
    let r : AtomReq := ⟨x.2, false, false, 7, 0⟩
    (let s := atm x.1 0 (own 1024)
     let t := (s.fetch c0).1
     s.Issues c0 t (.atm x.2 false false 0 0xFFFFFFFF (own 1024) 7 0 false) 32 ∧ t.atomFault c0 false (atomBytes r) 0xFFFFFFFF (own 1024) = 0 ∧
     placeOf s.id (own 1024) = .own 1024 ∧ t.mustWait c0 { lw := [(1024, atomBytes r)] } = false ∧
     (t.loamAtomic (corePort 0) 1024 r).2 = .ok 0) ∧
    (let s := atm x.1 2 4096
     let t := (s.fetch c0).1
     s.Issues c0 t (.atm x.2 false false 2 0xFFFFFFFF 4096 7 0 false) 32 ∧ t.atomFault c0 false (atomBytes r) 0xFFFFFFFF 4096 = 0 ∧
     placeOf s.id 4096 = .stack ∧ t.mustWait c0 {} = false ∧ s.txnRoom = true ∧ s.port.pbuf = []) :=
  fun x h => ⟨⟨issues_of (by revert x; decide) (by revert x; decide), by revert x; decide, by revert x; decide, by revert x; decide, by revert x; decide⟩,
    issues_of (by revert x; decide) (by revert x; decide), by revert x; decide, by revert x; decide, by revert x; decide, by revert x; decide, by revert x; decide⟩

/-- A command that waits for transaction 3, of kind `k`. -/
def waiting (k : TxnKind) : State :=
  { withCtx c0 { phase := .running, item := { item with pend := .memory 3 } } [] with
    port := { txns := [{ id := 3, addr := 4096, kind := k }], pbuf := [⟨9, [], false, [1], none⟩] } }

theorem test_PortTransactions : ∀ k ∈ [TxnKind.store c0 1, .load c0 1 31 0 8 false false [], .load c0 1 31 0 8 true true []],
    let s := waiting k
    s.fastOn = true ∧ s.port.txns.find? (·.id == 3) = some { id := 3, addr := 4096, kind := k } ∧ s.awaits c0 1 3 = true ∧
    s.port.entry 9 = some ⟨9, [], false, [1], none⟩ ∧ s.txnRoom = true ∧ (∀ x ∈ s.port.pbuf, x.sector = 9 → x.out = none) ∧
    s.port.fetching 9 = false ∧ (0x0302 : BitVec 16).toNat ∈ faultCodes ∧ (List.replicate 64 (0 : Byte)).length = 64 := by decide

/-- `base` with a permission for other clusters in its export window. -/
def shared (perm : Nat) : State := { base with str := { base.str with live := { img with regions := [⟨.shared, 255, perm, 0, 0, 1024⟩,
  ⟨.exportWin, 255, perm, 0, 0, 1024⟩] } } }

theorem test_RequestsFromOutside :
    (let r : RemoteReq := ⟨5, 65472, .read 64⟩
     (shared 4095).portsHeld = false ∧ reqWf r = true ∧ r.addr < (shared 4095).id.loamMib * 2 ^ 20 ∧
     accessFault (shared 4095).str.live .remRead r.addr 64 = 0 ∧ ((shared 4095).loamRead 5 r.addr 64).2 = .ok (List.replicate 64 0)) ∧
    (let r : RemoteReq := ⟨5, 65535, .write [7]⟩
     reqWf r = true ∧ accessFault (shared 4095).str.live .remWrite r.addr 1 = 0 ∧ ((shared 4095).loamWrite 5 r.addr [7]).2 = 0 ∧
     (shared 0).portsHeld = false ∧ accessFault (shared 0).str.live .remWrite r.addr 1 ≠ 0) ∧
    (Access.remRead, 2) ∈ [(Access.remRead, 2), (Access.remWrite, 3)] := by decide
theorem test_RequestsFromOutside_others :
    (let q : AtomReq := ⟨.add, true, false, 7, 0⟩
     let r : RemoteReq := ⟨5, 65528, .atomic q⟩
     reqWf r = true ∧ r.addr < (shared 4095).id.loamMib * 2 ^ 20 ∧ accessFault (shared 4095).str.live .remRead r.addr (atomBytes q) = 0 ∧
     accessFault (shared 4095).str.live .remWrite r.addr (atomBytes q) = 0 ∧ ((shared 4095).loamAtomic 5 r.addr q).2 = .ok 0 ∧
     accessFault (shared 4).str.live .remRead r.addr (atomBytes q) = 0 ∧ accessFault (shared 4).str.live .remWrite r.addr (atomBytes q) ≠ 0) ∧
    (let r : RemoteReq := ⟨5, 65472, .poison⟩
     reqWf r = true ∧ accessFault (shared 4095).str.live .remWrite r.addr 64 = 0 ∧ accessFault (shared 0).str.live .remWrite r.addr 64 ≠ 0) ∧
    accessFault (shared 0).str.live .remRead 65472 64 ≠ 0 ∧ reqWf ⟨5, 24 * 2 ^ 20, .read 64⟩ = true ∧ base.id.loamMib * 2 ^ 20 ≤ 24 * 2 ^ 20 := by decide
theorem test_SyncInstructions_outside :
    base.portsHeld = false ∧ base.str.live.sync (15 : BitVec 13).toNat = some ⟨8, 8, 2, 255⟩ ∧ base.scBad 15 = false ∧
    base.str.live.sync (7 : BitVec 13).toNat = some ⟨0, 8, 1, 255⟩ ∧ (accOf .host).sup = true := by decide

/-! Further clauses of the statements on the vector engine, the DMA engine, the atomics and the ports. -/

/-- A segment of 64 values of a block, and a stage with an immediate second operand (R115, R116). -/
def seg : Seg := ⟨c0, 0, 0, 0, true, 1, 64, 0, int8⟩
def stage (op : Nat) : Stage := ⟨op, 0, 1, 0, false, 0, 0, false, 0, 0x17#32, 0, 0, false⟩

theorem test_ChainsAndEpilogues_stages : ∀ op ∈ [1, 6, 0xD, 0xF], ∀ int : Bool,
    (∃ ys k, base.second seg (stage op) int 64 = (base, .ok (ys, k))) ∧
    (let vs : List Val := List.replicate 64 (if int then .int 1 else .fp 0#32)
     vs ≠ [] ∧ vs.length ≤ 64 ∧ ∀ v ∈ vs, (∃ n, v = .int n) ↔ int = true) ∧
    sfmtOf ((stage 0xD).immA.toNat % 256) = some int8 ∧ int8.isInt = true ∧ base.ctr.vecSat < 2 ^ 48 ∧ base.ctr.vecNan < 2 ^ 48 := by
  refine fun op _ int => ⟨⟨_, _, rfl⟩, ⟨by simp, by simp, fun v h => ?_⟩, by decide, by decide, by decide, by decide⟩
  obtain ⟨-, rfl⟩ := List.mem_replicate.mp h
  cases int <;> simp
/-- A stage's numbers: the one that is asked for, the values -2 and 2 and 1/2, and numbers that are none. -/
theorem test_ChainsAndEpilogues_values :
    let val (y : Nat) : ℚ := (if y < 2 ^ 31 then 1 else -1) * (if y / 2 ^ 23 % 256 = 0 then (y % 2 ^ 23 : ℕ) * (2 : ℚ) ^ (-149 : ℤ)
      else (2 ^ 23 + y % 2 ^ 23 : ℕ) * (2 : ℚ) ^ ((y / 2 ^ 23 % 256 : ℕ) - 150 : ℤ))
    stageVal (stage 1) (.fp 0x40000000#32) (.fp 0xC0000000#32) false = (.fp 0#32, false) ∧
    stageVal (stage 8) (.fp 0x40000000#32) (.fp 0#32) false = (.fp 0x40800000#32, false) ∧ isNaN 0x7FC00000#32 = true ∧
    (0x40000000#32 : Word32).toNat = 0x40000000 ∧ val 0x40000000 = (2 : ℤ) ∧ val 0xC0000000 = -2 ∧ val 0x3F000000 = (2 : ℚ) ^ (-1 : ℤ) ∧
    val 0x44000000 = 512 ∧ val 0 = 0 := by
  refine ⟨by decide +kernel, by decide +kernel, by decide +kernel, by decide +kernel, ?_, ?_, ?_, ?_, ?_⟩ <;> norm_num

theorem test_DescriptorsStart_behind : ∀ r ∈ [{ readD with wr := 1, step := 1 }],
    ((chanOf copy [r]).chan 31).run.getLast? = some r ∧ r.readsDone = true := by decide

/-- A copy from stack memory to stack memory, latency-critical. -/
def farCopy : Desc := { copy with src := 4096, dst := 8192, ctrl := 16 }
def farRead (b : Option Byte) : DescRun := (runD farCopy).got 64 (List.replicate 64 b) 0 64

set_option maxRecDepth 100000 in
theorem test_BeatsMoveSectors_far :
    (∀ e ∈ [[], [(⟨64, (List.range 64).map fun i => (i, 7), false, [1], none⟩ : PEntry)]],
      let s : State := { running (runD farCopy) [] with port := { pbuf := e } }
      s.fastOn = true ∧ s.beatChannel = some 31 ∧ (s.chan 31).run.find? s.descReady = some (runD farCopy) ∧
      (runD farCopy).need[(runD farCopy).rd]? = some (4096, 64) ∧ placeOf s.id 4096 = .stack ∧ s.port.covers (4096 / 64) = !e.isEmpty ∧
      ((runD farCopy).desc.latcrit && s.criticalRoom) = true) ∧
    (∀ b ∈ [some 7, none], let r := farRead b
      let s := running r []
      s.beatChannel = some 31 ∧ (s.chan 31).run.find? s.descReady = some r ∧ r.need[r.rd]? = none ∧
      (r.desc.dstPieces r.step)[r.wr]? = some (8192, 64) ∧ placeOf s.id 8192 = .stack ∧ r.desc.mayOverlap = false ∧
      (r.pieceData (8192 - r.desc.dstAt r.step) 64).2 = b.isNone) := by decide

/-- `atm` with a RET at `ret`. -/
def atmRet (o p ret a : Nat) : State := run c0 [insn 7 o 2 (4 * p), ret, a % 2 ^ 32, a / 2 ^ 32, 7, 0, 0, 0]

theorem test_Atomics_own : ∀ x ∈ [(1, AtomOp.add), (2, .min), (3, .max), (4, .xchg), (5, .cas)], ∀ ret ∈ [0xFFFFFFFF, 2048], ∀ b : Bool,
    let s := if b then poisoned 16 (atmRet x.1 0 ret (own 1024)) else atmRet x.1 0 ret (own 1024)
    let t := (s.fetch c0).1
    let back : List (Nat × Nat) := if ret = 0xFFFFFFFF then [] else [(ret, 8)]
    s.Issues c0 t (.atm x.2 false false 0 ret (own 1024) 7 0 false) 32 ∧ t.atomFault c0 false 4 ret (own 1024) = 0 ∧
    placeOf s.id (own 1024) = .own 1024 ∧ t.mustWait c0 { lw := (1024, 4) :: back } = false ∧
    good (t.loamRead (corePort 0) 1024 4).2 = !b ∧
    (((t.loamRead (corePort 0) 1024 4).1.loamWrite (corePort 0) 1024 [0, 0, 0, 0]).1.loamWrite (corePort 0) 2048 (leBytes 8 0)).2 = 0 :=
  fun x h ret hr b => ⟨issues_of (by revert x ret b; decide) (by revert x ret b; decide), by revert x ret b; decide, by decide +revert,
    by revert x ret b; decide, by revert x ret b; decide, by revert x ret b; decide⟩

/-- An entry of the port buffer over the sector of address 4096: of one byte or whole, and on its way out or not. -/
def entry (n : Nat) (out : Option Nat) : PEntry := ⟨64, (List.range n).map fun i => (i, 7), false, [1], out⟩
def atFar (p ret : Nat) (q : Port) : State := { atmRet 1 p ret 4096 with port := q }
def fetch64 : Txn := { id := 0, addr := 4096, kind := .fetch c4 1 0 ⟨.add, false, false, 1, 0⟩ none }
def store64 : Txn := { id := 0, addr := 4096, kind := .store c4 1 }

theorem test_Atomics_far : ∀ p ∈ [0, 1, 2], ∀ ret ∈ [0xFFFFFFFF, 2048],
    ∀ q ∈ [({} : Port), { pbuf := [entry 1 none] }, { pbuf := [entry 64 none] }, { pbuf := [entry 1 (some 5)] }, { txns := [fetch64] }, { txns := [store64] }],
    let s := atFar p ret q
    let t := (s.fetch c0).1
    s.Issues c0 t (.atm .add false false p ret 4096 7 0 false) 32 ∧ t.atomFault c0 false 4 ret 4096 = 0 ∧ placeOf s.id 4096 = .stack ∧
    t.mustWait c0 { lw := if ret = 0xFFFFFFFF then [] else [(ret, 8)] } = false ∧ s.txnRoom = true ∧ s.port.used < 64 ∧
    (t.loamWrite (corePort 0) 2048 (leBytes 8 0x07070707)).2 = 0 :=
  fun p hp ret hr q hq => ⟨issues_of (by revert p ret q; decide) (by revert p ret q; decide), by revert p ret q; decide, by revert p ret q; decide,
    by revert p ret q; decide, by revert p ret q; decide, by revert p ret q; decide, by revert p ret q; decide⟩
theorem test_Atomics_far_ports :
    (let q : Port := {}
     q.pbuf = [] ∧ q.entry 64 = none ∧ q.fetching 64 = false ∧ q.draining 64 = false ∧ q.directly 64 = false) ∧
    (let q : Port := { pbuf := [entry 1 none] }
     q.entry 64 = some (entry 1 none) ∧ (entry 1 none).data.length ≠ 64 ∧ q.draining 64 = false) ∧
    (let q : Port := { pbuf := [entry 64 none] }
     q.entry 64 = some (entry 64 none) ∧ (entry 64 none).data.length = 64) ∧
    ({ pbuf := [entry 1 (some 5)] } : Port).draining 64 = true ∧ ({ pbuf := [entry 1 (some 5)] } : Port).entry 64 = none ∧
    ({ txns := [fetch64] } : Port).fetching 64 = true ∧ ({ txns := [store64] } : Port).directly 64 = true := by decide

theorem test_PortTransactions_answers :
    (∀ k ∈ [TxnKind.load c0 1 31 0 8 true true [], .atomic c0 1 none false, .atomic c0 1 (some 2048) true,
        .fetch c0 1 60 ⟨.add, false, false, 1, 0⟩ none, .fetch c0 1 56 ⟨.add, true, false, 1, 0⟩ (some 2048)],
      let s := waiting k
      s.fastOn = true ∧ s.port.txns.find? (·.id == 3) = some { id := 3, addr := 4096, kind := k } ∧ s.awaits c0 1 3 = true ∧
      (s.loamWrite (corePort 0) 2048 (leBytes 8 0)).2 = 0) ∧
    (let r : DescRun := { runD farCopy with waiting := some 3 }
     let s : State := { running r [] with port := { txns := [{ id := 3, addr := 4096, kind := .dmaRead 31 1 0 64 true [] }] } }
     s.fastOn = true ∧ s.port.txns.find? (·.id == 3) = some { id := 3, addr := 4096, kind := .dmaRead 31 1 0 64 true [] } ∧
     (s.chan 31).run.find? (fun r => r.no == 1 && r.waiting == some 3) = some r) ∧
    (let s : State := { running (farRead (some 7)) [] with port := { txns := [{ id := 3, addr := 8192, kind := .dmaWrite 31 1 64 }] } }
     s.fastOn = true ∧ s.port.txns.find? (·.id == 3) = some { id := 3, addr := 8192, kind := .dmaWrite 31 1 64 } ∧
     (s.chan 31).run.find? (·.no == 1) = some (farRead (some 7)) ∧ farCopy.bcEn = true ∧ farCopy.bcClu = pkgIndex s.id ∧ s.scBad farCopy.bcSc = false) := by
  decide

/-! ### The structure unit -/

/-- A state of the staging slot. -/
def staging (x : StageState) : State := { base with str := { base.str with stage := x } }

theorem test_StagingCommands :
    base.pwr.state ≠ .off ∧ (accOf .host).sup = true ∧ (accOf (.remote 0 false 0)).sup = false ∧
    base.heldEarly (.remote 0 false 0) 0x1000 true = false ∧ base.heldEarly .host 0x1000 true = false ∧
    (∀ q ∈ [(StartUp.confirmed, Party.remote 0 true 0), (.reset, .host)],
      ({ base with pwr.start := q.1 } : State).heldEarly q.2 0x1000 true = true ∧ ({ base with pwr.start := q.1 } : State).pwr.state ≠ .off) ∧
    (∀ x : StageState, (staging x).str.stage = x) ∧ (staging .valid).pwr.pfw = false ∧ (staging .valid).pwr.offReq = false ∧
    (staging .valid).mrl.admits .image (staging .valid).str.stageBytes.length = true ∧
    ({ staging .valid with mrl := { used := 983041 } } : State).mrl.admits .image 0 = false ∧
    ({ base with str := { base.str with awaitConfirm := true } } : State).str.awaitConfirm = true ∧
    ((5, Instr.strConfirm .host) : BitVec 3 × Instr) ∈
      ([(1, .strOpen .host), (2, .strValidate .host), (3, .strCommit .host), (4, .strAbort .host), (5, .strConfirm .host)] : List (BitVec 3 × Instr)) ∧
    (staging .committing).str.stage ≠ .empty ∧ (staging .empty).str.awaitConfirm = false ∧
    (∀ k ∈ [0, 1, 2], ({ staging .pending with str.swap := some k } : State).swapHeld = decide (1 ≤ k)) :=
  ⟨by decide, by decide, by decide, by decide, by decide, by decide, fun _ => rfl, by decide, by decide, by decide, by decide, by decide, by decide, by decide, by decide, by decide⟩

/-- A section of an image with its padding, and a small valid image: nine sections, core 0 alone (R19 to R21). -/
def secs : List (Nat × List Byte) :=
  [(1, [1] ++ List.replicate 131 0),
   (2, [4, 0, 0, 0] ++ leBytes 4 0 ++ leBytes 4 10496 ++ leBytes 4 0 ++ [7, 255, 0, 0] ++ leBytes 4 10496 ++ leBytes 4 3072 ++ leBytes 4 0),
   (3, List.replicate 32 0), (4, List.replicate 12 0), (5, [0, 0, 1, 0, 1, 255, 0, 0]), (6, []), (7, List.replicate 32 0),
   (9, (List.replicate 5 (leBytes 4 1000)).flatten), (10, leBytes 4 10000)]

def place : Nat → List (Nat × List Byte) → List Byte × List Byte
  | _, [] => ([], [])
  | o, (t, b) :: r =>
    let q := place (o + 64 * cdiv b.length 64) r
    (leBytes 2 t ++ leBytes 2 0 ++ leBytes 4 o ++ leBytes 4 b.length ++ leBytes 4 (crc32c b) ++ q.1,
     b ++ List.replicate (64 * cdiv b.length 64 - b.length) 0 ++ q.2)

def smallImage : List Byte :=
  let q := place 256 secs
  let h := leBytes 4 0x50474E4C ++ leBytes 2 1 ++ leBytes 2 64 ++ leBytes 4 (256 + q.2.length) ++ leBytes 2 9 ++ leBytes 2 0 ++ leBytes 4 7 ++
    [5, 1, 1] ++ List.replicate 37 0
  h ++ leBytes 4 (crc32c (h ++ q.1)) ++ q.1 ++ List.replicate 48 0 ++ q.2

set_option maxRecDepth 1000000 in
theorem test_StagingAndDeltas_image : ∃ im, validateImage {} smallImage = .ok im := by
  have h : (validateImage {} smallImage).isOk = true := by decide +kernel
  cases hv : validateImage {} smallImage with
  | ok im => exact ⟨im, rfl⟩
  | error e => rw [hv] at h; cases h
theorem test_StagingAndDeltas_badImage : ∃ e, validateImage {} [] = .error e := ⟨_, rfl⟩

/-- A delta record that gives the destination 0x40 the allotment 5, toward image 7, with a sequence number (R36). -/
def delta (seq : Nat) : List Byte :=
  let b := leBytes 2 2 ++ leBytes 2 1 ++ leBytes 4 7 ++ leBytes 4 seq
  let e := leBytes 4 0x40 ++ leBytes 4 5 ++ leBytes 4 0
  b ++ leBytes 4 (crc32c (b ++ leBytes 4 0 ++ e)) ++ e

theorem test_StagingAndDeltas :
    base.pwr.state ≠ .off ∧ (staging .opened).str.stage = .opened ∧ (staging .opened).str.stageBytes.length + 4 ≤ 524288 ∧
    (staging .validating).str.stage = .validating ∧ base.pwr.pfw = false ∧ base.pwr.offReq = false ∧ base.str.shownId = 7 ∧
    (∀ k ∈ [1, 2], let b := (delta k).take 24 ++ leBytes 4 (0 : Word32).toNat
      16 ≤ b.length ∧ deltaLen b ≤ b.length ∧ deltaCheck base.str.live base.str.deltaSeq base.str.shownId b = (if k = 1 then 0 else 0x0209) ∧
      fieldB b 4 4 = 7) ∧ ({ base with str := { base.str with shownId := 6 } } : State).str.shownId = 6 ∧
    (let b := leBytes 2 2 ++ leBytes 2 1 ++ leBytes 4 7 ++ leBytes 4 1 ++ leBytes 4 (0 : Word32).toNat
     16 ≤ b.length ∧ b.length < deltaLen b) ∧
    0 + 64 * sectOf 28 ≤ 32768 ∧ base.mrl.admits .delta 28 = true ∧ base.committing = false := by decide +kernel
theorem test_StagingAndDeltas_full : ∃ b : List Byte, 524288 < b.length + 4 := ⟨List.replicate 524288 0, by rw [List.length_replicate]; omega⟩
theorem test_EpochsAndDecoding :
    (∀ n ∈ [999, 1000], ({ base with str := { base.str with epochTicks := n } } : State).str.liveValid = true ∧ base.tsRun = true ∧
      (({ base with str := { base.str with epochTicks := n } } : State).str.live.epochLen ≤ n ↔ n = 1000)) ∧
    (staging .pending).quiescent = true ∧ (staging .pending).str.swap = none ∧ (staging .pending).clockHeld = false ∧
    ({ staging .pending with port := { txns := [{ id := 0, addr := 0, kind := .drain }] } } : State).quiescent = false ∧
    (∀ k ∈ [62, 63], ({ base with str := { base.str with bounds := k } } : State).str.bounds = k) ∧
    (∀ d ∈ [Damage.image .epoch, .decoding .epoch], let s : State := { base with damage := [d, .ring 0 1] }
      s.waitsOn [.epoch] = true ∧ s.pwr.state ≠ .off ∧ s.pending = [] ∧ s.str.swap = none ∧ s.held = [] ∧ d ∈ s.damage) ∧
    base.waitsOn [.epoch] = false ∧ base.damage = [] ∧
    ({ staging .pending with str.bounds := 63, port.txns := [{ id := 0, addr := 0, kind := .drain }] } : State).quiescent = false := by decide

/-- Two images of a swap: ring 1 of core 0 moves, ring 3 of core 4 is new, a credit allotment and an owner change; core 2 keeps its save
region and core 3 begins. -/
def old : Image := { img with coreEn := 7, regions := img.regions ++ [⟨.save, 2, 4095, 0, 4096, 64⟩] }
def new : Image := { img with
  coreEn := 14
  regions := [⟨.shared, 255, 4095, 0, 0, 1024⟩, ⟨.ring, 0, 4095, 1, 1060, 16⟩, ⟨.ring, 4, 4095, 2, 1040, 16⟩, ⟨.ring, 4, 4095, 3, 1080, 16⟩,
    ⟨.save, 2, 4095, 0, 4096, 64⟩]
  syncs := [⟨0, 8, 1, 255⟩, ⟨8, 8, 0, 0⟩], credits := [⟨0x40, 5⟩, ⟨0x41, 1⟩] }

/-- A swap `k` ticks after its boundary. -/
def swapAt (k : Nat) : State :=
  { base with str := { base.str with live := if k = 1 then old else new, staged := if k = 1 then new else old, swap := some k, stage := .pending }
              cores := [(2, { asleep := true, sleepSaved := true }), (3, { asleep := true })] }

theorem test_EpochsAndDecoding_swap :
    (∀ k ∈ [1, 2, 7], (swapAt k).pending = [] ∧ (swapAt k).pwr.state ≠ .off ∧ (swapAt k).str.swap = some k) ∧
    (let place (im : Image) (c r : Nat) := (im.ring c r).map fun x => (x.base, x.size)
     place old 4 2 = place new 4 2 ∧ place old 0 1 ≠ place new 0 1 ∧ (old.ring 0 1).isSome = true ∧ ((swapAt 2).core 0).hdl.phase = .idle ∧
     place old 4 3 ≠ place new 4 3 ∧ old.ring 4 3 = none) ∧
    new.credit 0x42 = none ∧ (new.credits.map (·.dest)).Nodup ∧ new.credit 0x40 = some ⟨0x40, 5⟩ ∧
    (((swapAt 2).core 2).asleep = true ∧ coreOn old.coreEn 2 = true ∧ coreOn new.coreEn 2 = true ∧
      old.save 2 = some ⟨.save, 2, 4095, 0, 4096, 64⟩ ∧ new.save 2 = some ⟨.save, 2, 4095, 0, 4096, 64⟩) ∧
    (((swapAt 2).core 3).asleep = true ∧ coreOn old.coreEn 3 = false) ∧
    new.sync ((swapAt 2).bqOf 0).notify = some ⟨0, 8, 1, 255⟩ ∧ new.sync 8 = some ⟨8, 8, 0, 0⟩ := by decide

/-! ### The journal -/

/-- A record at the front of the queue, in a staging state. -/
def recAt (t : RecType) (x : StageState) : State :=
  { staging x with mrl := { queue := [⟨t, 1, 0, delta 1⟩] }, str := { (staging x).str with imageSerial := 1, record := { commit := if t = .commit then 1 else 0 } } }

set_option maxRecDepth 100000 in
theorem test_JournalRecords : ∀ p ∈ [(RecType.image, StageState.journaling), (.commit, .committing), (.delta, .empty), (.seal, .empty), (.retire, .empty),
      (.telemetry, .empty), (.epoch, .empty)], let s := recAt p.1 p.2
    s.pwr.state ≠ .off ∧ s.mrl.compact = false ∧ s.pwr.pfSafe = false ∧ s.pwr.start ≠ .reset ∧ s.mrl.queue = ⟨p.1, 1, 0, delta 1⟩ :: [] ∧
    s.str.swap = none ∧ s.slotFails ⟨p.1, 1, 0, delta 1⟩ = false ∧ s.str.stage = p.2 ∧ s.str.imageSerial = 1 ∧ s.str.liveValid = true ∧
    fieldB (delta 1) 4 4 = s.str.live.id ∧ fieldB (delta 1) 8 4 = s.str.deltaSeq + 1 ∧
    (p.1 = .commit → s.str.record.commit = 1) ∧ (p.1 = .delta → serialLater 1 (BitVec.ofNat 32 s.str.record.commit) = true) := by decide
theorem test_JournalRecords_slotFails : let s := recAt .image .journaling
    ({ s with str := { s.str with slotFlip := true } } : State).slotFails ⟨.image, 1, 0, delta 1⟩ = true ∧ s.pending = [] ∧
    ({ staging .pending with str.liveValid := false } : State).str.swap = none := by decide
theorem test_MarlCommands :
    (∀ n ∈ [99999999, 100000000], ({ base with mrl := { telTicks := n } } : State).mrl.telTicks = n) ∧ base.pwr.pfSafe = false ∧
    base.committing = false ∧ base.mrl.compact = false ∧ ({ base with mrl := { compact := true } } : State).mrl.compact = true ∧
    base.pwr.start ≠ .reset ∧ base.pwr.pfw = false ∧ base.pwr.offReq = false ∧ base.mrl.sealsFull = false ∧
    base.mrl.admits .seal (padTo 44 base.mrl.sealData).length = true ∧ base.mrl.admits .retire (leBytes 4 (5 : Word32).toNat).length = true ∧
    ({ base with mrl := { used := 983041 } } : State).mrl.admits .retire 4 = false ∧
    ({ base with pwr := { base.pwr with pfw := true } } : State).pwr.pfw = true ∧
    (0x1FFFC0 : Word32).toNat < 2 ^ 21 ∧ (0x1FFFC0 : Word32).toNat % 64 = 0 := by decide

/-! ### Power and start-up -/

theorem test_PowerStates :
    (base.pwr.state = .active ∧ base.clockOn = true ∧ base.pwr.start ≠ .confirmed ∧ base.hasWork = false) ∧
    ({ base with port := { txns := [{ id := 0, addr := 0, kind := .drain }] } } : State).hasWork = true ∧ base.pwr.idleTicks < base.pwr.napAfter * 10 + 1 ∧
    (∀ a ∈ [false, true], let s : State := { base with
        pwr := { base.pwr with state := .idle, napAfter := 1, idleTicks := 10 }, cores := (List.range 4).map fun c => (c, { asleep := a }) }
     s.pwr.state = .idle ∧ s.clockOn = true ∧ s.pwr.start ≠ .confirmed ∧ s.pwr.napAfter ≠ 0 ∧ s.pwr.napAfter * 10 ≤ s.pwr.idleTicks ∧
     s.pwr.stayUp = false ∧ s.held = [] ∧ s.triggerDue = false ∧ s.hasWork = false ∧ s.str.swap = none ∧ s.allAsleep = a) ∧
    ({ base with held := [.probe 0 0 0] } : State).triggerDue = true ∧
    ({ base with held := [.probe 0 0 0] } : State).held ≠ [] ∧
    (deadlineShip 15 ({ base with bq := [(15, { bq with fill := [5] })], ticks := 10 } : State)).isSome = true ∧
    ((withCtx c0 { phase := .aborting, item := { item with abort := some { fault := 1 } } } []).item c0).abort.isSome = true ∧
    ({ base with str := { base.str with swap := some 0 } } : State).str.swap.isSome = true := by decide +kernel
theorem test_PowerStates_wake :
    (let s := base.setCore 3 { asleep := true, nq := [⟨0, true, none⟩] }
     (s.core 3).asleep = true ∧ (s.core 3).wakeTick = none ∧ coreOn s.str.live.coreEn 3 = true ∧ (s.core 3).nq ≠ []) ∧
    (let s : State := { base.setCore 3 { asleep := true } with held := [.message ⟨0x60#32, [[]], false⟩], pwr := { base.pwr with state := .nap } }
     (s.core 3).asleep = true ∧ (s.core 3).wakeTick = none ∧ s.held ≠ [] ∧ s.heldFor 3 = true ∧ s.heldFor 2 = false ∧
     coreOn s.str.live.coreEn 3 = true) ∧
    (∀ n ∈ [999, 1000], ∀ t ∈ [false, true], ∀ k ∈ [none, some 1600],
     let s : State := { base with pwr := { base.pwr with state := .waking, wake := some n, throttle := t, clkArrived := k } }
     s.pwr.state = .waking ∧ s.pwr.wake = some n ∧ s.clockHeld = t ∧ s.pwr.wakeWarned = false ∧ s.pwr.clkArrived = k) := by decide
theorem test_CoreSleep :
    (let s : State := { base.setCore 3 { idleTicks := 100000 } with pwr := { base.pwr with csleep := 8 } }
     s.fastOn = true ∧ coreOn s.str.live.coreEn 3 = true ∧ s.pwr.csleep.testBit 3 = true ∧ s.pwr.sleepAfter ≠ 0 ∧
     s.pwr.sleepAfter * 1000 ≤ (s.core 3).idleTicks ∧ s.coreQuiet 3 = true ∧ (s.core 3).asleep = false ∧ (s.core 3).sleepSaving = false ∧
     s.pwr.stayUp = false) ∧
    (let s : State := { base with pwr.state := .nap }
     s.pwr.start = .released ∧ s.clockHeld = false ∧ s.swapHeld = false) ∧
    (∀ q ∈ [[], [⟨0, true, none⟩]], let s := base.setCore 3 { sleepSaving := true, nq := q }
     (s.core 3).sleepSaving = true ∧ s.coreQuiet 3 = q.isEmpty ∧ 5 ≤ s.id.edgeLog2 ∧ s.id.edgeLog2 ≤ 8) ∧
    (let s := base.setCore 3 { asleep := true, sleepSaved := true, wakeTick := some 3800 }
     s.fastOn = true ∧ (s.core 3).asleep = true ∧ (s.core 3).wakeTick = some 3800 ∧ (s.core 3).sleepSaved = true) ∧
    (∀ n ∈ [3799, 3800], let s := base.setCore 3 { asleep := true, wakeTick := some n }
     s.fastOn = true ∧ (s.core 3).asleep = true ∧ (s.core 3).wakeTick = some n ∧ (s.core 3).sleepSaved = false) := by decide
theorem test_CoreSleep_clean : ∀ x ∈ [({ sleepSaving := true } : Core), { asleep := true, sleepSaved := true, wakeTick := some 3800 }],
    let s := base.setCore 3 x
    s.Sound ∧ s.loam.Clean ∧ (s.core 3).kaolin.Clean ∧ (s.core 3).vb.Clean :=
  fun x hx => ⟨sound_of (by revert x; decide) (by revert x; decide) (by revert x; decide) (by revert x; decide),
    clean_of (by revert x; decide), clean_of (by revert x; decide), clean_of (by revert x; decide)⟩
theorem test_PowerControl : base.pwr.state ≠ .off ∧ (accOf .host).sup = true ∧ base.pwr.stayUp = false ∧ base.pwr.offReq = false ∧ base.pwr.pfw = false ∧
    base.committing = false ∧ base.pwr.throttle = false ∧ base.pwr.pfSafe = false ∧ base.mrl.queue = [] ∧
    (∀ a b : Bool, let p : Pwr := { base.pwr with pfw := true, pfSafe := a, offReq := b, throttle := a }
      p.pfw = true ∧ p.pfCleared = false ∧ p.pfSafe = a ∧ p.offReq = b ∧ p.throttle = a ∧ p.state ≠ .off) ∧
    base.heldEarly .host 0xB004 true = false ∧ base.pwr.pfCleared = false ∧
    (let p : Pwr := { base.pwr with pfw := true, pfCleared := true }
     p.pfw = true ∧ p.pfCleared = true ∧ p.offReq = false ∧ p.pfSafe = false ∧ p.state ≠ .off) ∧
    (let p : Pwr := { base.pwr with state := .waking, wake := some 5, clkArrived := some 1600, throttle := true }
     p.state = .waking ∧ p.wake = some 5 ∧ p.clkArrived = some 1600 ∧ p.clkHold = false ∧ p.droop = none ∧ p.pfSafe = false ∧
     p.throttle = true) ∧
    (let p : Pwr := { base.pwr with pfSafe := true }
     p.offReq = false ∧ p.stayUp = false ∧ p.pfSafe = true ∧ (base.pwr.wake = none)) := by decide

/-- A segment whose base is empty, with an IMAGE record of the body `b` and its COMMIT (R249). -/
def segment (b : List Byte) : Mem :=
  let all := (JRec.mk .base 0 0 (baseBody 1 0 (crc32c []) 1)).bytes ++ (JRec.mk .image 1 0 b).bytes ++ (JRec.mk .commit 2 0 (commitBody 7 1 0)).bytes
  ((List.range all.length).zip all).filter (·.2 != 0)

theorem test_LossAndStartup : base.pwr.state ≠ .off ∧ base.pwr.start ≠ .reset ∧ State.reset.pwr.start = .reset ∧ base.mrl.compact = false ∧
    (replayOf []).image.isNone = true ∧
    (let s : State := { base with pwr := { base.pwr with start := .confirmed } }
     s.pwr.start = .confirmed ∧ s.clockOn = true ∧ (⟨0x40, 4⟩ : CreditEnt) ∈ s.str.live.credits ∧
     ∀ y ∈ s.str.live.credits, y.dest = 0x40 → y = ⟨0x40, 4⟩) := by decide +kernel
set_option maxRecDepth 1000000 in
theorem test_LossAndStartup_image : (replayOf (segment smallImage)).image.map (·.bytes) = some smallImage := by decide +kernel
set_option maxRecDepth 1000000 in
theorem test_LossAndStartup_badImage : (replayOf (segment [])).image.map (·.bytes) = some [] := by decide +kernel

/-! ### Watchdogs, monitors, debug -/

theorem test_Watchdogs :
    base.pwr.state ≠ .off ∧ base.str.liveValid = true ∧
    (∀ k ∈ [CtxKind.cmd, .hdl], ∀ e ∈ [Pend.wait 8 2 5, .send], ∀ n ∈ [99, 100],
      let s := withCtx ⟨0, k⟩ { phase := .running, item := { item with pend := e, waitTicks := n, cmdTicks := n } } []
      (s.item ⟨0, k⟩).pend = e ∧ (s.ctx ⟨0, k⟩).canBear = true ∧ (s.item ⟨0, k⟩).waitTicks = n ∧ (s.item ⟨0, k⟩).cmdTicks = n ∧
      (s.ctx ⟨0, k⟩).phase.started = true ∧ s.waitedFor ⟨0, k⟩ = e ∧ (s.item ⟨0, k⟩).abort = none ∧ s.waitIsMet 1 8 5 = false ∧
      s.dbg.snapState = 0 ∧ s.str.live.waitTo = 100 ∧ s.str.live.sendTo = 100 ∧ s.str.live.commandTo = 100 ∧ s.str.live.handlerTo = 100) ∧
    (∀ h ∈ [Phase.issuing, .waitRange], let s := withCtx c0 { phase := h, item := { item with cmdTicks := 100 } } []
      (s.ctx c0).phase = h ∧ (s.item c0).abort = none ∧ s.str.live.commandTo ≤ (s.item c0).cmdTicks) ∧
    (let s := withCtx c0 { phase := .running, item := { item with pend := .wait 8 2 0, waitTicks := 100 } } []
     s.waitedFor c0 = .wait 8 2 0 ∧ s.waitIsMet (s.item c0).no 8 0 = true) ∧
    (∀ a ∈ [({ fault := 0x0C07 } : Abort), { fault := 0x0301 }, { fault := 0x0C05, seen := [0x0C05] }, { fault := 0x0C07, tick := 9 }],
      let s := withCtx c0 { phase := .aborting, item := { item with abort := some a, cmdTicks := 100 } } []
      (s.ctx c0).phase = .aborting ∧ s.str.live.commandTo ≤ (s.item c0).cmdTicks ∧ (s.item c0).abort = some a ∧ a.poisoned = false ∧
      (a.tick = s.ticks ↔ a.tick = 0) ∧ (faultRank 0x0C05 < faultRank a.fault ↔ a.fault = 0x0C07)) ∧
    ({ withCtx c0 { phase := .running, item := item } [] with dbg := { snapState := 2 } } : State).dbg.snapState = 2 := by decide
theorem test_DmaTimeouts :
    (let s := running { runD copy with ticks := 100 } []
     (s.chan 31).run.find? (fun r => !r.stopped && decide (r.step < r.desc.units ∧ s.str.live.dmaTo ≤ r.ticks)) = some { runD copy with ticks := 100 } ∧
     (s.chan 31).run.find? (·.no == 1) = some { runD copy with ticks := 100 } ∧ (runD copy).no = 1) ∧
    (∀ n ∈ [99, 100], let r := { runD copy with ticks := n }
     let s := base.setChan 31 { queue := [r] }
     (s.chan 31).run = [] ∧ (s.chan 31).queue = r :: [] ∧ r.desc.armed = false ∧ r.stopped = false ∧ (s.str.live.dmaTo ≤ r.ticks ↔ n = 100)) ∧
    (∀ n ∈ [99, 100], let s : State := { waiting (.store c0 1) with port := { txns := [{ id := 3, addr := 4096, kind := .store c0 1, ticks := n }] } }
     s.port.txns.find? (·.id == 3) = some { id := 3, addr := 4096, kind := .store c0 1, ticks := n } ∧ s.awaits c0 1 3 = true ∧
     (s.str.live.dmaTo ≤ n ↔ n = 100)) := by decide
theorem test_MonitorsAndErrors :
    base.pwr.state ≠ .off ∧ base.pwr.fclk = 1600 ∧ base.pwr.clkHold = false ∧ base.pwr.droop = none ∧
    (∀ m ∈ [99, 100], ∀ g ∈ [0, 1], let p : Pwr := { base.pwr with monTicks := m, clkHold := true, clkGood := g }
      p.monTicks = m ∧ p.clkHold = true ∧ p.clkGood = g ∧ p.state ≠ .off) ∧
    (1600 * 102 < 1633 * 100 ∧ 1567 * 100 < 1600 * 98 ∧ 1632 * 100 ≤ 1600 * 102 ∧ 1600 * 98 ≤ 1568 * 100) ∧
    (0 : Nat) < base.tel.vdroop ∧ base.tel.vover < 65535 ∧ base.clockHeld = false ∧ base.clockOn = true ∧
    (∀ n ∈ [7, 8, 1008, 1009], ({ base with pwr := { base.pwr with droop := some n } } : State).pwr.droop = some n) ∧
    (base.loamSector 7 393215).2 ≠ .ue ∧
    (({ base with loam := { flips := [(8 * 393215, true)] } } : State).loamSector 7 393215).2 = .ue ∧ (7 : Fin 9).val < 8 := by decide

theorem test_Probes :
    (accOf .host).sup = true ∧ base.portsHeld = false ∧ base.pingOk = false ∧
    (let s : State := { base with dbg := { pingDest := 0x40 } }
     s.portsHeld = false ∧ s.pingOk = true) ∧
    (∀ n ∈ [999999, 1000000], let s : State := { base with dbg := { pingTo := 0x40, pingState := 1, pingTicks := n } }
     s.portsHeld = false ∧ s.dbg.pingLate = [] ∧ s.dbg.pingState = 1 ∧ s.str.live.credit s.dbg.pingTo = some ⟨0x40, 4⟩ ∧ s.dbg.pingTicks = n) := by
  decide
theorem test_Snapshots :
    base.portsHeld = false ∧ (accOf .host).sup = true ∧ base.dbg.snapState = 0 ∧ base.clockOn = true ∧
    (∀ n ∈ [1, 2], let s : State := { withCtx c0 { phase := .running, item := { item with abort := some { fault := 0x0C05, snap := true } } } [] with
        dbg := { snapState := n } }
     s.dbg.snapState = n ∧ s.clockOn = true ∧ s.portsHeld = false ∧ (s.item c0).abort = some { fault := 0x0C05, snap := true } ∧
     (s.ctx c0).phase = .running ∧ (s.item c4).abort = none) ∧
    (∀ h ∈ [Phase.issuing, .waitRange], let s : State := { withCtx c0 { phase := h, item := { item with abort := some { fault := 0x0C05, snap := true } } } [] with
        dbg := { snapState := 1 } }
     s.clockOn = true ∧ (s.ctx c0).phase = h ∧ (s.item c0).abort = some { fault := 0x0C05, snap := true }) := by decide
theorem test_DumpsAndTrace :
    (let h : WatchHit := ⟨0, own 1024, 64, 0⟩
     ∀ d ∈ [none, some { time := 0, fault := 0 }], let s := withCtx c0 { phase := .running, item := { item with ending := true, watch := [h], dump := d } } []
     s.fastOn = true ∧ (s.item c0).watch = h :: [] ∧ s.dumpReady c0 = true ∧ (s.item c0).dump = d ∧
     (s.chan 32).run.find? (fun r => r.itemNo == (s.item c0).no) = none ∧ (s.item c0).hdr.regions.length ≤ 0 ∧
     placeOf s.id h.addr = .own 1024 ∧ s.dumpAllowed 0 h.addr 64 = 64 ∧ s.dumpAllowed 0 (own 131072) 64 < 64 ∧
     h.room { time := 0, fault := 0 } = 0) ∧
    ({ time := 0, fault := 0 } : Dump).header = none ∧ base.clockOn = true ∧ base.dbg.staged = [] ∧
    ({ base with dbg := { staged := [⟨0, 0, .accept, 0, 0, 0, []⟩] } } : State).dbg.staged ≠ [] := by decide
theorem test_RegisterAccess :
    base.portsHeld = false ∧ regAt (0xFFFFC : BitVec 20).toNat = none ∧ (0x6901 : BitVec 20).toNat % 4 ≠ 0 ∧
    (let x : RegAt := ⟨⟨0x6900, 4, 1, 4, .S, false, 0x10FFF⟩, 0, 0⟩
     regAt (0x6900 : BitVec 20).toNat = some x ∧ (0x6900 : BitVec 20).toNat % 4 = 0 ∧ aonReg 0x6900 = false ∧ x.row.bytes ≠ 8 ∧
     writeFault fastBlocks base (accOf .host) x (0x10FFF : Word32).toNat = 0 ∧ writeFault fastBlocks base (accOf .host) x (0x80000000 : Word32).toNat ≠ 0 ∧
     x.row.priv.allows (accOf (.remote 0 false 0)) false = false ∧ x.row.priv.allows (accOf .host) false = true ∧
     (base.regBytes (accOf .host) x 4).2 = .ok (leBytes 4 0)) ∧
    (∀ o ∈ [0, 4], let x : RegAt := ⟨⟨0xE018, 8, 1, 8, .S, false, 0xFFFFFFFFFFFFFFFF⟩, 0, o⟩
     regAt (0xE018 + o) = some x ∧ (0xE018 + o) % 4 = 0 ∧ x.row.bytes = 8 ∧ x.row.priv.allows (accOf .host) true = true ∧ x.row.ro = false ∧
     x.row.priv.allows (accOf .host) false = true ∧ (o = 0 → (base.regBytes (accOf .host) x 8).2 = .ok (List.replicate 8 0))) ∧
    (∃ s : State, s.portsHeld = false ∧ (s.latch (accOf .host) 0xE01C).rd = some 5) :=
  ⟨by decide, by decide, by decide, by decide, by decide,
   ⟨base.setLatch (accOf .host) 0xE018 { rd := some 5 }, by decide, by decide⟩⟩
/-! Further clauses of the statements on the journal, power, watchdogs and registers. -/

theorem test_MarlCommands_held : ∀ q ∈ [(StartUp.confirmed, Party.remote 0 true 0), (.reset, .host)],
    let s : State := { base with pwr.start := q.1 }
    s.pwr.state ≠ .off ∧ s.heldEarly q.2 0xC000 true = true ∧ base.heldEarly q.2 0xC000 true = false := by decide
theorem test_PowerStates_due : base.wakeDue = false ∧ (let s : State := { base with held := [.probe 0 0 0] }
    s.wakeDue = true ∧ s.hasWork = false ∧ s.pwr.state = .active) := by decide +kernel
theorem test_CoreSleep_held :
    (let s : State := { base.setCore 3 { sleepSaving := true } with held := [.message ⟨0x60#32, [[]], false⟩], pwr := { base.pwr with state := .nap } }
     s.heldFor 3 = true ∧ (s.core 3).sleepSaving = true ∧ s.pwr.state = .nap ∧ s.pwr.start = .released ∧ s.clockHeld = false ∧
     s.swapHeld = false ∧ s.waitsOn imgFields = false) ∧
    (base.setCore 3 { sleepSaving := true }).heldFor 3 = false ∧ base.heldFor 3 = false := by decide
theorem test_PowerControl_off : ∀ k ∈ [none, some 1], let s : State := { staging .pending with str.swap := k }
    s.pwr.state ≠ .off ∧ s.committing = true ∧ s.pwr.stayUp = false ∧ s.heldEarly .host 0xB004 true = false ∧ s.swapHeld = k.isSome ∧
    s.pwr.offReq = false := by decide
theorem test_PowerControl_early : let s : State := { base with pwr.start := .reset }
    s.pwr.state ≠ .off ∧ s.heldEarly .host 0xB004 true = false ∧ s.pwr.start = .reset ∧ s.pwr.stayUp = false ∧ s.pwr.offReq = false ∧
    s.pwr.pfw = false ∧ s.pwr.pfSafe = false ∧ s.committing = false := by decide
theorem test_Watchdogs_decoding :
    (∀ d ∈ [Damage.image .timeouts, .decoding .timeouts], ({ base with damage := [d] } : State).waitsOn [.timeouts] = true) ∧
    base.waitsOn [.timeouts] = false ∧
    ∀ a ∈ [({ fault := 0x0301, tick := 9 } : Abort), { fault := 0x0301 }, { fault := 0x0C07, poisoned := true }],
      let s := withCtx c0 { phase := .aborting, item := { item with abort := some a, cmdTicks := 100 } } []
      (s.item c0).abort = some a ∧ s.str.live.commandTo ≤ (s.item c0).cmdTicks ∧ (s.ctx c0).phase = .aborting ∧ 0x0C05 ∉ a.seen ∧
      (a.tick ≠ s.ticks ∨ a.poisoned = true ∨ faultRank a.fault ≤ faultRank 0x0C05) := by decide
theorem test_MonitorsAndErrors_held : ∀ k ∈ [none, some 1600], let p : Pwr := { base.pwr with fclk := 0, clkArrived := k, state := .waking, wake := some 3 }
    p.fclk = 0 ∧ p.clkArrived = k ∧ p.state ≠ .off := by decide

/-- Accesses that are served and accesses that are held (R237, R292, R304). -/
theorem test_RegisterAccess_held :
    (∀ q ∈ [(StartUp.confirmed, Party.remote 0 true 0), (.reset, .host)], let s : State := { base with pwr.start := q.1 }
      s.pwr.state ≠ .off ∧ aonReg 0x1000 = true ∧ s.heldEarly q.2 0x1000 true = true ∧ (q.2 = .host ∨ s.heldEarly q.2 0x1000 false = true)) ∧
    (∀ st ∈ [PState.active, .nap], base.heldEarly .host 0x1000 true = false ∧
      let s : State := { base with pwr := { base.pwr with state := st } }
      aonReg 0x6900 = false ∧ s.heldEarly .host 0x1000 false = false ∧
      s.holds (.write .host 0x6900 .b4 0) = decide (st = .nap) ∧ s.holds (.read .host 0x6900 .b4) = decide (st = .nap)) ∧
    accessWf .host .b4 = true ∧ ∀ w : Width, accessWf (.remote 0 true 0) w = true :=
  ⟨by decide, by decide, by decide, fun w => rfl⟩
/-- Whole words at 0x6900, both words and all of the register at 0xE018, and the words at 0x6000 and 0x6010 (R293, R294). -/
theorem test_RegisterAccess_values :
    (let x : RegAt := ⟨⟨0x6900, 4, 1, 4, .S, false, 0x10FFF⟩, 0, 0⟩
     regAt 0x6900 = some x ∧ (x.row.bytes ≠ 8) ∧ writeFault fastBlocks base (accOf .host) x 0x10FFF = 0 ∧
     writeFault fastBlocks base (accOf .host) x 0x80000000 ≠ 0) ∧
    (∀ o ∈ [0, 4], let x : RegAt := ⟨⟨0xE018, 8, 1, 8, .S, false, 0xFFFFFFFFFFFFFFFF⟩, 0, o⟩
     regAt (0xE018 + o) = some x ∧ (o = 0 → (base.regBytes (accOf .host) x 8).2 = .ok (List.replicate 8 0)) ∧
     (o = 4 → (base.latch (accOf .host) (0xE018 + o)).rd = none ∧ (base.regBytes (accOf .host) x 4).2 = .ok (List.replicate 4 0))) ∧
    (∀ o ∈ [0, 4], let x : RegAt := ⟨⟨0x6000, 4, 5, 4, .S, false, 0xFFFF0001⟩, o / 4, 0⟩
     regAt (0x6000 + o) = some x ∧ writeFault fastBlocks base (accOf .host) x 0 = 0 ∧ (fastBlocks.act base 0x6000 (o / 4) 0 0).2 = 0) ∧
    sameReg (regAt 0x6000) (regAt 0x6004) = false ∧ regAt 0x6010 = some ⟨⟨0x6000, 4, 5, 4, .S, false, 0xFFFF0001⟩, 4, 0⟩ ∧ regAt 0x6014 = none ∧
    regAt 0xFFFF8 = none ∧ regAt 0xFFFFC = none := by decide


end Sys2Proof.Tests
end

section
/-! PROOFS. Requests of other clusters at the memory port: when R47 permits one, which fault answers one that is refused, and what a
performed one leaves. -/

namespace Sys2Proof.Machine

/-! ### Which requests R47 permits -/

/-- R48: an access is permitted just where every sector it touches is. -/
theorem accessFault_eq_zero_iff (im : Image) (acc : Access) (a n : Nat) :
    accessFault im acc a n = 0 ↔ ∀ k ∈ sectorsOf a n, verdict im acc k = .ok := by
  have hv : ∀ v : Verdict, v = .ok ↔ v ≠ .window ∧ v ≠ .perm := fun v => by cases v <;> decide
  unfold accessFault
  simp only [List.contains_iff_mem, List.mem_map, hv]
  split
  case isTrue h =>
    obtain ⟨k, hk, e⟩ := h
    exact ⟨by simp, fun g => absurd e (g k hk).1⟩
  case isFalse hw =>
    split
    case isTrue h =>
      obtain ⟨k, hk, e⟩ := h
      exact ⟨by simp, fun g => absurd e (g k hk).2⟩
    case isFalse hp => exact ⟨fun _ k hk => ⟨fun e => hw ⟨k, hk, e⟩, fun e => hp ⟨k, hk, e⟩⟩, fun _ => rfl⟩

/-- R47 at one sector: it lies in the export window and in a private or shared region, and both permit the direction. -/
theorem verdict_remote_eq_ok_iff (im : Image) {acc : Access} (h : acc = .remRead ∨ acc = .remWrite) (k : Nat) :
    verdict im acc k = .ok ↔ ∃ x r, im.window = some x ∧ x.base ≤ k ∧ k < x.base + x.size ∧ x.perm.testBit acc.bit = true ∧
      im.regionAt k = some r ∧ (r.kind = .priv ∨ r.kind = .shared) ∧ r.perm.testBit acc.bit = true := by
  have howner : ∀ c, acc.ownerOk c = true := by rcases h with rfl | rfl <;> exact fun _ => rfl
  cases hr : im.regionAt k with
  | none => simp [verdict, hr]
  | some r =>
    cases hx : im.window with
    | none => rcases h with rfl | rfl <;> simp [verdict, hr, hx]
    | some x =>
      have hv : verdict im acc k = if k < x.base ∨ x.base + x.size ≤ k then .window
          else if ¬ (r.kind = .priv ∨ r.kind = .shared) then .window
          else if x.perm.testBit acc.bit = true ∧ r.perm.testBit acc.bit = true then .ok else .perm := by
        rcases h with rfl | rfl <;> simp [verdict, hr, hx, howner, ite_and]
      rw [hv]
      split_ifs <;> grind

/-! ### What a request is answered with -/

/-- The fault of one direction of a request: one beyond Loam is out of window (R48). -/
def State.directionFault (s : State) (r : RemoteReq) (acc : Access) (n : Nat) : Nat :=
  if s.id.loamMib * 2 ^ 20 ≤ r.addr then 0x0301 else accessFault s.str.live acc r.addr n

/-- The fault that refuses a request, 0 where it is permitted: an atomic needs both directions (R47). -/
def State.requestFault (s : State) (r : RemoteReq) : Nat :=
  match r.op with
  | .read n => s.directionFault r .remRead n
  | .write bs => s.directionFault r .remWrite bs.length
  | .poison => s.directionFault r .remWrite 64
  | .atomic q =>
    let rd := s.directionFault r .remRead (atomBytes q)
    let wr := s.directionFault r .remWrite (atomBytes q)
    if rd = 0x0301 ∨ wr = 0x0301 then 0x0301 else if rd ≠ 0 then rd else wr

theorem State.directionFault_inside {s : State} {r : RemoteReq} (h : r.addr < s.id.loamMib * 2 ^ 20) (acc : Access) (n : Nat) :
    s.directionFault r acc n = accessFault s.str.live acc r.addr n := if_neg (by omega)

/-- A refused request changes nothing but that it is answered with its fault. -/
theorem acceptAccess_refused {s : State} {r : RemoteReq} (h : s.requestFault r ≠ 0) :
    acceptAccess r s = s.send (.accessAnswer r.cluster.val .ack (s.requestFault r)) := by
  obtain ⟨cl, a, op⟩ := r
  cases op <;> simp only [State.requestFault, State.directionFault] at h ⊢ <;>
    simp only [acceptAccess, decide_eq_true_eq] <;> exact if_pos h

/-- A permitted read whose sector can be read is answered with the sector. -/
theorem acceptAccess_read {s u : State} {r : RemoteReq} {n : Nat} {b : List Byte} (hop : r.op = .read n) (hf : s.requestFault r = 0)
    (hrd : s.loamRead 5 r.addr n = (u, .ok b)) :
    acceptAccess r s = u.send (.accessAnswer r.cluster.val (.data (u.loam.cells.read (r.addr / 64 * 64) 64)) 0) := by
  simp only [State.requestFault, hop, State.directionFault] at hf
  simp only [acceptAccess, hop, decide_eq_true_eq]
  refine (if_neg (not_not.mpr hf)).trans ?_
  simp only [State.remoteRead, hrd]

/-- A permitted write whose sector can be written is done and acknowledged. -/
theorem acceptAccess_write {s u : State} {r : RemoteReq} {bs : List Byte} (hop : r.op = .write bs) (hf : s.requestFault r = 0)
    (hwr : s.loamWrite 5 r.addr bs = (u, 0)) : acceptAccess r s = u.send (.accessAnswer r.cluster.val .ack 0) := by
  simp only [State.requestFault, hop, State.directionFault] at hf
  simp only [acceptAccess, hop, decide_eq_true_eq]
  refine (if_neg (not_not.mpr hf)).trans ?_
  simp only [hwr, if_true]

/-- A permitted poison write poisons its sector and is acknowledged. -/
theorem acceptAccess_poison {s : State} {r : RemoteReq} (hop : r.op = .poison) (hf : s.requestFault r = 0) :
    acceptAccess r s = (s.poisonSectors [r.addr / 64]).send (.accessAnswer r.cluster.val .ack 0) := by
  simp only [State.requestFault, hop, State.directionFault] at hf
  simp only [acceptAccess, hop, decide_eq_true_eq]
  exact if_neg (not_not.mpr hf)

/-- A permitted atomic whose word can be read answers the old word. -/
theorem acceptAccess_atomic {s u : State} {r : RemoteReq} {q : AtomReq} {old : Nat} (hop : r.op = .atomic q) (hf : s.requestFault r = 0)
    (hat : s.loamAtomic 5 r.addr q = (u, .ok old)) :
    acceptAccess r s = u.send (.accessAnswer r.cluster.val (.word (BitVec.ofNat 64 old)) 0) := by
  simp only [State.requestFault, hop, State.directionFault] at hf
  simp only [acceptAccess, hop, decide_eq_true_eq]
  refine (if_neg (not_not.mpr hf)).trans ?_
  simp only [hat]

/-! ### The command -/

/-- At ports that hold nothing a request is accepted at once. -/
theorem exec_remoteAccess {s : State} {r : RemoteReq} (hp : s.portsHeld = false) (hr : reqWf r = true) :
    exec (.remoteAccess r) s = .next (acceptAccess r s).activate :=
  State.row_checked hr (State.row_arrive hp (.access r))

/-- A request whose effect `u` lies in Loam, its error state and counts alone, and that is answered: the command leaves Loam as `u` has it,
every synchronization counter as it was, and one output more. -/
theorem exec_remoteAccess_of_answer {s u : State} {r : RemoteReq} {o : Output} (hp : s.portsHeld = false) (hr : reqWf r = true)
    (hu : Touched s u) (h : acceptAccess r s = u.send o) :
    ∃ t, exec (.remoteAccess r) s = .next t ∧ t.loam = u.loam ∧ t.syn = s.syn ∧ t.out = s.out ++ [o] := by
  refine ⟨_, exec_remoteAccess hp hr, ?_⟩
  rw [h]
  simp [State.send, hu.syn, hu.out]

/-- Settles O44: the first clause is R47 sector by sector; every other clause is one answer of `acceptAccess`. -/
theorem requestsFromOutside : Obligations.RequestsFromOutside := by
  unfold Obligations.RequestsFromOutside
  refine ⟨fun im p a n hmem => ?_, fun s hp => ⟨?_, ?_, ?_, ?_, ?_⟩⟩
  · obtain ⟨hacc, hbit⟩ : (p.1 = .remRead ∨ p.1 = .remWrite) ∧ p.2 = p.1.bit := by
      revert p; decide
    rw [accessFault_eq_zero_iff, hbit]
    exact forall₂_congr fun k _ => verdict_remote_eq_ok_iff im hacc k
  · intro r n u b hr hop ha hf hrd
    have hu : Touched s u := by simpa [hrd] using Touched.loamRead s 5 r.addr n
    have h0 : s.requestFault r = 0 := by simp [State.requestFault, hop, State.directionFault_inside ha, hf]
    exact exec_remoteAccess_of_answer hp hr hu (acceptAccess_read hop h0 hrd)
  · intro r bs u hr hop ha hf hwr
    have hu : Touched s u := by simpa [hwr] using Touched.loamWrite s 5 r.addr bs
    have h0 : s.requestFault r = 0 := by simp [State.requestFault, hop, State.directionFault_inside ha, hf]
    exact exec_remoteAccess_of_answer hp hr hu (acceptAccess_write hop h0 hwr)
  · intro r hr hop ha hf
    have h0 : s.requestFault r = 0 := by simp [State.requestFault, hop, State.directionFault_inside ha, hf]
    exact exec_remoteAccess_of_answer hp hr ⟨_, _, _, _, rfl⟩ (acceptAccess_poison hop h0)
  · intro r q u old hr hop ha hrd hwr hat
    have hu : Touched s u := by simpa [hat] using Touched.loamAtomic s 5 r.addr q
    have h0 : s.requestFault r = 0 := by simp [State.requestFault, hop, State.directionFault_inside ha, hrd, hwr]
    exact exec_remoteAccess_of_answer hp hr hu (acceptAccess_atomic hop h0 hat)
  · intro r f hr hf fault hcase
    have e : s.requestFault r = f := by
      rcases hcase with ⟨n, hop, rfl⟩ | ⟨bs, hop, rfl⟩ | ⟨hop, rfl⟩ | ⟨q, hop, rfl⟩ <;> simp only [State.requestFault, hop] <;> rfl
    subst e
    exact exec_remoteAccess_of_answer hp hr (Touched.refl s) (acceptAccess_refused hf)

end Sys2Proof.Machine
end

section
/-! PROOFS. The start of a DMA descriptor: when the head of a channel starts, when it waits, and what its start changes (R212, R220). -/

namespace Sys2Proof.Machine

/-- The channel has issued the last source read of the descriptor that it started last, if one still runs (R212). -/
def Channel.ReadsIssued (c : Channel) : Prop := ∀ p, c.run.getLast? = some p → p.readsDone = true

/-- The line of an armed descriptor holds a pulse, and of the channels that wait armed on it, channel `ch` came first (R220). -/
def State.HasTurn (s : State) (ch : Nat) (d : Desc) : Prop :=
  0 < s.ev d.evIn ∧ (s.dma.armed.find? fun k => ((s.chan k).queue.head?.map fun q => q.desc.evIn) == some d.evIn) = some ch

/-- The head `r` runs, `rest` stays queued, and an armed `r` has taken its pulse and no longer waits. -/
def State.headRuns (s : State) (ch : Nat) (r : DescRun) (rest : List DescRun) : State :=
  let c := s.chan ch
  let t := s.setChan ch { c with queue := rest, run := c.run ++ [r], doneFree := none }
  if r.desc.armed then
    { t with dma := { t.dma with ev := tabSet t.dma.ev r.desc.evIn (s.ev r.desc.evIn - 1), armed := setErase t.dma.armed ch } }
  else t

section
variable (s : State) (ch : Nat) (r : DescRun) (rest : List DescRun)

@[simp] theorem State.headRuns_chan : (s.headRuns ch r rest).chan ch =
    { s.chan ch with queue := rest, run := (s.chan ch).run ++ [r], doneFree := none } := by
  refine (State.chan_of ?_ ch).trans (State.chan_setChan s ch _)
  unfold State.headRuns
  split <;> rfl

@[simp] theorem State.headRuns_loam : (s.headRuns ch r rest).loam = s.loam := by
  unfold State.headRuns
  split <;> rfl

theorem State.headRuns_ev_of_not_armed (ha : r.desc.armed = false) : (s.headRuns ch r rest).dma.ev = s.dma.ev := by
  simp [State.headRuns, ha, State.setChan]

theorem State.headRuns_ev_of_armed (ha : r.desc.armed = true) :
    (s.headRuns ch r rest).dma.ev = tabSet s.dma.ev r.desc.evIn (s.ev r.desc.evIn - 1) := by
  simp [State.headRuns, ha, State.setChan]

end

/-! ### When the head starts and when it waits -/

section
variable {s : State} {ch : Nat} {r : DescRun} {rest : List DescRun}

theorem descStart_eq_some (hq : (s.chan ch).queue = r :: rest) (hen : (s.chan ch).en = true) (hrun : (s.chan ch).ReadsIssued)
    (hturn : r.desc.armed = true → s.HasTurn ch r.desc) :
    descStart ch s = some ((((s.headRuns ch r rest).noteHead ch).unblock 13).emit 3 .start (whoByte r.who) 32 [ch, r.desc.src, r.desc.dst]) := by
  have hgo : (!r.desc.armed || (decide (0 < s.ev r.desc.evIn) &&
      (s.dma.armed.find? fun k => ((s.chan k).queue.head?.map fun q => q.desc.evIn) == some r.desc.evIn) == some ch)) = true := by
    cases ha : r.desc.armed with
    | false => rfl
    | true =>
      obtain ⟨hev, hfirst⟩ := hturn ha
      simp [hev, hfirst]
  unfold descStart
  cases hlast : (s.chan ch).run.getLast? with
  | none => simp [hq, hen, hlast, hgo, State.headRuns]
  | some p => simp [hq, hen, hlast, hgo, hrun p hlast, State.headRuns]

/-- An armed head waits while its line holds no pulse (R220). -/
theorem descStart_eq_none_of_no_pulse (hq : (s.chan ch).queue = r :: rest) (ha : r.desc.armed = true) (hev : s.ev r.desc.evIn = 0) :
    descStart ch s = none := by
  simp [descStart, hq, ha, hev]

/-- The head waits while the descriptor before it still has reads to issue (R212). -/
theorem descStart_eq_none_of_reads_left {p : DescRun} (hp : (s.chan ch).run.getLast? = some p) (hd : p.readsDone = false) :
    descStart ch s = none := by
  unfold descStart
  cases hq : (s.chan ch).queue with
  | nil => simp [hq]
  | cons r rest => simp [hq, hp, hd]

end

/-! ### The command -/

section
variable {s : State} {ch : Fin 32} {r : DescRun} {rest : List DescRun}

/-- A command whose head may start leaves the channel and the event lines as `headRuns` has them, and Loam as it was. -/
theorem exec_descriptorStart_starts (hf : s.fastOn = true) (hq : (s.chan ch.val).queue = r :: rest) (hen : (s.chan ch.val).en = true)
    (hrun : (s.chan ch.val).ReadsIssued) (hturn : r.desc.armed = true → s.HasTurn ch.val r.desc) :
    ∃ t, exec (.descriptorStart ch) s = .next t ∧ t.chan ch.val = (s.headRuns ch.val r rest).chan ch.val ∧
      t.dma.ev = (s.headRuns ch.val r rest).dma.ev ∧ t.loam = s.loam := by
  refine ⟨_, State.row_fast hf (descStart_eq_some hq hen hrun hturn), ?_, by simp, by simp⟩
  rw [State.chan_activate, ← State.noteHead_chan (s.headRuns ch.val r rest) ch.val]
  exact State.chan_of (by simp) _

theorem exec_descriptorStart_waits (h : descStart ch.val s = none) : exec (.descriptorStart ch) s = .next s :=
  State.row_fast_none h

end

/-- Settles O33: the head starts when R212 and R220 let it, and otherwise the command changes nothing. -/
theorem descriptorsStart : Obligations.DescriptorsStart := by
  unfold Obligations.DescriptorsStart
  refine fun ch s r rest hf hq hen => ⟨?_, ?_, ?_, ?_⟩
  · intro hrun ha
    obtain ⟨t, hx, hch, hev, hl⟩ := exec_descriptorStart_starts hf hq hen hrun (by simp [ha])
    exact ⟨t, hx, by simp [hch], by simp [hch], hev.trans (State.headRuns_ev_of_not_armed s ch.val r rest ha), hl⟩
  · intro hrun ha hpulse hfirst
    obtain ⟨t, hx, hch, hev, -⟩ := exec_descriptorStart_starts hf hq hen hrun fun _ => ⟨hpulse, hfirst⟩
    refine ⟨t, hx, by simp [hch], by simp [hch], ?_⟩
    rw [State.ev, hev, State.headRuns_ev_of_armed s ch.val r rest ha, tabGet_tabSet_self]
  · exact fun ha hev => exec_descriptorStart_waits (descStart_eq_none_of_no_pulse hq ha hev)
  · exact fun p hp hd => exec_descriptorStart_waits (descStart_eq_none_of_reads_left hp hd)

end Sys2Proof.Machine
end

section
/-! PROOFS. The machine as a whole: every command answers, every step keeps the straps and the soundness of the state, what happens in
Off and on an empty queue, and the values after reset. -/

namespace Sys2Proof.Machine

/-! ### Rows -/

/-- A command whose operands no sender can give changes nothing: each such row checks just what `wellFormed` asks. -/
theorem exec_ill_formed {c : Instr} (s : State) (h : c.wellFormed = false) : exec c s = .next s := by
  cases c with
  | passEnd | messageArrival | memoryResponse | remoteRefusal | remoteAccess | scrub | registerWrite | registerRead | traceDrain =>
    simp only [exec, execPassEnd, execMessageArrival, execMemoryResponse, execRemoteRefusal, execRemoteAccess, execScrub, execRegisterWrite,
      execRegisterRead, execTraceDrain]
    exact State.checked_bad h
  | _ => cases h

/-- Settles O1: it is the second arm of `step`. -/
theorem stepTakesFront : Obligations.StepTakesFront := by
  unfold Obligations.StepTakesFront
  intro c rest s h
  rw [step, h]

/-- Settles O3: `exec_kept` gives the next state, `exec_ill_formed` the rest. -/
theorem commandsComplete : Obligations.CommandsComplete := by
  unfold Obligations.CommandsComplete
  intro c s
  obtain ⟨t, ht, -⟩ := (exec_kept c s).get
  exact ⟨⟨t, ht⟩, exec_ill_formed s⟩

/-- Settles O4, by what every operation keeps (`step_kept`). -/
theorem stepKeepsSound : Obligations.StepKeepsSound := by
  unfold Obligations.StepKeepsSound
  intro s t hs h
  obtain ⟨-, -, hsound⟩ := step_kept h
  exact hsound hs

/-- Settles O5, by what every operation keeps (`step_kept`). -/
theorem stepKeepsStraps : Obligations.StepKeepsStraps := by
  unfold Obligations.StepKeepsStraps
  intro s t h
  obtain ⟨hid, hpending, -⟩ := step_kept h
  exact ⟨hid, hpending⟩

/-- Settles O7: every command but STARTUP is a row, and a row computes to the state it was given where that is one in Off. -/
theorem offIsStill : Obligations.OffIsStill := by
  unfold Obligations.OffIsStill
  intro c s h hc
  obtain hoff : s = { s with pwr := { s.pwr with state := .off } } := by rw [← h]
  rw [hoff]
  cases c with
  | startup => exact absurd rfl hc
  | _ => rfl

/-! ### The empty queue -/

/-- A tick without a swap on its way changes nothing of a swap but that one may begin (R35). -/
theorem State.swapTick_of_none {s : State} (h : s.str.swap = none) :
    ∃ w, s.swapTick = { s with str := { s.str with swap := w } } := by
  unfold State.swapTick
  rw [h]
  dsimp only
  split
  · exact ⟨_, rfl⟩
  · exact ⟨none, by rw [← h]⟩

@[simp] theorem State.swap_timeStamp (s : State) : s.timeStamp.str.swap = s.str.swap := by
  unfold State.timeStamp
  split <;> rfl

/-- Settles O2, by what a tick is but for a swap (`State.tick_eq`). -/
theorem emptyQueueTicks : Obligations.EmptyQueueTicks := by
  unfold Obligations.EmptyQueueTicks
  intro s hq
  have hstep : step s = .next s.tick := by rw [step, hq]
  refine ⟨fun hoff => ?_, fun hon hswap => ?_⟩
  · rw [hstep, State.tick, if_pos hoff]
  · obtain ⟨cs, k, d, p, x, o, b, dm, ho, -, -, htick⟩ := State.tick_eq hon
    rw [(State.swapTick_of_none (by simpa [State.timeUnits] using hswap)).choose_spec] at htick
    refine ⟨_, hstep, ?_⟩
    rw [htick]
    unfold State.timeUnits State.timeStamp
    split <;> simp_all [State.imageWhole]

/-! ### Reset -/

/-- Settles O6: each register is read at the reset state. -/
theorem resetValues : Obligations.ResetValues := by
  unfold Obligations.ResetValues
  refine ⟨⟨by decide, by simp [State.reset], by decide, by decide⟩, rfl, rfl, rfl, fun e he => ⟨_, Prod.ext rfl ?_⟩⟩
  revert e
  decide

end Sys2Proof.Machine
end

section
/-! PROOFS. The fetch of an instruction, illegal instructions, and the SEQ instructions of every context (R146, R148 to R151). -/

namespace Sys2Proof.Machine

/-! ### The fetch -/

/-- Where Loam holds no upset and no tag, a fetch decodes the words of the code at the item's offset (R148). -/
theorem State.fetch_reads {s : State} {w : Who} {o : Op} {len : Nat} (hc : s.loam.Clean)
    (hin : (s.item w).off + 16 * (bits (fieldB (s.loam.cells.read ((s.item w).addr + (s.item w).off) 16) 0 4) 11 10 + 1) ≤
      192 + (s.item w).hdr.codeLen)
    (hd : decodeOp w.core.val (s.loam.cells.read ((s.item w).addr + (s.item w).off)
      (16 * (bits (fieldB (s.loam.cells.read ((s.item w).addr + (s.item w).off) 16) 0 4) 11 10 + 1))) = some (o, len)) :
    s.fetch w = (s, .op o len) := by
  have hmin : min (192 + (s.item w).hdr.codeLen - (s.item w).off)
      (16 * (bits (fieldB (s.loam.cells.read ((s.item w).addr + (s.item w).off) 16) 0 4) 11 10 + 1)) =
      16 * (bits (fieldB (s.loam.cells.read ((s.item w).addr + (s.item w).off) 16) 0 4) 11 10 + 1) := by omega
  unfold State.fetch
  dsimp only
  rw [if_neg (by omega), State.loamRead_clean hc]
  dsimp only
  rw [hmin, State.loamRead_clean hc]
  dsimp only
  rw [hd]

/-- Where the code holds no word at the item's offset, nothing decodes (R150). -/
theorem State.fetch_past_code {s : State} {w : Who} (h : 192 + (s.item w).hdr.codeLen < (s.item w).off + 16) :
    s.fetch w = (s, .illegal) := by
  unfold State.fetch
  exact if_pos (by omega)

/-- Settles O8: the two outcomes of the fetch, and what it touches. -/
theorem fetchReadsCode : Obligations.FetchReadsCode := by
  unfold Obligations.FetchReadsCode
  refine ⟨fun w s o len hc hin hd => State.fetch_reads hc hin hd, fun w s => State.fetch_past_code, fun w s => ?_⟩
  obtain ⟨l, e, k, x, h⟩ := Touched.fetch s w
  rw [h]

/-! ### Illegal instructions -/

/-- Whatever an instruction row does with an instruction, at an illegal one the item aborts with CMD_OPCODE and nothing is performed. -/
theorem State.row_issue_illegal {s t : State} {w : Who} (hf : s.fastOn = true) (hi : (s.ctx w).canIssue = true)
    (hd : Damage.item w ∉ s.damage) (h : s.fetch w = (t, .illegal)) (f : Op → Nat → State → Option State) :
    ∃ u, s.row (fun s => s.issue w f) = .next u ∧ (u.ctx w).phase = .aborting ∧
      (u.item w).abort = some { fault := 0x0702, tick := s.ticks, was := (s.item w).waitedAt } ∧ (u.item w).off = (s.item w).off ∧
      (u.item w).sregs = (s.item w).sregs ∧ (u.item w).record.aborted = true ∧ (u.item w).record.fault = 0x0702 ∧ u.loam = t.loam ∧
      u.syn = s.syn := by
  have touched : Touched s t := by simpa [h] using Touched.fetch s w
  have habort : (s.item w).abort = none := by
    simp only [Ctx.canIssue, Bool.and_eq_true, Option.isNone_iff_eq_none] at hi
    exact hi.1.2
  have hctx : ((t.raise w 0x0702 (s.item w).off).activate.ctx w) = { phase := .aborting, item := (s.item w).bears 0x0702 s.ticks } := by
    rw [State.ctx_activate, State.ctx_raise (by rw [touched.ctx]; exact Ctx.canBear_of_canIssue hi), touched.item, touched.ticks]
  refine ⟨_, by rw [State.row_on (State.fastOn_on hf), State.issue_illegal hf hi hd h], ?_⟩
  have hitem := congrArg Ctx.item hctx
  change State.item _ w = _ at hitem
  rw [hctx, hitem]
  simp [Item.boreAt_of_none habort, Item.seenFaults_of_none habort, touched.syn]

/-- Settles O9: every row of the list is the issue of its context's next instruction. -/
theorem illegalInstructionAborts : Obligations.IllegalInstructionAborts := by
  unfold Obligations.IllegalInstructionAborts
  intro w s t hf hi hd h c hc
  simp only [List.mem_cons, List.not_mem_nil, or_false] at hc
  rcases hc with rfl | rfl | rfl | rfl | rfl | rfl | rfl | rfl | rfl | rfl | rfl | rfl | rfl | rfl | rfl | rfl | rfl | rfl | rfl | rfl |
    rfl | rfl | rfl | rfl | rfl | rfl | rfl <;> exact State.row_issue_illegal hf hi hd h _

/-! ### SEQ.END, SEQ.NOP and SEQ.FENCE -/

/-- Going on replaces the item's context, and notes that the sequencer worked (log 12). -/
theorem State.advance_eq (s : State) (w : Who) (len : Nat) :
    s.advance w len = { s.setCtx w { s.ctx w with item := (s.item w).gone len } with
      moved := if s.moved.contains (0, (s.item w).no) then s.moved else s.moved ++ [(0, (s.item w).no)] } := by
  unfold State.advance State.work
  rw [State.modItem_moved]
  by_cases h : s.moved.contains (0, (s.item w).no) = true
  · rw [if_pos h, if_pos h]
    rfl
  · rw [if_neg h, if_neg h]
    rfl

theorem State.core_advance_self (s : State) (w : Who) (len : Nat) :
    (s.advance w len).core w.core.val = (s.core w.core.val).setCtx w.ctx { s.ctx w with item := (s.item w).gone len } := by
  rw [State.advance, State.core_work]
  exact State.core_modCore_self ..

theorem State.core_advance_ne (s : State) {w : Who} (len : Nat) {c : Nat} (h : c ≠ w.core.val) : (s.advance w len).core c = s.core c := by
  rw [State.advance, State.core_work]
  exact State.core_modCore_ne _ _ h

/-- A fence whose conditions hold goes on. -/
theorem fenceStep_passes {s : State} {w : Who} {a v : Bool} (len : Nat) (ha : a = true → s.itemJobs w = [])
    (hv : v = true → ∀ j ∈ s.itemJobs w, j.epi = []) : fenceStep w len a v s = some (s.advance w len) := by
  refine if_neg ?_
  simp only [Bool.or_eq_true, Bool.and_eq_true, Bool.not_eq_true', List.isEmpty_eq_false_iff, List.any_eq_true]
  rintro (⟨h, g⟩ | ⟨h, j, hj, g⟩)
  · exact g (ha h)
  · exact g (hv h j hj)

/-- A fence waits for the matrix instructions or the vector work that it names. -/
theorem fenceStep_waits {s : State} {w : Who} {a v : Bool} (len : Nat)
    (h : (a = true ∧ s.itemJobs w ≠ []) ∨ (v = true ∧ ∃ j ∈ s.itemJobs w, j.epi ≠ [])) : fenceStep w len a v s = none := by
  refine if_pos ?_
  simpa only [Bool.or_eq_true, Bool.and_eq_true, Bool.not_eq_true', List.isEmpty_eq_false_iff, List.any_eq_true] using h

/-- Settles O10: each row at its own instruction, and what `State.advance` is. -/
theorem sequencerInstructions : Obligations.SequencerInstructions := by
  unfold Obligations.SequencerInstructions
  intro w s t len
  refine ⟨fun h => ?_, fun h => State.row_issue h rfl, ?_, fun a v h => ⟨fun ⟨ha, hv⟩ => ?_, fun hwait => ?_⟩⟩
  · rw [← h.touched.item]
    exact State.row_issue h rfl
  · rintro gone rfl
    exact ⟨State.advance_eq t w len, State.ctx_advance_self t w len, fun v => State.ctx_advance_ne t len, State.core_advance_self t w len,
      fun c => State.core_advance_ne t len⟩
  · rw [← h.touched.itemJobs] at ha hv
    exact State.row_issue h (fenceStep_passes len ha hv)
  · rw [← h.touched.itemJobs] at hwait
    exact State.row_issue_none h (fenceStep_waits len hwait)

end Sys2Proof.Machine
end

section
/-! PROOFS. Commands put in a core's queues: the pre-emption request of an urgent one, and SEQ.ENQ (R141, R157, R160). -/

namespace Sys2Proof.Machine

/-! ### Requests to pre-empt -/

/-- A pre-emption request changes no context of the control core (R157). -/
theorem State.ctx_requestPreempt_control (s : State) (c : Nat) (x : CtxKind) : (s.requestPreempt c).ctx (sclWho x) = s.ctx (sclWho x) := by
  have other {f : Core → Core} (hc : c < 4) : (s.modCore c f).ctx (sclWho x) = s.ctx (sclWho x) := by
    have h4 : (sclWho x).core.val ≠ c := Nat.ne_of_gt hc
    rw [State.ctx, State.core_modCore_ne _ _ h4, ← State.ctx]
  unfold State.requestPreempt
  dsimp only
  split
  · rfl
  · rename_i h
    have hc : c < 4 := Nat.lt_of_not_le fun g => h (.inl g)
    split
    · exact other hc
    · exact other hc
    · rfl

@[simp] theorem State.uq_requestPreempt (s : State) (c : Nat) : ((s.requestPreempt c).core c).uq = (s.core c).uq := by
  unfold State.requestPreempt
  dsimp only
  repeat' split
  all_goals simp

/-- A pre-emption request leaves the normal queue alone but for a command that waits for its ranges (R157). -/
theorem State.nq_requestPreempt {s : State} {c : Nat} (h : (s.core c).cmd.phase ≠ .waitRange) :
    ((s.requestPreempt c).core c).nq = (s.core c).nq := by
  unfold State.requestPreempt
  dsimp only
  repeat' split
  all_goals simp_all

/-- The running normal command of a compute core is asked to pre-empt (R157). -/
theorem State.cmd_requestPreempt {s : State} {c : Nat} (hc : c < 4) (hr : (s.core c).cmd.phase = .running)
    (hu : (s.core c).cmd.item.urgent = false) (ha : (s.core c).cmd.item.abort = none) (hs : (s.core c).saved = none) :
    ((s.requestPreempt c).core c).cmd = { (s.core c).cmd with phase := .preempting } := by
  unfold State.requestPreempt
  simp [hr, hu, ha, hs, Nat.not_le.mpr hc]

/-! ### A command joins a queue -/

section
variable (s : State) (c : Nat) (e : QEntry)

/-- What an enqueue leaves alone beside the cores. -/
theorem State.enqueue_frame (urgent : Bool) : (s.enqueue c urgent e).loam = s.loam ∧ (s.enqueue c urgent e).syn = s.syn ∧
    (s.enqueue c urgent e).out = s.out := by
  unfold State.enqueue
  dsimp only
  split <;> simp

theorem State.enqueue_normal : ((s.enqueue c false e).core c).nq = (s.core c).nq ++ [e] ∧
    ((s.enqueue c false e).core c).uq = (s.core c).uq ∧ ((s.enqueue c false e).core c).cmd = (s.core c).cmd := by
  simp [State.enqueue]

theorem State.enqueue_urgent_uq : ((s.enqueue c true e).core c).uq = (s.core c).uq ++ [e] := by
  simp [State.enqueue]

theorem State.enqueue_urgent_nq (h : (s.core c).cmd.phase ≠ .waitRange) : ((s.enqueue c true e).core c).nq = (s.core c).nq := by
  simp only [State.enqueue, if_true]
  rw [State.nq_requestPreempt] <;> simp [h]

theorem State.enqueue_urgent_cmd (hc : c < 4) (hr : (s.core c).cmd.phase = .running) (hu : (s.core c).cmd.item.urgent = false)
    (ha : (s.core c).cmd.item.abort = none) (hs : (s.core c).saved = none) :
    ((s.enqueue c true e).core c).cmd = { (s.core c).cmd with phase := .preempting } := by
  simp only [State.enqueue, if_true]
  rw [State.cmd_requestPreempt hc] <;> simp [hr, hu, ha, hs]

/-- The contexts of the control core go on as they were. -/
theorem State.ctx_enqueue_control (urgent : Bool) (x : CtxKind) : (s.enqueue c urgent e).ctx (sclWho x) = s.ctx (sclWho x) := by
  have fresh : (s.modCore c fun x => { x with sleepSaving := false, idleTicks := 0 }).ctx (sclWho x) = s.ctx (sclWho x) :=
    State.ctx_modCore_of s (f := fun x => { x with sleepSaving := false, idleTicks := 0 }) (fun _ => ⟨rfl, rfl⟩) _
  cases urgent with
  | false =>
    exact (State.ctx_modCore_of _ (f := fun x => { x with nq := x.nq ++ [e] }) (fun _ => ⟨rfl, rfl⟩) _).trans fresh
  | true =>
    refine (State.ctx_requestPreempt_control _ c x).trans ?_
    exact (State.ctx_modCore_of _ (f := fun x => { x with uq := x.uq ++ [e] }) (fun _ => ⟨rfl, rfl⟩) _).trans fresh

end

/-! ### SEQ.ENQ -/

/-- The entry that an item of the control core enqueues: with its own privilege, and its JOB where it is no supervisor (R142). -/
def Item.entry (i : Item) (a : Nat) : QEntry := ⟨a, i.sup, if i.sup then none else some i.hdr.job⟩

section
variable {s t : State} {x : CtxKind} {len core c a : Nat} {urgent : Bool}

/-- SEQ.ENQ to a queue with room: the entry joins it and the item goes on. -/
theorem exec_seqEnq (h : s.Issues (sclWho x) t (.enq core urgent a) len) (ha : a % 64 = 0) (hl : s.str.live.logical[core]? = some c)
    (hroom : (s.core c).roomFor urgent = true) :
    exec (.seqEnq x) s = .next ((t.enqueue c urgent ((s.item (sclWho x)).entry a)).advance (sclWho x) len).activate := by
  refine State.row_issue h ?_
  simp [enqStep, ha, h.touched.str, hl, h.touched.core, hroom, h.touched.item, Item.entry]

/-- After SEQ.ENQ the item stands behind it, and nothing but cores has changed. -/
theorem exec_seqEnq_frame (h : s.Issues (sclWho x) t (.enq core urgent a) len) (e : QEntry) :
    let u := ((t.enqueue c urgent e).advance (sclWho x) len).activate
    (u.item (sclWho x)).off = (s.item (sclWho x)).off + len ∧ u.loam = t.loam ∧ u.syn = s.syn ∧ u.out = s.out := by
  obtain ⟨hloam, hsyn, hout⟩ := t.enqueue_frame c e urgent
  have hoff : (t.enqueue c urgent e).item (sclWho x) = s.item (sclWho x) := by
    rw [State.item, State.ctx_enqueue_control, ← State.item, h.touched.item]
  exact ⟨by simp [hoff], by simp [hloam], by simp [hsyn, h.touched.syn], by simp [hout, h.touched.out]⟩

end

/-- Settles O11: what an enqueue changes of the core, and the outcomes of `enqStep`. -/
theorem enqueueFromControlCore : Obligations.EnqueueFromControlCore := by
  unfold Obligations.EnqueueFromControlCore
  refine ⟨fun x s t len core c a h ha hl hroom => ?_, fun x s t len core c a h ha hl hroom => ?_, fun x s t len core a urgent h => ?_⟩
  · obtain ⟨hnq, huq, hcmd⟩ := t.enqueue_normal c ((s.item (sclWho x)).entry a)
    have hcore := h.touched.core c
    refine ⟨_, exec_seqEnq h ha hl (by simpa [Core.roomFor] using hroom), ?_, ?_, fun hc => ?_, exec_seqEnq_frame h _⟩
    · rw [State.core_activate, State.nq_advance, hnq, hcore, Item.entry]
    · rw [State.core_activate, State.uq_advance, huq, hcore]
    · rw [State.core_activate, State.core_advance_ne _ _ hc, hcmd, hcore]
  · have hcore := h.touched.core c
    refine ⟨_, exec_seqEnq h ha hl (by simpa [Core.roomFor] using hroom), ?_, fun hp => ?_, fun hc hr hu hab hs => ?_,
      exec_seqEnq_frame h _⟩
    · rw [State.core_activate, State.uq_advance, State.enqueue_urgent_uq, hcore, Item.entry]
    · rw [State.core_activate, State.nq_advance, State.enqueue_urgent_nq _ _ _ (by rwa [hcore]), hcore]
    · rw [← hcore] at hr hu hab hs
      rw [State.core_activate, State.core_advance_ne _ _ (Nat.ne_of_lt hc), State.enqueue_urgent_cmd _ _ _ hc hr hu hab hs, hcore]
  · refine ⟨fun ha => State.row_issue h ?_, fun ha hl => State.row_issue h ?_, fun c ha hl hfull => State.row_issue h ?_⟩
    · simp [enqStep, ha]
    · simp [enqStep, ha, h.touched.str, hl]
    · simp [enqStep, ha, h.touched.str, hl, h.touched.core, hfull, State.block]

end Sys2Proof.Machine
end

section
/-! PROOFS. The scalar registers, arithmetic and branches (R154, R155), and the scalar accesses to registers (R199, R256). -/

namespace Sys2Proof.Machine

/-! ### Registers -/

@[simp] theorem Item.reg_zero (i : Item) : i.reg 0 = 0 := rfl

theorem Item.reg_setReg_self {r : Nat} (i : Item) (v : Word64) (h : r ≠ 0) : (i.setReg r v).reg r = v := by
  simp [Item.reg, Item.setReg, h]

theorem Item.reg_setReg_ne {r q : Nat} (i : Item) (v : Word64) (h : q ≠ r) : (i.setReg r v).reg q = i.reg q := by
  unfold Item.setReg
  split
  · rfl
  · simp [Item.reg, tabGet_tabSet_ne _ _ _ h]

/-- Settles O12, from what a write leaves of each register. -/
theorem scalarRegisters : Obligations.ScalarRegisters := by
  unfold Obligations.ScalarRegisters
  exact fun i r q v => ⟨i.reg_zero, rfl, i.reg_setReg_self v, i.reg_setReg_ne v⟩

/-! ### Arithmetic and branches -/

section
variable {x : CtxKind} {s t : State} {o sd sa sb : Nat} {imm : Word64} {vol : Bool}

/-- `sclAlu_next` with the result written as the rule writes it. -/
theorem sclAlu_gives {f : Word64 → Word64 → Word64} {v : Word64} (h : s.Issues (sclWho x) t (.scl o sd sa sb imm vol) 16)
    (hv : f ((s.item (sclWho x)).reg sa) ((s.item (sclWho x)).reg sb + imm) = v) :
    s.row (fun s => s.scl x o (aluStep f)) = .next ((t.modItem (sclWho x) fun i => i.setReg sd v).advance (sclWho x) 16).activate := by
  rw [← hv]
  exact sclAlu_next h

/-- The three outcomes of a branch whose comparison is `p`. -/
theorem sclBranch_goes {f : Word64 → Word64 → Bool} {p : Prop} (h : s.Issues (sclWho x) t (.scl o sd sa sb imm vol) 16)
    (hf : f ((s.item (sclWho x)).reg sa) ((s.item (sclWho x)).reg sb) = true ↔ p) :
    let w := sclWho x
    let good := 192 ≤ imm.toNat ∧ imm.toNat < 192 + (s.item w).hdr.codeLen ∧ imm.toNat % 16 = 0
    let r := s.row (fun s => s.scl x o (branchStep f))
    (good → p → r = .next ((t.modItem w fun i => { i with off := imm.toNat, blocked := none }).work 0 (s.item w).no).activate) ∧
    (good → ¬ p → r = .next ((t.modItem w fun i => { i with off := i.off + 16, blocked := none }).work 0 (s.item w).no).activate) ∧
    (¬ good → r = .next (t.raise w 0x0702 (s.item w).off).activate) := by
  refine ⟨fun hg hp => ?_, fun hg hp => ?_, fun hg => ?_⟩
  · rw [sclBranch_next h, if_pos hg]
    simp only [hf.mpr hp, if_true]
  · rw [sclBranch_next h, if_pos hg]
    simp only [mt hf.mp hp, if_false, Bool.false_eq_true]
  · rw [sclBranch_next h, if_neg hg]

end

/-- Settles O13: each row is `aluStep` of its operation; multiplication and the comparisons are read as the rule writes them. -/
theorem scalarArithmetic : Obligations.ScalarArithmetic := by
  unfold Obligations.ScalarArithmetic
  intro x s t sd sa sb imm vol
  dsimp only
  refine ⟨sclAlu_next, sclAlu_next, sclAlu_next, sclAlu_next, sclAlu_next, sclAlu_next, sclAlu_next, sclAlu_next, fun h => ?_, fun h => ?_,
    fun h => ?_⟩
  · exact sclAlu_gives h (BitVec.mul_def ..)
  · exact sclAlu_gives h (by simp only [BitVec.slt_iff_toInt_lt])
  · exact sclAlu_gives h (by simp only [BitVec.ult_iff_lt, BitVec.lt_def])

/-- Settles O14: each row is `branchStep` of its comparison. -/
theorem scalarBranches : Obligations.ScalarBranches := by
  unfold Obligations.ScalarBranches
  intro x s t sd sa sb imm vol
  dsimp only
  refine ⟨fun h => ?_, fun h => ?_, fun h => ?_, fun h => ?_, fun h => ?_⟩
  · exact sclBranch_goes h beq_iff_eq
  · exact sclBranch_goes h bne_iff_ne
  · exact sclBranch_goes h BitVec.slt_iff_toInt_lt
  · exact sclBranch_goes h (by rw [Bool.not_eq_true', ← Bool.not_eq_true, BitVec.slt_iff_toInt_lt, Int.not_lt])
  · exact sclBranch_goes h (by simp)

/-! ### RDREG and WRREG -/

theorem Touched.released {s t : State} (h : Touched s t) (no scope : Nat) : t.released no scope = s.released no scope := by
  unfold State.released
  rw [h.port]

/-- SA + IMM of a scalar access (R155). -/
def Item.sclAddr (i : Item) (a : SclArgs) : Nat := (i.reg a.sa + a.imm).toNat

section
variable {w : Who} {a : SclArgs} {s u : State} {sd off v f : Nat} {k : Width}

theorem rdregStep_aligned (h : (s.item w).sclAddr a % 8 = 0) : rdregStep w a s = ownRegRead w a.sd ((s.item w).sclAddr a) .b8 s :=
  if_neg (not_not.mpr h)

theorem wrregStep_aligned (h : (s.item w).sclAddr a % 8 = 0) :
    wrregStep w a s = ownRegWrite w ((s.item w).sclAddr a) .b8 ((s.item w).reg a.sb).toNat s := if_neg (not_not.mpr h)

theorem ownRegRead_ok (h : s.regRead (s.ownAcc w) off k = (u, .ok v)) :
    ownRegRead w sd off k s = some ((u.modItem w fun i => i.setReg sd (BitVec.ofNat 64 v)).advance w 16) := by
  unfold ownRegRead
  dsimp only
  rw [h]

theorem ownRegRead_bad (h : s.regRead (s.ownAcc w) off k = (u, .bad f)) : ownRegRead w sd off k s = some (u.raise w f off) := by
  unfold ownRegRead
  dsimp only
  rw [h]

/-- A write of the own register block that may go (R199) and is done: the item goes on. -/
theorem ownRegWrite_done (hc : (s.ctx w).canIssue = true)
    (hgo : arriveStore off = false ∨ s.released (s.item w).no 2 = true)
    (hw : regWriteWith allBlocks s (s.ownAcc w) off k v = (u, 0)) (hi : u.item w = s.item w) (hx : u.ctx w = s.ctx w) :
    ownRegWrite w off k v s = some (u.advance w 16) := by
  have hphase : (s.ctx w).phase ≠ .idle := fun e => by simp [Ctx.canIssue, e] at hc
  have habort : (s.item w).abort.isNone = true := by
    simp only [Ctx.canIssue, Bool.and_eq_true] at hc
    exact hc.1.2
  unfold ownRegWrite
  dsimp only
  rw [if_neg (by rcases hgo with h | h <;> simp [h]), hw]
  simp only [ne_eq, not_true_eq_false, if_false, State.goOn]
  rw [if_pos ⟨by rw [hi], by rw [hx]; exact hphase, by rw [hi]; exact habort⟩]

/-- A write of the own register block that may go and is refused: the item bears the fault. -/
theorem ownRegWrite_refused (hgo : arriveStore off = false ∨ s.released (s.item w).no 2 = true)
    (hw : regWriteWith allBlocks s (s.ownAcc w) off k v = (u, f)) (hf : f ≠ 0) : ownRegWrite w off k v s = some (u.raise w f off) := by
  unfold ownRegWrite
  dsimp only
  rw [if_neg (by rcases hgo with h | h <;> simp [h]), hw]
  simp only [ne_eq, hf, not_false_eq_true, if_true]

/-- A write of SYN_ARRIVE waits for the earlier writes of its item (R199). -/
theorem ownRegWrite_waits (hgo : ¬ (arriveStore off = false ∨ s.released (s.item w).no 2 = true)) : ownRegWrite w off k v s = some (s.block w 10) := by
  refine if_pos ?_
  simpa only [not_or, Bool.not_eq_false, Bool.not_eq_true', Bool.not_eq_true] using hgo

end

/-- Settles O18, by what `ownRegRead` and `ownRegWrite` do. -/
theorem registerInstructions : Obligations.RegisterInstructions := by
  unfold Obligations.RegisterInstructions
  intro x s t u sd sa sb imm vol w off goes hoff
  have addr {o len} (h : s.Issues w t o len) : (t.item w).sclAddr ⟨sd, sa, sb, imm, vol⟩ = off := by rw [h.touched.item w]; rfl
  have read {o} (h : s.Issues w t o 16) : rdregStep w ⟨sd, sa, sb, imm, vol⟩ t = ownRegRead w sd off .b8 t := by
    rw [rdregStep_aligned (by rw [addr h]; exact hoff), addr h]
  have write {o} (h : s.Issues w t o 16) : wrregStep w ⟨sd, sa, sb, imm, vol⟩ t = ownRegWrite w off .b8 ((s.item w).reg sb).toNat t := by
    rw [wrregStep_aligned (by rw [addr h]; exact hoff), addr h, h.touched.item]
  have may {o} (h : s.Issues w t o 16) : goes ↔ arriveStore off = false ∨ t.released (t.item w).no 2 = true := by
    rw [h.touched.released, h.touched.item]
  refine ⟨fun v h hr => sclRow_next h ((read h).trans (ownRegRead_ok hr)), fun f h hr => sclRow_next h ((read h).trans (ownRegRead_bad hr)),
    fun h hg hw hi hx => ?_, fun f hf h hg hw => ?_, fun h hg => ?_⟩
  · exact sclRow_next h ((write h).trans (ownRegWrite_done (by rw [h.touched.ctx]; exact h.ready) ((may h).mp hg) hw hi hx))
  · exact sclRow_next h ((write h).trans (ownRegWrite_refused ((may h).mp hg) hw hf))
  · refine ⟨_, sclRow_next h ((write h).trans (ownRegWrite_waits (mt (may h).mpr hg))), ?_⟩
    simp [State.block, h.touched.item, h.touched.syn, w]

end Sys2Proof.Machine
end

section
/-! PROOFS. Scalar loads and stores: to the own Loam, to memory outside it, to register blocks, and misaligned ones (R155, R192, R199 to
R201). -/

namespace Sys2Proof.Machine

/-- An address in stack memory or in another cluster's Loam. -/
def Place.Outer (p : Place) : Prop := p = .stack ∨ ∃ k l, p = .other k l

/-! ### An item that asks -/

/-- A transaction's request goes out and its item waits for the answer. -/
def State.sendAwait (s : State) (w : Who) (id : Nat) (o : Output) : State := (s.send o).await w id

/-- A new transaction goes out and its item waits for the answer. -/
def State.asked (s : State) (w : Who) (pa : Nat) (kind : TxnKind) (o : Output) : State :=
  (s.newTxn pa kind).1.sendAwait w s.port.nextId o

section
variable (s : State) (w : Who) (id : Nat) (o : Output)

@[simp] theorem State.sendAwait_out : (s.sendAwait w id o).out = s.out ++ [o] := by simp [State.sendAwait]
@[simp] theorem State.sendAwait_loam : (s.sendAwait w id o).loam = s.loam := by simp [State.sendAwait]
@[simp] theorem State.sendAwait_syn : (s.sendAwait w id o).syn = s.syn := by simp [State.sendAwait]
@[simp] theorem State.sendAwait_item : (s.sendAwait w id o).item w = { s.item w with pend := .memory id, blocked := none } := by
  simp only [State.sendAwait, State.await, State.item_issues, State.item_modItem_self]
  rfl

end

/-- What the item that waits shows, and what stays. -/
theorem State.sendAwait_shows {s t u : State} {w : Who} (ht : Touched s t) (hout : u.out = t.out) (hitem : u.item w = t.item w)
    (hloam : u.loam = t.loam) (hsyn : u.syn = t.syn) (id : Nat) (o : Output) :
    let v := (u.sendAwait w id o).activate
    v.out = s.out ++ [o] ∧ (v.item w).pend = .memory id ∧ (v.item w).off = (s.item w).off ∧ (v.item w).sregs = (s.item w).sregs ∧
      v.loam = t.loam ∧ v.syn = s.syn := by
  simp [hout, hitem, hloam, hsyn, ht.out, ht.item, ht.syn]

theorem State.asked_shows {s t u : State} {w : Who} (ht : Touched s t) (hout : u.out = t.out) (hitem : u.item w = t.item w)
    (hloam : u.loam = t.loam) (hsyn : u.syn = t.syn) (pa : Nat) (kind : TxnKind) (o : Output) :
    let v := (u.asked w pa kind o).activate
    v.out = s.out ++ [o] ∧ (v.item w).pend = .memory u.port.nextId ∧ (v.item w).off = (s.item w).off ∧
      (v.item w).sregs = (s.item w).sregs ∧ v.loam = t.loam ∧ v.syn = s.syn := by
  unfold State.asked
  exact State.sendAwait_shows (u := (u.newTxn pa kind).1) ht hout hitem hloam hsyn _ o

/-! ### Loads -/

section
variable {k : Width} {w : Who} {a : SclArgs} {s u : State} {pa n l off cl : Nat} {vol : Bool}

theorem loadStep_misaligned (h : (s.item w).sclAddr a % widthBytes k ≠ 0) :
    loadStep k w a s = some (s.raise w 0x0702 ((s.item w).sclAddr a)) := if_pos h

theorem loadStep_unmapped (h : (s.item w).sclAddr a % widthBytes k = 0) (hp : placeOf s.id ((s.item w).sclAddr a) = .unmapped) :
    loadStep k w a s = some (s.raise w 0x0301 ((s.item w).sclAddr a)) := by
  unfold Item.sclAddr at *
  unfold loadStep
  dsimp only
  rw [if_neg (not_not.mpr h), hp]

theorem loadStep_outer (h : (s.item w).sclAddr a % widthBytes k = 0) (hp : (placeOf s.id ((s.item w).sclAddr a)).Outer) :
    loadStep k w a s = outerLoad w a ((s.item w).sclAddr a) (widthBytes k) s := by
  unfold Item.sclAddr at *
  unfold loadStep
  dsimp only
  rw [if_neg (not_not.mpr h)]
  rcases hp with hp | ⟨c, l, hp⟩ <;> rw [hp]

theorem loadStep_ownRegs (h : (s.item w).sclAddr a % widthBytes k = 0)
    (hp : placeOf s.id ((s.item w).sclAddr a) = .regs (pkgIndex s.id) off) : loadStep k w a s = ownRegRead w a.sd off k s := by
  unfold Item.sclAddr at *
  unfold loadStep
  dsimp only
  rw [if_neg (not_not.mpr h), hp]
  exact if_pos rfl

theorem loadStep_farRegs (h : (s.item w).sclAddr a % widthBytes k = 0) (hp : placeOf s.id ((s.item w).sclAddr a) = .regs cl off)
    (hc : cl ≠ pkgIndex s.id) (hr : s.txnRoom = true) :
    loadStep k w a s = some (s.asked w ((s.item w).sclAddr a) (.reg w (s.item w).no (some a.sd))
      (.regRead s.port.nextId ((s.item w).sclAddr a) k)) := by
  unfold Item.sclAddr at *
  unfold loadStep
  dsimp only
  rw [if_neg (not_not.mpr h), hp]
  simp only [if_neg hc, hr]
  rfl

/-- A volatile load asks memory, where the port buffer holds nothing of the sector (R200). -/
theorem outerLoad_volatile (hv : a.vol = true) (hr : s.txnRoom = true) (hb : ∀ e ∈ s.port.pbuf, e.sector ≠ pa / 64) :
    outerLoad w a pa n s = some (s.asked w pa (.load w (s.item w).no a.sd (pa % 64) n false false [])
      (.memRead s.port.nextId (pa / 64 * 64) false)) := by
  have hany : (s.port.pbuf.any fun e => e.sector == pa / 64) = false := by simpa [List.any_eq_false] using hb
  unfold outerLoad
  simp only [hv, hr, hany, if_true]
  rfl

theorem outerLoad_line {l : Line} (hv : a.vol = false) (hl : s.lookLine (pa / 64) = (u, some l)) :
    outerLoad w a pa n s =
      some ((u.modItem w fun i => i.setReg a.sd (BitVec.ofNat 64 (leNat (sliceB l.data (pa % 64) n)))).advance w 16) := by
  unfold outerLoad
  simp only [hv, hl, Bool.false_eq_true, if_false]

theorem outerLoad_covered (hv : a.vol = false) (hl : s.lookLine (pa / 64) = (u, none)) (hc : u.port.covers (pa / 64) = true) :
    outerLoad w a pa n s = some ((u.modItem w fun i =>
      i.setReg a.sd (BitVec.ofNat 64 (leNat (sliceB (u.port.forward (pa / 64) []) (pa % 64) n)))).advance w 16) := by
  unfold outerLoad
  simp only [hv, hl, hc, Bool.false_eq_true, if_false, if_true]

/-- A load that hits no line and is not covered by the port buffer asks memory for the sector. -/
theorem outerLoad_fetches (hv : a.vol = false) (hl : s.lookLine (pa / 64) = (u, none)) (hc : u.port.covers (pa / 64) = false)
    (hr : u.txnRoom = true) :
    outerLoad w a pa n s = some (u.asked w pa (.load w (s.item w).no a.sd (pa % 64) n true true (u.port.holding (pa / 64)))
      (.memRead u.port.nextId (pa / 64 * 64) false)) := by
  unfold outerLoad
  simp only [hv, hl, hc, hr, Bool.false_eq_true, if_false, if_true]
  rfl

end

/-- A look at the cache changes the cache and what counts its errors (R263). -/
theorem State.lookLine_frame {s u : State} {sector : Nat} {l : Option Line} (h : s.lookLine sector = (u, l)) :
    ∃ c k x, u = { s with port := { s.port with cache := c }, ctr := k, tel := x } := by
  obtain rfl : (s.lookLine sector).1 = u := by rw [h]
  unfold State.lookLine
  split
  · exact ⟨s.port.cache, s.ctr, s.tel, rfl⟩
  · split
    · exact ⟨s.port.cache, s.ctr, s.tel, rfl⟩
    · exact ⟨_, _, _, rfl⟩

/-- The rows of the loads. -/
theorem exec_load {x : CtxKind} {p : Instr × Nat × Width}
    (hp : p ∈ [(Instr.sclLd8 x, 0x18, Width.b1), (.sclLd16 x, 0x19, .b2), (.sclLd32 x, 0x1A, .b4), (.sclLd64 x, 0x1B, .b8)]) (s : State) :
    exec p.1 s = s.row fun s => s.scl x p.2.1 (loadStep p.2.2) := by
  simp only [List.mem_cons, List.not_mem_nil, or_false] at hp
  rcases hp with rfl | rfl | rfl | rfl <;> rfl

/-- Settles O15: each place of the address is one outcome of `loadStep`. -/
theorem scalarLoads : Obligations.ScalarLoads := by
  unfold Obligations.ScalarLoads
  intro x s t u sd sa sb imm vol w pa p hp n gets asks outer h ha
  have ht := h.touched
  have addr : (t.item w).sclAddr ⟨sd, sa, sb, imm, vol⟩ = pa := by rw [ht.item w]; rfl
  have aligned : (t.item w).sclAddr ⟨sd, sa, sb, imm, vol⟩ % widthBytes p.2.2 = 0 := by rw [addr]; exact ha
  have place : placeOf t.id ((t.item w).sclAddr ⟨sd, sa, sb, imm, vol⟩) = placeOf s.id pa := by rw [addr, ht.id]
  have goes {v : State} (e : loadStep p.2.2 w ⟨sd, sa, sb, imm, vol⟩ t = some v) : exec p.1 s = .next v.activate :=
    (exec_load hp s).trans (sclRow_next h e)
  have outerGoes {v : State} (ho : outer) (e : outerLoad w ⟨sd, sa, sb, imm, vol⟩ pa n t = some v) : exec p.1 s = .next v.activate := by
    refine goes ((loadStep_outer aligned (by rw [place]; exact ho)).trans ?_)
    rw [addr]
    exact e
  have room {v : State} (hv : v.port.txns = t.port.txns) (hr : s.txnRoom = true) : v.txnRoom = true := by
    rw [State.txnRoom, hv, ht.port]
    exact hr
  refine ⟨fun l bs hl hf hr => ?_, fun l hl hf hc => ?_, fun ho hv hr hb => ?_, fun ho hv l hl => ?_, fun ho hv hl hc => ?_,
    fun ho hv hl hc hr => ?_, fun off ho v hr => ?_, fun cl off hl hc hr => ?_, fun hl => ?_⟩
  · exact (exec_load hp s).trans (sclLoad_next h hl ha hf hr)
  · obtain rfl := h.clean hc
    exact (exec_load hp t).trans (sclLoad_next h hl ha hf (State.loamRead_clean hc _ _ _))
  · refine ⟨_, outerGoes ho (outerLoad_volatile hv (room rfl hr) (by rwa [ht.port])), ?_⟩
    rw [← ht.port]
    exact State.asked_shows ht rfl rfl rfl rfl _ _ _
  · exact outerGoes ho (outerLoad_line hv hl)
  · obtain ⟨c, k, y, rfl⟩ := State.lookLine_frame hl
    exact outerGoes ho (outerLoad_covered hv hl (by rw [← ht.port] at hc; exact hc))
  · obtain ⟨c, k, y, e⟩ := State.lookLine_frame hl
    have hc' : u.port.covers (pa / 64) = false := by rw [e]; rw [← ht.port] at hc; exact hc
    refine ⟨_, outerGoes ho (outerLoad_fetches hv hl hc' (room (by rw [e]) hr)), ?_⟩
    rw [← ht.port, show t.port.nextId = u.port.nextId by rw [e]]
    exact State.asked_shows ht (by rw [e]) (by rw [e]; rfl) (by rw [e]) (by rw [e]) _ _ _
  · exact goes ((loadStep_ownRegs aligned (by rw [place, ho, ht.id])).trans (ownRegRead_ok hr))
  · have e := loadStep_farRegs aligned (place.trans hl) (by rwa [ht.id]) (room rfl hr)
    refine ⟨_, goes e, ?_⟩
    rw [addr, ← ht.port]
    exact State.asked_shows ht rfl rfl rfl rfl _ _ _
  · rw [← addr]
    exact goes (loadStep_unmapped aligned (place.trans hl))

/-! ### Stores -/

section
variable {k : Width} {w : Who} {a : SclArgs} {s u : State} {pa no l off cl v : Nat} {vol : Bool} {bs : List Byte}

theorem storeStep_misaligned (h : (s.item w).sclAddr a % widthBytes k ≠ 0) :
    storeStep k w a s = some (s.raise w 0x0702 ((s.item w).sclAddr a)) := if_pos h

theorem storeStep_unmapped (h : (s.item w).sclAddr a % widthBytes k = 0) (hp : placeOf s.id ((s.item w).sclAddr a) = .unmapped) :
    storeStep k w a s = some (s.raise w 0x0301 ((s.item w).sclAddr a)) := by
  unfold Item.sclAddr at *
  unfold storeStep
  dsimp only
  rw [if_neg (not_not.mpr h), hp]

theorem storeStep_outer (h : (s.item w).sclAddr a % widthBytes k = 0) (hp : (placeOf s.id ((s.item w).sclAddr a)).Outer) :
    storeStep k w a s = outerStore w a.vol ((s.item w).sclAddr a)
      (leBytes (widthBytes k) (((s.item w).reg a.sb).toNat % 2 ^ (8 * widthBytes k))) s := by
  unfold Item.sclAddr at *
  unfold storeStep
  dsimp only
  rw [if_neg (not_not.mpr h)]
  rcases hp with hp | ⟨c, l, hp⟩ <;> rw [hp]

theorem storeStep_ownRegs (h : (s.item w).sclAddr a % widthBytes k = 0)
    (hp : placeOf s.id ((s.item w).sclAddr a) = .regs (pkgIndex s.id) off) :
    storeStep k w a s = ownRegWrite w off k (((s.item w).reg a.sb).toNat % 2 ^ (8 * widthBytes k)) s := by
  unfold Item.sclAddr at *
  unfold storeStep
  dsimp only
  rw [if_neg (not_not.mpr h), hp]
  exact if_pos rfl

theorem storeStep_farRegs (h : (s.item w).sclAddr a % widthBytes k = 0) (hp : placeOf s.id ((s.item w).sclAddr a) = .regs cl off)
    (hc : cl ≠ pkgIndex s.id) (hgo : arriveStore off = false ∨ s.released (s.item w).no 2 = true) (hr : s.txnRoom = true) :
    storeStep k w a s = some (s.asked w ((s.item w).sclAddr a) (.reg w (s.item w).no none)
      (.regWrite s.port.nextId ((s.item w).sclAddr a) k (BitVec.ofNat 64 (((s.item w).reg a.sb).toNat % 2 ^ (8 * widthBytes k))))) := by
  have hwait : (arriveStore off && !s.released (s.item w).no 2) = false := by rcases hgo with g | g <;> simp [g]
  unfold Item.sclAddr at *
  unfold storeStep
  dsimp only
  rw [if_neg (not_not.mpr h), hp]
  simp only [if_neg hc, hwait, hr]
  rfl

/-- A store that is not volatile goes into the port buffer (R192). -/
theorem outerStore_buffered (h : s.pbufWrite (s.item w).no pa bs = some u) :
    outerStore w false pa bs s = some ((u.updateLine pa bs).advance w 16) := by
  unfold outerStore
  simp [h]

/-- A volatile store goes out as a write, and cached lines and loads in flight of its sector take its bytes (R200, R201). -/
theorem outerStore_volatile (hb : ∀ e ∈ s.port.pbuf, e.sector ≠ pa / 64) (hf : s.port.fetching (pa / 64) = false) (hr : s.txnRoom = true) :
    outerStore w true pa bs s = some (((s.newTxn pa (.store w (s.item w).no)).1.updateLine pa bs).sendAwait w s.port.nextId
      (.memWrite s.port.nextId (pa / 64 * 64) (bs.mapIdx fun i b => (pa % 64 + i, b)))) := by
  have hany : (s.port.pbuf.any fun e => e.sector == pa / 64) = false := by simpa [List.any_eq_false] using hb
  unfold outerStore
  simp only [hany, hf, hr]
  rfl

/-- A volatile store waits while the port buffer holds its sector or an atomic fetches it (R200). -/
theorem outerStore_waits (h : (∃ e ∈ s.port.pbuf, e.sector = pa / 64) ∨ s.port.fetching (pa / 64) = true) :
    outerStore w true pa bs s = none := by
  unfold outerStore
  simp only [Bool.not_true, Bool.false_eq_true, if_false]
  refine if_pos ?_
  rcases h with ⟨e, he, hs⟩ | h
  · have hany : (s.port.pbuf.any fun e => e.sector == pa / 64) = true := List.any_eq_true.mpr ⟨e, he, by simp [hs]⟩
    rw [hany, Bool.true_or, Bool.true_or]
  · rw [h, Bool.or_true, Bool.true_or]

theorem State.pbufWrite_frame (h : s.pbufWrite no pa bs = some u) : ∃ p, u = { s with port := p } := by
  unfold State.pbufWrite at h
  dsimp only at h
  split at h
  · exact ⟨_, (Option.some.inj h).symm⟩
  · split at h
    · cases h
    · exact ⟨_, (Option.some.inj h).symm⟩

/-- The port buffer takes bytes of a sector that it holds, and of another while it has a place (R192). -/
theorem State.pbufWrite_takes (no : Nat) (bs : List Byte) (h : (s.port.entry (pa / 64)).isSome = true ∨ s.port.used < 64) :
    ∃ u, s.pbufWrite no pa bs = some u := by
  unfold State.pbufWrite
  dsimp only
  split
  · exact ⟨_, rfl⟩
  · rename_i he
    rw [if_neg (by rcases h with h | h <;> [simp [he] at h; omega])]
    exact ⟨_, rfl⟩

end

/-- The rows of the stores. -/
theorem exec_store {x : CtxKind} {p : Instr × Nat × Width}
    (hp : p ∈ [(Instr.sclSt8 x, 0x1C, Width.b1), (.sclSt16 x, 0x1D, .b2), (.sclSt32 x, 0x1E, .b4), (.sclSt64 x, 0x1F, .b8)]) (s : State) :
    exec p.1 s = s.row fun s => s.scl x p.2.1 (storeStep p.2.2) := by
  simp only [List.mem_cons, List.not_mem_nil, or_false] at hp
  rcases hp with rfl | rfl | rfl | rfl <;> rfl

/-- Settles O16: each place of the address is one outcome of `storeStep`. -/
theorem scalarStores : Obligations.ScalarStores := by
  unfold Obligations.ScalarStores
  intro x s t u sd sa sb imm vol w pa p hp n v asks outer h ha
  have ht := h.touched
  have addr : (t.item w).sclAddr ⟨sd, sa, sb, imm, vol⟩ = pa := by rw [ht.item w]; rfl
  have value : ((t.item w).reg sb).toNat % 2 ^ (8 * widthBytes p.2.2) = v := by rw [ht.item w]
  have aligned : (t.item w).sclAddr ⟨sd, sa, sb, imm, vol⟩ % widthBytes p.2.2 = 0 := by rw [addr]; exact ha
  have place : placeOf t.id ((t.item w).sclAddr ⟨sd, sa, sb, imm, vol⟩) = placeOf s.id pa := by rw [addr, ht.id]
  have goes {r : State} (e : storeStep p.2.2 w ⟨sd, sa, sb, imm, vol⟩ t = some r) : exec p.1 s = .next r.activate :=
    (exec_store hp s).trans (sclRow_next h e)
  have outerStep (ho : outer) : storeStep p.2.2 w ⟨sd, sa, sb, imm, vol⟩ t = outerStore w vol pa (leBytes n v) t := by
    rw [storeStep_outer aligned (by rw [place]; exact ho), addr]
    exact congrArg (fun v => outerStore w vol pa (leBytes n v) t) value
  have ownStep {off} (hl : placeOf s.id pa = .regs (pkgIndex s.id) off) :
      storeStep p.2.2 w ⟨sd, sa, sb, imm, vol⟩ t = ownRegWrite w off p.2.2 v t := by
    rw [storeStep_ownRegs aligned (by rw [place, hl, ht.id]), value]
  have room (hr : s.txnRoom = true) : t.txnRoom = true := by
    rw [State.txnRoom, ht.port]
    exact hr
  have may {off} (hg : arriveStore off = false ∨ s.released (s.item w).no 2 = true) :
      arriveStore off = false ∨ t.released (t.item w).no 2 = true := by
    rwa [ht.released, ht.item]
  refine ⟨fun l hl hs hf hc => ?_, fun ho hv hb => ?_, fun ho hv hb => ?_, fun ho hv hr hb hf => ?_, fun ho hv hb => ?_,
    fun off hl hg => ⟨fun hw hi hx => ?_, fun f hf hw => ?_⟩, fun cl off hl hc hg hr => ?_, fun hl => ?_⟩
  · rw [exec_store hp s]
    exact sclStore_next h hl ha hf hc hs
  · subst hv
    rw [← ht.item w] at hb
    obtain ⟨q, e⟩ := State.pbufWrite_frame hb
    exact ⟨goes ((outerStep ho).trans (outerStore_buffered hb)), by rw [e], by rw [e, ← ht.out]⟩
  · exact State.pbufWrite_takes _ _ (by rwa [ht.port])
  · subst hv
    refine ⟨_, goes ((outerStep ho).trans (outerStore_volatile (by rwa [ht.port]) (by rwa [ht.port]) (room hr))), ?_⟩
    rw [← ht.port]
    exact State.sendAwait_shows (u := (t.newTxn pa (.store w (t.item w).no)).1.updateLine pa (leBytes n v)) ht rfl rfl rfl rfl _ _
  · subst hv
    rw [exec_store hp s]
    refine State.row_issue_none h ?_
    simpa using (outerStep ho).trans (outerStore_waits (by rwa [ht.port]))
  · exact goes ((ownStep hl).trans (ownRegWrite_done (by rw [ht.ctx]; exact h.ready) (may hg) hw hi hx))
  · exact goes ((ownStep hl).trans (ownRegWrite_refused (may hg) hw hf))
  · have e := storeStep_farRegs aligned (place.trans hl) (by rwa [ht.id]) (may hg) (room hr)
    refine ⟨_, goes e, ?_⟩
    rw [addr, value, ← ht.port]
    exact State.asked_shows ht rfl rfl rfl rfl _ _ _
  · rw [← addr]
    exact goes (storeStep_unmapped aligned (place.trans hl))

/-! ### Misaligned accesses -/

/-- A row that raises CMD_OPCODE against its item: it aborts. -/
theorem sclRow_traps {x : CtxKind} {s t : State} {o sd sa sb d : Nat} {imm : Word64} {vol : Bool} {f}
    (h : s.Issues (sclWho x) t (.scl o sd sa sb imm vol) 16)
    (e : f (sclWho x) ⟨sd, sa, sb, imm, vol⟩ t = some (t.raise (sclWho x) 0x0702 d)) :
    ∃ u, s.row (fun s => s.scl x o f) = .next u ∧ (u.ctx (sclWho x)).phase = .aborting ∧
      (u.item (sclWho x)).record.fault = 0x0702 ∧ u.loam = t.loam ∧ u.syn = s.syn := by
  obtain ⟨hphase, hfault⟩ := h.raised (Touched.refl t) (code := 0x0702) (d := d)
  exact ⟨_, sclRow_next h e, hphase, hfault, by simp, by simp [h.touched.syn]⟩

/-- Settles O17: every one of the rows checks the alignment of SA + IMM first. -/
theorem misalignedScalarTraps : Obligations.MisalignedScalarTraps := by
  unfold Obligations.MisalignedScalarTraps
  intro x s t sd sa sb imm vol w pa p hp h ha
  have mis : (t.item w).sclAddr ⟨sd, sa, sb, imm, vol⟩ % p.2.2 ≠ 0 := by rw [h.touched.item w]; exact ha
  simp only [List.mem_cons, List.not_mem_nil, or_false] at hp
  rcases hp with rfl | rfl | rfl | rfl | rfl | rfl | rfl | rfl
  · exact sclRow_traps h (loadStep_misaligned mis)
  · exact sclRow_traps h (loadStep_misaligned mis)
  · exact sclRow_traps h (loadStep_misaligned mis)
  · exact sclRow_traps h (storeStep_misaligned mis)
  · exact sclRow_traps h (storeStep_misaligned mis)
  · exact sclRow_traps h (storeStep_misaligned mis)
  · exact sclRow_traps h (if_pos mis)
  · exact sclRow_traps h (if_pos mis)

end Sys2Proof.Machine
end

section
/-! PROOFS. Items from issue to end: an item that starts, that waits for its ranges, that is not started, and that ends (R145, R146,
R170, R173). -/

namespace Sys2Proof.Machine

/-! ### The start of an item -/

/-- What a started item shows beside its context's phase: its header, and a fresh record of it (R145 step 6). -/
theorem State.ctx_startItem (s : State) (w : Who) (h : Hdr) : ∃ watch, (s.startItem w h).ctx w = { phase := .running, item := { s.item w with
    hdr := h, watch := watch, blocked := none, record := {
      job := h.job, layer := h.layer, operator := h.operator, core := w.core.val, hdl := isHdl w, sup := (s.item w).sup,
      watched := !watch.isEmpty, step := h.step, tensor := h.tensor, addr := (s.item w).addr, start := s.ts } } } := by
  refine ⟨(s.fireWatch w h).2, ?_⟩
  unfold State.startItem
  dsimp only
  split <;> simp

/-- The start of an item leaves Loam, the counters and the queues as they are. -/
theorem State.startItem_frame (s : State) (w : Who) (h : Hdr) : (s.startItem w h).loam = s.loam ∧ (s.startItem w h).syn = s.syn ∧
    ∀ c, ((s.startItem w h).core c).nq = (s.core c).nq ∧ ((s.startItem w h).core c).uq = (s.core c).uq := by
  obtain ⟨hcores, hloam, hsyn, -⟩ := s.fireWatch_frame w h
  have hcore (c : Nat) : (s.fireWatch w h).1.core c = s.core c := by rw [State.core, hcores, ← State.core]
  unfold State.startItem
  dsimp only
  split <;> simp [hloam, hsyn, hcore]

/-- The item `i` runs in context `w` at its first instruction, with header `h` and its record latched. -/
def State.RunsItem (t : State) (w : Who) (h : Hdr) (i : Item) (ts : Word64) : Prop :=
  (t.ctx w).phase = .running ∧ (t.item w).hdr = h ∧ (t.item w).no = i.no ∧ (t.item w).addr = i.addr ∧ (t.item w).off = i.off ∧
    (t.item w).sup = i.sup ∧ (t.item w).sregs = i.sregs ∧ (t.item w).msg = i.msg ∧ (t.item w).record.job = h.job ∧
    (t.item w).record.layer = h.layer ∧ (t.item w).record.operator = h.operator ∧ (t.item w).record.step = h.step ∧
    (t.item w).record.addr = i.addr ∧ (t.item w).record.start = ts

theorem State.startItem_runs (s : State) (w : Who) (h : Hdr) : (s.startItem w h).RunsItem w h (s.item w) s.ts := by
  obtain ⟨watch, e⟩ := s.ctx_startItem w h
  simp [State.RunsItem, State.item, e]

/-! ### The steps of an issue -/

/-- An item may go through its issue in context `w` (R145): its core is awake and enabled, an image is live, and it bears no fault. -/
structure State.MayIssue (s : State) (w : Who) : Prop where
  awake : (s.core w.core.val).asleep = false
  live : s.str.liveValid = true
  enabled : coreOn s.str.live.coreEn w.core.val = true
  sound : (s.item w).abort = none

/-- The item of a new command (R141). -/
def QEntry.toItem (e : QEntry) (no : Nat) (urgent : Bool) : Item :=
  { no := no, addr := e.addr, sup := e.sup, jobReq := e.jobReq, urgent := urgent }

/-- The command context has taken a command: `y` is its core with that command out of its queue. -/
def State.took (s : State) (c : Nat) (i : Item) (y : Core) : State :=
  ({ s with itemNo := s.itemNo + 1 }.setCore c
    { y with sleepSaving := false, sleepSaved := false, cmd := { phase := .issuing, item := i } }).unblock 13

section
variable {s u : State} {w : Who} {h : Hdr} {f : Nat}

theorem itemStart_waiting (hm : s.MayIssue w) (hp : (s.ctx w).phase = .waitRange) :
    itemStart w s = if s.rangeHeld w (s.item w).hdr then none else some (s.startItem w (s.item w).hdr) := by
  simp [itemStart, hm.awake, hm.live, hm.enabled, hm.sound, hp]

theorem itemStart_issuing (hm : s.MayIssue w) (hp : (s.ctx w).phase = .issuing) : itemStart w s = some (s.issueItem w) := by
  simp [itemStart, hm.awake, hm.live, hm.enabled, hm.sound, hp]

theorem itemStart_takes {e : QEntry} {urgent : Bool} {y : Core} (hm : s.MayIssue w) (hw : w.ctx = .cmd) (hp : (s.ctx w).phase = .idle)
    (hn : (s.core w.core.val).nextCmd = some (e, urgent, y)) :
    itemStart w s = some ((s.took w.core.val (e.toItem s.itemNo urgent) y).issueItem w) := by
  simp [itemStart, hm.awake, hm.live, hm.enabled, hm.sound, hp, hn, isHdl, hw, State.took, QEntry.toItem]

theorem State.issueItem_passes (hd : Damage.item w ∉ s.damage) (hh : s.headerOf w (s.item w) = (u, h, 0)) :
    s.issueItem w = u.startOrWait w h := by
  simp [State.issueItem, hd, hh]

theorem State.issueItem_fails (hd : Damage.item w ∉ s.damage) (hh : s.headerOf w (s.item w) = (u, h, f)) (hf : f ≠ 0) :
    s.issueItem w = u.notStarted w f h := by
  simp [State.issueItem, hd, hh, hf]

theorem Touched.of_headerOf {i : Item} (hh : s.headerOf w i = (u, h, f)) : Touched s u := by
  have := Touched.headerOf s w i
  rwa [hh] at this

/-- Which ranges the other context holds is a matter of its phase and its header (R56). -/
theorem State.rangeHeld_congr {t : State} (hp : (t.ctx (otherCtx w)).phase = (s.ctx (otherCtx w)).phase)
    (hh : (t.item (otherCtx w)).hdr = (s.item (otherCtx w)).hdr) (h : Hdr) : t.rangeHeld w h = s.rangeHeld w h := by
  simp [State.rangeHeld, Ctx.holds, hp, hh]

theorem Touched.rangeHeld {t : State} (ht : Touched s t) (w : Who) (h : Hdr) : t.rangeHeld w h = s.rangeHeld w h :=
  State.rangeHeld_congr (by rw [ht.ctx]) (by rw [ht.item]) h

end

/-! ### A command out of its queue -/

/-- The next command leaves its queue and changes nothing else of its core. -/
theorem Core.nextCmd_frame {x y : Core} {e : QEntry} {urgent : Bool} (h : x.nextCmd = some (e, urgent, y)) :
    y.hdl = x.hdl ∧ y.lastFault = x.lastFault := by
  unfold Core.nextCmd at h
  split at h
  · cases h; exact ⟨rfl, rfl⟩
  · split at h
    · cases h
    · cases h; exact ⟨rfl, rfl⟩
  · cases h

section
variable {s : State} {w : Who} {i : Item} {y : Core}

theorem State.ctx_took (hw : w.ctx = .cmd) (hi : i.blocked = none) : (s.took w.core.val i y).ctx w = { phase := .issuing, item := i } := by
  have hset : ({ s with itemNo := s.itemNo + 1 }.setCore w.core.val { y with
      sleepSaving := false, sleepSaved := false, cmd := { phase := .issuing, item := i } }).ctx w = { phase := .issuing, item := i } := by
    rw [State.ctx, State.core_setCore_self, hw]
    rfl
  rw [State.took, State.unblock_ctx_of 13 (by rw [State.item, hset]; exact hi), hset]

theorem State.queues_took : ((s.took w.core.val i y).core w.core.val).nq = y.nq ∧ ((s.took w.core.val i y).core w.core.val).uq = y.uq := by
  simp [State.took, State.unblock_queues]

/-- A command that is taken leaves the handler's context with its phase and its header. -/
theorem State.other_took (hw : w.ctx = .cmd) (hy : y.hdl = (s.core w.core.val).hdl) :
    ((s.took w.core.val i y).ctx (otherCtx w)).phase = (s.ctx (otherCtx w)).phase ∧
    ((s.took w.core.val i y).item (otherCtx w)).hdr = (s.item (otherCtx w)).hdr := by
  have hother : otherCtx w = ⟨w.core, .hdl⟩ := by simp [otherCtx, isHdl, hw]
  obtain ⟨b, e, -⟩ := State.unblock_ctx ({ s with itemNo := s.itemNo + 1 }.setCore w.core.val { y with
    sleepSaving := false, sleepSaved := false, cmd := { phase := .issuing, item := i } }) 13 (otherCtx w)
  have hset : ({ s with itemNo := s.itemNo + 1 }.setCore w.core.val { y with
      sleepSaving := false, sleepSaved := false, cmd := { phase := .issuing, item := i } }).ctx (otherCtx w) = s.ctx (otherCtx w) := by
    rw [hother, State.ctx, State.core_setCore_self]
    exact hy
  unfold State.took State.item
  rw [e, State.item, hset]
  exact ⟨rfl, rfl⟩

end

/-- An item whose header passes and whose ranges are free runs. -/
theorem State.startOrWait_runs {s : State} {w : Who} {h : Hdr} (hr : s.rangeHeld w h = false) : s.startOrWait w h = s.startItem w h := by
  simp [State.startOrWait, hr]

theorem State.startOrWait_waits {s : State} {w : Who} {h : Hdr} (hr : s.rangeHeld w h = true) :
    s.startOrWait w h = s.setCtx w { phase := .waitRange, item := { s.item w with hdr := h, blocked := some 14 } } := by
  simp [State.startOrWait, hr]

/-- The header of a command just taken reads as it did before. -/
theorem State.headerOf_took {s u : State} {w : Who} {i : Item} {y : Core} {h : Hdr} {f : Nat} (hw : w.ctx = .cmd) (hi : i.blocked = none)
    (hh : s.headerOf w i = (u, h, f)) : ∃ v, (s.took w.core.val i y).headerOf w ((s.took w.core.val i y).item w) = (v, h, f) ∧
      v.loam = u.loam ∧ Touched (s.took w.core.val i y) v := by
  have hitem : (s.took w.core.val i y).item w = i := by rw [State.item, State.ctx_took hw hi]
  obtain ⟨hloam, hrest⟩ := State.headerOf_same (s := s) (t := s.took w.core.val i y) (by simp [State.took]) (by simp [State.took])
    (by simp [State.took]) w i
  rw [hh] at hloam hrest
  exact ⟨_, by rw [hitem]; exact Prod.ext rfl hrest, hloam, Touched.headerOf _ _ _⟩

/-- Settles O19: the cases of `itemStart`, and what a started item shows. -/
theorem itemStarts : Obligations.ItemStarts := by
  unfold Obligations.ItemStarts
  intro w s hf hawake hlive hen hab runs
  have hm : s.MayIssue w := ⟨hawake, hlive, hen, hab⟩
  have started (v : State) (h : Hdr) (e : itemStart w s = some (v.startItem w h)) (hts : v.ts = s.ts) (hsyn : v.syn = s.syn) :
      exec (.itemIssue w) s = .next (v.startItem w h).activate ∧ runs (v.startItem w h).activate h (v.item w) ∧
      (v.startItem w h).activate.loam = v.loam := by
    obtain ⟨hloam, hs, -⟩ := v.startItem_frame w h
    have hruns := v.startItem_runs w h
    simp only [State.RunsItem, hts] at hruns
    refine ⟨State.row_fast hf e, ?_, by simp [hloam]⟩
    simp only [runs, State.ctx_activate, State.item_activate, State.activate_syn, hs, hsyn]
    tauto
  refine ⟨fun hp hd u h hh => ?_, ?_, fun hp hr => ?_, fun hp hr => ?_⟩
  · have ht := Touched.of_headerOf hh
    refine ⟨fun hr => ?_, fun hr => ?_⟩
    · obtain ⟨hx, hruns, hloam⟩ := started u h (by rw [itemStart_issuing hm hp, State.issueItem_passes hd hh, State.startOrWait_runs hr])
        ht.ts ht.syn
      rw [ht.item] at hruns
      exact ⟨_, hx, hruns, hloam⟩
    · refine ⟨_, State.row_fast hf (by rw [itemStart_issuing hm hp, State.issueItem_passes hd hh, State.startOrWait_waits hr]), ?_⟩
      simp [ht.syn]
  · intro hw hp hd e urgent y u h hn i hh hr
    obtain ⟨hhdl, -⟩ := Core.nextCmd_frame hn
    have hctx := State.ctx_took (s := s) (y := y) (i := i) hw rfl
    obtain ⟨v, hv, hvl, ht⟩ := State.headerOf_took (y := y) hw (i := i) rfl hh
    obtain ⟨hphase, hhdr⟩ := State.other_took (s := s) (i := i) hw hhdl
    have hrange : v.rangeHeld w h = false := by rw [ht.rangeHeld, State.rangeHeld_congr hphase hhdr, hr]
    have hd' : Damage.item w ∉ (s.took w.core.val i y).damage := by simpa [State.took] using hd
    obtain ⟨hx, hruns, hloam⟩ := started v h
      (by rw [itemStart_takes hm hw hp hn]; exact congrArg some ((State.issueItem_passes hd' hv).trans (State.startOrWait_runs hrange)))
      (by simp [ht.ts, State.took]) (by simp [ht.syn, State.took])
    obtain ⟨-, -, hqueues⟩ := v.startItem_frame w h
    obtain ⟨hnq, huq⟩ := State.queues_took (s := s) (w := w) (i := i) (y := y)
    have hitem : v.item w = i := by rw [ht.item, State.item, hctx]
    obtain ⟨watch, hstart⟩ := v.ctx_startItem w h
    rw [hitem] at hruns hstart
    refine ⟨_, hx, hruns, ?_, ?_, ?_, ?_, by rw [hloam, hvl]⟩
    · simp only [State.item, State.ctx_activate, hstart, i]
    · simp only [State.item, State.ctx_activate, hstart, i]
    · rw [State.core_activate, (hqueues _).1, ht.core, hnq]
    · rw [State.core_activate, (hqueues _).2, ht.core, huq]
  · obtain ⟨hx, hruns, hloam⟩ := started s (s.item w).hdr (by rw [itemStart_waiting hm hp, hr]; rfl) rfl rfl
    exact ⟨_, hx, hruns, hloam⟩
  · exact State.row_fast_none (by rw [itemStart_waiting hm hp, hr]; rfl)

end Sys2Proof.Machine
end

section
/-! PROOFS. Items that are not started, and items that end (R145, R146, R170, R172, R173, R265). -/

namespace Sys2Proof.Machine

/-! ### An item that is not started -/

theorem State.retireMsg_tel (s : State) (c : Nat) (m : MsgRef) : (s.retireMsg c m).tel = s.tel := by
  unfold State.retireMsg State.freeEntries State.returnCredits
  dsimp only
  split <;> simp

/-- An item that is not started leaves its context; its fault is the newest in the log and the core's last, and the queues stay (R145, R266). -/
theorem State.notStarted_frame (s : State) (w : Who) (code : Nat) (h : Hdr) :
    let t := s.notStarted w code h
    t.ctx w = {} ∧ t.tel.log.head?.map LogEnt.code = some code ∧ (t.core w.core.val).nq = (s.core w.core.val).nq ∧
      (t.core w.core.val).uq = (s.core w.core.val).uq ∧ (t.core w.core.val).lastFault = code ∧ t.loam = s.loam ∧ t.syn = s.syn := by
  unfold State.notStarted
  dsimp only
  have key : ∀ v : State, v.cores = ((s.logFault code w.core.val (isHdl w) true (s.item w).addr).noteFault w.core.val code h).cores →
      v.tel = (s.logFault code w.core.val (isHdl w) true (s.item w).addr).tel → v.loam = s.loam → v.syn = s.syn →
      let t := (v.setCtx w {}).modCore w.core.val fun x => { x with idleTicks := 0 }
      t.ctx w = {} ∧ t.tel.log.head?.map LogEnt.code = some code ∧ (t.core w.core.val).nq = (s.core w.core.val).nq ∧
        (t.core w.core.val).uq = (s.core w.core.val).uq ∧ (t.core w.core.val).lastFault = code ∧ t.loam = s.loam ∧ t.syn = s.syn := by
    intro v hc ht hl hs
    have hcore : v.core w.core.val = { s.core w.core.val with lastFault := code, lastLayer := h.layer, lastOperator := h.operator } := by
      rw [State.core, hc, ← State.core, State.noteFault, State.core_modCore_self, State.core_logFault]
    have hfault : ((v.setCtx w {}).core w.core.val).lastFault = code := by
      rw [State.setCtx, State.core_modCore_self, hcore]
      cases w.ctx <;> rfl
    refine ⟨by simp, ?_, by simp [hcore], by simp [hcore], by simpa using hfault, by simpa using hl, by simpa using hs⟩
    rw [State.modCore_tel, State.setCtx_tel, ht, logFault_head]
    rfl
  split
  · rename_i m _
    obtain ⟨h1, h2, -, h4⟩ := State.retireMsg_frame ((s.logFault code w.core.val (isHdl w) true (s.item w).addr).noteFault w.core.val code h)
      w.core.val m
    exact key _ h1 (by simp [State.retireMsg_tel]) (by simp [h4]) (by simp [h2])
  · exact key _ rfl (by simp) (by simp) (by simp)

/-- The message of a handler that is not started is freed, and its credits return (R170, R172). -/
theorem State.notStarted_retires {s : State} {w : Who} {m : MsgRef} (code : Nat) (h : Hdr) (hm : (s.item w).msg = some m) :
    s.Retired w.core.val m (s.notStarted w code h) := by
  unfold State.notStarted
  dsimp only
  rw [hm]
  refine State.Retired.of (State.retireMsg_retired ((s.logFault code w.core.val (isHdl w) true (s.item w).addr).noteFault w.core.val code h)
    w.core.val m) ?_ ?_ ?_ ?_ ?_
  · simp
  · simp
  · simp
  · simp
  · exact fun o ho => by simpa using ho

/-- A message that a state retired is retired for any state with the same rings, image and straps before it. -/
theorem Touched.retired {s u t : State} {c : Nat} {m : MsgRef} (ht : Touched s u) (h : u.Retired c m t) : s.Retired c m t :=
  h.of ht.msg.symm ht.str.symm ht.id.symm rfl fun _ ho => ho

/-- The end of Idle adds nothing to what is sent. -/
theorem State.Retired.activate {s t : State} {c : Nat} {m : MsgRef} (h : s.Retired c m t) : s.Retired c m t.activate :=
  h.of rfl rfl rfl (by simp) fun o ho => by simpa using ho

/-- Settles O20: the two ways to `State.notStarted`. -/
theorem badHeaderNotStarted : Obligations.BadHeaderNotStarted := by
  unfold Obligations.BadHeaderNotStarted
  intro w s u h f hf hawake hlive hen hab hd hne
  have hm : s.MayIssue w := ⟨hawake, hlive, hen, hab⟩
  refine ⟨fun hw hp e urgent y hn hh => ?_, fun hp hh m hmsg => ?_⟩
  · obtain ⟨v, hv, hvl, ht⟩ := State.headerOf_took (y := y) hw rfl hh
    obtain ⟨hnq, huq⟩ := State.queues_took (s := s) (w := w) (y := y) (i := e.toItem s.itemNo urgent)
    have hd' : Damage.item w ∉ (s.took w.core.val (e.toItem s.itemNo urgent) y).damage := by simpa [State.took] using hd
    have hx : itemStart w s = some (v.notStarted w f h) := by
      rw [itemStart_takes hm hw hp hn]
      exact congrArg some (State.issueItem_fails hd' hv hne)
    obtain ⟨hctx, hlog, hn', hu', hlast, hloam, hsyn⟩ := v.notStarted_frame w f h
    refine ⟨_, State.row_fast hf hx, by simpa using hctx, by simpa using hlog, ?_, ?_, by simpa using hlast, ?_, ?_⟩
    · rw [State.core_activate, hn', ht.core]
      exact hnq
    · rw [State.core_activate, hu', ht.core]
      exact huq
    · rw [State.activate_loam, hloam, hvl]
    · rw [State.activate_syn, hsyn, ht.syn]
      simp [State.took]
  · have ht := Touched.of_headerOf hh
    have hx : itemStart w s = some (u.notStarted w f h) := by rw [itemStart_issuing hm hp, State.issueItem_fails hd hh hne]
    obtain ⟨hctx, hlog, -, -, -, hloam, hsyn⟩ := u.notStarted_frame w f h
    obtain ⟨hring, hcredit⟩ := (ht.retired (State.notStarted_retires f h (by rw [ht.item]; exact hmsg))).activate
    exact ⟨_, State.row_fast hf hx, by simpa using hctx, by simpa using hlog, hring, hcredit, by simpa using hloam, by simp [hsyn, ht.syn]⟩

/-! ### The end of an item -/

section
variable (s : State) (w : Who)

/-- DONE_SC receives one, and no other counter changes (R146). -/
theorem State.sc_doneArrive (hb : (s.item w).hdr.doneSc ≠ 0xFFFF → s.scBad (s.item w).hdr.doneSc = false) :
    ((s.item w).hdr.doneSc ≠ 0xFFFF → (s.doneArrive w).sc (s.item w).hdr.doneSc = s.sc (s.item w).hdr.doneSc + 1) ∧
    (∀ n, n ≠ (s.item w).hdr.doneSc → (s.doneArrive w).sc n = s.sc n) := by
  unfold State.doneArrive
  dsimp only
  split
  · rename_i h
    exact ⟨fun g => absurd h g, fun _ _ => rfl⟩
  · rename_i h
    exact ⟨fun _ => State.sc_arriveSc _ _ _ _ (hb h), fun n hn => State.sc_arriveSc_ne _ _ _ hn⟩

end

/-- What an item leaves that is gone after its arrive: a free context, its record the newest, its counter, and Loam as it was. -/
theorem State.gone_shows {s : State} {w : Who} (hb : (s.item w).hdr.doneSc ≠ 0xFFFF → s.scBad (s.item w).hdr.doneSc = false) :
    let t := ((s.doneArrive w).finishItem w).activate
    t.ctx w = {} ∧
      (t.core w.core.val).recs = ({ (s.item w).record with ended := true, stop := s.ts } :: (s.core w.core.val).recs).take 32 ∧
      ((s.item w).hdr.doneSc ≠ 0xFFFF → t.sc (s.item w).hdr.doneSc = s.sc (s.item w).hdr.doneSc + 1) ∧
      (∀ n, n ≠ (s.item w).hdr.doneSc → t.sc n = s.sc n) ∧ t.loam = s.loam := by
  obtain ⟨hctx, hsyn, hrecs⟩ := (s.doneArrive w).finishItem_frame w
  obtain ⟨hloam, -, -⟩ := (s.doneArrive w).finishItem_msg w
  obtain ⟨hself, hother⟩ := s.sc_doneArrive w hb
  have hsc (n : Nat) : ((s.doneArrive w).finishItem w).activate.sc n = (s.doneArrive w).sc n := by simp [State.sc, hsyn]
  refine ⟨by simpa using hctx, by simpa using hrecs, fun h => ?_, fun n hn => ?_, by simp [hloam]⟩
  · rw [hsc, hself h]
  · rw [hsc, hother n hn]

/-- Settles O21: the branches of `itemFinish`. -/
theorem itemEnds : Obligations.ItemEnds := by
  unfold Obligations.ItemEnds
  intro w s hf hdone
  refine ⟨fun hd => State.row_fast hf ?_, fun hd hwatch => State.row_fast_none ?_, fun hd hwatch hrel hb => ?_⟩
  · simp [itemFinish, hdone, hd]
  · simp [itemFinish, hd, hwatch]
  · have hx : itemFinish w s = some ((s.doneArrive w).finishItem w) := by
      have hgood : ¬((s.item w).hdr.doneSc ≠ 0xFFFF ∧ s.scBad (s.item w).hdr.doneSc = true) := fun g => by simp [hb g.1] at g
      unfold itemFinish
      dsimp only
      rw [if_neg (by simp [hd]), if_neg (by simp [hdone, hwatch, hrel]), if_neg hgood]
    obtain ⟨hctx, hrecs, hself, hother, hloam⟩ := State.gone_shows hb
    obtain ⟨-, hnone, hsome⟩ := (s.doneArrive w).finishItem_msg w
    refine ⟨_, State.row_fast hf hx, hctx, hrecs, hself, hother, hloam, fun h => ?_, fun m h => ?_⟩
    · rw [State.activate_msg, hnone (by simpa using h), State.doneArrive_msg]
    · have retired := (hsome m (by simpa using h)).of (v := s) (by simp) (by simp) (by simp) rfl fun _ ho => ho
      exact retired.activate

end Sys2Proof.Machine
end

section
/-! PROOFS. The settling of an aborted item (R147, R206, R57, R224). -/

namespace Sys2Proof.Machine

/-! ### Poison writes to sectors elsewhere -/

/-- Poison writes of a list of sectors: each goes out or is kept for later, behind what was sent and kept before, and cores, Loam and
counters stay. -/
theorem State.poisonFar_fold (w : Who) (no : Nat) (l : List Nat) : ∀ acc : State × List Nat,
    let q := l.foldl (fun acc a => State.poisonFar acc w no a) acc
    q.1.cores = acc.1.cores ∧ q.1.loam = acc.1.loam ∧ q.1.syn = acc.1.syn ∧ q.2.length ≤ acc.2.length + l.length ∧
      (∀ x ∈ acc.2, x ∈ q.2) ∧ (∀ o ∈ acc.1.out, o ∈ q.1.out) ∧ ∀ x ∈ l, x ∈ q.2 ∨ ∃ n, Output.memPoison n x 64 ∈ q.1.out := by
  induction l with
  | nil => intro acc; simp
  | cons a l ih =>
    intro acc
    obtain ⟨hc, hl, hs, hn, hkept, hout, hall⟩ := ih (State.poisonFar acc w no a)
    rw [List.foldl_cons]
    unfold State.poisonFar at hc hl hs hn hkept hout hall ⊢
    by_cases hroom : acc.1.txnRoom = true
    · simp only [hroom, if_true] at hc hl hs hn hkept hout hall ⊢
      refine ⟨by simpa using hc, by simpa using hl, by simpa using hs, by simp only [List.length_cons]; omega, hkept,
        fun o ho => hout o (by simp [ho]), fun x hx => ?_⟩
      rcases List.mem_cons.mp hx with rfl | hx
      · exact .inr ⟨_, hout (.memPoison (acc.1.newTxn x (.poison w no)).2 x 64) (by simp)⟩
      · exact hall x hx
    · simp only [hroom, if_false, Bool.false_eq_true] at hc hl hs hn hkept hout hall ⊢
      refine ⟨hc, hl, hs, by simp only [List.length_cons, List.length_append, List.length_nil] at hn ⊢; omega,
        fun x hx => hkept x (by simp [hx]), hout, fun x hx => ?_⟩
      rcases List.mem_cons.mp hx with rfl | hx
      · exact .inl (hkept x (by simp))
      · exact hall x hx

/-- Where the port has room the first poison write goes out, and fewer are left. -/
theorem State.poisonAll_first {s : State} (h : s.txnRoom = true) (w : Who) (no x : Nat) (l : List Nat) :
    let q := s.poisonAll w no (x :: l)
    q.2.length ≤ l.length ∧ (∃ n, Output.memPoison n x 64 ∈ q.1.out) ∧ q.1.loam = s.loam ∧ q.1.syn = s.syn := by
  unfold State.poisonAll
  rw [List.foldl_cons]
  obtain ⟨-, hl, hs, hn, -, hout, -⟩ := State.poisonFar_fold w no l (State.poisonFar (s, []) w no x)
  unfold State.poisonFar at hl hs hn hout ⊢
  simp only [h, if_true] at hl hs hn hout ⊢
  exact ⟨by simpa using hn, ⟨_, hout (.memPoison (s.newTxn x (.poison w no)).2 x 64) (by simp)⟩, hl, hs⟩

/-! ### Poison of the own Loam -/

/-- What a part of the poisoning may have changed of a state: of Loam only bytes for which `P` holds, and no tag is taken away. -/
structure State.Spoils (s t : State) (P : Nat → Prop) : Prop where
  cores : t.cores = s.cores
  syn : t.syn = s.syn
  id : t.id = s.id
  out : t.out = s.out
  tags : ∀ k ∈ s.loam.poison, k ∈ t.loam.poison
  cells : ∀ x, ¬P x → t.loam.cells.get x = s.loam.cells.get x

theorem State.Spoils.refl (s : State) (P : Nat → Prop) : s.Spoils s P := ⟨rfl, rfl, rfl, rfl, fun _ h => h, fun _ _ => rfl⟩

theorem State.Spoils.trans {s t u : State} {P : Nat → Prop} (h : s.Spoils t P) (g : t.Spoils u P) : s.Spoils u P where
  cores := g.cores.trans h.cores
  syn := g.syn.trans h.syn
  id := g.id.trans h.id
  out := g.out.trans h.out
  tags := fun k hk => g.tags k (h.tags k hk)
  cells := fun x hx => (g.cells x hx).trans (h.cells x hx)

/-- The writes beside the regions become undefined inside what the item wrote (R57). -/
theorem State.freeWrote_spoils (s : State) (h : Hdr) (r : Nat × Nat) : s.Spoils (s.freeWrote h r) fun x => r.1 ≤ x ∧ x < r.1 + r.2 := by
  refine ⟨rfl, rfl, rfl, rfl, fun _ hk => hk, fun x hx => ?_⟩
  unfold State.freeWrote
  refine List.foldlRecOn (motive := fun m => Mem.get m x = s.loam.cells.get x) _ _ rfl fun m hm p hp => ?_
  have hlt : p.1 < r.2 := List.mem_range.mp (List.of_mem_zip hp).1
  dsimp only
  split
  · exact hm
  · rw [Mem.get_set_ne _ (by omega), hm]

/-- A region's sectors in the own Loam carry a tag, and no byte of another sector changes (R147, R206). -/
theorem State.poisonRegion_spoils (s : State) (r : Nat × Nat) :
    s.Spoils (s.poisonRegion r) (fun x => ∃ l, placeOf s.id r.1 = .own l ∧ x / 64 ∈ sectorsOf l r.2) ∧
    ∀ l, placeOf s.id r.1 = .own l → ∀ k ∈ sectorsOf l r.2, k ∈ (s.poisonRegion r).loam.poison := by
  unfold State.poisonRegion
  split
  · rename_i l hl
    refine ⟨⟨rfl, rfl, rfl, rfl, fun k hk => ?_, fun x hx => ?_⟩, fun l' h' k hk => ?_⟩
    · simp [State.poisonSectors, hk]
    · exact Store.get_poisonUnits _ _ _ _ fun g => hx ⟨l, hl, g⟩
    · cases hl.symm.trans h'
      simp [State.poisonSectors, hk]
  · rename_i hno
    exact ⟨.refl _ _, fun l hl => absurd hl (hno l)⟩

/-- The sectors of a region of the own Loam hold a byte. -/
def State.InRegion (s : State) (r : Nat × Nat) (x : Nat) : Prop := ∃ l, placeOf s.id r.1 = .own l ∧ x / 64 ∈ sectorsOf l r.2

theorem State.freeWrote_all (h : Hdr) (l : List (Nat × Nat)) (s : State) :
    s.Spoils (l.foldl (fun t r => t.freeWrote h r) s) fun x => ∃ r ∈ l, r.1 ≤ x ∧ x < r.1 + r.2 :=
  List.foldlRecOn (motive := fun t => s.Spoils t _) l _ (.refl _ _) fun t ht r hr =>
    ht.trans { State.freeWrote_spoils t h r with cells := fun x hx => (State.freeWrote_spoils t h r).cells x fun g => hx ⟨r, hr, g⟩ }

theorem State.poisonRegion_all (l : List (Nat × Nat)) : ∀ s : State,
    s.Spoils (l.foldl State.poisonRegion s) (fun x => ∃ r ∈ l, s.InRegion r x) ∧
    ∀ r ∈ l, ∀ a, placeOf s.id r.1 = .own a → ∀ k ∈ sectorsOf a r.2, k ∈ (l.foldl State.poisonRegion s).loam.poison := by
  induction l with
  | nil => exact fun s => ⟨.refl _ _, fun r hr => absurd hr List.not_mem_nil⟩
  | cons r l ih =>
    intro s
    obtain ⟨h1, htag⟩ := s.poisonRegion_spoils r
    obtain ⟨h2, htags⟩ := ih (s.poisonRegion r)
    rw [h1.id] at htags
    refine ⟨State.Spoils.trans (t := s.poisonRegion r) { h1 with cells := fun x hx => h1.cells x fun g => hx ⟨r, List.mem_cons_self, g⟩ }
      { h2 with cells := fun x hx => h2.cells x fun ⟨q, hq, g⟩ => hx ⟨q, List.mem_cons_of_mem _ hq, ?_⟩ }, fun q hq => ?_⟩
    · unfold State.InRegion at g ⊢
      rwa [h1.id] at g
    · rcases List.mem_cons.mp hq with rfl | hq
      · exact fun a ha k hk => h2.tags k (htag a ha k hk)
      · exact htags q hq

/-! ### The steps -/

/-- Sweeping the copies of the watch path touches the channels alone. -/
theorem State.sweepWatch_frame (s : State) (no : Nat) : ∃ d, s.sweepWatch no = { s with dma := d } := by
  unfold State.sweepWatch
  dsimp only
  split
  exacts [⟨s.dma, rfl⟩, ⟨_, rfl⟩]

/-- The first settling poisons the outputs: own sectors are tagged, sectors elsewhere take a poison write or wait (R147, R206, R57). -/
theorem State.poisonOutputs_shows (s : State) (w : Who) :
    let q := s.poisonOutputs w
    q.1.cores = s.cores ∧ q.1.syn = s.syn ∧
      (∀ r ∈ (s.item w).hdr.regions, ∀ l, placeOf s.id r.1 = .own l → ∀ k ∈ sectorsOf l r.2, k ∈ q.1.loam.poison) ∧
      (∀ x ∈ s.farSectors (s.item w).hdr, x ∈ q.2 ∨ ∃ n, Output.memPoison n x 64 ∈ q.1.out) ∧
      (∀ x, (∀ r ∈ (s.item w).hdr.regions, ∀ l, placeOf s.id r.1 = .own l → x / 64 ∉ sectorsOf l r.2) →
        (∀ r ∈ (s.item w).wrote, x < r.1 ∨ r.1 + r.2 ≤ x) → q.1.loam.cells.get x = s.loam.cells.get x) := by
  have h1 := State.freeWrote_all (s.item w).hdr (s.item w).wrote s
  obtain ⟨h2, htags⟩ := State.poisonRegion_all (s.item w).hdr.regions ((s.item w).wrote.foldl (fun t r => t.freeWrote (s.item w).hdr r) s)
  obtain ⟨hcores, hloam, hsyn, -, -, -, hfar⟩ := State.poisonFar_fold w (s.item w).no (s.farSectors (s.item w).hdr)
    ((s.item w).hdr.regions.foldl State.poisonRegion ((s.item w).wrote.foldl (fun t r => t.freeWrote (s.item w).hdr r) s), [])
  unfold State.poisonOutputs State.poisonAll
  dsimp only
  rw [h1.id] at htags
  refine ⟨hcores.trans (h2.cores.trans h1.cores), hsyn.trans (h2.syn.trans h1.syn), ?_, hfar, fun x hr hw => ?_⟩
  · rw [hloam]
    exact htags
  · rw [hloam, h2.cells x, h1.cells x]
    · rintro ⟨r, hr, hle, hlt⟩
      have := hw r hr
      omega
    · rintro ⟨r, hm, l, hl, g⟩
      rw [h1.id] at hl
      exact hr r hm l hl g

/-- Settles O22: the three branches of `settleItem`. -/
theorem abortSettles : Obligations.AbortSettles := by
  unfold Obligations.AbortSettles
  intro w s a hf hp ha
  obtain ⟨d, hd⟩ := s.sweepWatch_frame (s.item w).no
  have habort : abortStep w s = settleItem w s := by rw [abortStep, if_pos hp]
  have hrow {t : State} (h : settleItem w s = some t) : exec (.abortSettle w) s = .next t.activate := State.row_fast hf (habort.trans h)
  unfold settleItem at hrow
  dsimp only at hrow
  rw [if_neg (not_not_intro hp), ha, hd] at hrow
  dsimp only at hrow
  rw [hd]
  refine ⟨fun hno hset => ?_, fun hpo x l hl hroom => ?_, fun hpo hl hwatch hset hrel hb => ?_⟩
  · rw [if_pos (by simp [hno]), if_neg (by simp [hset])] at hrow
    obtain ⟨hcores, hsyn, htags, hfar, hcells⟩ := ({ s with dma := d } : State).poisonOutputs_shows w
    have hctx : (({ s with dma := d } : State).poisonOutputs w).1.ctx w = s.ctx w := by rw [State.ctx, State.core, hcores]; rfl
    refine ⟨_, (({ s with dma := d } : State).poisonOutputs w).2, hrow rfl, by simp, ?_, ?_, ?_, by simp [hctx, hp], by simp [hsyn]⟩
    · rw [State.activate_loam, State.modItem_loam]
      exact htags
    · rw [State.activate_out, State.modItem_out]
      exact hfar
    · rw [State.activate_loam, State.modItem_loam]
      exact hcells
  · rw [if_neg (by simp [hpo]), if_pos (by simp [hl]), if_neg (by simpa [State.txnRoom] using hroom), hl] at hrow
    obtain ⟨hlen, ⟨n, hn⟩, hloam, hsyn⟩ := State.poisonAll_first (s := { s with dma := d }) hroom w (s.item w).no x l
    exact ⟨_, (({ s with dma := d } : State).poisonAll w (s.item w).no (x :: l)).2, hrow rfl, by simp, hlen, ⟨n, by simpa using hn⟩, by simpa using hloam, by simpa using hsyn⟩
  · rw [if_neg (by simp [hpo]), if_neg (by simp [hl]), if_neg] at hrow
    · exact ⟨_, hrow rfl, State.gone_shows (s := { s with dma := d }) hb⟩
    · rintro (g | g | g)
      · rw [hset] at g
        cases g
      · simp [hwatch] at g
      · rw [show State.doneReleased { s with dma := d } (s.item w) = s.doneReleased (s.item w) from rfl, hrel] at g
        cases g

end Sys2Proof.Machine
end

section
/-! PROOFS. The steps of a pre-emption and of the return from it (R59, R60, R108, R158). -/

namespace Sys2Proof.Machine

/-- The front registers that a pre-emption leaves are those that were there, of an instruction that the command does not own (R108). -/
theorem frontLeft_some {js : List ArrJob} {x : Option StatReg} {r : StatReg} :
    frontLeft js x = some r ↔ x = some r ∧ ∀ j ∈ js, j.no ≠ r.job := by
  simp [frontLeft, Option.filter_eq_some_iff]

/-- The command context of a core that is not the control core. -/
def cmdOf (c : Fin 4) : Who := ⟨⟨c.val, by omega⟩, .cmd⟩

section
variable {c : Fin 4} {s : State}

/-- At its point a command that waits for nothing it must end, with no pass or retry in progress, begins its save (R158 step 2). -/
theorem preemptPointStep_saves (hp : (s.ctx (cmdOf c)).phase = .preempting) (ha : (s.item (cmdOf c)).abort = none)
    (hs : (s.item (cmdOf c)).pend.stops = true) (hi : (s.item (cmdOf c)).inProgress = false)
    (hj : ∀ j ∈ s.itemJobs (cmdOf c), j.running = false ∧ j.restart = false ∧ j.retryAt = none) :
    ∃ t, preemptPointStep c s = some t ∧ (t.ctx (cmdOf c)).phase = .saving ∧
      (t.item (cmdOf c)).record.preempts = (s.item (cmdOf c)).record.preempts + 1 ∧
      (t.item (cmdOf c)).off = (s.item (cmdOf c)).off := by
  have hjobs : (s.itemJobs (cmdOf c)).any (fun j => j.running || j.restart || j.retryAt.isSome) = false := by
    rw [List.any_eq_false]
    intro j hm
    obtain ⟨h1, h2, h3⟩ := hj j hm
    simp [h1, h2, h3]
  unfold preemptPointStep
  dsimp only
  rw [show (⟨⟨c.val, by omega⟩, .cmd⟩ : Who) = cmdOf c from rfl, if_neg (by simp [hp, ha, hs, hi]), if_neg (by simp [hjobs])]
  exact ⟨_, rfl, by simp, by simp, by simp⟩

/-- When the state is saved the context is free, and of the stationary registers those of the handler are left (R108, R158). -/
theorem preemptSaved_frees (hp : (s.ctx (cmdOf c)).phase = .saving) :
    ∃ t, preemptSaved c s = some t ∧ (t.ctx (cmdOf c)).phase = .idle ∧
      (t.core c.val).saved = some (s.item (cmdOf c), s.itemJobs (cmdOf c)) ∧ (t.core c.val).back = none ∧
      (t.core c.val).front = frontLeft (s.itemJobs (cmdOf c)) (s.core c.val).front ∧
      t.loam = (s.saveCore c.val (s.item (cmdOf c)).hdr).loam := by
  unfold preemptSaved
  dsimp only
  rw [show (⟨⟨c.val, by omega⟩, .cmd⟩ : Who) = cmdOf c from rfl, if_neg (by simp [hp])]
  refine ⟨_, rfl, ?_, by simp, by simp, ?_, by simp⟩
  · simp [State.ctx, cmdOf, Core.ctx]
  · simp [(State.saveCore_calm s c.val (s.item (cmdOf c)).hdr).front]

/-- A saved command comes back when no urgent command waits and no range that it declares is held (R158 step 5). -/
theorem preemptRestoreStart_begins {i : Item} {js : List ArrJob} (hv : (s.core c.val).saved = some (i, js))
    (hp : (s.ctx (cmdOf c)).phase = .idle) (hu : (s.core c.val).uq = []) (hr : s.rangeHeld (cmdOf c) i.hdr = false) :
    preemptRestoreStart c s = some (s.setCtx (cmdOf c) { phase := .restoring, item := i }) := by
  unfold preemptRestoreStart
  dsimp only
  rw [hv]
  dsimp only
  rw [show (⟨⟨c.val, by omega⟩, .cmd⟩ : Who) = cmdOf c from rfl, if_neg (by simpa [State.ctx, cmdOf, Core.ctx] using hp), if_neg (by simp [hu, hr])]

/-- A restored command runs on (R158 step 6). -/
theorem preemptRestored_runs {i : Item} {js : List ArrJob} {u : State} (hv : (s.core c.val).saved = some (i, js))
    (hp : (s.ctx (cmdOf c)).phase = .restoring) (hu : s.restoreCore c.val i.hdr = (u, false)) :
    preemptRestored c s = some (u.modCore c.val fun x =>
      { x with saved := none, cmd := { phase := .running, item := i }, jobs := js.map ArrJob.resumed ++ x.jobs }) := by
  unfold preemptRestored
  dsimp only
  rw [show (⟨⟨c.val, by omega⟩, .cmd⟩ : Who) = cmdOf c from rfl, hp, hv]
  dsimp only
  rw [hu]
  rfl

end

/-- Settles O23: the four steps, with what the save region holds by `State.saveCore_holds` and `State.restoreCore_holds`. -/
theorem preemptionSteps : Obligations.PreemptionSteps := by
  unfold Obligations.PreemptionSteps
  intro c s hf w e fits clean saved
  refine ⟨fun hp ha hs hi hj => ?_, fun hp => ?_, fun i js hv hp hu hr => ?_, fun i js u hv hp hu => ?_⟩
  · obtain ⟨t, ht, hph, hpre, hoff⟩ := preemptPointStep_saves hp ha hs hi hj
    exact ⟨_, State.row_fast hf ht, by rw [State.ctx_activate]; exact hph, by rw [State.item_activate]; exact hpre,
      by rw [State.item_activate]; exact hoff⟩
  · obtain ⟨t, ht, hph, hsaved, hback, hfront, hloam⟩ := preemptSaved_frees hp
    refine ⟨_, State.row_fast hf ht, by rw [State.ctx_activate]; exact hph, by rw [State.core_activate]; exact hsaved,
      by rw [State.core_activate]; exact hback, fun r hr hno => ?_, fun r hr => ?_,
      fun hsound hclean hfits => ?_⟩
    · rw [State.core_activate, hfront]
      exact frontLeft_some.mpr ⟨hr, hno⟩
    · rw [State.core_activate, hfront] at hr
      exact (frontLeft_some.mp hr).2
    · have hholds := State.saveCore_holds (c := c.val) (h := (s.item (cmdOf c)).hdr) hsound.1 hclean.1 hclean.2.1 hclean.2.2 hfits
      rw [State.activate_loam, hloam]
      exact hholds
  · exact ⟨_, State.row_fast hf (preemptRestoreStart_begins hv hp hu hr), by simp [w, cmdOf], by simp [w, cmdOf]⟩
  · refine ⟨_, State.row_fast hf (preemptRestored_runs hv hp hu), by simp [w, State.ctx, Core.ctx], by simp [w, State.item, State.ctx, Core.ctx],
      by simp, fun hsound hclean hfits => ?_⟩
    obtain ⟨hkao, hvb, -⟩ := hsound.core c.val
    obtain ⟨t, ht, hloam, hholds⟩ := State.restoreCore_holds hclean.1 hclean.2.1 hclean.2.2 hkao hvb hfits
    obtain rfl : u = t := congrArg Prod.fst (hu.symm.trans ht)
    rw [State.core_activate, State.core_modCore_self, State.activate_loam, State.modCore_loam]
    exact ⟨hholds, hloam⟩

end Sys2Proof.Machine
end

section
/-! PROOFS. CLU_ENQ and CLU_CORE_CTRL from outside (R141, R157, R159). -/

namespace Sys2Proof.Machine

section
variable {p : Party} {c : Fin 5} {s : State}

/-- A permitted CLU_ENQ write is answered with what `State.enqWrite` says of it (R141). -/
theorem exec_cluEnq (h : s.portsHeld = false) (hp : (accOf p).sup = true) {v : Word64}
    (hv : v.toNat &&& (2 ^ 64 - 1 - 0x3FFFFFF) = 0) (hk : s.enqOk c.val v.toNat = true) :
    exec (.cluEnq p c v) s = .next (State.answered p (0x20 + 8 * c.val) (s.enqWrite c.val v.toNat)).activate :=
  State.row_fastRow64 h (regAt_enq c) rfl (by omega) (enq_row hp v hv hk)

/-- What an answer leaves of a state that an accepted write led to. -/
theorem answered_shows (o : Nat) (t : State) (f : Nat) :
    let u := (State.answered p o (t, f)).activate
    u.cores = t.cores ∧ u.out.getLast? = some (.regAnswer p 0 f) ∧ u.loam = t.loam ∧ u.syn = t.syn := by
  obtain ⟨hc, ho⟩ := answered_cores p o (t, f)
  exact ⟨hc, ho, by simp [State.answered], by simp [State.answered]⟩

/-- A kill of an item that runs begins its abort with CMD_KILLED (R159). -/
theorem State.killItem_running {w : Who} (hr : (s.ctx w).phase = .running) (ha : (s.item w).abort = none) :
    ((s.killItem w).ctx w).phase = .aborting ∧ ((s.killItem w).item w).record.fault = 0x0705 := by
  have hb : (s.ctx w).canBear = true := by
    rw [State.item] at ha
    simp [Ctx.canBear, hr, ha]
  have hk : s.killItem w = s.raise w 0x0705 (s.item w).addr := by simp [State.killItem, hr]
  rw [hk]
  constructor
  · rw [State.ctx_raise hb]
  · rw [State.item, State.ctx_raise hb]
    simp

/-- A flush empties both queues of the core (R159). -/
theorem State.flushQueues_empties (s : State) (c : Nat) :
    ((s.flushQueues c).core c).nq = [] ∧ ((s.flushQueues c).core c).uq = [] := by
  unfold State.flushQueues
  obtain ⟨hn, hu⟩ := State.unblock_queues (s.modCore c fun x => { x with nq := [], uq := [] }) 13 c
  rw [hn, hu]
  simp

/-- CLU_CORE_CTRL with one bit set does what that bit asks for. -/
theorem State.coreCtrl_preempt : s.coreCtrl c 1 = s.requestPreempt c.val := by
  simp [State.coreCtrl, ctlBit_1_0, ctlBit_1_1, ctlBit_1_2, ctlBit_1_3]

theorem State.coreCtrl_killCmd : s.coreCtrl c 2 = s.killItem ⟨c, .cmd⟩ := by
  simp [State.coreCtrl, ctlBit_2_0, ctlBit_2_1, ctlBit_2_2, ctlBit_2_3]

theorem State.coreCtrl_killHdl : s.coreCtrl c 4 = s.killItem ⟨c, .hdl⟩ := by
  simp [State.coreCtrl, ctlBit_4_0, ctlBit_4_1, ctlBit_4_2, ctlBit_4_3]

theorem State.coreCtrl_flush : s.coreCtrl c 8 = s.flushQueues c.val := by
  simp [State.coreCtrl, ctlBit_8_0, ctlBit_8_1, ctlBit_8_2, ctlBit_8_3]

/-- A pre-emption request to the control core fails the range check (R157, R256). -/
theorem writeFault_preemptControl (hp : (accOf p).sup = true) (h4 : c.val = 4) :
    writeFault fastBlocks s (accOf p) ⟨⟨0x0050, 4, 5, 4, .S, false, 0xF⟩, c.val, 0⟩ 1 = 0x0C01 := by
  have hmask : 1 &&& (2 ^ 64 - 1 - 0xF) = 0 := ctl_masks.1
  simp [writeFault, RPriv.allows, hp, fastBlocks, State.fastRange, h4, ctlBit_1_0]

end

/-- Settles O24: the rows of the two registers, and what each bit does. -/
theorem coreControlRegisters : Obligations.CoreControlRegisters := by
  unfold Obligations.CoreControlRegisters
  intro p c s h hp
  obtain ⟨m1, m2, m4, m8⟩ := ctl_masks
  have ctl (v : Nat) (hv : v &&& (2 ^ 64 - 1 - 0xF) = 0) (h4 : ¬(bitAt v 0 = true ∧ c.val = 4)) (h32 : v < 2 ^ 32) :=
    ctl_row (c := c) v h hp hv h4 h32
  refine ⟨fun v hv hk => ⟨fun hn hroom => ?_, fun hn hroom hph => ?_, fun hfull => ?_⟩, fun hc hr hu ha hs => ?_, fun h4 => ?_,
    fun hr ha => ?_, fun hr ha => ?_, ?_⟩
  · obtain ⟨hnq, huq, -⟩ := s.enqueue_normal c.val ⟨bits v.toNat 24 0, true, none⟩
    obtain ⟨hloam, hsyn, -⟩ := s.enqueue_frame c.val ⟨bits v.toNat 24 0, true, none⟩ false
    have he : s.enqWrite c.val v.toNat = (s.enqueue c.val false ⟨bits v.toNat 24 0, true, none⟩, 0) := by
      simp [State.enqWrite, hn, Core.roomFor, hroom]
    obtain ⟨gc, go, gl, gs⟩ := answered_shows (p := p) (0x20 + 8 * c.val) (s.enqueue c.val false ⟨bits v.toNat 24 0, true, none⟩) 0
    refine ⟨_, exec_cluEnq h hp hv hk, ?_⟩
    rw [he]
    exact ⟨by rw [State.core, gc, ← State.core, hnq], by rw [State.core, gc, ← State.core, huq], go, gl.trans hloam, gs.trans hsyn⟩
  · obtain ⟨hloam, hsyn, -⟩ := s.enqueue_frame c.val ⟨bits v.toNat 24 0, true, none⟩ true
    have he : s.enqWrite c.val v.toNat = (s.enqueue c.val true ⟨bits v.toNat 24 0, true, none⟩, 0) := by
      simp [State.enqWrite, hn, Core.roomFor, hroom]
    obtain ⟨gc, go, gl, gs⟩ := answered_shows (p := p) (0x20 + 8 * c.val) (s.enqueue c.val true ⟨bits v.toNat 24 0, true, none⟩) 0
    refine ⟨_, exec_cluEnq h hp hv hk, ?_⟩
    rw [he]
    exact ⟨by rw [State.core, gc, ← State.core, State.enqueue_urgent_uq], by rw [State.core, gc, ← State.core, State.enqueue_urgent_nq _ _ _ hph],
      go, gl.trans hloam, gs.trans hsyn⟩
  · have he : s.enqWrite c.val v.toNat = (s, 0x0704) := by simp [State.enqWrite, hfull]
    obtain ⟨gc, go, -⟩ := answered_shows (p := p) (0x20 + 8 * c.val) s 0x0704
    refine ⟨_, exec_cluEnq h hp hv hk, ?_⟩
    rw [he]
    exact ⟨gc, go⟩
  · obtain ⟨gc, -⟩ := answered_shows (p := p) (0x50 + 4 * c.val) (s.requestPreempt c.val) 0
    refine ⟨_, ctl 1 m1 (fun g => by omega) (by decide), ?_⟩
    have hcmd := State.cmd_requestPreempt hc hr hu ha hs
    rw [State.coreCtrl_preempt, State.item, State.ctx, State.core, gc, ← State.core]
    exact ⟨congrArg Ctx.phase hcmd, (congrArg Ctx.item hcmd).trans rfl⟩
  · obtain ⟨gc, go, -⟩ := answered_shows (p := p) (0x50 + 4 * c.val) s 0x0C01
    have hw := writeFault_preemptControl (p := p) (c := c) (s := s) hp h4
    refine ⟨_, State.row_fastRow_bad h (regAt_ctl c) (by simp) (by omega) (by decide) (by rw [hw]; decide), ?_⟩
    rw [hw]
    exact ⟨gc, go⟩
  · obtain ⟨gc, -⟩ := answered_shows (p := p) (0x50 + 4 * c.val) (s.killItem ⟨c, .cmd⟩) 0
    refine ⟨_, ctl 2 m2 (fun g => by simp [ctlBit_2_0] at g) (by decide), ?_⟩
    rw [State.coreCtrl_killCmd, State.item, State.ctx, State.core, gc, ← State.core]
    exact State.killItem_running (w := ⟨c, .cmd⟩) hr ha
  · obtain ⟨gc, -⟩ := answered_shows (p := p) (0x50 + 4 * c.val) (s.killItem ⟨c, .hdl⟩) 0
    refine ⟨_, ctl 4 m4 (fun g => by simp [ctlBit_4_0] at g) (by decide), ?_⟩
    rw [State.coreCtrl_killHdl, State.item, State.ctx, State.core, gc, ← State.core]
    exact State.killItem_running (w := ⟨c, .hdl⟩) hr ha
  · obtain ⟨gc, -⟩ := answered_shows (p := p) (0x50 + 4 * c.val) (s.flushQueues c.val) 0
    refine ⟨_, ctl 8 m8 (fun g => by simp [ctlBit_8_0] at g) (by decide), ?_⟩
    rw [State.coreCtrl_flush, State.core, gc, ← State.core]
    exact State.flushQueues_empties s c.val

end Sys2Proof.Machine
end

section
/-! PROOFS. ARR.MMA and ARR.EMUL join the jobs of their core or abort (R81 to R83, R151). -/

namespace Sys2Proof.Machine

/-- A core that one more job joins. -/
def Core.joined (x : Core) (j : ArrJob) : Core := { x with jobs := x.jobs ++ [j], jobNo := x.jobNo + 1 }

section
variable {s u : State} {w : Who} {len : Nat} {o : MmaOp} {eb ab bb : List Byte}

/-- A matrix instruction with a pass to run, whose checks pass, which waits for no earlier one and has its batch, joins its core's jobs. -/
theorem issueMma_joins (he : s.mmaFault w o = 0) (hc : s.mmaChains w o = (u, .ok (eb, ab, bb))) (hj : u.itemJobs w = [])
    (hb : o.abatch = true → (u.bqOf o.aAddr).shipped ≠ []) (hp : 0 < (o.passes (u.str.live.width u.id.edgeLog2 w.core.val)).length) :
    ∃ j : ArrJob, issueMma w len o s = some ((u.modCore w.core.val fun x => x.joined j).advance w len) ∧ j.who = w ∧ j.op = o ∧ j.epi = eb ∧
      j.passes = (o.passes (u.str.live.width u.id.edgeLog2 w.core.val)).length ∧ j.next = 0 ∧ j.running = false ∧
      (o.abatch = true → (u.bqOf o.aAddr).shipped.head? = some j.rows) := by
  obtain ⟨rows, hrows⟩ : ∃ rows, (if o.abatch then (u.bqOf o.aAddr).shipped.head? else some []) = some rows := by
    split
    · rename_i ha
      exact ⟨_, List.head?_eq_some_head (hb ha)⟩
    · exact ⟨_, rfl⟩
  have hwait (f : Foot) : u.mustWait w f = false := by simp [State.mustWait, hj]
  unfold issueMma
  dsimp only
  rw [if_neg (not_not_intro he), hc]
  dsimp only
  rw [if_neg (by simp [hwait]), if_neg (fun g => Nat.ne_of_gt hp g.1), hrows]
  dsimp only
  rw [if_neg (Nat.ne_of_gt hp)]
  refine ⟨_, rfl, rfl, rfl, rfl, rfl, rfl, rfl, fun ha => ?_⟩
  rwa [if_pos ha] at hrows

/-- What is left when a job has joined and its item goes on. -/
theorem joined_shows (u : State) (w : Who) (len : Nat) (j : ArrJob) :
    let v := ((u.modCore w.core.val fun x => x.joined j).advance w len).activate
    (v.core w.core.val).jobs = (u.core w.core.val).jobs ++ [j] ∧ (v.item w).off = (u.item w).off + len ∧
      (v.ctx w).phase = (u.ctx w).phase ∧ (v.core w.core.val).kaolin = (u.core w.core.val).kaolin ∧ v.loam = u.loam ∧ v.syn = u.syn := by
  have hctx : (u.modCore w.core.val fun x => x.joined j).ctx w = u.ctx w :=
    State.ctx_modCore_of u (f := fun x => x.joined j) (fun _ => ⟨rfl, rfl⟩) w
  have hitem : (u.modCore w.core.val fun x => x.joined j).item w = u.item w := by rw [State.item, hctx, ← State.item]
  exact ⟨by simp [Core.joined], by simp [hitem], by simp [hctx], by simp [Core.joined], by simp, by simp⟩

end

/-- Settles O25: each of the two rows is `issueMma`. -/
theorem matrixInstructionsIssue : Obligations.MatrixInstructionsIssue := by
  unfold Obligations.MatrixInstructionsIssue
  intro w s t len o h i
  have hrow {v : State} (hv : issueMma w len o t = some v) : exec i s = .next v.activate := by
    by_cases he : o.emul = true
    · rw [show i = .arrEmul w from if_pos he]
      exact State.row_issue h (by simpa [he] using hv)
    · rw [show i = .arrMma w from if_neg he]
      exact State.row_issue h (by simpa [he] using hv)
  refine ⟨fun hf => ?_, fun u eb ab bb hf hc hj hb hp => ?_⟩
  · have hx : issueMma w len o t = some (t.raise w (t.mmaFault w o) o.kbase) := by simp [issueMma, hf]
    exact ⟨_, hrow hx, h.raised (.refl t)⟩
  · have ht : Touched s u := h.touched.trans (by simpa [hc] using Touched.mmaChains t w o)
    have hbq : u.bqOf o.aAddr = s.bqOf o.aAddr := by simp [State.bqOf, ht.bq]
    obtain ⟨j, hx, hwho, hop, hepi, hpass, hnext, hrun, hrows⟩ := issueMma_joins (len := len) hf hc (by rwa [ht.itemJobs]) (by rwa [hbq])
      (by rwa [ht.str, ht.id])
    obtain ⟨vjobs, voff, vphase, vkao, vloam, vsyn⟩ := joined_shows u w len j
    rw [ht.core] at vjobs vkao
    rw [ht.item] at voff
    rw [ht.ctx] at vphase
    exact ⟨_, j, hrow hx, vjobs, hwho, hop, hepi, by rw [hpass, ht.str, ht.id], hnext, hrun, by rwa [hbq] at hrows, voff, vphase, vkao, vloam,
      vsyn.trans ht.syn⟩

end Sys2Proof.Machine
end

section
/-! PROOFS. Array passes, the load for the pass behind, their retry and the ramp down (R87, R88, R101 to R104). -/

namespace Sys2Proof.Machine

/-! ### The instruction that runs -/

/-- A job of core `c` runs as the next pass of job `j`. -/
def State.Runs (t : State) (c : Nat) (j : ArrJob) : Prop :=
  ∃ k ∈ (t.core c).jobs, k.running = true ∧ k.op = j.op ∧ k.who = j.who ∧ k.itemNo = j.itemNo ∧ k.no = j.no ∧ k.next = j.next

theorem find_beq {l : List ArrJob} {j : ArrJob} (h : j ∈ l) : l.find? (· == j) = some j := by
  obtain ⟨k, hk⟩ := Option.isSome_iff_exists.mp (List.find?_isSome (p := fun x => x == j).mpr ⟨j, h, beq_self_eq_true j⟩)
  have hbeq : (k == j) = true := List.find?_some (p := fun x => x == j) hk
  rw [hk, eq_of_beq hbeq]

theorem mem_modFirst_or {α : Type} (p : α → Bool) (f : α → α) {l : List α} {x : α} (h : x ∈ l) :
    x ∈ modFirst p f l ∨ f x ∈ modFirst p f l := by
  induction l with
  | nil => cases h
  | cons a l ih =>
    unfold modFirst
    split
    · rcases List.mem_cons.mp h with rfl | h
      · exact .inr List.mem_cons_self
      · exact .inl (List.mem_cons_of_mem _ h)
    · rcases List.mem_cons.mp h with rfl | h
      · exact .inl List.mem_cons_self
      · exact (ih h).imp (List.mem_cons_of_mem _) (List.mem_cons_of_mem _)

theorem State.nextJob_mem {s : State} {c : Nat} {j : ArrJob} (h : s.nextJob c = some j) :
    j ∈ (s.core c).jobs ∧ s.passReady c j = true := by
  have hl : j ∈ (s.core c).jobs.filter (s.passReady c) := by
    unfold State.nextJob at h
    dsimp only at h
    split at h
    · rename_i k hk
      cases h
      exact List.mem_of_find?_eq_some hk
    · exact List.mem_of_head? h
  exact List.mem_filter.mp hl

/-! ### The pass that begins -/

theorem State.statLoad_holds {s u : State} {j : ArrJob} {r : StatReg} (h : s.statLoad j j.next = (u, .ok r)) :
    j.heldIn (some r) = true := by
  have key : r.job = j.no ∧ r.pass = j.loadPass j.next := by
    unfold State.statLoad at h
    split at h
    · cases h
      exact ⟨rfl, rfl⟩
    · dsimp only at h
      injection h with _ h2
      split at h2
      · cases h2
        exact ⟨rfl, rfl⟩
      · cases h2
  simp [ArrJob.heldIn, StatReg.holds, key]

/-- A pass that begins changes of its core the jobs, the stationary registers and the ramp alone. -/
theorem State.beginPass_shows (v : State) (c : Nat) (j k : ArrJob) (front back : Option StatReg) :
    let b := v.beginPass c j k front back
    (b.core c).front = front ∧ (b.core c).back = back ∧ (b.core c).ramp = 4 ∧ (b.core c).kaolin = (v.core c).kaolin ∧ b.loam = v.loam ∧
      (∀ w, (b.ctx w).canBear = (v.ctx w).canBear) := by
  unfold State.beginPass
  refine ⟨by simp, by simp, by simp, by simp, by simp, fun w => ?_⟩
  rw [State.ctx_modCore_of (c := c) (f := fun x => { x with
    jobs := (modFirst (· == j) (fun _ => k) x.jobs).map fun i => if i.no = k.no then i else { i with loadRun := 0 }
    front := front, back := back, ramp := 4 }) v (fun _ => ⟨rfl, rfl⟩) w]

/-- The job that begins its pass is among the jobs. -/
theorem State.beginPass_mem {v : State} {c : Nat} {j : ArrJob} (k : ArrJob) (front back : Option StatReg) (hj : j ∈ (v.core c).jobs) :
    k ∈ ((v.beginPass c j k front back).core c).jobs := by
  unfold State.beginPass
  rw [State.core_modCore_self]
  exact List.mem_map.mpr ⟨k, mem_modFirst _ (fun _ => k) _ _ (find_beq hj), if_pos rfl⟩

/-- The next pass begins where its sub-tile is held or its load succeeds: as another state of the job, over a state that the load left. -/
theorem State.passBegun_ok {s : State} {c : Nat} {j : ArrJob}
    (h : (j.op.emul = true ∨ j.heldIn (s.core c).front = true ∨ j.heldIn (s.core c).back = true) ∨ ∃ u r, s.statLoad j j.next = (u, .ok r)) :
    ∃ v k front back, s.passBegun c j = (v.beginPass c j k front back, .ok k) ∧ Fed s v ∧
      (k.running = true ∧ k.op = j.op ∧ k.who = j.who ∧ k.itemNo = j.itemNo ∧ k.no = j.no ∧ k.next = j.next ∧ k.passes = j.passes) ∧
      (j.op.emul = false → j.heldIn front = true) := by
  unfold State.passBegun
  dsimp only
  by_cases he : j.op.emul = true
  · rw [if_pos he]
    exact ⟨_, _, _, _, rfl, .refl s, ⟨rfl, rfl, rfl, rfl, rfl, rfl, rfl⟩, fun g => by rw [he] at g; cases g⟩
  rw [if_neg he]
  by_cases hf : j.heldIn (s.core c).front = true
  · rw [if_pos hf]
    exact ⟨_, _, _, _, rfl, .refl s, ⟨rfl, rfl, rfl, rfl, rfl, rfl, rfl⟩, fun _ => hf⟩
  rw [if_neg hf]
  by_cases hb : j.heldIn (s.core c).back = true
  · rw [if_pos hb]
    exact ⟨_, _, _, _, rfl, .refl s, ⟨rfl, rfl, rfl, rfl, rfl, rfl, rfl⟩, fun _ => hb⟩
  rw [if_neg hb]
  obtain ⟨u, r, hr⟩ := h.resolve_left fun g => g.elim he fun g => g.elim hf hb
  have hfed : Fed s u := by simpa [hr] using State.statLoad_fed (j := j) (n := j.next) (Fed.refl s)
  rw [hr]
  exact ⟨_, _, _, _, rfl, hfed, ⟨rfl, rfl, rfl, rfl, rfl, rfl, rfl⟩, fun _ => State.statLoad_holds hr⟩

/-- Where its sub-tile must be loaded and the read fails, no pass begins. -/
theorem State.passBegun_bad {s u : State} {c : Nat} {j : ArrJob} {e : Nat}
    (h : ¬(j.op.emul = true ∨ j.heldIn (s.core c).front = true ∨ j.heldIn (s.core c).back = true)) (hr : s.statLoad j j.next = (u, .bad e)) :
    s.passBegun c j = (u, .bad e) := by
  obtain ⟨he, hf, hb⟩ : ¬j.op.emul = true ∧ ¬j.heldIn (s.core c).front = true ∧ ¬j.heldIn (s.core c).back = true := by simpa using h
  unfold State.passBegun
  dsimp only
  rw [if_neg he, if_neg hf, if_neg hb, hr]

/-! ### The load behind it -/

/-- The load behind a pass leaves the front registers and the ramp; where the read succeeds the job that runs stays one that runs. -/
theorem State.loadBack_ok {b u : State} {c : Nat} {j n : ArrJob} {m : Nat} {r : StatReg} (h : b.statLoad n m = (u, .ok r)) (hj : b.Runs c j) :
    (b.loadBack c n m).Runs c j ∧ ((b.loadBack c n m).core c).back = some r ∧
      ((b.loadBack c n m).core c).front = (b.core c).front ∧ ((b.loadBack c n m).core c).ramp = (b.core c).ramp := by
  have hcalm : Calm b u := by simpa [h] using (State.statLoad_fed (j := n) (n := m) (Fed.refl b)).toCalm
  have hx : b.loadBack c n m = (u.modCore c fun x => { x with back := some r }).modJob c (·.no == n.no) (·.loadedBy r) := by
    rw [State.loadBack, h]
  obtain ⟨k, hk, hruns⟩ := hj
  rw [hx]
  unfold State.modJob
  refine ⟨?_, by simp, by simp [hcalm.front], by simp [hcalm.ramp]⟩
  rw [← hcalm.jobs] at hk
  unfold State.Runs
  rw [State.core_modCore_self, State.core_modCore_self]
  rcases mem_modFirst_or (·.no == n.no) (·.loadedBy r) hk with g | g
  · exact ⟨k, g, hruns⟩
  · exact ⟨_, g, hruns⟩

/-- A read that fails is the fault of the item of the pass behind, and of no other. -/
theorem State.loadBack_bad {b u : State} {c : Nat} {j n : ArrJob} {m e : Nat} (h : b.statLoad n m = (u, .bad e)) (hj : b.Runs c j)
    (hb : (b.ctx n.who).canBear = true) :
    ((b.loadBack c n m).ctx n.who).phase = .aborting ∧ ((b.loadBack c n m).item n.who).record.fault = e ∧
      (n.who ≠ j.who → (b.loadBack c n m).Runs c j) ∧
      ((b.loadBack c n m).core c).front = (b.core c).front ∧ ((b.loadBack c n m).core c).ramp = (b.core c).ramp := by
  have hcalm : Calm b u := by simpa [h] using (State.statLoad_fed (j := n) (n := m) (Fed.refl b)).toCalm
  have hx : b.loadBack c n m = u.raise n.who e n.op.kbase := by rw [State.loadBack, h]
  have hu : (u.ctx n.who).canBear = true := (hcalm.bear _).trans hb
  obtain ⟨k, hk, hruns⟩ := hj
  obtain ⟨hregs, -⟩ := u.raise_array n.who e n.op.kbase
  rw [hx]
  refine ⟨by rw [State.ctx_raise hu], by simp [State.item, State.ctx_raise hu], fun hne => ⟨k, ?_, hruns⟩, (hregs c).1.trans (hcalm.front c),
    (hregs c).2.1.trans (hcalm.ramp c)⟩
  exact State.raise_jobs hu e n.op.kbase c (by rwa [hcalm.jobs]) (by rw [hruns.2.2.1]; exact Ne.symm hne)

/-- Also where the item cannot bear the fault the front registers and the ramp stay. -/
theorem State.preload_regs (b : State) (c : Nat) (k : ArrJob) :
    ((b.preload c k).core c).front = (b.core c).front ∧ ((b.preload c k).core c).ramp = (b.core c).ramp := by
  unfold State.preload
  split
  · exact ⟨rfl, rfl⟩
  · rename_i n _
    unfold State.loadBack
    dsimp only
    have hcalm := (State.statLoad_fed (j := n) (n := n.next) (Fed.refl b)).toCalm
    split
    · obtain ⟨hregs, -⟩ := (b.statLoad n n.next).1.raise_array n.who (by assumption) n.op.kbase
      exact ⟨(hregs c).1.trans (hcalm.front c), (hregs c).2.1.trans (hcalm.ramp c)⟩
    · simp [State.modJob, hcalm.front, hcalm.ramp]

theorem State.behind_some {b : State} {c : Nat} {k n : ArrJob} (h : b.behind c k = some n) :
    b.jobAfter c k = some n ∧ n.op.emul = false ∧ n.heldIn (b.core c).front = false ∧ n.heldIn (b.core c).back = false ∧
      n.tLoad n.next ≤ k.streamLen k.next * k.op.aw := by
  unfold State.behind at h
  split at h
  · cases h
  · rename_i m hm
    split at h
    · cases h
    · cases h
      simp_all [ArrJob.hides]

/-- The last pass of the only instruction has none behind it. -/
theorem State.behind_last {v : State} {c : Nat} {j k : ArrJob} {front back : Option StatReg} (hj : (v.core c).jobs = [j])
    (hn : k.next + 1 = k.passes) : (v.beginPass c j k front back).behind c k = none := by
  have hjobs : ((v.beginPass c j k front back).core c).jobs = [k] := by simp [State.beginPass, hj, modFirst]
  have hafter : (v.beginPass c j k front back).jobAfter c k = none := by
    unfold State.jobAfter
    refine Option.eq_none_iff_forall_ne_some.mpr fun n hm => ?_
    obtain ⟨hmem, hready⟩ := State.nextJob_mem hm
    rw [State.modJob, State.core_modCore_self, hjobs] at hmem
    obtain rfl : n = { k with next := k.next + 1 } := by simpa [modFirst] using hmem
    simp [State.passReady, hn] at hready
  simp [State.behind, hafter]

/-! ### The end of a pass -/

/-- The columns whose sums differ are those in service in which an error changed S (R102). -/
theorem State.differing_residues (u : State) (c : Nat) (j : ArrJob) (x : Pass) (err : List Nat) (a b : List (List DecBlk)) :
    differing (u.residues c j x err a b) = u.inService c err := by
  rw [State.residues, differing_passSums, State.inService]

theorem State.holdSums_calm (u : State) (c : Nat) (l : List (Nat × Nat × Nat)) : Calm u (u.holdSums c l) :=
  Calm.modCore u c _ (fun _ => rfl) (fun _ => rfl) (fun _ => rfl) (fun _ => rfl) (fun _ => rfl) ⟨rfl, rfl⟩

/-- A pass without a mismatch leaves the instruction, not running, at its next pass. -/
theorem State.passDone_next {s : State} {c : Nat} {j : ArrJob} (h : (s.core c).jobs.find? (·.running) = some j) (hn : j.next + 1 < j.passes) :
    ∃ k ∈ ((s.passDone c j).core c).jobs, k.op = j.op ∧ k.no = j.no ∧ k.next = j.next + 1 ∧ k.running = false := by
  have key : ∀ (t : State) (f : ArrJob → ArrJob), (t.core c).jobs = (s.core c).jobs →
      (f j).op = j.op ∧ (f j).no = j.no ∧ (f j).next = j.next + 1 ∧ (f j).running = false ∧ (f j).passes = j.passes →
      ∃ k ∈ (((t.modJob c (fun k => k.running) f).dropDone c).core c).jobs, k.op = j.op ∧ k.no = j.no ∧ k.next = j.next + 1 ∧ k.running = false := by
    intro t f ht ⟨hop, hno, hnext, hrun, hpass⟩
    refine ⟨f j, ?_, hop, hno, hnext, hrun⟩
    rw [State.dropDone, State.core_modCore_self, State.modJob, State.core_modCore_self, ht]
    refine List.mem_filter.mpr ⟨mem_modFirst _ _ _ _ h, ?_⟩
    have hleft : ¬(f j).passes ≤ (f j).next := by omega
    simp [hleft]
  have hretry (t : State) (w : Who) (n : Nat) (ht : (t.core c).jobs = (s.core c).jobs) : ((t.countRetry w n).core c).jobs = (s.core c).jobs :=
    (countRetry_core t w n c).1.trans ht
  have hpad (t : State) (o : MmaOp) (ht : (t.core c).jobs = (s.core c).jobs) : ((t.freePadding c o).core c).jobs = (s.core c).jobs :=
    ((t.freePadding_calm c o).jobs c).trans ht
  unfold State.passDone
  dsimp only
  refine key _ _ ?_ ⟨rfl, rfl, rfl, rfl, rfl⟩
  have hends : ((if (j.retryAt == some j.next) = true then s.countRetry j.who j.bad.length else s).core c).jobs = (s.core c).jobs := by
    split
    exacts [hretry s _ _ rfl, rfl]
  generalize (if (j.retryAt == some j.next) = true then s.countRetry j.who j.bad.length else s) = t at hends
  by_cases hpads : decide (j.top ≤ j.next) = true ∧ j.next = if 9 ≤ j.op.sw then 1 else 0
  · rw [if_pos hpads]
    exact hpad t _ hends
  · rw [if_neg hpads]
    exact hends

/-- A first mismatch, where the accumulators go back to the retry point, asks for a restart (R103). -/
theorem State.mismatch_first {s y : State} {c : Nat} {j : ArrJob} (cols : List Nat) (h : (s.core c).jobs.find? (·.running) = some j)
    (hp : j.retryPoint ≠ .nowhere) (hr : j.retryAt = none) (hy : s.restoreGrid c j = (y, 0)) :
    ∃ k ∈ ((s.mismatch c j cols).core c).jobs, k.op = j.op ∧ k.no = j.no ∧ k.next = j.next ∧ k.running = false ∧ k.restart = true ∧
      k.retryAt = some j.next := by
  have hjobs : (y.core c).jobs = (s.core c).jobs := by simpa [hy] using restoreGrid_jobs s c j
  unfold State.mismatch
  rw [if_neg (by simp [hp, hr]), hy]
  dsimp only
  rw [if_neg (by simp), State.core_modCore_self, State.modJob, State.core_modCore_self]
  exact ⟨_, mem_modFirst _ _ _ _ (hjobs ▸ h), rfl, rfl, rfl, rfl, rfl, rfl⟩

/-- A repeated mismatch, or one with no retry point, marks its columns suspect and aborts the item (R104). -/
theorem State.mismatch_again {s : State} {c : Nat} {j : ArrJob} {cols : List Nat} (hc : cols ≠ [])
    (hr : j.retryPoint = .nowhere ∨ j.retryAt.isSome = true) (hb : (s.ctx j.who).canBear = true) :
    ((s.mismatch c j cols).ctx j.who).phase = .aborting ∧ ((s.mismatch c j cols).item j.who).record.fault = 0x0403 ∧
      ∀ k ∈ cols, k ∈ ((s.mismatch c j cols).core c).suspect := by
  have key : ∀ t : State, (t.ctx j.who).canBear = true →
      let u := cols.foldl (fun t k => t.raise j.who 0x0403 k) (t.suspect c cols)
      (u.ctx j.who).phase = .aborting ∧ (u.item j.who).record.fault = 0x0403 ∧ ∀ k ∈ cols, k ∈ (u.core c).suspect := by
    intro t ht
    obtain ⟨hph, hf, hregs⟩ := State.raise_each (w := j.who) cols (t.suspect c cols) hc (by rwa [suspect_ctx]) 0x0403 (by decide)
    exact ⟨hph, hf, fun k hk => (hregs c).2.2 ▸ t.suspect_mem c cols hk⟩
  unfold State.mismatch
  rw [if_pos hr]
  dsimp only
  split
  · exact key _ (by rwa [countRetry_canBear])
  · exact key s hb

/-! ### The rows -/

section
variable {c : Fin 4} {s : State}

/-- PASS_START where a pass begins. -/
theorem exec_passStart_begins (hf : s.fastOn = true) {j : ArrJob} (hidle : ∀ k ∈ (s.core c.val).jobs, k.running = false)
    (hj : s.nextJob c.val = some j)
    (h : (j.op.emul = true ∨ j.heldIn (s.core c.val).front = true ∨ j.heldIn (s.core c.val).back = true) ∨
      ∃ u r, s.statLoad j j.next = (u, .ok r)) :
    ∃ v k front back, s.passBegun c.val j = (v.beginPass c.val j k front back, .ok k) ∧ Fed s v ∧
      (k.running = true ∧ k.op = j.op ∧ k.who = j.who ∧ k.itemNo = j.itemNo ∧ k.no = j.no ∧ k.next = j.next ∧ k.passes = j.passes) ∧
      (j.op.emul = false → j.heldIn front = true) ∧
      exec (.passStart c) s = .next ((v.beginPass c.val j k front back).preload c.val k).activate := by
  obtain ⟨v, k, front, back, hbegun, hfed, hk, hheld⟩ := State.passBegun_ok h
  refine ⟨v, k, front, back, hbegun, hfed, hk, hheld, State.row_fast hf ?_⟩
  have hany : (s.core c.val).jobs.any (·.running) = false := by simpa [List.any_eq_false] using hidle
  simp [passStartStep, hany, hj, hbegun]

/-- PASS_START where the load of the pass fails. -/
theorem exec_passStart_fails (hf : s.fastOn = true) {j : ArrJob} {u : State} {e : Nat} (hidle : ∀ k ∈ (s.core c.val).jobs, k.running = false)
    (hj : s.nextJob c.val = some j) (hbad : s.passBegun c.val j = (u, .bad e)) :
    exec (.passStart c) s = .next (u.raise j.who e j.op.kbase).activate := by
  refine State.row_fast hf ?_
  have hany : (s.core c.val).jobs.any (·.running) = false := by simpa [List.any_eq_false] using hidle
  simp [passStartStep, hany, hj, hbad]

/-- PASS_END is its step where the columns it names are ones the array has. -/
theorem exec_passEnd {err : List Nat} {t : State} (hf : s.fastOn = true) (hc : columnsOk err = true) (h : passEndStep c.val err s = some t) :
    exec (.passEnd c err) s = .next t.activate := State.row_checked hc (State.row_fast hf h)

/-- The step of a pass whose rows were read. -/
theorem passEndStep_ok {j : ArrJob} {x : Pass} {err : List Nat} {u : State} {a b : List (List DecBlk)}
    (h : (s.core c.val).jobs.find? (·.running) = some j) (hx : (j.op.passes j.width)[j.next]? = some x)
    (hr : s.passRows j x (decide (j.top ≤ j.next)) = (u, .ok (a, b))) :
    passEndStep c.val err s =
      let v := u.holdSums c.val (u.residues c.val j x err a b)
      if !(u.inService c.val err).isEmpty then some (v.mismatch c.val j (u.inService c.val err))
      else
        let r := if x.low then (v, Rd.ok ()) else v.addPass j x (decide (j.top ≤ j.next)) a b
        match r.2 with
        | .bad e => some (r.1.raise j.who e j.op.kbase)
        | .ok _ => some (r.1.passDone c.val j) := by
  unfold passEndStep
  rw [h]
  dsimp only
  rw [hx]
  dsimp only
  rw [hr]
  dsimp only
  rw [State.differing_residues] <;> rfl

end

/-- Settles O26: what the two steps do to the jobs, the registers and the items. -/
theorem passesRunAndRetry : Obligations.PassesRunAndRetry := by
  unfold Obligations.PassesRunAndRetry
  intro c s hf runs held
  refine ⟨fun j hidle hj => ⟨fun hheld => ?_, fun u e hnot hu hb => ?_⟩, fun j hrun => ?_, fun u j x err a b => u.differing_residues c.val j x err a b,
    fun j x err hcols hrun hx => ⟨fun u e hu hb => ?_, fun u a b hu => ?_⟩, fun j l r hjobs hl hre => ?_, fun hidle hnone hramp => ?_⟩
  · obtain ⟨v, k, front, back, hbegun, hfed, ⟨krun, kop, kwho, kitem, kno, knext, kpass⟩, hfront, hstep⟩ := exec_passStart_begins hf hidle hj hheld
    obtain ⟨bfront, bback, bramp, bkao, bloam, bbear⟩ := v.beginPass_shows c.val j k front back
    have hmem : j ∈ (v.core c.val).jobs := by rw [hfed.jobs]; exact (State.nextJob_mem hj).1
    have hruns : (v.beginPass c.val j k front back).Runs c.val j := ⟨k, State.beginPass_mem k front back hmem, krun, kop, kwho, kitem, kno, knext⟩
    obtain ⟨pfront, pramp⟩ := (v.beginPass c.val j k front back).preload_regs c.val k
    refine ⟨_, _, k, hstep, hbegun, by simp [pramp, bramp], fun he => by simp [pfront, bfront, hfront he], hruns, fun hk => bkao.trans (hfed.kao _ hk),
      fun hl => bloam.trans (hfed.loam hl), fun hno => ?_, fun hone hlast => ?_, fun n hn => ?_⟩
    · simp [State.preload, hno]
    · exact State.behind_last (by rw [hfed.jobs]; exact hone) (by rw [knext, kpass]; exact hlast)
    · obtain ⟨hafter, hemul, hnf, hnb, hload⟩ := State.behind_some hn
      have hpre : (v.beginPass c.val j k front back).preload c.val k = (v.beginPass c.val j k front back).loadBack c.val n n.next := by
        simp [State.preload, hn]
      refine ⟨hafter, hemul, hnf, hnb, hload, fun u r hu => ?_, fun u e hu hb => ?_⟩
      · obtain ⟨lruns, lback, -⟩ := State.loadBack_ok hu hruns
        rw [hpre]
        exact ⟨by simpa [runs, State.Runs] using lruns, by simpa using lback⟩
      · obtain ⟨lph, lf, lruns, -⟩ := State.loadBack_bad hu hruns (by rw [bbear, hfed.bear]; exact hb)
        rw [hpre]
        exact ⟨by simpa using lph, by simpa using lf, fun hne => by simpa [runs, State.Runs] using lruns hne⟩
  · have hbear : (u.ctx j.who).canBear = true := by
      have hcalm : Calm s u := by simpa [hu] using (State.statLoad_fed (j := j) (n := j.next) (Fed.refl s)).toCalm
      rw [hcalm.bear, hb]
    exact ⟨_, exec_passStart_fails hf hidle hj (State.passBegun_bad hnot hu), by simp [State.ctx_raise hbear],
      by simp [State.item, State.ctx_raise hbear]⟩
  · have hany : (s.core c.val).jobs.any (·.running) = true := by
      rw [List.any_eq_true]
      exact ⟨j, List.mem_of_find?_eq_some hrun, List.find?_some (p := fun k : ArrJob => k.running) hrun⟩
    exact ⟨s, State.row_fast_none (by simp [passStartStep, hany]), rfl⟩
  · have hbear : (u.ctx j.who).canBear = true := by
      have hcalm : Calm s u := by simpa [hu] using (State.passRows_fed (j := j) (x := x) (c := decide (j.top ≤ j.next)) (Fed.refl s)).toCalm
      rw [hcalm.bear, hb]
    refine ⟨_, exec_passEnd hf hcols (t := u.raise j.who e j.op.kbase) ?_, by simp [State.ctx_raise hbear], by simp [State.item, State.ctx_raise hbear]⟩
    simp [passEndStep, hrun, hx, hu]
  · intro v
    have hcalm : Calm s u := by simpa [hu] using (State.passRows_fed (j := j) (x := x) (c := decide (j.top ≤ j.next)) (Fed.refl s)).toCalm
    have hv : Calm s v := hcalm.trans (u.holdSums_calm c.val _)
    have hserv : u.inService c.val err = s.inService c.val err := by simp [State.inService, State.serviceCols, hcalm.id, hcalm.str]
    have hvrun : (v.core c.val).jobs.find? (·.running) = some j := by rw [hv.jobs]; exact hrun
    have hvbear (hb : (s.ctx j.who).canBear = true) : (v.ctx j.who).canBear = true := (hv.bear _).trans hb
    have hstep := passEndStep_ok (c := c) (err := err) hrun hx hu
    rw [hserv] at hstep
    refine ⟨fun hno hn hadd => ?_, fun hsome hp hr y hy => ?_, fun hsome hr hb => ?_⟩
    · obtain ⟨y, hy, hcalmy⟩ : ∃ y, (if x.low then (v, Rd.ok ()) else v.addPass j x (decide (j.top ≤ j.next)) a b) = (y, .ok ()) ∧ Calm v y := by
        by_cases hlow : x.low = true
        · exact ⟨v, if_pos hlow, .refl v⟩
        · obtain ⟨y, hy⟩ := hadd.resolve_left hlow
          exact ⟨y, by rw [if_neg hlow, hy], by simpa [hy] using v.addPass_calm j x (decide (j.top ≤ j.next)) a b⟩
      have hx' : passEndStep c.val err s = some (y.passDone c.val j) := by
        rw [hstep, hno]
        simp only [List.isEmpty_nil, Bool.not_true, Bool.false_eq_true, if_false]
        rw [hy]
      obtain ⟨k, hk, hshow⟩ := State.passDone_next (s := y) (c := c.val) (by rw [hcalmy.jobs]; exact hvrun) hn
      exact ⟨_, exec_passEnd hf hcols hx', k, by simpa using hk, hshow⟩
    · obtain ⟨k, hk, hshow⟩ := State.mismatch_first (s.inService c.val err) hvrun hp hr hy
      have hx' : passEndStep c.val err s = some (v.mismatch c.val j (s.inService c.val err)) := by
        rw [hstep]
        exact if_pos (by simpa using hsome)
      exact ⟨_, exec_passEnd hf hcols hx', k, by simpa using hk, hshow⟩
    · obtain ⟨hph, hfault, hsus⟩ := State.mismatch_again (c := c.val) hsome hr (hvbear hb)
      have hx' : passEndStep c.val err s = some (v.mismatch c.val j (s.inService c.val err)) := by
        rw [hstep]
        exact if_pos (by simpa using hsome)
      exact ⟨_, exec_passEnd hf hcols hx', by simpa using hph, by simpa using hfault, by simpa using hsus⟩
  · have hany : (s.core c.val).jobs.any (fun j => j.restart) = true := by
      rw [List.any_eq_true]
      exact ⟨j, by simp [hjobs], hre⟩
    refine ⟨_, State.row_fast hf (by rw [retryStep, if_pos hany]), ?_, by simp [State.modJob]⟩
    rw [State.core_activate, State.modJob, State.core_modCore_self, hjobs]
    exact modFirst_split _ _ l r j hl hre
  · have hany : (s.core c.val).jobs.any (·.running) = false := by simpa [List.any_eq_false] using hidle
    refine ⟨_, State.row_fast hf (by rw [rampStep, if_neg (by simp [hany, hnone]; omega)]), by simp, by simp⟩

end Sys2Proof.Machine
end

section
/-! PROOFS. Pushes, ships and releases of a batch queue (R96 to R98). -/

namespace Sys2Proof.Machine

/-- A push of index and batch number `place` has no word to store, or the item may write it and `u` is left when it is stored (R96). -/
def State.StoresPlace (t : State) (w : Who) (ret : Nat) (place : Nat × Word32) (u : State) : Prop :=
  (ret = 0xFFFFFFFF ∧ u = t) ∨ (ret ≠ 0xFFFFFFFF ∧ ret % 8 = 0 ∧ t.itemFault w true ret 8 = 0 ∧
    (t.noteWrote w ret 8).loamWrite (corePort w.core.val) ret (leBytes 4 place.1 ++ leBytes 4 place.2.toNat) = (u, 0))

section
variable {t u : State} {w : Who} {len q row ret : Nat} {place : Nat × Word32}

/-- The checks of a push pass, and its word is stored. -/
theorem State.StoresPlace.passes (h : t.StoresPlace w ret place u) (hen : (t.bqOf q).en = true) :
    (if ret = 0xFFFFFFFF then 0 else if ret % 8 ≠ 0 then 0x0404 else if !(t.bqOf q).en then 0x0404 else t.itemFault w true ret 8) = 0 ∧
    (if ret = 0xFFFFFFFF then (t, 0) else
      (t.noteWrote w ret 8).loamWrite (corePort w.core.val) ret (leBytes 4 place.1 ++ leBytes 4 place.2.toNat)) = (u, 0) := by
  obtain ⟨hret, rfl⟩ | ⟨hret, hal, hfault, hwrite⟩ := h
  · exact ⟨if_pos hret, if_pos hret⟩
  · rw [if_neg hret, if_neg (not_not_intro hal), if_neg (by simp [hen]), if_neg hret]
    exact ⟨hfault, hwrite⟩

/-- What storing the word leaves of the rest. -/
theorem State.StoresPlace.frame (h : t.StoresPlace w ret place u) :
    u.bq = t.bq ∧ u.syn = t.syn ∧ u.str = t.str ∧ u.damage = t.damage ∧ (u.item w).off = (t.item w).off := by
  obtain ⟨-, rfl⟩ | ⟨-, -, -, hwrite⟩ := h
  · exact ⟨rfl, rfl, rfl, rfl, rfl⟩
  · have ht : Touched (t.noteWrote w ret 8) u := by
      have h := Touched.loamWrite (t.noteWrote w ret 8) (corePort w.core.val) ret (leBytes 4 place.1 ++ leBytes 4 place.2.toNat)
      rwa [hwrite] at h
    obtain ⟨cs, hcs⟩ := t.noteWrote_frame w ret 8
    exact ⟨by rw [ht.bq, hcs], by rw [ht.syn, hcs], by rw [ht.str, hcs], by rw [ht.damage, hcs], by rw [ht.item]; simp⟩

/-- A push joins the batch that the deadline shipped in this same tick (R97). -/
theorem batchPush_joins {l : List Nat} (hen : (t.bqOf q).en = true) (hj : t.itemJobs w = []) (hl : t.joinable q = some l)
    (hu : t.StoresPlace w ret (l.length, (t.bqOf q).seq) u) :
    batchPush w len q row ret t =
      some ((u.setBq q { t.bqOf q with shipped := (t.bqOf q).shipped.dropLast ++ [l ++ [row]] }).advance w len) := by
  obtain ⟨hfault, hstore⟩ := hu.passes hen
  unfold batchPush
  dsimp only
  rw [hfault, if_neg (by simp), if_neg (by simp [hen]), if_neg (by simp [hj]), hl, if_neg (by simp)]
  dsimp only
  rw [hstore]
  rfl

/-- The queue with a row pushed: the row joins the filling buffer, which opens with its first. -/
def BatchQ.pushed (b : BatchQ) (row ticks : Nat) : BatchQ :=
  { b with fill := b.fill ++ [row], openTick := if b.fill.isEmpty then ticks else b.openTick }

@[simp] theorem BatchQ.pushed_notify (b : BatchQ) (row ticks : Nat) : (b.pushed row ticks).notify = b.notify := rfl

/-- A push joins the filling buffer, which ships with its CAP-th row (R97). -/
theorem batchPush_fills (hen : (t.bqOf q).en = true) (hj : t.itemJobs w = []) (hl : t.joinable q = none) (hroom : (t.bqOf q).shipped.length < 2)
    (hu : t.StoresPlace w ret ((t.bqOf q).fill.length, (t.bqOf q).seq + 1) u) :
    batchPush w len q row ret t =
      some ((if (t.bqOf q).capM1 + 1 ≤ (t.bqOf q).fill.length + 1 then (u.setBq q ((t.bqOf q).pushed row t.ticks)).ship q
        else u.setBq q ((t.bqOf q).pushed row t.ticks)).advance w len) := by
  obtain ⟨hfault, hstore⟩ := hu.passes hen
  unfold batchPush
  dsimp only
  rw [hfault, if_neg (by simp), if_neg (by simp [hen]), if_neg (by simp [hj]), hl, if_neg (by omega)]
  dsimp only
  rw [hstore]
  rfl

end

@[simp] theorem State.bqOf_advance (s : State) (w : Who) (len q : Nat) : (s.advance w len).bqOf q = s.bqOf q := by simp [State.bqOf]

@[simp] theorem State.bqOf_activate (s : State) (q : Nat) : s.activate.bqOf q = s.bqOf q := by simp [State.bqOf]

theorem Touched.bqOf {s t : State} (h : Touched s t) (q : Nat) : t.bqOf q = s.bqOf q := by simp [State.bqOf, h.bq]

theorem Touched.joinable {s t : State} (h : Touched s t) (q : Nat) : t.joinable q = s.joinable q := by
  simp [State.joinable, h.bqOf, h.ticks, h.core]

theorem State.sc_advance (s : State) (w : Who) (len n : Nat) : (s.advance w len).activate.sc n = s.sc n := by simp [State.sc]

/-- Settles O27: the ways of a push by `State.joinable` and CAP, with what a ship changes by `ship_bq`. -/
theorem batchQueues : Obligations.BatchQueues := by
  unfold Obligations.BatchQueues
  intro w s t len
  refine ⟨fun q row ret u h hen hj => ?_, fun q h hne hj => ?_, fun q h he => ?_, fun q hf hne hdue => ?_⟩
  · intro place hstore
    have htick := h.touched
    rw [← htick.bqOf] at hen
    rw [← htick.itemJobs] at hj
    have hrow {v : State} (hv : batchPush w len q row ret t = some v) : exec (.arrBqpush w) s = .next v.activate := State.row_issue h hv
    have hstore' : t.StoresPlace w ret place u := hstore
    obtain ⟨ubq, usyn, ustr, udamage, uoff⟩ := hstore'.frame
    have ubqOf : u.bqOf q = s.bqOf q := by simp [State.bqOf, ubq, htick.bq]
    refine ⟨fun l hl => ?_, fun hl hroom => ?_⟩
    · rw [← htick.joinable] at hl
      have hp : place = (l.length, (t.bqOf q).seq) := by simp [place, ← htick.joinable, hl, htick.bqOf]
      refine ⟨_, hrow (batchPush_joins hen hj hl (hp ▸ hstore')), ?_, by simp, ?_, ?_, ?_, by simp [usyn, htick.syn]⟩
      · simp [uoff, htick.item]
      all_goals simp [htick.bqOf]
    · rw [← htick.joinable] at hl
      rw [← htick.bqOf] at hroom
      have hp : place = ((t.bqOf q).fill.length, (t.bqOf q).seq + 1) := by simp [place, ← htick.joinable, hl, htick.bqOf]
      have hx := batchPush_fills (len := len) (row := row) hen hj hl hroom (hp ▸ hstore')
      rw [htick.bqOf] at hx
      rcases Nat.lt_or_ge (s.bqOf q).fill.length (s.bqOf q).capM1 with hlt | hge
      · rw [if_neg (by omega)] at hx
        refine ⟨_, hrow hx, by simp [uoff, htick.item], by simp, fun _ => ?_, fun g => by omega⟩
        simp [BatchQ.pushed]
      · rw [if_pos (by omega)] at hx
        obtain ⟨hfill, hship, hseq, hloam, hsc, hoff⟩ := ship_bq (u.setBq q ((s.bqOf q).pushed row t.ticks)) q
        rw [State.bqOf_setBq] at hship hseq hsc
        refine ⟨_, hrow hx, ?_, by simpa using hloam, fun g => by omega, fun _ => ⟨by simpa using hfill, by simpa [BatchQ.pushed] using hship,
          by simpa [BatchQ.pushed] using hseq, fun hb => ?_⟩⟩
        · rw [State.item_activate, State.item_advance_self, Item.gone_off, hoff]
          simp [uoff, htick.item]
        · rw [State.sc_advance]
          refine (hsc ?_).trans ?_
          · simpa [State.scBad, udamage, htick.damage] using hb
          · simp [State.sc, BatchQ.pushed, usyn, htick.syn]
  · have hx : batchRelease w len q t = some (((t.setBq q { t.bqOf q with shipped := (t.bqOf q).shipped.drop 1 }).unblock 6).advance w len) := by
      rw [← h.touched.bqOf] at hne
      rw [← h.touched.itemJobs] at hj
      unfold batchRelease
      dsimp only
      rw [if_neg (by simpa using hne), if_neg (by simp [hj])]
    have hbq (v : State) (r : Nat) : (v.unblock r).bqOf q = v.bqOf q := by simp [State.bqOf]
    exact ⟨_, State.row_issue h hx, by simp [hbq, h.touched.bqOf], by simp [hbq, h.touched.bqOf], by simp [h.touched.item], by simp⟩
  · have hx : batchRelease w len q t = some (t.raise w 0x0404 q) := by
      unfold batchRelease
      dsimp only
      rw [if_pos (by simp [h.touched.bqOf, he])]
    exact ⟨_, State.row_issue h hx, h.raised (.refl t)⟩
  · have hx : deadlineShip q.val s = some ((s.ship q.val).setBq q.val { (s.ship q.val).bqOf q.val with shipTick := some s.ticks }) := by
      unfold deadlineShip
      dsimp only
      rw [if_neg (by simp [hne]; omega)]
    obtain ⟨hfill, hship, hseq, hloam, hsc, -⟩ := ship_bq s q.val
    refine ⟨_, State.row_fast hf hx, by simp [hfill], by simp [hship], by simp [hseq], fun hb => ?_, by simp [hloam]⟩
    rw [← hsc hb]
    simp [State.sc]

end Sys2Proof.Machine
end

section
/-! PROOFS. Contributions to an accumulator (R75 to R77, R84). -/

namespace Sys2Proof.Machine

/-! ### INT32 -/

/-- An INT32 accumulator within its range takes the sum (R76). -/
theorem accum_int_in (acc : Word32) (p q : Int) (h1 : -(2 ^ 31) ≤ acc.toInt + p) (h2 : acc.toInt + p < 2 ^ 31) :
    (accum true acc (.fin p q)).1.toInt = acc.toInt + p ∧ (accum true acc (.fin p q)).2 = false := by
  have hc : clampI (acc.toInt + p) i32lo i32hi = acc.toInt + p := by unfold clampI i32lo i32hi; omega
  have hx : accum true acc (.fin p q) = (BitVec.ofInt 32 (acc.toInt + p), false) := by simp [accum, clampC, hc]
  rw [hx]
  exact ⟨BitVec.toInt_ofInt_eq_self (by decide) h1 h2, rfl⟩

/-- Beyond its range it stops at the end, which counts (R76). -/
theorem accum_int_above (acc : Word32) (p q : Int) (h : 2 ^ 31 ≤ acc.toInt + p) :
    (accum true acc (.fin p q)).1 = 0x7FFFFFFF#32 ∧ (accum true acc (.fin p q)).2 = true := by
  have hc : clampI (acc.toInt + p) i32lo i32hi = i32hi := by unfold clampI i32lo i32hi; omega
  have hne : i32hi ≠ acc.toInt + p := by unfold i32hi; omega
  have hx : accum true acc (.fin p q) = (BitVec.ofInt 32 i32hi, true) := by simp [accum, clampC, hc, hne]
  rw [hx]
  exact ⟨rfl, rfl⟩

theorem accum_int_below (acc : Word32) (p q : Int) (h : acc.toInt + p < -(2 ^ 31)) :
    (accum true acc (.fin p q)).1 = 0x80000000#32 ∧ (accum true acc (.fin p q)).2 = true := by
  have hc : clampI (acc.toInt + p) i32lo i32hi = i32lo := by unfold clampI i32lo i32hi; omega
  have hne : i32lo ≠ acc.toInt + p := by unfold i32lo; omega
  have hx : accum true acc (.fin p q) = (BitVec.ofInt 32 i32lo, true) := by simp [accum, clampC, hc, hne]
  rw [hx]
  exact ⟨rfl, rfl⟩

/-! ### FP32 -/

theorem isNaN_infF (n : Bool) : isNaN (infF n) = false := by cases n <;> decide

/-- The value of a contribution. -/
def Contrib.ext : Contrib → Ext
  | .nan => .nan
  | .inf s => .inf s
  | .fin p q => .fin (decide (p < 0)) p.natAbs q

/-- An FP32 accumulator that is no NaN adds the contribution's value (R77). -/
theorem accum_fp {acc : Word32} (h : isNaN acc = false) (x : Contrib) :
    accum false acc x = (addExt (ext32 acc) x.ext, isNaN (addExt (ext32 acc) x.ext)) := by
  cases x <;> simp [accum, h, Contrib.ext]

/-- An infinity stays under its like and under what is finite, and meets its opposite in a NaN, which counts (R77, R84). -/
theorem accum_infinity (n : Bool) : accum false (infF n) (.inf n) = (infF n, false) ∧ accum false (infF n) (.inf !n) = (0x7FC00000#32, true) ∧
    (∀ p q, accum false (infF n) (.fin p q) = (infF n, false)) ∧
    ∀ acc : Word32, acc.toNat / 2 ^ 23 % 256 ≠ 255 → accum false acc (.inf n) = (infF n, false) := by
  have same : addExt (ext32 (infF n)) (.inf n) = infF n := by simp [ext32_infF, addExt, fromExt_inf]
  have opposite : addExt (ext32 (infF n)) (.inf !n) = 0x7FC00000#32 := by cases n <;> simp [ext32_infF, addExt, qNaN]
  refine ⟨?_, ?_, fun p q => ?_, fun acc hacc => ?_⟩
  · rw [accum_fp (isNaN_infF n), Contrib.ext, same, isNaN_infF]
  · rw [accum_fp (isNaN_infF n), Contrib.ext, opposite]
    rfl
  · have hx : addExt (ext32 (infF n)) (.fin (decide (p < 0)) p.natAbs q) = infF n := by simp [ext32_infF, addExt, fromExt_inf]
    rw [accum_fp (isNaN_infF n), Contrib.ext, hx, isNaN_infF]
  · obtain ⟨m, e, hext, -⟩ := ext32_parts hacc
    have hx : addExt (ext32 acc) (.inf n) = infF n := by simp [hext, addExt, fromExt_inf]
    rw [accum_fp (isNaN_finite hacc), Contrib.ext, hx, isNaN_infF]

/-- A pattern that rounds a value is no NaN. -/
theorem Rounds.not_nan {x : ℚ} {r : Fp32} (h : Rounds x r) : isNaN r = false := by
  obtain ⟨hin, habove, hbelow, -⟩ := h
  rcases lt_or_ge |x| (2 ^ 128 - 2 ^ 103) with hlt | hge
  · exact isNaN_finite (hin hlt).1
  · rcases le_abs.mp hge with g | g
    · rw [habove g]
      decide
    · rw [hbelow (by linarith)]
      decide

/-- A finite accumulator becomes the sum, rounded once; an exact zero is +0 (R77). -/
theorem accum_fp_fin {acc : Word32} (h : acc.toNat / 2 ^ 23 % 256 ≠ 255) (p q : Int) :
    (accum false acc (.fin p q)).2 = false ∧ Rounds (f32Val acc + p * (2 : ℚ) ^ q) (accum false acc (.fin p q)).1 ∧
      (f32Val acc + p * (2 : ℚ) ^ q = 0 → (accum false acc (.fin p q)).1 = 0#32) := by
  obtain ⟨m, e, hext, hval, -⟩ := ext32_parts h
  have hp : sgn (decide (p < 0)) p.natAbs = p := by
    unfold sgn
    by_cases g : p < 0
    · rw [if_pos (by simpa using g)]
      omega
    · rw [if_neg (by simpa using g)]
      omega
  obtain ⟨hr, hz⟩ := addExt_fin (decide (2 ^ 31 ≤ acc.toNat)) (decide (p < 0)) m p.natAbs e q
  rw [hval, hp, ← hext] at hr hz
  rw [accum_fp (isNaN_finite h), Contrib.ext]
  refine ⟨hr.not_nan, hr, fun hx => (hz hx).trans ?_⟩
  have hsign : (decide (2 ^ 31 ≤ acc.toNat) && decide (p < 0) && m == 0 && p.natAbs == 0) = false := by
    by_cases hp0 : p < 0
    · simp [show p ≠ 0 by omega]
    · simp [hp0]
  rw [hsign]
  rfl

/-! ### Product blocks -/

/-- A pair of elements of which one is an infinity, and the sign of their product. -/
def Infinite (p : Elem × Elem) (n : Bool) : Prop := (p.1.isInf = true ∨ p.2.isInf = true) ∧ (p.1.neg != p.2.neg) = n

/-- A pair of elements whose product is no number (R84). -/
def Undefined (p : Elem × Elem) : Prop :=
  p.1 = .nan ∨ p.2 = .nan ∨ (p.1.isInf = true ∧ p.2 = .num 0) ∨ (p.2.isInf = true ∧ p.1 = .num 0)

/-- The signs of the infinite products of a block. -/
def infSigns (ps : List (Elem × Elem)) : List Bool := (ps.filter fun p => p.1.isInf || p.2.isInf).map fun p => p.1.neg != p.2.neg

theorem mem_infSigns {ps : List (Elem × Elem)} {n : Bool} : n ∈ infSigns ps ↔ ∃ p ∈ ps, Infinite p n := by
  simp [infSigns, Infinite, and_assoc]

theorem Elem.isZero_iff (e : Elem) : e.isZero = true ↔ e = .num 0 := by
  cases e <;> simp [Elem.isZero]

section
variable {a b : List Elem} (q : Int)

/-- A block with a pair whose product is no number contributes NaN. -/
theorem blockSum_undefined (h : ∃ p ∈ a.zip b, Undefined p) : blockSum a b q = .nan := by
  unfold blockSum
  dsimp only
  split
  · rfl
  · rename_i hnan
    split
    · rfl
    · rename_i hzero
      obtain ⟨p, hp, hu⟩ := h
      rw [Bool.not_eq_true, List.any_eq_false] at hnan hzero
      have h1 := hnan p hp
      have h2 := hzero p hp
      simp only [Bool.or_eq_true, beq_iff_eq, Bool.and_eq_true, Elem.isZero_iff] at h1 h2
      unfold Undefined at hu
      tauto

/-- A block whose products are all defined is decided by the signs of its infinite ones. -/
theorem blockSum_defined (h : ∀ p ∈ a.zip b, ¬Undefined p) :
    blockSum a b q = if (infSigns (a.zip b)).contains true && (infSigns (a.zip b)).contains false then .nan
      else match infSigns (a.zip b) with
        | x :: _ => .inf x
        | [] => .fin ((a.zip b).map fun p => match p.1, p.2 with
            | .num x, .num y => x * y
            | _, _ => 0).sum q := by
  have hnan : ((a.zip b).any fun p => p.1 == .nan || p.2 == .nan) = false := by
    rw [List.any_eq_false]
    intro p hp g
    simp only [Bool.or_eq_true, beq_iff_eq] at g
    exact h p hp (g.elim .inl fun g => .inr (.inl g))
  have hzero : ((a.zip b).any fun p => (p.1.isInf && p.2.isZero) || (p.2.isInf && p.1.isZero)) = false := by
    rw [List.any_eq_false]
    intro p hp g
    simp only [Bool.or_eq_true, Bool.and_eq_true, Elem.isZero_iff] at g
    exact h p hp (.inr (.inr g))
  unfold blockSum
  dsimp only
  rw [hnan, hzero]
  rfl

/-- Infinite products of both signs contribute NaN. -/
theorem blockSum_both (h1 : ∃ p ∈ a.zip b, Infinite p true) (h2 : ∃ p ∈ a.zip b, Infinite p false) : blockSum a b q = .nan := by
  by_cases hu : ∃ p ∈ a.zip b, Undefined p
  · exact blockSum_undefined q hu
  · rw [blockSum_defined q fun p hp g => hu ⟨p, hp, g⟩, if_pos]
    simp [mem_infSigns.mpr h1, mem_infSigns.mpr h2]

/-- Infinite products of one sign contribute that infinity. -/
theorem blockSum_infinite (n : Bool) (h1 : ∃ p ∈ a.zip b, Infinite p n) (h : ∀ p ∈ a.zip b, ¬Undefined p ∧ ¬Infinite p !n) :
    blockSum a b q = .inf n := by
  have hmem : n ∈ infSigns (a.zip b) := mem_infSigns.mpr h1
  have hno : (!n) ∉ infSigns (a.zip b) := fun g => by
    obtain ⟨p, hp, hi⟩ := mem_infSigns.mp g
    exact (h p hp).2 hi
  have hboth : ((infSigns (a.zip b)).contains true && (infSigns (a.zip b)).contains false) = false := by
    cases n <;> simp_all
  rw [blockSum_defined q fun p hp => (h p hp).1, hboth]
  simp only [Bool.false_eq_true, if_false]
  split
  · rename_i x l hx
    rw [hx] at hno
    have hne : x ≠ !n := fun g => hno (g ▸ List.mem_cons_self)
    rw [show x = n by cases x <;> cases n <;> simp_all]
  · rename_i hx
    rw [hx] at hmem
    cases hmem

end

/-- A block of integers contributes the sum of its products. -/
theorem blockSum_num (a b : List Int) (q : Int) : blockSum (a.map .num) (b.map .num) q = .fin ((a.zip b).map fun p => p.1 * p.2).sum q := by
  have hzip : (a.map Elem.num).zip (b.map Elem.num) = (a.zip b).map fun p => (Elem.num p.1, Elem.num p.2) := by
    rw [List.zip_map]
    rfl
  have hsigns : infSigns ((a.map Elem.num).zip (b.map Elem.num)) = [] := by
    rw [hzip, infSigns, List.map_eq_nil_iff, List.filter_eq_nil_iff]
    intro p hp
    obtain ⟨x, -, rfl⟩ := List.mem_map.mp hp
    simp [Elem.isInf]
  rw [blockSum_defined q, hsigns, hzip, List.map_map]
  · rfl
  · intro p hp
    rw [hzip] at hp
    obtain ⟨x, -, rfl⟩ := List.mem_map.mp hp
    simp [Undefined, Elem.isInf]

end Sys2Proof.Machine
end

section
/-! PROOFS. What a pass leaves in the accumulators, and the conversions of the formats (R50, R78 to R81, R116). -/

namespace Sys2Proof.Machine

/-! ### What a pass leaves -/

/-- The rows of the result that a pass adds to are its rows, of a batch those that the batch has. -/
theorem ArrJob.lt_passRowsOf (j : ArrJob) (x : Pass) (i : Nat) :
    i < j.passRowsOf x ↔ x.r0 + i < x.r1 ∧ (j.op.abatch = true → x.r0 + i < j.rows.length) := by
  unfold ArrJob.passRowsOf ArrJob.span
  by_cases h : j.op.abatch = true
  · simp [h]
    omega
  · simp [h]
    omega

theorem accumAll_fst (int : Bool) (l : List Contrib) : ∀ (acc : Word32) (n : Nat),
    (l.foldl (fun (a : Word32 × Nat) x =>
      let r := accum int a.1 x
      (r.1, if r.2 then a.2 + 1 else a.2)) (acc, n)).1 = l.foldl (fun acc y => (accum int acc y).1) acc := by
  induction l with
  | nil => exact fun _ _ => rfl
  | cons x l ih => exact fun acc n => ih _ _

/-- The end of a pass changes of Kaolin padding alone. -/
theorem State.passDone_kaolin (s : State) (c : Nat) (j : ArrJob) : ∃ y : State, (y.core c).kaolin = (s.core c).kaolin ∧
    (((s.passDone c j).core c).kaolin = (y.core c).kaolin ∨ ((s.passDone c j).core c).kaolin = ((y.freePadding c j.op).core c).kaolin) := by
  refine ⟨if (j.retryAt == some j.next) = true then s.countRetry j.who j.bad.length else s, ?_, ?_⟩
  · split
    exacts [(countRetry_core ..).2, rfl]
  · unfold State.passDone
    dsimp only
    by_cases hpads : decide (j.top ≤ j.next) = true ∧ j.next = if 9 ≤ j.op.sw then 1 else 0
    · rw [if_pos hpads]
      exact .inr (by simp [State.dropDone, State.modJob])
    · rw [if_neg hpads]
      exact .inl (by simp [State.dropDone, State.modJob])

section
variable {s u : State} {c : Nat} {j : ArrJob} {x : Pass} {ad bd : FmtD} {a b : List (List DecBlk)}

/-- After a pass over clean stores every accumulator of its rows and columns has taken its contributions in order, and no other byte of
Kaolin but padding has changed (R50, R78, R81). -/
theorem State.passDone_adds (count : Bool) (hw : j.who.core.val = c) (h1 : s.loam.Clean) (h2 : (s.core c).kaolin.Clean)
    (h3 : (s.core c).kaolin.cells.wf = true) (had : j.op.aD = some ad) (hbd : j.op.bD = some bd) (hr : x.r1 ≤ j.op.m) (hc : x.c1 ≤ j.op.n)
    (hl : x.k = 0 → j.op.init = 2 → ∀ i l, i < j.passRowsOf x → x.c0 ≤ l → l < x.c1 →
      plainLoam j.who (j.op.loadAddr + (x.r0 + i) * j.op.loadPitch + 4 * l)) :
    ∃ y, s.addPass j x count a b = (y, .ok ()) ∧
      (∀ i l, i < j.passRowsOf x → x.c0 ≤ l → l < x.c1 →
        accWord ((y.passDone c j).core c).kaolin.cells (gridAddr j.op.kbase j.op.m j.op.n (x.r0 + i) l) =
          s.accTo c j.op x.k x.r0 (passContribs j.op x (blockSize ad bd) a b) i l) ∧
      (∀ z, (∀ i l, i < j.passRowsOf x → x.c0 ≤ l → l < x.c1 → ∀ y < 4, z ≠ gridAddr j.op.kbase j.op.m j.op.n (x.r0 + i) l + y) →
        (∀ p ∈ padding j.op, z < p.1 ∨ p.1 + p.2 ≤ z) → ((y.passDone c j).core c).kaolin.cells.get z = (s.core c).kaolin.cells.get z) := by
  subst hw
  obtain ⟨y, hy, -, hcells, hrest⟩ := State.addPass_clean (count := count) (a := a) (b := b) h1 h2 h3 had hbd hr hc hl
  obtain ⟨v, hv, hdone⟩ := y.passDone_kaolin j.who.core.val j
  refine ⟨y, hy, fun i l hi hl0 hl1 => ?_, fun z hz hpad => ?_⟩
  · have hrow := ((j.lt_passRowsOf x i).mp hi).1
    rw [← hcells i l hi hl0 hl1]
    rcases hdone with h | h
    · rw [h, hv]
    · rw [h, State.freePadding_acc _ _ _ (by omega) (by omega), hv]
  · rw [← hrest z hz]
    rcases hdone with h | h
    · rw [h, hv]
    · rw [h, State.freePadding_get _ _ _ hpad, hv]

end

theorem accum_nan {acc : Word32} (h : isNaN acc = false) : accum false acc .nan = (0x7FC00000#32, true) := by
  have hx : addExt (ext32 acc) Contrib.nan.ext = 0x7FC00000#32 := addExt_nan_right _
  rw [accum_fp h, hx]
  rfl

/-! ### Conversions -/

theorem toFp32_undefined {f : Fmt} (hf : f ≠ .fp32 ∧ f ≠ .bf16 ∧ f ≠ .fp16) (code : Nat) (h : f.hasExp = true) :
    f.toFp32 code 0xFF = 0x7FC00000#32 := by
  obtain ⟨h1, h2, h3⟩ := hf
  unfold Fmt.toFp32
  split
  · exact absurd rfl h1
  · exact absurd rfl h2
  · exact absurd rfl h3
  · rw [if_pos (by simp [h])]
    rfl

/-- A code that is no number reads as NaN or as its infinity (R116). -/
theorem toFp32_special {f : Fmt} {code x : Nat} (hf : f ≠ .fp32 ∧ f ≠ .bf16 ∧ f ≠ .fp16) (hx : f.hasExp = true → x ≠ 0xFF) :
    (f.elem code = .nan → f.toFp32 code x = 0x7FC00000#32) ∧ ∀ n, f.elem code = .inf n → f.toFp32 code x = infF n := by
  have hno : ¬(f.hasExp && x == 0xFF) = true := by simpa using hx
  obtain ⟨h1, h2, h3⟩ := hf
  unfold Fmt.toFp32
  split
  · exact absurd rfl h1
  · exact absurd rfl h2
  · exact absurd rfl h3
  · rw [if_neg hno]
    exact ⟨fun h => by rw [h]; rfl, fun n h => by rw [h]; rfl⟩

/-- An infinity becomes the largest code of its sign, of a format that has infinities an infinity (R80). -/
theorem toElement_infF (n : Bool) (x : Nat) :
    (∀ k, (Fmt.sb k).toElement (infF n) x = ((if n then -(2 ^ (k - 1) - 1) else 2 ^ (k - 1) - 1) % 2 ^ k : Int).toNat) ∧
    Fmt.mxint8.toElement (infF n) x = (if n then 129 else 127) ∧
    ∀ eb mb t, (Fmt.mxf eb mb t).toElement (infF n) x = mxTop eb mb t + (if t = .ieee then 1 else 0) + if n then 2 ^ (eb + mb) else 0 := by
  refine ⟨fun k => ?_, ?_, fun eb mb t => ?_⟩
  · unfold Fmt.toElement
    rw [ext32_infF]
  · unfold Fmt.toElement
    rw [ext32_infF]
    cases n <;> rfl
  · unfold Fmt.toElement
    rw [ext32_infF]
    cases t <;> rfl

/-- The value of a pattern, by its three fields. -/
theorem f32Val_fields (y : Word32) : (if y.toNat < 2 ^ 31 then 1 else -1) *
    (if y.toNat / 2 ^ 23 % 256 = 0 then (y.toNat % 2 ^ 23 : ℕ) * (2 : ℚ) ^ (-149 : ℤ)
      else (2 ^ 23 + y.toNat % 2 ^ 23 : ℕ) * (2 : ℚ) ^ ((y.toNat / 2 ^ 23 % 256 : ℕ) - 150 : ℤ)) = f32Val y := by
  have he : y.toNat % 2 ^ 31 / 2 ^ 23 = y.toNat / 2 ^ 23 % 256 := by omega
  have hm : y.toNat % 2 ^ 31 % 2 ^ 23 = y.toNat % 2 ^ 23 := by omega
  rw [f32Val, f32Mag, he, hm]

theorem largest_eq (eb mb : Nat) (t : MxTop) : (match t with
    | .nanOnly => 2 ^ (eb + mb) - 2
    | .ieee => (2 ^ eb - 1) * 2 ^ mb - 1
    | .numbers => 2 ^ (eb + mb) - 1) = mxTop eb mb t := by
  cases t <;> rfl

/-- Settles O28: the contributions, the conversions, and what `State.addPass` leaves. -/
theorem accumulation : Obligations.Accumulation := by
  unfold Obligations.Accumulation
  intro finite infinity infinite val rounds half mag nearest largest amax
  have hval : val = f32Val := funext f32Val_fields
  have hlargest : largest = mxTop := funext fun eb => funext fun mb => funext fun t => largest_eq eb mb t
  clear_value val largest
  subst hval hlargest
  have hrounds {x : ℚ} {r : Word32} (h : Rounds x r) : rounds x r := ⟨fun g => ⟨(h.1 g).1, fun y _ => (h.1 g).2 y⟩, h.2⟩
  refine ⟨accum_int_in, accum_int_above, accum_int_below, fun acc x h => by simp [accum, h], fun acc h => accum_nan h,
    accum_infinity, fun a b q => ⟨blockSum_undefined q, blockSum_both q, fun n h1 h2 => ?_⟩, blockSum_num, fun acc p q h => ?_,
    fun a lo hi hr => ⟨fun h => ?_, fpToInt_special lo hi⟩, fun v => ⟨hrounds (intToFp_rounds v).1, (intToFp_rounds v).2⟩, fun a => ?_,
    fun a => ⟨toFp16_near, toFp16_special a⟩, fun f code x hf => ⟨toFp32_undefined hf code, fun hx => ⟨fun n hn => ?_, toFp32_special hf hx⟩⟩,
    fun v x hv => ⟨fun k => ?_, ?_, fun eb mb t h0 => toElement_mx hv eb mb t x h0⟩, toElement_infF,
    fun f vs => ⟨encBlock_nan, fun hn => ⟨encBlock_zero hn, fun l h1 h2 => ?_⟩⟩, ?_⟩
  · exact blockSum_infinite q n h1 fun p hp => ⟨fun g => by
      obtain ⟨g1, g2, g3, g4, -⟩ := h2 p hp
      rcases g with g | g | g | g
      exacts [g1 g, g2 g, g3 g, g4 g], (h2 p hp).2.2.2.2⟩
  · obtain ⟨hcount, hR, hzero⟩ := accum_fp_fin h p q
    obtain ⟨g1, g2, g3, g4, g5⟩ := hrounds hR
    exact ⟨hcount, g1, g2, g3, hzero, g4, g5⟩
  · obtain ⟨n, g1, g2, g3⟩ := fpToInt_finite h hr
    exact ⟨n, ⟨g1, g2⟩, g3⟩
  · split
    · rename_i h
      exact toBf16_nan h
    · rename_i h
      exact toBf16_near (by simpa using h)
  · obtain ⟨g1, g2⟩ := toFp32_rounds hf hx hn
    exact ⟨hrounds g1, g2⟩
  · obtain ⟨n, g1, g2, g3⟩ := (toElement_int hv x).1 k
    exact ⟨n, ⟨g1, g2⟩, g3⟩
  · obtain ⟨n, g1, g2, g3⟩ := (toElement_int hv x).2
    exact ⟨n, ⟨g1, g2⟩, g3⟩
  · exact encBlock_amax hn h1 h2
  · intro c s u j x err ad bd a b word cell start contributions ours hf hsound hl hk hcols hserv hrun hw hx hlow had hbd hu hview
    have hfed : Fed s u := by simpa [hu] using State.passRows_fed (j := j) (x := x) (c := decide (j.top ≤ j.next)) (Fed.refl s)
    have hkao : (u.core c.val).kaolin = (s.core c.val).kaolin := hfed.kao _ hk
    have hloam : u.loam = s.loam := hfed.loam hl
    obtain ⟨hr1, hc1⟩ := passes_in (List.mem_of_getElem? hx)
    have hours {i l : Nat} : (i < j.passRowsOf x ∧ x.c0 ≤ l ∧ l < x.c1) ↔ ours i l := by
      simp only [ours, j.lt_passRowsOf x i, and_assoc]
    have hv := u.holdSums_calm c.val (u.residues c.val j x err a b)
    have hvk : ((u.holdSums c.val (u.residues c.val j x err a b)).core c.val).kaolin = (s.core c.val).kaolin := by simp [State.holdSums, hkao]
    have hvl : (u.holdSums c.val (u.residues c.val j x err a b)).loam = s.loam := by simp [State.holdSums, hloam]
    obtain ⟨y, hy, hcells, hrest⟩ := State.passDone_adds (s := u.holdSums c.val (u.residues c.val j x err a b)) (a := a) (b := b)
      (decide (j.top ≤ j.next)) hw (hvl ▸ hl) (hvk ▸ hk) (hvk ▸ (hsound.core c.val).1) had hbd hr1 hc1 fun hk0 hi i l g1 g2 g3 g => by
        obtain ⟨hh, -, hin⟩ := g
        rw [hview hh hi hk0 i l (hours.mp ⟨g1, g2, g3⟩)] at hin
        cases hin
    have hstep : passEndStep c.val err s = some (y.passDone c.val j) := by
      have hno : u.inService c.val err = [] := by
        rw [← hserv]
        simp [State.inService, State.serviceCols, hfed.id, hfed.str]
      rw [passEndStep_ok hrun hx hu, hno]
      simp only [List.isEmpty_nil, Bool.not_true, Bool.false_eq_true, if_false, hlow]
      rw [hy]
    refine ⟨_, exec_passEnd hf hcols hstep, fun i l h => ?_, fun z hz hpad => ?_⟩
    · obtain ⟨g1, g2, g3⟩ := hours.mpr h
      rw [State.core_activate]
      refine (hcells i l g1 g2 g3).trans ?_
      unfold State.accTo State.accFrom accumAll
      rw [accumAll_fst, hvk, hvl]
      rfl
    · rw [State.core_activate, hrest z (fun i l g1 g2 g3 => hz i l (hours.mp ⟨g1, g2, g3⟩)) hpad, hvk]

end Sys2Proof.Machine
end

section
/-! PROOFS. Mask registers, statistic registers and side vectors (R119, R124, R132, R133). -/

namespace Sys2Proof.Machine

/-! ### Masks and statistics (R119, R124) -/

/-- A table of mask entries whose register `m` holds the 64 entries of `f`, the others as they were. -/
def loadMask (t : Tab Word64) (m : Nat) (f : Nat → Word64) : Tab Word64 := (List.range 64).foldl (fun t e => tabSet t (64 * m + e) (f e)) t

theorem loadMask_in (t : Tab Word64) (m : Nat) (f : Nat → Word64) (e : Nat) (h : e < 64) : tabGet 0#64 (loadMask t m f) (64 * m + e) = f e := by
  unfold loadMask
  have hkey : ∀ y ∈ List.range 64, 64 * m + y = 64 * m + e → y = e := fun _ _ he => Nat.add_left_cancel he
  exact tabGet_fold 0#64 (fun e => 64 * m + e) f e (List.range 64) t (List.mem_range.mpr h) hkey

theorem loadMask_out (t : Tab Word64) (m : Nat) (f : Nat → Word64) (k : Nat) (h : k / 64 ≠ m) :
    tabGet 0#64 (loadMask t m f) k = tabGet 0#64 t k := by
  unfold loadMask
  refine tabGet_fold_ne 0#64 (fun e => 64 * m + e) f k (List.range 64) t fun e he hk => h ?_
  have := List.mem_range.mp he
  omega

/-- A change of one core that leaves its contexts leaves every item. -/
theorem State.item_modCore_of (s : State) {c : Nat} {f : Core → Core} (h : ∀ x, (f x).cmd = x.cmd ∧ (f x).hdl = x.hdl) (w : Who) :
    (s.modCore c f).item w = s.item w := by
  rw [State.item, State.ctx_modCore_of s h, ← State.item]

/-- A core whose statistic register `st` is cleared (R124). -/
def Core.clearStat (x : Core) (st : Nat) (inf : Bool) : Core := x.setStatRow st (List.replicate 256 (if inf then 0xFF800000#32 else 0#32))

theorem Core.setStatRow_ctx (x : Core) (st : Nat) (v : List Fp32) : (x.setStatRow st v).cmd = x.cmd ∧ (x.setStatRow st v).hdl = x.hdl := ⟨rfl, rfl⟩

theorem Core.setStatRow_masks (x : Core) (st : Nat) (v : List Fp32) : (x.setStatRow st v).masks = x.masks := rfl

theorem Core.clearStat_masks (x : Core) (st : Nat) (inf : Bool) : (x.clearStat st inf).masks = x.masks := Core.setStatRow_masks ..

theorem Core.clearStat_ctx (st : Nat) (inf : Bool) (x : Core) : (x.clearStat st inf).cmd = x.cmd ∧ (x.clearStat st inf).hdl = x.hdl :=
  Core.setStatRow_ctx ..

theorem Core.clearStat_in (x : Core) (st : Nat) (inf : Bool) {r : Nat} (h : r < 256) :
    tabGet 0 (x.clearStat st inf).stats (256 * st + r) = if inf then 0xFF800000#32 else 0#32 := by
  unfold Core.clearStat
  rw [Core.setStatRow_in _ _ _ r (by rw [List.length_replicate]; exact h), List.getElem_replicate]

theorem Core.clearStat_out (x : Core) (st : Nat) (inf : Bool) {k : Nat} (h : k / 256 ≠ st) :
    tabGet 0 (x.clearStat st inf).stats k = tabGet 0 x.stats k := by
  unfold Core.clearStat
  rw [Core.setStatRow_out _ _ _ k (by rw [List.length_replicate]; omega)]

section
variable {t u : State} {w : Who} {len m a : Nat}

theorem statClear_clears {st : Nat} {inf : Bool} (hv : t.vecTurn w = true) :
    statClear w len st inf t = some ((t.modCore w.core.val fun x => x.clearStat st inf).advanceVec w len) := by
  unfold statClear
  rw [if_neg (by rw [hv]; decide)]
  rfl

theorem maskLoad_loads {b : List Byte} (hf : t.vecAddrFault w false a 512 0x0501 = 0) (hm : t.mustWait w { lr := [(a, 512)] } = false)
    (hv : t.vecTurn w = true) (hr : t.itemRead w a 512 = (u, .ok b)) :
    maskLoad w len m a t = some ((u.modCore w.core.val fun x =>
      { x with masks := loadMask x.masks m fun e => BitVec.ofNat 64 (fieldB b (8 * e) 8) }).advanceVec w len) := by
  unfold maskLoad
  dsimp only
  rw [if_neg (not_not_intro hf), if_neg (by simp [hm, hv]), hr]
  rfl

theorem maskStore_stores (hf : t.vecAddrFault w true a 512 0x0501 = 0) (hm : t.mustWait w { lw := [(a, 512)] } = false) (hv : t.vecTurn w = true)
    (hw : t.loamWrite (corePort w.core.val) a
      ((List.range 64).flatMap fun e => leBytes 8 (tabGet 0 (t.core w.core.val).masks (64 * m + e)).toNat) = (u, 0)) :
    maskStore w len m a t = some ((u.noteWrote w a 512).advanceVec w len) := by
  unfold maskStore
  dsimp only
  rw [if_neg (not_not_intro hf), if_neg (by simp [hm, hv]), hw]
  rfl

end

/-- Settles O29: one lemma for each of the three instructions. -/
theorem masksAndStatistics : Obligations.MasksAndStatistics := by
  unfold Obligations.MasksAndStatistics
  intro w s t len
  refine ⟨fun m a u b h hf hm hv hr => ?_, fun m a h ha => ?_, fun m a u h hf hm hv hw => ?_, fun i inf h hv => ?_⟩
  · have hu : Touched t u := by
      have h := Touched.itemRead t w a 512
      rwa [hr] at h
    have hcore : u.core w.core.val = s.core w.core.val := (hu.core _).trans (h.touched.core _)
    have hitem : (u.modCore w.core.val fun x =>
      { x with masks := loadMask x.masks m fun e => BitVec.ofNat 64 (fieldB b (8 * e) 8) }).item w = s.item w :=
      (State.item_modCore_of u (f := fun x => { x with masks := loadMask x.masks m fun e => BitVec.ofNat 64 (fieldB b (8 * e) 8) })
        (fun _ => ⟨rfl, rfl⟩) w).trans
        ((hu.item w).trans (h.touched.item w))
    refine ⟨_, State.row_issue h (maskLoad_loads hf hm hv hr), fun e he => ?_, fun k hk => ?_, ?_, by simp [hitem], by simp⟩
    · simp only [State.core_activate, State.core_advanceVec, State.masks_advance, State.core_modCore_self]
      exact loadMask_in _ _ _ _ he
    · simp only [State.core_activate, State.core_advanceVec, State.masks_advance, State.core_modCore_self, hcore]
      exact loadMask_out _ _ _ _ hk
    · simp [hcore]
  · have hx : maskLoad w len m a t = some (t.raise w 0x0501 a) := by simp [maskLoad, State.vecAddrFault, ha]
    exact ⟨_, State.row_issue h hx, h.raised (.refl t)⟩
  · rw [← h.touched.core] at hw
    have hu : Touched t u := by
      have h := Touched.loamWrite t (corePort w.core.val) a
        ((List.range 64).flatMap fun e => leBytes 8 (tabGet 0 (t.core w.core.val).masks (64 * m + e)).toNat)
      rwa [hw] at h
    exact ⟨_, State.row_issue h (maskStore_stores hf hm hv hw), by simp, by simp [hu.core, h.touched.core], by simp [hu.item, h.touched.item]⟩
  · have hx := statClear_clears (len := len) (st := i) (inf := inf) hv
    have hitem : (t.modCore w.core.val fun x => x.clearStat i inf).item w = s.item w :=
      (State.item_modCore_of t (f := fun x => x.clearStat i inf) (Core.clearStat_ctx i inf) w).trans (h.touched.item w)
    refine ⟨_, State.row_issue h hx, fun r hr => ?_, fun k hk => ?_, ?_, by simp [hitem], by simp⟩
    all_goals simp only [State.core_activate, State.core_advanceVec, State.stats_advance, State.masks_advance, State.core_modCore_self]
    · exact Core.clearStat_in _ i inf hr
    · rw [Core.clearStat_out _ i inf hk, h.touched.core]
    · rw [Core.clearStat_masks, h.touched.core]

/-! ### Side vectors (R132, R133) -/

theorem Core.statRow_length (x : Core) (st : Nat) : (x.statRow st).length = 256 := by simp [Core.statRow]

theorem Core.statRow_getD (x : Core) (st : Nat) {r : Nat} (h : r < 256) : (x.statRow st).getD r 0 = tabGet 0 x.stats (256 * st + r) := by
  simp [Core.statRow, h]

theorem Core.statRow_congr {x y : Core} (h : x.stats = y.stats) (st : Nat) : x.statRow st = y.statRow st := by simp [Core.statRow, h]

/-- The fold of a tile into the running maximum and sum, entry by entry (R132). -/
def Core.lseEntry (x : Core) (a b c d r : Nat) : Fp32 × Fp32 :=
  lseFold ((x.statRow c).getD r 0) ((x.statRow d).getD r 0) ((x.statRow a).getD r 0) ((x.statRow b).getD r 0)

/-- The statistics of a core after the fold (R132). -/
def Core.lseStats (y x : Core) (a b c d : Nat) : Core :=
  (y.setStatRow d ((List.range 256).map fun r => (x.lseEntry a b c d r).2)).setStatRow c ((List.range 256).map fun r => (x.lseEntry a b c d r).1)

theorem Core.lseStats_ctx (x : Core) (a b c d : Nat) (y : Core) : (y.lseStats x a b c d).cmd = y.cmd ∧ (y.lseStats x a b c d).hdl = y.hdl := by
  unfold Core.lseStats
  exact ⟨(Core.setStatRow_ctx ..).1.trans (Core.setStatRow_ctx ..).1, (Core.setStatRow_ctx ..).2.trans (Core.setStatRow_ctx ..).2⟩

theorem Core.lseStats_entry (y x : Core) {a b c d r : Nat} (h : c ≠ d) (hr : r < 256) :
    (tabGet 0 (y.lseStats x a b c d).stats (256 * c + r), tabGet 0 (y.lseStats x a b c d).stats (256 * d + r)) = x.lseEntry a b c d r := by
  unfold Core.lseStats
  rw [Core.setStatRow_in _ _ _ r (by simpa using hr), Core.setStatRow_out _ _ _ _ (by simp; omega), Core.setStatRow_in _ _ _ r (by simpa using hr)]
  simp

section
variable {t u : State} {w : Who} {len : Nat}

theorem sideVector_stores {lse : Bool} {a b c d p : Nat} (hf : t.vecAddrFault w true p 1024 0x0501 = 0)
    (hm : t.mustWait w { lw := [(p, 1024)] } = false) (hv : t.vecTurn w = true)
    (hw : (t.noteWrote w p 1024).loamWrite (corePort w.core.val) p (statBytes ((t.core w.core.val).statRow a)) = (u, 0)) :
    sideVector w len lse a b c d p t = some (if lse then
      (u.modCore w.core.val fun y => y.lseStats (t.core w.core.val) a b c d).advanceVec w len else u.advanceVec w len) := by
  unfold sideVector
  dsimp only
  rw [if_neg (not_not_intro hf), if_neg (by simp [hm, hv]), hw, if_neg (by simp)]
  cases lse
  · rfl
  · simp only [Bool.not_true, Bool.false_eq_true, if_false, if_true, List.map_map]
    rfl

/-- A row close whose count is 0 or above 4,096 aborts (R133). -/
theorem rowClose_count {lse : Bool} {c d n side fin : Nat} {x y : Fp32} (h : n = 0 ∨ 4096 < n) :
    rowClose w len lse c d n side fin x y t = some (t.raise w 0x0502 side) := by
  have hf : t.rowcloseFault w lse n side fin = 0x0502 := if_pos (h.elim .inl fun h => .inr (.inl h))
  unfold rowClose
  dsimp only
  rw [hf, if_pos (by decide)]

/-- An RMS row close writes the final vector (R133). -/
theorem rowClose_rms {c d n side fin : Nat} {x y : Fp32} {v : State} {sum : List Fp32} (hf : t.rowcloseFault w false n side fin = 0)
    (hm : t.mustWait w { lr := [(side, 1024 * n)], lw := [(fin, 1024)] } = false) (hv : t.vecTurn w = true)
    (hs : rmsSum w side n 0 (List.replicate 256 0#32) t = (u, .ok sum))
    (hw : (u.noteWrote w fin 1024).loamWrite (corePort w.core.val) fin (statBytes (sum.map fun z => fRsqrt (fAdd (fMul z x) y))) = (v, 0)) :
    rowClose w len false c d n side fin x y t = some (v.advanceVec w len) := by
  unfold rowClose
  dsimp only
  rw [if_neg (not_not_intro hf), if_neg (by simp [hm, hv]), if_neg (by simp), hs]
  simp only [hw, if_true]

/-- An LSE row close writes the final vector and corrects the side vectors (R133). -/
theorem rowClose_lse {c d n side fin : Nat} {x y : Fp32} {v : State} (hf : t.rowcloseFault w true n side fin = 0)
    (hm : t.mustWait w { lr := [(side, 1024 * n)], lw := [(fin, 1024), (side, 1024 * n)] } = false) (hv : t.vecTurn w = true)
    (hw : ((t.noteWrote w side (1024 * n)).noteWrote w fin 1024).loamWrite (corePort w.core.val) fin
      (statBytes (List.zipWith (fun m l => fAdd m (fLog2 l)) ((t.core w.core.val).statRow c) ((t.core w.core.val).statRow d))) = (u, 0))
    (hs : lseCorrect w side (List.zipWith (fun m l => fAdd m (fLog2 l)) ((t.core w.core.val).statRow c) ((t.core w.core.val).statRow d)) n 0 u =
      (v, 0)) :
    rowClose w len true c d n side fin x y t = some (v.advanceVec w len) := by
  have hstat (st : Nat) : ((t.noteWrote w side (1024 * n)).core w.core.val).statRow st = (t.core w.core.val).statRow st :=
    Core.statRow_congr (State.stats_noteWrote ..) st
  unfold rowClose
  dsimp only
  rw [if_neg (not_not_intro hf), if_neg (by simp [hm, hv]), if_pos rfl, hstat, hstat]
  simp only [hw, ne_eq, not_true_eq_false, if_false, hs, if_true]

end

/-- Settles O30: one lemma for each form of the two instructions. -/
theorem sideVectors : Obligations.SideVectors := by
  unfold Obligations.SideVectors
  intro w s t len
  refine ⟨fun lse a b c d p u h hf hm hv hw => ?_, fun c d n side fin x y h hf hm hv u v sum hs hw => ?_,
    fun c d n side fin x y h hf hm hv => ?_, fun lse c d n side fin x y h hn => ?_⟩
  · rw [← h.touched.core] at hw
    have hu : Touched (t.noteWrote w p 1024) u := by
      have h := Touched.loamWrite (t.noteWrote w p 1024) (corePort w.core.val) p (statBytes ((t.core w.core.val).statRow a))
      rwa [hw] at h
    have hoff : (u.item w).off = (s.item w).off := by rw [hu.item, State.off_noteWrote, h.touched.item]
    have hstats : (u.core w.core.val).stats = (s.core w.core.val).stats := by rw [hu.core, State.stats_noteWrote, h.touched.core]
    have hx := sideVector_stores (len := len) (lse := lse) (b := b) (c := c) (d := d) hf hm hv hw
    cases lse
    · exact ⟨_, State.row_issue h hx, by simp, by simp [hoff], fun _ => by simp [hstats], fun g => by cases g⟩
    · have hitem : (u.modCore w.core.val fun y => y.lseStats (t.core w.core.val) a b c d).item w = u.item w :=
        State.item_modCore_of u (f := fun y => y.lseStats (t.core w.core.val) a b c d) (Core.lseStats_ctx _ a b c d) w
      refine ⟨_, State.row_issue h hx, by simp, by simp [hitem, hoff], fun g => (by cases g), fun _ hcd r hr => ?_⟩
      simp only [if_true, State.core_activate, State.core_advanceVec, State.stats_advance, State.core_modCore_self]
      rw [Core.lseStats_entry _ _ hcd hr, Core.lseEntry, Core.statRow_getD _ _ hr, Core.statRow_getD _ _ hr, Core.statRow_getD _ _ hr,
        Core.statRow_getD _ _ hr, h.touched.core]
  · have hu : Touched t u := by
      have h := Touched.rmsSum w side n 0 (List.replicate 256 0#32) t
      rwa [hs] at h
    have hv' : Touched (u.noteWrote w fin 1024) v := by
      have h := Touched.loamWrite (u.noteWrote w fin 1024) (corePort w.core.val) fin (statBytes (sum.map fun z => fRsqrt (fAdd (fMul z x) y)))
      rwa [hw] at h
    exact ⟨_, State.row_issue h (rowClose_rms hf hm hv hs hw), by simp, by simp [hv'.item, hu.item, h.touched.item]⟩
  · intro f u v hw hs
    exact ⟨_, State.row_issue h (rowClose_lse hf hm hv (by rw [h.touched.core]; exact hw) (by rw [h.touched.core]; exact hs)), by simp, by simp⟩
  · exact ⟨_, State.row_issue h (rowClose_count hn), h.raised (.refl t)⟩

end Sys2Proof.Machine
end

section
/-! PROOFS. Chains, epilogue tiles and what each kind of stage computes (R112 to R129, R138, R153). -/

namespace Sys2Proof.Machine

/-! ### Blocks and tiles (R126, R138, R153) -/

/-- A change of the item in a context, then of it alone, shows its store and its vector registers. -/
theorem State.runBlock_ends {w : Who} {len k : Nat} {c : ChainOp} {f sf : SFmt} {b : List Byte} {blk : Nat × Nat × Nat × Nat} {u x : State}
    (hm : u.mustWait w (c.foot (decodeChain b)) = false) (hv : u.vecTurn w = true) (hs : sfmtOf (decodeChain b).sfmt = some sf)
    (hk : (unitsOf c.rows c.cols)[k]? = some blk) (hr : State.endRun w (decodeChain b) (c.run w (decodeChain b) f sf blk u) c.src = (x, true)) :
    ∃ n, runBlock w len c f b k u = some (if (unitsOf c.rows c.cols).length ≤ k + 1 then (x.conflicts w n).advance w len
      else (x.conflicts w n).modItem w fun i => { i with chain := some (k + 1, b) }) := by
  refine ⟨c.bankCycles (decodeChain b) f sf blk, ?_⟩
  unfold runBlock
  dsimp only
  rw [if_neg (by simp [hm, hv]), hs, hk]
  dsimp only
  rw [hr]
  rfl

theorem runChainOp_first {w : Who} {len : Nat} {c : ChainOp} {t u : State} {f : SFmt} {b : List Byte} (h : (t.item w).chain = none)
    (hd : t.chainDecode w c = (u, .inl (f, b))) : runChainOp w len c t = runBlock w len c f b 0 u := by
  unfold runChainOp
  rw [h, hd]

theorem runChainOp_later {w : Who} {len k : Nat} {c : ChainOp} {t : State} {f : SFmt} {b : List Byte} (h : (t.item w).chain = some (k, b))
    (hf : c.fmt = some f) : runChainOp w len c t = runBlock w len c f b k t := by
  unfold runChainOp
  rw [h, hf]

/-- A chain whose fields do not suit fails its decode (R125, R153). -/
theorem runChainOp_bad {w : Who} {len : Nat} {c : ChainOp} {t : State} (h : (t.item w).chain = none)
    (hb : c.srck = 3 ∨ c.rows = 0 ∨ c.cols = 0 ∨ (c.srck = 2 ∧ c.sfmt ≠ 0x28 ∧ c.sfmt ≠ 0x30) ∨ (c.sfmt ≠ 0x30 ∧ fmtD c.sfmt = none) ∨
      c.desc % 16 ≠ 0) : ∃ a, runChainOp w len c t = some (t.raise w 0x0501 a) := by
  have key : ∃ a, t.chainDecode w c = (t, .inr (0x0501, a)) := by
    unfold State.chainDecode
    cases hf : c.fmt with
    | none => exact ⟨_, rfl⟩
    | some f =>
      dsimp only
      by_cases ho : c.ok f = true
      · have hsize : 1 ≤ c.rows ∧ 1 ≤ c.cols := by
          unfold ChainOp.ok at ho
          rw [Bool.and_eq_true, decide_eq_true_eq] at ho
          exact ho.1
        have hdesc : c.desc % 16 ≠ 0 := by
          unfold ChainOp.fmt at hf
          rcases hb with hb | hb | hb | ⟨h2, ha, hb⟩ | ⟨ha, hb⟩ | hb
          · simp [hb] at hf
          · omega
          · omega
          · simp [h2, ha, hb] at hf
          · have hfp : c.sfmt ≠ 0x28 := by
              intro h28
              rw [h28] at hb
              exact absurd hb (by decide)
            simp [ha, hb, hfp] at hf
          · exact hb
        exact ⟨c.desc, by rw [if_neg (by simp [ho]), if_pos hdesc]⟩
      · exact ⟨c.src, by rw [if_pos (by simp [ho])]⟩
  obtain ⟨a, ha⟩ := key
  exact ⟨a, by unfold runChainOp; rw [h, ha]⟩

theorem runBlock_waits {w : Who} {len k : Nat} {c : ChainOp} {f : SFmt} {b : List Byte} {t : State} (hw : isHdl w = false)
    (hv : t.hdlVec w.core = true) : runBlock w len c f b k t = none := by
  unfold runBlock
  dsimp only
  rw [if_pos (by simp [State.vecTurn, hw, hv])]

theorem epilogueStep_waits {w : Who} {s : State} (hw : isHdl w = false) (hv : s.hdlVec w.core = true) : epilogueStep w s = none := by
  unfold epilogueStep
  dsimp only
  split
  · rfl
  · split
    · rfl
    · rw [if_pos (by simp [hw, hv])]

theorem epilogueStep_tile {w : Who} {s x : State} {j : ArrJob} {n : Nat} {ns : List Nat} (ha : (s.item w).abort = none)
    (hj : (s.core w.core.val).jobs.find? (fun j => j.who == w && (!j.tiles.isEmpty && j.retryAt.isNone && !j.restart)) = some j)
    (hn : j.tiles = n :: ns) (hw : isHdl w = true ∨ ((s.core w.core.val).cmd.phase = .running ∧ s.hdlVec w.core = false))
    (he : s.epilogue w j.op (decodeChain j.epi) ((gridTiles j.op.m j.op.n).getD n (0, 0)).1 ((gridTiles j.op.m j.op.n).getD n (0, 0)).2 = (x, true)) :
    ∃ k p f, epilogueStep w s = some (((x.conflicts w k).modJob w.core.val p f).dropDone w.core.val) := by
  refine ⟨j.epiBank ((gridTiles j.op.m j.op.n).getD n (0, 0)), fun k => k.who == w && (!k.tiles.isEmpty && k.retryAt.isNone && !k.restart),
    fun k => { k with tiles := ns, tilesLeft := k.tilesLeft - 1 }, ?_⟩
  unfold epilogueStep
  dsimp only
  rw [if_neg (by simp [ha]), hj]
  dsimp only
  rw [if_neg (by rcases hw with hw | ⟨hp, hv⟩ <;> simp [*]), hn]
  dsimp only
  rw [he]
  rfl

/-! ### One operation on FP elements (R117, R118) -/

/-- The FP result of an operation before its round format. -/
def Stage.fpOp (t : Stage) (a b : Fp32) (bit : Bool) : Fp32 := (stageVal t (.fp a) (.fp b) bit).1.toFp

theorem stageVal_fp (t : Stage) (a : Fp32) (y : Val) (bit : Bool) : stageVal t (.fp a) y bit = (.fp (t.fpOp a y.toFp bit), false) := rfl

theorem Stage.fpOp_eq {t : Stage} {a : Fp32} {y : Val} {bit : Bool} {z : Fp32} (h : stageVal t (.fp a) y bit = (.fp z, false)) :
    z = t.fpOp a y.toFp bit := by
  rw [stageVal_fp] at h
  exact (Val.fp.inj (Prod.mk.inj h).1).symm

section
variable {t : Stage} (a b : Fp32) (bit : Bool)

theorem Stage.fpOp_add (h : t.op = 1) (hs : t.sub % 2 = 0) : t.fpOp a b bit = fAdd a b := by simp [Stage.fpOp, stageVal, h, hs, Val.toFp]
theorem Stage.fpOp_sub (h : t.op = 1) (hs : t.sub % 2 = 1) : t.fpOp a b bit = fSub a b := by simp [Stage.fpOp, stageVal, h, hs, Val.toFp]
theorem Stage.fpOp_mul (h : t.op = 2 ∨ t.op = 0xE) : t.fpOp a b bit = fMul a b := by
  rcases h with h | h <;> simp [Stage.fpOp, stageVal, h, Val.toFp]
theorem Stage.fpOp_fma (h : t.op = 3) : t.fpOp a b bit = fFma a b t.immB := by simp [Stage.fpOp, stageVal, h, Val.toFp]
theorem Stage.fpOp_max (h : t.op = 4) : t.fpOp a b bit = fMax a b := by simp [Stage.fpOp, stageVal, h, Val.toFp]
theorem Stage.fpOp_min (h : t.op = 5) : t.fpOp a b bit = fMin a b := by simp [Stage.fpOp, stageVal, h, Val.toFp]
theorem Stage.fpOp_sel (h : t.op = 7) : t.fpOp a b bit = if bit then b else a := by simp [Stage.fpOp, stageVal, h, Val.toFp]
theorem Stage.fpOp_exp2 (h : t.op = 8) : t.fpOp a b bit = fExp2 a := by simp [Stage.fpOp, stageVal, h, Val.toFp]
theorem Stage.fpOp_log2 (h : t.op = 9) : t.fpOp a b bit = fLog2 a := by simp [Stage.fpOp, stageVal, h, Val.toFp]
theorem Stage.fpOp_rcp (h : t.op = 0xA) : t.fpOp a b bit = fRcp a := by simp [Stage.fpOp, stageVal, h, Val.toFp]
theorem Stage.fpOp_rsqrt (h : t.op = 0xB) : t.fpOp a b bit = fRsqrt a := by simp [Stage.fpOp, stageVal, h, Val.toFp]
theorem Stage.fpOp_clamp (h : t.op = 0xC) : t.fpOp a b bit = fMin (fMax a t.immA) t.immB := by simp [Stage.fpOp, stageVal, h, Val.toFp]

/-- A NaN that enters an operation on two elements leaves it (R117). -/
theorem Stage.fpOp_nan (h : t.op = 1 ∨ t.op = 2 ∨ t.op = 3 ∨ t.op = 4 ∨ t.op = 5 ∨ t.op = 0xE) (hn : isNaN a = true ∨ isNaN b = true) :
    t.fpOp a b bit = qNaN := by
  obtain ⟨hadd, hsub, hmul, hfma, hmax, hmin⟩ := nan_in (c := t.immB) hn
  rcases h with h | h | h | h | h | h
  · rcases Nat.mod_two_eq_zero_or_one t.sub with hs | hs
    · rw [Stage.fpOp_add _ _ _ h hs, hadd]
    · rw [Stage.fpOp_sub _ _ _ h hs, hsub]
  · rw [Stage.fpOp_mul _ _ _ (.inl h), hmul]
  · rw [Stage.fpOp_fma _ _ _ h, hfma]
  · rw [Stage.fpOp_max _ _ _ h, hmax]
  · rw [Stage.fpOp_min _ _ _ h, hmin]
  · rw [Stage.fpOp_mul _ _ _ (.inr h), hmul]

theorem Stage.fpOp_clamp_nan (h : t.op = 0xC) (hn : isNaN a = true) : t.fpOp a b bit = qNaN := by
  rw [Stage.fpOp_clamp _ _ _ h, (nan_in (c := 0) (.inl hn)).2.2.2.2.1]
  exact (nan_in (c := 0) (.inl (by decide))).2.2.2.2.2

theorem Stage.fpOp_table_nan (h1 : 8 ≤ t.op) (h2 : t.op ≤ 0xB) (hn : isNaN a = true) : t.fpOp a b bit = qNaN := by
  obtain ⟨he, hl, hr, hq⟩ := trans_special.1 hn
  obtain h | h | h | h : t.op = 8 ∨ t.op = 9 ∨ t.op = 0xA ∨ t.op = 0xB := by omega
  · rw [Stage.fpOp_exp2 _ _ _ h, he]
  · rw [Stage.fpOp_log2 _ _ _ h, hl]
  · rw [Stage.fpOp_rcp _ _ _ h, hr]
  · rw [Stage.fpOp_rsqrt _ _ _ h, hq]

end

/-! ### INT elements and comparisons (R113, R116, R121) -/

/-- The INT result of an operation is brought into 32 bits, and a change by that counts (R113). -/
theorem stageVal_int {t : Stage} {a b v : Int} {bit : Bool}
    (h : (t.op = 1 ∧ t.sub % 2 = 0 ∧ v = a + b) ∨ (t.op = 1 ∧ t.sub % 2 = 1 ∧ v = a - b) ∨ (t.op = 2 ∧ v = a * b) ∨
      (t.op = 3 ∧ v = a * b + t.immB.toInt) ∨ (t.op = 4 ∧ v = max a b) ∨ (t.op = 5 ∧ v = min a b) ∨ (t.op = 7 ∧ v = if bit then b else a) ∨
      (t.op = 0xC ∧ v = min (max a t.immA.toInt) t.immB.toInt)) :
    stageVal t (.int a) (.int b) bit = (.int (max (-(2 ^ 31)) (min (2 ^ 31 - 1) v)), decide (v < -(2 ^ 31) ∨ 2 ^ 31 - 1 < v)) := by
  have hv : stageVal t (.int a) (.int b) bit = (.int (clampC (i32lo, i32hi) v).1, (clampC (i32lo, i32hi) v).2) := by
    rcases h with ⟨h, hs, rfl⟩ | ⟨h, hs, rfl⟩ | ⟨h, rfl⟩ | ⟨h, rfl⟩ | ⟨h, rfl⟩ | ⟨h, rfl⟩ | ⟨h, rfl⟩ | ⟨h, rfl⟩ <;> simp [stageVal, *]
  have hc : (clampC (i32lo, i32hi) v).2 = decide (v < -(2 ^ 31) ∨ 2 ^ 31 - 1 < v) := by
    unfold clampC clampI i32lo i32hi
    simp only [decide_eq_decide]
    omega
  rw [hv, hc]
  rfl

theorem cmpVal_finite {a b : Fp32} (ha : a.toNat / 2 ^ 23 % 256 ≠ 255) (hb : b.toNat / 2 ^ 23 % 256 ≠ 255) (sub : Nat) :
    cmpVal sub (.fp a) (.fp b) = cmpInt sub (if f32Val a < f32Val b then -1 else if f32Val a = f32Val b then 0 else 1) 0 := by
  unfold cmpVal
  dsimp only
  rw [if_neg (by simp [isNaN_finite ha, isNaN_finite hb]), cmpExt_finite ha hb]

theorem cmpVal_nan {a b : Fp32} (h : isNaN a = true ∨ isNaN b = true) (sub : Nat) :
    cmpVal sub (.fp a) (.fp b) = decide (sub = 1 ∨ sub = 6) := by
  unfold cmpVal
  dsimp only
  rw [if_pos (by simpa using h)]
  simp [beq_eq_decide]

/-- The position of an element is taken modulo 2^32 (R121). -/
theorem cmpPos_bmod (t : Stage) (i j : Nat) :
    cmpPos t i j = cmpVal t.sub (.int (((j : Int) + t.immB.toInt - i).bmod (2 ^ 32))) (.int t.immA.toInt) := by
  have h : (BitVec.ofNat 32 j + t.immB - BitVec.ofNat 32 i).toInt = ((j : Int) + t.immB.toInt - i).bmod (2 ^ 32) := by
    simp only [BitVec.toInt_sub, BitVec.toInt_add, BitVec.toInt_ofNat']
    simp
  unfold cmpPos
  rw [h]
  rfl

theorem zeroF_decide (p : Prop) [Decidable p] : zeroF (decide p) = if p then 0x80000000#32 else 0#32 := by simp [zeroF]

theorem mul_zero_sign (a b : Fp32) : (if (2 ^ 31 ≤ a.toNat) = (2 ^ 31 ≤ b.toNat) then 0#32 else 0x80000000#32) =
    zeroF (decide (2 ^ 31 ≤ a.toNat ↔ ¬ 2 ^ 31 ≤ b.toNat)) := by
  rw [zeroF_decide]
  by_cases h : (2 ^ 31 ≤ a.toNat) = (2 ^ 31 ≤ b.toNat)
  · rw [if_pos h, if_neg (by rw [← eq_iff_iff, h]; tauto)]
  · rw [if_neg h, if_pos (by rw [eq_iff_iff] at h; tauto)]

theorem fma_zero_sign (a b c : Fp32) : (if f32Val a * f32Val b = 0 ∧ ¬ ((2 ^ 31 ≤ a.toNat) = (2 ^ 31 ≤ b.toNat)) ∧ c = 0x80000000#32
      then 0x80000000#32 else 0#32) =
    zeroF (decide (f32Val a * f32Val b = 0 ∧ (2 ^ 31 ≤ a.toNat ↔ ¬ 2 ^ 31 ≤ b.toNat) ∧ c = zeroF true)) := by
  rw [zeroF_decide]
  have hsign : (¬ (2 ^ 31 ≤ a.toNat) = (2 ^ 31 ≤ b.toNat)) ↔ (2 ^ 31 ≤ a.toNat ↔ ¬ 2 ^ 31 ≤ b.toNat) := by rw [eq_iff_iff]; tauto
  simp only [hsign]
  rfl

/-- Settles O31: the order of blocks and tiles, then the operations, one after another. -/
theorem chainsAndEpilogues : Obligations.ChainsAndEpilogues := by
  unfold Obligations.ChainsAndEpilogues
  intro finite infinity zero negative nan val rounds
  have hval : val = f32Val := funext f32Val_fields
  clear_value val
  subst hval
  have hrounds {x : ℚ} {r : Word32} (h : Rounds x r) : rounds x r := ⟨fun g => ⟨(h.1 g).1, fun y _ => (h.1 g).2 y⟩, h.2⟩
  refine ⟨fun w s t len => ⟨?_, ?_, ?_, ?_, ?_⟩, fun t a b bit z hz => ?_, fun t a y bit z hz => ?_, fun t a b bit => ⟨_, rfl⟩,
    fun t a b bit v h => stageVal_int h, fun a b => ⟨rfl, by simp [cmpVal, cmpInt, bne, beq_eq_decide], rfl, rfl, rfl, rfl, rfl⟩,
    fun a b => ⟨fun ha hb => ?_, fun sub h => cmpVal_nan h sub⟩, cmpPos_bmod,
    fun sub xs h => ⟨treeNode (if sub % 4 = 1 then fMax else fAdd) (segLane sub xs), segPartial_tree sub xs h, fun l _ => rfl, fun _ _ => rfl⟩,
    fun s u g t int vs ys k h0 hl hd hs => runStage_spec h0 hl hd hs, fun f t xs => ⟨?_, ?_, roundStage_dflt, ?_⟩,
    fun f t ns h => roundStage_int h, fun s g t ts vs => ⟨rfl, fun u us h => ?_⟩⟩
  · intro c f sf k blk u b x h hstart hm hv hs hk hr
    obtain ⟨n, hblock⟩ := State.runBlock_ends (len := len) hm hv hs hk hr
    have hrun : runChainOp w len c t = runBlock w len c f b k u := by
      rcases hstart with ⟨hc, rfl, hd⟩ | ⟨hc, hf, rfl⟩
      · exact runChainOp_first (by rw [h.touched.item, hc]) hd
      · exact runChainOp_later (by rw [h.touched.item, hc]) hf
    have hlen : k < (unitsOf c.rows c.cols).length := (List.getElem?_eq_some_iff.mp hk).1
    have hexec := State.row_issue (f := fun op len s => match op with
      | .chain c => runChainOp w len c s
      | _ => none) h (hrun.trans hblock)
    refine ⟨_, hexec, ?_, ?_, ?_, fun g => ?_, fun g => ?_⟩
    · split <;> simp [State.conflicts]
    · split <;> simp [State.conflicts]
    · split <;> simp [State.conflicts]
    · rw [if_neg (by omega)]
      simp [State.conflicts]
    · rw [if_pos (by omega)]
      simp [State.conflicts, Item.gone]
  · intro c h hc hb
    obtain ⟨a, ha⟩ := runChainOp_bad (len := len) (by rw [h.touched.item, hc]) hb
    exact ⟨_, State.row_issue h ha, h.raised (.refl t)⟩
  · intro c k b h hc hf hw hv
    obtain ⟨f, hf⟩ := Option.isSome_iff_exists.mp hf
    exact State.row_issue_none h ((runChainOp_later (by rw [h.touched.item, hc]) hf).trans (runBlock_waits hw hv))
  · intro j n ns x hf ha hj hn hw he
    obtain ⟨k, p, f, hstep⟩ := epilogueStep_tile ha hj hn hw he
    exact ⟨_, State.row_fast hf hstep, by simp [State.conflicts, State.dropDone, State.modJob], by simp [State.conflicts, State.dropDone, State.modJob],
      by simp [State.conflicts, State.dropDone, State.modJob]⟩
  · exact fun hw hv => State.row_fast_none (epilogueStep_waits hw hv)
  · obtain rfl := Stage.fpOp_eq hz
    rw [show (Val.fp b).toFp = b from rfl]
    refine ⟨Stage.fpOp_sel a b bit, Stage.fpOp_nan a b bit, fun h hn => by rw [Stage.fpOp_fma _ _ _ h]; exact fFma_nan hn,
      Stage.fpOp_clamp_nan a b bit, fun ha hb => ⟨fun h hs => ?_, fun h hs => ?_, fun h => ?_, fun h hc => ?_, fun h => ?_, fun h => ?_, fun h hl hh => ?_⟩,
      fun h hs n => ?_, fun h n => ?_, fun h n => ?_⟩
    · rw [Stage.fpOp_add _ _ _ h hs]
      exact ⟨hrounds (fAdd_finite ha hb).1, fun g => ((fAdd_finite ha hb).2 g).trans (zeroF_decide _).symm⟩
    · rw [Stage.fpOp_sub _ _ _ h hs]
      exact ⟨hrounds (fSub_finite ha hb).1, fun g => ((fSub_finite ha hb).2 g).trans (zeroF_decide _).symm⟩
    · rw [Stage.fpOp_mul _ _ _ h]
      exact ⟨hrounds (fMul_finite ha hb).1, fun g => ((fMul_finite ha hb).2 g).trans (mul_zero_sign a b)⟩
    · rw [Stage.fpOp_fma _ _ _ h]
      exact ⟨hrounds (fFma_finite ha hb hc).1, fun g => ((fFma_finite ha hb hc).2 g).trans (fma_zero_sign a b t.immB)⟩
    · rw [Stage.fpOp_max _ _ _ h]
      exact fMax_finite ha hb
    · rw [Stage.fpOp_min _ _ _ h]
      exact fMin_finite ha hb
    · rw [Stage.fpOp_clamp _ _ _ h]
      exact fClamp_finite ha hl hh
    · rw [Stage.fpOp_add _ _ _ h hs]
      obtain ⟨hsame, hopp, hfin⟩ := fAdd_inf n
      refine ⟨?_, ?_, ?_, ?_⟩
      · rintro rfl rfl; exact hsame
      · rintro rfl rfl; exact hopp
      · rintro rfl hb; exact (hfin b hb).1
      · rintro rfl ha; exact (hfin a ha).2
    · rw [Stage.fpOp_mul _ _ _ h]
      refine ⟨?_, ?_, ?_⟩
      · rintro rfl hb
        split
        · exact ((fMul_inf n b hb).1 ‹_›).1
        · exact ((fMul_inf n b hb).2 ‹_›).1
      · rintro rfl ha
        split
        · exact ((fMul_inf n a ha).1 ‹_›).2
        · exact ((fMul_inf n a ha).2 ‹_›).2
      · rintro k rfl rfl
        show fMul (infF n) (infF k) = infF (n != k)
        rw [fMul, ext32_infF, ext32_infF]
        rfl
    · rw [Stage.fpOp_fma _ _ _ h]
      exact fFma_inf a b t.immB n
  · obtain rfl := Stage.fpOp_eq hz
    obtain ⟨-, ⟨he0, hl0, hr0, hq0⟩, he1, hl1, hr1, hq1⟩ := trans_special (a := a)
    refine ⟨Stage.fpOp_table_nan a _ bit, fun h => ?_, fun h => ?_, fun h => ?_, fun h => ?_⟩
    · rw [Stage.fpOp_exp2 _ _ _ h]
      refine ⟨by rintro rfl; exact he0, by rintro rfl; exact he1, fun ha => ⟨fun g => ((trans_zero ha).1 g).1, (fExp2_far ha).1, (fExp2_far ha).2,
        fun n hn h1 h2 => hrounds (fExp2_int ha hn h1 h2)⟩⟩
    · rw [Stage.fpOp_log2 _ _ _ h]
      refine ⟨by rintro rfl; exact hl0, by rintro rfl; exact hl1, fun ha => ⟨fun g => ((trans_zero ha).1 g).2.1, fun g => ((trans_zero ha).2 g).1,
        fun n hn => ?_⟩⟩
      rw [fLog2_two ha hn]
      exact hrounds (intToFp_rounds n).1
    · rw [Stage.fpOp_rcp _ _ _ h]
      refine ⟨fun n => ?_, fun ha => ⟨fun g => ((trans_zero ha).1 g).2.2.1, fun g => hrounds (fRcp_rounds ha g)⟩⟩
      rintro rfl
      cases n
      · exact hr0
      · exact hr1
    · rw [Stage.fpOp_rsqrt _ _ _ h]
      refine ⟨by rintro rfl; exact hq0, by rintro rfl; exact hq1, fun ha => ⟨fun g => ((trans_zero ha).1 g).2.2.2, fun g => ((trans_zero ha).2 g).2,
        fun g => ?_⟩⟩
      rcases fRsqrt_rounds ha g with ⟨x, h1, h2, h3⟩ | ⟨l, h, h1, h2, h3, h4⟩
      · exact .inl ⟨x, h1, h2, hrounds h3⟩
      · exact .inr ⟨l, h, h1, h2, h3, fun x hl hh => hrounds (h4 x hl hh)⟩
  · simp only [cmpVal_finite ha hb, cmpInt]
    rcases lt_trichotomy (f32Val a) (f32Val b) with g | g | g
    · simp [g, g.ne, g.le, not_lt.mpr g.le, not_le.mpr g]
    · simp [g]
    · simp [g, g.ne', g.le, not_lt.mpr g.le, not_le.mpr g]
  · rfl
  · simp only [roundStage, List.map_map]
    rfl
  · rintro d rfl hd
    have hd : d.fmt.isInt = false := hd
    have hxs : (xs.map Val.fp).map Val.toFp = xs := by simp [Function.comp_def, Val.toFp]
    simp only [roundStage, dfltSeg, SFmt.isInt, cvtSeg, hd, hxs]
    rfl
  · rw [State.runStages, h]

end Sys2Proof.Machine
end

section
/-! PROOFS. How a descriptor is issued (R210, R211, R214). -/

namespace Sys2Proof.Machine

section
variable {w : Who} {len ch : Nat} {t : State}

theorem descIssue_bad {d : Desc} (h : descFault t w.core.val ch d ≠ 0) : descIssue w len ch d t = some (t.raise w (descFault t w.core.val ch d) ch) := by
  unfold descIssue
  exact if_pos h

theorem descIssue_full {d : Desc} (h : descFault t w.core.val ch d = 0) (hm : t.mustWait w (d.foot t.id) = false)
    (hq : 8 ≤ (t.chan ch).queue.length) : descIssue w len ch d t = some (t.blockThrough w 13) := by
  unfold descIssue State.acceptDesc
  dsimp only
  rw [if_neg (not_not_intro h), if_neg (by simp [hm]), if_pos hq]

theorem descIssueM_misaligned {a : Nat} (h : a % 64 ≠ 0) : descIssueM w len ch a t = some (t.raise w 0x0A01 a) := by simp [descIssueM, h]

theorem descIssueM_reads {a : Nat} {b : List Byte} {u : State} (h : a % 64 = 0) (hf : t.itemFault w false a 64 = 0)
    (hm : t.mustWait w { lr := [(a, 64)] } = false) (hr : t.itemRead w a 64 = (u, .ok b)) :
    descIssueM w len ch a t = descIssue w len ch (decodeDesc b) u := by
  unfold descIssueM
  dsimp only
  rw [if_neg (not_not_intro h), if_neg (not_not_intro hf), if_neg (by simp [hm]), hr]

end

/-- Settles O32: the three outcomes of an issue, the descriptor held by the instruction or read from Loam. -/
theorem descriptorsAreIssued : Obligations.DescriptorsAreIssued := by
  unfold Obligations.DescriptorsAreIssued
  intro w s t len ch d
  refine ⟨fun b h hd => ⟨fun hf => ?_, fun hf hm hq => ?_, fun hf hm hq => ?_⟩, fun a u b h ha hf hm hr hd hw hq => ?_, fun a h ha => ?_⟩
  · subst hd
    exact ⟨_, State.row_issue h (descIssue_bad hf), h.raised (.refl t)⟩
  · subst hd
    obtain ⟨v, hv, hoff, hloam, hsyn, hqueue, hrun, hother⟩ := descIssue_next (len := len) h.touched hf hm hq
    exact ⟨_, State.row_issue h hv, hoff, hloam, hsyn, hqueue, hrun, hother⟩
  · subst hd
    rw [← State.chan_of (by rw [h.touched.dma])] at hq
    exact ⟨_, State.row_issue h (descIssue_full hf hm hq), by simp [State.blockThrough, h.touched.item], by simp [State.blockThrough],
      by simp [State.blockThrough, h.touched.dma]⟩
  · have hu : Touched s u := h.touched.trans (by have g := Touched.itemRead t w a 64; rwa [hr] at g)
    obtain ⟨v, hv, hoff, hloam, hsyn, hqueue, -⟩ := descIssue_next (len := len) hu hd hw hq
    exact ⟨_, State.row_issue h ((descIssueM_reads ha hf hm hr).trans hv), hoff, hloam, hsyn, hqueue⟩
  · exact ⟨_, State.row_issue h (descIssueM_misaligned ha), h.raised (.refl t)⟩

end Sys2Proof.Machine
end

section
/-! PROOFS. The beats of the DMA engine and the sectors it performs (R45, R185, R197, R201, R207, R218, R224, R227). -/

namespace Sys2Proof.Machine

theorem Touched.chan {s t : State} (h : Touched s t) (k : Nat) : t.chan k = s.chan k := State.chan_of (by rw [h.dma]) k

/-! ### The channel of a beat (R218) -/

theorem le_foldl_max (l : List Nat) : ∀ b : Nat, b ≤ l.foldl max b ∧ ∀ x ∈ l, x ≤ l.foldl max b := by
  induction l with
  | nil => exact fun b => ⟨le_refl b, by simp⟩
  | cons a l ih =>
    intro b
    obtain ⟨hb, hl⟩ := ih (max b a)
    refine ⟨(le_max_left b a).trans hb, fun x hx => ?_⟩
    rcases List.mem_cons.mp hx with rfl | hx
    · exact (le_max_right b x).trans hb
    · exact hl x hx

theorem State.beatChannel_wins {s : State} {ch : Nat} (h : s.beatChannel = some ch) :
    s.chanReady ch = true ∧ ∀ k < 33, s.chanReady k = true → s.chanPrio k ≤ s.chanPrio ch := by
  unfold State.beatChannel at h
  dsimp only at h
  have htop := List.find?_some h
  rw [Bool.and_eq_true, beq_iff_eq] at htop
  obtain ⟨hready, htop⟩ := htop
  refine ⟨hready, fun k hk hr => ?_⟩
  rw [htop]
  exact (le_foldl_max _ 0).2 _ (List.mem_map_of_mem (List.mem_filter.mpr ⟨List.mem_range.mpr hk, hr⟩))

/-! ### The beat itself -/

/-- The state in which a beat of descriptor `r` of channel `ch` moves its sector: the beat is counted. -/
def State.onBeat (s : State) (ch : Nat) (r : DescRun) : State :=
  ({ s with dma := { s.dma with last := tabSet s.dma.last (s.chanPrio ch) ch }
            ctr := { s.ctr with dmaBeats := (unitCount 4096 s.ctr.dmaBeats s.ctr.dmaSub 1).1
                                dmaSub := (unitCount 4096 s.ctr.dmaBeats s.ctr.dmaSub 1).2 } } : State).work 3 r.itemNo

section
variable (s : State) (ch : Nat) (r : DescRun)

@[simp] theorem State.onBeat_id : (s.onBeat ch r).id = s.id := by simp [State.onBeat]
@[simp] theorem State.onBeat_loam : (s.onBeat ch r).loam = s.loam := by simp [State.onBeat]
@[simp] theorem State.onBeat_out : (s.onBeat ch r).out = s.out := by simp [State.onBeat]
@[simp] theorem State.onBeat_port : (s.onBeat ch r).port = s.port := by simp [State.onBeat]
@[simp] theorem State.onBeat_chan (k : Nat) : (s.onBeat ch r).chan k = s.chan k := State.chan_of (by simp [State.onBeat]) k

end

theorem dmaBeatStep_read {s : State} {ch : Nat} {r : DescRun} {a n : Nat} (hb : s.beatChannel = some ch)
    (hr : (s.chan ch).run.find? s.descReady = some r) (hn : r.need[r.rd]? = some (a, n)) :
    dmaBeatStep s = some ((s.onBeat ch r).readBeat ch r a n) := by
  unfold dmaBeatStep
  rw [hb]
  dsimp only
  rw [hr]
  dsimp only
  rw [hn]
  rfl

theorem dmaBeatStep_write {s : State} {ch : Nat} {r : DescRun} (hb : s.beatChannel = some ch)
    (hr : (s.chan ch).run.find? s.descReady = some r) (hn : r.need[r.rd]? = none) :
    dmaBeatStep s = some ((s.onBeat ch r).writeBeat ch r) := by
  unfold dmaBeatStep
  rw [hb]
  dsimp only
  rw [hr]
  dsimp only
  rw [hn]
  rfl

theorem State.chan_modDesc (s : State) (ch no : Nat) (f : DescRun → DescRun) :
    (s.modDesc ch no f).chan ch = { s.chan ch with run := (s.chan ch).run.map fun x => if x.no = no then f x else x } :=
  State.chan_setChan ..

theorem State.mem_modDesc {s : State} {ch : Nat} {r : DescRun} (h : r ∈ (s.chan ch).run) (f : DescRun → DescRun) :
    f r ∈ ((s.modDesc ch r.no f).chan ch).run := by
  rw [State.chan_modDesc]
  exact mem_map_desc _ r f h

section
variable {t u : State} {ch : Nat} {r : DescRun} {a n l : Nat}

theorem State.readBeat_own {bs : List Byte} (hp : placeOf t.id a = .own l) (hr : t.loamRead 5 (l / 64 * 64) 64 = (u, .ok bs)) :
    t.readBeat ch r a n = u.modDesc ch r.no fun x => x.got (a / 64) (bs.map some) (a % 64) n := by
  unfold State.readBeat
  rw [hp]
  dsimp only
  rw [hr]

theorem State.readBeat_covered (hp : ∀ l, placeOf t.id a ≠ .own l) (hc : t.port.covers (a / 64) = true) :
    t.readBeat ch r a n = t.modDesc ch r.no fun x => x.got (a / 64) ((t.port.forward (a / 64) []).map some) (a % 64) n := by
  unfold State.readBeat
  dsimp only
  split
  · exact absurd ‹_› (hp _)
  · rw [if_pos hc]

theorem State.readBeat_asks (hp : ∀ l, placeOf t.id a ≠ .own l) (hc : t.port.covers (a / 64) = false) :
    t.readBeat ch r a n = (((t.newTxn a (.dmaRead ch r.no (a % 64) n (r.desc.latcrit && t.criticalRoom) (t.port.holding (a / 64)))).1.modDesc ch r.no
      fun x => { x with waiting := some t.port.nextId, ticks := 0 }).send (.memRead t.port.nextId (a / 64 * 64) (r.desc.latcrit && t.criticalRoom))) := by
  unfold State.readBeat
  dsimp only
  split
  · exact absurd ‹_› (hp _)
  · rw [if_neg (by simp [hc])]
    rfl

theorem State.freeOverlap_none {d : Desc} (h : d.mayOverlap = false) (bs : List Byte) : t.freeOverlap d a bs = (t, bs) := by
  simp [State.freeOverlap, h]

theorem State.writeBeat_own (hc : ch ≠ 32) (hn : (r.desc.dstPieces r.step)[r.wr]? = some (a, n)) (hp : placeOf t.id a = .own l)
    (ho : r.desc.mayOverlap = false) :
    ∃ v : State, v = t.modDesc ch r.no (·.wrote (r.desc.dstPieces r.step).length) ∧ t.writeBeat ch r = v.setChan ch { v.chan ch with
      writes := (v.chan ch).writes ++ [⟨r.no, l, (r.pieceData (a - r.desc.dstAt r.step) n).1, (r.pieceData (a - r.desc.dstAt r.step) n).2⟩] } := by
  refine ⟨_, rfl, ?_⟩
  unfold State.writeBeat
  dsimp only
  rw [hn]
  dsimp only
  rw [hp, State.freeOverlap_none ho]
  exact if_neg hc

theorem State.writeBeat_out (hn : (r.desc.dstPieces r.step)[r.wr]? = some (a, n)) (hp : ∀ l, placeOf t.id a ≠ .own l)
    (ho : r.desc.mayOverlap = false) :
    t.writeBeat ch r = ((t.modDesc ch r.no (·.wrote (r.desc.dstPieces r.step).length)).newTxn a (.dmaWrite ch r.no n)).1.send
      (if (r.pieceData (a - r.desc.dstAt r.step) n).2 then .memPoison t.port.nextId (a / 64 * 64) 64
        else .memWrite t.port.nextId (a / 64 * 64) ((r.pieceData (a - r.desc.dstAt r.step) n).1.mapIdx fun i b => (a % 64 + i, b))) := by
  unfold State.writeBeat
  dsimp only
  rw [hn]
  dsimp only
  rw [State.freeOverlap_none ho]
  dsimp only
  split
  · exact absurd ‹_› (hp _)
  · split <;> rfl

end

/-! ### A performed sector (R197) -/

theorem State.oweAdd_shows (s : State) (k : TxnKind) (addr clu sc : Nat) (a : AddKind) : (s.oweAdd k addr clu sc a).dma = s.dma ∧
    (s.oweAdd k addr clu sc a).loam = s.loam := by
  unfold State.oweAdd State.issueAdd
  split <;> simp

/-- A count that its counter takes leaves the channels. -/
theorem State.countTo_dma {s : State} {ch : Nat} {r : DescRun} {addr clu sc : Nat} {k : AddKind} (h : clu = pkgIndex s.id → s.scBad sc = false) :
    (s.countTo ch r addr clu sc k).dma = s.dma := by
  by_cases hc : clu = pkgIndex s.id
  · exact ((countTo_frame s ch r addr clu sc k).2 hc (h hc)).1
  · unfold State.countTo
    rw [if_neg hc]
    exact (State.oweAdd_shows ..).1

theorem State.noteDma_cores (s : State) (r : DescRun) (l n : Nat) : ∃ cs, s.noteDma r l n = { s with cores := cs } := by
  unfold State.noteDma
  dsimp only
  split
  · exact s.noteWrote_frame ..
  · split
    · exact ⟨_, rfl⟩
    · exact ⟨_, rfl⟩

/-- What a sector leaves that its channel's descriptor counts (R197). -/
theorem State.performed_shows {s : State} {ch no n addr : Nat} {r : DescRun} (hr : (s.chan ch).run.find? (·.no == no) = some r)
    (hb : r.desc.bcEn = true → r.desc.bcClu = pkgIndex s.id → s.scBad r.desc.bcSc = false) :
    (s.performed ch no n addr).loam = s.loam ∧ ((s.performed ch no n addr).chan ch).writes = (s.chan ch).writes ∧
    (r.desc.bcEn = true → r.desc.bcClu = pkgIndex s.id → (s.performed ch no n addr).sc r.desc.bcSc = s.sc r.desc.bcSc + BitVec.ofNat 32 n) ∧
    (r.desc.bcEn = false → (s.performed ch no n addr).syn = s.syn) := by
  obtain ⟨t, ht⟩ : ∃ t, t = s.modDesc ch no fun x => { x with inFlight := x.inFlight - 1, done := x.done + n } := ⟨_, rfl⟩
  have hwrites : (t.chan ch).writes = (s.chan ch).writes := by rw [ht, State.chan_modDesc]
  have hp : s.performed ch no n addr = if r.desc.bcEn then t.countTo ch r addr r.desc.bcClu r.desc.bcSc (.bytes (BitVec.ofNat 32 n)) else t := by
    unfold State.performed
    rw [hr, ht]
  have hid : t.id = s.id := by rw [ht]; rfl
  have hbad : t.scBad r.desc.bcSc = s.scBad r.desc.bcSc := by rw [ht]; rfl
  by_cases he : r.desc.bcEn = true
  · rw [hp, if_pos he]
    obtain ⟨hloam, hcount⟩ := countTo_frame t ch r addr r.desc.bcClu r.desc.bcSc (.bytes (BitVec.ofNat 32 n))
    have hdma := State.countTo_dma (s := t) (ch := ch) (r := r) (addr := addr) (clu := r.desc.bcClu) (sc := r.desc.bcSc)
      (k := .bytes (BitVec.ofNat 32 n)) fun h => hbad.trans (hb he (by rw [h, hid]))
    refine ⟨hloam.trans (by rw [ht]; rfl), ?_, fun _ h => ?_, fun h => absurd he (by simp [h])⟩
    · rw [State.chan_of (s := t) (by rw [hdma]), hwrites]
    · rw [(hcount (by rw [h, hid]) (hbad.trans (hb he h))).2, ht]
      rfl
  · rw [hp, if_neg he]
    exact ⟨by rw [ht]; rfl, hwrites, fun h => absurd h he, fun _ => by rw [ht]; rfl⟩

/-- A sound sector of the own Loam is written and then performed (R45, R197). -/
theorem sectorDone_writes {s u : State} {ch : Nat} {x : DmaWrite} {rest : List DmaWrite} {r : DescRun} (hw : (s.chan ch).writes = x :: rest) (hp : x.poison = false)
    (hl : s.loamWrite 5 x.addr x.bytes = (u, 0)) (hr : (s.chan ch).run.find? (·.no == x.desc) = some r) : ∃ v : State, sectorDone ch s = some (v.performed ch x.desc x.bytes.length (ownAddr s.id x.addr)) ∧
      v.loam = u.loam ∧ v.chan ch = { s.chan ch with writes := rest } ∧ v.syn = s.syn ∧ v.id = s.id ∧ v.damage = s.damage := by
  obtain ⟨a, ha⟩ : ∃ a, a = s.setChan ch { s.chan ch with writes := rest } := ⟨_, rfl⟩
  obtain ⟨t, ht⟩ : ∃ t : State, t = a.noteDma r x.addr x.bytes.length := ⟨_, rfl⟩
  obtain ⟨cs, hcs⟩ := State.noteDma_cores a r x.addr x.bytes.length
  rw [← ht] at hcs
  have htl : t.loam = s.loam := by rw [hcs, ha]; rfl
  obtain ⟨hloam, hcode⟩ := State.loamWrite_same htl 5 x.addr x.bytes
  have htouch := Touched.loamWrite t 5 x.addr x.bytes
  rw [hl] at hloam hcode
  refine ⟨(t.loamWrite 5 x.addr x.bytes).1, ?_, hloam, ?_, ?_, ?_, ?_⟩
  · unfold sectorDone
    dsimp only
    rw [hw]
    dsimp only
    rw [hr, if_neg (by simp [hp])]
    subst ht ha
    exact congrArg (fun v : State => some (v.performed ch x.desc x.bytes.length (ownAddr s.id x.addr))) (if_pos hcode)
  · have hta : t.chan ch = a.chan ch := State.chan_of (by rw [hcs]) ch
    rw [htouch.chan, hta, ha]
    exact State.chan_setChan ..
  · rw [htouch.syn, hcs, ha]; rfl
  · rw [htouch.id, hcs, ha]; rfl
  · rw [htouch.damage, hcs, ha]; rfl

/-- Settles O34: the channel that wins, the beats in the own Loam and beyond it, and the performed sector. -/
theorem beatsMoveSectors : Obligations.BeatsMoveSectors := by
  unfold Obligations.BeatsMoveSectors
  intro s hf
  refine ⟨fun ch => State.beatChannel_wins, fun ch r a n l u bs hb hr hn hp hl => ?_, fun ch r a n l hb hc hr hn hd hp ho => ?_,
    fun ch x rest u r hw hx hl hr hbad => ?_, fun ch r a n hb hr hn hp => ⟨fun hc => ?_, fun hc => ?_⟩, fun ch r a n hb hr hn hd hp ho => ?_⟩
  · obtain ⟨hloam, hread⟩ := State.loamRead_same (s.onBeat_loam ch r) 5 (l / 64 * 64) 64
    have htouch := Touched.loamRead (s.onBeat ch r) 5 (l / 64 * 64) 64
    rw [hl] at hloam hread
    have hchan : ((s.onBeat ch r).loamRead 5 (l / 64 * 64) 64).1.chan ch = s.chan ch := by rw [htouch.chan, State.onBeat_chan]
    have hbeat := (dmaBeatStep_read hb hr hn).trans (congrArg some (State.readBeat_own (ch := ch) (r := r) (n := n) (by simpa using hp)
      (Prod.ext rfl hread)))
    refine ⟨_, State.row_fast hf hbeat, by simpa using hloam, ?_, ?_⟩
    · rw [State.chan_activate]
      exact State.mem_modDesc (by rw [hchan]; exact List.mem_of_find?_eq_some hr) _
    · rw [State.chan_activate, State.chan_modDesc, hchan]
  · obtain ⟨v, hv, hwrite⟩ := State.writeBeat_own (t := s.onBeat ch r) hc hd (by simpa using hp) ho
    refine ⟨_, State.row_fast hf ((dmaBeatStep_write hb hr hn).trans (congrArg some hwrite)), ?_, ?_, ?_⟩
    · rw [State.activate_loam]
      exact (congrArg State.loam hv).trans (s.onBeat_loam ch r)
    · rw [State.chan_activate, State.chan_setChan, hv, State.chan_modDesc, State.onBeat_chan]
    · rw [State.chan_activate, State.chan_setChan, hv]
      exact State.mem_modDesc (by rw [State.onBeat_chan]; exact List.mem_of_find?_eq_some hr) fun x => x.wrote (r.desc.dstPieces r.step).length
  · obtain ⟨v, hstep, hloam, hchan, hsyn, hid, hdamage⟩ := sectorDone_writes hw hx hl hr
    have hvbad : ∀ n, v.scBad n = s.scBad n := fun n => by rw [State.scBad, State.scBad, hdamage]
    obtain ⟨g1, g2, g3, g4⟩ := State.performed_shows (s := v) (ch := ch.val) (no := x.desc) (n := x.bytes.length)
      (addr := ownAddr s.id x.addr) (r := r) (by rw [hchan]; exact hr) fun he hc => (hvbad _).trans (hbad he (by rw [hc, hid]))
    refine ⟨_, State.row_fast hf hstep, by rw [State.activate_loam, g1, hloam], by rw [State.chan_activate, g2, hchan], fun he hc => ?_,
      fun he => by rw [State.activate_syn, g4 he, hsyn]⟩
    rw [State.sc, State.activate_syn, ← State.sc, g3 he (by rw [hc, hid]), State.sc, hsyn, ← State.sc]
  · have hbeat := (dmaBeatStep_read hb hr hn).trans (congrArg some (State.readBeat_covered (ch := ch) (r := r) (n := n)
      (by simpa using hp) (by simpa using hc)))
    refine ⟨_, State.row_fast hf hbeat, by simp, by simp, by simp, ?_, ?_⟩
    · rw [State.chan_activate, ← s.onBeat_port ch r]
      exact State.mem_modDesc (by rw [State.onBeat_chan]; exact List.mem_of_find?_eq_some hr) _
    · rw [State.chan_activate, State.chan_modDesc, State.onBeat_chan]
  · intro crit
    have hcrit : (r.desc.latcrit && (s.onBeat ch r).criticalRoom) = crit := by
      show _ = (r.desc.latcrit && s.criticalRoom)
      rw [State.criticalRoom, State.onBeat_port, ← State.criticalRoom]
    have hbeat := (dmaBeatStep_read hb hr hn).trans (congrArg some (State.readBeat_asks (ch := ch) (r := r) (n := n)
      (by simpa using hp) (by simpa using hc)))
    rw [hcrit, State.onBeat_port] at hbeat
    have hchan : ∀ k, ((s.onBeat ch r).newTxn a k).1.chan ch = s.chan ch := fun k => (State.chan_of (by simp) ch).trans (s.onBeat_chan ch r ch)
    refine ⟨_, State.row_fast hf hbeat, by simp, by simp, by simp [State.newTxn], ?_, ?_⟩
    · rw [State.chan_activate]
      exact State.mem_modDesc (by rw [hchan]; exact List.mem_of_find?_eq_some hr) fun x => { x with waiting := some s.port.nextId, ticks := 0 }
    · rw [State.chan_activate]
      refine (congrArg Channel.writes (State.chan_modDesc ..)).trans ?_
      rw [hchan]
  · intro data
    have hbeat := (dmaBeatStep_write hb hr hn).trans (congrArg some (State.writeBeat_out (ch := ch) hd (by simpa using hp) ho))
    rw [State.onBeat_port] at hbeat
    refine ⟨_, State.row_fast hf hbeat, by simp, ?_, by simp [State.newTxn], by simp [data]⟩
    rw [State.chan_activate]
    exact State.mem_modDesc (by rw [State.onBeat_chan]; exact List.mem_of_find?_eq_some hr) fun x => x.wrote (r.desc.dstPieces r.step).length

end Sys2Proof.Machine
end

section
/-! PROOFS. How a descriptor ends, and how a channel is enabled and disabled (R219 to R222). -/

namespace Sys2Proof.Machine

section
variable {s : State} {ch : Nat} {r : DescRun}

/-- The pulse of a descriptor that was not stopped, at its counter (R219). -/
def State.descPulse (s : State) (ch : Nat) (r : DescRun) : State :=
  if r.desc.plEn then s.countTo ch r r.desc.dst r.desc.plClu r.desc.plSc .pulse else s

/-- The event of a descriptor that was not stopped, on its line (R220). -/
def State.descEvent (s : State) (r : DescRun) : State := if r.desc.evEn then s.pulse r.desc.evOut else s

theorem descDone_stopped (h : (s.chan ch).run.find? (fun r => r.inFlight == 0 && (r.stopped || decide (r.desc.units ≤ r.step))) = some r)
    (hs : r.stopped = true) : descDone ch s = some (s.setChan ch { s.chan ch with run := (s.chan ch).run.filter (·.no != r.no) }) := by
  unfold descDone
  dsimp only
  rw [h]
  exact if_pos hs

theorem descDone_complete (h : (s.chan ch).run.find? (fun r => r.inFlight == 0 && (r.stopped || decide (r.desc.units ≤ r.step))) = some r)
    (hs : r.stopped = false) : descDone ch s = some ((((s.setChan ch { s.chan ch with run := (s.chan ch).run.filter (·.no != r.no) }).descPulse ch r).descEvent r).emit
      3 .perform (whoByte r.who) 32 [ch, r.done]) := by
  unfold descDone
  dsimp only
  rw [h]
  exact if_neg (by simp [hs])

/-- A pulse that its counter takes. -/
theorem State.descPulse_shows (h : r.desc.plEn = true → r.desc.plClu = pkgIndex s.id → s.scBad r.desc.plSc = false) :
    (s.descPulse ch r).dma = s.dma ∧ (s.descPulse ch r).loam = s.loam ∧
    (r.desc.plEn = true → r.desc.plClu = pkgIndex s.id → (s.descPulse ch r).sc r.desc.plSc = s.sc r.desc.plSc + 1) ∧
    (r.desc.plEn = false → (s.descPulse ch r).syn = s.syn) := by
  unfold State.descPulse
  by_cases he : r.desc.plEn = true
  · rw [if_pos he]
    obtain ⟨hloam, hcount⟩ := countTo_frame s ch r r.desc.dst r.desc.plClu r.desc.plSc .pulse
    exact ⟨State.countTo_dma (h he), hloam, fun _ hc => (hcount hc (h he hc)).2, fun h => absurd he (by simp [h])⟩
  · rw [if_neg he]
    exact ⟨rfl, rfl, fun h => absurd h he, fun _ => rfl⟩

theorem State.descEvent_shows : (s.descEvent r).dma.ch = s.dma.ch ∧ (s.descEvent r).loam = s.loam ∧ (s.descEvent r).syn = s.syn ∧
    (r.desc.evEn = true → (s.ev r.desc.evOut < 255 → (s.descEvent r).ev r.desc.evOut = s.ev r.desc.evOut + 1) ∧
      (s.ev r.desc.evOut = 255 → (s.descEvent r).ev r.desc.evOut = 255)) ∧
    (r.desc.evEn = false → (s.descEvent r).dma.ev = s.dma.ev) := by
  unfold State.descEvent
  obtain ⟨hloam, hch, hsyn, hup, hstop⟩ := pulse_frame s r.desc.evOut
  by_cases he : r.desc.evEn = true
  · rw [if_pos he]
    exact ⟨hch, hloam, hsyn, fun _ => ⟨hup, hstop⟩, fun h => absurd he (by simp [h])⟩
  · rw [if_neg he]
    exact ⟨rfl, rfl, rfl, fun h => absurd h he, fun _ => rfl⟩

end

/-- A supervisor's write of DMA_CH_CTRL. -/
theorem exec_dmaChCtrl {p : Party} {ch : Fin 32} {s : State} {v : Word32} (h : s.portsHeld = false) (hp : (accOf p).sup = true)
    (hv : v.toNat &&& (2 ^ 64 - 1 - 1) = 0) :
    exec (.dmaChCtrlWrite p ch v) s = .next (State.answered p (0xA000 + 4 * ch.val) (s.setChanEn ch.val (bitAt v.toNat 0), 0)).activate := by
  refine State.row_fastRow h (regAt_dma ch) (by simp) (by omega) v.isLt ?_
  exact writeFault_ok (by simp [RPriv.allows, hp]) rfl hv rfl

theorem State.chan_answered (p : Party) (o : Nat) (t : State) (k : Nat) : (State.answered p o (t, 0)).activate.chan k = t.chan k := by
  rw [State.answered_ok, State.chan_activate]
  rfl

theorem State.chan_disableChan (s : State) (ch : Nat) : ((s.disableChan ch).chan ch).en = false ∧ ((s.disableChan ch).chan ch).queue = [] ∧
    ((s.disableChan ch).chan ch).run = [] ∧ ((s.disableChan ch).chan ch).writes = [] := by
  unfold State.disableChan
  dsimp only
  rw [State.chan_setChan]
  exact ⟨rfl, rfl, rfl, rfl⟩

/-- Settles O35: a descriptor that is complete or was stopped, and the two writes of DMA_CH_CTRL. -/
theorem descriptorsComplete : Obligations.DescriptorsComplete := by
  unfold Obligations.DescriptorsComplete
  refine fun ch s => ⟨fun r hf hr hbad => ?_, fun p h hp => ⟨?_, fun he => ?_⟩⟩
  · obtain ⟨a, ha⟩ : ∃ a, a = s.setChan ch.val { s.chan ch.val with run := (s.chan ch.val).run.filter (·.no != r.no) } := ⟨_, rfl⟩
    have hrun : (a.chan ch.val).run = (s.chan ch.val).run.filter (·.no != r.no) := by rw [ha, State.chan_setChan]
    have hloam : a.loam = s.loam := by rw [ha]; rfl
    have hsyn : a.syn = s.syn := by rw [ha]; rfl
    have hev : a.dma.ev = s.dma.ev := by rw [ha]; rfl
    cases hs : r.stopped with
    | true =>
      have hstep := descDone_stopped hr hs
      rw [← ha] at hstep
      exact ⟨_, State.row_fast hf hstep, by rw [State.chan_activate, hrun], by rw [State.activate_loam, hloam], (fun h => by cases h),
        fun _ => by rw [State.activate_syn, hsyn], (fun h => by cases h), fun _ => by rw [State.activate_dma, hev]⟩
    | false =>
      have hstep := descDone_complete hr hs
      rw [← ha] at hstep
      obtain ⟨hpd, hpl, hps, hpn⟩ := State.descPulse_shows (s := a) (ch := ch.val) (r := r) fun h1 h2 => by
        rw [ha] at h2 ⊢
        exact hbad h1 h2
      obtain ⟨hed, hel, hes, hec, hen⟩ := State.descEvent_shows (s := a.descPulse ch.val r) (r := r)
      have hevs : ∀ n, (a.descPulse ch.val r).ev n = s.ev n := fun n => by rw [State.ev, hpd, hev, State.ev]
      refine ⟨_, State.row_fast hf hstep, ?_, ?_, fun _ h1 h2 => ?_, fun h => ?_, fun _ h => ?_, fun h => ?_⟩
      · rw [State.chan_activate, State.chan_of (s := a) (by rw [State.emit_dma, hed, hpd]), hrun]
      · rw [State.activate_loam, State.emit_loam, hel, hpl, hloam]
      · rw [State.sc, State.activate_syn, State.emit_syn, hes, ← State.sc, hps h1 (by rw [h2, ha]; rfl), State.sc, hsyn, ← State.sc]
      · rw [State.activate_syn, State.emit_syn, hes, hpn (by simpa using h), hsyn]
      · have hend : ∀ n, (((a.descPulse ch.val r).descEvent r).emit 3 .perform (whoByte r.who) 32 [ch.val, r.done]).activate.ev n =
          ((a.descPulse ch.val r).descEvent r).ev n := fun n => by rw [State.ev, State.activate_dma, State.emit_dma, ← State.ev]
        rw [hend, ← hevs]
        exact hec h
      · rw [State.activate_dma, State.emit_dma, hen (by simpa using h), hpd, hev]
  · refine ⟨_, exec_dmaChCtrl h hp (by decide), ?_, (answered_cores ..).2⟩
    have hen : s.setChanEn ch.val (bitAt (1 : Word32).toNat 0) = s.setChan ch.val { s.chan ch.val with en := true } := by
      rw [show bitAt (1 : Word32).toNat 0 = true by decide]
      rfl
    rw [hen, State.chan_answered]
    exact State.chan_setChan ..
  · have hdis : s.setChanEn ch.val (bitAt (0 : Word32).toNat 0) = s.disableChan ch.val := by
      rw [show bitAt (0 : Word32).toNat 0 = false by decide, State.setChanEn, if_neg (by decide), if_pos he]
    refine ⟨_, exec_dmaChCtrl h hp (by decide), ?_⟩
    rw [hdis, State.chan_answered]
    obtain ⟨h1, h2, h3, h4⟩ := State.chan_disableChan s ch.val
    exact ⟨h1, h2, h3, h4, (answered_cores ..).2⟩

end Sys2Proof.Machine
end

section
/-! PROOFS. How a message is sent: the issue of a send, its acceptance, and the close of a ring (R168, R169, R180). -/

namespace Sys2Proof.Machine

/-! ### Issue (R168) -/

section
variable {x : Send} {t : State}

theorem sendIssue_bad (h : t.sendFault x ≠ 0) : sendIssue x t = some (t.raise x.who (t.sendFault x) x.addr) := by
  unfold sendIssue
  exact if_pos h

/-- The item of a send that passed its checks: it waits for acceptance. -/
def Item.awaitsSend (i : Item) : Item := { i with pend := .send, sendWaits := false, waitTicks := if i.sendWaits then i.waitTicks else 0 }

theorem sendIssue_waits (h : t.sendFault x = 0) (hm : t.mustWait x.who { lr := [(x.addr, x.len)] } = false) :
    sendIssue x t = some (((({ t with msg := { t.msg with sends := t.msg.sends ++ [{ x with itemNo := (t.item x.who).no }] } } : State).modItem x.who
      Item.awaitsSend).issues x.who)) := by
  unfold sendIssue
  dsimp only
  rw [if_neg (not_not_intro h), if_neg (by simp [hm])]
  rfl

end

/-- What an issued send shows. -/
theorem sendIssue_next {w : Who} {s t : State} {op : Op} {len : Nat} {x : Send} {f : Op → Nat → State → Option State} (hi : s.Issues w t op len)
    (hw : x.who = w) (hf : f op len t = sendIssue x t) :
    (t.sendFault x = 0 → t.mustWait w { lr := [(x.addr, x.len)] } = false →
      ∃ v, s.row (fun s => s.issue w f) = .next v ∧ v.msg.sends = s.msg.sends ++ [{ x with itemNo := (s.item w).no }] ∧
        (v.item w).pend = .send ∧ (v.item w).off = (s.item w).off ∧ v.msg.credits = s.msg.credits ∧ v.loam = t.loam) ∧
    (t.sendFault x ≠ 0 →
      ∃ v, s.row (fun s => s.issue w f) = .next v ∧ (v.ctx w).phase = .aborting ∧ (v.item w).record.fault = t.sendFault x) := by
  subst hw
  refine ⟨fun h hm => ?_, fun h => ?_⟩
  · exact ⟨_, State.row_issue hi (hf.trans (sendIssue_waits h hm)), by simp [hi.touched.msg, hi.touched.item], by simp [Item.awaitsSend],
      by simp [Item.awaitsSend, State.item_modItem_self, ← hi.touched.item x.who]; rfl, by simp [hi.touched.msg], by simp⟩
  · exact ⟨_, State.row_issue hi (hf.trans (sendIssue_bad h)), hi.raised (.refl t)⟩

/-- Settles O36: the sends by one lemma on their issue, the close of a ring by what the advance of a generation does. -/
theorem sendsAreIssued : Obligations.SendsAreIssued := by
  unfold Obligations.SendsAreIssued
  refine fun w s t len => ⟨fun c d g n a r o k h => ?_, fun d g n a m h => ?_, fun r h => ⟨fun hr => ?_, fun hr => ?_⟩⟩
  · exact sendIssue_next h rfl rfl
  · exact sendIssue_next h rfl rfl
  · obtain ⟨hgen, hmsgs, hocc, -, hcores, -⟩ := State.advanceRing_frame t w.core.val r
    have hstep : msgRcloseStep w len r t = some ((t.advanceRing w.core.val r).advance w len) := by
      unfold msgRcloseStep
      dsimp only
      rw [if_neg (by rw [h.touched.str, ← Option.not_isSome, hr]; decide)]
    have hring : (((t.advanceRing w.core.val r).advance w len).activate.ring w.core.val r) = (t.advanceRing w.core.val r).ring w.core.val r :=
      State.ring_of (by simp [State.advance]) _ _
    have hitem : (t.advanceRing w.core.val r).item w = s.item w := by
      rw [← h.touched.item, State.item, State.item, State.ctx_of_cores hcores]
    refine ⟨_, State.row_issue h hstep, ?_, ?_, ?_, advance_item hitem⟩
    · rw [hring, hgen, State.ring_of (s := s) (by rw [h.touched.msg])]
    · rw [hring, hmsgs]
    · rw [hring, hocc]
      simp only [State.runningEntries, h.touched.core]
  · have hstep : msgRcloseStep w len r t = some (t.raise w 0x0802 r) := by
      unfold msgRcloseStep
      exact if_pos (by rw [h.touched.str]; exact hr)
    exact ⟨_, State.row_issue h hstep, h.raised (.refl t)⟩

/-! ### Acceptance (R169) -/

section
variable {s : State} {x : Send} {rest : List Send}

theorem State.noteCredits_none (h : ∀ d ∈ x.dests, s.damage.contains (.credit d) = false) : s.noteCredits x = none := by
  unfold State.noteCredits
  have hfind : (x.dests.find? fun d => s.damage.contains (.credit d) && !s.damage.contains (Damage.noted d)) = none := by
    rw [List.find?_eq_none]
    intro d hd
    rw [h d hd]
    exact Bool.false_ne_true
  rw [hfind]

theorem State.noteCredits_quiet (h : ∀ d ∈ x.dests, s.damage.contains (.credit d) = false) : ¬ (s.noteCredits x).isSome = true := by
  rw [State.noteCredits_none h]
  exact Bool.false_ne_true

theorem sendAccept_full (hs : s.msg.sends = x :: rest) (hc : ∀ d ∈ x.dests, s.damage.contains (.credit d) = false) (hb : 64 ≤ s.msg.bufs) :
    sendAccept s = none := by
  unfold sendAccept
  rw [hs]
  dsimp only
  by_cases ha : (s.item x.who).abort.isSome = true
  · rw [if_pos ha]
  · rw [if_neg ha, if_neg (State.noteCredits_quiet hc), if_pos hb]

theorem sendAccept_poor (hs : s.msg.sends = x :: rest) (hc : ∀ d ∈ x.dests, s.damage.contains (.credit d) = false) {d : Nat} (hd : d ∈ x.dests)
    (ha : s.creditAvail d < entriesOf x.len) : sendAccept s = none := by
  unfold sendAccept
  rw [hs]
  dsimp only
  split
  · rfl
  · rw [if_neg (State.noteCredits_quiet hc)]
    split
    · rfl
    · exact if_pos (List.any_eq_true.mpr ⟨d, hd, decide_eq_true ha⟩)

theorem State.credit_of {t : State} (h : t.msg.credits = s.msg.credits) (k : Nat) : t.credit k = s.credit k := by
  unfold State.credit
  rw [h]

/-- A send to one destination without pacing takes its credits there. -/
theorem State.takeCredits_one {d e : Nat} (hd : x.dests = [d]) (hp : s.paced d = false) :
    s.takeCredits x e = s.setCredit d { s.credit d with avail := (s.credit d).avail - e, out := (s.credit d).out + e } := by
  unfold State.takeCredits
  rw [hd]
  exact if_neg fun h => Bool.false_ne_true (hp.symm.trans h)

/-- The state after a send took `e` credits of `d` and its entries were made. -/
def State.sentFrom (u : State) (d e f : Nat) : State :=
  { u.setCredit d { u.credit d with avail := (u.credit d).avail - e, out := (u.credit d).out + e } with free := f }

/-- The item goes on behind its send. -/
def Item.sent (i : Item) : Item := { i with pend := .none, blocked := none, waitTicks := 0, off := i.off + 32 }

/-- The header of the message of a send (R166, R169). -/
def State.sendHdr (s : State) (x : Send) : MHdr where
  src := s.srcOf x.who.core.val
  tag := x.tag
  len := x.len
  gen := ((s.sendGen x.dests).map (·.toNat)).getD 0
  priv := (s.item x.who).sup
  anygen := (s.sendGen x.dests).isNone
  combine := x.combine
  masked := x.masked
  round := x.round
  offset := x.offset
  cidx := x.cidx
  job := (s.item x.who).hdr.job

/-- An acceptance: credits, message, buffer and item (R169). -/
theorem sendAccept_one {d : Nat} {u : State} {p : List Byte} (hs : s.msg.sends = x :: rest) (ha : (s.item x.who).abort = none)
    (hc : ∀ d ∈ x.dests, s.damage.contains (.credit d) = false) (hd : x.dests = [d]) (hb : s.msg.bufs < 64)
    (hav : entriesOf x.len ≤ s.creditAvail d) (hp : s.paced d = false)
    (hr : ({ s with msg := { s.msg with sends := rest } } : State).itemRead x.who x.addr x.len = (u, .ok p)) :
    ∃ (f n : Nat) (m : Frame) (l : List Nat), m.entries.length = entriesOf x.len ∧ sendAccept s = some
      ((((({ (u.sentFrom d (entriesOf x.len) f).send (.message m x.cmask) with msg := { (u.sentFrom d (entriesOf x.len) f).msg with
          bufs := (u.sentFrom d (entriesOf x.len) f).msg.bufs + 1 } } : State).countMsg (64 * entriesOf x.len)).work 4 n).modItem x.who Item.sent).emit
        5 .accept (whoByte x.who) 32 l) := by
  have hpu : u.paced d = false := by
    have hu := Touched.itemRead { s with msg := { s.msg with sends := rest } } x.who x.addr x.len
    rw [hr] at hu
    rw [← hp]
    unfold State.paced State.ownNode
    rw [hu.msg]
  obtain ⟨f, hf, hm⟩ := mkEntries_frame (u.takeCredits x (entriesOf x.len)) (s.sendHdr x) p
  refine ⟨f, (s.item x.who).no, ⟨BitVec.ofNat 32 (if x.masked then x.dests.headD 0 - 256 * destClu (x.dests.headD 0) else x.dests.headD 0),
    ((u.takeCredits x (entriesOf x.len)).mkEntries (s.sendHdr x) p).2, false⟩, [x.dests.headD 0, x.tag, x.len], hm, ?_⟩
  unfold sendAccept
  rw [hs]
  dsimp only
  rw [if_neg (by simp [ha]), if_neg (State.noteCredits_quiet hc), if_neg (by omega),
    if_neg (by rw [hd]; simpa using hav), if_neg (by rw [hd]; simp [hp]), hr]
  dsimp only
  rw [State.sentFrom, ← State.takeCredits_one hd hpu, ← hf]
  rfl

end

/-- Settles O37: the acceptance, and the two wants that leave everything as it is. -/
theorem sendsAreAccepted : Obligations.SendsAreAccepted := by
  unfold Obligations.SendsAreAccepted
  refine fun s x rest hf hs ha hc => ⟨fun d hd hb hav hp u p hr => ?_, fun hb => ?_, fun d hd hav => ?_⟩
  · obtain ⟨f, n, m, l, hm, hstep⟩ := sendAccept_one hs ha hc hd hb hav hp hr
    have hu := Touched.itemRead { s with msg := { s.msg with sends := rest } } x.who x.addr x.len
    rw [hr] at hu
    have hcred : ∀ k, u.credit k = s.credit k := State.credit_of (by rw [hu.msg])
    have hitem : u.item x.who = s.item x.who := (hu.item _).trans rfl
    obtain ⟨v, hv⟩ : ∃ v, v = u.sentFrom d (entriesOf x.len) f := ⟨_, rfl⟩
    rw [← hv] at hstep
    have hself : v.credit d = { s.credit d with avail := (s.credit d).avail - entriesOf x.len, out := (s.credit d).out + entriesOf x.len } := by
      rw [hv, ← hcred]
      exact tabGet_tabSet_self ..
    have hother : ∀ k, k ≠ d → v.credit k = s.credit k := fun k hk => by
      rw [hv, ← hcred]
      exact tabGet_tabSet_ne _ _ _ hk
    have hsends : v.msg.sends = rest := by rw [hv]; exact (congrArg Msg.sends hu.msg :)
    have hbufs : v.msg.bufs = s.msg.bufs := by rw [hv]; exact (congrArg Msg.bufs hu.msg :)
    have hvi : v.item x.who = s.item x.who := by rw [hv, ← hitem]; rfl
    have hout : v.out = s.out := by rw [hv]; exact hu.out
    refine ⟨_, m, State.row_fast hf hstep, by simp [State.countMsg, hsends], ?_, ?_, fun k hk => ?_, by simp [Item.sent], ?_, ?_, by simp [State.countMsg, hout], hm,
      by simp [State.countMsg, hbufs]⟩
    · rw [State.credit_of (s := v) (by simp [State.countMsg]), hself]
    · rw [State.credit_of (s := v) (by simp [State.countMsg]), hself]
    · rw [State.credit_of (s := v) (by simp [State.countMsg]), hother k hk]
    · simp only [State.item_activate, State.item_emit, State.item_modItem_self, Item.sent, State.item_work]
      exact congrArg (fun i : Item => i.off + 32) hvi
    · simp only [State.activate_loam, State.emit_loam, State.modItem_loam, State.work_loam]
      rw [show ∀ y : State, (y.countMsg (64 * entriesOf x.len)).loam = y.loam from fun _ => rfl, hv]
      rfl
  · exact State.row_fast_none (sendAccept_full hs hc hb)
  · exact State.row_fast_none (sendAccept_poor hs hc hd hav)

end Sys2Proof.Machine
end

section
/-! PROOFS. Messages and credit returns that arrive (R33, R170, R171, R175 to R177). -/

namespace Sys2Proof.Machine

theorem State.ring_activate (s : State) (c r : Nat) : s.activate.ring c r = s.ring c r := State.ring_of (by rw [State.activate_msg]) c r

/-! ### The values of a round (R175) -/

theorem addValues_cons (vals : Tab Fp32) (off : Nat) (c : Fp32) (cs : List Fp32) :
    addValues vals off (c :: cs) = addValues (tabSet vals off (fAdd (tabGet 0 vals off) c)) (off + 1) cs := by
  unfold addValues
  have hshift : (fun (i : Nat) (c : Fp32) => (off + (i + 1), c)) = fun i c => (off + 1 + i, c) := by
    funext i c
    rw [show off + (i + 1) = off + 1 + i by omega]
  rw [List.mapIdx_cons, List.foldl_cons, hshift]
  rfl

/-- A contribution is added position by position, and other positions keep their values (R175). -/
theorem addValues_get (cs : List Fp32) : ∀ (vals : Tab Fp32) (off i : Nat), tabGet 0 (addValues vals off cs) i =
    if off ≤ i ∧ i < off + cs.length then fAdd (tabGet 0 vals i) (cs.getD (i - off) 0) else tabGet 0 vals i := by
  induction cs with
  | nil =>
    intro vals off i
    rw [if_neg (by simp)]
    rfl
  | cons c cs ih =>
    intro vals off i
    rw [addValues_cons, ih]
    rcases Nat.lt_trichotomy i off with h | h | h
    · rw [if_neg (by omega), if_neg (by omega), tabGet_tabSet_ne _ _ _ (by omega)]
    · subst h
      rw [if_neg (by omega), if_pos (by simp), tabGet_tabSet_self]
      simp
    · have hlen : (off + 1 ≤ i ∧ i < off + 1 + cs.length) ↔ (off ≤ i ∧ i < off + (c :: cs).length) := by
        rw [List.length_cons]
        omega
      simp only [hlen]
      rw [tabGet_tabSet_ne _ _ _ (by omega), show i - off = (i - (off + 1)) + 1 by omega, List.getD_cons_succ]

theorem sliceB_length (l : List Byte) (a n : Nat) : (sliceB l a n).length = n := by
  unfold sliceB
  simp only [List.length_append, List.length_replicate, List.length_take]
  omega

theorem payloadOf_length {es : List (List Byte)} {len : Nat} (h : len ≤ 48 * es.length) : (payloadOf es len).length = len := by
  unfold payloadOf
  rw [List.length_take, List.length_flatMap]
  simp only [sliceB_length, List.map_const', List.sum_replicate, smul_eq_mul]
  omega

theorem fpWords_getD {p : List Byte} {k : Nat} (h : k < p.length / 4) : (fpWords p).getD k 0 = BitVec.ofNat 32 (fieldB p (4 * k) 4) := by
  simp [fpWords, List.getD_eq_getElem?_getD, h]

/-! ### The checks of an arrival (R171) -/

/-- The states of an arrival whose destination is here, and whose ring is whole. -/
def State.admits (s : State) (m : Frame) : Prop :=
  s.destHere m.dest.toNat = true ∧ coreOn s.str.live.coreEn (destCore m.dest.toNat) = true ∧
  (s.str.live.ring (destCore m.dest.toNat) (destRing m.dest.toNat)).isSome = true

section
variable {s : State} {m : Frame} (hd : s.damage.contains (.ring (destCore m.dest.toNat) (destRing m.dest.toNat)) = false)
include hd

/-- An arrival that reaches its ring's generation check. -/
theorem acceptMessage_known (ha : s.admits m) (hg : (decodeMHdr (m.entries.headD [])).anygen = true ∨
      (decodeMHdr (m.entries.headD [])).gen = (s.ring (destCore m.dest.toNat) (destRing m.dest.toNat)).gen.toNat)
    (hf : frameOk m (decodeMHdr (m.entries.headD [])) = true) :
    let c := destCore m.dest.toNat
    let r := destRing m.dest.toNat
    let h := decodeMHdr (m.entries.headD [])
    let n := m.entries.length
    let t := s.countMsg (64 * n)
    (h.combine = false → acceptMessage m s = if t.ringFree c r < n then t.refuseMsg 0x0804 h m.dest.toNat n (some (t.ring c r).gen) m.marked
      else t.ringWrite c r m.entries (h.kind == 0) m.marked) ∧
    (h.combine = true → s.damage.contains (.handler h.tag) = false → ∀ e, s.str.live.handler h.tag = some e → e.combine = true → e.core = c →
      e.ring = r → (e.sup = true → h.priv = true) → acceptMessage m s = t.contribute h (payloadOf m.entries h.len) e n m.marked) := by
  intro c r h n t
  obtain ⟨h1, h2, h3⟩ := ha
  have hmend : t.mendRing c r = t := mendRing_id hd
  have hhere : ¬ (!t.destHere m.dest.toNat ∨ !coreOn t.str.live.coreEn c ∨ (t.str.live.ring c r).isNone) := by
    rw [← Option.not_isSome, show t.str = s.str from rfl, h2, h3, show t.destHere m.dest.toNat = true from h1]
    decide
  have hgen : ¬ (!h.anygen ∧ h.gen ≠ (t.ring c r).gen.toNat) := by
    rintro ⟨g1, g2⟩
    rcases hg with hg | hg
    · rw [show h.anygen = true from hg] at g1
      exact absurd g1 (by decide)
    · exact g2 hg
  refine ⟨fun hc => ?_, fun hc hdam e he hec hcore hring hsup => ?_⟩
  · unfold acceptMessage
    dsimp only
    rw [if_neg hhere, hmend, if_neg hgen, if_neg (by rw [show frameOk m (decodeMHdr (m.entries.headD [])) = true from hf]; decide), if_pos (by rw [hc]; rfl)]
  · unfold acceptMessage
    dsimp only
    rw [if_neg hhere, hmend, if_neg hgen, if_neg (by rw [show frameOk m (decodeMHdr (m.entries.headD [])) = true from hf]; decide),
      if_neg (by rw [hc]; decide), if_neg (by rw [show t.damage.contains (.handler h.tag) = false from hdam]; decide),
      show t.str.live.handler h.tag = some e from he]
    dsimp only
    rw [if_neg (by simp [hec]), if_neg (by rintro (g | g); exacts [g hcore, g hring]), if_neg]
    rintro ⟨g1, g2⟩
    rw [show h.priv = true from hsup g1] at g2
    exact absurd g2 (by decide)

/-- A message of a generation that has passed is counted and returned (R171, R180). -/
theorem acceptMessage_stale (ha : s.admits m) (hg : (decodeMHdr (m.entries.headD [])).anygen = false)
    (hn : (decodeMHdr (m.entries.headD [])).gen ≠ (s.ring (destCore m.dest.toNat) (destRing m.dest.toNat)).gen.toNat) :
    ∃ l g, acceptMessage m s = (((s.countMsg (64 * m.entries.length)).modCtr fun x => { x with msgStale := stick48 x.msgStale 1 }).emit 6 .drop
      (destCore m.dest.toNat + 8) 32 l).returnCredits (decodeMHdr (m.entries.headD [])) m.dest.toNat m.entries.length (some g) .reset m.marked := by
  obtain ⟨h1, h2, h3⟩ := ha
  refine ⟨[(decodeMHdr (m.entries.headD [])).src, (decodeMHdr (m.entries.headD [])).tag, 0],
    (s.ring (destCore m.dest.toNat) (destRing m.dest.toNat)).gen, ?_⟩
  unfold acceptMessage
  dsimp only
  rw [if_neg, mendRing_id (s := s.countMsg _) hd]
  · exact if_pos ⟨by rw [hg]; rfl, hn⟩
  rw [← Option.not_isSome, show (s.countMsg (64 * m.entries.length)).str = s.str from rfl, h2, h3,
    show (s.countMsg (64 * m.entries.length)).destHere m.dest.toNat = true from h1]
  decide

end

theorem acceptMessage_noRing {s : State} {m : Frame} (h : (s.str.live.ring (destCore m.dest.toNat) (destRing m.dest.toNat)).isNone = true) :
    acceptMessage m s = (s.countMsg (64 * m.entries.length)).refuseMsg 0x0802 (decodeMHdr (m.entries.headD [])) m.dest.toNat m.entries.length none m.marked := by
  unfold acceptMessage
  exact if_pos (.inr (.inr h))

/-! ### Contributions (R175 to R177) -/

section
variable {s : State} {e : HEntry} {h : MHdr} {p : List Byte} {n : Nat} {marked : Bool}

theorem State.slot_setSlot (s : State) (n : Nat) (x : Slot) : (s.setSlot n x).slot n = x := tabGet_tabSet_self ..

/-- A contribution in turn, of values that can be read, is added and its credits return (R175). -/
theorem State.addContribution_adds (hf : (s.slot e.slot).failCur = false) (hb : (s.slot e.slot).flips = []) :
    s.addContribution h p e n marked = (s.setSlot e.slot (((s.slot e.slot).add h p).close e.expect)).returnContribution h e n marked .ok := by
  unfold State.addContribution
  dsimp only
  rw [if_neg (by rw [hf]; exact Bool.false_ne_true), State.slotRead]
  simp only [hb, List.filter_nil, List.isEmpty_nil, if_true, Bool.false_eq_true, if_false]

/-- A round number is not the one that follows it. -/
theorem round_ne_next (r : Nat) : r ≠ (r + 1) % 256 := by omega

/-- A contribution that comes ahead of its turn (R176). -/
def Slot.ahead (x : Slot) (h : MHdr) : Prop :=
  h.round = (x.round + 1) % 256 ∧ x.nextSeen.contains h.cidx = false ∨
    h.round = x.round ∧ x.failCur = false ∧ x.delivering = false ∧ x.seen.contains h.cidx = false ∧ h.cidx ≠ x.next

theorem State.contribute_inTurn (hr : h.round = (s.slot e.slot).round) (hc : h.cidx = (s.slot e.slot).next) (he : h.cidx < e.expect)
    (hd : (s.slot e.slot).delivering = false) (hf : (s.slot e.slot).failCur = false) (hs : (s.slot e.slot).seen.contains h.cidx = false) :
    s.contribute h p e n marked = State.drainParked e e.expect (s.addContribution h p e n marked) := by
  have hcur : (h.round == (s.slot e.slot).round) = true := beq_iff_eq.mpr hr
  have hnxt : (h.round == ((s.slot e.slot).round + 1) % 256) = false := by
    rw [hr]
    exact beq_false_of_ne (round_ne_next _)
  unfold State.contribute
  dsimp only
  rw [hcur, hnxt, hs, hd, hf, if_neg (by simpa using he), if_neg (by decide), if_pos (by simpa using hc)]

theorem State.contribute_ahead (ha : (s.slot e.slot).ahead h) (he : h.cidx < e.expect) :
    s.contribute h p e n marked = match s.freeCell with
      | some k => s.parkContribution k h p e n marked
      | none => State.drainParked e e.expect (s.discardContribution 0x0808 h e n marked) := by
  unfold State.contribute
  dsimp only
  rcases ha with ⟨hr, hs⟩ | ⟨hr, hf, hd, hs, hc⟩
  · have hcur : (h.round == (s.slot e.slot).round) = false := by
      rw [hr]
      exact beq_false_of_ne (round_ne_next _).symm
    have hnxt : (h.round == ((s.slot e.slot).round + 1) % 256) = true := beq_iff_eq.mpr hr
    rw [hcur, hnxt, hs, if_neg (by simpa using he), if_neg (by simp), if_neg (by simp)] <;> rfl
  · have hcur : (h.round == (s.slot e.slot).round) = true := beq_iff_eq.mpr hr
    have hnxt : (h.round == ((s.slot e.slot).round + 1) % 256) = false := by
      rw [hr]
      exact beq_false_of_ne (round_ne_next _)
    rw [hcur, hnxt, hs, hd, hf, if_neg (by simpa using he), if_neg (by decide), if_neg (by simpa using hc)] <;> rfl

theorem State.contribute_unfit (hu : e.expect ≤ h.cidx ∨ h.round ≠ (s.slot e.slot).round ∧ h.round ≠ ((s.slot e.slot).round + 1) % 256 ∨
      h.round = (s.slot e.slot).round ∧ ((s.slot e.slot).seen.contains h.cidx = true ∨ (s.slot e.slot).delivering = true) ∨
      h.round = ((s.slot e.slot).round + 1) % 256 ∧ (s.slot e.slot).nextSeen.contains h.cidx = true) :
    s.contribute h p e n marked = State.drainParked e e.expect (s.discardContribution 0x0807 h e n marked) := by
  unfold State.contribute
  refine if_pos ?_
  simp only [Bool.or_eq_true, Bool.and_eq_true, Bool.not_eq_true', Bool.or_eq_false_iff, beq_iff_eq, beq_eq_false_iff_ne, decide_eq_true_eq]
  rcases hu with hu | hu | hu | hu
  · exact .inl (.inr hu)
  · exact .inl (.inl hu)
  · exact .inr (.inl hu)
  · exact .inr (.inr hu)

/-- A round that fails keeps its values and its turn, and counts the contribution (R177). -/
theorem Slot.fail_close (x : Slot) (round code tag k : Nat) : ((x.fail round code tag).close k).vals = x.vals ∧
    ((x.fail round code tag).close k).next = x.next ∧
    (round = x.round → x.delivering = false → ((x.fail round code tag).close k).failCur = true ∧
      ((x.fail round code tag).close k).count = x.count + 1) ∧
    (round = (x.round + 1) % 256 → ((x.fail round code tag).close k).failNext = true ∧
      ((x.fail round code tag).close k).nextNum = x.nextNum + 1) := by
  have hclose : ∀ y : Slot, (y.close k).vals = y.vals ∧ (y.close k).next = y.next ∧ (y.close k).failCur = y.failCur ∧
      (y.close k).count = y.count ∧ (y.close k).failNext = y.failNext ∧ (y.close k).nextNum = y.nextNum := fun y => by
    unfold Slot.close
    split <;> exact ⟨rfl, rfl, rfl, rfl, rfl, rfl⟩
  obtain ⟨c1, c2, c3, c4, c5, c6⟩ := hclose (x.fail round code tag)
  rw [c1, c2, c3, c4, c5, c6]
  unfold Slot.fail
  by_cases hcur : round = x.round ∧ !x.delivering
  · rw [if_pos hcur]
    exact ⟨rfl, rfl, fun _ _ => ⟨rfl, rfl⟩, fun g => absurd (hcur.1.symm.trans g) (round_ne_next _)⟩
  · rw [if_neg hcur]
    refine ⟨by split <;> rfl, by split <;> rfl, fun g hd => absurd ⟨g, by rw [hd]; rfl⟩ hcur, fun g => ?_⟩
    rw [if_pos g]
    exact ⟨rfl, rfl⟩

theorem State.returnContribution_sends (s : State) (h : MHdr) (e : HEntry) (n : Nat) (marked : Bool) (st : RetStatus) :
    ∃ k r, s.returnContribution h e n marked st = s.send (.credit k r) ∧ r.count = BitVec.ofNat 16 n := ⟨_, _, rfl, rfl⟩

theorem State.noteRefused_shows (s : State) (code : Nat) (h : MHdr) (core : Nat) : (s.noteRefused code h core).out = s.out ++ [.attention] ∧
    (s.noteRefused code h core).msg = { s.msg with refFault := code, refTag := h.tag, refSrc := h.src } ∧
    (s.noteRefused code h core).loam = s.loam := by
  unfold State.noteRefused State.noteDiscard
  refine ⟨?_, by simp, by simp⟩
  simp only [State.emit_out, State.logFault, State.send_out]
  split <;> rfl

/-- What a discarded contribution leaves (R176, R177). -/
theorem State.discardContribution_shows (s : State) (code : Nat) (h : MHdr) (e : HEntry) (n : Nat) (marked : Bool) :
    let t := s.discardContribution code h e n marked
    (∃ k r, t.out = s.out ++ [.attention] ++ [.credit k r] ∧ r.count = BitVec.ofNat 16 n) ∧
    t.msg.refFault = code ∧ t.msg.refTag = h.tag ∧ t.msg.rings = s.msg.rings ∧ t.msg.parked = s.msg.parked ∧ t.loam = s.loam ∧
    t.slot e.slot = ((s.slot e.slot).fail h.round code h.tag).close e.expect := by
  intro t
  obtain ⟨k, r, hret, hr⟩ := State.returnContribution_sends (s.noteRefused code h e.core) h e n marked (.refused (BitVec.ofNat 16 code))
  obtain ⟨hout, hmsg, hloam⟩ := s.noteRefused_shows code h e.core
  obtain ⟨u, hu⟩ : ∃ u, u = (s.noteRefused code h e.core).send (.credit k r) := ⟨_, rfl⟩
  have ht : t = u.setSlot e.slot (((u.slot e.slot).fail h.round code h.tag).close e.expect) := by
    rw [hu, ← hret]
    rfl
  have huout : u.out = s.out ++ [.attention] ++ [.credit k r] := by rw [hu, State.send_out, hout]
  have humsg : u.msg = { s.msg with refFault := code, refTag := h.tag, refSrc := h.src } := by rw [hu]; exact hmsg
  have huslot : u.slot e.slot = s.slot e.slot := by rw [State.slot, humsg, ← State.slot]
  rw [ht]
  refine ⟨⟨k, r, huout, hr⟩, (congrArg Msg.refFault humsg :), (congrArg Msg.refTag humsg :), (congrArg Msg.rings humsg :),
    (congrArg Msg.parked humsg :), ?_, ?_⟩
  · rw [hu]
    exact hloam
  · rw [State.slot_setSlot, huslot]

end

/-- The message as it arrives at open ports (R171). -/
theorem exec_messageArrival {m : Frame} {s : State} (hw : frameWf m = true) (h : s.portsHeld = false) :
    exec (.messageArrival m) s = .next (acceptMessage m s).activate := State.row_checked hw (State.row_arrive h (.message m))

/-- A credit entry after a return (R170, R180). -/
def Credit.returned (c : Credit) (e : CreditEnt) (r : CreditRet) : Credit where
  avail := min e.allot (c.avail + r.count.toNat)
  out := c.out - r.count.toNat
  gen := match r.gen with
    | some g => some g
    | none => c.gen

theorem State.queueStatus_shows (s : State) (r : CreditRet) (f k : Nat) : (s.queueStatus r f k).msg.credits = s.msg.credits ∧
    (s.queueStatus r f k).msg.rings = s.msg.rings ∧ (s.queueStatus r f k).loam = s.loam := by
  unfold State.queueStatus
  dsimp only
  split_ifs <;> exact ⟨rfl, rfl, rfl⟩

/-- A return adds its credits to its entry, and changes no other (R170, R180). -/
theorem acceptCredit_shows {r : CreditRet} {s : State} {e : CreditEnt} (hc : s.str.live.credit r.dest.toNat = some e) (he : r.echo = false) :
    (acceptCredit r s).msg.credits = tabSet s.msg.credits r.dest.toNat ((s.credit r.dest.toNat).returned e r) ∧
    (acceptCredit r s).msg.rings = s.msg.rings ∧ (acceptCredit r s).loam = s.loam := by
  obtain ⟨t, ht⟩ : ∃ t, t = s.setCredit r.dest.toNat ((s.credit r.dest.toNat).returned e r) := ⟨_, rfl⟩
  have key : acceptCredit r s = match r.status with
      | .ok => t
      | .reset => t.queueStatus r 0 1
      | .refused f => (if f.toNat = 0x0A04 then t.logFault 0x0A04 r.core.toNat false false r.tag.toNat else t).queueStatus r f.toNat 2 := by
    unfold acceptCredit
    simp only [hc, he, Bool.false_eq_true, if_false, ht]
    rfl
  have h1 : t.msg.credits = tabSet s.msg.credits r.dest.toNat ((s.credit r.dest.toNat).returned e r) := by rw [ht]; rfl
  have h2 : t.msg.rings = s.msg.rings := by rw [ht]; rfl
  have h3 : t.loam = s.loam := by rw [ht]; rfl
  rw [key, ← h1, ← h2, ← h3]
  cases r.status with
  | ok => exact ⟨rfl, rfl, rfl⟩
  | reset => exact t.queueStatus_shows r 0 1
  | refused f =>
    obtain ⟨g1, g2, g3⟩ := (if f.toNat = 0x0A04 then t.logFault 0x0A04 r.core.toNat false false r.tag.toNat else t).queueStatus_shows r f.toNat 2
    refine ⟨g1.trans ?_, g2.trans ?_, g3.trans ?_⟩ <;> split <;> simp

/-- Settles O38: the messages of a ring, the contributions of a round, and the returns of credits. -/
theorem arrivalsAreChecked : Obligations.ArrivalsAreChecked := by
  unfold Obligations.ArrivalsAreChecked
  refine ⟨?_, fun r s e hp hc he => ?_⟩
  · intro m s hw hp d h hdam
    refine ⟨fun hh hcore hring hgen hf hc => ⟨fun hroom => ?_, fun hfull => ?_⟩, fun hh hcore hring hany hgen => ?_,
      fun hnone => ?_, fun e hh hcore hring hgen hf hc hdamh he hec hecore hering hsup hpark => ?_⟩
    · have hstep := (acceptMessage_known hdam ⟨hh, hcore, hring⟩ hgen hf).1 hc
      replace hstep := hstep.trans (if_neg (Nat.not_lt.mpr hroom))
      obtain ⟨u, hu, hwrite⟩ := ringWrite_frame (s.countMsg (64 * m.entries.length)) (destCore d) (destRing d) m.entries (h.kind == 0) m.marked
      have hexec := exec_messageArrival hw hp
      rw [hstep, hwrite] at hexec
      refine ⟨_, hexec, ?_, ?_, ?_, ?_, fun k hk => ?_⟩
      · rw [State.ring_activate, State.ring_setRing]
        rfl
      · rw [State.ring_activate, State.ring_setRing]
        rfl
      · simpa [State.setRing, State.countMsg] using hu.out
      · rw [State.core_activate, State.core_setRing, State.core_modCore_self, hu.core]
        rfl
      · rw [State.core_activate, State.core_setRing, State.core_modCore_ne _ _ hk, hu.core]
        rfl
    · have hstep := (acceptMessage_known hdam ⟨hh, hcore, hring⟩ hgen hf).1 hc
      replace hstep := hstep.trans (if_pos hfull)
      have hexec := exec_messageArrival hw hp
      rw [hstep] at hexec
      obtain ⟨hmsg, hloam⟩ := refuse_frame (s.countMsg (64 * m.entries.length)) 0x0804 h d m.entries.length
        (some ((s.countMsg (64 * m.entries.length)).ring (destCore d) (destRing d)).gen) m.marked
      exact ⟨_, hexec, by rw [State.activate_msg, hmsg]; rfl, by rw [State.activate_msg, hmsg], by rw [State.activate_msg, hmsg],
        by rw [State.activate_loam, hloam]; rfl⟩
    · obtain ⟨l, g, hstep⟩ := acceptMessage_stale hdam ⟨hh, hcore, hring⟩ hany hgen
      have hexec := exec_messageArrival hw hp
      rw [hstep] at hexec
      refine ⟨_, hexec, by simp [State.returnCredits, State.countMsg], ?_, by simp [State.returnCredits, State.countMsg]⟩
      rw [(State.activate_msgCtrs _).1]
      exact (State.emit_msgCtrs ..).1
    · have hexec := exec_messageArrival hw hp
      rw [acceptMessage_noRing hnone] at hexec
      obtain ⟨hmsg, hloam⟩ := refuse_frame (s.countMsg (64 * m.entries.length)) 0x0802 h d m.entries.length none m.marked
      exact ⟨_, hexec, by rw [State.activate_msg, hmsg]; rfl, by rw [State.activate_msg, hmsg], by rw [State.activate_loam, hloam]; rfl⟩
    · intro x ahead returned
      obtain ⟨t, ht⟩ : ∃ t, t = s.countMsg (64 * m.entries.length) := ⟨_, rfl⟩
      have hexec := exec_messageArrival hw hp
      rw [(acceptMessage_known hdam ⟨hh, hcore, hring⟩ hgen hf).2 hc hdamh e he hec hecore hering hsup, ← ht] at hexec
      have hslot : ∀ n, t.slot n = s.slot n := fun n => by rw [ht]; rfl
      have hx : t.slot e.slot = x := hslot _
      have hparked : ∀ p ∈ t.msg.parked, p.slot ≠ e.slot := by rw [ht]; exact hpark
      have hout : t.out = s.out := by rw [ht]; rfl
      have hsmall : m.entries.length < 2 ^ 16 := by
        have hlen : m.entries.length ≤ 32 := by
          unfold frameWf at hw
          rw [Bool.and_eq_true, decide_eq_true_eq] at hw
          exact hw.1.2
        omega
      have hcount : (BitVec.ofNat 16 m.entries.length).toNat = m.entries.length := by
        rw [BitVec.toNat_ofNat]
        exact Nat.mod_eq_of_lt hsmall
      have hpay : (payloadOf m.entries h.len).length = h.len := by
        refine payloadOf_length ?_
        unfold frameOk at hf
        simp only [Bool.and_eq_true, beq_iff_eq] at hf
        have hlen : m.entries.length = (h.len + 48 - 1) / 48 := hf.1.1.2
        omega
      refine ⟨fun hr hi hlt hdel hfail hseen hflips => ?_, fun k hahead hlt hcell => ?_, fun code hcode => ?_⟩
      · rw [← hx] at hr hi hdel hfail hseen hflips
        rw [State.contribute_inTurn hr hi hlt hdel hfail hseen, State.addContribution_adds hfail hflips, drainParked_id e e.expect _ (by exact hparked)] at hexec
        obtain ⟨y, hy⟩ : ∃ y, y = ((t.slot e.slot).add h (payloadOf m.entries h.len)).close e.expect := ⟨_, rfl⟩
        rw [← hy] at hexec
        have hend : ∀ n, (((t.setSlot e.slot y).returnContribution h e m.entries.length m.marked .ok).activate).slot n = (t.setSlot e.slot y).slot n := fun n => by
          rw [State.slot, State.activate_msg]
          rfl
        have hadd : y.round = x.round ∧ y.next = x.next + 1 ∧ y.count = x.count + 1 ∧ y.delivering = decide (e.expect ≤ x.count + 1) ∧
            y.vals = addValues x.vals h.offset (fpWords (payloadOf m.entries h.len)) := by
          rw [hy, hx, Slot.close]
          rw [hx] at hdel
          by_cases hfin : e.expect ≤ x.count + 1
          · rw [if_pos (show e.expect ≤ (x.add h (payloadOf m.entries h.len)).count from hfin)]
            exact ⟨rfl, rfl, rfl, (decide_eq_true hfin).symm, rfl⟩
          · rw [if_neg (show ¬ e.expect ≤ (x.add h (payloadOf m.entries h.len)).count from hfin)]
            exact ⟨rfl, rfl, rfl, hdel.trans (decide_eq_false hfin).symm, rfl⟩
        obtain ⟨g1, g2, g3, g4, g5⟩ := hadd
        obtain ⟨k, r, hret, hr⟩ := State.returnContribution_sends (t.setSlot e.slot y) h e m.entries.length m.marked .ok
        refine ⟨_, hexec, ⟨k, r, ?_, by rw [hr, hcount]⟩, ?_, ?_, ?_, ?_, ?_, ?_, ?_, fun i => ?_⟩
        · rw [State.activate_out, List.append_nil, ← hout, hret]
          rfl
        · rw [hend, State.slot_setSlot, g1]
        · rw [hend, State.slot_setSlot, g2]
        · rw [hend, State.slot_setSlot, g3]
        · rw [hend, State.slot_setSlot, g4]
        · rw [State.activate_msg, ht]
          rfl
        · rw [State.activate_msg, ht]
          rfl
        · rw [State.activate_loam, ht]
          rfl
        · rw [hend, State.slot_setSlot, g5, addValues_get, show (fpWords (payloadOf m.entries h.len)).length = h.len / 4 by simp [fpWords, hpay]]
          by_cases hi : h.offset ≤ i ∧ i < h.offset + h.len / 4
          · rw [if_pos hi, if_pos hi, fpWords_getD (by rw [hpay]; omega)]
          · rw [if_neg hi, if_neg hi]
      · have hahead : (t.slot e.slot).ahead h := by rw [hx]; exact hahead
        have hcell : t.freeCell = some k := by rw [ht]; exact hcell
        rw [State.contribute_ahead hahead hlt, hcell] at hexec
        dsimp only at hexec
        obtain ⟨u, hu⟩ : ∃ u, u = (t.loamWrite 6 (t.cellAddr k) (padTo 64 h.bytes ++ padTo 256 (payloadOf m.entries h.len))).1 := ⟨_, rfl⟩
        have htouch : Touched t u := by
          rw [hu]
          exact Touched.loamWrite ..
        have hux : u.slot e.slot = x := by rw [← hx, State.slot, htouch.msg, ← State.slot]
        obtain ⟨y, hpark, hvals, hnext, hcnt⟩ : ∃ y : Slot, t.parkContribution k h (payloadOf m.entries h.len) e m.entries.length m.marked =
            { u.setSlot e.slot y with msg := { (u.setSlot e.slot y).msg with
                parked := u.msg.parked ++ [⟨k, e.slot, h.round, h.cidx, m.entries.length, m.marked⟩] } } ∧
            y.vals = x.vals ∧ y.next = x.next ∧ y.count = x.count := by
          unfold State.parkContribution
          dsimp only
          rw [← hu, hux]
          split
          · exact ⟨{ x with seen := setInsert x.seen h.cidx, tag := h.tag }, rfl, rfl, rfl, rfl⟩
          · exact ⟨{ x with nextSeen := setInsert x.nextSeen h.cidx }, rfl, rfl, rfl, rfl⟩
        rw [hpark] at hexec
        have hend : ∀ v : State, v.msg.slots = (u.setSlot e.slot y).msg.slots → v.slot e.slot = y := fun v hv => by
          rw [State.slot, hv]
          exact tabGet_tabSet_self ..
        refine ⟨_, hexec, ?_, ?_, ?_, ?_, ?_, ?_⟩
        · rw [State.activate_msg, htouch.msg, ht]
          rfl
        · rw [hend _ (by rw [State.activate_msg]), hvals]
        · rw [hend _ (by rw [State.activate_msg]), hnext]
        · rw [hend _ (by rw [State.activate_msg]), hcnt]
        · rw [State.activate_msg]
          exact (congrArg Msg.rings htouch.msg).trans (by rw [ht]; rfl)
        · rw [State.activate_out]
          exact htouch.out.trans hout
      · have hdiscard : t.contribute h (payloadOf m.entries h.len) e m.entries.length m.marked =
            State.drainParked e e.expect (t.discardContribution code h e m.entries.length m.marked) := by
          rcases hcode with ⟨rfl, hahead, hlt, hcell⟩ | ⟨rfl, hunfit⟩
          · rw [State.contribute_ahead (by rw [hx]; exact hahead) hlt, show t.freeCell = none by rw [ht]; exact hcell]
          · exact State.contribute_unfit (by rw [hx]; exact hunfit)
        obtain ⟨⟨k, r, g1, hr⟩, g2, g3, g4, g5, g6, g7⟩ := State.discardContribution_shows t code h e m.entries.length m.marked
        rw [hdiscard, drainParked_id e e.expect _ (by rw [g5]; exact hparked)] at hexec
        obtain ⟨f1, f2, f3, f4⟩ := Slot.fail_close x h.round code h.tag e.expect
        have hend : (t.discardContribution code h e m.entries.length m.marked).activate.slot e.slot = (x.fail h.round code h.tag).close e.expect := by
          rw [← hx, ← g7, State.slot, State.activate_msg, ← State.slot]
        refine ⟨_, hexec, ⟨k, r, by rw [State.activate_out, g1, hout], by rw [hr, hcount]⟩, by rw [State.activate_msg, g2], by rw [State.activate_msg, g3], ?_, ?_, ?_, ?_,
          fun hr hdel => ?_, fun hr => ?_⟩
        · rw [hend, f1]
        · rw [hend, f2]
        · rw [State.activate_msg, g4, ht]
          rfl
        · rw [State.activate_loam, g6, ht]
          rfl
        · rw [hend]
          exact f3 hr hdel
        · rw [hend]
          exact f4 hr
  · obtain ⟨hcred, hrings, hloam⟩ := acceptCredit_shows hc he
    have hend : ∀ k, (acceptCredit r s).activate.credit k = (acceptCredit r s).credit k := fun k => by rw [State.credit, State.activate_msg, ← State.credit]
    have hself : (acceptCredit r s).activate.credit r.dest.toNat = (s.credit r.dest.toNat).returned e r := by
      rw [hend, State.credit, hcred, tabGet_tabSet_self]
    refine ⟨_, State.row_arrive hp (.credit r), ?_, fun g hg => ?_, fun hg => ?_, fun k hk => ?_, by rw [State.activate_msg]; exact hrings,
      by rw [State.activate_loam]; exact hloam⟩
    · exact congrArg Credit.avail hself
    · exact (congrArg Credit.gen hself).trans (by simp only [Credit.returned, hg])
    · exact (congrArg Credit.gen hself).trans (by simp only [Credit.returned, hg])
    · refine (hend k).trans ?_
      rw [State.credit, hcred, tabGet_tabSet_ne _ _ _ hk, ← State.credit]

end Sys2Proof.Machine
end

section
/-! PROOFS. Handlers that are dispatched, rounds that are delivered and status entries that are written (R172, R178, R181). -/

namespace Sys2Proof.Machine

/-! ### Dispatch (R172) -/

theorem mendRings_id {s : State} {c : Nat} (h : ∀ k, s.damage.contains (.ring c k) = false) (l : List Nat) :
    l.foldl (fun t r => t.mendRing c r) s = s := by
  induction l with
  | nil => rfl
  | cons r l ih => rw [List.foldl_cons, mendRing_id (h r), ih]

/-- The item of a handler that takes a message whose first sector is `b` (R172). -/
def State.handlerItem (s u : State) (c r : Nat) (m : RingMsg) (b : List Byte) : Item :=
  let e := s.str.live.handler (decodeMHdr b).tag
  { no := u.itemNo, addr := (64 * (e.map (·.sector)).getD 0 + 2 ^ 25 - 192) % 2 ^ 25, sup := (e.map (·.sup)).getD false
    msg := some ⟨r, m.entries, (s.ring c r).rd, b.take 16, m.marked⟩
    sregs := if c = 4 then [(1, BitVec.ofNat 64 (fieldB b 0 8)), (2, BitVec.ofNat 64 (fieldB b 8 8)),
      (3, BitVec.ofNat 64 (ownAddr s.id (s.ringAddr c r (s.ring c r).rd)))] else [] }

theorem dispatch_takes {s u : State} {c r : Nat} {m : RingMsg} {ms : List RingMsg} {b : List Byte} (hi : (s.core c).hdl.phase = .idle)
    (ha : (s.core c).asleep = false) (hc : coreOn s.str.live.coreEn c = true) (hd : ∀ k, s.damage.contains (.ring c k) = false)
    (hn : s.nextRing c = some r) (hm : (s.ring c r).msgs = m :: ms)
    (hr : ((s.setRing c r { s.ring c r with msgs := ms }).modCore c fun y => { y with lastRing := r }).loamRead 6 (s.ringAddr c r (s.ring c r).rd) 64 =
      (u, .ok b)) (hf : u.dispatchFault c r (decodeMHdr b) = 0) :
    ∃ l, dispatch c s = some ((({ u with itemNo := u.itemNo + 1 } : State).modCore c fun y =>
      { y with hdl := { phase := .issuing, item := s.handlerItem u c r m b } }).emit 6 .start (c + 8) 32 l) := by
  refine ⟨[(decodeMHdr b).src, (decodeMHdr b).tag, r], ?_⟩
  unfold dispatch
  dsimp only
  rw [if_neg (by simp [hi, ha, hc]), mendRings_id hd, hn]
  dsimp only
  rw [hm]
  dsimp only
  rw [hr]
  dsimp only
  rw [if_neg (not_not_intro hf)]
  rfl

/-! ### Delivery (R178) -/

/-- The payload of a delivery: the fault and count of a failed round, or its values. -/
def Slot.payload (x : Slot) : List Byte :=
  if x.failCur then leBytes 2 x.failCode ++ leBytes 2 0 ++ leBytes 4 x.failNum
  else (List.range x.len).flatMap fun i => leBytes 4 (tabGet 0 x.vals i).toNat

theorem Slot.payload_length (x : Slot) : x.payload.length = if x.failCur then 8 else 4 * x.len := by
  unfold Slot.payload
  split
  · rfl
  · simp [List.length_flatMap, leBytes_length, Nat.mul_comm]

/-- The round after a delivery, to which parked contributions of it were counted already (R177, R178). -/
def Slot.nextRound (x : Slot) : Slot where
  round := (x.round + 1) % 256
  failCur := x.failNext
  failCode := x.nextCode
  failNum := x.nextNum
  count := x.nextNum
  seen := x.nextSeen
  tag := x.tag

theorem Slot.close_frame (x : Slot) (k : Nat) : (x.close k).round = x.round ∧ (x.close k).next = x.next := by
  unfold Slot.close
  split <;> exact ⟨rfl, rfl⟩

theorem combineDeliver_writes {s : State} {n : Nat} {e : HEntry} (hdel : (s.slot n).delivering = true)
    (hh : s.str.live.handler (s.slot n).tag = some e) (hc : e.combine = true) (hs : e.slot = n) (hflips : (s.slot n).flips = [])
    (hd : s.damage.contains (.ring e.core e.ring) = false) (hroom : entriesOf (s.slot n).payload.length ≤ s.ringFree e.core e.ring) :
    ∃ h l, h.len = (s.slot n).payload.length ∧ combineDeliver n s = some (State.drainParked e e.expect
      (((((s.mkEntries h (s.slot n).payload).1.ringWrite e.core e.ring (s.mkEntries h (s.slot n).payload).2 false false).emit 7 .single 0xFF 16 l).setSlot n
        ((s.slot n).nextRound.close e.expect)))) := by
  have htaken : s.slotTaken n = s := by
    unfold State.slotTaken
    exact if_pos (by simp [hflips])
  refine ⟨{ src := s.srcOf e.core, tag := (s.slot n).tag, len := (s.slot n).payload.length, anygen := true, priv := true
            failed := (s.slot n).failCur, kind := 1, round := (s.slot n).round }, [n, (s.slot n).round, (s.slot n).count, b2n (s.slot n).failCur], rfl, ?_⟩
  unfold combineDeliver
  dsimp only
  rw [htaken, hh]
  dsimp only
  rw [if_neg (by simp [hdel, hc, hs]), mendRing_id hd]
  exact if_neg (Nat.not_lt.mpr hroom)

/-! ### Status entries (R181) -/

section
variable {s : State} {i : Nat} {e : StatusEnt}

/-- The state without the status entry that is served. -/
def State.dropStatus (s : State) (i : Nat) : State := { s with msg := { s.msg with status := s.msg.status.eraseIdx i } }

theorem statusWrite_writes {h : HEntry} (he : s.msg.status[i]? = some e) (hh : s.str.live.handler (tabGet 0 s.msg.statusTag e.core) = some h)
    (hc : h.core = e.core) (hcomb : h.combine = false) (hd : s.damage.contains (.ring h.core h.ring) = false)
    (hroom : 0 < s.ringFree h.core h.ring) :
    ∃ hd pay, hd.len = 16 ∧ statusWrite i s = some (((s.dropStatus i).mkEntries hd pay).1.ringWrite h.core h.ring
      ((s.dropStatus i).mkEntries hd pay).2 false false) := by
  refine ⟨{ src := s.srcOf e.core, tag := tabGet 0 s.msg.statusTag e.core, len := 16, anygen := true, priv := true, kind := 2, job := e.job },
    leBytes 4 e.dest ++ leBytes 2 e.fault ++ leBytes 2 e.tag ++ leBytes 2 e.credits ++ leBytes 1 e.gen ++ leBytes 1 e.kind ++ leBytes 4 0, rfl, ?_⟩
  unfold statusWrite
  rw [he]
  dsimp only
  rw [hh]
  dsimp only
  have hmend : ({ s with msg := { s.msg with status := s.msg.status.eraseIdx i } } : State).mendRing h.core h.ring = s.dropStatus i := mendRing_id hd
  rw [if_neg (by simp [hc, hcomb]), hmend]
  exact if_neg (Nat.pos_iff_ne_zero.mp hroom)

theorem statusWrite_drops (he : s.msg.status[i]? = some e) (hh : s.str.live.handler (tabGet 0 s.msg.statusTag e.core) = none) :
    statusWrite i s = some ((s.dropStatus i).modCtr fun x => { x with msgDrop := stick48 x.msgDrop 1 }) := by
  unfold statusWrite
  rw [he]
  dsimp only
  rw [hh]
  rfl

end

/-- What entries that are made and written leave of their ring and of the rest of the message unit (R172). -/
theorem State.mkWrite_shows (s : State) (h : MHdr) (p : List Byte) (c r : Nat) (cr mk : Bool) :
    let t := (s.mkEntries h p).1.ringWrite c r (s.mkEntries h p).2 cr mk
    (t.ring c r).occ = (s.ring c r).occ + entriesOf h.len ∧ (t.ring c r).msgs = (s.ring c r).msgs ++ [⟨entriesOf h.len, cr, mk⟩] ∧
    ∃ l, t.msg = { s.msg with rings := l } := by
  intro t
  obtain ⟨f, hf, hlen⟩ := mkEntries_frame s h p
  obtain ⟨u, hu, hwrite⟩ := ringWrite_frame (s.mkEntries h p).1 c r (s.mkEntries h p).2 cr mk
  obtain ⟨y, hocc, hmsgs, ht⟩ : ∃ y : Ring, y.occ = (s.ring c r).occ + entriesOf h.len ∧
      y.msgs = (s.ring c r).msgs ++ [⟨entriesOf h.len, cr, mk⟩] ∧
      t = (u.modCore c fun y => { y with sleepSaving := false, idleTicks := 0 }).setRing c r y := by
    refine ⟨_, ?_, ?_, hwrite⟩ <;> rw [hlen, hf] <;> rfl
  have hmsg : (u.modCore c fun y => { y with sleepSaving := false, idleTicks := 0 }).msg = s.msg := by rw [State.modCore_msg, hu.msg, hf]
  rw [ht, State.ring_setRing]
  exact ⟨hocc, hmsgs, tabSet s.msg.rings (ringKey c r) y, by rw [State.setRing, hmsg]⟩

/-- Settles O39: the dispatch, the delivery, and the two ends of a status entry. -/
theorem ringsAreServed : Obligations.RingsAreServed := by
  unfold Obligations.RingsAreServed
  refine ⟨fun c s u r m ms b hf hi ha hc hd hn hm hr hfault => ?_, fun n s e hf hdel hh hc hs hpark hflips hd => ?_,
    fun i s e hf he => ⟨fun h hh hc hcomb hd hroom => ?_, fun hh => ?_⟩⟩
  · obtain ⟨l, hstep⟩ := dispatch_takes hi ha hc hd hn hm hr hfault
    have hu := Touched.loamRead ((s.setRing c.val r { s.ring c.val r with msgs := ms }).modCore c.val fun y => { y with lastRing := r }) 6
      (s.ringAddr c.val r (s.ring c.val r).rd) 64
    rw [hr] at hu
    have hcore : u.core c.val = { s.core c.val with lastRing := r } := by
      rw [hu.core, State.core_modCore_self]
      rfl
    have hring : u.ring c.val r = { s.ring c.val r with msgs := ms } := by
      rw [State.ring, hu.msg]
      exact State.ring_setRing ..
    refine ⟨_, State.row_fast hf hstep, ?_, ?_, ?_, ?_, ?_, ?_, ?_⟩
    · rw [State.core_activate, State.core_emit, State.core_modCore_self]
    · rw [State.core_activate, State.core_emit, State.core_modCore_self]
      rfl
    · rw [State.ring_activate, State.ring_of (s := u) (by simp), hring]
    · rw [State.ring_activate, State.ring_of (s := u) (by simp), hring]
    · rw [State.core_activate, State.core_emit, State.core_modCore_self]
      exact (congrArg Core.lastRing hcore :)
    · rw [State.core_activate, State.core_emit, State.core_modCore_self]
      exact (congrArg Core.cmd hcore :)
    · simp
  · intro bytes hroom
    have hbytes : (s.slot n.val).payload.length = bytes := (s.slot n.val).payload_length
    obtain ⟨h, l, hlen, hstep⟩ := combineDeliver_writes hdel hh hc hs hflips hd (by rw [hbytes]; exact hroom)
    obtain ⟨hocc, hmsgs, rings, hmsg⟩ := s.mkWrite_shows h (s.slot n.val).payload e.core e.ring false false
    rw [hlen, hbytes] at hocc hmsgs
    obtain ⟨v, hv⟩ : ∃ v, v = (s.mkEntries h (s.slot n.val).payload).1.ringWrite e.core e.ring (s.mkEntries h (s.slot n.val).payload).2 false false := ⟨_, rfl⟩
    rw [← hv] at hstep hocc hmsgs hmsg
    obtain ⟨y, hy⟩ : ∃ y, y = (s.slot n.val).nextRound.close e.expect := ⟨_, rfl⟩
    obtain ⟨hround, hnext⟩ := Slot.close_frame (s.slot n.val).nextRound e.expect
    rw [← hy] at hstep hround hnext
    have hparked : ∀ p ∈ ((v.emit 7 .single 0xFF 16 l).setSlot n.val y).msg.parked, p.slot ≠ e.slot := by
      rw [hs]
      simpa [State.setSlot, hmsg] using hpark
    rw [drainParked_id e e.expect _ hparked] at hstep
    have hslot : ((v.emit 7 .single 0xFF 16 l).setSlot n.val y).activate.slot n.val = y := by
      rw [State.slot, State.activate_msg]
      exact State.slot_setSlot ..
    have hring : ((v.emit 7 .single 0xFF 16 l).setSlot n.val y).activate.ring e.core e.ring = v.ring e.core e.ring := by
      rw [State.ring_activate]
      exact State.ring_of (by simp [State.setSlot]) _ _
    exact ⟨_, State.row_fast hf hstep, by rw [hslot, hround]; rfl, by rw [hslot, hnext]; rfl, by rw [hring, hocc], by rw [hring, hmsgs]⟩
  · obtain ⟨hd', pay, hlen, hstep⟩ := statusWrite_writes he hh hc hcomb hd hroom
    obtain ⟨hocc, -, rings, hmsg⟩ := (s.dropStatus i).mkWrite_shows hd' pay h.core h.ring false false
    refine ⟨_, State.row_fast hf hstep, by rw [State.activate_msg, hmsg]; rfl, ?_⟩
    rw [State.ring_activate, hocc, hlen]
    rfl
  · refine ⟨_, State.row_fast hf (statusWrite_drops he hh), by rw [State.activate_msg]; rfl, by rw [State.activate_msg]; rfl, ?_,
      by rw [State.activate_loam]; rfl⟩
    rw [(State.activate_msgCtrs _).2]
    rfl

end Sys2Proof.Machine
end

section
/-! PROOFS. The message registers and the periodic steps of pacing (R180, R183, R230). -/

namespace Sys2Proof.Machine

section
variable {p : Party} {s : State} (h : s.portsHeld = false) (hp : (accOf p).sup = true)
include h hp

/-- A supervisor's write of MSG_RING_CTRL that names a ring that exists, or none (R180). -/
theorem row_ringCtrl {v : Nat} (hv : v &&& (2 ^ 64 - 1 - 0x3FF) = 0) (h32 : v < 2 ^ 32) (hok : s.ringCtrlOk v = true) :
    s.row (fun s => s.fastRow p 0x6020 v) = .next (State.answered p 0x6020 (s.ringCtrl v, 0)).activate :=
  State.row_fastRow h regAt_ringctrl (by decide) (by decide) h32 (writeFault_ok (by simp [RPriv.allows, hp]) rfl hv hok)

theorem exec_ringAdvance {c : Fin 5} {r : Fin 32} (hr : (s.str.live.ring c.val r.val).isSome = true) :
    exec (.msgRingAdvance p c r) s = .next (State.answered p 0x6020 (s.advanceRing c.val r.val, 0)).activate := by
  obtain ⟨hc, hring, hadv, hall, hmask, h32⟩ := bits_ring c r
  have hctrl : s.ringCtrl (r.val + fld c.val 5 + fld 1 8) = s.advanceRing c.val r.val := by
    unfold State.ringCtrl
    dsimp only
    rw [hc, hring, if_pos hadv, if_neg (by rw [hall]; decide)]
  rw [← hctrl]
  refine row_ringCtrl h hp hmask h32 ?_
  unfold State.ringCtrlOk
  rw [hc, hring, hadv, hr]
  simp [Nat.lt_succ_iff.mp c.isLt]

theorem exec_ringAll {c : Fin 5} : exec (.msgRingAll p c) s = .next (State.answered p 0x6020 (s.advanceAll c.val, 0)).activate := by
  obtain ⟨hc, hadv, hall, hmask, h32⟩ := bits_all c
  have hctrl : s.ringCtrl (fld c.val 5 + fld 1 9) = s.advanceAll c.val := by
    unfold State.ringCtrl
    dsimp only
    rw [if_pos hall, if_neg (by rw [hadv]; decide), hc]
  rw [← hctrl]
  refine row_ringCtrl h hp hmask h32 ?_
  unfold State.ringCtrlOk
  rw [hc, hadv]
  simp [Nat.lt_succ_iff.mp c.isLt]

/-- A supervisor's write of MSG_CREDIT_DATA within the allotment (R183). -/
theorem exec_creditData {v : BitVec 16} {e : CreditEnt} (he : s.creditAt = some e) (hv : v.toNat ≤ e.allot) :
    exec (.msgCreditData p v) s = .next (State.answered p 0x6038 (s.creditWrite v.toNat, 0)).activate := by
  have hval : (v.setWidth 64).toNat = v.toNat := by
    have := v.isLt
    simp only [BitVec.toNat_setWidth]
    omega
  have hbits : bits v.toNat 15 0 = v.toNat := by
    have := v.isLt
    unfold bits
    omega
  have hexec := State.row_fastRow64 (p := p) (v := v.setWidth 64) h regAt_credit rfl (by decide) (writeFault_ok (by simp [RPriv.allows, hp]) rfl (by simp) (by
    show decide (bits (v.setWidth 64).toNat 15 0 ≤ (s.creditAt.map (·.allot)).getD 0) = true
    rw [hval, hbits, he]
    exact decide_eq_true hv))
  rw [hval] at hexec
  exact hexec

end

theorem State.ring_answered (p : Party) (o : Nat) (t : State) (c r : Nat) : (State.answered p o (t, 0)).activate.ring c r = t.ring c r := by
  rw [State.answered_ok, State.ring_activate]
  rfl

theorem State.credit_answered (p : Party) (o : Nat) (t : State) (k : Nat) : (State.answered p o (t, 0)).activate.credit k = t.credit k := by
  rw [State.answered_ok, State.credit, State.activate_msg]
  rfl

theorem State.creditWrite_shows {s : State} {e : CreditEnt} {v : Nat} (he : s.creditAt = some e) (hv : v < 2 ^ 16) :
    ((s.creditWrite v).credit e.dest).avail = v ∧ ∀ k, k ≠ e.dest → (s.creditWrite v).credit k = s.credit k := by
  have hbits : bits v 15 0 = v := by unfold bits; omega
  unfold State.creditWrite
  rw [he]
  refine ⟨?_, fun k hk => tabGet_tabSet_ne _ _ _ hk⟩
  exact (congrArg Credit.avail (tabGet_tabSet_self ..)).trans hbits

/-! ### Pacing (R230) -/

theorem State.paceIncrease_shows (s : State) : s.paceIncrease.msg.rateTicks = 0 ∧ s.paceIncrease.msg.credits = s.msg.credits ∧
    ∀ n, n < 4096 → (s.paceIncrease.pace n).rate = (if s.msg.paceEn = true ∧ (s.pace n).rate < s.msg.maxRate
      then min s.msg.maxRate ((s.pace n).rate + s.msg.paceStep) else (s.pace n).rate) ∧ (s.paceIncrease.pace n).allow = (s.pace n).allow := by
  unfold State.paceIncrease
  dsimp only
  by_cases he : s.msg.paceEn = true
  · rw [if_pos he]
    refine ⟨rfl, rfl, fun n hn => ?_⟩
    have hg := paceAll_get s (fun p => if p.rate < s.msg.maxRate then { p with rate := min s.msg.maxRate (p.rate + s.msg.paceStep) } else p) n hn
    by_cases hr : (s.pace n).rate < s.msg.maxRate
    · rw [if_pos ⟨he, hr⟩]
      have hg' := hg.trans (if_pos hr)
      exact ⟨(congrArg Pace.rate hg' :), (congrArg Pace.allow hg' :)⟩
    · rw [if_neg fun h => hr h.2]
      have hg' := hg.trans (if_neg hr)
      exact ⟨(congrArg Pace.rate hg' :), (congrArg Pace.allow hg' :)⟩
  · rw [if_neg he]
    exact ⟨rfl, rfl, fun n _ => ⟨(if_neg fun h => he h.1).symm, rfl⟩⟩

theorem State.paceAllow_shows (s : State) : s.paceAllow.msg.allowTicks = 0 ∧ s.paceAllow.msg.credits = s.msg.credits ∧
    ∀ n, n < 4096 → (s.paceAllow.pace n).rate = (s.pace n).rate ∧
      (s.paceAllow.pace n).allow = max (s.pace n).allow (min (max 4096 ((s.pace n).rate * 64)) ((s.pace n).allow + (s.pace n).rate * 64)) := by
  refine ⟨rfl, rfl, fun n hn => ?_⟩
  have hg := paceAll_get s (fun p => { p with allow := max p.allow (min (max 4096 (p.rate * 64)) (p.allow + p.rate * 64)) }) n hn
  exact ⟨(congrArg Pace.rate hg :), (congrArg Pace.allow hg :)⟩

theorem exec_pacingIncrease {s : State} (hon : s.pwr.state ≠ .off) :
    exec .pacingIncrease s = if s.msg.rateTicks < 5000 then .next s else .next s.paceIncrease :=
  (State.row_on (f := fun s => if s.msg.rateTicks < 5000 then s else s.paceIncrease) hon).trans (apply_ite Host.Outcome.next ..)

theorem exec_pacingAllowance {s : State} (hon : s.pwr.state ≠ .off) :
    exec .pacingAllowance s = if s.msg.allowTicks < 100 then .next s else .next s.paceAllow :=
  (State.row_on (f := fun s => if s.msg.allowTicks < 100 then s else s.paceAllow) hon).trans (apply_ite Host.Outcome.next ..)

/-- Settles O40: the three writes, and the two periodic steps at and before their time. -/
theorem messageRegistersAndPacing : Obligations.MessageRegistersAndPacing := by
  unfold Obligations.MessageRegistersAndPacing
  refine ⟨fun p c s h hp => ⟨fun r hr => ?_, ?_, fun v e he hv => ?_⟩, fun s hon => ⟨fun ht => ?_, fun ht => ?_, fun ht => ?_, fun ht => ?_⟩⟩
  · obtain ⟨hgen, hmsgs, hocc, -⟩ := State.advanceRing_frame s c.val r.val
    refine ⟨_, exec_ringAdvance h hp hr, ?_, ?_, ?_, (answered_cores ..).2⟩ <;> rw [State.ring_answered]
    · exact hgen
    · exact hmsgs
    · exact hocc
  · refine ⟨_, exec_ringAll h hp, (answered_cores ..).2, fun r hr => ?_⟩
    rw [State.ring_answered]
    exact (advance_rings c.val (List.range 32) List.nodup_range s).2.2 r.val (List.mem_range.mpr r.isLt) hr
  · obtain ⟨havail, hother⟩ := State.creditWrite_shows he v.isLt
    refine ⟨_, exec_creditData h hp he hv, ?_, fun k hk => ?_, (answered_cores ..).2⟩ <;> rw [State.credit_answered]
    · exact havail
    · exact hother k hk
  · exact ⟨_, (exec_pacingIncrease hon).trans (if_neg (Nat.not_lt.mpr ht)), s.paceIncrease_shows⟩
  · exact (exec_pacingIncrease hon).trans (if_pos ht)
  · exact ⟨_, (exec_pacingAllowance hon).trans (if_neg (Nat.not_lt.mpr ht)), s.paceAllow_shows⟩
  · exact (exec_pacingAllowance hon).trans (if_pos ht)

end Sys2Proof.Machine
end

section
/-! PROOFS. The SYN instructions, and the sync counters as reached from outside (R187 to R190, R193, R197, R199, R209). -/

namespace Sys2Proof.Machine

theorem State.sc_of {s t : State} (h : t.syn.sc = s.syn.sc) (n : Nat) : t.sc n = s.sc n := by
  unfold State.sc
  rw [h]

@[simp] theorem State.sc_activate (s : State) (n : Nat) : s.activate.sc n = s.sc n := State.sc_of (by rw [State.activate_syn]) n

theorem State.sc_answered (p : Party) (o : Nat) (t : State) (n : Nat) : (State.answered p o (t, 0)).activate.sc n = t.sc n := by
  rw [State.sc_activate, State.answered_ok]
  rfl

theorem State.sc_synSetSc (s : State) (n : Nat) (v : Word32) : (s.synSetSc n v).sc n = v := tabGet_tabSet_self ..

theorem State.sc_synSetSc_ne (s : State) {n m : Nat} (v : Word32) (h : m ≠ n) : (s.synSetSc n v).sc m = s.sc m := tabGet_tabSet_ne _ _ _ h

/-! ### Arrives (R187, R193) -/

section
variable {w : Who} {s : State} {c p : Nat} {v : Word32}

theorem arriveIssue_pends (hf : s.scFault w.core.val c p false = 0) (hj : s.itemJobs w = []) :
    arriveIssue w c p v s = some ((s.modItem w fun i => { i with pend := .arrive c p v }).issues w) := by
  unfold arriveIssue
  dsimp only
  rw [if_neg (not_not_intro hf), hj]
  rfl

theorem arriveIssue_bad (hf : s.scFault w.core.val c p false ≠ 0) :
    arriveIssue w c p v s = some (s.raise w (s.scFault w.core.val c p false) c) := by
  unfold arriveIssue
  exact if_pos hf

/-- The item goes on behind its arrive or atomic of `n` bytes. -/
def Item.onward (n : Nat) (i : Item) : Item := { i with pend := .none, blocked := none, off := i.off + n }

variable (hb : (s.ctx w).canBear = true) (hp : (s.item w).pend = .arrive c p v)
include hb hp

theorem arriveEffect_adds (hg : s.scBad c = false) (hr : s.released (s.item w).no p = true) :
    arriveEffect w s = some ((s.modItem w (Item.onward 16)).arriveSc c v (whoByte w)) := by
  unfold arriveEffect
  rw [hb, hp]
  dsimp only
  rw [hr]
  exact if_neg fun hbad => Bool.false_ne_true (hg.symm.trans hbad)

theorem arriveEffect_waits (hr : s.released (s.item w).no p = false) : arriveEffect w s = none := by
  unfold arriveEffect
  rw [hb, hp]
  dsimp only
  rw [hr]
  rfl

end

/-! ### Waits (R190) -/

theorem waitMet_iff (v g : Word32) : waitMet v g = true ↔ 0 ≤ (v - g).toInt := decide_eq_true_iff

section
variable {w : Who} {s : State} {c p : Nat} {g : Word32}

/-- What the sync unit notes when it evaluates the wait of an item at its issue. -/
def State.evalWait (s : State) (w : Who) (c : Nat) (g : Word32) : State :=
  { s with syn := { s.syn with met := s.syn.met.filter (· != (s.item w).no) ++ (if waitMet (s.sc c) g then [(s.item w).no] else []) } }

theorem State.evalWait_met : (s.evalWait w c g).syn.met.contains (s.item w).no = true ↔ 0 ≤ (s.sc c - g).toInt := by
  rw [← waitMet_iff, State.evalWait]
  cases waitMet (s.sc c) g <;> simp

theorem waitIssue_waits (hf : s.scFault w.core.val c p false = 0) :
    waitIssue w c p g s = some (((s.evalWait w c g).modItem w fun i => { i with pend := .wait c p g, waitTicks := 0 }).issues w) := by
  unfold waitIssue
  exact if_neg (not_not_intro hf)

/-- The state behind a met wait, before its trace event: its cache is dropped at a scope wider than its core (R194). -/
def State.waitOver (s : State) (w : Who) (p : Nat) : State :=
  let t := { s with syn := { s.syn with met := s.syn.met.filter (· != (s.item w).no) } }.modItem w fun i => { i with pend := .none, blocked := none, waitTicks := 0, off := i.off + 16 }
  if p ≠ 0 ∧ w.core.val = 4 then t.dropCache else t

theorem State.waitOver_shows : ((s.waitOver w p).item w).pend = .none ∧ ((s.waitOver w p).item w).off = (s.item w).off + 16 ∧
    (s.waitOver w p).loam = s.loam ∧ ∀ n, (s.waitOver w p).sc n = s.sc n := by
  unfold State.waitOver
  dsimp only
  split <;> exact ⟨by simp, by simp only [State.item_dropCache, State.item_modItem_self]; rfl, by simp, fun n => State.sc_of (by simp) n⟩

variable (hb : (s.ctx w).canBear = true) (hp : (s.item w).pend = .wait c p g) (hg : s.scBad c = false)
include hb hp hg

theorem waitDone_met (hm : s.waitIsMet (s.item w).no c g = true) :
    waitDone w s = some ((s.waitOver w p).emit 8 .wait (whoByte w) 32 [c, (s.sc c).toNat, p]) := by
  unfold waitDone
  rw [hb, hp]
  dsimp only
  rw [hg, hm]
  rfl

theorem waitDone_none (hm : s.waitIsMet (s.item w).no c g = false) : waitDone w s = none := by
  unfold waitDone
  rw [hb, hp]
  dsimp only
  rw [hg, hm]
  rfl

end

/-! ### SYN.READ and SYN.SET (R188) -/

section
variable {w : Who} {s u : State} {len c p a : Nat}

theorem syncRead_stores (ha : a % 4 = 0) (hf : s.scFault w.core.val c p true = 0) (hi : s.itemFault w true a 4 = 0) (hb : s.scBad c = false)
    (hw : s.loamWrite (corePort w.core.val) a (leBytes 4 (s.sc c).toNat) = (u, 0)) :
    syncRead w len c p a s = some ((u.noteWrote w a 4).advance w len) := by
  unfold syncRead
  dsimp only
  rw [if_neg (not_not_intro ha), hf, if_pos rfl, hi, hb, hw]
  rfl

theorem syncSet_sets {v : Word32} (hf : s.scFault w.core.val c p true = 0) : syncSet w len c p v s = some ((s.synSetSc c v).advance w len) := by
  unfold syncSet
  exact if_neg (not_not_intro hf)

end

/-! ### From outside (R197, R199, R204, R209) -/

theorem exec_remoteCounterAdd {s : State} {c : BitVec 13} {k : AddKind} (h : s.portsHeld = false) :
    exec (.remoteCounterAdd c k) s = .next (acceptAdd c.toNat k s).activate := State.row_arrive h (.add c k)

theorem exec_synArriveWrite {s : State} {p : Party} {c : BitVec 13} {v : Word32} (h : s.portsHeld = false) :
    exec (.synArriveWrite p c v) s = .next (State.answered p 0x8000 (s.synArriveDo (c.toNat + fld v.toNat 32))).activate := by
  refine (State.row_arrive h (.arrive p c v)).trans ?_
  have hf : writeFault fastBlocks s (accOf p) ⟨⟨0x8000, 8, 1, 8, .A, false, 0xFFFFFFFF00001FFF⟩, 0, 0⟩ (c.toNat + fld v.toNat 32) = 0 :=
    writeFault_ok rfl rfl (arr_bits c v).1 rfl
  rw [accept, regRow, regAt_arr]
  dsimp only
  rw [hf]
  rfl

theorem State.synArriveDo_adds {s : State} {c : BitVec 13} {v : Word32} (hf : s.synArriveFault c.toNat = 0) (hb : s.scBad c.toNat = false) :
    s.synArriveDo (c.toNat + fld v.toNat 32) = (s.arriveSc c.toNat v 0xFF, 0) := by
  obtain ⟨-, hc, hv⟩ := arr_bits c v
  unfold State.synArriveDo
  dsimp only
  rw [hc, hv, if_neg (not_not_intro hf), hb, BitVec.ofNat_toNat, BitVec.setWidth_eq]
  rfl

theorem State.synArriveDo_refused {s : State} {c : BitVec 13} {v : Word32} (hf : s.synArriveFault c.toNat ≠ 0) :
    s.synArriveDo (c.toNat + fld v.toNat 32) = (s, s.synArriveFault c.toNat) := by
  unfold State.synArriveDo
  dsimp only
  rw [(arr_bits c v).2.1]
  exact if_pos hf

theorem exec_synSetWrite {s : State} {p : Party} {c : BitVec 13} {v : Word32} (h : s.portsHeld = false) (hp : (accOf p).sup = true) (hx : (s.str.live.sync c.toNat).isSome = true) :
    exec (.synSetWrite p c v) s = .next (State.answered p 0x8008 (s.synSetSc c.toNat v, 0)).activate := by
  obtain ⟨hmask, hc, hv⟩ := arr_bits c v
  have hval : (BitVec.ofNat 64 (c.toNat + fld v.toNat 32)).toNat = c.toNat + fld v.toNat 32 := by
    rw [BitVec.toNat_ofNat]
    apply Nat.mod_eq_of_lt
    have hc' := c.isLt
    have hv' := v.isLt
    unfold fld
    omega
  have hrange : fastBlocks.range s 0x8008 0 0 (BitVec.ofNat 64 (c.toNat + fld v.toNat 32)).toNat = true := by
    rw [hval]
    show (s.str.live.sync (bits (c.toNat + fld v.toNat 32) 12 0)).isSome = true
    rw [hc]
    exact hx
  have hrow := State.row_fastRow64 (p := p) (v := BitVec.ofNat 64 (c.toNat + fld v.toNat 32)) h regAt_set rfl (by decide)
    (writeFault_ok (by simp [RPriv.allows, hp]) rfl (by rw [hval]; exact hmask) hrange)
  refine hrow.trans ?_
  have hact : s.fastDo 0x8008 0 (c.toNat + fld v.toNat 32) = (s.synSetSc c.toNat v, 0) := by
    refine Prod.ext ?_ rfl
    show s.synSetSc (bits (c.toNat + fld v.toNat 32) 12 0) (BitVec.ofNat 32 (bits (c.toNat + fld v.toNat 32) 63 32)) = _
    rw [hc, hv, BitVec.ofNat_toNat, BitVec.setWidth_eq]
  rw [hval]
  exact congrArg (fun q => Host.Outcome.next (State.answered p 0x8008 q).activate) hact

theorem exec_synPbufFlush {s : State} {p : Party} (h : s.portsHeld = false) (hp : (accOf p).sup = true) :
    exec (.synPbufFlush p) s = .next (State.answered p 0x8020 ({ s with port := { s.port with flushing := !s.port.pbuf.isEmpty } }, 0)).activate :=
  State.row_fastRow h regAt_pbuf (by decide) (by decide) (by decide) (writeFault_ok (by simp [RPriv.allows, hp]) rfl (by decide) rfl)

/-- Settles O41: each instruction by the equation of its step, each access by the register it writes. -/
theorem syncInstructions : Obligations.SyncInstructions := by
  unfold Obligations.SyncInstructions
  refine ⟨fun w s => ⟨fun t len c p v hi => ⟨fun hf hj => ?_, fun hf => ?_⟩, fun c p v hon hb hp hg => ⟨fun hr => ?_, fun hr => ?_⟩,
    fun t len c p g hi hf => ?_, fun c p g hon hb hp hg => ⟨fun hm => ?_, fun hlt hm => ?_⟩,
    fun t len c p a u hi ha hf hif hb hw => ?_, fun t len c p x hi hf => ?_⟩,
    fun s h => ⟨fun c k x hx => ⟨fun h2 hb => ?_, fun h2 => ?_⟩, fun p c v x hx => ⟨fun h2 hb => ?_, fun h2 => ?_, fun hp => ?_⟩, fun p hp => ?_⟩⟩
  · have hjobs : t.itemJobs w = [] := (hi.touched.itemJobs w).trans hj
    exact ⟨_, State.row_issue hi (arriveIssue_pends hf hjobs), by simp, by simp [hi.touched.item], by simp [hi.touched.syn]⟩
  · exact ⟨_, State.row_issue hi (arriveIssue_bad hf), hi.raised (.refl t)⟩
  · have hsc : ∀ n, (s.modItem w (Item.onward 16)).sc n = s.sc n := fun n => State.sc_of (by simp) n
    refine ⟨_, State.row_fast hon (arriveEffect_adds hb hp hg hr), ?_, fun n hn => ?_, by simp [Item.onward], by simp [Item.onward], by simp⟩
    · rw [State.sc_activate, State.sc_arriveSc _ _ _ _ (show (s.modItem w (Item.onward 16)).scBad c = false from hg), hsc]
    · rw [State.sc_activate, State.sc_arriveSc_ne _ _ _ hn, hsc]
  · exact State.row_fast_none (arriveEffect_waits hb hp hr)
  · refine ⟨_, State.row_issue hi (waitIssue_waits hf), by simp, ?_, ?_, fun n => ?_⟩
    · rw [State.item_activate, State.item_issues, State.item_modItem_self]
      exact (congrArg Item.off (hi.touched.item w) :)
    · have hmet := State.evalWait_met (s := t) (w := w) (c := c) (g := g)
      rw [hi.touched.item, State.sc_of (congrArg Syn.sc hi.touched.syn)] at hmet
      rw [← hmet, State.activate_syn, State.issues, State.work_syn, State.modItem_syn]
    · exact State.sc_of (by simp [State.evalWait, hi.touched.syn]) n
  · have hmet : s.waitIsMet (s.item w).no c g = true := by
      rw [State.waitIsMet, Bool.or_eq_true, waitMet_iff]
      exact hm.symm
    obtain ⟨hpend, hoff, hloam, hsc⟩ := s.waitOver_shows (w := w) (p := p)
    exact ⟨_, State.row_fast hon (waitDone_met hb hp hg hmet), by simpa using hpend, by simpa using hoff, by simpa using hloam,
      fun n => (State.sc_of (by simp) n).trans (hsc n)⟩
  · have hmet : s.waitIsMet (s.item w).no c g = false := by
      rw [State.waitIsMet, hm, Bool.false_or, Bool.eq_false_iff, ne_eq, waitMet_iff]
      omega
    exact State.row_fast_none (waitDone_none hb hp hg hmet)
  · have hsc : t.sc c = s.sc c := State.sc_of (congrArg Syn.sc hi.touched.syn) c
    have hbad : t.scBad c = false := by rw [State.scBad, hi.touched.damage]; exact hb
    have hu := Touched.loamWrite t (corePort w.core.val) a (leBytes 4 (t.sc c).toNat)
    rw [hsc, hw] at hu
    exact ⟨_, State.row_issue hi (syncRead_stores ha hf hif hbad (by rw [hsc]; exact hw)), by simp, by simp [show u.syn = t.syn from hu.syn, hi.touched.syn],
      by simp [State.advance, show u.item w = t.item w from hu.item w, hi.touched.item]⟩
  · refine ⟨_, State.row_issue hi (syncSet_sets hf), ?_, fun n hn => ?_, by simp [State.synSetSc], ?_⟩
    · rw [State.sc_advance, State.sc_synSetSc]
    · rw [State.sc_advance, State.sc_synSetSc_ne _ _ hn, State.sc_of (congrArg Syn.sc hi.touched.syn)]
    · exact advance_item (hi.touched.item w)
  · have hadd : acceptAdd c.toNat k s = (s.addSc c.toNat (match k with
        | .bytes n => n
        | .pulse => 1)).send (.accessAnswer 0 .ack 0) := by
      unfold acceptAdd
      rw [hx]
      dsimp only
      rw [if_pos h2, hb]
      rfl
    refine ⟨_, exec_remoteCounterAdd h, ?_, ?_⟩ <;> rw [hadd]
    · simp [State.addSc, hb]
    · rw [State.sc_activate, State.addSc, hb]
      exact tabGet_tabSet_self ..
  · have hadd : acceptAdd c.toNat k s = s.send (.accessAnswer 0 .ack 0x0901) := by
      unfold acceptAdd
      rw [hx]
      exact if_neg h2
    refine ⟨_, exec_remoteCounterAdd h, ?_, ?_⟩ <;> simp [hadd]
  · have hf : s.synArriveFault c.toNat = 0 := by
      unfold State.synArriveFault
      rw [hx]
      exact if_pos h2
    refine ⟨_, exec_synArriveWrite h, ?_, ?_⟩ <;> rw [State.synArriveDo_adds hf hb]
    · rw [State.sc_answered, State.sc_arriveSc _ _ _ _ hb]
    · simp
  · have hf : s.synArriveFault c.toNat = 0x0901 := by
      unfold State.synArriveFault
      rw [hx]
      exact if_neg h2
    refine ⟨_, exec_synArriveWrite h, ?_, ?_⟩ <;> rw [State.synArriveDo_refused (by rw [hf]; decide), hf]
    · simp [State.answered]
    · exact (answered_cores ..).2
  · refine ⟨_, exec_synSetWrite h hp (by rw [hx]; rfl), ?_, fun n hn => ?_, ?_⟩
    · rw [State.sc_answered, State.sc_synSetSc]
    · rw [State.sc_answered, State.sc_synSetSc_ne _ _ hn]
    · simp [State.synSetSc]
  · exact ⟨_, exec_synPbufFlush h hp, by simp, by simp⟩

end Sys2Proof.Machine
end

section
/-! PROOFS. The ATM instructions: in the own Loam, at the port buffer, and beyond (R202 to R204). -/

namespace Sys2Proof.Machine

/-- RET of an atomic, where it has one. -/
def atomBack (ret : Nat) : Option Nat := if ret = 0xFFFFFFFF then none else some ret

/-- What an atomic writes at RET. -/
def retFoot (ret : Nat) : List (Nat × Nat) := if ret = 0xFFFFFFFF then [] else [(ret, 8)]

/-- An atomic completes in a state whose Loam is that of `u`: the item goes on, and the old word stands at RET. -/
theorem State.atomDone_returns {u y z : State} {w : Who} {ret : Option Nat} {old : Nat} (hy : y.loam = u.loam)
    (h : ret = none ∧ z = u ∨ ∃ a, ret = some a ∧ u.loamWrite (corePort w.core.val) a (leBytes 8 old) = (z, 0)) :
    (y.atomDone w ret old).loam = z.loam ∧ ((y.atomDone w ret old).item w).pend = .none ∧
    ((y.atomDone w ret old).item w).off = (y.item w).off + 32 ∧ (y.atomDone w ret old).syn = y.syn ∧ (y.atomDone w ret old).port = y.port ∧
    (y.atomDone w ret old).out = y.out := by
  rcases h with ⟨rfl, rfl⟩ | ⟨a, rfl, hz⟩
  · rw [← hy]
    exact State.atomDone_spec y w none old (.inl ⟨rfl, rfl⟩)
  · obtain ⟨hloam, hfault⟩ := State.loamWrite_same hy (corePort w.core.val) a (leBytes 8 old)
    rw [hz] at hloam hfault
    rw [← show (y.loamWrite (corePort w.core.val) a (leBytes 8 old)).1.loam = z.loam from hloam]
    exact State.atomDone_spec y w (some a) old (.inr ⟨a, rfl, Prod.ext rfl hfault⟩)

/-! ### Issue (R203, R204) -/

/-- The request of an atomic goes out and its item waits for the answer. -/
def State.atomAsks (s : State) (w : Who) (addr : Nat) (k : TxnKind) (o : Output) : State :=
  (((s.newTxn addr k).1.send o).modItem w fun i => { i with pend := .memory s.port.nextId }).issues w

theorem State.atomAsks_shows {s t : State} (ht : Touched s t) (w : Who) (addr : Nat) (k : TxnKind) (o : Output) :
    let x := (t.atomAsks w addr k o).activate
    x.out = s.out ++ [o] ∧ (x.item w).pend = .memory s.port.nextId ∧ (x.item w).off = (s.item w).off ∧ x.loam = t.loam ∧
      x.port.txns = s.port.txns ++ [{ id := s.port.nextId, addr := addr, kind := k }] := by
  have hitem : ((t.newTxn addr k).1.send o).item w = s.item w := ht.item w
  have hafter : (t.atomAsks w addr k o).activate.item w = { s.item w with pend := .memory t.port.nextId } := by
    rw [State.item_activate, State.atomAsks, State.item_issues, State.item_modItem_self, hitem]
  refine ⟨by simp [State.atomAsks, ht.out], ?_, ?_, by simp [State.atomAsks], ?_⟩
  · rw [hafter, ht.port]
  · rw [hafter]
  · simp [State.atomAsks, State.newTxn, ht.port]

/-- An atomic outside the own Loam (R204). -/
def outerAtom (w : Who) (r : AtomReq) (scope ret addr : Nat) (s : State) : Option State :=
  if scope = 2 then
    if s.port.pbuf.any (fun e => e.sector == addr / 64) || s.port.fetching (addr / 64) || !s.txnRoom then none
    else some (s.atomAsks w addr (.atomic w (s.item w).no (atomBack ret) r.w64) (.memAtomic s.port.nextId addr r))
  else if s.port.holdsSector (addr / 64) then
    some (((s.pbufAtomicBy w addr r).1.issues w).atomDone w (atomBack ret) (s.pbufAtomicBy w addr r).2)
  else if s.port.draining (addr / 64) || s.port.directly (addr / 64) || ((s.port.entry (addr / 64)).isNone && decide (64 ≤ s.port.used)) || !s.txnRoom then none
  else some (s.atomAsks w addr (.fetch w (s.item w).no (addr % 64) r (atomBack ret)) (.memRead s.port.nextId (addr / 64 * 64) false))

section
variable {w : Who} {r : AtomReq} {p ret a l : Nat} {s q : State} (hf : s.atomFault w false (atomBytes r) ret a = 0)
include hf

theorem atomIssue_own (hp : placeOf s.id a = .own l) (hm : s.mustWait w { lw := (l, atomBytes r) :: retFoot ret } = false) {bs : List Byte}
    (hr : s.loamRead (corePort w.core.val) l (atomBytes r) = (q, .ok bs)) :
    atomIssue w r false p ret a s = some (((((q.loamWrite (corePort w.core.val) l (leBytes (atomBytes r) (atomNew r (leNat bs)))).1.noteWrote w l
      (atomBytes r)).issues w).atomDone w (atomBack ret) (leNat bs))) := by
  have hatom : s.loamAtomic (corePort w.core.val) l r =
      ((q.loamWrite (corePort w.core.val) l (leBytes (atomBytes r) (atomNew r (leNat bs)))).1, .ok (leNat bs)) := by
    unfold State.loamAtomic
    rw [hr]
  have hwait : ¬ s.mustWait w { lw := [(l, atomBytes r)] ++ retFoot ret } = true := by
    rw [List.singleton_append, hm]
    exact Bool.false_ne_true
  unfold atomIssue
  dsimp only
  rw [if_neg (not_not_intro hf), hp]
  refine (if_neg hwait).trans ?_
  dsimp only
  rw [hatom]
  rfl

theorem atomIssue_bad (hp : placeOf s.id a = .own l) (hm : s.mustWait w { lw := (l, atomBytes r) :: retFoot ret } = false) {f : Nat}
    (hr : s.loamRead (corePort w.core.val) l (atomBytes r) = (q, .bad f)) : atomIssue w r false p ret a s = some (q.raise w f a) := by
  have hatom : s.loamAtomic (corePort w.core.val) l r = (q, .bad f) := by
    unfold State.loamAtomic
    rw [hr]
  have hwait : ¬ s.mustWait w { lw := [(l, atomBytes r)] ++ retFoot ret } = true := by
    rw [List.singleton_append, hm]
    exact Bool.false_ne_true
  unfold atomIssue
  dsimp only
  rw [if_neg (not_not_intro hf), hp]
  refine (if_neg hwait).trans ?_
  dsimp only
  rw [hatom]

theorem atomIssue_outer (hp : ∀ l, placeOf s.id a ≠ .own l) (hm : s.mustWait w { lw := retFoot ret } = false) :
    atomIssue w r false p ret a s = outerAtom w r p ret a s := by
  have hwait : ¬ s.mustWait w { lw := [] ++ retFoot ret } = true := by
    rw [List.nil_append, hm]
    exact Bool.false_ne_true
  unfold atomIssue
  dsimp only
  rw [if_neg (not_not_intro hf)]
  cases hpl : placeOf s.id a with
  | own l => exact absurd hpl (hp l)
  | _ => exact (if_neg hwait).trans rfl

end

section
variable {w : Who} {r : AtomReq} {p ret a : Nat} {s : State}

theorem outerAtom_asks (hroom : s.txnRoom = true) (hb : ∀ e ∈ s.port.pbuf, e.sector ≠ a / 64) (hfe : s.port.fetching (a / 64) = false) :
    outerAtom w r 2 ret a s = some (s.atomAsks w a (.atomic w (s.item w).no (atomBack ret) r.w64) (.memAtomic s.port.nextId a r)) := by
  have hany : s.port.pbuf.any (fun e => e.sector == a / 64) = false := List.any_eq_false.mpr fun e he => by simp [hb e he]
  unfold outerAtom
  rw [if_pos rfl, hany, hfe, hroom]
  rfl

theorem outerAtom_waits (h : (∃ e ∈ s.port.pbuf, e.sector = a / 64) ∨ s.port.fetching (a / 64) = true) : outerAtom w r 2 ret a s = none := by
  unfold outerAtom
  rw [if_pos rfl]
  refine if_pos ?_
  rcases h with ⟨e, he, hs⟩ | hfe
  · have hany : s.port.pbuf.any (fun e => e.sector == a / 64) = true := List.any_eq_true.mpr ⟨e, he, beq_iff_eq.mpr hs⟩
    rw [hany]
    rfl
  · rw [hfe, Bool.or_true]
    rfl

theorem outerAtom_held (h2 : p ≠ 2) {e : PEntry} (he : s.port.entry (a / 64) = some e) (hl : e.data.length = 64) :
    outerAtom w r p ret a s = some (((s.pbufAtomicBy w a r).1.issues w).atomDone w (atomBack ret) (s.pbufAtomicBy w a r).2) := by
  unfold outerAtom
  rw [if_neg h2]
  refine if_pos ?_
  unfold Port.holdsSector
  rw [he]
  exact beq_iff_eq.mpr hl

theorem not_holdsSector (h : ∀ e, s.port.entry (a / 64) = some e → e.data.length ≠ 64) : ¬ s.port.holdsSector (a / 64) = true := by
  unfold Port.holdsSector
  cases he : s.port.entry (a / 64) with
  | none => exact Bool.false_ne_true
  | some e => simpa using h e he

variable (h2 : p ≠ 2) (hl : ∀ e, s.port.entry (a / 64) = some e → e.data.length ≠ 64)
include h2 hl

theorem outerAtom_blocked (h : s.port.draining (a / 64) = true ∨ s.port.directly (a / 64) = true) : outerAtom w r p ret a s = none := by
  unfold outerAtom
  rw [if_neg h2, if_neg (not_holdsSector hl)]
  refine if_pos ?_
  rcases h with h | h <;> simp [h]

theorem outerAtom_fetches (hd : s.port.draining (a / 64) = false) (hdir : s.port.directly (a / 64) = false) (hroom : s.txnRoom = true)
    (hu : (s.port.entry (a / 64)).isSome = true ∨ s.port.used < 64) :
    outerAtom w r p ret a s = some (s.atomAsks w a (.fetch w (s.item w).no (a % 64) r (atomBack ret)) (.memRead s.port.nextId (a / 64 * 64) false)) := by
  have hplace : ((s.port.entry (a / 64)).isNone && decide (64 ≤ s.port.used)) = false := by
    rcases hu with hu | hu
    · rw [← Option.not_isSome, hu]
      rfl
    · rw [decide_eq_false (Nat.not_le.mpr hu), Bool.and_false]
  unfold outerAtom
  rw [if_neg h2, if_neg (not_holdsSector hl), hd, hdir, hroom, hplace]
  rfl

end

/-! ### The words (R202) -/

section
variable (sg : Bool) (v k : Word64)

theorem atomNew_word32 (old : Nat) (h : old < 2 ^ 32) :
    atomNew ⟨.add, false, sg, v, k⟩ old = (old + v.toNat) % 2 ^ 32 ∧ atomNew ⟨.xchg, false, sg, v, k⟩ old = v.toNat % 2 ^ 32 ∧
    atomNew ⟨.cas, false, sg, v, k⟩ old = if old = k.toNat % 2 ^ 32 then v.toNat % 2 ^ 32 else old := by
  refine ⟨?_, BitVec.toNat_ofNat .., ?_⟩
  · show (BitVec.ofNat 32 old + BitVec.ofNat 32 v.toNat).toNat = _
    rw [BitVec.toNat_add, BitVec.toNat_ofNat, BitVec.toNat_ofNat, ← Nat.add_mod]
  · show (if BitVec.ofNat 32 old = BitVec.ofNat 32 k.toNat then BitVec.ofNat 32 v.toNat else BitVec.ofNat 32 old).toNat = _
    rw [apply_ite BitVec.toNat, BitVec.toNat_ofNat, BitVec.toNat_ofNat, Nat.mod_eq_of_lt h]
    refine if_congr ?_ rfl rfl
    rw [← BitVec.toNat_inj, BitVec.toNat_ofNat, BitVec.toNat_ofNat, Nat.mod_eq_of_lt h]

theorem toNat_ite_lt {n : Nat} (x y : BitVec n) : (if x.ult y then x else y).toNat = min y.toNat x.toNat := by
  rw [apply_ite BitVec.toNat]
  simp only [BitVec.ult, decide_eq_true_eq]
  split_ifs <;> omega

theorem toNat_ite_gt {n : Nat} (x y : BitVec n) : (if y.ult x then x else y).toNat = max y.toNat x.toNat := by
  rw [apply_ite BitVec.toNat]
  simp only [BitVec.ult, decide_eq_true_eq]
  split_ifs <;> omega

theorem atomNew_unsigned32 (old : Nat) (h : old < 2 ^ 32) :
    atomNew ⟨.min, false, false, v, k⟩ old = min old (v.toNat % 2 ^ 32) ∧ atomNew ⟨.max, false, false, v, k⟩ old = max old (v.toNat % 2 ^ 32) := by
  have hmin := toNat_ite_lt (BitVec.ofNat 32 v.toNat) (BitVec.ofNat 32 old)
  have hmax := toNat_ite_gt (BitVec.ofNat 32 v.toNat) (BitVec.ofNat 32 old)
  rw [BitVec.toNat_ofNat, BitVec.toNat_ofNat, Nat.mod_eq_of_lt h] at hmin hmax
  exact ⟨hmin, hmax⟩

theorem ite_slt {n : Nat} (x y a b : BitVec n) : (if x.slt y then a else b) = if x.toInt < y.toInt then a else b :=
  if_congr decide_eq_true_iff rfl rfl

theorem atomNew_signed32 (old : Word32) :
    atomNew ⟨.min, false, true, v, k⟩ old.toNat = (if (BitVec.ofNat 32 v.toNat).toInt < old.toInt then BitVec.ofNat 32 v.toNat else old).toNat ∧
    atomNew ⟨.max, false, true, v, k⟩ old.toNat = (if old.toInt < (BitVec.ofNat 32 v.toNat).toInt then BitVec.ofNat 32 v.toNat else old).toNat := by
  have hmin := congrArg BitVec.toNat (ite_slt (BitVec.ofNat 32 v.toNat) old (BitVec.ofNat 32 v.toNat) old)
  have hmax := congrArg BitVec.toNat (ite_slt old (BitVec.ofNat 32 v.toNat) (BitVec.ofNat 32 v.toNat) old)
  have hold : BitVec.ofNat 32 old.toNat = old := by simp
  refine ⟨Eq.trans ?_ hmin, Eq.trans ?_ hmax⟩ <;> (unfold atomNew atomOn; simp only [Bool.false_eq_true, if_false, if_true, hold])

theorem atomNew_word64 (old : Word64) :
    atomNew ⟨.add, true, sg, v, k⟩ old.toNat = (old.toNat + v.toNat) % 2 ^ 64 ∧ atomNew ⟨.xchg, true, sg, v, k⟩ old.toNat = v.toNat ∧
    atomNew ⟨.cas, true, sg, v, k⟩ old.toNat = (if old = k then v else old).toNat ∧
    atomNew ⟨.min, true, false, v, k⟩ old.toNat = min old.toNat v.toNat ∧ atomNew ⟨.max, true, false, v, k⟩ old.toNat = max old.toNat v.toNat ∧
    atomNew ⟨.min, true, true, v, k⟩ old.toNat = (if v.toInt < old.toInt then v else old).toNat ∧
    atomNew ⟨.max, true, true, v, k⟩ old.toNat = (if old.toInt < v.toInt then v else old).toNat := by
  have hofNat : ∀ x : Word64, BitVec.ofNat 64 x.toNat = x := fun x => by simp
  simp only [atomNew, atomOn, if_true, if_false, Bool.false_eq_true, hofNat, true_and]
  exact ⟨BitVec.toNat_add .., toNat_ite_lt .., toNat_ite_gt .., congrArg _ (ite_slt ..), congrArg _ (ite_slt ..)⟩

end

/-! ### The rows -/

/-- The row of an atomic operation. -/
def atomRow (w : Who) : AtomOp → Instr
  | .add => .atmAdd w
  | .min => .atmMin w
  | .max => .atmMax w
  | .xchg => .atmXchg w
  | .cas => .atmCas w

section
variable {op : AtomOp} {w : Who} {s t u : State} {len : Nat} {w64 sg : Bool} {p ret a v k : Nat} (h : s.Issues w t (.atm op w64 sg p ret a v k false) len)
include h

theorem exec_atm (hu : atomIssue w ⟨op, w64, sg, BitVec.ofNat 64 v, BitVec.ofNat 64 k⟩ false p ret a t = some u) :
    exec (atomRow w op) s = .next u.activate := by
  cases op <;> exact State.row_issue h hu

theorem exec_atm_none (hu : atomIssue w ⟨op, w64, sg, BitVec.ofNat 64 v, BitVec.ofNat 64 k⟩ false p ret a t = none) :
    exec (atomRow w op) s = .next s := by
  cases op <;> exact State.row_issue_none h hu

end

/-- Settles O42: the rows by the ways of `atomIssue`, completion by `State.atomDone_spec`, the buffer by `State.pbufAtomicBy_spec`. -/
theorem atomics : Obligations.Atomics := by
  unfold Obligations.Atomics
  refine ⟨fun op w s t len w64 sg p ret a v k h => ?_, atomNew_word32, fun v k => atomNew_unsigned32 v k, fun v k => atomNew_signed32 v k,
    atomNew_word64⟩
  intro i r n back returns done hf
  have hreturns : ∀ {u z : State} {old : Nat}, returns u z old →
      atomBack ret = none ∧ z = u ∨ ∃ b, atomBack ret = some b ∧ u.loamWrite (corePort w.core.val) b (leBytes 8 old) = (z, 0) := by
    rintro u z old (⟨hr, hz⟩ | ⟨hr, hz⟩)
    · exact .inl ⟨if_pos hr, hz⟩
    · exact .inr ⟨ret, if_neg hr, hz⟩
  have hid : t.id = s.id := h.touched.id
  refine ⟨fun l hp hm => ⟨fun q bs u z hr hu hz => ?_, fun q f hr => ?_⟩, fun hp hm => ?_⟩
  · have hq := Touched.loamRead t (corePort w.core.val) l n
    rw [hr] at hq
    have hut : Touched t u := hu ▸ Touched.trans hq (Touched.loamWrite ..)
    have hissue := atomIssue_own (r := r) (p := p) hf (hid ▸ hp) hm hr
    rw [show (q.loamWrite (corePort w.core.val) l (leBytes (atomBytes r) (atomNew r (leNat bs)))).1 = u from hu.symm] at hissue
    obtain ⟨hloam, hpend, hoff, hsyn, -⟩ := State.atomDone_returns (y := (u.noteWrote w l n).issues w) (by simp) (hreturns hz)
    refine ⟨_, exec_atm h hissue, ?_, ?_, ?_, ?_⟩
    · rw [State.activate_loam]
      exact hloam
    · rw [State.item_activate]
      refine hoff.trans ?_
      simp [hut.item, h.touched.item]
    · rw [State.item_activate]
      exact hpend
    · rw [State.activate_syn]
      refine hsyn.trans ?_
      simp [hut.syn, h.touched.syn]
  · have hq := Touched.loamRead t (corePort w.core.val) l n
    rw [hr] at hq
    exact ⟨_, exec_atm h (atomIssue_bad (r := r) (p := p) hf (hid ▸ hp) hm hr), h.raised hq⟩
  · have hissue := atomIssue_outer (r := r) (p := p) hf (hid ▸ hp) hm
    have hport : t.port = s.port := h.touched.port
    refine ⟨?_, ?_, ?_, fun h2 hl => ⟨fun hd => ?_, fun hd hdir hroom hu => ?_⟩⟩
    · rintro rfl hroom hb hfe
      have hasks := outerAtom_asks (w := w) (r := r) (ret := ret) (a := a) (s := t) (by rw [State.txnRoom, hport]; exact hroom) (by rw [hport]; exact hb) (by rw [hport]; exact hfe)
      rw [hport] at hasks
      obtain ⟨hout, hpend, hoff, hloam, -⟩ := State.atomAsks_shows h.touched w a (.atomic w (t.item w).no (atomBack ret) r.w64) (.memAtomic s.port.nextId a r)
      exact ⟨_, exec_atm h (hissue.trans hasks), hout, hpend, hoff, hloam⟩
    · rintro rfl hb
      exact exec_atm_none h (hissue.trans (outerAtom_waits (by rw [hport]; exact hb)))
    · intro e z h2 he hl old hz
      have het : t.port.entry (a / 64) = some e := by rw [hport]; exact he
      obtain ⟨hold, ⟨e', he', hatom, -, hdata⟩, hother, b, hb⟩ := t.pbufAtomicBy_spec w a r het
      have hstep := hissue.trans (outerAtom_held (r := r) (ret := ret) h2 het hl)
      rw [hold] at hstep
      obtain ⟨hloam, hpend, hoff, hsyn, hdport, hdout⟩ := State.atomDone_returns (y := (t.pbufAtomicBy w a r).1.issues w) (by rw [hb]; simp) (hreturns hz)
      have hxport : ((((t.pbufAtomicBy w a r).1.issues w).atomDone w (atomBack ret) old).activate).port = (t.pbufAtomicBy w a r).1.port := by
        rw [State.activate_port]
        exact hdport.trans (by simp)
      refine ⟨_, e', exec_atm h hstep, ⟨?_, ?_, ?_, ?_⟩, ?_, ?_, hatom, hdata, fun y hy => ?_⟩
      · rw [State.activate_loam]
        exact hloam
      · rw [State.item_activate]
        refine hoff.trans ?_
        rw [State.item_issues, hb]
        exact congrArg (fun i : Item => i.off + 32) (h.touched.item w)
      · rw [State.item_activate]
        exact hpend
      · rw [State.activate_syn]
        refine hsyn.trans ?_
        rw [hb]
        simp [h.touched.syn]
      · rw [State.activate_out]
        refine hdout.trans ?_
        rw [hb]
        simp [h.touched.out]
      · exact (congrArg (Port.entry · (a / 64)) hxport).trans he'
      · exact (congrArg (Port.entry · y) hxport).trans ((hother y hy).trans (by rw [hport]))
    · exact exec_atm_none h (hissue.trans (outerAtom_blocked h2 (by rw [hport]; exact hl) (by rw [hport]; exact hd)))
    · have hasks := outerAtom_fetches (w := w) (r := r) (ret := ret) (a := a) (s := t) h2 (by rw [hport]; exact hl) (by rw [hport]; exact hd)
        (by rw [hport]; exact hdir) (by rw [State.txnRoom, hport]; exact hroom) (by rw [hport]; exact hu)
      rw [hport, h.touched.item] at hasks
      obtain ⟨hout, hpend, hoff, hloam, htxns⟩ := State.atomAsks_shows h.touched w a (.fetch w (s.item w).no (a % 64) r (atomBack ret))
        (.memRead s.port.nextId (a / 64 * 64) false)
      exact ⟨_, exec_atm h (hissue.trans hasks), hout, hpend, hoff, hloam, htxns⟩

end Sys2Proof.Machine
end

section
/-! PROOFS. The memory port: drains, the answers to loads, stores, atomics and DMA, and refusals (R192, R197, R202, R204, R207, R266). -/

namespace Sys2Proof.Machine

/-! ### Drains (R192) -/

/-- The entry of a sector goes out as one write. -/
def State.drained (s : State) (sec : Nat) (e : PEntry) : State :=
  let t := (s.newTxn (sec * 64) .drain).1
  ({ t with port := { t.port with pbuf := t.port.pbuf.map fun (x : PEntry) =>
      if x.sector = sec ∧ x.out.isNone then { x with out := some s.port.nextId } else x } } : State).send (.memWrite s.port.nextId (sec * 64) e.data)

theorem portDrain_goes {s : State} {sec : Nat} {e : PEntry} (he : s.port.entry sec = some e) (hroom : s.txnRoom = true)
    (hout : ∀ x ∈ s.port.pbuf, x.sector = sec → x.out = none) (hfe : s.port.fetching sec = false) : portDrain sec s = some (s.drained sec e) := by
  have hany : s.port.pbuf.any (fun x => x.sector == sec && x.out.isSome) = false := by
    refine List.any_eq_false.mpr fun x hx h => ?_
    obtain ⟨hsec, hsome⟩ := (Bool.and_eq_true _ _).mp h
    rw [hout x hx (beq_iff_eq.mp hsec)] at hsome
    exact Bool.false_ne_true hsome
  unfold portDrain
  rw [he]
  dsimp only
  rw [hroom, hany, hfe]
  rfl

/-! ### Answers -/

section
variable {s : State} {id : Nat} {x : Txn} (hf : s.fastOn = true) (hx : s.port.txns.find? (·.id == id) = some x) (hab : x.abandoned = false)
include hf hx hab

theorem exec_memoryResponse {r : MemResp} (hwf : respWf r = true) (hs : x.kind.suits r = true) :
    exec (.memoryResponse id r) s = .next ((s.dropTxn id).answer x r).activate := by
  refine State.row_checked hwf (State.row_fast hf ?_)
  unfold memAnswer
  rw [hx]
  dsimp only
  rw [hs, hab]
  rfl

theorem exec_remoteRefusal {f : BitVec 16} (hc : f.toNat ∈ faultCodes) :
    exec (.remoteRefusal id f) s = .next ((s.dropTxn id).txnFail x f.toNat).activate := by
  refine State.row_checked (List.contains_iff_mem.mpr hc) (State.row_fast hf ?_)
  unfold remoteRefuse
  rw [hx]
  dsimp only
  rw [hab]
  rfl

end

/-- No transaction of that number is left. -/
theorem dropTxn_gone (s : State) (id : Nat) : ∀ y ∈ (s.dropTxn id).port.txns, y.id ≠ id := fun y hy => by
  simpa using (List.mem_filter.mp hy).2

theorem Txn.modLoad_id (t : Txn) (sec : Nat) (f : Bool → Tab Byte → Bool × Tab Byte) : (t.modLoad sec f).id = t.id := by
  unfold Txn.modLoad
  dsimp only
  split
  · split <;> rfl
  · rfl

theorem dropLine_gone {s : State} {id : Nat} (h : ∀ y ∈ s.port.txns, y.id ≠ id) (sec : Nat) : ∀ y ∈ (s.dropLine sec).port.txns, y.id ≠ id := fun y hy => by
  obtain ⟨z, hz, rfl⟩ := List.mem_map.mp hy
  rw [Txn.modLoad_id]
  exact h z hz

theorem State.memDone_item (s : State) (w : Who) (n : Nat) : (s.memDone w n).item w = { s.item w with pend := .none, off := (s.item w).off + n } :=
  State.item_modItem_self ..

theorem Item.reg_setReg (i : Item) {r : Nat} (v : Word64) (h : r ≠ 0) : (i.setReg r v).reg r = v := by
  unfold Item.reg Item.setReg
  rw [if_neg h, if_neg h]
  exact tabGet_tabSet_self ..

theorem Item.setReg_off (i : Item) (r : Nat) (v : Word64) : (i.setReg r v).off = i.off := by
  unfold Item.setReg
  split <;> rfl

theorem State.raised_shows {s : State} {w : Who} (hb : (s.ctx w).canBear = true) (code d : Nat) :
    ((s.raise w code d).activate.ctx w).phase = .aborting ∧ ((s.raise w code d).activate.item w).record.fault = code := by
  simp [State.item, State.ctx_raise hb]

section
variable {s : State} {x : Txn} {w : Who} {no : Nat}

theorem State.answer_store (hk : x.kind = .store w no) (ha : s.awaits w no x.id = true) :
    s.answer x .ack = (s.dropLine (x.addr / 64)).memDone w 16 := by
  unfold State.answer
  rw [hk]
  dsimp only
  rw [ha]
  rfl

/-- The bytes that answer a load. -/
def State.loadData (s : State) (x : Txn) (k : Bool) (laid : Tab Byte) (bs : List Byte) : List Byte :=
  if k then s.port.forward (x.addr / 64) (laidOver bs laid) else bs

theorem State.answer_load {rd off n : Nat} {k f : Bool} {laid : Tab Byte} {bs : List Byte} (hk : x.kind = .load w no rd off n k f laid)
    (ha : s.awaits w no x.id = true) : ∃ p, s.answer x (.data bs) =
      (({ s with port := p } : State).modItem w fun i => i.setReg rd (BitVec.ofNat 64 (leNat (sliceB (s.loadData x k laid bs) off n)))).memDone w 16 := by
  unfold State.answer
  rw [hk]
  dsimp only
  rw [ha]
  cases f
  · exact ⟨s.port, rfl⟩
  · exact ⟨_, rfl⟩

theorem State.answer_poisoned (ha : s.awaits w no x.id = true)
    (hk : (∃ rd off n k f laid, x.kind = .load w no rd off n k f laid) ∨ (∃ ret w64, x.kind = .atomic w no ret w64) ∨
      ∃ off r ret, x.kind = .fetch w no off r ret) : s.answer x .poisoned = s.raise w 0x030A x.addr ∧ x.kind.suits .poisoned = true := by
  unfold State.answer
  obtain ⟨rd, off, n, k, f, laid, hk⟩ | ⟨ret, w64, hk⟩ | ⟨off, r, ret, hk⟩ := hk <;>
  · rw [hk]
    dsimp only
    rw [ha]
    exact ⟨rfl, rfl⟩

theorem State.answer_atomic {ret : Option Nat} {w64 : Bool} {word : Word64} (hk : x.kind = .atomic w no ret w64) (ha : s.awaits w no x.id = true) :
    ∃ p, s.answer x (.word word) = ({ s with port := p } : State).atomDone w ret (if w64 then word.toNat else word.toNat % 2 ^ 32) := by
  unfold State.answer
  rw [hk]
  dsimp only
  rw [ha]
  by_cases hc : w.core.val = 4
  · rw [if_pos hc]
    exact ⟨_, rfl⟩
  · rw [if_neg hc]
    exact ⟨s.port, rfl⟩

/-- The port buffer once a fetched sector is filled in and the atomic is done there. -/
def State.fetchedAtomic (s : State) (x : Txn) (w : Who) (off : Nat) (r : AtomReq) (bs : List Byte) : State × Nat :=
  (s.pbufFill (x.addr / 64) bs).pbufAtomicBy w (x.addr / 64 * 64 + off) r

theorem State.answer_fetch {off : Nat} {r : AtomReq} {ret : Option Nat} {bs : List Byte} (hk : x.kind = .fetch w no off r ret) (ha : s.awaits w no x.id = true) :
    s.answer x (.data bs) = (s.fetchedAtomic x w off r bs).1.atomDone w ret (s.fetchedAtomic x w off r bs).2 := by
  unfold State.answer
  rw [hk]
  dsimp only
  rw [ha]
  rfl

/-- Byte `j` of a fetched sector under the bytes that the buffer holds of it. -/
def Port.heldByte (p : Port) (sec : Nat) (bs : List Byte) (j : Nat) : Byte :=
  match p.entry sec with
  | some e => tabGet (bs.getD j 0) e.data j
  | none => bs.getD j 0

theorem State.fetchedAtomic_shows {off : Nat} {r : AtomReq} (bs : List Byte) (ho : off + atomBytes r ≤ 64) :
    let held := s.port.heldByte (x.addr / 64) bs
    let old := leNat ((List.range (atomBytes r)).map fun j => held (off + j))
    (s.fetchedAtomic x w off r bs).2 = old ∧
    (∃ e', (s.fetchedAtomic x w off r bs).1.port.entry (x.addr / 64) = some e' ∧ e'.atomic = true ∧
      ∀ j, j < 64 → tabGet 0 e'.data j = if off ≤ j ∧ j < off + atomBytes r then (leBytes (atomBytes r) (atomNew r old)).getD (j - off) 0 else held j) ∧
    ∃ p, (s.fetchedAtomic x w off r bs).1 = { s with port := p } := by
  intro held old
  have hlt : off < 64 := by
    have hn : 0 < atomBytes r := by unfold atomBytes; split <;> decide
    omega
  have hdiv : (x.addr / 64 * 64 + off) / 64 = x.addr / 64 := by omega
  have hmod : (x.addr / 64 * 64 + off) % 64 = off := by omega
  obtain ⟨⟨e, he, hdata⟩, -, b, hb⟩ := s.pbufFill_spec (x.addr / 64) bs
  obtain ⟨h2, ⟨e', he', hatom, -, hnew⟩, -, p, hp⟩ := (s.pbufFill (x.addr / 64) bs).pbufAtomicBy_spec w (x.addr / 64 * 64 + off) r (by rw [hdiv]; exact he)
  rw [hmod] at h2 hnew
  rw [hdiv] at he'
  have hold : leNat ((List.range (atomBytes r)).map fun i => tabGet 0 e.data (off + i)) = old := by
    refine congrArg leNat (List.map_congr_left fun i hi => hdata (off + i) ?_)
    have := List.mem_range.mp hi
    omega
  rw [hold] at h2 hnew
  refine ⟨h2, ⟨e', he', hatom, fun j hj => ?_⟩, p, ?_⟩
  · rw [hnew, hdata j hj]
    rfl
  · exact hp.trans (by rw [hb])

end

/-! ### DMA -/

section
variable {s : State} {x : Txn} {ch d : Nat} {r : DescRun}

theorem State.answer_dmaRead {off n : Nat} {crit : Bool} {laid : Tab Byte} {bs : List Byte} (hk : x.kind = .dmaRead ch d off n crit laid)
    (hr : (s.chan ch).run.find? (fun r => r.no == d && r.waiting == some x.id) = some r) :
    s.answer x (.data bs) = s.modDesc ch d fun y =>
      { y.got (x.addr / 64) ((s.port.forward (x.addr / 64) (laidOver bs laid)).map some) off n with ticks := y.ticks } := by
  unfold State.answer
  rw [hk]
  dsimp only
  unfold State.dmaData
  rw [hr]

theorem State.answer_dmaWrite {n : Nat} (hk : x.kind = .dmaWrite ch d n) : s.answer x .ack = s.performed ch d n x.addr := by
  unfold State.answer
  rw [hk]
  rfl

/-- The descriptor after a sector of it is performed (R197). -/
theorem State.performed_run {n addr : Nat} (hr : (s.chan ch).run.find? (·.no == d) = some r)
    (hb : r.desc.bcEn = true → r.desc.bcClu = pkgIndex s.id → s.scBad r.desc.bcSc = false) :
    { r with inFlight := r.inFlight - 1, done := r.done + n } ∈ ((s.performed ch d n addr).chan ch).run := by
  have hno : r.no = d := by simpa using List.find?_some hr
  have hmem : { r with inFlight := r.inFlight - 1, done := r.done + n } ∈
      ((s.modDesc ch d fun x => { x with inFlight := x.inFlight - 1, done := x.done + n }).chan ch).run :=
    hno ▸ State.mem_modDesc (List.mem_of_find?_eq_some hr) fun x => { x with inFlight := x.inFlight - 1, done := x.done + n }
  unfold State.performed
  rw [hr]
  dsimp only
  by_cases he : r.desc.bcEn = true
  · rw [if_pos he]
    have hdma := State.countTo_dma (s := s.modDesc ch d fun x => { x with inFlight := x.inFlight - 1, done := x.done + n }) (ch := ch) (r := r)
      (addr := addr) (k := .bytes (BitVec.ofNat 32 n)) (hb he)
    rw [State.chan_of (congrArg Dma.ch hdma)]
    exact hmem
  · rw [if_neg he]
    exact hmem

end

/-- Settles O43: each answer by the equation of its transaction's kind. -/
theorem portTransactions : Obligations.PortTransactions := by
  unfold Obligations.PortTransactions
  refine fun s hf => ⟨fun sec e he hroom hout hfe => ?_, fun id x w no hx hid hab hk ha => ?_,
    fun id x w no rd off n k f laid bs hl hx hid hab hk ha hrd => ?_, fun id x w no f hx hid hab hk ha hc => ?_,
    fun id x w no hx hid hab ha hk => ?_, fun id x w no ret w64 word z hx hid hab hk ha hz => ?_, ?_,
    fun id x ch d off n crit laid bs r hx hid hab hk hr hl => ?_, fun id x ch d n r hx hid hab hk hr hb => ?_⟩
  · exact ⟨_, State.row_fast hf (portDrain_goes he hroom hout hfe), by simp [State.drained], by simp [State.drained, State.newTxn],
      by simp [State.drained], by simp [State.drained]⟩
  · subst hid
    have hexec := exec_memoryResponse hf hx hab (r := .ack) rfl (by rw [hk]; rfl)
    rw [State.answer_store hk ((awaits_drop ..).trans ha)] at hexec
    refine ⟨_, hexec, ?_, ?_, ?_, by rw [State.activate_loam]; rfl⟩
    · rw [State.item_activate, State.memDone_item]
    · rw [State.item_activate, State.memDone_item]
      rfl
    · rw [State.activate_port]
      exact dropLine_gone (dropTxn_gone s x.id) _
  · subst hid
    have hexec := exec_memoryResponse hf hx hab (r := .data bs) (by simp [respWf, hl]) (by rw [hk]; rfl)
    obtain ⟨p, hp⟩ := State.answer_load (s := s.dropTxn x.id) (bs := bs) hk ((awaits_drop ..).trans ha)
    rw [hp] at hexec
    refine ⟨_, hexec, ?_, ?_, ?_, by simp [State.memDone]⟩ <;> rw [State.item_activate, State.memDone_item, State.item_modItem_self]
    · exact Item.reg_setReg _ _ hrd
    · exact congrArg (· + 16) (Item.setReg_off ..)
  · subst hid
    have hexec := exec_remoteRefusal hf hx hab hc
    have hfail : (s.dropTxn x.id).txnFail x f.toNat = ((s.dropTxn x.id).dropLine (x.addr / 64)).raise w f.toNat x.addr := by
      unfold State.txnFail
      rw [hk]
      exact if_pos ((awaits_drop ..).trans ha)
    rw [hfail] at hexec
    obtain ⟨hphase, hfault⟩ := State.raised_shows (s := (s.dropTxn x.id).dropLine (x.addr / 64)) (awaits_bear ha) f.toNat x.addr
    refine ⟨_, hexec, hphase, hfault, ?_⟩
    rw [State.activate_port, State.raise_port]
    exact dropLine_gone (dropTxn_gone s x.id) _
  · subst hid
    obtain ⟨hans, hsuits⟩ := State.answer_poisoned (s := s.dropTxn x.id) ((awaits_drop ..).trans ha) hk
    have hexec := exec_memoryResponse hf hx hab (r := .poisoned) rfl hsuits
    rw [hans] at hexec
    obtain ⟨hphase, hfault⟩ := State.raised_shows (s := s.dropTxn x.id) (awaits_bear ha) 0x030A x.addr
    exact ⟨_, hexec, hphase, hfault, by simp⟩
  · subst hid
    have hexec := exec_memoryResponse hf hx hab (r := .word word) rfl (by rw [hk]; rfl)
    obtain ⟨p, hp⟩ := State.answer_atomic (s := s.dropTxn x.id) (word := word) hk ((awaits_drop ..).trans ha)
    rw [hp] at hexec
    obtain ⟨hloam, hpend, hoff, hsyn, -⟩ := State.atomDone_returns (u := s) (y := { s.dropTxn x.id with port := p }) rfl hz
    exact ⟨_, hexec, by rw [State.activate_loam, hloam], by rw [State.item_activate, hpend], by rw [State.item_activate, hoff]; rfl,
      by rw [State.activate_syn, hsyn]; rfl⟩
  · intro id x w no off r ret bs z hx hid hab hk ha hl ho n held old hz
    subst hid
    have hexec := exec_memoryResponse hf hx hab (r := .data bs) (by simp [respWf, hl]) (by rw [hk]; rfl)
    obtain ⟨hold, ⟨e', he', hatom, hdata⟩, p, hp⟩ := State.fetchedAtomic_shows (s := s.dropTxn x.id) (x := x) (w := w) bs ho
    rw [State.answer_fetch hk ((awaits_drop ..).trans ha), hold] at hexec
    obtain ⟨hloam, hpend, hoff, hsyn, hport, -⟩ := State.atomDone_returns (u := s) (y := ((s.dropTxn x.id).fetchedAtomic x w off r bs).1) (by rw [hp]; rfl) hz
    refine ⟨_, e', hexec, by rw [State.activate_loam]; exact hloam, by rw [State.item_activate]; exact hpend, ?_, ?_, ?_, hatom, hdata⟩
    · rw [State.item_activate]
      refine hoff.trans ?_
      rw [hp]
      rfl
    · rw [State.activate_syn]
      refine hsyn.trans ?_
      rw [hp]
      rfl
    · rw [State.activate_port]
      exact (congrArg (Port.entry · (x.addr / 64)) hport).trans he'
  · subst hid
    have hno : r.no = d ∧ r.waiting = some x.id := by simpa using List.find?_some hr
    have hexec := exec_memoryResponse hf hx hab (r := .data bs) (by simp [respWf, hl]) (by rw [hk]; rfl)
    rw [State.answer_dmaRead (s := s.dropTxn x.id) hk hr] at hexec
    refine ⟨_, hexec, by simp, ?_, ?_⟩
    · rw [State.chan_activate, ← hno.1]
      exact State.mem_modDesc (List.mem_of_find?_eq_some hr) _
    · rw [State.chan_activate, State.chan_modDesc]
      rfl
  · subst hid
    have hexec := exec_memoryResponse hf hx hab (r := .ack) rfl (by rw [hk]; rfl)
    rw [State.answer_dmaWrite (s := s.dropTxn x.id) hk] at hexec
    have hbad : r.desc.bcEn = true → r.desc.bcClu = pkgIndex (s.dropTxn x.id).id → (s.dropTxn x.id).scBad r.desc.bcSc = false := fun he _ => (hb he).2
    obtain ⟨hloam, -, hcount, hsyn⟩ := State.performed_shows (s := s.dropTxn x.id) (n := n) (addr := x.addr) hr hbad
    refine ⟨_, hexec, by rw [State.activate_loam, hloam]; rfl, ?_, fun he => ?_, fun he => by rw [State.activate_syn, hsyn he]; rfl⟩
    · rw [State.chan_activate]
      exact State.performed_run hr hbad
    · rw [State.sc_activate, hcount he (hb he).1]
      rfl

end Sys2Proof.Machine
end

section
/-! PROOFS. The staging commands (R29 to R32, R251). -/

namespace Sys2Proof.Machine

/-! ### What each command does -/

section
variable {s : State}

theorem State.strOpen_opens (h : s.str.stage = .empty ∨ s.str.stage = .valid ∨ s.str.stage = .invalid) :
    s.strOpen = ({ s with str := { s.str with stage := .opened, stageBytes := [], valFault := 0, valSection := 0, valOffset := 0, commitDone := false
                                              slotFlip := false } }, 0) := by
  unfold State.strOpen
  rcases h with h | h | h <;> rw [h]

theorem State.strOpen_refused (h : s.str.stage ≠ .empty ∧ s.str.stage ≠ .valid ∧ s.str.stage ≠ .invalid) : s.strOpen = (s, 0x0207) := by
  obtain ⟨hempty, hvalid, hinvalid⟩ := h
  unfold State.strOpen
  split
  · exact absurd ‹_› hempty
  · exact absurd ‹_› hvalid
  · exact absurd ‹_› hinvalid
  · rfl

theorem State.strAbort_drops (h : s.str.stage = .opened ∨ s.str.stage = .validating ∨ s.str.stage = .valid ∨ s.str.stage = .invalid) :
    s.strAbort = ({ s with str := { s.str with stage := .empty } }, 0) := by
  unfold State.strAbort
  rcases h with h | h | h | h <;> rw [h]

theorem State.strAbort_cancels (h : s.str.stage = .journaling ∨ s.str.stage = .pending) : s.strAbort = (s.cancelCommit .empty, 0) := by
  unfold State.strAbort
  rcases h with h | h <;> rw [h]

theorem State.strAbort_refused (h : s.str.stage = .empty ∨ s.str.stage = .committing) : s.strAbort = (s, 0x0207) := by
  unfold State.strAbort
  rcases h with h | h <;> rw [h] <;> rfl

theorem State.strCommit_enters (h : s.str.stage = .valid) (ha : s.mrl.admits .image s.str.stageBytes.length = true) :
    s.strCommit = (({ s with str := { s.str with stage := .journaling, bounds := 0 } } : State).enterImage, 0) := by
  unfold State.strCommit
  rw [if_neg (not_not_intro h)]
  exact if_pos ha

theorem State.strCommit_waits (h : s.str.stage = .valid) (ha : s.mrl.admits .image s.str.stageBytes.length = false) :
    s.strCommit = ({ s with str := { s.str with stage := .journaling, bounds := 0, commitWaits := true }
                            mrl := { s.mrl with compact := s.mrl.compact || s.mayCompact } }, 0) := by
  unfold State.strCommit
  rw [if_neg (not_not_intro h)]
  exact if_neg (by rw [ha]; exact Bool.false_ne_true)

theorem State.strConfirm_confirms (h : s.str.stage = .empty) (ha : s.str.awaitConfirm = true) :
    s.strConfirm = (({ s with str := { s.str with awaitConfirm := false }, pwr := { s.pwr with start := .confirmed } } : State).startWake, 0) := by
  unfold State.strConfirm
  exact if_pos ⟨h, ha⟩

theorem State.strConfirm_refused (h : s.str.stage ≠ .empty ∨ s.str.awaitConfirm = false) : s.strConfirm = (s, 0x0207) := by
  unfold State.strConfirm
  refine if_neg fun hc => ?_
  rcases h with h | h
  · exact h hc.1
  · exact Bool.false_ne_true (h.symm.trans hc.2)

end

theorem startWake_start (s : State) : s.startWake.pwr.start = s.pwr.start := by
  unfold State.startWake State.setPower
  split <;> simp

/-- What a cancelled commit takes back is its own record alone (R34). -/
theorem Mrl.mem_dropQueued (m : Mrl) {k : Nat} {r : JRec} (h : r ∈ m.queue) (hk : r.serial ≠ k) :
    ∃ x ∈ (m.dropQueued k).queue, x.typ = r.typ ∧ x.body = r.body := by
  unfold Mrl.dropQueued
  cases hi : m.queue.findIdx? fun r => r.serial == k with
  | none => exact ⟨r, h, rfl, rfl⟩
  | some i =>
    dsimp only
    obtain ⟨hlt, hserial, -⟩ := List.findIdx?_eq_some_iff_getElem.mp hi
    have hsplit : r ∈ m.queue.take i ∨ r ∈ m.queue.drop (i + 1) := by
      have hmem : r ∈ m.queue.take i ++ m.queue[i] :: m.queue.drop (i + 1) := by
        rw [← List.drop_eq_getElem_cons hlt, List.take_append_drop]
        exact h
      rcases List.mem_append.mp hmem with hleft | hright
      · exact .inl hleft
      · refine .inr ((List.mem_cons.mp hright).resolve_left fun heq => hk ?_)
        rw [heq]
        exact beq_iff_eq.mp hserial
    rcases hsplit with hleft | hright
    · exact ⟨r, List.mem_append_left _ hleft, rfl, rfl⟩
    · exact ⟨_, List.mem_append_right _ (List.mem_map.mpr ⟨r, hright, rfl⟩), rfl, rfl⟩

/-! ### The writes -/

section
variable {p : Party} {s u : State} (hon : s.pwr.state ≠ .off)
include hon

/-- A write to an always-on block that is held (R304). -/
theorem row_aonRow_held {off v : Nat} (he : s.heldEarly p off true = true) :
    s.row (fun s => s.aonRow p off v) = .next { s with heldAon := s.heldAon ++ [.write p off .b4 (BitVec.ofNat 64 v)] } := by
  rw [State.row_on hon, State.aonRow, if_pos he]

theorem strCtrl_done (he : s.heldEarly p 0x1000 true = false) (hp : (accOf p).sup = true) {v : Nat} (hv : 1 ≤ v ∧ v ≤ 5) (h : s.strCtrl v = (u, 0)) :
    s.row (fun s => s.aonRow p 0x1000 v) = .next (u.send (.regAnswer p 0 0)) := by
  rw [strCtrl_row p s hp hon he v hv, h, State.answered_ok]

end

/-- Settles O45: the commands by the equations of their states, the held and the refused ones by the rules of an always-on register. -/
theorem stagingCommands : Obligations.StagingCommands := by
  unfold Obligations.StagingCommands
  refine fun p s hon => ⟨by simp [State.heldEarly], fun he d x hx => ?_, fun he hp => ⟨fun h => ?_, fun h => ?_, fun h => ?_, fun h => ?_,
    fun h => ?_, fun h ha => ?_, fun f i hi h1 h2 h3 h4 h5 => ?_⟩, fun he hp d i hi => ?_⟩
  · have hstage : s.heldEarly p 0x1008 true = true := he
    have hdelta : s.heldEarly p 0x1020 true = true := he
    simp only [List.mem_cons, List.not_mem_nil, or_false] at hx
    obtain rfl | rfl | rfl | rfl | rfl | rfl | rfl := hx
    · exact row_aonRow_held hon he
    · exact row_aonRow_held hon he
    · exact row_aonRow_held hon he
    · exact row_aonRow_held hon he
    · exact row_aonRow_held hon he
    · exact row_aonRow_held hon hstage
    · exact row_aonRow_held hon hdelta
  · exact ⟨_, strCtrl_done hon he hp (v := 1) (by decide) (State.strOpen_opens h), rfl, rfl, rfl, rfl, rfl, rfl, rfl, rfl, rfl, rfl, rfl⟩
  · exact ⟨_, strCtrl_done hon he hp (v := 2) (by decide) (if_pos h), rfl, rfl, rfl, rfl⟩
  · by_cases ha : s.mrl.admits .image s.str.stageBytes.length = true
    · exact ⟨_, strCtrl_done hon he hp (v := 3) (by decide) (State.strCommit_enters h ha), rfl, rfl, rfl, rfl, rfl, fun _ => ⟨rfl, rfl⟩,
        fun hn => absurd (hn.symm.trans ha) Bool.false_ne_true⟩
    · have hn := Bool.eq_false_iff.mpr ha
      refine ⟨_, strCtrl_done hon he hp (v := 3) (by decide) (State.strCommit_waits h hn), rfl, rfl, rfl, rfl, rfl, fun hy => absurd hy ha,
        fun _ => ⟨rfl, rfl, fun hw ho => ?_⟩⟩
      show (s.mrl.compact || (!s.pwr.pfw && !s.pwr.offReq)) = true
      rw [hw, ho]
      exact Bool.or_true _
  · exact ⟨_, strCtrl_done hon he hp (v := 4) (by decide) (State.strAbort_drops h), rfl, rfl, rfl, rfl⟩
  · refine ⟨_, strCtrl_done hon he hp (v := 4) (by decide) (State.strAbort_cancels h), rfl, rfl, rfl, rfl, rfl, fun r hr hw hk => ?_⟩
    have hmrl : ((s.cancelCommit .empty).send (.regAnswer p 0 0)).mrl = s.mrl.dropQueued s.str.imageSerial := if_neg (by rw [hw]; exact Bool.false_ne_true)
    rw [hmrl]
    exact s.mrl.mem_dropQueued hr hk
  · refine ⟨_, strCtrl_done hon he hp (v := 5) (by decide) (State.strConfirm_confirms h ha), by simp, ?_, by simp, by simp, by simp⟩
    exact startWake_start _
  · simp only [List.mem_cons, List.not_mem_nil, or_false, Prod.mk.injEq] at hi
    obtain ⟨rfl, rfl⟩ | ⟨rfl, rfl⟩ | ⟨rfl, rfl⟩ | ⟨rfl, rfl⟩ | ⟨rfl, rfl⟩ := hi
    · exact strCtrl_refused p s hon he 1 (by decide) (State.strOpen_refused (h1 rfl)) hp
    · exact strCtrl_refused p s hon he 2 (by decide) (if_neg (h2 rfl)) hp
    · exact strCtrl_refused p s hon he 3 (by decide) (if_pos (h3 rfl)) hp
    · exact strCtrl_refused p s hon he 4 (by decide) (State.strAbort_refused (h4 rfl)) hp
    · exact strCtrl_refused p s hon he 5 (by decide) (State.strConfirm_refused (h5 rfl)) hp
  · have hstage : s.heldEarly p 0x1008 true = false := he
    have hdelta : s.heldEarly p 0x1020 true = false := he
    simp only [List.mem_cons, List.not_mem_nil, or_false] at hi
    obtain rfl | rfl | rfl | rfl | rfl | rfl | rfl := hi
    · exact aonWrite_denied p s hon 1 0x1000 he _ regAt_ctrl rfl hp
    · exact aonWrite_denied p s hon 2 0x1000 he _ regAt_ctrl rfl hp
    · exact aonWrite_denied p s hon 3 0x1000 he _ regAt_ctrl rfl hp
    · exact aonWrite_denied p s hon 4 0x1000 he _ regAt_ctrl rfl hp
    · exact aonWrite_denied p s hon 5 0x1000 he _ regAt_ctrl rfl hp
    · exact aonWrite_denied p s hon d.toNat 0x1008 hstage _ regAt_stage rfl hp
    · exact aonWrite_denied p s hon d.toNat 0x1020 hdelta _ regAt_delta rfl hp

end Sys2Proof.Machine
end

section
/-! PROOFS. Staging data, validation and delta records (R28, R36, R40). -/

namespace Sys2Proof.Machine

section
variable {p : Party} {s : State} {d : Word32} (hon : s.pwr.state ≠ .off) (he : s.heldEarly p 0x1000 true = false) (hp : (accOf p).sup = true)
include hon he hp

theorem exec_stageData : exec (.strStageData p d) s = .next (State.answered p 0x1008 (s.stageData d.toNat)) :=
  State.row_aonRow hon (show s.heldEarly p 0x1008 true = false from he) regAt_stage rfl (writeFault_ok (by simp [RPriv.allows, hp]) rfl (low32_mask d) rfl)

theorem exec_deltaData : exec (.strDeltaData p d) s = .next ((s.deltaData d.toNat).send (.regAnswer p 0 0)) :=
  (State.row_aonRow hon (show s.heldEarly p 0x1020 true = false from he) regAt_delta rfl (writeFault_ok (by simp [RPriv.allows, hp]) rfl (low32_mask d) rfl)).trans
    (congrArg Host.Outcome.next (State.answered_ok ..))

end

/-- The image a record is for is checked right behind its CRC (R36). -/
theorem deltaCheck_base {im : Image} {seq base : Nat} {b : List Byte} (h : fieldB b 4 4 ≠ base) :
    deltaCheck im seq base b = 0x0204 ∨ deltaCheck im seq base b = 0x0209 := by
  unfold deltaCheck
  dsimp only
  by_cases hcrc : crc32c (b.take 12 ++ List.replicate 4 0 ++ b.drop 16) ≠ fieldB b 12 4
  · exact .inl (if_pos hcrc)
  · rw [if_neg hcrc]
    exact .inr (if_pos (.inl h))

/-- The fault of a complete delta record, or 0 (R36, R243, R247, R249). -/
def State.deltaRefusal (s : State) (b : List Byte) : Nat :=
  let f := if s.pwr.pfw ∨ s.pwr.offReq then 0x0B04 else deltaCheck s.str.live s.str.deltaSeq s.str.shownId b
  if f ≠ 0 then f else if 32768 < s.str.deltaTotal + 64 * sectOf b.length then 0x0B05 else if !s.mrl.admits .delta b.length then 0x0B03 else 0

theorem State.takeDelta_bad {s : State} {b : List Byte} (hf : s.deltaRefusal b ≠ 0) : s.takeDelta b =
    ({ s with str := { s.str with deltaBuf := [], deltaState := 0, deltaFault := s.deltaRefusal b } } : State).logOnly (s.deltaRefusal b) 0 :=
  if_pos hf

theorem State.takeDelta_enters {s : State} {b : List Byte} (hf : s.deltaRefusal b = 0) (hc : s.committing = false) : s.takeDelta b =
    ({ s with str := { s.str with deltaBuf := [], deltaState := 2, deltaTotal := s.str.deltaTotal + 64 * sectOf b.length } } : State).enter .delta b := by
  refine (if_neg (not_not_intro hf)).trans ?_
  unfold State.checkRoom
  exact if_neg fun h => Bool.false_ne_true (hc.symm.trans h.1)

section
variable {s : State} {b : List Byte} (hw : s.pwr.pfw = false) (ho : s.pwr.offReq = false)
include hw ho

theorem State.deltaRefusal_check (hf : deltaCheck s.str.live s.str.deltaSeq s.str.shownId b ≠ 0) :
    s.deltaRefusal b = deltaCheck s.str.live s.str.deltaSeq s.str.shownId b := by
  simp only [State.deltaRefusal, hw, ho, Bool.false_eq_true, or_self, if_false, if_pos hf]

theorem State.deltaRefusal_none (hf : deltaCheck s.str.live s.str.deltaSeq s.str.shownId b = 0)
    (ht : s.str.deltaTotal + 64 * sectOf b.length ≤ 32768) (ha : s.mrl.admits .delta b.length = true) : s.deltaRefusal b = 0 := by
  simp [State.deltaRefusal, hw, ho, hf, ha, ht]

end

theorem validateStep_ok {s : State} {im : Image} (h : s.str.stage = .validating) (hv : validateImage s.id s.str.stageBytes = .ok im) :
    validateStep s = some (({ s with str := { s.str with stage := .valid, staged := im, valFault := 0, valSection := 0, valOffset := 0 } } : State).emit
      11 .validated 0xFF 16 [0]) := by
  unfold validateStep
  rw [if_neg (not_not_intro h), hv]

theorem validateStep_error {s : State} {e : VErr} (h : s.str.stage = .validating) (hv : validateImage s.id s.str.stageBytes = .error e) :
    validateStep s = some ((({ s with str := { s.str with stage := .invalid, valFault := e.fault, valSection := e.sec, valOffset := e.off } } : State).logOnly
      e.fault e.off).emit 11 .validated 0xFF 16 [e.fault]) := by
  unfold validateStep
  rw [if_neg (not_not_intro h), hv]

/-- Settles O46: the data by the states of the slot, the validation by its outcome, the delta record by its length and check. -/
theorem stagingAndDeltas : Obligations.StagingAndDeltas := by
  unfold Obligations.StagingAndDeltas
  refine ⟨⟨fun p d s hon he hp => ⟨fun h hl => ?_, fun h hl => ?_, fun h => ?_⟩, fun s hon => ⟨fun h => ?_, fun h im hv => ?_, fun h e hv => ?_⟩⟩,
    fun p d s hon he hp => ?_⟩
  · have hstep : s.stageData d.toNat = ({ s with str := { s.str with stageBytes := s.str.stageBytes ++ leBytes 4 d.toNat } }, 0) := by
      unfold State.stageData
      rw [if_neg (not_not_intro h), if_neg (Nat.not_lt.mpr hl)]
    have hexec := exec_stageData (d := d) hon he hp
    rw [hstep, State.answered_ok] at hexec
    exact ⟨_, hexec, rfl, rfl, rfl, rfl⟩
  · have hstep : s.stageData d.toNat = ({ s with str := { s.str with stage := .invalid } }, 0x020A) := by
      unfold State.stageData
      rw [if_neg (not_not_intro h), if_pos hl]
    have hexec := exec_stageData (d := d) hon he hp
    rw [hstep] at hexec
    exact ⟨_, hexec, by simp [State.answered], State.answered_last ..⟩
  · have hexec := exec_stageData (d := d) hon he hp
    rw [show s.stageData d.toNat = (s, 0x020A) from if_pos h] at hexec
    exact ⟨_, hexec, by simp [State.answered], State.answered_last ..⟩
  · exact State.row_stay_none (if_pos h)
  · exact ⟨_, State.row_stay hon (validateStep_ok h hv), by simp, by simp, by simp⟩
  · refine ⟨_, State.row_stay hon (validateStep_error h hv), by simp, by simp, by simp, ?_⟩
    rw [State.emit_tel]
    exact logOnly_head ..
  · intro b
    have hexec := exec_deltaData (d := d) hon he hp
    refine ⟨fun hl => ?_, fun h16 hl hw ho => ?_⟩
    · rw [show s.deltaData d.toNat = { s with str := { s.str with deltaBuf := b, deltaState := 1 } } from if_pos hl] at hexec
      exact ⟨_, hexec, rfl, rfl, rfl⟩
    · intro f
      have hfull : s.deltaData d.toNat = s.takeDelta b := if_neg fun h => h.elim (Nat.not_lt.mpr h16) (Nat.not_lt.mpr hl)
      rw [hfull] at hexec
      refine ⟨deltaCheck_base, fun hf => ?_, fun hf ht ha hc => ?_⟩
      · have hcode := State.deltaRefusal_check hw ho hf
        rw [State.takeDelta_bad (by rw [hcode]; exact hf), hcode] at hexec
        exact ⟨_, hexec, by simp [f], by simp, by simp, logOnly_head ..⟩
      · rw [State.takeDelta_enters (State.deltaRefusal_none hw ho hf ht ha) hc] at hexec
        exact ⟨_, hexec, rfl, rfl, rfl⟩

end Sys2Proof.Machine
end

section
/-! PROOFS. A record of the journal becomes durable and has its effect (R31, R35, R37, R247, R249, R250). -/

namespace Sys2Proof.Machine

/-- The record at the front of the queue is written behind the half's used bytes. -/
def State.recordWritten (s : State) (r : JRec) (rest : List JRec) : State :=
  { s with mrl := { s.mrl with mram := s.mrl.mram.write (halfBase s.mrl.active + s.mrl.used) r.bytes, used := s.mrl.used + r.size
                               durable := r.serial, queue := rest } }

section
variable {s : State}

theorem recordStep_none (h : s.mrl.compact = true ∨ s.mrl.queue = [] ∨ s.pwr.pfSafe = true) : recordStep s = none := by
  unfold recordStep
  rcases h with h | h | h
  · exact if_pos (.inl h)
  · rw [h]
    exact ite_self _
  · exact if_pos (.inr (.inl h))

variable {r : JRec} {rest : List JRec} (hc : s.mrl.compact = false) (hs : s.pwr.pfSafe = false) (hr : s.pwr.start ≠ .reset) (hq : s.mrl.queue = r :: rest)
include hc hs hr hq

theorem recordStep_writes (hcommit : r.typ = .commit → s.str.swap = none) (hf : s.slotFails r = false) :
    recordStep s = some ((s.recordWritten r rest).recordDone r).startCompaction := by
  have hwait : ¬ (r.typ = .commit ∧ s.str.swap.isSome = true) := fun h => by simp [hcommit h.1] at h
  unfold recordStep
  rw [if_neg (by simp [hc, hs, hr]), hq]
  dsimp only
  rw [if_neg hwait, hf]
  exact if_neg Bool.false_ne_true

theorem recordStep_fails (hf : s.slotFails r = true) : recordStep s = some ((s.cancelCommit .invalid).logOnly 0x020B 0) := by
  have himage : r.typ = .image := by
    unfold State.slotFails at hf
    simp only [Bool.and_eq_true, beq_iff_eq] at hf
    exact hf.1.1
  have hwait : ¬ (r.typ = .commit ∧ s.str.swap.isSome = true) := fun h => by simp [himage] at h
  unfold recordStep
  rw [if_neg (by simp [hc, hs, hr]), hq]
  dsimp only
  rw [if_neg hwait, hf]
  rfl

end

theorem Mrl.dropQueued_mram (m : Mrl) (k : Nat) : (m.dropQueued k).mram = m.mram := by
  unfold Mrl.dropQueued
  split <;> rfl

/-! ### The effect of each type of record -/

section
variable {s : State} {r : JRec}

theorem State.recordDone_image (ht : r.typ = .image) (hst : s.str.stage = .journaling) (hn : r.serial = s.str.imageSerial) :
    (s.recordDone r).str = { s.str with stage := .pending, bounds := 0 } := by
  unfold State.recordDone
  rw [ht]
  dsimp only
  rw [if_neg (by simp [hst, hn])]

theorem State.recordDone_commit (ht : r.typ = .commit) (hst : s.str.stage = .committing) (hn : r.serial = s.str.record.commit) :
    s.recordDone r = s.commitDone := by
  unfold State.recordDone
  rw [ht]
  exact if_pos ⟨hst, hn⟩

theorem State.recordDone_delta (ht : r.typ = .delta) : s.recordDone r = s.applyDelta r.serial r.time r.body := by
  unfold State.recordDone
  rw [ht]

theorem State.recordDone_seal (ht : r.typ = .seal) :
    s.recordDone r = { s with mrl := { s.mrl with seals := s.mrl.seals ++ [(r.serial, r.time, r.body)] } } := by
  unfold State.recordDone
  rw [ht]

theorem State.recordDone_retire (ht : r.typ = .retire) :
    s.recordDone r = { s with mrl := { s.mrl with seals := retireSeals s.mrl.seals (fieldB r.body 0 4) } } := by
  unfold State.recordDone
  rw [ht]

theorem State.recordDone_telemetry (ht : r.typ = .telemetry) :
    s.recordDone r = { s with tel := { s.tel with hist := addIncrements s.tel.hist r.body } } := by
  unfold State.recordDone
  rw [ht]

theorem State.recordDone_epoch (ht : r.typ = .epoch) : s.recordDone r = { s with tsRun := true } := by
  unfold State.recordDone
  rw [ht]

end

/-! ### A first commit begins its swap (R35) -/

theorem State.swapTick_begins {s : State} (hs : s.str.swap = none) (hp : s.str.stage = .pending) (hl : s.str.liveValid = false) :
    s.swapTick = { s with str := { s.str with swap := some 0 } } := by
  unfold State.swapTick
  rw [hs]
  exact if_pos ⟨hp, by rw [hl]; rfl⟩

theorem State.timeStamp_str (s : State) : ∃ n ts, s.timeStamp = { s with ts := ts, str := { s.str with epochTicks := n } } := by
  unfold State.timeStamp
  split
  · exact ⟨_, _, rfl⟩
  · exact ⟨s.str.epochTicks, s.ts, rfl⟩

/-- Settles O48: the record is written, and its effect is that of its type; a first commit by the swap of a tick. -/
theorem journalRecords : Obligations.JournalRecords := by
  unfold Obligations.JournalRecords
  refine fun s hon => ⟨fun h => State.row_stay_none (recordStep_none h), fun r rest hc hs hr hq hcommit hf => ?_, fun r rest hc hs hr hq hf => ?_,
    fun hpend hst hl hsw => ?_⟩
  · obtain ⟨b, hb⟩ := startCompaction_frame ((s.recordWritten r rest).recordDone r)
    obtain ⟨hmram, hused, hdurable, hqueue, hactive, hserial, hloam⟩ := recordDone_frame (s.recordWritten r rest) r
    have hstep := State.row_stay hon (recordStep_writes hc hs hr hq hcommit hf)
    rw [hb] at hstep
    refine ⟨_, hstep, hmram, hused, hdurable, hqueue, hactive, hserial, hloam, fun ht hst hn => ?_, fun ht hst hn => ?_, fun ht hl hid hn => ?_,
      fun ht => ?_, fun ht => ?_, fun ht => ?_, fun ht => ?_⟩
    · exact State.recordDone_image ht hst hn
    · rw [State.recordDone_commit (s := s.recordWritten r rest) ht hst hn]
      exact ⟨rfl, rfl, rfl, rfl⟩
    · rw [State.recordDone_delta ht]
      exact applyDelta_str (s.recordWritten r rest) r.serial r.time r.body hl hid hn
    · rw [State.recordDone_seal ht]
      exact ⟨rfl, rfl⟩
    · rw [State.recordDone_retire ht]
      exact ⟨rfl, rfl⟩
    · rw [State.recordDone_telemetry ht]
      exact ⟨rfl, rfl⟩
    · rw [State.recordDone_epoch ht]
      exact ⟨rfl, rfl⟩
  · refine ⟨_, State.row_stay hon (recordStep_fails hc hs hr hq hf), by simp [State.cancelCommit], by simp [State.cancelCommit], ?_, ?_⟩
    · rw [State.logOnly_mrl, State.cancelCommit]
      dsimp only
      split
      · rfl
      · exact Mrl.dropQueued_mram ..
    · exact logOnly_head ..
  · obtain ⟨cs, k, d, p, x, o, b, dm, -, -, -, htick⟩ := State.tick_eq hon
    obtain ⟨n, ts, hts⟩ := State.timeStamp_str
      { s with cores := cs, ctr := k, dma := d, port := p, soft := [], tel := x, out := s.out ++ o, dbg := b, damage := dm }
    rw [hts, State.swapTick_begins (by exact hsw) (by exact hst) (by exact hl)] at htick
    refine ⟨s.tick, by rw [step, hpend], ?_⟩
    rw [htick]
    exact ⟨rfl, hst, rfl⟩

end Sys2Proof.Machine
end

section
/-! PROOFS. The telemetry timer, compaction, seals and reading of the journal (R243, R247, R249 to R251, R294). -/

namespace Sys2Proof.Machine

/-! ### The timer (R249) -/

section
variable {s : State}

theorem telemetryStep_early (h : s.mrl.telTicks < 100000000) : telemetryStep s = none := if_pos (.inl h)

theorem State.checkRoom_calm (h : s.committing = false) : s.checkRoom = s := by
  unfold State.checkRoom
  exact if_neg fun hc => Bool.false_ne_true (h.symm.trans hc.1)

theorem telemetryStep_enters (ht : 100000000 ≤ s.mrl.telTicks) (hs : s.pwr.pfSafe = false) (hc : s.committing = false) :
    telemetryStep s = some ({ s with mrl := { s.mrl with telTicks := 0 } } : State).admitTelemetry.admitEpoch := by
  unfold telemetryStep
  rw [if_neg fun h => h.elim (Nat.not_lt.mpr ht) fun h => Bool.false_ne_true (hs.symm.trans h)]
  exact congrArg some (State.checkRoom_calm hc)

/-! ### Compaction (R251) -/

/-- The SERIAL of a compaction: that before the record that follows it (R251, log 36). -/
def Mrl.baseSerial (m : Mrl) : Nat :=
  ((match m.queue with
    | r :: _ => r.serial
    | [] => m.nextSerial) + 2 ^ 32 - 1) % 2 ^ 32

theorem compactStep_none (h : s.mrl.compact = false) : compactStep s = none := by
  unfold compactStep
  exact if_pos (.inl (by rw [h]; rfl))

theorem compactStep_swaps (hc : s.mrl.compact = true) (hs : s.pwr.pfSafe = false) (hr : s.pwr.start ≠ .reset) :
    ∃ mem, compactStep s = some ((({ s with mrl := { s.mrl with mram := mem, active := !s.mrl.active, used := 64 + (s.baseContents s.mrl.baseSerial).length
                                                                halfGen := (s.mrl.halfGen + 1) % 2 ^ 32, compact := false } } : State).bin 0x533 1).retryCommit) := by
  unfold compactStep
  rw [if_neg (by simp [hc, hs, hr])]
  exact ⟨_, rfl⟩

theorem emit_inc (s : State) (cls : Nat) (sub : SubEv) (who size : Nat) (vals : List Nat) : (s.emit cls sub who size vals).tel.inc = s.tel.inc := by
  rw [State.emit_tel]

theorem logOnly_full_inc (s : State) : (s.logOnly 0x0B01 0).tel.inc = s.tel.inc := by
  unfold State.logOnly State.logFault
  dsimp only
  rw [emit_inc, if_neg (by decide)]
  rfl

/-- A waiting commit is taken up behind a compaction, or refused: neither changes the half (R251). -/
theorem State.retryCommit_shows (s : State) : s.retryCommit.mrl.compact = s.mrl.compact ∧ s.retryCommit.mrl.active = s.mrl.active ∧
    s.retryCommit.mrl.halfGen = s.mrl.halfGen ∧ s.retryCommit.mrl.used = s.mrl.used ∧ s.retryCommit.mrl.seals = s.mrl.seals ∧
    s.retryCommit.tel.inc = s.tel.inc ∧ s.retryCommit.loam = s.loam ∧ s.retryCommit.str.live = s.str.live ∧
    s.retryCommit.str.liveValid = s.str.liveValid := by
  unfold State.retryCommit
  split
  · exact ⟨rfl, rfl, rfl, rfl, rfl, rfl, rfl, rfl, rfl⟩
  · dsimp only
    split
    · exact ⟨rfl, rfl, rfl, rfl, rfl, rfl, rfl, rfl, rfl⟩
    · rw [State.logOnly_mrl, State.logOnly_loam, State.logOnly_str, logOnly_full_inc]
      exact ⟨rfl, rfl, rfl, rfl, rfl, rfl, rfl, rfl, rfl⟩

/-! ### Seals (R250) -/

/-- The fault of a submission, or 0, in the order of R250. -/
def State.sealRefusal (s : State) (t : RecType) (body : List Byte) : Nat :=
  if s.pwr.pfw || s.pwr.offReq then 0x0B04 else if s.mrl.sealsFull then 0x0B02 else if !s.mrl.admits t body.length then 0x0B03 else 0

variable {t : RecType} {b : List Byte}

theorem State.submit_enters (h : s.sealRefusal t b = 0) :
    s.submit t b = { s.enter t b with mrl := { (s.enter t b).mrl with sealFault := 0, sealDone := true, sealSerial := s.mrl.nextSerial } } :=
  if_neg (not_not_intro h)

theorem State.submit_refused (h : s.sealRefusal t b ≠ 0) :
    s.submit t b = ({ s with mrl := { s.mrl with sealFault := s.sealRefusal t b, sealDone := true } } : State).logOnly (s.sealRefusal t b) 0 := if_pos h

theorem State.sealRefusal_none (hw : s.pwr.pfw = false) (ho : s.pwr.offReq = false) (hf : s.mrl.sealsFull = false)
    (ha : s.mrl.admits t b.length = true) : s.sealRefusal t b = 0 := by
  unfold State.sealRefusal
  rw [hw, ho, hf, ha]
  rfl

theorem State.sealRefusal_some (h : s.pwr.pfw = true ∨ s.pwr.offReq = true ∨ s.mrl.sealsFull = true ∨ s.mrl.admits t b.length = false) :
    s.sealRefusal t b = if s.pwr.pfw = true ∨ s.pwr.offReq = true then 0x0B04 else if s.mrl.sealsFull = true then 0x0B02 else 0x0B03 := by
  unfold State.sealRefusal
  by_cases hp : s.pwr.pfw = true ∨ s.pwr.offReq = true
  · rw [if_pos ((Bool.or_eq_true _ _).mpr hp), if_pos hp]
  · rw [if_neg (mt (Bool.or_eq_true _ _).mp hp), if_neg hp]
    by_cases hf : s.mrl.sealsFull = true
    · rw [if_pos hf, if_pos hf]
    · rw [if_neg hf, if_neg hf]
      have ha : s.mrl.admits t b.length = false := by tauto
      rw [ha]
      rfl

end

/-! ### The writes -/

theorem mask_lt {v k : Nat} (hk : k ≤ 64) (h : v < 2 ^ k) : v &&& (2 ^ 64 - 1 - (2 ^ k - 1)) = 0 := by
  have hpow : 2 ^ 64 = 2 ^ (64 - k) * 2 ^ k := by rw [← Nat.pow_add, Nat.sub_add_cancel hk]
  have hpos : 0 < 2 ^ k := by positivity
  have hmul : 2 ^ 64 - 1 - (2 ^ k - 1) = (2 ^ (64 - k) - 1) * 2 ^ k := by
    rw [Nat.sub_mul, ← hpow]
    omega
  rw [hmul]
  apply Nat.eq_of_testBit_eq
  intro i
  rw [Nat.testBit_and, Nat.testBit_mul_two_pow, Nat.zero_testBit]
  by_cases hi : k ≤ i
  · rw [Nat.testBit_lt_two_pow (lt_of_lt_of_le h (Nat.pow_le_pow_right (by norm_num) hi)), Bool.false_and]
  · rw [decide_eq_false hi, Bool.false_and, Bool.and_false]

section
variable {p : Party} {s : State} (hon : s.pwr.state ≠ .off) (he : s.heldEarly p 0xC000 true = false) (hp : (accOf p).sup = true)
include hon he hp

theorem exec_sealGo : exec (.mrlSealGo p) s = .next ((s.submit .seal (padTo 44 s.mrl.sealData)).send (.regAnswer p 0 0)) :=
  (State.row_aonRow hon (show s.heldEarly p 0xC03C true = false from he) regAt_go rfl
    (writeFault_ok (by simp [RPriv.allows, hp]) rfl (by decide) rfl)).trans (congrArg Host.Outcome.next (State.answered_ok ..))

theorem exec_sealRetire {n : Word32} : exec (.mrlSealRetire p n) s = .next ((s.submit .retire (leBytes 4 n.toNat)).send (.regAnswer p 0 0)) :=
  (State.row_aonRow hon (show s.heldEarly p 0xC048 true = false from he) regAt_retire rfl
    (writeFault_ok (by simp [RPriv.allows, hp]) rfl (low32_mask n) rfl)).trans (congrArg Host.Outcome.next (State.answered_ok ..))

theorem exec_readAddr {v : Word32} (hv : v.toNat < 2 ^ 21) (h6 : v.toNat % 64 = 0) :
    exec (.mrlReadAddr p v) s = .next ((s.mrlRead v.toNat).send (.regAnswer p 0 0)) := by
  have hrange : allBlocks.range s 0xC050 0 0 v.toNat = true := by
    show (bits v.toNat 5 0 == 0) = true
    rw [beq_iff_eq]
    unfold bits
    omega
  exact (State.row_aonRow hon (show s.heldEarly p 0xC050 true = false from he) regAt_read rfl
    (writeFault_ok (by simp [RPriv.allows, hp]) rfl (mask_lt (k := 21) (by decide) hv) hrange)).trans (congrArg Host.Outcome.next (State.answered_ok ..))

end

/-- Settles O49: the timer and the compaction by their steps, the submissions in the order of R250, the reads by their register. -/
theorem marlCommands : Obligations.MarlCommands := by
  unfold Obligations.MarlCommands
  refine ⟨fun s hon => ⟨fun h => State.row_stay_none (telemetryStep_early h), fun ht hs hc => ?_, fun h => State.row_stay_none (compactStep_none h),
    fun hc hs hr => ?_⟩, fun p s hon => ⟨fun he n x hx => ?_, fun he hp => ⟨fun i t b hi => ?_, fun v hv h6 => ?_⟩⟩⟩
  · refine ⟨_, ⟨.telemetry, s.mrl.nextSerial, s.ts.toNat, telemetryBody (s.tel.inc.filter fun e => e.2 != 0)⟩,
      ⟨.epoch, (s.mrl.nextSerial + 1) % 2 ^ 32, s.ts.toNat, epochBody s.str.epoch.toNat s.liveId⟩,
      State.row_stay hon (telemetryStep_enters ht hs hc), rfl, ?_, rfl, rfl, rfl, rfl, rfl, rfl, rfl⟩
    exact List.append_assoc ..
  · obtain ⟨mem, hstep⟩ := compactStep_swaps hc hs hr
    refine ⟨_, s.mrl.baseSerial, State.row_stay hon hstep, ?_⟩
    obtain ⟨hcompact, hactive, hgen, hused, hseals, hinc, hloam, hlive, hvalid⟩ := State.retryCommit_shows
      (({ s with mrl := { s.mrl with mram := mem, active := !s.mrl.active, used := 64 + (s.baseContents s.mrl.baseSerial).length
                                     halfGen := (s.mrl.halfGen + 1) % 2 ^ 32, compact := false } } : State).bin 0x533 1)
    refine ⟨hcompact, hactive, hgen, hused, hseals, ?_, hloam, hlive, hvalid⟩
    rw [hinc]
    exact tabGet_tabSet_self ..
  · have hgo : s.heldEarly p 0xC03C true = true := he
    have hretire : s.heldEarly p 0xC048 true = true := he
    have hread : s.heldEarly p 0xC050 true = true := he
    simp only [List.mem_cons, List.not_mem_nil, or_false] at hx
    obtain rfl | rfl | rfl := hx
    · exact row_aonRow_held hon hgo
    · exact row_aonRow_held hon hretire
    · exact row_aonRow_held hon hread
  · have hexec : exec i s = .next ((s.submit t b).send (.regAnswer p 0 0)) := by
      obtain ⟨rfl, rfl, rfl⟩ | ⟨n, rfl, rfl, rfl⟩ := hi
      · exact exec_sealGo hon he hp
      · exact exec_sealRetire hon he hp
    refine ⟨fun hw ho hf ha => ?_, fun h => ?_⟩
    · rw [State.submit_enters (State.sealRefusal_none hw ho hf ha)] at hexec
      exact ⟨_, hexec, rfl, rfl, rfl, rfl, rfl, rfl, rfl, rfl, rfl, rfl⟩
    · have hcode := State.sealRefusal_some h
      rw [State.submit_refused (by rw [hcode]; split_ifs <;> decide)] at hexec
      exact ⟨_, hexec, by simp, by simp, by simp, by simpa using hcode, by simp, by simp⟩
  · refine ⟨_, exec_readAddr hon he hp hv h6, ?_, rfl, rfl⟩
    have hbits : bits v.toNat 20 0 = v.toNat := by
      unfold bits
      omega
    show ({ s.mrl with readAddr := v.toNat, readData := s.mrl.mram.read (bits v.toNat 20 0) 64 } : Mrl) = _
    rw [hbits]

end Sys2Proof.Machine
end

section
/-! PROOFS. Epoch boundaries, and what they make of a pending commit (R27, R31). -/

namespace Sys2Proof.Machine

/-- A wake that starts changes the power state, the trace, and what is sent. -/
theorem State.startWake_eq (s : State) : ∃ p b k o, s.startWake = { s with pwr := p, dbg := b, ctr := k, out := o } := by
  unfold State.startWake State.setPower
  split
  · obtain ⟨b, k, h⟩ := State.emit_eq ({ { s with pwr := { s.pwr with wake := some 0, wakeWarned := false } } with
      pwr := { { s.pwr with wake := some 0, wakeWarned := false } with state := .waking } }) 10 .state 0xFF 16 [PState.waking.code]
    rw [h]
    exact ⟨_, _, _, _, rfl⟩
  · exact ⟨s.pwr, s.dbg, s.ctr, s.out, rfl⟩

theorem State.quiescent_startWake (s : State) : s.startWake.quiescent = s.quiescent := by
  obtain ⟨p, b, k, o, h⟩ := s.startWake_eq
  rw [h]
  rfl

/-! ### The sample of a pending commit (R31) -/

section
variable {s : State}

theorem State.sampleCommit_skips (h : s.str.stage ≠ .pending ∨ s.str.swap.isSome ∨ s.clockHeld = true) : s.sampleCommit = s := if_pos h

variable (hp : s.str.stage = .pending) (hs : s.str.swap = none) (hc : s.clockHeld = false)
include hp hs hc

theorem State.sampleCommit_samples : ¬ (s.str.stage ≠ .pending ∨ s.str.swap.isSome ∨ s.clockHeld = true) := by
  simp [hp, hs, hc]

theorem State.sampleCommit_swaps (hq : s.quiescent = true) :
    s.sampleCommit = { s.startWake with str := { s.startWake.str with swap := some 0, bounds := 0 } } :=
  (if_neg (State.sampleCommit_samples hp hs hc)).trans (if_pos (s.quiescent_startWake.trans hq))

theorem State.sampleCommit_counts (hq : s.quiescent = false) (hb : s.str.bounds < 63) :
    s.sampleCommit = { s.startWake with str := { s.startWake.str with bounds := s.startWake.str.bounds + 1 } } := by
  refine (if_neg (State.sampleCommit_samples hp hs hc)).trans ((if_neg ?_).trans (if_neg ?_))
  · rw [s.quiescent_startWake, hq]
    exact Bool.false_ne_true
  · rw [State.startWake_str]
    omega

theorem State.sampleCommit_cancels (hq : s.quiescent = false) (hb : 63 ≤ s.str.bounds) :
    s.sampleCommit = (s.startWake.cancelCommit .valid).logOnly 0x0208 0 := by
  refine (if_neg (State.sampleCommit_samples hp hs hc)).trans ((if_neg ?_).trans (if_pos ?_))
  · rw [s.quiescent_startWake, hq]
    exact Bool.false_ne_true
  · rw [State.startWake_str]
    omega

end

/-- What no sample of a commit changes. -/
structure SampleKept (s t : State) : Prop where
  epoch : t.str.epoch = s.str.epoch
  epochTicks : t.str.epochTicks = s.str.epochTicks
  live : t.str.live = s.str.live
  liveSlot : t.str.liveSlot = s.str.liveSlot
  liveValid : t.str.liveValid = s.str.liveValid
  stageBytes : t.str.stageBytes = s.str.stageBytes
  cores : t.cores = s.cores
  msg : t.msg = s.msg
  dma : t.dma = s.dma
  port : t.port = s.port
  syn : t.syn = s.syn
  loam : t.loam = s.loam

theorem State.sampleCommit_sampleKept (s : State) : SampleKept s s.sampleCommit := by
  obtain ⟨p, b, k, o, hw⟩ := s.startWake_eq
  unfold State.sampleCommit
  dsimp only
  rw [hw]
  split
  · exact ⟨rfl, rfl, rfl, rfl, rfl, rfl, rfl, rfl, rfl, rfl, rfl, rfl⟩
  · split
    · exact ⟨rfl, rfl, rfl, rfl, rfl, rfl, rfl, rfl, rfl, rfl, rfl, rfl⟩
    · split
      · constructor <;> simp [State.cancelCommit]
      · exact ⟨rfl, rfl, rfl, rfl, rfl, rfl, rfl, rfl, rfl, rfl, rfl, rfl⟩

/-! ### The boundary (R27) -/

theorem epochStep_none {s : State} (h : s.str.liveValid = false ∨ s.tsRun = false ∨ s.waitsOn [.epoch] = true ∨ s.str.epochTicks < s.str.live.epochLen) :
    epochStep s = none := by
  unfold epochStep
  refine if_pos ?_
  rcases h with h | h | h | h
  · exact .inl (by rw [h]; rfl)
  · exact .inr (.inl (by rw [h]; rfl))
  · exact .inr (.inr (.inl h))
  · exact .inr (.inr (.inr h))

/-- The state at a boundary, its trace event included. -/
def State.atBoundary (s : State) (b : Dbg) (k : Ctrs) : State :=
  { s with str := { s.str with epoch := s.str.epoch + 1, epochTicks := s.str.epochTicks - s.str.live.epochLen }, dbg := b, ctr := k }

theorem epochStep_bounds {s : State} (hl : s.str.liveValid = true) (hr : s.tsRun = true) (hw : s.waitsOn [.epoch] = false)
    (he : s.str.live.epochLen ≤ s.str.epochTicks) : ∃ b k, epochStep s = some (s.atBoundary b k).sampleCommit := by
  obtain ⟨b, k, hemit⟩ := State.emit_eq ({ s with str := { s.str with epoch := s.str.epoch + 1, epochTicks := s.str.epochTicks - s.str.live.epochLen } })
    13 .boundary 0xFF 32 [s.ts.toNat, s.align.toNat]
  refine ⟨b, k, ?_⟩
  unfold epochStep
  dsimp only
  rw [if_neg (by simp [hl, hr, hw, he]), hemit]
  rfl

/-- A boundary of a live image (R27, R31). -/
theorem epochBoundary_shows {s : State} (hon : s.pwr.state ≠ .off) (hl : s.str.liveValid = true) (hr : s.tsRun = true) (hw : s.waitsOn [.epoch] = false)
    (he : s.str.live.epochLen ≤ s.str.epochTicks) :
    ∃ t, exec .epochBoundary s = .next t ∧ t.str.epoch = s.str.epoch + 1 ∧ t.str.epochTicks = s.str.epochTicks - s.str.live.epochLen ∧
      t.str.live = s.str.live ∧ t.str.liveSlot = s.str.liveSlot ∧ t.str.liveValid = true ∧ t.str.stageBytes = s.str.stageBytes ∧
      t.cores = s.cores ∧ t.msg = s.msg ∧ t.dma = s.dma ∧ t.port = s.port ∧ t.syn = s.syn ∧ t.loam = s.loam ∧
      (s.str.stage ≠ .pending ∨ s.str.swap.isSome ∨ s.clockHeld = true →
        t.str.stage = s.str.stage ∧ t.str.swap = s.str.swap ∧ t.str.bounds = s.str.bounds ∧ t.mrl = s.mrl) ∧
      (s.str.stage = .pending → s.str.swap = none → s.clockHeld = false →
        (s.quiescent = true → t.str.stage = .pending ∧ t.str.swap = some 0 ∧ t.mrl = s.mrl) ∧
        (s.quiescent = false → s.str.bounds < 63 →
          t.str.stage = .pending ∧ t.str.swap = none ∧ t.str.bounds = s.str.bounds + 1 ∧ t.mrl = s.mrl) ∧
        (s.quiescent = false → 63 ≤ s.str.bounds →
          t.str.stage = .valid ∧ t.str.swap = none ∧ t.str.bounds = 0 ∧ t.str.commitWaits = false ∧
          t.tel.log.head? = some ⟨0x0208, 7, false, false, 0, s.ts.toNat % 2 ^ 48⟩)) := by
  obtain ⟨b, k, hstep⟩ := epochStep_bounds hl hr hw he
  have kept := (s.atBoundary b k).sampleCommit_sampleKept
  refine ⟨_, State.row_stay hon hstep, kept.epoch, kept.epochTicks, kept.live, kept.liveSlot, kept.liveValid.trans hl, kept.stageBytes, kept.cores,
    kept.msg, kept.dma, kept.port, kept.syn, kept.loam, fun h => ?_, fun hp hs hc => ⟨fun hq => ?_, fun hq hb => ?_, fun hq hb => ?_⟩⟩
  · rw [State.sampleCommit_skips (s := s.atBoundary b k) h]
    exact ⟨rfl, rfl, rfl, rfl⟩
  · rw [State.sampleCommit_swaps (s := s.atBoundary b k) hp hs hc hq]
    exact ⟨by simpa [State.atBoundary] using hp, rfl, by simp [State.atBoundary]⟩
  · rw [State.sampleCommit_counts (s := s.atBoundary b k) hp hs hc hq hb]
    exact ⟨by simpa [State.atBoundary] using hp, by simpa [State.atBoundary] using hs, by simp [State.atBoundary], by simp [State.atBoundary]⟩
  · rw [State.sampleCommit_cancels (s := s.atBoundary b k) hp hs hc hq hb]
    have hheld : (s.atBoundary b k).startWake.swapHeld = false := by
      unfold State.swapHeld
      rw [State.startWake_str, show (s.atBoundary b k).str.swap = none from hs]
    refine ⟨by simp [State.cancelCommit], ?_, by simp [State.cancelCommit], by simp [State.cancelCommit], (logOnly_head ..).trans ?_⟩
    · rw [State.logOnly_str]
      exact if_neg (by rw [hheld]; exact Bool.false_ne_true)
    · rw [show ((s.atBoundary b k).startWake.cancelCommit .valid).ts = s.ts from State.startWake_ts _]
      rfl

end Sys2Proof.Machine
end

section
/-! PROOFS. The ticks of a swap, the state it derives, and an upset image (R32, R33, R100, R265). -/

namespace Sys2Proof.Machine

/-! ### The ticks of a swap (R32) -/

section
variable {s : State}

theorem State.swapTick_slots (h : s.str.swap = some 1) : s.swapTick = ({ s with str := { s.str with swap := some 2 } } : State).swapSlots := by
  unfold State.swapTick
  rw [h]
  rfl

theorem State.swapTick_derives (h : s.str.swap = some 2) : s.swapTick = ({ s with str := { s.str with swap := some 3 } } : State).deriveAll := by
  unfold State.swapTick
  rw [h]
  rfl

theorem State.swapTick_releases (h : s.str.swap = some 7) : s.swapTick = ({ s with str := { s.str with swap := none } } : State).releaseHeld := by
  unfold State.swapTick
  rw [h]
  rfl

end

/-- A drone tick up to its swap, but for the image unit, whose epoch runs. -/
structure Ticked (s v : State) : Prop where
  mrl : ∃ n, v.mrl = { s.mrl with telTicks := n }
  loam : v.loam = s.loam
  syn : v.syn = s.syn
  bq : v.bq = s.bq
  rings : v.msg.rings = s.msg.rings
  credits : v.msg.credits = s.msg.credits
  held : v.held = s.held
  core : ∀ c, (s.core c).Like (v.core c)

theorem State.tick_ticked {s : State} (h : s.pwr.state ≠ .off) : ∃ v n, s.tick = State.swapTick v ∧ v.str = { s.str with epochTicks := n } ∧ Ticked s v := by
  obtain ⟨cs, k, d, p, x, o, b, dm, -, -, hlike, htick⟩ := State.tick_eq h
  obtain ⟨n, ts, hts⟩ := State.timeStamp_str
    { s with cores := cs, ctr := k, dma := d, port := p, soft := [], tel := x, out := s.out ++ o, dbg := b, damage := dm }
  rw [hts] at htick
  exact ⟨_, n, htick, rfl, ⟨_, rfl⟩, rfl, rfl, rfl, rfl, rfl, rfl, hlike⟩

/-- A step of an empty queue is a tick. -/
theorem step_tick {s : State} (h : s.pending = []) : step s = .next s.tick := by rw [step, h]

/-- At T + 2 the slots change places and the COMMIT record is admitted. -/
theorem State.swapSlots_shows (s : State) : s.swapSlots.str.liveSlot = !s.str.liveSlot ∧ s.swapSlots.str.live = s.str.staged ∧
    s.swapSlots.str.staged = s.str.live ∧ s.swapSlots.str.liveValid = true ∧ s.swapSlots.str.stage = .committing ∧
    s.swapSlots.str.swap = s.str.swap ∧ s.swapSlots.loam = s.loam ∧ s.swapSlots.msg = s.msg ∧
    s.swapSlots.mrl.queue = s.mrl.queue ++ [⟨.commit, s.mrl.nextSerial, s.swapSlots.ts.toNat, commitBody s.str.staged.id s.str.imageSerial s.str.epoch.toNat⟩] := by
  unfold State.swapSlots
  simp [State.enter]

section
variable {old new : Image} {c : Nat}

theorem CoreDerived.of_like {x x' y : Core} (h : x'.Like x) (d : CoreDerived old new c x y) : CoreDerived old new c x' y := by
  obtain ⟨-, hasleep, hsaved⟩ := h
  unfold CoreDerived at *
  rw [hasleep, hsaved] at d
  exact d

theorem RingDerived.of_idle {r : Nat} {P Q : Prop} {x y : Ring} (h : Q → P) (d : RingDerived old new c r P x y) : RingDerived old new c r Q x y :=
  ⟨d.1, fun hne hold hq => d.2.1 hne hold (h hq), d.2.2⟩

end

/-- What step 4 of a swap makes of the state before its tick. -/
theorem Derived.of_ticked {s v t : State} {old new : Image} (h : Ticked s v) (d : Derived old new v t) :
    (∀ (c : Fin 5) (r : Fin 32), RingDerived old new c.val r.val ((s.core c.val).hdl.phase = .idle) (s.ring c.val r.val) (t.ring c.val r.val)) ∧
    (∀ n, t.sc n = if (new.sync n).isSome ∧ ((old.sync n).map fun x => (x.scope, x.owner)) = (new.sync n).map fun x => (x.scope, x.owner)
      then s.sc n else 0) ∧
    ((new.credits.map (·.dest)).Nodup → ∀ k e, new.credit k = some e →
      (t.credit k).avail = if (old.credit k).map (·.allot) = some e.allot then (s.credit k).avail else e.allot - (s.credit k).out) ∧
    (∀ c : Fin 4, CoreDerived old new c.val (s.core c.val) (t.core c.val)) ∧
    ∀ q : Fin 16, t.bqOf q.val = if v.scShared (s.bqOf q.val).notify = true then s.bqOf q.val
      else { s.bqOf q.val with en := false, fill := [], shipped := [] } := by
  have hring : ∀ c r, v.ring c r = s.ring c r := State.ring_of h.rings
  have hsc : ∀ n, v.sc n = s.sc n := State.sc_of (by rw [h.syn])
  have hcredit : ∀ k, v.credit k = s.credit k := State.credit_of h.credits
  have hbq : ∀ q, v.bqOf q = s.bqOf q := fun q => by rw [State.bqOf, h.bq, ← State.bqOf]
  refine ⟨fun c r => ?_, fun n => ?_, fun hn k e he => ?_, fun c => (d.core c).of_like (h.core c.val), fun q => ?_⟩
  · have hd := d.ring c r
    rw [hring] at hd
    exact hd.of_idle fun hidle => (h.core c.val).1.trans hidle
  · rw [d.sc, hsc]
  · rw [d.credit hn k e he, hcredit]
  · rw [d.queue, hbq]

theorem scShared_iff (s : State) (n : Nat) : s.scShared n = true ↔ ∃ x, s.str.live.sync n = some x ∧ x.scope ≠ 0 := by
  unfold State.scShared
  cases s.str.live.sync n <;> simp

/-! ### An upset image (R265) -/

/-- The live image is whole again: no error that was found is left. -/
def State.mendImage (s : State) : State :=
  { s with damage := s.damage.filter fun d => match d with
      | .decoding _ => false
      | _ => true }

section
variable {s : State}

theorem State.mendImage_whole (s : State) :
    (∀ f, Damage.decoding f ∉ s.mendImage.damage) ∧ ∀ d ∈ s.damage, (∀ f, d ≠ .decoding f) → d ∈ s.mendImage.damage := by
  refine ⟨fun f hf => ?_, fun d hd hne => List.mem_filter.mpr ⟨hd, ?_⟩⟩
  · exact Bool.false_ne_true (List.mem_filter.mp hf).2
  · cases d with
    | decoding f => exact absurd rfl (hne f)
    | _ => rfl

theorem decodedAgain_none (h : ∀ f, Damage.decoding f ∉ s.damage) (ok : Bool) : decodedAgain ok s = none := by
  have hany : imgFields.any (fun f => s.damage.contains (.decoding f)) = false :=
    List.any_eq_false.mpr fun f _ hc => h f (List.contains_iff_mem.mp hc)
  unfold decodedAgain
  rw [hany]
  rfl

variable (h : ∃ f, Damage.decoding f ∈ s.damage)
include h

theorem decodedAgain_found : imgFields.any (fun f => s.damage.contains (.decoding f)) = true := by
  obtain ⟨f, hf⟩ := h
  exact List.any_eq_true.mpr ⟨f, by cases f <;> decide, List.contains_iff_mem.mpr hf⟩

theorem decodedAgain_whole : decodedAgain true s = some s.mendImage.releaseHeld := by
  unfold decodedAgain
  rw [decodedAgain_found h]
  rfl

theorem decodedAgain_lost : decodedAgain false s = some { s.mendImage with
    str := { s.str with liveValid := false, live := {}, shownId := 0, awaitConfirm := false }, pwr := { s.pwr with start := .replayed } } := by
  unfold decodedAgain
  rw [decodedAgain_found h]
  rfl

end

theorem State.releaseHeld_nil {s : State} (h : s.held = []) : s.releaseHeld = s := by
  unfold State.releaseHeld
  rw [h]
  rfl

/-- Settles O47: the boundary, the ticks of the swap through what each derives, the decoding by its two ends. -/
theorem epochsAndDecoding : Obligations.EpochsAndDecoding := by
  unfold Obligations.EpochsAndDecoding
  refine ⟨fun s hon => ⟨fun h => State.row_stay_none (epochStep_none h), fun hl hr hw he => epochBoundary_shows hon hl hr hw he⟩,
    fun s hq hon => ⟨fun hs => ?_, fun hs => ?_, fun hs => ?_⟩, fun s hon => ⟨fun hq hs => ?_, fun h ok => State.row_stay_none (decodedAgain_none h ok), fun h => ?_⟩⟩
  · obtain ⟨v, n, htick, hstr, hv⟩ := State.tick_ticked hon
    obtain ⟨m, hmrl⟩ := hv.mrl
    rw [State.swapTick_slots (by rw [hstr]; exact hs)] at htick
    obtain ⟨hslot, hlive, hstaged, hvalid, hstage, hswap, hloam, hmsg, hqueue⟩ := ({ v with str := { v.str with swap := some 2 } } : State).swapSlots_shows
    refine ⟨_, step_tick hq, ?_⟩
    rw [htick, hslot, hlive, hstaged, hvalid, hstage, hswap, hloam, hmsg, hqueue]
    dsimp only
    rw [hstr, hmrl]
    exact ⟨rfl, rfl, rfl, rfl, rfl, rfl, hv.loam, hv.rings, rfl⟩
  · intro old new
    obtain ⟨v, n, htick, hstr, hv⟩ := State.tick_ticked hon
    rw [State.swapTick_derives (by rw [hstr]; exact hs)] at htick
    obtain ⟨v', hv'⟩ : ∃ v' : State, v' = { v with str := { v.str with swap := some 3 } } := ⟨_, rfl⟩
    have hstr' : v'.str = { s.str with epochTicks := n, swap := some 3 } := by rw [hv', hstr]
    have hticked : Ticked s v' := by
      rw [hv']
      exact ⟨hv.mrl, hv.loam, hv.syn, hv.bq, hv.rings, hv.credits, hv.held, hv.core⟩
    have hd := v'.deriveAll_derived
    rw [← hv'] at htick
    rw [hstr'] at hd
    obtain ⟨hring, hsc, hcredit, hcore, hqueue⟩ := hd.of_ticked hticked
    refine ⟨_, (step_tick hq).trans (congrArg _ htick), ?_, ?_, hring, hsc, hd.gone, hcredit, hcore, fun q => ⟨fun hx => ?_, fun hx => ?_⟩⟩
    · rw [hd.str, hstr']
    · rw [hd.str, hstr']
    · have hshared : v'.scShared (s.bqOf q.val).notify = true := by
        rw [scShared_iff, hstr']
        exact hx
      rw [hqueue, if_pos hshared]
    · have hshared : ¬ v'.scShared (s.bqOf q.val).notify = true := by
        rw [scShared_iff, hstr']
        rintro ⟨x, hsync, hscope⟩
        exact hscope (hx x hsync)
      rw [hqueue, if_neg hshared]
      exact ⟨rfl, rfl, rfl, rfl⟩
  · obtain ⟨v, n, htick, hstr, hv⟩ := State.tick_ticked hon
    rw [State.swapTick_releases (by rw [hstr]; exact hs)] at htick
    exact ⟨_, (step_tick hq).trans (congrArg _ htick), rfl, hv.held, by rw [hstr]⟩
  · obtain ⟨hnone, hfound⟩ := State.tick_finds hon hs
    exact ⟨_, step_tick hq, hnone, hfound⟩
  · intro whole
    have hwhole : whole s.mendImage := s.mendImage_whole
    refine ⟨fun hheld => ⟨_, State.row_stay hon (decodedAgain_whole h), ?_⟩, ⟨s.mendImage, State.row_stay hon (decodedAgain_whole h), hwhole, rfl, rfl, rfl⟩,
      _, State.row_stay hon (decodedAgain_lost h), hwhole, rfl, rfl, rfl, rfl, rfl, rfl⟩
    rw [State.releaseHeld_nil (s := s.mendImage) hheld]
    exact ⟨hwhole, rfl, rfl, rfl, rfl, rfl⟩

end Sys2Proof.Machine
end

section
/-! PROOFS. Idle, Nap, Sleep and the wake (R234, R235, R237, R238). -/

namespace Sys2Proof.Machine

/-! ### Idle and Nap (R234, R235) -/

section
variable {s : State}

theorem State.triggerDue_of_wakeDue (h : s.wakeDue = true) : s.triggerDue = true := by
  unfold State.triggerDue
  rw [h]
  exact Bool.or_true _

theorem idleStep_enters (ha : s.pwr.state = .active) (hc : s.clockOn = true) (hn : s.pwr.start ≠ .confirmed) (hw : s.hasWork = false)
    (hd : s.wakeDue = false) : idleStep s = some (({ s with pwr := { s.pwr with idleTicks := 0 } } : State).setPower .idle) :=
  if_pos ⟨ha, hc, hn, by rw [hw]; rfl, by rw [hd]; rfl⟩

theorem idleStep_none (h : s.hasWork = true ∨ s.wakeDue = true) : idleStep s = none := by
  unfold idleStep
  refine if_neg fun ⟨_, _, _, hw, hd⟩ => ?_
  rcases h with h | h
  · rw [h] at hw
    exact Bool.false_ne_true hw
  · rw [h] at hd
    exact Bool.false_ne_true hd

theorem napStep_none (h : s.hasWork = true ∨ s.triggerDue = true ∨ s.pwr.napAfter = 0 ∨ s.pwr.idleTicks < s.pwr.napAfter * 10) : napStep s = none := by
  unfold napStep
  refine if_neg fun ⟨_, _, _, hnap, hidle, htrigger, hwork, _⟩ => ?_
  rcases h with h | h | h | h
  · rw [h] at hwork
    exact Bool.false_ne_true hwork
  · rw [h] at htrigger
    exact Bool.false_ne_true htrigger
  · exact hnap h
  · exact Nat.not_lt.mpr hidle h

theorem napStep_enters (hi : s.pwr.state = .idle) (hc : s.clockOn = true) (hn : s.pwr.start ≠ .confirmed) (ha : s.pwr.napAfter ≠ 0)
    (ht : s.pwr.napAfter * 10 ≤ s.pwr.idleTicks) (hd : s.triggerDue = false) (hw : s.hasWork = false) (hs : s.str.swap = none) :
    napStep s = some ((({ s with pwr := { s.pwr with fclk := 0 } } : State).setPower (if s.allAsleep then .sleep else .nap)).send .clockStop) :=
  if_pos ⟨hi, hc, hn, ha, ht, by rw [hd]; rfl, by rw [hw]; rfl, by rw [hs]; rfl⟩

end

/-! ### The wakes (R237) -/

/-- The state once a trigger has started the wake of the cluster. -/
def State.wokenBy (s : State) : Trigger → State
  | .traffic => s.startWake.wakeTargets
  | .watchdog w => s.startWake.wakeCore w.core.val
  | _ => s.startWake

/-- A sleeping core whose wake a trigger begins beside that of the cluster. -/
def State.Wakes (s : State) (g : Trigger) (c : Nat) : Prop :=
  (s.core c).asleep = true ∧ (s.core c).wakeTick = none ∧
    ((g = .traffic ∧ c < 4 ∧ s.heldFor c = true ∧ coreOn s.str.live.coreEn c = true) ∨ ∃ w : Who, g = .watchdog w ∧ w.core.val = c)

section
variable {s : State} {g : Trigger}

theorem wakeStep_low (hl : s.pwr.state = .nap ∨ s.pwr.state = .sleep)
    (hg : (g = .traffic ∧ s.held ≠ []) ∨ (∃ q, g = .batch q ∧ (deadlineShip q.val s).isSome = true) ∨
      (∃ w, g = .watchdog w ∧ (s.item w).abort.isSome = true) ∨ (g = .epoch ∧ s.str.swap.isSome = true) ∨ (g = .stayUp ∧ s.pwr.stayUp = true)) :
    wakeStep g s = some (s.wokenBy g) := by
  have hlow : (s.pwr.state == .nap || s.pwr.state == .sleep) = true := by simpa using hl
  unfold wakeStep
  obtain ⟨rfl, h⟩ | ⟨q, rfl, h⟩ | ⟨w, rfl, h⟩ | ⟨rfl, h⟩ | ⟨rfl, h⟩ := hg
  · exact if_pos ⟨hlow, by simpa using h⟩
  · exact if_pos ⟨hlow, h⟩
  · exact if_pos ⟨hlow, h⟩
  · exact if_pos ⟨hlow, h⟩
  · exact if_pos ⟨hlow, h⟩

theorem State.wokenBy_wakes {c : Nat} (h : s.Wakes g c) : (s.wokenBy g).core c = { s.core c with wakeTick := some 0 } := by
  obtain ⟨hasleep, htick, ⟨rfl, hlt, hheld, hon⟩ | ⟨w, rfl, hw⟩⟩ := h
  · rw [State.wokenBy, wakeTargets_core, startWake_heldFor, startWake_str, startWake_core, if_pos ⟨hlt, hheld, hon, hasleep, htick⟩]
  · rw [State.wokenBy, wakeCore_core, startWake_core, if_pos ⟨hw.symm, hasleep, htick⟩]

theorem State.wokenBy_stays {c : Nat} (h : ¬ s.Wakes g c) : (s.wokenBy g).core c = s.core c := by
  cases g with
  | traffic =>
    rw [State.wokenBy, wakeTargets_core, startWake_heldFor, startWake_str, startWake_core]
    exact if_neg fun ⟨hlt, hheld, hon, hasleep, htick⟩ => h ⟨hasleep, htick, .inl ⟨rfl, hlt, hheld, hon⟩⟩
  | watchdog w =>
    rw [State.wokenBy, wakeCore_core, startWake_core]
    exact if_neg fun ⟨hw, hasleep, htick⟩ => h ⟨hasleep, htick, .inr ⟨w, rfl, hw.symm⟩⟩
  | _ => exact startWake_core s c

theorem wakeStep_core {c : Fin 4} (ha : (s.core c.val).asleep = true) (ht : (s.core c.val).wakeTick = none)
    (hc : coreOn s.str.live.coreEn c.val = true)
    (hw : (s.core c.val).nq ≠ [] ∨ (s.core c.val).uq ≠ [] ∨ s.ringWork c.val = true ∨ s.heldFor c.val = true ∨ s.pwr.stayUp = true) :
    wakeStep (.core c) s = some (s.wakeCore c.val) :=
  if_pos ⟨ha, by rw [ht]; rfl, hc, by simpa using hw⟩

end

/-! ### The clock (R238) -/

section
variable {s : State} {n : Nat}

theorem clockStable_arrives {mhz : Nat} (hw : s.pwr.wake = some n) (hm : mhz ≠ 0) (ha : s.pwr.clkArrived = none) :
    clockStable mhz s = some ({ s with pwr := { s.pwr with clkArrived := some mhz } } : State).endHold := by
  unfold clockStable
  exact if_neg (by simp [hw, hm, ha])

theorem clockStable_none {mhz : Nat} (h : mhz = 0 ∨ s.pwr.clkArrived.isSome = true) : clockStable mhz s = none :=
  if_pos (h.imp_right .inr)

theorem clockLate_none (hw : s.pwr.wake = some n) (h : n < 1000 ∨ s.pwr.wakeWarned = true ∨ s.pwr.clkArrived.isSome = true) : clockLate s = none := by
  unfold clockLate
  rw [hw]
  exact if_pos h

end

/-- Settles O50: the entries and their bars, the triggers, and the arrival of the clock. -/
theorem powerStates : Obligations.PowerStates := by
  unfold Obligations.PowerStates
  intro s hon wakes
  refine ⟨fun ha hc hn hw hd => ?_, fun h => ⟨State.row_stay_none (idleStep_none (.inl h)), State.row_stay_none (napStep_none (.inl h))⟩,
    fun h => ⟨State.row_stay_none (idleStep_none (.inr h)), State.row_stay_none (napStep_none (.inr (.inl (State.triggerDue_of_wakeDue h))))⟩,
    fun h => State.row_stay_none (napStep_none ?_), fun hi hc hn ha ht hd hw hs => ?_, fun g hl hg => ?_, fun c ha ht hc hw => ?_,
    fun mhz n hst hw => ⟨fun h => State.row_stay_none (clockStable_none (h.imp_left (congrArg BitVec.toNat))), fun hm ha hh => ?_, fun hm ha hh => ?_⟩,
    fun n hw => ⟨fun h => State.row_stay_none (clockLate_none hw h), fun hn hwarned ha => pwrClock_late hon n hw hn hwarned ha⟩⟩
  · exact ⟨_, State.row_stay hon (idleStep_enters ha hc hn hw hd), by simp [State.setPower], by simp [State.setPower], by simp, by simp, by simp, by simp⟩
  · rcases h with h | h
    · exact .inr (.inl (by rw [State.triggerDue, h]; rfl))
    · exact .inr h
  · exact ⟨_, State.row_stay hon (napStep_enters hi hc hn ha ht hd hw hs), by simp [State.setPower], by simp [State.setPower], by simp, by simp, by simp,
      by simp, by simp⟩
  · obtain ⟨t, ht, hstate, hwake, hout, hmsg, hloam, hstr, hheld⟩ := wakeTrigger_low hon g hl hg
    have heq : s.wokenBy g = t := Host.Outcome.next.inj ((State.row_stay hon (wakeStep_low hl hg)).symm.trans ht)
    refine ⟨t, ht, hstate, hwake, hout, hmsg, hloam, hstr, hheld, fun c => ⟨fun h => ?_, fun h => ?_⟩⟩
    · rw [← heq]
      exact State.wokenBy_wakes h
    · rw [← heq]
      exact State.wokenBy_stays h
  · obtain ⟨hpwr, -, -, hloam, -, -⟩ := wakeCore_frame s c.val
    refine ⟨_, State.row_stay hon (wakeStep_core ha ht hc hw), ?_, fun k hk => ?_, hpwr, hloam⟩
    · rw [wakeCore_core, if_pos ⟨rfl, ha, ht⟩]
    · rw [wakeCore_core, if_neg fun h => hk h.1]
  · have hm' : mhz.toNat ≠ 0 := fun h => hm (BitVec.eq_of_toNat_eq h)
    have hstep := State.row_stay hon (clockStable_arrives hw hm' ha)
    obtain ⟨hpwr, hheld, hcores, hmsg, hloam, hstr, -⟩ := finishWake_ends (s := { s with pwr := { s.pwr with clkArrived := some mhz.toNat } }) hw rfl hst hh
    exact ⟨_, hstep, by rw [hpwr], by rw [hpwr], by rw [hpwr], by rw [hpwr], hheld, hcores, hmsg, hloam, hstr⟩
  · have hm' : mhz.toNat ≠ 0 := fun h => hm (BitVec.eq_of_toNat_eq h)
    have hstep := State.row_stay hon (clockStable_arrives hw hm' ha)
    rw [State.endHold, finishWake_waits (s := { s with pwr := { s.pwr with clkArrived := some mhz.toNat } }) (.inr (.inr (.inr hh)))] at hstep
    exact hstep

end Sys2Proof.Machine
end

section
/-! PROOFS. Core Sleep and core wake, and what the save region holds (R59, R60, R236, R239). -/

namespace Sys2Proof.Machine

/-! ### The header that declares all of a core's stores -/

/-- The header of `State.wholeCore`, by the array edge. -/
def wholeHdr (k : Nat) : Hdr :=
  { kaoLen := 6 * (4 ^ k / 1024), vb := [(0, 4 ^ k / 1024), (0, 4 ^ k / 1024), (0, 4 ^ k / 1024), (0, 4 ^ k / 1024)] }

section
variable {k : Nat} (h5 : 5 ≤ k) (h8 : k ≤ 8)
include h5 h8

theorem wholeHdr_kaolin : 1024 * (wholeHdr k).kaoLen = 6 * (2 ^ k * 2 ^ k) := by
  interval_cases k <;> rfl

theorem wholeHdr_vbParts : (wholeHdr k).vbParts = [(0, 0, 2 ^ k * 2 ^ k), (1, 0, 2 ^ k * 2 ^ k), (2, 0, 2 ^ k * 2 ^ k), (3, 0, 2 ^ k * 2 ^ k)] := by
  interval_cases k <;> rfl

theorem mem_wholeHdr_vbParts {p : Nat × Nat × Nat} : p ∈ (wholeHdr k).vbParts ↔ p.1 < 4 ∧ p.2 = (0, 2 ^ k * 2 ^ k) := by
  obtain ⟨v, a, b⟩ := p
  rw [wholeHdr_vbParts h5 h8]
  simp only [List.mem_cons, Prod.mk.injEq, List.not_mem_nil, or_false]
  generalize 2 ^ k * 2 ^ k = n
  omega

theorem wholeHdr_fits : (wholeHdr k).Fits (2 ^ k) := by
  refine ⟨?_, fun p hp => ?_⟩
  · rw [show (wholeHdr k).kaoBase = 0 from rfl, Nat.zero_add, wholeHdr_kaolin h5 h8]
  · obtain ⟨hv, hp⟩ := (mem_wholeHdr_vbParts h5 h8).mp hp
    refine ⟨hv, by rw [hp, Nat.zero_add], ?_⟩
    rw [hp]
    interval_cases k <;> decide

end

/-! ### The save region of a core -/

/-- The save region of a core, in `m`, holds the stores of `k` at their places of R59. -/
def State.Keeps (s : State) (c : Nat) (k : Core) (m : Mem) : Prop :=
  (∀ x < 6 * (2 ^ s.id.edgeLog2 * 2 ^ s.id.edgeLog2), m.get (s.saveBase c + x) = k.kaolin.cells.get x) ∧
  (∀ v < 4, ∀ x < 2 ^ s.id.edgeLog2 * 2 ^ s.id.edgeLog2, m.get (s.saveVbAt c v + x) = k.vb.cells.get (65536 * v + x)) ∧
  (∀ i < 512, m.read (s.saveBase c + Config.saveMasks (2 ^ s.id.edgeLog2) + 8 * i) 8 = leBytes 8 (tabGet 0 k.masks i).toNat) ∧
  (∀ i < 1024, m.read (s.saveBase c + Config.saveStats (2 ^ s.id.edgeLog2) + 4 * i) 4 = leBytes 4 (tabGet 0 k.stats i).toNat)

section
variable {s : State} {c : Nat} (hs : s.Sound) (hl : s.loam.Clean) (hk : (s.core c).kaolin.Clean) (hv : (s.core c).vb.Clean)
  (h5 : 5 ≤ s.id.edgeLog2) (h8 : s.id.edgeLog2 ≤ 8)
include hs hl hk hv h5 h8

/-- A save of a whole core fills its region and leaves what is beside it. -/
theorem State.saveWhole_keeps : s.Keeps c (s.core c) (s.saveCore c s.wholeCore).loam.cells ∧
    ∀ x, x < s.saveBase c ∨ s.saveBase c + Config.saveLen (2 ^ s.id.edgeLog2) ≤ x → (s.saveCore c s.wholeCore).loam.cells.get x = s.loam.cells.get x := by
  obtain ⟨⟨hkao, hvb, hmask, hstat⟩, hrest⟩ := State.saveCore_holds (c := c) (h := s.wholeCore) hs.1 hl hk hv (wholeHdr_fits h5 h8)
  refine ⟨⟨fun x hx => hkao x (Nat.zero_le _) ?_, fun v hv x hx => hvb (v, 0, _) ((mem_wholeHdr_vbParts h5 h8).mpr ⟨hv, rfl⟩) x (Nat.zero_le _) ?_, hmask, hstat⟩, hrest⟩
  · rw [show (s.wholeCore).kaoBase = 0 from rfl, Nat.zero_add]
    exact (wholeHdr_kaolin h5 h8).symm ▸ hx
  · rwa [Nat.zero_add]

/-- A restore of a whole core gives it what its region holds. -/
theorem State.restoreWhole_keeps : ∃ t, s.restoreCore c s.wholeCore = (t, false) ∧ t.loam = s.loam ∧ s.Keeps c (t.core c) s.loam.cells := by
  obtain ⟨hkw, hvw, -⟩ := hs.core c
  obtain ⟨t, ht, hloam, hkao, hvb, hmask, hstat⟩ := State.restoreCore_holds (c := c) (h := s.wholeCore) hl hk hv hkw hvw (wholeHdr_fits h5 h8)
  refine ⟨t, ht, hloam, fun x hx => hkao x (Nat.zero_le _) ?_, fun v hv x hx => hvb (v, 0, _) ((mem_wholeHdr_vbParts h5 h8).mpr ⟨hv, rfl⟩) x (Nat.zero_le _) ?_, hmask, hstat⟩
  · rw [show (s.wholeCore).kaoBase = 0 from rfl, Nat.zero_add]
    exact (wholeHdr_kaolin h5 h8).symm ▸ hx
  · rwa [Nat.zero_add]

end

/-! ### The steps -/

/-- The steps of Core Sleep run: the agents do, or the cluster is in Nap with no hold on (R236). -/
def State.CoreRuns (s : State) : Prop :=
  s.fastOn = true ∨ (s.pwr.state = .nap ∧ s.pwr.start = .released ∧ s.clockHeld = false ∧ s.swapHeld = false ∧ s.waitsOn imgFields = false)

section
variable {s t : State} {f : State → Option State} {l : List ImgField}

theorem State.waitsOn_part (h : s.waitsOn imgFields = false) (l : List ImgField) : s.waitsOn l = false := by
  unfold State.waitsOn at h ⊢
  rw [List.any_eq_false] at h ⊢
  intro x _
  exact h x (by cases x <;> decide)

theorem State.coreClock_none (h : f s = none) : s.row (fun s => s.coreClock f l) = .next s := by
  have hclock : s.coreClock f l = s := by
    unfold State.coreClock
    split
    · rw [h]; rfl
    · exact State.fast_none h
  rw [State.row, hclock, ite_self]

/-- A step of Core Sleep that runs changes what it says, but for the marks of an activity. -/
theorem State.coreClock_runs (hr : s.CoreRuns) (h : f s = some t) :
    s.row (fun s => s.coreClock f l) = .next t ∨ s.row (fun s => s.coreClock f l) = .next t.activate := by
  by_cases hnap : s.pwr.state = .nap ∧ s.pwr.start = .released ∧ !s.clockHeld ∧ !s.swapHeld ∧ !s.waitsOn l
  · left
    rw [State.row_on (by rw [hnap.1]; simp), State.coreClock, if_pos hnap, h]
    rfl
  · right
    obtain hf | ⟨h1, h2, h3, h4, h5⟩ := hr
    · rw [State.row_on (State.fastOn_on hf), State.coreClock, if_neg hnap, State.fast_some hf h]
    · exact absurd ⟨h1, h2, by simp [h3], by simp [h4], by simp [State.waitsOn_part h5]⟩ hnap

/-- What a step of Core Sleep leaves shows in the cores and in Loam. -/
theorem State.coreClock_shows (hr : s.CoreRuns) (h : f s = some t) :
    ∃ u, s.row (fun s => s.coreClock f l) = .next u ∧ (∀ k, u.core k = t.core k) ∧ u.loam = t.loam := by
  obtain h | h := State.coreClock_runs hr h
  · exact ⟨_, h, fun _ => rfl, rfl⟩
  · exact ⟨_, h, State.core_activate t, State.activate_loam t⟩

end

section
variable {s : State} {c : Nat}

theorem coreSleepStart_saves (he : coreOn s.str.live.coreEn c = true) (hc : s.pwr.csleep.testBit c = true) (ha : s.pwr.sleepAfter ≠ 0)
    (hi : s.pwr.sleepAfter * 1000 ≤ (s.core c).idleTicks) (hq : s.coreQuiet c = true) (hz : (s.core c).asleep = false)
    (hv : (s.core c).sleepSaving = false) (hu : s.pwr.stayUp = false) (hh : s.heldFor c = false) :
    coreSleepStart c s = some (s.modCore c fun x => { x with sleepSaving := true }) :=
  if_pos ⟨he, hc, ha, hi, hq, by rw [hz]; rfl, by rw [hv]; rfl, by rw [hu]; rfl, by rw [hh]; rfl⟩

theorem coreSleepStart_none (h : s.heldFor c = true) : coreSleepStart c s = none :=
  if_neg fun ⟨_, _, _, _, _, _, _, _, hn⟩ => by simp [h] at hn

theorem coreSleepDone_none (h : (s.core c).sleepSaving = false) : coreSleepDone c s = none :=
  if_pos (by rw [h]; rfl)

theorem coreSleepDone_abandons (hv : (s.core c).sleepSaving = true) (h : s.coreQuiet c = false ∨ s.heldFor c = true ∨ s.pwr.stayUp = true) :
    coreSleepDone c s = some (s.modCore c fun x => { x with sleepSaving := false }) :=
  (if_neg (by simp [hv])).trans (if_pos (by simpa using h))

/-- The core whose stores are saved and whose power is off. -/
def Core.slept (x : Core) : Core :=
  { x with sleepSaving := false, asleep := true, sleepSaved := true, kaolin := {}, vb := {}, masks := [], ramp := 0, front := none, back := none, sumS := [], sumT := [] }

theorem Core.slept_stats (x : Core) : x.slept.stats = x.stats := rfl

theorem coreSleepDone_sleeps (hv : (s.core c).sleepSaving = true) (hq : s.coreQuiet c = true) (hh : s.heldFor c = false) (hu : s.pwr.stayUp = false) :
    ∃ t, coreSleepDone c s = some t ∧ t.core c = ((s.saveCore c s.wholeCore).core c).slept ∧ t.loam = (s.saveCore c s.wholeCore).loam := by
  refine ⟨_, (if_neg (by simp [hv])).trans (if_neg (by simp [hq, hh, hu])), ?_, ?_⟩
  all_goals split
  · rw [State.core_setPower]; exact State.core_modCore_self ..
  · exact State.core_modCore_self ..
  · rw [State.setPower_loam]; exact State.modCore_loam ..
  · exact State.modCore_loam ..

theorem coreWakeStep_early {n : Nat} (hw : (s.core c).wakeTick = some n) (h : n < 3800) : coreWakeStep c s = none := by
  unfold coreWakeStep
  dsimp only
  rw [hw]
  exact if_pos (.inr h)

/-- What the wake of a core gives it back, and whether an uncorrectable error was met (R239). -/
def State.coreBack (s : State) (c : Nat) : State × Bool :=
  if (s.core c).sleepSaved then s.restoreCore c s.wholeCore
  else (s.modCore c (fun x => { x with kaolin := {}, vb := {}, masks := [], stats := [] }), false)

/-- A core that is back from core Sleep. -/
def Core.awake (x : Core) : Core := { x with asleep := false, sleepSaved := false, wakeTick := none, idleTicks := 0 }

theorem coreWakeStep_wakes {n : Nat} (ha : (s.core c).asleep = true) (hw : (s.core c).wakeTick = some n) (h : 3800 ≤ n) :
    ∃ t, coreWakeStep c s = some t ∧ (∀ k, t.core k = ((s.coreBack c).1.modCore c Core.awake).core k) ∧ t.loam = (s.coreBack c).1.loam := by
  refine ⟨if (s.coreBack c).2 then ((s.coreBack c).1.modCore c Core.awake).logFault 0x0308 c false false (s.saveBase c)
    else (s.coreBack c).1.modCore c Core.awake, ?_, fun k => ?_, ?_⟩
  · unfold coreWakeStep
    dsimp only
    rw [hw]
    exact if_neg fun hn => hn.elim (by simp [ha]) (Nat.not_lt.mpr h)
  all_goals split
  · exact State.core_logFault ..
  · rfl
  · rw [State.logFault_loam, State.modCore_loam]
  · exact State.modCore_loam ..

end

/-- Settles O51. -/
theorem coreSleep : Obligations.CoreSleep := by
  unfold Obligations.CoreSleep
  intro c s running e clean saved
  refine ⟨fun hr he hc ha hi hq hz hv hu hh => ?_, fun hh => State.coreClock_none (coreSleepStart_none hh), fun hr hv h => ?_,
    fun hv => State.coreClock_none (coreSleepDone_none hv), fun hr hv hq hh hu => ?_, fun n hf ha hw hn => ?_,
    fun n hw hn => State.row_fast_none (coreWakeStep_early hw hn)⟩
  · obtain ⟨t, ht, hcore, hloam⟩ := State.coreClock_shows (l := [.cores]) hr (coreSleepStart_saves he hc ha hi hq hz hv hu hh)
    exact ⟨t, ht, by rw [hcore, State.core_modCore_self], fun k hk => by rw [hcore, State.core_modCore_ne _ _ hk], by rw [hloam, State.modCore_loam]⟩
  · obtain ⟨t, ht, hcore, hloam⟩ := State.coreClock_shows (l := [.regions]) hr (coreSleepDone_abandons hv h)
    exact ⟨t, ht, by rw [hcore, State.core_modCore_self], fun k hk => by rw [hcore, State.core_modCore_ne _ _ hk], by rw [hloam, State.modCore_loam]⟩
  · obtain ⟨u, hu, hcore, hloam⟩ := coreSleepDone_sleeps hv hq hh hu
    obtain ⟨t, ht, hcores, hloams⟩ := State.coreClock_shows (l := [.regions]) hr hu
    have hslept := (hcores c.val).trans hcore
    refine ⟨t, ht, by rw [hslept]; rfl, by rw [hslept]; rfl, by rw [hslept]; rfl, by rw [hslept]; rfl, by rw [hslept]; rfl, by rw [hslept]; rfl,
      ?_, by rw [hslept]; rfl, by rw [hslept]; rfl, fun hs hclean h5 h8 => ?_⟩
    · rw [hslept, Core.slept_stats, State.saveCore_stats]
    · obtain ⟨hl, hk, hv⟩ := hclean
      rw [hloams, hloam]
      exact State.saveWhole_keeps hs hl hk hv h5 h8
  · obtain ⟨u, hu, hcore, hloam⟩ := coreWakeStep_wakes ha hw hn
    have hback := (State.core_activate u c.val).trans ((hcore c.val).trans (State.core_modCore_self ..))
    refine ⟨_, State.row_fast hf hu, by rw [hback]; rfl, by rw [hback]; rfl, by rw [hback]; rfl, fun hz hs hclean h5 h8 => ?_, fun hz => ?_⟩
    · obtain ⟨hl, hk, hv⟩ := hclean
      obtain ⟨v, hv, hvl, hkeeps⟩ := State.restoreWhole_keeps hs hl hk hv h5 h8
      have hb : s.coreBack c.val = (v, false) := (if_pos hz).trans hv
      rw [hb] at hback hloam
      rw [hback, State.activate_loam, hloam]
      exact ⟨hkeeps, hvl⟩
    · have hb : s.coreBack c.val = (s.modCore c.val (fun x => { x with kaolin := {}, vb := {}, masks := [], stats := [] }), false) :=
        if_neg (by simp [hz])
      rw [hb] at hback hloam
      simp only [hb, State.core_modCore_self] at hback hcore
      refine ⟨by rw [hback]; rfl, by rw [hback]; rfl, by rw [hback]; rfl, by rw [hback]; rfl, fun k hk => ?_, ?_⟩
      · rw [State.core_activate, hcore, State.core_modCore_ne _ _ hk, State.core_modCore_ne _ _ hk]
      · rw [State.activate_loam, hloam, State.modCore_loam]

end Sys2Proof.Machine
end

section
/-! PROOFS. PWR_CTRL, the throttle and the power-fail warning (R235, R241, R243 to R245). -/

namespace Sys2Proof.Machine

/-! ### The flush of R243 -/

/-- A flush stops a compaction and, where the journal is replayed, adds a TELEMETRY record (log 85). -/
def Flushed (st : StartUp) (m n : Mrl) : Prop :=
  n.compact = false ∧ (st = .reset → n.queue = m.queue) ∧
    (st ≠ .reset → ∃ e : JRec, n.queue = m.queue ++ [e] ∧ e.typ = .telemetry)

section
variable {s : State}

theorem flushBegin_flushed (h : s.committing = false) : Flushed s.pwr.start s.mrl s.flushBegin.mrl ∧
    s.flushBegin.pwr = s.pwr ∧ s.flushBegin.loam = s.loam ∧ s.flushBegin.str = s.str ∧ s.flushBegin.cores = s.cores ∧ s.flushBegin.out = s.out := by
  by_cases hr : s.pwr.start = .reset
  · have hf : s.flushBegin = { s with mrl := { s.mrl with compact := false } } := by
      simp [State.flushBegin, h, hr]
    rw [hf]
    exact ⟨⟨rfl, fun _ => rfl, fun hn => absurd hr hn⟩, rfl, rfl, rfl, rfl, rfl⟩
  · obtain ⟨hq, hc, hp, hl, hst, hco, ho⟩ := flushBegin_queue s h hr
    exact ⟨⟨hc, fun hn => absurd hn hr, fun _ => ⟨_, hq, rfl⟩⟩, hp, hl, hst, hco, ho⟩

/-! ### PWR_CTRL -/

theorem pwrCtrl_stayUp : ∃ t, s.pwrCtrl 1 = t ∧ t.pwr.stayUp = true ∧ t.loam = s.loam ∧
    (s.pwr.state = .nap ∨ s.pwr.state = .sleep → t.pwr.state = .waking) := by
  have hw : s.pwrCtrl 1 = ({ s with pwr := { s.pwr with stayUp := true } } : State).startWake.wakeCores := rfl
  obtain ⟨hpwr, -, hloam⟩ := wakeCores_frame ({ s with pwr := { s.pwr with stayUp := true } } : State).startWake
  refine ⟨_, hw, ?_, ?_, fun h => ?_⟩
  · rw [hpwr, State.startWake]
    split <;> simp [State.setPower]
  · rw [hloam, State.startWake]
    split <;> simp
  · rw [hpwr]
    exact (startWake_low (s := { s with pwr := { s.pwr with stayUp := true } }) h).1

/-- A write of OFF alone, where STAYUP is clear, is the request. -/
theorem pwrCtrl_off (h : s.pwr.stayUp = false) : s.pwrCtrl 2 = s.offRequest := by
  have hs : ({ s with pwr := { s.pwr with stayUp := false } } : State) = s := by rw [← h]
  exact congrArg State.offRequest hs

theorem offRequest_again (h : s.pwr.offReq = true) (hc : s.committing = false) : s.offRequest = s := by
  simp [State.offRequest, hc, h]

/-- The state in which a first Off request is noted. -/
def State.offNoted (s : State) : State := { s with pwr := { s.pwr with offReq := true } }.bin 0x532 1

theorem offRequest_first (h : s.pwr.offReq = false) (hc : s.committing = false) : s.offRequest =
    if s.pwr.pfSafe then { s.offNoted with pwr := { s.offNoted.pwr with offReady := true } }.send .offReady
    else if s.pwr.pfw then s.offNoted else s.offNoted.flushBegin := by
  simp [State.offRequest, State.offNoted, hc, h]

/-- The structure unit once a commit in journaling or pending is cancelled. -/
def State.strCancelled (s : State) : Str :=
  { s.str with stage := .valid, bounds := 0, swap := if s.swapHeld then some 7 else none, commitWaits := false }

theorem cancelCommit_calm : (s.cancelCommit .valid).committing = false := rfl

/-- What an Off request does where no commit is in journaling or pending: it is noted, and the image and Loam stay. -/
theorem offRequest_notes (hc : s.committing = false) : s.offRequest.pwr.offReq = true ∧ s.offRequest.str = s.str ∧ s.offRequest.loam = s.loam := by
  by_cases hr : s.pwr.offReq = true
  · rw [offRequest_again hr hc]
    exact ⟨hr, rfl, rfl⟩
  · rw [offRequest_first (by simpa using hr) hc]
    split
    · simp [State.offNoted]
    · split
      · simp [State.offNoted]
      · obtain ⟨-, hpwr, hloam, hstr, -, -⟩ := flushBegin_flushed (s := s.offNoted) (by simpa [State.offNoted, State.committing] using hc)
        rw [hpwr, hloam, hstr]
        simp [State.offNoted]

theorem offRequest_cancels (hc : s.committing = true) : s.offRequest.pwr.offReq = true ∧ s.offRequest.str = s.strCancelled ∧ s.offRequest.loam = s.loam := by
  have hcancel : s.offRequest = (s.cancelCommit .valid).offRequest := by
    simp [State.offRequest, hc, cancelCommit_calm]
  rw [hcancel]
  exact offRequest_notes cancelCommit_calm

end

/-! ### The throttle -/

section
variable {s : State}

theorem throttleOn_none (h : s.pwr.throttle = true) (temp : BitVec 8) : throttleOn temp s = none := if_pos h

theorem throttleOn_holds (h : s.pwr.throttle = false) (temp : BitVec 8) : ∃ t, throttleOn temp s = some t ∧
    t.pwr = { s.pwr with throttle := true } ∧ t.cores = s.cores ∧ t.loam = s.loam :=
  ⟨_, if_neg (by simp [h]), by simp, by simp, by simp⟩

theorem throttleOff_none (h : s.pwr.throttle = false) : throttleOff s = none := if_pos (by rw [h]; rfl)

/-- The state once the throttle pin is free, before the hold ends. -/
def State.unthrottled (s : State) : State := { s with pwr := { s.pwr with throttle := false } }.emit 10 .throttle 0xFF 16 [0]

theorem throttleOff_ends (h : s.pwr.throttle = true) : throttleOff s = some s.unthrottled.finishWake.releaseHeld :=
  if_neg (by simp [h])

theorem State.unthrottled_pwr : s.unthrottled.pwr = { s.pwr with throttle := false } := by simp [State.unthrottled]

theorem State.unthrottled_clockHeld : s.unthrottled.clockHeld = (s.pwr.clkHold || s.pwr.droop.isSome || s.pwr.pfSafe) := by
  simp [State.clockHeld, State.unthrottled_pwr]

/-! ### The power-fail warning -/

theorem powerFail_none (h : s.pwr.pfw = true) (hc : s.pwr.pfCleared = false) : powerFail s = none :=
  if_pos (by simp [h, hc])

theorem powerFail_flushes (h : s.pwr.pfw = false ∨ s.pwr.pfCleared = true) (hc : s.committing = false) : ∃ t, powerFail s = some t ∧
    t.pwr = { s.pwr with pfw := true, pfCleared := false } ∧ Flushed s.pwr.start s.mrl t.mrl ∧ t.loam = s.loam ∧ t.str = s.str ∧ t.cores = s.cores := by
  obtain ⟨hflush, hpwr, hloam, hstr, hcores, -⟩ := flushBegin_flushed
    (s := ({ s with pwr := { s.pwr with pfw := true, pfCleared := false } } : State).bin 0x530 1) (by simpa [State.committing] using hc)
  refine ⟨_, if_neg (by rcases h with h | h <;> simp [h]), ?_, ?_, ?_, ?_, ?_⟩
  · rw [State.emit_pwr, hpwr, State.bin_pwr]
  · rw [State.emit_mrl]
    simpa using hflush
  · rw [State.emit_loam, hloam, State.bin_loam]
  · rw [State.emit_str, hstr, State.bin_str]
  · rw [State.emit_cores, hcores, State.bin_cores]

theorem pfSafeStep_none (h : s.mrl.queue ≠ [] ∨ (s.pwr.pfw = false ∧ s.pwr.offReq = false) ∨ s.pwr.pfSafe = true) : pfSafeStep s = none :=
  if_pos (by
    rcases h with h | ⟨h, g⟩ | h
    · exact .inr (.inr (by simpa using h))
    · exact .inl (by simp [h, g])
    · exact .inr (.inl h))

/-- The hold of step 4 of R243, before a warning that has cleared meanwhile ends it. -/
def State.pfHeld (s : State) : State :=
  let h := s.setPower .pfHold
  let t := { h with pwr := { h.pwr with pfSafe := true, back := s.pwr.state, offReady := s.pwr.offReq }, dbg := { h.dbg with staged := [] } }
  if s.pwr.offReq then t.send .offReady else t

theorem pfSafeStep_holds (h : s.pwr.pfw = true ∨ s.pwr.offReq = true) (hs : s.pwr.pfSafe = false) (hq : s.mrl.queue = []) :
    pfSafeStep s = some (if s.pwr.pfCleared then s.pfHeld.pfRelease else s.pfHeld) :=
  if_neg (by rcases h with h | h <;> simp [h, hs, hq])

theorem State.pfHeld_pwr : s.pfHeld.pwr = { s.pwr with state := .pfHold, pfSafe := true, back := s.pwr.state, offReady := s.pwr.offReq } := by
  unfold State.pfHeld
  dsimp only
  split <;> simp [State.setPower]

theorem State.pfHeld_shows : s.pfHeld.dbg.staged = [] ∧ s.pfHeld.mrl = s.mrl ∧ s.pfHeld.held = s.held ∧ s.pfHeld.cores = s.cores ∧
    s.pfHeld.out = if s.pwr.offReq = true then s.out ++ [.offReady] else s.out := by
  unfold State.pfHeld
  dsimp only
  split <;> simp

/-- The state in which a hold that a warning began is over. -/
def State.pfOver (s : State) : State :=
  let u := { s with mrl := { s.mrl with compact := s.mrl.compact || s.str.commitWaits }, pwr := { s.pwr with pfw := false, pfCleared := false, pfSafe := false } }
  u.setPower s.pwr.back

theorem State.pfRelease_over (h : s.pwr.offReq = false) : s.pfRelease = s.pfOver.endHold.wakeConfirmed :=
  if_neg (by simp [h])

theorem State.pfRelease_stays (h : s.pwr.offReq = true) : s.pfRelease = { s with pwr := { s.pwr with pfw := false, pfCleared := false } } :=
  if_pos h

theorem State.pfOver_shows : s.pfOver.pwr = { s.pwr with pfw := false, pfCleared := false, pfSafe := false, state := s.pwr.back } ∧
    s.pfOver.held = s.held ∧ s.pfOver.cores = s.cores ∧ s.pfOver.mrl.compact = (s.mrl.compact || s.str.commitWaits) := by
  simp [State.pfOver, State.setPower]

theorem pfClear_none (h : s.pwr.pfw = false ∨ s.pwr.pfCleared = true) : pfClear s = none :=
  if_pos (by simpa using h)

theorem pfClear_clears (h : s.pwr.pfw = true) (hc : s.pwr.pfCleared = false) : pfClear s =
    some (if s.pwr.pfSafe then (s.bin 0x531 1).pfRelease else { s.bin 0x531 1 with pwr := { s.pwr with pfCleared := true } }) := by
  refine (if_neg (by simp [h, hc])).trans ?_
  simp

end

/-- Settles O52. -/
theorem powerControl : Obligations.PowerControl := by
  unfold Obligations.PowerControl
  intro s hon flushed
  refine ⟨fun p hp he => ?_, fun temp => ⟨fun h => State.row_stay_none (throttleOn_none h temp), fun h => ?_⟩,
    fun h => State.row_stay_none (throttleOff_none h), fun h => ⟨s.unthrottled.finishWake, State.row_stay hon (throttleOff_ends h), ?_⟩,
    fun h hc => State.row_stay_none (powerFail_none h hc), fun h hc => ?_, fun h => State.row_stay_none (pfSafeStep_none h), fun h hs hq => ?_,
    fun h => State.row_stay_none (pfClear_none h), fun h hc hs => ?_, fun h hc hs ho => ?_, fun h hc hs ho => ?_⟩
  · have hrow (v : Nat) (hv : v < 4) := pwrctrl_row p s hp hon he v hv
    have hoff (hu : s.pwr.stayUp = false) : exec (.pwrCtrlOff p) s = .next (s.offRequest.send (.regAnswer p 0 0)) := by
      have hrow := hrow 2 (by decide)
      rw [pwrCtrl_off hu] at hrow
      refine Eq.trans ?_ hrow
      change s.row (fun s => s.aonRow p 0xB004 (b2n s.pwr.stayUp + 2)) = s.row (fun s => s.aonRow p 0xB004 2)
      rw [State.row_on hon, State.row_on hon, hu]
      rfl
    refine ⟨⟨_, hrow 0 (by decide), rfl, rfl, rfl, rfl⟩, ?_, fun hc hu => ?_, fun hr hu hc => ?_, fun hr hu hw hs hc => ?_, fun hr hu hw hs hc => ?_,
      fun hr hu hs hc => ?_⟩
    · obtain ⟨t, ht, hstay, hloam, hwakes⟩ := pwrCtrl_stayUp (s := s)
      refine ⟨_, hrow 1 (by decide), ?_⟩
      rw [ht]
      exact ⟨hstay, List.getLast?_concat .., hloam, hwakes⟩
    · obtain ⟨hnoted, hstr, hloam⟩ := offRequest_cancels hc
      exact ⟨_, hoff hu, hnoted, hloam, hstr⟩
    · refine ⟨_, hoff hu, ?_⟩
      rw [offRequest_again hr hc]
      exact ⟨rfl, rfl, rfl⟩
    · refine ⟨_, hoff hu, ?_⟩
      obtain ⟨hflush, hpwr, hloam, hstr, -, hout⟩ := flushBegin_flushed (s := s.offNoted) (by simpa [State.offNoted, State.committing] using hc)
      rw [offRequest_first hr hc, if_neg (by simp [hs]), if_neg (by simp [hw])]
      refine ⟨hpwr.trans (by simp [State.offNoted]), ?_, ?_, hloam.trans (by simp [State.offNoted]), hstr.trans (by simp [State.offNoted])⟩
      · exact (by simpa [State.offNoted] using hflush : Flushed s.pwr.start s.mrl s.offNoted.flushBegin.mrl)
      · rw [State.send_out, hout]
        simp [State.offNoted]
    · refine ⟨_, hoff hu, ?_⟩
      rw [offRequest_first hr hc, if_neg (by simp [hs]), if_pos hw]
      simp [State.offNoted]
    · refine ⟨_, hoff hu, ?_⟩
      rw [offRequest_first hr hc, if_pos hs]
      simp [State.offNoted]
  · obtain ⟨t, ht, hpwr, hcores, hloam⟩ := throttleOn_holds h temp
    exact ⟨t, State.row_stay hon ht, hpwr, by simp [State.clockHeld, hpwr], hcores, hloam⟩
  · obtain ⟨hheld, hcores, hloam⟩ := finishWake_frame s.unthrottled
    refine ⟨hheld.trans (by simp [State.unthrottled]), hcores.trans (by simp [State.unthrottled]), hloam.trans (by simp [State.unthrottled]),
      fun hw => ?_, fun n mhz hst hw ha hk hd hs => ?_⟩
    · rw [finishWake_waits, State.unthrottled_pwr]
      rw [State.unthrottled_pwr, State.unthrottled_clockHeld]
      exact hw.imp_right (Or.imp_right .inr)
    · have hends := (finishWake_ends (s := s.unthrottled) (n := n) (mhz := mhz) (by simpa [State.unthrottled_pwr] using hw)
        (by simpa [State.unthrottled_pwr] using ha) (by simpa [State.unthrottled_pwr] using hst)
        (by simp [State.unthrottled_clockHeld, hk, hd, hs])).1
      rw [hends, State.unthrottled_pwr]
  · obtain ⟨t, ht, hrest⟩ := powerFail_flushes h hc
    exact ⟨t, State.row_stay hon ht, hrest⟩
  · obtain ⟨hstaged, hmrl, hheld, hcores, hout⟩ := State.pfHeld_shows (s := s)
    have hstep := State.row_stay hon (pfSafeStep_holds h hs hq)
    refine ⟨fun hc => ⟨_, hstep, ?_⟩, fun hc ho => ⟨s.pfHeld.pfOver, ?_, ?_⟩⟩
    · by_cases hcl : s.pwr.pfCleared = true
      · have ho : s.pwr.offReq = true := hc.resolve_left (by simp [hcl])
        rw [if_pos hcl, State.pfRelease_stays (by rw [State.pfHeld_pwr]; exact ho)]
        exact ⟨by simp [State.pfHeld_pwr], by simp [State.pfHeld_pwr], by simp [State.clockHeld, State.pfHeld_pwr], hstaged, hmrl, hout⟩
      · rw [if_neg hcl]
        exact ⟨by simp [State.pfHeld_pwr], by simp [State.pfHeld_pwr], by simp [State.clockHeld, State.pfHeld_pwr], hstaged, hmrl, hout⟩
    · rw [if_pos hc, State.pfRelease_over (by rw [State.pfHeld_pwr]; exact ho)] at hstep
      exact hstep
    · obtain ⟨hpwr, hheld', hcores', -⟩ := State.pfOver_shows (s := s.pfHeld)
      rw [hpwr, State.pfHeld_pwr]
      exact ⟨rfl, rfl, rfl, hheld'.trans hheld, hcores'.trans hcores⟩
  · refine ⟨_, State.row_stay hon (pfClear_clears h hc), ?_⟩
    rw [if_neg (by simp [hs])]
    simp
  · refine ⟨_, State.row_stay hon (pfClear_clears h hc), ?_⟩
    rw [if_pos hs, State.pfRelease_stays (by simpa using ho)]
    refine ⟨?_, by simp⟩
    rw [State.bin_pwr, ← hc]
  · obtain ⟨hpwr, hheld, hcores, hcompact⟩ := State.pfOver_shows (s := s.bin 0x531 1)
    have hstep := State.row_stay hon (pfClear_clears h hc)
    rw [if_pos hs, State.pfRelease_over (by simpa using ho)] at hstep
    refine ⟨(s.bin 0x531 1).pfOver, hstep, ?_, hheld.trans (by simp), hcores.trans (by simp), hcompact.trans (by simp)⟩
    rw [hpwr, State.bin_pwr, ← hc]

end Sys2Proof.Machine
end

section
/-! PROOFS. Loss of power, start-up and core release (R252 to R254). -/

namespace Sys2Proof.Machine

section
variable {s : State}

/-- What lands in the segment at a loss of power is nothing where the cluster was safe, or where neither a record nor a base was written. -/
theorem powerLost_mram (n : Nat) (h : s.pwr.pfSafe = true ∨ (s.mrl.compact = false ∧ s.mrl.queue = [])) :
    (powerLost n s).mrl.mram = s.mrl.mram := by
  unfold powerLost
  by_cases hs : s.pwr.pfSafe = true
  · simp [hs]
  · obtain ⟨hc, hq⟩ := h.resolve_left hs
    simp [hs, hc, hq]

/-! ### Start-up -/

/-- The state once the segment is replayed: its totals, its time, and no structure state yet. -/
def State.replayed (s : State) : State :=
  let r := replayOf s.mrl.mram
  { s with mrl := r.mrl, tel := { s.tel with hist := r.hist }, ts := BitVec.ofNat 64 r.time,
           pwr := { (if s.pwr.state = .off then {} else s.pwr : Pwr) with start := .replayed } }

/-- The structure state that holds what the replay found but the image. -/
def State.replayedStr (s : State) : Str :=
  { epoch := BitVec.ofNat 32 (replayOf s.mrl.mram).epoch, deltaSkipped := (replayOf s.mrl.mram).skipped }

theorem startup_none (h : s.pwr.start ≠ .reset) : startup s = none := if_pos h

theorem startup_blank (h : s.pwr.start = .reset) (hi : (replayOf s.mrl.mram).image = none) :
    startup s = some ({ s.replayed with str := s.replayedStr } : State).admitEpoch := by
  refine (if_neg (by simp [h])).trans ?_
  dsimp only
  rw [hi]
  rfl

theorem startup_bad {b : OnRecord} {e : VErr} (h : s.pwr.start = .reset) (hi : (replayOf s.mrl.mram).image = some b)
    (hv : validateImage s.id b.bytes = .error e) :
    startup s = some (({ s.replayed with str := { s.replayedStr with valFault := e.fault, valSection := e.sec, valOffset := e.off } } : State).logOnly
      e.fault e.off).admitEpoch := by
  refine (if_neg (by simp [h])).trans ?_
  dsimp only
  rw [hi]
  dsimp only
  rw [hv]
  rfl

/-- The structure state with the image that the journal holds, which waits for CONFIRM. -/
def State.foundStr (s : State) (b : OnRecord) (im : Image) : Str :=
  { s.replayedStr with
      live := b.deltas.foldl (fun im d => deltaImage im d.2.2) im, liveValid := true, awaitConfirm := true, shownId := im.id
      record := b, deltaSeq := ((b.deltas.getLast?).map fun d => fieldB d.2.2 8 4).getD 0
      deltaTotal := (b.deltas.map fun d => 64 * sectOf d.2.2.length).sum }

theorem startup_found {b : OnRecord} {im : Image} (h : s.pwr.start = .reset) (hi : (replayOf s.mrl.mram).image = some b)
    (hv : validateImage s.id b.bytes = .ok im) :
    startup s = some ({ s.replayed with str := s.foundStr b im } : State).admitEpoch := by
  refine (if_neg (by simp [h])).trans ?_
  dsimp only
  rw [hi]
  dsimp only
  rw [hv]
  rfl

/-- What every start-up shows, whatever image it found. -/
def State.StartedUp (s t : State) (x : Str) : Prop :=
  t.heldAon = s.heldAon ∧ t.pwr.start = .replayed ∧ t.tel.hist = (replayOf s.mrl.mram).hist ∧ t.str = x

theorem State.replayed_startedUp (x : Str) : s.StartedUp { s.replayed with str := x } x := ⟨rfl, rfl, rfl, rfl⟩

theorem State.StartedUp.admitEpoch {t : State} {x : Str} (h : s.StartedUp t x) : s.StartedUp t.admitEpoch x := h

theorem State.StartedUp.logOnly {t : State} {x : Str} (h : s.StartedUp t x) (code detail : Nat) : s.StartedUp (t.logOnly code detail) x := by
  obtain ⟨hheld, hstart, hhist, hstr⟩ := h
  refine ⟨by simpa using hheld, by simpa using hstart, ?_, by simpa using hstr⟩
  rw [← hhist]
  unfold State.logOnly State.logFault
  dsimp only
  split <;> simp [State.bin]

theorem startup_shows (h : s.pwr.start = .reset) : ∃ t : State, startup s = some t ∧
    t.heldAon = s.heldAon ∧ t.pwr.start = .replayed ∧ t.tel.hist = (replayOf s.mrl.mram).hist ∧
      ((replayOf s.mrl.mram).image = none → t.str.liveValid = false ∧ t.str.awaitConfirm = false) ∧
      (∀ b im, (replayOf s.mrl.mram).image = some b → validateImage s.id b.bytes = .ok im →
        t.str.liveValid = true ∧ t.str.awaitConfirm = true ∧ t.str.shownId = im.id ∧
        t.str.live = b.deltas.foldl (fun im d => deltaImage im d.2.2) im) ∧
      (∀ b e, (replayOf s.mrl.mram).image = some b → validateImage s.id b.bytes = .error e →
        t.str.liveValid = false ∧ t.str.awaitConfirm = false ∧ t.str.valFault = e.fault) := by
  cases hi : (replayOf s.mrl.mram).image with
  | none =>
    obtain ⟨hheld, hstart, hhist, hstr⟩ := (s.replayed_startedUp s.replayedStr).admitEpoch
    refine ⟨_, startup_blank h hi, hheld, hstart, hhist, fun _ => ?_, fun b im hb => (nomatch hb), fun b e hb => (nomatch hb)⟩
    rw [hstr]
    exact ⟨rfl, rfl⟩
  | some b =>
    cases hv : validateImage s.id b.bytes with
    | ok im =>
      obtain ⟨hheld, hstart, hhist, hstr⟩ := (s.replayed_startedUp (s.foundStr b im)).admitEpoch
      refine ⟨_, startup_found h hi hv, hheld, hstart, hhist, fun hb => (nomatch hb), fun b' im' hb hv' => ?_, fun b' e hb hv' => ?_⟩
      · obtain rfl := Option.some.inj hb
        obtain rfl := Except.ok.inj (hv.symm.trans hv')
        rw [hstr]
        exact ⟨rfl, rfl, rfl, rfl⟩
      · obtain rfl := Option.some.inj hb
        rw [hv] at hv'
        exact nomatch hv'
    | error e =>
      have hstarted := ((s.replayed_startedUp { s.replayedStr with valFault := e.fault, valSection := e.sec, valOffset := e.off }).logOnly e.fault e.off).admitEpoch
      obtain ⟨hheld, hstart, hhist, hstr⟩ := hstarted
      refine ⟨_, startup_bad h hi hv, hheld, hstart, hhist, fun hb => (nomatch hb), fun b' im' hb hv' => ?_, fun b' e' hb hv' => ?_⟩
      · obtain rfl := Option.some.inj hb
        rw [hv] at hv'
        exact nomatch hv'
      · obtain rfl := Option.some.inj hb
        obtain rfl := Except.error.inj (hv.symm.trans hv')
        rw [hstr]
        exact ⟨rfl, rfl, rfl⟩

/-! ### Core release -/

/-- The state that a release leaves, before what was held is accepted. -/
def State.releasedState (s : State) : State :=
  ({ s with
      loam := {}, cores := [], ctr := {}, syn := { s.syn with sc := [] }, damage := []
      msg := { s.msg with rings := [], credits := s.str.live.credits.foldl (fun (t : Tab Credit) e => tabSet t e.dest { avail := e.allot }) []
                          slots := [], parked := [], sends := [], status := [] }
      pwr := { s.pwr with start := .released } } : State).activate

theorem State.releasedState_start : s.releasedState.pwr.start = .released := by
  unfold State.releasedState State.activate
  split
  · simp [State.setPower]
  · rfl

theorem releaseCores_none (h : s.pwr.start ≠ .confirmed ∨ s.clockOn = false) : releaseCores s = none :=
  if_pos (by simpa using h)

theorem releaseCores_releases (h : s.pwr.start = .confirmed) (hc : s.clockOn = true) : releaseCores s = some s.releasedState.releaseHeld :=
  if_neg (by simp [h, hc])

end

/-- Settles O53. -/
theorem lossAndStartup : Obligations.LossAndStartup := by
  unfold Obligations.LossAndStartup
  refine ⟨fun n s hon => ⟨powerLost n s, State.row_on hon, rfl, rfl, rfl, rfl, rfl, rfl, fun h => powerLost_mram n (.inl h),
    fun hc hq => powerLost_mram n (.inr ⟨hc, hq⟩)⟩, fun s h => ?_, fun s h => ?_, fun s hon => ⟨fun h => ?_, fun h hc => ?_⟩⟩
  · change Host.Outcome.next (s.orStay ((Sys2Proof.Machine.startup s).map State.acceptAon)) = _
    rw [startup_none h]
    rfl
  · obtain ⟨t, ht, hshows⟩ := startup_shows h
    refine ⟨t, ?_, hshows⟩
    change Host.Outcome.next (s.orStay ((Sys2Proof.Machine.startup s).map State.acceptAon)) = _
    rw [ht]
    rfl
  · exact State.row_stay_none (f := fun s => (releaseCores s).map State.acceptAon) (by rw [releaseCores_none h]; rfl)
  · refine ⟨s.releasedState, State.row_stay (f := fun s => (releaseCores s).map State.acceptAon) hon (by rw [releaseCores_releases h hc]; rfl),
      State.releasedState_start, by simp [State.releasedState], by simp [State.releasedState], by simp [State.releasedState],
      by simp [State.releasedState], by simp [State.releasedState], by simp [State.releasedState], fun e he hu => ?_⟩
    rw [State.credit, State.releasedState, State.activate_msg]
    exact tabGet_fold ({} : Credit) (fun e : CreditEnt => e.dest) (fun e => ({ avail := e.allot } : Credit)) e _ [] he hu

end Sys2Proof.Machine
end

section
/-! PROOFS. The item watchdogs (R190, R257, R258, R288). -/

namespace Sys2Proof.Machine

section
variable {w : Who} {s : State}

/-! ### When a watchdog has its say -/

theorem waitExpire_none (h : (s.item w).waitTicks < s.str.live.waitTo) : waitExpire w s = none := by
  unfold waitExpire
  dsimp only
  split
  · exact if_pos (.inr (.inr (.inl h)))
  · rfl

theorem waitExpire_met {c p : Nat} {g : Word32} (hw : s.waitedFor w = .wait c p g) (hm : s.waitIsMet (s.item w).no c g = true) :
    waitExpire w s = none := by
  unfold waitExpire
  dsimp only
  rw [hw]
  exact if_pos (.inr (.inr (.inr hm)))

theorem sendExpire_none (h : (s.item w).waitTicks < s.str.live.sendTo) : sendExpire w s = none :=
  if_pos (.inr (.inr (.inr h)))

theorem itemExpire_none {limit f b : Nat} (h : (s.item w).cmdTicks < limit) : itemExpire w limit f b s = none :=
  if_pos (.inr h)

theorem waitExpire_or : waitExpire w s = none ∨ waitExpire w s = s.expireAny w 0x0C03 0x540 := by
  unfold waitExpire
  dsimp only
  split
  · split
    · exact .inl rfl
    · exact .inr rfl
  · exact .inl rfl

theorem sendExpire_or : sendExpire w s = none ∨ sendExpire w s = s.expireAny w 0x0C04 0x541 := by
  unfold sendExpire
  dsimp only
  split
  · exact .inl rfl
  · exact .inr rfl

theorem itemExpire_or (limit f b : Nat) : itemExpire w limit f b s = none ∨ itemExpire w limit f b s = s.expireAny w f b := by
  unfold itemExpire
  split
  · exact .inl rfl
  · split <;> simp

theorem waitExpire_expires {c p : Nat} {g : Word32} (hv : s.str.liveValid = true) (hp : (s.ctx w).phase.started = true)
    (ht : s.str.live.waitTo ≤ (s.item w).waitTicks) (hw : s.waitedFor w = .wait c p g) (hm : s.waitIsMet (s.item w).no c g = false) :
    waitExpire w s = s.expireAny w 0x0C03 0x540 := by
  unfold waitExpire
  dsimp only
  rw [hw]
  exact if_neg (by simp [hp, hv, ht, hm])

theorem sendExpire_expires (hv : s.str.liveValid = true) (hp : (s.ctx w).phase.started = true) (ht : s.str.live.sendTo ≤ (s.item w).waitTicks)
    (hw : s.waitedFor w = .send ∨ (s.item w).sendWaits = true) : sendExpire w s = s.expireAny w 0x0C04 0x541 :=
  if_neg (by rcases hw with hw | hw <;> simp [hp, hv, ht, hw])

theorem itemExpire_expires {limit : Nat} (f b : Nat) (hv : s.str.liveValid = true)
    (hp : (s.ctx w).phase ∈ [.running, .preempting, .aborting, .waitRange, .issuing]) (ht : limit ≤ (s.item w).cmdTicks) :
    itemExpire w limit f b s = s.expireAny w f b := by
  refine (if_neg (by simp [hv, ht])).trans ?_
  simp only [List.mem_cons, List.not_mem_nil, or_false] at hp
  obtain hp | hp | hp | hp | hp := hp <;> rw [hp]

/-! ### What its say is -/

theorem State.expireAny_waits (h : s.waitsOn [.timeouts] = true) (f b : Nat) : s.expireAny w f b = none := if_pos h

theorem State.expireAny_bears (h : s.waitsOn [.timeouts] = false) (ha : (s.item w).abort = none) (f b : Nat) :
    s.expireAny w f b = some (s.expire w f b) := by
  refine (if_neg (by simp [h])).trans ?_
  rw [ha]

theorem State.outranks_eq {a : Abort} (ha : (s.item w).abort = some a) (f : Nat) :
    s.outranks w f = true ↔ a.tick = s.ticks ∧ a.poisoned = false ∧ faultRank f < faultRank a.fault := by
  rw [State.outranks, ha]
  simp [and_assoc]

theorem State.expireAny_outranks {a : Abort} {f : Nat} (h : s.waitsOn [.timeouts] = false) (ha : (s.item w).abort = some a)
    (ho : s.outranks w f = true) (b : Nat) : s.expireAny w f b = some (s.expire w f b) := by
  refine (if_neg (by simp [h])).trans ?_
  rw [ha]
  exact if_pos ho

theorem State.expireAny_seen {a : Abort} {f : Nat} (ha : (s.item w).abort = some a) (ho : ¬ s.outranks w f = true) (hm : f ∈ a.seen) (b : Nat) :
    s.expireAny w f b = none := by
  by_cases hw : s.waitsOn [.timeouts] = true
  · exact if_pos hw
  · refine (if_neg hw).trans ?_
    rw [ha]
    exact (if_neg ho).trans (if_neg (by simp [hm]))

theorem State.expireAny_late {a : Abort} {f : Nat} (h : s.waitsOn [.timeouts] = false) (ha : (s.item w).abort = some a)
    (ho : ¬ s.outranks w f = true) (hm : f ∉ a.seen) (b : Nat) : s.expireAny w f b = some (s.expireLate w f b) := by
  refine (if_neg (by simp [h])).trans ?_
  rw [ha]
  exact (if_neg ho).trans (if_pos (by simp [hm]))

theorem Item.waitedAt_of_none {i : Item} (h : i.abort = none) : i.waitedAt = i.pend := by rw [Item.waitedAt, h]

theorem Item.waitedAt_of_some {i : Item} {a : Abort} (h : i.abort = some a) : i.waitedAt = a.was := by rw [Item.waitedAt, h]

/-- A step under its watchdog: the fault and bin of the watchdog, and the item that it is for. -/
def Expires (w : Who) (s : State) (i : Instr) (f b : Nat) : Prop := exec i s = .next (s.orStay (s.expireAny w f b))

theorem expires_row {i : Instr} {f : State → Option State} {c b : Nat} (hon : s.pwr.state ≠ .off)
    (hi : exec i s = s.row fun s => s.orStay (f s)) (h : f s = s.expireAny w c b) : Expires w s i c b := by
  rw [Expires, hi, State.row_on hon, h]

end

/-- Settles O54. -/
theorem watchdogs : Obligations.Watchdogs := by
  unfold Obligations.Watchdogs
  intro w s hon hv item fires
  have hfires (i : Instr) (f b : Nat) (h : fires i f b) : Expires w s i f b := by
    obtain ⟨rfl, rfl, rfl, hp, ht, c, p, g, hw, hm⟩ | ⟨rfl, rfl, rfl, hp, ht, hw⟩ | ⟨rfl, hc, rfl, rfl, hp, ht⟩ | ⟨rfl, hc, rfl, rfl, hp, ht⟩ := h
    · exact expires_row (f := waitExpire w) hon rfl (waitExpire_expires hv hp ht hw hm)
    · exact expires_row (f := sendExpire w) hon rfl (sendExpire_expires hv hp ht hw)
    · obtain ⟨c, k⟩ := w
      obtain rfl : k = .cmd := hc
      exact expires_row (f := fun s => itemExpire ⟨c, .cmd⟩ s.str.live.commandTo 0x0C05 0x542 s) hon rfl (itemExpire_expires _ _ hv hp ht)
    · obtain ⟨c, k⟩ := w
      obtain rfl : k = .hdl := hc
      exact expires_row (f := fun s => itemExpire ⟨c, .hdl⟩ s.str.live.handlerTo 0x0C06 0x543 s) hon rfl (itemExpire_expires _ _ hv hp ht)
  refine ⟨fun h => State.row_stay_none (waitExpire_none h), fun h => State.row_stay_none (sendExpire_none h), fun h hc => ?_, fun h hc => ?_,
    fun c p g hw hm => State.row_stay_none (waitExpire_met hw hm), fun h i hi => ?_, fun i f b hi hw ha => ?_, fun i f b a hi hw ha => ?_⟩
  · obtain ⟨c, k⟩ := w
    obtain rfl : k = .cmd := hc
    exact State.row_stay_none (f := fun s => itemExpire ⟨c, .cmd⟩ s.str.live.commandTo 0x0C05 0x542 s) (itemExpire_none h)
  · obtain ⟨c, k⟩ := w
    obtain rfl : k = .hdl := hc
    exact State.row_stay_none (f := fun s => itemExpire ⟨c, .hdl⟩ s.str.live.handlerTo 0x0C06 0x543 s) (itemExpire_none h)
  · simp only [List.mem_cons, List.not_mem_nil, or_false] at hi
    obtain rfl | rfl | rfl | rfl := hi
    · exact State.row_stay_none (waitExpire_or.elim id fun e => e.trans (State.expireAny_waits h _ _))
    · exact State.row_stay_none (sendExpire_or.elim id fun e => e.trans (State.expireAny_waits h _ _))
    · exact State.row_stay_none (f := fun s => itemExpire ⟨w.core, .cmd⟩ s.str.live.commandTo 0x0C05 0x542 s)
        ((itemExpire_or _ _ _).elim id fun e => e.trans (State.expireAny_waits h _ _))
    · exact State.row_stay_none (f := fun s => itemExpire ⟨w.core, .hdl⟩ s.str.live.handlerTo 0x0C06 0x543 s)
        ((itemExpire_or _ _ _).elim id fun e => e.trans (State.expireAny_waits h _ _))
  · have hexec := hfires i f b hi
    rw [Expires, State.expireAny_bears hw ha] at hexec
    refine ⟨fun hd => ⟨_, hexec, ?_⟩, fun hd => ⟨_, hexec, expire_held f b ha hd⟩⟩
    have hzero := expire_zero f b ha hd
    rwa [Item.waitedAt_of_none ha] at hzero
  · have hexec := hfires i f b hi
    intro behind
    have hbehind (h : behind) : ¬ s.outranks w f = true := by
      rw [State.outranks_eq ha]
      rintro ⟨htick, hpoison, hrank⟩
      rcases h with h | h | h
      · exact h htick
      · rw [hpoison] at h; exact Bool.false_ne_true h
      · exact Nat.not_lt.mpr h hrank
    refine ⟨fun hb hm => ?_, fun htick hpoison hrank hd => ?_, fun hb hm => ?_⟩
    · rw [Expires, State.expireAny_seen ha (hbehind hb) hm] at hexec
      exact hexec
    · rw [Expires, State.expireAny_outranks hw ha ((State.outranks_eq ha f).mpr ⟨htick, hpoison, hrank⟩)] at hexec
      have hwaits := expire_waits (w := w) f b hd
      rw [Item.waitedAt_of_some ha, Item.seenFaults_of_some ha] at hwaits
      exact ⟨_, hexec, hwaits⟩
    · rw [Expires, State.expireAny_late hw ha (hbehind hb) hm] at hexec
      exact ⟨_, hexec, expireLate_frame f b ha⟩

end Sys2Proof.Machine
end

section
/-! PROOFS. DMA_TO for descriptors and transactions (R221, R257, R259). -/

namespace Sys2Proof.Machine

section
variable {s : State}

theorem dmaExpire_waits (h : s.waitsOn [.timeouts] = true) (g : DmaTarget) : dmaExpire g s = none := if_pos (.inr h)

theorem dmaExpire_channel (hv : s.str.liveValid = true) (hw : s.waitsOn [.timeouts] = false) (ch : Fin 32) :
    dmaExpire (.channel ch) s = chanExpire ch.val s := if_neg (by simp [hv, hw])

theorem dmaExpire_txn (hv : s.str.liveValid = true) (hw : s.waitsOn [.timeouts] = false) (id : Nat) :
    dmaExpire (.txn id) s = txnExpire id s := if_neg (by simp [hv, hw])

/-- While a transaction has no say, whether the limits are being decoded does not matter. -/
theorem dmaExpire_none {g : DmaTarget} (hv : s.str.liveValid = true) (hc : ∀ ch, g = .channel ch → chanExpire ch.val s = none)
    (ht : ∀ id, g = .txn id → txnExpire id s = none) : dmaExpire g s = none := by
  by_cases hw : s.waitsOn [.timeouts] = true
  · exact dmaExpire_waits hw g
  · cases g with
    | channel ch => exact (dmaExpire_channel hv (by simpa using hw) ch).trans (hc ch rfl)
    | txn id => exact (dmaExpire_txn hv (by simpa using hw) id).trans (ht id rfl)

/-! ### Channels -/

variable {ch : Nat} {r : DescRun}

theorem chanExpire_running (h : (s.chan ch).run.find? (fun r => !r.stopped && decide (r.step < r.desc.units ∧ s.str.live.dmaTo ≤ r.ticks)) = some r) :
    chanExpire ch s = some ((s.bin 0x544 1).stopDesc ch r.no 0x0C07 r.nextDst) := by
  unfold chanExpire
  dsimp only
  rw [h]

/-- The state in which the head of a queue has its turn. -/
def State.headTurns (s : State) (ch : Nat) (r : DescRun) (rest : List DescRun) : State :=
  s.setChan ch { s.chan ch with queue := rest, run := (s.chan ch).run ++ [r] }

section
variable {rest : List DescRun} (hrun : (s.chan ch).run = []) (hq : (s.chan ch).queue = r :: rest)
include hrun hq

theorem chanExpire_early (h : r.ticks < s.str.live.dmaTo) : chanExpire ch s = none := by
  unfold chanExpire
  dsimp only
  rw [hrun, hq]
  exact if_pos (.inr h)

theorem chanExpire_head (hd : r.desc.armed = false) (h : s.str.live.dmaTo ≤ r.ticks) :
    chanExpire ch s = some ((((s.headTurns ch r rest).bin 0x544 1).stopDesc ch r.no 0x0C07 r.desc.src).noteHead ch) := by
  unfold chanExpire
  dsimp only
  rw [hrun, hq]
  refine (if_neg (by simp [hd, h])).trans ?_
  rw [State.headTurns, hrun]

end

/-! ### Transactions -/

variable {id : Nat} {x : Txn}

/-- A store that fails leaves no line of its sector, and no load in flight fills one; the item that waits for it aborts (R192). -/
theorem State.txnFail_store {w : Who} {no : Nat} (hk : x.kind = .store w no) (ha : s.awaits w no x.id = true) (f : Nat) :
    ((s.txnFail x f).ctx w).phase = .aborting ∧ ((s.txnFail x f).item w).record.fault = f ∧
      (s.txnFail x f).port.txns = s.port.txns.map (·.modLoad (x.addr / 64) fun _ laid => (false, laid)) ∧
      (s.txnFail x f).loam = s.loam ∧ (s.txnFail x f).syn = s.syn := by
  have hbear : ((s.dropLine (x.addr / 64)).ctx w).canBear = true := by
    rw [State.awaits, Bool.and_eq_true] at ha
    exact ha.2
  have hfail : s.txnFail x f = (s.dropLine (x.addr / 64)).raise w f x.addr := by
    unfold State.txnFail
    rw [hk]
    exact if_pos ha
  rw [hfail]
  refine ⟨by rw [State.ctx_raise hbear], ?_, by rw [State.raise_port]; rfl, by rw [State.raise_loam]; rfl, by rw [State.raise_syn]; rfl⟩
  rw [State.item, State.ctx_raise hbear, Item.bears_record]

theorem txnExpire_none (hx : s.port.txns.find? (·.id == id) = some x) (h : x.ticks < s.str.live.dmaTo ∨ x.abandoned = true) :
    txnExpire id s = none := by
  unfold txnExpire
  rw [hx]
  exact if_pos h.symm

/-- The state in which a transaction is abandoned and counted. -/
def State.abandons (s : State) (id : Nat) : State :=
  ({ s with port := { s.port with txns := s.port.txns.map fun (x : Txn) => if x.id = id then { x with abandoned := true } else x } } : State).bin 0x544 1

theorem txnExpire_abandons (hx : s.port.txns.find? (·.id == id) = some x) (ha : x.abandoned = false) (ht : s.str.live.dmaTo ≤ x.ticks) :
    txnExpire id s = some (((s.abandons id).abandonCount x).txnFail x 0x0C07) := by
  unfold txnExpire
  rw [hx]
  exact if_neg (by simp [ha, ht])

theorem State.abandonCount_store {w : Who} {no : Nat} (hk : x.kind = .store w no) : s.abandonCount x = s := by
  unfold State.abandonCount
  rw [hk]

end

/-- Settles O55. -/
theorem dmaTimeouts : Obligations.DmaTimeouts := by
  unfold Obligations.DmaTimeouts
  intro s hon hv
  refine ⟨fun hw g => State.row_stay_none (dmaExpire_waits hw g), fun ch r hw hr hno => ?_, fun ch r rest hrun hq hd => ⟨fun hw ht hs => ?_, fun ht => ?_⟩,
    fun id x hx => ⟨fun h => ?_, fun w no hw hid hk ha hab ht => ?_⟩⟩
  · have hstopped : r.stopped = false := by
      have hsel := List.find?_some hr
      rw [Bool.and_eq_true] at hsel
      simpa using hsel.1
    have hstops := stopDesc_stops (s.bin 0x544 1) ch.val r.no 0x0C07 r.nextDst r (by omega) hno hstopped
    exact ⟨_, State.row_stay hon ((dmaExpire_channel hv hw ch).trans (chanExpire_running hr)), hstops⟩
  · have hchan : ((s.headTurns ch.val r rest).bin 0x544 1).chan ch.val = { s.chan ch.val with queue := rest, run := [r] } := by
      change (s.headTurns ch.val r rest).chan ch.val = _
      rw [State.headTurns, State.chan_setChan, hrun]
      rfl
    obtain ⟨hfault, hqueue, -, hloam, hsyn⟩ := stopDesc_stops ((s.headTurns ch.val r rest).bin 0x544 1) ch.val r.no 0x0C07 r.desc.src r (by omega)
      (by rw [hchan]; simp) hs
    refine ⟨_, State.row_stay hon ((dmaExpire_channel hv hw ch).trans (chanExpire_head hrun hq hd ht)), ?_, ?_, ?_, ?_⟩
    · rw [State.noteHead_chan, hfault]
    · rw [State.noteHead_chan, hqueue, hchan]
    · rw [State.noteHead_loam, hloam]
      rfl
    · rw [State.noteHead_syn, hsyn]
      rfl
  · exact State.row_stay_none (dmaExpire_none hv (fun c hc => by obtain rfl := DmaTarget.channel.inj hc; exact chanExpire_early hrun hq ht)
      (fun id h => nomatch h))
  · exact State.row_stay_none (dmaExpire_none hv (fun c hc => nomatch hc) (fun i hi => by obtain rfl := DmaTarget.txn.inj hi; exact txnExpire_none hx h))
  · have hstep := (dmaExpire_txn hv hw id).trans (txnExpire_abandons hx hab ht)
    rw [State.abandonCount_store hk] at hstep
    obtain ⟨hphase, hfault, htxns, hloam, hsyn⟩ := State.txnFail_store (s := s.abandons id) hk (by rw [hid]; exact ha) 0x0C07
    exact ⟨_, State.row_stay hon hstep, hphase, hfault, htxns, hloam, hsyn⟩

end Sys2Proof.Machine
end

section
/-! PROOFS. The monitors, the scrubber and failed flits (R61, R62, R65, R233, R260 to R262, R264). -/

namespace Sys2Proof.Machine

section
variable {s : State} {n : Nat}

/-! ### The clock monitor -/

theorem State.clockEvent_shows (s : State) (d : Nat) : (s.clockEvent d).pwr = s.pwr ∧ (s.clockEvent d).cores = s.cores ∧ (s.clockEvent d).loam = s.loam ∧
    (s.clockEvent d).tel.fclkMeas = s.tel.fclkMeas ∧ (s.clockEvent d).tel.droneBad = s.tel.droneBad ∧
    (s.clockEvent d).tel.log.head? = some ⟨0x0C08, 7, false, false, d % 2 ^ 32, s.ts.toNat % 2 ^ 48⟩ := by
  refine ⟨by simp [State.clockEvent], by simp [State.clockEvent], by simp [State.clockEvent], logOnly_meas .., logOnly_bad .., logOnly_head ..⟩

/-- The state once the monitor has counted `n` cycles. -/
def State.counted (s : State) (n : Nat) : State :=
  { s with tel := { s.tel with fclkMeas := min n 2047 }, pwr := { s.pwr with monTicks := 0 } }

theorem clockInterval_none (h : s.pwr.monTicks < 100) : clockInterval n s = none := if_pos h

/-- The state that a count too fast leaves: the event, and the hold of the clock. -/
def State.clockTooFast (s : State) (n : Nat) : State :=
  let t := (s.counted n).clockEvent n
  ({ t with pwr := { t.pwr with clkHold := true, clkGood := 0 } } : State).emit 10 .hold 0xFF 16 [0, 1]

theorem clockInterval_fast (h : 100 ≤ s.pwr.monTicks) (hf : s.pwr.fclk * 102 < n * 100 ∨ 1632 < n) :
    clockInterval n s = some (s.clockTooFast n) := by
  refine (if_neg (Nat.not_lt.mpr h)).trans ?_
  dsimp only
  rw [decide_eq_true hf]
  rfl

theorem clockInterval_slow (h : 100 ≤ s.pwr.monTicks) (hs : n * 100 < s.pwr.fclk * 98) (hn : n ≤ 1632) :
    clockInterval n s = some { (s.counted n).clockEvent n with pwr := { ((s.counted n).clockEvent n).pwr with clkGood := 0 } } := by
  refine (if_neg (Nat.not_lt.mpr h)).trans ?_
  dsimp only
  rw [decide_eq_true hs, decide_eq_false (by omega : ¬ (s.pwr.fclk * 102 < n * 100 ∨ 1632 < n))]
  rfl

theorem clockInterval_good (h : 100 ≤ s.pwr.monTicks) (hf : n * 100 ≤ s.pwr.fclk * 102) (hs : s.pwr.fclk * 98 ≤ n * 100) (hn : n ≤ 1632) :
    clockInterval n s =
      if s.pwr.clkHold = false then some { s.counted n with pwr := { (s.counted n).pwr with clkGood := 0 } }
      else if s.pwr.clkGood = 0 then some { s.counted n with pwr := { (s.counted n).pwr with clkGood := 1 } }
      else some (({ s.counted n with pwr := { (s.counted n).pwr with clkHold := false, clkGood := 0 } } : State).emit 10 .hold 0xFF 16 [0, 0]).endHold := by
  refine (if_neg (Nat.not_lt.mpr h)).trans ?_
  dsimp only
  rw [decide_eq_false (by omega : ¬ n * 100 < s.pwr.fclk * 98), decide_eq_false (by omega : ¬ (s.pwr.fclk * 102 < n * 100 ∨ 1632 < n))]
  simp only [Bool.or_self, Bool.false_eq_true, if_false, false_or, Bool.not_eq_true', State.counted]

theorem fclkStep_waits (h : s.pwr.fclk = 0) (mhz : Nat) :
    fclkStep mhz s = { s with pwr := { s.pwr with clkArrived := s.pwr.clkArrived.map fun _ => mhz } } := if_pos h

theorem fclkStep_runs (h : s.pwr.fclk ≠ 0) (mhz : Nat) :
    fclkStep mhz s = if s.clockHeld then { s with pwr := { s.pwr with fclk := mhz } }
      else ({ s with pwr := { s.pwr with fclk := mhz } } : State).clockEvent mhz := if_neg h

/-! ### The supply and temperature monitors -/

theorem droopOn_holds {mv : Nat} (h : s.pwr.droop = none) (hv : mv < s.tel.vdroop) :
    droopOn mv s = some (({ s with pwr := { s.pwr with droop := some 0 } } : State).emit 10 .hold 0xFF 16 [1, 1]) :=
  if_neg (by simp [h, hv])

theorem droopOn_none {mv : Nat} (h : s.tel.vdroop ≤ mv ∨ s.pwr.droop.isSome = true) : droopOn mv s = none := if_pos h.symm

/-- The state in which a droop of `n` ticks is counted, and logged where it was too long. -/
def State.droopCounted (s : State) (n : Nat) : State :=
  if 1000 < n then (s.bin (droopBin n) 1).logOnly 0x0C09 n else s.bin (droopBin n) 1

theorem State.droopCounted_shows (s : State) (n : Nat) : (s.droopCounted n).pwr = s.pwr ∧ (s.droopCounted n).held = s.held ∧
    (s.droopCounted n).cores = s.cores ∧ (s.droopCounted n).loam = s.loam ∧
    (1000 < n → ∃ e : LogEnt, (s.droopCounted n).tel.log.head? = some e ∧ e.code = 0x0C09) ∧
    (n ≤ 1000 → (s.droopCounted n).tel.log = s.tel.log) := by
  by_cases h : 1000 < n
  · rw [State.droopCounted, if_pos h]
    exact ⟨by simp, by simp, by simp, by simp, fun _ => ⟨_, logOnly_head .., rfl⟩, fun hn => absurd h (Nat.not_lt.mpr hn)⟩
  · rw [State.droopCounted, if_neg h]
    exact ⟨by simp, by simp, by simp, by simp, fun hn => absurd hn h, fun _ => rfl⟩

theorem droopOff_early (hd : s.pwr.droop = some n) (h : n < 8) : droopOff s = none := by
  unfold droopOff
  rw [hd]
  exact if_pos h

/-- The state once a droop is over, before the hold ends. -/
def State.droopOver (s : State) (n : Nat) : State :=
  ({ s.droopCounted n with pwr := { (s.droopCounted n).pwr with droop := none } } : State).emit 10 .hold 0xFF 16 [1, 0]

theorem droopOff_ends (hd : s.pwr.droop = some n) (h : 8 ≤ n) : droopOff s = some (s.droopOver (n - 8)).endHold := by
  unfold droopOff
  rw [hd]
  exact if_neg (Nat.not_lt.mpr h)

theorem overVolt_none {mv : Nat} (h : mv ≤ s.tel.vover) : overVolt mv s = none := if_pos h

theorem overVolt_logs {mv : Nat} (h : s.tel.vover < mv) : overVolt mv s = some (s.logOnly 0x0C09 mv) := if_neg (Nat.not_le.mpr h)

theorem tempStep_none (h : s.pwr.tempTicks < 1000) (t : BitVec 8) : tempStep t s = none := if_pos h

theorem tempStep_samples (h : 1000 ≤ s.pwr.tempTicks) (t : BitVec 8) :
    tempStep t s = some { s with tel := { s.tel with temp := t }, pwr := { s.pwr with tempTicks := 0 } } := if_neg (Nat.not_lt.mpr h)

/-! ### Scrubbing and flits -/

theorem exec_scrub {k : Nat} (hon : s.pwr.state ≠ .off) (hk : k < 393216) (hc : s.clockOn = true) :
    exec (.scrub k) s = .next (if (s.loamSector 7 k).2 = .ue then (s.loamSector 7 k).1.logOnly 0x0308 (k * 64) else (s.loamSector 7 k).1) := by
  refine (State.row_on hon).trans ?_
  rw [decide_eq_true hk, if_pos rfl]
  exact congrArg _ (if_pos hc)

theorem exec_scrub_none {k : Nat} (h : 393216 ≤ k ∨ s.clockOn = false) : exec (.scrub k) s = .next s := by
  change Host.Outcome.next (if s.pwr.state = .off then s else if decide (k < 393216) then (if s.clockOn then s.orStay (scrubStep k s) else s) else s) = _
  rcases h with h | h
  · rw [decide_eq_false (Nat.not_lt.mpr h), if_neg Bool.false_ne_true, ite_self]
  · rw [h, if_neg Bool.false_ne_true, ite_self, ite_self]

/-- The last failing replay ends what the link carried. -/
theorem exec_flitFailed (hon : s.pwr.state ≠ .off) (x : FlitLoad) : exec (.flitCrcFail 8 x) s = .next ((s.bin 0x546 1).linkFailed x) :=
  State.row_on hon

theorem queueStatus_linkRetry (s : State) (r : CreditRet) (fault kind : Nat) : (s.queueStatus r fault kind).ctr.linkRetry = s.ctr.linkRetry := by
  unfold State.queueStatus
  dsimp only
  repeat' split
  all_goals rfl

theorem State.linkFailed_txn {id : Nat} {x : Txn} (hx : s.port.txns.find? (·.id == id) = some x) (ha : x.abandoned = false) :
    s.linkFailed (.txn id) = (s.dropTxn id).txnFail x 0x0A03 := by
  unfold State.linkFailed
  dsimp only
  rw [hx]
  exact if_neg (by simp [ha])

end

/-- Settles O56. -/
theorem monitorsAndErrors : Obligations.MonitorsAndErrors := by
  unfold Obligations.MonitorsAndErrors
  refine ⟨fun s hon => ⟨fun n => ⟨fun h => State.row_stay_none (clockInterval_none h), fun h hf => ?_, fun h hs hn => ?_, fun h hf hs hn => ?_⟩, ?_,
    fun mhz => ⟨fun h ha => ?_, fun n h ha => ?_, fun h => ?_⟩,
    fun mv => ⟨fun h hv => ⟨_, State.row_stay hon (droopOn_holds h hv), by simp, by simp [State.clockHeld], by simp, by simp⟩,
      fun h => State.row_stay_none (droopOn_none h),
      fun h => ⟨_, State.row_stay hon (overVolt_logs h), by simp, by simp, by simp, logOnly_head ..⟩, fun h => State.row_stay_none (overVolt_none h)⟩,
    fun n hd => ⟨fun h => State.row_stay_none (droopOff_early hd h), fun h => ?_⟩,
    fun temp => ⟨fun h => State.row_stay_none (tempStep_none h temp), fun h => State.row_stay hon (tempStep_samples h temp)⟩⟩,
    fun s hon => ⟨fun k u v hk hc hq => ⟨fun hv => ?_, fun hv => ?_⟩, fun k h => exec_scrub_none h, fun k x hk => ?_, ?_, fun d tag core job n => ?_,
      fun id x w no hx hid hab hkind ha => ?_⟩⟩
  · obtain ⟨hpwr, hcores, hloam, hmeas, -, hlog⟩ := (s.counted n).clockEvent_shows n
    refine ⟨_, State.row_stay hon (clockInterval_fast h hf), ?_, ?_, ?_, ?_, ?_, ?_⟩
    · rw [State.clockTooFast, State.emit_pwr, hpwr]; rfl
    · rw [State.clockTooFast, State.emit_tel]; exact hmeas
    · rw [State.clockTooFast]; simp [State.clockHeld]
    · rw [State.clockTooFast, State.emit_loam]; exact hloam
    · rw [State.clockTooFast, State.emit_cores]; exact hcores
    · rw [State.clockTooFast, State.emit_tel]; exact hlog
  · obtain ⟨hpwr, hcores, hloam, hmeas, -, hlog⟩ := (s.counted n).clockEvent_shows n
    exact ⟨_, State.row_stay hon (clockInterval_slow h hs hn), by rw [hpwr]; rfl, hmeas, hloam, hcores, hlog⟩
  · have hstep := clockInterval_good h hf hs hn
    refine ⟨fun hk => ?_, fun hk hg => ?_, fun hk hg => ?_⟩
    · rw [if_pos hk] at hstep
      exact ⟨_, State.row_stay hon hstep, rfl, rfl, rfl⟩
    · rw [if_neg (by simp [hk]), if_pos hg] at hstep
      exact ⟨_, State.row_stay hon hstep, rfl, rfl⟩
    · rw [if_neg (by simp [hk]), if_neg hg] at hstep
      exact ⟨_, State.row_stay hon hstep, by simp [State.counted], by simp [State.counted], by simp [State.counted]⟩
  · obtain ⟨hpwr, hcores, hloam, -, hbad, hlog⟩ := ({ s with tel := { s.tel with droneBad := true } } : State).clockEvent_shows 1
    exact ⟨_, State.row_on hon, hbad, hpwr, hcores, hloam, _, hlog, rfl⟩
  · refine (State.row_on hon).trans ?_
    rw [fclkStep_waits h, ha]
    exact congrArg _ (by rw [Option.map_none, ← ha])
  · refine (State.row_on hon).trans ?_
    rw [fclkStep_waits h, ha]
    rfl
  · refine ⟨_, State.row_on hon, ?_⟩
    rw [fclkStep_runs h]
    by_cases hh : s.clockHeld = true
    · rw [if_pos hh]
      exact ⟨rfl, rfl, rfl, fun hn => by rw [hh] at hn; exact Bool.noConfusion hn, fun _ => rfl⟩
    · rw [if_neg hh]
      obtain ⟨hpwr, hcores, hloam, -, -, hlog⟩ := ({ s with pwr := { s.pwr with fclk := mhz.toNat } } : State).clockEvent_shows mhz.toNat
      exact ⟨hpwr, hcores, hloam, fun _ => ⟨_, hlog, rfl⟩, fun hn => absurd hn hh⟩
  · obtain ⟨hpwr, hheld, hcores, hloam, hlong, hshort⟩ := s.droopCounted_shows (n - 8)
    refine ⟨s.droopOver (n - 8), State.row_stay hon (droopOff_ends hd h), ?_, ?_, ?_, ?_, fun hn => ?_, fun hn => ?_⟩
    · rw [State.droopOver, State.emit_pwr, hpwr]
    · rw [State.droopOver, State.emit_held]; exact hheld
    · rw [State.droopOver, State.emit_cores]; exact hcores
    · rw [State.droopOver, State.emit_loam]; exact hloam
    · rw [State.droopOver, State.emit_tel]; exact hlong (by omega)
    · rw [State.droopOver, State.emit_tel]; exact hshort (by omega)
  · have hread := Touched.loamSector s 7 k
    have hexec := exec_scrub hon hk hc
    rw [hq] at hread hexec
    rw [if_neg hv] at hexec
    exact ⟨u, hexec, rfl, rfl, hread.cores, hread.syn⟩
  · have hread := Touched.loamSector s 7 k
    have hexec := exec_scrub hon hk hc
    rw [hq] at hread hexec
    rw [if_pos hv] at hexec
    refine ⟨_, hexec, by simp, ?_, ?_, ?_⟩
    · rw [State.logOnly_cores]; exact hread.cores
    · rw [State.logOnly_syn]; exact hread.syn
    · rw [logOnly_head, hread.ts]
  · refine ⟨_, State.row_on hon, ?_⟩
    rw [show flitFail k.val x s = _ from if_neg (Nat.not_le.mpr hk)]
    exact ⟨rfl, rfl, rfl, rfl, rfl, rfl⟩
  · exact ⟨_, exec_flitFailed hon .none, by simp [State.linkFailed], by simp [State.linkFailed], logFault_linkRetry .., _, logOnly_head .., rfl⟩
  · refine ⟨_, exec_flitFailed hon (.send d tag core job n), by simp [State.linkFailed], by simp [State.linkFailed], ?_, ?_⟩
    · rw [State.linkFailed, queueStatus_linkRetry]
      exact logFault_linkRetry ..
    · rw [State.linkFailed, State.queueStatus_tel]
      exact ⟨_, logFault_head .., rfl, rfl⟩
  · obtain ⟨hphase, hfault, htxns, hloam, -⟩ := State.txnFail_store (s := (s.bin 0x546 1).dropTxn id) hkind (by rw [hid]; exact ha) 0x0A03
    refine ⟨_, exec_flitFailed hon (.txn id), ?_⟩
    rw [State.linkFailed_txn (s := s.bin 0x546 1) (x := x) hx hab]
    exact ⟨hphase, hfault, htxns, hloam⟩

end Sys2Proof.Machine
end

section
/-! PROOFS. The timestamp probe (R281). -/

namespace Sys2Proof.Machine

section
variable {s : State}

theorem dbgPingGo_sends {p : Party} (h : s.portsHeld = false) (hp : (accOf p).sup = true) (ho : s.pingOk = true) :
    exec (.dbgPingGo p) s = .next (s.pingGo.send (.regAnswer p 0 0)).activate := by
  have hexec := State.row_fastRow (v := 1) h regAt_ping (by decide) (by decide) (by decide)
    (writeFault_ok (b := fastBlocks) (s := s) (a := accOf p) (x := ⟨⟨0xE024, 4, 1, 4, .S, false, 1⟩, 0, 0⟩) hp rfl (by decide)
      (show (!bitAt 1 0 || s.pingOk) = true by rw [ho, Bool.or_true]))
  rw [← State.answered_ok p 0xE024]
  exact hexec

theorem dbgPingGo_refused {p : Party} (h : s.portsHeld = false) (hp : (accOf p).sup = true) (ho : s.pingOk = false) :
    exec (.dbgPingGo p) s = .next (State.answered p 0xE024 (s, 0x0C01)).activate := by
  have hrange : fastBlocks.range s 0xE024 0 0 1 = false := by
    change (!bitAt 1 0 || s.pingOk) = false
    rw [ho]
    decide
  have hfault : writeFault fastBlocks s (accOf p) ⟨⟨0xE024, 4, 1, 4, .S, false, 1⟩, 0, 0⟩ 1 = 0x0C01 := by
    simp [writeFault, RPriv.allows, hp, hrange]
  have hexec := State.row_fastRow_bad (v := 1) h regAt_ping (by decide) (by decide) (by decide) (by rw [hfault]; decide)
  rw [hfault] at hexec
  exact hexec

theorem State.credit_activate (s : State) (k : Nat) : s.activate.credit k = s.credit k := by
  rw [State.credit, State.activate_msg, State.credit]

theorem State.pingGo_credit : s.pingGo.credit s.dbg.pingDest =
    { s.credit s.dbg.pingDest with avail := (s.credit s.dbg.pingDest).avail - 1, out := (s.credit s.dbg.pingDest).out + 1 } :=
  tabGet_tabSet_self ..

/-- A reply with no earlier probe to answer returns the credit, and its times or its fault appear. -/
theorem State.probeReply_answers {t2 t3 t4 : Word64} {f : BitVec 16} (hl : s.dbg.pingLate = []) (h1 : s.dbg.pingState = 1) :
    s.probeReply t2 t3 f t4 = if f = 0 then
        { s.probeCredit s.dbg.pingTo with dbg := { (s.probeCredit s.dbg.pingTo).dbg with pingState := 2, t2 := t2.toNat, t3 := t3.toNat, t4 := t4.toNat } }
      else { s.probeCredit s.dbg.pingTo with dbg := { (s.probeCredit s.dbg.pingTo).dbg with pingState := 3, pingFault := f.toNat } } := by
  unfold State.probeReply
  rw [hl]
  exact if_neg (by simp [h1])

/-- The credit entry of a destination once a probe's credit is back. -/
def State.probeBack (s : State) (e : CreditEnt) (d : Nat) : State :=
  s.setCredit d { s.credit d with avail := min e.allot ((s.credit d).avail + 1), out := (s.credit d).out - 1 }

theorem State.probeCredit_back {e : CreditEnt} {d : Nat} (he : s.str.live.credit d = some e) : s.probeCredit d = s.probeBack e d := by
  unfold State.probeCredit
  rw [he]
  rfl

theorem probeExpire_none (h : s.dbg.pingState ≠ 1 ∨ s.dbg.pingTicks < 1000000) : probeExpire s = none := if_pos h

theorem probeExpire_fails (h : s.dbg.pingState = 1) (ht : 1000000 ≤ s.dbg.pingTicks) :
    probeExpire s = some { s with dbg := { s.dbg with pingState := 3, pingFault := 0, pingLate := s.dbg.pingLate ++ [s.dbg.pingTo] } } :=
  if_neg (by simp [h, ht])

/-- An agent's activity marks leave what a probe shows. -/
theorem activate_ping (s : State) : s.activate.dbg.pingState = s.dbg.pingState ∧ s.activate.dbg.pingFault = s.dbg.pingFault ∧
    s.activate.dbg.t1 = s.dbg.t1 ∧ s.activate.dbg.t2 = s.dbg.t2 ∧ s.activate.dbg.t3 = s.dbg.t3 ∧ s.activate.dbg.t4 = s.dbg.t4 := by
  obtain ⟨l, a, b, c, hd⟩ := activate_dbg s
  rw [hd]
  exact ⟨rfl, rfl, rfl, rfl, rfl, rfl⟩

end

/-- Settles O57. -/
theorem probes : Obligations.Probes := by
  unfold Obligations.Probes
  refine fun s => ⟨fun p h hp => ⟨fun ho => ?_, fun ho => ?_⟩, fun src dest h => ?_, fun t2 t3 f e h hl h1 he => ?_,
    fun hon => ⟨fun h => State.row_stay_none (probeExpire_none h), fun h ht => ⟨_, State.row_stay hon (probeExpire_fails h ht), rfl, rfl, rfl, rfl⟩⟩⟩
  · obtain ⟨hstate, -, ht1, -⟩ := activate_ping (s.pingGo.send (.regAnswer p 0 0))
    have hcredit : (s.pingGo.send (.regAnswer p 0 0)).activate.credit s.dbg.pingDest = _ := (State.credit_activate ..).trans State.pingGo_credit
    refine ⟨_, dbgPingGo_sends h hp ho, hstate, ht1, by rw [hcredit], by rw [hcredit], ?_, ?_, ?_⟩
    · rw [State.activate_out]
      simp [State.pingGo, State.send, State.setCredit]
    · rw [State.activate_loam]; rfl
    · rw [State.activate_syn]; rfl
  · obtain ⟨hstate, -⟩ := activate_ping (State.answered p 0xE024 (s, 0x0C01))
    refine ⟨_, dbgPingGo_refused h hp ho, ?_, ?_, (answered_cores p 0xE024 (s, 0x0C01)).2⟩
    · rw [hstate]
      exact noteAccess_ping ..
    · rw [State.activate_msg]
      exact noteAccess_msg ..
  · exact ⟨_, State.row_arrive h (.probe src dest s.ts), by rw [State.activate_out]; rfl, by rw [State.activate_msg]; rfl, by rw [State.activate_cores]; rfl,
      by rw [State.activate_loam]; rfl⟩
  · obtain ⟨hstate, hfault, ht1, ht2, ht3, ht4⟩ := activate_ping (s.probeReply t2 t3 f s.ts)
    have hreply := State.probeReply_answers (t2 := t2) (t3 := t3) (t4 := s.ts) (f := f) hl h1
    rw [State.probeCredit_back he] at hreply
    have hmsg : (s.probeReply t2 t3 f s.ts).msg = (s.probeBack e s.dbg.pingTo).msg := by
      rw [hreply]; split <;> rfl
    have hcredit : (s.probeReply t2 t3 f s.ts).activate.credit s.dbg.pingTo = { s.credit s.dbg.pingTo with
        avail := min e.allot ((s.credit s.dbg.pingTo).avail + 1), out := (s.credit s.dbg.pingTo).out - 1 } := by
      rw [State.credit_activate, credit_congr hmsg]
      exact credit_setCredit ..
    refine ⟨_, State.row_arrive h (.reply t2 t3 f s.ts), by rw [accept, hcredit], by rw [accept, hcredit], ?_, fun hf => ?_, fun hf => ?_⟩
    · rw [accept, State.activate_loam, hreply]
      split <;> rfl
    · rw [accept, hstate, ht1, ht2, ht3, ht4, hreply, if_pos hf]
      exact ⟨rfl, rfl, rfl, rfl, rfl⟩
    · rw [accept, hstate, hfault, hreply, if_neg hf]
      exact ⟨rfl, rfl⟩

end Sys2Proof.Machine
end

section
/-! PROOFS. The sieve snapshot (R285 to R288). -/

namespace Sys2Proof.Machine

section
variable {s : State}

theorem State.clockOn_on (h : s.clockOn = true) : s.pwr.state ≠ .off := fun hs => by
  simp [State.clockOn, hs] at h

/-! ### Requests and the release -/

theorem requestSnap_starts (h : s.dbg.snapState = 0) (cause fault origin : Nat) : s.requestSnap cause fault origin =
    { s with dbg := { s.dbg with snapState := 1, snapCause := cause, snapFault := fault, snapOrigin := origin, snapTick := s.ts.toNat } } :=
  (if_neg (by simp [h])).trans (if_neg (by simp [h]))

theorem requestSnap_missed (h : s.dbg.snapState = 2) (cause fault origin : Nat) : s.requestSnap cause fault origin =
    { s with dbg := { s.dbg with missed := stick16 s.dbg.missed 1 } } := if_pos h

theorem snapCtrl_take : s.snapCtrl 1 = s.askSnap 0 0 := by
  unfold State.snapCtrl
  dsimp only
  rw [if_pos (by decide : bitAt 1 0 = true)]
  exact if_neg fun h => absurd h.1 (by decide)

theorem snapCtrl_release (h : s.dbg.snapState = 2) : s.snapCtrl 2 = { s with dbg := { s.dbg with snapState := 0, snap := [], omitted := 0 } } := if_pos ⟨by decide, h⟩

/-- An agent's activity marks leave what the store of the snapshot holds. -/
theorem activate_snap (s : State) : s.activate.dbg.snapState = s.dbg.snapState ∧ s.activate.dbg.snapCause = s.dbg.snapCause ∧
    s.activate.dbg.snapOrigin = s.dbg.snapOrigin ∧ s.activate.dbg.snapTick = s.dbg.snapTick ∧ s.activate.dbg.snap = s.dbg.snap ∧
    s.activate.dbg.omitted = s.dbg.omitted ∧ s.activate.dbg.missed = s.dbg.missed := by
  obtain ⟨l, a, b, c, hd⟩ := activate_dbg s
  rw [hd]
  exact ⟨rfl, rfl, rfl, rfl, rfl, rfl, rfl⟩

/-! ### The capture -/

theorem snapDone_none (h : s.dbg.snapState ≠ 1) : snapDone s = none := if_pos (.inl h)

/-- The captured cluster, whose store is held. -/
def State.captured (s : State) : State :=
  { s.snapRing.1 with dbg := { s.snapRing.1.dbg with
      snapState := 2, snap := (s.snapEntries s.snapRing.2).1, omitted := (s.snapEntries s.snapRing.2).2 } }

/-- The captured cluster once every entry went to the trace. -/
def State.capturedTraced (s : State) : State :=
  (s.snapEntries s.snapRing.2).1.foldl (fun (t : State) e => t.emit 14 .single e.who 80 (e.time :: e.kind :: e.vals)) s.captured

theorem snapDone_captures (hc : s.clockOn = true) (h : s.dbg.snapState = 1) : snapDone s = some (allWho.foldl State.beginExpired s.capturedTraced) :=
  if_neg (by simp [hc, h])

theorem State.capturedTraced_shows : s.capturedTraced.dbg.snapState = 2 ∧ s.capturedTraced.dbg.snap = (s.snapEntries s.snapRing.2).1 ∧
    s.capturedTraced.dbg.omitted = (s.snapEntries s.snapRing.2).2 ∧ s.capturedTraced.loam = s.snapRing.1.loam ∧
    s.capturedTraced.syn = s.syn ∧ s.capturedTraced.cores = s.cores := by
  obtain ⟨hstate, hsnap, homitted, hcores, hloam, hsyn⟩ := emit_fold (s.snapEntries s.snapRing.2).1
    (fun e t => t.emit 14 .single e.who 80 (e.time :: e.kind :: e.vals)) (fun a s => ⟨_, _, _, _, _, rfl⟩) s.captured
  exact ⟨hstate, hsnap, homitted, hloam, hsyn.trans (snapRing_frame s).2, hcores.trans (snapRing_frame s).1⟩

/-- A snapshot's entries without the first. -/
def State.snapBody (s : State) (rings : List SnapEnt) : List SnapEnt :=
  s.snapSeq ++ s.snapWait ++ s.snapSend ++ s.snapDma ++ rings ++ s.snapSlot ++ s.snapCredit

theorem State.snapEntries_length (rings : List SnapEnt) : (s.snapEntries rings).1.length = min 1024 ((s.snapBody rings).length + 1) := by
  change (List.take (min 1024 ((s.snapBody rings).length + 1) - 1) (s.snapBody rings)).length + 1 = _
  rw [List.length_take]
  omega

/-- The first entry tells the request, and how many entries there are and are omitted (R286). -/
theorem State.snapEntries_head (rings : List SnapEnt) : (s.snapEntries rings).1.head? = some ⟨s.ts.toNat, 0, 0xFF,
    [s.dbg.snapCause, s.dbg.snapFault, s.dbg.snapOrigin, s.dbg.snapTick, s.str.shownId, s.str.epoch.toNat,
      (s.snapEntries rings).1.length, (s.snapEntries rings).2]⟩ := by
  rw [State.snapEntries_length]
  rfl

theorem mem_allWho (w : Who) : w ∈ allWho := by
  obtain ⟨c, k⟩ := w
  rw [allWho, List.mem_flatMap]
  exact ⟨c, List.mem_finRange c, by cases k <;> simp⟩

theorem allWho_nodup : allWho.Nodup := by decide

end

/-- Settles O58. -/
theorem snapshots : Obligations.Snapshots := by
  unfold Obligations.Snapshots
  refine fun s => ⟨fun p h hp => ⟨fun h0 => ?_, fun h2 => ?_, fun h2 => ?_⟩,
    fun o hon => ⟨fun h0 => ⟨_, State.row_on hon, ?_⟩, fun h2 => ⟨_, State.row_on hon, ?_⟩⟩,
    fun hon h => State.row_stay_none (snapDone_none h), fun hc h1 => ?_⟩
  · obtain ⟨hcores, -, hloam, -, hdbg, -⟩ := askSnap_frame s 0 0
    have hexec := snap_row p s hp h 1 (by decide)
    rw [snapCtrl_take] at hexec
    obtain ⟨hstate, hcause, horigin, htick, -⟩ := activate_snap ((s.askSnap 0 0).send (.regAnswer p 0 0))
    refine ⟨_, hexec, ?_, ?_, ?_, ?_, ?_, ?_⟩
    · rw [hstate, State.send_dbg, hdbg, requestSnap_starts h0]
    · rw [hcause, State.send_dbg, hdbg, requestSnap_starts h0]
    · rw [horigin, State.send_dbg, hdbg, requestSnap_starts h0]
    · rw [htick, State.send_dbg, hdbg, requestSnap_starts h0]
    · rw [State.activate_cores, State.send_cores, hcores]
    · rw [State.activate_loam, State.send_loam, hloam]
  · obtain ⟨hcores, -, hloam, -, hdbg, -⟩ := askSnap_frame s 0 0
    have hexec := snap_row p s hp h 1 (by decide)
    rw [snapCtrl_take] at hexec
    obtain ⟨hstate, -, -, -, hsnap, -, hmissed⟩ := activate_snap ((s.askSnap 0 0).send (.regAnswer p 0 0))
    refine ⟨_, hexec, ?_, ?_, ?_, ?_, ?_⟩
    · rw [hmissed, State.send_dbg, hdbg, requestSnap_missed h2]
    · rw [hstate, State.send_dbg, hdbg, requestSnap_missed h2]; exact h2
    · rw [hsnap, State.send_dbg, hdbg, requestSnap_missed h2]
    · rw [State.activate_cores, State.send_cores, hcores]
    · rw [State.activate_loam, State.send_loam, hloam]
  · have hexec := snap_row p s hp h 2 (by decide)
    rw [snapCtrl_release h2] at hexec
    obtain ⟨hstate, -, -, -, hsnap, homitted, hmissed⟩ :=
      activate_snap (({ s with dbg := { s.dbg with snapState := 0, snap := [], omitted := 0 } } : State).send (.regAnswer p 0 0))
    exact ⟨_, hexec, hstate, hsnap, homitted, hmissed, by rw [State.activate_cores]; rfl, by rw [State.activate_loam]; rfl⟩
  · rw [snapForwarded, requestSnap_starts h0]
    exact ⟨rfl, rfl, rfl, rfl, rfl⟩
  · rw [snapForwarded, requestSnap_missed h2]
    exact ⟨rfl, rfl, rfl⟩
  · obtain ⟨hstate, hsnap, homitted, hloam, hsyn, hcores⟩ := State.capturedTraced_shows (s := s)
    have hfold (w : Who) := expired_fold allWho w s.capturedTraced allWho_nodup
    obtain ⟨-, -, hfstate, hfsnap, hfomitted, hfloam, hfsyn⟩ := hfold ⟨0, .cmd⟩
    have hctx (w : Who) : s.capturedTraced.ctx w = s.ctx w := State.ctx_of_cores hcores w
    have hitem (w : Who) : s.capturedTraced.item w = s.item w := by rw [State.item, hctx, State.item]
    refine ⟨_, State.row_stay (State.clockOn_on hc) (snapDone_captures hc h1), hfstate.trans hstate, hfsnap.trans hsnap, hfomitted.trans homitted,
      hfloam.trans hloam, hfsyn.trans hsyn, ?_, ?_, fun w a ha hs => ?_, fun w ha => ?_⟩
    · rw [hfsnap, hfomitted, hsnap, homitted]
      exact ⟨_, State.snapEntries_head _, rfl, rfl, rfl⟩
    · rw [hfsnap, hsnap, State.snapEntries_length]
      exact Nat.min_le_left ..
    · obtain ⟨hearly, hlate⟩ := (hfold w).1 a (mem_allWho w) (by rw [hitem]; exact ha) hs
      unfold State.unstarted at hearly hlate
      rw [hctx] at hearly hlate
      exact ⟨hearly, fun h1 h2 => hlate fun h => h.elim h1 h2⟩
    · exact ((hfold w).2.1 (.inr (by rw [hitem]; exact ha))).trans (hctx w)

end Sys2Proof.Machine
end

section
/-! PROOFS. Tensor-watch dumps and the trace drain (R278, R279, R283). -/

namespace Sys2Proof.Machine

/-! ### Dumps -/

section
variable {w : Who} {s : State} {h : WatchHit} {hs : List WatchHit}

theorem dumpStep_none (hn : (s.item w).watch = [] ∨ s.dumpReady w = false) : dumpStep w s = none := by
  unfold dumpStep
  dsimp only
  split
  · rfl
  · next hw => exact if_pos (by rw [hn.resolve_left (by simp [hw])]; rfl)

section
variable (hw : (s.item w).watch = h :: hs) (hr : s.dumpReady w = true)
include hw hr

theorem dumpStep_begins (hd : (s.item w).dump = none) : dumpStep w s = some (s.setDump w (some
    { time := s.ts.toNat, fault := ((s.item w).abort.map (·.fault)).getD 0, next := if (s.item w).abort.isSome then (s.item w).hdr.regions.length else 0 })) := by
  unfold dumpStep
  dsimp only
  rw [hw]
  refine (if_neg (by simp [hr])).trans ?_
  rw [hd]

theorem dumpStep_goes {d : Dump} (hd : (s.item w).dump = some d) : dumpStep w s = s.dumpGoes w h d := by
  unfold dumpStep
  dsimp only
  rw [hw]
  refine (if_neg (by simp [hr])).trans ?_
  rw [hd]

end

/-- With every region copied, or no room left for more, the header is written next. -/
theorem State.dumpGoes_header {d : Dump} (hd : d.header = none) (hc : (s.chan 32).run.find? (fun r => r.itemNo == (s.item w).no) = none)
    (hn : (s.item w).hdr.regions.length ≤ d.next ∨ h.room d = 0) : s.dumpGoes w h d = s.writeDumpHeader w h d := by
  unfold State.dumpGoes
  dsimp only
  rw [hd]
  dsimp only
  rw [hc]
  dsimp only
  split
  · next reg hreg =>
    refine if_pos (hn.resolve_left fun hle => ?_)
    rw [List.getElem?_eq_none hle] at hreg
    exact nomatch hreg
  · rfl

theorem State.dumpEnds_shows (s : State) (w : Who) (h : WatchHit) (d : Dump) : ((s.dumpEnds w h d).item w).watch = (s.item w).watch.drop 1 ∧
    ((s.dumpEnds w h d).item w).dump = none ∧ (s.dumpEnds w h d).loam = s.loam := by
  simp [State.dumpEnds]

/-- The header goes to the own Loam where it may be written there, and the entry is over. -/
theorem State.writeDumpHeader_own {d : Dump} {l : Nat} (hw : (s.item w).watch = h :: hs) (hl : placeOf s.id h.addr = .own l)
    (ha : s.dumpAllowed w.core.val h.addr 64 = 64) :
    ∃ t, s.writeDumpHeader w h d = some t ∧ (t.item w).watch = hs ∧ (t.item w).dump = none ∧
      t.loam = (s.loamWrite 5 l (dumpHeader (pkgIndex s.id) w (s.item w).hdr h d)).1.loam := by
  obtain ⟨q, hq⟩ : ∃ q, q = s.loamWrite 5 l (dumpHeader (pkgIndex s.id) w (s.item w).hdr h d) := ⟨_, rfl⟩
  have hitem : q.1.item w = s.item w := by
    rw [hq, State.item, (Touched.loamWrite s 5 l _).ctx, State.item]
  have hgoes : s.writeDumpHeader w h d =
      some (if q.2 = 0 then q.1.dumpEnds w h d else (q.1.logOnly 0x0D01 h.addr).dumpEnds w h { d with fault := 0x0D01 }) := by
    unfold State.writeDumpHeader
    dsimp only
    refine (if_neg (by rw [ha]; decide)).trans ?_
    rw [hl, hq]
  refine ⟨_, hgoes, ?_⟩
  rw [← hq]
  split
  · obtain ⟨hwatch, hdump, hloam⟩ := q.1.dumpEnds_shows w h d
    exact ⟨by rw [hwatch, hitem, hw]; rfl, hdump, hloam⟩
  · obtain ⟨hwatch, hdump, hloam⟩ := (q.1.logOnly 0x0D01 h.addr).dumpEnds_shows w h { d with fault := 0x0D01 }
    exact ⟨by rw [hwatch, State.item_logOnly, hitem, hw]; rfl, hdump, hloam.trans (State.logOnly_loam ..)⟩

/-- Where the header may not be written the entry is over without it. -/
theorem State.writeDumpHeader_refused {d : Dump} (hw : (s.item w).watch = h :: hs) (ha : s.dumpAllowed w.core.val h.addr 64 < 64) :
    ∃ t, s.writeDumpHeader w h d = some t ∧ (t.item w).watch = hs ∧ (t.item w).dump = none ∧ t.loam = s.loam := by
  obtain ⟨hwatch, hdump, hloam⟩ := (s.logOnly 0x0D01 h.addr).dumpEnds_shows w h { d with fault := 0x0D01 }
  exact ⟨_, if_pos ha, by rw [hwatch, State.item_logOnly, hw]; rfl, hdump, hloam.trans (State.logOnly_loam ..)⟩

end

/-! ### The trace -/

theorem send_fold {α : Type} (f : α → Output) (l : List α) : ∀ s : State,
    (l.foldl (fun (t : State) e => t.send (f e)) s).out = s.out ++ l.map f ∧ (l.foldl (fun (t : State) e => t.send (f e)) s).dbg = s.dbg ∧
    (l.foldl (fun (t : State) e => t.send (f e)) s).cores = s.cores ∧ (l.foldl (fun (t : State) e => t.send (f e)) s).loam = s.loam := by
  induction l with
  | nil => exact fun s => ⟨(List.append_nil _).symm, rfl, rfl, rfl⟩
  | cons a l ih =>
    intro s
    obtain ⟨hout, hdbg, hcores, hloam⟩ := ih (s.send (f a))
    exact ⟨by rw [List.foldl_cons, hout, State.send_out, List.append_assoc]; rfl, hdbg, hcores, hloam⟩

theorem traceOut_none {s : State} (h : s.clockOn = false ∨ s.dbg.staged = []) (n : Nat) : traceOut n s = none :=
  if_pos (by rcases h with h | h <;> simp [h])

theorem traceOut_drains {s : State} (hc : s.clockOn = true) (h : s.dbg.staged ≠ []) (n : Nat) : traceOut n s =
    some ((s.dbg.staged.take n).foldl (fun (t : State) e => t.send (.trace (e.header (pkgIndex s.id)) e))
      { s with dbg := { s.dbg with staged := s.dbg.staged.drop n } }) :=
  if_neg (by simp [hc, h])

theorem leNat_leBytes_mod (n : Nat) : ∀ v, leNat (leBytes n v) = v % 256 ^ n := by
  induction n with
  | zero => intro v; simp [leNat, leBytes, Nat.mod_one]
  | succ n ih =>
    intro v
    rw [leBytes, leNat, ih, BitVec.toNat_ofNat, show (2 : Nat) ^ 8 = 256 from rfl, Nat.pow_succ', Nat.mod_mul]

theorem TraceEv.header_fields (e : TraceEv) (c : Nat) : (e.header c).length = 16 ∧ fieldB (e.header c) 0 8 = e.time % 2 ^ 64 ∧
    fieldB (e.header c) 8 1 = e.cls % 32 ∧ fieldB (e.header c) 10 1 = e.who % 256 ∧ fieldB (e.header c) 11 1 = e.size / 16 % 256 ∧
    fieldB (e.header c) 12 2 = c % 2 ^ 16 ∧ fieldB (e.header c) 14 2 = e.seq % 2 ^ 16 := by
  refine ⟨rfl, leNat_leBytes_mod 8 e.time, (leNat_leBytes_mod 1 (e.cls % 32)).trans ?_, leNat_leBytes_mod 1 e.who, leNat_leBytes_mod 1 (e.size / 16),
    leNat_leBytes_mod 2 c, leNat_leBytes_mod 2 e.seq⟩
  omega

/-- Settles O59. -/
theorem dumpsAndTrace : Obligations.DumpsAndTrace := by
  unfold Obligations.DumpsAndTrace
  refine ⟨fun w s hf => ⟨fun hn => State.row_fast_none (dumpStep_none hn), fun h hs hw hr => ⟨fun hd => ?_, fun d l hd hh hc hn hl ha => ?_,
    fun d hd hh hc hn ha => ?_⟩⟩, fun n s hon => ⟨fun h => ?_, fun hc h hn => ?_, TraceEv.header_fields⟩⟩
  · refine ⟨_, State.row_fast hf (dumpStep_begins hw hr hd), ?_, ?_, ?_⟩
    · rw [State.activate_loam, State.setDump, State.modItem_loam]
    · rw [State.item_activate, State.setDump, State.item_modItem_self]; exact hw
    · rw [State.item_activate, State.setDump, State.item_modItem_self]
  · obtain ⟨t, ht, hwatch, hdump, hloam⟩ := State.writeDumpHeader_own (d := d) hw hl ha
    exact ⟨_, State.row_fast hf ((dumpStep_goes hw hr hd).trans ((State.dumpGoes_header hh hc hn).trans ht)),
      by rw [State.item_activate, hwatch], by rw [State.item_activate, hdump], by rw [State.activate_loam, hloam]⟩
  · obtain ⟨t, ht, hwatch, hdump, hloam⟩ := State.writeDumpHeader_refused (d := d) hw ha
    exact ⟨_, State.row_fast hf ((dumpStep_goes hw hr hd).trans ((State.dumpGoes_header hh hc hn).trans ht)),
      by rw [State.item_activate, hwatch], by rw [State.item_activate, hdump], by rw [State.activate_loam, hloam]⟩
  · rcases Nat.eq_zero_or_pos n with rfl | hn
    · exact State.row_on hon
    · have hnone := traceOut_none (h.imp_right fun h => h.resolve_right (Nat.ne_of_gt hn)) n
      exact State.row_checked (decide_eq_true hn) (State.row_stay_none hnone)
  · obtain ⟨hout, hdbg, hcores, hloam⟩ := send_fold (fun e : TraceEv => Output.trace (e.header (pkgIndex s.id)) e) (s.dbg.staged.take n)
      { s with dbg := { s.dbg with staged := s.dbg.staged.drop n } }
    exact ⟨_, State.row_checked (decide_eq_true hn) (State.row_stay hon (traceOut_drains hc h n)), hdbg, hout, hcores, hloam⟩

end Sys2Proof.Machine
end

section
/-! PROOFS. Register accesses from outside, of every width (R237, R241, R256, R292 to R294, R304). -/

namespace Sys2Proof.Machine

/-! ### Which accesses are held -/

theorem aonReg_block (o : Nat) : aonReg o = decide (o / 0x1000 = 1 ∨ o / 0x1000 = 0xB ∨ o / 0x1000 = 0xC) := by
  unfold aonReg
  refine decide_eq_decide.mpr ?_
  omega

theorem Traffic.ofHost_write (p : Party) (o : Nat) (w : Width) (v : Word64) : (Traffic.write p o w v).ofHost = decide (p = .host) := by
  cases p <;> rfl

theorem Traffic.ofHost_read (p : Party) (o : Nat) (w : Width) : (Traffic.read p o w).ofHost = decide (p = .host) := by
  cases p <;> rfl

section
variable {s : State} {p : Party} {o : Nat} {w : Width} {v : Word64}

theorem State.holds_write : s.holds (.write p o w v) = ((if p = .host then !s.clockOn || s.swapHeld else !s.agentsOn) || s.waitsOn (blockLookups o)) := by
  unfold State.holds
  rw [Traffic.ofHost_write]
  by_cases hp : p = .host
  · rw [decide_eq_true hp, if_pos rfl, if_pos hp]
    rfl
  · rw [decide_eq_false hp, if_neg Bool.false_ne_true, if_neg hp]
    rfl

theorem State.holds_read : s.holds (.read p o w) = ((if p = .host then !s.clockOn || s.swapHeld else !s.agentsOn) || s.waitsOn (blockLookups o)) := by
  unfold State.holds
  rw [Traffic.ofHost_read]
  by_cases hp : p = .host
  · rw [decide_eq_true hp, if_pos rfl, if_pos hp]
    rfl
  · rw [decide_eq_false hp, if_neg Bool.false_ne_true, if_neg hp]
    rfl

theorem State.writeFrom_early (ha : aonReg o = true) (h : s.heldEarly p o true = true) :
    s.writeFrom p o w v = { s with heldAon := s.heldAon ++ [.write p o w v] } := (if_pos ha).trans (if_pos h)

theorem State.readFrom_early (ha : aonReg o = true) (h : s.heldEarly p o false = true) :
    s.readFrom p o w = { s with heldAon := s.heldAon ++ [.read p o w] } := (if_pos ha).trans (if_pos h)

theorem State.writeFrom_held (ha : aonReg o = false) (h : s.holds (.write p o w v) = true) :
    s.writeFrom p o w v = { s with held := s.held ++ [.write p o w v] } := (if_neg (by simp [ha])).trans (if_pos h)

theorem State.readFrom_held (ha : aonReg o = false) (h : s.holds (.read p o w) = true) :
    s.readFrom p o w = { s with held := s.held ++ [.read p o w] } := (if_neg (by simp [ha])).trans (if_pos h)

/-- What a served access leaves: the states agree but for the log, the power state, the trace and what is sent. -/
def Alike (t u : State) : Prop := t.loam = u.loam ∧ t.str = u.str ∧ t.cores = u.cores ∧ t.msg = u.msg ∧ t.latches = u.latches

theorem Alike.activate {t u : State} (h : Alike t u) : Alike t.activate u := by
  obtain ⟨hloam, hstr, hcores, hmsg, hlatches⟩ := h
  exact ⟨by rw [State.activate_loam, hloam], by rw [State.activate_str, hstr], by rw [State.activate_cores, hcores],
    by rw [State.activate_msg, hmsg], by rw [State.activate_latches, hlatches]⟩

theorem outsideWrite_alike (b : Blocks) (p : Party) (o : Nat) (w : Width) (v : Nat) (s : State) :
    Alike (outsideWrite b p o w v s) (regWriteWith b s (accOf p) o w v).1 ∧
      (outsideWrite b p o w v s).out.getLast? = some (.regAnswer p 0 (regWriteWith b s (accOf p) o w v).2) := by
  obtain ⟨hloam, hstr, hcores, hmsg, hlatches, hout⟩ := outsideWrite_out b p o w v s
  exact ⟨⟨hloam, hstr, hcores, hmsg, hlatches⟩, hout⟩

/-- The answer to a read. -/
def readAnswer (p : Party) : Rd Nat → Output
  | .ok x => .regAnswer p (BitVec.ofNat 64 x) 0
  | .bad f => .regAnswer p 0 f

theorem outsideRead_alike (p : Party) (o : Nat) (w : Width) (s : State) :
    Alike (outsideRead p o w s) (s.regRead (accOf p) o w).1 ∧
      (outsideRead p o w s).out.getLast? = some (readAnswer p (s.regRead (accOf p) o w).2) := by
  obtain ⟨hloam, hstr, hcores, hmsg, hlatches, hout⟩ := outsideRead_out p o w s
  refine ⟨⟨hloam, hstr, hcores, hmsg, hlatches⟩, hout.trans ?_⟩
  cases (s.regRead (accOf p) o w).2 <;> rfl

/-- An access that is not held is answered, and leaves what the block of its register leaves. -/
theorem State.writeFrom_answers (ha : aonReg o = true → s.heldEarly p o true = false) (hf : aonReg o = false → s.holds (.write p o w v) = false) :
    Alike (s.writeFrom p o w v) (regWriteWith (if aonReg o = true then allBlocks else fastBlocks) s (accOf p) o w v.toNat).1 ∧
      (s.writeFrom p o w v).out.getLast? =
        some (.regAnswer p 0 (regWriteWith (if aonReg o = true then allBlocks else fastBlocks) s (accOf p) o w v.toNat).2) := by
  obtain ⟨halike, hout⟩ := outsideWrite_alike (if aonReg o = true then allBlocks else fastBlocks) p o w v.toNat s
  rcases State.writeFrom_served ha hf with h | h
  · rw [h]
    exact ⟨halike, hout⟩
  · rw [h]
    exact ⟨halike.activate, by rw [State.activate_out, hout]⟩

theorem State.readFrom_answers (ha : aonReg o = true → s.heldEarly p o false = false) (hf : aonReg o = false → s.holds (.read p o w) = false) :
    Alike (s.readFrom p o w) (s.regRead (accOf p) o w).1 ∧
      (s.readFrom p o w).out.getLast? = some (readAnswer p (s.regRead (accOf p) o w).2) := by
  obtain ⟨halike, hout⟩ := outsideRead_alike p o w s
  rcases State.readFrom_served ha hf with h | h
  · rw [h]
    exact ⟨halike, hout⟩
  · rw [h]
    exact ⟨halike.activate, by rw [State.activate_out, hout]⟩

end

/-! ### Shapes that are refused -/

section
variable {b : Blocks} {s : State} {a : Acc} {o v : Nat}

theorem regWriteWith_b4 (h : o % 4 = 0) : regWriteWith b s a o .b4 v = write32 b s a o (v % 2 ^ 32) := if_neg (by simp [h])

theorem regWriteWith_b8 (h : o % 8 = 0) : regWriteWith b s a o .b8 v = write64 b s a o v := if_neg (by simp [h])

theorem regRead_b8 (h : o % 8 = 0) : s.regRead a o .b8 = s.read64 a o := if_neg (by simp [h])

theorem regRead_b4 {x : RegAt} (h : o % 4 = 0) (hx : regAt o = some x) :
    s.regRead a o .b4 = if x.row.priv.allows a false then s.readWord a x o else (s, .bad 0x0C02) := by
  refine (if_neg (by simp [h])).trans ?_
  rw [hx, readFault]
  cases x.row.priv.allows a false <;> rfl

theorem narrow_refused {w : Width} (h : w ∈ [Width.b1, Width.b2]) : regWriteWith b s a o w v = (s, 0x0C01) ∧ s.regRead a o w = (s, .bad 0x0C01) := by
  simp only [List.mem_cons, List.not_mem_nil, or_false] at h
  obtain rfl | rfl := h <;> exact ⟨rfl, rfl⟩

theorem word_refused (h : regAt o = none ∨ o % 4 ≠ 0) : regWriteWith b s a o .b4 v = (s, 0x0C01) ∧ s.regRead a o .b4 = (s, .bad 0x0C01) := by
  by_cases h4 : o % 4 = 0
  · have hx := h.resolve_right (not_not.mpr h4)
    refine ⟨?_, (if_neg (by simp [h4])).trans ?_⟩
    · rw [regWriteWith_b4 h4, write32, hx]
    · rw [hx]
      rfl
  · exact ⟨if_pos h4, if_pos h4⟩

theorem dword_refused (h : (regAt o = none ∧ regAt (o + 4) = none) ∨ o % 8 ≠ 0) :
    regWriteWith b s a o .b8 v = (s, 0x0C01) ∧ s.regRead a o .b8 = (s, .bad 0x0C01) := by
  by_cases h8 : o % 8 = 0
  · obtain ⟨hlo, hhi⟩ := h.resolve_right (not_not.mpr h8)
    rw [regWriteWith_b8 h8, regRead_b8 h8, write64, State.read64, hlo, hhi]
    exact ⟨rfl, rfl⟩
  · exact ⟨if_pos h8, if_pos h8⟩

/-! ### 32-bit accesses -/

variable {x : RegAt}

theorem write32_whole (hx : regAt o = some x) (h8 : x.row.bytes ≠ 8) :
    write32 b s a o v = if writeFault b s a x v ≠ 0 then (s, writeFault b s a x v) else b.act s x.row.first x.k x.o v := by
  rw [write32, hx]
  exact if_neg h8

/-- The state in which the latch of a path for a register is used up. -/
def State.unlatched (s : State) (a : Acc) (o : Nat) : State := s.setLatch a o { s.latch a o with wr := 0 }

theorem write32_half (hx : regAt o = some x) (h8 : x.row.bytes = 8) (ha : x.row.priv.allows a true = true) (hr : x.row.ro = false) :
    write32 b s a o v =
      if x.o = 0 then (s.setLatch a o { s.latch a o with wr := BitVec.ofNat 32 v }, 0)
      else if writeFault b (s.unlatched a o) a { x with o := 0 } ((s.latch a o).wr.toNat + v * 2 ^ 32) ≠ 0 then
        (s.unlatched a o, writeFault b (s.unlatched a o) a { x with o := 0 } ((s.latch a o).wr.toNat + v * 2 ^ 32))
      else b.act (s.unlatched a o) x.row.first x.k 0 ((s.latch a o).wr.toNat + v * 2 ^ 32) := by
  rw [write32, hx]
  refine (if_pos h8).trans ((if_neg ?_).trans (if_neg ?_))
  · rw [ha]
    decide
  · rw [hr]
    decide

theorem readWord_low {u : State} {c : List Byte} (h8 : x.row.bytes = 8) (ho : x.o = 0) (h : s.regBytes a x 8 = (u, .ok c)) :
    s.readWord a x o = (u.setLatch a o { u.latch a o with rd := some (BitVec.ofNat 32 (fieldB c 4 4)) }, .ok (fieldB c 0 4)) := by
  refine (if_pos ⟨h8, ho⟩).trans ?_
  dsimp only
  rw [h]

theorem readWord_latched {hi : Word32} (h8 : x.row.bytes = 8) (ho : x.o ≠ 0) (h : (s.latch a o).rd = some hi) :
    s.readWord a x o = (s.setLatch a o { s.latch a o with rd := none }, .ok hi.toNat) := by
  refine (if_neg fun hn => ho hn.2).trans ?_
  rw [if_pos h8, h]

theorem readWord_plain {u : State} {c : List Byte} (h : x.row.bytes ≠ 8 ∨ (x.o ≠ 0 ∧ (s.latch a o).rd = none)) (hb : s.regBytes a x 4 = (u, .ok c)) :
    s.readWord a x o = (u, .ok (leNat c)) := by
  have hlatch : (if x.row.bytes = 8 then (s.latch a o).rd else none) = none := by
    split
    · next h8 => exact (h.resolve_left (not_not.mpr h8)).2
    · rfl
  refine (if_neg fun hn => ?_).trans ?_
  · exact h.elim (fun h8 => h8 hn.1) fun ho => ho.1 hn.2
  · rw [hlatch]
    dsimp only
    rw [hb]

/-! ### 64-bit accesses -/

theorem write64_whole (hx : regAt o = some x) (h8 : x.row.bytes = 8) :
    write64 b s a o v = if writeFault b s a x v ≠ 0 then (s, writeFault b s a x v) else b.act s x.row.first x.k 0 v := by
  unfold write64
  dsimp only
  rw [hx]
  exact if_pos h8

theorem read64_whole {u : State} {c : List Byte} (hx : regAt o = some x) (h8 : x.row.bytes = 8) (ho : x.o = 0) (ha : x.row.priv.allows a false = true)
    (h : s.regBytes a x 8 = (u, .ok c)) : s.read64 a o = (u, .ok (leNat c)) := by
  unfold State.read64
  dsimp only
  rw [hx]
  refine (if_pos ⟨h8, ho⟩).trans ((if_neg ?_).trans ?_)
  · rw [ha]
    decide
  · rw [h]

theorem write64_pair (h8 : ∀ x, regAt o = some x → x.row.bytes ≠ 8) (hx : regAt o ≠ none ∨ regAt (o + 4) ≠ none) :
    write64 b s a o v = write64.pair b s a v (regAt o) (regAt (o + 4)) := by
  unfold write64
  dsimp only
  cases hlo : regAt o with
  | some x => exact if_neg (h8 x hlo)
  | none =>
    refine if_neg ?_
    simpa [hlo] using hx

/-- The two words of a wide access lie in two registers, and a half of zero on a read-only one or on none is ignored (R294). -/
def HalfIdle (wide : Bool) (y : Option RegAt) (n : Nat) : Prop := n = 0 ∧ ∀ r, y = some r → r.row.ro = true ∧ wide = false

theorem halfFault_of {wide : Bool} {y : Option RegAt} {n f : Nat}
    (h : (HalfIdle wide y n ∧ f = 0) ∨ (y = none ∧ n ≠ 0 ∧ f = 0x0C01) ∨ ∃ r, y = some r ∧ ¬ HalfIdle wide y n ∧ f = writeFault b s a r n) :
    halfFault b s a wide y n = f := by
  obtain ⟨⟨hn, hidle⟩, rfl⟩ | ⟨rfl, hn, rfl⟩ | ⟨r, rfl, hbusy, rfl⟩ := h
  · cases y with
    | none => exact if_pos hn
    | some r =>
      obtain ⟨hro, hwide⟩ := hidle r rfl
      exact if_pos ⟨hro, hn, by rw [hwide]; rfl⟩
  · exact if_neg hn
  · refine if_neg fun ⟨hro, hn, hwide⟩ => hbusy ⟨hn, fun q hq => ?_⟩
    obtain rfl := Option.some.inj hq
    exact ⟨hro, by simpa using hwide⟩

/-- A write of two words: the first fault of the halves, or the effects of both. -/
theorem pair_eq {y z : Option RegAt} {fl fh : Nat} (hl : halfFault b s a (sameReg y z) y (v % 2 ^ 32) = fl)
    (hh : halfFault b s a (sameReg y z) z (v / 2 ^ 32) = fh) :
    write64.pair b s a v y z = if fl ≠ 0 then (s, fl) else if fh ≠ 0 then (s, fh)
      else if (halfAct b s y (v % 2 ^ 32)).2 ≠ 0 then halfAct b s y (v % 2 ^ 32) else halfAct b (halfAct b s y (v % 2 ^ 32)).1 z (v / 2 ^ 32) := by
  rw [← hl, ← hh]
  rfl

end

/-- Settles O60. -/
theorem registerAccess : Obligations.RegisterAccess := by
  unfold Obligations.RegisterAccess
  intro p off s hon o a aon b served alike
  have hwrite (w : Width) (v : Word64) (hw : accessWf p w = true) : exec (.registerWrite p off w v) s = .next (s.writeFrom p o w v) :=
    State.row_checked (f := fun s => s.writeFrom p o w v) hw (State.row_on hon)
  have hread (w : Width) (hw : accessWf p w = true) : exec (.registerRead p off w) s = .next (s.readFrom p o w) :=
    State.row_checked (f := fun s => s.readFrom p o w) hw (State.row_on hon)
  refine ⟨⟨aonReg_block o, fun wr => rfl, fun w v => State.holds_write, fun w => State.holds_read⟩, fun w v hw => ⟨fun ha h => ?_, fun ha h => ?_, fun ha h => ?_,
    fun ha h => ?_, fun hs u f hq => ⟨_, hwrite w v hw, ?_⟩, fun hs u r hq => ⟨_, hread w hw, ?_⟩⟩,
    fun v => ⟨fun w hw => narrow_refused hw, word_refused, dword_refused⟩, fun x v hx h4 hv => ⟨fun h8 => ?_, fun h8 ha hr => ?_, fun ha => ?_, fun ha => ⟨fun u c h8 ho hc => ?_,
      fun hi h8 ho hl => ?_, fun u c h hc => ?_⟩⟩, fun x v hx h8o h8 => ⟨?_, fun u c ho ha hc => ?_⟩, fun v h8o h8 hx => ?_⟩
  · rw [hwrite w v hw, State.writeFrom_early ha h]
  · rw [hread w hw, State.readFrom_early ha h]
  · rw [hwrite w v hw, State.writeFrom_held ha h]
  · rw [hread w hw, State.readFrom_held ha h]
  · have hanswers := State.writeFrom_answers (w := w) (v := v) hs.1 hs.2
    rw [show regWriteWith (if aonReg o = true then allBlocks else fastBlocks) s (accOf p) o w v.toNat = (u, f) from hq] at hanswers
    exact hanswers
  · have hanswers := State.readFrom_answers (w := w) hs.1 hs.2
    rw [show s.regRead (accOf p) o w = (u, r) from hq] at hanswers
    refine ⟨hanswers.1, hanswers.2.trans ?_⟩
    cases r <;> rfl
  · rw [regWriteWith_b4 h4, Nat.mod_eq_of_lt hv, write32_whole hx h8]
  · intro t both
    rw [regWriteWith_b4 h4, Nat.mod_eq_of_lt hv]
    exact write32_half hx h8 ha hr
  · rw [regRead_b4 h4 hx, ha]
    rfl
  · rw [regRead_b4 h4 hx, if_pos ha, readWord_low h8 ho hc]
  · rw [regRead_b4 h4 hx, if_pos ha, readWord_latched h8 ho hl]
  · rw [regRead_b4 h4 hx, if_pos ha, readWord_plain h hc]
  · rw [regWriteWith_b8 h8o, write64_whole hx h8]
  · rw [regRead_b8 h8o, read64_whole hx h8 ho ha hc]
  · intro wide idle fault does fl fh hl hh
    rw [regWriteWith_b8 h8o, write64_pair h8 hx, pair_eq (halfFault_of hl) (halfFault_of hh)]
    refine ⟨fun hf => ?_, fun hfl hfh t ht => ?_⟩
    · by_cases hfl : fl = 0
      · rw [if_neg (not_not.mpr hfl), if_pos (hf.resolve_left (not_not.mpr hfl)), if_neg (not_not.mpr hfl)]
      · rw [if_pos hfl, if_pos hfl]
    · have hdoes (y : Option RegAt) (n : Nat) (u : State) : does y n u = halfAct b u y n := by cases y <;> rfl
      rw [hdoes] at ht
      rw [hdoes, if_neg (not_not.mpr hfl), if_neg (not_not.mpr hfh), ht]
      rfl

end Sys2Proof.Machine
end
